-- ==== Sys2Proof/Word.lean ====
section
/-! DEFINITION. The word types of the E9 and their plainest arithmetic. -/
namespace Sys2Proof

/-- One byte. -/
abbrev Byte := BitVec 8

/-- A 32-bit word: a CSR, a Warden register. -/
abbrev Word := BitVec 32

end Sys2Proof
end

