-- ==== Sys2Proof/Types.lean ====
section
/-! DEFINITION. The closed sets of names the spec uses: ports, requesters, modes, grades, completion statuses. -/
namespace Sys2Proof

/-- The two UCIe host ports (R124). -/
inductive Port where
  | a | b
  deriving DecidableEq, Repr

/-- Who presents a CSR access (R57): a host port or a Warden core (0 to 3). -/
inductive Requester where
  | host (p : Port)
  | core (n : Fin 4)
  deriving DecidableEq, Repr

/-- Ordering codes (Table 0-1). -/
inductive Grade where
  | x8 | s4 | c8
  deriving DecidableEq, Repr

/-- The operating modes (Table 3-1). -/
inductive Mode where
  | blank | survey | provision | ceremony | service | degraded | maintain | join | hold | forensic | zeroized | retired
  deriving DecidableEq, Repr

/-- `CST` of a `CPL` (Table 4-5). -/
inductive Cst where
  | ok | translation | abort
  deriving DecidableEq, Repr

/-- The two detectors of a pair, or the two noise sources (Table 18-1, chapter 11). -/
inductive Side where
  | a | b
  deriving DecidableEq, Repr

/-- How an operation runs on its public-key core: well, with a check before release that fails (R363), or with a core fault
(Table 10-10). -/
inductive CoreRun where
  | ok | checkFail | fault
  deriving DecidableEq, Repr

/-- Width of a CSR access in bits (R54, R55). -/
inductive Width where
  | b8 | b16 | b32 | b64
  deriving DecidableEq, Repr

end Sys2Proof
end

