-- ==== Sys2Proof/Messages.lean ====
section
/-! DEFINITION. What the E9's surroundings send: the Weper mesh's content (chapter 12) with the key record that a broadcast carries, and
what custodian credentials, tags and seals answer (chapter 17). -/
namespace Sys2Proof.Machine

/-- A key record's fields (Table 7-2), less `GEN`, `STATE` and `MAC`, which stand in the slot. -/
structure KeyRec where
  /-- `ALG`, 8 bits. -/
  alg : Nat
  /-- `COLOUR`, 4 bits. -/
  colour : Nat
  /-- `FLAGS`, Table 7-3. -/
  flags : BitVec 8
  /-- `USAGE`, Table 7-5. -/
  usage : BitVec 32
  /-- `OWNER`, 12 bits. -/
  owner : Nat
  /-- `HOME_DDN`, 14 bits. -/
  homeDdn : Nat
  /-- `SHARE_POOL`, 32 bits. -/
  pool : Nat
  /-- `WRAP_COLOURS`, 16 bits. -/
  wrapColours : BitVec 16
  /-- `DERIVE_COLOUR`, 4 bits. -/
  deriveColour : Nat
  /-- `EXPIRY`, 48 bits of RTC seconds. -/
  expiry : Nat
  /-- `APPLET`, 16 bits. -/
  applet : Nat
  /-- `CREATED_TALLY`, 64 bits. -/
  created : Nat
  /-- `KCV`, 3 bytes. -/
  kcv : List Byte
  /-- `EXT_COUNT`, 0 to 8. -/
  extCount : Nat
  /-- `EXT_FIRST`. -/
  extFirst : Nat
  /-- The key material itself, inline or in the extension (R233): the exclusive OR of the masked parts. -/
  material : List Byte
  deriving DecidableEq, Repr

/-- One entry of a statement (Table 12-5). -/
structure StmtEntry where
  pool : Nat
  change : Nat
  held : Nat
  amount : Nat
  srcTally : Nat
  deriving DecidableEq, Repr

/-- A statement of one ledger step (Table 12-5); its signature is a function of its bytes. -/
structure Stmt where
  ddn : Nat
  incarnation : Nat
  lsq : Nat
  tally : Nat
  entries : List StmtEntry
  deriving DecidableEq, Repr

/-- A keeper's answer to a statement (R415). -/
inductive Verdict where
  | acked | void
  deriving DecidableEq, Repr

/-- Answer to a TRANSFER (R418). -/
inductive TransferAns where
  | credited | stale | void
  deriving DecidableEq, Repr

/-- What a broadcast carries (R428). -/
inductive Bcast where
  /-- Pool header (R429). -/
  | pool (num kind minted declared draw lowWater : Nat)
  /-- Declaration of the origin, the stranded device's keeper: stranded device, pool or 0, amount burned, `LSQ` (R423). -/
  | declared (ddn pool amount lsq : Nat)
  /-- Membership change: number, incarnation, digest (R406). -/
  | member (ddn incarnation : Nat) (digest : List Byte)
  /-- Domain record change: index, generation, and the record, none when deleted (R431). -/
  | key (idx gen : Nat) (r : Option KeyRec)
  deriving DecidableEq, Repr

/-- An adjacency record (R407). -/
structure AdjRec where
  ddn : Nat
  incarnation : Nat
  seq : Nat
  /-- Neighbour and cost of each session. -/
  links : List (Nat × Nat)
  deriving DecidableEq, Repr

/-- The content of a Weper frame (R399). -/
inductive Msg where
  | idle
  | sessionInit (cap : Word) | sessionResponse (cap : Word) | sessionConfirm
  | statement (st : Stmt)
  | stmtAck (ddn lsq : Nat) (v : Verdict)
  /-- A keeper or a joining device asks for the latest statements of a device (R426). -/
  | askLatest (ddn : Nat)
  /-- The latest statements of a device. -/
  | latest (sts : List Stmt)
  /-- The old keeper may release a device's statements (R416). -/
  | release (ddn : Nat)
  | transfer (pool tally amount : Nat)
  | transferAck (pool tally : Nat) (a : TransferAns)
  | floor (tally : Nat)
  /-- A settlement is asked of a keeper: stranded device and pool (R423). -/
  | settle (ddn pool : Nat)
  | bcast (origin seq : Nat) (b : Bcast)
  /-- Broadcasts of an origin from a sequence number on are wanted (R428). -/
  | fetch (origin seq : Nat)
  /-- A keeper, or the source of a transfer to a settled device, asks a keeper whether it has acknowledged a transfer in: destination,
  pool, the source's tally (R423). -/
  | query (ddn pool tally : Nat)
  /-- Its answer: acknowledged, or else voided. -/
  | queryAns (ddn pool tally : Nat) (held : Bool)
  /-- A domain record change is applied: origin and sequence number (R431). -/
  | bcastAck (origin seq : Nat)
  | adj (a : AdjRec)
  deriving DecidableEq, Repr

/-- A keeper's answer to a device (R414, R426). -/
inductive KeeperAns where
  | ack (lsq : Nat) (v : Verdict)
  | latest (sts : List Stmt)
  deriving DecidableEq, Repr

/-- The header of a Weper frame (Table 12-2). -/
structure FrameHdr where
  ftype : Nat
  nak : Bool
  hops : Nat
  /-- `DST`; 0x8000 set for the neighbour alone. -/
  dst : Nat
  src : Nat
  fseq : Nat
  ack : Nat
  crd : Nat
  len : Nat
  epoch : Nat
  deriving DecidableEq, Repr

/-! ### Custodian credentials, tags and seals (17), segment kinds (16) -/

/-- What a credential answers in the handshake: a reason, or custodian number, ephemeral key and nonce, its signature verified. -/
inductive CredAns where
  | fail (reason : Nat)
  | ok (cust : Nat) (qc nc : List Byte)
  deriving DecidableEq, Repr

/-- What an enrolment answers: a reason, or the credential's public key. -/
inductive EnrolAns where
  | fail (reason : Nat)
  | ok (pub : List Byte)
  deriving DecidableEq, Repr

/-- What a write to a badge or seal meets: the `VR` of the answer to the `PROBE` before it, none without an answer within 1 ms, and what
the write then comes to (R566). A card has no `PROBE`. -/
structure TagWrite (α : Type) where
  vr : Option (BitVec 8)
  ans : α
  deriving DecidableEq, Repr

/-- What the reader finds in one slot of a frame. -/
inductive SlotAns where
  | empty
  | single (ident : Nat) (vr : Byte)
  | collided
  deriving DecidableEq, Repr

/-- A third-party card found: Type A (UID, ATQA and SAK) or Type B (PUPI, protocol info). -/
structure CardFound where
  uid : List Byte
  info : List Byte
  deriving DecidableEq, Repr

/-- What a seal answers: a reason, or serial, state (bit 0 issued, bit 1 `BROKEN`), write count and memory. -/
inductive SealAns where
  | fail (reason : Nat)
  | ok (serial state count : Nat) (mem : List Byte)
  deriving DecidableEq, Repr

/-- What a credential gives in a component exchange: a reason, or its component record (R559). -/
inductive CompAns where
  | fail (reason : Nat)
  | ok (record : List Byte)
  deriving DecidableEq, Repr

/-- `KIND` of a segment (Table 16-7). -/
inductive SegKind where
  | archive | statement | audit | label
  deriving DecidableEq, Repr

/-! ### Reads of host memory (04) -/

/-- What a host-memory read of the E9 fetches. -/
inductive ReadOf where
  /-- Entries of a submission queue, by the numbers of their commands (R157). Each arrives by its own row, `ENTRY_ARRIVE`. -/
  | entries (ids : List Nat)
  /-- The extended parameter block of a command. -/
  | block (id : Nat)
  /-- `SRC` of a command. -/
  | src (id : Nat)
  /-- A word of a furrow's dirty bitmap, by its number (R215, R216). -/
  | bitmap (furrow word : Nat)
  deriving DecidableEq, Repr

/-! ### Registers of the slow domain (02) -/

/-- A slow-domain register that a posted write changes: `TAMPER_ALARM`, `TAMPER_LEVEL0`, a pin's configuration (R69, R70). -/
inductive SlowReg where
  | alarm
  | level0
  | pin (n : Fin 8)
  deriving DecidableEq, Repr

/-! ### Survey measurements (03) -/

/-- What a mesh port's survey finds: `MEDIUM` (0 copper, 1 optical, 2 nothing connected), open or short, copper length in cm. -/
structure MeshFound where
  medium : Fin 3
  bad : Bool
  cm : Nat
  deriving DecidableEq, Repr

/-- What the survey measures (Table 3-6); items 6 and the cartridges' bring-up have rows of their own. -/
inductive SurveyData where
  /-- Item 0: mV of each rail. -/
  | rails (mv : List (BitVec 16))
  /-- Item 1: mV of the cell. -/
  | cell (mv : BitVec 16)
  /-- Items 2 and 3: open or shorted coil, inductance in nH, Q, and the setting it gives. -/
  | antenna (bad : Bool) (nh : BitVec 16) (q : BitVec 8) (setting : BitVec 5)
  | punty (bad : Bool) (nh : BitVec 16) (q : BitVec 8) (setting : BitVec 5)
  /-- Item 4: the card-detect switch is closed; highest contact resistance in mΩ. -/
  | card (present : Bool) (mOhm : BitVec 16)
  /-- Item 5: port by port. -/
  | mesh (ports : List MeshFound)
  /-- Item 7: every fitted slot's bring-up has ended, or it holds no cartridge. -/
  | carts
  /-- Item 8. -/
  | peers
  /-- Item 9: the two computations of the selected mode agree. -/
  | decision (agree : Bool)
  deriving DecidableEq, Repr

end Sys2Proof.Machine
end

