-- ==== Sys2Proof/Syntax.lean ====
section
/-! DEFINITION. The commands: one constructor for each row of spec/opcode_table.json. A command that a submission queue carries takes the
model's number of the fetched command (`id`); a register access takes its requester and value; an event takes the data that the
world outside brings with it. -/
namespace Sys2Proof
open Sys2Proof.Machine

/-- The steps of the part (R1; the operations and events of the table). -/
inductive Instr where
  /-- `CSR_WRITE` (R67): A host or Warden write to a CSR without a row of its own is checked for width, Headgate and guard or lock, and
  then takes effect or is dropped with an error bit. -/
  | csrWrite (r : Requester) (ptag : Option (BitVec 20)) (addr : BitVec 21) (w : Width) (v : BitVec 64)
  /-- `BLK_UNLOCK` (R62): A write to a block's unlock register arms that block's guard for one write, or sets UNLOCK_BAD for a wrong
  value. -/
  | blkUnlock (r : Requester) (blk : Fin 16) (v : Word)
  /-- `WIDE_VALUE_LATCH` (R74): A read of the lowest word of a wide value latches its higher words for that requester. -/
  | wideValueLatch (r : Requester) (ptag : Option (BitVec 20)) (addr : BitVec 21) (w : Width)
  /-- `POSTED_WRITE_LAND` (R70): A posted slow-domain write lands on the second slow-clock edge after acceptance, updating the register
  and its copy and clearing PEND. -/
  | postedWriteLand (r : SlowReg)
  /-- `CLAIM` (R136): A Headgate CLAIM from a port takes a free Headgate, renews its own lease, or leaves a pending claim. -/
  | claim (p : Port) (lease : BitVec 8) (tie : Option (BitVec 8))
  /-- `RELEASE` (R136): A Headgate RELEASE by the owner passes ownership to a waiting port or frees it. -/
  | release (p : Port)
  /-- `CANCEL` (R136): A Headgate CANCEL clears the port's pending claim. -/
  | cancel (p : Port)
  /-- `LEASE_EXPIRY` (R138): The owner's lease runs out without renewal, so the Headgate releases with cause lease expiry. -/
  | leaseExpiry
  /-- `HEADGATE_LINK_LOSS` (R139): The owning port has been down for 10 ms, so the Headgate releases with cause link loss. -/
  | headgateLinkLoss
  /-- `PORT_X_EVT_CTL` (R141): A write to a port's event ring control enables or configures the ring, resetting head, tail, lost count
  and phase when EN is set. -/
  | portXEvtCtl (r : Requester) (x : Port) (v : Word)
  /-- `PORT_X_EVT_HEAD` (R141): A write of the event ring head releases read entries, or is refused with EVT_HEAD_BAD. -/
  | portXEvtHead (r : Requester) (x : Port) (v : Word)
  /-- `PORT_RETRAIN` (R152): A write of PORT_x_CTL.RETRAIN retrains or brings up the port. -/
  | portRetrain (r : Requester) (x : Port) (v : Word)
  /-- `PORT_DISABLE` (R152): A write of PORT_x_CTL.DISABLE holds the port down, or releases it. -/
  | portDisable (r : Requester) (x : Port) (v : Word)
  /-- `TRAINING_REQUEST` (R152): The partner asks for training over the sideband on a down port. -/
  | trainingRequest (p : Port)
  /-- `LINK_TRAINING_DONE` (R125): UCIe training at a rate finishes or fails, stepping down through lower rates and repairing lanes or
  falling to x32. -/
  | linkTrainingDone (p : Port) (trains : BitVec 6) (partner : BitVec 16) (failTx failRx : Nat)
  /-- `E9_CAP_RSP` (R127): The partner's capability answer arrives and the port comes up only when FLIT256, PTAG and FLUSH are set. -/
  | e9CapRsp (p : Port) (cap : BitVec 16)
  /-- `E9_CAP_TIMEOUT` (R127): No capability answer within 1 ms keeps the port down with a survey fault. -/
  | e9CapTimeout (p : Port)
  /-- `FLIT_RECEIVE` (R130): A flit arrives and is accepted, or on bad CRC or sequence is discarded with NAK; acknowledgements free
  replay entries. -/
  | flitReceive (p : Port) (flit : List Byte)
  /-- `REPLAY_TIMEOUT` (R131): Four replays of one flit or 10 µs without ACK retrain the port, and after three failed retrains the port
  is down. -/
  | replayTimeout (p : Port)
  /-- `PORT_DOWN` (R150): A port goes down: DOWN_x set, LINK_STATE posted, queues rehomed, reads reissued and unflushed writes rewritten
  through the other port. -/
  | portDown (p : Port)
  /-- `CPL_RECEIVE` (R133): Completion data for an E9 read arrives; a non-success status completes the command with DMA_FAULT. -/
  | cplReceive (r : ReadOf) (cst : Cst) (data : List Byte)
  /-- `FLUSH_ACK` (R148): A FLUSH_ACK arrives, releasing delayed CSR reads and marking earlier writes visible. -/
  | flushAck (p : Port) (n : Nat)
  /-- `FLUSH_TIMEOUT` (R149): No FLUSH_ACK within 1 ms sets FLUSH_TIMEOUT and retrains the port. -/
  | flushTimeout (p : Port)
  /-- `LINK_DOWN` (R151): A read still waiting 100 ms while neither port was up completes its command with LINK_DOWN. -/
  | linkDown (id : Nat)
  /-- `CQ_HOME_RETURN` (R155): A CQ moves back to its configured home port once it is quiet after that port returns. -/
  | cqHomeReturn (f n : Nat)
  /-- `SQ_TAIL` (R160): A doorbell write of SQ_TAIL publishes a batch of entries, or is dropped with a CMD_ERR bit. -/
  | sqTail (p : Port) (ptag : Option (BitVec 20)) (q : BitVec 15) (v : Word)
  /-- `CQ_HEAD` (R171): A doorbell write of CQ_HEAD returns completion slots, or is dropped with a CMD_ERR bit. -/
  | cqHead (p : Port) (ptag : Option (BitVec 20)) (q : BitVec 15) (v : Word)
  /-- `ADMIN_QUEUE_ENABLE` (R187): A write setting CMD_ADMIN_CFG.EN takes credits and starts the admin rings, or is ignored with
  ADMIN_CFG_BAD. -/
  | adminQueueEnable (r : Requester) (v : Word)
  /-- `ADMIN_QUEUE_DISABLE` (R187): A write clearing CMD_ADMIN_CFG.EN disables the admin queue under the disable rule. -/
  | adminQueueDisable (r : Requester) (v : Word)
  /-- `ENTRY_FETCH` (R175): The E9 fetches entries of an SQ once it holds a credit and a free CQ slot, taking one of each per entry. -/
  | entryFetch (f n k : Nat)
  /-- `ENTRY_ARRIVE` (R168): A fetched entry arrives and is checked in order, reserving a second CQ slot for a sealing command. -/
  | entryArrive (id : Nat) (cst : Cst) (e : List Byte)
  /-- `DISPATCH` (R20): A checked command is dispatched to Flume or a Warden core once fences, restores and slots allow. -/
  | dispatch (id : Nat)
  /-- `SHARE_RECHECK` (R282): A command waiting on other reservations repeats its share check as each resolves. -/
  | shareRecheck (id : Nat)
  /-- `SEAL_COMPLETION` (R181): After every sealed command has completed, the seal completion is written with its counts. -/
  | sealCompletion (f n : Nat)
  /-- `COALESCE_TIMEOUT` (R174): COALESCE_US elapses after the first unsignalled completion and the interrupt write is made. -/
  | coalesceTimeout (f n : Nat)
  /-- `QUEUE_DRAINED` (R45): A disabled SQ finishes draining, setting CMD_QDIS.DONE and posting QUEUE_DRAINED. -/
  | queueDrained (f n : Nat)
  /-- `MAIN_POWER_GOOD` (R597): Every main rail has been in range for 100 µs; the E9 enters SURVEY, or RETIRED when the retire fuse is
  burned. -/
  | mainPowerGood
  /-- `BOOT_ROM_START` (R101): Core 0 runs the boot ROM: resumes erases, reserves a tally block, tallies backup records and checks the
  master key. -/
  | bootRomStart
  /-- `BOOT_RELEASE` (R103): Once KEY-class output is available the boot ROM checks the image twice, generates the memory key and runs
  mode selection. -/
  | bootRelease (sig0 sig1 agree : Bool)
  /-- `SURVEY_ITEM_DONE` (R110): A survey item's measurement completes, setting its survey register, DONE bit and defaults. -/
  | surveyItemDone (d : SurveyData)
  /-- `SURVEY_REPEAT` (R111): Connecting a mesh cable, inserting a cartridge or a card repeats that item's measurement. -/
  | surveyRepeat (d : SurveyData)
  /-- `SURVEY_END` (R105): SURVEY ends when every item is done or 200 ms have passed, and the E9 enters the selected mode. -/
  | surveyEnd (late : Bool) (us : BitVec 32)
  /-- `KNOWN_ANSWER_TESTS` (R274): Flume units, cipher lanes and public-key cores run known-answer tests at power-up, retiring those
  that fail. -/
  | knownAnswerTests (flume lanes pke : List (Fin 64)) (rng : Bool)
  /-- `MAIN_POWER_LOSS` (R598): VDD_IO33 falls below 3.15 V; voltage and clock pairs disarm and the E9 enters HOLD with VBAT in range. -/
  | mainPowerLoss (survive : Nat)
  /-- `PUNTY_FIELD_ARRIVE` (R592): A Punty field without main power moves the E9 to FORENSIC and writes an entry record when VBAT is
  present. -/
  | puntyFieldArrive
  /-- `PUNTY_FIELD_LOSS` (R592): The Punty field is lost and the E9 returns to HOLD with an exit record. -/
  | puntyFieldLoss
  /-- `SLEEP_ENTRY` (R34): After IDLE_TIME of uninterrupted idleness the E9 stops the fast clocks and enters sleep. -/
  | sleepEntry
  /-- `WAKE` (R35): A doorbell, mesh wake, capacitive wake, timer interrupt or level 2 alarm starts the fast clocks within 2 µs. -/
  | wake
  /-- `TEMP_STEP_DOWN` (R30): Both temperature sensors read above 125 °C and the engine clock steps down. -/
  | tempStepDown
  /-- `TEMP_STEP_UP` (R30): Both sensors have read 120 °C or below for 10 ms and the engine clock steps back up. -/
  | tempStepUp
  /-- `MARK_ADVANCE` (R513): A tally or nonce mark runs low and the mark engine writes a record advancing it. -/
  | markAdvance (nonce : Bool) (n : Nat)
  /-- `MARK_RECORD_VERIFIED` (R513): A mark record verifies, releasing stalled values and posting the tally mark to the backup domain. -/
  | markRecordVerified (nonce : Bool)
  /-- `NOP` (R185): NOP completes with OK and has no other effect. -/
  | nop (id : Nat)
  /-- `DEVICE_INFO` (R185): DEVICE_INFO returns device information. -/
  | deviceInfo (id : Nat)
  /-- `MODE_PROVISION_BEGIN` (R109): Moves BLANK to PROVISION, writing a MODE_STATE record with provision_open. -/
  | modeProvisionBegin (id : Nat) (ddn : BitVec 14)
  /-- `MODE_PROVISION_COMPLETE` (R109): Moves PROVISION to SERVICE, DEGRADED or JOIN once identity, keys, custodians, vault and domain
  number exist. -/
  | modeProvisionComplete (id : Nat)
  /-- `MODE_REPROVISION` (R108): Moves ZEROIZED to PROVISION with the quorum, resetting the MODE_STATE flags. -/
  | modeReprovision (id : Nat) (agree : Bool)
  /-- `MODE_CEREMONY_BEGIN` (R93): Moves SERVICE or DEGRADED to CEREMONY with the quorum. -/
  | modeCeremonyBegin (id : Nat)
  /-- `MODE_CEREMONY_END` (R97): Moves CEREMONY to SERVICE or DEGRADED. -/
  | modeCeremonyEnd (id : Nat)
  /-- `MODE_MAINTAIN_BEGIN` (R117): Moves SERVICE or DEGRADED to MAINTAIN. -/
  | modeMaintainBegin (id : Nat)
  /-- `MODE_MAINTAIN_COMMIT` (R118): Restarts the Warden cores, checks the staged image twice, marks it active and reselects the mode. -/
  | modeMaintainCommit (id : Nat) (sig0 sig1 agree : Bool)
  /-- `MODE_MAINTAIN_ABORT` (R93): Leaves MAINTAIN for SERVICE or DEGRADED outside recovery. -/
  | modeMaintainAbort (id : Nat)
  /-- `IMAGE_LOAD_ERASE` (R518): Erases the 24 sectors of an image slot in MAINTAIN. -/
  | imageLoadErase (id : Nat) (ok : Bool)
  /-- `IMAGE_LOAD_WRITE` (R518): Programs rows of an image slot from SRC in MAINTAIN. -/
  | imageLoadWrite (id : Nat) (ok : Bool)
  /-- `IMAGE_STATUS` (R518): Writes the state, version, length and hash of both image slots. -/
  | imageStatus (id : Nat) (sig0 sig1 : Bool)
  /-- `MODE_JOIN_BEGIN` (R121): Moves SERVICE or DEGRADED to JOIN, writing join_open. -/
  | modeJoinBegin (id : Nat)
  /-- `MODE_JOIN_ABORT` (R121): Leaves JOIN for PROVISION or SERVICE or DEGRADED, as the MODE_STATE record gives. -/
  | modeJoinAbort (id : Nat)
  /-- `MODE_ZEROIZE` (R422): Sends a zeroize statement to the keeper, then destroys keys and enters ZEROIZED after the double decision. -/
  | modeZeroize (id : Nat) (agree : Bool)
  /-- `MODE_RETIRE` (R99): Burns the retire fuse after the double decision and enters RETIRED for good. -/
  | modeRetire (id : Nat) (agree : Bool)
  /-- `RTC_SET` (R586): Sets the RTC in PROVISION and marks it valid. -/
  | rtcSet (id : Nat)
  /-- `UNIT_DISABLE` (R45): Disables a unit, completing its unstarted commands with ABORTED_DISABLED. -/
  | unitDisable (id : Nat)
  /-- `UNIT_ENABLE` (R45): Re-enables a disabled unit. -/
  | unitEnable (id : Nat)
  /-- `KEY_GENERATE` (R259): Generates a key record from the KEY class under a basic or expert template. -/
  | keyGenerate (id : Nat)
  /-- `KEY_IMPORT` (R263): Opens an ANSI X9.143 key block under KEY_B and creates a record. -/
  | keyImport (id : Nat)
  /-- `KEY_EXPORT` (R262): Exports a key as a key block under a no weaker protection key, or a public key raw. -/
  | keyExport (id : Nat)
  /-- `KEY_DERIVE` (R261): Derives a child key record from a parent by a supported method. -/
  | keyDerive (id : Nat)
  /-- `KEY_DELETE` (R251): Makes a record cullet, advancing its generation so its handle is stale. -/
  | keyDelete (id : Nat)
  /-- `KEY_QUERY` (R611): Writes the public fields of a record at DST. -/
  | keyQuery (id : Nat)
  /-- `KEY_SET_POLICY` (R260): Narrows a record's policy, or in CEREMONY changes it further. -/
  | keySetPolicy (id : Nat)
  /-- `KEY_IMPORT_COMPONENTS` (R265): Combines components read from custodian credentials into a key when the KCV matches. -/
  | keyImportComponents (id : Nat) (a : CompAns)
  /-- `KEY_EXPORT_COMPONENTS` (R265): Splits a key into components written to custodian credentials. -/
  | keyExportComponents (id : Nat) (a : TagWrite CompAns)
  /-- `CACHE_FILL` (R245): A key-cache miss completes with the record read from the key store and its tag checked. -/
  | cacheFill (i : Nat) (gran : Option Nat) (reads : List (List Byte)) (others : List Nat)
  /-- `RECORD_RELOAD` (R227): A corrupt persistent record's reload from the vault completes, or fails with INTERNAL_FAULT. -/
  | recordReload (i : Nat) (ok : Bool)
  /-- `SCRUB` (R252): An unpinned cullet record is overwritten, written back FREE and its slot appended to the free list. -/
  | scrub (i : Nat)
  /-- `FLOORS_LOADED` (R255): Floors, the occupancy bitmap and the domain shape are loaded, and allocation may proceed. -/
  | floorsLoaded
  /-- `RECORD_RESTORE` (R254): A persistent record and its granules are restored from the vault, in order or ahead of order for a
  waiting command. -/
  | recordRestore (i : Nat)
  /-- `KEYTAB_RESTORE_DONE` (R254): Every persistent record is restored and KEYTAB_RESTORE_DONE is posted. -/
  | keytabRestoreDone
  /-- `SYM_ENCRYPT` (R327): Encrypts SRC on the cipher lanes in ECB, CBC, CTR or XTS. -/
  | symEncrypt (id : Nat)
  /-- `SYM_DECRYPT` (R327): Decrypts SRC on the cipher lanes. -/
  | symDecrypt (id : Nat)
  /-- `AEAD_SEAL` (R327): Encrypts and authenticates in GCM or CCM, with a generated or supplied nonce. -/
  | aeadSeal (id : Nat)
  /-- `AEAD_OPEN` (R329): Checks the tag and decrypts, or completes with VERIFY_FAILED. -/
  | aeadOpen (id : Nat)
  /-- `MAC_GENERATE` (R327): Computes a CMAC or HMAC over the message. -/
  | macGenerate (id : Nat)
  /-- `MAC_VERIFY` (R329): Verifies a candidate CMAC or HMAC. -/
  | macVerify (id : Nat)
  /-- `SYM_WRAP` (R327): Wraps data with KW or KWP. -/
  | symWrap (id : Nat)
  /-- `SYM_UNWRAP` (R329): Unwraps and checks the integrity value. -/
  | symUnwrap (id : Nat)
  /-- `KSLOT_LOAD` (R339): A CIPHER_KSLOT_CMD LOAD fills a software key slot from the writer's staging set and increments SEQ. -/
  | kslotLoad (r : Requester) (v : Word)
  /-- `KSLOT_CLEAR` (R339): A CIPHER_KSLOT_CMD CLEAR empties a software key slot. -/
  | kslotClear (r : Requester) (v : Word)
  /-- `LANE_FAULT` (R344): A faulting lane is retired and its work rerun on another lane, or the command ends with INTERNAL_FAULT. -/
  | laneFault (n : Fin 16)
  /-- `CIPHER_DISABLE` (R345): A write of CIPHER_CTL.DISABLE disables or re-enables the cipher engine. -/
  | cipherDisable (r : Requester) (v : Word)
  /-- `CIPHER_DRAINED` (R345): No class 0x2 command remains in flight after a disable; DRAINED set and event posted. -/
  | cipherDrained
  /-- `PIN_TRANSLATE` (R289): Decrypts a PIN block under KEY_A and re-encodes it under KEY_B in the output format. -/
  | pinTranslate (id : Nat)
  /-- `PIN_VERIFY` (R283): Verifies a PIN by the offset or PVV method, debiting a try share on failure. -/
  | pinVerify (id : Nat)
  /-- `PIN_OFFSET_GENERATE` (R294): Computes a PIN offset by the offset method. -/
  | pinOffsetGenerate (id : Nat)
  /-- `PVV_GENERATE` (R295): Computes a PVV. -/
  | pvvGenerate (id : Nat)
  /-- `ARQC_VERIFY` (R297): Verifies an EMV application cryptogram. -/
  | arqcVerify (id : Nat)
  /-- `ARQC_VERIFY_ARPC` (R300): Verifies a cryptogram and generates the ARPC. -/
  | arqcVerifyArpc (id : Nat)
  /-- `CVV_GENERATE` (R301): Computes a card verification value. -/
  | cvvGenerate (id : Nat)
  /-- `CVV_VERIFY` (R302): Verifies a candidate card verification value. -/
  | cvvVerify (id : Nat)
  /-- `DUKPT_PIN_TRANSLATE` (R305): Derives the DUKPT working key and translates the PIN block. -/
  | dukptPinTranslate (id : Nat)
  /-- `DUKPT_MAC_VERIFY` (R305): Derives the DUKPT MAC key and verifies the MAC. -/
  | dukptMacVerify (id : Nat)
  /-- `RETAIL_MAC_GENERATE` (R306): Computes an ISO/IEC 9797-1 MAC. -/
  | retailMacGenerate (id : Nat)
  /-- `RETAIL_MAC_VERIFY` (R306): Verifies an ISO/IEC 9797-1 MAC. -/
  | retailMacVerify (id : Nat)
  /-- `FF1_TOKENISE` (R308): Enciphers symbols with FF1. -/
  | ff1Tokenise (id : Nat)
  /-- `FF1_DETOKENISE` (R308): Deciphers symbols with FF1. -/
  | ff1Detokenise (id : Nat)
  /-- `FLUME_UNIT_FAULT` (R274): A transform unit faults; its command completes with INTERNAL_FAULT and the unit is retired. -/
  | flumeUnitFault (u : Fin 64)
  /-- `FLUME_DISABLE` (R276): A write of FLUME_CTL.DISABLE disables or re-enables Flume. -/
  | flumeDisable (r : Requester) (v : Word)
  /-- `FLUME_DRAINED` (R276): The Flume disable drain ends; DRAINED set and FLUME_DRAINED posted. -/
  | flumeDrained
  /-- `ROLLUP_CLOSE` (R26): Each RTC second the per-key usage rollup closes into one audit record. -/
  | rollupClose
  /-- `PK_SIGN` (R354): Signs a message or digest with a private key record. -/
  | pkSign (id : Nat) (run : CoreRun)
  /-- `PK_VERIFY` (R354): Verifies a signature under a public record or inline key. -/
  | pkVerify (id : Nat) (fault : Bool)
  /-- `PK_KEYPAIR_GENERATE` (R356): Generates a private record and optionally a public record. -/
  | pkKeypairGenerate (id : Nat) (run : CoreRun)
  /-- `ECDH_DERIVE` (R355): Derives a session key record from ECDH. -/
  | ecdhDerive (id : Nat) (run : CoreRun)
  /-- `KEM_ENCAPSULATE` (R355): Encapsulates to an ML-KEM key and derives a session key record. -/
  | kemEncapsulate (id : Nat) (fault : Bool)
  /-- `KEM_DECAPSULATE` (R359): Decapsulates an ML-KEM ciphertext and derives a session key record. -/
  | kemDecapsulate (id : Nat) (fault : Bool)
  /-- `RSA_ENCRYPT` (R353): Encrypts with RSAES-OAEP. -/
  | rsaEncrypt (id : Nat) (fault : Bool)
  /-- `RSA_DECRYPT` (R358): Decrypts with RSAES-OAEP. -/
  | rsaDecrypt (id : Nat) (run : CoreRun)
  /-- `PKE_DISABLE` (R366): A write of PKE_CTL.DISABLE disables or re-enables the public-key engine. -/
  | pkeDisable (r : Requester) (v : Word)
  /-- `PKE_DRAINED` (R366): The public-key engine disable drains; DRAINED set and PKE_DRAINED posted. -/
  | pkeDrained
  /-- `RANDOM_BYTES` (R393): Generates DST_LEN bytes from the DRBG, optionally reseeding. -/
  | randomBytes (id : Nat)
  /-- `RNG_HEALTH` (R392): Writes the 64-byte health record. -/
  | rngHealth (id : Nat)
  /-- `RNG_DATA` (R388): A read of RNG_DATA returns a KEY-class word once, waiting while needed, or 0 when stopped. -/
  | rngData (r : Requester) (wide : Bool)
  /-- `EST_LATCH` (R373): A read of RNG_x_EST0 latches the other estimate registers for the requester. -/
  | estLatch (r : Requester) (x : Side)
  /-- `RNG_RAW_READ` (R371): A diagnostic raw read returns a raw word and withholds it from Gather. -/
  | rngRawRead (r : Requester) (x : Side) (raw : Word)
  /-- `KEY_PREF_WRITE` (R379): A write of RNG_CFG.KEY_PREF moves the KEY class to that source when in service, with a reseed. -/
  | keyPrefWrite (r : Requester) (v : Word)
  /-- `MASK_FAILS_CLEAR` (R380): Writing RNG_MASK_FAILS.CLEAR zeroes the MASK-class counts. -/
  | maskFailsClear (r : Requester) (v : Word)
  /-- `GATHER_BLOCK` (R370): A Gather lane absorbs its block's count of raw bits and emits a pending block. -/
  | gatherBlock (x : Side) (raw : List Bool)
  /-- `ESTIMATE_WINDOW_END` (R373): An estimate window ends; estimates are written and pending blocks are credited or discarded. -/
  | estimateWindowEnd (x : Side)
  /-- `RNG_HEALTH_FAIL` (R378): A source fails a health test; it retests and the KEY class moves or stops. -/
  | rngHealthFail
  /-- `STARTUP_TEST_DONE` (R376): A source's start-up test ends; it returns to service, repeats, or is retired after two failures. -/
  | startupTestDone (x : Side)
  /-- `DRBG_INSTANTIATE` (R375): Once sources and known-answer tests pass, the DRBG is instantiated, expanders seeded and E7_RDY raised. -/
  | drbgInstantiate
  /-- `RESEED` (R385): The DRBG reseeds from two blocks once available, clearing STRETCHED and STALLED. -/
  | reseed
  /-- `MASK_FALLBACK` (R377): The MASK source has credited no block for 1 ms and the KEY source serves MASK. -/
  | maskFallback
  /-- `EXPANDER_REKEY` (R387): An expander core receives a new seed after its word count. -/
  | expanderRekey (core : Fin 24) (short : Nat)
  /-- `E7_REQ` (R391): A consumer's request on the private wires is answered with one 128-bit word once E7_RDY is high. -/
  | e7Req (consumer : Fin 3)
  /-- `SHARES_MINT` (R429): Mints shares into a new or existing pool in CEREMONY. -/
  | sharesMint (id : Nat)
  /-- `SHARES_TRANSFER` (R417): Runs steps 1 to 3 of a transfer: outbound record, keeper statement, TRANSFER sent. -/
  | sharesTransfer (id : Nat)
  /-- `SHARES_BALANCE` (R433): Writes the 96-byte balance of a pool. -/
  | sharesBalance (id : Nat)
  /-- `SHARES_BURN_STRANDED` (R423): Asks the stranded device's keeper to settle one or every pool. -/
  | sharesBurnStranded (id keeper : Nat)
  /-- `ROUTE_UPDATE_ADMIT` (R406): Issues a membership certificate in CEREMONY. -/
  | routeUpdateAdmit (id : Nat)
  /-- `ROUTE_UPDATE_INSTALL` (R406): Installs a membership certificate in JOIN. -/
  | routeUpdateInstall (id : Nat) (ok : Bool)
  /-- `ROUTE_UPDATE_PORT_COST` (R407): Sets a mesh port's routing cost. -/
  | routeUpdatePortCost (id : Nat)
  /-- `ROUTE_UPDATE_SET_KEEPER` (R416): Moves the device's statements to a new keeper. -/
  | routeUpdateSetKeeper (id : Nat)
  /-- `PEER_STATUS` (R433): Reports a member's reachability and keeper, or a kept statement. -/
  | peerStatus (id : Nat)
  /-- `MESH_PORT_RETRAIN` (R397): A write of CISTERN_PORTn_CTL.RETRAIN retrains the mesh port. -/
  | meshPortRetrain (r : Requester) (n : Fin 4) (v : Word)
  /-- `MESH_PORT_DISABLE` (R397): A write of CISTERN_PORTn_CTL.DISABLE holds the port down and closes its session. -/
  | meshPortDisable (r : Requester) (n : Fin 4) (v : Word)
  /-- `MESH_TRAINING_DONE` (R397): Clause 136 training completes or fails; three failures hold the port down. -/
  | meshTrainingDone (n : Fin 4) (ok first : Bool)
  /-- `MESH_TRAINING_TIMEOUT` (R397): Training does not complete within 500 ms. -/
  | meshTrainingTimeout (n : Fin 4)
  /-- `SESSION_INIT` (R402): The initiator's first handshake message arrives: capability, nonce, certificate, key and signature. -/
  | sessionInit (n : Fin 4) (cap : Word) (cert : Option (Nat × Nat))
  /-- `SESSION_RESPONSE` (R402): The responder's handshake message arrives with the ML-KEM ciphertext. -/
  | sessionResponse (n : Fin 4) (cap : Word) (cert : Option (Nat × Nat)) (report : List (Nat × Nat))
  /-- `SESSION_CONFIRM` (R403): The final signature arrives and the session opens when the certificates verify. -/
  | sessionConfirm (n : Fin 4) (ok : Bool) (report : List (Nat × Nat))
  /-- `SESSION_REPLACE` (R404): After 2^32 frames, 24 hours or three retrains a minute, a new handshake replaces the session. -/
  | sessionReplace (n : Fin 4) (first : Bool)
  /-- `WEPER_FRAME_RECEIVE` (R400): A Weper frame arrives and is accepted, forwarded or discarded with NAK. -/
  | weperFrameReceive (n : Fin 4) (b : List Byte) (m : Msg)
  /-- `FRAME_RESEND_TIMEOUT` (R400): A frame unacknowledged for 20 µs is resent; eight resends retrain the port. -/
  | frameResendTimeout (n : Fin 4)
  /-- `ADJ` (R407): An adjacency record arrives and least-cost paths are recomputed. -/
  | adj (n : Fin 4) (a : AdjRec)
  /-- `BROADCAST` (R428): A broadcast arrives and is applied in per-origin order, fetching any gap. -/
  | broadcast (n : Fin 4) (origin seq : Nat) (b : Bcast)
  /-- `STATEMENT` (R415): A keeper receives a statement, journals it and acknowledges, or answers VOID. -/
  | statement (st : Stmt)
  /-- `STATEMENT_ACK` (R414): The keeper's acknowledgement arrives and the HELD change takes effect. -/
  | statementAck (src : Nat) (a : KeeperAns)
  /-- `TRANSFER` (R417): A TRANSFER arrives at the destination, which programs an inbound record or answers CREDITED, STALE or VOID. -/
  | transfer (src pool tally amount : Nat)
  /-- `TRANSFER_ACK` (R418): The source receives CREDITED or VOID and programs its record DONE or BURNED. -/
  | transferAck (dst pool tally : Nat) (a : TransferAns)
  /-- `TRANSFER_RESEND` (R418): The resend interval expires and the source resends TRANSFER. -/
  | transferResend
  /-- `TRANSFER_FLOOR` (R419): The source's floor arrives and the destination may discard older inbound records. -/
  | transferFloor (src tally : Nat)
  /-- `DRAW` (R411): The ledger draws shares from HELD to WORKING when WORKING runs low or a command waits. -/
  | draw (pool : Nat)
  /-- `SETTLE_REQUEST` (R423): A keeper settles a stranded device's pools, burning HELD and resolving its transfers. -/
  | settleRequest (d pool : Nat) (acked : List Nat)
  /-- `JOIN_SYNC_COMPLETE` (R432): All join conditions hold; join_open is cleared and the E9 leaves JOIN. -/
  | joinSyncComplete (key : BitVec 256)
  /-- `APPLET_INSTALL` (R459): Verifies and installs or upgrades an applet package. -/
  | appletInstall (id : Nat)
  /-- `APPLET_REMOVE` (R457): Removes an installed applet and clears its store. -/
  | appletRemove (id : Nat)
  /-- `APPLET_INVOKE` (R461): Runs an applet's invoke entry at A level and completes as its end gives. -/
  | appletInvoke (id : Nat)
  /-- `APPLET_LIST` (R457): Lists installed applets. -/
  | appletList (id : Nat)
  /-- `APPLET_BUDGET` (R462): An invocation spends its instruction budget and ends. -/
  | appletBudget (core : Fin 4)
  /-- `EXIT` (R462): The EXIT service ends an invocation or hook with its status and result. -/
  | exit (core : Fin 4)
  /-- `SERVICE_CALL` (R466): The CALL service runs a command entry for the applet. -/
  | serviceCall (core : Fin 4)
  /-- `RANDOM` (R465): The RANDOM service returns KEY-class bytes. -/
  | random (core : Fin 4)
  /-- `TIME` (R465): The TIME service returns RTC time. -/
  | time (core : Fin 4)
  /-- `PSTORE_READ` (R467): Reads the applet's persistent store. -/
  | pstoreRead (core : Fin 4)
  /-- `PSTORE_WRITE` (R467): Writes the persistent store synchronously when the generation matches. -/
  | pstoreWrite (core : Fin 4)
  /-- `LOG` (R465): Writes an individual audit record from the applet. -/
  | log (core : Fin 4)
  /-- `ADD` (R443): add instruction. -/
  | add (n : Fin 4) (rd rs1 rs2 : BitVec 4) (z : BitVec 8)
  /-- `SUB` (R443): sub instruction. -/
  | sub (n : Fin 4) (rd rs1 rs2 : BitVec 4) (z : BitVec 8)
  /-- `AND` (R443): and instruction. -/
  | and (n : Fin 4) (rd rs1 rs2 : BitVec 4) (z : BitVec 8)
  /-- `OR` (R443): or instruction. -/
  | or (n : Fin 4) (rd rs1 rs2 : BitVec 4) (z : BitVec 8)
  /-- `XOR` (R443): xor instruction. -/
  | xor (n : Fin 4) (rd rs1 rs2 : BitVec 4) (z : BitVec 8)
  /-- `SHL` (R443): Shift left by rs2. -/
  | shl (n : Fin 4) (rd rs1 rs2 : BitVec 4) (z : BitVec 8)
  /-- `SHR` (R443): Shift right logical by rs2. -/
  | shr (n : Fin 4) (rd rs1 rs2 : BitVec 4) (z : BitVec 8)
  /-- `SAR` (R443): Shift right arithmetic by rs2. -/
  | sar (n : Fin 4) (rd rs1 rs2 : BitVec 4) (z : BitVec 8)
  /-- `ROTR` (R443): Rotate right by rs2. -/
  | rotr (n : Fin 4) (rd rs1 rs2 : BitVec 4) (z : BitVec 8)
  /-- `CMPLT` (R443): Signed compare. -/
  | cmplt (n : Fin 4) (rd rs1 rs2 : BitVec 4) (z : BitVec 8)
  /-- `CMPLTU` (R443): Unsigned compare. -/
  | cmpltu (n : Fin 4) (rd rs1 rs2 : BitVec 4) (z : BitVec 8)
  /-- `MUL` (R443): Low word of product. -/
  | mul (n : Fin 4) (rd rs1 rs2 : BitVec 4) (z : BitVec 8)
  /-- `MULHI` (R443): Signed high word of product. -/
  | mulhi (n : Fin 4) (rd rs1 rs2 : BitVec 4) (z : BitVec 8)
  /-- `MULHIU` (R443): Unsigned high word of product. -/
  | mulhiu (n : Fin 4) (rd rs1 rs2 : BitVec 4) (z : BitVec 8)
  /-- `DIV` (R445): Signed quotient without exceptions. -/
  | div (n : Fin 4) (rd rs1 rs2 : BitVec 4) (z : BitVec 8)
  /-- `DIVU` (R445): Unsigned quotient. -/
  | divu (n : Fin 4) (rd rs1 rs2 : BitVec 4) (z : BitVec 8)
  /-- `MOD` (R445): Signed remainder. -/
  | mod (n : Fin 4) (rd rs1 rs2 : BitVec 4) (z : BitVec 8)
  /-- `MODU` (R445): Unsigned remainder. -/
  | modu (n : Fin 4) (rd rs1 rs2 : BitVec 4) (z : BitVec 8)
  /-- `ATSWAP` (R446): Atomic swap. -/
  | atswap (n : Fin 4) (rd rs1 rs2 : BitVec 4) (z : BitVec 8)
  /-- `ATADD` (R446): Atomic add. -/
  | atadd (n : Fin 4) (rd rs1 rs2 : BitVec 4) (z : BitVec 8)
  /-- `ADDK` (R443): Add immediate. -/
  | addk (n : Fin 4) (rd rs1 : BitVec 4) (imm : BitVec 18)
  /-- `ANDK` (R443): And immediate. -/
  | andk (n : Fin 4) (rd rs1 : BitVec 4) (imm : BitVec 18)
  /-- `ORK` (R443): Or immediate. -/
  | ork (n : Fin 4) (rd rs1 : BitVec 4) (imm : BitVec 18)
  /-- `XORK` (R443): Xor immediate. -/
  | xork (n : Fin 4) (rd rs1 : BitVec 4) (imm : BitVec 18)
  /-- `CMPLTK` (R443): Signed compare with immediate. -/
  | cmpltk (n : Fin 4) (rd rs1 : BitVec 4) (imm : BitVec 18)
  /-- `CMPLTUK` (R443): Unsigned compare with immediate. -/
  | cmpltuk (n : Fin 4) (rd rs1 : BitVec 4) (imm : BitVec 18)
  /-- `SHLK` (R443): Shift left by immediate. -/
  | shlk (n : Fin 4) (rd rs1 : BitVec 4) (imm : BitVec 18)
  /-- `SHRK` (R443): Shift right logical by immediate. -/
  | shrk (n : Fin 4) (rd rs1 : BitVec 4) (imm : BitVec 18)
  /-- `SARK` (R443): Shift right arithmetic by immediate. -/
  | sark (n : Fin 4) (rd rs1 : BitVec 4) (imm : BitVec 18)
  /-- `UPK` (R443): Load upper immediate. -/
  | upk (n : Fin 4) (rd rs1 : BitVec 4) (imm : BitVec 18)
  /-- `LDW` (R443): Load word. -/
  | ldw (n : Fin 4) (rd rs1 : BitVec 4) (imm : BitVec 18)
  /-- `LDH` (R443): Load halfword, sign-extended. -/
  | ldh (n : Fin 4) (rd rs1 : BitVec 4) (imm : BitVec 18)
  /-- `LDHU` (R443): Load halfword, zero-extended. -/
  | ldhu (n : Fin 4) (rd rs1 : BitVec 4) (imm : BitVec 18)
  /-- `LDB` (R443): Load byte, sign-extended. -/
  | ldb (n : Fin 4) (rd rs1 : BitVec 4) (imm : BitVec 18)
  /-- `LDBU` (R443): Load byte, zero-extended. -/
  | ldbu (n : Fin 4) (rd rs1 : BitVec 4) (imm : BitVec 18)
  /-- `STW` (R443): Store word. -/
  | stw (n : Fin 4) (rs2 rs1 : BitVec 4) (imm : BitVec 18) (bus : Bool)
  /-- `STH` (R443): Store halfword. -/
  | sth (n : Fin 4) (rs2 rs1 : BitVec 4) (imm : BitVec 18) (bus : Bool)
  /-- `STB` (R443): Store byte. -/
  | stb (n : Fin 4) (rs2 rs1 : BitVec 4) (imm : BitVec 18) (bus : Bool)
  /-- `BREQ` (R447): Branch if equal, with delay slot. -/
  | breq (n : Fin 4) (rs1 rs2 : BitVec 4) (off : BitVec 18)
  /-- `BRNE` (R447): Branch if not equal. -/
  | brne (n : Fin 4) (rs1 rs2 : BitVec 4) (off : BitVec 18)
  /-- `BRLT` (R447): Branch if less, signed. -/
  | brlt (n : Fin 4) (rs1 rs2 : BitVec 4) (off : BitVec 18)
  /-- `BRGE` (R447): Branch if greater or equal, signed. -/
  | brge (n : Fin 4) (rs1 rs2 : BitVec 4) (off : BitVec 18)
  /-- `BRLTU` (R447): Branch if less, unsigned. -/
  | brltu (n : Fin 4) (rs1 rs2 : BitVec 4) (off : BitVec 18)
  /-- `BRGEU` (R447): Branch if greater or equal, unsigned. -/
  | brgeu (n : Fin 4) (rs1 rs2 : BitVec 4) (off : BitVec 18)
  /-- `JMP` (R447): Jump with delay slot. -/
  | jmp (n : Fin 4) (off : BitVec 26)
  /-- `CALL` (R448): Call, writing w15. -/
  | call (n : Fin 4) (off : BitVec 26)
  /-- `CALLR` (R483): Call through register. -/
  | callr (n : Fin 4) (rd rs1 : BitVec 4) (imm : BitVec 18)
  /-- `LOOP` (R450): Start a hardware loop with count from rs1. -/
  | loop (n : Fin 4) (z : BitVec 4) (rs1 : BitVec 4) (z' : BitVec 4) (off : BitVec 14)
  /-- `LOOPI` (R450): Start a hardware loop with an immediate count. -/
  | loopi (n : Fin 4) (count : BitVec 12) (off : BitVec 14)
  /-- `RDCR` (R440): Read a core CSR. -/
  | rdcr (n : Fin 4) (rd rs1 : BitVec 4) (z : BitVec 6) (csr : BitVec 12)
  /-- `WRCR` (R484): Write a core CSR. -/
  | wrcr (n : Fin 4) (rd rs1 : BitVec 4) (z : BitVec 6) (csr : BitVec 12)
  /-- `SETCR` (R484): Set bits of a core CSR. -/
  | setcr (n : Fin 4) (rd rs1 : BitVec 4) (z : BitVec 6) (csr : BitVec 12)
  /-- `CLRCR` (R484): Clear bits of a core CSR. -/
  | clrcr (n : Fin 4) (rd rs1 : BitVec 4) (z : BitVec 6) (csr : BitVec 12)
  /-- `XRET` (R479): Return from trap, restoring level, GM and loop state. -/
  | xret (n : Fin 4) (z : BitVec 20)
  /-- `TRAP` (R474): Raises TRAP_INSTR to the service or monitor handler. -/
  | trap (n : Fin 4) (z : BitVec 4) (imm : BitVec 16)
  /-- `WAIT` (R444): Wait until an enabled interrupt is pending. -/
  | wait (n : Fin 4) (z : BitVec 20)
  /-- `SYNC` (R446): Wait until earlier stores are performed or reported. -/
  | sync (n : Fin 4) (z : BitVec 20)
  /-- `TAGW` (R492): Change an SRAM line's colour. -/
  | tagw (n : Fin 4) (z : BitVec 4) (rs1 rs2 : BitVec 4) (z' : BitVec 8)
  /-- `TAGR` (R439): Read an SRAM line's colour. -/
  | tagr (n : Fin 4) (rd rs1 : BitVec 4) (z : BitVec 12)
  /-- `LATE_WRITE` (R496): A store or DMA access refused after issue raises LATE_WRITE at the next permitted boundary. -/
  | lateWrite (n : Fin 4)
  /-- `INTERRUPT` (R472): A pending enabled interrupt is taken at an instruction boundary. -/
  | interrupt (n : Fin 4) (src : Option (Fin 16))
  /-- `DMA_DONE` (R494): A core's DMA transfer ends or stops on a refusal, raising its done interrupt. -/
  | dmaDone (n : Fin 4) (a : Word) (data : Option (List Byte)) (len : BitVec 16)
  /-- `PROG_ROWS` (R505): Programs 256-byte rows of a main sector. -/
  | progRows (n : Fin 4) (len : BitVec 5)
  /-- `PROG_WORDS` (R506): Programs parameter words in three copies. -/
  | progWords (n : Fin 4) (len : BitVec 5)
  /-- `ERASE_MAIN` (R508): Erases a main sector under an erase-pending flag. -/
  | eraseMain (n : Fin 4) (len : BitVec 5)
  /-- `ERASE_PARAM` (R508): Erases a parameter sector under an erase-pending flag. -/
  | eraseParam (n : Fin 4) (len : BitVec 5)
  /-- `RECORD_WRITE` (R512): Writes a record to the record log. -/
  | recordWrite (n : Fin 4) (len : BitVec 5)
  /-- `FLASH_OP_DONE` (R515): A flash operation ends; result posted, DONE set and interrupt 0x15 raised. -/
  | flashOpDone (p : Fin 3) (ok : Bool) (weak : List (Nat × Nat))
  /-- `VAULT_FORMAT` (R545): Formats the vault on blank cartridges. -/
  | vaultFormat (id : Nat)
  /-- `VAULT_STATUS` (R545): Reports vault state. -/
  | vaultStatus (id : Nat)
  /-- `JOURNAL_READ` (R545): Reads audit records from a tally. -/
  | journalRead (id : Nat)
  /-- `JOURNAL_EXPORT` (R544): Exports signed audit records, optionally advancing the export mark. -/
  | journalExport (id : Nat)
  /-- `VAULT_REBUILD` (R541): Starts a rebuild onto a slot. -/
  | vaultRebuild (id : Nat)
  /-- `VAULT_SET_LAYOUT` (R528): Chooses mirrored or striped layout before format. -/
  | vaultSetLayout (id : Nat)
  /-- `SLOT_RELEASE` (R546): A write of VAULT_SLOTn_CTL.RELEASE drops the slot from the set once its writes are done. -/
  | slotRelease (r : Requester) (n : Fin 2) (v : Word)
  /-- `SEGMENT_SEAL` (R531): An open segment is sealed when full, after 200 µs or on a synchronous record, and written. -/
  | segmentSeal (k : SegKind)
  /-- `COMPLETION_TOKEN` (R526): A cartridge's completion token arrives; the segment may become durable, or a media error or retirement
  is handled. -/
  | completionToken (n : Fin 2) (f : BitVec 64) (left : BitVec 32) (cst : BitVec 8)
  /-- `TOKEN_TIMEOUT` (R527): A response or token misses its limit and the slot is treated as removed. -/
  | tokenTimeout (n : Fin 2)
  /-- `PRESENCE_CHECK` (R527): The 1 ms presence check of an idle bus runs. -/
  | presenceCheck (n : Fin 2) (present : Bool)
  /-- `CARTRIDGE_INSERT` (R525): A cartridge arrives and bring-up begins. -/
  | cartridgeInsert (n : Fin 2)
  /-- `SLOT_BRING_UP` (R525): Bring-up completes or fails: identity, challenge, voltage switch and bus set. -/
  | slotBringUp (n : Fin 2) (answers proof v12 : Bool) (page : List Byte)
  /-- `VAULT_REPLAY` (R536): The arriving cartridge's journal is verified and it is classed current, stale, blank or foreign. -/
  | vaultReplay (n : Fin 2) (label : Option (BitVec 64 × BitVec 32)) (segs : List (Nat × Bool))
  /-- `CATCH_UP_DONE` (R537): A stale mirror has copied missing segments and becomes current. -/
  | catchUpDone (n : Fin 2)
  /-- `VAULT_REBUILD_DONE` (R541): A rebuild completes; the cartridge is current and CART cleared. -/
  | vaultRebuildDone (n : Fin 2)
  /-- `CART_STATUS_POLL` (R539): Every 10 s the vault reads cartridge status and warns on low spares. -/
  | cartStatusPoll (n : Fin 2) (left : BitVec 32) (st : BitVec 8)
  /-- `ENROL` (R550): Enrols a card or badge as a custodian. -/
  | enrol (id : Nat) (a : TagWrite EnrolAns)
  /-- `REVOKE` (R550): Revokes a custodian and ends its session. -/
  | revoke (id : Nat)
  /-- `SET_DEFINE` (R550): Defines or deletes a custodian set. -/
  | setDefine (id : Nat)
  /-- `SET_HOLD` (R553): Sets HOLD_S. -/
  | setHold (id : Nat)
  /-- `QUORUM_STATUS` (R569): Reports the quorum verdict and sessions. -/
  | quorumStatus (id : Nat)
  /-- `CARD_SESSION` (R551): Opens a custodian session with the card in the slot. -/
  | cardSession (id : Nat) (a : CredAns)
  /-- `BADGE_AUTHENTICATE` (R551): Opens a custodian session with a badge. -/
  | badgeAuthenticate (id : Nat) (a : CredAns)
  /-- `TAG_INVENTORY` (R561): Runs a Sluice and ISO/IEC 14443 inventory. -/
  | tagInventory (id : Nat) (frames : List (List SlotAns)) (cardsA cardsB : List CardFound)
  /-- `SEAL_READ` (R565): Reads a seal's state and memory. -/
  | sealRead (id : Nat) (a : SealAns)
  /-- `SEAL_ISSUE` (R565): Writes keys into a blank seal. -/
  | sealIssue (id : Nat) (a : TagWrite SealAns)
  /-- `SEAL_WRITE` (R567): Writes rows of a seal's memory. -/
  | sealWrite (id : Nat) (a : TagWrite SealAns)
  /-- `CARD_INSERT` (R556): A card is inserted and activated at class C. -/
  | cardInsert
  /-- `ATR` (R556): The card's ATR arrives and the class is kept or changed. -/
  | atr (ind : Option (Bool × Bool × Bool))
  /-- `CARD_REMOVED` (R558): The card-detect switch opens and the contacts are deactivated. -/
  | cardRemoved
  /-- `CARD_OVERCURRENT` (R607): A card over its current limit for 1 ms is deactivated. -/
  | cardOvercurrent
  /-- `SESSION_EXPIRY` (R553): A custodian session expires HOLD_S after its credential was last seen. -/
  | sessionExpiry (n : BitVec 8)
  /-- `VERDICT_EVALUATION` (R554): The quorum verdict is computed twice on a snapshot and QUORUM updated when both agree. -/
  | verdictEvaluation (agree : Bool)
  /-- `PROBE` (R564): Every 250 ms the reader probes a live badge. -/
  | probe (n : BitVec 8) (answered : Bool)
  /-- `CAPACITIVE_WAKE` (R568): A capacitance change for three cycles or a card-detect change wakes the E9. -/
  | capacitiveWake
  /-- `TAMPER_STATUS` (R593): Reports tamper state. -/
  | tamperStatus (id : Nat)
  /-- `TAMPER_LOG_READ` (R593): Reads tamper-log records from a tally. -/
  | tamperLogRead (id : Nat)
  /-- `EVIDENCE_READ` (R593): Reports the evidence counter. -/
  | evidenceRead (id : Nat)
  /-- `PUNTY_WRITE` (R593): Writes host rows of the Punty, completing once swapped in. -/
  | puntyWrite (id : Nat)
  /-- `TAMPER_PIN_CONFIG` (R587): Configures a tamper pin. -/
  | tamperPinConfig (id : Nat)
  /-- `TAMPER_LEVEL0_WRITE` (R574): A write of TAMPER_LEVEL0 sets source levels, lowering only with the quorum. -/
  | tamperLevel0Write (r : Requester) (v : Word)
  /-- `ALARM_RAISED` (R572): An alarm source's condition is met and the response lines act at once. -/
  | alarmRaised (n : Fin 24) (a b : Word)
  /-- `ALARM_RECORD` (R577): At the next slow edge each alarm of the cycle gets a record and tally and RESP_LEVEL is updated. -/
  | alarmRecord
  /-- `MONITOR_FAULT` (R573): A monitor pair disagrees for 1 ms and its monitor-fault source is raised. -/
  | monitorFault (p : Fin 5) (a b : Word)
  /-- `SCRUB_COMPLETE` (R579): Every unit has reported its level 3 erasure; SCRUBBING clears and dispatch resumes at level 1 rules. -/
  | scrubComplete
  /-- `WORKING_KEYS_REFORMED` (R579): Vault and audit keys are re-formed after the erasures and vault writes resume. -/
  | workingKeysReformed
  /-- `ZEROIZE_DECISION` (R580): The second computation of a zeroize decision agrees and the zeroize actions take place. -/
  | zeroizeDecision (agree : Bool)
  /-- `HOLD_ALARM` (R585): An alarm raised in HOLD is recorded and at level 3 or 4 erases the master key. -/
  | holdAlarm (n : Fin 24) (a b : Word) (agree : Bool)
  /-- `TAMPER_LOG_COPY` (R583): Firmware copies a tallied backup record to the tamper log and frees it. -/
  | tamperLogCopy (ok : Bool)
  /-- `VBAT_MEASURE` (R601): Every 60 s under main power VBAT is measured. -/
  | vbatMeasure (mv : BitVec 16)
  /-- `PUNTY_SWAP` (R589): A pending shadow row is swapped into the visible Punty memory. -/
  | puntySwap (ok : Bool)
  /-- `PUNTY_ANTICOLLISION` (R591): A reader's Type A anticollision and SELECT are answered with a random UID. -/
  | puntyAnticollision
  /-- `PT_READ` (R591): Returns one Punty row. -/
  | ptRead (row : BitVec 8)
  /-- `PT_READ4` (R591): Returns four Punty rows. -/
  | ptRead4 (row : BitVec 8)
  /-- `HLTA` (R591): Halts the Punty. -/
  | hlta
  /-- `FURROW_CREATE` (R211): Creates a furrow, ACTIVE in basic form or restored QUIESCED in expert form. -/
  | furrowCreate (id : Nat)
  /-- `FURROW_SET_POLICY` (R200): Replaces a furrow's policy. -/
  | furrowSetPolicy (id : Nat)
  /-- `FURROW_QUIESCE` (R206): Stops fetch, leaving fetched commands to complete. -/
  | furrowQuiesce (id : Nat)
  /-- `FURROW_QUIESCED` (R206): A quiescing furrow drains and becomes QUIESCED. -/
  | furrowQuiesced (n : Nat)
  /-- `FURROW_RESET` (R209): Deletes a quiesced furrow's queues and session records. -/
  | furrowReset (id : Nat)
  /-- `FURROW_REMOVE` (R210): Frees a quiesced furrow. -/
  | furrowRemove (id : Nat)
  /-- `FURROW_DISABLE` (R207): Disables a furrow under the disable rule. -/
  | furrowDisable (id : Nat)
  /-- `FURROW_DISABLED` (R206): A disabled furrow drains and it is reported. -/
  | furrowDisabled (n : Nat)
  /-- `FURROW_ENABLE` (R205): Re-enables a quiesced or drained furrow. -/
  | furrowEnable (id : Nat)
  /-- `DIRTY_LOG_START` (R218): Starts or switches dirty-page logging. -/
  | dirtyLogStart (id : Nat)
  /-- `DIRTY_LOG_STOP` (R218): Stops dirty-page logging. -/
  | dirtyLogStop (id : Nat)
  /-- `FURROW_QUERY` (R212): Writes a furrow's state record. -/
  | furrowQuery (id : Nat)
  /-- `CQ_CREATE` (R158): Creates a CQ. -/
  | cqCreate (id : Nat)
  /-- `CQ_DELETE` (R158): Deletes a CQ. -/
  | cqDelete (id : Nat)
  /-- `SQ_CREATE` (R158): Creates an SQ with credits. -/
  | sqCreate (id : Nat)
  /-- `SQ_DELETE` (R158): Deletes a drained SQ. -/
  | sqDelete (id : Nat)
  /-- `SQ_DISABLE` (R158): Disables an SQ. -/
  | sqDisable (id : Nat)
  /-- `SQ_ENABLE` (R158): Re-enables a drained SQ. -/
  | sqEnable (id : Nat)
  /-- `QUEUE_QUERY` (R158): Reports an SQ and its CQ. -/
  | queueQuery (id : Nat)
  /-- `SELFTEST_RESULTS` (R185): Reports self-test results. -/
  | selftestResults (id : Nat)
  /-- `LOOPBACK` (R185): Copies SRC to DST. -/
  | loopback (id : Nat)
  /-- `COUNTER_SNAPSHOT` (R185): Reports diagnostic counters. -/
  | counterSnapshot (id : Nat)
  /-- `UNIT_SELFTEST` (R185): Runs a unit self-test. -/
  | unitSelftest (id : Nat)
  /-- `MEMORY_TEST` (R185): Runs a memory test. -/
  | memoryTest (id : Nat)
  /-- `ALARM_CONDITION_ABSENT` (R578): An alarm source's condition, or a monitor pair's disagreement, ceases and its TAMPER_ACTIVE bit
  clears, so a later or earlier clear of its TAMPER_ALARM bit ends the alarm. -/
  | alarmConditionAbsent (n : Fin 24)
  /-- `VBAT_LOST` (R102): The backup cell is lost while main power is absent, so the backup domain loses backup SRAM, the master key-
  encryption key and its records, and the E9 becomes unpowered. -/
  | vbatLost
  /-- `BACKUP_DOMAIN_FIRST_POWERED` (R586): The backup domain is first powered by a cell, starting the RTC at 0 with RTC_VALID 0,
  disabling every tamper pin and setting slow-domain registers to their reset values. -/
  | backupDomainFirstPowered
  /-- `CARD_SILENT` (R556): A card activated at class C gives no ATR within 40,000 clock cycles and is reported as silent. -/
  | cardSilent
  deriving DecidableEq, Repr

end Sys2Proof
end

