-- ==== Sys2Proof/Decode.lean ====
section
/-! DEFINITION. The command that a word spells by the opcode table's bits. The table gives no row a field of bits, so no word spells a
command (log 17): commands come to the E9 as rows placed in its queue. -/
namespace Sys2Proof

/-- The command a word spells: none, for no row of the table has bits (log 17). -/
def decodeTableWord (_nbits _w : Nat) : Option Instr := none

end Sys2Proof
end

