-- ==== Sys2Proof/Machine/Bits.lean ====
section
/-! DEFINITION. Byte order, bit fields and small list helpers, shared by every block. -/
namespace Sys2Proof.Machine

/-- The low `n` bytes of `v`, least significant first (R10). -/
def le : Nat → Nat → List Byte
  | 0, _ => []
  | n + 1, v => BitVec.ofNat 8 v :: le n (v / 256)

/-- The low `n` bytes of `v`, most significant first. -/
def be (n v : Nat) : List Byte := (le n v).reverse

/-- The number that bytes spell, least significant first (R10). -/
def leNat : List Byte → Nat
  | [] => 0
  | b :: bs => b.toNat + 256 * leNat bs

/-- The number that bytes spell, most significant first. -/
def beNat (bs : List Byte) : Nat := leNat bs.reverse

/-- `n` bytes at offset `off`, zero beyond the end. -/
def bytesAt (bs : List Byte) (off n : Nat) : List Byte :=
  let xs := (bs.drop off).take n
  xs ++ List.replicate (n - xs.length) 0

/-- The little-endian number in `n` bytes at offset `off`. -/
def natAt (bs : List Byte) (off n : Nat) : Nat := leNat (bytesAt bs off n)

/-- One byte at an offset, 0 beyond the end. -/
def byteAt (bs : List Byte) (off : Nat) : Byte := bs.getD off 0

/-- Every byte of a list is 0. -/
def allZero (bs : List Byte) : Bool := bs.all (· == 0)

/-- Bit `n` of a byte list seen as a number. -/
def bitAt (bs : List Byte) (off n : Nat) : Bool := (byteAt bs off).getLsbD n

/-- `n` zero bytes. -/
def zeros (n : Nat) : List Byte := List.replicate n 0

/-- A Bool as a 0 or 1 number. -/
def bit (b : Bool) : Nat := if b then 1 else 0

/-- A Bool as a word with bit `n` set or clear. -/
def wbit (b : Bool) (n : Nat) : Word := if b then (1 : Word) <<< n else 0

/-- A number placed as a field at bit `n` of a word. -/
def wfield (v n : Nat) : Word := BitVec.ofNat 32 v <<< n

/-- Bits [hi:lo] of a word as a number (R11). -/
def fieldOf (w : Word) (hi lo : Nat) : Nat := (w.toNat >>> lo) % 2 ^ (hi + 1 - lo)

/-- A saturating count of `bits` bits, stepped by `k`. -/
def satAdd (bits n k : Nat) : Nat := min (2 ^ bits - 1) (n + k)

/-- The exclusive or of two byte lists, as long as the shorter. -/
def xorBytes (xs ys : List Byte) : List Byte := List.zipWith (· ^^^ ·) xs ys

/-- Set, in a list sorted by key, the entry of `k`; `none` removes it. -/
def assocSet {α : Type} (k : Nat) (v : Option α) : List (Nat × α) → List (Nat × α)
  | [] => match v with
    | some x => [(k, x)]
    | none => []
  | (k', x') :: rest =>
    if k < k' then (match v with
      | some x => (k, x) :: (k', x') :: rest
      | none => (k', x') :: rest)
    else if k = k' then (match v with
      | some x => (k, x) :: rest
      | none => rest)
    else (k', x') :: assocSet k v rest

/-- The entry of `k` in an association list. -/
def assocGet {α : Type} (k : Nat) : List (Nat × α) → Option α
  | [] => none
  | (k', x) :: rest => if k = k' then some x else assocGet k rest

/-- Insert a number into a rising list without repeats. -/
def insertNat (n : Nat) : List Nat → List Nat
  | [] => [n]
  | m :: rest => if n < m then n :: m :: rest else if n = m then m :: rest else m :: insertNat n rest

/-- Cut a byte list into blocks of `n` bytes; the last may be short. `fuel` bounds the blocks. -/
def chunksFuel (n : Nat) : Nat → List Byte → List (List Byte)
  | 0, _ => []
  | fuel + 1, bs => if bs.isEmpty then [] else bs.take n :: chunksFuel n fuel (bs.drop n)

/-- Cut a byte list into blocks of `n` bytes; the last may be short. -/
def chunks (n : Nat) (bs : List Byte) : List (List Byte) := chunksFuel n bs.length bs

/-- The first element that satisfies a test, replaced. -/
def updFirst {α : Type} (p : α → Bool) (f : α → α) : List α → List α
  | [] => []
  | x :: xs => if p x then f x :: xs else x :: updFirst p f xs

/-- Add `k` at position `i` of a list of counters. -/
def bumpAt (i k : Nat) : List Nat → List Nat
  | [] => []
  | x :: xs => match i with
    | 0 => (x + k) :: xs
    | j + 1 => x :: bumpAt j k xs

end Sys2Proof.Machine
end

