-- ==== Sys2Proof/Machine/Crypto.lean ====
section
/-! DEFINITION. The symmetric algorithms the spec names: AES, TDEA, their modes, SHA-2, HMAC, CMAC, key derivation.
PRESUMED (log 30): each is the algorithm of the standard the spec cites. -/
namespace Sys2Proof.Machine

/-! ### AES (FIPS 197) -/

/-- One substituted byte. -/
def subByte (b : Byte) : Byte := aesS.getD b.toNat 0

/-- The inverse substitution. -/
def invSubByte (b : Byte) : Byte := BitVec.ofNat 8 (aesS.idxOf b)

/-- Multiplication by x in GF(2^8). -/
def xtime (b : Byte) : Byte := (b <<< 1) ^^^ (if b.getLsbD 7 then 0x1B else 0)

/-- Multiplication in GF(2^8) by a small constant. -/
def gmul (a : Byte) (k : Nat) : Byte :=
  let a2 := xtime a
  let a4 := xtime a2
  let a8 := xtime a4
  (if k % 2 = 1 then a else 0) ^^^ (if k / 2 % 2 = 1 then a2 else 0) ^^^ (if k / 4 % 2 = 1 then a4 else 0)
    ^^^ (if k / 8 % 2 = 1 then a8 else 0)

/-- One more word of the key schedule; `ws` is newest first, `i` its number, `nk` the key's words. -/
def aesNextWord (nk i : Nat) (rcon : Byte) (ws : List (List Byte)) : List Byte :=
  let prev := ws.getD 0 []
  let back := ws.getD (nk - 1) []
  let t := if i % nk = 0 then
      xorBytes (((prev.drop 1) ++ prev.take 1).map subByte) [rcon, 0, 0, 0]
    else if nk > 6 ∧ i % nk = 4 then prev.map subByte
    else prev
  xorBytes back t

/-- Extend the key schedule by `n` words. -/
def aesSchedule (nk : Nat) : Nat → Nat → Byte → List (List Byte) → List (List Byte)
  | 0, _, _, ws => ws
  | n + 1, i, rcon, ws =>
    aesSchedule nk n (i + 1) (if i % nk = 0 then xtime rcon else rcon) (aesNextWord nk i rcon ws :: ws)

/-- Round keys of 16 bytes, first to last. -/
def aesKeys (key : List Byte) : List (List Byte) :=
  let nk := key.length / 4
  let ws := aesSchedule nk (4 * (nk + 7) - nk) nk 1 (chunks 4 key).reverse
  chunks 16 ws.reverse.flatten

/-- ShiftRows: byte i of the result comes from this position. -/
def shiftRowsIdx (i : Nat) : Nat := (i + 4 * (i % 4)) % 16

/-- Inverse ShiftRows. -/
def invShiftRowsIdx (i : Nat) : Nat := (i + 16 - 4 * (i % 4)) % 16

/-- Reorder 16 bytes. -/
def permute (f : Nat → Nat) (b : List Byte) : List Byte := (List.range 16).map fun i => b.getD (f i) 0

/-- MixColumns with the four coefficients of its first row. -/
def mixCols (k0 k1 k2 k3 : Nat) (b : List Byte) : List Byte :=
  (List.range 16).map fun i =>
    let c := i / 4 * 4
    let g := fun j => b.getD (c + (i + j) % 4) 0
    gmul (g 0) k0 ^^^ gmul (g 1) k1 ^^^ gmul (g 2) k2 ^^^ gmul (g 3) k3

/-- The rounds of encryption after the first key addition. -/
def aesRounds : List (List Byte) → List Byte → List Byte
  | [], b => b
  | [k], b => xorBytes (permute shiftRowsIdx (b.map subByte)) k
  | k :: ks, b => aesRounds ks (xorBytes (mixCols 2 3 1 1 (permute shiftRowsIdx (b.map subByte))) k)

/-- AES encryption of one block. -/
def aesEnc (key block : List Byte) : List Byte :=
  match aesKeys key with
  | [] => block
  | k :: ks => aesRounds ks (xorBytes block k)

/-- The rounds of decryption; round keys last to first, the first key addition made. -/
def aesInvRounds : List (List Byte) → List Byte → List Byte
  | [], b => b
  | [k], b => xorBytes ((permute invShiftRowsIdx b).map invSubByte) k
  | k :: ks, b => aesInvRounds ks (mixCols 14 11 13 9 (xorBytes ((permute invShiftRowsIdx b).map invSubByte) k))

/-- AES decryption of one block. -/
def aesDec (key block : List Byte) : List Byte :=
  match (aesKeys key).reverse with
  | [] => block
  | k :: ks => aesInvRounds ks (xorBytes block k)

/-! ### DES and TDEA (SP 800-67) -/

/-- The bits of an `n`-bit number that a table selects, most significant first; the table counts from 1 at the most significant. -/
def desSelect (n : Nat) (t : List Nat) (w : Nat) : Nat := t.foldl (fun v i => 2 * v + w / 2 ^ (n - i) % 2) 0

/-- The eight S-boxes. -/
def desSBoxes : List (List Nat) := [desS1, desS2, desS3, desS4, desS5, desS6, desS7, desS8]

/-- One S-box on six bits. -/
def desSbox (t : List Nat) (b : Nat) : Nat := t.getD (16 * (2 * (b / 32) + b % 2) + b / 2 % 16) 0

/-- The S-boxes on 48 bits. -/
def desSubst (w : Nat) : Nat := (desSBoxes.foldl (fun v t => (v.1 - 6, 16 * v.2 + desSbox t (w / 2 ^ v.1 % 64))) (42, 0)).2

/-- The DES round function. -/
def desF (r k : Nat) : Nat := desSelect 32 desP (desSubst (desSelect 32 desE r ^^^ k))

/-- Rotations of the key halves, round by round. -/
def desShifts : List Nat := [1, 1, 2, 2, 2, 2, 2, 2, 1, 2, 2, 2, 2, 2, 2, 1]

/-- Rotate 28 bits left. -/
def desRotate (n v : Nat) : Nat := v * 2 ^ n % 2 ^ 28 + v / 2 ^ (28 - n)

/-- Round keys from the two halves. -/
def desRoundKeys : List Nat → Nat → Nat → List Nat
  | [], _, _ => []
  | n :: ns, c, d =>
    desSelect 56 desPc2 (desRotate n c * 2 ^ 28 + desRotate n d) :: desRoundKeys ns (desRotate n c) (desRotate n d)

/-- The sixteen round keys of an 8-byte key. -/
def desKeys (key : List Byte) : List Nat :=
  let b := desSelect 64 desPc1 (beNat (key.take 8))
  desRoundKeys desShifts (b / 2 ^ 28) (b % 2 ^ 28)

/-- The sixteen rounds. -/
def desRounds : List Nat → Nat → Nat → Nat
  | [], l, r => r * 2 ^ 32 + l
  | k :: ks, l, r => desRounds ks r (l ^^^ desF r k)

/-- DES of one block under round keys in the order given. -/
def desBlock (ks : List Nat) (block : List Byte) : List Byte :=
  let b := desSelect 64 desIp (beNat (block.take 8))
  be 8 (desSelect 64 desFp (desRounds ks (b / 2 ^ 32) (b % 2 ^ 32)))

/-- DES encryption. -/
def desEnc (key block : List Byte) : List Byte := desBlock (desKeys key) block
/-- DES decryption. -/
def desDec (key block : List Byte) : List Byte := desBlock (desKeys key).reverse block

/-- The third key of TDEA: the first again for a two-key key. -/
def tdeaK3 (key : List Byte) : List Byte := if key.length ≤ 16 then key.take 8 else (key.drop 16).take 8

/-- TDEA encryption of one block. -/
def tdeaEnc (key block : List Byte) : List Byte :=
  desEnc (tdeaK3 key) (desDec ((key.drop 8).take 8) (desEnc (key.take 8) block))
/-- TDEA decryption of one block. -/
def tdeaDec (key block : List Byte) : List Byte :=
  desDec (key.take 8) (desEnc ((key.drop 8).take 8) (desDec (tdeaK3 key) block))

/-! ### Block ciphers by `ALG` (Table 7-4) -/

/-- `ALG` codes of TDEA keys. -/
def isTdea (alg : Nat) : Bool := alg == 1 || alg == 2
/-- `ALG` codes of AES keys. -/
def isAes (alg : Nat) : Bool := alg == 3 || alg == 4 || alg == 5
/-- Block length of a symmetric `ALG`. -/
def blockLen (alg : Nat) : Nat := if isTdea alg then 8 else 16
/-- Encryption of one block. -/
def encBlock (alg : Nat) (key block : List Byte) : List Byte := if isTdea alg then tdeaEnc key block else aesEnc key block
/-- Decryption of one block. -/
def decBlock (alg : Nat) (key block : List Byte) : List Byte := if isTdea alg then tdeaDec key block else aesDec key block

/-! ### Modes (SP 800-38A, 38B, 38C, 38D, 38E, 38F) -/

/-- ECB encryption. -/
def ecbEnc (alg : Nat) (key : List Byte) (m : List Byte) : List Byte :=
  ((chunks (blockLen alg) m).map (encBlock alg key)).flatten
/-- ECB decryption. -/
def ecbDec (alg : Nat) (key : List Byte) (m : List Byte) : List Byte :=
  ((chunks (blockLen alg) m).map (decBlock alg key)).flatten

/-- CBC encryption of whole blocks. -/
def cbcEncBlocks (alg : Nat) (key : List Byte) : List Byte → List (List Byte) → List Byte
  | _, [] => []
  | iv, b :: bs => let x := encBlock alg key (xorBytes b iv); x ++ cbcEncBlocks alg key x bs
/-- CBC encryption. -/
def cbcEnc (alg : Nat) (key iv m : List Byte) : List Byte := cbcEncBlocks alg key iv (chunks (blockLen alg) m)
/-- CBC decryption of whole blocks. -/
def cbcDecBlocks (alg : Nat) (key : List Byte) : List Byte → List (List Byte) → List Byte
  | _, [] => []
  | iv, b :: bs => xorBytes (decBlock alg key b) iv ++ cbcDecBlocks alg key b bs
/-- CBC decryption. -/
def cbcDec (alg : Nat) (key iv m : List Byte) : List Byte := cbcDecBlocks alg key iv (chunks (blockLen alg) m)
/-- The last block of a CBC chain. -/
def cbcMac (alg : Nat) (key iv : List Byte) : List (List Byte) → List Byte
  | [] => iv
  | b :: bs => cbcMac alg key (encBlock alg key (xorBytes b iv)) bs

/-- A counter block stepped by one in its rightmost `bits` bits, big-endian. -/
def ctrStep (bits : Nat) (c : List Byte) : List Byte :=
  let n := beNat c
  let m := 2 ^ bits
  be c.length (n / m * m + (n + 1) % m)

/-- CTR keystream applied block by block. -/
def ctrBlocks (alg bits : Nat) (key : List Byte) : List Byte → List (List Byte) → List Byte
  | _, [] => []
  | c, b :: bs => xorBytes b (encBlock alg key c) ++ ctrBlocks alg bits key (ctrStep bits c) bs
/-- CTR. -/
def ctrMode (alg bits : Nat) (key c m : List Byte) : List Byte := ctrBlocks alg bits key c (chunks (blockLen alg) m)

/-- Doubling in GF(2^(8n)), big-endian, with the constant of the block size. -/
def dbl (b : List Byte) : List Byte :=
  let n := b.length
  let v := 2 * beNat b
  let r := if n = 8 then 0x1B else 0x87
  be n (if v < 2 ^ (8 * n) then v else (v - 2 ^ (8 * n)) ^^^ r)

/-- CMAC (SP 800-38B). -/
def cmac (alg : Nat) (key m : List Byte) : List Byte :=
  let n := blockLen alg
  let k1 := dbl (encBlock alg key (zeros n))
  let k2 := dbl k1
  let bs := chunks n m
  let last := bs.getLastD []
  let full := !bs.isEmpty && last.length == n
  let lastb := if full then xorBytes last k1 else xorBytes (last ++ [0x80] ++ zeros (n - 1 - last.length)) k2
  cbcMac alg key (zeros n) (bs.dropLast ++ [lastb])

/-- Multiplication in GF(2^128) of GCM: `x` times `y`, bits of `x` from the left. -/
def ghashMul : Nat → Nat → Nat → Nat → Nat
  | 0, _, _, z => z
  | n + 1, x, v, z =>
    ghashMul n x (if v % 2 = 1 then (v / 2) ^^^ (0xE1 * 2 ^ 120) else v / 2) (if x / 2 ^ n % 2 = 1 then z ^^^ v else z)

/-- GHASH over 16-byte blocks. -/
def ghash (h : Nat) : Nat → List (List Byte) → Nat
  | y, [] => y
  | y, b :: bs => ghash h (ghashMul 128 (y ^^^ beNat b) h 0) bs

/-- Pad with zeros to whole blocks of 16 bytes. -/
def pad16 (m : List Byte) : List Byte := m ++ zeros ((16 - m.length % 16) % 16)

/-- GCM with a 12-byte IV: the tag of additional data `a` and ciphertext `ct` (SP 800-38D). -/
def gcmTag (key iv a ct : List Byte) : List Byte :=
  let h := beNat (aesEnc key (zeros 16))
  let s := ghash h 0 (chunks 16 (pad16 a ++ pad16 ct ++ be 8 (8 * a.length) ++ be 8 (8 * ct.length)))
  xorBytes (be 16 s) (aesEnc key (iv ++ [0, 0, 0, 1]))
/-- GCM keystream. -/
def gcmCrypt (key iv m : List Byte) : List Byte := ctrMode 5 32 key (iv ++ [0, 0, 0, 2]) m

/-- CCM encoding of the additional-data length. -/
def ccmAad (a : List Byte) : List Byte :=
  if a.isEmpty then [] else if a.length < 0xFF00 then pad16 (be 2 a.length ++ a) else pad16 ([0xFF, 0xFE] ++ be 4 a.length ++ a)
/-- CCM tag before encryption (SP 800-38C). -/
def ccmMac (key n a m : List Byte) (t : Nat) : List Byte :=
  let q := 15 - n.length
  let flags := (if a.isEmpty then 0 else 64) + 8 * ((t - 2) / 2) + (q - 1)
  let b0 := [BitVec.ofNat 8 flags] ++ n ++ be q m.length
  (cbcMac 5 key (zeros 16) (chunks 16 (b0 ++ ccmAad a ++ pad16 m))).take t
/-- CCM counter block i. -/
def ccmCtr (n : List Byte) (i : Nat) : List Byte := [BitVec.ofNat 8 (14 - n.length)] ++ n ++ be (15 - n.length) i
/-- CCM keystream over the payload. -/
def ccmCrypt (key n m : List Byte) : List Byte := ctrMode 5 (8 * (15 - n.length)) key (ccmCtr n 1) m
/-- CCM tag. -/
def ccmTag (key n a m : List Byte) (t : Nat) : List Byte := (xorBytes (ccmMac key n a m t) (aesEnc key (ccmCtr n 0))).take t

/-- Multiplication by x in the XTS tweak field, little-endian. -/
def xtsDbl (t : List Byte) : List Byte :=
  let v := 2 * leNat t
  le 16 (if v < 2 ^ 128 then v else (v - 2 ^ 128) ^^^ 0x87)
/-- XTS over whole blocks, with the cipher direction given. -/
def xtsBlocks (f : List Byte → List Byte) : List Byte → List (List Byte) → List (List Byte)
  | _, [] => []
  | t, b :: bs => xorBytes (f (xorBytes b t)) t :: xtsBlocks f (xtsDbl t) bs
/-- The tweak after `n` doublings. -/
def xtsTweak : Nat → List Byte → List Byte
  | 0, t => t
  | n + 1, t => xtsTweak n (xtsDbl t)
/-- XTS encryption with ciphertext stealing (SP 800-38E, IEEE 1619). -/
def xtsEnc (k1 k2 tweak m : List Byte) : List Byte :=
  let f := aesEnc k1
  let t := aesEnc k2 tweak
  let r := m.length % 16
  if r = 0 then (xtsBlocks f t (chunks 16 m)).flatten
  else
    let n := m.length / 16
    let full := xtsBlocks f t (chunks 16 (m.take (16 * n)))
    let cc := full.getLastD []
    let p := m.drop (16 * n) ++ cc.drop r
    let tn := xtsTweak n t
    (full.dropLast).flatten ++ xorBytes (f (xorBytes p tn)) tn ++ cc.take r
/-- XTS decryption. -/
def xtsDec (k1 k2 tweak m : List Byte) : List Byte :=
  let f := aesDec k1
  let t := aesEnc k2 tweak
  let r := m.length % 16
  if r = 0 then (xtsBlocks f t (chunks 16 m)).flatten
  else
    let n := m.length / 16
    let head := xtsBlocks f t (chunks 16 (m.take (16 * (n - 1))))
    let tl := xtsTweak (n - 1) t
    let tn := xtsTweak n t
    let pp := xorBytes (f (xorBytes ((m.drop (16 * (n - 1))).take 16) tn)) tn
    let c := m.drop (16 * n) ++ pp.drop r
    head.flatten ++ xorBytes (f (xorBytes c tl)) tl ++ pp.take r

/-- One pass of KW wrapping over the n semiblocks; `t` counts steps from 1. -/
def kwPass (alg : Nat) (key : List Byte) : List (List Byte) → Nat → List Byte → List (List Byte) → List Byte × List (List Byte)
  | [], _, a, done => (a, done)
  | r :: rs, t, a, done =>
    let b := encBlock alg key (a ++ r)
    kwPass alg key rs (t + 1) (xorBytes (b.take 8) (be 8 t)) (done ++ [b.drop 8])
/-- Six passes. -/
def kwRounds (alg : Nat) (key : List Byte) : Nat → Nat → List Byte → List (List Byte) → List Byte × List (List Byte)
  | 0, _, a, rs => (a, rs)
  | j + 1, t, a, rs => let (a, rs) := kwPass alg key rs t a []; kwRounds alg key j (t + rs.length) a rs
/-- The W function of SP 800-38F. -/
def kwW (alg : Nat) (key a : List Byte) (rs : List (List Byte)) : List Byte :=
  let (a, rs) := kwRounds alg key 6 1 a rs
  a ++ rs.flatten
/-- One pass of unwrapping, last semiblock first; `t` counts down. -/
def kwInvPass (alg : Nat) (key : List Byte) : List (List Byte) → Nat → List Byte → List (List Byte) → List Byte × List (List Byte)
  | [], _, a, done => (a, done)
  | r :: rs, t, a, done =>
    let b := decBlock alg key (xorBytes a (be 8 t) ++ r)
    kwInvPass alg key rs (t - 1) (b.take 8) (b.drop 8 :: done)
/-- Six inverse passes. -/
def kwInvRounds (alg : Nat) (key : List Byte) : Nat → Nat → List Byte → List (List Byte) → List Byte × List (List Byte)
  | 0, _, a, rs => (a, rs)
  | j + 1, t, a, rs => let (a, rs) := kwInvPass alg key rs.reverse t a []; kwInvRounds alg key j (t - rs.length) a rs
/-- The inverse W function. -/
def kwWInv (alg : Nat) (key c : List Byte) : List Byte × List Byte :=
  let rs := (chunks 8 c).drop 1
  let (a, rs) := kwInvRounds alg key 6 (6 * rs.length) (c.take 8) rs
  (a, rs.flatten)
/-- Initial value of KW. -/
def kwIcv : List Byte := List.replicate 8 0xA6
/-- KW wrap. -/
def kwWrap (alg : Nat) (key m : List Byte) : List Byte := kwW alg key kwIcv (chunks 8 m)
/-- KW unwrap; none when the integrity value fails. -/
def kwUnwrap (alg : Nat) (key c : List Byte) : Option (List Byte) :=
  let (a, m) := kwWInv alg key c
  if a = kwIcv then some m else none
/-- KWP wrap. -/
def kwpWrap (alg : Nat) (key m : List Byte) : List Byte :=
  let a := [0xA6, 0x59, 0x59, 0xA6] ++ be 4 m.length
  let p := m ++ zeros ((8 - m.length % 8) % 8)
  if p.length ≤ 8 then encBlock alg key (a ++ p) else kwW alg key a (chunks 8 p)
/-- KWP unwrap. -/
def kwpUnwrap (alg : Nat) (key c : List Byte) : Option (List Byte) :=
  let (a, p) := if c.length = 16 then (let x := decBlock alg key c; (x.take 8, x.drop 8)) else kwWInv alg key c
  let n := beNat (a.drop 4)
  if a.take 4 = [0xA6, 0x59, 0x59, 0xA6] ∧ n ≤ p.length ∧ p.length < n + 8 ∧ 0 < n ∧ allZero (p.drop n) then some (p.take n)
  else none

/-! ### SHA-2 (FIPS 180-4), HMAC (FIPS 198-1), SP 800-108 -/

/-- SHA-2 padding for a block of `blk` bytes with a length field of `ln` bytes. -/
def shaPad (blk ln : Nat) (m : List Byte) : List Byte :=
  let z := (2 * blk - 1 - ln - m.length % blk) % blk
  m ++ [0x80] ++ zeros z ++ be ln (8 * m.length)

/-- SHA-256 message schedule: newest word first. -/
def sha256Sched : Nat → List (BitVec 32) → List (BitVec 32)
  | 0, w => w
  | n + 1, w =>
    let a := w.getD 14 0
    let b := w.getD 1 0
    let s0 := a.rotateRight 7 ^^^ a.rotateRight 18 ^^^ (a >>> 3)
    let s1 := b.rotateRight 17 ^^^ b.rotateRight 19 ^^^ (b >>> 10)
    sha256Sched n ((w.getD 15 0 + s0 + w.getD 6 0 + s1) :: w)

/-- One SHA-256 round on the eight working words. -/
def sha256Round (st : List (BitVec 32)) (kw : BitVec 32 × BitVec 32) : List (BitVec 32) :=
  match st with
  | [a, b, c, d, e, f, g, h] =>
    let s1 := e.rotateRight 6 ^^^ e.rotateRight 11 ^^^ e.rotateRight 25
    let ch := (e &&& f) ^^^ (~~~e &&& g)
    let t1 := h + s1 + ch + kw.1 + kw.2
    let s0 := a.rotateRight 2 ^^^ a.rotateRight 13 ^^^ a.rotateRight 22
    let mj := (a &&& b) ^^^ (a &&& c) ^^^ (b &&& c)
    [t1 + s0 + mj, a, b, c, d + t1, e, f, g]
  | _ => st

/-- One SHA-256 block. -/
def sha256Block (st : List (BitVec 32)) (b : List Byte) : List (BitVec 32) :=
  let w := sha256Sched 48 ((chunks 4 b).map fun x => BitVec.ofNat 32 (beNat x)).reverse
  List.zipWith (· + ·) st ((sha256K.zip w.reverse).foldl sha256Round st)

/-- SHA-256. -/
def sha256 (m : List Byte) : List Byte :=
  ((chunks 64 (shaPad 64 8 m)).foldl sha256Block sha256H).flatMap fun w => be 4 w.toNat

/-- SHA-512 message schedule: newest word first. -/
def sha512Sched : Nat → List (BitVec 64) → List (BitVec 64)
  | 0, w => w
  | n + 1, w =>
    let a := w.getD 14 0
    let b := w.getD 1 0
    let s0 := a.rotateRight 1 ^^^ a.rotateRight 8 ^^^ (a >>> 7)
    let s1 := b.rotateRight 19 ^^^ b.rotateRight 61 ^^^ (b >>> 6)
    sha512Sched n ((w.getD 15 0 + s0 + w.getD 6 0 + s1) :: w)

/-- One SHA-512 round. -/
def sha512Round (st : List (BitVec 64)) (kw : BitVec 64 × BitVec 64) : List (BitVec 64) :=
  match st with
  | [a, b, c, d, e, f, g, h] =>
    let s1 := e.rotateRight 14 ^^^ e.rotateRight 18 ^^^ e.rotateRight 41
    let ch := (e &&& f) ^^^ (~~~e &&& g)
    let t1 := h + s1 + ch + kw.1 + kw.2
    let s0 := a.rotateRight 28 ^^^ a.rotateRight 34 ^^^ a.rotateRight 39
    let mj := (a &&& b) ^^^ (a &&& c) ^^^ (b &&& c)
    [t1 + s0 + mj, a, b, c, d + t1, e, f, g]
  | _ => st

/-- One SHA-512 block. -/
def sha512Block (st : List (BitVec 64)) (b : List Byte) : List (BitVec 64) :=
  let w := sha512Sched 64 ((chunks 8 b).map fun x => BitVec.ofNat 64 (beNat x)).reverse
  List.zipWith (· + ·) st ((sha512K.zip w.reverse).foldl sha512Round st)

/-- SHA-512 with a given initial value. -/
def sha512With (iv : List (BitVec 64)) (m : List Byte) : List Byte :=
  ((chunks 128 (shaPad 128 16 m)).foldl sha512Block iv).flatMap fun w => be 8 w.toNat
/-- SHA-512. -/
def sha512 (m : List Byte) : List Byte := sha512With sha512H m
/-- SHA-384. -/
def sha384 (m : List Byte) : List Byte := (sha512With sha384H m).take 48

/-- HMAC over a hash of block length `blk`. -/
def hmac (h : List Byte → List Byte) (blk : Nat) (key m : List Byte) : List Byte :=
  let k := bytesAt (if blk < key.length then h key else key) 0 blk
  h (k.map (· ^^^ 0x5C) ++ h (k.map (· ^^^ 0x36) ++ m))
/-- HMAC-SHA-256. -/
def hmac256 (key m : List Byte) : List Byte := hmac sha256 64 key m

/-- SP 800-108 counter mode with a 32-bit counter: `n` blocks of the PRF from counter `i`. -/
def kdfBlocks (prf : List Byte → List Byte) (fixed : List Byte) : Nat → Nat → List Byte
  | 0, _ => []
  | n + 1, i => prf (be 4 i ++ fixed) ++ kdfBlocks prf fixed n (i + 1)
/-- SP 800-108 counter mode: label, zero byte, context, length in bits. -/
def kdfCounter (prf : List Byte → List Byte) (prfLen : Nat) (label context : List Byte) (len : Nat) : List Byte :=
  (kdfBlocks prf (label ++ [0] ++ context ++ be 4 (8 * len)) ((len + prfLen - 1) / prfLen) 1).take len

/-! ### SHA-1 (FIPS 180-4), for EMV option B -/

/-- The SHA-1 message schedule, newest word first. -/
def sha1Sched : Nat → List (BitVec 32) → List (BitVec 32)
  | 0, ws => ws
  | n + 1, ws =>
    sha1Sched n ((ws.getD 2 0 ^^^ ws.getD 7 0 ^^^ ws.getD 13 0 ^^^ ws.getD 15 0).rotateLeft 1 :: ws)

/-- One SHA-1 round. -/
def sha1Round (st : List (BitVec 32)) (tw : Nat × BitVec 32) : List (BitVec 32) :=
  match st with
  | [a, b, c, d, e] =>
    let (f, k) : BitVec 32 × BitVec 32 :=
      if tw.1 < 20 then ((b &&& c) ||| (~~~b &&& d), 0x5A827999)
      else if tw.1 < 40 then (b ^^^ c ^^^ d, 0x6ED9EBA1)
      else if tw.1 < 60 then ((b &&& c) ||| (b &&& d) ||| (c &&& d), 0x8F1BBCDC)
      else (b ^^^ c ^^^ d, 0xCA62C1D6)
    [a.rotateLeft 5 + f + e + k + tw.2, a, b.rotateLeft 30, c, d]
  | _ => st

/-- One SHA-1 block. -/
def sha1Block (st : List (BitVec 32)) (b : List Byte) : List (BitVec 32) :=
  let ws := ((sha1Sched 64 ((chunks 4 b).map fun x => BitVec.ofNat 32 (beNat x)).reverse).reverse)
  List.zipWith (· + ·) st (((List.range 80).zip ws).foldl sha1Round st)

/-- SHA-1. -/
def sha1 (m : List Byte) : List Byte :=
  ((((chunks 64 (shaPad 64 8 m)).foldl sha1Block
    [0x67452301, 0xEFCDAB89, 0x98BADCFE, 0x10325476, 0xC3D2E1F0]).map fun w => be 4 w.toNat)).flatten

end Sys2Proof.Machine
end

