-- ==== Sys2Proof/Machine/Pay.lean ====
section
/-! DEFINITION. The payment computations of chapter 08 on plain values: PIN blocks, offset and PVV, EMV cryptograms, CVV, DUKPT,
ISO/IEC 9797-1 MACs and FF1. What the named standards fix and the spec does not spell out: log 31. -/
namespace Sys2Proof.Machine

/-! ### Nibbles and digit strings (R278) -/

/-- The nibbles of a byte string, high nibble first. -/
def nibs : List Byte → List Nat
  | [] => []
  | b :: bs => b.toNat / 16 :: b.toNat % 16 :: nibs bs

/-- Pack nibbles into bytes. -/
def packNibs : List Nat → List Byte
  | a :: b :: rest => BitVec.ofNat 8 (16 * a + b) :: packNibs rest
  | [a] => [BitVec.ofNat 8 (16 * a)]
  | [] => []

/-- The first `n` digits of a digit string: none where a nibble breaks R278. -/
def digitsOf (bs : List Byte) (n : Nat) : Option (List Nat) :=
  let ns := nibs bs
  if decide (n ≤ ns.length) && (ns.take n).all (· ≤ 9) && (ns.drop n).all (· == 15) then some (ns.take n) else none

/-- Digits as a digit string of `len` bytes. -/
def digitString (ds : List Nat) (len : Nat) : List Byte := packNibs (ds ++ List.replicate (2 * len - ds.length) 15)

/-- The `n` rightmost of a list. -/
def lastN (n : Nat) (ds : List Nat) : List Nat := ds.drop (ds.length - n)

/-- Left-pad with 0 to `n`. -/
def padL (n : Nat) (ds : List Nat) : List Nat := List.replicate (n - ds.length) 0 ++ ds

/-- The `n` rightmost PAN digits excluding the check digit, left-padded with 0. -/
def panTail (n : Nat) (pan : List Nat) : List Nat := padL n (lastN n pan.dropLast)

/-! ### PIN blocks (R284, R285, R288, Table 8-3) -/

/-- The format codes. -/
def fmtKnown (f : Nat) : Bool := f == 0 || f == 1 || f == 3 || f == 4
/-- Block length of a format. -/
def fmtBlock (f : Nat) : Nat := if f = 4 then 16 else 8
/-- `ALG` values of a format. -/
def fmtAlgs (f : Nat) : List Nat := if f = 4 then [3, 4, 5] else [1, 2]
/-- The format is PAN bound. -/
def panBound (f : Nat) : Bool := f != 1

/-- The PAN field of formats 0 and 3. -/
def panField8 (pan : List Nat) : List Byte := packNibs (List.replicate 4 0 ++ panTail 12 pan)

/-- The PAN field of format 4. -/
def panField16 (pan : List Nat) : List Byte :=
  let ns := (pan.length - 12) :: padL 12 pan
  packNibs (ns ++ List.replicate (32 - ns.length) 0)

/-- The plain PIN field of a format from fill bytes (R288). -/
def pinField (f : Nat) (pin : List Nat) (fill : List Byte) : List Byte :=
  let head := [f, pin.length] ++ pin
  let n := 16 - head.length
  if f = 0 then packNibs (head ++ List.replicate n 15)
  else if f = 1 then packNibs (head ++ (fill.take n).map fun b => b.toNat % 16)
  else if f = 3 then packNibs (head ++ (fill.take n).map fun b => 10 + b.toNat % 6)
  else packNibs (head ++ List.replicate n 10) ++ (fill.drop 8).take 8

/-- Encipher a PIN block. -/
def pinEncipher (f alg : Nat) (key : List Byte) (pan pin : List Nat) (fill : List Byte) : List Byte :=
  let p := pinField f pin fill
  if f = 4 then encBlock alg key (xorBytes (encBlock alg key p) (panField16 pan))
  else if f = 1 then encBlock alg key p
  else encBlock alg key (xorBytes p (panField8 pan))

/-- Decipher a PIN block; none when a check of Table 8-3 fails. -/
def pinDecipher (f alg : Nat) (key : List Byte) (pan : List Nat) (block : List Byte) : Option (List Nat) :=
  let p := if f = 4 then decBlock alg key (xorBytes (decBlock alg key block) (panField16 pan))
    else if f = 1 then decBlock alg key block
    else xorBytes (decBlock alg key block) (panField8 pan)
  let ns := nibs (p.take 8)
  let n := ns.getD 1 0
  let digits := (ns.drop 2).take n
  let rest := ns.drop (2 + n)
  let fillOk := if f = 0 then rest.all (· == 15) else if f = 3 then rest.all (10 ≤ ·) else if f = 4 then rest.all (· == 10) else true
  if ns.headD 16 == f && decide (4 ≤ n ∧ n ≤ 12) && digits.all (· ≤ 9) && fillOk then some digits else none

/-- The admitted translations of Table 8-4; `down` admits the pairs marked X. -/
def pairAdmitted (fi fo : Nat) (down : Bool) : Bool :=
  if fi = 1 then true
  else if fo = 1 then false
  else if fi = 4 then fo == 4 || down
  else true

/-! ### Offset, PVV, CVV (R294, R295, R301) -/

/-- `decimalise` of R295. -/
def decimalise (v : List Byte) (n : Nat) : List Nat :=
  let ns := nibs v
  ((ns.filter (· ≤ 9)) ++ ((ns.filter (10 ≤ ·)).map (· - 10))).take n

/-- The natural PIN of the offset method (R294). -/
def naturalPin (key valid : List Byte) (table : List Nat) (n : Nat) : List Nat :=
  ((nibs (tdeaEnc key valid)).map fun v => table.getD v 0).take n

/-- The PVV (R295). -/
def pvvOf (key : List Byte) (pan : List Nat) (pvki : Nat) (pin : List Nat) : List Nat :=
  decimalise (tdeaEnc key (packNibs (panTail 11 pan ++ [pvki] ++ pin.take 4))) 4

/-- The card verification value (R301). -/
def cvvOf (key : List Byte) (pan expiry service : List Nat) : List Nat :=
  let ds := pan ++ expiry ++ service
  let data := packNibs (ds ++ List.replicate (32 - ds.length) 0)
  let ka := key.take 8
  let kb := key.drop 8
  let x := xorBytes (desEnc ka (data.take 8)) (data.drop 8)
  decimalise (desEnc ka (desDec kb (desEnc ka x))) 3

/-! ### ISO/IEC 9797-1 (R306, R307) -/

/-- Padding methods 1 and 2. -/
def isoPad (method bs : Nat) (m : List Byte) : List Byte :=
  let m := if method = 2 then m ++ [0x80] else m
  if m.isEmpty then zeros bs else m ++ zeros ((bs - m.length % bs) % bs)

/-- MAC algorithm 1: the last block of CBC. -/
def isoMac1 (alg : Nat) (key m : List Byte) (pad : Nat) : List Byte :=
  cbcMac alg key (zeros (blockLen alg)) (chunks (blockLen alg) (isoPad pad (blockLen alg) m))

/-- DES-CBC over blocks. -/
def desCbcMac (k : List Byte) (blocks : List (List Byte)) : List Byte :=
  blocks.foldl (fun x b => desEnc k (xorBytes x b)) (zeros 8)

/-- MAC algorithm 3: left half K, right half K'. -/
def isoMac3 (key m : List Byte) (pad : Nat) : List Byte :=
  let x := desCbcMac (key.take 8) (chunks 8 (isoPad pad 8 m))
  desEnc (key.take 8) (desDec ((key.drop 8).take 8) x)

/-! ### EMV (R297 to R300) -/

/-- Every bit of a block inverted. -/
def notBytes (b : List Byte) : List Byte := b.map fun x => ~~~x

/-- ICC master key, option A: from the 16 rightmost digits of PAN and PSN. -/
def emvOptA (key : List Byte) (y : List Nat) : List Byte :=
  let b := packNibs y
  tdeaEnc key b ++ tdeaEnc key (notBytes b)

/-- ICC master key by option A (1), B (2) or C (3). -/
def emvIcc (opt alg : Nat) (key : List Byte) (pan : List Nat) (psn : Byte) : List Byte :=
  let ds := pan ++ [psn.toNat / 16, psn.toNat % 16]
  if opt = 3 then
    let y := packNibs (padL 32 ds)
    let z := aesEnc key y
    if alg = 3 then z else (z ++ aesEnc key (notBytes y)).take (8 * alg - 8)
  else if opt = 2 ∧ 16 < pan.length then
    let even := if ds.length % 2 = 0 then ds else 0 :: ds
    emvOptA key (decimalise (sha1 (packNibs even)) 16)
  else emvOptA key (padL 16 (lastN 16 ds))

/-- Common session key derivation keyed by the ATC. -/
def emvSession (alg : Nat) (mk atc : List Byte) : List Byte :=
  if alg = 1 then tdeaEnc mk (atc ++ [0xF0] ++ zeros 5) ++ tdeaEnc mk (atc ++ [0x0F] ++ zeros 5)
  else if alg = 3 then aesEnc mk (atc ++ zeros 14)
  else (aesEnc mk (atc ++ [0xF0] ++ zeros 13) ++ aesEnc mk (atc ++ [0x0F] ++ zeros 13)).take (8 * alg - 8)

/-- The key that computes the cryptogram, by `METHOD` (Table 8-9). -/
def emvKey (method alg : Nat) (key atc : List Byte) (pan : List Nat) (psn : Byte) : List Byte :=
  if method = 0x21 then key
  else if method = 0x11 then emvSession alg key atc
  else emvSession alg (emvIcc method alg key pan psn) atc

/-- The cryptogram over transaction data. -/
def emvMac (alg : Nat) (key data : List Byte) (pad : Nat) : List Byte :=
  if alg = 1 then isoMac3 key data pad else (cmac alg key data).take 8

/-- ARPC by method 1 (8 bytes) or 2 (4 bytes). -/
def emvArpc (method alg : Nat) (key arqc resp prop : List Byte) : List Byte :=
  if method = 1 then
    let x := xorBytes arqc (resp.take 2 ++ zeros 6)
    if alg = 1 then tdeaEnc key x else (aesEnc key (x ++ zeros 8)).take 8
  else
    let y := arqc ++ resp ++ prop
    (if alg = 1 then isoMac3 key y 2 else cmac alg key y).take 4

/-! ### DUKPT (R303 to R305) -/

/-- The mask of X9.24-1 key modification. -/
def dukptMask : List Byte := [0xC0, 0xC0, 0xC0, 0xC0, 0, 0, 0, 0, 0xC0, 0xC0, 0xC0, 0xC0, 0, 0, 0, 0]

/-- Initial key of a 10-byte KSN. -/
def dukptIpek (bdk ksn : List Byte) : List Byte :=
  let r := be 8 (beNat ksn / 2 ^ 21 * 2 ^ 21 / 2 ^ 16)
  tdeaEnc bdk r ++ tdeaEnc (xorBytes bdk dukptMask) r

/-- The non-reversible key generation process. -/
def dukptStep (key data : List Byte) : List Byte :=
  let f := fun (k : List Byte) => xorBytes (desEnc (k.take 8) (xorBytes data (k.drop 8))) (k.drop 8)
  f (xorBytes key dukptMask) ++ f key

/-- The transaction key: one step per one bit of the counter, from bit 20 down. -/
def dukptBits : Nat → Nat → Nat → Nat → List Byte → List Byte
  | 0, _, _, _, key => key
  | n + 1, base, ctr, acc, key =>
    if ctr.testBit n then dukptBits n base ctr (acc + 2 ^ n) (dukptStep key (be 8 (base + acc + 2 ^ n)))
    else dukptBits n base ctr acc key

/-- Transaction key of a 10-byte KSN under a BDK. -/
def dukptKey (bdk ksn : List Byte) : List Byte :=
  let r := beNat (ksn.drop 2)
  dukptBits 21 (r / 2 ^ 21 * 2 ^ 21) (r % 2 ^ 21) 0 (dukptIpek bdk ksn)

/-- A variant: byte `n` of each half inverted. -/
def dukptVariant (n : Nat) (key : List Byte) : List Byte :=
  let m := (List.range 8).map fun i => if i = n then (0xFF : Byte) else 0
  xorBytes key (m ++ m)

/-- Key length in bytes of an `ALG` 0x01 to 0x05. -/
def algLen (alg : Nat) : Nat := if alg = 1 ∨ alg = 3 then 16 else if alg = 2 ∨ alg = 4 then 24 else 32

/-- Derivation data of X9.24-3: usage, target `ALG`, identifier bytes. -/
def aesDukptData (block usage alg : Nat) (ident : List Byte) : List Byte :=
  [1, BitVec.ofNat 8 block] ++ be 2 usage ++ be 2 (alg - 1) ++ be 2 (8 * algLen alg) ++ ident

/-- One derivation of X9.24-3. -/
def aesDukptDerive (key : List Byte) (usage alg : Nat) (ident : List Byte) : List Byte :=
  (aesEnc key (aesDukptData 1 usage alg ident) ++ aesEnc key (aesDukptData 2 usage alg ident)).take (algLen alg)

/-- The derivation key of a counter: one derivation per one bit, from bit 31 down. -/
def aesDukptBits (alg : Nat) (dev : List Byte) : Nat → Nat → Nat → List Byte → List Byte
  | 0, _, _, key => key
  | n + 1, ctr, acc, key =>
    if ctr.testBit n then
      aesDukptBits alg dev n ctr (acc + 2 ^ n) (aesDukptDerive key 0x8000 alg (dev ++ be 4 (acc + 2 ^ n)))
    else aesDukptBits alg dev n ctr acc key

/-- The working key of a 12-byte KSN for a usage and `ALG`, under an AES BDK. -/
def aesDukptKey (bdkAlg : Nat) (bdk ksn : List Byte) (usage alg : Nat) : List Byte :=
  let ident := ksn.take 8
  let dev := ident.drop 4
  let ctr := beNat (ksn.drop 8)
  let ik := aesDukptDerive bdk 0x8001 bdkAlg ident
  aesDukptDerive (aesDukptBits bdkAlg dev 32 ctr 0 ik) usage alg (dev ++ be 4 ctr)

/-- One bits of a number below 2^n. -/
def ones : Nat → Nat → Nat
  | 0, _ => 0
  | n + 1, v => bit (v.testBit n) + ones n v

/-! ### FF1 (R308 to R310) -/

/-- The numeral string of a number, most significant first. -/
def numStr (radix : Nat) : Nat → Nat → List Nat
  | 0, _ => []
  | n + 1, v => numStr radix n (v / radix) ++ [v % radix]

/-- The number of a numeral string. -/
def strNum (radix : Nat) (ds : List Nat) : Nat := ds.foldl (fun v d => radix * v + d) 0

/-- Bits of a number. -/
def bitLen (n : Nat) : Nat := if n = 0 then 0 else Nat.log2 n + 1

/-- The round function value y of round `i`. -/
def ff1Y (key tweak : List Byte) (radix n u i : Nat) (b : List Nat) : Nat :=
  let v := n - u
  let blen := (bitLen (radix ^ v - 1) + 7) / 8
  let d := 4 * ((blen + 3) / 4) + 4
  let p := [1, 2, 1] ++ be 3 radix ++ [10, BitVec.ofNat 8 u] ++ be 4 n ++ be 4 tweak.length
  let q := tweak ++ zeros ((16 - (tweak.length + blen + 1) % 16) % 16) ++ [BitVec.ofNat 8 i] ++ be blen (strNum radix b)
  let r := cbcMac 5 key (zeros 16) (chunks 16 (p ++ q))
  let s := ((List.range ((d + 15) / 16)).map fun j => if j = 0 then r else aesEnc key (xorBytes r (be 16 j))).flatten
  beNat (s.take d)

/-- Rounds of FF1 encryption from round `i` up. -/
def ff1EncRounds (key tweak : List Byte) (radix n u : Nat) : Nat → List Nat × List Nat → List Nat × List Nat
  | 0, ab => ab
  | k + 1, (a, b) =>
    let i := 10 - (k + 1)
    let m := if i % 2 = 0 then u else n - u
    let c := (strNum radix a + ff1Y key tweak radix n u i b) % radix ^ m
    ff1EncRounds key tweak radix n u k (b, numStr radix m c)

/-- Rounds of FF1 decryption from round `k - 1` down. -/
def ff1DecRounds (key tweak : List Byte) (radix n u : Nat) : Nat → List Nat × List Nat → List Nat × List Nat
  | 0, ab => ab
  | k + 1, (a, b) =>
    let m := if k % 2 = 0 then u else n - u
    let y := ff1Y key tweak radix n u k a
    let c := (strNum radix b + radix ^ m - y % radix ^ m) % radix ^ m
    ff1DecRounds key tweak radix n u k (numStr radix m c, a)

/-- FF1 over numerals; `dec` deciphers. -/
def ff1 (dec : Bool) (key tweak : List Byte) (radix : Nat) (xs : List Nat) : List Nat :=
  let n := xs.length
  let u := n / 2
  let ab := (xs.take u, xs.drop u)
  let r := if dec then ff1DecRounds key tweak radix n u 10 ab else ff1EncRounds key tweak radix n u 10 ab
  r.1 ++ r.2

end Sys2Proof.Machine
end

