-- ==== Sys2Proof/Machine/Drbg.lean ====
section
/-! DEFINITION. The CTR_DRBG of Table 11-4: AES-256 with the derivation function (NIST SP 800-90A Rev. 1; log 30). -/
namespace Sys2Proof.Machine

/-- The block cipher chained over whole blocks from a zero chaining value. -/
def dfBcc (key : List Byte) (blocks : List (List Byte)) : List Byte :=
  blocks.foldl (fun x b => aesEnc key (xorBytes x b)) (zeros 16)

/-- The fixed key of the derivation function: 00 to 1F. -/
def dfKey : List Byte := (List.range 32).map (BitVec.ofNat 8)

/-- The derivation function: 48 bytes from any input. -/
def drbgDf (input : List Byte) : List Byte :=
  let s := be 4 input.length ++ be 4 48 ++ input ++ [0x80]
  let s := pad16 s
  let out := fun i => dfBcc dfKey (chunks 16 (be 4 i ++ zeros 12 ++ s))
  let kx := out 0 ++ out 1 ++ out 2
  let k := kx.take 32
  let x1 := aesEnc k (kx.drop 32)
  let x2 := aesEnc k x1
  x1 ++ x2 ++ aesEnc k x2

/-- The counter stepped by one. -/
def drbgInc (v : List Byte) : List Byte := be 16 (beNat v + 1)

/-- The update function: the new key and counter. -/
def drbgUpdate (data key v : List Byte) : List Byte × List Byte :=
  let v1 := drbgInc v
  let v2 := drbgInc v1
  let v3 := drbgInc v2
  let t := xorBytes (aesEnc key v1 ++ aesEnc key v2 ++ aesEnc key v3) data
  (t.take 32, t.drop 32)

/-- Instantiation from entropy, nonce and personalization string. -/
def drbgInit (entropy nonce pers : List Byte) : List Byte × List Byte :=
  drbgUpdate (drbgDf (entropy ++ nonce ++ pers)) (zeros 32) (zeros 16)

/-- Reseeding. -/
def drbgReseed (entropy add key v : List Byte) : List Byte × List Byte := drbgUpdate (drbgDf (entropy ++ add)) key v

/-- The counter-mode output, newest block last, with the counter reached. -/
def drbgBlocks (key : List Byte) : Nat → List Byte → List (List Byte) × List Byte
  | 0, v => ([], v)
  | n + 1, v =>
    let v := drbgInc v
    let (bs, w) := drbgBlocks key n v
    (aesEnc key v :: bs, w)

/-- One generate call: `n` bytes, the new key and counter. -/
def drbgGen (n : Nat) (add key v : List Byte) : List Byte × (List Byte × List Byte) :=
  let a := if add.isEmpty then zeros 48 else drbgDf add
  let (key, v) := if add.isEmpty then (key, v) else drbgUpdate a key v
  let (bs, v) := drbgBlocks key ((n + 15) / 16) v
  (bs.flatten.take n, drbgUpdate a key v)

end Sys2Proof.Machine
end

