-- ==== Sys2Proof/Config.lean ====
section
/-! DEFINITION. What an implementation fixes and the spec leaves open: free values, which no proof can evaluate. -/
namespace Sys2Proof.Config

/-- The n-th free byte drawn (random bytes, undefined values): log 3. -/
opaque freeByte : Nat → Byte

/-- The n-th free number drawn (delays, counts the spec leaves open): log 3. -/
opaque freeNat : Nat → Nat

/-- The n-th odd prime candidate that an RSA key generation forms, for primes of a number of bits, from drawn bytes: log 33. -/
opaque rsaCandidate : Nat → List Byte → Nat → Nat

/-- The n-th base of the Miller-Rabin test of a number: log 33. -/
opaque millerBase : Nat → Nat → Nat

/-- The keyed hash that chooses the key cache's set of a table index, from its key and the index (R245): log 128. -/
opaque cacheHash : Nat → Nat → Nat

/-- Byte `i` of the payload in which a Weper frame of a ledger message with this number carries it: the spec gives the messages no layout
(log 130). -/
opaque weperByte : Nat → Nat → Byte

/-- Byte `i` of the payload of the archive or statement segment with this number: the spec gives its content no layout (log 134). -/
opaque segByte : Nat → Nat → Byte

/-- Byte `i` of the audit key that a device with this UID derives from its OTP identity secret (R529; log 134). -/
opaque auditKeyByte : Nat → Nat → Byte

/-- CRC-16 of a Punty slot, of its bytes as a number: R590 names no polynomial (log 80). -/
opaque puntyCrc : Nat → BitVec 16

end Sys2Proof.Config
end

