-- ==== Sys2Proof/Machine/CsrTable.lean ====
section
/-! DEFINITION. The CSR map (R48, Table 2-1): one row per register, with the bits of each access code (Table 0-5) and the
reset value. A key is the block number times 0x1000 plus the offset within the block's first 4 KiB (R50). Offsets the spec
does not give one by one (the diagnostic counters) are assigned in listed order: DESIGN CHOICE (log 8). -/
namespace Sys2Proof.Machine

/-- Where a register's bits stand. -/
inductive CsrHome where
  /-- In the register file `State.regs`. -/
  | stored
  /-- Computed from the structured fields of the state; a write acts through the register's own rule. -/
  | computed
  /-- A data or command port: a read or write acts by the register's own rule. -/
  | port
  /-- A slow-domain register: writes are posted (R69). -/
  | slow
  deriving DecidableEq, Repr

/-- One register of the map. -/
structure CsrSpec where
  key : Nat
  name : String
  /-- Bits of access code RW (and WO). -/
  rw : Word
  /-- Bits of access code RWG. -/
  rwg : Word
  /-- Bits of access code RWL. -/
  rwl : Word
  /-- Bits of access code W1C. -/
  w1c : Word
  home : CsrHome
  reset : Word
  deriving DecidableEq, Repr

/-- Registers of the DEVICE block, part 1. -/
def csrBlk0a : List CsrSpec := [
  ⟨0x0000, "DEVICE_ID", 0, 0, 0, 0, .computed, 0⟩,
  ⟨0x0004, "DEVICE_UID_LO", 0, 0, 0, 0, .computed, 0⟩,
  ⟨0x0008, "DEVICE_UID_HI", 0, 0, 0, 0, .computed, 0⟩,
  ⟨0x000C, "DEVICE_DOMAIN", 0, 0, 0, 0, .computed, 0⟩,
  ⟨0x0010, "DEVICE_MODE", 0, 0, 0, 0, .computed, 0⟩,
  ⟨0x0018, "DEVICE_MODE_TALLY_LO", 0, 0, 0, 0, .computed, 0⟩,
  ⟨0x001C, "DEVICE_MODE_TALLY_HI", 0, 0, 0, 0, .computed, 0⟩,
  ⟨0x0020, "DEVICE_ERR", 0, 0, 0, 0x3F, .stored, 0⟩,
  ⟨0x0024, "DEVICE_ERR_EN", 0x3F, 0, 0, 0, .stored, 0⟩,
  ⟨0x0030, "DEVICE_TALLY_LO", 0, 0, 0, 0, .computed, 0⟩,
  ⟨0x0034, "DEVICE_TALLY_HI", 0, 0, 0, 0, .computed, 0⟩,
  ⟨0x0038, "DEVICE_TALLY_MARK_LO", 0, 0, 0, 0, .computed, 0⟩,
  ⟨0x003C, "DEVICE_TALLY_MARK_HI", 0, 0, 0, 0, .computed, 0⟩,
  ⟨0x0080, "DEVICE_PWR", 0x0FFF0000, 0x2, 0, 0, .stored, 0x00320000⟩,
  ⟨0x0200, "SURVEY_STATUS", 0, 0, 0, 0, .stored, 0⟩,
  ⟨0x0204, "SURVEY_TIME", 0, 0, 0, 0, .stored, 0⟩,
  ⟨0x0208, "SURVEY_START", 0, 0, 0, 0, .stored, 0⟩,
  ⟨0x0210, "SURVEY_RAIL0", 0, 0, 0, 0, .stored, 0⟩,
  ⟨0x0214, "SURVEY_RAIL1", 0, 0, 0, 0, .stored, 0⟩,
  ⟨0x0218, "SURVEY_RAIL2", 0, 0, 0, 0, .stored, 0⟩,
  ⟨0x021C, "SURVEY_RAIL3", 0, 0, 0, 0, .stored, 0⟩,
  ⟨0x0220, "SURVEY_RAIL4", 0, 0, 0, 0, .stored, 0⟩,
  ⟨0x0224, "SURVEY_RAIL5", 0, 0, 0, 0, .stored, 0⟩,
  ⟨0x0228, "SURVEY_RAIL6", 0, 0, 0, 0, .stored, 0⟩]

/-- Registers of the DEVICE block, part 2. -/
def csrBlk0b : List CsrSpec := [
  ⟨0x022C, "SURVEY_RAIL7", 0, 0, 0, 0, .stored, 0⟩,
  ⟨0x0230, "SURVEY_VBAT", 0, 0, 0, 0, .stored, 0⟩,
  ⟨0x0240, "SURVEY_ANT", 0, 0, 0, 0, .stored, 0⟩,
  ⟨0x0244, "SURVEY_PCOIL", 0, 0, 0, 0, .stored, 0⟩,
  ⟨0x0250, "SURVEY_CARD", 0, 0, 0, 0, .stored, 0⟩,
  ⟨0x0260, "SURVEY_MESH0", 0, 0, 0, 0, .stored, 0x30000000⟩,
  ⟨0x0264, "SURVEY_MESH1", 0, 0, 0, 0, .stored, 0x30000000⟩,
  ⟨0x0268, "SURVEY_MESH2", 0, 0, 0, 0, .stored, 0x30000000⟩,
  ⟨0x026C, "SURVEY_MESH3", 0, 0, 0, 0, .stored, 0x30000000⟩,
  ⟨0x0270, "SURVEY_UCIE_A", 0, 0, 0, 0, .stored, 0⟩,
  ⟨0x0274, "SURVEY_UCIE_B", 0, 0, 0, 0, .stored, 0⟩,
  ⟨0x0280, "SURVEY_CART0", 0, 0, 0, 0, .stored, 0⟩,
  ⟨0x0284, "SURVEY_CART1", 0, 0, 0, 0, .stored, 0⟩,
  ⟨0x0300, "DEVICE_DEGRADED", 0, 0, 0, 0, .stored, 0⟩]

/-- Every register of the DEVICE block. -/
def csrBlk0 : List CsrSpec := csrBlk0a ++ csrBlk0b

/-- Registers of the PORT block, part 1. -/
def csrBlk1a : List CsrSpec := [
  ⟨0x1000, "PORT_HEADGATE", 0, 0, 0, 0, .computed, 0⟩,
  ⟨0x1008, "PORT_ERR", 0, 0, 0, 0x3F, .stored, 0⟩,
  ⟨0x1010, "PORT_A_LINK", 0, 0, 0, 0, .computed, 0⟩,
  ⟨0x1014, "PORT_B_LINK", 0, 0, 0, 0, .computed, 0⟩,
  ⟨0x1020, "PORT_A_CTL", 0, 0x7C000000, 0, 0, .stored, 0x2C000000⟩,
  ⟨0x1024, "PORT_B_CTL", 0, 0x7C000000, 0, 0, .stored, 0x2C000000⟩,
  ⟨0x1040, "PORT_A_EVT_BASE_LO", 0xFFFFFFE0, 0, 0, 0, .stored, 0⟩,
  ⟨0x1044, "PORT_A_EVT_BASE_HI", 0xFFFFFFFF, 0, 0, 0, .stored, 0⟩,
  ⟨0x1048, "PORT_A_EVT_CTL", 0, 0, 0, 0, .computed, 0⟩,
  ⟨0x104C, "PORT_A_EVT_HEAD", 0, 0, 0, 0, .computed, 0⟩,
  ⟨0x1050, "PORT_A_EVT_TAIL", 0, 0, 0, 0, .computed, 0⟩,
  ⟨0x1054, "PORT_A_IRQ_ADDR_LO", 0xFFFFFFFF, 0, 0, 0, .stored, 0⟩,
  ⟨0x1058, "PORT_A_IRQ_ADDR_HI", 0xFFFFFFFF, 0, 0, 0, .stored, 0⟩,
  ⟨0x105C, "PORT_A_IRQ_DATA", 0xFFFFFFFF, 0, 0, 0, .stored, 0⟩,
  ⟨0x1080, "PORT_B_EVT_BASE_LO", 0xFFFFFFE0, 0, 0, 0, .stored, 0⟩,
  ⟨0x1084, "PORT_B_EVT_BASE_HI", 0xFFFFFFFF, 0, 0, 0, .stored, 0⟩,
  ⟨0x1088, "PORT_B_EVT_CTL", 0, 0, 0, 0, .computed, 0⟩,
  ⟨0x108C, "PORT_B_EVT_HEAD", 0, 0, 0, 0, .computed, 0⟩,
  ⟨0x1090, "PORT_B_EVT_TAIL", 0, 0, 0, 0, .computed, 0⟩,
  ⟨0x1094, "PORT_B_IRQ_ADDR_LO", 0xFFFFFFFF, 0, 0, 0, .stored, 0⟩,
  ⟨0x1098, "PORT_B_IRQ_ADDR_HI", 0xFFFFFFFF, 0, 0, 0, .stored, 0⟩,
  ⟨0x109C, "PORT_B_IRQ_DATA", 0xFFFFFFFF, 0, 0, 0, .stored, 0⟩,
  ⟨0x1100, "PORT_A_CRC_ERRS", 0, 0, 0, 0, .stored, 0⟩,
  ⟨0x1104, "PORT_A_REPLAYS", 0, 0, 0, 0, .stored, 0⟩]

/-- Registers of the PORT block, part 2. -/
def csrBlk1b : List CsrSpec := [
  ⟨0x1108, "PORT_A_NULL_FLITS", 0, 0, 0, 0, .stored, 0⟩,
  ⟨0x110C, "PORT_A_CRD_STALLS", 0, 0, 0, 0, .stored, 0⟩,
  ⟨0x1120, "PORT_B_CRC_ERRS", 0, 0, 0, 0, .stored, 0⟩,
  ⟨0x1124, "PORT_B_REPLAYS", 0, 0, 0, 0, .stored, 0⟩,
  ⟨0x1128, "PORT_B_NULL_FLITS", 0, 0, 0, 0, .stored, 0⟩,
  ⟨0x112C, "PORT_B_CRD_STALLS", 0, 0, 0, 0, .stored, 0⟩]

/-- Every register of the PORT block. -/
def csrBlk1 : List CsrSpec := csrBlk1a ++ csrBlk1b

/-- Registers of the CMD block, part 1. -/
def csrBlk2a : List CsrSpec := [
  ⟨0x2010, "CMD_ADMIN_SQ_BASE_LO", 0, 0xFFFFFFFF, 0, 0, .stored, 0⟩,
  ⟨0x2014, "CMD_ADMIN_SQ_BASE_HI", 0, 0xFFFFFFFF, 0, 0, .stored, 0⟩,
  ⟨0x2018, "CMD_ADMIN_CQ_BASE_LO", 0, 0xFFFFFFFF, 0, 0, .stored, 0⟩,
  ⟨0x201C, "CMD_ADMIN_CQ_BASE_HI", 0, 0xFFFFFFFF, 0, 0, .stored, 0⟩,
  ⟨0x2020, "CMD_ADMIN_CFG", 0, 0xC0FF0FFF, 0, 0, .stored, 0x00660040⟩,
  ⟨0x2024, "CMD_ADMIN_IRQ_ADDR_LO", 0, 0xFFFFFFFF, 0, 0, .stored, 0⟩,
  ⟨0x2028, "CMD_ADMIN_IRQ_ADDR_HI", 0, 0xFFFFFFFF, 0, 0, .stored, 0⟩,
  ⟨0x202C, "CMD_ADMIN_IRQ_DATA", 0, 0xFFFFFFFF, 0, 0, .stored, 0⟩,
  ⟨0x2040, "CMD_WEIR_FREE", 0, 0, 0, 0, .computed, 0⟩,
  ⟨0x2044, "CMD_WEIR_INFLIGHT", 0, 0, 0, 0, .computed, 0⟩,
  ⟨0x2050, "CMD_ERR", 0, 0, 0, 0x7F, .stored, 0⟩,
  ⟨0x2054, "CMD_ERR_EN", 0x7F, 0, 0, 0, .stored, 0⟩,
  ⟨0x2058, "CMD_QDIS", 0, 0, 0, 0x80000000, .stored, 0⟩,
  ⟨0x2100, "CMD_FETCHED_LO", 0, 0, 0, 0, .stored, 0⟩,
  ⟨0x2104, "CMD_FETCHED_HI", 0, 0, 0, 0, .stored, 0⟩,
  ⟨0x2108, "CMD_COMPLETED_LO", 0, 0, 0, 0, .stored, 0⟩,
  ⟨0x210C, "CMD_COMPLETED_HI", 0, 0, 0, 0, .stored, 0⟩,
  ⟨0x2110, "CMD_DB_REJECTS", 0, 0, 0, 0, .stored, 0⟩,
  ⟨0x2114, "CMD_CQ_STALLS", 0, 0, 0, 0, .stored, 0⟩]

/-- Every register of the CMD block. -/
def csrBlk2 : List CsrSpec := csrBlk2a

/-- Registers of the FURROW block, part 1. -/
def csrBlk3a : List CsrSpec := [
  ⟨0x3000, "FURROW_MGR_CFG", 0, 0x000FFFFF, 0, 0, .stored, 0⟩,
  ⟨0x3010, "FURROW_ERR", 0, 0, 0, 0x3, .stored, 0⟩,
  ⟨0x3014, "FURROW_ERR_EN", 0x3, 0, 0, 0, .stored, 0⟩,
  ⟨0x3018, "FURROW_DONE", 0, 0, 0, 0xC0000000, .stored, 0⟩,
  ⟨0x3020, "FURROW_COUNT", 0, 0, 0, 0, .computed, 0⟩,
  ⟨0x3100, "FURROW_LOG_MARKS_LO", 0, 0, 0, 0, .stored, 0⟩,
  ⟨0x3104, "FURROW_LOG_MARKS_HI", 0, 0, 0, 0, .stored, 0⟩,
  ⟨0x3108, "FURROW_LOG_SKIPS_LO", 0, 0, 0, 0, .stored, 0⟩,
  ⟨0x310C, "FURROW_LOG_SKIPS_HI", 0, 0, 0, 0, .stored, 0⟩]

/-- Every register of the FURROW block. -/
def csrBlk3 : List CsrSpec := csrBlk3a

/-- Registers of the KEYTAB block, part 1. -/
def csrBlk4a : List CsrSpec := [
  ⟨0x4000, "KEYTAB_STATUS", 0, 0, 0, 0, .computed, 0⟩,
  ⟨0x4004, "KEYTAB_FREE", 0, 0, 0, 0, .computed, 0⟩,
  ⟨0x4008, "KEYTAB_CULLET", 0, 0, 0, 0, .computed, 0⟩,
  ⟨0x400C, "KEYTAB_GRAN_FREE", 0, 0, 0, 0, .computed, 0⟩,
  ⟨0x4010, "KEYTAB_RESTORED", 0, 0, 0, 0, .computed, 0⟩,
  ⟨0x4014, "KEYTAB_DOMAIN_LIMIT", 0, 0, 0, 0, .computed, 0⟩,
  ⟨0x4018, "KEYTAB_SPARE", 0, 0, 0, 0, .computed, 0⟩,
  ⟨0x4020, "KEYTAB_ERR", 0, 0, 0, 0xF, .stored, 0⟩,
  ⟨0x4024, "KEYTAB_ERR_EN", 0xF, 0, 0, 0, .stored, 0⟩,
  ⟨0x4030, "KEYTAB_CFG", 0, 0x0000FFFF, 0, 0, .stored, 0x00004010⟩,
  ⟨0x4100, "KEYTAB_CACHE_HITS_LO", 0, 0, 0, 0, .stored, 0⟩,
  ⟨0x4104, "KEYTAB_CACHE_HITS_HI", 0, 0, 0, 0, .stored, 0⟩,
  ⟨0x4108, "KEYTAB_CACHE_MISSES_LO", 0, 0, 0, 0, .stored, 0⟩,
  ⟨0x410C, "KEYTAB_CACHE_MISSES_HI", 0, 0, 0, 0, .stored, 0⟩,
  ⟨0x4110, "KEYTAB_MAC_FAILS", 0, 0, 0, 0, .stored, 0⟩,
  ⟨0x4114, "KEYTAB_SCRUBBED", 0, 0, 0, 0, .stored, 0⟩,
  ⟨0x4118, "KEYTAB_PIN_WAITS", 0, 0, 0, 0, .stored, 0⟩]

/-- Every register of the KEYTAB block. -/
def csrBlk4 : List CsrSpec := csrBlk4a

/-- Registers of the CIPHER block, part 1. -/
def csrBlk5a : List CsrSpec := [
  ⟨0x5000, "CIPHER_STATUS", 0, 0, 0, 0x80000000, .stored, 0⟩,
  ⟨0x5004, "CIPHER_CTL", 0, 0x1, 0, 0, .stored, 0⟩,
  ⟨0x5010, "CIPHER_ERR", 0, 0, 0, 0xF, .stored, 0⟩,
  ⟨0x5014, "CIPHER_ERR_EN", 0xF, 0, 0, 0, .stored, 0⟩,
  ⟨0x5018, "CIPHER_RETIRED", 0, 0, 0, 0, .computed, 0⟩,
  ⟨0x5020, "CIPHER_NONCE_LO", 0, 0, 0, 0, .computed, 0⟩,
  ⟨0x5024, "CIPHER_NONCE_HI", 0, 0, 0, 0, .computed, 0⟩,
  ⟨0x5040, "CIPHER_KDATA0", 0, 0, 0, 0, .port, 0⟩,
  ⟨0x5044, "CIPHER_KDATA1", 0, 0, 0, 0, .port, 0⟩,
  ⟨0x5048, "CIPHER_KDATA2", 0, 0, 0, 0, .port, 0⟩,
  ⟨0x504C, "CIPHER_KDATA3", 0, 0, 0, 0, .port, 0⟩,
  ⟨0x5050, "CIPHER_KDATA4", 0, 0, 0, 0, .port, 0⟩,
  ⟨0x5054, "CIPHER_KDATA5", 0, 0, 0, 0, .port, 0⟩,
  ⟨0x5058, "CIPHER_KDATA6", 0, 0, 0, 0, .port, 0⟩,
  ⟨0x505C, "CIPHER_KDATA7", 0, 0, 0, 0, .port, 0⟩,
  ⟨0x5060, "CIPHER_KSLOT_CMD", 0, 0x3FFF0FFF, 0, 0, .stored, 0⟩,
  ⟨0x5100, "CIPHER_BLOCKS_LO", 0, 0, 0, 0, .stored, 0⟩,
  ⟨0x5104, "CIPHER_BLOCKS_HI", 0, 0, 0, 0, .stored, 0⟩,
  ⟨0x5108, "CIPHER_CHUNKS_LO", 0, 0, 0, 0, .stored, 0⟩,
  ⟨0x510C, "CIPHER_CHUNKS_HI", 0, 0, 0, 0, .stored, 0⟩,
  ⟨0x5110, "CIPHER_MASK_STALLS", 0, 0, 0, 0, .stored, 0⟩,
  ⟨0x5114, "CIPHER_VFAILS", 0, 0, 0, 0, .stored, 0⟩,
  ⟨0x5118, "CIPHER_IV_STALLS", 0, 0, 0, 0, .stored, 0⟩,
  ⟨0x511C, "CIPHER_NONCE_WAITS", 0, 0, 0, 0, .stored, 0⟩]

/-- Every register of the CIPHER block. -/
def csrBlk5 : List CsrSpec := csrBlk5a

/-- Registers of the FLUME block, part 1. -/
def csrBlk6a : List CsrSpec := [
  ⟨0x6000, "FLUME_STATUS", 0, 0, 0, 0x80000000, .stored, 0⟩,
  ⟨0x6004, "FLUME_CTL", 0, 0x1, 0, 0, .stored, 0⟩,
  ⟨0x6010, "FLUME_ERR", 0, 0, 0, 0xF, .stored, 0⟩,
  ⟨0x6014, "FLUME_ERR_EN", 0xF, 0, 0, 0, .stored, 0⟩,
  ⟨0x6018, "FLUME_RETIRED_LO", 0, 0, 0, 0, .computed, 0⟩,
  ⟨0x601C, "FLUME_RETIRED_HI", 0, 0, 0, 0, .computed, 0⟩,
  ⟨0x6020, "FLUME_VFAIL_LIMIT", 0, 0x00FFFFFF, 0, 0, .stored, 0⟩,
  ⟨0x6100, "FLUME_CMDS_LO", 0, 0, 0, 0, .stored, 0⟩,
  ⟨0x6104, "FLUME_CMDS_HI", 0, 0, 0, 0, .stored, 0⟩,
  ⟨0x6108, "FLUME_VFAILS_LO", 0, 0, 0, 0, .stored, 0⟩,
  ⟨0x610C, "FLUME_VFAILS_HI", 0, 0, 0, 0, .stored, 0⟩,
  ⟨0x6110, "FLUME_MASK_STALLS", 0, 0, 0, 0, .stored, 0⟩,
  ⟨0x6114, "FLUME_FILL_STALLS", 0, 0, 0, 0, .stored, 0⟩,
  ⟨0x6118, "FLUME_SHARE_WAITS", 0, 0, 0, 0, .stored, 0⟩]

/-- Every register of the FLUME block. -/
def csrBlk6 : List CsrSpec := csrBlk6a

/-- Registers of the PKE block, part 1. -/
def csrBlk7a : List CsrSpec := [
  ⟨0x7000, "PKE_STATUS", 0, 0, 0, 0x80000000, .stored, 0⟩,
  ⟨0x7004, "PKE_CTL", 0, 0x1, 0, 0, .stored, 0⟩,
  ⟨0x7010, "PKE_ERR", 0, 0, 0, 0x7, .stored, 0⟩,
  ⟨0x7014, "PKE_ERR_EN", 0x7, 0, 0, 0, .stored, 0⟩,
  ⟨0x7018, "PKE_RETIRED", 0, 0, 0, 0, .computed, 0⟩,
  ⟨0x701C, "PKE_RETIRED_LAT", 0, 0, 0, 0, .computed, 0⟩,
  ⟨0x7100, "PKE_OPS_LO", 0, 0, 0, 0, .stored, 0⟩,
  ⟨0x7104, "PKE_OPS_HI", 0, 0, 0, 0, .stored, 0⟩,
  ⟨0x7108, "PKE_MASK_STALLS", 0, 0, 0, 0, .stored, 0⟩,
  ⟨0x710C, "PKE_CHECK_FAILS", 0, 0, 0, 0, .stored, 0⟩,
  ⟨0x7110, "PKE_VFAILS", 0, 0, 0, 0, .stored, 0⟩,
  ⟨0x7114, "PKE_ENTROPY_WAITS", 0, 0, 0, 0, .stored, 0⟩]

/-- Every register of the PKE block. -/
def csrBlk7 : List CsrSpec := csrBlk7a

/-- Registers of the RNG block, part 1. -/
def csrBlk8a : List CsrSpec := [
  ⟨0x8000, "RNG_STATUS", 0, 0, 0, 0, .computed, 0⟩,
  ⟨0x8004, "RNG_CFG", 0, 0x1, 0, 0, .stored, 0x1⟩,
  ⟨0x8008, "RNG_MASK_CFG", 0, 0x1F, 0, 0, .stored, 0x14⟩,
  ⟨0x8010, "RNG_ERR", 0, 0, 0, 0x3F, .stored, 0⟩,
  ⟨0x8014, "RNG_ERR_EN", 0x3F, 0, 0, 0, .stored, 0⟩,
  ⟨0x8020, "RNG_DATA", 0, 0, 0, 0, .port, 0⟩,
  ⟨0x8024, "RNG_REQUESTS", 0, 0, 0, 0, .computed, 0⟩,
  ⟨0x8040, "RNG_A_HEALTH", 0, 0, 0, 0, .stored, 0⟩,
  ⟨0x8044, "RNG_A_EST0", 0, 0, 0, 0, .stored, 0⟩,
  ⟨0x8048, "RNG_A_EST1", 0, 0, 0, 0, .stored, 0⟩,
  ⟨0x804C, "RNG_A_EST2", 0, 0, 0, 0, .stored, 0⟩,
  ⟨0x8050, "RNG_A_EST3", 0, 0, 0, 0, .stored, 0⟩,
  ⟨0x8054, "RNG_A_EST4", 0, 0, 0, 0, .stored, 0⟩,
  ⟨0x8060, "RNG_B_HEALTH", 0, 0, 0, 0, .stored, 0⟩,
  ⟨0x8064, "RNG_B_EST0", 0, 0, 0, 0, .stored, 0⟩,
  ⟨0x8068, "RNG_B_EST1", 0, 0, 0, 0, .stored, 0⟩,
  ⟨0x806C, "RNG_B_EST2", 0, 0, 0, 0, .stored, 0⟩,
  ⟨0x8070, "RNG_B_EST3", 0, 0, 0, 0, .stored, 0⟩,
  ⟨0x8074, "RNG_B_EST4", 0, 0, 0, 0, .stored, 0⟩,
  ⟨0x8080, "RNG_MASK_FAILS", 0, 0, 0, 0, .stored, 0⟩,
  ⟨0x8100, "RNG_DRBG_REQS_LO", 0, 0, 0, 0, .stored, 0⟩,
  ⟨0x8104, "RNG_DRBG_REQS_HI", 0, 0, 0, 0, .stored, 0⟩,
  ⟨0x8108, "RNG_RESEEDS", 0, 0, 0, 0, .stored, 0⟩,
  ⟨0x810C, "RNG_GATHER_A", 0, 0, 0, 0, .stored, 0⟩]

/-- Registers of the RNG block, part 2. -/
def csrBlk8b : List CsrSpec := [
  ⟨0x8110, "RNG_GATHER_B", 0, 0, 0, 0, .stored, 0⟩,
  ⟨0x8114, "RNG_STALLS", 0, 0, 0, 0, .stored, 0⟩,
  ⟨0x8118, "RNG_MASK_SHORT", 0, 0, 0, 0, .stored, 0⟩,
  ⟨0x811C, "RNG_MASK_REKEYS", 0, 0, 0, 0, .stored, 0⟩,
  ⟨0x8180, "RNG_RAW_A", 0, 0, 0, 0, .port, 0⟩,
  ⟨0x8184, "RNG_RAW_B", 0, 0, 0, 0, .port, 0⟩]

/-- Every register of the RNG block. -/
def csrBlk8 : List CsrSpec := csrBlk8a ++ csrBlk8b

/-- Registers of the CISTERN block, part 1. -/
def csrBlk9a : List CsrSpec := [
  ⟨0x9000, "CISTERN_STATUS", 0, 0, 0, 0, .computed, 0⟩,
  ⟨0x9004, "CISTERN_CFG", 0, 0x000FFFFF, 0, 0, .stored, 0x00000E10⟩,
  ⟨0x9008, "CISTERN_DOMAIN_CFG", 0, 0, 0x80001F0F, 0, .stored, 0x0000140E⟩,
  ⟨0x900C, "CISTERN_MEMBERS", 0, 0, 0, 0, .computed, 0⟩,
  ⟨0x9010, "CISTERN_ERR", 0, 0, 0, 0x1F, .stored, 0⟩,
  ⟨0x9014, "CISTERN_ERR_EN", 0x1F, 0, 0, 0, .stored, 0⟩,
  ⟨0x9018, "CISTERN_RING", 0, 0, 0, 0, .computed, 0⟩,
  ⟨0x9040, "CISTERN_PORT0_STATUS", 0, 0, 0, 0, .computed, 0⟩,
  ⟨0x9044, "CISTERN_PORT0_CTL", 0, 0x4000000F, 0, 0, .stored, 0⟩,
  ⟨0x9050, "CISTERN_PORT1_STATUS", 0, 0, 0, 0, .computed, 0⟩,
  ⟨0x9054, "CISTERN_PORT1_CTL", 0, 0x4000000F, 0, 0, .stored, 0⟩,
  ⟨0x9060, "CISTERN_PORT2_STATUS", 0, 0, 0, 0, .computed, 0⟩,
  ⟨0x9064, "CISTERN_PORT2_CTL", 0, 0x4000000F, 0, 0, .stored, 0⟩,
  ⟨0x9070, "CISTERN_PORT3_STATUS", 0, 0, 0, 0, .computed, 0⟩,
  ⟨0x9074, "CISTERN_PORT3_CTL", 0, 0x4000000F, 0, 0, .stored, 0⟩,
  ⟨0x9100, "CISTERN_FRAMES_TX_LO", 0, 0, 0, 0, .stored, 0⟩,
  ⟨0x9104, "CISTERN_FRAMES_TX_HI", 0, 0, 0, 0, .stored, 0⟩,
  ⟨0x9108, "CISTERN_FRAMES_RX_LO", 0, 0, 0, 0, .stored, 0⟩,
  ⟨0x910C, "CISTERN_FRAMES_RX_HI", 0, 0, 0, 0, .stored, 0⟩,
  ⟨0x9110, "CISTERN_RESENDS", 0, 0, 0, 0, .stored, 0⟩,
  ⟨0x9114, "CISTERN_AUTH_FAILS", 0, 0, 0, 0, .stored, 0⟩,
  ⟨0x9118, "CISTERN_DRAWS", 0, 0, 0, 0, .stored, 0⟩,
  ⟨0x911C, "CISTERN_RING_WRITES", 0, 0, 0, 0, .stored, 0⟩]

/-- Every register of the CISTERN block. -/
def csrBlk9 : List CsrSpec := csrBlk9a

/-- Registers of the WARDEN block, part 1. -/
def csrBlk10a : List CsrSpec := [
  ⟨0xA000, "WARDEN_STATUS", 0, 0, 0, 0, .computed, 0⟩,
  ⟨0xA004, "WARDEN_FW_VERSION", 0, 0, 0, 0, .computed, 0⟩,
  ⟨0xA010, "WARDEN_ERR", 0, 0, 0, 0xF, .stored, 0⟩,
  ⟨0xA014, "WARDEN_ERR_EN", 0xF, 0, 0, 0, .stored, 0⟩,
  ⟨0xA020, "WARDEN_APPLET_FREE", 0, 0, 0, 0, .computed, 0⟩,
  ⟨0xA100, "WARDEN_INSTRET_LO", 0, 0, 0, 0, .stored, 0⟩,
  ⟨0xA104, "WARDEN_INSTRET_HI", 0, 0, 0, 0, .stored, 0⟩,
  ⟨0xA108, "WARDEN_TRAPS", 0, 0, 0, 0, .stored, 0⟩,
  ⟨0xA10C, "WARDEN_INVOKES", 0, 0, 0, 0, .stored, 0⟩,
  ⟨0xA110, "WARDEN_HOOKS", 0, 0, 0, 0, .stored, 0⟩,
  ⟨0xA114, "WARDEN_SERVICE_CALLS", 0, 0, 0, 0, .stored, 0⟩]

/-- Every register of the WARDEN block. -/
def csrBlk10 : List CsrSpec := csrBlk10a

/-- Registers of the FLASH block, part 1. -/
def csrBlk11a : List CsrSpec := [
  ⟨0xB000, "FLASH_STATUS", 0, 0, 0, 0, .computed, 0⟩,
  ⟨0xB008, "FLASH_ERR", 0, 0, 0, 0x3F, .stored, 0⟩,
  ⟨0xB00C, "FLASH_ERR_EN", 0x3F, 0, 0, 0, .stored, 0⟩,
  ⟨0xB010, "FLASH_ERR_ADDR", 0, 0, 0, 0, .stored, 0⟩,
  ⟨0xB020, "FLASH_ADDR", 0, 0, 0, 0, .port, 0⟩,
  ⟨0xB024, "FLASH_SRC", 0, 0, 0, 0, .port, 0⟩,
  ⟨0xB028, "FLASH_CMD", 0, 0, 0, 0, .port, 0⟩,
  ⟨0xB030, "FLASH_RESULT0", 0, 0, 0, 0x80000000, .stored, 0⟩,
  ⟨0xB034, "FLASH_RESULT1", 0, 0, 0, 0x80000000, .stored, 0⟩,
  ⟨0xB038, "FLASH_RESULTP", 0, 0, 0, 0x80000000, .stored, 0⟩,
  ⟨0xB040, "FLASH_RESUMED", 0, 0, 0, 0, .stored, 0⟩,
  ⟨0xB100, "FLASH_CORRECTED", 0, 0, 0, 0, .stored, 0⟩,
  ⟨0xB104, "FLASH_RETRIES", 0, 0, 0, 0, .stored, 0⟩,
  ⟨0xB108, "FLASH_UNCORRECTABLE", 0, 0, 0, 0, .stored, 0⟩,
  ⟨0xB10C, "FLASH_PARAM_DISAGREE", 0, 0, 0, 0, .stored, 0⟩,
  ⟨0xB110, "FLASH_MARK_STALLS", 0, 0, 0, 0, .stored, 0⟩,
  ⟨0xB114, "FLASH_MARK_WRITES", 0, 0, 0, 0, .stored, 0⟩,
  ⟨0xB118, "FLASH_ERASES", 0, 0, 0, 0, .stored, 0⟩,
  ⟨0xB11C, "FLASH_ROWS", 0, 0, 0, 0, .stored, 0⟩]

/-- Every register of the FLASH block. -/
def csrBlk11 : List CsrSpec := csrBlk11a

/-- Registers of the VAULT block, part 1. -/
def csrBlk12a : List CsrSpec := [
  ⟨0xC000, "VAULT_STATUS", 0, 0, 0, 0, .computed, 0⟩,
  ⟨0xC004, "VAULT_SLOT0", 0, 0, 0, 0, .computed, 0⟩,
  ⟨0xC008, "VAULT_SLOT1", 0, 0, 0, 0, .computed, 0⟩,
  ⟨0xC00C, "VAULT_CFG", 0, 0x7F, 0, 0, .stored, 0xA⟩,
  ⟨0xC010, "VAULT_ERR", 0, 0, 0, 0xF, .stored, 0⟩,
  ⟨0xC014, "VAULT_ERR_EN", 0xF, 0, 0, 0, .stored, 0⟩,
  ⟨0xC018, "VAULT_SLOT0_CTL", 0, 0x1, 0, 0, .stored, 0⟩,
  ⟨0xC01C, "VAULT_SLOT1_CTL", 0, 0x1, 0, 0, .stored, 0⟩,
  ⟨0xC020, "VAULT_DURABLE_TALLY_LO", 0, 0, 0, 0, .computed, 0⟩,
  ⟨0xC024, "VAULT_DURABLE_TALLY_HI", 0, 0, 0, 0, .computed, 0⟩,
  ⟨0xC100, "VAULT_SEGMENTS_LO", 0, 0, 0, 0, .stored, 0⟩,
  ⟨0xC104, "VAULT_SEGMENTS_HI", 0, 0, 0, 0, .stored, 0⟩,
  ⟨0xC108, "VAULT_MEDIA_ERRS", 0, 0, 0, 0, .stored, 0⟩,
  ⟨0xC10C, "VAULT_CRC_ERRS", 0, 0, 0, 0, .stored, 0⟩,
  ⟨0xC110, "VAULT_TOKEN_TIMEOUTS", 0, 0, 0, 0, .stored, 0⟩,
  ⟨0xC114, "VAULT_BUFFER_PEAK", 0, 0, 0, 0, .stored, 0⟩]

/-- Every register of the VAULT block. -/
def csrBlk12 : List CsrSpec := csrBlk12a

/-- Registers of the CUSTODIAN block, part 1. -/
def csrBlk13a : List CsrSpec := [
  ⟨0xD000, "CUST_STATUS", 0, 0, 0, 0, .computed, 0⟩,
  ⟨0xD004, "CUST_CFG", 0x0000FF00, 0xFF000000, 0, 0, .stored, 0x48001000⟩,
  ⟨0xD008, "CUST_RF", 0, 0x1F, 0, 0, .stored, 0⟩,
  ⟨0xD00C, "CUST_WAKE", 0x80000000, 0x0000FFFF, 0, 0, .stored, 0x80000040⟩,
  ⟨0xD010, "CUST_ERR", 0, 0, 0, 0x3F, .stored, 0⟩,
  ⟨0xD014, "CUST_ERR_EN", 0x3F, 0, 0, 0, .stored, 0⟩,
  ⟨0xD020, "CUST_LIVE", 0, 0, 0, 0, .computed, 0⟩,
  ⟨0xD100, "CUST_CARD_REPEATS", 0, 0, 0, 0, .stored, 0⟩,
  ⟨0xD104, "CUST_INVENTORIES", 0, 0, 0, 0, .stored, 0⟩,
  ⟨0xD108, "CUST_SLOT_COLLISIONS", 0, 0, 0, 0, .stored, 0⟩,
  ⟨0xD10C, "CUST_SESSIONS", 0, 0, 0, 0, .stored, 0⟩,
  ⟨0xD110, "CUST_WEAK_FIELD", 0, 0, 0, 0, .stored, 0⟩,
  ⟨0xD114, "CUST_AUTH_FAILS", 0, 0, 0, 0, .stored, 0⟩]

/-- Every register of the CUSTODIAN block. -/
def csrBlk13 : List CsrSpec := csrBlk13a

/-- Registers of the TAMPER block, part 1. -/
def csrBlk14a : List CsrSpec := [
  ⟨0xE000, "TAMPER_STATUS", 0, 0, 0, 0, .computed, 0⟩,
  ⟨0xE004, "TAMPER_ALARM", 0, 0, 0, 0x00FFFFFF, .slow, 0⟩,
  ⟨0xE008, "TAMPER_ACTIVE", 0, 0, 0, 0, .computed, 0⟩,
  ⟨0xE00C, "TAMPER_LEVEL0", 0, 0x3FFFFFFF, 0, 0, .slow, 0x246DB6E4⟩,
  ⟨0xE010, "TAMPER_PIN_CFG0", 0, 0, 0, 0, .computed, 0⟩,
  ⟨0xE014, "TAMPER_PIN_CFG1", 0, 0, 0, 0, .computed, 0⟩,
  ⟨0xE018, "TAMPER_PIN_CFG2", 0, 0, 0, 0, .computed, 0⟩,
  ⟨0xE01C, "TAMPER_PIN_CFG3", 0, 0, 0, 0, .computed, 0⟩,
  ⟨0xE020, "TAMPER_PIN_CFG4", 0, 0, 0, 0, .computed, 0⟩,
  ⟨0xE024, "TAMPER_PIN_CFG5", 0, 0, 0, 0, .computed, 0⟩,
  ⟨0xE028, "TAMPER_PIN_CFG6", 0, 0, 0, 0, .computed, 0⟩,
  ⟨0xE02C, "TAMPER_PIN_CFG7", 0, 0, 0, 0, .computed, 0⟩,
  ⟨0xE030, "TAMPER_EVIDENCE", 0, 0, 0, 0, .computed, 0⟩,
  ⟨0xE038, "TAMPER_RTC_LO", 0, 0, 0, 0, .computed, 0⟩,
  ⟨0xE03C, "TAMPER_RTC_HI", 0, 0, 0, 0, .computed, 0⟩,
  ⟨0xE040, "TAMPER_VBAT", 0, 0, 0, 0, .computed, 0⟩,
  ⟨0xE050, "TAMPER_ERR", 0, 0, 0, 0x1F, .stored, 0⟩,
  ⟨0xE054, "TAMPER_ERR_EN", 0x1F, 0, 0, 0, .stored, 0⟩,
  ⟨0xE100, "TAMPER_LEVEE_R", 0, 0, 0, 0, .stored, 0⟩,
  ⟨0xE104, "TAMPER_LEVEE_C", 0, 0, 0, 0, .stored, 0⟩,
  ⟨0xE108, "TAMPER_VRAIL_CMP", 0, 0, 0, 0, .stored, 0⟩,
  ⟨0xE10C, "TAMPER_VRAIL_DLY", 0, 0, 0, 0, .stored, 0⟩,
  ⟨0xE110, "TAMPER_TEMP_BG", 0, 0, 0, 0, .stored, 0⟩,
  ⟨0xE114, "TAMPER_TEMP_DIODE", 0, 0, 0, 0, .stored, 0⟩]

/-- Registers of the TAMPER block, part 2. -/
def csrBlk14b : List CsrSpec := [
  ⟨0xE118, "TAMPER_CLK_EDGE", 0, 0, 0, 0, .stored, 0⟩,
  ⟨0xE11C, "TAMPER_CLK_FREQ", 0, 0, 0, 0, .stored, 0⟩,
  ⟨0xE120, "TAMPER_LIGHT_A", 0, 0, 0, 0, .stored, 0⟩,
  ⟨0xE124, "TAMPER_LIGHT_B", 0, 0, 0, 0, .stored, 0⟩,
  ⟨0xE128, "TAMPER_DECISIONS", 0, 0, 0, 0, .stored, 0⟩]

/-- Every register of the TAMPER block. -/
def csrBlk14 : List CsrSpec := csrBlk14a ++ csrBlk14b

/-- Registers of the PUNTY block, part 1. -/
def csrBlk15a : List CsrSpec := [
  ⟨0xF000, "PUNTY_STATUS", 0, 0, 0, 0, .computed, 0⟩,
  ⟨0xF100, "PUNTY_FIELD_READS", 0, 0, 0, 0, .stored, 0⟩,
  ⟨0xF104, "PUNTY_SWAPS", 0, 0, 0, 0, .stored, 0⟩,
  ⟨0xF108, "PUNTY_SWAP_WAITS", 0, 0, 0, 0, .stored, 0⟩]

/-- Every register of the PUNTY block. -/
def csrBlk15 : List CsrSpec := csrBlk15a

/-- The registers of block `n`. -/
def csrBlock : Nat → List CsrSpec
  | 0 => csrBlk0
  | 1 => csrBlk1
  | 2 => csrBlk2
  | 3 => csrBlk3
  | 4 => csrBlk4
  | 5 => csrBlk5
  | 6 => csrBlk6
  | 7 => csrBlk7
  | 8 => csrBlk8
  | 9 => csrBlk9
  | 10 => csrBlk10
  | 11 => csrBlk11
  | 12 => csrBlk12
  | 13 => csrBlk13
  | 14 => csrBlk14
  | 15 => csrBlk15
  | _ => []

/-- The register at a key, where the map has one. -/
def csrFind (key : Nat) : Option CsrSpec := (csrBlock (key / 0x1000)).find? (fun c => c.key == key)

/-- The reset value of a stored register; 0 for a key the map does not list. -/
def csrReset (key : Nat) : Word :=
  match csrFind key with
  | some c => c.reset
  | none => 0

end Sys2Proof.Machine
end

