-- ==== Sys2Proof/Machine/State.lean ====
section
/-! DEFINITION. The state of the E9: every register, ring, queue, table, counter and pin the spec names, as plain data. -/
namespace Sys2Proof.Machine

/-! ### Device, power-up and modes (01, 02, 03) -/

/-- What is fused into one die. The grade decides the fitted units (R2). -/
structure Fuses where
  /-- Ordering code; fused. [00 R2, 02 Table 2-4] reset: X8, DESIGN CHOICE (log 2) -/
  grade : Grade
  /-- Silicon stepping, 4 bits; fused, from 1. [02 Table 2-4] reset: 1, DESIGN CHOICE (log 2) -/
  stepping : BitVec 4
  /-- Unique die number, 64 bits; fused. [02 Table 2-3] reset: 0, DESIGN CHOICE (log 2) -/
  uid : BitVec 64
  deriving DecidableEq, Repr

/-- How far the power-up sequence of R100 to R106 has come. -/
inductive BootPhase where
  /-- No main power. -/
  | off
  /-- Main power good; the OTP sequencer has burned the pending increments (R100). -/
  | good
  /-- Core 0 has made steps 1 to 4 of R101. -/
  | rom
  /-- Steps 5 to 7 of R101 are made; the mode is selected. -/
  | selected
  /-- SURVEY has ended (or the device was RETIRED from main power good). -/
  | running
  deriving DecidableEq, Repr

/-- A posted write to a slow-domain register that has not landed (R69, R70). -/
structure Posted where
  /-- CSR key (block times 0x1000 plus offset). -/
  key : Nat
  /-- The value written. -/
  value : BitVec 32
  /-- Rising edges of the slow clock still to come: 2 at acceptance. -/
  edges : Nat
  deriving DecidableEq, Repr

/-- One latched higher word of a wide value (R74, R75). -/
structure WideLatch where
  /-- Requester that read the lowest word. -/
  req : Requester
  /-- CSR key of the latched word. -/
  key : Nat
  /-- Its value at the moment of the latching read. -/
  value : BitVec 32
  deriving DecidableEq, Repr

/-- A CSR read's answer (R134), waiting while an event that reports what it shows is unflushed (R148). -/
structure Answer where
  /-- Requester that read. -/
  req : Requester
  /-- CSR address read. -/
  addr : Nat
  /-- Value answered, 64 bits for a 64-bit read. -/
  value : BitVec 64
  /-- `TAG` of the read, echoed in its `CPL` (Table 4-5), 10 bits; 0 for a read given as a row (log 110). -/
  tag : Nat
  /-- Events that report what it shows and are not yet visible: the port of each copy and the event's tally (R148). -/
  waits : List (Port × Nat)
  deriving DecidableEq, Repr

/-- The DEVICE block and what holds for the whole device. -/
structure Dev where
  /-- Main power is good. [03 R96, 19 R597] reset: true -/
  mainOn : Bool
  /-- Progress of the power-up sequence. [03 R100-R106] reset: good -/
  boot : BootPhase
  /-- `DEVICE_MODE.MODE`, 4 bits. [02 Table 2-6] reset: SURVEY (0x1) -/
  mode : Mode
  /-- `DEVICE_MODE.PREV_MODE`, 4 bits. [02 Table 2-6] reset: SURVEY (0x1) -/
  prevMode : Mode
  /-- `DEVICE_MODE_TALLY`, 64 bits. [02 R82] reset: 0, DESIGN CHOICE (log 4) -/
  modeTally : Nat
  /-- Most recently issued tally, 64 bits. [02 R84] reset: 0, DESIGN CHOICE (log 4) -/
  tally : Nat
  /-- The value the tally unit issues next, 64 bits. [01 R39, 15 R513] reset: 0, DESIGN CHOICE (log 4) -/
  nextTally : Nat
  /-- Tally reservation mark, 64 bits, a multiple of 2^20. [02 R85, 15 R513] reset: 0, DESIGN CHOICE (log 4) -/
  tallyMark : Nat
  /-- Slow-domain copy of the tally mark (`DEVICE_TALLY_MARK`), 64 bits. [02 R85] reset: 0, DESIGN CHOICE (log 4) -/
  markCopy : Nat
  /-- A tally mark record is being programmed (the new mark). [15 R513] reset: none -/
  markBusy : Option Nat
  /-- `DEVICE_DOMAIN`: the domain device number once assigned, 14 bits and VALID. [02 Table 2-5] reset: none (VALID 0) -/
  ddn : Option Nat
  /-- Identity public key, once the device identity is made in OTP. [03 R107, Table 3-3] reset: none -/
  identity : Option (List Byte)
  /-- The root keys are present. [03 Table 3-3] reset: false -/
  rootKeys : Bool
  /-- Blocks of 2^20 by which the tally mark last advanced. [15 R513] reset: 0 -/
  tallyAdv : Nat
  /-- Mode chosen by mode selection, entered when SURVEY ends. [03 R107] reset: none -/
  selected : Option Mode
  /-- MAINTAIN was entered in recovery. [03 R104] reset: false -/
  recovery : Bool
  /-- A pending increment was burned or a KEK loss counted in this power-up. [03 R107] reset: false -/
  countedThisPowerUp : Bool
  /-- Backup SRAM held a pending increment at main power good. [03 R102] reset: false -/
  pendingAtGood : Bool
  /-- The E9 is asleep within SERVICE or DEGRADED (`DEVICE_MODE.ASLEEP`). [01 R34, 02 Table 2-6] reset: false -/
  asleep : Bool
  /-- The engine clock is stepped down for temperature (`DEVICE_PWR.TEMP_STEP`). [01 R30] reset: false -/
  tempStep : Bool
  /-- `DEVICE_MODE.QUORUM`: the custodian quorum verdict. [02 Table 2-6, 17 R554] reset: 0 -/
  quorum : Bool
  /-- A mode change by command that waits under R91: the command and the target. [03 R91] reset: none -/
  modeWait : Option (Nat × Mode)
  /-- Armed guards: bit n for block n, 16 bits. [02 R62, R63] reset: 0 (locked) -/
  armed : BitVec 16
  /-- Disables not yet reported as drained: bit 0 cipher engine, 1 Flume, 2 public-key engine, 3 bits. [01 R45] reset: 0 -/
  drains : BitVec 3
  /-- Latched words of wide values. [02 R74, R75] reset: empty -/
  latches : List WideLatch
  /-- Posted slow-domain writes. [02 R69, R70] reset: empty -/
  posted : List Posted
  /-- Answers of CSR reads that wait under R148. [04 R148] reset: empty -/
  waiting : List Answer
  /-- The last answer sent to each requester. [04 R134] reset: empty -/
  answers : List Answer
  /-- CSR keys of the expert fields that the survey assigns and that have been written since main power-up. [02 R77, R78] reset: none -/
  expert : List Nat
  /-- Slow-domain copies of the TAMPER and PUNTY registers that differ from their reset values, by key. [02 R68] reset: none listed -/
  rsWords : List (Nat × Word)
  /-- Slow-domain copy of the Punty's visible rows. [02 R68, 18 Table 18-14] reset: none listed -/
  rsRows : List (Nat × List Byte)
  deriving DecidableEq, Repr

/-! ### Host ports (04) -/

/-- One event entry (Table 4-10) before it is placed in a ring. -/
structure Evt where
  /-- `EVENT`, 16 bits. -/
  code : Nat
  /-- `DATA0`. -/
  d0 : BitVec 32
  /-- `DATA1`, bytes 16-23 (low) and 24-31 (high). -/
  d1 : BitVec 128
  /-- Tally of the happening. -/
  tally : Nat
  deriving DecidableEq, Repr

/-- What a host-memory write of the E9 carries (R146, R150). -/
inductive WKind where
  | dst | completion | event | irq | mark
  deriving DecidableEq, Repr

/-- One `MWR` to host memory that has no `FLUSH_ACK` yet. -/
structure Mwr where
  /-- What it carries. -/
  kind : WKind
  /-- Host I/O virtual address, 64 bits. -/
  addr : Nat
  /-- The bytes written, lowest address first. -/
  data : List Byte
  /-- Process tag, where `PT_VALID` is 1 (R132). -/
  ptag : Option (BitVec 20)
  /-- Its place in tally order: the completion's or event's tally, else the next tally at the moment of the write. -/
  tally : Nat
  /-- Furrow the write serves (for R204), where it serves one. -/
  furrow : Option Nat
  /-- `TAG` of the `FLUSH` that follows it (R145), 10 bits. -/
  flush : Nat
  deriving DecidableEq, Repr

/-- One `MRD` packet of a read: at most 256 bytes (Table 4-5). -/
structure Piece where
  /-- Offset within the read. -/
  off : Nat
  /-- Bytes asked for. -/
  len : Nat
  /-- Its `TAG` while it is outstanding on the read's port (R132). -/
  tag : Option Nat
  /-- Its data, once its `CPL` has arrived. -/
  data : Option (List Byte)
  deriving DecidableEq, Repr

/-- A read of host memory that has not been answered in full (R132, R146). -/
structure Mrd where
  /-- What it fetches. -/
  of : ReadOf
  /-- Port it goes through: the home port of the command's queue (R146). -/
  port : Port
  /-- Host I/O virtual address, 64 bits. -/
  addr : Nat
  /-- Process tag, where `PT_VALID` is 1 (R132). -/
  ptag : Option (BitVec 20)
  /-- Its packets, by rising offset. -/
  pieces : List Piece
  /-- Neither port was up at some moment at which it was outstanding or waiting to be issued (R151). -/
  stalled : Bool
  deriving DecidableEq, Repr

/-- One event ring and its held events (R141 to R144). -/
structure EvtRing where
  /-- `PORT_x_EVT_CTL.EN`. [04 Table 4-9] reset: 0 -/
  en : Bool
  /-- `PORT_x_EVT_CTL.IRQ_EN`. [04 Table 4-9] reset: 0 -/
  irqEn : Bool
  /-- `PORT_x_EVT_CTL.SIZE_LOG2`, 4 bits. [04 Table 4-9] reset: 6 -/
  sizeLog2 : Nat
  /-- `PORT_x_EVT_CTL.LOST`, 16 bits, saturating. [04 Table 4-9] reset: 0 -/
  lost : Nat
  /-- `PORT_x_EVT_HEAD`, 16 bits. [04 R141] reset: 0, DESIGN CHOICE (log 5) -/
  head : Nat
  /-- `PORT_x_EVT_TAIL` index, 16 bits. [04 R141] reset: 0, DESIGN CHOICE (log 5) -/
  tail : Nat
  /-- Phase the E9 writes (`PORT_x_EVT_TAIL` bit 16). [04 R141, R142] reset: 1, DESIGN CHOICE (log 5) -/
  phase : Bool
  /-- Events held while the ring is full, at most 64. [04 R143] reset: empty -/
  held : List Evt
  /-- Events dropped and not yet reported by EVENTS_LOST: count, first and last tally. [04 R143] reset: none -/
  dropped : Option (Nat × Nat × Nat)
  deriving DecidableEq, Repr

/-- One host port. -/
structure PortSt where
  /-- `PORT_x_LINK.UP`. [04 Table 4-15] reset: 0 -/
  up : Bool
  /-- `PORT_x_LINK.TRAINING`. [04 Table 4-15] reset: 0 -/
  training : Bool
  /-- `PORT_x_LINK.RATE`, 3 bits. [04 Table 4-15] reset: 0 -/
  rate : BitVec 3
  /-- `PORT_x_LINK.WIDTH`: x32. [04 Table 4-15] reset: 0 -/
  x32 : Bool
  /-- `PORT_x_LINK.LOW_POWER`. [04 Table 4-15] reset: 0 -/
  lowPower : Bool
  /-- `PORT_x_LINK.REP_TX`, 3 bits. [04 Table 4-15] reset: 0 -/
  repTx : BitVec 3
  /-- `PORT_x_LINK.REP_RX`, 3 bits. [04 Table 4-15] reset: 0 -/
  repRx : BitVec 3
  /-- `PORT_x_LINK.RETRAINS`, 8 bits, saturating. [04 Table 4-15] reset: 0 -/
  retrains : Nat
  /-- `E9_CAP_REQ` is sent and no answer has come. [04 R127] reset: false -/
  capWait : Bool
  /-- The partner's last capability word, 16 bits. [04 Table 4-3] reset: 0 -/
  cap : BitVec 16
  /-- The port's survey entry of this power-up is made (`SURVEY_UCIE_x` measured). [03 R110, R112] reset: false -/
  surveyed : Bool
  /-- Failed retrain attempts of the running retrain, 0 to 3. [04 R131] reset: 0 -/
  attempts : Nat
  /-- Last `SEQ` sent, 12 bits. [04 Table 4-4] reset: 0xFFF, DESIGN CHOICE (log 6) -/
  txSeq : BitVec 12
  /-- `SEQ` of the last flit received intact, 12 bits. [04 Table 4-4] reset: 0xFFF, DESIGN CHOICE (log 6) -/
  rxSeq : BitVec 12
  /-- Replay buffer: `SEQ` and the 240 payload bytes of each DATA flit sent and not acknowledged, oldest first, at most 256.
  [04 R128, R130] reset: empty -/
  replay : List (BitVec 12 × List Byte)
  /-- Times the oldest flit of the replay buffer has been replayed. [04 R131] reset: 0 -/
  replays : Nat
  /-- Transaction packets that no flit carries yet, as whole 16-byte units. [04 R129] reset: empty -/
  txq : List Byte
  /-- The last flit sent, 256 bytes. [04 R128] reset: none -/
  lastTx : List Byte
  /-- Units received of a packet that is not complete (R129). [04 R129] reset: empty -/
  rxq : List Byte
  /-- A `NAK` has been sent and the replay has not begun to arrive. [04 R130] reset: false -/
  nakDue : Bool
  /-- Transaction-header buffer credits freed and not yet returned to the partner. [04 Table 4-4] reset: 0 -/
  retHdr : Nat
  /-- Data buffer credits freed and not yet returned, in 16-byte units. [04 Table 4-4] reset: 0 -/
  retData : Nat
  /-- `TAG` of the next `FLUSH`, 10 bits. [04 R145] reset: 0, DESIGN CHOICE (log 6) -/
  flushTag : Nat
  /-- `TAG` from which the next free `MRD` tag is sought, 10 bits. [04 R132] reset: 0, DESIGN CHOICE (log 6) -/
  readTag : Nat
  /-- Transaction-header buffer credits the partner has returned. [04 Table 4-4] reset: 0, DESIGN CHOICE (log 6) -/
  crdHdr : Nat
  /-- Data buffer credits the partner has returned. [04 Table 4-4] reset: 0, DESIGN CHOICE (log 6) -/
  crdData : Nat
  /-- The event ring. -/
  ring : EvtRing
  /-- `MWR`s without a `FLUSH_ACK`, oldest first; on a machine with no port up, the writes that wait. [04 R148, R150, R151] reset: empty -/
  unflushed : List Mwr
  deriving DecidableEq, Repr

/-- Owner of the Headgate (Table 4-6). -/
inductive HgOwner where
  | free | a | b
  deriving DecidableEq, Repr

/-- The Headgate. -/
structure Headgate where
  /-- `GEN`, 8 bits. [04 Table 4-6] reset: 0 -/
  gen : BitVec 8
  /-- `LEASE` in force, 8 bits. [04 Table 4-6] reset: 0 -/
  lease : BitVec 8
  /-- `WAIT_A` and the LEASE its claim carries. [04 Table 4-6, R138] reset: none -/
  waitA : Option (BitVec 8)
  /-- `WAIT_B` and the LEASE its claim carries. [04 Table 4-6, R138] reset: none -/
  waitB : Option (BitVec 8)
  /-- `TIE_NEXT`: port B wins the next tie. [04 Table 4-6] reset: 0 -/
  tieNext : Bool
  /-- `CAUSE`, 2 bits. [04 Table 4-6] reset: 0b00 -/
  cause : BitVec 2
  /-- `OWNER`. [04 Table 4-6] reset: free -/
  owner : HgOwner
  deriving DecidableEq, Repr

/-- The host interface's ports. -/
structure Ports where
  a : PortSt
  b : PortSt
  hg : Headgate
  /-- Reads of host memory that are outstanding, oldest first. [04 R132, R150, R151] reset: none -/
  reads : List Mrd
  deriving DecidableEq, Repr

/-! ### Queues and commands (05) -/

/-- A sealing command that has completed; its seal completion may be still due (R181). -/
structure SealDue where
  /-- Entry number of the sealing command. -/
  idx : Nat
  /-- First entry number of its batch. -/
  batch : Nat
  tag : Word
  /-- Its `IRQ` flag. -/
  irq : Bool
  /-- The seal completion has been written. -/
  written : Bool
  /-- A CQ slot is reserved for it (R175): false for a command that ended before it got its second slot. -/
  slot : Bool
  deriving DecidableEq, Repr

/-- One submission queue. -/
structure Sq where
  /-- Owning furrow, 0 to 4,095. -/
  furrow : Nat
  /-- SQ number n, 0 to 7. -/
  n : Nat
  /-- `BASE`, 64 bits. -/
  base : Nat
  /-- `SIZE_LOG2`, 4 to 16. -/
  sizeLog2 : Nat
  /-- The CQ it posts to. -/
  cq : Nat
  /-- Arbitration `WEIGHT`, 1 to 16. -/
  weight : Nat
  /-- Weir credits granted. -/
  credits : Nat
  /-- Weir credits held available (R177). -/
  avail : Nat
  /-- Next entry the E9 fetches. -/
  head : Nat
  /-- Last tail accepted. -/
  tail : Nat
  /-- Enabled (R163). -/
  enabled : Bool
  /-- Entries published since creation, modulo nothing: numbers entries for R181. -/
  published : Nat
  /-- Entries fetched since creation. -/
  fetched : Nat
  /-- Batches published and not yet wholly fetched: first entry number of each (R160). -/
  batches : List Nat
  /-- Entry number, batch start and severity digit of completed commands that a seal may still count (R181). -/
  done : List (Nat × Nat × Nat)
  /-- Sealing commands that have completed (R181). -/
  seals : List SealDue
  /-- A disable has not yet been reported as drained (R45). -/
  disabling : Bool
  /-- A credit equality was found broken; credits are restored when drained (R178). -/
  faulted : Bool
  deriving DecidableEq, Repr

/-- One completion queue. -/
structure Cq where
  /-- Owning furrow. -/
  furrow : Nat
  /-- CQ number, 0 to 7. -/
  n : Nat
  /-- `BASE`, 64 bits. -/
  base : Nat
  /-- `SIZE_LOG2`, 4 to 16. -/
  sizeLog2 : Nat
  /-- Home port now (R150). -/
  home : Port
  /-- Configured home port (R155). -/
  confHome : Port
  /-- `COALESCE_COUNT`, 8 bits. -/
  coalCount : Nat
  /-- `COALESCE_US`, 16 bits. -/
  coalUs : Nat
  /-- `IRQ_ADDR`, 64 bits. -/
  irqAddr : Nat
  /-- `IRQ_DATA`. -/
  irqData : BitVec 32
  /-- `IRQ_EN`. -/
  irqEn : Bool
  /-- Last `CQ_HEAD` accepted. -/
  head : Nat
  /-- Next slot the E9 writes. -/
  tail : Nat
  /-- Phase the E9 writes next. -/
  phase : Bool
  /-- Slots written and unread. -/
  unread : Nat
  /-- Slots reserved (R175). -/
  reserved : Nat
  /-- Completions written since the last interrupt write (R174). -/
  unsignalled : Nat
  deriving DecidableEq, Repr

/-- Where a fetched command stands (Table 5-6, R45). -/
inductive CmdPhase where
  /-- Its entry is being read. -/
  | fetched
  /-- The entry has arrived and passed steps 1 and 2; not dispatched. -/
  | arrived
  /-- Dispatched; its reads (block, SRC) are outstanding. -/
  | reading
  /-- Its reads have arrived; not admitted. -/
  | ready
  /-- Waits for share reservations of other commands (R282). -/
  | waitShares
  /-- Its applet policy hook runs (R463). -/
  | hook
  /-- Steps 7 to 9 passed; keys pinned and shares reserved; not started. -/
  | admitted
  /-- Step 10 has begun (R45). -/
  | started
  deriving DecidableEq, Repr

/-- The unit that executes a command (R20). -/
inductive Route where
  | flume | warden
  deriving DecidableEq, Repr

/-- A slot a command has allocated and not yet committed (R249), with the granules taken for it. -/
structure SlotAlloc where
  /-- Table index. -/
  idx : Nat
  /-- Furrow that will own the record. -/
  owner : Nat
  /-- First granule. -/
  gran : Nat
  /-- Granules. -/
  count : Nat
  deriving DecidableEq, Repr

/-- What a command needs of its engine. -/
structure Need where
  /-- Chunks of a parallel class 0x2 command (R318); 1 for any other. -/
  parts : Nat
  /-- It begins to write at `DST` once every chunk is held by a lane (R320). -/
  early : Bool
  /-- It uses a lattice core (R347). -/
  lattice : Bool
  deriving DecidableEq, Repr

/-- One unit, a modular core. -/
def oneUnit : Need := ⟨1, false, false⟩

/-- A fetched command (Table 5-5) and its progress. -/
structure Cmd where
  /-- The model's number of the command. -/
  id : Nat
  furrow : Nat
  sq : Nat
  cq : Nat
  /-- Entry number within its SQ, for R181. -/
  idx : Nat
  /-- First entry number of its batch. -/
  batch : Nat
  phase : CmdPhase
  opcode : BitVec 16
  flags : BitVec 8
  form : BitVec 8
  tag : BitVec 32
  keyA : BitVec 64
  keyB : BitVec 64
  src : BitVec 64
  dst : BitVec 64
  srcLen : Nat
  dstLen : Nat
  /-- INLINE, 16 bytes. -/
  inl : List Byte
  /-- The second CQ slot of a sealing command is reserved (R175). -/
  sealSlot : Bool
  /-- Process tag of its furrow when fetched. -/
  ptag : BitVec 20
  route : Route
  /-- Mode it was dispatched in (R90). -/
  mode : Mode
  /-- `COLOUR_SET` of the furrow policy it was dispatched under (R200). -/
  colours : BitVec 16
  /-- `KEY_QUOTA` it was dispatched under (R200). -/
  keyQuota : Nat
  /-- The extended parameter block, once read. -/
  block : List Byte
  /-- SRC, once read. -/
  data : List Byte
  /-- The block's read is outstanding. -/
  needBlock : Bool
  /-- SRC's read is outstanding. -/
  needSrc : Bool
  /-- Key-table indices it pins (R249). -/
  pins : List Nat
  /-- Share reservations: pool, how many, and the key-table index they are for (R281). -/
  resv : List (Nat × Nat × Nat)
  /-- Try pool named, whose try share is reserved (R283); 0 for none. -/
  tryPool : Nat
  /-- Journal-buffer space is reserved for it (R183). -/
  auditResv : Bool
  /-- It has begun writing DST (R173). -/
  wroteDst : Bool
  /-- The vault segment it waits for (R531). -/
  waitSeg : Option Nat
  /-- Intermediate results of a command that waits inside step 10. -/
  scratch : List Nat
  /-- It waits for KEY-class output (R381). -/
  entropyWait : Bool
  /-- Slots allocated and not committed (R249). -/
  alloc : List SlotAlloc
  /-- Next tally at its dispatch: which version of an applet it runs (R459). -/
  dispTally : Nat
  /-- It runs for the service `CALL`: the core and the applet (R466). -/
  svc : Option (Nat × Nat)
  /-- What it needs of its engine, once it is admitted. -/
  need : Need
  /-- What it holds of its engine: its chunks' lanes, one entry a chunk (R317, R318), its Flume unit (R267), or its public-key core,
  lattice cores from 32 (R347). -/
  units : List Nat
  /-- The records it resolved, by index, as its key checks found them (R247): what its unit's key registers are loaded from (R267). -/
  recs : List (Nat × KeyRec)
  /-- RTC seconds at dispatch (Table 13-10). -/
  dispRtc : Nat
  deriving DecidableEq, Repr

/-- The four engines of Table 6-2. -/
inductive Engine where
  | cipher | flume | pke | warden
  deriving DecidableEq, Repr

/-- The command interface. -/
structure CmdIf where
  /-- SQs that exist, by queue number rising. [05 R153, Table 5-2] reset: none -/
  sqs : List Sq
  /-- CQs that exist, by furrow and number rising. [05 R153, Table 5-1] reset: none -/
  cqs : List Cq
  /-- Free pool of Weir credits, 17 bits (`CMD_WEIR_FREE`). [05 R177] reset: 65,536 -/
  pool : Nat
  /-- Fetched commands not completed, oldest first. [05 R175] reset: none -/
  cmds : List Cmd
  /-- Next command number. [the model's own] reset: 0, DESIGN CHOICE (log 7) -/
  nextId : Nat
  /-- Doorbell writes held in SURVEY: port, process tag, address, value. [03 R87] reset: empty -/
  heldDb : List (Port × Option (BitVec 20) × Nat × BitVec 32)
  /-- The queue whose turn to fetch it is, and the reads left of the turn. [05 R157] reset: queue 0, 0 reads, DESIGN CHOICE (log 124) -/
  turn : Nat × Nat
  /-- Commands that each engine has served for each furrow in the round that runs. [06 R202] reset: none, DESIGN CHOICE (log 124) -/
  served : List (Engine × Nat × Nat)
  deriving DecidableEq, Repr

/-! ### Furrows (06) -/

/-- Furrow states (Table 6-3). -/
inductive FState where
  | free | active | quiescing | quiesced | logging | disabled
  deriving DecidableEq, Repr

/-- The dirty log in force (Table 6-7, R219). -/
structure DirtyLog where
  /-- `BITMAP_BASE`. -/
  bitmap : Nat
  /-- `RANGE_BASE`. -/
  base : Nat
  /-- `RANGE_PAGES`. -/
  pages : Nat
  /-- Words of the current bitmap that the E9 has read or written, by number: their values (R216). -/
  words : List (Nat × Nat)
  /-- Pages to be marked whose word is being read, with the port of their write. -/
  toMark : List (Port × Nat)
  /-- Writes of the furrow that wait for those marks, oldest first (R217). -/
  held : List (Port × Mwr)
  /-- Pages written outside the range. -/
  outside : Nat
  /-- A bitmap read or write failed (R219). -/
  incomplete : Bool
  deriving DecidableEq, Repr

/-- One furrow that is not FREE (Table 6-1). -/
structure Furrow where
  state : FState
  ptag : BitVec 20
  classMask : BitVec 16
  colourSet : BitVec 16
  keyQuota : Nat
  creditQuota : Nat
  /-- `ENGINE_SHARE` of the cipher engine, Flume, the public-key engine and the Warden cluster. -/
  shareCipher : BitVec 8
  shareFlume : BitVec 8
  sharePke : BitVec 8
  shareWarden : BitVec 8
  /-- `LOG_ON`. -/
  logOn : Bool
  /-- The bitmap in force while `LOG_ON` is 1. -/
  log : Option DirtyLog
  /-- A disable or quiesce has not been reported as drained (R206). -/
  draining : Bool
  /-- Replaced policies that commands dispatched earlier still complete under, newest first: the tally that ended each, its
  `COLOUR_SET` and its `KEY_QUOTA` (R200). -/
  olds : List (Nat × BitVec 16 × Nat)
  deriving DecidableEq, Repr

/-- Units retired under R114; recorded in flash, held across power cycles. -/
structure Units where
  /-- `FLUME_RETIRED`, 64 bits. [08 Table 8-19] reset: 0 -/
  flume : BitVec 64
  /-- `CIPHER_RETIRED`, 16 bits. [09 Table 9-6] reset: 0 -/
  lanes : BitVec 16
  /-- `PKE_RETIRED`, 32 bits. [10 Table 10-7] reset: 0 -/
  pke : Word
  /-- `PKE_RETIRED_LAT`, 32 bits. [10 Table 10-7] reset: 0 -/
  pkeLat : Word
  /-- Warden cores, 4 bits. [13 R468] reset: 0 -/
  cores : BitVec 4
  /-- Mesh ports, 4 bits. [12 R397] reset: 0 -/
  mesh : BitVec 4
  /-- Flash banks, 2 bits. [15 R519] reset: 0 -/
  banks : BitVec 2
  /-- Noise sources A (bit 0) and B (bit 1). [11 R376] reset: 0 -/
  sources : BitVec 2
  deriving DecidableEq, Repr

/-! ### Custodians (17) -/

/-- One custodian and its credential (R548). -/
structure Custodian where
  /-- The credential is a badge; else a card. -/
  badge : Bool
  /-- The badge's fixed identifier, 64 bits; 0 for a card. -/
  ident : Nat
  /-- The credential's ECC P-256 public key, 64 bytes. -/
  pub : List Byte
  deriving DecidableEq, Repr

/-- One custodian set (R548). -/
structure CustSet where
  /-- Threshold, 2 to 16; 0 for none. -/
  threshold : Nat
  /-- Custodian numbers, rising. -/
  members : List Nat
  deriving DecidableEq, Repr

/-- The custodian table, the sets and the domain custodian key: what the vault and the flash copy hold (R548, R549). -/
structure CustTable where
  /-- Custodians by number, 1 to 255. -/
  custs : List (Nat × Custodian)
  /-- Sets by number, 0 to 7; an undefined one with no member is not listed. -/
  sets : List (Nat × CustSet)
  /-- Private part of the domain custodian key, 32 bytes; empty before the domain is founded. -/
  key : List Byte
  deriving DecidableEq, Repr

/-- A live custodian session (R552, R553). -/
structure CustSession where
  /-- Custodian number. -/
  cust : Nat
  /-- Kind: 1 card, 2 badge. -/
  kind : Nat
  /-- Tally of the opening. -/
  tally : Nat
  /-- RTC second at which its credential was last seen. -/
  seen : Nat
  /-- Session key, 32 bytes (R551). -/
  key : List Byte
  deriving DecidableEq, Repr

/-- Supply classes of the contact slot (Table 17-8): `CARD_CLASS`. -/
inductive CardClass where
  | inactive | a | b | c
  deriving DecidableEq, Repr

/-- The custodian interfaces. -/
structure Cust where
  /-- Table, sets and key in force. [17 R548, R549] reset: empty -/
  table : CustTable
  /-- The sealed copy in the Zarjan configuration area of flash. [17 R548] reset: empty -/
  copy : CustTable
  /-- Live sessions, by opening. [17 R552, R553] reset: none -/
  sessions : List CustSession
  /-- `HOLD_S`, 12 bits. [17 R553] reset: 600 -/
  holdS : Nat
  /-- Tally of the last verdict change, 64 bits. [17 Table 17-5] reset: 0 -/
  verdictTally : Nat
  /-- A verdict evaluation is due. [17 R554] reset: false -/
  evalDue : Bool
  /-- `CARD_PRESENT`: the card-detect switch is closed. [17 Table 17-8] reset: 0 -/
  card : Bool
  /-- `CARD_CLASS`. [17 Table 17-8, R556] reset: inactive -/
  cls : CardClass
  /-- The card has given its ATR and stays active. [17 R556] reset: false -/
  atr : Bool
  /-- The card has been reported silent. [17 R556] reset: false -/
  silent : Bool
  /-- Custodian whose card is in the slot, once it has authenticated. [17 R553] reset: none -/
  inSlot : Option Nat
  /-- `FIELD_ON`: the reader field is on. [17 Table 17-8] reset: 0 -/
  fieldOn : Bool
  /-- `READER_BUSY`. [17 Table 17-8] reset: 0 -/
  readerBusy : Bool
  /-- Badge identifiers found twice in an inventory, rising. [17 R562] reset: none -/
  dups : List Nat
  /-- What was last written to a credential or seal: keys, rows or a component record. [17 R559, R565, R566] reset: none -/
  sent : List Byte
  deriving DecidableEq, Repr

/-! ### Key table and key store (07) -/

/-- `STATE` of a slot (Table 7-2). -/
inductive SlotState where
  | free | live | cullet | spent
  deriving DecidableEq, Repr

/-- One slot of the record array that differs from a never-used one. -/
structure KeySlot where
  state : SlotState
  /-- `GEN`, 25 bits (R242). -/
  gen : Nat
  /-- Generation floor, a multiple of 256 (R243). -/
  floor : Nat
  /-- The record, while the slot is LIVE or CULLET. -/
  entry : Option KeyRec
  /-- The record is in the key cache (R245). -/
  cached : Bool
  /-- The unit in DRAM failed its tag twice and waits for a reload (R227). -/
  reloading : Bool
  /-- The first of the two 32-byte parts in which DRAM holds inline secret material (R233). -/
  split : List Byte
  deriving DecidableEq, Repr

/-- The key table, key store and key cache. -/
structure KeyTab where
  /-- Slots that differ from FREE, generation 0, floor 0, by index rising. [07 R229, Table 7-1] reset: none listed -/
  slots : List (Nat × KeySlot)
  /-- Free list of the local range: index ranges, first to be allocated first. [07 R249] reset: empty -/
  freeLocal : List (Nat × Nat)
  /-- Free list of the domain range. [07 R249] reset: empty -/
  freeDomain : List (Nat × Nat)
  /-- Free granules of the extension pool: ranges, rising. [07 Table 7-1] reset: every granule -/
  granFree : List (Nat × Nat)
  /-- `KEYTAB_STATUS.FLOORS_LOADED`. [07 Table 7-14] reset: 0 -/
  floorsLoaded : Bool
  /-- `KEYTAB_STATUS.RESTORING`. [07 Table 7-14] reset: 0 -/
  restoring : Bool
  /-- `KEYTAB_STATUS.RESTORE_DONE`. [07 Table 7-14] reset: 0 -/
  restoreDone : Bool
  /-- Archived indices still to be restored, rising. [07 R254] reset: empty -/
  toRestore : List Nat
  /-- `KEYTAB_RESTORED`, 26 bits. [07 Table 7-13] reset: 0 -/
  restored : Nat
  /-- `KEYTAB_DOMAIN_LIMIT`, 26 bits. [07 R237, 12 R434] reset: 2^20 -/
  domainLimit : Nat
  /-- `KEYTAB_SPARE`, 10 bits: spare regions remaining. [07 Table 7-1] reset: 512 (X8) -/
  spare : Nat
  /-- Tag failures per logical region since main power-up. [07 R228] reset: none -/
  tagFails : List (Nat × Nat)
  /-- Logical regions remapped into a spare. [07 R228] reset: none -/
  remapped : List Nat
  /-- Key-cache misses whose read is outstanding. [07 R245] reset: none -/
  fills : List Nat
  /-- Key-store XTS key, 64 bytes; empty while none is drawn. [07 R226] reset: none -/
  xtsKey : List Byte
  /-- Key-store MAC key, 32 bytes; empty while none is drawn. [07 R226] reset: none -/
  macKey : List Byte
  /-- Key of the hash that chooses the key cache's set of an index, drawn at each main power-up. [07 R245] reset: 0, DESIGN CHOICE (log 128) -/
  hashKey : Nat
  deriving DecidableEq, Repr

/-! ### Cistern ledger and mesh (12) -/

/-- One share pool (R409, R429). -/
structure Pool where
  /-- 1 usage, 2 try. -/
  kind : Nat
  minted : Nat
  held : Nat
  working : Nat
  draw : Nat
  lowWater : Nat
  declared : Nat
  /-- Shares debited since main power-up. -/
  spent : Nat
  /-- `CISTERN_POOL_LOW` is posted and the balance has not risen since (R413). -/
  lowPosted : Bool
  /-- The keeper or vault has confirmed it since power-up (R410, R426). -/
  confirmed : Bool
  /-- A declaration has settled it (R424). -/
  settled : Bool
  /-- A draw of this many shares is outstanding (R411). -/
  drawing : Option Nat
  deriving DecidableEq, Repr

/-- A device this one keeps (R415, R423). -/
structure Kept where
  ddn : Nat
  /-- Last `LSQ` accepted. -/
  lsq : Nat
  /-- Latest statement of each pool. -/
  latest : List (Nat × Stmt)
  /-- Verdicts given, by `LSQ`. -/
  verdicts : List (Nat × Verdict)
  /-- Pools settled by a declaration; 0 stands for every pool. -/
  settled : List Nat
  /-- Transfers in it has acknowledged: pool and the source's tally (R423). -/
  ins : List (Nat × Nat)
  /-- Transfers in it has voided: pool and the source's tally (R423). -/
  voids : List (Nat × Nat)
  /-- Transfers out of the device that are not done: pool, tally, amount (R423). -/
  outs : List (Nat × Nat × Nat)
  deriving DecidableEq, Repr

/-- State of a ledger-ring record (R417, R418). -/
inductive RingState where
  | prepared | done | burned | inbound | credited | zeroize
  deriving DecidableEq, Repr

/-- One record of the ledger ring (R420), 32 bytes in three copies. -/
structure RingRec where
  state : RingState
  pool : Nat
  /-- The other device. -/
  peer : Nat
  /-- Tally of the source's outbound record: the transfer's identity. -/
  tally : Nat
  amount : Nat
  /-- The statement of this step has been acknowledged. -/
  acked : Bool
  deriving DecidableEq, Repr

/-- A member of the key domain (R405 to R407). -/
structure Member where
  ddn : Nat
  incarnation : Nat
  /-- SHA-256 of its identity public key. -/
  digest : List Byte
  /-- Sequence number of its latest adjacency record. -/
  adjSeq : Nat
  /-- Its latest adjacency record: neighbour and cost per session. -/
  adj : List (Nat × Nat)
  /-- A path to it exists (R407). -/
  reachable : Bool
  /-- RTC second at which it was last reachable. -/
  lastSeen : Nat
  /-- First-hop port of the path to it. -/
  firstHop : Nat
  /-- Hops of the path to it. -/
  hops : Nat
  /-- Its keeper, where known. -/
  keeper : Nat
  /-- Its mode is known to be ZEROIZED or RETIRED (R423). -/
  dead : Bool
  /-- Last broadcast sequence number of it applied (R428). -/
  bcast : Nat
  deriving DecidableEq, Repr

/-- How far a session handshake has come (Table 12-3). -/
inductive Handshake where
  | none | sentInit | sentResponse
  deriving DecidableEq, Repr

/-- A frame to send: header fields that travel with the content. -/
structure Frame where
  /-- `HOPS`. -/
  hops : Nat
  /-- `DST`; 0x8000 set for the neighbour alone. -/
  dst : Nat
  /-- `SRC`. -/
  src : Nat
  msg : Msg
  deriving DecidableEq, Repr

/-- One mesh port. -/
structure MeshPort where
  /-- Clause 136 training has completed. [12 R397] reset: false -/
  trained : Bool
  /-- `CISTERN_PORTn_STATUS.UP`. [12 Table 12-14] reset: 0 -/
  up : Bool
  /-- `SESSION`. [12 Table 12-14] reset: 0 -/
  session : Bool
  /-- `LOW_POWER`. [12 Table 12-14] reset: 0 -/
  lowPower : Bool
  /-- `EQ`, 4 bits. [12 Table 12-14] reset: 0 -/
  eq : Nat
  /-- `COST`, 8 bits. [12 Table 12-14] reset: 0x10 -/
  cost : Nat
  /-- `NEIGHBOUR`, 14 bits. [12 Table 12-14] reset: 0 -/
  neighbour : Nat
  /-- Training in progress. [12 R397] reset: false -/
  training : Bool
  /-- Training failures in succession. [12 R397] reset: 0 -/
  fails : Nat
  /-- The port has faulted in this power-up. [12 R397] reset: false -/
  faulted : Bool
  /-- Power-ups in succession that faulted, kept in flash. [12 R397] reset: 0 -/
  faultedPowerUps : Nat
  /-- Handshake progress. [12 Table 12-3] reset: none -/
  hs : Handshake
  /-- The partner's capability word. [12 Table 12-4] reset: 0 -/
  peerCap : Word
  /-- The partner's certificate: number and incarnation, once it has verified. [12 R403] reset: none -/
  peerCert : Option (Nat × Nat)
  /-- Session key of the sending direction, 32 bytes. [12 R402] reset: none -/
  txKey : List Byte
  /-- Session key of the receiving direction, 32 bytes. [12 R402] reset: none -/
  rxKey : List Byte
  /-- `EPOCH`, 32 bits. [12 R404] reset: 0 -/
  epoch : Nat
  /-- Next `FSEQ` to send, 64 bits. [12 Table 12-2] reset: 0 -/
  txSeq : Nat
  /-- Next `FSEQ` expected, 64 bits. [12 Table 12-2] reset: 0 -/
  rxSeq : Nat
  /-- Frames sent and not acknowledged, with their `FSEQ`, oldest first. [12 R400] reset: empty -/
  unacked : List (Nat × Frame)
  /-- Frames that wait for credits or for the port. [12 R401, R408] reset: empty -/
  txWait : List Frame
  /-- Resends of the oldest frame. [12 R400] reset: 0 -/
  resends : Nat
  /-- Frame credits available to send, 0 to 256. [12 R401] reset: 256 -/
  credits : Nat
  /-- Cumulative `CRD` last received, 16 bits. [12 R401] reset: 0 -/
  crdIn : Nat
  /-- Cumulative count of buffers this side freed, 16 bits. [12 R401] reset: 0 -/
  crdOut : Nat
  /-- A `NAK` is due. [12 R400] reset: false -/
  nakDue : Bool
  /-- The 512 bytes of the frame last sent. [12 R399] reset: none -/
  wire : List Byte
  /-- RTC second at which the session opened. [12 R404] reset: 0 -/
  since : Nat
  /-- RTC seconds of the retrains of the session. [12 R404] reset: none -/
  retrains : List Nat
  deriving DecidableEq, Repr

/-- A statement that waits for the keeper's acknowledgement (R414). -/
structure PendStmt where
  st : Stmt
  /-- The command that completes with it. -/
  cmd : Option Nat
  deriving DecidableEq, Repr

/-- A settlement that runs on this device as keeper, or is awaited as declaring device (R423). -/
structure Settling where
  /-- Stranded device. -/
  ddn : Nat
  /-- Pool, or 0 for every pool. -/
  pool : Nat
  /-- The command that waits for it, on the declaring device. -/
  cmd : Option Nat
  deriving DecidableEq, Repr

/-- The ledger and the mesh. -/
structure Cistern where
  /-- Pools by number. [12 R409, R429] reset: none -/
  pools : List (Nat × Pool)
  /-- Highest pool number chosen, 18 bits. [12 R429] reset: 0 -/
  lastPool : Nat
  /-- `LSQ` of the last statement formed, 64 bits. [12 R414] reset: 0 -/
  lsq : Nat
  /-- Statements that wait for the keeper's acknowledgement, oldest first. [12 R414] reset: empty -/
  stmts : List PendStmt
  /-- The ledger ring, oldest first, at most 1,024; in flash. [12 R420] reset: empty -/
  ring : List RingRec
  /-- Highest floor received per source. [12 R419] reset: none -/
  floors : List (Nat × Nat)
  /-- `CISTERN_STATUS.RESTORING`. [12 Table 12-11] reset: 0 -/
  restoring : Bool
  /-- Keeper's domain device number; none when this device is its own keeper. [12 Table 12-11] reset: none (SELF_KEEPER 1) -/
  keeper : Option Nat
  /-- A change of keeper waits: the command, the new keeper, and the `LSQ` whose acknowledgement completes it. [12 R416] reset: none -/
  newKeeper : Option (Nat × Nat × Nat)
  /-- Latest acknowledged own statement of each pool. [12 R416] reset: none -/
  ownLatest : List (Nat × Stmt)
  /-- Membership certificate: number, incarnation and key digest. [12 R406] reset: none (MEMBER 0) -/
  cert : Option (Nat × Nat × List Byte)
  /-- SHA-256 of the domain root's public key. [12 R405] reset: none -/
  root : List Byte
  /-- Other members known, by number. [12 R407] reset: none -/
  members : List Member
  /-- Devices this one keeps. [12 R415] reset: none -/
  kept : List Kept
  /-- Statements received and journaled whose acknowledgement waits for the segment: device, `LSQ`, segment. [12 R415] reset: none -/
  keptWait : List (Nat × Nat × Nat)
  /-- Own broadcast sequence number. [12 R428] reset: 0 -/
  bcast : Nat
  /-- Broadcasts held for fetches: origin, sequence number, content. [12 R428] reset: none -/
  blog : List (Nat × Nat × Bcast)
  /-- Own domain-record changes whose acknowledgement is awaited: sequence number and members still to acknowledge. [12 R431] reset: none -/
  syncing : List (Nat × List Nat)
  /-- Own adjacency sequence number. [12 R407] reset: 0 -/
  adjSeq : Nat
  /-- The four mesh ports. [12 R396] reset: as MeshPort -/
  ports : List MeshPort
  /-- The keeper has acknowledged a first statement since JOIN began. [12 R432] reset: false -/
  firstAck : Bool
  /-- Origins reported at session opening: number and sequence to be reached. [12 R432] reset: none -/
  syncTo : List (Nat × Nat)
  /-- Settlements in progress. [12 R423] reset: none -/
  settling : List Settling
  /-- Shares of `WORKING` lost with main power, by pool, for the audit record at the next restore. [12 R412, R433] reset: none -/
  lapsed : List (Nat × Nat)
  deriving DecidableEq, Repr

/-! ### Vault (16) -/

/-- One audit record, whole (Table 16-9). -/
structure JRec where
  tally : Nat
  bytes : List Byte
  deriving DecidableEq, Repr

/-- One change of the archive that a segment carries (Table 16-6). -/
inductive ArchOp where
  /-- A persistent record, with its generation. -/
  | put (idx gen : Nat) (r : KeyRec)
  | del (idx : Nat)
  | floor (idx f : Nat)
  | pool (num : Nat) (p : Pool)
  | shape (limitLog2 devLog2 : Nat)
  | kept (k : Kept)
  | applet (n : Nat) (bytes : List Byte)
  | appletDel (n : Nat)
  | pstore (n gen : Nat) (bytes : List Byte)
  | exportMark (t : Nat)
  | custodians (t : CustTable)
  deriving DecidableEq, Repr

/-- The archive image: what the durable segments have made it. -/
structure Archive where
  keys : List (Nat × (Nat × KeyRec))
  floors : List (Nat × Nat)
  pools : List (Nat × Pool)
  shape : Option (Nat × Nat)
  kept : List Kept
  applets : List (Nat × List Byte)
  /-- Highest `VERSION` installed, by applet number (R458). -/
  versions : List (Nat × Nat)
  pstores : List (Nat × (Nat × List Byte))
  exportMark : Nat
  custodians : Option CustTable
  deriving DecidableEq, Repr

/-- A segment: open, or sealed and in flight (Table 16-7). -/
structure Seg where
  kind : SegKind
  seq : Nat
  epoch : Nat
  ops : List ArchOp
  recs : List JRec
  /-- Payload bytes so far. -/
  len : Nat
  /-- Slots whose token is still awaited. -/
  waits : List Nat
  /-- Slots that hold it done. -/
  doneOn : List Nat
  /-- Media-error tokens it has met (R539). -/
  errs : Nat
  /-- Its seal's tag (R529). -/
  tag : List Byte
  deriving DecidableEq, Repr

/-- `VAULT_SLOTn.STATE` (Table 16-14). -/
inductive CartState where
  | empty | bringup | current | stale | blank | foreign | rebuilding | retired | failed | released
  deriving DecidableEq, Repr

/-- One cartridge slot and the cartridge in it. -/
structure CartSlot where
  /-- `VAULT_SLOTn.STATE`. [16 Table 16-14] reset: empty -/
  state : CartState
  /-- `SPARES_ORIG` of the cartridge. [16 Table 16-1] reset: 0 -/
  sparesOrig : Nat
  /-- `SPARES_LEFT` as last read. [16 Table 16-1] reset: 0 -/
  sparesLeft : Nat
  /-- `SERIAL`. [16 Table 16-1] reset: 0 -/
  serial : Nat
  /-- The cartridge's label: vault identifier and epoch. [16 Table 16-6] reset: none -/
  label : Option (Nat × Nat)
  /-- The label names another key than the current KEK opens (R109). [03 R109] reset: false -/
  unopened : Bool
  /-- `VAULT_SPARES_LOW` is posted for this cartridge. [16 R539] reset: false -/
  warned : Bool
  /-- Highest segment that this slot's cartridge of the set holds done. [16 R532] reset: 0 -/
  lastSeq : Nat
  /-- Serial number of the cartridge that was last in the set in this slot. [16 R537] reset: none -/
  member : Option Nat
  /-- The cartridge in the slot has been measured: its bring-up has ended. [03 R111, R112] reset: false -/
  measured : Bool
  deriving DecidableEq, Repr

/-- `VAULT_STATUS.LAYOUT`. -/
inductive Layout where
  | mirrored | striped | single
  deriving DecidableEq, Repr

/-- One entry of the per-key usage rollup (Table 16-10). -/
structure RollEntry where
  /-- 1 key, 2 try pool, 3 furrow status, 4 overflow. -/
  type : Nat
  furrow : Nat
  /-- Uses, tries or completions. -/
  uses : Nat
  vfails : Nat
  shares : Nat
  /-- Key handle, pool number, or status. -/
  ident : Nat
  deriving DecidableEq, Repr

/-- The vault. -/
structure Vault where
  /-- `VAULT_STATUS.LAYOUT`. [16 Table 16-13, R528] reset: mirrored -/
  layout : Layout
  /-- Vault identifier once formatted (`FORMATTED`), 64 bits. [16 R528] reset: none -/
  ident : Option Nat
  /-- Current epoch, 32 bits, kept in the flash record log. [16 R528] reset: 0 -/
  epoch : Nat
  /-- Slot 0. -/
  slot0 : CartSlot
  /-- Slot 1. -/
  slot1 : CartSlot
  /-- Next segment sequence, 64 bits. [16 Table 16-7] reset: 0 -/
  nextSeq : Nat
  /-- The open segments, at most one of each kind. [16 R531] reset: none -/
  opens : List Seg
  /-- Sealed segments not durable, oldest first. [16 R532] reset: none -/
  inflight : List Seg
  /-- `VAULT_DURABLE_TALLY`, 64 bits. [16 R532] reset: 0 -/
  durableTally : Nat
  /-- The archive as the durable segments give it. [16 Table 16-6] reset: empty -/
  archive : Archive
  /-- Durable audit records not reclaimed, oldest first. [16 R544] reset: none -/
  audit : List JRec
  /-- Audit segments in use. [16 R544] reset: 0 -/
  auditUsed : Nat
  /-- `LAST_TALLY` of each audit segment in use that is durable, oldest first. [16 R544] reset: none -/
  auditSegs : List Nat
  /-- `VAULT_AUDIT_HIGH` is posted. [16 R544] reset: false -/
  auditHigh : Bool
  /-- Bytes of the journal buffer reserved by commands at step 9. [05 R183] reset: 0 -/
  reserved : Nat
  /-- Entries of the rollup being gathered. [01 R26, 16 R543] reset: none -/
  rollup : List RollEntry
  /-- Key handles that `FLUME_VFAIL` has been posted for in this rollup. [08 R314] reset: none -/
  rollPosted : List Nat
  /-- RTC second the rollup covers. [01 R26] reset: 0 -/
  rollSecond : Nat
  /-- Segments whose write is indeterminate and that wait for a current cartridge. [16 R535] reset: none -/
  lost : List Seg
  /-- Audit key formed (kept out of zeroization). [16 R529] reset: false -/
  auditKey : Bool
  /-- Vault key unwrapped. [16 R529] reset: false -/
  vaultKey : Bool
  /-- The vault key, 32 bytes, as the label holds it wrapped under `kek`. [16 R529] reset: none -/
  sealKey : List Byte
  /-- Seal tag of the last segment sealed, 16 bytes. [16 Table 16-7] reset: 0 -/
  sealTag : List Byte
  /-- The slot being rebuilt or caught up, and whether it is a rebuild. [16 R541, R537] reset: none -/
  copying : Option (Nat × Bool)
  /-- First `SEQ` a catch-up still has to copy. [16 R537] reset: 0 -/
  copyFrom : Nat
  /-- Master key-encryption key under which the labels wrap the vault key, 32 bytes: an ideal stand-in for the wrapped key. [16 R529]
  reset: none -/
  kek : List Byte
  /-- First tally of this power-up, while its `GAP` record is due. [16 R533] reset: none -/
  gap : Option Nat
  deriving DecidableEq, Repr

/-! ### Tamper monitors, backup domain, Punty (18) -/

/-- A backup record (Table 18-4, bytes 0 to 27). -/
structure BackRec where
  /-- RTC seconds, 48 bits. -/
  sec : Nat
  /-- RTC fraction, 15 bits. -/
  frac : Nat
  /-- `RTC_VALID` when it was written. -/
  valid : Bool
  /-- Tally; 0 until issued. -/
  tally : Nat
  /-- Kind: 1 alarm, 2 HOLD entry, 3 FORENSIC entry, 4 FORENSIC exit, 5 evidence burn, 6 `FLASH_ERASE_RESUMED`. -/
  kind : Nat
  /-- Source of Table 18-1, or 0xFF. -/
  source : Nat
  /-- Level. -/
  level : Nat
  /-- Byte 19: bit 0 key erased, bit 1 pending increment written, bit 2 raised in HOLD. -/
  flags : Nat
  /-- Reading of detector A, 32 bits. -/
  a : Nat
  /-- Reading of detector B, 32 bits. -/
  b : Nat
  deriving DecidableEq, Repr

/-- One tamper pin (R587, Table 18-12). -/
structure TPin where
  /-- `MODE`, 2 bits. [18 Table 18-12] reset: 0 (disabled) -/
  mode : Nat
  /-- `EXPECT`. [18 Table 18-12] reset: 0 -/
  expect : Bool
  /-- `STATE`: the input at the last sample. [18 Table 18-12] reset: 0 -/
  state : Bool
  /-- `DEBOUNCE`, 4 bits. [18 Table 18-12] reset: 0 -/
  debounce : Nat
  /-- `LEVEL`, 3 bits. [18 Table 18-12] reset: 0 -/
  level : Nat
  /-- `HOLD_RATE`, 4 bits. [18 Table 18-12] reset: 0 -/
  rate : Nat
  deriving DecidableEq, Repr

/-- OTP bits that change in the field (R99, R581, R582). -/
structure Otp where
  /-- Evidence-counter bits burned, 0 to 512, from bit 0 upwards. [18 R582] reset: 0, DESIGN CHOICE (log 2) -/
  evidence : Nat
  /-- The retire fuse. [03 R99] reset: not burned, DESIGN CHOICE (log 2) -/
  retire : Bool
  deriving DecidableEq, Repr

/-- The backup domain. -/
structure Backup where
  /-- A cell in range is fitted (`VBAT` at 2.2 V or more). [19 R600, R601] reset: false, DESIGN CHOICE (log 2) -/
  vbat : Bool
  /-- `TAMPER_VBAT`: VBAT in mV as last measured, 16 bits. [18 Table 18-9] reset: 0 -/
  vbatMv : Nat
  /-- RTC whole seconds, 48 bits. [18 R586] reset: 0 -/
  rtcSec : Nat
  /-- RTC fraction in 1/32,768 s, 15 bits. [18 R586] reset: 0 -/
  rtcFrac : Nat
  /-- `TAMPER_STATUS.RTC_VALID`. [18 R586] reset: 0 -/
  rtcValid : Bool
  /-- The master key-encryption key, 32 bytes: the exclusive OR of its two shares; empty when absent. [18 "Backup domain"]
  reset: none -/
  mkek : List Byte
  /-- Pending increments: the evidence bit each names. [18 R582] reset: none -/
  pending : List Nat
  /-- The ring of backup records, oldest first, at most 128. [18 R583] reset: none -/
  records : List BackRec
  /-- `TAMPER_STATUS.LOST`, 8 bits, saturating. [18 Table 18-10] reset: 0 -/
  lost : Nat
  /-- The backup domain lost VBAT since the last main power-down. [03 R102] reset: false -/
  lostVbat : Bool
  /-- A HOLD entry record was written at the last main power-down. [03 R102] reset: false -/
  holdRecord : Bool
  /-- Tamper pins 0 to 7. [18 R587] reset: every pin disabled -/
  pins : List TPin
  deriving DecidableEq, Repr

/-- An alarm raised and not yet recorded (R577): source, level, readings. -/
structure Raised where
  source : Nat
  level : Nat
  a : Nat
  b : Nat
  deriving DecidableEq, Repr

/-- The tamper unit. -/
structure Tamper where
  /-- `DEVICE_MODE.RESP_LEVEL`: the level last reported. [18 R576, R577] reset: 0 -/
  respLevel : Nat
  /-- Alarms in force (`TAMPER_ALARM`): source and level, by source rising. [18 R576, R578] reset: none -/
  alarms : List (Nat × Nat)
  /-- `TAMPER_ACTIVE`: sources whose condition is present, rising. [18 R578] reset: none -/
  active : List Nat
  /-- Alarms of the running slow-clock cycle, not yet recorded. [18 R577] reset: none -/
  raised : List Raised
  /-- `TAMPER_STATUS.SCRUBBING`. [18 Table 18-10] reset: 0 -/
  scrubbing : Bool
  /-- The vault and audit keys in working form are erased and not re-formed. [18 R579] reset: false -/
  reform : Bool
  /-- A level 4 alarm's decision is being computed. [18 R580] reset: false -/
  deciding : Bool
  /-- A counted event found every evidence bit burned, and the decision to enter RETIRED is being computed. [03 R98, 18 R582]
  reset: false -/
  retiring : Bool
  /-- Next position of the tamper log, 0 to 32,767. [18 R584] reset: 0 -/
  logPos : Nat
  deriving DecidableEq, Repr

/-- One of the two slots of a visible Punty row (R590). -/
structure PuntySlot where
  /-- The 16 bytes it holds. [18 R590] reset: 0, DESIGN CHOICE (log 80) -/
  bytes : List Byte
  /-- Its CRC-16. [18 R590] reset: that of its bytes -/
  crc : BitVec 16
  /-- Its version bit. [18 R590] reset: 0 -/
  ver : Bool
  deriving DecidableEq, Repr

/-- A visible Punty row in its two slots: slot 0 is the newest while their version bits are equal (R590; log 80). -/
structure PuntyRow where
  slot0 : PuntySlot
  slot1 : PuntySlot
  deriving DecidableEq, Repr

/-- The Punty tag. -/
structure Punty where
  /-- Visible memory: rows that have been swapped, by number. [18 R589, R590] reset: none listed, DESIGN CHOICE (log 80) -/
  rows : List (Nat × PuntyRow)
  /-- Shadow rows that differ from their visible rows, by number: pending. [18 R589] reset: none -/
  shadow : List (Nat × List Byte)
  /-- `FIELD`. [18 Table 18-15] reset: 0 -/
  field : Bool
  /-- The UID drawn for this field, 4 bytes. [18 R591] reset: none -/
  uid : List Byte
  /-- A reader has selected the tag. [18 R591] reset: false -/
  selected : Bool
  /-- HLTA has halted it. [18 R591] reset: false -/
  halted : Bool
  /-- The last answer to a reader. [18 R591, Table 18-6] reset: none -/
  answer : List Byte
  /-- Commands that wait for their rows to be swapped in: the command, first row and rows. [18 Table 18-7] reset: none -/
  waits : List (Nat × Nat × Nat)
  deriving DecidableEq, Repr

/-! ### Random number generation (11) -/

/-- State of a noise source (Table 11-11). -/
inductive SrcState where
  | inService | retesting | retired | starting
  deriving DecidableEq, Repr

/-- The health tests of a noise source (R372) and its start-up test (R374). -/
structure Health where
  /-- Warm-up bits still to be discarded. [11 R374] reset: 65,536 (1,024 samples of 64) -/
  warm : Nat
  /-- Repetition-count test: length of the run of equal bits, 0 before the first. [11 R372] reset: 0 -/
  run : Nat
  /-- The bit of that run. [11 R372] reset: 0 -/
  last : Bool
  /-- Adaptive-proportion test: bits of the window so far, modulo 1,024. [11 R372] reset: 0 -/
  aptPos : Nat
  /-- First bit of that window. [11 R372] reset: 0 -/
  aptBit : Bool
  /-- Bits of that window equal to its first. [11 R372] reset: 0 -/
  aptCount : Nat
  /-- Raw bits of the estimate window so far. [11 R372] reset: 0 -/
  pos : Nat
  /-- Ones among them. [11 R372] reset: 0 -/
  ones : Nat
  /-- For lags 1 to 8: positions whose bit equals the bit that far before. [11 R372] reset: 0 each -/
  lags : List Nat
  /-- The eight raw bits before the next, the latest in bit 0. [11 R372] reset: 0 -/
  hist : BitVec 8
  /-- A repetition-count or adaptive-proportion test failed in the window in progress. [11 R372] reset: false -/
  bad : Bool
  /-- Windows of the start-up test that have ended. [11 R374] reset: 0 -/
  windows : Nat
  /-- A test has failed within the start-up test. [11 R374] reset: false -/
  testBad : Bool
  /-- Failures not yet acted on: 0 repetition count, 1 adaptive proportion. [11 R372] reset: none -/
  failed : List Nat
  /-- Sampled bits behind such a failure or the end of a window. [11 R372] reset: none -/
  queue : List Bool
  deriving DecidableEq, Repr

/-- One noise source and its Gather lane. -/
structure NoiseSrc where
  /-- `STATE_x`, 2 bits. [11 Table 11-11] reset: STARTING (0b11) -/
  st : SrcState
  /-- Gather lane LFSR, 256 bits. [11 R370] reset: 0, DESIGN CHOICE (log 9) -/
  lfsr : BitVec 256
  /-- Raw bits absorbed into the block in progress. [11 R370] reset: 0 -/
  absorbed : Nat
  /-- Pending blocks, 32 bytes each, oldest first. [11 R371] reset: empty -/
  pend : List (List Byte)
  /-- Reserve of credited blocks, at most 128, oldest first. [11 R371] reset: empty -/
  reserve : List (List Byte)
  /-- Its health tests. [11 R372] -/
  health : Health
  /-- Health failures since main power-up (`FAILS_x`). [11 Table 11-8] reset: 0 -/
  fails : Nat
  deriving DecidableEq, Repr

/-- An access of the CSR space as a requester presents it. -/
inductive CsrAccess where
  | read (ptag : Option (BitVec 20)) (addr : Nat) (w : Width) (tag : Nat)
  | write (ptag : Option (BitVec 20)) (addr : Nat) (w : Width) (v : BitVec 64)
  deriving DecidableEq, Repr

/-- The random number generator. -/
structure Rng where
  /-- Source A. -/
  a : NoiseSrc
  /-- Source B. -/
  b : NoiseSrc
  /-- `KEY_SRC`: source that serves the KEY class; none before the start or while stopped. [11 Table 11-11] reset: none (0b11) -/
  keySrc : Option Side
  /-- The known-answer tests of the DRBG, the Gather lanes and the expander cores have passed. [11 R375] reset: false -/
  kat : Bool
  /-- The DRBG has been instantiated once since main power-up. [11 R375] reset: false -/
  started : Bool
  /-- The DRBG is instantiated. [11 R375, R381, R394] reset: false -/
  inst : Bool
  /-- `KEY_STOPPED`. [11 R381] reset: 0 -/
  stopped : Bool
  /-- A reseed is due before any further request. [11 R378] reset: false -/
  reseedDue : Bool
  /-- DRBG `Key`, 32 bytes. [11 R383] reset: none -/
  key : List Byte
  /-- DRBG `V`, 16 bytes. [11 R383] reset: none -/
  v : List Byte
  /-- Requests since the last reseed (`RNG_REQUESTS`), 21 bits. [11 R385] reset: 0 -/
  requests : Nat
  /-- Reseeds since main power-up, 64 bits. [11 Table 11-8] reset: 0 -/
  reseeds : Nat
  /-- The MASK class falls back on the KEY class's source. [11 Table 11-3] reset: false -/
  fallback : Bool
  /-- `RNG_DATA` buffers: requester code and the words left. [11 R388] reset: empty -/
  bufs : List (Nat × List Word)
  /-- `RNG_DATA` reads that wait: requester, byte offset, bytes read and `TAG`. [11 R389] reset: none -/
  reads : List (Requester × Nat × Nat × Nat)
  /-- Later accesses of a requester whose `RNG_DATA` read waits, in order. [11 R389] reset: none -/
  behind : List (Requester × CsrAccess)
  /-- `E7_REQ` held per consumer: 0 cipher engine, 1 Flume, 2 key store controller. [11 R391] reset: none -/
  held : List Nat
  /-- Requester served last of those that wait: 0 to 5 a read of `RNG_DATA`, 6 to 8 a consumer's wires. [11 R384] reset: 8 -/
  turn : Nat
  /-- Last `E7_WORD` given to each consumer, 16 bytes. [11 R390] reset: none -/
  wires : List (Nat × List Byte)
  /-- Seeds of the mask expander cores: core number and 32 bytes. [11 R386] reset: none -/
  seeds : List (Nat × List Byte)
  /-- Words taken from each mask expander core since its seed. [11 R387] reset: none -/
  spent : List (Nat × Nat)
  /-- Mask expander cores that have asked for a seed, first to ask first. [11 R387] reset: none -/
  asks : List Nat
  deriving DecidableEq, Repr

/-! ### Cipher engine (09) and public-key engine (10) -/

/-- One software key slot (R337). -/
structure KSlot where
  /-- `LOADED`. -/
  loaded : Bool
  /-- `ALG`, 4 bits. -/
  alg : Nat
  /-- `COLOUR`, 4 bits. -/
  colour : Nat
  /-- Bound furrow, 12 bits. -/
  furrow : Nat
  /-- `SEQ`, 32 bits. -/
  seq : Nat
  /-- Key material: the exclusive OR of its two masked parts. -/
  material : List Byte
  deriving DecidableEq, Repr

/-- The cipher engine. -/
structure Cipher where
  /-- Software key slots that are not as at power-up (empty, `SEQ` 0), by number. [09 R337] reset: none listed -/
  slots : List (Nat × KSlot)
  /-- Staging sets: requester code times 8 plus word number, words that are not 0. [09 R338] reset: none listed -/
  staging : List (Nat × Word)
  /-- The nonce counter: the next value it draws, 64 bits. [09 R331, 15 R513] reset: 0, DESIGN CHOICE (log 10) -/
  nonce : Nat
  /-- Nonce reservation mark, 64 bits, a multiple of 2^20. [09 R331, 15 R513] reset: 0, DESIGN CHOICE (log 10) -/
  nonceMark : Nat
  /-- A nonce mark record is being programmed (the new mark). [15 R513] reset: none -/
  nonceBusy : Option Nat
  /-- Blocks of 2^20 by which the nonce mark last advanced. [15 R513] reset: 0 -/
  nonceAdv : Nat
  /-- `CIPHER_NONCE`: last value drawn in this power-up, 64 bits. [09 Table 9-6] reset: 0 -/
  lastNonce : Nat
  deriving DecidableEq, Repr

/-- The public-key engine. -/
structure Pke where
  /-- Failures of checks before release since main power-up, by core (lattice cores from 32). [10 R363] reset: none -/
  checkFails : List (Nat × Nat)
  deriving DecidableEq, Repr

/-! ### Warden cores (13, 14) -/

/-- One MPU or DMA region (Tables 14-5a, 14-5b). -/
structure Region where
  /-- `BASE`, 32 bits. [14 Table 14-5a] reset: 0 -/
  base : Word
  /-- `LIMIT`, 32 bits. [14 Table 14-5a] reset: 0 -/
  lim : Word
  /-- `ATTR`, 32 bits. [14 Table 14-5b] reset: 0 -/
  attr : Word
  deriving DecidableEq, Repr

/-- An applet invocation or hook that runs on a core (R461, R463). -/
structure Invocation where
  /-- The command. -/
  cmd : Nat
  /-- Applet number. -/
  applet : Nat
  /-- It is a policy hook. -/
  hook : Bool
  /-- A-level instructions left. -/
  budget : Nat
  /-- A metered key has been debited (Table 13-11). -/
  debited : Bool
  /-- Output capacity. -/
  cap : Nat
  /-- Base address of its frame. -/
  frame : Nat
  /-- Length of its frame. -/
  len : Nat
  /-- Address of its output buffer. -/
  out : Nat
  /-- `COLOUR_SET` of the applet. -/
  colours : BitVec 16
  /-- The vault segment its `PSTORE_WRITE` waits for (R467). -/
  seg : Option Nat
  /-- The command its `CALL` waits for, and the address of the completion area (R466). -/
  call : Option (Nat × Nat)
  deriving DecidableEq, Repr

/-- One Warden core. -/
structure Core where
  /-- w0 to w15, 32 bits each; w0 reads 0. [13 R436, R437] reset: every one 0 -/
  regs : List Word
  /-- Program counter, 32 bits. [13 R437, R470] reset: 0 -/
  pc : Word
  /-- The next instruction stands in a delay slot: the branch's address and the address that follows the slot. [13 R447]
  reset: none -/
  slot : Option (Word × Word)
  /-- `STATUS`, 32 bits. [13 Table 13-3] reset: 0x2F (GM 1, PPL 0b11, PL 0b11) -/
  status : Word
  /-- `EPC`, 32 bits. [13 Table 13-2] reset: 0, DESIGN CHOICE (log 11) -/
  epc : Word
  /-- `CAUSE`, 32 bits. [13 Table 13-4] reset: 0 -/
  cause : Word
  /-- `TVAL`, 32 bits. [13 Table 13-2] reset: 0, DESIGN CHOICE (log 11) -/
  tval : Word
  /-- `PCEIL`, 2 bits. [13 R437] reset: 0b11 -/
  pceil : BitVec 2
  /-- `LC`, 32 bits. [13 R437] reset: 0 -/
  lc : Word
  /-- `LS`, 32 bits. [13 Table 13-2] reset: 0, DESIGN CHOICE (log 11) -/
  ls : Word
  /-- `LE`, 32 bits. [13 Table 13-2] reset: 0, DESIGN CHOICE (log 11) -/
  le : Word
  /-- `SLC`, 32 bits. [13 Table 13-2] reset: 0, DESIGN CHOICE (log 11) -/
  slc : Word
  /-- `SLS`, 32 bits. [13 Table 13-2] reset: 0, DESIGN CHOICE (log 11) -/
  sls : Word
  /-- `SLE`, 32 bits. [13 Table 13-2] reset: 0, DESIGN CHOICE (log 11) -/
  sle : Word
  /-- `STVEC`, 32 bits. [13 Table 13-2] reset: 0, DESIGN CHOICE (log 11) -/
  stvec : Word
  /-- `MTVEC`, 32 bits. [13 Table 13-2] reset: 0x0000_0100 -/
  mtvec : Word
  /-- `SSAVE`, 32 bits. [13 Table 13-2] reset: 0, DESIGN CHOICE (log 11) -/
  ssave : Word
  /-- `MSAVE`, 32 bits. [13 Table 13-2] reset: 0, DESIGN CHOICE (log 11) -/
  msave : Word
  /-- `FSTATUS`, 32 bits. [13 Table 13-2] reset: 0, DESIGN CHOICE (log 11) -/
  fstatus : Word
  /-- `FEPC`, 32 bits. [13 Table 13-2] reset: 0, DESIGN CHOICE (log 11) -/
  fepc : Word
  /-- `FCAUSE`, 32 bits. [13 Table 13-2] reset: 0, DESIGN CHOICE (log 11) -/
  fcause : Word
  /-- `FTVAL`, 32 bits. [13 Table 13-2] reset: 0, DESIGN CHOICE (log 11) -/
  ftval : Word
  /-- `TMATCHHI`:`TMATCHLO`, 64 bits. [13 Table 13-2] reset: 0, DESIGN CHOICE (log 11) -/
  tmatch : BitVec 64
  /-- Latched `TICKHI` of a read of `TICKLO` (R74). [13 Table 13-2] reset: none -/
  tickLatch : Option Word
  /-- `IEN`, 16 bits. [13 Table 13-2] reset: 0, DESIGN CHOICE (log 11) -/
  ien : BitVec 16
  /-- `IPEND` but for the timer's bit 0, 16 bits. [13 Table 13-2] reset: 0, DESIGN CHOICE (log 11) -/
  ipend : BitVec 16
  /-- `MPUCTL`, 32 bits. [14 Table 14-5] reset: 0 -/
  mpuctl : Word
  /-- Core regions 0 to 15. [14 Tables 14-5a, 14-5b] reset: every field 0 -/
  mpu : List Region
  /-- DMA regions 0 to 7. [14 Tables 14-5a, 14-5b] reset: every field 0 -/
  dma : List Region
  /-- The core waits in `wait`. [13 R444, Table 13-14] reset: false -/
  waiting : Bool
  /-- The boot ROM has not released the core. [13 R437] reset: false for core 0, true for cores 1 to 3 -/
  held : Bool
  /-- Refused accesses not yet reported by `LATE_WRITE`: their `TVAL`s, oldest first. [14 R496, Table 14-6] reset: empty -/
  late : List Word
  /-- RTC times (in 1/32,768 s) of machine restarts, latest first. [14 R477] reset: none -/
  restarts : List Nat
  /-- The applet invocation that runs on it. [13 R461] reset: none -/
  inv : Option Invocation
  /-- The core's `FLASH_ADDR`, 32 bits. [15 R514] reset: 0, DESIGN CHOICE (log 13) -/
  flashAddr : Word
  /-- The core's `FLASH_SRC`, 32 bits. [15 R514] reset: 0, DESIGN CHOICE (log 13) -/
  flashSrc : Word
  /-- Instructions since the core last fetched from flash bank 0, at most 64. [15 R515] reset: 64 (none) -/
  since0 : Nat
  /-- Instructions since the core last fetched from flash bank 1, at most 64. [15 R515] reset: 64 (none) -/
  since1 : Nat
  deriving DecidableEq, Repr

/-- An installed applet. -/
structure Applet where
  /-- `NUMBER`, 16 bits. -/
  num : Nat
  /-- The package (R454). -/
  pkg : List Byte
  /-- Base address of its code image in the applet half; the four frames follow it. -/
  base : Nat
  /-- Tally of the install that brought it: commands dispatched at or after it run this image (R459). -/
  since : Nat
  /-- Tally that replaced or removed it, while commands dispatched before still run it (R459). -/
  ended : Option Nat
  deriving DecidableEq, Repr

/-! ### Embedded flash (15) -/

/-- A flash operation in progress (Table 15-6). -/
structure FlashOp where
  /-- `OP`: 1 `PROG_ROWS`, 2 `PROG_WORDS`, 3 `ERASE_MAIN`, 4 `ERASE_PARAM`, 5 `RECORD_WRITE`. -/
  op : Nat
  /-- Core that issued it. -/
  core : Nat
  /-- First address. -/
  addr : Nat
  /-- Data copied from SRAM at acceptance. -/
  data : List Byte
  /-- Address of its flag word (R508), for an erase. -/
  flag : Nat
  deriving DecidableEq, Repr

/-- The embedded flash. -/
structure Flash where
  /-- Bytes that are not 0xFF, by Warden address rising. [15 R500] reset: none listed (erased), DESIGN CHOICE (log 13) -/
  cells : List Host.Cell
  /-- Main rows (address / 256) whose hidden marker is set, rising. [15 R505] reset: none -/
  marked : List Nat
  /-- Hidden program counts of parameter words (address / 4) that are not 0. [15 R506] reset: none listed -/
  counts : List (Nat × Nat)
  /-- 64-bit words (address / 8) that do not read clean: retries needed, above 4 for uncorrectable; in the parameter area, any entry
  means that copies disagree. [15 R502, R503, R504] reset: none listed -/
  weak : List (Nat × Nat)
  /-- Operation in progress in bank 0. [15 R501] reset: none -/
  busy0 : Option FlashOp
  /-- Operation in progress in the main sectors of bank 1. [15 R501] reset: none -/
  busy1 : Option FlashOp
  /-- Operation in progress in the parameter area. [15 R501] reset: none -/
  busyP : Option FlashOp
  /-- Uncorrectable reads of bank 0 since main power-up. [15 R519] reset: 0 -/
  uncorr0 : Nat
  /-- Uncorrectable reads of bank 1's main sectors since main power-up. [15 R519] reset: 0 -/
  uncorr1 : Nat
  deriving DecidableEq, Repr

/-- The Warden cluster. -/
structure Warden where
  /-- Core 0. -/
  c0 : Core
  /-- Core 1. -/
  c1 : Core
  /-- Core 2. -/
  c2 : Core
  /-- Core 3. -/
  c3 : Core
  /-- SRAM bytes that are not 0, by address rising. [13 Table 13-1] reset: none listed; an unlisted byte reads 0, DESIGN CHOICE (log 12) -/
  sram : List Host.Cell
  /-- Colours of SRAM lines that are not 0, by line number (address / 64). [13 R439] reset: none listed -/
  tags : List (Nat × Nat)
  /-- `TICKHI`:`TICKLO` as last seen, 64 bits. [13 Table 13-2] reset: 0 -/
  tick : BitVec 64
  /-- Installed applets, by number rising. [13 R459] reset: none -/
  applets : List Applet
  /-- `WARDEN_FW_VERSION`, 32 bits. [13 Table 13-13] reset: 0, DESIGN CHOICE (log 11) -/
  fwVersion : Word
  /-- Slot of the image that the boot ROM has started; none while its monitor runs alone. [03 R104, R117] reset: none -/
  running : Option Nat
  deriving DecidableEq, Repr

/-- The whole machine. -/
structure State where
  fuses : Fuses
  dev : Dev
  ports : Ports
  cmdif : CmdIf
  /-- Furrows that are not FREE, by number (`FURROW` 0 always). [06 R190, Table 6-3] reset: furrow 0 ACTIVE with every permission -/
  furrows : List (Nat × Furrow)
  units : Units
  keytab : KeyTab
  rng : Rng
  cipher : Cipher
  pke : Pke
  warden : Warden
  flash : Flash
  cistern : Cistern
  vault : Vault
  cust : Cust
  otp : Otp
  backup : Backup
  tamper : Tamper
  punty : Punty
  /-- Stored CSRs that differ from their reset value, by key rising. -/
  regs : List (Nat × Word)
  /-- How many free values have been drawn. -/
  free : Nat
  /-- Commands that wait to be taken, first in, first out (log 1). reset: empty -/
  pending : List Instr
  deriving DecidableEq, Repr

/-- Reasons for a step to stop with a fault. There is none: the manual gives every command an effect in every state, an error being a
completion status, an error bit or a trap, so no command raises one (safe). -/
inductive Fault where
  deriving DecidableEq, Repr

/-- Reasons for a command to be refused. -/
inductive Refusal where
  /-- A command without a meaning, named as the opcode table names it. Only an arm of `exec` that has no meaning raises it, and every arm
  has one: nothing raises it (safe). -/
  | notModelled (mnemonic : String)
  deriving DecidableEq, Repr

/-- What a step answers. -/
abbrev Out := Host.Outcome State Fault Refusal

/-! ### Reset: the moment of main power good of a factory-fresh ZJE9-X8 (R96, R100; log 2) -/

/-- A region at core reset. -/
def emptyRegion : Region := ⟨0, 0, 0⟩

/-- A core at reset (R437, R470); what the spec gives no reset value for is log 11. -/
def resetCore (held : Bool) : Core where
  regs := List.replicate 16 0
  pc := 0
  slot := none
  status := 0x2F
  epc := 0
  cause := 0
  tval := 0
  pceil := 3
  lc := 0
  ls := 0
  le := 0
  slc := 0
  sls := 0
  sle := 0
  stvec := 0
  mtvec := 0x100
  ssave := 0
  msave := 0
  fstatus := 0
  fepc := 0
  fcause := 0
  ftval := 0
  tmatch := 0
  tickLatch := none
  ien := 0
  ipend := 0
  mpuctl := 0
  mpu := List.replicate 16 emptyRegion
  dma := List.replicate 8 emptyRegion
  waiting := false
  held := held
  late := []
  restarts := []
  inv := none
  flashAddr := 0
  flashSrc := 0
  since0 := 64
  since1 := 64

/-- A host port at main power-up. -/
def resetPort : PortSt where
  up := false
  training := false
  rate := 0
  x32 := false
  lowPower := false
  repTx := 0
  repRx := 0
  retrains := 0
  capWait := false
  cap := 0
  surveyed := false
  attempts := 0
  txSeq := 0xFFF
  rxSeq := 0xFFF
  replay := []
  replays := 0
  txq := []
  lastTx := []
  rxq := []
  nakDue := false
  retHdr := 0
  retData := 0
  flushTag := 0
  readTag := 0
  crdHdr := 0
  crdData := 0
  ring := ⟨false, false, 6, 0, 0, 0, true, [], none⟩
  unflushed := []

/-- A noise source and its lane at main power-up. -/
def resetSource : NoiseSrc :=
  ⟨.starting, 0, 0, [], [], ⟨65536, 0, false, 0, false, 0, 0, 0, List.replicate 8 0, 0, false, 0, false, [], []⟩, 0⟩

/-- The random number generator at main power-up. -/
def resetRng : Rng where
  a := resetSource
  b := resetSource
  keySrc := none
  kat := false
  started := false
  inst := false
  stopped := false
  reseedDue := false
  key := []
  v := []
  requests := 0
  reseeds := 0
  fallback := false
  bufs := []
  reads := []
  behind := []
  held := []
  turn := 8
  wires := []
  seeds := []
  spent := []
  asks := []

/-- A mesh port at main power-up. -/
def resetMeshPort : MeshPort where
  trained := false
  up := false
  session := false
  lowPower := false
  eq := 0
  cost := 0x10
  neighbour := 0
  training := false
  fails := 0
  faulted := false
  faultedPowerUps := 0
  hs := .none
  peerCap := 0
  peerCert := none
  txKey := []
  rxKey := []
  epoch := 0
  txSeq := 0
  rxSeq := 0
  unacked := []
  txWait := []
  resends := 0
  credits := 256
  crdIn := 0
  crdOut := 0
  nakDue := false
  wire := []
  since := 0
  retrains := []

/-- The ledger and mesh of a device that is in no domain. -/
def resetCistern : Cistern where
  pools := []
  lastPool := 0
  lsq := 0
  stmts := []
  ring := []
  floors := []
  restoring := false
  keeper := none
  newKeeper := none
  ownLatest := []
  cert := none
  root := []
  members := []
  kept := []
  keptWait := []
  bcast := 0
  blog := []
  syncing := []
  adjSeq := 0
  ports := List.replicate 4 resetMeshPort
  firstAck := false
  syncTo := []
  settling := []
  lapsed := []

/-- An empty cartridge slot. -/
def resetSlot : CartSlot := ⟨.empty, 0, 0, 0, none, false, false, 0, none, false⟩

/-- The vault before it is formatted. -/
def resetVault : Vault where
  layout := .mirrored
  ident := none
  epoch := 0
  slot0 := resetSlot
  slot1 := resetSlot
  nextSeq := 0
  opens := []
  inflight := []
  durableTally := 0
  archive := ⟨[], [], [], none, [], [], [], [], 0, none⟩
  audit := []
  auditUsed := 0
  auditSegs := []
  auditHigh := false
  reserved := 0
  rollup := []
  rollPosted := []
  rollSecond := 0
  lost := []
  auditKey := false
  vaultKey := false
  sealKey := []
  sealTag := List.replicate 16 0
  copying := none
  copyFrom := 0
  kek := []
  gap := none

/-- The key table and key store of a ZJE9-X8 before the restore. -/
def resetKeyTab : KeyTab where
  slots := []
  freeLocal := []
  freeDomain := []
  granFree := [(0, 3145728)]
  floorsLoaded := false
  restoring := false
  restoreDone := false
  toRestore := []
  restored := 0
  domainLimit := 2 ^ 20
  spare := 512
  tagFails := []
  remapped := []
  fills := []
  xtsKey := []
  macKey := []
  hashKey := 0

/-- The device part at main power good. -/
def resetDev : Dev where
  mainOn := true
  boot := .good
  mode := .survey
  prevMode := .survey
  modeTally := 0
  tally := 0
  nextTally := 0
  tallyMark := 0
  markCopy := 0
  markBusy := none
  ddn := none
  identity := none
  rootKeys := false
  tallyAdv := 0
  selected := none
  recovery := false
  countedThisPowerUp := false
  pendingAtGood := false
  asleep := false
  tempStep := false
  quorum := false
  modeWait := none
  armed := 0
  drains := 0
  latches := []
  posted := []
  waiting := []
  answers := []
  expert := []
  rsWords := []
  rsRows := []

/-- The custodian interfaces with nobody enrolled. -/
def resetCust : Cust where
  table := ⟨[], [], []⟩
  copy := ⟨[], [], []⟩
  sessions := []
  holdS := 600
  verdictTally := 0
  evalDue := false
  card := false
  cls := .inactive
  atr := false
  silent := false
  inSlot := none
  fieldOn := false
  readerBusy := false
  dups := []
  sent := []

/-- The backup domain when it is first powered. -/
def resetBackup : Backup where
  vbat := false
  vbatMv := 0
  rtcSec := 0
  rtcFrac := 0
  rtcValid := false
  mkek := []
  pending := []
  records := []
  lost := 0
  lostVbat := false
  holdRecord := false
  pins := List.replicate 8 ⟨0, false, false, 0, 0, 0⟩

/-- Furrow 0 at every main power-up: ACTIVE, every permission granted (R190). -/
def resetFurrow0 : Furrow where
  state := .active
  ptag := 0
  classMask := 0xFFFF
  colourSet := 0xFFFF
  keyQuota := 33554431
  creditQuota := 65536
  shareCipher := 255
  shareFlume := 255
  sharePke := 255
  shareWarden := 255
  logOn := false
  log := none
  draining := false
  olds := []

/-- The machine right after reset. -/
def State.reset : State where
  fuses := ⟨.x8, 1, 0⟩
  dev := resetDev
  ports := ⟨resetPort, resetPort, ⟨0, 0, none, none, false, 0, .free⟩, []⟩
  cmdif := ⟨[], [], 65536, [], 0, [], (0, 0), []⟩
  furrows := [(0, resetFurrow0)]
  units := ⟨0, 0, 0, 0, 0, 0, 0, 0⟩
  keytab := resetKeyTab
  rng := resetRng
  cipher := ⟨[], [], 0, 0, none, 0, 0⟩
  pke := ⟨[]⟩
  warden := ⟨resetCore false, resetCore true, resetCore true, resetCore true, [], [], 0, [], 0, none⟩
  flash := ⟨[], [], [], [], none, none, none, 0, 0⟩
  cistern := resetCistern
  vault := resetVault
  cust := resetCust
  otp := ⟨0, false⟩
  backup := resetBackup
  tamper := ⟨0, [], [], [], false, false, false, false, 0⟩
  punty := ⟨[], [], false, [], false, false, [], []⟩
  regs := []
  free := 0
  pending := []

end Sys2Proof.Machine
end

