-- ==== Sys2Proof/Machine/Flit.lean ====
section
/-! DEFINITION. The E9 flit and its transaction packets as bytes (R128, R129): layout, CRC, headers, packets across flits. -/
namespace Sys2Proof.Machine

/-! ### CRC-64 (Table 4-4) -/

/-- The ECMA-182 polynomial, its leading term left out. -/
def crcPoly : Nat := 0x42F0E1EBA9EA3693

/-- One bit of the CRC's division; the register holds 64 bits. -/
def crcBit (c : Nat) : Nat := if c < 2 ^ 63 then 2 * c else (2 * c - 2 ^ 64) ^^^ crcPoly

/-- One byte, its most significant bit first (log 111). -/
def crcByte (c : Nat) (b : Byte) : Nat :=
  crcBit (crcBit (crcBit (crcBit (crcBit (crcBit (crcBit (crcBit (c ^^^ (b.toNat * 2 ^ 56)))))))))

/-- CRC-64 over bytes: initial value all ones, result inverted (Table 4-4). -/
def crc64 (bs : List Byte) : Nat := (2 ^ 64 - 1) - bs.foldl crcByte (2 ^ 64 - 1)

/-! ### Flits (R128, Table 4-4) -/

/-- The header of a flit. -/
structure FlitHdr where
  /-- `FTYPE`, 4 bits: 0 NULL, 1 DATA. -/
  ftype : Nat
  /-- `SEQ`. -/
  seq : BitVec 12
  /-- `ACK`. -/
  ack : BitVec 12
  /-- `NAK`. -/
  nak : Bool
  /-- `CRD_HDR`, 8 bits. -/
  hdr : Nat
  /-- `CRD_DATA`, 8 bits. -/
  data : Nat
  deriving DecidableEq, Repr

/-- Bytes 0 to 7 of a flit. -/
def FlitHdr.bytes (h : FlitHdr) : List Byte :=
  le 8 (h.ftype * 2 ^ 60 + h.seq.toNat * 2 ^ 48 + h.ack.toNat * 2 ^ 36 + bit h.nak * 2 ^ 35 + h.hdr % 256 * 2 ^ 24
    + h.data % 256 * 2 ^ 16)

/-- The header that bytes 0 to 7 spell. -/
def flitHdr (flit : List Byte) : FlitHdr :=
  let w := natAt flit 0 8
  ⟨w / 2 ^ 60, BitVec.ofNat 12 (w / 2 ^ 48), BitVec.ofNat 12 (w / 2 ^ 36), w / 2 ^ 35 % 2 == 1, w / 2 ^ 24 % 256, w / 2 ^ 16 % 256⟩

/-- The 240 payload bytes; unused units are zero (R129). -/
def flitPayload (flit : List Byte) : List Byte := bytesAt flit 8 240

/-- A whole flit: header, payload, CRC over both. -/
def flitBytes (h : FlitHdr) (payload : List Byte) : List Byte :=
  let body := h.bytes ++ bytesAt payload 0 240
  body ++ le 8 (crc64 body)

/-- The CRC of a flit is right. -/
def flitCrcOk (flit : List Byte) : Bool := natAt flit 248 8 == crc64 (bytesAt flit 0 248)

/-! ### Transaction packets (R129, Table 4-5) -/

/-- A transaction packet. -/
structure Packet where
  /-- `TYPE`: 1 `MWR`, 2 `MRD`, 3 `CPL`, 4 `FLUSH`, 5 `FLUSH_ACK`. -/
  type : Nat
  /-- `LEN`: data units that follow; for `MRD` the units requested. -/
  len : Nat
  /-- `CST`, 2 bits. -/
  cst : Nat
  /-- `PTAG`, where `PT_VALID` is 1. -/
  ptag : Option (BitVec 20)
  /-- `TAG`, 10 bits. -/
  tag : Nat
  /-- `BE`, 8 bits. -/
  be : Nat
  /-- `ADDRESS`, 64 bits. -/
  addr : Nat
  /-- The data part, whole units. -/
  data : List Byte
  deriving DecidableEq, Repr

/-- The 16-byte header. -/
def Packet.header (k : Packet) : List Byte :=
  le 1 k.type ++ le 1 k.len ++ le 2 (k.cst % 4 * 2 ^ 11 + bit k.ptag.isSome * 2 ^ 10 + k.tag % 1024)
    ++ le 4 (k.be % 256 * 2 ^ 20 + (k.ptag.getD 0).toNat) ++ le 8 k.addr

/-- Zero bytes up to a whole unit. -/
def padUnit (bs : List Byte) : List Byte := bs ++ zeros ((16 - bs.length % 16) % 16)

/-- The packet as bytes: header and data part. -/
def Packet.bytes (k : Packet) : List Byte := k.header ++ padUnit k.data

/-- Data units that follow a header: `LEN` of an `MWR` or a `CPL`, none of another type. -/
def dataUnits (type len : Nat) : Nat := if type = 1 ∨ type = 3 then len else 0

/-- The packet that starts a list of units. -/
def packetOf (bs : List Byte) : Packet :=
  let f := natAt bs 2 2
  let e := natAt bs 4 4
  let type := natAt bs 0 1
  let len := natAt bs 1 1
  ⟨type, len, f / 2 ^ 11 % 4, if f / 2 ^ 10 % 2 = 1 then some (BitVec.ofNat 20 e) else none, f % 1024, e / 2 ^ 20 % 256,
    natAt bs 8 8, bytesAt bs 16 (16 * dataUnits type len)⟩

/-- The whole packets at the front of a list of units, and what is left of a packet that goes on in the next flit. A header of
all zeros marks the rest of the flit unused (R129). -/
def takePackets : Nat → List Byte → List Packet × List Byte
  | 0, bs => ([], bs)
  | fuel + 1, bs =>
    if bs.length < 16 ∨ allZero (bs.take 16) then ([], [])
    else
      let k := packetOf bs
      let n := 16 + k.data.length
      if bs.length < n then ([], bs)
      else
        let (ks, rest) := takePackets fuel (bs.drop n)
        (k :: ks, rest)

/-- Bytes that a `BE` of an access of 8 bytes or less enables (R134): its width in bytes. -/
def beWidth (be : Nat) : Nat := if be = 1 then 1 else if be = 3 then 2 else if be = 0xF then 4 else if be = 0xFF then 8 else 0

/-- The `BE` of an access of `n` bytes: `n` low bits up to 8 bytes, 0xFF above. -/
def beOf (n : Nat) : Nat := if n < 8 then 2 ^ n - 1 else 0xFF

/-! ### Packets of the E9's own accesses (R132, R146) -/

/-- The `MWR`s of a write: packets of at most 256 bytes, then what is left of a unit in accesses of at most 8 bytes (log 112). -/
def mwrFuel : Nat → Nat → List Byte → Option (BitVec 20) → List Packet
  | 0, _, _, _ => []
  | fuel + 1, addr, bs, ptag =>
    if bs.isEmpty then []
    else
      let n := if 16 ≤ bs.length then min 256 (bs.length / 16 * 16) else min 8 bs.length
      ⟨1, (n + 15) / 16, 0, ptag, 0, beOf n, addr, bs.take n⟩ :: mwrFuel fuel (addr + n) (bs.drop n) ptag

/-- The `MWR`s of a write. -/
def mwrPackets (addr : Nat) (bs : List Byte) (ptag : Option (BitVec 20)) : List Packet := mwrFuel bs.length addr bs ptag

/-- A `FLUSH` with its `TAG` (R145). -/
def flushPacket (tag : Nat) : Packet := ⟨4, 0, 0, none, tag, 0xFF, 0, []⟩

/-- The `FLUSH_ACK` that answers a `FLUSH`. -/
def flushAckPacket (tag : Nat) : Packet := ⟨5, 0, 0, none, tag, 0xFF, 0, []⟩

/-- The `CPL` of a CSR read (R134): one unit, the value in its low bytes. -/
def cplPacket (tag : Nat) (v : BitVec 64) : Packet := ⟨3, 1, 0, none, tag, 0xFF, 0, le 8 v.toNat⟩

/-- The `MRD` of one piece of a read. -/
def mrdPacket (m : Mrd) (x : Piece) (tag : Nat) : Packet := ⟨2, (x.len + 15) / 16, 0, m.ptag, tag, 0xFF, m.addr + x.off, []⟩

/-- The pieces of a read of `n` bytes from offset `off`. -/
def piecesFuel : Nat → Nat → Nat → List Piece
  | 0, _, _ => []
  | fuel + 1, off, n => if n = 0 then [] else ⟨off, min 256 n, none, none⟩ :: piecesFuel fuel (off + min 256 n) (n - min 256 n)

/-- The pieces of a read of `n` bytes. -/
def piecesOf (n : Nat) : List Piece := piecesFuel ((n + 255) / 256) 0 n

/-- Every piece has arrived. -/
def Mrd.done (m : Mrd) : Bool := m.pieces.all fun x => x.data.isSome

/-- The bytes of a read that has arrived in full. -/
def Mrd.bytes (m : Mrd) : List Byte := (m.pieces.map fun x => bytesAt (x.data.getD []) 0 x.len).flatten

/-! ### The transmitter (R128 to R130) -/

/-- Send one flit: the header carries `ACK` and the credits that are due. -/
def PortSt.flit (q : PortSt) (ftype : Nat) (nak : Bool) (seq : BitVec 12) (payload : List Byte) : PortSt :=
  { q with
    lastTx := flitBytes ⟨ftype, seq, q.rxSeq, nak, min 255 q.retHdr, min 255 q.retData⟩ payload
    retHdr := q.retHdr - min 255 q.retHdr
    retData := q.retData - min 255 q.retData }

/-- Send a NULL flit: it repeats the last `SEQ` sent. -/
def PortSt.null (q : PortSt) (nak : Bool) : PortSt := q.flit 0 nak q.txSeq []

/-- Send DATA flits of the units that wait, while the replay buffer has room and no retrain runs (R130, R131). -/
def sendFuel : Nat → PortSt → PortSt
  | 0, q => q
  | n + 1, q =>
    if q.txq.isEmpty || q.training || q.capWait || decide (256 ≤ q.replay.length) then q
    else
      let pay := bytesAt q.txq 0 240
      let seq := q.txSeq + 1
      sendFuel n ({ q with txq := q.txq.drop 240, txSeq := seq, replay := q.replay ++ [(seq, pay)] }.flit 1 false seq pay)

/-- Send what waits while the replay buffer of 256 flits has room. -/
def sendFlits (q : PortSt) : PortSt := sendFuel 256 q

/-- Put packets behind what waits, and send. -/
def PortSt.enq (q : PortSt) (ks : List Packet) : PortSt := sendFlits { q with txq := q.txq ++ (ks.map Packet.bytes).flatten }

/-- Resend every flit of the replay buffer in order (R130); it holds what the last `ACK` left. -/
def PortSt.resend (q : PortSt) : PortSt :=
  q.replay.foldl (fun q x => q.flit 1 false x.1 x.2) { q with replays := q.replays + 1 }

/-- A retrain has succeeded: replay resumes, and what waited is sent (R131). -/
def PortSt.resumed (q : PortSt) : PortSt :=
  let q := { q with capWait := false, attempts := 0 }
  sendFlits { (if q.replay.isEmpty then q else q.resend) with replays := 0 }

/-- Drop the replay entries up to and including `ack`, when it is among them (R130). -/
def ackReplay (ack : BitVec 12) (rs : List (BitVec 12 × List Byte)) : List (BitVec 12 × List Byte) :=
  if rs.any (fun x => x.1 == ack) then (rs.dropWhile (fun x => x.1 != ack)).drop 1 else rs

/-- An `ACK` arrives: a flit acknowledged ends its count of replays (R130, R131). -/
def PortSt.acked (q : PortSt) (ack : BitVec 12) : PortSt :=
  let rs := ackReplay ack q.replay
  { q with replay := rs, replays := if rs.length = q.replay.length then q.replays else 0 }

end Sys2Proof.Machine
end

