-- ==== Sys2Proof/Machine/Mem.lean ====
section
/-! DEFINITION. Byte memories as sorted lists of the bytes that differ from a default: the SRAM (default 0) and the flash
(default 0xFF), and the flash's hidden counts. -/
namespace Sys2Proof.Machine

/-! ### Cells -/

/-- The byte at an address; the default where none is listed. -/
def cellGet (d : Byte) (a : Nat) : List Host.Cell → Byte
  | [] => d
  | (b, v) :: rest => if a = b then v else if a < b then d else cellGet d a rest

/-- Store a byte; the default is not listed. -/
def cellSet (d : Byte) (a : Nat) (v : Byte) : List Host.Cell → List Host.Cell
  | [] => if v = d then [] else [(a, v)]
  | (b, w) :: rest =>
    if a < b then (if v = d then (b, w) :: rest else (a, v) :: (b, w) :: rest)
    else if a = b then (if v = d then rest else (a, v) :: rest)
    else (b, w) :: cellSet d a v rest

/-- The canonical form: addresses rising, no byte equal to the default. -/
def cellsWf (d : Byte) : List Host.Cell → Bool
  | [] => true
  | [(_, v)] => v != d
  | (a, v) :: (b, w) :: rest => v != d && decide (a < b) && cellsWf d ((b, w) :: rest)

/-- `n` bytes from an address on. -/
def cellsRead (d : Byte) (a n : Nat) (cs : List Host.Cell) : List Byte := (List.range n).map fun i => cellGet d (a + i) cs

/-- Store bytes from an address on. -/
def cellsWrite (d : Byte) (a : Nat) : List Byte → List Host.Cell → List Host.Cell
  | [], cs => cs
  | v :: vs, cs => cellsWrite d (a + 1) vs (cellSet d a v cs)

/-- Bytes of a range return to the default. -/
def cellsClear (a n : Nat) (cs : List Host.Cell) : List Host.Cell := cs.filter fun c => !decide (a ≤ c.1 ∧ c.1 < a + n)

/-! ### SRAM (Table 13-1, R439) -/

/-- An address lies in SRAM. -/
def inSram (a : Nat) : Bool := decide (0x10000000 ≤ a ∧ a < 0x10200000)

/-- Update the Warden cluster. -/
def State.modWarden (s : State) (f : Warden → Warden) : State := { s with warden := f s.warden }

/-- `n` bytes of SRAM. -/
def sramRead (a n : Nat) (s : State) : List Byte := cellsRead 0 a n s.warden.sram

/-- Store bytes in SRAM. -/
def sramWrite (a : Nat) (bs : List Byte) (s : State) : State := s.modWarden fun w => { w with sram := cellsWrite 0 a bs w.sram }

/-- Colour of the line of an address. -/
def lineColour (a : Nat) (s : State) : Nat := if inSram a then (assocGet (a / 64) s.warden.tags).getD 0 else 0

/-- Set the colour of the line of an address. -/
def setColour (a c : Nat) (s : State) : State :=
  s.modWarden fun w => { w with tags := assocSet (a / 64) (if c = 0 then none else some c) w.tags }

/-! ### Flash (R500 to R512) -/

/-- Update the flash. -/
def State.modFlash (s : State) (f : Flash → Flash) : State := { s with flash := f s.flash }

/-- An address lies in the flash. -/
def inFlash (a : Nat) : Bool := decide (0x08000000 ≤ a ∧ a < 0x09000000)

/-- An address lies in position 0 of bank 1. -/
def inParamArea (a : Nat) : Bool := decide (0x08800000 ≤ a ∧ a < 0x08840000)

/-- An address lies in the parameter sectors. -/
def inParam (a : Nat) : Bool := decide (0x08800000 ≤ a ∧ a < 0x08810000)

/-- Partition of a flash address (R501): 0 bank 0, 1 the main sectors of bank 1, 2 the parameter area. -/
def partOf (a : Nat) : Nat := if a < 0x08800000 then 0 else if inParamArea a then 2 else 1

/-- The operation in progress in a partition. -/
def busyOp (p : Nat) (s : State) : Option FlashOp :=
  if p = 0 then s.flash.busy0 else if p = 1 then s.flash.busy1 else s.flash.busyP

/-- Set or clear the operation in progress in a partition. -/
def setBusy (p : Nat) (o : Option FlashOp) (s : State) : State :=
  s.modFlash fun f => if p = 0 then { f with busy0 := o } else if p = 1 then { f with busy1 := o } else { f with busyP := o }

/-- `n` bytes of flash: 0 where position 0 of bank 1 is not addressable (Table 15-1). -/
def flashRead (a n : Nat) (s : State) : List Byte :=
  (List.range n).map fun i =>
    let x := a + i
    if inParamArea x && !inParam x then 0 else cellGet 0xFF x s.flash.cells

/-- A 32-bit word of flash. -/
def flashWord (a : Nat) (s : State) : Nat := leNat (flashRead a 4 s)

/-- Program bytes: bits only turn from 1 to 0. -/
def flashAnd (a : Nat) (bs : List Byte) (s : State) : State :=
  let old := cellsRead 0xFF a bs.length s.flash.cells
  s.modFlash fun f => { f with cells := cellsWrite 0xFF a (List.zipWith (· &&& ·) old bs) f.cells }

/-- Program one main row: its marker is set (R505). -/
def progRow (a : Nat) (bs : List Byte) (s : State) : State :=
  (flashAnd a bs s).modFlash fun f => { f with marked := insertNat (a / 256) f.marked }

/-- A main row is erased: marker clear and every bit 1 (R505). -/
def rowErased (a : Nat) (s : State) : Bool :=
  !s.flash.marked.contains (a / 256) && !(s.flash.cells.any fun c => decide (a ≤ c.1 ∧ c.1 < a + 256))

/-- Hidden program count of a parameter word. -/
def progCount (a : Nat) (s : State) : Nat := (assocGet (a / 4) s.flash.counts).getD 0

/-- Program one parameter word; the program counts (R506). -/
def progWord (a v : Nat) (s : State) : State :=
  (flashAnd a (le 4 v) s).modFlash fun f => { f with counts := assocSet (a / 4) (some (progCount a s + 1)) f.counts }

/-- A parameter word can be programmed with a value (R506). -/
def wordAllows (a v : Nat) (s : State) : Bool := decide (progCount a s < 2) && v &&& (flashWord a s ^^^ 0xFFFFFFFF) == 0

/-- Program parameter words from an address on. -/
def progWords (a : Nat) : List Nat → State → State
  | [], s => s
  | v :: vs, s => progWords (a + 4) vs (progWord a v s)

/-- Erase a range: cells, markers, hidden counts and weak words. -/
def eraseRange (a n : Nat) (s : State) : State :=
  s.modFlash fun f => { f with
    cells := cellsClear a n f.cells
    marked := f.marked.filter fun r => !decide (a / 256 ≤ r ∧ r < (a + n) / 256)
    counts := f.counts.filter fun c => !decide (a / 4 ≤ c.1 ∧ c.1 < (a + n) / 4)
    weak := f.weak.filter fun c => !decide (a / 8 ≤ c.1 ∧ c.1 < (a + n) / 8) }

/-! ### The record log (R511, R512) -/

/-- Address of slot `i` of log sector `x`. -/
def slotAddr (x i : Nat) : Nat := 0x08800000 + 0x2000 * x + 16 * i

/-- The words of a slot. -/
def slotWords (x i : Nat) (s : State) : List Nat := (List.range 4).map fun k => flashWord (slotAddr x i + 4 * k) s

/-- Record kinds of Table 15-5. -/
def recordKinds : List Nat := [0x01, 0x02, 0x10, 0x11, 0x12, 0x13, 0x14]

/-- `CHECK` of a record. -/
def recordCheck (w0 w1 w2 : Nat) : Nat := (w0 ^^^ w1 ^^^ w2) ^^^ 0xFFFFFFFF

/-- A record as kind, data and sequence. -/
structure LogRec where
  kind : Nat
  data : Nat
  seq : Nat
  deriving DecidableEq, Repr

/-- The valid record of four words (R511). -/
def recordOf (ws : List Nat) : Option LogRec :=
  let w := fun k => ws.getD k 0
  if w 3 = recordCheck (w 0) (w 1) (w 2) ∧ recordKinds.contains (w 0 / 2 ^ 24) then
    some ⟨w 0 / 2 ^ 24, w 0 % 2 ^ 24 * 2 ^ 32 + w 1, w 2⟩ else none

/-- Slots of a log sector in which anything is programmed: numbers below 512, rising. -/
def usedSlots (x : Nat) (s : State) : List Nat :=
  (s.flash.counts.filter fun c => decide (slotAddr x 0 / 4 ≤ c.1 ∧ c.1 < slotAddr x 512 / 4)).foldl
    (fun l c => insertNat ((c.1 - slotAddr x 0 / 4) / 4) l) []

/-- Every valid record of a log sector. -/
def logRecs (x : Nat) (s : State) : List LogRec := (usedSlots x s).filterMap fun i => recordOf (slotWords x i s)

/-- Highest `SEQ` of a log sector, plus one; 0 for a sector with no valid record. -/
def topSeq (x : Nat) (s : State) : Nat := (logRecs x s).foldl (fun m r => max m (r.seq + 1)) 0

/-- The log sector in use (R511); sector 0 when neither holds a record. -/
def logSector (s : State) : Nat := if topSeq 0 s < topSeq 1 s then 1 else 0

/-- The kind of a record as the copy of R512 keeps it: `RETIRED` records of different classes stand side by side (log 13). -/
def LogRec.sort (r : LogRec) : Nat := if r.kind = 0x12 then 0x1200 + r.data / 2 ^ 48 else r.kind

/-- The latest record of a kind. -/
def latestRec (k : Nat) (s : State) : Option LogRec :=
  (logRecs 0 s ++ logRecs 1 s).foldl (fun m r =>
    if r.kind ≠ k then m else match m with
      | none => some r
      | some b => if b.seq < r.seq then some r else m) none

/-- Latest record of each sort in a list, in order of sequence. -/
def latestEach (rs : List LogRec) : List LogRec := rs.filter fun r => !(rs.any fun q => q.sort == r.sort && decide (r.seq < q.seq))

/-- Program a record into slot `i` of sector `x`. -/
def putRec (x i : Nat) (r : LogRec) (s : State) : State :=
  let w0 := r.kind * 2 ^ 24 + r.data / 2 ^ 32 % 2 ^ 24
  let w1 := r.data % 2 ^ 32
  progWords (slotAddr x i) [w0, w1, r.seq, recordCheck w0 w1 r.seq] s

/-- Program records into successive slots. -/
def putRecs (x : Nat) : Nat → Nat → List LogRec → State → State
  | _, _, [], s => s
  | i, q, r :: rs, s => putRecs x (i + 1) (q + 1) rs (putRec x i { r with seq := q } s)

/-! ### Flag words (R508, R509) -/

/-- Address of word `i` of flag sector `x` (0 for sector 6, 1 for sector 7). -/
def flagAddr (x i : Nat) : Nat := 0x0880C000 + 0x2000 * x + 4 * i

/-- The pending code of a sector number (Table 15-3). -/
def pendingCode (n : Nat) : Nat := 0x7E000000 + 0x1000 * n + (0xFFF - n)

/-- Sector number of the sector at an address. -/
def sectorNum (a : Nat) : Nat :=
  if inParamArea a then 0x180 + a % 0x40000 / 0x2000
  else 0x100 * (a / 0x800000 % 16) + a % 0x800000 / 0x40000

/-- First address and length of a sector by its number. -/
def sectorRange (n : Nat) : Nat × Nat :=
  if 0x180 ≤ n then (0x08800000 + 0x2000 * (n - 0x180), 0x2000) else (0x08000000 + 0x800000 * (n / 0x100) + 0x40000 * (n % 0x100), 0x40000)

/-- The flag sector in use: the one whose word 2,047 is free while the other's is not; sector 6 when both are free (R509). -/
def flagSector (s : State) : Nat := if flashWord (flagAddr 0 2047) s ≠ 0xFFFFFFFF ∧ flashWord (flagAddr 1 2047) s = 0xFFFFFFFF then 1 else 0

/-- First free word of the flag sector in use among words 0 to 2,046. -/
def freeFlag (s : State) : Option Nat :=
  let x := flagSector s
  (List.range 2047).find? fun i => !(s.flash.counts.any fun c => c.1 == flagAddr x i / 4)

/-- Mark an erase pending: the flag word's address. A full flag sector first erases the other one (R509). -/
def openFlag (n : Nat) (s : State) : Nat × State :=
  match freeFlag s with
  | some i => let a := flagAddr (flagSector s) i; (a, progWord a (pendingCode n) s)
  | none =>
    let x := flagSector s
    let y := 1 - x
    let g := flagAddr x 2047
    let s := progWord g (pendingCode (0x186 + y)) s
    let s := eraseRange (flagAddr y 0) 0x2000 s
    let s := progWord g 0 s
    let a := flagAddr y 0
    (a, progWord a (pendingCode n) s)

/-- An erase has verified: its flag word reads done. -/
def closeFlag (a : Nat) (s : State) : State := if a = 0 then s else progWord a 0 s

/-- Erase a sector by its number, under its flag. -/
def eraseSector (n : Nat) (s : State) : State :=
  let (g, s) := openFlag n s
  let r := sectorRange n
  closeFlag g (eraseRange r.1 r.2 s)

/-- Write one record into the record log (R512). A full sector first erases the other and copies the latest of each kind. -/
def logRecord (kind data : Nat) (s : State) : State :=
  let x := logSector s
  let q := max (topSeq 0 s) (topSeq 1 s)
  let i := (usedSlots x s).foldl (fun m n => max m (n + 1)) 0
  if i < 512 then putRec x i ⟨kind, data, q⟩ s
  else
    let keep := latestEach (logRecs 0 s ++ logRecs 1 s)
    let s := eraseSector (0x180 + (1 - x)) s
    let s := putRecs (1 - x) 0 q keep s
    putRec (1 - x) keep.length ⟨kind, data, q + keep.length⟩ s

end Sys2Proof.Machine
end

