-- ==== Sys2Proof/Machine/Ops.lean ====
section
/-! DEFINITION. The named operations over the state that every block shares: the register file, free values, the tally,
host-memory writes, event rings and error bits. -/
namespace Sys2Proof.Machine

/-! ### Updates of one part of the state -/

/-- Update the device part. -/
def State.modDev (s : State) (f : Dev → Dev) : State := { s with dev := f s.dev }
/-- Update the host ports. -/
def State.modPorts (s : State) (f : Ports → Ports) : State := { s with ports := f s.ports }
/-- Update the Headgate. -/
def State.modHg (s : State) (f : Headgate → Headgate) : State :=
  { s with ports := { s.ports with hg := f s.ports.hg } }
/-- Update the command interface. -/
def State.modCmdif (s : State) (f : CmdIf → CmdIf) : State := { s with cmdif := f s.cmdif }

/-- One host port. -/
def State.port (s : State) : Port → PortSt
  | .a => s.ports.a
  | .b => s.ports.b

/-- Update one host port. -/
def State.modPort (s : State) (p : Port) (f : PortSt → PortSt) : State :=
  match p with
  | .a => { s with ports := { s.ports with a := f s.ports.a } }
  | .b => { s with ports := { s.ports with b := f s.ports.b } }

/-- Update one port's event ring. -/
def State.modRing (s : State) (p : Port) (f : EvtRing → EvtRing) : State :=
  s.modPort p fun q => { q with ring := f q.ring }

/-- The other port. -/
def otherPort : Port → Port
  | .a => .b
  | .b => .a

/-- Number of a port: 0 A, 1 B. -/
def portNum : Port → Nat
  | .a => 0
  | .b => 1

/-- Requester code of Table 4-11: 0 port A, 1 port B, 2 to 5 Warden cores. -/
def reqCode : Requester → Nat
  | .host .a => 0
  | .host .b => 1
  | .core n => 2 + n.val

/-- The requester is a host port. -/
def isHost : Requester → Bool
  | .host _ => true
  | .core _ => false

/-! ### Codes of Table 3-1 -/

/-- Mode code. -/
def modeCode : Mode → Nat
  | .blank => 0
  | .survey => 1
  | .provision => 2
  | .ceremony => 3
  | .service => 4
  | .degraded => 5
  | .maintain => 6
  | .join => 7
  | .hold => 8
  | .forensic => 9
  | .zeroized => 10
  | .retired => 11

/-- `DEVICE_ID.GRADE` (Table 0-1). -/
def gradeCode : Grade → Nat
  | .x8 => 1
  | .s4 => 2
  | .c8 => 3

/-! ### What the grade fits (Table 0-1, R2) -/

/-- Mesh ports that the grade fits. -/
def meshFitted (s : State) : Nat := match s.fuses.grade with
  | .x8 => 4
  | .s4 => 2
  | .c8 => 0

/-- A cartridge slot is fitted: the ZJE9-S4 has slot 0 alone. -/
def slotFitted (n : Nat) (s : State) : Bool := n == 0 || (n == 1 && s.fuses.grade != .s4)

/-- The vault's layout: the ZJE9-S4 has the single one and no other. -/
def vaultLayout (s : State) : Layout := if s.fuses.grade = .s4 then .single else s.vault.layout

/-! ### The register file -/

/-- A stored register's value; its reset value when it is not listed. -/
def regGet (k : Nat) (s : State) : Word := (assocGet k s.regs).getD (csrReset k)

/-- Store a register; a value equal to the reset value is not listed. -/
def regSet (k : Nat) (v : Word) (s : State) : State :=
  { s with regs := assocSet k (if v = csrReset k then none else some v) s.regs }

/-- One bit of a stored register. -/
def regBit (k n : Nat) (s : State) : Bool := (regGet k s).getLsbD n

/-- Set bits of a stored register. -/
def regOr (k : Nat) (m : Word) (s : State) : State := regSet k (regGet k s ||| m) s

/-- Clear bits of a stored register. -/
def regClr (k : Nat) (m : Word) (s : State) : State := regSet k (regGet k s &&& ~~~ m) s

/-- Replace the bits under a mask. -/
def regMask (k : Nat) (m v : Word) (s : State) : State :=
  regSet k ((regGet k s &&& ~~~ m) ||| (v &&& m)) s

/-- Step a 32-bit saturating diagnostic counter. -/
def bump (k n : Nat) (s : State) : State :=
  regSet k (BitVec.ofNat 32 (satAdd 32 (regGet k s).toNat n)) s

/-- Step a 64-bit saturating diagnostic counter whose low word stands at `k` and high word at `k + 4`. -/
def bump64 (k n : Nat) (s : State) : State :=
  let v := satAdd 64 ((regGet k s).toNat + 2 ^ 32 * (regGet (k + 4) s).toNat) n
  regSet (k + 4) (BitVec.ofNat 32 (v / 2 ^ 32)) (regSet k (BitVec.ofNat 32 v) s)

/-! ### Free values (log 3) -/

/-- Draw `n` free bytes. -/
def drawBytes (n : Nat) (s : State) : List Byte × State :=
  ((List.range n).map (fun i => Config.freeByte (s.free + i)), { s with free := s.free + n })

/-- Draw one free number. -/
def drawNat (s : State) : Nat × State := (Config.freeNat s.free, { s with free := s.free + 1 })

/-! ### The tally (R39, R40, R513) -/

/-- Issue the next tally value. A value at or above the reservation mark waits for the mark engine's next record; the wait
is part of the step: the mark advances by one block and `FLASH_MARK_STALLS` counts it (R513). -/
def issueTally (s : State) : Nat × State :=
  let t := s.dev.nextTally
  let s := if t < s.dev.tallyMark then s else
    let m := max ((t / 2 ^ 20 + 1) * 2 ^ 20) (s.dev.markBusy.getD 0)
    let s := logRecord 0x01 (m / 2 ^ 20) s
    bump 0xB114 1 (bump 0xB110 1 (s.modDev fun d => { d with tallyMark := m, markCopy := m, markBusy := none, tallyAdv := 1 }))
  (t, s.modDev fun d => { d with tally := t, nextTally := t + 1 })

/-! ### Host-memory writes and reads (R132, R145, R146, R150) -/

/-- The port a write homed on `p` leaves through: the other one when only that one is up (R150). -/
def wayOut (p : Port) (s : State) : Port :=
  if (s.port p).up then p else if (s.port (otherPort p)).up then otherPort p else p

/-- The packets of a write: its `MWR`s and the `FLUSH` that asks for its visibility (R145; log 110). -/
def Mwr.packets (w : Mwr) : List Packet := mwrPackets w.addr w.data w.ptag ++ [flushPacket w.flush]

/-- A write joins those that await their `FLUSH_ACK`, with the next `FLUSH` tag; on a port that is up its packets are sent. -/
def PortSt.write (q : PortSt) (w : Mwr) : PortSt :=
  let w := { w with flush := q.flushTag }
  let q := { q with unflushed := q.unflushed ++ [w], flushTag := (q.flushTag + 1) % 1024 }
  if q.up then q.enq w.packets else q

/-- Send one write through port `p`; with no port up it waits there (R151). -/
def pushMwr (p : Port) (w : Mwr) (s : State) : State := s.modPort (wayOut p s) fun q => q.write w

/-- Tags of the reads outstanding on a port (R132). -/
def tagsOn (p : Port) (ms : List Mrd) : List Nat :=
  (ms.filter fun m => decide (m.port = p)).flatMap fun m => m.pieces.filterMap (·.tag)

/-- The first tag from `t` on that is not in use. -/
def findTag (used : List Nat) : Nat → Nat → Nat
  | 0, t => t
  | n + 1, t => if used.contains t then findTag used n ((t + 1) % 1024) else t

/-- What issuing reads has come to: tags in use, the tag to try next, the packets to send. -/
structure Issue where
  used : List Nat
  next : Nat
  pkts : List Packet

/-- Give tags to the pieces of a read that have none, while fewer than 1,024 are in use (R132). -/
def issuePieces (m : Mrd) : List Piece → Issue → List Piece × Issue
  | [], k => ([], k)
  | x :: xs, k =>
    if x.tag.isSome || x.data.isSome || decide (1024 ≤ k.used.length) then
      let (ys, k) := issuePieces m xs k
      (x :: ys, k)
    else
      let t := findTag k.used 1024 k.next
      let (ys, k) := issuePieces m xs ⟨t :: k.used, (t + 1) % 1024, k.pkts ++ [mrdPacket m x t]⟩
      ({ x with tag := some t } :: ys, k)

/-- Issue the reads of port `p`, oldest first. -/
def issueList (p : Port) : List Mrd → Issue → List Mrd × Issue
  | [], k => ([], k)
  | m :: ms, k =>
    if m.port = p then
      let (xs, k) := issuePieces m m.pieces k
      let (ns, k) := issueList p ms k
      ({ m with pieces := xs } :: ns, k)
    else
      let (ns, k) := issueList p ms k
      (m :: ns, k)

/-- Send the `MRD`s of port `p` that wait for a tag or for the port (R132). -/
def issueReads (p : Port) (s : State) : State :=
  if !(s.port p).up then s
  else
    let r := issueList p s.ports.reads ⟨tagsOn p s.ports.reads, (s.port p).readTag, []⟩
    (s.modPorts fun x => { x with reads := r.1 }).modPort p fun q => { q with readTag := r.2.next }.enq r.2.pkts

/-- Read `len` bytes of host memory through the port of a queue homed on `p` (R132, R146); with no port up the read waits (R151). -/
def pushMrd (p : Port) (of : ReadOf) (addr len : Nat) (ptag : Option (BitVec 20)) (s : State) : State :=
  let w := wayOut p s
  issueReads w (s.modPorts fun x => { x with reads := x.reads ++ [⟨of, w, addr, ptag, piecesOf len, !(s.port w).up⟩] })

/-- The outstanding read of a kind. -/
def readOf (of : ReadOf) (s : State) : Option Mrd := s.ports.reads.find? fun m => decide (m.of = of)

/-- A read is outstanding and its port is up: its data can arrive. -/
def readDue (of : ReadOf) (s : State) : Bool := s.ports.reads.any fun m => decide (m.of = of) && (s.port m.port).up

/-- A read has been answered: it leaves the list, and its tags serve reads that wait. -/
def readOver (of : ReadOf) (s : State) : State :=
  let s := s.modPorts fun x => { x with reads := x.reads.filter fun m => decide (m.of ≠ of) }
  issueReads .b (issueReads .a s)

/-! ### Event rings (R141 to R144) -/

/-- Key of a port's event-ring registers. -/
def evtKey : Port → Nat
  | .a => 0x1040
  | .b => 0x1080

/-- A 64-bit value in two stored registers. -/
def reg64 (k : Nat) (s : State) : Nat := (regGet k s).toNat + 2 ^ 32 * (regGet (k + 4) s).toNat

/-- The 32 bytes of an event entry (Table 4-10). -/
def evtBytes (e : Evt) (phase : Bool) : List Byte :=
  le 2 e.code ++ [BitVec.ofNat 8 (bit phase), 0] ++ le 4 e.d0.toNat ++ le 8 e.tally ++ le 16 e.d1.toNat

/-- The ring has room for one more entry (R143). -/
def EvtRing.space (r : EvtRing) : Bool := (r.tail + 1) % 2 ^ r.sizeLog2 != r.head

/-- Write one entry into a port's ring. -/
def writeEvt (p : Port) (e : Evt) (s : State) : State :=
  let r := (s.port p).ring
  let addr := reg64 (evtKey p) s + 32 * r.tail
  let tail := (r.tail + 1) % 2 ^ r.sizeLog2
  let s := pushMwr p ⟨.event, addr, evtBytes e r.phase, none, e.tally, none, 0⟩ s
  s.modRing p fun r => { r with tail := tail, phase := if tail = 0 then !r.phase else r.phase }

/-- The interrupt write after a run of entries (R144). -/
def evtIrq (p : Port) (s : State) : State :=
  if (s.port p).ring.irqEn then
    pushMwr p ⟨.irq, reg64 (evtKey p + 0x14) s, le 4 (regGet (evtKey p + 0x1C) s).toNat, none, s.dev.nextTally, none, 0⟩ s
  else s

/-- A ring can be written: enabled, and its port up. -/
def ringOpen (p : Port) (s : State) : Bool := (s.port p).ring.en && (s.port p).up

/-- Count one dropped event (R143, R150). -/
def dropEvt (p : Port) (e : Evt) (s : State) : State :=
  s.modRing p fun r => { r with
    lost := satAdd 16 r.lost 1
    dropped := match r.dropped with
      | none => some (1, e.tally, e.tally)
      | some (n, f, _) => some (n + 1, f, e.tally) }

/-- Write held events, then one EVENTS_LOST entry, while there is room (R143). -/
def pumpFuel (p : Port) : Nat → State → State
  | 0, s => s
  | fuel + 1, s =>
    let r := (s.port p).ring
    if ringOpen p s && r.space then
      match r.held with
      | e :: rest => pumpFuel p fuel (writeEvt p e (s.modRing p fun r => { r with held := rest }))
      | [] => match r.dropped with
        | none => s
        | some (n, f, l) =>
          let (t, s) := issueTally s
          writeEvt p ⟨0x1004, BitVec.ofNat 32 (min n 0xFFFFFFFF), BitVec.ofNat 128 (f + 2 ^ 64 * l), t⟩
            (s.modRing p fun r => { r with dropped := none })
    else s

/-- With room among the 64 held events, the loss report is held behind them, so that later events follow it in tally order
(R42, R143; log 113). -/
def holdLoss (p : Port) (s : State) : State :=
  let r := (s.port p).ring
  match r.dropped with
  | none => s
  | some (n, f, l) =>
    if (s.port p).up && r.en && decide (r.held.length < 64) then
      let (t, s) := issueTally s
      s.modRing p fun r => { r with
        held := r.held ++ [⟨0x1004, BitVec.ofNat 32 (min n 0xFFFFFFFF), BitVec.ofNat 128 (f + 2 ^ 64 * l), t⟩], dropped := none }
    else s

/-- Space has returned on a port's ring: the held events, the loss report, then the interrupt write. -/
def pump (p : Port) (s : State) : State :=
  let s' := holdLoss p (pumpFuel p 66 s)
  if (s'.port p).ring.tail = (s.port p).ring.tail then s' else evtIrq p s'

/-- One event arrives at one port's ring. -/
def ringEvt (p : Port) (e : Evt) (s : State) : State :=
  let r := (s.port p).ring
  if r.en then
    if (s.port p).up then
      if r.held.isEmpty && r.dropped.isNone && r.space then evtIrq p (writeEvt p e s)
      else if r.dropped.isNone && r.held.length < 64 then s.modRing p fun r => { r with held := r.held ++ [e] }
      else dropEvt p e s
    else dropEvt p e s
  else s

/-- The rings an event goes to. -/
inductive Rings where
  | both
  | own (p : Port)
  deriving DecidableEq, Repr

/-- Deliver an event that has its tally (R147: both copies carry the same). -/
def sendEvt (r : Rings) (e : Evt) (s : State) : State :=
  match r with
  | .both => ringEvt .b e (ringEvt .a e s)
  | .own p => ringEvt p e s

/-- Post an event: it receives one tally (R39). -/
def postEvt (r : Rings) (code : Nat) (d0 : Word) (d1 : BitVec 128) (s : State) : State :=
  let (t, s) := issueTally s
  sendEvt r ⟨code, d0, d1, t⟩ s

/-! ### Error bits (R14, R83) -/

/-- Set bit `n` of an error register; newly set and enabled, it posts event `code` to both rings with `d0` (R83). -/
def raiseErr (errKey enKey code n : Nat) (d0 : Word) (s : State) : State :=
  if regBit errKey n s then s else
    let s := regOr errKey (wbit true n) s
    if regBit enKey n s then postEvt .both code d0 0 s else s

/-- Set a bit of `DEVICE_ERR` (Table 2-7, R83). -/
def devErr (n : Nat) (r : Requester) (s : State) : State :=
  raiseErr 0x0020 0x0024 0x0002 n (wfield (reqCode r) 8 ||| wfield n 0) s

/-- Set a bit of `CMD_ERR` (Table 5-18, R189); `q` is the queue where known. -/
def cmdErr (n q : Nat) (s : State) : State :=
  raiseErr 0x2050 0x2054 0x2002 n (wfield (q % 2 ^ 15) 8 ||| wfield n 0) s

/-- Set a bit of `PORT_ERR` (Table 4-14). -/
def portErr (n : Nat) (s : State) : State := regOr 0x1008 (wbit true n) s

/-! ### Software key slots (R337, R340) -/

/-- A slot at main power-up. -/
def emptyKSlot : KSlot := ⟨false, 0, 0, 0, 0, []⟩

/-- Empty a slot; its `SEQ` stays. -/
def KSlot.emptied (k : KSlot) : KSlot := { emptyKSlot with seq := k.seq }

/-- Empty every software key slot that satisfies a test (R340, R343). -/
def emptyKSlots (p : KSlot → Bool) (s : State) : State :=
  { s with cipher := { s.cipher with
      slots := (s.cipher.slots.map fun x => (x.1, if p x.2 then x.2.emptied else x.2)).filter fun x => x.2 != emptyKSlot } }

end Sys2Proof.Machine
end

