-- ==== Sys2Proof/Machine/Operands.lean ====
section
/-! DEFINITION. The operand forms: the command entry's fields (Table 5-5), the opcode table (Table 5-11) and status codes
(Table 5-9). -/
namespace Sys2Proof.Machine

/-- `STATUS` values (Table 5-9). -/
inductive Status where
  | ok | batchSealed | badOpcode | badForm | badLength | modeForbids | badParam | keyHandleStale | keyUsageDenied
  | keyColourMismatch | sharesExhausted | keyExpired | counterWouldWrap | verifyFailed | abortedDisabled | abortedAlarm
  | furrowNotQuiesced | quotaExceeded | entropyUnavailable | cartridgeIndeterminate | cartridgeRetired | flashSameBank
  | progNotErased | fieldTooWeak | quorumNotMet | linkDown | dmaFault | internalFault
  deriving DecidableEq, Repr

/-- The 16-bit code of a status (R184). -/
def Status.code : Status → Nat
  | .ok => 0x0000
  | .batchSealed => 0x0001
  | .badOpcode => 0x8010
  | .badForm => 0x8011
  | .badLength => 0x8012
  | .modeForbids => 0x8013
  | .badParam => 0x8014
  | .keyHandleStale => 0x8020
  | .keyUsageDenied => 0x8021
  | .keyColourMismatch => 0x8022
  | .sharesExhausted => 0x8023
  | .keyExpired => 0x8024
  | .counterWouldWrap => 0x8030
  | .verifyFailed => 0x4031
  | .abortedDisabled => 0x8040
  | .abortedAlarm => 0xC041
  | .furrowNotQuiesced => 0x8042
  | .quotaExceeded => 0x8043
  | .entropyUnavailable => 0xC050
  | .cartridgeIndeterminate => 0xC060
  | .cartridgeRetired => 0xC061
  | .flashSameBank => 0x8070
  | .progNotErased => 0x8071
  | .fieldTooWeak => 0x8080
  | .quorumNotMet => 0x8081
  | .linkDown => 0xC090
  | .dmaFault => 0x8091
  | .internalFault => 0xC0F0

/-- Severity digit of a status: 0, 4, 8 or 0xC (R184). -/
def Status.severity (st : Status) : Nat := st.code / 0x1000

/-- A completion of severity 0 or 4 debits its shares (R25). -/
def Status.debits (st : Status) : Bool := st.severity == 0 || st.severity == 4

/-- Audit column of Table 5-11. -/
inductive Audit where
  | individual | rollup | none
  deriving DecidableEq, Repr

/-- Forms an opcode defines (R185). -/
inductive Forms where
  | basic | both | expert
  deriving DecidableEq, Repr

/-- One row of Table 5-11. -/
structure OpInfo where
  code : Nat
  audit : Audit
  /-- M: from furrow 0 only. -/
  mgr : Bool
  /-- C: reserved for CEREMONY under P2. -/
  ceremony : Bool
  /-- P: permitted in PROVISION under P1. -/
  provision : Bool
  /-- D: a non-destructive diagnostic under P5. -/
  diag : Bool
  /-- PROVISION only. -/
  provisionOnly : Bool
  forms : Forms
  deriving DecidableEq, Repr

/-- Table 5-11, part 1. -/
def opTablea : List OpInfo := [
  ⟨0x0000, .none, false, false, false, false, false, .basic⟩ /- NOP -/,
  ⟨0x0001, .none, false, false, false, false, false, .basic⟩ /- DEVICE_INFO -/,
  ⟨0x0010, .individual, true, false, false, false, false, .basic⟩ /- MODE_PROVISION_BEGIN -/,
  ⟨0x0011, .individual, true, false, false, false, false, .basic⟩ /- MODE_PROVISION_COMPLETE -/,
  ⟨0x0012, .individual, true, false, false, false, false, .basic⟩ /- MODE_REPROVISION -/,
  ⟨0x0020, .individual, true, false, false, false, false, .basic⟩ /- MODE_CEREMONY_BEGIN -/,
  ⟨0x0021, .individual, true, false, false, false, false, .basic⟩ /- MODE_CEREMONY_END -/,
  ⟨0x0030, .individual, true, false, false, false, false, .basic⟩ /- MODE_MAINTAIN_BEGIN -/,
  ⟨0x0031, .individual, true, false, false, false, false, .basic⟩ /- MODE_MAINTAIN_COMMIT -/,
  ⟨0x0032, .individual, true, false, false, false, false, .basic⟩ /- MODE_MAINTAIN_ABORT -/,
  ⟨0x0033, .individual, true, false, false, false, false, .basic⟩ /- IMAGE_LOAD -/,
  ⟨0x0034, .none, true, false, false, false, false, .basic⟩ /- IMAGE_STATUS -/,
  ⟨0x0040, .individual, true, false, false, false, false, .basic⟩ /- MODE_JOIN_BEGIN -/,
  ⟨0x0041, .individual, true, false, false, false, false, .basic⟩ /- MODE_JOIN_ABORT -/,
  ⟨0x0050, .individual, true, false, false, false, false, .basic⟩ /- MODE_ZEROIZE -/,
  ⟨0x0051, .individual, true, false, false, false, false, .basic⟩ /- MODE_RETIRE -/,
  ⟨0x0060, .individual, true, false, false, false, true, .basic⟩ /- RTC_SET -/,
  ⟨0x0070, .individual, true, false, false, false, false, .basic⟩ /- UNIT_DISABLE -/,
  ⟨0x0071, .individual, true, false, false, false, false, .basic⟩ /- UNIT_ENABLE -/,
  ⟨0x1001, .individual, false, false, true, false, false, .both⟩ /- KEY_GENERATE -/,
  ⟨0x1002, .individual, false, false, false, false, false, .both⟩ /- KEY_IMPORT -/,
  ⟨0x1003, .individual, false, false, false, false, false, .basic⟩ /- KEY_EXPORT -/,
  ⟨0x1004, .individual, false, false, false, false, false, .both⟩ /- KEY_DERIVE -/,
  ⟨0x1005, .individual, false, false, false, false, false, .basic⟩ /- KEY_DELETE -/,
  ⟨0x1006, .individual, false, false, false, false, false, .basic⟩ /- KEY_QUERY -/,
  ⟨0x1007, .individual, false, false, false, false, false, .basic⟩ /- KEY_SET_POLICY -/,
  ⟨0x1008, .individual, false, true, false, false, false, .basic⟩ /- KEY_IMPORT_COMPONENTS -/,
  ⟨0x1009, .individual, false, true, false, false, false, .basic⟩ /- KEY_EXPORT_COMPONENTS -/,
  ⟨0x2001, .rollup, false, false, false, false, false, .both⟩ /- SYM_ENCRYPT -/,
  ⟨0x2002, .rollup, false, false, false, false, false, .both⟩ /- SYM_DECRYPT -/]

/-- Table 5-11, part 2. -/
def opTableb : List OpInfo := [
  ⟨0x2003, .rollup, false, false, false, false, false, .both⟩ /- AEAD_SEAL -/,
  ⟨0x2004, .rollup, false, false, false, false, false, .both⟩ /- AEAD_OPEN -/,
  ⟨0x2005, .rollup, false, false, false, false, false, .both⟩ /- MAC_GENERATE -/,
  ⟨0x2006, .rollup, false, false, false, false, false, .both⟩ /- MAC_VERIFY -/,
  ⟨0x2007, .rollup, false, false, false, false, false, .both⟩ /- SYM_WRAP -/,
  ⟨0x2008, .rollup, false, false, false, false, false, .both⟩ /- SYM_UNWRAP -/,
  ⟨0x3001, .rollup, false, false, false, false, false, .both⟩ /- PIN_TRANSLATE -/,
  ⟨0x3002, .rollup, false, false, false, false, false, .both⟩ /- PIN_VERIFY -/,
  ⟨0x3003, .rollup, false, false, false, false, false, .both⟩ /- PIN_OFFSET_GENERATE -/,
  ⟨0x3004, .rollup, false, false, false, false, false, .both⟩ /- PVV_GENERATE -/,
  ⟨0x3010, .rollup, false, false, false, false, false, .both⟩ /- ARQC_VERIFY -/,
  ⟨0x3011, .rollup, false, false, false, false, false, .both⟩ /- ARQC_VERIFY_ARPC -/,
  ⟨0x3020, .rollup, false, false, false, false, false, .basic⟩ /- CVV_GENERATE -/,
  ⟨0x3021, .rollup, false, false, false, false, false, .basic⟩ /- CVV_VERIFY -/,
  ⟨0x3030, .rollup, false, false, false, false, false, .both⟩ /- DUKPT_PIN_TRANSLATE -/,
  ⟨0x3031, .rollup, false, false, false, false, false, .both⟩ /- DUKPT_MAC_VERIFY -/,
  ⟨0x3040, .rollup, false, false, false, false, false, .both⟩ /- RETAIL_MAC_GENERATE -/,
  ⟨0x3041, .rollup, false, false, false, false, false, .both⟩ /- RETAIL_MAC_VERIFY -/,
  ⟨0x3050, .rollup, false, false, false, false, false, .both⟩ /- FF1_TOKENISE -/,
  ⟨0x3051, .rollup, false, false, false, false, false, .both⟩ /- FF1_DETOKENISE -/,
  ⟨0x4001, .rollup, false, false, true, false, false, .both⟩ /- PK_SIGN -/,
  ⟨0x4002, .none, false, false, true, false, false, .both⟩ /- PK_VERIFY -/,
  ⟨0x4003, .individual, false, false, true, false, false, .both⟩ /- PK_KEYPAIR_GENERATE -/,
  ⟨0x4004, .rollup, false, false, false, false, false, .both⟩ /- ECDH_DERIVE -/,
  ⟨0x4005, .rollup, false, false, false, false, false, .both⟩ /- KEM_ENCAPSULATE -/,
  ⟨0x4006, .rollup, false, false, false, false, false, .both⟩ /- KEM_DECAPSULATE -/,
  ⟨0x4007, .rollup, false, false, false, false, false, .both⟩ /- RSA_ENCRYPT -/,
  ⟨0x4008, .rollup, false, false, false, false, false, .both⟩ /- RSA_DECRYPT -/,
  ⟨0x5001, .none, false, false, false, false, false, .both⟩ /- RANDOM_BYTES -/,
  ⟨0x5002, .none, false, false, false, false, false, .basic⟩ /- RNG_HEALTH -/]

/-- Table 5-11, part 3. -/
def opTablec : List OpInfo := [
  ⟨0x6001, .individual, false, true, false, false, false, .both⟩ /- SHARES_MINT -/,
  ⟨0x6002, .individual, true, false, false, false, false, .basic⟩ /- SHARES_TRANSFER -/,
  ⟨0x6003, .none, false, false, false, false, false, .basic⟩ /- SHARES_BALANCE -/,
  ⟨0x6004, .individual, false, true, false, false, false, .basic⟩ /- SHARES_BURN_STRANDED -/,
  ⟨0x6005, .individual, true, false, false, false, false, .basic⟩ /- ROUTE_UPDATE -/,
  ⟨0x6006, .none, false, false, false, false, false, .both⟩ /- PEER_STATUS -/,
  ⟨0x7001, .individual, true, false, false, false, true, .basic⟩ /- VAULT_FORMAT -/,
  ⟨0x7002, .none, false, false, false, false, false, .basic⟩ /- VAULT_STATUS -/,
  ⟨0x7003, .none, true, false, false, false, false, .basic⟩ /- JOURNAL_READ -/,
  ⟨0x7004, .individual, true, false, false, false, false, .basic⟩ /- JOURNAL_EXPORT -/,
  ⟨0x7005, .individual, true, false, false, false, false, .both⟩ /- VAULT_REBUILD -/,
  ⟨0x7006, .individual, true, false, false, false, true, .both⟩ /- VAULT_SET_LAYOUT -/,
  ⟨0x8001, .individual, true, false, false, false, false, .basic⟩ /- CUSTODIAN_ENROL -/,
  ⟨0x8002, .none, false, false, false, false, false, .basic⟩ /- QUORUM_STATUS -/,
  ⟨0x8003, .individual, true, false, false, false, false, .basic⟩ /- CARD_SESSION -/,
  ⟨0x8004, .individual, true, false, false, false, false, .basic⟩ /- BADGE_AUTHENTICATE -/,
  ⟨0x8005, .none, true, false, false, false, false, .both⟩ /- TAG_INVENTORY -/,
  ⟨0x8006, .none, true, false, false, false, false, .basic⟩ /- SEAL_READ -/,
  ⟨0x8007, .individual, true, false, false, false, false, .basic⟩ /- SEAL_WRITE -/,
  ⟨0x9001, .individual, true, false, false, false, false, .both⟩ /- FURROW_CREATE -/,
  ⟨0x9002, .individual, true, false, false, false, false, .basic⟩ /- FURROW_SET_POLICY -/,
  ⟨0x9003, .individual, true, false, false, false, false, .basic⟩ /- FURROW_QUIESCE -/,
  ⟨0x9004, .individual, true, false, false, false, false, .basic⟩ /- FURROW_RESET -/,
  ⟨0x9005, .individual, true, false, false, false, false, .basic⟩ /- FURROW_REMOVE -/,
  ⟨0x9006, .individual, true, false, false, false, false, .basic⟩ /- FURROW_DISABLE -/,
  ⟨0x9007, .individual, true, false, false, false, false, .basic⟩ /- FURROW_ENABLE -/,
  ⟨0x9008, .individual, true, false, false, false, false, .basic⟩ /- DIRTY_LOG_START -/,
  ⟨0x9009, .individual, true, false, false, false, false, .basic⟩ /- DIRTY_LOG_STOP -/,
  ⟨0x900A, .none, false, false, false, false, false, .both⟩ /- FURROW_QUERY -/,
  ⟨0x9010, .individual, true, false, false, false, false, .basic⟩ /- CQ_CREATE -/]

/-- Table 5-11, part 4. -/
def opTabled : List OpInfo := [
  ⟨0x9011, .individual, true, false, false, false, false, .basic⟩ /- CQ_DELETE -/,
  ⟨0x9012, .individual, true, false, false, false, false, .basic⟩ /- SQ_CREATE -/,
  ⟨0x9013, .individual, true, false, false, false, false, .basic⟩ /- SQ_DELETE -/,
  ⟨0x9014, .individual, true, false, false, false, false, .basic⟩ /- SQ_DISABLE -/,
  ⟨0x9015, .individual, true, false, false, false, false, .basic⟩ /- SQ_ENABLE -/,
  ⟨0x9016, .none, false, false, false, false, false, .basic⟩ /- QUEUE_QUERY -/,
  ⟨0xA001, .individual, false, true, false, false, false, .basic⟩ /- APPLET_INSTALL -/,
  ⟨0xA002, .individual, false, true, false, false, false, .basic⟩ /- APPLET_REMOVE -/,
  ⟨0xA003, .rollup, false, false, false, false, false, .basic⟩ /- APPLET_INVOKE -/,
  ⟨0xA004, .none, false, false, false, false, false, .basic⟩ /- APPLET_LIST -/,
  ⟨0xB001, .none, false, false, false, false, false, .basic⟩ /- TAMPER_STATUS -/,
  ⟨0xB002, .none, true, false, false, false, false, .basic⟩ /- TAMPER_LOG_READ -/,
  ⟨0xB003, .none, false, false, false, false, false, .basic⟩ /- EVIDENCE_READ -/,
  ⟨0xB004, .individual, true, false, false, false, false, .basic⟩ /- PUNTY_WRITE -/,
  ⟨0xB005, .individual, true, false, false, false, false, .basic⟩ /- TAMPER_PIN_CONFIG -/,
  ⟨0xF001, .none, false, false, false, true, false, .basic⟩ /- SELFTEST_RESULTS -/,
  ⟨0xF002, .none, false, false, false, true, false, .basic⟩ /- LOOPBACK -/,
  ⟨0xF003, .none, false, false, false, true, false, .basic⟩ /- COUNTER_SNAPSHOT -/,
  ⟨0xF010, .individual, true, false, false, false, false, .basic⟩ /- UNIT_SELFTEST -/,
  ⟨0xF011, .individual, true, false, false, false, false, .basic⟩ /- MEMORY_TEST -/]

/-- Table 5-11. -/
def opTable : List OpInfo := opTablea ++ opTableb ++ opTablec ++ opTabled

/-- The row of an opcode. -/
def opInfo (code : Nat) : Option OpInfo := opTable.find? (fun o => o.code == code)

/-! ### Fields of a command entry (Table 5-5) -/

/-- Opcode class. -/
def Cmd.cls (c : Cmd) : Nat := c.opcode.toNat / 0x1000
/-- `FLAGS.FENCE`. -/
def Cmd.fence (c : Cmd) : Bool := c.flags.getLsbD 0
/-- `FLAGS.IRQ`. -/
def Cmd.irq (c : Cmd) : Bool := c.flags.getLsbD 1
/-- `FLAGS.AUDIT_FULL`. -/
def Cmd.auditFull (c : Cmd) : Bool := c.flags.getLsbD 2
/-- `FLAGS.SEAL_BATCH`. -/
def Cmd.seals (c : Cmd) : Bool := c.flags.getLsbD 3
/-- INLINE byte at command byte `n` (48 to 63). -/
def Cmd.inlByte (c : Cmd) (n : Nat) : Byte := byteAt c.inl (n - 48)
/-- Little-endian INLINE field of `k` bytes at command byte `n`. -/
def Cmd.inlNat (c : Cmd) (n k : Nat) : Nat := natAt c.inl (n - 48) k
/-- INLINE bytes of `k` bytes at command byte `n`. -/
def Cmd.inlBytes (c : Cmd) (n k : Nat) : List Byte := bytesAt c.inl (n - 48) k
/-- Address of the extended parameter block (R166). -/
def Cmd.blockAddr (c : Cmd) : Nat := c.inlNat 48 8
/-- Length of the extended parameter block (R166). -/
def Cmd.blockLen (c : Cmd) : Nat := c.inlNat 56 4
/-- `KEY_A` of a class 0x2 command names a software key slot (`FLAGS.KSLOT`, R341). -/
def Cmd.kslot (c : Cmd) : Bool := c.cls == 2 && (c.inlByte 49).getLsbD 0
/-- Key handles a command names (R235); a software key slot is none. -/
def Cmd.handles (c : Cmd) : List (BitVec 64) :=
  (if c.keyA = 0 ∨ c.kslot then [] else [c.keyA]) ++ (if c.keyB = 0 then [] else [c.keyB])
/-- Field of the extended block. -/
def Cmd.blk (c : Cmd) (off k : Nat) : Nat := natAt c.block off k

/-- Audited individually as if `AUDIT_FULL` were 1: a translation that may weaken or changes the PAN (R290), encryption under a given
IV or nonce (R334), encapsulation to an inline key (R355). -/
def Cmd.auditedAlso (c : Cmd) : Bool :=
  let ivIn := (c.inlByte 49).getLsbD 1
  let op := c.opcode.toNat
  if op = 0x3001 then c.form == 1 && (bitAt c.block 4 0 || byteAt c.block 2 != byteAt c.block 3
    || bytesAt c.block 8 10 != bytesAt c.block 18 10)
  else if op = 0x2001 then ivIn && c.inlByte 48 == 3
  else if op = 0x2003 then ivIn
  else op == 0x4005 && c.keyA == 0

/-- DDN field of a key handle. -/
def hDdn (h : BitVec 64) : Nat := h.toNat / 2 ^ 50
/-- Table index of a key handle. -/
def hIdx (h : BitVec 64) : Nat := h.toNat / 2 ^ 25 % 2 ^ 25
/-- Generation of a key handle. -/
def hGen (h : BitVec 64) : Nat := h.toNat % 2 ^ 25
/-- The handle of a domain device number, index and generation. -/
def mkHandle (ddn idx gen : Nat) : Nat := ddn * 2 ^ 50 + idx * 2 ^ 25 + gen

/-- A command as its 64-byte entry spells it (Table 5-5), fetched as command `id` of an SQ. -/
def decodeEntry (base : Cmd) (e : List Byte) : Cmd :=
  { base with
    opcode := BitVec.ofNat 16 (natAt e 0 2), flags := byteAt e 2, form := byteAt e 3
    tag := BitVec.ofNat 32 (natAt e 4 4), keyA := BitVec.ofNat 64 (natAt e 8 8), keyB := BitVec.ofNat 64 (natAt e 16 8)
    src := BitVec.ofNat 64 (natAt e 24 8), dst := BitVec.ofNat 64 (natAt e 32 8)
    srcLen := natAt e 40 4, dstLen := natAt e 44 4, inl := bytesAt e 48 16 }

end Sys2Proof.Machine
end

