-- ==== Sys2Proof/Machine/Journal.lean ====
section
/-! DEFINITION. The vault's journal buffer as every block uses it: audit records, archive changes, sealing (chapter 16), and
the usage rollup (R26). -/
namespace Sys2Proof.Machine

/-- Update the tamper unit. -/
def State.modTamper (s : State) (f : Tamper → Tamper) : State := { s with tamper := f s.tamper }
/-- Update the backup domain. -/
def State.modBackup (s : State) (f : Backup → Backup) : State := { s with backup := f s.backup }
/-- Update the Punty. -/
def State.modPunty (s : State) (f : Punty → Punty) : State := { s with punty := f s.punty }
/-- Update the custodian interfaces. -/
def State.modCust (s : State) (f : Cust → Cust) : State := { s with cust := f s.cust }

/-- Update the vault. -/
def State.modVault (s : State) (f : Vault → Vault) : State := { s with vault := f s.vault }

/-- One cartridge slot. -/
def State.cart (s : State) (n : Nat) : CartSlot := if n = 0 then s.vault.slot0 else s.vault.slot1

/-- Update one cartridge slot. -/
def State.modCart (s : State) (n : Nat) (f : CartSlot → CartSlot) : State :=
  s.modVault fun v => if n = 0 then { v with slot0 := f v.slot0 } else { v with slot1 := f v.slot1 }

/-- Slots that hold a current cartridge. -/
def currentSlots (s : State) : List Nat :=
  (if s.vault.slot0.state = .current then [0] else []) ++ (if s.vault.slot1.state = .current then [1] else [])

/-- Cartridges the layout needs (R528). -/
def layoutNeeds (s : State) : Nat := if vaultLayout s = .single then 1 else 2

/-- A current cartridge holds the vault: writes can land (R535, P3). For striped both halves are needed. -/
def vaultWritable (s : State) : Bool :=
  s.vault.ident.isSome &&
  (match vaultLayout s with
   | .mirrored => (currentSlots s).length ≥ 1
   | .striped => (currentSlots s).length == 2
   | .single => (currentSlots s).contains 0)

/-- `VAULT_STATUS.AVAILABLE`: the set of current cartridges is complete. -/
def vaultAvailable (s : State) : Bool := s.vault.ident.isSome && (currentSlots s).length ≥ layoutNeeds s

/-- Largest payload of a segment (Table 16-7). -/
def segMax : Nat := 65440

/-- Payload bytes of an archive change: a record with its granules, a floor, and so on (DESIGN CHOICE, log 20). -/
def opLen : ArchOp → Nat
  | .put _ _ r => 128 + 1024 * r.extCount
  | .del _ => 8
  | .floor _ _ => 8
  | .pool _ _ => 64
  | .shape _ _ => 8
  | .kept _ => 4096
  | .applet _ b => b.length
  | .appletDel _ => 8
  | .pstore _ _ b => b.length
  | .exportMark _ => 8
  | .custodians _ => 32768

/-- Bytes in the journal buffer: open, in flight and lost segments (64 MiB in all). -/
def bufferUsed (s : State) : Nat :=
  ((s.vault.opens ++ s.vault.inflight ++ s.vault.lost).map (·.len)).sum

/-- Audit segments the layout has room for (Table 16-6). -/
def auditTotal (s : State) : Nat := if vaultLayout s = .striped then 64749536 else 32374768

/-- The journal buffer has space for an individual audit record. -/
def bufferRoom (s : State) : Bool := decide (bufferUsed s + s.vault.reserved + 256 ≤ 2 ^ 26)

/-- A command that is audited individually passes step 9: space in the journal buffer, and an audit segment free (R27, R183, R544). -/
def auditSpace (s : State) : Bool := bufferRoom s && decide (s.vault.auditUsed < auditTotal s)

/-- Slots a segment is written to: both in mirrored, by parity in striped, slot 0 in single (R528); while a rebuild or a
catch-up runs, new segments go to its target too (R541). -/
def segTargets (seq : Nat) (s : State) : List Nat :=
  let cur := currentSlots s
  let cur := match vaultLayout s with
    | .mirrored => cur
    | .striped => cur.filter (· == seq % 2)
    | .single => cur.filter (· == 0)
  match s.vault.copying with
  | some (n, _) => if cur.contains n then cur else cur ++ [n]
  | none => cur

/-- Post VAULT_AUDIT_HIGH once when 90 % of the audit segments are used (R544). -/
def auditHigh (s : State) : State :=
  if s.vault.auditHigh || decide (10 * s.vault.auditUsed < 9 * auditTotal s) then s
  else postEvt .both 0xC007 (BitVec.ofNat 32 (min (auditTotal s - s.vault.auditUsed) 0xFFFFFFFF)) 0
    (s.modVault fun v => { v with auditHigh := true })

/-- The key that seals a kind of segment is formed: the audit key, or the vault key (R529, R579). -/
def segKey (k : SegKind) (s : State) : Bool := !s.tamper.reform && (if k = .audit then s.vault.auditKey else s.vault.vaultKey)

/-- `KIND` of a segment (Table 16-7). -/
def SegKind.code : SegKind → Nat
  | .archive => 1
  | .statement => 2
  | .audit => 3
  | .label => 4

/-- The 64 bytes before a segment's payload; `prev`: the seal tag of the segment before it (Table 16-7). -/
def segHead (g : Seg) (ident : Nat) (prev : List Byte) : List Byte :=
  let ts := g.recs.map (·.tally)
  [0x5A, 0x4A, 0x56, 0x53] ++ le 1 g.kind.code ++ zeros 3 ++ le 4 g.len ++ le 4 g.epoch ++ le 8 g.seq
    ++ le 8 (ts.tail.foldl min (ts.headD 0)) ++ le 8 (ts.foldl max 0) ++ le 8 ident ++ bytesAt prev 0 16

/-- A segment's payload, zero-padded: the records of an audit segment; the layout of an archive or statement segment is open (R529;
log 134). -/
def segPayload (g : Seg) : List Byte :=
  let b := if g.kind = .audit then g.recs.flatMap (·.bytes) else (List.range g.len).map (Config.segByte g.seq)
  b ++ zeros (segMax - b.length)

/-- The audit key (R529). -/
def auditKeyOf (s : State) : List Byte := (List.range 32).map (Config.auditKeyByte s.fuses.uid.toNat)

/-- The seal tag of a segment: AES-256 CMAC under the audit key over an audit segment in clear; AES-256-GCM under the vault key for the
others, the header as additional data (R529; the IV is `SEQ`: log 134). -/
def segTag (g : Seg) (s : State) : List Byte :=
  let h := segHead g (s.vault.ident.getD 0) s.vault.sealTag
  if g.kind = .audit then cmac 8 (auditKeyOf s) (h ++ segPayload g)
  else
    let iv := be 12 g.seq
    gcmTag s.vault.sealKey iv h (gcmCrypt s.vault.sealKey iv (segPayload g))

/-- Seal one segment: it takes the next sequence and the epoch, and is written (R529, R531). Content longer than one payload
takes as many segments in succession (R543; log 22). With no cartridge to hold it, it stays in the journal buffer (R535). -/
def sealOne (g : Seg) (s : State) : State :=
  let n := max 1 ((g.len + segMax - 1) / segMax)
  let seq := s.vault.nextSeq + n - 1
  let ts := segTargets seq s
  let g := { g with seq := seq, epoch := s.vault.epoch, waits := ts }
  let g := { g with tag := segTag g s }
  let s := s.modVault fun v => { v with nextSeq := seq + 1, sealTag := g.tag }
  if ts.isEmpty || !vaultWritable s || !segKey g.kind s then s.modVault fun v => { v with lost := v.lost ++ [g] }
  else
    let s := s.modVault fun v => { v with
      inflight := v.inflight ++ [g]
      auditUsed := if g.kind = .audit then v.auditUsed + n else v.auditUsed }
    let s := regSet 0xC114 (BitVec.ofNat 32 (max (regGet 0xC114 s).toNat (bufferUsed s))) s
    let s := bump64 0xC100 n s
    if g.kind = .audit then auditHigh s else s

/-- Seal the open segment of a kind, where there is one. With no audit segment free, audit records stay in the journal buffer
(R544). -/
def sealKind (k : SegKind) (s : State) : State :=
  match s.vault.opens.find? (fun g => g.kind = k) with
  | none => s
  | some g =>
    if k = .audit ∧ auditTotal s ≤ s.vault.auditUsed then s
    else sealOne g (s.modVault fun v => { v with opens := v.opens.filter (fun g => g.kind ≠ k) })

/-- Place something of `len` bytes in the open segment of a kind; a full one is sealed first (R531). -/
def intoSeg (k : SegKind) (len : Nat) (f : Seg → Seg) (s : State) : State :=
  let s := match s.vault.opens.find? (fun g => g.kind = k) with
    | some g => if segMax < g.len + len then sealKind k s else s
    | none => s
  match s.vault.opens.find? (fun g => g.kind = k) with
  | some _ => s.modVault fun v => { v with
      opens := updFirst (fun g => g.kind = k) (fun g => f { g with len := g.len + len }) v.opens }
  | none => s.modVault fun v => { v with opens := v.opens ++ [f ⟨k, 0, 0, [], [], len, [], [], 0, []⟩] }

/-- Add a change to the archive (R531); not synchronous. -/
def archive (op : ArchOp) (s : State) : State :=
  intoSeg .archive (opLen op) (fun g => { g with ops := g.ops ++ [op] }) s

/-- Add a synchronous change: its segment is sealed at once; the answer is the segment a command then waits for (R531). -/
def archiveSync (k : SegKind) (op : ArchOp) (s : State) : Nat × State :=
  let s := intoSeg k (opLen op) (fun g => { g with ops := g.ops ++ [op] }) s
  let seq := s.vault.nextSeq
  (seq, sealKind k s)

/-- A segment a command waits for is durable: it waits for no token and is not lost (R532). -/
def durable (seq : Nat) (s : State) : Bool :=
  !(s.vault.inflight.any (fun g => g.seq == seq && !g.waits.isEmpty)) && !(s.vault.lost.any (fun g => g.seq == seq))

/-- A segment is lost: its write is indeterminate (R535). -/
def indeterminate (seq : Nat) (s : State) : Bool := s.vault.lost.any (fun g => g.seq == seq)

/-- The bytes of an individual audit record (Table 16-9). -/
def auditBytes (kind tally rtc furrow opcode status : Nat) (keyA keyB : BitVec 64) (tag : Word) (sqPort : Nat)
    (inl detail : List Byte) : List Byte :=
  let detail := detail.take 192
  le 2 (64 + detail.length) ++ [BitVec.ofNat 8 kind, 0] ++ le 8 tally ++ le 6 rtc ++ le 2 furrow ++ le 2 opcode
    ++ le 2 status ++ le 8 keyA.toNat ++ le 8 keyB.toNat ++ le 4 tag.toNat ++ le 4 sqPort ++ bytesAt inl 0 16 ++ detail

/-- Place one audit record in the journal buffer, with its own tally (R39, R542). -/
def auditRec (kind furrow opcode status : Nat) (keyA keyB : BitVec 64) (tag : Word) (sqPort : Nat)
    (inl detail : List Byte) (s : State) : State :=
  let (t, s) := issueTally s
  let b := auditBytes kind t s.backup.rtcSec furrow opcode status keyA keyB tag sqPort inl detail
  intoSeg .audit b.length (fun g => { g with recs := g.recs ++ [⟨t, b⟩] }) s

/-- A record of the device itself: no command (kinds 0x02 to 0x06). -/
def auditDev (kind : Nat) (detail : List Byte) (s : State) : State := auditRec kind 0 0 0 0 0 0 0 [] detail s

/-! ### The rollup (R26, R312, R313, R543) -/

/-- An entry matches a type, furrow and identity. -/
def RollEntry.is (e : RollEntry) (ty f id : Nat) : Bool := e.type == ty && e.furrow == f && e.ident == id

/-- Add to an entry of the rollup; beyond 1,048,576 key handles the furrow's overflow entry takes it (R313). -/
def rollAdd (ty f id uses vf sh : Nat) (s : State) : State :=
  let r := s.vault.rollup
  let add : RollEntry → RollEntry := fun e => { e with uses := e.uses + uses, vfails := e.vfails + vf, shares := e.shares + sh }
  if r.any (fun e => e.is ty f id) then
    s.modVault fun v => { v with rollup := updFirst (fun e => e.is ty f id) add v.rollup }
  else if ty = 1 && (r.filter (fun e => e.type == 1)).length ≥ 1048576 then
    let s := raiseErr 0x6010 0x6014 0x6002 2 (wfield 2 0) s
    if r.any (fun e => e.is 4 f 0) then
      s.modVault fun v => { v with rollup := updFirst (fun e => e.is 4 f 0) add v.rollup }
    else s.modVault fun v => { v with rollup := v.rollup ++ [⟨4, f, uses, vf, sh, 0⟩] }
  else s.modVault fun v => { v with rollup := v.rollup ++ [⟨ty, f, uses, vf, sh, id⟩] }

/-- The 24 bytes of a rollup entry (Table 16-10). -/
def rollBytes (e : RollEntry) : List Byte :=
  let b := if e.type = 2 then le 4 0 ++ le 4 0 ++ le 4 e.ident ++ le 4 0
    else if e.type = 3 then le 4 e.ident ++ le 4 0 ++ le 8 0
    else le 4 e.vfails ++ le 4 e.shares ++ le 8 e.ident
  [BitVec.ofNat 8 e.type, 0] ++ le 2 e.furrow ++ le 4 e.uses ++ b

/-- Bytes of the whole rollup record (R543). -/
def rollupBytes (tally rtc second : Nat) (es : List RollEntry) : List Byte :=
  let body := (es.map rollBytes).flatten
  le 2 (min 65535 (64 + body.length)) ++ [8, 0] ++ le 8 tally ++ le 6 rtc ++ le 2 0 ++ le 6 second ++ le 4 es.length
    ++ le 4 (es.filter (fun e => e.type == 4)).length ++ zeros 30 ++ body

/-- The journal buffer can take the next rollup, with a few entries more than it has now (R544). -/
def rollupFits (s : State) : Bool :=
  decide (bufferUsed s + s.vault.reserved + 64 + 24 * (s.vault.rollup.length + 4) ≤ 2 ^ 26)

/-- Close the rollup of one second and place it in the journal buffer with its own tally (R26). -/
def closeRollup (s : State) : State :=
  let (t, s) := issueTally s
  let b := rollupBytes t s.backup.rtcSec s.vault.rollSecond s.vault.rollup
  let s := intoSeg .audit b.length (fun g => { g with recs := g.recs ++ [⟨t, b⟩] }) s
  s.modVault fun v => { v with rollup := [], rollPosted := [], rollSecond := s.backup.rtcSec }

/-! ### Punty shadow (R588, R589) -/

/-- A slot of a row that has never been swapped (log 80). -/
def freshRowSlot : PuntySlot := ⟨zeros 16, Config.puntyCrc 0, false⟩

/-- The two slots of a row. -/
def puntySlots (n : Nat) (s : State) : PuntyRow := (assocGet n s.punty.rows).getD ⟨freshRowSlot, freshRowSlot⟩

/-- The CRC of a slot verifies. -/
def PuntySlot.ok (x : PuntySlot) : Bool := x.crc == Config.puntyCrc (leNat x.bytes)

/-- Slot 0 of a row is the newest. -/
def PuntyRow.first (r : PuntyRow) : Bool := r.slot0.ver == r.slot1.ver

/-- A read returns the newest slot whose CRC verifies (R590). -/
def PuntyRow.seen (r : PuntyRow) : List Byte :=
  let (new, old) := if r.first then (r.slot0, r.slot1) else (r.slot1, r.slot0)
  if new.ok || !old.ok then new.bytes else old.bytes

/-- The older slot is programmed; one that verifies is then marked newest, another keeps its version bit (R590; log 80). -/
def PuntyRow.swap (bs : List Byte) (crc : BitVec 16) (ok : Bool) (r : PuntyRow) : PuntyRow :=
  if r.first then { r with slot1 := ⟨bs, crc, r.slot1.ver != ok⟩ } else { r with slot0 := ⟨bs, crc, r.slot0.ver != ok⟩ }

/-- The visible version of a row. -/
def puntySeen (n : Nat) (s : State) : List Byte := (puntySlots n s).seen

/-- The newest version of a row: pending, else visible. -/
def puntyRow (n : Nat) (s : State) : List Byte := (assocGet n s.punty.shadow).getD (puntySeen n s)

/-- Write a row into the shadow: it is pending while it differs from the visible row. -/
def puntyPut (n : Nat) (bs : List Byte) (s : State) : State :=
  s.modPunty fun p => { p with shadow := assocSet n (if bs = puntySeen n s then none else some bs) p.shadow }

/-- Evidence count of row 0. -/
def puntyEvidence (s : State) : Nat := if s.otp.retire then 0xFFFF else s.otp.evidence

/-- Update the status rows 0 and 1 (Table 18-5); `t` is the tally of the update, `newest` the row of the newest alarm summary. -/
def puntyStatusRows (t newest : Nat) (s : State) : State :=
  let s := puntyPut 0 ([0x5A, 0x4A, 0x50, 0x54] ++ le 8 s.fuses.uid.toNat ++ le 1 (modeCode s.dev.mode) ++ le 1 s.tamper.respLevel
    ++ le 2 (puntyEvidence s)) s
  puntyPut 1 (le 6 s.backup.rtcSec ++ le 1 s.backup.pending.length ++ le 1 newest ++ le 8 t) s

/-- Row that holds the newest alarm summary; 0 for none. -/
def puntyNewest (s : State) : Nat := (byteAt (puntyRow 1 s) 7).toNat

/-- Status rows after a change with tally `t`. -/
def puntyTouch (t : Nat) (s : State) : State := puntyStatusRows t (puntyNewest s) s

/-- Write an alarm summary into the ring of rows 2 to 15. -/
def puntyAlarm (source level t : Nat) (s : State) : State :=
  let n := if puntyNewest s < 2 ∨ 15 ≤ puntyNewest s then 2 else puntyNewest s + 1
  puntyStatusRows t n (puntyPut n (le 6 s.backup.rtcSec ++ le 1 source ++ le 1 level ++ le 8 t) s)

/-! ### Modes (R82, R88, R97, R113) -/

/-- A mode change: one tally, `MODE`, `PREV_MODE` and `DEVICE_MODE_TALLY` together, the event, and the audit record of kind 0x04
(R542; its detail, the two modes, is a DESIGN CHOICE: log 21); the Punty's status rows follow (R588). -/
def changeMode (m : Mode) (s : State) : State :=
  let old := s.dev.mode
  let (t, s) := issueTally s
  let s := s.modDev fun d => { d with mode := m, prevMode := old, modeTally := t }
  let s := puntyTouch t (sendEvt .both ⟨0x0001, wfield (modeCode old) 4 ||| wfield (modeCode m) 0, 0, t⟩ s)
  auditDev 4 [BitVec.ofNat 8 (modeCode old), BitVec.ofNat 8 (modeCode m)] s

/-- `DEVICE_DEGRADED`. -/
def degraded (s : State) : Word := regGet 0x0300 s

/-- The target "SERVICE or DEGRADED" (R97). -/
def serviceOrDegraded (s : State) : Mode := if degraded s = 0 then .service else .degraded

/-- A bit of `DEVICE_DEGRADED` becomes 1: SERVICE moves to DEGRADED (R96, R116). -/
def setDegraded (n : Nat) (s : State) : State :=
  let s := regOr 0x0300 (wbit true n) s
  if s.dev.mode = .service then changeMode .degraded s else s

/-- A bit of `DEVICE_DEGRADED` becomes 0: with every bit 0, DEGRADED returns to SERVICE (R96). -/
def clearDegraded (n : Nat) (s : State) : State :=
  let s := regClr 0x0300 (wbit true n) s
  if s.dev.mode = .degraded && degraded s == 0 then changeMode .service s else s

/-! ### Retired units (R114) -/

/-- Record the retired units of a class in flash (Table 15-5). -/
def recordRetired (cls bitmap : Nat) (s : State) : State := logRecord 0x12 (cls * 2 ^ 48 + bitmap) s

end Sys2Proof.Machine
end

