-- ==== Sys2Proof/Machine/Shares.lean ====
section
/-! DEFINITION. Share pools as commands use them (R25, R281 to R283, R409 to R413). -/
namespace Sys2Proof.Machine

/-- Update the ledger. -/
def State.modCistern (s : State) (f : Cistern → Cistern) : State := { s with cistern := f s.cistern }

/-- A pool by its number. -/
def poolGet (n : Nat) (s : State) : Option Pool := assocGet n s.cistern.pools

/-- Store a pool. -/
def poolSet (n : Nat) (p : Pool) (s : State) : State :=
  s.modCistern fun c => { c with pools := assocSet n (some p) c.pools }

/-- This device's keeper can be reached, or it is its own (`KEEPER_UP`). -/
def keeperUp (s : State) : Bool :=
  match s.cistern.keeper with
  | none => true
  | some k => s.cistern.members.any fun m => m.ddn == k && m.reachable

/-- Draws of a pool are possible (R410, R424). -/
def drawsPossible (p : Pool) (s : State) : Bool :=
  decide (s.dev.mode ≠ .maintain) && keeperUp s && p.confirmed && !p.settled

/-- Local balance of a pool; 0 for one this device does not know (R241, R410). -/
def localBalance (n : Nat) (s : State) : Nat :=
  match poolGet n s with
  | none => 0
  | some p => if drawsPossible p s then p.working + p.held else p.working

/-- Shares of a pool a command has reserved. -/
def Cmd.reserves (n : Nat) (c : Cmd) : Nat :=
  ((c.resv.filter fun r => r.1 == n).map (·.2.1)).sum + (if c.tryPool ≠ 0 ∧ c.tryPool = n then 1 else 0)

/-- Shares of a pool reserved by commands in flight, but for command `id` (R282). -/
def reservedOthers (id n : Nat) (s : State) : Nat :=
  ((s.cmdif.cmds.filter fun c => c.id != id).map (Cmd.reserves n)).sum

/-- Answer of a share check (R282, R410). -/
inductive ShareCheck where
  | ok | wait | exhausted
  deriving DecidableEq, Repr

/-- The share check: `mine` shares are already reserved by the command itself, `cost` more are wanted. -/
def shareCheck (id n mine cost : Nat) (s : State) : ShareCheck :=
  let bal := localBalance n s
  let working := match poolGet n s with
    | none => 0
    | some p => p.working
  if bal < mine + cost then .exhausted
  else if working < mine + cost + reservedOthers id n s then .wait
  else .ok

/-- Post CISTERN_POOL_LOW once when the balance has fallen below `LOW_WATER`; note when it has risen again (R413). -/
def poolLow (n : Nat) (s : State) : State :=
  match poolGet n s with
  | none => s
  | some p =>
    let bal := localBalance n s
    if bal < p.lowWater then
      if p.lowPosted then s
      else postEvt .both 0x9004 (BitVec.ofNat 32 n) (BitVec.ofNat 128 (bal % 2 ^ 64)) (poolSet n { p with lowPosted := true } s)
    else if p.lowPosted then poolSet n { p with lowPosted := false } s else s

/-- Debit shares from `WORKING` (R409): a drawn share counts as spent. -/
def debit (n k : Nat) (s : State) : State :=
  match poolGet n s with
  | none => s
  | some p => poolLow n (poolSet n { p with working := p.working - k, spent := p.spent + k } s)

/-- Debit every reservation of a list. -/
def debitAll (rs : List (Nat × Nat × Nat)) (s : State) : State := rs.foldl (fun s r => debit r.1 r.2.1 s) s

/-- Settle a command's reservations at its completion (R25, R282, R283): key shares at severity 0 or 4, the try share only on
`VERIFY_FAILED`. -/
def settle (c : Cmd) (st : Status) (s : State) : State :=
  let s := if st.debits then debitAll c.resv s else s
  if c.tryPool ≠ 0 ∧ st = .verifyFailed then debit c.tryPool 1 s else s

end Sys2Proof.Machine
end

