-- ==== Sys2Proof/Machine/KeyStore.lean ====
section
/-! DEFINITION. The key table as every block uses it: slots, the key cache, pins, free lists, the key checks of R235. -/
namespace Sys2Proof.Machine

/-- Update the key table. -/
def State.modKeys (s : State) (f : KeyTab → KeyTab) : State := { s with keytab := f s.keytab }

/-- A slot that was never used: FREE, generation 0, floor 0 (R243). -/
def freshSlot : KeySlot := ⟨.free, 0, 0, none, false, false, []⟩

/-- A slot of the record array. -/
def slotGet (i : Nat) (s : State) : KeySlot := (assocGet i s.keytab.slots).getD freshSlot

/-- Store a slot; a never-used one is not listed. -/
def slotSet (i : Nat) (k : KeySlot) (s : State) : State :=
  s.modKeys fun t => { t with slots := assocSet i (if k = freshSlot then none else some k) t.slots }

/-- Entries of the table (R3, Table 0-1). -/
def tableEntries (s : State) : Nat := if s.fuses.grade = .s4 then 2 ^ 24 else 2 ^ 25

/-- The extension pool's granules (Table 7-1). -/
def granulePool (s : State) : List (Nat × Nat) := if s.fuses.grade = .s4 then [(0, 1572864)] else [(0, 3145728)]

/-- Spare regions of the key store (Table 7-1). -/
def spareRegions (s : State) : Nat := if s.fuses.grade = .s4 then 256 else 512

/-- Own domain device number; 0 while none is assigned. -/
def ownDdn (s : State) : Nat := s.dev.ddn.getD 0

/-- The LIVE record of a slot. -/
def liveRec (i : Nat) (s : State) : Option KeyRec :=
  let k := slotGet i s
  if k.state = .live then k.entry else none

/-- Modes that have keys: SURVEY ends in one before the restore begins (R254). -/
def keyMode : Mode → Bool
  | .provision | .ceremony | .service | .degraded | .maintain | .join => true
  | _ => false

/-- The restore's first stage is in progress: floors and bitmap are being loaded, which the vault's set of current cartridges serves (R254,
R255, R538). -/
def restoreBegun (s : State) : Bool :=
  !s.keytab.floorsLoaded && s.dev.mainOn && keyMode s.dev.mode && vaultAvailable s && s.vault.vaultKey

/-- A command that needs the restore waits for it; else the set of current cartridges is wanting (R254, R255, R538). -/
def restoreComes (s : State) : Bool := s.keytab.restoring || restoreBegun s

/-- A slot's restore is pending (R254). -/
def restorePending (i : Nat) (s : State) : Bool :=
  !s.keytab.restoreDone && (!s.keytab.floorsLoaded || s.keytab.toRestore.contains i)

/-- The key store has no key because both noise sources are retired (R376). -/
def keyStoreClosed (s : State) : Bool := s.keytab.xtsKey.isEmpty && s.units.sources == 3

/-- The record a pinned or live handle names, LIVE or CULLET. -/
def keyRec (h : BitVec 64) (s : State) : Option KeyRec := (slotGet (hIdx h) s).entry

/-- The record of a handle as a command uses it: as its key checks found it, once they have passed (R247). -/
def Cmd.keyRec (c : Cmd) (h : BitVec 64) (s : State) : Option KeyRec :=
  match assocGet (hIdx h) c.recs with
  | some r => some r
  | none => Machine.keyRec h s

/-- `ALG` of the record a handle names; 0 for none. -/
def Cmd.keyAlg (c : Cmd) (h : BitVec 64) (s : State) : Nat :=
  match c.keyRec h s with
  | some r => r.alg
  | none => 0

/-- Key material of the record a handle names. -/
def Cmd.keyMat (c : Cmd) (h : BitVec 64) (s : State) : List Byte :=
  match c.keyRec h s with
  | some r => r.material
  | none => []

/-- The records of pinned indices (R247). -/
def pinned (ps : List Nat) (s : State) : List (Nat × KeyRec) := ps.filterMap fun i => (liveRec i s).map fun r => (i, r)

/-- The strength order of R262, by `ALG` and key length in bytes. -/
def strength (alg len : Nat) : Nat :=
  if alg = 0x01 then 1
  else if alg = 0x02 ∨ alg = 0x10 ∨ alg = 0x14 then 2
  else if alg = 0x03 ∨ alg = 0x18 ∨ alg = 0x1A ∨ alg = 0x1C ∨ alg = 0x1D then 3
  else if alg = 0x04 ∨ alg = 0x11 ∨ alg = 0x15 then 4
  else if alg = 0x08 then (if len < 24 then 3 else if len < 32 then 4 else 5)
  else 5

/-- `FLAGS` bits of a record (Table 7-3). -/
def KeyRec.persist (r : KeyRec) : Bool := r.flags.getLsbD 0
/-- `DOMAIN`. -/
def KeyRec.domain (r : KeyRec) : Bool := r.flags.getLsbD 1
/-- `PRIVATE`. -/
def KeyRec.priv (r : KeyRec) : Bool := r.flags.getLsbD 2
/-- `APPLET_POLICY`. -/
def KeyRec.appletPolicy (r : KeyRec) : Bool := r.flags.getLsbD 3

/-- The index, state, generation, domain and privacy tests of R235 for furrow `f`. -/
def handleRec (h : BitVec 64) (f cls : Nat) (s : State) : Option KeyRec :=
  let i := hIdx h
  if i = 0 ∨ tableEntries s ≤ i then none
  else if hDdn h ≠ ownDdn s ∧ s.keytab.domainLimit ≤ i then none
  else match liveRec i s with
    | none => none
    | some r =>
      if (slotGet i s).gen ≠ hGen h then none
      else if r.domain && r.homeDdn != hDdn h then none
      else if !r.domain && hDdn h != ownDdn s then none
      else if r.priv && r.owner != f && !(f == 0 && cls == 1) then none
      else some r

/-- What a key role asks of its key. -/
structure Role where
  /-- Usage bits, all of which must be set. -/
  usage : BitVec 32
  /-- Admitted `ALG` codes; empty admits every one (R279: another fails the usage check). -/
  algs : List Nat
  /-- Colour that must be in the key's `WRAP_COLOURS`, for a wrapping role whose subject is known (R239 item 2). -/
  wraps : Option Nat
  /-- Colour requested for a key derived from it: must equal `DERIVE_COLOUR` (R239 item 3). -/
  derives : Option Nat
  /-- Only the tests of R611: no colour, usage, expiry or share check. -/
  bare : Bool
  /-- Share cost of the use (R241). -/
  cost : Nat
  deriving DecidableEq, Repr

/-- A role that needs usage bits and an `ALG` among a list, at a cost of one share. -/
def role (usage : BitVec 32) (algs : List Nat) : Role := ⟨usage, algs, none, none, false, 1⟩

/-- The role of R611. -/
def bareRole : Role := ⟨0, [], none, none, true, 0⟩

/-- Answer of a key check. -/
inductive KeyAns where
  | ok | fail (st : Status) | wait | miss (idx : Nat)
  deriving DecidableEq, Repr

/-- The colour check (R239). -/
def colourOk (r : KeyRec) (ro : Role) (colours : BitVec 16) : Bool :=
  colours.getLsbD r.colour && r.colour != 0
    && (match ro.wraps with
        | some c => r.wrapColours.getLsbD c
        | none => true)
    && (match ro.derives with
        | some c => r.deriveColour == c
        | none => true)

/-- Pools and shares reserved so far by this command in `rs`. -/
def mineIn (n : Nat) (rs : List (Nat × Nat × Nat)) : Nat := ((rs.filter fun r => r.1 == n).map (·.2.1)).sum

/-- A key whose applet policy names another applet than the one whose `CALL` uses it (R466). -/
def calledOther (c : Cmd) (r : KeyRec) : Bool := match c.svc with
  | some (_, a) => r.appletPolicy && r.applet != a
  | none => false

/-- One key check of step 8 (R235) for command `c`, whose reservations so far are `rs`. -/
def keyCheck (c : Cmd) (h : BitVec 64) (ro : Role) (rs : List (Nat × Nat × Nat)) (s : State) : KeyAns :=
  let i := hIdx h
  let inRange := decide (i ≠ 0 ∧ i < tableEntries s) && (hDdn h == ownDdn s || decide (i < s.keytab.domainLimit))
  if inRange && restorePending i s then (if restoreComes s then .wait else .fail .modeForbids)
  else if inRange && (slotGet i s).reloading then .wait
  else match handleRec h c.furrow c.cls s with
    | none => .fail .keyHandleStale
    | some r =>
      if !(slotGet i s).cached then .miss i
      else if ro.bare then (if r.owner = c.furrow ∨ c.furrow = 0 then .ok else .fail .keyHandleStale)
      else if !colourOk r ro c.colours then .fail .keyColourMismatch
      else if r.usage &&& ro.usage != ro.usage || !(ro.algs.isEmpty || ro.algs.contains r.alg) || calledOther c r then .fail .keyUsageDenied
      else if r.expiry ≠ 0 ∧ r.expiry ≤ s.backup.rtcSec then .fail .keyExpired
      else if r.pool ≠ 0 ∧ ro.cost ≠ 0 then
        match shareCheck c.id r.pool (mineIn r.pool rs) ro.cost s with
        | .exhausted => .fail .sharesExhausted
        | .wait => .wait
        | .ok => .ok
      else .ok

/-- The reservation a passed check makes. -/
def keyResv (h : BitVec 64) (ro : Role) (s : State) : List (Nat × Nat × Nat) :=
  match liveRec (hIdx h) s with
  | some r => if r.pool ≠ 0 ∧ ro.cost ≠ 0 ∧ !ro.bare then [(r.pool, ro.cost, hIdx h)] else []
  | none => []

/-- Answer of the checks of every key of a command. A check that has passed has reserved its shares, also while a later one waits
(R282). -/
inductive KeysAns where
  | ok (pins : List Nat) (resv : List (Nat × Nat × Nat))
  | fail (st : Status)
  | wait (resv : List (Nat × Nat × Nat))
  | miss (idx : Nat) (resv : List (Nat × Nat × Nat))
  deriving DecidableEq, Repr

/-- Step 8 over a command's keys in order (R235). -/
def keyChecks (c : Cmd) : List (BitVec 64 × Role) → List Nat → List (Nat × Nat × Nat) → State → KeysAns
  | [], ps, rs, _ => .ok ps rs
  | (h, ro) :: rest, ps, rs, s =>
    match keyCheck c h ro rs s with
    | .fail st => .fail st
    | .wait => .wait rs
    | .miss i => .miss i rs
    | .ok => keyChecks c rest (ps ++ [hIdx h]) (rs ++ keyResv h ro s) s

/-- A handle carries an applet policy for R20. -/
def carriesPolicy (h : BitVec 64) (f cls : Nat) (s : State) : Bool :=
  h != 0 && (match handleRec h f cls s with
    | some r => r.appletPolicy
    | none => false)

/-- The route waits for a handle's restore (R20). -/
def routeWaits (h : BitVec 64) (s : State) : Bool :=
  h != 0 && decide (hIdx h ≠ 0 ∧ hIdx h < tableEntries s) && restorePending (hIdx h) s

/-- Commands that pin a record (R247). -/
def pinCount (i : Nat) (s : State) : Nat := (s.cmdif.cmds.filter fun c => c.pins.contains i).length

/-- Records a furrow owns (R191, R199), slots allocated for it and not yet committed among them (R249). -/
def keysOwned (f : Nat) (s : State) : Nat :=
  (s.keytab.slots.filter fun p => p.2.state == .live && (match p.2.entry with
    | some r => r.owner == f
    | none => false)).length
  + ((s.cmdif.cmds.map fun c => (c.alloc.filter fun a => a.owner == f).length)).sum

/-- A record leaves LIVE: its generation advances and it is cullet, or SPENT at the last generation (R242, R244, R251). -/
def cullet (i : Nat) (s : State) : State :=
  let k := slotGet i s
  if k.state = .live then slotSet i { k with state := .cullet, gen := k.gen + 1 } s else s

/-! ### Free lists and granules (R249, R250, R252): ranges of a first number and a count -/

/-- Take one number out of a list of ranges. -/
def rangesTake (i : Nat) : List (Nat × Nat) → List (Nat × Nat)
  | [] => []
  | (a, n) :: rest =>
    if a ≤ i ∧ i < a + n then
      (if a < i then [(a, i - a)] else []) ++ (if i + 1 < a + n then [(i + 1, a + n - i - 1)] else []) ++ rest
    else (a, n) :: rangesTake i rest

/-- A number lies in a list of ranges. -/
def rangesHas (i : Nat) (rs : List (Nat × Nat)) : Bool := rs.any fun r => decide (r.1 ≤ i ∧ i < r.1 + r.2)

/-- Numbers in a list of ranges. -/
def rangesCount (rs : List (Nat × Nat)) : Nat := (rs.map (·.2)).sum

/-- Give a run back to a rising list of free ranges, joined to its neighbours. -/
def rangesGive (a n : Nat) : List (Nat × Nat) → List (Nat × Nat)
  | [] => [(a, n)]
  | (b, m) :: rest =>
    if a + n < b then (a, n) :: (b, m) :: rest
    else if a + n = b then (a, n + m) :: rest
    else if b + m = a then (match rest with
      | (c, k) :: rest' => if a + n = c then (b, m + n + k) :: rest' else (b, m + n) :: rest
      | [] => [(b, m + n)])
    else (b, m) :: rangesGive a n rest

/-- Take a run of `n` from the front of the first range that holds it: the lowest run that fits (DESIGN CHOICE, log 35). -/
def rangesRun (n : Nat) : List (Nat × Nat) → Option (Nat × List (Nat × Nat))
  | [] => none
  | (a, m) :: rest =>
    if n = m then some (a, rest)
    else if n < m then some (a, (a + n, m - n) :: rest)
    else (rangesRun n rest).map fun x => (x.1, (a, m) :: x.2)

/-- First index of this device's part of the domain range, and its length (R430). -/
def domainPart (s : State) : Nat × Nat :=
  let w := regGet 0x9008 s
  let part := 2 ^ (fieldOf w 12 8 - fieldOf w 3 0)
  (ownDdn s * part, part)

/-- The free list of a range of R237. -/
def freeList (dom : Bool) (s : State) : List (Nat × Nat) := if dom then s.keytab.freeDomain else s.keytab.freeLocal

/-- Replace the free list of a range. -/
def setFreeList (dom : Bool) (rs : List (Nat × Nat)) (s : State) : State :=
  s.modKeys fun t => if dom then { t with freeDomain := rs } else { t with freeLocal := rs }

/-- An index lies in the domain range. -/
def isDomainIdx (i : Nat) (s : State) : Bool := decide (i < s.keytab.domainLimit)

/-- Granules a key takes by `ALG` and length (Table 7-4). -/
def granulesOf (alg len : Nat) : Nat :=
  if alg = 0x08 then (if 32 < len then 1 else 0)
  else if [0x10, 0x14, 0x15, 0x16, 0x19, 0x1B].contains alg then 1
  else if [0x11, 0x12, 0x22, 0x23, 0x26].contains alg then 2
  else if [0x20, 0x27].contains alg then 3
  else if [0x21, 0x24].contains alg then 4
  else if alg = 0x25 then 5
  else 0

/-- A cullet slot stands in an index range: allocation may wait for its scrub (R253). -/
def culletIn (dom : Bool) (s : State) : Bool :=
  s.keytab.slots.any fun p => p.2.state == .cullet && isDomainIdx p.1 s == dom

/-- The first slot of a free list whose generation is below its floor. -/
def issuable (dom : Bool) (s : State) : Option Nat :=
  let ok := s.keytab.slots.filter fun p => p.2.state == .free && decide (p.2.gen < p.2.floor)
  (freeList dom s).findSome? fun r => (ok.find? fun p => decide (r.1 ≤ p.1 ∧ p.1 < r.1 + r.2)).map (·.1)

/-- The vault can accept a synchronous write: a current cartridge holds it and the journal buffer has room (R243, R535). -/
def vaultAccepts (s : State) : Bool := vaultWritable s && decide (bufferUsed s + s.vault.reserved + 64 ≤ 2 ^ 26)

/-- Answer of one allocation. -/
inductive AllocAns where
  /-- The slot is taken and can issue. -/
  | ok (a : SlotAlloc) (s : State)
  /-- The slot is taken; its new floor is being written in this segment. -/
  | floor (a : SlotAlloc) (seg : Nat) (s : State)
  | wait
  | fail (st : Status)

/-- Allocate a slot and `n` granules for a furrow whose quota is `quota`, in one step (R199, R243, R249, R250, R253). -/
def allocate (dom : Bool) (owner quota n : Nat) (s : State) : AllocAns :=
  if !s.keytab.floorsLoaded then (if restoreComes s then .wait else .fail .modeForbids)
  else if quota ≤ keysOwned owner s then .fail .quotaExceeded
  else match (if n = 0 then some (0, []) else rangesRun n s.keytab.granFree) with
    | none => .fail .quotaExceeded
    | some (g, gs) =>
      let take := fun (i : Nat) => (setFreeList dom (rangesTake i (freeList dom s)) s).modKeys fun t =>
        if n = 0 then t else { t with granFree := gs }
      let al := fun (i : Nat) => SlotAlloc.mk i owner (if n = 0 then 0 else g) n
      match freeList dom s with
      | [] => if culletIn dom s then .wait else .fail .quotaExceeded
      | (i, _) :: _ =>
        let k := slotGet i s
        if k.gen < k.floor then .ok (al i) (take i)
        else if vaultAccepts s then
          let (seg, s') := archiveSync .archive (.floor i (k.floor + 256)) (take i)
          .floor (al i) seg s'
        else match issuable dom s with
          | some j => .ok (al j) (take j)
          | none => .fail .modeForbids

/-- Give an allocation up: the slot returns to the head of its free list, the granules to the pool (R249). -/
def giveBack (a : SlotAlloc) (s : State) : State :=
  let dom := isDomainIdx a.idx s
  let s := setFreeList dom ((a.idx, 1) :: freeList dom s) s
  if a.count = 0 then s else s.modKeys fun t => { t with granFree := rangesGive a.gran a.count t.granFree }

/-- The new floor of an allocated slot is durable (R243). -/
def raiseFloor (i : Nat) (s : State) : State :=
  let k := slotGet i s
  if k.gen < k.floor then s else slotSet i { k with floor := k.floor + 256 } s

/-! ### The key cache (R245, R248) -/

/-- The set of an index, of 16,384. -/
def cacheSet (i : Nat) (s : State) : Nat := Config.cacheHash s.keytab.hashKey i % 16384

/-- Cached records. -/
def cachedList (s : State) : List Nat := (s.keytab.slots.filter fun p => p.2.cached).map (·.1)

/-- Other cached records of the set of an index. -/
def setMates (i : Nat) (s : State) : List Nat := (cachedList s).filter fun j => j != i && cacheSet j s == cacheSet i s

/-- Put a record into the key cache: into a free way of the 16 of its set, else in place of an entry that no command pins, a free
choice (log 128); none when every way is pinned. -/
def cacheIn (i : Nat) (s : State) : Option State :=
  let enter := fun (s : State) => slotSet i { slotGet i s with cached := true } s
  if (cachedList s).length < 16 then some (enter s)
  else if (setMates i s).length < 16 then some (enter s)
  else
    let vs := (setMates i s).filter fun j => pinCount j s == 0
    if vs.isEmpty then none
    else
      let (n, s) := drawNat s
      let j := vs.getD (n % vs.length) 0
      some (enter (slotSet j { slotGet j s with cached := false } s))

/-- A record is written into the key store and the key cache in one step (R246), its inline material split afresh (R233). With every way of
its set pinned it stands in the key store alone (DESIGN CHOICE, log 128). -/
def storeRec (i gen : Nat) (r : KeyRec) (s : State) : State :=
  let (m, s) := drawBytes 32 s
  let s := slotSet i { slotGet i s with state := .live, gen := gen, entry := some r, cached := false, reloading := false, split := m } s
  (cacheIn i s).getD s

/-- A record enters its slot, in the key store and the key cache in one step (R246), and the archive where it is persistent. -/
def commitKey (a : SlotAlloc) (r : KeyRec) (s : State) : State :=
  let g := (slotGet a.idx s).gen
  let r := { r with extCount := a.count, extFirst := a.gran }
  let s := storeRec a.idx g r s
  if r.persist then archive (.put a.idx g r) s else s

end Sys2Proof.Machine
end

