-- ==== Sys2Proof/Machine/Applets.lean ====
section
/-! DEFINITION. The Warden cores as firmware and commands use them (chapter 13): registers, applet images and frames, entry to an
applet, return from a service. -/
namespace Sys2Proof.Machine

/-! ### Cores -/

/-- One core. -/
def coreGet (n : Nat) (s : State) : Core :=
  if n = 0 then s.warden.c0 else if n = 1 then s.warden.c1 else if n = 2 then s.warden.c2 else s.warden.c3

/-- Update one core. -/
def coreMod (n : Nat) (f : Core → Core) (s : State) : State :=
  s.modWarden fun w =>
    if n = 0 then { w with c0 := f w.c0 } else if n = 1 then { w with c1 := f w.c1 }
    else if n = 2 then { w with c2 := f w.c2 } else { w with c3 := f w.c3 }

/-- A general register; w0 reads 0 (R436). -/
def Core.reg (k : Core) (i : BitVec 4) : Word := if i = 0 then 0 else k.regs.getD i.toNat 0

/-- Write a general register; a write to w0 is discarded (R436). -/
def Core.setReg (k : Core) (i : BitVec 4) (v : Word) : Core := if i = 0 then k else { k with regs := k.regs.set i.toNat v }

/-- `STATUS.PL`. -/
def Core.level (k : Core) : Nat := fieldOf k.status 1 0

/-- `STATUS.PPL`. -/
def Core.prevLevel (k : Core) : Nat := fieldOf k.status 3 2

/-- `STATUS.GM`. -/
def Core.masked (k : Core) : Bool := k.status.getLsbD 5

/-- `STATUS` with another level, previous level and mask. -/
def statusOf (gm : Bool) (ppl pl : Nat) : Word := wbit gm 5 ||| wfield (ppl % 4) 2 ||| wfield (pl % 4) 0

/-- A core is in service: not retired and released (R437, R468). -/
def coreServes (n : Nat) (s : State) : Bool := decide (n < 4) && !s.units.cores.getLsbD n && !(coreGet n s).held

/-- Cores in service (Table 13-16). -/
def coresUp (s : State) : Nat := ((List.range 4).filter fun n => !s.units.cores.getLsbD n).length

/-- `IPEND`: the timer's bit is pending while the tick count has reached the match. -/
def ipendOf (k : Core) (tick : BitVec 64) : BitVec 16 := k.ipend ||| (if k.tmatch ≤ tick then 1 else 0)

/-- Some interrupt enabled in `IEN` is pending (R444). -/
def enabledPending (k : Core) (tick : BitVec 64) : Bool := decide (ipendOf k tick &&& k.ien ≠ 0)

/-- The core stands in `wait` (Table 13-14). -/
def coreWaits (n : Nat) (s : State) : Bool := (coreGet n s).waiting && !enabledPending (coreGet n s) s.warden.tick

/-- The core firmware gives an invocation: the lowest-numbered one in service that runs none (log 40). -/
def freeCore (s : State) : Option Nat := (List.range 4).find? fun n => coreServes n s && (coreGet n s).inv.isNone

/-! ### Applet packages and layout (Table 13-8, R455) -/

/-- A little-endian field of a package's header. -/
def Applet.hdr (a : Applet) (off k : Nat) : Nat := natAt a.pkg off k
/-- `VERSION`. -/
def Applet.version (a : Applet) : Nat := a.hdr 8 4
/-- `CODE_LEN`. -/
def Applet.codeLen (a : Applet) : Nat := a.hdr 12 4
/-- `DATA_LEN`. -/
def Applet.dataLen (a : Applet) : Nat := a.hdr 16 4
/-- `BSS_LEN`. -/
def Applet.bssLen (a : Applet) : Nat := a.hdr 20 4
/-- `STACK_LEN`. -/
def Applet.stackLen (a : Applet) : Nat := a.hdr 24 4
/-- `ENTRY_INVOKE` or `ENTRY_HOOK`; none for 0xFFFF_FFFF. -/
def Applet.entry (a : Applet) (hook : Bool) : Option Nat :=
  let e := a.hdr (if hook then 32 else 28) 4
  if e = 0xFFFFFFFF then none else some e
/-- `COLOUR_SET`. -/
def Applet.colours (a : Applet) : BitVec 16 := BitVec.ofNat 16 (a.hdr 36 2)
/-- Largest input, in bytes. -/
def Applet.inMax (a : Applet) : Nat := 16 * a.hdr 40 2
/-- Largest output, in bytes. -/
def Applet.outMax (a : Applet) : Nat := 16 * a.hdr 42 2
/-- Budget in A-level instructions. -/
def Applet.budget (a : Applet) (hook : Bool) : Nat := 1024 * a.hdr (if hook then 46 else 44) 2
/-- The code. -/
def Applet.code (a : Applet) : List Byte := bytesAt a.pkg 64 a.codeLen
/-- The initialised data. -/
def Applet.data (a : Applet) : List Byte := bytesAt a.pkg (64 + a.codeLen) a.dataLen

/-- Rounded up to a line. -/
def up64 (n : Nat) : Nat := (n + 63) / 64 * 64

/-- Offset of the stack in a frame. -/
def Applet.stackOff (a : Applet) : Nat := up64 a.dataLen + up64 a.bssLen
/-- Offset of the invocation block. -/
def Applet.blockOff (a : Applet) : Nat := a.stackOff + up64 a.stackLen
/-- Offset of the input buffer. -/
def Applet.inOff (a : Applet) : Nat := a.blockOff + 128
/-- Offset of the output buffer. -/
def Applet.outOff (a : Applet) : Nat := a.inOff + up64 a.inMax
/-- Length of one frame: data, BSS, stack, invocation block, input and output buffers, each 64-byte aligned (R455). -/
def Applet.frameLen (a : Applet) : Nat := a.outOff + up64 a.outMax
/-- Length of the code image with the line of the exit stub (log 42). -/
def Applet.imageLen (a : Applet) : Nat := up64 a.codeLen + 64
/-- Bytes of the applet half an applet takes: its code image and four frames (R459). -/
def Applet.size (a : Applet) : Nat := a.imageLen + 4 * a.frameLen
/-- The frame of a core. -/
def Applet.frame (a : Applet) (n : Nat) : Nat := a.base + a.imageLen + n * a.frameLen

/-- Applets installed now. -/
def appletsNow (s : State) : List Applet := s.warden.applets.filter fun a => a.ended.isNone

/-- The applet of a number as a command dispatched when the next tally was `t` runs it (R459). -/
def appletAt (num t : Nat) (s : State) : Option Applet :=
  s.warden.applets.find? fun a => a.num == num && decide (a.since ≤ t) && (match a.ended with
    | some e => decide (t < e)
    | none => true)

/-- An address runs free of every installed image for `n` bytes. -/
def placeFree (a n : Nat) (s : State) : Bool :=
  decide (0x10100000 ≤ a ∧ a + n ≤ 0x10200000) && s.warden.applets.all fun x => decide (a + n ≤ x.base ∨ x.base + x.size ≤ a)

/-- The lowest place in the applet half for `n` bytes (log 42). -/
def placeFor (n : Nat) (s : State) : Option Nat :=
  ((0x10100000 :: s.warden.applets.map fun x => x.base + x.size).filter fun a => placeFree a n s).foldl
    (fun m a => match m with
      | none => some a
      | some b => some (min a b)) none

/-- Drop images that no command dispatched before their end still runs (R459). -/
def pruneApplets (s : State) : State :=
  s.modWarden fun w => { w with applets := w.applets.filter fun a => match a.ended with
    | none => true
    | some e => s.cmdif.cmds.any fun c => decide (c.phase ≠ .fetched ∧ c.phase ≠ .arrived ∧ c.dispTally < e) }

/-! ### Entry (R455, R456, R461, R463) -/

/-- The invocation block (Table 13-10). -/
def invBlock (c : Cmd) (a : Applet) (f inLen cap : Nat) : List Byte :=
  le 2 c.opcode.toNat ++ le 1 c.flags.toNat ++ le 1 c.form.toNat ++ le 2 c.furrow ++ le 2 a.num ++ le 8 c.keyA.toNat
    ++ le 8 c.keyB.toNat ++ le 4 inLen ++ le 4 (f + a.inOff) ++ le 4 cap ++ le 4 (f + a.outOff) ++ bytesAt c.inl 0 16
    ++ le 4 c.srcLen ++ le 4 c.dstLen ++ le 6 c.dispRtc ++ le 2 0

/-- Region numbers that firmware gives an applet: the first three that are not locked. -/
def grantRegions (k : Core) : List Nat :=
  ((List.range 16).filter fun i => match k.mpu[i]? with
    | some r => !r.attr.getLsbD 31
    | none => false).take 3

/-- The MPU while an applet runs: its invocation block A_R, its frame A_R and A_W, its code A_R and A_X, each with `CEN` 1 and
`COLOUR` 0, and no other A-level grant (R456, R492). -/
def grantMpu (k : Core) (block frame frameLen code codeLen : Nat) : Core :=
  let region := fun (b n at' : Nat) => Region.mk (BitVec.ofNat 32 (b / 64 * 64)) (BitVec.ofNat 32 ((b + n - 1) / 64 * 64)) (BitVec.ofNat 32 at')
  let new := [region block 72 0x10081, region frame frameLen 0x10083, region code codeLen 0x10085]
  let bare := k.mpu.map fun r => { r with attr := r.attr &&& ~~~(7 : Word) }
  { k with
    mpu := ((grantRegions k).zip new).foldl (fun m x => m.set x.1 x.2) bare
    mpuctl := k.mpuctl ||| 1 }

/-- Free values for the registers that the entry does not give (log 40). -/
def freeRegs (n : Nat) (s : State) : List Word × State :=
  ((List.range n).map fun i => BitVec.ofNat 32 (Config.freeNat (s.free + i)), { s with free := s.free + n })

/-- Enter an applet for a command on core `n`, at its invoke entry or its hook. -/
def enterApplet (n : Nat) (c : Cmd) (a : Applet) (hook : Bool) (entry : Nat) (s : State) : State :=
  let f := a.frame n
  let input := if hook then c.data.take (min 4096 a.inMax) else c.data
  let cap := if hook then 0 else min c.dstLen a.outMax
  let s := s.modWarden fun w => { w with
    sram := cellsWrite 0 (f + a.inOff) input (cellsWrite 0 (f + a.blockOff) (invBlock c a f input.length cap)
      (cellsWrite 0 f a.data (cellsClear f a.frameLen w.sram)))
    tags := w.tags.filter fun t => !decide (f / 64 ≤ t.1 ∧ t.1 < (f + a.frameLen) / 64) }
  let (rs, s) := freeRegs 12 s
  let s := coreMod n (fun k =>
    let k := grantMpu k (f + a.blockOff) f a.frameLen a.base a.imageLen
    { k with
      regs := [0, BitVec.ofNat 32 (f + a.blockOff)] ++ rs ++ [BitVec.ofNat 32 (f + a.stackOff + a.stackLen), BitVec.ofNat 32 (a.base + up64 a.codeLen)]
      pc := BitVec.ofNat 32 (a.base + entry)
      slot := none
      status := k.status &&& 0xC
      lc := 0
      waiting := false
      inv := some ⟨c.id, a.num, hook, a.budget hook, false, cap, f, a.frameLen, f + a.outOff, a.colours, none, none⟩ }) s
  bump (if hook then 0xA110 else 0xA10C) 1 s

/-! ### Service returns (R465) -/

/-- Return from a service: the `STATUS` in w1, results in w2 to w4, and the return that `xret` makes (R479). -/
def svcReturn (n : Nat) (st : Status) (w2 w3 w4 : Option Word) (s : State) : State :=
  let put := fun (i : BitVec 4) (v : Option Word) (k : Core) => match v with
    | some x => k.setReg i x
    | none => k
  coreMod n (fun k =>
    let k := put 4 w4 (put 3 w3 (put 2 w2 (k.setReg 1 (BitVec.ofNat 32 st.code))))
    { k with
      status := statusOf (k.epc.getLsbD 0) k.prevLevel k.prevLevel
      lc := k.slc, ls := k.sls, le := k.sle
      pc := k.epc &&& 0xFFFFFFFC }) s

/-- Note that a `CALL` of the invocation has debited a metered key (Table 13-11), and that the call is over. -/
def callOver (n : Nat) (debited : Bool) (s : State) : State :=
  coreMod n (fun k => { k with inv := k.inv.map fun i => { i with debited := i.debited || debited, call := none } }) s

end Sys2Proof.Machine
end

