-- ==== Sys2Proof/Machine/Cmds.lean ====
section
/-! DEFINITION. The end of a command (chapters 05 and 06): completion, the dirty log, shares, rollup and audit. -/
namespace Sys2Proof.Machine

/-! ### Finding and storing -/

/-- An SQ. -/
def sqGet (f n : Nat) (s : State) : Option Sq := s.cmdif.sqs.find? fun q => q.furrow == f && q.n == n
/-- A CQ. -/
def cqGet (f n : Nat) (s : State) : Option Cq := s.cmdif.cqs.find? fun q => q.furrow == f && q.n == n
/-- Update an SQ. -/
def modSq (f n : Nat) (g : Sq → Sq) (s : State) : State :=
  s.modCmdif fun c => { c with sqs := updFirst (fun q => q.furrow == f && q.n == n) g c.sqs }
/-- Update a CQ. -/
def modCq (f n : Nat) (g : Cq → Cq) (s : State) : State :=
  s.modCmdif fun c => { c with cqs := updFirst (fun q => q.furrow == f && q.n == n) g c.cqs }
/-- A fetched command. -/
def cmdGet (id : Nat) (s : State) : Option Cmd := s.cmdif.cmds.find? fun c => c.id == id
/-- Store a fetched command. -/
def cmdPut (c : Cmd) (s : State) : State :=
  s.modCmdif fun i => { i with cmds := updFirst (fun d => d.id == c.id) (fun _ => c) i.cmds }
/-- Drop a command. -/
def cmdDrop (id : Nat) (s : State) : State :=
  s.modCmdif fun i => { i with cmds := i.cmds.filter fun d => d.id != id }
/-- Commands of one SQ in flight; one that an applet's `CALL` runs was fetched from none. -/
def sqCmds (f n : Nat) (s : State) : List Cmd := s.cmdif.cmds.filter fun c => c.furrow == f && c.sq == n && c.svc.isNone
/-- A furrow that is not FREE. -/
def furrowGet (f : Nat) (s : State) : Option Furrow := assocGet f s.furrows
/-- Store a furrow; `none` makes it FREE. -/
def furrowSet (f : Nat) (v : Option Furrow) (s : State) : State := { s with furrows := assocSet f v s.furrows }
/-- Update a furrow. -/
def modFurrow (f : Nat) (g : Furrow → Furrow) (s : State) : State :=
  match furrowGet f s with
  | some x => furrowSet f (some (g x)) s
  | none => s
/-- State of a furrow (Table 6-3). -/
def furrowState (f : Nat) (s : State) : FState :=
  match furrowGet f s with
  | some x => x.state
  | none => .free
/-- Process tag of a furrow; furrow 0's is `FURROW_MGR_CFG.PTAG` (R192). -/
def furrowPtag (f : Nat) (s : State) : BitVec 20 :=
  if f = 0 then BitVec.ofNat 20 (regGet 0x3000 s).toNat
  else match furrowGet f s with
    | some x => x.ptag
    | none => 0
/-- Ring slots of a CQ neither written and unread nor reserved (`CQ_FREE`). -/
def Cq.free (q : Cq) : Nat := 2 ^ q.sizeLog2 - q.unread - q.reserved
/-- Home port of a command's CQ. -/
def homeOf (f cq : Nat) (s : State) : Port :=
  match cqGet f cq s with
  | some q => q.home
  | none => .a

/-! ### Writes that serve a furrow, and the dirty log (R194, R215 to R217) -/

/-- Pages that `len` bytes at `addr` touch. -/
def pagesOf (addr len : Nat) : List Nat :=
  if len = 0 then [] else (List.range ((addr + len - 1) / 4096 - addr / 4096 + 1)).map (· + addr / 4096)

/-- Update the dirty log of a furrow. -/
def modLog (f : Nat) (g : DirtyLog → DirtyLog) (s : State) : State := modFurrow f (fun x => { x with log := x.log.map g }) s

/-- Mark page `p` of the range in a word whose value is known: it is written back with the bit set, or found set (R216). -/
def markKnown (port : Port) (f p v : Nat) (l : DirtyLog) (s : State) : State :=
  if v.testBit (p % 64) then bump64 0x3108 1 s
  else
    let v := v + 2 ^ (p % 64)
    bump64 0x3100 1 (pushMwr port
      ⟨.mark, l.bitmap + 8 * (p / 64), le 8 v, some (furrowPtag 0 s), s.dev.nextTally, some f, 0⟩
      (modLog f (fun l => { l with words := assocSet (p / 64) (some v) l.words }) s))

/-- Mark one 4 KiB page (given by its page number in the address space) in a furrow's bitmap (R215, R216): a word whose value is not
known is read first, with furrow 0's process tag (R194). -/
def markPage (port : Port) (f pg : Nat) (s : State) : State :=
  match furrowGet f s with
  | none => s
  | some x => match x.log with
    | none => s
    | some l =>
      if pg * 4096 < l.base ∨ l.base + 4096 * l.pages ≤ pg * 4096 then
        let s := modFurrow f (fun x => { x with log := some { l with outside := l.outside + 1 } }) s
        raiseErr 0x3010 0x3014 0x3003 0 (wfield f 8) s
      else
        let p := pg - l.base / 4096
        match assocGet (p / 64) l.words with
        | some v => markKnown port f p v l s
        | none =>
          let due := l.toMark.any fun q => q.2 / 64 == p / 64
          let s := modLog f (fun l => { l with toMark := l.toMark ++ [(port, p)] }) s
          if due then s else pushMrd port (.bitmap f (p / 64)) (l.bitmap + 8 * (p / 64)) 8 (some (furrowPtag 0 s)) s

/-- Mark every page a write touches while `LOG_ON` is 1 (R215). -/
def markPages (port : Port) (f addr len : Nat) (s : State) : State :=
  match furrowGet f s with
  | none => s
  | some x => if x.logOn then (pagesOf addr len).foldl (fun s p => markPage port f p s) s else s

/-- Send a write of furrow `f`; while a page it has written waits for its bitmap word, the furrow's writes wait behind it (R217). -/
def furrowPush (f : Nat) (port : Port) (w : Mwr) (s : State) : State :=
  match furrowGet f s with
  | none => pushMwr port w s
  | some x => match x.log with
    | none => pushMwr port w s
    | some l => if l.toMark.isEmpty && l.held.isEmpty then pushMwr port w s
      else modLog f (fun l => { l with held := l.held ++ [(port, w)] }) s

/-- With no page left to be marked, the writes that waited are sent. -/
def releaseMarked (f : Nat) (s : State) : State :=
  match furrowGet f s with
  | none => s
  | some x => match x.log with
    | none => s
    | some l => if l.toMark.isEmpty then
        l.held.foldl (fun s w => pushMwr w.1 w.2 s) (modLog f (fun l => { l with held := [] }) s)
      else s

/-- Word `w` of a furrow's bitmap has been read: the pages that waited for it are marked (R216). A fault makes the log incomplete and
raises `LOG_FAULT` (R219, Table 6-10). -/
def bitmapRead (f w : Nat) (ok : Bool) (v : Nat) (s : State) : State :=
  match furrowGet f s with
  | none => s
  | some x => match x.log with
    | none => s
    | some l =>
      let mine := l.toMark.filter fun q => q.2 / 64 == w
      let s := modLog f (fun l => { l with toMark := l.toMark.filter fun q => q.2 / 64 != w }) s
      if ok then
        let s := modLog f (fun l => { l with words := assocSet w (some v) l.words }) s
        releaseMarked f (mine.foldl (fun s q => match (furrowGet f s).bind (·.log) with
          | some l => markKnown q.1 f q.2 ((assocGet w l.words).getD v) l s
          | none => s) s)
      else
        let s := modLog f (fun l => { l with incomplete := true }) s
        releaseMarked f (raiseErr 0x3010 0x3014 0x3003 1 (wfield f 8 ||| wfield 1 0) s)

/-- A write to host memory that serves furrow `f`, its pages marked first (R217). -/
def serveWrite (k : WKind) (f : Nat) (ptag : BitVec 20) (cq : Nat) (addr : Nat) (data : List Byte) (tally : Nat)
    (s : State) : State :=
  let p := homeOf f cq s
  let s := markPages p f addr data.length s
  furrowPush f p ⟨k, addr, data, some ptag, tally, some f, 0⟩ s

/-! ### Completions (R170 to R178) -/

/-- The 32 bytes of a completion entry (Table 5-7). -/
def cplBytes (tag : Word) (st : Status) (phase : Bool) (sq tally len : Nat) (res : List Byte) : List Byte :=
  le 4 tag.toNat ++ le 2 st.code ++ [BitVec.ofNat 8 (bit phase), BitVec.ofNat 8 (sq % 8)] ++ le 8 tally ++ le 4 len
    ++ bytesAt res 0 8 ++ le 4 0

/-- The interrupt write of a CQ (R174), with `PT_VALID` 0 (R132); admin CQ 0 uses its own registers (R187). -/
def cqIrq (f cq : Nat) (s : State) : State :=
  match cqGet f cq s with
  | none => s
  | some q =>
    let s := modCq f cq (fun q => { q with unsignalled := 0 }) s
    if f = 0 ∧ cq = 0 then
      let a := reg64 0x2024 s
      if a = 0 then s
      else pushMwr q.home ⟨.irq, a, le 4 (regGet 0x202C s).toNat, none, s.dev.nextTally, some 0, 0⟩ s
    else furrowPush f q.home ⟨.irq, q.irqAddr, le 4 q.irqData.toNat, none, s.dev.nextTally, some f, 0⟩ s

/-- After a completion: the interrupt write by the `IRQ` flag or by count (R174, R187). -/
def irqAfter (f cq : Nat) (flag : Bool) (s : State) : State :=
  if f = 0 ∧ cq = 0 then (if flag then cqIrq f cq s else s)
  else match cqGet f cq s with
    | none => s
    | some q =>
      if q.irqEn && (flag || (q.coalCount != 0 && q.coalCount ≤ q.unsignalled)) then cqIrq f cq s else s

/-- Write one completion entry into the reserved slot of a CQ, with a fresh tally (R39, R171, R172, R176). -/
def writeCpl (f sq cq : Nat) (ptag : BitVec 20) (tag : Word) (st : Status) (len : Nat) (res : List Byte) (flag : Bool)
    (s : State) : State :=
  match cqGet f cq s with
  | none => s
  | some q =>
    let (t, s) := issueTally s
    let s := serveWrite .completion f ptag cq (q.base + 32 * q.tail) (cplBytes tag st q.phase sq t len res) t s
    let tail := (q.tail + 1) % 2 ^ q.sizeLog2
    let s := modCq f cq (fun q => { q with
      tail := tail, phase := if tail = 0 then !q.phase else q.phase
      unread := q.unread + 1, reserved := q.reserved - 1, unsignalled := q.unsignalled + 1 }) s
    irqAfter f cq flag (bump64 0x2108 1 s)

/-- What a command ends with. -/
structure Ending where
  status : Status
  /-- `RESULT_LEN`. -/
  len : Nat
  /-- Inline result bytes 20-27. -/
  res : List Byte
  /-- Bytes written at `DST`. -/
  dst : List Byte
  /-- Detail of the individual audit record. -/
  detail : List Byte
  deriving DecidableEq, Repr

/-- An ending by status alone. -/
def Ending.st (st : Status) : Ending := ⟨st, 0, [], [], []⟩
/-- `OK` with an inline result. -/
def Ending.inline (res : List Byte) : Ending := ⟨.ok, 0, res, [], []⟩
/-- `OK` with bytes at `DST`. -/
def Ending.out (dst : List Byte) : Ending := ⟨.ok, dst.length, [], dst, []⟩

/-- A command is audited individually (R182, R290, R334, R355); an opcode that Table 5-11 does not list is not audited. -/
def auditsIndividually (c : Cmd) : Bool :=
  match opInfo c.opcode.toNat with
  | some o => o.audit == .individual || c.auditFull || c.auditedAlso
  | none => false

/-- A key's `VERIFY_FAILED` count in the current rollup, over every furrow that used it (R314). -/
def vfailsOf (h : Nat) (s : State) : Nat := ((s.vault.rollup.filter fun e => e.type == 1 && e.ident == h).map (·.vfails)).sum

/-- FLUME_VFAIL, once for a key in a rollup, when its count has reached `FLUME_VFAIL_LIMIT.LIMIT` (R314). -/
def vfailLimit (h : Nat) (s : State) : State :=
  let lim := fieldOf (regGet 0x6020 s) 23 0
  let n := vfailsOf h s
  if lim = 0 ∨ n < lim ∨ s.vault.rollPosted.contains h then s
  else
    let s := s.modVault fun v => { v with rollPosted := h :: v.rollPosted }
    postEvt .both 0x6004 (BitVec.ofNat 32 n) (BitVec.ofNat 128 h) (raiseErr 0x6010 0x6014 0x6002 3 (wfield 3 0) s)

/-- Shares a command has reserved for one handle's key. -/
def Cmd.sharesFor (c : Cmd) (h : BitVec 64) : Nat := ((c.resv.filter fun r => r.2.2 == hIdx h).map (·.2.1)).sum

/-- The key handles a command names, each once. -/
def Cmd.usedHandles (c : Cmd) : List (BitVec 64) := if c.keyA = c.keyB then c.handles.take 1 else c.handles

/-- Rollup counts of one handle (R312), and FLUME_VFAIL at the limit (R314). -/
def rollHandle (c : Cmd) (st : Status) (h : BitVec 64) (s : State) : State :=
  let vf := bit (decide (st = .verifyFailed))
  let s := rollAdd 1 c.furrow h.toNat 1 vf (c.sharesFor h) s
  if c.cls = 3 ∧ vf = 1 then vfailLimit h.toNat s else s

/-- A completion of severity 8 or 0xC of class 0x2 or 0x3 adds to its furrow's count for the status code (R312, R330). -/
def rollFailed (c : Cmd) (st : Status) (s : State) : State :=
  if c.cls = 2 ∨ c.cls = 3 then rollAdd 3 c.furrow st.code 1 0 0 s else s

/-- Add a completion to the rollup: opcodes marked R add uses at severity 0 and 4, one for each key handle; failures of classes 0x2 and
0x3, undefined opcodes among them, count per furrow and status (R182, R312, R330). -/
def rollup (c : Cmd) (st : Status) (s : State) : State :=
  match opInfo c.opcode.toNat with
  | none => rollFailed c st s
  | some o =>
    if o.audit ≠ .rollup then s
    else if st.debits then
      let s := (c.usedHandles.filter fun h => c.pins.contains (hIdx h)).foldl (fun s h => rollHandle c st h s) s
      if c.tryPool ≠ 0 ∧ st = .verifyFailed then rollAdd 2 c.furrow c.tryPool 1 0 0 s else s
    else rollFailed c st s

/-- The individual audit record of a command (R182, Table 16-9). -/
def auditCmd (c : Cmd) (st : Status) (detail : List Byte) (s : State) : State :=
  let port := bit (decide (homeOf c.furrow c.cq s = .b))
  auditRec 1 c.furrow c.opcode.toNat st.code c.keyA c.keyB c.tag (c.sq % 8 + 8 * port) c.inl detail s

/-- Drop the records a seal no longer needs: a batch wholly fetched and completed with every seal written. -/
def pruneSeals (f n b : Nat) (s : State) : State :=
  match sqGet f n s with
  | none => s
  | some q =>
    let last := match q.batches.find? (fun x => b < x) with
      | some x => x
      | none => q.published
    let busy := (sqCmds f n s).any (fun c => c.batch == b) || decide (q.fetched < last)
      || q.seals.any (fun d => d.batch == b && !d.written)
    if busy then s
    else modSq f n (fun q => { q with
      done := q.done.filter fun d => d.2.1 != b
      seals := q.seals.filter fun d => d.batch != b }) s

/-- Seals of an SQ that are due without a slot: their commands ended before they had their second one. -/
def Sq.bareSeals (q : Sq) : List SealDue := q.seals.filter fun d => !d.written && !d.slot

/-- Give freed CQ slots to seals whose commands have ended, queue by queue (R172, R175). -/
def slotSeals (f cq : Nat) (s : State) : State :=
  (s.cmdif.sqs.filter fun q => q.furrow == f && q.cq == cq).foldl (fun s q => q.bareSeals.foldl (fun s d => match cqGet f cq s with
    | some k => if k.free > 0 then
        modSq f q.n (fun q => { q with seals := updFirst (fun x => x.idx == d.idx) (fun x => { x with slot := true }) q.seals })
          (modCq f cq (fun k => { k with reserved := k.reserved + 1 }) s)
      else s
    | none => s) s) s

/-- Give freed CQ slots to seals that are due and to sealing commands that wait, in order, before any new fetch (R175). -/
def giveSealSlots (f cq : Nat) (s : State) : State :=
  let s := slotSeals f cq s
  (s.cmdif.cmds.filter fun c => c.furrow == f && c.cq == cq && c.phase == .arrived && c.seals && !c.sealSlot).foldl
    (fun s c => match cqGet f cq s with
      | some q => if q.free > 0 then
          cmdPut { c with sealSlot := true } (modCq f cq (fun q => { q with reserved := q.reserved + 1 }) s)
        else s
      | none => s) s

/-- Bytes at `DST`: in host memory, or in the frame of the applet that called (R146, R466). -/
def putDst (c : Cmd) (bs : List Byte) (s : State) : State :=
  if c.svc.isSome then sramWrite c.dst.toNat bs s
  else serveWrite .dst c.furrow c.ptag c.cq c.dst.toNat bs s.dev.nextTally s

/-- In PROVISION, the first key pair generated is the device identity and a generated key is a root key (P1; log 70). The audit key is
formed with the identity. -/
def noteIdentity (c : Cmd) (f : Ending) (s : State) : State :=
  if c.mode ≠ .provision ∨ f.status ≠ .ok then s
  else if c.opcode = 0x4003 ∧ s.dev.identity.isNone then
    (s.modDev fun d => { d with identity := some (f.dst.drop 8) }).modVault fun v => { v with auditKey := true }
  else if c.opcode = 0x1001 then s.modDev fun d => { d with rootKeys := true }
  else s

/-- What a completion does before its entry is written: `DST`, shares, rollup, audit, unused allocations (R25, R146, R182). A command
audited individually that ends before its space is reserved at step 9 gets its record where the journal buffer has room; with none, it
completes without one (DESIGN CHOICE, log 125). -/
def beforeCpl (c : Cmd) (f : Ending) (s : State) : State :=
  let s := if f.dst.isEmpty then s else putDst c f.dst s
  let s := noteIdentity c f s
  let s := settle c f.status s
  let s := rollup c f.status s
  let s := if c.auditResv then s.modVault fun v => { v with reserved := v.reserved - 256 } else s
  let s := if c.auditResv || (auditsIndividually c && bufferRoom s) then auditCmd c f.status f.detail s else s
  c.alloc.foldl (fun s a => giveBack a s) s

/-- The tally that the completion of `c` will carry (R246, R212). -/
def cplTally (c : Cmd) (f : Ending) (s : State) : Nat := (beforeCpl c f s).dev.nextTally

/-- Complete the command of a service `CALL`: its completion entry goes to the frame and the service returns its status (R466).
Its `PHASE` is 0 (log 43). -/
def finishCall (c : Cmd) (n : Nat) (f : Ending) (s : State) : State :=
  let deb := f.status.debits && !c.resv.isEmpty
  let s := cmdDrop c.id (beforeCpl c f s)
  let (t, s) := issueTally s
  match (coreGet n s).inv with
  | none => s
  | some i => match i.call with
    | some (id, area) =>
      if id ≠ c.id then s
      else
        let s := sramWrite area (cplBytes c.tag f.status false c.sq t f.len f.res) s
        svcReturn n f.status none none none (callOver n deb s)
    | none => s

/-- Complete a command (R25, R146, R176, R182): `DST`, shares, rollup, audit, completion entry, credit. -/
def finish (c : Cmd) (f : Ending) (s : State) : State :=
  match c.svc with
  | some (n, _) => finishCall c n f s
  | none =>
  let s := beforeCpl c f s
  let s := cmdDrop c.id s
  let s := writeCpl c.furrow c.sq c.cq c.ptag c.tag f.status f.len f.res c.irq s
  let s := modSq c.furrow c.sq (fun q => { q with
    avail := q.avail + 1
    done := q.done ++ [(c.idx, c.batch, f.status.severity)]
    seals := if c.seals then q.seals ++ [⟨c.idx, c.batch, c.tag, c.irq, false, c.sealSlot⟩] else q.seals }) s
  let s := if c.seals && !c.sealSlot then giveSealSlots c.furrow c.cq s else s
  pruneSeals c.furrow c.sq c.batch s

/-- Complete by status alone. -/
def finishSt (c : Cmd) (st : Status) (s : State) : State := finish c (Ending.st st) s

/-- Complete every fetched command that satisfies a test. -/
def finishAll (p : Cmd → Bool) (st : Status) (s : State) : State :=
  (s.cmdif.cmds.filter p).foldl (fun s c => match cmdGet c.id s with
    | some c => finishSt c st s
    | none => s) s

/-- A command has started (R45). -/
def Cmd.startedP (c : Cmd) : Bool := c.phase == .started

end Sys2Proof.Machine
end

