-- ==== Sys2Proof/Machine/Engines.lean ====
section
/-! DEFINITION. The engines of Table 6-2: their units (R267, R317, R347), the shares by which they serve furrows (R202), and the mask words
that their steps need (R335, R386). -/
namespace Sys2Proof.Machine

/-! ### Units -/

/-- A class whose commands run on a unit: a cipher lane, a Flume unit or a public-key core. -/
def Cmd.needsUnit (c : Cmd) : Bool := c.cls == 2 || c.cls == 3 || c.cls == 4

/-- What the commands of a class hold of their engine. -/
def heldUnits (cls : Nat) (s : State) : List Nat := (s.cmdif.cmds.filter fun c => c.cls == cls).flatMap (·.units)

/-- Chunks and serial commands that a lane holds, two at most (R317). -/
def laneLoad (n : Nat) (s : State) : Nat := ((heldUnits 2 s).filter (· == n)).length

/-- Lanes in service, by number. -/
def laneList (s : State) : List Nat := (List.range 16).filter fun n => !s.units.lanes.getLsbD n

/-- The lane places one command can take (R317, R318): at most eight lanes, idle ones first, one chunk on each before a second. -/
def lanePlaces (s : State) : List Nat :=
  let idle := (laneList s).filter fun n => laneLoad n s == 0
  let half := (laneList s).filter fun n => laneLoad n s == 1
  let ls := (idle ++ half).take 8
  ls ++ ls.filter fun n => laneLoad n s == 0

/-- Flume units in service, by number. -/
def flumeList (s : State) : List Nat := (List.range 64).filter fun n => !s.units.flume.getLsbD n

/-- Public-key cores in service of the kind a command uses (R347): 0 to 31 modular, 32 to 47 lattice. -/
def pkeList (lattice : Bool) (s : State) : List Nat :=
  if lattice then ((List.range 16).filter fun n => !s.units.pkeLat.getLsbD n).map (· + 32)
  else (List.range 32).filter fun n => !s.units.pke.getLsbD n

/-- Units in service that a command could use. -/
def unitList (c : Cmd) (s : State) : List Nat :=
  if c.cls = 2 then laneList s else if c.cls = 3 then flumeList s else pkeList c.need.lattice s

/-- The units a command would get now: places on lanes for its chunks, or the first idle unit or core (R268, R317, R347). -/
def pickUnits (c : Cmd) (s : State) : List Nat :=
  if c.cls = 2 then (lanePlaces s).take (max 1 c.need.parts)
  else ((unitList c s).filter fun n => !(heldUnits c.cls s).contains n).take 1

/-- A unit is idle for the command, or it needs none. -/
def unitIdle (c : Cmd) (s : State) : Bool := !c.needsUnit || !(pickUnits c s).isEmpty

/-! ### Engine shares (R202, Table 6-2; log 124) -/

/-- Engines that serve a command (Table 6-2). A command of the service `CALL` runs while its applet holds the core. -/
def Cmd.engines (c : Cmd) : List Engine :=
  let w := if c.svc.isSome then [] else [Engine.warden]
  if c.cls = 2 then .cipher :: (if c.route = .warden then w else [])
  else if c.cls = 3 then .flume :: (if c.route = .warden then w else [])
  else if c.cls = 4 then .pke :: w
  else w

/-- `ENGINE_SHARE` of a furrow for an engine. -/
def shareOf (e : Engine) (f : Nat) (s : State) : Nat :=
  match furrowGet f s with
  | none => 0
  | some x => match e with
    | .cipher => x.shareCipher.toNat
    | .flume => x.shareFlume.toNat
    | .pke => x.sharePke.toNat
    | .warden => x.shareWarden.toNat

/-- Commands of a furrow that an engine has served in the round. -/
def servedOf (e : Engine) (f : Nat) (s : State) : Nat :=
  match s.cmdif.served.find? fun r => r.1 == e && r.2.1 == f with
  | some r => r.2.2
  | none => 0

/-- The furrow has turns left in the round. -/
def turnLeft (f : Nat) (s : State) (e : Engine) : Bool := decide (servedOf e f s < shareOf e f s)

/-- Another furrow has a command that waits for the engine, could start, and has turns left in the round of each of its engines. -/
def others (c : Cmd) (s : State) (e : Engine) : Bool :=
  s.cmdif.cmds.any fun d => d.phase == .admitted && d.furrow != c.furrow && d.engines.contains e
    && d.engines.all (turnLeft d.furrow s) && unitIdle d s

/-- It is the command's furrow's turn on each of its engines; a furrow alone may use all of one. -/
def itsTurn (c : Cmd) (s : State) : Bool := c.engines.all fun e => turnLeft c.furrow s e || !others c s e

/-- Count one command served; with no turn left, a new round begins. -/
def countServed (f : Nat) (s : State) (e : Engine) : State :=
  s.modCmdif fun i => { i with
    served := if turnLeft f s e then (e, f, servedOf e f s + 1) :: i.served.filter fun r => !(r.1 == e && r.2.1 == f)
      else (e, f, 1) :: i.served.filter fun r => r.1 != e }

/-- A command that waits for its engines is handed to them when it is its furrow's turn and a unit is idle; else it waits. A command that
begins to write at `DST` once every chunk is held (R320) has begun when its places hold them all. -/
def startCmd (c : Cmd) (s : State) : State :=
  if itsTurn c s && unitIdle c s then
    let us := if c.needsUnit then pickUnits c s else []
    cmdPut { c with
      phase := .started, units := us, wroteDst := c.wroteDst || (c.need.early && decide (c.need.parts ≤ us.length)) }
      (c.engines.foldl (countServed c.furrow) s)
  else cmdPut { c with phase := .admitted } s

/-! ### Mask words (R269, R335, R336, R349, R386, R387) -/

/-- Words that a mask expander core emits for one seed. -/
def rekeyWords (s : State) : Nat := 2 ^ fieldOf (regGet 0x8008 s) 4 0

/-- Words taken from a core since its seed. -/
def wordsSpent (n : Nat) (s : State) : Nat := (assocGet n s.rng.spent).getD 0

/-- A core holds a seed with words left: its port delivers. -/
def coreLive (n : Nat) (s : State) : Bool := (assocGet n s.rng.seeds).isSome && decide (wordsSpent n s < rekeyWords s)

/-- Opcodes of class 0x4 that handle no secret material (R349). -/
def publicOnly (c : Cmd) : Bool := c.opcode == 0x4002 || c.opcode == 0x4007

/-- The mask ports of the units that a command runs on deliver (Table 11-5). -/
def masksReady (c : Cmd) (s : State) : Bool :=
  if c.cls = 2 then c.units.all fun n => coreLive n s
  else if c.cls = 3 then [16, 17, 18, 19].any fun n => coreLive n s
  else if c.cls = 4 then publicOnly c || [20, 21].any fun n => coreLive n s
  else true

/-- Key of the engine's count of clocks held for masks. -/
def maskStallKey (c : Cmd) : Nat := if c.cls = 2 then 0x5110 else if c.cls = 3 then 0x6110 else 0x7108

/-- A step holds for want of a mask word; the engine clocks it is held are counted (a free number, log 3). -/
def maskStall (c : Cmd) (s : State) : State :=
  let (n, s) := drawNat s
  bump (maskStallKey c) n s

/-- Take `k` words of core `n`; at three quarters of its words it asks for a seed (R387). -/
def takeMasks (n k : Nat) (s : State) : State :=
  let w := wordsSpent n s + k
  { s with rng := { s.rng with
    spent := assocSet n (some w) s.rng.spent
    asks := if 3 * rekeyWords s ≤ 4 * w ∧ !s.rng.asks.contains n then s.rng.asks ++ [n] else s.rng.asks } }

end Sys2Proof.Machine
end

