-- ==== Sys2Proof/Machine/Admit.lean ====
section
/-! DEFINITION. What an opcode declares about itself, and how a dispatched command is admitted, handed to its engines and run (chapters 05
and 06; Table 5-6, steps 7 to 10). -/
namespace Sys2Proof.Machine

/-! ### What an opcode declares about itself -/

/-- Answer of a draw: the command goes on, or it waits or has ended. -/
inductive Draws where
  | ok (c : Cmd) (s : State)
  | stay (s : State)

/-- The checks of an opcode: step 5 lengths, extended block, step 7 parameters, step 8 key roles. -/
structure OpSpec where
  /-- Step 5: the opcode's own limits on `SRC_LEN` and `DST_LEN`. -/
  lens : Cmd → Option Ending
  /-- The extended block the form takes: least and greatest length (R166). -/
  block : Cmd → Option (Nat × Nat)
  /-- Step 7. -/
  params : Cmd → State → Option Status
  /-- Step 7, after the parameter values: lengths that only the parameters settle (R291). -/
  lens7 : Cmd → Option Ending
  /-- Step 8: handles and roles, in order. -/
  keys : Cmd → State → List (BitVec 64 × Role)
  /-- Try pool to reserve after the keys (R283); 0 for none. -/
  tryPool : Cmd → Nat
  /-- Step 8 after the key checks (R612). -/
  after : Cmd → State → Option Ending
  /-- What the command keeps of other state when step 8 has passed (R342). -/
  latch : Cmd → State → Cmd
  /-- What it needs of its engine. -/
  need : Cmd → State → Need
  /-- What it draws before it is handed over (R332). -/
  draw : Cmd → State → Draws

/-- No block, no limits, no keys: key fields must be 0 (step 7). -/
def noKeys : OpSpec where
  lens := fun _ => none
  block := fun _ => none
  params := fun c _ => if c.keyA ≠ 0 ∨ c.keyB ≠ 0 then some .badParam else none
  lens7 := fun _ => none
  keys := fun _ _ => []
  tryPool := fun _ => 0
  after := fun _ _ => none
  latch := fun c _ => c
  need := fun _ _ => oneUnit
  draw := .ok

/-- `DST_LEN` must hold `n` bytes, else `BAD_LENGTH` with the length needed (R169). -/
def needDst (n : Nat) (c : Cmd) : Option Ending := if c.dstLen < n then some ⟨.badLength, n, [], [], []⟩ else none

/-- An extended block of exactly `n` bytes, no keys. -/
def blockOf (n : Nat) : OpSpec := { noKeys with block := fun _ => some (n, n) }

/-! ### Policy hooks (R20, R463, R464) -/

/-- Steps of a command's hooks, in `scratch`: none yet, the hook of `KEY_A`'s applet has allowed, every hook has allowed. -/
def Cmd.hookStep (c : Cmd) : Nat := c.scratch.getD 0 0

/-- The applet number a handle's policy names; 0 for none. -/
def policyApplet (c : Cmd) (h : BitVec 64) (s : State) : Nat :=
  if h = 0 then 0 else match c.keyRec h s with
    | some r => if r.appletPolicy then r.applet else 0
    | none => 0

/-- The applet whose hook runs next, from step `k` on; none when every hook has allowed. -/
def nextHook (c : Cmd) (k : Nat) (s : State) : Option (Nat × Nat) :=
  let a := if c.kslot then 0 else policyApplet c c.keyA s
  let b := policyApplet c c.keyB s
  if k = 0 ∧ a ≠ 0 then some (a, 1)
  else if k ≤ 1 ∧ b ≠ 0 ∧ b ≠ a then some (b, 2)
  else none

/-- The command's hook runs on a core. -/
def hookRuns (id : Nat) (s : State) : Bool := (List.range 4).any fun n => match (coreGet n s).inv with
  | some i => i.hook && i.cmd == id
  | none => false

/-- Start the next hook of a command, skipping applets without a hook entry; it waits for its applet to be loaded (R460) and
for a core. An applet that is not installed once loading is over refuses the key (log 44). -/
def hookFuel : Nat → Nat → State → State
  | 0, _, s => s
  | fuel + 1, id, s =>
    match cmdGet id s with
    | none => s
    | some c =>
      if c.phase ≠ .hook ∨ hookRuns id s then s
      else match nextHook c c.hookStep s with
        | none => cmdPut { c with scratch := [3] } s
        | some (num, k) => match appletAt num c.dispTally s with
          | none => if s.keytab.floorsLoaded then finishSt c .keyUsageDenied s else s
          | some a => match a.entry true with
            | none => hookFuel fuel id (cmdPut { c with scratch := [k] } s)
            | some e => match freeCore s with
              | none => s
              | some n => enterApplet n c a true e s

/-- Start the hook that a command waits for. -/
def startHook (id : Nat) (s : State) : State := hookFuel 3 id s

/-- A core has become free: commands that wait for one start their hooks, oldest first. -/
def pumpHooks (s : State) : State := (s.cmdif.cmds.filter fun c => c.phase == .hook).foldl (fun s c => startHook c.id s) s

/-- A wait on shares or on a read, or a pass. -/
inductive Admit where
  | stay (s : State)
  | go (c : Cmd) (s : State)

/-- Step 9: audit space for a command that is audited individually (R27, R183); then it is admitted. -/
def step9 (o : OpSpec) (c : Cmd) (s : State) : Admit :=
  let aud := auditsIndividually c
  if aud && !auditSpace s then .stay (finishSt c .modeForbids s)
  else
    let s := if aud then s.modVault fun v => { v with reserved := v.reserved + 256 } else s
    let c := { c with phase := .admitted, auditResv := aud, scratch := [], need := o.need c s }
    .go c (cmdPut c s)

/-- Steps 7 to 9 of a command whose reads have arrived; a hooked one runs its hooks before step 9 (R463). -/
def admission (o : OpSpec) (c : Cmd) (s : State) : Admit :=
  match o.params c s, o.lens7 c with
  | some st, _ => .stay (finishSt c st s)
  | none, some f => .stay (finish c f s)
  | none, none =>
    if keyStoreClosed s && !(o.keys c s).isEmpty then .stay (finishSt c .entropyUnavailable s) else
    match keyChecks c (o.keys c s) [] [] s with
    | .fail st => .stay (finishSt c st s)
    | .wait resv => .stay (cmdPut { c with phase := .waitShares, resv := resv } (if c.cls = 3 then bump 0x6118 1 s else s))
    | .miss i resv => .stay (cmdPut { c with resv := resv } (bump64 0x4108 1 (s.modKeys fun t => { t with fills := insertNat i t.fills })))
    | .ok pins resv =>
      let tp := o.tryPool c
      let tryAns := if tp = 0 then ShareCheck.ok else shareCheck c.id tp (mineIn tp resv) 1 s
      match tryAns with
      | .exhausted => .stay (finishSt c .sharesExhausted s)
      | .wait => .stay (cmdPut { c with phase := .waitShares, resv := resv } (if c.cls = 3 then bump 0x6118 1 s else s))
      | .ok =>
        match o.after c s with
        | some f => .stay (finish c f s)
        | none =>
          let c := { o.latch c s with pins := pins, resv := resv, tryPool := tp, recs := pinned pins s }
          let s := if pins.isEmpty then s else bump64 0x4100 pins.length s
          if c.route == .warden && (c.cls == 2 || c.cls == 3) then
            .stay (startHook c.id (cmdPut { c with phase := .hook, scratch := [] } s))
          else step9 o c s

/-- Hand an admitted command to its engines. One that runs on a unit is then in progress, and its row's next step ends it; another runs at
once. With no unit of its kind left in service it ends with `INTERNAL_FAULT` (R344; for Flume and the public-key engine: DESIGN CHOICE,
log 124). -/
def begin (o : OpSpec) (c : Cmd) (body : Cmd → State → State) (s : State) : State :=
  if c.needsUnit && (unitList c s).isEmpty then finishSt c .internalFault s
  else match o.draw c s with
    | .stay s => s
    | .ok c s =>
      let s := startCmd c s
      match cmdGet c.id s with
      | some d => if d.phase = .started ∧ !d.needsUnit then body d s else s
      | none => s

/-- A record the command uses waits for its reload (R227). -/
def keyReloads (c : Cmd) (s : State) : Bool := c.pins.any fun i => (slotGet i s).reloading

/-- The row of an opcode acts on command `id`: it admits a command whose reads have arrived or whose hooks have allowed it, hands an
admitted one to its engines, or continues a started one, which holds while a mask port does not deliver. In any other phase, or for
another opcode, nothing is due. -/
def runOp (o : OpSpec) (code id : Nat) (body : Cmd → State → State) (s : State) : State :=
  match cmdGet id s with
  | none => s
  | some c =>
    if c.opcode.toNat ≠ code then s
    else match c.phase with
      | .ready => match admission o c s with
        | .stay s => s
        | .go c s => begin o c body s
      | .hook =>
        if c.hookStep = 3 then
          match step9 o c s with
          | .stay s => s
          | .go c s => begin o c body s
        else startHook id s
      | .admitted => if keyReloads c s then s else begin o c body s
      | .started => if keyReloads c s then s else if masksReady c s then body c s else maskStall c s
      | _ => s

end Sys2Proof.Machine
end

