-- ==== Sys2Proof/Machine/Ports.lean ====
section
/-! DEFINITION. The host ports (chapter 04): the Headgate, the event-ring registers, training, flits, port loss. -/
namespace Sys2Proof.Machine

/-! ### Headgate (R135 to R140) -/

/-- The owner code of a port. -/
def hgOf : Port → HgOwner
  | .a => .a
  | .b => .b

/-- Code of `OWNER` (Table 4-6). -/
def hgCode : HgOwner → Nat
  | .free => 0
  | .a => 1
  | .b => 2

/-- A port's pending claim. -/
def hgWait (p : Port) (h : Headgate) : Option (BitVec 8) :=
  match p with
  | .a => h.waitA
  | .b => h.waitB

/-- Set or clear a port's pending claim. -/
def hgSetWait (p : Port) (w : Option (BitVec 8)) (h : Headgate) : Headgate :=
  match p with
  | .a => { h with waitA := w }
  | .b => { h with waitB := w }

/-- The HEADGATE_CHANGE data (Table 4-11). -/
def hgChangeData (h : Headgate) : Word :=
  wfield (hgCode h.owner) 4 ||| wfield h.cause.toNat 6 ||| wfield h.gen.toNat 24

/-- Everything a change of owner does in one step (R140). -/
def hgChange (o : HgOwner) (lease : BitVec 8) (cause : BitVec 2) (s : State) : State :=
  let s := s.modHg fun h =>
    let h := { h with gen := h.gen + 1, cause := cause, owner := o, lease := lease }
    match o with
    | .free => h
    | .a => hgSetWait .a none h
    | .b => hgSetWait .b none h
  let s := s.modDev fun d => { d with armed := 0 }
  let (t, s) := issueTally s
  let e : Evt := ⟨0x1001, hgChangeData s.ports.hg, 0, t⟩
  let s := if s.ports.a.up then ringEvt .a e s else s
  if s.ports.b.up then ringEvt .b e s else s

/-- The Headgate leaves its owner: to the waiting other port, else free (R136, R138). -/
def hgRelease (p : Port) (cause : BitVec 2) (s : State) : State :=
  match hgWait (otherPort p) s.ports.hg with
  | some l => hgChange (hgOf (otherPort p)) l cause s
  | none => hgChange .free 0 cause s

/-- HEADGATE_WAIT to the owner's ring (Table 4-11). -/
def hgWaitEvt (owner waiter : Port) (s : State) : State :=
  postEvt (.own owner) 0x1002 (wfield (portNum waiter) 0) 0 s

/-- `CLAIM` from a port (Table 4-7). One that waits already keeps the later `LEASE` (DESIGN CHOICE, log 135). -/
def hgClaim (p : Port) (lease : BitVec 8) (s : State) : State :=
  let h := s.ports.hg
  if h.owner = .free then hgChange (hgOf p) lease 0 s
  else if h.owner = hgOf p then s.modHg fun h => { h with lease := lease }
  else hgWaitEvt (otherPort p) p (s.modHg (hgSetWait p (some lease)))

/-- `RELEASE` from a port (Table 4-7). -/
def hgDoRelease (p : Port) (s : State) : State :=
  if s.ports.hg.owner = hgOf p then hgRelease p 1 s else portErr 2 s

/-- `CANCEL` from a port (Table 4-7). -/
def hgCancel (p : Port) (s : State) : State :=
  match hgWait p s.ports.hg with
  | some _ => s.modHg (hgSetWait p none)
  | none => portErr 2 s

/-- A write of `PORT_HEADGATE` (Table 4-6); Warden cores are ignored (R135). -/
def hgWrite (r : Requester) (v : Word) (s : State) : State :=
  match r with
  | .core _ => s
  | .host p =>
    let cmd := fieldOf v 1 0
    if cmd = 1 then hgClaim p (BitVec.ofNat 8 (fieldOf v 23 16)) s
    else if cmd = 2 then hgDoRelease p s
    else if cmd = 3 then hgCancel p s
    else s

/-- Both ports claim a free Headgate in the same control-bus cycle (R137); otherwise the claims act one after the other. -/
def hgTie (p : Port) (lp lq : BitVec 8) (s : State) : State :=
  let q := otherPort p
  if s.ports.hg.owner = .free then
    let bWins := s.ports.hg.tieNext
    let w : Port := if bWins then .b else .a
    let (lw, ll) := if w = p then (lp, lq) else (lq, lp)
    let s := s.modHg fun h => { h with tieNext := !bWins }
    let s := hgChange (hgOf w) lw 0 s
    hgWaitEvt w (otherPort w) (s.modHg (hgSetWait (otherPort w) (some ll)))
  else hgClaim q lq (hgClaim p lp s)

/-- The value `PORT_HEADGATE` reads (Table 4-6). -/
def hgRead (s : State) : Word :=
  let h := s.ports.hg
  wfield h.gen.toNat 24 ||| wfield h.lease.toNat 16 ||| wbit h.waitB.isSome 11 ||| wbit h.waitA.isSome 10
    ||| wbit h.tieNext 9 ||| wfield h.cause.toNat 6 ||| wfield (hgCode h.owner) 4

/-! ### Event-ring registers (R141) -/

/-- A write of `PORT_x_EVT_CTL` (Table 4-9), already known to come through port `p`. What the ring holds or has dropped stays while `EN`
is 0 (DESIGN CHOICE, log 136). -/
def evtCtlWrite (p : Port) (v : Word) (s : State) : State :=
  let r := (s.port p).ring
  let size := fieldOf v 23 20
  let size := if !r.en && decide (6 ≤ size ∧ size ≤ 15) then size else r.sizeLog2
  let en := v.getLsbD 31
  let s := s.modRing p fun r =>
    if en && !r.en then
      { r with en := true, irqEn := v.getLsbD 30, sizeLog2 := size, head := 0, tail := 0, lost := 0, phase := true }
    else { r with en := en, irqEn := v.getLsbD 30, sizeLog2 := size }
  if en && !r.en then pump p s else s

/-- A write of `PORT_x_EVT_HEAD` (R141), already known to come through port `p`. -/
def evtHeadWrite (p : Port) (v : Word) (s : State) : State :=
  let r := (s.port p).ring
  let n := 2 ^ r.sizeLog2
  let i := fieldOf v 15 0
  if n ≤ i then portErr 5 s
  else if (r.tail + n - r.head) % n < (i + n - r.head) % n then portErr 5 s
  else pump p (s.modRing p fun r => { r with head := i })

/-- A write to an event-ring register at `off` within port `p`'s group (R141). -/
def evtRegWrite (p : Port) (off : Nat) (r : Requester) (v : Word) (s : State) : State :=
  if r = .host p then
    if off = 0x08 then evtCtlWrite p v s
    else if off = 0x0C then evtHeadWrite p v s
    else if off = 0x00 then (if (s.port p).ring.en then s else regSet (evtKey p) (v &&& 0xFFFFFFE0) s)
    else if off = 0x04 then (if (s.port p).ring.en then s else regSet (evtKey p + 4) v s)
    else if off = 0x10 then s
    else regSet (evtKey p + off) v s
  else portErr 1 s

/-- What `PORT_x_EVT_CTL` reads. -/
def evtCtlRead (p : Port) (s : State) : Word :=
  let r := (s.port p).ring
  wbit r.en 31 ||| wbit r.irqEn 30 ||| wfield r.sizeLog2 20 ||| wfield r.lost 0

/-! ### Training and port state (R125 to R127, R131, R150 to R152) -/

/-- Key of `PORT_x_CTL`. -/
def portCtlKey : Port → Nat
  | .a => 0x1020
  | .b => 0x1024

/-- Key of `SURVEY_UCIE_x`. -/
def ucieKey : Port → Nat
  | .a => 0x0270
  | .b => 0x0274

/-- `PORT_x_CTL.DISABLE`. -/
def portDisabled (p : Port) (s : State) : Bool := regBit (portCtlKey p) 30 s

/-- What `PORT_x_LINK` reads (Table 4-15). -/
def linkRead (p : Port) (s : State) : Word :=
  let q := s.port p
  wbit (q.up && !q.training && !q.capWait) 31 ||| wbit q.training 30 ||| wfield q.rate.toNat 27 ||| wbit q.x32 26
    ||| wbit q.lowPower 25 ||| wfield q.repTx.toNat 21 ||| wfield q.repRx.toNat 18 ||| wfield q.retrains 8

/-- LINK_STATE data (Table 4-11). -/
def linkData (p : Port) (s : State) : Word :=
  let q := s.port p
  wfield (portNum p) 0 ||| wbit q.up 1 ||| wfield q.rate.toNat 2 ||| wbit q.x32 5

/-- Survey item 6 of one port is measured in this power-up; with both measured the item is done (R110, R127). -/
def surveyUcie (p : Port) (up : Bool) (s : State) : State :=
  if (s.port p).surveyed then s else
    let q := s.port p
    let v : Word := wbit true 31 ||| wbit up 30 ||| wfield q.rate.toNat 27
      ||| wfield (min 7 (q.repTx.toNat + q.repRx.toNat)) 24 ||| wbit q.x32 23 ||| wfield q.cap.toNat 0
    let s := regSet (ucieKey p) v (s.modPort p fun q => { q with surveyed := true })
    let s := if up then s else regOr 0x0200 (wbit true 22) s
    if (s.port .a).surveyed && (s.port .b).surveyed then regOr 0x0200 (wbit true 6) s else s

/-- Home the queues whose home port is down on `p` (R150). -/
def rehomeTo (p : Port) (s : State) : State :=
  s.modCmdif fun c => { c with cqs := c.cqs.map fun q => if q.home = p then q else { q with home := p } }

/-- A write waiting on a lost port that R150 rewrites: all but event entries and event interrupts. -/
def Mwr.moves (w : Mwr) : Bool := w.kind != .event && w.furrow.isSome

/-- Merge two write lists, each in tally order, into tally order. -/
def mergeMwr : Nat → List Mwr → List Mwr → List Mwr
  | 0, xs, ys => xs ++ ys
  | _, [], ys => ys
  | _, xs, [] => xs
  | n + 1, x :: xs, y :: ys =>
    if x.tally ≤ y.tally then x :: mergeMwr n xs (y :: ys) else y :: mergeMwr n (x :: xs) ys

/-- Rewrite the rewritable writes of a down port through `p`, which is up: behind what `p` has already sent, in their original
order (R150). -/
def moveWrites (p : Port) (s : State) : State :=
  let ws := (s.port (otherPort p)).unflushed
  let s := s.modPort (otherPort p) fun x => { x with unflushed := ws.filter fun w => !w.moves }
  s.modPort p fun x => (ws.filter Mwr.moves).foldl PortSt.write x

/-- Deliver the writes that waited while neither port was up through `p`, the first to come up: its own and the rewritable ones
of the other port, in tally order (R151). -/
def deliverWrites (p : Port) (s : State) : State :=
  let ws := (s.port (otherPort p)).unflushed
  let mv := ws.filter Mwr.moves
  let s := s.modPort (otherPort p) fun x => { x with unflushed := ws.filter fun w => !w.moves }
  s.modPort p fun x =>
    (mergeMwr (mv.length + x.unflushed.length) x.unflushed mv).foldl PortSt.write { x with unflushed := [] }

/-- The reads of a port that has gone down go through `p`: what has not arrived is issued again (R150). -/
def moveReads (p : Port) (s : State) : State :=
  issueReads p (s.modPorts fun x => { x with
    reads := x.reads.map fun m => if m.port = p then m else
      { m with port := p, pieces := m.pieces.map fun y => { y with tag := none } } })

/-- Neither port is up: every read outstanding or waiting to be issued has met that moment (R151). -/
def stallReads (s : State) : State :=
  if s.ports.a.up || s.ports.b.up then s
  else s.modPorts fun x => { x with
    reads := x.reads.map fun m => { m with stalled := true, pieces := m.pieces.map fun y => { y with tag := none } } }

/-! ### Answers of CSR reads (R134, R148) -/

/-- Registers that an event of blocks 0 to 4 reports on, by their keys (the event tables of the chapters). -/
def evtKeys04 : Nat → List Nat
  | 0x0001 => [0x0010, 0x0018, 0x001C]
  | 0x0002 => [0x0020]
  | 0x1001 => [0x1000]
  | 0x1002 => [0x1000]
  | 0x1003 => [0x1008, 0x1010, 0x1014]
  | 0x2001 => [0x2058]
  | 0x2002 => [0x2050, 0x0020]
  | 0x3001 => [0x3018]
  | 0x3002 => [0x3018]
  | 0x3003 => [0x3010, 0x0020]
  | 0x4001 => [0x4000, 0x4010]
  | 0x4002 => [0x4020, 0x0020]
  | 0x4003 => [0x4018, 0x0300]
  | _ => []

/-- The same for blocks 5 to 8. -/
def evtKeys58 : Nat → List Nat
  | 0x5001 => [0x5000]
  | 0x5002 => [0x5010, 0x0020]
  | 0x5003 => [0x5000, 0x5018, 0x0300]
  | 0x6001 => [0x6000]
  | 0x6002 => [0x6010, 0x0020]
  | 0x6003 => [0x6000, 0x6018, 0x601C, 0x0300]
  | 0x7001 => [0x7000]
  | 0x7002 => [0x7010, 0x0020]
  | 0x7003 => [0x7000, 0x7018, 0x701C, 0x0300]
  | 0x8001 => [0x8040, 0x8060]
  | 0x8002 => [0x8000]
  | 0x8003 => [0x8000]
  | 0x8004 => [0x8000]
  | 0x8005 => [0x8000, 0x0300]
  | 0x8006 => [0x8010, 0x0020]
  | _ => []

/-- The same for blocks 9 to 15. -/
def evtKeys9F : Nat → List Nat
  | 0x9001 => [0x9000, 0x900C]
  | 0x9002 => [0x9018]
  | 0x9003 => [0x9018]
  | 0x9005 => [0x9018]
  | 0x9008 => [0x9010, 0x0020]
  | 0xA001 => [0xA010, 0x0020]
  | 0xA002 => [0xA000, 0x0300]
  | 0xA003 => [0xA020]
  | 0xA004 => [0xA020]
  | 0xB001 => [0xB008, 0xB010, 0x0020]
  | 0xB002 => [0xB000, 0x0300]
  | 0xC001 => [0xC010, 0x0020]
  | 0xC002 => [0xC000, 0xC004, 0xC008]
  | 0xC003 => [0xC004, 0xC008]
  | 0xC004 => [0xC000, 0xC004, 0xC008]
  | 0xC005 => [0xC004, 0xC008]
  | 0xC006 => [0xC004, 0xC008]
  | 0xC007 => [0xC000]
  | 0xD001 => [0xD010, 0x0020]
  | 0xD002 => [0xD000]
  | 0xD003 => [0xD000, 0xD020]
  | 0xD004 => [0x0010]
  | 0xE001 => [0xE004, 0xE008]
  | 0xE002 => [0x0010, 0x0080]
  | 0xE003 => [0xE030]
  | 0xE004 => [0xE050, 0x0020]
  | 0xF001 => [0xF000]
  | _ => []

/-- The event of a code reports on the register at `key` (R148). -/
def evtReports (code key : Nat) : Bool :=
  (if code < 0x5000 then evtKeys04 code else if code < 0x9000 then evtKeys58 code else evtKeys9F code).contains (key / 4 * 4)

/-- Tallies of the events that report on a register and whose entries on port `p`'s ring are not yet visible: written and not
flushed, or held for room (R41, R143, R148). -/
def evtWaits (p : Port) (key : Nat) (s : State) : List (Port × Nat) :=
  let q := s.port p
  if q.up then
    ((q.unflushed.filter fun w => w.kind == .event && evtReports (natAt w.data 0 2) key).map fun w => (p, w.tally))
      ++ (if q.ring.en then (q.ring.held.filter fun e => evtReports e.code key).map fun e => (p, e.tally) else [])
  else []

/-- The entry of tally `t` on port `p`'s ring is visible, or the port has left the wait (R148). -/
def evtSeen (p : Port) (t : Nat) (s : State) : Bool :=
  let q := s.port p
  !q.up || !(q.unflushed.any (fun w => w.kind == .event && w.tally == t) || (q.ring.en && q.ring.held.any fun e => e.tally == t))

/-- Every event that an answer waits for is visible. -/
def answerDue (s : State) (a : Answer) : Bool := a.waits.all fun w => evtSeen w.1 w.2 s

/-- The `CPL` of a host's read goes out through its port (R134). -/
def cplOut (a : Answer) (s : State) : State :=
  match a.req with
  | .core _ => s
  | .host p => if (s.port p).up then s.modPort p fun q => q.enq [cplPacket a.tag a.value] else s

/-- Send the answers that wait no more, each with its `CPL`; the last answer of each requester stands (R134). -/
def sendAnswers (s : State) : State :=
  let ready := s.dev.waiting.filter (answerDue s)
  let rest := s.dev.waiting.filter fun a => !answerDue s a
  let s := s.modDev fun d => { d with
    waiting := rest
    answers := ready.foldl (fun as a => as.filter (fun b => decide (b.req ≠ a.req)) ++ [a]) d.answers }
  ready.foldl (fun s a => cplOut a s) s

/-- Answer a CSR read of `n` bytes (R134): a host read of a register waits for the events that report on it (R148). -/
def answer (r : Requester) (addr n tag : Nat) (v : BitVec 64) (s : State) : State :=
  let on := fun k => evtWaits .a k s ++ evtWaits .b k s
  let a : Answer := match r with
    | .host _ => ⟨r, addr, v, tag, if 0x100000 ≤ addr then [] else if n = 8 then on addr ++ on (addr + 4) else on addr⟩
    | .core _ => ⟨r, addr, v, tag, []⟩
  sendAnswers (s.modDev fun d => { d with waiting := d.waiting ++ [a] })

/-! ### A port comes up and goes down -/

/-- The transmitter and receiver of a port that trains anew and not by a retrain start from their first state (log 6). -/
def PortSt.fresh (q : PortSt) : PortSt :=
  { q with txSeq := 0xFFF, rxSeq := 0xFFF, replay := [], replays := 0, txq := [], rxq := [], nakDue := false, retHdr := 0, retData := 0 }

/-- A port comes up (R127, R150, R151): the writes that waited are delivered, what its ring holds or has lost is reported, and
then its `LINK_STATE` is posted (R143). -/
def portUp (p : Port) (s : State) : State :=
  let s := s.modPort p fun q =>
    { q.fresh with up := true, training := false, capWait := false, attempts := 0, lowPower := s.dev.asleep }
  let s := if (s.port (otherPort p)).up then s.modPort p fun q => q.unflushed.foldl PortSt.write { q with unflushed := [] }
    else moveReads p (deliverWrites p (rehomeTo p s))
  postEvt .both 0x1003 (linkData p s) 0 (pump p s)

/-- A port goes down (R150, Table 4-12). -/
def portDown (p : Port) (s : State) : State :=
  if (s.port p).up then
    let o := otherPort p
    let s := s.modPort p fun q => { q with up := false, training := false, capWait := false, attempts := 0, lowPower := false }
    let s := portErr (3 + portNum p) s
    let s := if (s.port o).up then moveReads o (moveWrites o (rehomeTo o s)) else stallReads s
    sendAnswers (postEvt (.own o) 0x1003 (linkData p s) 0 s)
  else s.modPort p fun q => { q with training := false, capWait := false, attempts := 0 }

/-- Training or retraining begins on a port that may train (R131, R152). -/
def startTrain (p : Port) (s : State) : State :=
  if portDisabled p s then s
  else s.modPort p fun q => { q with training := true, capWait := false, retrains := satAdd 8 q.retrains 1 }

/-- One attempt of a running retrain fails; the third takes the port down (R131). A port that was not up stays down. -/
def trainFail (p : Port) (s : State) : State :=
  if (s.port p).up then
    if (s.port p).attempts + 1 < 3 then s.modPort p fun q => { q with attempts := q.attempts + 1 }
    else portDown p s
  else surveyUcie p false (s.modPort p fun q => { q with training := false, capWait := false })

/-- A write of `PORT_x_CTL` (Table 4-16), already checked. -/
def portCtlWrite (p : Port) (v : Word) (s : State) : State :=
  let s := regMask (portCtlKey p) 0x7C000000 v s
  if v.getLsbD 30 then portDown p s
  else if v.getLsbD 31 then startTrain p s
  else s

/-- `MAX_RATE` code as a rate: codes above 0b101 set no lower limit than 32 GT/s. -/
def rateCap (n : Nat) : Nat := min n 5

/-- The highest rate not above a limit at which training succeeds (R125). -/
def bestRate (trains : BitVec 6) : Nat → Option Nat
  | 0 => if trains.getLsbD 0 then some 0 else none
  | n + 1 => if trains.getLsbD (n + 1) then some (n + 1) else bestRate trains n

/-- LINK_TRAINING_DONE: `trains` bit r says that training at rate code r succeeds, `partner` is the partner's capability,
`failTx` and `failRx` count failed data lanes (R125, R126, R127). At x32 `REP_TX` and `REP_RX` are 0 (DESIGN CHOICE, log 137). -/
def execLinkTrainingDone (p : Port) (trains : BitVec 6) (partner : BitVec 16) (failTx failRx : Nat) (s : State) : Out := .next <|
  if !(s.port p).training then s else
    let lim := min (rateCap (fieldOf (regGet (portCtlKey p) s) 29 27)) (rateCap ((partner.toNat >>> 10) % 8))
    match bestRate trains lim with
    | none => trainFail p s
    | some r =>
      let fails := failTx + failRx
      let repairable := decide (failTx ≤ 4 ∧ failRx ≤ 4)
      let x32ok := partner.getLsbD 8 && regBit (portCtlKey p) 26 s
      if fails > 0 && !partner.getLsbD 9 then trainFail p s
      else if repairable then
        s.modPort p fun q => { q with
          training := false, capWait := true, rate := BitVec.ofNat 3 r, x32 := false
          repTx := BitVec.ofNat 3 failTx, repRx := BitVec.ofNat 3 failRx }
      else if x32ok then
        s.modPort p fun q => { q with
          training := false, capWait := true, rate := BitVec.ofNat 3 r, x32 := true, repTx := 0, repRx := 0 }
      else trainFail p s

/-- E9_CAP_RSP: the port comes up only when `FLIT256`, `PTAG` and `FLUSH` are 1 (R127). -/
def execE9CapRsp (p : Port) (cap : BitVec 16) (s : State) : Out := .next <|
  if !(s.port p).capWait then s else
    let s := s.modPort p fun q => { q with cap := cap }
    if cap.getLsbD 15 && cap.getLsbD 14 && cap.getLsbD 13 then
      if (s.port p).up then
        s.modPort p PortSt.resumed
      else surveyUcie p true (portUp p s)
    else surveyUcie p false (portDown p s)

/-- E9_CAP_TIMEOUT: no answer within 1 ms keeps the port down (R127). -/
def execE9CapTimeout (p : Port) (s : State) : Out := .next <|
  if !(s.port p).capWait then s else surveyUcie p false (portDown p s)

/-- TRAINING_REQUEST: the partner asks for training on a down port (R152). -/
def execTrainingRequest (p : Port) (s : State) : Out := .next <|
  if !s.dev.mainOn || (s.port p).up || (s.port p).training then s else startTrain p s

/-- PORT_DOWN (R150). -/
def execPortDown (p : Port) (s : State) : Out := .next <| if (s.port p).up then portDown p s else s

/-- REPLAY_TIMEOUT: 10 µs without `ACK` of a flit that waits for one retrain the port; the bound of a running retrain is a failed
attempt (R131). Four replays of one flit retrain it within `FLIT_RECEIVE`. -/
def execReplayTimeout (p : Port) (s : State) : Out := .next <|
  if !(s.port p).up then s
  else if (s.port p).training then trainFail p s
  else if (s.port p).replay.isEmpty then s
  else startTrain p s

/-- FLUSH_TIMEOUT: `PORT_ERR.FLUSH_TIMEOUT` and a retrain (R149). -/
def execFlushTimeout (p : Port) (s : State) : Out := .next <|
  if (s.port p).unflushed.isEmpty || !(s.port p).up then s else startTrain p (portErr 0 s)

/-- Key of a port's first diagnostic counter (Table 4-13). -/
def portDiag (p : Port) : Nat := if p = .a then 0x1100 else 0x1120

/-- The receiver discards a flit and asks for the replay (R130). -/
def sendNak (p : Port) (s : State) : State := s.modPort p fun q => { q.null true with nakDue := true }

/-- A `NAK` makes the transmitter resend every flit it holds; the fourth replay of one flit retrains the link (R130, R131). -/
def replayed (p : Port) (s : State) : State :=
  let n := (s.port p).replay.length
  if n = 0 then s
  else
    let s := bump (portDiag p + 4) n (s.modPort p PortSt.resend)
    if 4 ≤ (s.port p).replays then startTrain p s else s

/-- An intact flit in its turn: `ACK`, credits, `NAK`, and for a DATA flit its units (R130, Table 4-4). -/
def flitTake (p : Port) (h : FlitHdr) (payload : List Byte) (s : State) : State :=
  let s := if h.ftype = 1 then s else bump (portDiag p + 8) 1 s
  let s := s.modPort p fun q =>
    let q := q.acked h.ack
    sendFlits { q with
      rxSeq := h.seq, nakDue := false, crdHdr := q.crdHdr + h.hdr, crdData := q.crdData + h.data
      rxq := if h.ftype = 1 then q.rxq ++ payload else q.rxq }
  if h.nak then replayed p s else s

/-- The packets that a port has received whole, oldest first; what is left goes on in the next flit, and the buffers they held are
returned as credits (R129). -/
def rxTake (p : Port) (s : State) : List Packet × State :=
  let r := takePackets 17 (s.port p).rxq
  (r.1, s.modPort p fun q => { q with
    rxq := r.2, retHdr := q.retHdr + r.1.length, retData := q.retData + (r.1.map fun k => k.data.length / 16).sum })

/-- FLUSH_ACK: the first `n` unacknowledged writes of the port are visible (R145, R148). -/
def flushAcked (p : Port) (n : Nat) (s : State) : State :=
  sendAnswers (s.modPort p fun q => { q with unflushed := q.unflushed.drop n })

/-- FLUSH_ACK as a row names how many writes it makes visible. -/
def execFlushAck (p : Port) (n : Nat) (s : State) : Out := .next <| if (s.port p).up then flushAcked p n s else s

/-- LEASE_EXPIRY: the owner did not renew (R138). -/
def execLeaseExpiry (s : State) : Out := .next <|
  if s.ports.hg.lease = 0 then s else
    match s.ports.hg.owner with
    | .free => s
    | .a => hgRelease .a 2 s
    | .b => hgRelease .b 2 s

/-- HEADGATE_LINK_LOSS: the owning port has been down for 10 ms (R139). -/
def execHeadgateLinkLoss (s : State) : Out := .next <|
  match s.ports.hg.owner with
  | .free => s
  | .a => if s.ports.a.up then s else hgRelease .a 3 s
  | .b => if s.ports.b.up then s else hgRelease .b 3 s

end Sys2Proof.Machine
end

