-- ==== Sys2Proof/Machine/Queues.lean ====
section
/-! DEFINITION. Queues (chapter 05): doorbells, the admin queue, fetch, arrival, seals, interrupts, disable and drain. -/
namespace Sys2Proof.Machine

/-! ### Levels that stop the command interface (R92) -/

/-- Some alarm in force has this level. -/
def levelInForce (l : Nat) (s : State) : Bool := s.tamper.alarms.any fun a => a.2 == l

/-- The E9 fetches and dispatches nothing: level 2 or 4 in force, or level 3 until its erasures are complete (R92). -/
def levelStops (s : State) : Bool := levelInForce 2 s || levelInForce 4 s || (levelInForce 3 s && s.tamper.scrubbing)

/-- The E9 fetches commands: main power, SURVEY over, not RETIRED, awake, a port up (R87, R92, R151). -/
def fetching (s : State) : Bool :=
  s.dev.mainOn && decide (s.dev.mode ≠ .survey) && decide (s.dev.mode ≠ .retired) && !s.dev.asleep && !levelStops s
    && (s.ports.a.up || s.ports.b.up)

/-! ### Doorbells (R159 to R164) -/

/-- Queue number q. -/
def queueNum (f n : Nat) : Nat := f * 8 + n

/-- Drop a doorbell write with an error bit (R161). -/
def dbReject (n q : Nat) (s : State) : State := cmdErr n q (bump 0x2110 1 s)

/-- A `SQ_TAIL` write that passed the furrow checks (R160, R161). Entries published are counted without a bound: where software overruns its
ring, every one is fetched in order (R162; DESIGN CHOICE, log 138). -/
def tailWrite (f n v : Nat) (s : State) : State :=
  match sqGet f n s with
  | none => dbReject 2 (queueNum f n) s
  | some q =>
    let size := 2 ^ q.sizeLog2
    if size ≤ v then dbReject 3 (queueNum f n) s
    else
      let k := (v + size - q.tail) % size
      if k = 0 then s
      else modSq f n (fun q => { q with tail := v, published := q.published + k, batches := q.batches ++ [q.published] }) s

/-- A `CQ_HEAD` write that passed the furrow checks (R161, R171). -/
def headWrite (f n v : Nat) (s : State) : State :=
  match cqGet f n s with
  | none => dbReject 2 (queueNum f n) s
  | some q =>
    let size := 2 ^ q.sizeLog2
    if size ≤ v then dbReject 3 (queueNum f n) s
    else
      let k := (v + size - q.head) % size
      if q.unread < k then dbReject 4 (queueNum f n) s
      else giveSealSlots f n (modCq f n (fun q => { q with head := v, unread := q.unread - k }) s)

/-- The furrow takes doorbells: ACTIVE or LOGGING (Table 6-3). -/
def dbOpen (f : Nat) (s : State) : Bool := furrowState f s == .active || furrowState f s == .logging

/-- One 32-bit doorbell write, served (R161). -/
def dbServe (ptag : Option (BitVec 20)) (addr : Nat) (v : Word) (s : State) : State :=
  let q := addr % 0x100000 / 32
  let off := addr % 32
  let f := q / 8
  let n := q % 8
  match ptag with
  | none => dbReject 1 q s
  | some t =>
    if furrowState f s ≠ .free ∧ furrowPtag f s ≠ t then dbReject 1 q s
    else if !dbOpen f s then dbReject 2 q s
    else if off = 0 then tailWrite f n (fieldOf v 15 0) s
    else if off = 4 then headWrite f n (fieldOf v 15 0) s
    else dbReject 3 q s

/-- One 32-bit doorbell write from a requester (R87, R164): held in SURVEY, ignored in RETIRED and from Warden cores. -/
def dbWrite (r : Requester) (ptag : Option (BitVec 20)) (addr : Nat) (v : Word) (s : State) : State :=
  match r with
  | .core _ => s
  | .host p =>
    if s.dev.mode = .survey then s.modCmdif fun c => { c with heldDb := c.heldDb ++ [(p, ptag, addr, v)] }
    else if s.dev.mode = .retired then s
    else dbServe ptag addr v s

/-- Serve the doorbell writes held in SURVEY (R87). -/
def serveHeld (s : State) : State :=
  let ws := s.cmdif.heldDb
  let s := s.modCmdif fun c => { c with heldDb := [] }
  ws.foldl (fun s w => dbWrite (.host w.1) w.2.1 w.2.2.1 w.2.2.2 s) s

/-- What a doorbell slot's register reads (Table 5-4, R159): the contents for a host port with the furrow's process tag, else 0. -/
def dbRead (r : Requester) (ptag : Option (BitVec 20)) (addr : Nat) (s : State) : Word :=
  let q := addr % 0x100000 / 32
  let off := addr % 32
  let f := q / 8
  let n := q % 8
  if isHost r && decide (ptag = some (furrowPtag f s) ∧ furrowState f s ≠ .free) then
    if off = 8 then (match sqGet f n s with
      | some x => wfield x.head 0
      | none => 0)
    else if off = 0xC then (match sqGet f n s with
      | some x => wfield x.avail 0
      | none => 0)
    else if off = 0x10 then (match cqGet f n s with
      | some x => wfield x.free 0
      | none => 0)
    else 0
  else 0

/-! ### Disable under R45 -/

/-- Disable an SQ: what has not started completes with `ABORTED_DISABLED` (R45). -/
def disableSq (f n : Nat) (s : State) : State :=
  let s := modSq f n (fun q => { q with enabled := false, disabling := true }) s
  finishAll (fun c => c.furrow == f && c.sq == n && !c.startedP && c.phase != .fetched) .abortedDisabled s

/-! ### The admin queue (R187) -/

/-- A write of `CMD_ADMIN_CFG` that passed the access checks. -/
def adminCfgWrite (v : Word) (s : State) : State :=
  let old := regGet 0x2020 s
  let enNow := old.getLsbD 31
  let enNew := v.getLsbD 31
  if enNow then
    if enNew then s else disableSq 0 0 (regMask 0x2020 0x80000000 0 s)
  else if enNew then
    let sqk := fieldOf v 19 16
    let cqk := fieldOf v 23 20
    let cr := fieldOf v 11 0
    let bad := decide (sqk < 4 ∨ 15 < sqk ∨ cqk < 4 ∨ 15 < cqk ∨ cr = 0 ∨ s.cmdif.pool < cr)
      || decide (reg64 0x2010 s % 64 ≠ 0 ∨ reg64 0x2018 s % 32 ≠ 0) || (sqGet 0 0 s).isSome
    if bad then cmdErr 6 0 s
    else
      let home : Port := if v.getLsbD 30 then .b else .a
      let sq : Sq := ⟨0, 0, reg64 0x2010 s, sqk, 0, 16, cr, cr, 0, 0, true, 0, 0, [], [], [], false, false⟩
      let cq : Cq := ⟨0, 0, reg64 0x2018 s, cqk, home, home, 0, 0, 0, 0, false, 0, 0, true, 0, 0, 0⟩
      let s := regMask 0x2020 0xC0FF0FFF v s
      s.modCmdif fun c => { c with
        pool := c.pool - cr
        sqs := sq :: c.sqs
        cqs := cq :: c.cqs.filter fun q => !(q.furrow == 0 && q.n == 0) }
  else regMask 0x2020 0x40FF0FFF v s

/-- A write of the admin bases, interrupt registers (R187). -/
def adminRegWrite (k : Nat) (v : Word) (s : State) : State :=
  if regBit 0x2020 31 s ∧ k < 0x2020 then s else regSet k v s

/-! ### Fetch (R157, R175) -/

/-- A command slot just fetched: its entry is being read. -/
def fetchedCmd (id : Nat) (q : Sq) (idx batch : Nat) (ptag : BitVec 20) (m : Mode) : Cmd :=
  ⟨id, q.furrow, q.n, q.cq, idx, batch, .fetched, 0, 0, 0, 0, 0, 0, 0, 0, 0, 0, [], false, ptag, .warden, m, 0, 0, [], [],
    false, false, [], [], 0, false, false, none, [], false, [], 0, none, oneUnit, [], [], 0⟩

/-- The entry of command `id` is being read, and the read's port is up: it can arrive (R157). -/
def entryDue (id : Nat) (s : State) : Bool := s.ports.reads.any fun m => (s.port m.port).up && match m.of with
  | .entries ids => ids.contains id
  | _ => false

/-- What a read still fetches once the entry of command `id` has arrived. -/
def withoutEntry (id : Nat) (m : Mrd) : Mrd :=
  match m.of with
  | .entries ids => { m with of := .entries (ids.filter (· != id)) }
  | _ => m

/-- The entry of command `id` has been answered; a read all of whose entries have is over. -/
def entryOver (id : Nat) (s : State) : State :=
  let s := s.modPorts fun x => { x with reads := (x.reads.map (withoutEntry id)).filter fun m => decide (m.of ≠ .entries []) }
  issueReads .b (issueReads .a s)

/-- A read of the command was outstanding, or waiting to be issued, while neither port was up (R151). -/
def readStalled (id : Nat) (s : State) : Bool := s.ports.reads.any fun m => m.stalled && match m.of with
  | .entries ids => ids.contains id
  | .block i => i == id
  | .src i => i == id
  | .bitmap _ _ => false

/-- Batch start of an entry number: the greatest listed start not above it. -/
def batchOf (bs : List Nat) (idx : Nat) : Nat := (bs.filter (· ≤ idx)).foldl max 0

/-- Take one entry of an SQ: one credit, one CQ slot (R175). -/
def fetchOne (f n : Nat) (s : State) : State :=
  match sqGet f n s with
  | none => s
  | some q =>
    let idx := q.fetched
    let b := batchOf q.batches idx
    let c := fetchedCmd s.cmdif.nextId q idx b (furrowPtag f s) s.dev.mode
    let s := modSq f n (fun q => { q with
      avail := q.avail - 1, fetched := q.fetched + 1, head := (q.head + 1) % 2 ^ q.sizeLog2
      batches := q.batches.filter fun x => b ≤ x }) s
    let s := modCq f q.cq (fun q => { q with reserved := q.reserved + 1 }) s
    s.modCmdif fun i => { i with cmds := i.cmds ++ [c], nextId := i.nextId + 1 }

/-- Fetch `k` entries of an SQ. -/
def fetchK (f n : Nat) : Nat → State → State
  | 0, s => s
  | k + 1, s => fetchK f n k (fetchOne f n s)

/-- Seals and sealing commands of a CQ that wait for a slot. -/
def sealWaiters (f cq : Nat) (s : State) : Nat :=
  (s.cmdif.cmds.filter fun c => c.furrow == f && c.cq == cq && c.phase == .arrived && c.seals && !c.sealSlot).length
    + ((s.cmdif.sqs.filter fun q => q.furrow == f && q.cq == cq).map fun q => q.bareSeals.length).sum

/-- An SQ has an entry that the E9 may fetch now: credit, and a CQ slot that no seal waits for (R175). -/
def fetchAble (q : Sq) (s : State) : Bool :=
  q.enabled && dbOpen q.furrow s && decide (q.fetched < q.published ∧ 0 < q.avail) && match cqGet q.furrow q.cq s with
    | some k => decide (sealWaiters q.furrow q.cq s < k.free)
    | none => false

/-- The SQ whose turn to fetch it is (R157): weighted round robin by queue number over the SQs that can, `WEIGHT` reads a turn (log
124). -/
def fetchTurn (s : State) : Option Nat :=
  let able := (s.cmdif.sqs.filter fun q => fetchAble q s).map fun q => queueNum q.furrow q.n
  let (t, left) := s.cmdif.turn
  if left ≠ 0 ∧ able.contains t then some t
  else match able.find? (t < ·) with
    | some q => some q
    | none => able.head?

/-- One read of a queue's turn is made. -/
def tookTurn (q weight : Nat) (s : State) : State :=
  s.modCmdif fun i => { i with turn := (q, if i.turn.1 = q ∧ i.turn.2 ≠ 0 then i.turn.2 - 1 else weight - 1) }

/-- The equalities of R177 hold: over the pool and every SQ's grant, and over one SQ's credits and commands in flight. -/
def creditsHold (q : Sq) (s : State) : Bool :=
  s.cmdif.pool + (s.cmdif.sqs.map (·.credits)).sum == 65536 && q.avail + (sqCmds q.furrow q.n s).length == q.credits

/-- ENTRY_FETCH: one read of `k` entries, 1 to 4, of SQ `n` of furrow `f`, in its turn (R157, R175, R178). -/
def execEntryFetch (f n k : Nat) (s : State) : Out := .next <|
  match sqGet f n s with
  | none => s
  | some q =>
    match cqGet f q.cq s with
    | none => s
    | some cq =>
      if !fetching s || !q.enabled || !dbOpen f s || decide (k < 1 ∨ 4 < k ∨ q.published < q.fetched + k)
          || decide (2 ^ q.sizeLog2 < q.head + k) then s
      else if !creditsHold q s then
        disableSq f n (modSq f n (fun q => { q with faulted := true }) (cmdErr 5 (queueNum f n) s))
      else if q.avail < k then s
      else if cq.free < k + sealWaiters f q.cq s then bump 0x2114 1 s
      else if fetchTurn s ≠ some (queueNum f n) then s
      else
        let s := tookTurn (queueNum f n) q.weight s
        let ids := (List.range k).map fun i => s.cmdif.nextId + i
        pushMrd cq.home (.entries ids) (q.base + 64 * q.head) (64 * k) (some (furrowPtag f s)) (bump64 0x2100 k (fetchK f n k s))

/-! ### Arrival (R168 steps 1 and 2, R188) -/

/-- `ROUTE_UPDATE`, `SHARES_BURN_STRANDED` and `PEER_STATUS` functions that the ZJE9-C8 refuses (R5). The device number a command
carries is its whole 16-bit field: one with bit 14 or 15 set names no device (DESIGN CHOICE, log 114). -/
def c8Refuses (c : Cmd) (s : State) : Bool :=
  let op := c.opcode.toNat
  let own := fun n => n == ownDdn s
  s.fuses.grade == .c8 &&
    (op == 0x6002
      || (op == 0x6005 && (let fn := (c.inlByte 48).toNat
            fn == 1 || fn == 2 || fn == 3 || (fn == 4 && !own (c.inlNat 52 2))))
      || ((op == 0x6004 || op == 0x6006) && !own (c.inlNat 48 2)))

/-- Steps 1 and 2 of Table 5-6. -/
def entryCheck (c : Cmd) (s : State) : Option Status :=
  match opInfo c.opcode.toNat with
  | none => some .badOpcode
  | some o =>
    if c8Refuses c s then some .badOpcode
    else if 16 ≤ c.flags.toNat ∨ 1 < c.form.toNat then some .badForm
    else if c.form = 1 ∧ o.forms = .basic then some .badForm
    else if c.form = 0 ∧ o.forms = .expert then some .badForm
    else none

/-- The furrow stops commands that have not started (R45, R207, R208). -/
def furrowAborts (f : Nat) (s : State) : Bool := furrowState f s == .disabled

/-- The SQ of a command is disabled (R45). -/
def sqAborts (c : Cmd) (s : State) : Bool :=
  match sqGet c.furrow c.sq s with
  | some q => !q.enabled
  | none => true

/-- The entry of command `id` arrives with its `CST` (R168, R175, R188). One whose fetch was under way when an alarm of
level 2 or above was raised (marked in `scratch`) completes with `ABORTED_ALARM` (R173; log 81). -/
def entryArrive (id : Nat) (cst : Cst) (e : List Byte) (s : State) : State :=
  match cmdGet id s with
  | none => s
  | some c =>
    if c.phase ≠ .fetched then s
    else if cst ≠ .ok then
      finishSt c .dmaFault (cmdErr 0 (queueNum c.furrow c.sq) s)
    else
      let c := { decodeEntry c e with phase := .arrived }
      let s := giveSealSlots c.furrow c.cq (cmdPut c s)
      match cmdGet id s with
      | none => s
      | some c =>
        if !c.scratch.isEmpty then finishSt c .abortedAlarm s
        else if sqAborts c s || furrowAborts c.furrow s then finishSt c .abortedDisabled s
        else if c.seals && !c.sealSlot then s
        else match entryCheck c s with
          | some st => finishSt c st s
          | none => s

/-- ENTRY_ARRIVE: an entry arrives while its read is outstanding on a port that is up. -/
def execEntryArrive (id : Nat) (cst : Cst) (e : List Byte) (s : State) : Out := .next <|
  if entryDue id s then entryArrive id cst e (entryOver id s) else s

/-! ### Seals, interrupts, drains -/

/-- The seal completion of a completed sealing command `d` of an SQ, when every command it seals has completed (R181). -/
def sealReady (q : Sq) (inflight : List Cmd) (d : SealDue) : Option (Nat × Nat × Nat) :=
  let prevDone := (q.seals.filter fun x => x.batch == d.batch && x.idx < d.idx).map (·.idx)
  let prevFly := (inflight.filter fun c => c.batch == d.batch && c.seals && c.idx < d.idx).map (·.idx)
  let lo := match prevDone ++ prevFly with
    | [] => d.batch
    | xs => xs.foldl max 0 + 1
  let mine := q.done.filter fun x => x.2.1 == d.batch && lo ≤ x.1 && x.1 ≤ d.idx
  if mine.length = d.idx + 1 - lo then
    some (mine.length, (mine.filter fun x => x.2.2 == 4).length, (mine.filter fun x => 8 ≤ x.2.2).length)
  else none

/-- SEAL_COMPLETION: the first due seal completion of an SQ is written into its slot (R172, R175, R181). -/
def execSealCompletion (f n : Nat) (s : State) : Out := .next <|
  match sqGet f n s with
  | none => s
  | some q =>
    match q.seals.find? (fun d => !d.written && (sealReady q (sqCmds f n s) d).isSome) with
    | none => s
    | some d =>
      match sealReady q (sqCmds f n s) d with
      | none => s
      | some (k, w, e) =>
        let free := match cqGet f q.cq s with
          | some c => decide (0 < c.free)
          | none => false
        if !d.slot && !free then s
        else
        let s := if d.slot then s else modCq f q.cq (fun c => { c with reserved := c.reserved + 1 }) s
        let s := modSq f n (fun q => { q with
          seals := updFirst (fun x => x.idx == d.idx) (fun x => { x with written := true }) q.seals }) s
        let s := writeCpl f n q.cq (furrowPtag f s) d.tag .batchSealed 0 (le 2 k ++ le 2 w ++ le 2 e ++ [0, 0]) d.irq s
        pruneSeals f n d.batch s

/-- COALESCE_TIMEOUT: `COALESCE_US` has elapsed since the first unsignalled completion of a CQ (R174). -/
def execCoalesceTimeout (f n : Nat) (s : State) : Out := .next <|
  match cqGet f n s with
  | none => s
  | some q => if q.irqEn && q.coalUs != 0 && q.unsignalled != 0 && !(f == 0 && n == 0) then cqIrq f n s else s

/-- An SQ is drained: none of its commands is in flight and no seal is due. -/
def sqDrained (q : Sq) (s : State) : Bool := (sqCmds q.furrow q.n s).isEmpty && q.seals.all (·.written)

/-- QUEUE_DRAINED: a disabled SQ has drained (R45, R178, R187). -/
def execQueueDrained (f n : Nat) (s : State) : Out := .next <|
  match sqGet f n s with
  | none => s
  | some q =>
    if q.enabled || !q.disabling || !sqDrained q s then s
    else
      let s := regSet 0x2058 (wbit true 31 ||| wfield (queueNum f n) 0) s
      let s := modSq f n (fun q => { q with
        disabling := false, faulted := false, avail := if q.faulted then q.credits else q.avail }) s
      let s := if f = 0 ∧ n = 0 then
          s.modCmdif fun c => { c with
            pool := c.pool + q.credits
            sqs := c.sqs.filter fun x => !(x.furrow == 0 && x.n == 0)
            cqs := if c.sqs.any (fun x => x.furrow == 0 && x.n != 0 && x.cq == 0) then c.cqs
              else c.cqs.filter fun x => !(x.furrow == 0 && x.n == 0) }
        else s
      postEvt .both 0x2001 (wfield (queueNum f n) 0) 0 s

/-- No completion write of a CQ lacks its `FLUSH_ACK`. -/
def cqFlushed (q : Cq) (s : State) : Bool :=
  let hit := fun (w : Mwr) => w.kind == .completion && w.furrow == some q.furrow
    && decide (q.base ≤ w.addr ∧ w.addr < q.base + 32 * 2 ^ q.sizeLog2)
  !(s.ports.a.unflushed.any hit) && !(s.ports.b.unflushed.any hit)

/-- CQ_HOME_RETURN: a quiet CQ moves back to its configured home port (R155). -/
def execCqHomeReturn (f n : Nat) (s : State) : Out := .next <|
  match cqGet f n s with
  | none => s
  | some q =>
    if q.home ≠ q.confHome ∧ (s.port q.confHome).up ∧ !(s.cmdif.cmds.any fun c => c.furrow == f && c.cq == n)
        ∧ cqFlushed q s then
      modCq f n (fun q => { q with home := q.confHome }) s
    else s

/-- LINK_DOWN: a command still waits for a read 100 ms after the first moment at which that read met neither port up (R151). -/
def execLinkDown (id : Nat) (s : State) : Out := .next <|
  match cmdGet id s with
  | none => s
  | some c =>
    if (c.phase = .fetched ∨ c.phase = .reading) ∧ readStalled id s then
      finishSt c .linkDown (readOver (.block id) (readOver (.src id) (entryOver id s)))
    else s

end Sys2Proof.Machine
end

