-- ==== Sys2Proof/Machine/FurrowCmds.lean ====
section
/-! DEFINITION. Furrow and queue commands (chapter 06; Table 5-3). -/
namespace Sys2Proof.Machine

/-- Codes of Table 6-3. -/
def fstateCode : FState → Nat
  | .free => 0
  | .active => 1
  | .quiescing => 2
  | .quiesced => 3
  | .logging => 4
  | .disabled => 5

/-- `FURROW_STATEn` (Table 6-12): state and `LOG_ON` of eight furrows, four bits each. -/
def furrowStates (n : Nat) (s : State) : Word :=
  (List.range 8).foldl (fun w i => w ||| match furrowGet (8 * n + i) s with
    | some x => wbit x.logOn (4 * i + 3) ||| wfield (fstateCode x.state) (4 * i)
    | none => 0) 0

/-- Pages of a furrow still wait to be marked, and writes behind them. -/
def logBusy (f : Nat) (s : State) : Bool := match (furrowGet f s).bind (·.log) with
  | some l => !l.toMark.isEmpty || !l.held.isEmpty
  | none => false

/-- Some `MWR` that serves a furrow is not sent or lacks its `FLUSH_ACK`. -/
def furrowUnflushed (f : Nat) (s : State) : Bool :=
  logBusy f s || s.ports.a.unflushed.any (fun w => w.furrow == some f) || s.ports.b.unflushed.any (fun w => w.furrow == some f)

/-- A furrow is drained (R204). -/
def furrowDrained (f : Nat) (s : State) : Bool :=
  !(s.cmdif.cmds.any fun c => c.furrow == f) && !furrowUnflushed f s

/-- Credits granted to a furrow's SQs. -/
def furrowCredits (f : Nat) (s : State) : Nat := ((s.cmdif.sqs.filter fun q => q.furrow == f).map (·.credits)).sum

/-- Insert a queue, kept in queue-number order. -/
def insertSq (q : Sq) : List Sq → List Sq
  | [] => [q]
  | x :: xs => if queueNum q.furrow q.n < queueNum x.furrow x.n then q :: x :: xs else x :: insertSq q xs

/-- Insert a CQ, kept in queue-number order. -/
def insertCq (q : Cq) : List Cq → List Cq
  | [] => [q]
  | x :: xs => if queueNum q.furrow q.n < queueNum x.furrow x.n then q :: x :: xs else x :: insertCq q xs

/-- Another furrow that is not FREE holds the tag (R193). -/
def tagHeld (t : BitVec 20) (but : Nat) (s : State) : Bool :=
  s.furrows.any fun p => p.1 != but && furrowPtag p.1 s == t

/-- A policy block (bytes 4 to 23 of Table 6-1) as a furrow in a state. -/
def policyFurrow (b : List Byte) (st : FState) : Furrow :=
  ⟨st, BitVec.ofNat 20 (natAt b 4 4), BitVec.ofNat 16 (natAt b 8 2), BitVec.ofNat 16 (natAt b 10 2), natAt b 12 4, natAt b 16 4,
    byteAt b 20, byteAt b 21, byteAt b 22, byteAt b 23, false, none, false, []⟩

/-- The fields of a policy block are in range (Table 6-1). -/
def policyOk (b : List Byte) : Bool :=
  natAt b 4 4 < 2 ^ 20 && natAt b 12 4 ≤ 33554431 && 1 ≤ natAt b 16 4 && natAt b 16 4 ≤ 65536

/-- Bytes 4 to 23 of a furrow's policy (Table 6-1). -/
def policyBytes (f : Nat) (x : Furrow) (s : State) : List Byte :=
  le 4 (furrowPtag f s).toNat ++ le 2 x.classMask.toNat ++ le 2 x.colourSet.toNat ++ le 4 x.keyQuota ++ le 4 x.creditQuota
    ++ [x.shareCipher, x.shareFlume, x.sharePke, x.shareWarden]

/-- The lowest FREE furrow that owns no key record (R191). -/
def chooseFurrow (s : State) : Option Nat :=
  (List.range 4096).find? fun n => n ≠ 0 && furrowState n s == .free && keysOwned n s == 0

/-- Fields of an SQ record in a state record (Table 6-6) at an offset, for SQ `n` of furrow `f`; restored SQs are enabled as
recorded. -/
def sqOfRecord (b : List Byte) (off f n : Nat) : Sq :=
  let size := natAt b (off + 8) 1
  let head := natAt b (off + 14) 2
  let tail := natAt b (off + 16) 2
  let k := (tail + 2 ^ size - head) % 2 ^ size
  ⟨f, n, natAt b off 8, size, natAt b (off + 9) 1, natAt b (off + 10) 1, natAt b (off + 12) 2, natAt b (off + 12) 2, head, tail,
    bitAt b (off + 11) 0, k, 0, if k = 0 then [] else [0], [], [], false, false⟩

/-- An SQ record is in the ranges of Table 5-2; `cqs` is CQ_PRESENT. -/
def sqRecordOk (b : List Byte) (off : Nat) (cqs : Byte) : Bool :=
  let size := natAt b (off + 8) 1
  decide (natAt b off 8 % 64 = 0 ∧ 4 ≤ size ∧ size ≤ 16 ∧ natAt b (off + 9) 1 < 8) && cqs.getLsbD (natAt b (off + 9) 1)
    && decide (1 ≤ natAt b (off + 10) 1 ∧ natAt b (off + 10) 1 ≤ 16 ∧ 1 ≤ natAt b (off + 12) 2 ∧ natAt b (off + 12) 2 ≤ 4096)
    && decide (natAt b (off + 14) 2 < 2 ^ size ∧ natAt b (off + 16) 2 < 2 ^ size)

/-- Fields of a CQ record (Table 6-6). -/
def cqOfRecord (b : List Byte) (off f n : Nat) : Cq :=
  let size := natAt b (off + 8) 1
  let head := natAt b (off + 14) 2
  let tail := natAt b (off + 28) 2
  let home : Port := if bitAt b (off + 9) 0 then .b else .a
  ⟨f, n, natAt b off 8, size, home, home, natAt b (off + 10) 1, natAt b (off + 12) 2, natAt b (off + 16) 8,
    BitVec.ofNat 32 (natAt b (off + 24) 4), bitAt b (off + 11) 0, head, tail, bitAt b (off + 30) 0,
    (tail + 2 ^ size - head) % 2 ^ size, 0, 0⟩

/-- A CQ record is in the ranges of Table 5-1. -/
def cqRecordOk (b : List Byte) (off : Nat) : Bool :=
  let size := natAt b (off + 8) 1
  decide (natAt b off 8 % 32 = 0 ∧ 4 ≤ size ∧ size ≤ 16 ∧ natAt b (off + 9) 1 ≤ 1)
    && decide (natAt b (off + 14) 2 < 2 ^ size ∧ natAt b (off + 28) 2 < 2 ^ size)

/-- `FURROW_CREATE` (R211, R213). -/
def furrowCreateSpec : OpSpec :=
  { noKeys with block := fun c => if c.form = 0 then some (32, 32) else some (576, 576) }

/-- Queue numbers present in a bitmap. -/
def present (m : Byte) : List Nat := (List.range 8).filter fun n => m.getLsbD n

/-- `FURROW_CREATE` in basic form (R211). -/
def furrowCreateBasic (c : Cmd) (s : State) : State :=
  let b := c.block
  let want := natAt b 0 2
  let pick := if want = 0xFFFF then chooseFurrow s else if 1 ≤ want ∧ want ≤ 4095 then some want else none
  match pick with
  | none => finishSt c .badParam s
  | some n =>
    let x := policyFurrow b .active
    if !policyOk b || natAt b 2 2 != 0 || natAt b 24 8 != 0 || furrowState n s != .free || tagHeld x.ptag n s then
      finishSt c .badParam s
    else finish c (Ending.inline (le 2 n)) (furrowSet n (some x) s)

/-- `FURROW_CREATE` in expert form: a furrow from a state record (R213). -/
def furrowCreateExpert (c : Cmd) (s : State) : State :=
  let b := c.block
  let n := natAt b 0 2
  let x := policyFurrow b .quiesced
  let sqm := byteAt b 24
  let cqm := byteAt b 25
  let sqs := (present sqm).map fun i => sqOfRecord b (320 + 32 * i) n i
  let cqs := (present cqm).map fun i => cqOfRecord b (64 + 32 * i) n i
  let cr := (sqs.map (·.credits)).sum
  let ok := policyOk b && decide (1 ≤ n ∧ n ≤ 4095) && bitAt b 3 1 && furrowState n s == .free && !tagHeld x.ptag n s
    && (present sqm).all (fun i => sqRecordOk b (320 + 32 * i) cqm) && (present cqm).all (fun i => cqRecordOk b (64 + 32 * i))
  if !ok then finishSt c .badParam s
  else if s.cmdif.pool < cr ∨ x.creditQuota < cr then finishSt c .quotaExceeded s
  else
    let s := furrowSet n (some x) s
    let s := s.modCmdif fun i => { i with
      pool := i.pool - cr
      sqs := sqs.foldl (fun l q => insertSq q l) i.sqs
      cqs := cqs.foldl (fun l q => insertCq q l) i.cqs }
    finish c (Ending.inline (le 2 n)) s

/-- FURROW_CREATE (R211, R213). -/
def execFurrowCreate (id : Nat) (s : State) : Out :=
  .next <| runOp furrowCreateSpec 0x9001 id (fun c s => if c.form = 0 then furrowCreateBasic c s else furrowCreateExpert c s) s

/-- Replaced policies that some command in flight was dispatched under. -/
def livePolicies (ps : List (Nat × BitVec 16 × Nat)) (s : State) : List (Nat × BitVec 16 × Nat) :=
  ps.filter fun p => s.cmdif.cmds.any fun c => decide (c.dispTally ≤ p.1)

/-- FURROW_SET_POLICY (R193, R195, R200, R201): the policy replaced still holds for commands dispatched before its completion's tally. -/
def execFurrowSetPolicy (id : Nat) (s : State) : Out := .next <| runOp (blockOf 32) 0x9002 id (fun c s =>
  let b := c.block
  let n := natAt b 0 2
  let x := policyFurrow b .active
  match furrowGet n s with
  | none => finishSt c .badParam s
  | some old =>
    if 4095 < n ∨ !policyOk b ∨ natAt b 2 2 ≠ 0 ∨ natAt b 24 8 ≠ 0 then finishSt c .badParam s
    else if n = 0 ∧ bytesAt b 4 16 ≠ (policyBytes 0 old s).take 16 then finishSt c .badParam s
    else if tagHeld x.ptag n s ∨ x.creditQuota < furrowCredits n s then finishSt c .badParam s
    else if x.ptag ≠ furrowPtag n s ∧ old.state ≠ .quiesced then finishSt c .furrowNotQuiesced s
    else
      let t := cplTally c (Ending.st .ok) s
      let s := furrowSet n (some { x with
        state := old.state, logOn := old.logOn, log := old.log, draining := old.draining
        olds := (t, old.colourSet, old.keyQuota) :: livePolicies old.olds s }) s
      finishSt c .ok s) s

/-! ### Drain reports (R206) -/

/-- Report a drained furrow: `FURROW_DONE` and its event. -/
def furrowDone (n bitNo evt : Nat) (s : State) : State :=
  let s := regSet 0x3018 ((regGet 0x3018 s &&& 0xC0000000) ||| wbit true bitNo ||| wfield n 0) s
  postEvt .both evt (wfield n 0) 0 (modFurrow n (fun x => { x with draining := false }) s)

/-- A drain that is over and not yet reported: a quiescing furrow becomes QUIESCED, a disabled one stays DISABLED (Table 6-4, R206). -/
def drainReport (n : Nat) (s : State) : State :=
  match furrowGet n s with
  | none => s
  | some x =>
    if x.draining && furrowDrained n s then
      (if x.state = .disabled then furrowDone n 30 0x3002 s
       else if x.state = .quiescing ∨ x.state = .quiesced then
         furrowDone n 31 0x3001 (modFurrow n (fun x => { x with state := .quiesced }) s)
       else s)
    else s

/-- A furrow command by number: numbers above 4,095 are `BAD_PARAM`, a FREE furrow too, and furrow 0 for every command but
`FURROW_ENABLE` (R195, R205). A drain that is over is reported first (R206). -/
def furrowCmd (c : Cmd) (n : Nat) (g : Furrow → Option (State → State)) (s : State) : State :=
  let s := drainReport n s
  if (n = 0 ∧ c.opcode ≠ 0x9007) ∨ 4095 < n then finishSt c .badParam s
  else match furrowGet n s with
    | none => finishSt c .badParam s
    | some x => match g x with
      | none => finishSt c .furrowNotQuiesced s
      | some act => act s

/-- FURROW_QUIESCE (Table 6-4, R206). -/
def execFurrowQuiesce (id : Nat) (s : State) : Out := .next <| runOp noKeys 0x9003 id (fun c s =>
  let n := c.inlNat 48 2
  furrowCmd c n (fun x =>
    if x.state = .active ∨ x.state = .logging then
      some fun s => finishSt c .ok (furrowSet n (some { x with state := .quiescing, draining := true }) s)
    else if x.state = .disabled && furrowDrained n s then
      some fun s => finishSt c .ok (furrowSet n (some { x with state := .quiesced, draining := true }) s)
    else none) s) s

/-- Abort what a furrow has not started (R45, R207, R208). -/
def furrowAbort (n : Nat) (s : State) : State :=
  finishAll (fun d => d.furrow == n && !d.startedP && d.phase != .fetched) .abortedDisabled s

/-- FURROW_DISABLE (Table 6-4, R206 to R208). -/
def execFurrowDisable (id : Nat) (s : State) : Out := .next <| runOp noKeys 0x9006 id (fun c s =>
  let n := c.inlNat 48 2
  furrowCmd c n (fun x =>
    if x.state = .disabled ∨ x.state = .free then none
    else some fun s => furrowAbort n (finishSt c .ok (furrowSet n (some { x with state := .disabled, draining := true }) s))) s) s

/-- FURROW_ENABLE (Table 6-4). -/
def execFurrowEnable (id : Nat) (s : State) : Out := .next <| runOp noKeys 0x9007 id (fun c s =>
  let n := c.inlNat 48 2
  furrowCmd c n (fun x =>
    if x.state = .quiesced || (x.state == .disabled && furrowDrained n s) then
      some fun s => finishSt c .ok
        (furrowSet n (some { x with state := if x.logOn then .logging else .active, draining := false }) s)
    else none) s) s

/-- Indices of the LIVE records a furrow owns that satisfy a test. -/
def ownedIdx (f : Nat) (p : KeyRec → Bool) (s : State) : List Nat :=
  (s.keytab.slots.filter fun e => e.2.state == .live && (match e.2.entry with
    | some r => r.owner == f && p r
    | none => false)).map (·.1)

/-- What RESET does: queues deleted, credits back, LOG_ON clear, session records deleted, software key slots emptied (R209,
R340). -/
def furrowClear (n : Nat) (s : State) : State :=
  let cr := furrowCredits n s
  let s := s.modCmdif fun i => { i with
    pool := i.pool + cr
    sqs := i.sqs.filter fun q => q.furrow != n
    cqs := i.cqs.filter fun q => q.furrow != n }
  let s := emptyKSlots (fun k => k.furrow == n) (modFurrow n (fun x => { x with logOn := false, log := none }) s)
  (ownedIdx n (fun r => !r.persist) s).foldl (fun s i => cullet i s) s

/-- FURROW_RESET (R209). -/
def execFurrowReset (id : Nat) (s : State) : Out := .next <| runOp noKeys 0x9004 id (fun c s =>
  let n := c.inlNat 48 2
  furrowCmd c n (fun x =>
    if x.state = .quiesced then
      some fun s => finishSt c .ok (modFurrow n (fun x => { x with state := .active, draining := false }) (furrowClear n s))
    else none) s) s

/-- FURROW_REMOVE (R210). -/
def execFurrowRemove (id : Nat) (s : State) : Out := .next <| runOp noKeys 0x9005 id (fun c s =>
  let n := c.inlNat 48 2
  furrowCmd c n (fun x =>
    if x.state = .quiesced && (ownedIdx n (fun r => r.persist) s).isEmpty then
      some fun s => finishSt c .ok (furrowSet n none (furrowClear n s))
    else none) s) s

/-! ### Dirty log commands (R214, R218, R219) -/

/-- Older writes of a furrow, up to a place in tally order, still lack their `FLUSH_ACK` (R218). -/
def olderUnflushed (f t : Nat) (s : State) : Bool :=
  let p := fun (w : Mwr) => w.furrow == some f && w.tally ≤ t
  s.ports.a.unflushed.any p || s.ports.b.unflushed.any p

/-- The report on the closed bitmap (R219). -/
def logReport (l : Option DirtyLog) : List Nat :=
  match l with
  | some l => [l.outside, bit l.incomplete]
  | none => [0, 0]

/-- Complete once the older writes are flushed; `scratch` holds furrow, place in tally order, outside count, INCOMPLETE. -/
def logWait (c : Cmd) (s : State) : State :=
  match c.scratch with
  | [f, t, out, inc] => if olderUnflushed f t s then s else finish c (Ending.inline (le 4 out ++ [BitVec.ofNat 8 inc])) s
  | _ => s

/-- Switch or stop a furrow's log and wait (R218). -/
def logSwitch (c : Cmd) (n : Nat) (x : Furrow) (l : Option DirtyLog) (s : State) : State :=
  let st := match x.state, l with
    | .active, some _ => .logging
    | .logging, none => .active
    | st, _ => st
  let c := { c with scratch := [n, s.dev.nextTally] ++ logReport x.log }
  logWait c (cmdPut c (furrowSet n (some { x with state := st, logOn := l.isSome, log := l }) s))

/-- DIRTY_LOG_START (R214, R218, R219): the switch waits until every page written so far is marked in the old bitmap. -/
def execDirtyLogStart (id : Nat) (s : State) : Out := .next <| runOp (blockOf 32) 0x9008 id (fun c s =>
  if c.scratch ≠ [] then logWait c s
  else
    let b := c.block
    let n := natAt b 24 2
    let pages := natAt b 16 8
    if natAt b 0 8 % 64 ≠ 0 ∨ natAt b 8 8 % 4096 ≠ 0 ∨ pages % 64 ≠ 0 ∨ pages < 64 ∨ 2 ^ 36 < pages ∨ natAt b 26 6 ≠ 0 then
      finishSt c .badParam s
    else if logBusy n s then s
    else furrowCmd c n (fun x => some fun s =>
      logSwitch c n x (some ⟨natAt b 0 8, natAt b 8 8, pages, [], [], [], 0, false⟩) s) s) s

/-- DIRTY_LOG_STOP (R218, R219), on the same condition. -/
def execDirtyLogStop (id : Nat) (s : State) : Out := .next <| runOp noKeys 0x9009 id (fun c s =>
  if c.scratch ≠ [] then logWait c s
  else
    let n := c.inlNat 48 2
    if logBusy n s then s
    else furrowCmd c n (fun x => if x.state = .active then none else some fun s => logSwitch c n x none s) s) s

/-! ### FURROW_QUERY (R212) -/

/-- The 32 bytes of a CQ record (Table 6-6). -/
def cqRecord (f n : Nat) (s : State) : List Byte :=
  match cqGet f n s with
  | none => zeros 32
  | some q =>
    le 8 q.base ++ le 1 q.sizeLog2 ++ le 1 (portNum q.confHome) ++ le 1 q.coalCount ++ le 1 (bit q.irqEn) ++ le 2 q.coalUs
      ++ le 2 q.head ++ le 8 q.irqAddr ++ le 4 q.irqData.toNat ++ le 2 q.tail ++ le 1 (bit q.phase) ++ le 1 0

/-- The 32 bytes of an SQ record (Table 6-6). -/
def sqRecord (f n : Nat) (s : State) : List Byte :=
  match sqGet f n s with
  | none => zeros 32
  | some q =>
    le 8 q.base ++ le 1 q.sizeLog2 ++ le 1 q.cq ++ le 1 q.weight ++ le 1 (bit q.enabled) ++ le 2 q.credits ++ le 2 q.head
      ++ le 2 q.tail ++ zeros 14

/-- Bitmap of a furrow's queues. -/
def presentMask (has : Nat → Bool) : Nat := ((List.range 8).map fun n => if has n then 2 ^ n else 0).sum

/-- The header of a furrow's state record (Table 6-5). -/
def furrowHeader (f : Nat) (x : Furrow) (tally : Nat) (full : Bool) (s : State) : List Byte :=
  le 2 f ++ le 1 (fstateCode x.state) ++ le 1 (bit x.logOn + 2 * bit (full && x.state == .quiesced)) ++ policyBytes f x s
    ++ le 1 (presentMask fun n => (sqGet f n s).isSome) ++ le 1 (presentMask fun n => (cqGet f n s).isSome) ++ le 2 0
    ++ le 4 (keysOwned f s) ++ le 8 tally ++ zeros 24

/-- A furrow's state record: 64 bytes, or 576 in expert form (R212). -/
def furrowRecord (f : Nat) (x : Furrow) (tally : Nat) (full : Bool) (s : State) : List Byte :=
  furrowHeader f x tally true s ++
    (if full then ((List.range 8).map fun n => cqRecord f n s).flatten ++ ((List.range 8).map fun n => sqRecord f n s).flatten
     else [])

/-- Size of a FURROW_QUERY result. -/
def furrowQueryLen (c : Cmd) : Nat := if c.form = 0 then 64 else 576

/-- FURROW_QUERY (R212). -/
def execFurrowQuery (id : Nat) (s : State) : Out :=
  .next <| runOp { noKeys with lens := fun c => needDst (furrowQueryLen c) c } 0x900A id (fun c s =>
    let n := c.inlNat 48 2
    match furrowGet n s with
    | none => finishSt c .badParam s
    | some x =>
      let t := cplTally c (Ending.out (zeros (furrowQueryLen c))) s
      finish c (Ending.out (furrowRecord n x t (c.form != 0) s)) s) s

/-! ### Drains (R206) -/

/-- FURROW_QUIESCED: a quiescing furrow has drained (Table 6-4, R206). -/
def execFurrowQuiesced (n : Nat) (s : State) : Out := .next <| if furrowState n s = .disabled then s else drainReport n s

/-- FURROW_DISABLED: a disabled furrow has drained (R206). -/
def execFurrowDisabled (n : Nat) (s : State) : Out := .next <| if furrowState n s = .disabled then drainReport n s else s

/-! ### Queue commands (Table 5-3) -/

/-- CQ_CREATE (Table 5-1). -/
def execCqCreate (id : Nat) (s : State) : Out := .next <| runOp (blockOf 32) 0x9010 id (fun c s =>
  let b := c.block
  let f := natAt b 10 2
  let n := natAt b 12 1
  let size := natAt b 8 1
  let home : Port := if bitAt b 9 0 then .b else .a
  let ok := decide (natAt b 0 8 % 32 = 0 ∧ 4 ≤ size ∧ size ≤ 16 ∧ natAt b 9 1 ≤ 1 ∧ f ≤ 4095 ∧ n ≤ 7)
    && decide (natAt b 28 1 ≤ 1 ∧ natAt b 29 3 = 0) && !(f == 0 && n == 0) && (cqGet f n s).isNone
    && furrowState f s == .active
  if !ok then finishSt c .badParam s
  else
    let q : Cq := ⟨f, n, natAt b 0 8, size, home, home, natAt b 13 1, natAt b 14 2, natAt b 16 8,
      BitVec.ofNat 32 (natAt b 24 4), bitAt b 28 0, 0, 0, true, 0, 0, 0⟩
    finishSt c .ok (s.modCmdif fun i => { i with cqs := insertCq q i.cqs })) s

/-- SQ_CREATE (Table 5-2). -/
def execSqCreate (id : Nat) (s : State) : Out := .next <| runOp (blockOf 32) 0x9012 id (fun c s =>
  let b := c.block
  let f := natAt b 10 2
  let n := natAt b 12 1
  let size := natAt b 8 1
  let cr := natAt b 14 2
  let ok := decide (natAt b 0 8 % 64 = 0 ∧ 4 ≤ size ∧ size ≤ 16 ∧ f ≤ 4095 ∧ n ≤ 7 ∧ natAt b 9 1 ≤ 7)
    && decide (1 ≤ natAt b 13 1 ∧ natAt b 13 1 ≤ 16 ∧ 1 ≤ cr ∧ cr ≤ 4096) && allZero (bytesAt b 16 16)
    && !(f == 0 && n == 0) && (sqGet f n s).isNone && (cqGet f (natAt b 9 1) s).isSome && furrowState f s == .active
  if !ok then finishSt c .badParam s
  else
    let quota := match furrowGet f s with
      | some x => x.creditQuota
      | none => 0
    if s.cmdif.pool < cr ∨ quota < furrowCredits f s + cr then finishSt c .quotaExceeded s
    else
      let q : Sq := ⟨f, n, natAt b 0 8, size, natAt b 9 1, natAt b 13 1, cr, cr, 0, 0, true, 0, 0, [], [], [], false, false⟩
      finishSt c .ok (s.modCmdif fun i => { i with pool := i.pool - cr, sqs := insertSq q i.sqs })) s

/-- The queue named in INLINE, for SQ commands; the admin queue cannot be named (R158). -/
def namedSq (c : Cmd) (s : State) : Option Sq :=
  let f := c.inlNat 48 2
  let n := c.inlNat 50 1
  if f = 0 ∧ n = 0 then none else sqGet f n s

/-- CQ_DELETE (Table 5-3). -/
def execCqDelete (id : Nat) (s : State) : Out := .next <| runOp noKeys 0x9011 id (fun c s =>
  let f := c.inlNat 48 2
  let n := c.inlNat 50 1
  if (f = 0 ∧ n = 0) ∨ (cqGet f n s).isNone ∨ s.cmdif.sqs.any (fun q => q.furrow == f && q.cq == n) then finishSt c .badParam s
  else finishSt c .ok (s.modCmdif fun i => { i with cqs := i.cqs.filter fun q => !(q.furrow == f && q.n == n) })) s

/-- SQ_DELETE (Table 5-3). -/
def execSqDelete (id : Nat) (s : State) : Out := .next <| runOp noKeys 0x9013 id (fun c s =>
  match namedSq c s with
  | none => finishSt c .badParam s
  | some q =>
    if q.enabled || !sqDrained q s then finishSt c .furrowNotQuiesced s
    else finishSt c .ok (s.modCmdif fun i => { i with
      pool := i.pool + q.credits, sqs := i.sqs.filter fun x => !(x.furrow == q.furrow && x.n == q.n) })) s

/-- SQ_DISABLE (Table 5-3, R45). -/
def execSqDisable (id : Nat) (s : State) : Out := .next <| runOp noKeys 0x9014 id (fun c s =>
  match namedSq c s with
  | none => finishSt c .badParam s
  | some q =>
    let s := finishSt c .ok s
    if q.enabled then disableSq q.furrow q.n s else s) s

/-- SQ_ENABLE (Table 5-3). -/
def execSqEnable (id : Nat) (s : State) : Out := .next <| runOp noKeys 0x9015 id (fun c s =>
  match namedSq c s with
  | none => finishSt c .badParam s
  | some q =>
    if q.enabled then finishSt c .ok s
    else if !sqDrained q s then finishSt c .furrowNotQuiesced s
    else finishSt c .ok (modSq q.furrow q.n (fun q => { q with enabled := true, disabling := false }) s)) s

/-- The 32 bytes of QUEUE_QUERY (Table 5-3a). -/
def queueReport (q : Sq) (s : State) : List Byte :=
  let cqb := match cqGet q.furrow q.cq s with
    | some k => le 2 k.head ++ le 2 k.tail ++ le 1 (bit k.phase)
    | none => zeros 5
  le 2 q.head ++ le 2 q.tail ++ le 2 q.credits ++ le 2 q.avail ++ cqb ++ le 1 q.cq
    ++ le 1 (bit q.enabled + 2 * bit (sqDrained q s)) ++ zeros 17

/-- QUEUE_QUERY (R158, Table 5-3a). -/
def execQueueQuery (id : Nat) (s : State) : Out :=
  .next <| runOp { noKeys with lens := needDst 32 } 0x9016 id (fun c s =>
    match namedSq c s with
    | none => finishSt c .badParam s
    | some q => finish c (Ending.out (queueReport q s)) s) s

/-! ### NOP and LOOPBACK (R185) -/

/-- NOP completes with `OK` and has no other effect. -/
def execNop (id : Nat) (s : State) : Out := .next <| runOp noKeys 0x0000 id (fun c s => finishSt c .ok s) s

/-- LOOPBACK copies `SRC_LEN` bytes from `SRC` to `DST` (R185). -/
def execLoopback (id : Nat) (s : State) : Out :=
  .next <| runOp { noKeys with lens := fun c => needDst c.srcLen c } 0xF002 id (fun c s => finish c (Ending.out c.data) s) s

end Sys2Proof.Machine
end

