-- ==== Sys2Proof/Machine/Rng.lean ====
section
/-! DEFINITION. The random number generator (chapter 11): noise sources, Gather lanes, the DRBG, the mask expander, the
private wires and class 0x5. -/
namespace Sys2Proof.Machine

/-- Update the random number generator. -/
def State.modRng (s : State) (f : Rng → Rng) : State := { s with rng := f s.rng }

/-- One noise source. -/
def State.src (s : State) : Side → NoiseSrc
  | .a => s.rng.a
  | .b => s.rng.b

/-- Update one noise source. -/
def State.modSrc (s : State) (x : Side) (f : NoiseSrc → NoiseSrc) : State :=
  s.modRng fun r => match x with
    | .a => { r with a := f r.a }
    | .b => { r with b := f r.b }

/-- Number of a source: 0 A, 1 B. -/
def sideNum : Side → Nat
  | .a => 0
  | .b => 1

/-- The other source. -/
def otherSide : Side → Side
  | .a => .b
  | .b => .a

/-- Act only under main power. -/
def onMain (f : State → State) (s : State) : State := if s.dev.mainOn then f s else s

/-- `RNG_CFG.KEY_PREF`: the preferred KEY source. -/
def keyPref (s : State) : Side := if regBit 0x8004 0 s then .b else .a

/-- The source that serves the MASK class now (Table 11-3): on a fallback the KEY class's source, else the MASK source, which is the
source not preferred, or the preferred one where that is retired and the preferred one is not IN_SERVICE. -/
def maskSrc (s : State) : Side :=
  let m := otherSide (keyPref s)
  match s.rng.fallback, s.rng.keySrc with
  | true, some x => x
  | _, _ => if (s.src m).st = .retired ∧ (s.src (keyPref s)).st ≠ .inService then keyPref s else m

/-- The KEY class delivers: `E7_RDY` (R375, R378, R381). -/
def keyReady (s : State) : Bool := s.rng.inst && !s.rng.stopped && !s.rng.reseedDue

/-- Raw bits of one Gather block (Table 11-1). -/
def blockBits : Side → Nat
  | .a => 640
  | .b => 480

/-- Estimate limit (Table 11-1). -/
def estLimit : Side → Int
  | .a => 8192
  | .b => 4096

/-! ### The DRBG (R383 to R385) -/

/-- Take `n` blocks from a source's reserve, oldest first; a block leaves only once (R371). -/
def takeBlocks (x : Side) (n : Nat) (s : State) : List Byte × State :=
  (((s.src x).reserve.take n).flatten, s.modSrc x fun q => { q with reserve := q.reserve.drop n })

/-- Reseed from two blocks of the KEY class's source, where they are there (R385, R378). -/
def reseed (add : List Byte) (s : State) : State :=
  match s.rng.keySrc with
  | none => s
  | some x =>
    if s.rng.inst && decide (2 ≤ (s.src x).reserve.length) then
      let (e, s) := takeBlocks x 2 s
      let kv := drbgReseed e add s.rng.key s.rng.v
      bump 0x8108 1 (s.modRng fun r => { r with
        key := kv.1, v := kv.2, requests := 0, reseedDue := false, reseeds := r.reseeds + 1 })
    else s

/-- Answer of a request for KEY-class output. -/
inductive Draw where
  | ok (bytes : List Byte) (s : State)
  | wait (s : State)
  | stopped (s : State)

/-- One DRBG request of `n` bytes (R384, R385, R381). -/
def drawKey (n : Nat) (add : List Byte) (s : State) : Draw :=
  if s.rng.stopped then .stopped s
  else if !keyReady s then .wait s
  else if 1048576 ≤ s.rng.requests then .wait (bump 0x8114 1 s)
  else
    let (bs, kv) := drbgGen n add s.rng.key s.rng.v
    .ok bs (bump64 0x8100 1 (s.modRng fun r => { r with key := kv.1, v := kv.2, requests := r.requests + 1 }))

/-- A command that needs KEY-class output: it goes on with the bytes, waits, or ends (R270, R361, R391). -/
def withKey (c : Cmd) (n : Nat) (s : State) (k : List Byte → State → State) : State :=
  match drawKey n [] s with
  | .ok bs s => k bs s
  | .wait s => cmdPut { c with entropyWait := true } s
  | .stopped s => finishSt c .entropyUnavailable s

/-- Personalization string: `DEVICE_UID_HI`, `DEVICE_UID_LO`, `DEVICE_TALLY_MARK` (Table 11-4); byte order: log 9. -/
def drbgPers (s : State) : List Byte := be 8 s.fuses.uid.toNat ++ be 8 s.dev.markCopy

/-! ### Software reads and the private wires (R388 to R391) -/

/-- Set a bit of `RNG_ERR` (R395). -/
def rngErr (n : Nat) (s : State) : State := raiseErr 0x8010 0x8014 0x8006 n (wfield n 0) s

/-- Answer of one word of `RNG_DATA`. -/
inductive WordAns where
  | ok (w : Word) (s : State)
  | wait (s : State)
  | zero (s : State)

/-- Modes whose host ports may not read `RNG_DATA`: Table 3-2 forbids class 0x5. -/
def class5Forbidden : Mode → Bool
  | .provision | .ceremony | .service | .degraded => false
  | _ => true

/-- One word for a requester: from its buffer, which one request of 256 bits refills (R388, R389). -/
def rngWord (r : Requester) (s : State) : WordAns :=
  if s.rng.stopped || (isHost r && class5Forbidden s.dev.mode) then .zero (rngErr 5 s)
  else
    let k := reqCode r
    match (assocGet k s.rng.bufs).getD [] with
    | w :: rest => if keyReady s then .ok w (s.modRng fun g => { g with bufs := assocSet k (some rest) g.bufs }) else .wait s
    | [] => match drawKey 32 [] s with
      | .ok bs s =>
        let ws := (chunks 4 bs).map fun b => BitVec.ofNat 32 (leNat b)
        .ok (ws.headD 0) (s.modRng fun g => { g with bufs := assocSet k (some (ws.drop 1)) g.bufs })
      | .wait s => .wait s
      | .stopped s => .zero (rngErr 5 s)

/-- Bytes `off` to `off + n - 1` of a word (R55). -/
def wordBytes (off n : Nat) (w : Word) : BitVec 64 := BitVec.ofNat 64 (w.toNat / 2 ^ (8 * off) % 2 ^ (8 * n))

/-- A read of `n` bytes of `RNG_DATA` at byte `off`: answered, or it waits (R389). A 64-bit read takes two consecutive words; a
narrower one takes a word and returns the addressed bytes (R55). -/
def rngDataRead (r : Requester) (off n tag : Nat) (s : State) : State :=
  let hold := fun (s : State) => s.modRng fun g => { g with reads := g.reads ++ [(r, off, n, tag)] }
  match rngWord r s with
  | .zero s => answer r (0x8020 + off) n tag 0 s
  | .wait s => hold s
  | .ok w s' =>
    if n ≤ 4 then answer r (0x8020 + off) n tag (wordBytes off n w) s'
    else match rngWord r s' with
      | .ok h s' => answer r 0x8020 n tag (h ++ w) s'
      | _ => hold s

/-- Answer one request on the private wires, or hold it (R390, R391). -/
def e7Serve (consumer : Nat) (s : State) : State :=
  match drawKey 16 [] s with
  | .ok bs s => s.modRng fun g => { g with wires := assocSet consumer (some bs) g.wires, held := g.held.filter (· != consumer) }
  | .wait s => s.modRng fun g => { g with held := insertNat consumer g.held }
  | .stopped s => s.modRng fun g => { g with held := g.held.filter (· != consumer) }

/-- Serve one of the requesters that wait: 0 to 5 its read of `RNG_DATA`, 6 to 8 a consumer's wires. -/
def serveOne (s : State) (n : Nat) : State :=
  let s := s.modRng fun g => { g with turn := n }
  match s.rng.reads.find? fun r => reqCode r.1 == n with
  | some r => rngDataRead r.1 r.2.1 r.2.2.1 r.2.2.2 (s.modRng fun g => { g with reads := g.reads.filter fun x => decide (x ≠ r) })
  | none => if s.rng.held.contains (n - 6) && decide (6 ≤ n) then e7Serve (n - 6) s else s

/-- Serve what waits for the KEY class: in rotation, one request each, from the requester after the one served last (R384). -/
def serveWaiters (s : State) : State :=
  ((List.range 9).map fun i => (s.rng.turn + 1 + i) % 9).foldl
    (fun s n => if (s.rng.reads.any fun r => reqCode r.1 == n) || (decide (6 ≤ n) && s.rng.held.contains (n - 6)) then serveOne s n else s) s

/-- The KEY class stops (R381). -/
def stopKey (s : State) : State :=
  let s := s.modRng fun g => { g with
    stopped := true, inst := false, reseedDue := false, key := [], v := [], requests := 0, keySrc := none }
  let s := postEvt .both 0x8003 0 0 (rngErr 3 s)
  serveWaiters (finishAll (·.entropyWait) .entropyUnavailable s)

/-- The KEY class moves to another source, and the DRBG must reseed from it (R378). -/
def moveKey (x : Side) (s : State) : State :=
  let s := s.modRng fun g => { g with keySrc := some x, reseedDue := true }
  postEvt .both 0x8002 (BitVec.ofNat 32 (sideNum x)) 0 (rngErr 2 s)

/-- Seed the expander cores that hold no seed, while the MASK source's reserve lasts (R386). -/
def seedCores (s : State) : State :=
  (List.range 24).foldl (fun s n =>
    match assocGet n s.rng.seeds, (s.src (maskSrc s)).reserve with
    | none, _ :: _ =>
      let (b, s) := takeBlocks (maskSrc s) 1 s
      s.modRng fun g => { g with seeds := assocSet n (some b) g.seeds }
    | _, _ => s) s

/-- Instantiate the DRBG from three blocks of a source (Table 11-4). -/
def instantiate (x : Side) (s : State) : State :=
  let (e, s) := takeBlocks x 2 s
  let (n, s) := takeBlocks x 1 s
  let kv := drbgInit e n (drbgPers s)
  seedCores (s.modRng fun g => { g with
    key := kv.1, v := kv.2, requests := 0, inst := true, started := true, stopped := false, reseedDue := false, keySrc := some x })

/-- The KEY class resumes from a source that passed (R381). -/
def resumeKey (x : Side) (s : State) : State :=
  if 3 ≤ (s.src x).reserve.length then
    serveWaiters (postEvt .both 0x8004 (BitVec.ofNat 32 (sideNum x)) 0 (instantiate x s))
  else s

/-! ### Events of the generator -/

/-- Fold one raw bit into a Gather lane (R370). -/
def gatherBit (x : Side) (r : Bool) (q : NoiseSrc) : NoiseSrc :=
  let f := ((q.lfsr.getLsbD 255).xor (q.lfsr.getLsbD 253)).xor (((q.lfsr.getLsbD 250).xor (q.lfsr.getLsbD 245)).xor r)
  let l := (q.lfsr <<< 1) ||| BitVec.ofNat 256 (bit f)
  if q.absorbed + 1 = blockBits x then { q with lfsr := l, absorbed := 0, pend := q.pend ++ [be 32 l.toNat] }
  else { q with lfsr := l, absorbed := q.absorbed + 1 }

/-- Update a source's health tests. -/
def NoiseSrc.modHealth (q : NoiseSrc) (f : Health → Health) : NoiseSrc := { q with health := f q.health }

/-- Cutoff of the repetition-count test (Table 11-1). -/
def rctCutoff : Side → Nat
  | .a => 35
  | .b => 26

/-- Cutoff of the adaptive-proportion test on windows of 1,024 bits (Table 11-1). -/
def aptCutoff : Side → Nat
  | .a => 749
  | .b => 664

/-- The tests of R372 on one raw bit: run of equal bits, proportion of the window's first bit, ones and lags of the estimate window.
A test that fails starts afresh with the next bit (DESIGN CHOICE, log 9). -/
def healthBit (x : Side) (b : Bool) (h : Health) : Health :=
  let run := if h.run ≠ 0 ∧ h.last = b then h.run + 1 else 1
  let first := if h.aptPos = 0 then b else h.aptBit
  let count := if h.aptPos = 0 then 1 else h.aptCount + bit (b == first)
  let rct := decide (rctCutoff x ≤ run)
  let apt := decide (aptCutoff x ≤ count)
  { h with
    run := if rct then 0 else run
    last := b
    aptPos := if apt then 0 else (h.aptPos + 1) % 1024
    aptBit := first
    aptCount := count
    pos := h.pos + 1
    ones := h.ones + bit b
    lags := h.lags.zipIdx.map fun c => c.1 + bit (h.hist.getLsbD c.2 == b)
    hist := (h.hist <<< 1) ||| BitVec.ofNat 8 (bit b)
    bad := h.bad || rct || apt
    failed := (if rct then [0] else []) ++ (if apt then [1] else []) }

/-- One raw bit of a source: discarded in the warm-up (R374), else tested and folded into its lane. -/
def sampleBit (x : Side) (b : Bool) (q : NoiseSrc) : NoiseSrc :=
  if q.health.warm ≠ 0 then
    q.modHealth fun h => { h with warm := h.warm - 1, hist := (h.hist <<< 1) ||| BitVec.ofNat 8 (bit b) }
  else (gatherBit x b q).modHealth (healthBit x b)

/-- A start-up test or retest is in progress. -/
def NoiseSrc.inTest (q : NoiseSrc) : Bool := q.st == .starting || q.st == .retesting

/-- Something is due at the bit just sampled: a failure, the end of an estimate window, or the end of the start-up test. -/
def NoiseSrc.due (q : NoiseSrc) : Bool :=
  !q.health.failed.isEmpty || q.health.pos == 65536 || (q.inTest && decide (4 ≤ q.health.windows))

/-- Sample bits up to the first at which something is due; those behind it stand in the queue until that has been done. -/
def sampleBits (x : Side) : List Bool → NoiseSrc → NoiseSrc
  | [], q => q.modHealth fun h => { h with queue := [] }
  | b :: bs, q => if q.due then q.modHealth fun h => { h with queue := b :: bs } else sampleBits x bs (sampleBit x b q)

/-- Go on with a source's queued bits. -/
def resumeBits (x : Side) (s : State) : State :=
  if (s.src x).st = .retired then s else s.modSrc x fun q => sampleBits x q.health.queue q

/-- GATHER_BLOCK: a source gives raw bits; they are tested, and its lane absorbs them, emitting a pending block at each full count (R370,
R372). -/
def execGatherBlock (x : Side) (raw : List Bool) (s : State) : Out :=
  .next <| onMain (fun s =>
    if (s.src x).st = .retired then s else s.modSrc x fun q => sampleBits x (q.health.queue ++ raw) q) s

/-- The estimate window starts anew. -/
def newWindow (h : Health) : Health := { h with pos := 0, ones := 0, lags := List.replicate 8 0, bad := false }

/-- The start-up test begins, with tests and windows of its own (R374; DEDUCED from Table 11-9, log 9). -/
def newTest (h : Health) : Health := { newWindow h with run := 0, aptPos := 0, windows := 0, testBad := false }

/-- Key of a source's `RNG_x_HEALTH`. -/
def healthKey : Side → Nat
  | .a => 0x8040
  | .b => 0x8060

/-- Step a saturating 8-bit field of a register whose lowest bit is `lo`, at most `top`. -/
def bumpField (k lo top : Nat) (s : State) : State :=
  let w := regGet k s
  let n := fieldOf w (lo + 7) lo
  if n < top then regSet k (w + wfield 1 lo) s else s

/-- Low bit of the count of a test in `RNG_x_HEALTH` (Table 11-14). -/
def healthLo (test : Nat) : Nat := if test = 0 then 24 else if test = 1 then 16 else 8

/-- Count a failure of the MASK-serving source (R380, Table 11-16). -/
def maskFail (test : Nat) (s : State) : State :=
  bumpField 0x8080 (if test = 0 then 16 else if test = 1 then 8 else 0) 255 s

/-- The window fails: pending blocks go, the lane restarts from zero (R371). -/
def windowFail (x : Side) (s : State) : State :=
  s.modSrc x fun q => { q with pend := [], lfsr := 0, absorbed := 0 }

/-- Post `RNG_HEALTH_FAIL`. -/
def healthEvt (x : Side) (test : Nat) (s : State) : State :=
  postEvt .both 0x8001 (wfield test 4 ||| wfield (sideNum x) 0) 0 s

/-- A source fails a health test (R371, R372, R375, R378, R380). -/
def healthFail (x : Side) (test : Nat) (s : State) : State :=
  if (s.src x).st = .retired then s
  else
    let s := bumpField (healthKey x) (healthLo test) 255 (windowFail x s)
    let s := s.modSrc x fun q => { q with fails := q.fails + 1 }
    if (s.src x).st = .inService then
      if !s.rng.started then healthEvt x test (s.modSrc x fun q => { q.modHealth newTest with st := .retesting })
      else if s.rng.keySrc = some x then
        let s := if maskSrc s = x then maskFail test s else s
        let s := s.modSrc x fun q => { q.modHealth newTest with st := .retesting }
        let o := otherSide x
        let s := healthEvt x test (rngErr (sideNum x) s)
        if (s.src o).st = .inService then moveKey o s else stopKey s
      else if maskSrc s = x then maskFail test s else s
    else
      let s := s.modSrc x fun q => q.modHealth fun h => { h with testBad := true }
      if s.rng.started && decide (maskSrc s = x) then maskFail test s else s

/-- A source's failures at its last bit are acted on. -/
def actFails (x : Side) (s : State) : State :=
  (s.src x).health.failed.foldl (fun s t => healthFail x t s) (s.modSrc x fun q => q.modHealth fun h => { h with failed := [] })

/-- Repetition-count and adaptive-proportion failures are acted on; two sources that fail in one engine clock act in the order A, then
B (R382). -/
def healthRow (s : State) : State := resumeBits .b (resumeBits .a (actFails .b (actFails .a s)))

/-- A signed 16-bit estimate. -/
def est16 (e : Int) : Nat := (BitVec.ofInt 16 e).toNat

/-- The first failing estimate: 2 bias, 3 to 10 lags 1 to 8 (R372, Table 11-17). -/
def estFailing (lim : Int) : Nat → List Int → Option Nat
  | _, [] => none
  | n, e :: es => if lim < e ∨ e < -lim then some n else estFailing lim (n + 1) es

/-- Write the nine estimates of a window, and count the window (R373, Table 11-15). -/
def writeEst (x : Side) (es : List Int) (s : State) : State :=
  let k := healthKey x + 4
  let e := fun (i : Nat) => est16 (es.getD i 0)
  let w := fieldOf (regGet (k + 16) s) 15 0 + 1
  let pair := fun (i : Nat) (s : State) => regSet (k + 4 * i) (wfield (e (2 * i)) 16 ||| wfield (e (2 * i + 1)) 0) s
  regSet (k + 16) (wfield (e 8) 16 ||| wfield (w % 65536) 0) (pair 3 (pair 2 (pair 1 (pair 0 s))))

/-- A passed window credits the lane's pending blocks; a full reserve discards them (R371). -/
def credit (x : Side) (s : State) : State :=
  let n := (s.src x).pend.length
  let s := s.modSrc x fun q => { q with reserve := (q.reserve ++ q.pend).take 128, pend := [] }
  let s := bump (match x with
    | .a => 0x810C
    | .b => 0x8110) n s
  if n ≠ 0 ∧ x = otherSide (keyPref s) then s.modRng fun g => { g with fallback := false } else s

/-- The nine estimates of a window: bias, then lags 1 to 8 (R372). -/
def estimates (h : Health) : List Int := (h.ones :: h.lags).map fun n => Int.ofNat n - 32768

/-- An estimate window ends: the estimates are written; pending blocks are credited or discarded; a start-up test has one window more
(R371 to R374). -/
def windowRow (x : Side) (s : State) : State :=
  let q := s.src x
  if q.st = .retired ∨ q.health.pos ≠ 65536 then s
  else
    let s := (writeEst x (estimates q.health) s).modSrc x fun q => q.modHealth newWindow
    let s := match estFailing (estLimit x) 2 (estimates q.health) with
      | some t => healthFail x t s
      | none => if q.health.bad then windowFail x s else credit x s
    resumeBits x (if q.inTest then s.modSrc x fun q => q.modHealth fun h => { h with windows := h.windows + 1 } else s)

/-- Retire a source that failed its start-up test twice (R376). -/
def retireSource (x : Side) (s : State) : State :=
  let s := s.modSrc x fun q => { q.modHealth (fun h => { h with queue := [] }) with st := .retired, pend := [], lfsr := 0, absorbed := 0 }
  let s := { s with units := { s.units with sources := s.units.sources ||| (1 <<< sideNum x) } }
  let s := postEvt .both 0x8005 (BitVec.ofNat 32 (sideNum x)) 0 (rngErr 4 (setDegraded 8 (recordRetired 8 s.units.sources.toNat s)))
  if (s.src (otherSide x)).st = .retired then stopKey s else s

/-- A start-up test or retest ends with its fourth window: it passes when no test has failed (R374 to R376, R379, R381). -/
def startupRow (x : Side) (s : State) : State :=
  let q := s.src x
  if q.inTest && decide (4 ≤ q.health.windows) then
    let k := healthKey x
    let s := s.modSrc x fun q => q.modHealth newTest
    if !q.health.testBad then
      let s := regMask k 0x3 0 (s.modSrc x fun q => { q with st := .inService })
      resumeBits x (if s.rng.stopped then resumeKey x s else s)
    else
      let n := fieldOf (regGet k s) 1 0 + 1
      let s := healthEvt x 11 (regMask k 0x3 (BitVec.ofNat 32 (min n 2)) s)
      if 2 ≤ n then retireSource x s else resumeBits x s
  else s

/-- The source that would serve the KEY class at a start (Table 11-3). -/
def startSrc (s : State) : Side := if (s.src (keyPref s)).st = .inService then keyPref s else otherSide (keyPref s)

/-- What the first instantiation waits for (R375): every source not retired has passed its start-up test, the known-answer tests have
passed, and the blocks of the DRBG and the 24 cores are there. -/
def startReady (s : State) : Bool :=
  let x := startSrc s
  let m := maskSrc s
  let done := fun y => decide ((s.src y).st = .inService ∨ (s.src y).st = .retired)
  s.rng.kat && done .a && done .b && decide ((s.src x).st = .inService)
    && (if m = x then decide (27 ≤ (s.src x).reserve.length)
        else decide (3 ≤ (s.src x).reserve.length) && ((s.src m).st == .retired || decide (24 ≤ (s.src m).reserve.length)))

/-- The DRBG is instantiated and the expander cores are seeded, once their blocks are there (R375, R381, R394). -/
def instantiateRow (s : State) : State :=
  if s.rng.inst then s
  else if s.rng.stopped then (if (s.src (startSrc s)).st = .inService then resumeKey (startSrc s) s else s)
  else if s.rng.started then
    match s.rng.keySrc with
    | some x => if 3 ≤ (s.src x).reserve.length then serveWaiters (instantiate x s) else s
    | none => s
  else if startReady s then serveWaiters (instantiate (startSrc s) s)
  else s

/-- A reseed is due: the class has moved, or 65,536 requests have passed (R378, R385). -/
def reseedWanted (s : State) : Bool := s.rng.inst && (s.rng.reseedDue || decide (65536 ≤ s.rng.requests))

/-- The DRBG reseeds from two blocks (R385). -/
def reseedRow (s : State) : State := if reseedWanted s then serveWaiters (reseed [] s) else s

/-- MASK_FALLBACK: the MASK source has credited no block for 1 ms, and the KEY class's source serves in its place (Table 11-3). -/
def execMaskFallback (s : State) : Out :=
  .next <| onMain (fun s =>
    match s.rng.keySrc with
    | none => s
    | some x => if s.rng.fallback ∨ x = otherSide (keyPref s) then s
      else (let w := regGet 0x8080 s
            let n := fieldOf w 30 24
            let s := if n < 127 then regSet 0x8080 (w + wfield 1 24) s else s
            s.modRng fun g => { g with fallback := true })) s

/-- A RANDOM_BYTES command waits to reseed (R393). -/
def reseedAsked (s : State) : Bool :=
  s.cmdif.cmds.any fun c => c.entropyWait && c.opcode == 0x5001 && c.form == 1 && (c.inlByte 48).getLsbD 0

/-- Blocks the KEY class wants of its source before the MASK class (Table 11-3): three to instantiate, two to reseed. -/
def keyWants (s : State) : Nat :=
  if s.rng.stopped then 0 else if !s.rng.inst then 3 else if reseedWanted s || reseedAsked s then 2 else 0

/-- EXPANDER_REKEY: a core that asked for a seed receives one MASK-class block, the first to ask first, and KEY first where one source
serves both; `short` counts the engine clocks it was without masks (R387). A core that no earlier one waits for may also have asked
because its words were discarded (R386). -/
def execExpanderRekey (core : Fin 24) (short : Nat) (s : State) : Out :=
  .next <| onMain (fun s =>
    if !s.rng.started || !(s.rng.asks.isEmpty || s.rng.asks.head? == some core.val) then s
    else
      let s := bump 0x8118 short s
      let x := maskSrc s
      let keep := if s.rng.keySrc = some x then keyWants s else 0
      if keep < (s.src x).reserve.length then
        let (b, s) := takeBlocks x 1 s
        bump 0x811C 1 (s.modRng fun g => { g with
          seeds := assocSet core.val (some b) g.seeds, spent := assocSet core.val none g.spent, asks := g.asks.drop 1 })
      else s) s

/-- E7_REQ: a consumer raises its request: 0 cipher engine, 1 Flume, 2 key store controller (R390, R391). -/
def execE7Req (consumer : Fin 3) (s : State) : Out := .next <| onMain (e7Serve consumer.val) s

/-! ### Registers -/

/-- Codes of Table 11-11. -/
def srcCode : SrcState → Nat
  | .inService => 0
  | .retesting => 1
  | .retired => 2
  | .starting => 3

/-- `KEY_SRC` code. -/
def keySrcCode (s : State) : Nat :=
  match s.rng.keySrc with
  | some x => sideNum x
  | none => 3

/-- `STRETCHED` and `STALLED` (R385). -/
def stretched (s : State) : Bool := decide (65536 ≤ s.rng.requests)
/-- `STALLED`. -/
def stalled (s : State) : Bool := decide (1048576 ≤ s.rng.requests)

/-- `RNG_STATUS` (Table 11-11). -/
def rngStatus (s : State) : Word :=
  wbit (keyReady s) 31 ||| wbit s.rng.stopped 30 ||| wbit (stretched s) 29 ||| wbit (stalled s) 28
    ||| wfield (keySrcCode s) 22 ||| wfield (sideNum (maskSrc s)) 20
    ||| wfield (srcCode s.rng.b.st) 10 ||| wfield (srcCode s.rng.a.st) 8

/-- A write of `RNG_CFG`, already checked (R379). -/
def rngCfgWrite (v : Word) (s : State) : State :=
  if v.getLsbD 0 == regBit 0x8004 0 s then s else
  let s := regMask 0x8004 1 v s
  let p := keyPref s
  if s.rng.started && !s.rng.stopped && decide ((s.src p).st = .inService) && decide (s.rng.keySrc ≠ some p) then moveKey p s
  else s

/-- A write of `RNG_MASK_CFG`, already checked: 12 to 24 (Table 11-12). -/
def rngMaskCfgWrite (v : Word) (s : State) : State :=
  let n := fieldOf v 4 0
  if 12 ≤ n ∧ n ≤ 24 then regMask 0x8008 0x1F v s else s

/-- A write of `RNG_MASK_FAILS` (Table 11-16). -/
def rngMaskFailsWrite (v : Word) (s : State) : State := if v.getLsbD 31 then regSet 0x8080 0 s else s

/-! ### Alarms (R394) -/

/-- Erasure at response level 3 and above. -/
def rngErase (s : State) : State :=
  let wipe := fun (q : NoiseSrc) => { q with pend := [], reserve := [] }
  s.modRng fun g => { g with
    a := wipe g.a, b := wipe g.b, inst := false, reseedDue := false, key := [], v := [], requests := 0, bufs := [], seeds := []
    spent := [], asks := [] }

/-! ### Class 0x5 (R392, R393) -/

/-- `RANDOM_BYTES`. -/
def randomSpec : OpSpec :=
  { noKeys with
    lens := fun c => if c.srcLen ≠ 0 ∨ c.dstLen = 0 then some (Ending.st .badLength) else none
    params := fun c _ =>
      if c.keyA ≠ 0 ∨ c.keyB ≠ 0 then some .badParam
      else if c.form = 0 then (if allZero c.inl then none else some .badParam)
      else
        let n := c.inlNat 49 1
        if (c.inlByte 48).toNat < 2 && decide (n ≤ 14) && allZero (c.inl.drop (2 + n)) then none else some .badParam }

/-- RANDOM_BYTES: one DRBG request; with `RESEED`, prediction resistance from two blocks of the KEY class's source. -/
def randomBody (c : Cmd) (s : State) : State :=
  let add := c.inlBytes 50 (c.inlNat 49 1)
  let go := fun (add : List Byte) (s : State) => match drawKey c.dstLen add s with
    | .ok bs s => finish c (Ending.out bs) s
    | .wait s => cmdPut { c with entropyWait := true } s
    | .stopped s => finishSt c .entropyUnavailable s
  if c.form = 1 ∧ (c.inlByte 48).getLsbD 0 then
    if s.rng.stopped then finishSt c .entropyUnavailable s
    else
      let held := match s.rng.keySrc with
        | some x => decide (2 ≤ (s.src x).reserve.length) && s.rng.inst
        | none => false
      if held then go [] (reseed add s) else cmdPut { c with entropyWait := true } s
  else go (if c.form = 1 then add else []) s

/-- RANDOM_BYTES (R393). -/
def execRandomBytes (id : Nat) (s : State) : Out := .next <| runOp randomSpec 0x5001 id randomBody s

/-- The nine estimates of a source as the health record gives them (Table 11-8). -/
def estBytes (x : Side) (s : State) : List Byte :=
  let k := healthKey x + 4
  let pair := fun (i : Nat) => let w := regGet (k + 4 * i) s; le 2 (fieldOf w 31 16) ++ le 2 (fieldOf w 15 0)
  pair 0 ++ pair 1 ++ pair 2 ++ pair 3 ++ le 2 (fieldOf (regGet (k + 16) s) 31 16)

/-- The health record (Table 11-8). -/
def healthRecord (s : State) : List Byte :=
  [BitVec.ofNat 8 (srcCode s.rng.a.st), BitVec.ofNat 8 (srcCode s.rng.b.st),
    (match s.rng.keySrc with
     | some x => BitVec.ofNat 8 (sideNum x)
     | none => 0xFF),
    BitVec.ofNat 8 (bit s.rng.inst + 2 * bit (stretched s) + 4 * bit (stalled s))]
  ++ le 4 s.rng.requests ++ le 8 s.rng.reseeds ++ estBytes .a s ++ estBytes .b s ++ le 4 s.rng.a.fails ++ le 4 s.rng.b.fails
  ++ le 4 (fieldOf (regGet 0x8080 s) 30 0)

/-- RNG_HEALTH writes the health record (R392). -/
def execRngHealth (id : Nat) (s : State) : Out :=
  .next <| runOp { noKeys with
    lens := fun c => if c.srcLen ≠ 0 then some (Ending.st .badLength) else needDst 64 c
    params := fun c _ => if c.keyA ≠ 0 ∨ c.keyB ≠ 0 ∨ !allZero c.inl then some .badParam else none } 0x5002 id
    (fun c s => finish c (Ending.out (healthRecord s)) s) s

end Sys2Proof.Machine
end

