-- ==== Sys2Proof/Machine/Flume.lean ====
section
/-! DEFINITION. Flume and the payment transforms of class 0x3 (chapter 08). -/
namespace Sys2Proof.Machine

/-- End a class 0x3 command, counted (Table 8-19). -/
def flumeEnd (c : Cmd) (f : Ending) (s : State) : State :=
  let s := bump64 0x6100 1 s
  finish c f (if f.status = .verifyFailed then bump64 0x6108 1 s else s)

/-- `OK` with an inline result, or `VERIFY_FAILED` with nothing. -/
def flumeVerify (c : Cmd) (ok : Bool) (s : State) : State := flumeEnd c (Ending.st (if ok then .ok else .verifyFailed)) s

/-- Fill for a PIN block of a format: one word of the private wires where the format takes random fill (R270, R288). -/
def withFill (c : Cmd) (fmt : Nat) (s : State) (k : List Byte → State → State) : State :=
  if fmt = 0 then k [] s
  else match drawKey 16 [] s with
    | .ok bs s => k bs s
    | .wait s => cmdPut { c with entropyWait := true } (if c.entropyWait then s else bump 0x6114 1 s)
    | .stopped s => flumeEnd c (Ending.st .entropyUnavailable) s

/-- A PAN field under R278 and R289: 12 to 19 digits, or none (all 0xFF) where nothing is PAN bound. -/
def panOf (n : Nat) (bs : List Byte) (bound : Bool) : Option (List Nat) :=
  if 12 ≤ n ∧ n ≤ 19 then digitsOf bs n
  else if n = 0 ∧ !bound ∧ bs.all (· == 0xFF) then some []
  else none

/-- A role of a payment key. -/
def payRole (bitNo : Nat) (algs : List Nat) : Role := role (1 <<< bitNo) algs

/-- `ALG` list narrowed to keys no weaker than `st`; an empty result admits no key (R287, R279). -/
def noWeaker (st : Nat) (algs : List Nat) : List Nat :=
  match algs.filter fun a => decide (st ≤ strength a 0) with
  | [] => [0xFF]
  | as => as

/-- Key fields a table marks: `KEY_A` needed; `KEY_B` needed or 0 (R280). -/
def keyFields (c : Cmd) (b : Bool) : Bool := c.keyA != 0 && (if b then c.keyB != 0 else c.keyB == 0)

/-- A parameter test as step 7 takes it. -/
def badUnless (b : Bool) : Option Status := if b then none else some .badParam

/-! ### PIN_TRANSLATE (R284 to R291) -/

/-- Parameters of a translation. -/
structure Xlate where
  fi : Nat
  fo : Nat
  pi : List Nat
  po : List Nat
  down : Bool
  deriving DecidableEq, Repr

/-- Parameters of `PIN_TRANSLATE`, none where step 7 refuses them (Tables 8-5 and 8-6). -/
def xlateOf (c : Cmd) : Option Xlate :=
  if c.form = 0 then
    let fi := c.inlNat 48 1
    let fo := c.inlNat 49 1
    match panOf (c.inlNat 50 1) (c.inlBytes 52 10) (panBound fi || panBound fo) with
    | some p => if allZero (c.inlBytes 51 1) && allZero (c.inlBytes 62 2) && fmtKnown fi && fmtKnown fo
        && pairAdmitted fi fo false then some ⟨fi, fo, p, p, false⟩ else none
    | none => none
  else
    let fi := c.blk 0 1
    let fo := c.blk 1 1
    let fl := c.blk 4 1
    let down := fl == 1
    match panOf (c.blk 2 1) (bytesAt c.block 8 10) (panBound fi), panOf (c.blk 3 1) (bytesAt c.block 18 10) (panBound fo) with
    | some p, some q => if decide (fl ≤ 1) && allZero (bytesAt c.block 5 3) && allZero (bytesAt c.block 28 4) && fmtKnown fi
        && fmtKnown fo && pairAdmitted fi fo down then some ⟨fi, fo, p, q, down⟩ else none
    | _, _ => none

/-- `SRC_LEN` 8 or 16 (R291, R292). -/
def srcBlock (c : Cmd) : Option Ending := if c.srcLen = 8 ∨ c.srcLen = 16 then none else some (Ending.st .badLength)

/-- Step 5 of a translation (R291). -/
def xlateLens (c : Cmd) : Option Ending :=
  match srcBlock c with
  | some f => some f
  | none => needDst 8 c

/-- The output block fits `DST` (R291). -/
def outFits (fo : Nat) (c : Cmd) : Option Ending := needDst (fmtBlock fo) c

/-- `PIN_TRANSLATE`. -/
def xlateSpec : OpSpec :=
  { noKeys with
    lens := xlateLens
    block := fun c => if c.form = 0 then none else some (32, 32)
    params := fun c _ => match xlateOf c with
      | some x => badUnless (keyFields c true && c.srcLen == fmtBlock x.fi)
      | none => some .badParam
    lens7 := fun c => match xlateOf c with
      | some x => outFits x.fo c
      | none => none
    keys := fun c s => match xlateOf c with
      | some x =>
        let st := if x.down then 0 else strength (c.keyAlg c.keyA s) 0
        [(c.keyA, payRole 8 (fmtAlgs x.fi)), (c.keyB, payRole 8 (noWeaker st (fmtAlgs x.fo)))]
      | none => [] }

/-- Decode under one key, re-encode under another (R285, R288). -/
def translate (c : Cmd) (fi fo algI algO : Nat) (keyI keyO : List Byte) (pi po : List Nat) (s : State) : State :=
  match pinDecipher fi algI keyI pi c.data with
  | none => flumeEnd c (Ending.st .verifyFailed) s
  | some pin => withFill c fo s fun fill s => flumeEnd c (Ending.out (pinEncipher fo algO keyO po pin fill)) s

/-- PIN_TRANSLATE decrypts a PIN block and re-encodes it (R284 to R291). -/
def execPinTranslate (id : Nat) (s : State) : Out :=
  .next <| runOp xlateSpec 0x3001 id (fun c s => match xlateOf c with
    | some x => translate c x.fi x.fo (c.keyAlg c.keyA s) (c.keyAlg c.keyB s) (c.keyMat c.keyA s) (c.keyMat c.keyB s) x.pi x.po s
    | none => s) s

/-! ### PIN_VERIFY, PIN_OFFSET_GENERATE, PVV_GENERATE (R292 to R296) -/

/-- Parameters of Table 8-7. -/
structure PinChk where
  pvv : Bool
  fmt : Nat
  pan : List Nat
  len : Nat
  pvki : Nat
  pool : Nat
  ref : List Nat
  valid : List Byte
  table : List Nat
  deriving DecidableEq, Repr

/-- The basic decimalisation table (Table 8-7). -/
def basicTable : List Nat := [0, 1, 2, 3, 4, 5, 6, 7, 8, 9, 0, 1, 2, 3, 4, 5]

/-- Validation data and table of the form, none where refused (R292, R293). -/
def validOf (c : Cmd) (pan : List Nat) : Option (List Byte × List Nat) :=
  if c.form = 0 then
    if allZero (bytesAt c.block 32 16) then some (packNibs (panTail 16 pan), basicTable) else none
  else match digitsOf (bytesAt c.block 40 8) 16 with
    | some t => if (List.range 10).all t.contains then some (bytesAt c.block 32 8, t) else none
    | none => none

/-- Parameters of the PIN checks; `kind` 0 verify, 1 offset, 2 PVV generation. -/
def pinChkOf (kind : Nat) (c : Cmd) : Option PinChk :=
  let m := c.blk 0 1
  let fmt := c.blk 1 1
  let len := c.blk 3 1
  let pvki := c.blk 14 1
  let pool := c.blk 16 4
  let refBytes := bytesAt c.block 20 6
  let ref := if kind = 0 then digitsOf refBytes len else if allZero refBytes && pool == 0 then some [] else none
  match panOf (c.blk 2 1) (bytesAt c.block 4 10) true, ref with
  | some pan, some ref =>
    match validOf c pan with
    | some (v, t) =>
      if decide ((m = 1 ∨ m = 2) ∧ (kind = 0 ∨ m = kind)) && fmtKnown fmt
        && (if m = 1 then decide (4 ≤ len ∧ len ≤ 12) && pvki == 0 else len == 4 && decide (pvki ≤ 6))
        && allZero (bytesAt c.block 15 1) && allZero (bytesAt c.block 26 6) then
        some ⟨m == 2, fmt, pan, len, pvki, pool, ref, v, t⟩ else none
    | none => none
  | _, _ => none

/-- The three PIN check opcodes. -/
def pinChkSpec (kind : Nat) : OpSpec :=
  { noKeys with
    lens := srcBlock
    block := fun _ => some (48, 48)
    params := fun c s => match pinChkOf kind c with
      | some x => badUnless (keyFields c true && c.srcLen == fmtBlock x.fmt && (x.pool == 0 || (match poolGet x.pool s with
          | some p => p.kind == 2
          | none => false)))
      | none => some .badParam
    keys := fun c _ => match pinChkOf kind c with
      | some x => [(c.keyA, payRole 8 (fmtAlgs x.fmt)), (c.keyB, payRole 9 [1, 2])]
      | none => []
    tryPool := fun c => match pinChkOf kind c with
      | some x => x.pool
      | none => 0 }

/-- The try balance after the command (R296). -/
def tryBalance (c : Cmd) (st : Status) (s : State) : List Byte :=
  le 4 (if c.tryPool = 0 then 0xFFFFFFFF else localBalance c.tryPool (settle c st s))

/-- The PIN verifies (R294, R295). -/
def pinMatches (x : PinChk) (key : List Byte) (pin : List Nat) : Bool :=
  if x.pvv then pvvOf key x.pan x.pvki pin == x.ref
  else
    let n := naturalPin key x.valid x.table x.len
    decide (x.len ≤ pin.length) && (List.zipWith (fun a b => (a + b) % 10) n x.ref) == pin.take x.len

/-- The decoded PIN of a PIN check, none on a failed decode. -/
def chkPin (c : Cmd) (x : PinChk) (s : State) : Option (List Nat) :=
  pinDecipher x.fmt (c.keyAlg c.keyA s) (c.keyMat c.keyA s) x.pan c.data

/-- PIN_VERIFY verifies a PIN, its try share reserved (R283, R285, R294 to R296). -/
def execPinVerify (id : Nat) (s : State) : Out :=
  .next <| runOp (pinChkSpec 0) 0x3002 id (fun c s => match pinChkOf 0 c with
    | none => s
    | some x =>
      let ok := match chkPin c x s with
        | some pin => pinMatches x (c.keyMat c.keyB s) pin
        | none => false
      let st := if ok then Status.ok else Status.verifyFailed
      flumeEnd c ⟨st, 0, tryBalance c st s, [], []⟩ s) s

/-- PIN_OFFSET_GENERATE computes an offset (R294). -/
def execPinOffsetGenerate (id : Nat) (s : State) : Out :=
  .next <| runOp (pinChkSpec 1) 0x3003 id (fun c s => match pinChkOf 1 c with
    | none => s
    | some x => match chkPin c x s with
      | none => flumeEnd c (Ending.st .verifyFailed) s
      | some pin =>
        if pin.length < x.len then flumeEnd c (Ending.st .badParam) s
        else
          let n := naturalPin (c.keyMat c.keyB s) x.valid x.table x.len
          flumeEnd c (Ending.inline (digitString (List.zipWith (fun p a => (p + 10 - a) % 10) pin n) 6)) s) s

/-- PVV_GENERATE computes a PVV (R295). -/
def execPvvGenerate (id : Nat) (s : State) : Out :=
  .next <| runOp (pinChkSpec 2) 0x3004 id (fun c s => match pinChkOf 2 c with
    | none => s
    | some x => match chkPin c x s with
      | none => flumeEnd c (Ending.st .verifyFailed) s
      | some pin => flumeEnd c (Ending.inline (digitString (pvvOf (c.keyMat c.keyB s) x.pan x.pvki pin) 2)) s) s

/-! ### EMV (R297 to R300) -/

/-- Parameters of Tables 8-10 and 8-11. -/
structure Emv where
  method : Nat
  pan : List Nat
  atc : List Byte
  psn : Byte
  arpc : Nat
  pad : Nat
  deriving DecidableEq, Repr

/-- `ALG` values a method admits (Table 8-9). -/
def emvAlgs (m : Nat) : List Nat :=
  if m = 1 ∨ m = 2 ∨ m = 0x21 then [1] else if m = 3 then [3, 4, 5] else [1, 3, 4, 5]

/-- The header of `SRC` holds what the ARPC method asks for (Table 8-11, R299). -/
def emvHeader (arpc : Nat) (d : List Byte) : Bool :=
  let resp := bytesAt d 8 4
  let n := natAt d 12 1
  let prop := bytesAt d 16 8
  allZero (bytesAt d 13 3) && allZero (bytesAt d 24 8) &&
    (if arpc = 0 then allZero resp && n == 0 && allZero prop
     else if arpc = 1 then allZero (resp.drop 2) && n == 0 && allZero prop
     else decide (n ≤ 8) && allZero (prop.drop n))

/-- Parameters of the EMV opcodes; `gen` for the one that generates an ARPC. -/
def emvOf (gen : Bool) (c : Cmd) : Option Emv :=
  let m := c.inlNat 48 1
  let o := c.inlNat 63 1
  let arpc := o % 4
  let pad1 := o / 4 % 2 == 1
  match panOf (c.inlNat 49 1) (c.inlBytes 52 10) true with
  | none => none
  | some pan =>
    if (m == 1 || m == 2 || m == 3 || (c.form == 1 && (m == 0x11 || m == 0x21))) && decide (o < 8)
      && (if gen then arpc == 1 || arpc == 2 else arpc == 0) && (!pad1 || (c.form == 1 && m != 3)) && emvHeader arpc c.data then
      some ⟨m, pan, c.inlBytes 50 2, c.inlByte 62, arpc, if pad1 then 1 else 2⟩ else none

/-- The EMV opcodes. -/
def emvSpec (gen : Bool) : OpSpec :=
  { noKeys with
    lens := fun c => if c.srcLen < 32 ∨ 288 < c.srcLen then some (Ending.st .badLength) else none
    params := fun c _ => badUnless (keyFields c false && (emvOf gen c).isSome)
    keys := fun c _ => match emvOf gen c with
      | some x => [(c.keyA, payRole 11 (emvAlgs x.method))]
      | none => []
    after := fun c s => match emvOf gen c with
      | some x => if x.pad = 1 ∧ c.keyAlg c.keyA s ≠ 1 then some (Ending.st .badParam) else none
      | none => none }

/-- Verify a cryptogram; an ARPC only when it verifies (R297 to R300). -/
def emvBody (gen : Bool) (c : Cmd) (s : State) : State :=
  match emvOf gen c with
  | none => s
  | some x =>
    let alg := c.keyAlg c.keyA s
    let k := emvKey x.method alg (c.keyMat c.keyA s) x.atc x.pan x.psn
    let arqc := bytesAt c.data 0 8
    if emvMac alg k (c.data.drop 32) x.pad = arqc then
      if gen then flumeEnd c (Ending.inline (emvArpc x.arpc alg k arqc (bytesAt c.data 8 4) (bytesAt c.data 16 (natAt c.data 12 1)))) s
      else flumeVerify c true s
    else flumeVerify c false s

/-- ARQC_VERIFY (R297). -/
def execArqcVerify (id : Nat) (s : State) : Out := .next <| runOp (emvSpec false) 0x3010 id (emvBody false) s

/-- ARQC_VERIFY_ARPC (R300). -/
def execArqcVerifyArpc (id : Nat) (s : State) : Out := .next <| runOp (emvSpec true) 0x3011 id (emvBody true) s

/-! ### Card verification values (R301, R302) -/

/-- The value under a command's parameters, none where step 7 refuses them (Table 8-12). -/
def cvvInput (c : Cmd) : Option (List Nat × (List Nat × List Nat)) :=
  match panOf (c.inlNat 49 1) (c.inlBytes 52 10) true, digitsOf (c.inlBytes 50 2) 4, digitsOf (c.inlBytes 62 2) 3 with
  | some p, some e, some v => if c.inlByte 48 = 0 then some (p, e, v) else none
  | _, _, _ => none

/-- The CVV opcodes: `SRC_LEN` is fixed. -/
def cvvSpec (src : Nat) : OpSpec :=
  { noKeys with
    lens := fun c => if c.srcLen = src then none else some (Ending.st .badLength)
    params := fun c _ => badUnless (keyFields c false && (cvvInput c).isSome && (src == 0 || (digitsOf c.data 3).isSome))
    keys := fun c _ => [(c.keyA, payRole 10 [1])] }

/-- The card verification value of a command. -/
def cvvValue (c : Cmd) (s : State) : List Nat :=
  match cvvInput c with
  | some (p, e, v) => cvvOf (c.keyMat c.keyA s) p e v
  | none => []

/-- CVV_GENERATE (R301, R302). -/
def execCvvGenerate (id : Nat) (s : State) : Out :=
  .next <| runOp (cvvSpec 0) 0x3020 id (fun c s => flumeEnd c (Ending.inline (digitString (cvvValue c s) 2)) s) s

/-- CVV_VERIFY (R302). -/
def execCvvVerify (id : Nat) (s : State) : Out :=
  .next <| runOp (cvvSpec 2) 0x3021 id (fun c s => flumeVerify c (digitsOf c.data 3 == some (cvvValue c s)) s) s

/-! ### DUKPT (R303 to R305) -/

/-- The KSN of a version, its counter in range (Table 8-13, R304). -/
def ksnOf (c : Cmd) : Option (List Byte) :=
  let v := c.blk 0 1
  let k := bytesAt c.block 4 12
  if v = 1 then
    let n := beNat (k.take 10) % 2 ^ 21
    if allZero (k.drop 10) && decide (1 ≤ n ∧ ones 21 n ≤ 10) then some (k.take 10) else none
  else if v = 2 then
    let n := beNat (k.drop 8)
    if decide (1 ≤ n ∧ ones 32 n ≤ 16) then some k else none
  else none

/-- `WORK_ALG` is acceptable for a version and form (Tables 8-13 and 8-14). -/
def workOk (c : Cmd) (mac : Bool) : Bool :=
  let w := c.blk 3 1
  if w = 0 then true
  else c.form == 1 && (if c.blk 0 1 = 1 then w == 1 else decide (1 ≤ w ∧ w ≤ 5) && !(mac && w == 2))

/-- `ALG` of the working key of a BDK of `ALG` `bdk`. -/
def workAlg (c : Cmd) (bdk : Nat) : Nat := if c.blk 3 1 = 0 then bdk else c.blk 3 1

/-- BDK `ALG` values of a version. -/
def bdkAlgs (c : Cmd) : List Nat := if c.blk 0 1 = 1 then [1] else [3, 4, 5]

/-- An `ALG` list, or one that admits no key. -/
def someAlg (as : List Nat) : List Nat := if as.isEmpty then [0xFF] else as

/-- The working key may not be stronger than the BDK (Table 8-13). -/
def workStrength (c : Cmd) (s : State) : Option Ending :=
  let a := c.keyAlg c.keyA s
  if strength (workAlg c a) 0 ≤ strength a 0 then none else some (Ending.st .badParam)

/-- Parameters of `DUKPT_PIN_TRANSLATE`: KSN, formats, PAN (Table 8-14). -/
def dukptPinOf (c : Cmd) : Option (List Byte × (Nat × (Nat × List Nat))) :=
  let fi := c.blk 1 1
  let fo := c.blk 2 1
  match ksnOf c, panOf (c.blk 16 1) (bytesAt c.block 18 10) (panBound fi || panBound fo) with
  | some k, some p => if fmtKnown fi && fmtKnown fo && pairAdmitted fi fo false && workOk c false && allZero (bytesAt c.block 17 1)
      && allZero (bytesAt c.block 28 20) then some (k, fi, fo, p) else none
  | _, _ => none

/-- `DUKPT_PIN_TRANSLATE` (R305). -/
def dukptPinSpec : OpSpec :=
  { noKeys with
    lens := xlateLens
    block := fun _ => some (48, 48)
    params := fun c _ => match dukptPinOf c with
      | some (_, fi, _, _) => badUnless (keyFields c true && c.srcLen == fmtBlock fi)
      | none => some .badParam
    lens7 := fun c => match dukptPinOf c with
      | some (_, _, fo, _) => outFits fo c
      | none => none
    keys := fun c s => match dukptPinOf c with
      | some (_, fi, fo, _) =>
        let as := (bdkAlgs c).filter fun a => (fmtAlgs fi).contains (workAlg c a)
        let st := strength (workAlg c (c.keyAlg c.keyA s)) 0
        [(c.keyA, payRole 13 (someAlg as)), (c.keyB, payRole 8 (noWeaker st (fmtAlgs fo)))]
      | none => []
    after := workStrength }

/-- The PIN working key (Table 8-13). -/
def dukptPinKey (c : Cmd) (ksn : List Byte) (s : State) : List Byte :=
  let a := c.keyAlg c.keyA s
  let b := c.keyMat c.keyA s
  if c.blk 0 1 = 1 then dukptVariant 7 (dukptKey b ksn) else aesDukptKey a b ksn 0x1000 (workAlg c a)

/-- DUKPT_PIN_TRANSLATE (R303 to R305). -/
def execDukptPinTranslate (id : Nat) (s : State) : Out :=
  .next <| runOp dukptPinSpec 0x3030 id (fun c s => match dukptPinOf c with
    | some (ksn, fi, fo, p) =>
      translate c fi fo (workAlg c (c.keyAlg c.keyA s)) (c.keyAlg c.keyB s) (dukptPinKey c ksn s) (c.keyMat c.keyB s) p p s
    | none => s) s

/-- The parameters of `DUKPT_MAC_VERIFY` are in range (Tables 8-13 and 8-14). -/
def dukptMacOk (c : Cmd) : Bool :=
  let v := c.blk 0 1
  let kv := c.blk 1 1
  let n := c.blk 2 1
  let pad := c.blk 16 1
  (ksnOf c).isSome && workOk c true && decide (4 ≤ n ∧ n ≤ if v = 1 ∨ c.blk 3 1 = 1 then 8 else 16)
    && (if c.form = 0 then kv == 0 && pad == 0
        else decide (kv < if v = 1 then 2 else 3) && (pad == 0 || (pad == 2 && v == 1)))
    && allZero (bytesAt c.block 17 1) && allZero ((bytesAt c.block 18 16).drop n) && allZero (bytesAt c.block 34 14)

/-- `DUKPT_MAC_VERIFY` (R305). -/
def dukptMacSpec : OpSpec :=
  { noKeys with
    block := fun _ => some (48, 48)
    params := fun c _ => badUnless (keyFields c false && dukptMacOk c)
    keys := fun c _ => [(c.keyA, payRole 13 (bdkAlgs c))]
    after := workStrength }

/-- The MAC of a message under the DUKPT working key (Table 8-13). -/
def dukptMac (c : Cmd) (s : State) : List Byte :=
  let a := c.keyAlg c.keyA s
  let b := c.keyMat c.keyA s
  let ksn := (ksnOf c).getD []
  let kv := c.blk 1 1
  if c.blk 0 1 = 1 then
    isoMac3 (dukptVariant (if kv = 0 then 6 else 4) (dukptKey b ksn)) c.data (if c.blk 16 1 = 2 then 2 else 1)
  else
    let w := workAlg c a
    let k := aesDukptKey a b ksn (0x2000 + kv) w
    if w = 1 then isoMac3 k c.data 1 else cmac w k c.data

/-- DUKPT_MAC_VERIFY (R303 to R305). -/
def execDukptMacVerify (id : Nat) (s : State) : Out :=
  .next <| runOp dukptMacSpec 0x3031 id (fun c s =>
    let n := c.blk 2 1
    flumeVerify c ((dukptMac c s).take n == bytesAt c.block 18 n) s) s

/-! ### Retail MAC (R306, R307) -/

/-- The parameters of Table 8-15. -/
def retailOk (verify : Bool) (c : Cmd) : Bool :=
  let al := c.inlNat 48 1
  let pad := c.inlNat 49 1
  let n := c.inlNat 50 1
  let mac := c.inlBytes 52 8
  (if c.form = 0 then al == 0 && pad == 0 else (al == 1 || al == 3) && (pad == 1 || pad == 2))
    && decide (4 ≤ n ∧ n ≤ 8) && c.inlByte 51 == 0 && allZero (if verify then mac.drop n else mac) && allZero (c.inlBytes 60 4)

/-- The retail MAC opcodes; usage bit 2 or 3. -/
def retailSpec (verify : Bool) : OpSpec :=
  { noKeys with
    params := fun c _ => badUnless (keyFields c false && retailOk verify c)
    keys := fun c _ => [(c.keyA, payRole (if verify then 3 else 2) (if c.inlNat 48 1 = 1 then [1, 2, 3, 4, 5] else [1]))] }

/-- The MAC, cut to `MAC_LEN`. -/
def retailMac (c : Cmd) (s : State) : List Byte :=
  let pad := if c.inlNat 49 1 = 2 then 2 else 1
  (if c.inlNat 48 1 = 1 then isoMac1 (c.keyAlg c.keyA s) (c.keyMat c.keyA s) c.data pad
   else isoMac3 (c.keyMat c.keyA s) c.data pad).take (c.inlNat 50 1)

/-- RETAIL_MAC_GENERATE (R306, R307). -/
def execRetailMacGenerate (id : Nat) (s : State) : Out :=
  .next <| runOp (retailSpec false) 0x3040 id (fun c s => flumeEnd c (Ending.inline (retailMac c s)) s) s

/-- RETAIL_MAC_VERIFY (R306, R307). -/
def execRetailMacVerify (id : Nat) (s : State) : Out :=
  .next <| runOp (retailSpec true) 0x3041 id (fun c s =>
    flumeVerify c (retailMac c s == c.inlBytes 52 (c.inlNat 50 1)) s) s

/-! ### FF1 (R308 to R310) -/

/-- The radix: 0 in basic form means 10. -/
def ff1Radix (c : Cmd) : Nat := if c.form = 0 ∧ c.inlNat 48 1 = 0 then 10 else c.inlNat 48 1

/-- Fewest enciphered symbols (Table 8-17). -/
def ff1Fewest (r : Nat) : Nat := if r = 10 then 6 else if r = 16 ∨ r = 26 then 5 else 4

/-- A radix of Table 8-17. -/
def ff1RadixOk (r : Nat) : Bool := r == 10 || r == 16 || r == 26 || r == 36 || r == 62

/-- Lengths of FF1: the enciphered part and `DST` (R309, R310). -/
def ff1Lens (c : Cmd) : Option Ending :=
  let keep := c.inlNat 49 1 + c.inlNat 50 1
  let r := ff1Radix c
  let n := c.srcLen - keep
  if ff1RadixOk r ∧ (c.srcLen < keep ∨ n < ff1Fewest r ∨ 56 < n) then some (Ending.st .badLength) else needDst c.srcLen c

/-- The numerals of `SRC`. -/
def ff1Nums (c : Cmd) : List Nat := c.data.map fun b => if c.form = 0 then b.toNat - 0x30 else b.toNat

/-- Every symbol is in range (R309). -/
def ff1Symbols (c : Cmd) : Bool :=
  c.data.all fun b => if c.form = 0 then decide (0x30 ≤ b.toNat ∧ b.toNat ≤ 0x39) else decide (b.toNat < ff1Radix c)

/-- The FF1 opcodes; usage bit 14 or 15. -/
def ff1Spec (dec : Bool) : OpSpec :=
  { noKeys with
    lens := ff1Lens
    params := fun c _ =>
      let t := c.inlNat 51 1
      badUnless (keyFields c false && ff1RadixOk (ff1Radix c) && (c.form == 1 || c.inlNat 48 1 == 0)
        && decide (c.inlNat 49 1 ≤ 8 ∧ c.inlNat 50 1 ≤ 8 ∧ t ≤ 12) && allZero ((c.inlBytes 52 12).drop t) && ff1Symbols c)
    keys := fun c _ => [(c.keyA, payRole (if dec then 15 else 14) [3, 4, 5])] }

/-- The symbols written at `DST` (R310). -/
def ff1Out (dec : Bool) (c : Cmd) (s : State) : List Byte :=
  let lead := c.inlNat 49 1
  let n := c.srcLen - lead - c.inlNat 50 1
  let tweak := c.inlBytes 52 (c.inlNat 51 1) ++ c.data.take lead ++ c.data.drop (lead + n)
  let xs := ff1 dec (c.keyMat c.keyA s) tweak (ff1Radix c) (((ff1Nums c).drop lead).take n)
  c.data.take lead ++ (xs.map fun d => BitVec.ofNat 8 (if c.form = 0 then d + 0x30 else d)) ++ c.data.drop (lead + n)

/-- FF1_TOKENISE (R308 to R310). -/
def execFf1Tokenise (id : Nat) (s : State) : Out :=
  .next <| runOp (ff1Spec false) 0x3050 id (fun c s => flumeEnd c (Ending.out (ff1Out false c s)) s) s

/-- FF1_DETOKENISE (R308 to R310). -/
def execFf1Detokenise (id : Nat) (s : State) : Out :=
  .next <| runOp (ff1Spec true) 0x3051 id (fun c s => flumeEnd c (Ending.out (ff1Out true c s)) s) s

/-! ### Units, disable and registers (R267 to R276, Tables 8-19 to 8-24) -/

/-- A dispatched class 0x3 command holds or awaits a unit (R268). -/
def onFlume (c : Cmd) : Bool := c.cls == 3 && !(c.phase == .fetched || c.phase == .arrived)

/-- Bits set in the low `n` bits of a number. -/
def popcount (n v : Nat) : Nat := ones n v

/-- Units in service. -/
def flumeUnits (s : State) : Nat := 64 - popcount 64 s.units.flume.toNat

/-- A bit of `FLUME_ERR` with the unit where known (Table 8-24). -/
def flumeErr (n unit : Nat) (s : State) : State := raiseErr 0x6010 0x6014 0x6002 n (wfield unit 8 ||| wfield n 0) s

/-- Retire a transform unit (R114, R274); the command that runs on it ends with `INTERNAL_FAULT`. -/
def flumeRetire (u : Nat) (s : State) : State :=
  if s.units.flume.getLsbD u then s
  else
    let s := { s with units := { s.units with flume := s.units.flume ||| (1 <<< u) } }
    let s := if u < 48 then recordRetired 2 (s.units.flume.toNat % 2 ^ 48) s else recordRetired 3 (s.units.flume.toNat / 2 ^ 48) s
    let s := flumeErr 1 u (setDegraded 2 s)
    let s := postEvt .both 0x6003 (wfield (flumeUnits s) 8 ||| wfield u 0) 0 s
    match s.cmdif.cmds.find? fun c => c.cls == 3 && c.units.contains u with
    | some c => flumeErr 0 u (finishSt c .internalFault s)
    | none => s

/-- FLUME_UNIT_FAULT: a unit faults and is retired; the command running on it ends with `INTERNAL_FAULT` (R274). -/
def execFlumeUnitFault (u : Fin 64) (s : State) : Out := .next <| onMain (flumeRetire u.val) s

/-- Flume is disabled. -/
def flumeDisabled (s : State) : Bool := regBit 0x6004 0 s

/-- Commands the disable of Flume covers (R276). -/
def flumeCovers (c : Cmd) : Bool := c.cls == 2 || c.cls == 3

/-- The disable of Flume is drained: nothing it covers is in flight; `DISABLED` is not yet reported. -/
def flumeDrain (s : State) : State :=
  if flumeDisabled s && !(s.cmdif.cmds.any flumeCovers) && s.dev.drains.getLsbD 1 then
    postEvt .both 0x6001 0 0 (regOr 0x6000 0x80000000 (s.modDev fun d => { d with drains := d.drains &&& ~~~2 }))
  else s

/-- A write of `FLUME_CTL`, already checked (R45, R276). -/
def flumeCtlWrite (v : Word) (s : State) : State :=
  let was := flumeDisabled s
  let s := regMask 0x6004 1 v s
  if v.getLsbD 0 && !was then
    let s := s.modDev fun d => { d with drains := d.drains ||| 2 }
    finishAll (fun c => flumeCovers c && !c.startedP) .abortedDisabled s
  else if v.getLsbD 0 then s
  else s.modDev fun d => { d with drains := d.drains &&& ~~~2 }

/-- FLUME_DRAINED: the disable drain ends (R276). -/
def execFlumeDrained (s : State) : Out := .next <| onMain flumeDrain s

/-- `FLUME_STATUS` (Table 8-20): stored bit 31, the rest computed. -/
def flumeStatus (s : State) : Word :=
  regGet 0x6000 s ||| wbit (flumeDisabled s) 30 ||| wfield (heldUnits 3 s).length 16
    ||| wfield (flumeUnits s) 0

/-- Flume at response level 3 and above: dispatched commands that have not begun writing end (R273). -/
def flumeErase (s : State) : State := finishAll (fun c => onFlume c && !c.wroteDst) .abortedAlarm s

end Sys2Proof.Machine
end

