-- ==== Sys2Proof/Machine/Cipher.lean ====
section
/-! DEFINITION. The symmetric cipher engine and class 0x2 (chapter 09). -/
namespace Sys2Proof.Machine

/-- Update the cipher engine. -/
def State.modCipher (s : State) (f : Cipher → Cipher) : State := { s with cipher := f s.cipher }

/-! ### Parameters (Table 9-3) -/

/-- `MODE`. -/
def Cmd.cMode (c : Cmd) : Nat := c.inlNat 48 1
/-- `FLAGS.IV_IN`. -/
def Cmd.ivIn (c : Cmd) : Bool := (c.inlByte 49).getLsbD 1
/-- `TAG_LEN`. -/
def Cmd.tagLen (c : Cmd) : Nat := c.inlNat 50 1
/-- `CTR_BITS`. -/
def Cmd.ctrBits (c : Cmd) : Nat := c.inlNat 51 1
/-- `AAD_LEN`. -/
def Cmd.aadLen (c : Cmd) : Nat := c.inlNat 52 4
/-- `DU`. -/
def Cmd.du (c : Cmd) : Nat := c.inlNat 56 8

/-- The mode is one an opcode (1 to 8) admits (Table 9-2). -/
def modeAdmitted (op m : Nat) : Bool :=
  if op = 1 ∨ op = 2 then m == 1 || m == 2 || m == 3 || m == 4
  else if op = 3 ∨ op = 4 then m == 0x10 || m == 0x11
  else if op = 5 ∨ op = 6 then m == 0x20 || m == 0x21 || m == 0x22 || m == 0x23
  else m == 0x30 || m == 0x31

/-- `ALG` values a mode admits (Table 9-2). -/
def modeAlgs (m : Nat) : List Nat :=
  if m = 1 ∨ m = 2 ∨ m = 3 ∨ m = 0x20 then [1, 2, 3, 4, 5]
  else if m = 4 then [3, 5]
  else if m = 0x21 ∨ m = 0x22 ∨ m = 0x23 then [8]
  else [3, 4, 5]

/-- Block sizes a mode admits (R614). -/
def modeBlocks (m : Nat) : List Nat := if m = 1 ∨ m = 2 ∨ m = 3 ∨ m = 0x20 then [8, 16] else [16]

/-- Prefix length of a mode (R327). -/
def prefixLen (m bs : Nat) : Nat :=
  if m = 2 ∨ m = 3 then bs else if m = 0x10 ∨ m = 0x11 then 12 else if m = 4 then 16 else 0

/-- Length of the prefix at `SRC`: P or I (R327). -/
def srcPrefix (op : Nat) (c : Cmd) (bs : Nat) : Nat :=
  let m := c.cMode
  if op = 1 ∨ op = 3 then (if c.ivIn then prefixLen m bs else 0)
  else if op = 2 then (if m = 4 then (if c.ivIn then 16 else 0) else prefixLen m bs)
  else if op = 4 then prefixLen m bs
  else 0

/-- Length of the generated prefix G at `DST` (R327). -/
def dstPrefix (op : Nat) (c : Cmd) (bs : Nat) : Nat :=
  if (op = 1 ∨ op = 3) ∧ !c.ivIn ∧ c.cMode ≠ 4 then prefixLen c.cMode bs else 0

/-- Digest length of an HMAC mode. -/
def digestLen (m : Nat) : Nat := if m = 0x21 then 32 else if m = 0x22 then 48 else 64

/-- Tag or MAC length: `TAG_LEN` or the default (R326). -/
def tagLenOf (c : Cmd) (bs : Nat) : Nat :=
  if c.tagLen ≠ 0 then c.tagLen
  else if c.cMode = 0x10 ∨ c.cMode = 0x11 then 16
  else if c.cMode = 0x20 then bs
  else digestLen c.cMode

/-- `TAG_LEN` is within Table 9-2 for a block size. -/
def tagOk (c : Cmd) (bs : Nat) : Bool :=
  let n := c.tagLen
  let m := c.cMode
  if n = 0 then true
  else if m = 0x10 then decide (12 ≤ n ∧ n ≤ 16)
  else if m = 0x11 then decide (4 ≤ n ∧ n ≤ 16 ∧ n % 2 = 0)
  else if m = 0x20 then (if bs = 16 then decide (8 ≤ n ∧ n ≤ 16) else decide (4 ≤ n ∧ n ≤ 8))
  else if m = 0x21 ∨ m = 0x22 ∨ m = 0x23 then decide (16 ≤ n ∧ n ≤ digestLen m)
  else false

/-- The tag or MAC is part of `SRC`. -/
def srcTag (op : Nat) (c : Cmd) (bs : Nat) : Nat := if op = 4 ∨ op = 6 then tagLenOf c bs else 0

/-- Additional data counted in `SRC`. -/
def srcAad (op : Nat) (c : Cmd) : Nat := if op = 3 ∨ op = 4 then c.aadLen else 0

/-- Payload length (R328). -/
def payloadLen (op : Nat) (c : Cmd) (bs : Nat) : Nat := c.srcLen - srcPrefix op c bs - srcAad op c - srcTag op c bs

/-- The payload is within Table 9-2. -/
def payloadOk (op : Nat) (c : Cmd) (bs : Nat) : Bool :=
  let n := payloadLen op c bs
  let m := c.cMode
  if m = 1 ∨ m = 2 then n % bs == 0
  else if m = 4 then decide (16 ≤ n ∧ n ≤ 65536)
  else if m = 0x30 then (if op = 7 then decide (n % 8 = 0 ∧ 16 ≤ n ∧ n ≤ 65528) else decide (n % 8 = 0 ∧ 24 ≤ n ∧ n ≤ 65536))
  else if m = 0x31 then (if op = 7 then decide (1 ≤ n ∧ n ≤ 65528) else decide (n % 8 = 0 ∧ 16 ≤ n ∧ n ≤ 65536))
  else true

/-- Output length (Table 9-4); for `SYM_UNWRAP` in KWP the padded plaintext's length. -/
def outLen (op : Nat) (c : Cmd) (bs : Nat) : Nat :=
  let n := payloadLen op c bs
  if op = 1 ∨ op = 2 ∨ op = 4 then dstPrefix op c bs + n
  else if op = 3 then dstPrefix op c bs + n + tagLenOf c bs
  else if op = 5 then tagLenOf c bs
  else if op = 6 then 0
  else if op = 7 then (n + 7) / 8 * 8 + 8
  else n - 8

/-- Length limits for one block size (R327, R328). -/
def lensFor (op : Nat) (c : Cmd) (bs : Nat) : Option Ending :=
  if c.srcLen < srcPrefix op c bs + srcAad op c + srcTag op c bs then some (Ending.st .badLength)
  else if 4096 < srcAad op c ∨ !payloadOk op c bs then some (Ending.st .badLength)
  else if op = 8 ∧ c.cMode = 0x31 then none
  else needDst (outLen op c bs) c

/-- Step 5: a length fails only when it fails for every block size the mode admits (R614). -/
def cipherLens (op : Nat) (c : Cmd) : Option Ending :=
  if modeAdmitted op c.cMode then
    let fs := (modeBlocks c.cMode).map (lensFor op c)
    if fs.all (·.isSome) then fs.headD none else none
  else none

/-- Where `IV_IN` may be 1 (R325). -/
def ivInOk (op : Nat) (c : Cmd) : Bool :=
  !c.ivIn || (c.form == 1 && ((op == 1 && c.cMode != 1) || op == 3 || (op == 2 && c.cMode == 4)))

/-- `CTR_BITS` as Table 9-3 and R325 admit it, for one block size. -/
def ctrBitsOk (op : Nat) (c : Cmd) (bs : Nat) : Bool :=
  let n := c.ctrBits
  let sized := (n == 32 || n == 64 || n == 128) && decide (n ≤ 8 * bs)
  if c.cMode = 3 ∧ op = 1 ∧ c.ivIn then sized
  else if c.cMode = 3 ∧ op = 2 ∧ c.form = 1 then n == 0 || sized
  else n == 0

/-- TDEA CTR encryption needs a supplied counter block (Table 9-5). -/
def tdeaCtrOk (op : Nat) (c : Cmd) (bs : Nat) : Bool := !(c.cMode == 3 && op == 1 && bs == 8 && !c.ivIn)

/-- Step 7 over the parameter values (R322 to R326, R280). -/
def cipherParams (op : Nat) (c : Cmd) : Bool :=
  let m := c.cMode
  let bss := modeBlocks m
  (c.inlByte 49).toNat < 4 && modeAdmitted op m && (c.form == 1 || (c.tagLen == 0 && m != 1)) && ivInOk op c
    && bss.any (fun bs => tagOk c bs) && bss.any (fun bs => ctrBitsOk op c bs && tdeaCtrOk op c bs)
    && (op == 3 || op == 4 || c.aadLen == 0) && ((m == 4 && !c.ivIn) || c.du == 0)
    && (if c.kslot then decide (c.keyA.toNat % 2 ^ 32 < 64) && m != 4 else c.keyA != 0)
    && (if m = 4 then c.keyB != 0 && c.keyB != c.keyA else c.keyB == 0)

/-- Usage bit an opcode needs (Table 9-4). -/
def cipherUsage (op : Nat) : Nat := if op = 5 then 2 else if op = 6 then 3 else if op % 2 = 1 then 0 else 1

/-- The role of a bulk key: a record with a key-encryption or payment usage is refused (R324). -/
def bulkRole (op : Nat) (algs : List Nat) (h : BitVec 64) (s : State) : Role :=
  let bad := match keyRec h s with
    | some r => r.usage &&& 0x0000FF30 != 0
    | none => false
  payRole (cipherUsage op) (if bad then [0xFF] else algs)

/-! ### Software key slots (R337 to R342) -/

/-- A software key slot. -/
def kslotGet (n : Nat) (s : State) : KSlot := (assocGet n s.cipher.slots).getD emptyKSlot

/-- Store a slot. -/
def kslotSet (n : Nat) (k : KSlot) (s : State) : State :=
  s.modCipher fun e => { e with slots := assocSet n (if k = emptyKSlot then none else some k) e.slots }

/-- The slot a command names. -/
def Cmd.kslotNo (c : Cmd) : Nat := c.keyA.toNat % 64

/-- Step 8 for a software key slot (R341). -/
def kslotCheck (c : Cmd) (s : State) : Option Ending :=
  let k := kslotGet c.kslotNo s
  if !k.loaded || k.furrow != c.furrow || k.seq != c.keyA.toNat / 2 ^ 32 then some (Ending.st .keyHandleStale)
  else if !c.colours.getLsbD k.colour then some (Ending.st .keyColourMismatch)
  else if !(modeAlgs c.cMode).contains k.alg then some (Ending.st .keyUsageDenied)
  else none

/-- `ALG` of `KEY_A`, a record or a slot. -/
def cipherAlg (c : Cmd) (s : State) : Nat := if c.kslot then (kslotGet c.kslotNo s).alg else c.keyAlg c.keyA s

/-- The checks that need the block size of `KEY_A` (R614), and the XTS key comparison (R323). -/
def sizeCheck (op : Nat) (c : Cmd) (s : State) : Option Ending :=
  let alg := cipherAlg c s
  let bs := if alg = 8 then 16 else blockLen alg
  if c.cMode = 4 ∧ c.keyMat c.keyA s = c.keyMat c.keyB s then some (Ending.st .badParam)
  else match lensFor op c bs with
    | some f => some f
    | none => if tagOk c bs && ctrBitsOk op c bs && tdeaCtrOk op c bs then none else some (Ending.st .badParam)

/-- A lane copies a slot's material when the command passes its checks (R342): `ALG` and the key stand in the unused block field. -/
def latchSlot (c : Cmd) (s : State) : Cmd :=
  let k := kslotGet c.kslotNo s
  if c.kslot then { c with block := BitVec.ofNat 8 k.alg :: k.material } else c

/-- `ALG` a lane works with. -/
def laneAlg (c : Cmd) (s : State) : Nat := if c.kslot then (c.block.headD 0).toNat else c.keyAlg c.keyA s

/-- Key a lane works with. -/
def laneKey (c : Cmd) (s : State) : List Byte := if c.kslot then c.block.tail else c.keyMat c.keyA s

/-- Blocks of a length. -/
def blocksOf (n bs : Nat) : Nat := (n + bs - 1) / bs

/-- Modes marked parallel (Table 9-2, R320), by opcode. -/
def parallelMode (c : Cmd) : Bool :=
  let m := c.cMode
  m == 1 || m == 3 || m == 4 || m == 0x10 || (m == 2 && c.opcode == 0x2002)

/-- Block size of the lane's algorithm; 16 for an HMAC key, whose modes have no block. -/
def laneBlock (c : Cmd) (s : State) : Nat := if laneAlg c s = 8 then 16 else blockLen (laneAlg c s)

/-- Chunks of 8 KiB of a command in a parallel mode (R318); one piece of work in a serial one (R319). -/
def chunksOf (op : Nat) (c : Cmd) (s : State) : Nat :=
  if parallelMode c then max 1 (blocksOf (payloadLen op c (laneBlock c s)) 8192) else 1

/-! ### Nonces (R331 to R333) -/

/-- Answer of a nonce draw. -/
inductive NonceAns where
  | ok (n : Nat) (s : State)
  | wait
  | wrap

/-- Draw one nonce counter value. -/
def drawNonce (s : State) : NonceAns :=
  let n := s.cipher.nonce
  if 2 ^ 64 ≤ n then .wrap
  else if n < s.cipher.nonceMark then .ok n (s.modCipher fun e => { e with nonce := n + 1, lastNonce := n })
  else .wait

/-- The fixed field of a generated prefix: DDN times 2^18 (Table 9-5). -/
def fixedField (s : State) : List Byte := be 4 (ownDdn s * 2 ^ 18)

/-- The 12 bytes of a generated IV (Table 9-5). -/
def genIv (n : Nat) (s : State) : List Byte := fixedField s ++ be 8 n

/-- A command with a G prefix in CTR, GCM or CCM (R332). -/
def drawsNonce (op : Nat) (c : Cmd) : Bool := !c.ivIn && ((op == 1 && c.cMode == 3) || op == 3)

/-- The nonce value a command has drawn, in `scratch`. -/
def Cmd.nonce (c : Cmd) : Nat := c.scratch.getD 1 0

/-- Draw the nonce value once, after the key checks have passed (R332); a wait for the mark engine's next block is counted once (R331). -/
def nonceDraw (op : Nat) (c : Cmd) (s : State) : Draws :=
  if !drawsNonce op c || c.scratch.headD 0 = 2 then .ok c s
  else match drawNonce s with
    | .ok n s => .ok { c with scratch := [2, n] } s
    | .wait => .stay (if c.scratch.headD 0 = 1 then s else cmdPut { c with scratch := [1] } (bump 0x511C 1 s))
    | .wrap => .stay (finishSt c .counterWouldWrap s)

/-- The class 0x2 opcode `op`. -/
def cipherSpec (op : Nat) : OpSpec :=
  { noKeys with
    lens := cipherLens op
    params := fun c _ => badUnless (cipherParams op c)
    keys := fun c s =>
      (if c.kslot then [] else [(c.keyA, bulkRole op (modeAlgs c.cMode) c.keyA s)])
        ++ (if c.cMode = 4 then [(c.keyB, bulkRole op ((modeAlgs 4).filter (· == c.keyAlg c.keyA s)) c.keyB s)] else [])
    after := fun c s => match (if c.kslot then kslotCheck c s else none) with
      | some f => some f
      | none => sizeCheck op c s
    latch := latchSlot
    need := fun c s => ⟨chunksOf op c s, parallelMode c && op != 4, false⟩
    draw := nonceDraw op }

/-! ### What the lanes compute -/

/-- The counter would pass its width (R333). -/
def ctrWraps (w : Nat) (cb : List Byte) (n bs : Nat) : Bool := decide (2 ^ w < beNat cb % 2 ^ w + blocksOf n bs)

/-- HMAC of an HMAC mode. -/
def hmacMode (m : Nat) (key msg : List Byte) : List Byte :=
  if m = 0x21 then hmac sha256 64 key msg else if m = 0x22 then hmac sha384 128 key msg else hmac sha512 128 key msg

/-- The MAC of a message by mode. -/
def macOf (m alg : Nat) (key msg : List Byte) : List Byte := if m = 0x20 then cmac alg key msg else hmacMode m key msg

/-- SHA-2 compressions of an HMAC over `n` bytes: inner and outer hash, each with one block of padded key (FIPS 198-1, FIPS 180-4). -/
def hmacCompressions (m n : Nat) : Nat :=
  let b := if m = 0x21 then 64 else 128
  let pad := if m = 0x21 then 9 else 17
  1 + blocksOf (n + pad) b + 1 + blocksOf (digestLen m + pad) b

/-- Mask words besides one for each payload block (R335): tweak, hash subkey, initial counter, additional data, length block, subkeys. -/
def extraWords (c : Cmd) : Nat :=
  let m := c.cMode
  if m = 4 then 1
  else if m = 0x10 then blocksOf c.aadLen 16 + 3
  else if m = 0x11 then 2 + (if c.aadLen = 0 then 0 else blocksOf (c.aadLen + 2) 16)
  else if m = 0x20 then 1
  else 0

/-- Mask words for `n` bytes of payload (R335): one for each AES block, TDEA block or SHA-2 compression; two passes in CCM, six in KW. -/
def payloadWords (op : Nat) (c : Cmd) (n bs : Nat) : Nat :=
  let m := c.cMode
  let semis := blocksOf n 8 - (if op = 8 then 1 else 0)
  if m = 0x11 then 2 * blocksOf n 16
  else if m = 0x20 then max 1 (blocksOf n bs)
  else if m = 0x21 ∨ m = 0x22 ∨ m = 0x23 then hmacCompressions m n
  else if m = 0x30 ∨ m = 0x31 then (if semis ≤ 1 then 1 else 6 * semis)
  else blocksOf n bs

/-- Words each chunk takes: chunk 0 also takes those of the additional data and the like (R318). -/
def chunkWords (op : Nat) (c : Cmd) (s : State) : List Nat :=
  let n := payloadLen op c (laneBlock c s)
  let k := chunksOf op c s
  (List.range k).map fun i =>
    (if i = 0 then extraWords c else 0) + payloadWords op c (if i + 1 < k then 8192 else n - 8192 * (k - 1)) (laneBlock c s)

/-- A finished command's chunks have taken their words on its lanes, in turn. -/
def spendMasks (op : Nat) (c : Cmd) (s : State) : State :=
  if c.units.isEmpty then s
  else (chunkWords op c s).zipIdx.foldl (fun s w => takeMasks (c.units.getD (w.2 % c.units.length) 0) w.1 s) s

/-- End a class 0x2 command, its blocks, chunks, failures and mask words counted (Table 9-6, R335). -/
def cipherEnd (op : Nat) (c : Cmd) (f : Ending) (s : State) : State :=
  let alg := laneAlg c s
  let n := payloadLen op c (laneBlock c s)
  let s := spendMasks op c s
  let s := bump64 0x5100 (blocksOf n (if alg = 8 then 64 else blockLen alg)) s
  let s := bump64 0x5108 (if parallelMode c then blocksOf n 8192 else 0) s
  finish c f (if f.status = .verifyFailed then bump 0x5114 1 s else s)

/-- A drawn CBC IV (Table 9-5, R333). -/
def withIv (c : Cmd) (n : Nat) (s : State) (k : List Byte → State → State) : State :=
  match drawKey n [] s with
  | .ok bs s => k bs s
  | .wait s => cmdPut { c with entropyWait := true } (if c.entropyWait then s else bump 0x5118 1 s)
  | .stopped s => finishSt c .entropyUnavailable s

/-- Output with an inline result. -/
def outWith (dst res : List Byte) : Ending := ⟨.ok, dst.length, res, dst, []⟩

/-- XTS tweak: the prefix, or the data unit number (Table 9-3). -/
def xtsTweakOf (c : Cmd) : List Byte := if c.ivIn then c.data.take 16 else le 8 c.du ++ zeros 8

/-- SYM_ENCRYPT (R327). -/
def encryptBody (c : Cmd) (s : State) : State :=
  let alg := laneAlg c s
  let key := laneKey c s
  let bs := blockLen alg
  let m := c.cMode
  let pre := c.data.take (srcPrefix 1 c bs)
  let pt := c.data.drop (srcPrefix 1 c bs)
  let fin := cipherEnd 1 c
  if m = 1 then fin (Ending.out (ecbEnc alg key pt)) s
  else if m = 2 then
    if c.ivIn then fin (Ending.out (cbcEnc alg key pre pt)) s
    else withIv c bs s fun iv s => cipherEnd 1 c (Ending.out (iv ++ cbcEnc alg key iv pt)) s
  else if m = 3 then
    if c.ivIn then
      if ctrWraps c.ctrBits pre pt.length bs then fin (Ending.st .counterWouldWrap) s
      else fin (Ending.out (ctrMode alg c.ctrBits key pre pt)) s
    else
      let cb := genIv c.nonce s ++ be 4 1
      fin (outWith (cb ++ ctrMode alg 32 key cb pt) (le 8 c.nonce)) s
  else fin (Ending.out (xtsEnc key (c.keyMat c.keyB s) (xtsTweakOf c) pt)) s

/-- SYM_DECRYPT (R327, R333). -/
def decryptBody (c : Cmd) (s : State) : State :=
  let alg := laneAlg c s
  let key := laneKey c s
  let bs := blockLen alg
  let m := c.cMode
  let pre := c.data.take (srcPrefix 2 c bs)
  let ct := c.data.drop (srcPrefix 2 c bs)
  let fin := cipherEnd 2 c
  if m = 1 then fin (Ending.out (ecbDec alg key ct)) s
  else if m = 2 then fin (Ending.out (cbcDec alg key pre ct)) s
  else if m = 3 then
    let w := if c.ctrBits = 0 then 32 else c.ctrBits
    if ctrWraps w pre ct.length bs then fin (Ending.st .counterWouldWrap) s
    else fin (Ending.out (ctrMode alg w key pre ct)) s
  else fin (Ending.out (xtsDec key (c.keyMat c.keyB s) (xtsTweakOf c) ct)) s

/-- AEAD_SEAL (R327). -/
def sealBody (c : Cmd) (s : State) : State :=
  let key := laneKey c s
  let pre := srcPrefix 3 c 16
  let aad := (c.data.drop pre).take c.aadLen
  let pt := c.data.drop (pre + c.aadLen)
  let t := tagLenOf c 16
  let body := fun (iv : List Byte) =>
    if c.cMode = 0x10 then
      let ct := gcmCrypt key iv pt
      ct ++ (gcmTag key iv aad ct).take t
    else ccmCrypt key iv pt ++ ccmTag key iv aad pt t
  if c.ivIn then cipherEnd 3 c (Ending.out (body (c.data.take 12))) s
  else cipherEnd 3 c (outWith (genIv c.nonce s ++ body (genIv c.nonce s)) (le 8 c.nonce)) s

/-- AEAD_OPEN (R329). -/
def openBody (c : Cmd) (s : State) : State :=
  let key := laneKey c s
  let t := tagLenOf c 16
  let n := payloadLen 4 c 16
  let iv := c.data.take 12
  let aad := (c.data.drop 12).take c.aadLen
  let ct := (c.data.drop (12 + c.aadLen)).take n
  let tag := c.data.drop (12 + c.aadLen + n)
  let pt := if c.cMode = 0x10 then gcmCrypt key iv ct else ccmCrypt key iv ct
  let want := if c.cMode = 0x10 then (gcmTag key iv aad ct).take t else ccmTag key iv aad pt t
  cipherEnd 4 c (if want = tag then Ending.out pt else Ending.st .verifyFailed) s

/-- MAC_GENERATE (R327). -/
def macGenBody (c : Cmd) (s : State) : State :=
  cipherEnd 5 c (Ending.out ((macOf c.cMode (laneAlg c s) (laneKey c s) c.data).take (tagLenOf c (laneBlock c s)))) s

/-- MAC_VERIFY (R329). -/
def macVerBody (c : Cmd) (s : State) : State :=
  let alg := laneAlg c s
  let t := tagLenOf c (laneBlock c s)
  let n := c.data.length - t
  let ok := (macOf c.cMode alg (laneKey c s) (c.data.take n)).take t == c.data.drop n
  cipherEnd 6 c (Ending.st (if ok then .ok else .verifyFailed)) s

/-- SYM_WRAP (R327). -/
def wrapBody (c : Cmd) (s : State) : State :=
  let alg := laneAlg c s
  let key := laneKey c s
  cipherEnd 7 c (Ending.out (if c.cMode = 0x30 then kwWrap alg key c.data else kwpWrap alg key c.data)) s

/-- SYM_UNWRAP (R329); a KWP plaintext longer than `DST_LEN` ends under R169. -/
def unwrapBody (c : Cmd) (s : State) : State :=
  let alg := laneAlg c s
  let key := laneKey c s
  match (if c.cMode = 0x30 then kwUnwrap alg key c.data else kwpUnwrap alg key c.data) with
  | none => cipherEnd 8 c (Ending.st .verifyFailed) s
  | some pt => cipherEnd 8 c ((needDst pt.length c).getD (Ending.out pt)) s

/-- SYM_ENCRYPT encrypts `SRC` in ECB, CBC, CTR or XTS. -/
def execSymEncrypt (id : Nat) (s : State) : Out := .next <| runOp (cipherSpec 1) 0x2001 id encryptBody s
/-- SYM_DECRYPT decrypts `SRC`. -/
def execSymDecrypt (id : Nat) (s : State) : Out := .next <| runOp (cipherSpec 2) 0x2002 id decryptBody s
/-- AEAD_SEAL encrypts and authenticates in GCM or CCM. -/
def execAeadSeal (id : Nat) (s : State) : Out := .next <| runOp (cipherSpec 3) 0x2003 id sealBody s
/-- AEAD_OPEN checks the tag and decrypts. -/
def execAeadOpen (id : Nat) (s : State) : Out := .next <| runOp (cipherSpec 4) 0x2004 id openBody s
/-- MAC_GENERATE computes a CMAC or HMAC. -/
def execMacGenerate (id : Nat) (s : State) : Out := .next <| runOp (cipherSpec 5) 0x2005 id macGenBody s
/-- MAC_VERIFY verifies a candidate MAC. -/
def execMacVerify (id : Nat) (s : State) : Out := .next <| runOp (cipherSpec 6) 0x2006 id macVerBody s
/-- SYM_WRAP wraps with KW or KWP. -/
def execSymWrap (id : Nat) (s : State) : Out := .next <| runOp (cipherSpec 7) 0x2007 id wrapBody s
/-- SYM_UNWRAP unwraps and checks the integrity value. -/
def execSymUnwrap (id : Nat) (s : State) : Out := .next <| runOp (cipherSpec 8) 0x2008 id unwrapBody s

/-! ### Slot commands and staging (R338, R339) -/

/-- A bit of `CIPHER_ERR` with the lane where known (Table 9-12). -/
def cipherErr (n lane : Nat) (s : State) : State := raiseErr 0x5010 0x5014 0x5002 n (wfield lane 8 ||| wfield n 0) s

/-- A write of `CIPHER_KDATAi`: into the writer's own set. -/
def kdataWrite (r : Requester) (i : Nat) (v : Word) (s : State) : State :=
  s.modCipher fun e => { e with staging := assocSet (8 * reqCode r + i) (if v = 0 then none else some v) e.staging }

/-- The 32 bytes of a requester's staging set. -/
def stagingBytes (r : Requester) (s : State) : List Byte :=
  ((List.range 8).map fun i => le 4 ((assocGet (8 * reqCode r + i) s.cipher.staging).getD 0).toNat).flatten

/-- The writer's staging set reads as zero. -/
def stagingClear (r : Requester) (s : State) : State :=
  s.modCipher fun e => { e with staging := e.staging.filter fun x => x.1 / 8 != reqCode r }

/-- `LOAD` of a software key slot (R339). -/
def kslotLoad (r : Requester) (v : Word) (s : State) : State :=
  let n := fieldOf v 29 24
  let colour := fieldOf v 23 20
  let alg := fieldOf v 19 16
  let f := fieldOf v 11 0
  let k := kslotGet n s
  if alg < 1 ∨ 5 < alg ∨ colour = 0 ∨ furrowState f s = .free ∨ k.seq = 0xFFFFFFFF ∨ 3 ≤ s.tamper.respLevel then cipherErr 2 0 s
  else kslotSet n ⟨true, alg, colour, f, k.seq + 1, (stagingBytes r s).take (algLen alg)⟩ s

/-- A write of `CIPHER_KSLOT_CMD`, already checked (Table 9-10). -/
def kslotCmdWrite (r : Requester) (v : Word) (s : State) : State :=
  let s := regMask 0x5060 0x3FFF0FFF v s
  let cmd := fieldOf v 31 30
  if cmd = 1 then stagingClear r (kslotLoad r v s)
  else if cmd = 2 then
    let n := fieldOf v 29 24
    stagingClear r (kslotSet n (kslotGet n s).emptied s)
  else s

/-- `CIPHER_KSLOTn_INFO` (Table 9-11). -/
def kslotInfo (n : Nat) (s : State) : Word :=
  let k := kslotGet n s
  if k.loaded then wbit true 31 ||| wfield k.colour 20 ||| wfield k.alg 16 ||| wfield k.furrow 0 else 0

/-! ### Lanes, disable, alarms (R343 to R345) -/

/-- Lanes in service. -/
def lanesUp (s : State) : Nat := 16 - popcount 16 s.units.lanes.toNat

/-- A dispatched class 0x2 command. -/
def onLanes (c : Cmd) : Bool := c.cls == 2 && !(c.phase == .fetched || c.phase == .arrived)

/-- The last lane, `n`, is retired: a command that had begun writing leaves `DST` undefined (R344). -/
def laneLost (n : Nat) (c : Cmd) (s : State) : State :=
  let s := cipherErr 0 n s
  if c.wroteDst then
    let (bs, s) := drawBytes c.dstLen s
    finishSt c .internalFault (putDst c bs s)
  else finishSt c .internalFault s

/-- A command's work on lane `n` runs again from its beginning on other lanes (R344); with none idle it waits for one. -/
def laneMove (n : Nat) (c : Cmd) (s : State) : State :=
  let rest := c.units.filter (· != n)
  if rest.length = c.units.length then s
  else
    let more := (pickUnits { c with units := rest } (cmdPut { c with units := rest } s)).take (c.units.length - rest.length)
    if rest.isEmpty && more.isEmpty then cmdPut { c with phase := .admitted, units := [] } s
    else cmdPut { c with units := rest ++ more } s

/-- Retire a lane (R114, R344): its work moves. With no lane left, every dispatched class 0x2 command ends with `INTERNAL_FAULT`. -/
def laneRetire (n : Nat) (s : State) : State :=
  if s.units.lanes.getLsbD n then s
  else
    let s := { s with units := { s.units with lanes := s.units.lanes ||| (1 <<< n) } }
    let s := cipherErr 1 n (setDegraded 1 (recordRetired 1 s.units.lanes.toNat s))
    let s := postEvt .both 0x5003 (wfield (lanesUp s) 8 ||| wfield n 0) 0 s
    if lanesUp s = 0 then
      (s.cmdif.cmds.filter onLanes).foldl (fun s c => match cmdGet c.id s with
        | some c => laneLost n c s
        | none => s) s
    else (s.cmdif.cmds.filter onLanes).foldl (fun s c => match cmdGet c.id s with
      | some c => laneMove n c s
      | none => s) s

/-- LANE_FAULT: the lane is retired and its work runs again elsewhere (R344). -/
def execLaneFault (n : Fin 16) (s : State) : Out := .next <| onMain (laneRetire n.val) s

/-- The cipher engine is disabled. -/
def cipherDisabled (s : State) : Bool := regBit 0x5004 0 s

/-- A write of `CIPHER_CTL`, already checked (R345). -/
def cipherCtlWrite (v : Word) (s : State) : State :=
  let was := cipherDisabled s
  let s := regMask 0x5004 1 v s
  if v.getLsbD 0 && !was then
    finishAll (fun c => c.cls == 2 && !c.startedP) .abortedDisabled (s.modDev fun d => { d with drains := d.drains ||| 1 })
  else if v.getLsbD 0 then s
  else s.modDev fun d => { d with drains := d.drains &&& ~~~1 }

/-- CIPHER_DRAINED: no class 0x2 command remains in flight after a disable (R345). -/
def execCipherDrained (s : State) : Out :=
  .next <| onMain (fun s =>
    if cipherDisabled s && s.dev.drains.getLsbD 0 && !(s.cmdif.cmds.any fun c => c.cls == 2) then
      postEvt .both 0x5001 0 0 (regOr 0x5000 0x80000000 (s.modDev fun d => { d with drains := d.drains &&& ~~~1 }))
    else s) s

/-- `CIPHER_STATUS` (Table 9-7). -/
def cipherStatus (s : State) : Word :=
  regGet 0x5000 s ||| wbit (cipherDisabled s) 30 ||| wfield ((laneList s).filter fun n => laneLoad n s != 0).length 16
    ||| wfield (lanesUp s) 0

/-- Response level 3 and above (R343). -/
def cipherErase (s : State) : State :=
  let s := finishAll (fun c => onLanes c && !c.wroteDst) .abortedAlarm s
  cipherErr 3 0 ((emptyKSlots (fun _ => true) s).modCipher fun e => { e with staging := [] })

end Sys2Proof.Machine
end

