-- ==== Sys2Proof/Machine/Asym.lean ====
section
/-! DEFINITION. The classical public-key algorithms of Table 10-1: RSA, ECDSA and ECDH on P-256 and P-384, Ed25519.
PRESUMED (log 32): each is the algorithm of the standard Table 10-1 cites. -/
namespace Sys2Proof.Machine

/-! ### Modular arithmetic -/

/-- Bits of a number; `fuel` bounds them. -/
def bitsOf : Nat → Nat → List Bool
  | 0, _ => []
  | fuel + 1, n => if n = 0 then [] else (n % 2 == 1) :: bitsOf fuel (n / 2)

/-- Modular exponentiation over the exponent's bits, most significant first. -/
def powBits (b m : Nat) : List Bool → Nat → Nat
  | [], acc => acc
  | x :: xs, acc =>
    let sq := acc * acc % m
    powBits b m xs (if x then sq * b % m else sq)

/-- b to the e modulo m. -/
def powMod (b e m : Nat) : Nat := powBits (b % m) m (bitsOf (Nat.log2 e + 1) e).reverse (1 % m)

/-- Inverse modulo a prime. -/
def invMod (a p : Nat) : Nat := powMod a (p - 2) p

/-- a - b modulo m. -/
def subMod (a b m : Nat) : Nat := (a + (m - b % m)) % m

/-! ### RSA (RFC 8017) -/

/-- Hash number of a code: 1 SHA-256, 2 SHA-384, 3 SHA-512. -/
def hashNo (h : Nat) (m : List Byte) : List Byte := if h = 2 then sha384 m else if h = 3 then sha512 m else sha256 m

/-- Its length in bytes. -/
def hashLen (h : Nat) : Nat := if h = 2 then 48 else if h = 3 then 64 else 32

/-- MGF1: `n` blocks from counter `i`. -/
def mgf1Blocks (h : Nat) (seed : List Byte) : Nat → Nat → List Byte
  | 0, _ => []
  | n + 1, i => hashNo h (seed ++ be 4 i) ++ mgf1Blocks h seed n (i + 1)

/-- MGF1. -/
def mgf1 (h : Nat) (seed : List Byte) (len : Nat) : List Byte :=
  (mgf1Blocks h seed (len / hashLen h + 1) 0).take len

/-- An RSA key as a record holds it: n, e, then (private, CRT form) p, q, dP, dQ, qInv (log 33). -/
structure RsaKey where
  /-- Bytes of the modulus. -/
  k : Nat
  n : Nat
  e : Nat
  p : Nat
  q : Nat
  dp : Nat
  dq : Nat
  qinv : Nat
  deriving DecidableEq, Repr

/-- The key in record material of a modulus of `k` bytes. -/
def rsaOf (k : Nat) (m : List Byte) : RsaKey :=
  let h := k / 2
  let at' := fun (o n : Nat) => beNat (bytesAt m o n)
  ⟨k, at' 0 k, at' k 4, at' (k + 4) h, at' (k + 4 + h) h, at' (k + 4 + 2 * h) h, at' (k + 4 + 3 * h) h, at' (k + 4 + 4 * h) h⟩

/-- Record material of a private key. -/
def rsaBytes (r : RsaKey) : List Byte :=
  let h := r.k / 2
  be r.k r.n ++ be 4 r.e ++ be h r.p ++ be h r.q ++ be h r.dp ++ be h r.dq ++ be h r.qinv

/-- Public operation. -/
def rsaPub (r : RsaKey) (x : Nat) : Nat := powMod x r.e r.n

/-- Private operation by the Chinese remainder theorem. -/
def rsaPriv (r : RsaKey) (x : Nat) : Nat :=
  let m1 := powMod x r.dp r.p
  let m2 := powMod x r.dq r.q
  m2 + subMod m1 m2 r.p * r.qinv % r.p * r.q

/-- DigestInfo prefix of a hash. -/
def digestInfo (h : Nat) : List Byte :=
  let mid : Byte := if h = 2 then 0x02 else if h = 3 then 0x03 else 0x01
  let n := hashLen h
  [0x30, BitVec.ofNat 8 (n + 17), 0x30, 0x0D, 0x06, 0x09, 0x60, 0x86, 0x48, 0x01, 0x65, 0x03, 0x04, 0x02, mid, 0x05, 0x00, 0x04,
    BitVec.ofNat 8 n]

/-- EMSA-PKCS1-v1_5 of a digest. -/
def emsaPkcs (h k : Nat) (d : List Byte) : List Byte :=
  let t := digestInfo h ++ d
  [0x00, 0x01] ++ List.replicate (k - 3 - t.length) 0xFF ++ [0x00] ++ t

/-- Clear the leftmost `z` bits of the first byte. -/
def clearTop (z : Nat) : List Byte → List Byte
  | [] => []
  | b :: bs => (b &&& BitVec.ofNat 8 (2 ^ (8 - z) - 1)) :: bs

/-- EMSA-PSS encoding of a digest with a salt, for a modulus of `bits` bits. -/
def emsaPss (h bits : Nat) (d salt : List Byte) : List Byte :=
  let emBits := bits - 1
  let emLen := (emBits + 7) / 8
  let hh := hashNo h (zeros 8 ++ d ++ salt)
  let db := zeros (emLen - salt.length - hashLen h - 2) ++ [0x01] ++ salt
  clearTop (8 * emLen - emBits) (xorBytes db (mgf1 h hh db.length)) ++ hh ++ [0xBC]

/-- EMSA-PSS verification. -/
def pssVerify (h bits sLen : Nat) (d em : List Byte) : Bool :=
  let emBits := bits - 1
  let emLen := (emBits + 7) / 8
  let hl := hashLen h
  let masked := em.take (emLen - hl - 1)
  let hh := bytesAt em (emLen - hl - 1) hl
  let z := 8 * emLen - emBits
  let db := clearTop z (xorBytes masked (mgf1 h hh masked.length))
  let pad := emLen - hl - sLen - 2
  decide (hl + sLen + 2 ≤ emLen) && byteAt em (emLen - 1) == 0xBC && clearTop z masked == masked
    && allZero (db.take pad) && byteAt db pad == 0x01
    && hashNo h (zeros 8 ++ d ++ db.drop (pad + 1)) == hh

/-- OAEP encoding. -/
def oaepEnc (h k : Nat) (label m seed : List Byte) : List Byte :=
  let hl := hashLen h
  let db := hashNo h label ++ zeros (k - m.length - 2 * hl - 2) ++ [0x01] ++ m
  let mdb := xorBytes db (mgf1 h seed db.length)
  [0x00] ++ xorBytes seed (mgf1 h mdb hl) ++ mdb

/-- What follows the first 0x01 after zeros. -/
def afterOne : List Byte → Option (List Byte)
  | [] => none
  | b :: bs => if b = 0 then afterOne bs else if b = 1 then some bs else none

/-- OAEP decoding. -/
def oaepDec (h : Nat) (label em : List Byte) : Option (List Byte) :=
  let hl := hashLen h
  let mdb := em.drop (1 + hl)
  let seed := xorBytes (bytesAt em 1 hl) (mgf1 h mdb hl)
  let db := xorBytes mdb (mgf1 h seed mdb.length)
  if byteAt em 0 = 0 ∧ db.take hl = hashNo h label then afterOne (db.drop hl) else none

/-! ### Prime curves (SP 800-186) -/

/-- A short Weierstrass curve with a = -3. -/
structure Curve where
  len : Nat
  p : Nat
  b : Nat
  n : Nat
  gx : Nat
  gy : Nat
  deriving DecidableEq, Repr

/-- P-256. -/
def p256 : Curve where
  len := 32
  p := 0xffffffff00000001000000000000000000000000ffffffffffffffffffffffff
  b := 0x5ac635d8aa3a93e7b3ebbd55769886bc651d06b0cc53b0f63bce3c3e27d2604b
  n := 0xffffffff00000000ffffffffffffffffbce6faada7179e84f3b9cac2fc632551
  gx := 0x6b17d1f2e12c4247f8bce6e563a440f277037d812deb33a0f4a13945d898c296
  gy := 0x4fe342e2fe1a7f9b8ee7eb4a7c0f9e162bce33576b315ececbb6406837bf51f5

/-- P-384. -/
def p384 : Curve where
  len := 48
  p := 0xfffffffffffffffffffffffffffffffffffffffffffffffffffffffffffffffeffffffff0000000000000000ffffffff
  b := 0xb3312fa7e23ee7e4988e056be3f82d19181d9c6efe8141120314088f5013875ac656398d8a2ed19d2a85c8edd3ec2aef
  n := 0xffffffffffffffffffffffffffffffffffffffffffffffffc7634d81f4372ddf581a0db248b0a77aecec196accc52973
  gx := 0xaa87ca22be8b05378eb1c71ef320ad746e1d3b628ba79b9859f741e082542a385502f25dbf55296c3a545e3872760ab7
  gy := 0x3617de4a96262c6f5d9e98bf9292dc29f8f41dbd289a147ce9da3113b5f0b8c00a60b1ce1d7e819d7a431d7c90ea0e5f

/-- Add two points; none is the point at infinity. -/
def ecAdd (c : Curve) : Option (Nat × Nat) → Option (Nat × Nat) → Option (Nat × Nat)
  | none, q => q
  | p, none => p
  | some (x1, y1), some (x2, y2) =>
    if x1 = x2 ∧ (y1 + y2) % c.p = 0 then none
    else
      let l := if x1 = x2 then (3 * x1 * x1 + (c.p - 3)) * invMod (2 * y1) c.p % c.p
        else subMod y2 y1 c.p * invMod (subMod x2 x1 c.p) c.p % c.p
      let x3 := subMod (subMod (l * l) x1 c.p) x2 c.p
      some (x3, subMod (l * subMod x1 x3 c.p) y1 c.p)

/-- Scalar multiplication over the scalar's bits, most significant first. -/
def ecMulBits (c : Curve) (q : Option (Nat × Nat)) : List Bool → Option (Nat × Nat) → Option (Nat × Nat)
  | [], acc => acc
  | x :: xs, acc =>
    let d := ecAdd c acc acc
    ecMulBits c q xs (if x then ecAdd c d q else d)

/-- Scalar multiplication. -/
def ecMul (c : Curve) (k : Nat) (q : Option (Nat × Nat)) : Option (Nat × Nat) :=
  ecMulBits c q (bitsOf (Nat.log2 k + 1) k).reverse none

/-- The base point. -/
def Curve.g (c : Curve) : Option (Nat × Nat) := some (c.gx, c.gy)

/-- A point lies on the curve. -/
def onCurve (c : Curve) (x y : Nat) : Bool :=
  decide (x < c.p ∧ y < c.p ∧ y * y % c.p = (x * x % c.p * x + (c.p - 3) * x + c.b) % c.p)

/-- A point from X and Y, big-endian; none when it does not lie on the curve (R352). -/
def ecPoint (c : Curve) (b : List Byte) : Option (Nat × Nat) :=
  let x := beNat (bytesAt b 0 c.len)
  let y := beNat (bytesAt b c.len c.len)
  if b.length = 2 * c.len ∧ onCurve c x y then some (x, y) else none

/-- The public point of a private scalar, encoded. -/
def ecPub (c : Curve) (d : Nat) : List Byte :=
  match ecMul c d c.g with
  | some (x, y) => be c.len x ++ be c.len y
  | none => zeros (2 * c.len)

/-- A private scalar or per-message secret from random bytes: extra random bits (FIPS 186-5 A.2.1, A.3.1). -/
def ecScalar (c : Curve) (rnd : List Byte) : Nat := beNat rnd % (c.n - 1) + 1

/-- ECDSA signature r, s of a digest of the curve's length. -/
def ecdsaSign (c : Curve) (d k : Nat) (digest : List Byte) : List Byte :=
  match ecMul c k c.g with
  | none => zeros (2 * c.len)
  | some (x, _) =>
    let r := x % c.n
    let s := invMod k c.n * ((beNat digest + r * d) % c.n) % c.n
    be c.len r ++ be c.len s

/-- ECDSA verification (R354: r and s from 1 to n - 1). -/
def ecdsaVerify (c : Curve) (pub digest sig : List Byte) : Bool :=
  let r := beNat (bytesAt sig 0 c.len)
  let s := beNat (bytesAt sig c.len c.len)
  if r = 0 ∨ s = 0 ∨ c.n ≤ r ∨ c.n ≤ s then false
  else match ecPoint c pub with
    | none => false
    | some q =>
      let w := invMod s c.n
      match ecAdd c (ecMul c (beNat digest * w % c.n) c.g) (ecMul c (r * w % c.n) (some q)) with
      | none => false
      | some (x, _) => x % c.n == r

/-- ECC CDH: the x-coordinate of the shared point; none for the point at infinity. -/
def ecdh (c : Curve) (d : Nat) (peer : List Byte) : Option (List Byte) :=
  match ecPoint c peer with
  | none => none
  | some q => (ecMul c d (some q)).map fun x => be c.len x.1

/-! ### Ed25519 (RFC 8032) -/

/-- The field prime. -/
def edP : Nat := 2 ^ 255 - 19
/-- The group order. -/
def edL : Nat := 2 ^ 252 + 27742317777372353535851937790883648493
/-- The curve constant d. -/
def edD : Nat := 37095705934669439343138083508754565189542113879843219016388785533085940283555
/-- The base point. -/
def edB : Nat × Nat :=
  (15112221349535400772501151409588531511454012693041857206046113283949847762202,
   46316835694926478169428394003475163141307993866256225615783033603165251855960)

/-- Twisted Edwards addition. -/
def edAdd (a b : Nat × Nat) : Nat × Nat :=
  let t := edD * (a.1 * b.1 % edP) % edP * (a.2 * b.2 % edP) % edP
  ((a.1 * b.2 + a.2 * b.1) * invMod (1 + t) edP % edP, (a.2 * b.2 + a.1 * b.1) * invMod (subMod 1 t edP) edP % edP)

/-- Scalar multiplication over bits, most significant first. -/
def edMulBits (q : Nat × Nat) : List Bool → Nat × Nat → Nat × Nat
  | [], acc => acc
  | x :: xs, acc =>
    let d := edAdd acc acc
    edMulBits q xs (if x then edAdd d q else d)

/-- Scalar multiplication. -/
def edMul (k : Nat) (q : Nat × Nat) : Nat × Nat := edMulBits q (bitsOf (Nat.log2 k + 1) k).reverse (0, 1)

/-- Point encoding. -/
def edEnc (q : Nat × Nat) : List Byte := le 32 (q.2 + q.1 % 2 * 2 ^ 255)

/-- Point decoding. -/
def edDec (b : List Byte) : Option (Nat × Nat) :=
  let w := leNat b
  let y := w % 2 ^ 255
  let sign := w / 2 ^ 255
  if edP ≤ y then none
  else
    let u := subMod (y * y) 1 edP
    let v := (edD * (y * y % edP) + 1) % edP
    let x := u * powMod v 3 edP % edP * powMod (u * powMod v 7 edP % edP) ((edP - 5) / 8) edP % edP
    let ok := v * (x * x % edP) % edP == u
    let alt := v * (x * x % edP) % edP == (edP - u) % edP
    let x := if ok then x else x * powMod 2 ((edP - 1) / 4) edP % edP
    if !(ok || alt) then none
    else if x = 0 ∧ sign = 1 then none
    else some (if x % 2 = sign then x else (edP - x) % edP, y)

/-- The scalar of a private seed. -/
def edScalar (h : List Byte) : Nat := leNat (h.take 32) % 2 ^ 254 / 8 * 8 + 2 ^ 254

/-- The public key of a seed. -/
def edPub (seed : List Byte) : List Byte := edEnc (edMul (edScalar (sha512 seed)) edB)

/-- Pure Ed25519 signature. -/
def edSign (seed m : List Byte) : List Byte :=
  let h := sha512 seed
  let s := edScalar h
  let a := edPub seed
  let r := leNat (sha512 (h.drop 32 ++ m)) % edL
  let rr := edEnc (edMul r edB)
  let k := leNat (sha512 (rr ++ a ++ m)) % edL
  rr ++ le 32 ((r + k * s) % edL)

/-- Pure Ed25519 verification, with the cofactor. -/
def edVerify (a m sig : List Byte) : Bool :=
  let s := leNat (bytesAt sig 32 32)
  match edDec a, edDec (sig.take 32) with
  | some q, some r =>
    let k := leNat (sha512 (sig.take 32 ++ a ++ m)) % edL
    decide (s < edL) && edMul (8 * s) edB == edAdd (edMul 8 r) (edMul (8 * k) q)
  | _, _ => false

end Sys2Proof.Machine
end

