-- ==== Sys2Proof/Machine/Lattice.lean ====
section
/-! DEFINITION. The lattice algorithms of Table 10-1: ML-KEM (FIPS 203) and ML-DSA (FIPS 204) over Keccak (FIPS 202).
PRESUMED (log 32): each is the algorithm of the standard Table 10-1 cites; sampling loops are bounded (log 34). -/
namespace Sys2Proof.Machine

/-! ### Keccak (FIPS 202) -/

/-- Rotation offsets by lane number x + 5 y. -/
def keccakRot : List Nat :=
  [0, 1, 62, 28, 27, 36, 44, 6, 55, 20, 3, 10, 43, 25, 39, 41, 45, 15, 21, 8, 18, 2, 61, 56, 14]

/-- Round constants. -/
def keccakRc : List (BitVec 64) :=
  [0x0000000000000001, 0x0000000000008082, 0x800000000000808A, 0x8000000080008000, 0x000000000000808B, 0x0000000080000001,
   0x8000000080008081, 0x8000000000008009, 0x000000000000008A, 0x0000000000000088, 0x0000000080008009, 0x000000008000000A]
  ++ [0x000000008000808B, 0x800000000000008B, 0x8000000000008089, 0x8000000000008003, 0x8000000000008002, 0x8000000000000080,
   0x000000000000800A, 0x800000008000000A, 0x8000000080008081, 0x8000000000008080, 0x0000000080000001, 0x8000000080008008]

/-- One round on 25 lanes. -/
def keccakRound (a : List (BitVec 64)) (rc : BitVec 64) : List (BitVec 64) :=
  let l := fun (a : List (BitVec 64)) (i : Nat) => a.getD i 0
  let c := (List.range 5).map fun x => l a x ^^^ l a (x + 5) ^^^ l a (x + 10) ^^^ l a (x + 15) ^^^ l a (x + 20)
  let d := (List.range 5).map fun x => l c ((x + 4) % 5) ^^^ (l c ((x + 1) % 5)).rotateLeft 1
  let a := (List.range 25).map fun i => (l a i ^^^ l d (i % 5)).rotateLeft (keccakRot.getD i 0)
  let b := (List.range 25).map fun i => let x := i % 5; let y := i / 5; l a ((x + 3 * y) % 5 + 5 * x)
  let a := (List.range 25).map fun i =>
    let x := i % 5
    let y := i / 5
    l b i ^^^ (~~~ (l b ((x + 1) % 5 + 5 * y)) &&& l b ((x + 2) % 5 + 5 * y))
  (l a 0 ^^^ rc) :: a.drop 1

/-- The permutation. -/
def keccakF (a : List (BitVec 64)) : List (BitVec 64) := keccakRc.foldl keccakRound a

/-- Absorb one block of whole lanes. -/
def keccakAbsorb (st : List (BitVec 64)) (b : List Byte) : List (BitVec 64) :=
  let ws := (chunks 8 b).map fun x => BitVec.ofNat 64 (leNat x)
  keccakF ((List.range 25).map fun i => st.getD i 0 ^^^ ws.getD i 0)

/-- Padding of a message for a rate and a domain byte. -/
def keccakPad (rate : Nat) (dom : Byte) (m : List Byte) : List Byte :=
  let r := rate - m.length % rate
  if r = 1 then m ++ [dom ||| 0x80] else m ++ [dom] ++ zeros (r - 2) ++ [0x80]

/-- Squeeze `n` blocks. -/
def keccakSqueeze (rate : Nat) : Nat → List (BitVec 64) → List Byte
  | 0, _ => []
  | n + 1, st => ((st.map fun w => le 8 w.toNat).flatten).take rate ++ keccakSqueeze rate n (keccakF st)

/-- A sponge of `len` output bytes. -/
def sponge (rate : Nat) (dom : Byte) (m : List Byte) (len : Nat) : List Byte :=
  (keccakSqueeze rate ((len + rate - 1) / rate) ((chunks rate (keccakPad rate dom m)).foldl keccakAbsorb (List.replicate 25 0))).take len

/-- SHA3-256. -/
def sha3of256 (m : List Byte) : List Byte := sponge 136 0x06 m 32
/-- SHA3-512. -/
def sha3of512 (m : List Byte) : List Byte := sponge 72 0x06 m 64
/-- SHAKE128. -/
def shake128 (m : List Byte) (len : Nat) : List Byte := sponge 168 0x1F m len
/-- SHAKE256. -/
def shake256 (m : List Byte) (len : Nat) : List Byte := sponge 136 0x1F m len

/-! ### Polynomials of 256 coefficients -/

/-- Bits of bytes, least significant first. -/
def bitsLe (bs : List Byte) : List Bool := (bs.map fun b => (List.range 8).map fun i => b.getLsbD i).flatten

/-- A number from bits, least significant first. -/
def natLe (bs : List Bool) : Nat := bs.foldr (fun b n => bit b + 2 * n) 0

/-- Pack numbers of `d` bits each. -/
def packD (d : Nat) (xs : List Nat) : List Byte :=
  let n := (xs.foldr (fun x acc => x % 2 ^ d + 2 ^ d * acc) 0)
  le (xs.length * d / 8) n

/-- Unpack numbers of `d` bits each. -/
def unpackD (d n : Nat) (bs : List Byte) : List Nat :=
  let w := leNat bs
  (List.range n).map fun i => w / 2 ^ (d * i) % 2 ^ d

/-- b to the e modulo q, for small e. -/
def powQ (q b : Nat) : Nat → Nat
  | 0 => 1
  | e + 1 => b * powQ q b e % q

/-- The low `n` bits of a number in reverse order. -/
def bitRev : Nat → Nat → Nat
  | 0, _ => 0
  | n + 1, x => x % 2 * 2 ^ n + bitRev n (x / 2)

/-- Sum of two polynomials modulo q. -/
def polyAdd (q : Nat) (a b : List Nat) : List Nat := List.zipWith (fun x y => (x + y) % q) a b
/-- Difference modulo q. -/
def polySub (q : Nat) (a b : List Nat) : List Nat := List.zipWith (fun x y => (x + (q - y % q)) % q) a b

/-- Number-theoretic transform from node `i` of the tree of roots, `depth` levels; `zs` the roots by node. -/
def nttAt (q : Nat) (zs : List Nat) : Nat → Nat → List Nat → List Nat
  | 0, _, f => f
  | d + 1, i, f =>
    let h := f.length / 2
    let lo := f.take h
    let t := (f.drop h).map fun x => zs.getD i 0 * x % q
    nttAt q zs d (2 * i) (polyAdd q lo t) ++ nttAt q zs d (2 * i + 1) (polySub q lo t)

/-- The inverse transform, without its final factor; `zi` the inverse roots by node. -/
def inttAt (q : Nat) (zi : List Nat) : Nat → Nat → List Nat → List Nat
  | 0, _, f => f
  | d + 1, i, f =>
    let h := f.length / 2
    let lo := inttAt q zi d (2 * i) (f.take h)
    let hi := inttAt q zi d (2 * i + 1) (f.drop h)
    polyAdd q lo hi ++ (polySub q lo hi).map fun x => zi.getD i 0 * x % q

/-! ### ML-KEM (FIPS 203) -/

/-- Its modulus. -/
def kemQ : Nat := 3329
/-- Roots by node. -/
def kemZ : List Nat := (List.range 128).map fun i => powQ kemQ 17 (bitRev 7 i)
/-- Inverse roots by node. -/
def kemZi : List Nat := (List.range 128).map fun i => powQ kemQ 1175 (bitRev 7 i)
/-- Transform. -/
def kemNtt (f : List Nat) : List Nat := nttAt kemQ kemZ 7 1 f
/-- Inverse transform. -/
def kemIntt (f : List Nat) : List Nat := (inttAt kemQ kemZi 7 1 f).map fun x => 3303 * x % kemQ

/-- Products of degree-one polynomials. -/
def kemBase : List Nat → List Nat → List Nat → List Nat
  | g :: gs, a0 :: a1 :: as', b0 :: b1 :: bs =>
    ((a0 * b0 + a1 * b1 % kemQ * g) % kemQ) :: ((a0 * b1 + a1 * b0) % kemQ) :: kemBase gs as' bs
  | _, _, _ => []

/-- The factors of the degree-one products. -/
def kemG : List Nat := (List.range 128).map fun i => powQ kemQ 17 (2 * bitRev 7 i + 1)
/-- Product in the transform domain. -/
def kemMul (a b : List Nat) : List Nat := kemBase kemG a b

/-- A zero polynomial. -/
def poly0 : List Nat := List.replicate 256 0

/-- Inner product of two vectors in the transform domain. -/
def kemDot (a b : List (List Nat)) : List Nat := (List.zipWith kemMul a b).foldl (polyAdd kemQ) poly0

/-- Uniform coefficients from three-byte groups. -/
def kemReject : List Byte → List Nat
  | b0 :: b1 :: b2 :: rest =>
    let d1 := b0.toNat + 256 * (b1.toNat % 16)
    let d2 := b1.toNat / 16 + 16 * b2.toNat
    (if d1 < kemQ then [d1] else []) ++ (if d2 < kemQ then [d2] else []) ++ kemReject rest
  | _ => []

/-- SampleNTT; its stream is cut after 2,016 bytes (log 34). -/
def kemSampleNtt (seed : List Byte) : List Nat :=
  let c := (kemReject (shake128 seed 2016)).take 256
  c ++ List.replicate (256 - c.length) 0

/-- Centred binomial sampling with eta 2. -/
def kemCbd : List Bool → List Nat
  | a :: b :: c :: d :: rest => ((bit a + bit b + kemQ - bit c - bit d) % kemQ) :: kemCbd rest
  | _ => []

/-- SamplePolyCBD of the pseudorandom function. -/
def kemNoise (s : List Byte) (n : Nat) : List Nat := kemCbd (bitsLe (shake256 (s ++ [BitVec.ofNat 8 n]) 128))

/-- Compression to d bits. -/
def kemComp (d : Nat) (f : List Nat) : List Nat := f.map fun x => (x * 2 ^ (d + 1) + kemQ) / (2 * kemQ) % 2 ^ d
/-- Decompression from d bits. -/
def kemDecomp (d : Nat) (f : List Nat) : List Nat := f.map fun x => (2 * x * kemQ + 2 ^ d) / 2 ^ (d + 1)

/-- Polynomials of `n` bytes each. -/
def kemPolys (d n : Nat) (bs : List Byte) : List (List Nat) := (List.range n).map fun i => unpackD d 256 (bytesAt bs (32 * d * i) (32 * d))

/-- Row i, column j of the public matrix. -/
def kemA (rho : List Byte) (i j : Nat) : List Nat := kemSampleNtt (rho ++ [BitVec.ofNat 8 j, BitVec.ofNat 8 i])

/-- K-PKE key generation: encryption key and decryption key. -/
def kpkeGen (k : Nat) (d : List Byte) : List Byte × List Byte :=
  let g := sha3of512 (d ++ [BitVec.ofNat 8 k])
  let rho := g.take 32
  let sigma := g.drop 32
  let s := (List.range k).map fun i => kemNtt (kemNoise sigma i)
  let e := (List.range k).map fun i => kemNtt (kemNoise sigma (k + i))
  let t := (List.range k).map fun i => polyAdd kemQ (kemDot ((List.range k).map fun j => kemA rho i j) s) (e.getD i poly0)
  ((t.map (packD 12)).flatten ++ rho, (s.map (packD 12)).flatten)

/-- Bits of compression of a ciphertext: du, dv. -/
def kemD (k : Nat) : Nat × Nat := if k = 4 then (11, 5) else (10, 4)

/-- K-PKE encryption. -/
def kpkeEnc (k : Nat) (ek m r : List Byte) : List Byte :=
  let t := (kemPolys 12 k ek).map fun f => f.map (· % kemQ)
  let rho := bytesAt ek (384 * k) 32
  let y := (List.range k).map fun i => kemNtt (kemNoise r i)
  let e1 := (List.range k).map fun i => kemNoise r (k + i)
  let e2 := kemNoise r (2 * k)
  let u := (List.range k).map fun i =>
    polyAdd kemQ (kemIntt (kemDot ((List.range k).map fun j => kemA rho j i) y)) (e1.getD i poly0)
  let mu := kemDecomp 1 (unpackD 1 256 m)
  let v := polyAdd kemQ (polyAdd kemQ (kemIntt (kemDot t y)) e2) mu
  let du := (kemD k).1
  let dv := (kemD k).2
  (u.map fun f => packD du (kemComp du f)).flatten ++ packD dv (kemComp dv v)

/-- K-PKE decryption. -/
def kpkeDec (k : Nat) (dk c : List Byte) : List Byte :=
  let du := (kemD k).1
  let dv := (kemD k).2
  let u := (kemPolys du k c).map (kemDecomp du)
  let v := kemDecomp dv (unpackD dv 256 (bytesAt c (32 * du * k) (32 * dv)))
  let s := kemPolys 12 k dk
  packD 1 (kemComp 1 (polySub kemQ v (kemIntt (kemDot s (u.map kemNtt)))))

/-- ML-KEM key generation from d and z: encapsulation and decapsulation key. -/
def kemGen (k : Nat) (d z : List Byte) : List Byte × List Byte :=
  let g := kpkeGen k d
  (g.1, g.2 ++ g.1 ++ sha3of256 g.1 ++ z)

/-- Encapsulation: shared secret and ciphertext. -/
def kemEncaps (k : Nat) (ek m : List Byte) : List Byte × List Byte :=
  let g := sha3of512 (m ++ sha3of256 ek)
  (g.take 32, kpkeEnc k ek m (g.drop 32))

/-- Decapsulation with implicit rejection (R359). -/
def kemDecaps (k : Nat) (dk c : List Byte) : List Byte :=
  let ek := bytesAt dk (384 * k) (384 * k + 32)
  let h := bytesAt dk (768 * k + 32) 32
  let z := bytesAt dk (768 * k + 64) 32
  let m := kpkeDec k (dk.take (384 * k)) c
  let g := sha3of512 (m ++ h)
  if kpkeEnc k ek m (g.drop 32) = c then g.take 32 else shake256 (z ++ c) 32

/-- The modulus check of an encapsulation key (R352). -/
def kemEkOk (k : Nat) (ek : List Byte) : Bool :=
  ek.length == 384 * k + 32 && (kemPolys 12 k ek).all fun f => f.all fun x => decide (x < kemQ)

/-- The hash check of a decapsulation key (Table 10-1). -/
def kemDkOk (k : Nat) (dk : List Byte) : Bool :=
  dk.length == 768 * k + 96 && sha3of256 (bytesAt dk (384 * k) (384 * k + 32)) == bytesAt dk (768 * k + 32) 32

/-! ### ML-DSA (FIPS 204) -/

/-- Its modulus. -/
def dsaQ : Nat := 8380417

/-- A parameter set. -/
structure DsaSet where
  k : Nat
  l : Nat
  eta : Nat
  tau : Nat
  /-- Bytes of the commitment hash. -/
  ct : Nat
  beta : Nat
  omega : Nat
  deriving DecidableEq, Repr

/-- ML-DSA-65. -/
def dsa65 : DsaSet := ⟨6, 5, 4, 49, 48, 196, 55⟩
/-- ML-DSA-87. -/
def dsa87 : DsaSet := ⟨8, 7, 2, 60, 64, 120, 75⟩
/-- Bits of one secret coefficient. -/
def DsaSet.eb (p : DsaSet) : Nat := if p.eta = 2 then 3 else 4

/-- Both sets' gamma1. -/
def gamma1 : Nat := 2 ^ 19
/-- Both sets' gamma2. -/
def gamma2 : Nat := 261888

/-- Roots by node. -/
def dsaZ : List Nat := (List.range 256).map fun i => powQ dsaQ 1753 (bitRev 8 i)
/-- Inverse roots by node. -/
def dsaZi : List Nat := (List.range 256).map fun i => powQ dsaQ 731434 (bitRev 8 i)
/-- Transform. -/
def dsaNtt (f : List Nat) : List Nat := nttAt dsaQ dsaZ 8 1 f
/-- Inverse transform. -/
def dsaIntt (f : List Nat) : List Nat := (inttAt dsaQ dsaZi 8 1 f).map fun x => 8347681 * x % dsaQ
/-- Product in the transform domain. -/
def dsaMul (a b : List Nat) : List Nat := List.zipWith (fun x y => x * y % dsaQ) a b

/-- Uniform coefficients from three-byte groups. -/
def dsaReject : List Byte → List Nat
  | b0 :: b1 :: b2 :: rest =>
    let d := b0.toNat + 256 * b1.toNat + 65536 * (b2.toNat % 128)
    (if d < dsaQ then [d] else []) ++ dsaReject rest
  | _ => []

/-- ExpandA, row r and column s; the stream is cut after 1,008 bytes (log 34). -/
def dsaA (rho : List Byte) (r s : Nat) : List Nat :=
  let c := (dsaReject (shake128 (rho ++ [BitVec.ofNat 8 s, BitVec.ofNat 8 r]) 1008)).take 256
  c ++ List.replicate (256 - c.length) 0

/-- Small coefficients from half-bytes. -/
def dsaSmall (eta : Nat) : List Nat → List Nat
  | [] => []
  | z :: zs =>
    (if eta = 2 then (if z < 15 then [(dsaQ + 2 - z % 5) % dsaQ] else [])
      else (if z < 9 then [(dsaQ + 4 - z) % dsaQ] else [])) ++ dsaSmall eta zs

/-- ExpandS, one polynomial; the stream is cut after 544 bytes (log 34). -/
def dsaS (eta : Nat) (seed : List Byte) (n : Nat) : List Nat :=
  let hs := ((shake256 (seed ++ le 2 n) 544).map fun b => [b.toNat % 16, b.toNat / 16]).flatten
  let c := (dsaSmall eta hs).take 256
  c ++ List.replicate (256 - c.length) 0

/-- Matrix times vector in the transform domain. -/
def dsaAv (p : DsaSet) (rho : List Byte) (v : List (List Nat)) : List (List Nat) :=
  (List.range p.k).map fun r =>
    (List.zipWith dsaMul ((List.range p.l).map fun s => dsaA rho r s) v).foldl (polyAdd dsaQ) poly0

/-- Size of a coefficient around 0. -/
def cAbs (x : Nat) : Nat := min (x % dsaQ) (dsaQ - x % dsaQ)
/-- Largest size over a vector. -/
def vNorm (v : List (List Nat)) : Nat := v.foldl (fun n f => f.foldl (fun n x => max n (cAbs x)) n) 0

/-- Power2Round: high part. -/
def pow2Hi (x : Nat) : Nat := (x + 4095) / 8192
/-- Power2Round: low part modulo q. -/
def pow2Lo (x : Nat) : Nat := (x + dsaQ - pow2Hi x * 8192) % dsaQ

/-- HighBits. -/
def hiBits (x : Nat) : Nat :=
  let r1 := (x % dsaQ + gamma2 - 1) / (2 * gamma2)
  if r1 = 16 then 0 else r1
/-- LowBits modulo q. -/
def loBits (x : Nat) : Nat := (x % dsaQ + dsaQ - hiBits x * 2 * gamma2) % dsaQ
/-- LowBits is above 0 and not more than gamma2. -/
def loPos (x : Nat) : Bool := decide (0 < loBits x ∧ loBits x ≤ gamma2)

/-- Pack coefficients x of [-a, b] as b - x in `d` bits. -/
def packB (d b : Nat) (f : List Nat) : List Byte := packD d (f.map fun x => (b + dsaQ - x % dsaQ) % dsaQ)
/-- The inverse of `packB`. -/
def unpackB (d b : Nat) (bs : List Byte) : List Nat := (unpackD d 256 bs).map fun z => (b + dsaQ - z) % dsaQ

/-- Cut into polynomials of `n` bytes. -/
def cutPolys (n cnt : Nat) (f : List Byte → List Nat) (bs : List Byte) : List (List Nat) :=
  (List.range cnt).map fun i => f (bytesAt bs (n * i) n)

/-- Key generation from a seed: public and private key. -/
def dsaGen (p : DsaSet) (xi : List Byte) : List Byte × List Byte :=
  let h := shake256 (xi ++ [BitVec.ofNat 8 p.k, BitVec.ofNat 8 p.l]) 128
  let rho := h.take 32
  let rp := bytesAt h 32 64
  let kk := h.drop 96
  let s1 := (List.range p.l).map fun i => dsaS p.eta rp i
  let s2 := (List.range p.k).map fun i => dsaS p.eta rp (p.l + i)
  let t := List.zipWith (fun a b => polyAdd dsaQ (dsaIntt a) b) (dsaAv p rho (s1.map dsaNtt)) s2
  let pk := rho ++ (t.map fun f => packD 10 (f.map pow2Hi)).flatten
  let sk := rho ++ kk ++ shake256 pk 64 ++ (s1.map (packB p.eb p.eta)).flatten ++ (s2.map (packB p.eb p.eta)).flatten
    ++ (t.map fun f => packB 13 4096 (f.map pow2Lo)).flatten
  (pk, sk)

/-- The public key of a private key. -/
def dsaPub (p : DsaSet) (sk : List Byte) : List Byte :=
  let rho := sk.take 32
  let n := 32 * p.eb
  let s1 := cutPolys n p.l (unpackB p.eb p.eta) (bytesAt sk 128 (n * p.l))
  let s2 := cutPolys n p.k (unpackB p.eb p.eta) (bytesAt sk (128 + n * p.l) (n * p.k))
  let t := List.zipWith (fun a b => polyAdd dsaQ (dsaIntt a) b) (dsaAv p rho (s1.map dsaNtt)) s2
  rho ++ (t.map fun f => packD 10 (f.map pow2Hi)).flatten

/-- First byte of a stream that is at most `i`, and the rest. -/
def nextUpTo (i : Nat) : List Byte → Nat × List Byte
  | [] => (0, [])
  | b :: bs => if b.toNat ≤ i then (b.toNat, bs) else nextUpTo i bs

/-- SampleInBall from position `i`, `n` coefficients. -/
def ballFuel : Nat → Nat → List Bool → List Byte → List Nat → List Nat
  | 0, _, _, _, c => c
  | n + 1, i, sg, bs, c =>
    let r := nextUpTo i bs
    let v := if sg.headD false then dsaQ - 1 else 1
    ballFuel n (i + 1) (sg.drop 1) r.2 ((c.set i (c.getD r.1 0)).set r.1 v)

/-- SampleInBall; the stream is cut after 816 bytes (log 34). -/
def dsaBall (p : DsaSet) (seed : List Byte) : List Nat :=
  let h := shake256 seed 816
  ballFuel p.tau (256 - p.tau) (bitsLe (h.take 8)) (h.drop 8) poly0

/-- Encoding of the commitment. -/
def w1Enc (w : List (List Nat)) : List Byte := (w.map (packD 4)).flatten

/-- MakeHint over a polynomial: `r` and `r + z` have other high bits. -/
def mkHint (z r : List Nat) : List Bool := List.zipWith (fun a b => hiBits b != hiBits ((a + b) % dsaQ)) z r

/-- UseHint on one coefficient. -/
def useHint (h : Bool) (x : Nat) : Nat :=
  if h then (if loPos x then (hiBits x + 1) % 16 else (hiBits x + 15) % 16) else hiBits x

/-- HintBitPack. -/
def hintPack (p : DsaSet) (h : List (List Bool)) : List Byte :=
  let pos := h.map fun f => (List.range 256).filter fun i => f.getD i false
  let ys := pos.flatten
  let cnt := (List.range p.k).map fun i => ((pos.take (i + 1)).map (·.length)).sum
  (ys ++ List.replicate (p.omega - ys.length) 0 ++ cnt).map (BitVec.ofNat 8)

/-- Strictly rising. -/
def risingNat : List Nat → Bool
  | a :: b :: rest => decide (a < b) && risingNat (b :: rest)
  | _ => true

/-- Positions of each polynomial's hints from index `i`. -/
def hintCuts : List Nat → Nat → List Nat → Option (List (List Nat))
  | [], i, ys => if (ys.drop i).all (· == 0) then some [] else none
  | n :: ns, i, ys =>
    let xs := (ys.drop i).take (n - i)
    if n < i ∨ ys.length < n ∨ !risingNat xs then none
    else (hintCuts ns n ys).map fun rest => xs :: rest

/-- HintBitUnpack. -/
def hintUnpack (p : DsaSet) (b : List Byte) : Option (List (List Bool)) :=
  let ns := b.map (·.toNat)
  (hintCuts (ns.drop p.omega) 0 (ns.take p.omega)).map fun ps => ps.map fun xs => (List.range 256).map fun i => xs.contains i

/-- One signing attempt after another, at most `fuel` (log 34). -/
def dsaTry (p : DsaSet) (rho mu rpp : List Byte) (s1 s2 t0 : List (List Nat)) : Nat → Nat → List Byte
  | 0, _ => zeros (p.ct + 640 * p.l + p.omega + p.k)
  | fuel + 1, kappa =>
    let y := (List.range p.l).map fun r => unpackB 20 gamma1 (shake256 (rpp ++ le 2 (kappa + r)) 640)
    let w := (dsaAv p rho (y.map dsaNtt)).map dsaIntt
    let ch := shake256 (mu ++ w1Enc (w.map fun f => f.map hiBits)) p.ct
    let c := dsaNtt (dsaBall p ch)
    let mul := fun (v : List (List Nat)) => v.map fun f => dsaIntt (dsaMul c f)
    let z := List.zipWith (polyAdd dsaQ) y (mul s1)
    let wcs := List.zipWith (polySub dsaQ) w (mul s2)
    let ct0 := mul t0
    let h := List.zipWith (fun a b => mkHint (polySub dsaQ poly0 a) (polyAdd dsaQ b a)) ct0 wcs
    let ones := (h.map fun f => (f.filter (· == true)).length).sum
    if gamma1 - p.beta ≤ vNorm z ∨ gamma2 - p.beta ≤ vNorm (wcs.map fun f => f.map loBits) ∨ gamma2 ≤ vNorm ct0 ∨ p.omega < ones
    then dsaTry p rho mu rpp s1 s2 t0 fuel (kappa + p.l)
    else ch ++ (z.map (packB 20 gamma1)).flatten ++ hintPack p h

/-- The message of pure ML-DSA with a context. -/
def dsaMsg (ctx m : List Byte) : List Byte := [0, BitVec.ofNat 8 ctx.length] ++ ctx ++ m

/-- Signing with 32 bytes `rnd` (zero for deterministic signing). -/
def dsaSign (p : DsaSet) (sk ctx m rnd : List Byte) : List Byte :=
  let n := 32 * p.eb
  let mu := shake256 (bytesAt sk 64 64 ++ dsaMsg ctx m) 64
  let rpp := shake256 (bytesAt sk 32 32 ++ rnd ++ mu) 64
  let s1 := cutPolys n p.l (unpackB p.eb p.eta) (bytesAt sk 128 (n * p.l))
  let s2 := cutPolys n p.k (unpackB p.eb p.eta) (bytesAt sk (128 + n * p.l) (n * p.k))
  let t0 := cutPolys 416 p.k (unpackB 13 4096) (bytesAt sk (128 + n * (p.l + p.k)) (416 * p.k))
  dsaTry p (sk.take 32) mu rpp (s1.map dsaNtt) (s2.map dsaNtt) (t0.map dsaNtt) 814 0

/-- Verification. -/
def dsaVerify (p : DsaSet) (pk ctx m sig : List Byte) : Bool :=
  let rho := pk.take 32
  let t1 := cutPolys 320 p.k (unpackD 10 256) (pk.drop 32)
  let ch := sig.take p.ct
  let z := cutPolys 640 p.l (unpackB 20 gamma1) (bytesAt sig p.ct (640 * p.l))
  match hintUnpack p (sig.drop (p.ct + 640 * p.l)) with
  | none => false
  | some h =>
    let mu := shake256 (shake256 pk 64 ++ dsaMsg ctx m) 64
    let c := dsaNtt (dsaBall p ch)
    let az := dsaAv p rho (z.map dsaNtt)
    let w := List.zipWith (fun a t => dsaIntt (polySub dsaQ a (dsaMul c (dsaNtt (t.map fun x => x * 8192 % dsaQ))))) az t1
    let w1 := List.zipWith (fun hf f => List.zipWith useHint hf f) h w
    decide (vNorm z < gamma1 - p.beta) && shake256 (mu ++ w1Enc w1) p.ct == ch

end Sys2Proof.Machine
end

