-- ==== Sys2Proof/Machine/KeyMat.lean ====
section
/-! DEFINITION. Key material by `ALG` (Table 7-4): generation, public encodings (Table 10-2), check values (R234). -/
namespace Sys2Proof.Machine

/-- Codes of public keys. -/
def isPublic (alg : Nat) : Bool := [0x14, 0x15, 0x16, 0x1A, 0x1B, 0x1D, 0x22, 0x23, 0x26, 0x27].contains alg

/-- Codes of private keys. -/
def isPrivate (alg : Nat) : Bool := [0x10, 0x11, 0x12, 0x18, 0x19, 0x1C, 0x20, 0x21, 0x24, 0x25].contains alg

/-- Codes of symmetric keys. -/
def isSym (alg : Nat) : Bool := isTdea alg || isAes alg || alg == 8

/-- Modulus bytes of an RSA code. -/
def rsaLen (alg : Nat) : Nat := if alg % 4 = 0 then 256 else if alg % 4 = 1 then 384 else 512

/-- ML-KEM rank of a code. -/
def kemK (alg : Nat) : Nat := if alg % 2 = 0 then 3 else 4

/-- ML-DSA parameter set of a code. -/
def dsaSet (alg : Nat) : DsaSet := if alg % 2 = 0 then dsa65 else dsa87

/-- The public code of a private one. -/
def publicAlg (alg : Nat) : Nat :=
  if 0x10 ≤ alg ∧ alg ≤ 0x12 then alg + 4
  else if alg = 0x18 ∨ alg = 0x19 then alg + 2
  else if alg = 0x1C then 0x1D
  else alg + 2

/-- The public key encoding of record material (Table 10-2). -/
def pubKeyOf (alg : Nat) (m : List Byte) : List Byte :=
  if 0x10 ≤ alg ∧ alg ≤ 0x12 then m.take (rsaLen alg + 4)
  else if alg = 0x18 then ecPub p256 (beNat m)
  else if alg = 0x19 then m.drop 48
  else if alg = 0x1C then edPub m
  else if alg = 0x20 ∨ alg = 0x21 then bytesAt m (384 * kemK alg) (384 * kemK alg + 32)
  else if alg = 0x24 ∨ alg = 0x25 then dsaPub (dsaSet alg) m
  else m

/-- Length of the public encoding of a code (Table 10-2). -/
def pubLen (alg : Nat) : Nat :=
  if 0x10 ≤ alg ∧ alg ≤ 0x16 then rsaLen alg + 4
  else if alg = 0x18 ∨ alg = 0x1A then 64
  else if alg = 0x19 ∨ alg = 0x1B then 96
  else if alg = 0x1C ∨ alg = 0x1D then 32
  else if 0x20 ≤ alg ∧ alg ≤ 0x23 then 384 * kemK alg + 32
  else if alg = 0x24 ∨ alg = 0x26 then 1952
  else 2592

/-- `KCV` (R234). -/
def kcvOf (alg : Nat) (m : List Byte) : List Byte :=
  if isTdea alg then (tdeaEnc m (zeros 8)).take 3
  else if isAes alg then (cmac alg m (zeros 16)).take 3
  else if alg = 8 then (hmac256 m []).take 3
  else (sha256 (pubKeyOf alg m)).take 3

/-- KEY-class bytes that a key generation draws, by code and HMAC length (log 33). -/
def rndLen (alg hmacLen : Nat) : Nat :=
  if isTdea alg || isAes alg then algLen alg
  else if alg = 8 then hmacLen
  else if alg = 0x18 then 40
  else if alg = 0x19 then 56
  else if alg = 0x20 ∨ alg = 0x21 then 64
  else 32

/-- Remainders of Euclid's algorithm with the coefficient of the first number. -/
def egcd : Nat → Int → Int → Int → Int → Int
  | 0, _, _, x0, _ => x0
  | n + 1, a, b, x0, x1 => if b = 0 then x0 else egcd n b (a % b) x1 (x0 - a / b * x1)

/-- Inverse modulo any number prime to a. -/
def invAny (a m : Nat) : Nat := ((egcd (2 * (Nat.log2 m + 2)) a m 1 0) % m).toNat

/-- One round of the Miller-Rabin test of `n`, `n - 1` being `d` times 2^`r`: `x` is a power of the base. -/
def millerRound (n : Nat) : Nat → Nat → Bool
  | 0, _ => false
  | r + 1, x => x == n - 1 || millerRound n r (x * x % n)

/-- The power of two in a number and its odd part, by fuel. -/
def oddPart : Nat → Nat → Nat × Nat
  | 0, m => (0, m)
  | f + 1, m => if m % 2 = 0 ∧ m ≠ 0 then ((oddPart f (m / 2)).1 + 1, (oddPart f (m / 2)).2) else (0, m)

/-- Probable prime of FIPS 186-5: Miller-Rabin with five bases from 2 to n - 2. -/
def probPrime (n : Nat) : Bool :=
  let rd := oddPart (Nat.log2 n + 1) (n - 1)
  decide (4 < n) && n % 2 == 1 && (List.range 5).all fun i =>
    let x := powMod (2 + Config.millerBase n i % (n - 3)) rd.2 n
    x == 1 || millerRound n rd.1 x

/-- A candidate of `b` bits serves (FIPS 186-5, A.1.3): at least √2 · 2^(b-1), prime to the exponent, and a probable prime. -/
def primeFit (b p : Nat) : Bool :=
  decide (2 ^ (2 * b - 1) ≤ p * p ∧ p < 2 ^ b) && Nat.gcd (p - 1) 65537 == 1 && probPrime p

/-- The two primes, from candidate `i` on, `p` once it is found: they differ by more than 2^(b-100). -/
def findPrimes (b : Nat) (rnd : List Byte) : Nat → Nat → Option Nat → Option (Nat × Nat)
  | 0, _, _ => none
  | f + 1, i, p =>
    let x := Config.rsaCandidate b rnd i
    if !primeFit b x then findPrimes b rnd f (i + 1) p
    else match p with
      | none => findPrimes b rnd f (i + 1) (some x)
      | some p => if 2 ^ (b - 100) < (if p < x then x - p else p - x) then some (p, x) else findPrimes b rnd f (i + 1) (some p)

/-- An RSA private key from its primes, exponent 65,537. -/
def rsaFrom (k p q : Nat) : RsaKey :=
  ⟨k, p * q, 65537, p, q, invAny 65537 (p - 1), invAny 65537 (q - 1), invAny q p⟩

/-- The private exponent of an RSA key. -/
def rsaD (r : RsaKey) : Nat := invAny r.e (Nat.lcm (r.p - 1) (r.q - 1))

/-- A generated RSA key of `k` bytes: primes found within FIPS 186-5's 15 · 8k candidates, and a private exponent above 2^(4k). -/
def rsaGen (k : Nat) (rnd : List Byte) : Option RsaKey :=
  match findPrimes (4 * k) rnd (120 * k) 0 none with
  | some (p, q) => if 2 ^ (4 * k) < rsaD (rsaFrom k p q) then some (rsaFrom k p q) else none
  | none => none

/-- Record material of every key but an RSA private one, from drawn bytes, by code. -/
def genBytes (alg : Nat) (rnd : List Byte) : List Byte :=
  if alg = 0x18 then be 32 (ecScalar p256 rnd)
  else if alg = 0x19 then let d := ecScalar p384 rnd; be 48 d ++ ecPub p384 d
  else if alg = 0x20 ∨ alg = 0x21 then (kemGen (kemK alg) (rnd.take 32) (rnd.drop 32)).2
  else if alg = 0x24 ∨ alg = 0x25 then (dsaGen (dsaSet alg) rnd).2
  else rnd

/-- Record material from drawn bytes, by code; none where a generation finds no key (FIPS 186-5's failure). -/
def genMaterial (alg : Nat) (rnd : List Byte) : Option (List Byte) :=
  if 0x10 ≤ alg ∧ alg ≤ 0x12 then (rsaGen (rsaLen alg) rnd).map rsaBytes else some (genBytes alg rnd)

/-! ### DER of asymmetric keys in key blocks: PKCS #1, RFC 5915, SubjectPublicKeyInfo (PRESUMED, log 36) -/

/-- Length octets. -/
def derLen (n : Nat) : List Byte :=
  if n < 128 then [BitVec.ofNat 8 n] else if n < 256 then [0x81, BitVec.ofNat 8 n] else [0x82] ++ be 2 n

/-- One element. -/
def der (tag : Byte) (c : List Byte) : List Byte := tag :: (derLen c.length ++ c)

/-- An INTEGER of a number that takes at most `len` bytes. -/
def derInt (len n : Nat) : List Byte :=
  let b := (be len n).dropWhile (· == 0)
  der 0x02 (match b with
    | [] => [0]
    | x :: _ => if x.getLsbD 7 then 0 :: b else b)

/-- Read one element: tag, content, rest. -/
def derRead : List Byte → Option (Byte × (List Byte × List Byte))
  | t :: l :: rest =>
    let n := l.toNat
    let (len, body) := if n < 128 then (n, rest)
      else if n = 0x81 then (beNat (rest.take 1), rest.drop 1)
      else if n = 0x82 then (beNat (rest.take 2), rest.drop 2)
      else (rest.length + 1, rest)
    if len ≤ body.length then some (t, body.take len, body.drop len) else none
  | _ => none

/-- Read `n` INTEGERs. -/
def derInts : Nat → List Byte → Option (List Nat)
  | 0, _ => some []
  | n + 1, b => match derRead b with
    | some (0x02, c, rest) => (derInts n rest).map fun xs => beNat c :: xs
    | _ => none

/-- Content of a SEQUENCE that is the whole of the bytes. -/
def derSeq (b : List Byte) : Option (List Byte) :=
  match derRead b with
  | some (0x30, c, []) => some c
  | _ => none

/-- Object identifiers of P-256 and P-384. -/
def curveOid (alg : Nat) : List Byte :=
  if alg = 0x18 ∨ alg = 0x1A then der 0x06 [0x2A, 0x86, 0x48, 0xCE, 0x3D, 0x03, 0x01, 0x07]
  else der 0x06 [0x2B, 0x81, 0x04, 0x00, 0x22]
/-- id-ecPublicKey. -/
def ecOid : List Byte := der 0x06 [0x2A, 0x86, 0x48, 0xCE, 0x3D, 0x02, 0x01]

/-- Key data of an asymmetric record in a key block. -/
def derOfKey (alg : Nat) (m : List Byte) : List Byte :=
  if 0x10 ≤ alg ∧ alg ≤ 0x12 then
    let r := rsaOf (rsaLen alg) m
    let h := r.k / 2
    der 0x30 (derInt 1 0 ++ derInt r.k r.n ++ derInt 4 r.e ++ derInt r.k (rsaD r) ++ derInt h r.p ++ derInt h r.q
      ++ derInt h r.dp ++ derInt h r.dq ++ derInt h r.qinv)
  else if 0x14 ≤ alg ∧ alg ≤ 0x16 then
    let k := rsaLen alg
    der 0x30 (derInt k (beNat (bytesAt m 0 k)) ++ derInt 4 (beNat (bytesAt m k 4)))
  else if alg = 0x18 ∨ alg = 0x19 then
    let n := if alg = 0x18 then 32 else 48
    der 0x30 (derInt 1 1 ++ der 0x04 (m.take n) ++ der 0xA0 (curveOid alg)
      ++ der 0xA1 (der 0x03 ([0, 4] ++ pubKeyOf alg m)))
  else der 0x30 (der 0x30 (ecOid ++ curveOid alg) ++ der 0x03 ([0, 4] ++ m))

/-- An RSA key in key data: private or public, of a supported size. -/
def rsaOfDer (c : List Byte) : Option (Nat × List Byte) :=
  let code := fun (n : Nat) => if Nat.log2 n = 2047 then some 0 else if Nat.log2 n = 3071 then some 1
    else if Nat.log2 n = 4095 then some 2 else none
  match derInts 9 c with
  | some [0, n, e, _, p, q, dp, dq, qi] =>
    (code n).map fun i => (0x10 + i, rsaBytes ⟨rsaLen (0x10 + i), n, e, p, q, dp, dq, qi⟩)
  | _ => match derInts 2 c with
    | some [n, e] => (code n).map fun i => (0x14 + i, be (rsaLen (0x14 + i)) n ++ be 4 e)
    | _ => none

/-- An ECC key in key data: private or public. -/
def ecOfDer (c : List Byte) : Option (Nat × List Byte) :=
  match derRead c with
  | some (0x02, [1], rest) => match derRead rest with
    | some (0x04, d, rest) =>
      if d.length = 32 ∧ (derRead rest).map (fun x => x.2.1) = some (curveOid 0x18) then some (0x18, d)
      else if d.length = 48 ∧ (derRead rest).map (fun x => x.2.1) = some (curveOid 0x19) then some (0x19, d ++ ecPub p384 (beNat d))
      else none
    | _ => none
  | some (0x30, a, rest) => match derRead rest with
    | some (0x03, 0 :: 4 :: xy, []) =>
      if a = ecOid ++ curveOid 0x1A ∧ (ecPoint p256 xy).isSome then some (0x1A, xy)
      else if a = ecOid ++ curveOid 0x1B ∧ (ecPoint p384 xy).isSome then some (0x1B, xy)
      else none
    | _ => none
  | _ => none

end Sys2Proof.Machine
end

