-- ==== Sys2Proof/Machine/KeyBlock.lean ====
section
/-! DEFINITION. ANSI X9.143 key blocks of versions B and D (R263, R264, Tables 7-11 and 7-12).
PRESUMED (log 36): what the spec does not give of the block's layout is the standard's. -/
namespace Sys2Proof.Machine

/-! ### Characters -/

/-- A hexadecimal digit. -/
def hexChar (n : Nat) : Byte := BitVec.ofNat 8 (if n < 10 then 0x30 + n else 0x37 + n)
/-- Bytes as hexadecimal characters. -/
def hexOf (bs : List Byte) : List Byte := (bs.map fun b => [hexChar (b.toNat / 16), hexChar (b.toNat % 16)]).flatten
/-- Value of a hexadecimal character. -/
def hexVal (c : Byte) : Option Nat :=
  let n := c.toNat
  if 0x30 ≤ n ∧ n ≤ 0x39 then some (n - 0x30) else if 0x41 ≤ n ∧ n ≤ 0x46 then some (n - 0x37) else none
/-- Bytes from hexadecimal characters. -/
def unhex : List Byte → Option (List Byte)
  | [] => some []
  | [_] => none
  | a :: b :: rest => match hexVal a, hexVal b, unhex rest with
    | some x, some y, some r => some (BitVec.ofNat 8 (16 * x + y) :: r)
    | _, _, _ => none
/-- A number in hexadecimal characters. -/
def hexNat (cs : List Byte) : Option Nat :=
  cs.foldl (fun n c => match n, hexVal c with
    | some v, some d => some (16 * v + d)
    | _, _ => none) (some 0)
/-- A number in decimal characters. -/
def decNat (cs : List Byte) : Option Nat :=
  cs.foldl (fun n c => match n, hexVal c with
    | some v, some d => if d < 10 then some (10 * v + d) else none
    | _, _ => none) (some 0)
/-- `n` decimal characters of a number. -/
def decChars : Nat → Nat → List Byte
  | 0, _ => []
  | n + 1, v => decChars n (v / 10) ++ [BitVec.ofNat 8 (0x30 + v % 10)]

/-- A two-character code. -/
def code2 (a b : Char) : List Byte := [BitVec.ofNat 8 a.toNat, BitVec.ofNat 8 b.toNat]
/-- A one-character code. -/
def code1 (a : Char) : Byte := BitVec.ofNat 8 a.toNat

/-! ### Usage and mode of use (Table 7-12) -/

/-- Bits of a list of usage bit numbers. -/
def usageBits (ns : List Nat) : BitVec 32 := ns.foldl (fun u n => u ||| (1 <<< n)) 0

/-- Key usage codes and the mapped `USAGE`; `S0` is mapped by `usageOf`. -/
def usageMap : List (List Byte × BitVec 32) :=
  [(code2 'B' '0', usageBits [13, 6]), (code2 'D' '0', usageBits [0, 1]), (code2 'E' '0', usageBits [11, 6]),
   (code2 'E' '1', usageBits [12, 6]), (code2 'E' '2', usageBits [12, 6]), (code2 'K' '0', usageBits [4, 5]),
   (code2 'K' '1', usageBits [4, 5]), (code2 'M' '1', usageBits [2, 3]), (code2 'M' '3', usageBits [2, 3])]
  ++ [(code2 'M' '6', usageBits [2, 3]), (code2 'M' '7', usageBits [2, 3]), (code2 'P' '0', usageBits [8]),
   (code2 'V' '0', usageBits [9]), (code2 'V' '1', usageBits [9]), (code2 'V' '2', usageBits [9]),
   (code2 'C' '0', usageBits [10])]

/-- The mapped `USAGE` of a key usage code. -/
def usageOf (u : List Byte) (pub : Bool) : Option (BitVec 32) :=
  if u = code2 'S' '0' then some (if pub then usageBits [17] else usageBits [16])
  else (usageMap.find? fun x => x.1 == u).map (·.2)

/-- What a mode of use leaves of the mapped usage; none for an unsupported mode. -/
def modeKeeps (m : Byte) : Option (BitVec 32) :=
  if m = code1 'E' then some (~~~ usageBits [1, 5])
  else if m = code1 'D' then some (~~~ usageBits [0, 4])
  else if m = code1 'G' then some (~~~ usageBits [3])
  else if m = code1 'V' then some (~~~ usageBits [2, 16])
  else if m = code1 'S' then some (~~~ usageBits [17])
  else if m = code1 'B' ∨ m = code1 'C' ∨ m = code1 'N' ∨ m = code1 'X' then some (~~~ 0)
  else none

/-- Key usage and mode of use that an export writes: the first row of Table 7-12 all of whose
usage the record has, else the first it has a part of, M7 for
an HMAC key, S0 for an asymmetric key (DESIGN CHOICE, log 37). -/
def exportUsage (alg : Nat) (u : BitVec 32) : List Byte × Byte :=
  let has := fun (n : Nat) => u.getLsbD n
  if isPrivate alg then (code2 'S' '0', code1 'S')
  else if isPublic alg then (code2 'S' '0', code1 'V')
  else
    let row := if alg = 8 then some (code2 'M' '7', usageBits [2, 3]) else usageMap.find? fun (x : List Byte × BitVec 32) => x.2 &&& u == x.2
    let row := match row with
      | some r => r
      | none => (usageMap.find? fun (x : List Byte × BitVec 32) => x.2 &&& u != 0).getD (code2 'D' '0', usageBits [0, 1])
    let m := row.2
    let mode := if m = usageBits [0, 1] then (if has 0 && has 1 then 'B' else if has 0 then 'E' else if has 1 then 'D' else 'N')
      else if m = usageBits [4, 5] then (if has 4 && has 5 then 'B' else if has 4 then 'E' else if has 5 then 'D' else 'N')
      else if m = usageBits [2, 3] then (if has 2 && has 3 then 'C' else if has 2 then 'G' else if has 3 then 'V' else 'N')
      else if m.getLsbD 6 then 'X' else 'N'
    (row.1, code1 mode)

/-! ### Binding keys and protection -/

/-- The binding key derivation: usage 0 encryption, 1 MAC. -/
def kbpkDerive (alg : Nat) (key : List Byte) (usage : Nat) : List Byte :=
  let n := algLen alg
  let blk := fun (i : Nat) => cmac alg key ([BitVec.ofNat 8 i] ++ be 2 usage ++ [0] ++ be 2 (alg - 1) ++ be 2 (8 * n))
  (((List.range ((n + blockLen alg - 1) / blockLen alg)).map fun i => blk (i + 1)).flatten).take n

/-- Protect key data: encrypted key data, then the MAC, in characters. -/
def kbProtect (alg : Nat) (key header data : List Byte) : List Byte :=
  let mac := cmac alg (kbpkDerive alg key 1) (header ++ data)
  hexOf (cbcEnc alg (kbpkDerive alg key 0) mac data) ++ hexOf mac

/-- Open protected key data; none when the MAC is wrong. -/
def kbOpen (alg : Nat) (key header enc mac : List Byte) : Option (List Byte) :=
  let data := cbcDec alg (kbpkDerive alg key 0) mac enc
  if cmac alg (kbpkDerive alg key 1) (header ++ data) = mac then some data else none

/-- The version character of a protection key. -/
def kbVersion (alg : Nat) : Byte := if isTdea alg then code1 'B' else code1 'D'

/-! ### Reading a block -/

/-- A block's header and parts. -/
structure KeyBlk where
  version : Byte
  usage : List Byte
  alg : Byte
  mode : Byte
  exportable : Byte
  /-- Optional blocks: identifier and data. -/
  opts : List (List Byte × List Byte)
  /-- Header and optional blocks, as the MAC covers them. -/
  header : List Byte
  enc : List Byte
  mac : List Byte
  deriving DecidableEq, Repr

/-- Optional blocks: `n` of them; what follows. -/
def readOpts : Nat → List Byte → Option (List (List Byte × List Byte) × List Byte)
  | 0, cs => some ([], cs)
  | n + 1, cs =>
    let id := cs.take 2
    match hexNat (bytesAt cs 2 2) with
    | none => none
    | some l =>
      let lenAt := if l = 0 then (match hexNat (bytesAt cs 6 4) with
          | some x => (x, 10)
          | none => (0, 10)) else (l, 4)
      if lenAt.1 < lenAt.2 ∨ cs.length < lenAt.1 then none
      else (readOpts n (cs.drop lenAt.1)).map fun r => ((id, (cs.take lenAt.1).drop lenAt.2) :: r.1, r.2)

/-- Optional blocks that Table 7-11 supports. -/
def optKnown (id : List Byte) : Bool :=
  [code2 'K' 'S', code2 'I' 'K', code2 'K' 'C', code2 'K' 'P', code2 'T' 'S', code2 'P' 'B', code2 'H' 'M', code2 '9' 'E'].contains id

/-- Read a block; none where it uses an option Table 7-11 does not give. -/
def readBlock (src : List Byte) : Option KeyBlk :=
  let v := byteAt src 0
  let macLen := if v = code1 'B' then 16 else 32
  let alg := byteAt src 7
  if !(v == code1 'B' || v == code1 'D') || decide (src.length < 16 ∨ 9992 < src.length)
      || decNat (bytesAt src 1 4) != some src.length || bytesAt src 14 2 != code2 '0' '0'
      || !([code1 'T', code1 'A', code1 'H', code1 'R', code1 'E'].contains alg)
      || ((alg == code1 'R' || alg == code1 'E') && v == code1 'B')
      || !([code1 'E', code1 'N', code1 'S'].contains (byteAt src 11))
      || (usageOf (bytesAt src 5 2) false).isNone || (modeKeeps (byteAt src 8)).isNone then none
  else match decNat (bytesAt src 12 2) with
    | none => none
    | some n => match readOpts n (src.drop 16) with
      | none => none
      | some (opts, rest) =>
        let bs := if v = code1 'B' then 8 else 16
        match unhex (rest.take (rest.length - macLen)), unhex (rest.drop (rest.length - macLen)) with
        | some enc, some mac =>
          if opts.all (fun o => optKnown o.1) && decide (enc ≠ [] ∧ enc.length % bs = 0 ∧ mac.length = bs) then
            some ⟨v, bytesAt src 5 2, alg, byteAt src 8, byteAt src 11, opts, src.take (src.length - rest.length), enc, mac⟩
          else none
        | _, _ => none

/-- Key data of an opened block: the bytes its length prefix gives. -/
def keyData (d : List Byte) : Option (List Byte) :=
  let bits := beNat (d.take 2)
  if bits % 8 = 0 ∧ bits / 8 + 2 ≤ d.length then some ((d.drop 2).take (bits / 8)) else none

/-- `ALG` and material from an algorithm byte and key data; none for a length or key the table does not give. -/
def keyOfData (alg : Byte) (k : List Byte) : Option (Nat × List Byte) :=
  let n := k.length
  if alg = code1 'T' then (if n = 16 then some (1, k) else if n = 24 then some (2, k) else none)
  else if alg = code1 'A' then (if n = 16 then some (3, k) else if n = 24 then some (4, k) else if n = 32 then some (5, k) else none)
  else if alg = code1 'H' then (if 16 ≤ n ∧ n ≤ 64 then some (8, k) else none)
  else match derSeq k with
    | none => none
    | some c => if alg = code1 'R' then rsaOfDer c else ecOfDer c

/-- The E9 block "9E" (R264). -/
structure E9Block where
  colour : Nat
  derive : Nat
  wraps : BitVec 16
  usage : BitVec 32
  pool : Nat
  deriving DecidableEq, Repr

/-- Read a "9E" block. -/
def readE9 (d : List Byte) : Option E9Block :=
  match hexNat (bytesAt d 0 1), hexNat (bytesAt d 1 1), hexNat (bytesAt d 2 4), hexNat (bytesAt d 6 8), hexNat (bytesAt d 14 8) with
  | some c, some dc, some w, some u, some p =>
    if d.length = 24 ∧ bytesAt d 22 2 = code2 '0' '0' ∧ c ≠ 0 ∧ dc ≠ 0 ∧ w % 2 = 0 then
      some ⟨c, dc, BitVec.ofNat 16 w, BitVec.ofNat 32 u, p⟩
    else none
  | _, _, _, _, _ => none

/-- The 24 characters of a "9E" block. -/
def writeE9 (e : E9Block) : List Byte :=
  [hexChar e.colour, hexChar e.derive] ++ hexOf (be 2 e.wraps.toNat) ++ hexOf (be 4 e.usage.toNat) ++ hexOf (be 4 e.pool)
    ++ code2 '0' '0'

/-! ### Writing a block -/

/-- An optional block. -/
def optBlock (id data : List Byte) : List Byte := id ++ hexOf [BitVec.ofNat 8 (4 + data.length)] ++ data

/-- Year, and days left, from days since 1970; `fuel` years (log 36). -/
def yearOf : Nat → Nat → Nat → Nat × Nat
  | 0, y, d => (y, d)
  | n + 1, y, d =>
    let len := if y % 4 = 0 ∧ (y % 100 ≠ 0 ∨ y % 400 = 0) then 366 else 365
    if d < len then (y, d) else yearOf n (y + 1) (d - len)

/-- Month from 1 and day of month from 1. -/
def monthOf : List Nat → Nat → Nat → Nat × Nat
  | [], m, d => (m, d + 1)
  | l :: ls, m, d => if d < l then (m, d + 1) else monthOf ls (m + 1) (d - l)

/-- The time stamp of RTC seconds, taken as seconds since 1970 (PRESUMED, log 36). -/
def timeStamp (sec : Nat) : List Byte :=
  let yd := yearOf (sec / 31536000 + 1) 1970 (sec / 86400)
  let leap := yd.1 % 4 = 0 ∧ (yd.1 % 100 ≠ 0 ∨ yd.1 % 400 = 0)
  let md := monthOf [31, if leap then 29 else 28, 31, 30, 31, 30, 31, 31, 30, 31, 30, 31] 1 yd.2
  decChars 4 yd.1 ++ decChars 2 md.1 ++ decChars 2 md.2 ++ decChars 2 (sec / 3600 % 24) ++ decChars 2 (sec / 60 % 60)
    ++ decChars 2 (sec % 60) ++ [code1 'Z']

/-- The algorithm byte of an `ALG`. -/
def kbAlg (alg : Nat) : Byte :=
  if isTdea alg then code1 'T' else if isAes alg then code1 'A' else if alg = 8 then code1 'H'
  else if 0x10 ≤ alg ∧ alg ≤ 0x16 then code1 'R' else code1 'E'

/-- Characters of the padding block that brings optional blocks to a multiple of `bs`. -/
def padBlockLen (bs n : Nat) : Nat := if n % bs = 0 then 0 else 4 + (bs - (n + 4) % bs) % bs

/-- Random bytes a block takes: padding of the key data, and one for each padding character. -/
def kbRandom (pAlg : Nat) (opts data : Nat) : Nat :=
  let bs := blockLen pAlg
  (bs - (data + 2) % bs) % bs + (padBlockLen bs opts - 4)

/-- Optional blocks of an export: KC, TS, and the E9 block. -/
def exportOpts (alg : Nat) (kcv : List Byte) (sec : Nat) (e9 : Option E9Block) : List (List Byte × List Byte) :=
  [(code2 'K' 'C', hexOf [if isTdea alg then 0 else 1] ++ hexOf kcv), (code2 'T' 'S', timeStamp sec)]
    ++ (match e9 with
        | some e => [(code2 '9' 'E', writeE9 e)]
        | none => [])

/-- The key block of `data` under a protection key, with random bytes for its padding. -/
def writeBlock (pAlg : Nat) (pKey : List Byte) (usage : List Byte) (mode : Byte) (alg : Nat) (exportable : Bool)
    (opts : List (List Byte × List Byte)) (data rnd : List Byte) : List Byte :=
  let bs := blockLen pAlg
  let os := (opts.map fun o => optBlock o.1 o.2).flatten
  let pl := padBlockLen bs os.length
  let padN := (bs - (data.length + 2) % bs) % bs
  let pb := if pl = 0 then [] else optBlock (code2 'P' 'B') ((bytesAt rnd padN (pl - 4)).map fun b => hexChar (b.toNat % 16))
  let cnt := opts.length + (if pl = 0 then 0 else 1)
  let body := be 2 (8 * data.length) ++ data ++ bytesAt rnd 0 padN
  let total := 16 + os.length + pb.length + 2 * body.length + 2 * bs
  let header := [kbVersion pAlg] ++ decChars 4 total ++ usage ++ [kbAlg alg, mode] ++ code2 '0' '0'
    ++ [if exportable then code1 'E' else code1 'N'] ++ decChars 2 cnt ++ code2 '0' '0' ++ os ++ pb
  header ++ kbProtect pAlg pKey header body

end Sys2Proof.Machine
end

