-- ==== Sys2Proof/Machine/Mesh.lean ====
section
/-! DEFINITION. The Weper mesh as the ledger uses it (chapter 12): frames, routes, broadcasts. -/
namespace Sys2Proof.Machine

/-- A bit of `CISTERN_ERR`, with the port where known (Table 12-13). -/
def cisternErr (n port : Nat) (s : State) : State := raiseErr 0x9010 0x9014 0x9008 n (wfield port 8 ||| wfield n 0) s

/-- One mesh port. -/
def meshGet (n : Nat) (s : State) : Option MeshPort := s.cistern.ports[n]?

/-- Update a mesh port. -/
def meshMod (n : Nat) (f : MeshPort → MeshPort) (s : State) : State :=
  s.modCistern fun c => { c with ports := c.ports.mapIdx fun i p => if i = n then f p else p }

/-! ### Frames (R399 to R401) -/

/-- The 32 bytes of a frame's header (Table 12-2). -/
def FrameHdr.bytes (h : FrameHdr) : List Byte :=
  le 1 h.ftype ++ le 1 (bit h.nak) ++ le 2 h.hops ++ le 2 h.dst ++ le 2 h.src ++ le 8 h.fseq ++ le 8 h.ack ++ le 2 h.crd ++ le 2 h.len
    ++ le 4 h.epoch

/-- The header of a frame's bytes (Table 12-2). -/
def frameHdr (b : List Byte) : FrameHdr :=
  ⟨natAt b 0 1, natAt b 1 1 % 2 == 1, natAt b 2 2, natAt b 4 2, natAt b 6 2, natAt b 8 8, natAt b 16 8, natAt b 24 2, natAt b 26 2, natAt b 28 4⟩

/-- `FTYPE` of a message (Table 12-2). -/
def Msg.ftype : Msg → Nat
  | .idle => 0
  | .sessionInit _ | .sessionResponse _ | .sessionConfirm => 1
  | .bcast _ _ _ => 3
  | .adj _ => 4
  | _ => 2

/-- Payload bytes of a message in its frame: none of an IDLE frame; the layout of the others is open, and one message is one frame
(log 130). -/
def Msg.payload (m : Msg) (key : Nat) : List Byte := if m = .idle then [] else (List.range 464).map (Config.weperByte key)

/-- The IV of a frame: `EPOCH` and `FSEQ`, both big-endian (R399). -/
def frameIv (epoch fseq : Nat) : List Byte := be 4 epoch ++ be 8 fseq

/-- A frame's 512 bytes: header in clear, payload encrypted, tag over both under AES-256-GCM (R399). -/
def sealFrame (key : List Byte) (h : FrameHdr) (payload : List Byte) : List Byte :=
  let ct := gcmCrypt key (frameIv h.epoch h.fseq) (bytesAt payload 0 464)
  h.bytes ++ ct ++ gcmTag key (frameIv h.epoch h.fseq) h.bytes ct

/-- The tag of a frame received verifies under the session key of its direction (R399). -/
def tagVerifies (key b : List Byte) : Bool :=
  gcmTag key (frameIv (natAt b 28 4) (natAt b 8 8)) (bytesAt b 0 32) (bytesAt b 32 464) == bytesAt b 496 16

/-- `ACK` with no frame received yet (DESIGN CHOICE, log 130). -/
def noAck : Nat := 2 ^ 64 - 1

/-- The header with which a port sends a frame numbered `seq` (Table 12-2). -/
def txHdr (p : MeshPort) (seq : Nat) (f : Frame) : FrameHdr :=
  ⟨f.msg.ftype, p.nakDue, f.hops, f.dst, f.src, seq, if p.rxSeq = 0 then noAck else p.rxSeq - 1, p.crdOut, if f.msg = .idle then 0 else 464, p.epoch⟩

/-- A port sends one numbered frame: its bytes leave (R399). -/
def putWire (seq : Nat) (f : Frame) (p : MeshPort) : MeshPort :=
  { p with wire := sealFrame p.txKey (txHdr p seq f) (f.msg.payload (2 ^ 32 * p.epoch + seq)), nakDue := false }

/-- Frames leave while credits last (R401). -/
def txPumpFuel (n : Nat) : Nat → State → State
  | 0, s => s
  | fuel + 1, s => match meshGet n s with
    | none => s
    | some p => match p.txWait with
      | [] => s
      | f :: rest =>
        if p.credits = 0 then s
        else txPumpFuel n fuel (bump64 0x9100 1 (meshMod n (fun p => { putWire p.txSeq f p with
          unacked := p.unacked ++ [(p.txSeq, f)], txSeq := p.txSeq + 1, credits := p.credits - 1, txWait := rest }) s))

/-- Note a retrain of a port and start it; its session and frame counters stay (R400, R404). -/
def retrain (n : Nat) (s : State) : State :=
  meshMod n (fun p => { p with training := true, resends := 0, retrains := p.retrains ++ [s.backup.rtcSec] }) s

/-- Every unacknowledged frame is sent again, in order; after eight resends of the oldest the port retrains (R400). -/
def resendFrames (n : Nat) (s : State) : State :=
  match meshGet n s with
  | none => s
  | some p => match p.unacked.getLast? with
    | none => s
    | some u =>
      if 8 ≤ p.resends then retrain n s
      else bump 0x9110 p.unacked.length (meshMod n (fun p => { putWire u.1 u.2 p with resends := p.resends + 1 }) s)

/-- Send one frame on a port: at once, or when credits return. -/
def portSend (n : Nat) (f : Frame) (s : State) : State :=
  let s := meshMod n (fun p => { p with txWait := p.txWait ++ [f] }) s
  match meshGet n s with
  | none => s
  | some p => txPumpFuel n (p.txWait.length) s

/-- A frame for the neighbour alone. -/
def neighbourFrame (m : Msg) (p : MeshPort) (s : State) : Frame := ⟨1, 0x8000 + p.neighbour, ownDdn s, m⟩

/-- Send a message to the neighbour of a port. -/
def neighbourSend (n : Nat) (m : Msg) (s : State) : State :=
  match meshGet n s with
  | none => s
  | some p => portSend n (neighbourFrame m p s) s

/-- Ports with an open session. -/
def sessionPorts (s : State) : List Nat :=
  (List.range 4).filter fun n => match meshGet n s with
    | some p => p.session
    | none => false

/-- Send a message over every session but that of port `but` (R428). -/
def flood (but : Option Nat) (m : Msg) (s : State) : State :=
  ((sessionPorts s).filter fun n => some n != but).foldl (fun s n => neighbourSend n m s) s

/-- A member by its number. -/
def memberGet (d : Nat) (s : State) : Option Member := s.cistern.members.find? fun m => m.ddn == d

/-- Update a member. -/
def memberMod (d : Nat) (f : Member → Member) (s : State) : State :=
  s.modCistern fun c => { c with members := updFirst (fun m => m.ddn == d) f c.members }

/-- Send a frame on with what is left of its `HOPS`, on the path to its destination (R408). -/
def forward (f : Frame) (s : State) : State :=
  match memberGet (f.dst % 2 ^ 14) s with
  | some d => if d.reachable then portSend d.firstHop f s else s
  | none => s

/-- Insert a member by number. -/
def insertMember (m : Member) : List Member → List Member
  | [] => [m]
  | x :: xs => if m.ddn < x.ddn then m :: x :: xs else if m.ddn = x.ddn then m :: xs else x :: insertMember m xs

/-- A member becomes known, or its incarnation (R403, R428). -/
def learnMember (d inc : Nat) (s : State) : State :=
  if d = ownDdn s then s
  else match memberGet d s with
    | some m => if m.incarnation < inc then memberMod d (fun m => { m with incarnation := inc }) s else s
    | none => s.modCistern fun c => { c with members := insertMember ⟨d, inc, [], 0, [], false, s.backup.rtcSec, 0, 0, d, false, 0⟩ c.members }

/-- A member is reachable. -/
def reaches (d : Nat) (s : State) : Bool := match memberGet d s with
  | some m => m.reachable
  | none => false

/-- Send a message to a member on its current path; without a path it is lost (R407, R408). -/
def routeSend (d : Nat) (m : Msg) (s : State) : State :=
  match memberGet d s with
  | none => s
  | some x => if x.reachable then portSend x.firstHop ⟨x.hops + 4, d, ownDdn s, m⟩ s else s

/-! ### Routes (R407) -/

/-- A path: cost, hops, first port, first neighbour. -/
structure Path where
  ddn : Nat
  cost : Nat
  hops : Nat
  port : Nat
  nb : Nat
  deriving DecidableEq, Repr

/-- A path is better: cheaper, or equal with the lower first neighbour, or shorter. -/
def Path.better (a b : Path) : Bool :=
  decide (a.cost < b.cost ∨ (a.cost = b.cost ∧ (a.nb < b.nb ∨ (a.nb = b.nb ∧ a.hops < b.hops))))

/-- Offer a path to a table. -/
def offerPath (p : Path) : List Path → List Path
  | [] => [p]
  | q :: qs => if q.ddn = p.ddn then (if p.better q then p :: qs else q :: qs) else q :: offerPath p qs

/-- One pass over every path found so far and every member's adjacency. -/
def relaxPaths (own : Nat) (ms : List Member) (t : List Path) : List Path :=
  t.foldl (fun acc p => match ms.find? (fun m => m.ddn == p.ddn) with
    | none => acc
    | some m => (m.adj.filter fun l => l.1 != own).foldl (fun acc l =>
        offerPath ⟨l.1, p.cost + l.2, p.hops + 1, p.port, p.nb⟩ acc) acc) t

/-- Repeat a pass. -/
def relaxFuel (own : Nat) (ms : List Member) : Nat → List Path → List Path
  | 0, t => t
  | n + 1, t => relaxFuel own ms n (relaxPaths own ms t)

/-- The best path to every member. -/
def paths (s : State) : List Path :=
  let start := (sessionPorts s).foldl (fun acc n => match meshGet n s with
    | some p => offerPath ⟨p.neighbour, p.cost, 1, n, p.neighbour⟩ acc
    | none => acc) []
  relaxFuel (ownDdn s) s.cistern.members s.cistern.members.length start

/-- A domain record change is acknowledged by every reachable member (R431). -/
def syncDone (s : State) : State :=
  let live := s.cistern.syncing.map fun x => (x.1, x.2.filter fun d => reaches d s)
  let done := live.filter fun x => x.2.isEmpty
  let s := s.modCistern fun c => { c with syncing := live.filter fun x => !x.2.isEmpty }
  done.foldl (fun s x => postEvt .both 0x9007 (BitVec.ofNat 32 x.1) 0 s) s

/-- Send a statement to the keeper in force; while a change of keeper runs, it is held (R416). -/
def sendStmt (st : Stmt) (s : State) : State :=
  match s.cistern.newKeeper, s.cistern.keeper with
  | none, some k => routeSend k (.statement st) s
  | _, _ => s

/-- Send every unacknowledged statement again. -/
def resendStmts (s : State) : State := s.cistern.stmts.foldl (fun s p => sendStmt p.st s) s

/-- Commands that wait for a device that cannot be reached any more end with `LINK_DOWN` (R416, R423). -/
def endUnreachable (s : State) : State :=
  let down := fun (id : Nat) (s : State) => match cmdGet id s with
    | some c => finishSt c .linkDown s
    | none => s
  let s := match s.cistern.newKeeper with
    | some (id, k, _) => if k ≠ ownDdn s && !reaches k s then down id (s.modCistern fun c => { c with newKeeper := none }) else s
    | none => s
  let lost := s.cistern.settling.filter fun x => match x.cmd, memberGet x.ddn s with
    | some _, some m => m.keeper != ownDdn s && !reaches m.keeper s
    | _, _ => false
  let s := s.modCistern fun c => { c with settling := c.settling.filter fun x => !lost.contains x }
  lost.foldl (fun s x => match x.cmd with
    | some id => down id s
    | none => s) s

/-- Recompute the paths (R407): events for members that come or go, `KEEPER_LOST`, changes that no longer wait; a keeper that is
back gets the unacknowledged statements again. -/
def reroute (s : State) : State :=
  let ps := paths s
  let up := keeperUp s
  let s := s.cistern.members.foldl (fun s m =>
    match ps.find? (fun p => p.ddn == m.ddn) with
    | some p =>
      let s := memberMod m.ddn (fun m => { m with reachable := true, hops := p.hops, firstHop := p.port }) s
      if m.reachable then s else postEvt .both 0x9001 (wbit true 16 ||| wfield m.ddn 0) 0 s
    | none =>
      if m.reachable then
        postEvt .both 0x9001 (wfield m.ddn 0) 0
          (memberMod m.ddn (fun m => { m with reachable := false, hops := 0, lastSeen := s.backup.rtcSec }) s)
      else s) s
  let s := if up && !keeperUp s then cisternErr 3 0 s else s
  let s := if !up && keeperUp s then resendStmts s else s
  endUnreachable (syncDone s)

/-- This device's adjacency record. -/
def ownAdj (s : State) : AdjRec :=
  ⟨ownDdn s, (match s.cistern.cert with
    | some c => c.2.1
    | none => 0), s.cistern.adjSeq,
   (sessionPorts s).map fun n => match meshGet n s with
     | some p => (p.neighbour, p.cost)
     | none => (0, 0)⟩

/-- A session has opened or closed, or a cost has changed: flood a new adjacency record and recompute (R407). -/
def adjChanged (s : State) : State :=
  let s := s.modCistern fun c => { c with adjSeq := c.adjSeq + 1 }
  reroute (flood none (.adj (ownAdj s)) s)

/-- Close a port's session. -/
def closeSession (n : Nat) (s : State) : State :=
  match meshGet n s with
  | none => s
  | some p =>
    let s := meshMod n (fun p => { p with session := false, hs := .none, neighbour := 0, peerCert := none, txKey := [], rxKey := [] }) s
    if p.session then adjChanged s else s

/-- A mesh port goes down: its waiting frames for other members are sent on their new paths (R408). -/
def meshDown (n : Nat) (s : State) : State :=
  match meshGet n s with
  | none => s
  | some p =>
    let s := meshMod n (fun p => { p with up := false, trained := false, training := false, txWait := [], unacked := [], resends := 0 }) s
    let s := if p.up then cisternErr 1 n s else s
    let s := closeSession n s
    ((p.unacked.map (·.2)) ++ p.txWait).foldl (fun s f =>
      if 0x8000 ≤ f.dst then s else if f.src = ownDdn s then routeSend f.dst f.msg s else forward f s) s

/-! ### Broadcasts (R428, R431) -/

/-- Originate a broadcast. -/
def broadcast (b : Bcast) (s : State) : State :=
  let q := s.cistern.bcast + 1
  let s := s.modCistern fun c => { c with bcast := q, blog := c.blog ++ [(ownDdn s, q, b)] }
  flood none (.bcast (ownDdn s) q b) s

/-- Originate a domain record change: when every reachable member has acknowledged it, `CISTERN_DOMAIN_SYNCED` (R431). -/
def domainChange (i : Nat) (s : State) : State :=
  let k := slotGet i s
  let s := broadcast (.key i k.gen (if k.state = .live then k.entry else none)) s
  let ds := (s.cistern.members.filter (·.reachable)).map (·.ddn)
  syncDone (s.modCistern fun c => { c with syncing := c.syncing ++ [(c.bcast, ds)] })

end Sys2Proof.Machine
end

