-- ==== Sys2Proof/Machine/KeyCmds.lean ====
section
/-! DEFINITION. Key-management commands and the key store's own events (chapter 07). -/
namespace Sys2Proof.Machine

/-! ### Creating records -/

/-- A slot asked for: domain range, owner, granules. -/
structure SlotReq where
  dom : Bool
  owner : Nat
  count : Nat
  deriving DecidableEq, Repr

/-- `COLOUR_SET` and `KEY_QUOTA` of a furrow's policy that hold for a command (R200): those replaced by the first
`FURROW_SET_POLICY` after its dispatch, else the present ones; none for a FREE furrow. -/
def policyFor (c : Cmd) (f : Nat) (s : State) : BitVec 16 × Nat :=
  match furrowGet f s with
  | none => (0, 0)
  | some x => match (x.olds.filter fun p => decide (c.dispTally ≤ p.1)).getLast? with
    | some p => p.2
    | none => (x.colourSet, x.keyQuota)

/-- `KEY_QUOTA` that holds for records of furrow `f` a command creates (R199, R200). -/
def quotaFor (c : Cmd) (f : Nat) (s : State) : Nat := if f = c.furrow then c.keyQuota else (policyFor c f s).2

/-- Allocate the slots still wanted, in order; a failure gives every one back with the completion (R249, R250). -/
def allocMore (c : Cmd) : List SlotReq → State → (Cmd → State → State) → State
  | [], s, k => k c s
  | r :: rest, s, k =>
    match allocate r.dom r.owner (quotaFor c r.owner s) r.count s with
    | .fail st => finishSt c st s
    | .wait => s
    | .ok a s =>
      let c := { c with alloc := c.alloc ++ [a] }
      allocMore c rest (cmdPut c s) k
    | .floor a seg s => cmdPut { c with alloc := c.alloc ++ [a], waitSeg := some seg } s

/-- Allocate every slot of a command; a floor write is waited for (R243). -/
def withSlots (c : Cmd) (rs : List SlotReq) (s : State) (k : Cmd → State → State) : State :=
  match c.waitSeg with
  | some seg =>
    if durable seg s then
      let s := match c.alloc.getLast? with
        | some a => raiseFloor a.idx s
        | none => s
      let c := { c with waitSeg := none }
      allocMore c (rs.drop c.alloc.length) (cmdPut c s) k
    else s
  | none => allocMore c (rs.drop c.alloc.length) s k

/-- Commit new records and complete: the records receive the completion's tally, and domain records are broadcast (R246, R431).
A persistent record needs a current cartridge (P3 of Table 3-2). -/
def commitNew (c : Cmd) (rs : List KeyRec) (e : Ending) (s : State) : State :=
  if rs.any KeyRec.persist && !vaultWritable s then finishSt c .modeForbids s else
  let d := { c with alloc := [] }
  let t := cplTally d e s
  let ars := c.alloc.zip rs
  let s := ars.foldl (fun s ar => commitKey ar.1 { ar.2 with created := t } s) s
  let s := finish d e s
  (ars.filter fun ar => ar.2.domain).foldl (fun s ar => domainChange ar.1.idx s) s

/-- The handle that an allocation will have. -/
def handleOf (a : SlotAlloc) (s : State) : Nat := mkHandle (ownDdn s) a.idx (slotGet a.idx s).gen

/-- The handle of a command's n-th allocation. -/
def nthHandle (c : Cmd) (n : Nat) (s : State) : Nat := match c.alloc[n]? with
  | some a => handleOf a s
  | none => 0

/-! ### The template (Table 7-7) -/

/-- Default usage (Table 7-9). -/
def defaultUsage (alg : Nat) : BitVec 32 :=
  if isTdea alg || isAes alg then usageBits [0, 1, 2, 3]
  else if alg = 8 then usageBits [2, 3]
  else if 0x10 ≤ alg ∧ alg ≤ 0x12 then usageBits [16, 21]
  else if alg = 0x18 ∨ alg = 0x19 then usageBits [16, 18]
  else if alg = 0x20 ∨ alg = 0x21 then usageBits [19]
  else usageBits [16]

/-- A record without material. -/
def blankRec (alg colour owner : Nat) (s : State) : KeyRec :=
  ⟨alg, colour, 0, 0, owner, ownDdn s, 0, 0, colour, 0, 0, 0, [], 0, 0, []⟩

/-- A pool this device knows, or 0. -/
def poolKnown (n : Nat) (s : State) : Bool := n == 0 || (poolGet n s).isSome

/-- The owner a template names. -/
def tmplOwner (c : Cmd) (b : List Byte) : Nat := if natAt b 22 2 = 0xFFFF then c.furrow else natAt b 22 2

/-- The record a template describes. -/
def tmplRec (c : Cmd) (b : List Byte) (s : State) : KeyRec :=
  { blankRec (natAt b 0 1) (natAt b 1 1) (tmplOwner c b) s with
    flags := byteAt b 2, deriveColour := natAt b 3 1, usage := BitVec.ofNat 32 (natAt b 4 4), pool := natAt b 8 4
    wrapColours := BitVec.ofNat 16 (natAt b 12 2), applet := natAt b 14 2, expiry := natAt b 16 6 }

/-- The HMAC length a template gives (byte 24). -/
def tmplLen (b : List Byte) : Nat := if natAt b 24 1 = 0 then 32 else natAt b 24 1

/-- An applet is installed. -/
def appletInstalled (n : Nat) (s : State) : Bool := s.warden.applets.any fun a => a.num == n && a.ended.isNone

/-- A template passes step 7, but for `ALG` and `KEY_LEN`. -/
def tmplOk (c : Cmd) (b : List Byte) (s : State) : Bool :=
  let o := natAt b 22 2
  decide (1 ≤ natAt b 1 1 ∧ natAt b 1 1 ≤ 15 ∧ natAt b 2 1 < 16 ∧ 1 ≤ natAt b 3 1 ∧ natAt b 3 1 ≤ 15 ∧ natAt b 4 4 < 2 ^ 23)
    && natAt b 12 2 % 2 == 0 && poolKnown (natAt b 8 4) s
    && (if bitAt b 2 3 then appletInstalled (natAt b 14 2) s else natAt b 14 2 == 0)
    && (o == 0xFFFF || (decide (o < 4096) && (c.furrow == 0 || o == c.furrow))) && allZero (bytesAt b 25 7)

/-- `KEY_LEN` of a template is right for its `ALG`. -/
def tmplLenOk (b : List Byte) : Bool :=
  let n := natAt b 24 1
  if natAt b 0 1 = 8 then n == 0 || decide (16 ≤ n ∧ n ≤ 64) else n == 0

/-- R612: the colour given is in the submitter's `COLOUR_SET`, and in the owner's when another furrow will own the record. -/
def colourGiven (c : Cmd) (colour owner : Nat) (s : State) : Bool :=
  c.colours.getLsbD colour && (owner == c.furrow || (policyFor c owner s).1.getLsbD colour)

/-- An ending for a failed test. -/
def endUnless (b : Bool) (st : Status) : Option Ending := if b then none else some (Ending.st st)

/-! ### KEY_GENERATE (R258, R259) -/

/-- The record of `KEY_GENERATE` without its key. -/
def genRec (c : Cmd) (s : State) : KeyRec :=
  if c.form = 0 then
    let alg := c.inlNat 48 1
    { blankRec alg (c.inlNat 49 1) c.furrow s with flags := 5, usage := defaultUsage alg, pool := c.inlNat 52 4 }
  else tmplRec c c.block s

/-- Basic form INLINE of R259. -/
def genInlineOk (c : Cmd) (s : State) : Bool :=
  allZero (c.inlBytes 50 2) && allZero (c.inlBytes 56 8) && decide (1 ≤ c.inlNat 49 1 ∧ c.inlNat 49 1 ≤ 15) && poolKnown (c.inlNat 52 4) s

/-- HMAC length of a new key. -/
def genLen (c : Cmd) : Nat := if c.form = 0 then 32 else tmplLen c.block

/-- `ALG` given by `KEY_GENERATE` and `PK_KEYPAIR_GENERATE`. -/
def genAlg (c : Cmd) : Nat := if c.form = 0 then c.inlNat 48 1 else natAt c.block 0 1

/-- What `KEY_GENERATE` declares. -/
def keyGenSpec : OpSpec :=
  { noKeys with
    block := fun c => if c.form = 1 then some (32, 32) else none
    params := fun c s => badUnless (c.keyA == 0 && c.keyB == 0 && (isSym (genAlg c) || isPrivate (genAlg c))
      && (if c.form = 0 then genInlineOk c s else tmplOk c c.block s && tmplLenOk c.block))
    lens7 := fun c => if isPrivate (genAlg c) then needDst (pubLen (genAlg c)) c else none
    after := fun c s => endUnless (colourGiven c (genRec c s).colour (genRec c s).owner s) .keyColourMismatch }

/-- Complete a record with its key. -/
def withMaterial (r : KeyRec) (m : List Byte) : KeyRec := { r with material := m, kcv := kcvOf r.alg m }

/-- A generated key; a generation that finds none ends with `INTERNAL_FAULT` and creates nothing (DESIGN CHOICE, log 127). -/
def withNewKey (c : Cmd) (alg : Nat) (rnd : List Byte) (s : State) (k : List Byte → State → State) : State :=
  match genMaterial alg rnd with
  | some m => k m s
  | none => finishSt c .internalFault s

/-- KEY_GENERATE: allocate, draw, commit. -/
def keyGenBody (c : Cmd) (s : State) : State :=
  let r := genRec c s
  withSlots c [⟨r.domain, r.owner, granulesOf r.alg (genLen c)⟩] s fun c s =>
    withKey c (rndLen r.alg (genLen c)) s fun rnd s => withNewKey c r.alg rnd s fun m s =>
      let dst := if isPrivate r.alg then pubKeyOf r.alg m else []
      commitNew c [withMaterial r m] ⟨.ok, dst.length, le 8 (nthHandle c 0 s), dst, []⟩ s

/-- KEY_GENERATE creates a record from the KEY class (R259). -/
def execKeyGenerate (id : Nat) (s : State) : Out := .next <| runOp keyGenSpec 0x1001 id keyGenBody s

/-! ### KEY_IMPORT (R263, R264) -/

/-- What `KEY_IMPORT` declares. -/
def keyImportSpec : OpSpec :=
  { noKeys with
    block := fun c => if c.form = 1 then some (32, 32) else none
    params := fun c s => badUnless (c.keyA == 0 && c.keyB != 0 && (readBlock c.data).isSome
      && (c.form == 0 || tmplOk c c.block s))
    keys := fun c _ => [(c.keyB, role (usageBits [5]) [1, 2, 3, 4, 5])] }

/-- The E9 block of a key block: none where absent; a bad one refuses the block. -/
def blockE9 (k : KeyBlk) : Option (Option E9Block) :=
  match k.opts.find? fun o => o.1 == code2 '9' 'E' with
  | none => some none
  | some o => (readE9 o.2).map some

/-- `USAGE` that a block maps to: key usage, mode of use, exportability (Tables 7-11 and 7-12). -/
def blockUsage (k : KeyBlk) (alg : Nat) : BitVec 32 :=
  let u := (usageOf k.usage (isPublic alg)).getD 0 &&& (modeKeeps k.mode).getD 0
  if k.exportable = code1 'E' then u ||| usageBits [7] else u &&& ~~~ usageBits [7]

/-- The record an opened block describes; none where it breaks Table 7-11 or R264. In expert form the template gives it, less the usage that
the mode of use takes away, with `EXPORT` as the block has it (DESIGN CHOICE, log 37). -/
def importRec (c : Cmd) (k : KeyBlk) (alg : Nat) (m : List Byte) (s : State) : Option KeyRec :=
  let u := blockUsage k alg
  let asym := k.alg == code1 'R' || k.alg == code1 'E'
  let extra : BitVec 32 := if k.alg = code1 'A' ∧ k.usage = code2 'D' '0' then usageBits [14, 15] else 0
  if asym != (k.usage == code2 'S' '0') then none
  else match blockE9 k with
    | none => none
    | some e9 =>
      if e9.any fun e => e.usage &&& ~~~ (u ||| extra) != 0 then none
      else if c.form = 1 then
        let t := tmplRec c c.block s
        let v := t.usage &&& (modeKeeps k.mode).getD 0
        some (withMaterial { t with
          alg := alg, usage := if k.exportable = code1 'E' then v ||| usageBits [7] else v &&& ~~~ usageBits [7] } m)
      else match e9 with
        | none =>
          let colour := match c.keyRec c.keyB s with
            | some p => p.deriveColour
            | none => 0
          some (withMaterial { blankRec alg colour c.furrow s with flags := 5, usage := u } m)
        | some e =>
          some (withMaterial { blankRec alg e.colour c.furrow s with
            flags := 5, usage := e.usage, deriveColour := e.derive, wrapColours := e.wraps, pool := e.pool } m)

/-- KEY_IMPORT: open, check the colours, allocate, commit. -/
def keyImportBody (c : Cmd) (s : State) : State :=
  match readBlock c.data with
  | none => finishSt c .badParam s
  | some k =>
    let pAlg := c.keyAlg c.keyB s
    if k.version ≠ kbVersion pAlg then finishSt c .badParam s
    else match kbOpen pAlg (c.keyMat c.keyB s) k.header k.enc k.mac with
      | none => finishSt c .verifyFailed s
      | some d => match (keyData d).bind (keyOfData k.alg) with
        | none => finishSt c .badParam s
        | some (alg, m) => match importRec c k alg m s with
          | none => finishSt c .badParam s
          | some r =>
            let e9 := (blockE9 k).join.map (·.colour)
            let wraps := match c.keyRec c.keyB s with
              | some p => p.wrapColours.getLsbD r.colour && e9.all fun x => p.wrapColours.getLsbD x
              | none => false
            let given := (c.form == 0 && e9.isNone) || colourGiven c r.colour r.owner s
            if !wraps || !given || !e9.all (fun x => c.colours.getLsbD x) then finishSt c .keyColourMismatch s
            else withSlots c [⟨r.domain, r.owner, granulesOf alg m.length⟩] s fun c s =>
              commitNew c [r] ⟨.ok, 0, le 8 (nthHandle c 0 s), [], []⟩ s

/-- KEY_IMPORT opens an ANSI X9.143 key block under `KEY_B` (R263). -/
def execKeyImport (id : Nat) (s : State) : Out := .next <| runOp keyImportSpec 0x1002 id keyImportBody s

/-! ### KEY_EXPORT (R262) -/

/-- Length in bytes that ranks an HMAC key. -/
def matLen (c : Cmd) (s : State) : Nat := (c.keyMat c.keyA s).length

/-- A subject that no key block carries (R262; public keys without an algorithm byte, DEDUCED log 38). -/
def neverInBlock (alg len : Nat) : Bool :=
  [0x1C, 0x1D, 0x20, 0x21, 0x22, 0x23, 0x24, 0x25, 0x26, 0x27].contains alg || (alg == 8 && decide (32 < len))

/-- The "9E" block of an export. -/
def exportE9 (c : Cmd) (s : State) : Option E9Block :=
  if (c.inlByte 48).getLsbD 0 then (c.keyRec c.keyA s).map fun r => ⟨r.colour, r.deriveColour, r.wrapColours, r.usage, r.pool⟩
  else none

/-- Key data of a subject. -/
def exportData (c : Cmd) (s : State) : List Byte :=
  let a := c.keyAlg c.keyA s
  if isSym a then c.keyMat c.keyA s else derOfKey a (c.keyMat c.keyA s)

/-- Optional blocks of an export. -/
def exportOptsOf (c : Cmd) (s : State) : List (List Byte × List Byte) :=
  exportOpts (c.keyAlg c.keyA s) ((c.keyRec c.keyA s).map (·.kcv) |>.getD []) s.backup.rtcSec (exportE9 c s)

/-- The block an export writes, from random bytes. -/
def exportBlock (c : Cmd) (rnd : List Byte) (s : State) : List Byte :=
  let a := c.keyAlg c.keyA s
  let u := (c.keyRec c.keyA s).map (·.usage) |>.getD 0
  let um := exportUsage a u
  writeBlock (c.keyAlg c.keyB s) (c.keyMat c.keyB s) um.1 um.2 a (u.getLsbD 7) (exportOptsOf c s) (exportData c s) rnd

/-- Random bytes an export's block takes. -/
def exportRnd (c : Cmd) (s : State) : Nat :=
  let os := ((exportOptsOf c s).map fun o => optBlock o.1 o.2).flatten
  kbRandom (c.keyAlg c.keyB s) os.length (exportData c s).length

/-- What an export writes at `DST`; its length does not depend on the random bytes. -/
def exportOut (c : Cmd) (rnd : List Byte) (s : State) : List Byte :=
  if c.keyB = 0 then c.keyMat c.keyA s else exportBlock c rnd s

/-- What `KEY_EXPORT` declares. An asymmetric subject under a TDEA key, which Table 7-11 gives no block, is refused as R262 refuses others
(DESIGN CHOICE, log 38). With `KEY_B` 0 only a public key passes step 7 (R262, Table 7-8). -/
def keyExportSpec : OpSpec :=
  { noKeys with
    params := fun c s =>
      let pub := match handleRec c.keyA c.furrow c.cls s with
        | some r => isPublic r.alg
        | none => true
      badUnless (c.keyA != 0 && (c.keyB != 0 || pub) && decide ((c.inlByte 48).toNat < 2) && allZero (c.inl.drop 1))
    keys := fun c s =>
      let subj := handleRec c.keyA c.furrow c.cls s
      let a := (c.keyA, role (usageBits [7]) [])
      if c.keyB = 0 then [a]
      else [a, (c.keyB, { role (usageBits [4]) [1, 2, 3, 4, 5] with wraps := subj.map (·.colour) })]
    after := fun c s =>
      let a := c.keyAlg c.keyA s
      if c.keyB ≠ 0 ∧ (neverInBlock a (matLen c s) ∨ strength (c.keyAlg c.keyB s) 0 < strength a (matLen c s)
          ∨ (!isSym a && isTdea (c.keyAlg c.keyB s))) then
        some (Ending.st .keyUsageDenied)
      else needDst (exportOut c [] s).length c }

/-- KEY_EXPORT writes a key block, or a raw public key (R262, R263). The block's random padding is free (log 36). -/
def execKeyExport (id : Nat) (s : State) : Out := .next <| runOp keyExportSpec 0x1003 id (fun c s =>
  let (rnd, s) := if c.keyB = 0 then ([], s) else drawBytes (exportRnd c s) s
  finish c (Ending.out (exportOut c rnd s)) s) s

/-! ### KEY_DERIVE (R261, Table 7-10) -/

/-- The method: INLINE byte 48; expert form takes it from the parent's kind (DESIGN CHOICE, log 39). -/
def deriveMethod (c : Cmd) (s : State) : Nat :=
  if c.form = 0 then c.inlNat 48 1 else match handleRec c.keyA c.furrow c.cls s with
    | some r => if isTdea r.alg then 3 else 1
    | none => 1

/-- `ALG` of the child. -/
def deriveAlg (c : Cmd) : Nat := if c.form = 0 then c.inlNat 49 1 else natAt c.block 0 1

/-- What `KEY_DERIVE` declares. -/
def keyDeriveSpec : OpSpec :=
  { noKeys with
    lens := fun c => if 256 < c.srcLen then some (Ending.st .badLength) else none
    block := fun c => if c.form = 1 then some (32, 32) else none
    params := fun c s => badUnless (c.keyA != 0 && c.keyB == 0 && isSym (deriveAlg c)
      && (if c.form = 0 then decide (1 ≤ c.inlNat 48 1 ∧ c.inlNat 48 1 ≤ 3) && allZero (c.inl.drop 2)
          else tmplOk c c.block s && tmplLenOk c.block))
    lens7 := fun c => if c.form = 0 ∧ ((c.inlNat 48 1 = 2 ∧ c.srcLen ≠ 8) ∨ (c.inlNat 48 1 = 3 ∧ c.srcLen ≠ 10)) then
      some (Ending.st .badLength) else none
    keys := fun c s =>
      let u := if deriveMethod c s = 1 then usageBits [6] else usageBits [6, 13]
      [(c.keyA, { role u [] with derives := if c.form = 1 then some (natAt c.block 1 1) else none })]
    after := fun c s =>
      let p := c.keyAlg c.keyA s
      let a := deriveAlg c
      let m := deriveMethod c s
      let ok := if m = 1 then isAes p && (isAes a || a == 8) else if m = 2 then isAes p && a == p else p == 1 && a == 1
      if !ok then some (Ending.st .badParam)
      else if m = 3 ∧ c.srcLen ≠ 10 then some (Ending.st .badLength)
      else if c.form = 1 ∧ !colourGiven c (natAt c.block 1 1) (tmplOwner c c.block) s then some (Ending.st .keyColourMismatch)
      else none }

/-- The child's material. -/
def deriveMaterial (c : Cmd) (s : State) : List Byte :=
  let p := c.keyAlg c.keyA s
  let k := c.keyMat c.keyA s
  let m := deriveMethod c s
  let a := deriveAlg c
  if m = 1 then kdfCounter (cmac p k) 16 [] c.data (if a = 8 then genLen c else algLen a)
  else if m = 2 then aesDukptDerive k 0x8001 p c.data
  else dukptIpek k c.data

/-- The child's record. -/
def deriveRec (c : Cmd) (s : State) : KeyRec :=
  let r := if c.form = 1 then tmplRec c c.block s
    else match c.keyRec c.keyA s with
      | some p => { blankRec (deriveAlg c) p.deriveColour c.furrow s with flags := 5, usage := p.usage &&& ~~~ usageBits [6, 13] }
      | none => blankRec (deriveAlg c) 0 c.furrow s
  withMaterial r (deriveMaterial c s)

/-- KEY_DERIVE creates a child of a parent key (R261). -/
def execKeyDerive (id : Nat) (s : State) : Out := .next <| runOp keyDeriveSpec 0x1004 id (fun c s =>
  let r := deriveRec c s
  withSlots c [⟨r.domain, r.owner, granulesOf r.alg r.material.length⟩] s fun c s =>
    commitNew c [r] ⟨.ok, 0, le 8 (nthHandle c 0 s), [], []⟩ s) s

/-! ### KEY_DELETE, KEY_QUERY, KEY_SET_POLICY (R260, R611) -/

/-- The subject's role: the tests of R611. -/
def subjectSpec : OpSpec :=
  { noKeys with
    params := fun c _ => badUnless (c.keyA != 0 && c.keyB == 0 && allZero c.inl)
    keys := fun c _ => [(c.keyA, bareRole)] }

/-- A `KEY_EXPORT` of a ceremony in progress pins a record. -/
def exportPins (i : Nat) (s : State) : Bool :=
  s.cmdif.cmds.any fun c => c.opcode == 0x1003 && c.mode == .ceremony && s.dev.mode == .ceremony && c.pins.contains i

/-- A record is deleted, in the archive too where it is persistent (R251). -/
def deleteKey (i : Nat) (s : State) : State :=
  match liveRec i s with
  | none => s
  | some r =>
    let s := cullet i s
    if r.persist then archive (.del i) s else s

/-- KEY_DELETE makes a record cullet (R251); a record that has left LIVE meanwhile is stale (R246). -/
def execKeyDelete (id : Nat) (s : State) : Out := .next <| runOp subjectSpec 0x1005 id (fun c s =>
  let i := hIdx c.keyA
  match handleRec c.keyA c.furrow c.cls s with
  | none => finishSt c .keyHandleStale s
  | some r =>
    if exportPins i s then finishSt c .furrowNotQuiesced s
    else if r.persist && !vaultWritable s then finishSt c .modeForbids s
    else
      let s := finishSt c .ok (deleteKey i s)
      if r.domain then domainChange i s else s) s

/-- `STATE` code (Table 7-2). -/
def slotCode : SlotState → Byte
  | .free => 0
  | .live => 1
  | .cullet => 2
  | .spent => 3

/-- Bytes 0 to 47 of a record (Table 7-2). -/
def queryBytes (k : KeySlot) (r : KeyRec) : List Byte :=
  le 4 k.gen ++ [slotCode k.state, BitVec.ofNat 8 r.alg, BitVec.ofNat 8 r.colour, r.flags] ++ le 4 r.usage.toNat ++ le 2 r.owner
    ++ le 2 r.homeDdn ++ le 4 r.pool ++ le 2 r.wrapColours.toNat
    ++ [BitVec.ofNat 8 r.deriveColour, if r.extCount = 0 then BitVec.ofNat 8 r.material.length else 0]
    ++ le 6 r.expiry ++ le 2 r.applet ++ le 8 r.created ++ bytesAt r.kcv 0 3 ++ [BitVec.ofNat 8 r.extCount] ++ le 4 r.extFirst

/-- KEY_QUERY writes the public fields of a record (R611). -/
def execKeyQuery (id : Nat) (s : State) : Out :=
  .next <| runOp { subjectSpec with lens := needDst 48 } 0x1006 id (fun c s =>
    let k := slotGet (hIdx c.keyA) s
    match k.entry with
    | some r => finish c (Ending.out (queryBytes k r)) s
    | none => finishSt c .keyHandleStale s) s

/-- A change of policy only narrows (R260). -/
def narrows (old new : KeyRec) : Bool :=
  new.usage &&& ~~~ old.usage == 0 && new.wrapColours &&& ~~~ old.wrapColours == 0
    && (!old.priv || new.priv) && new.appletPolicy == old.appletPolicy && new.applet == old.applet
    && (new.expiry == old.expiry || (new.expiry != 0 && (old.expiry == 0 || decide (new.expiry < old.expiry))))
    && new.deriveColour == old.deriveColour && new.pool == old.pool

/-- KEY_SET_POLICY narrows a record, or in CEREMONY changes what R240 does not fix (R260); a persistent record's change is written to
the vault (R4, P3 of Table 3-2). -/
def keySetPolicyBody (c : Cmd) (s : State) : State :=
  let i := hIdx c.keyA
  match handleRec c.keyA c.furrow c.cls s with
  | none => finishSt c .keyHandleStale s
  | some r =>
    let t := tmplRec c c.block s
    let n := { r with
      flags := t.flags, usage := t.usage, owner := t.owner, pool := t.pool, wrapColours := t.wrapColours
      deriveColour := t.deriveColour, expiry := t.expiry, applet := t.applet }
    if t.alg ≠ r.alg ∨ t.colour ≠ r.colour ∨ t.persist ≠ r.persist ∨ t.domain ≠ r.domain then finishSt c .badParam s
    else if c.mode ≠ .ceremony ∧ !narrows r n then finishSt c .quorumNotMet s
    else if n.owner ≠ r.owner ∧ quotaFor c n.owner s ≤ keysOwned n.owner s then finishSt c .quotaExceeded s
    else if r.persist && !vaultWritable s then finishSt c .modeForbids s
    else
      let s := storeRec i (slotGet i s).gen n s
      let s := if n.persist then archive (.put i (slotGet i s).gen n) s else s
      let s := finishSt c .ok s
      if n.domain then domainChange i s else s

/-- KEY_SET_POLICY (R260). -/
def execKeySetPolicy (id : Nat) (s : State) : Out :=
  .next <| runOp { subjectSpec with
    block := fun _ => some (32, 32)
    params := fun c s => badUnless (c.keyA != 0 && c.keyB == 0 && tmplOk c c.block s && tmplLenOk c.block) } 0x1007 id
    keySetPolicyBody s

/-! ### The key store's own events -/

/-- A bit of `KEYTAB_ERR` with the region where known (Table 7-17). -/
def keytabErr (n region : Nat) (s : State) : State := raiseErr 0x4020 0x4024 0x4002 n (wfield region 8 ||| wfield n 0) s

/-! ### Units of the key store as DRAM holds them (R224, R225, R229, R233) -/

/-- The 64 bytes of `MATERIAL`: two parts of inline secret material, inline public material in clear, or zeros (R233). -/
def materialBytes (k : KeySlot) (r : KeyRec) : List Byte :=
  if r.extCount ≠ 0 then zeros 64
  else if isPublic r.alg then bytesAt (r.material ++ zeros 64) 0 64
  else bytesAt (k.split ++ zeros 32) 0 32 ++ xorBytes (bytesAt (k.split ++ zeros 32) 0 32) (bytesAt (r.material ++ zeros 32) 0 32)

/-- Bytes 0 to 111 of a record (Table 7-2). -/
def keyRecordBytes (k : KeySlot) : List Byte :=
  match k.entry with
  | some r => queryBytes k r ++ materialBytes k r
  | none => le 4 k.gen ++ [slotCode k.state] ++ zeros 107

/-- The record whose extension holds a granule. -/
def granuleOwner (g : Nat) (s : State) : Option (Nat × KeyRec) :=
  s.keytab.slots.findSome? fun p => match p.2.entry with
    | some r => if r.extFirst ≤ g ∧ g < r.extFirst + r.extCount then some (p.1, r) else none
    | none => none

/-- The 1,008 bytes of a granule, padded with zeros (R233). -/
def granuleBytes (g : Nat) (s : State) : List Byte :=
  match granuleOwner g s with
  | some (_, r) => bytesAt (r.material ++ zeros 8064) (1008 * (g - r.extFirst)) 1008
  | none => zeros 1008

/-- The logical unit number of a granule (R224). -/
def granuleUnit (g : Nat) : Nat := 2 ^ 25 + g

/-- What a unit holds, less its tag. -/
def unitBytes (u : Nat) (s : State) : List Byte := if u < 2 ^ 25 then keyRecordBytes (slotGet u s) else granuleBytes (u - 2 ^ 25) s

/-- The CMAC tag of a unit (R225). -/
def unitTag (u : Nat) (b : List Byte) (s : State) : List Byte := cmac 5 s.keytab.macKey (le 8 u ++ b)

/-- A unit as DRAM holds it: its content and tag, under AES-XTS-256 with the unit number as the tweak (R224). -/
def storedUnit (u : Nat) (s : State) : List Byte :=
  let b := unitBytes u s
  xtsEnc (s.keytab.xtsKey.take 32) (s.keytab.xtsKey.drop 32) (le 16 u) (b ++ unitTag u b s)

/-- The tag of a unit is right in the bytes that DRAM has delivered (R225). -/
def unitVerifies (u : Nat) (bs : List Byte) (s : State) : Bool :=
  let p := xtsDec (s.keytab.xtsKey.take 32) (s.keytab.xtsKey.drop 32) (le 16 u) bs
  let n := if u < 2 ^ 25 then 112 else 1008
  p.length == n + 16 && unitTag u (p.take n) s == p.drop n

/-- Two reads of a unit fail (R227): `reads` are the bytes that DRAM delivers, first and second; a read without an entry delivers what is
stored. A disturbed unit whose tag is right is taken as stored (DESIGN CHOICE, log 129). -/
def unitFails (u : Nat) (reads : List (List Byte)) (s : State) : Bool :=
  decide (2 ≤ reads.length) && (reads.take 2).all fun b => !unitVerifies u b s

/-- The 1 MiB region of a unit (Table 7-1): granules lie after the record array. -/
def unitRegion (u : Nat) (s : State) : Nat := if u < 2 ^ 25 then u / 8192 else tableEntries s / 8192 + (u - 2 ^ 25) / 1024

/-- The record that a unit belongs to. -/
def unitOwner (u : Nat) (s : State) : Option Nat := if u < 2 ^ 25 then some u else (granuleOwner (u - 2 ^ 25) s).map (·.1)

/-- A command that waits for a read of a record: at its key checks, or with a granule on its use. -/
def namesKey (i : Nat) (c : Cmd) : Bool :=
  ((c.phase == .ready || c.phase == .waitShares) && c.handles.any fun h => hIdx h == i)
    || ((c.phase == .admitted || c.phase == .started) && c.pins.contains i && !c.wroteDst)

/-- A corrupt record (R227): a persistent one waits for its reload; a session one becomes cullet, and the commands that read it end. -/
def corrupt (i : Nat) (s : State) : State :=
  match liveRec i s with
  | none => s
  | some r =>
    if r.persist then slotSet i { slotGet i s with cached := false, reloading := true } s
    else finishAll (namesKey i) .keyHandleStale (cullet i s)

/-- A unit is corrupt: the record it belongs to is. -/
def corruptUnit (u : Nat) (s : State) : State := match unitOwner u s with
  | some i => corrupt i s
  | none => s

/-- Failures of a region so far. -/
def failsOf (reg : Nat) (s : State) : Nat := (assocGet reg s.keytab.tagFails).getD 0

/-- A unit's tag has failed twice: the error bit, and the count against its region (R227). -/
def unitFailed (u : Nat) (s : State) : State :=
  let reg := unitRegion u s
  let s := bump 0x4110 1 (keytabErr 0 reg s)
  corruptUnit u (s.modKeys fun t => { t with tagFails := assocSet reg (some (failsOf reg s + 1)) t.tagFails })

/-- Retire a region at its 16th failure; `others` are its units that fail too, which are treated alike (R228). -/
def retireRegion (reg : Nat) (others : List Nat) (s : State) : State :=
  if s.keytab.spare = 0 then keytabErr 3 reg s
  else
    let s := s.modKeys fun t => { t with spare := t.spare - 1, remapped := insertNat reg t.remapped }
    let s := (others.filter fun u => unitRegion u s == reg).foldl (fun s u => unitFailed u s) s
    let s := keytabErr 1 reg (setDegraded 7 (recordRetired 10 1 s))
    postEvt .both 0x4003 (wfield s.keytab.spare 12 ||| wfield (reg % 4096) 0) 0 s

/-- A tag has failed twice on a unit (R227, R228). -/
def tagFail (u : Nat) (others : List Nat) (s : State) : State :=
  let reg := unitRegion u s
  let s := unitFailed u s
  if failsOf reg s = 16 then retireRegion reg others s else s

/-- A granule of a record is being read for a command's use of it (R245, R348). -/
def granuleRead (i g : Nat) (s : State) : Bool :=
  (match liveRec i s with
    | some r => decide (g < r.extCount)
    | none => false)
  && s.cmdif.cmds.any fun c => (c.phase == .admitted || c.phase == .started) && c.pins.contains i

/-- CACHE_FILL: the read of a missed record ends, or with `gran` that of one of its granules on a use (R225, R227, R245). `reads`: what DRAM
delivers, where it is not what is stored; `others`: units of the region that fail as well. With every way of the set pinned the miss
waits (R248). -/
def execCacheFill (i : Nat) (gran : Option Nat) (reads : List (List Byte)) (others : List Nat) (s : State) : Out := .next <|
  match gran with
  | some g =>
    let u := granuleUnit (((liveRec i s).map (·.extFirst)).getD 0 + g)
    if granuleRead i g s && unitFails u reads s then tagFail u others s else s
  | none =>
    if !s.keytab.fills.contains i then s
    else
      let done := fun (s : State) => s.modKeys fun t => { t with fills := t.fills.filter (· != i) }
      if unitFails i reads s then tagFail i others (done s)
      else if (liveRec i s).isNone then done s
      else match cacheIn i s with
        | some s => done s
        | none => bump 0x4118 1 s

/-- RECORD_RELOAD: a corrupt persistent record comes back from the vault, or cannot (R227). -/
def execRecordReload (i : Nat) (ok : Bool) (s : State) : Out := .next <|
  if !(slotGet i s).reloading then s
  else match assocGet i s.vault.archive.keys, ok with
    | some (g, r), true => storeRec i g r s
    | _, _ =>
      finishAll (namesKey i) .internalFault
        (keytabErr 2 (unitRegion i s) (slotSet i { slotGet i s with reloading := false, cached := false } s))

/-- SCRUB: an unpinned cullet record is written back FREE (R242, R244, R252). -/
def execScrub (i : Nat) (s : State) : Out := .next <|
  let k := slotGet i s
  if k.state ≠ .cullet ∨ pinCount i s ≠ 0 then s
  else
    let s := bump 0x4114 1 s
    let s := match k.entry with
      | some r => if r.extCount = 0 then s else s.modKeys fun t => { t with granFree := rangesGive r.extFirst r.extCount t.granFree }
      | none => s
    let spent := decide (0x1FFFFFF < k.gen)
    let s := slotSet i { k with state := if spent then .spent else .free, entry := none, cached := false, reloading := false } s
    let dom := isDomainIdx i s
    let mine := !dom || decide ((domainPart s).1 ≤ i ∧ i < (domainPart s).1 + (domainPart s).2)
    if spent || !mine then s else setFreeList dom (freeList dom s ++ [(i, 1)]) s

/-- Restore one record from the archive: its slot is LIVE at the archived generation (R254). -/
def restoreKey (i : Nat) (s : State) : State :=
  let s := s.modKeys fun t => { t with toRestore := t.toRestore.filter (· != i), restored := t.restored + 1 }
  match assocGet i s.vault.archive.keys with
  | some (g, r) => storeRec i g r s
  | none => s

/-- RECORD_RESTORE: a record is restored in index order, or ahead of order for a command that waits (R254). -/
def execRecordRestore (i : Nat) (s : State) : Out := .next <|
  if s.keytab.restoring && s.keytab.floorsLoaded && s.keytab.toRestore.contains i
      && (s.keytab.toRestore.head? == some i || s.cmdif.cmds.any (fun c => c.handles.any fun h => hIdx h == i)) then restoreKey i s
  else s

/-- KEYTAB_RESTORE_DONE: every persistent record is restored (R254, R266). -/
def execKeytabRestoreDone (s : State) : Out := .next <|
  if s.keytab.restoring && s.keytab.floorsLoaded && s.keytab.toRestore.isEmpty then
    postEvt .both 0x4001 (wfield s.keytab.restored 0) 0 (s.modKeys fun t => { t with restoring := false, restoreDone := true })
  else s

/-! ### Computed registers (Tables 7-13 and 7-14) -/

/-- `KEYTAB_STATUS`. -/
def keytabStatus (s : State) : Word :=
  wbit s.keytab.restoreDone 31 ||| wbit s.keytab.floorsLoaded 30 ||| wbit (restoreComes s) 29

/-- `KEYTAB_FREE`. -/
def keytabFree (s : State) : Nat :=
  tableEntries s - 1 - (s.keytab.slots.filter fun p => p.2.state != .free).length - s.keytab.toRestore.length

/-- `KEYTAB_CULLET`. -/
def keytabCullet (s : State) : Nat := (s.keytab.slots.filter fun p => p.2.state == .cullet).length

/-- `KEYTAB_GRAN_FREE`. -/
def keytabGranFree (s : State) : Nat := rangesCount s.keytab.granFree

end Sys2Proof.Machine
end

