-- ==== Sys2Proof/Machine/Pke.lean ====
section
/-! DEFINITION. The public-key engine (chapter 10). -/
namespace Sys2Proof.Machine

/-- Update the public-key engine. -/
def State.modPke (s : State) (f : Pke → Pke) : State := { s with pke := f s.pke }

/-! ### Cores (R347, R363, R364): 0 to 31 modular, 32 to 47 lattice -/

/-- Modular cores in service. -/
def modCores (s : State) : Nat := 32 - popcount 32 s.units.pke.toNat
/-- Lattice cores in service. -/
def latCores (s : State) : Nat := 16 - popcount 16 s.units.pkeLat.toNat

/-- Every core of the kind that an algorithm uses is retired (P3 of Table 3-2): lattice cores for ALG 0x20 and above. -/
def kindGone (alg : Nat) (s : State) : Bool := if 0x20 ≤ alg then latCores s == 0 else modCores s == 0

/-- A core is retired. -/
def coreRetired (n : Nat) (s : State) : Bool := if n < 32 then s.units.pke.getLsbD n else s.units.pkeLat.getLsbD (n - 32)

/-- Core number and kind in event data: [13:8] core, [14] lattice. -/
def coreData (n : Nat) : Word := wfield (if n < 32 then n else n - 32) 0 ||| wbit (decide (32 ≤ n)) 6

/-- A bit of `PKE_ERR` with the core (Table 10-11). -/
def pkeErr (n core : Nat) (s : State) : State := raiseErr 0x7010 0x7014 0x7002 n ((coreData core <<< 8) ||| wfield n 0) s

/-- Retire a core (R114, R364); with a whole kind retired, `DEVICE_DEGRADED.PKE`. The command that runs on it ends with
`INTERNAL_FAULT` (Table 10-10). -/
def pkeRetire (n : Nat) (s : State) : State :=
  if coreRetired n s then s
  else
    let u := s.units
    let s := { s with units := if n < 32 then { u with pke := u.pke ||| (1 <<< n) } else { u with pkeLat := u.pkeLat ||| (1 <<< (n - 32)) } }
    let s := if n < 32 then recordRetired 4 s.units.pke.toNat s else recordRetired 5 s.units.pkeLat.toNat s
    let s := pkeErr 2 n s
    let s := if modCores s = 0 ∨ latCores s = 0 then setDegraded 3 s else s
    let s := postEvt .both 0x7003 (coreData n ||| wfield (modCores s) 16 ||| wfield (latCores s) 24) 0 s
    match s.cmdif.cmds.find? fun c => c.cls == 4 && c.units.contains n with
    | some c => pkeErr 0 n (finishSt c .internalFault s)
    | none => s

/-- A check before release fails on a core (R363): nothing is written or created; the second failure retires the core. -/
def checkFail (c : Cmd) (core : Nat) (s : State) : State :=
  let n := (assocGet core s.pke.checkFails).getD 0 + 1
  let s := s.modPke fun p => { p with checkFails := assocSet core (some n) p.checkFails }
  let s := bump 0x710C 1 (pkeErr 1 core s)
  let s := finishSt c .internalFault s
  if n = 2 then pkeRetire core s else s

/-- End a class 0x4 command, counted (Table 10-7). -/
def pkeEnd (c : Cmd) (e : Ending) (s : State) : State :=
  let s := bump64 0x7100 1 s
  finish c e (if e.status = .verifyFailed then bump 0x7110 1 s else s)

/-- Commit new records and complete, counted. -/
def pkeCommit (c : Cmd) (rs : List KeyRec) (e : Ending) (s : State) : State := commitNew c rs e (bump64 0x7100 1 s)

/-- KEY-class output for an operation (R361). -/
def pkeDraw (c : Cmd) (n : Nat) (s : State) (k : List Byte → State → State) : State :=
  match drawKey n [] s with
  | .ok bs s => k bs s
  | .wait s => cmdPut { c with entropyWait := true } (if c.entropyWait then s else bump 0x7114 1 s)
  | .stopped s => pkeEnd c (Ending.st .entropyUnavailable) s

/-- The core a command runs on (R347). -/
def Cmd.core (c : Cmd) : Nat := c.units.headD 0

/-- How the operation runs on its core: its result is released, the check before release fails (R363), or the core faults and is
retired (R114, Table 10-10). -/
def onCore (c : Cmd) (run : CoreRun) (s : State) (k : State → State) : State :=
  match run with
  | .ok => k s
  | .checkFail => checkFail c c.core s
  | .fault => pkeRetire c.core s

/-- How an operation without a check before release runs: well, or with a core fault. -/
def runOf (fault : Bool) : CoreRun := if fault then .fault else .ok

/-! ### Inline public keys (R352) -/

/-- Code of an inline key by `PK_TYPE` and length; none where they do not fit (Table 10-2). -/
def inlineAlg (ty len : Nat) : Option Nat :=
  if ty = 1 then (if 260 ≤ len ∧ len ≤ 516 ∧ (len - 4) % 8 = 0 then some 0x14 else none)
  else if ty = 2 ∧ len = 64 then some 0x1A
  else if ty = 3 ∧ len = 96 then some 0x1B
  else if ty = 4 ∧ len = 32 then some 0x1D
  else if ty = 5 ∧ len = 1184 then some 0x22
  else if ty = 6 ∧ len = 1568 then some 0x23
  else if ty = 7 ∧ len = 1952 then some 0x26
  else if ty = 8 ∧ len = 2592 then some 0x27
  else none

/-- A command that takes its public key inline. -/
def usesInline (c : Cmd) : Bool := c.keyA == 0

/-- `PK_LEN` of an inline key. -/
def pkLen (c : Cmd) : Nat := natAt c.data 2 2

/-- The inline key itself. -/
def inlineKey (c : Cmd) : List Byte := bytesAt c.data 8 (pkLen c)

/-- Code of the inline key. -/
def inlineCode (c : Cmd) : Option Nat := inlineAlg (natAt c.data 0 1) (pkLen c)

/-- An RSA modulus and exponent are acceptable (R352). -/
def rsaPubOk (b : List Byte) : Bool :=
  let k := b.length - 4
  let n := beNat (b.take k)
  let e := beNat (b.drop k)
  n % 2 == 1 && decide (Nat.log2 n + 1 = 8 * k) && e % 2 == 1 && decide (3 ≤ e)

/-- An Ed25519 key decodes to a point of the curve other than the neutral one (R352). -/
def edPointOk (b : List Byte) : Bool := match edDec b with
  | some q => q != (0, 1)
  | none => false

/-- The inline key's prefix and value are valid. -/
def inlineOk (c : Cmd) : Bool :=
  byteAt c.data 1 == 0 && allZero (bytesAt c.data 4 4) && decide (8 + pkLen c ≤ c.data.length)
    && (match inlineCode c with
        | none => false
        | some a =>
          let k := inlineKey c
          if a = 0x14 then rsaPubOk k
          else if a = 0x1A then (ecPoint p256 k).isSome
          else if a = 0x1B then (ecPoint p384 k).isSome
          else if a = 0x1D then edPointOk k
          else if a = 0x22 ∨ a = 0x23 then kemEkOk (kemK a) k
          else true)

/-- Code of the public key a command uses; 0 for none. -/
def pubCode (c : Cmd) (s : State) : Nat := if usesInline c then (inlineCode c).getD 0 else c.keyAlg c.keyA s

/-- The public key a command uses. -/
def pubKey (c : Cmd) (s : State) : List Byte := if usesInline c then inlineKey c else c.keyMat c.keyA s

/-- `SRC` after the inline key. -/
def afterKey (c : Cmd) : List Byte := if usesInline c then c.data.drop (8 + pkLen c) else c.data

/-- Modulus bytes of a public key. -/
def pubK (c : Cmd) (s : State) : Nat := (pubKey c s).length - 4

/-- The public RSA key. -/
def rsaPubKey (c : Cmd) (s : State) : RsaKey :=
  let b := pubKey c s
  let k := b.length - 4
  ⟨k, beNat (b.take k), beNat (b.drop k), 0, 0, 0, 0, 0⟩

/-! ### PK_SIGN and PK_VERIFY (R354) -/

/-- Codes that fit a scheme: private, public. -/
def schemeAlgs (sch : Nat) : List Nat :=
  if 1 ≤ sch ∧ sch ≤ 6 then [0x10, 0x11, 0x12, 0x14, 0x15, 0x16]
  else if sch = 0x10 then [0x18, 0x1A]
  else if sch = 0x11 then [0x19, 0x1B]
  else if sch = 0x18 then [0x1C, 0x1D]
  else if sch = 0x20 then [0x24, 0x26]
  else if sch = 0x21 then [0x25, 0x27]
  else []

/-- The default scheme of a code (Table 10-4). -/
def defaultScheme (alg : Nat) : Nat :=
  if 0x10 ≤ alg ∧ alg ≤ 0x16 then 0x04
  else if alg = 0x18 ∨ alg = 0x1A then 0x10
  else if alg = 0x19 ∨ alg = 0x1B then 0x11
  else if alg = 0x1C ∨ alg = 0x1D then 0x18
  else if alg = 0x24 ∨ alg = 0x26 then 0x20
  else if alg = 0x25 ∨ alg = 0x27 then 0x21
  else 0

/-- Code of the key before its checks: a resolved handle's, or the inline key's. -/
def earlyAlg (c : Cmd) (s : State) : Nat :=
  if usesInline c then (inlineCode c).getD 0 else match handleRec c.keyA c.furrow c.cls s with
    | some r => r.alg
    | none => 0

/-- The scheme in force. -/
def schemeOf (c : Cmd) (s : State) : Nat := if c.inlNat 48 1 = 0 then defaultScheme (earlyAlg c s) else c.inlNat 48 1

/-- `PREHASHED`. -/
def prehashed (c : Cmd) : Bool := (c.inlByte 49).getLsbD 0
/-- `DETERMINISTIC`. -/
def deterministic (c : Cmd) : Bool := (c.inlByte 49).getLsbD 1
/-- `CTX_LEN`. -/
def ctxLen (c : Cmd) : Nat := c.inlNat 51 1

/-- Hash number of an RSA or ECDSA scheme. -/
def schemeHash (sch : Nat) : Nat := if sch = 0x10 then 1 else if sch = 0x11 then 2 else (sch - 1) % 3 + 1

/-- PSS salt length. -/
def saltLen (c : Cmd) (s : State) : Nat := if c.form = 0 then hashLen (schemeHash (schemeOf c s)) else c.inlNat 50 1

/-- INLINE of Table 10-4: `BAD_FORM` for expert fields in basic form, else `BAD_PARAM`. -/
def signParams (c : Cmd) (s : State) : Option Status :=
  let sch := schemeOf c s
  let code := c.inlNat 48 1
  let rsa := decide (1 ≤ sch ∧ sch ≤ 6)
  let dsa := decide (sch = 0x20 ∨ sch = 0x21)
  let ec := decide (sch = 0x10 ∨ sch = 0x11)
  if c.form = 0 ∧ !(allZero (c.inlBytes 49 2)) then some .badForm
  else badUnless (c.keyB == 0 && (code == 0 || !(schemeAlgs code).isEmpty) && decide ((c.inlByte 49).toNat < 4)
    && allZero (c.inlBytes 52 12)
    && (sch == 0 || ((!prehashed c || rsa || ec) && (!deterministic c || dsa) && (ctxLen c == 0 || dsa)
      && (c.inlNat 50 1 == 0 || (decide (4 ≤ sch ∧ sch ≤ 6) && decide (c.inlNat 50 1 ≤ hashLen (schemeHash sch)))))))

/-- Codes admitted for a signing key or a verification record. -/
def signAlgs (c : Cmd) (pub : Bool) : List Nat :=
  let code := c.inlNat 48 1
  let all := if code = 0 then [0x10, 0x11, 0x12, 0x14, 0x15, 0x16, 0x18, 0x19, 0x1A, 0x1B, 0x1C, 0x1D, 0x24, 0x25, 0x26, 0x27] else schemeAlgs code
  all.filter fun a => isPublic a == pub

/-- Signature length of a scheme (Table 10-4); `k` the modulus length. -/
def sigLen (sch k : Nat) : Nat :=
  if sch = 0x10 ∨ sch = 0x18 then 64 else if sch = 0x11 then 96 else if sch = 0x20 then 3309 else if sch = 0x21 then 4627 else k

/-- Context and message of bytes that follow a signature or stand alone. -/
def ctxMsg (c : Cmd) (b : List Byte) : List Byte × List Byte := (b.take (ctxLen c), b.drop (ctxLen c))

/-- The message part has a right length. -/
def msgLenOk (c : Cmd) (sch : Nat) (b : List Byte) : Bool :=
  decide (ctxLen c ≤ b.length) && (!prehashed c || b.length == ctxLen c + hashLen (schemeHash sch))

/-- Digest that a hash scheme signs. -/
def digestOf (c : Cmd) (sch : Nat) (m : List Byte) : List Byte := if prehashed c then m else hashNo (schemeHash sch) m

/-- One core of a kind. -/
def coreOf (lattice : Bool) : Need := ⟨1, false, lattice⟩

/-- What `PK_SIGN` declares. -/
def signSpec : OpSpec :=
  { noKeys with
    params := fun c s => if c.keyA = 0 then some .badParam else signParams c s
    keys := fun c _ => [(c.keyA, role (usageBits [16]) (signAlgs c false))]
    after := fun c s =>
      let sch := schemeOf c s
      if !msgLenOk c sch c.data then some (Ending.st .badLength) else needDst (sigLen sch (rsaLen (c.keyAlg c.keyA s))) c
    need := fun c s => coreOf (decide (0x20 ≤ c.keyAlg c.keyA s)) }

/-- Random bytes a signature draws (R361). -/
def signRnd (c : Cmd) (sch : Nat) (s : State) : Nat :=
  if 4 ≤ sch ∧ sch ≤ 6 then saltLen c s
  else if sch = 0x10 then 40
  else if sch = 0x11 then 56
  else if (sch = 0x20 ∨ sch = 0x21) ∧ !deterministic c then 32
  else 0

/-- The signature. -/
def signature (c : Cmd) (sch : Nat) (rnd : List Byte) (s : State) : List Byte :=
  let a := c.keyAlg c.keyA s
  let m := c.keyMat c.keyA s
  let (ctx, msg) := ctxMsg c c.data
  let h := schemeHash sch
  let k := rsaLen a
  if sch ≤ 3 then be k (rsaPriv (rsaOf k m) (beNat (emsaPkcs h k (digestOf c sch msg))))
  else if sch ≤ 6 then be k (rsaPriv (rsaOf k m) (beNat (emsaPss h (8 * k) (digestOf c sch msg) rnd)))
  else if sch = 0x10 then ecdsaSign p256 (beNat m) (ecScalar p256 rnd) (digestOf c sch msg)
  else if sch = 0x11 then ecdsaSign p384 (beNat (m.take 48)) (ecScalar p384 rnd) (digestOf c sch msg)
  else if sch = 0x18 then edSign m msg
  else dsaSign (dsaSet a) m ctx msg (bytesAt rnd 0 32)

/-- PK_SIGN. -/
def signBody (run : CoreRun) (c : Cmd) (s : State) : State :=
  let sch := schemeOf c s
  let go := fun (rnd : List Byte) (s : State) =>
    onCore c run s fun s => pkeEnd c (Ending.out (signature c sch rnd s)) s
  let n := signRnd c sch s
  if n = 0 then go [] s else pkeDraw c n s go

/-- PK_SIGN signs a message or digest (R354, R363). -/
def execPkSign (id : Nat) (run : CoreRun) (s : State) : Out := .next <| runOp signSpec 0x4001 id (signBody run) s

/-- What `PK_VERIFY` declares. -/
def verifySpec : OpSpec :=
  { noKeys with
    lens := fun c => if c.keyA = 0 ∧ c.srcLen < 8 then some (Ending.st .badLength) else none
    params := fun c s => if usesInline c && !inlineOk c then some .badParam else signParams c s
    keys := fun c _ => if usesInline c then [] else [(c.keyA, role (usageBits [17]) (signAlgs c true))]
    after := fun c s =>
      let sch := schemeOf c s
      let b := afterKey c
      let n := sigLen sch (pubK c s)
      if usesInline c && !(signAlgs c true).contains (pubCode c s) && !(pubCode c s == 0x14 && (signAlgs c true).contains 0x14) then
        some (Ending.st .keyUsageDenied)
      else if b.length < n ∨ !msgLenOk c sch (b.drop n) then some (Ending.st .badLength)
      else none
    need := fun c s => coreOf (decide (0x20 ≤ pubCode c s)) }

/-- The signature verifies. -/
def verifies (c : Cmd) (s : State) : Bool :=
  let sch := schemeOf c s
  let a := pubCode c s
  let pk := pubKey c s
  let b := afterKey c
  let sig := b.take (sigLen sch (pubK c s))
  let (ctx, msg) := ctxMsg c (b.drop (sigLen sch (pubK c s)))
  let h := schemeHash sch
  if sch ≤ 6 then
    let r := rsaPubKey c s
    let x := beNat sig
    if r.n ≤ x then false
    else
      let em := be r.k (rsaPub r x)
      if sch ≤ 3 then em == emsaPkcs h r.k (digestOf c sch msg)
      else pssVerify h (8 * r.k) (saltLen c s) (digestOf c sch msg) em
  else if sch = 0x10 then ecdsaVerify p256 pk (digestOf c sch msg) sig
  else if sch = 0x11 then ecdsaVerify p384 pk (digestOf c sch msg) sig
  else if sch = 0x18 then edVerify pk msg sig
  else dsaVerify (dsaSet a) pk ctx msg sig

/-- PK_VERIFY (R354). -/
def execPkVerify (id : Nat) (fault : Bool) (s : State) : Out := .next <| runOp verifySpec 0x4002 id (fun c s =>
  onCore c (runOf fault) s fun s => pkeEnd c (Ending.st (if verifies c s then .ok else .verifyFailed)) s) s

/-! ### PK_KEYPAIR_GENERATE (R356) -/

/-- `PUB_RECORD`. -/
def pubRecord (c : Cmd) : Bool := c.form == 1 && bitAt c.block 32 0

/-- What `PK_KEYPAIR_GENERATE` declares. -/
def keypairSpec : OpSpec :=
  { noKeys with
    block := fun c => if c.form = 1 then some (48, 48) else none
    params := fun c s => badUnless (c.keyA == 0 && c.keyB == 0 && isPrivate (genAlg c)
      && (if c.form = 0 then genInlineOk c s
          else tmplOk c c.block s && tmplLenOk c.block && decide (natAt c.block 32 1 < 2) && allZero (bytesAt c.block 33 3)
            && decide (natAt c.block 36 4 < 2 ^ 23) && allZero (bytesAt c.block 40 8)))
    lens7 := fun c => needDst (8 + pubLen (genAlg c)) c
    after := fun c s =>
      if kindGone (genAlg c) s then some (Ending.st .modeForbids)
      else endUnless (colourGiven c (genRec c s).colour (genRec c s).owner s) .keyColourMismatch
    need := fun c _ => coreOf (decide (0x20 ≤ genAlg c)) }

/-- The public record of a pair. -/
def publicRec (c : Cmd) (r : KeyRec) (pub : List Byte) : KeyRec :=
  let flags : BitVec 8 := if r.persist then 1 else 0
  withMaterial { r with
    alg := publicAlg r.alg, flags := flags, usage := BitVec.ofNat 32 (natAt c.block 36 4), pool := 0, applet := 0 } pub

/-- PK_KEYPAIR_GENERATE: both records commit in one step (R356). -/
def keypairBody (run : CoreRun) (c : Cmd) (s : State) : State :=
  let r := genRec c s
  let slots := [SlotReq.mk r.domain r.owner (granulesOf r.alg 0)]
    ++ (if pubRecord c then [SlotReq.mk false r.owner (granulesOf (publicAlg r.alg) 0)] else [])
  withSlots c slots s fun c s =>
    pkeDraw c (rndLen r.alg 0) s fun rnd s => onCore c run s fun s => withNewKey c r.alg rnd s fun m s =>
      let pub := pubKeyOf r.alg m
      let recs := [withMaterial r m] ++ (if pubRecord c then [publicRec c r pub] else [])
      let dst := le 8 (if pubRecord c then nthHandle c 1 s else 0) ++ pub
      pkeCommit c recs ⟨.ok, dst.length, le 8 (nthHandle c 0 s), dst, []⟩ s

/-- PK_KEYPAIR_GENERATE (R356). -/
def execPkKeypairGenerate (id : Nat) (run : CoreRun) (s : State) : Out :=
  .next <| runOp keypairSpec 0x4003 id (keypairBody run) s

/-! ### Derived keys (R355) -/

/-- `ALG` of the derived key. -/
def derivedAlg (c : Cmd) : Nat := if c.form = 0 then c.inlNat 48 1 else natAt c.block 0 1

/-- Parameters of a derived key. -/
def derivedOk (c : Cmd) (s : State) : Bool :=
  let a := derivedAlg c
  isSym a && (if c.form = 0 then allZero (c.inl.drop 1)
    else tmplOk c c.block s && tmplLenOk c.block && !bitAt c.block 2 0 && !bitAt c.block 2 1)

/-- What the three derivations declare: usage bit, codes, whether an inline key is taken. -/
def deriveSpec (bitNo : Nat) (algs : List Nat) (inl : Bool) : OpSpec :=
  { noKeys with
    lens := fun c => if inl && c.keyA == 0 && decide (c.srcLen < 8) then some (Ending.st .badLength) else none
    block := fun c => if c.form = 1 then some (32, 32) else none
    params := fun c s => badUnless (c.keyB == 0 && derivedOk c s
      && (if c.keyA = 0 then inl && c.form == 1 && inlineOk c && algs.contains ((inlineCode c).getD 0) else true))
    keys := fun c _ => if c.keyA = 0 then [] else
      [(c.keyA, { role (usageBits [bitNo]) algs with derives := if c.form = 1 then some (natAt c.block 1 1) else none })]
    need := fun _ _ => coreOf inl }

/-- R612 for a derived key in expert form; with an inline key the colour is checked only against the furrow's own set (R355). -/
def derivedColour (c : Cmd) (s : State) : Option Ending :=
  let colour := natAt c.block 1 1
  let ok := if c.keyA = 0 then c.colours.getLsbD colour else colourGiven c colour (tmplOwner c c.block) s
  if c.form = 1 ∧ !ok then some (Ending.st .keyColourMismatch) else none

/-- The key derived from a shared secret (R355). -/
def derivedKey (c : Cmd) (z info : List Byte) : List Byte :=
  let a := derivedAlg c
  kdfCounter (hmac256 (hmac256 (zeros 32) z)) 32 [0x45, 0x39, 0x4B, 0x58] info (if a = 8 then genLen c else algLen a)

/-- The derived record (R355). -/
def derivedRec (c : Cmd) (z info : List Byte) (s : State) : KeyRec :=
  let a := derivedAlg c
  let r := if c.form = 1 then tmplRec c c.block s
    else match c.keyRec c.keyA s with
      | some p => { blankRec a p.deriveColour c.furrow s with flags := 4, usage := defaultUsage a }
      | none => blankRec a 0 c.furrow s
  withMaterial r (derivedKey c z info)

/-- Slots of a derived record. -/
def derivedSlots (c : Cmd) : List SlotReq :=
  let o := if c.form = 1 then tmplOwner c c.block else c.furrow
  [⟨false, o, granulesOf (derivedAlg c) (if derivedAlg c = 8 then genLen c else 0)⟩]

/-- Curve of an ECC private code. -/
def curveOf (alg : Nat) : Curve := if alg = 0x18 then p256 else p384

/-- The private scalar of a record. -/
def ecPrivOf (alg : Nat) (m : List Byte) : Nat := beNat (m.take (curveOf alg).len)

/-- What `ECDH_DERIVE` declares. -/
def ecdhSpec : OpSpec :=
  let o := deriveSpec 18 [0x18, 0x19] false
  { o with
    params := fun c s => if c.keyA = 0 then some .badParam else o.params c s
    after := fun c s =>
      let n := 2 * (curveOf (c.keyAlg c.keyA s)).len
      if c.data.length < n ∨ n + 256 < c.data.length then some (Ending.st .badLength)
      else if (ecPoint (curveOf (c.keyAlg c.keyA s)) (c.data.take n)).isNone then some (Ending.st .badParam)
      else derivedColour c s }

/-- ECDH_DERIVE (R355). -/
def execEcdhDerive (id : Nat) (run : CoreRun) (s : State) : Out := .next <| runOp ecdhSpec 0x4004 id (fun c s =>
  withSlots c (derivedSlots c) s fun c s =>
    let a := c.keyAlg c.keyA s
    let n := 2 * (curveOf a).len
    match ecdh (curveOf a) (ecPrivOf a (c.keyMat c.keyA s)) (c.data.take n) with
    | none => pkeEnd c (Ending.st .badParam) s
    | some z => onCore c run s fun s =>
      pkeCommit c [derivedRec c z (c.data.drop n) s] ⟨.ok, 0, le 8 (nthHandle c 0 s), [], []⟩ s) s

/-- Ciphertext length of an ML-KEM rank. -/
def kemCt (k : Nat) : Nat := if k = 3 then 1088 else 1568

/-- What `KEM_ENCAPSULATE` declares. -/
def encapsSpec : OpSpec :=
  { deriveSpec 20 [0x22, 0x23] true with
    after := fun c s =>
      if 256 < (afterKey c).length then some (Ending.st .badLength)
      else match needDst (kemCt (kemK (pubCode c s))) c with
        | some e => some e
        | none => derivedColour c s }

/-- KEM_ENCAPSULATE (R355, R361). -/
def execKemEncapsulate (id : Nat) (fault : Bool) (s : State) : Out := .next <| runOp encapsSpec 0x4005 id (fun c s =>
  withSlots c (derivedSlots c) s fun c s => pkeDraw c 32 s fun m s => onCore c (runOf fault) s fun s =>
    let e := kemEncaps (kemK (pubCode c s)) (pubKey c s) m
    pkeCommit c [derivedRec c e.1 (afterKey c) s] ⟨.ok, e.2.length, le 8 (nthHandle c 0 s), e.2, []⟩ s) s

/-- What `KEM_DECAPSULATE` declares. -/
def decapsSpec : OpSpec :=
  let o := deriveSpec 19 [0x20, 0x21] false
  { o with
    params := fun c s => if c.keyA = 0 then some .badParam else o.params c s
    after := fun c s =>
      let n := kemCt (kemK (c.keyAlg c.keyA s))
      if c.data.length < n ∨ n + 256 < c.data.length then some (Ending.st .badLength)
      else if !kemDkOk (kemK (c.keyAlg c.keyA s)) (c.keyMat c.keyA s) then some (Ending.st .badParam)
      else derivedColour c s
    need := fun _ _ => coreOf true }

/-- KEM_DECAPSULATE: a ciphertext of the correct length always completes with `OK` (R359). A key that fails the decapsulation key hash
check of Table 10-1 ends with `BAD_PARAM` (DESIGN CHOICE, log 126). -/
def execKemDecapsulate (id : Nat) (fault : Bool) (s : State) : Out := .next <| runOp decapsSpec 0x4006 id (fun c s =>
  withSlots c (derivedSlots c) s fun c s => onCore c (runOf fault) s fun s =>
    let k := kemK (c.keyAlg c.keyA s)
    let z := kemDecaps k (c.keyMat c.keyA s) (c.data.take (kemCt k))
    pkeCommit c [derivedRec c z (c.data.drop (kemCt k)) s] ⟨.ok, 0, le 8 (nthHandle c 0 s), [], []⟩ s) s

/-! ### RSA-OAEP (R353, R358) -/

/-- INLINE of the OAEP opcodes. -/
def oaepParams (c : Cmd) : Bool :=
  let h := c.inlNat 48 1
  (if c.form = 0 then h == 0 else decide (1 ≤ h ∧ h ≤ 3)) && allZero (c.inl.drop 2) && c.keyB == 0

/-- Hash of an OAEP command. -/
def oaepHash (c : Cmd) : Nat := if c.form = 0 then 1 else c.inlNat 48 1
/-- `LABEL_LEN`. -/
def labelLen (c : Cmd) : Nat := c.inlNat 49 1

/-- What `RSA_ENCRYPT` declares. -/
def rsaEncSpec : OpSpec :=
  { noKeys with
    lens := fun c => if c.keyA = 0 ∧ c.srcLen < 8 then some (Ending.st .badLength) else none
    params := fun c _ => badUnless (oaepParams c && (c.keyA != 0 || (inlineOk c && inlineCode c == some 0x14)))
    keys := fun c _ => if usesInline c then [] else [(c.keyA, role (usageBits [22]) [0x14, 0x15, 0x16])]
    after := fun c s =>
      let b := afterKey c
      let k := pubK c s
      if b.length < labelLen c ∨ k < (b.length - labelLen c) + 2 * hashLen (oaepHash c) + 2 then some (Ending.st .badLength)
      else needDst k c }

/-- RSA_ENCRYPT (R353). -/
def execRsaEncrypt (id : Nat) (fault : Bool) (s : State) : Out := .next <| runOp rsaEncSpec 0x4007 id (fun c s =>
  pkeDraw c (hashLen (oaepHash c)) s fun seed s => onCore c (runOf fault) s fun s =>
    let b := afterKey c
    let r := rsaPubKey c s
    let em := oaepEnc (oaepHash c) r.k (b.take (labelLen c)) (b.drop (labelLen c)) seed
    pkeEnd c (Ending.out (be r.k (rsaPub r (beNat em)))) s) s

/-- What `RSA_DECRYPT` declares. -/
def rsaDecSpec : OpSpec :=
  { noKeys with
    params := fun c _ => badUnless (oaepParams c && c.keyA != 0)
    keys := fun c _ => [(c.keyA, role (usageBits [21]) [0x10, 0x11, 0x12])]
    after := fun c s => if c.data.length ≠ labelLen c + rsaLen (c.keyAlg c.keyA s) then some (Ending.st .badLength) else none }

/-- RSA_DECRYPT: any failure of the decoding is `VERIFY_FAILED` (R358). -/
def execRsaDecrypt (id : Nat) (run : CoreRun) (s : State) : Out := .next <| runOp rsaDecSpec 0x4008 id (fun c s =>
  onCore c run s fun s =>
    let k := rsaLen (c.keyAlg c.keyA s)
    let r := rsaOf k (c.keyMat c.keyA s)
    let x := beNat (c.data.drop (labelLen c))
    let m := if r.n ≤ x then none else oaepDec (oaepHash c) (c.data.take (labelLen c)) (be k (rsaPriv r x))
    match m with
    | none => pkeEnd c (Ending.st .verifyFailed) s
    | some m => pkeEnd c ((needDst m.length c).getD (Ending.out m)) s) s

/-! ### Disable, registers, alarms (R365, R366) -/

/-- The engine is disabled. -/
def pkeDisabled (s : State) : Bool := regBit 0x7004 0 s

/-- A write of `PKE_CTL`, already checked (R45, R366). -/
def pkeCtlWrite (v : Word) (s : State) : State :=
  let was := pkeDisabled s
  let s := regMask 0x7004 1 v s
  if v.getLsbD 0 && !was then
    finishAll (fun c => c.cls == 4 && !c.startedP) .abortedDisabled (s.modDev fun d => { d with drains := d.drains ||| 4 })
  else if v.getLsbD 0 then s
  else s.modDev fun d => { d with drains := d.drains &&& ~~~4 }

/-- PKE_DRAINED: no class 0x4 command remains in flight after a disable (R366). -/
def execPkeDrained (s : State) : Out :=
  .next <| onMain (fun s =>
    if pkeDisabled s && s.dev.drains.getLsbD 2 && !(s.cmdif.cmds.any fun c => c.cls == 4) then
      postEvt .both 0x7001 0 0 (regOr 0x7000 0x80000000 (s.modDev fun d => { d with drains := d.drains &&& ~~~4 }))
    else s) s

/-- `PKE_STATUS` (Table 10-8). -/
def pkeStatus (s : State) : Word :=
  regGet 0x7000 s ||| wbit (pkeDisabled s) 30 ||| wfield (latCores s) 16 ||| wfield (modCores s) 0

/-- Response level 3 and above (R365). -/
def pkeErase (s : State) : State :=
  finishAll (fun c => c.cls == 4 && (c.phase == .reading || c.phase == .ready || c.phase == .waitShares || c.phase == .hook
    || c.phase == .admitted || c.phase == .started) && !c.wroteDst) .abortedAlarm s

end Sys2Proof.Machine
end

