-- ==== Sys2Proof/Machine/Flash.lean ====
section
/-! DEFINITION. The embedded flash (chapter 15): reads, flash operations, bank retirement and the image opcodes. -/
namespace Sys2Proof.Machine

/-! ### Errors and retirement (R519, R521) -/

/-- A bit of `FLASH_ERR`; the event carries `FLASH_ERR_ADDR` where a read set it (Table 15-16). -/
def flashErr (n : Nat) (s : State) : State :=
  if regBit 0xB008 n s then s else
    let s := regOr 0xB008 (wbit true n) s
    let d1 := if n ≤ 1 then BitVec.ofNat 128 (regGet 0xB010 s).toNat else 0
    if regBit 0xB00C n s then postEvt .both 0xB001 (wfield n 0) d1 s else s

/-- A bank is retired (R519). -/
def bankRetired (b : Nat) (s : State) : Bool := s.units.banks.getLsbD b

/-- Retire a bank (R519). -/
def retireBank (b : Nat) (s : State) : State :=
  if bankRetired b s then s
  else
    let s := { s with units := { s.units with banks := s.units.banks ||| (1 <<< b) } }
    let s := flashErr 5 (setDegraded 6 (recordRetired 9 s.units.banks.toNat s))
    postEvt .both 0xB002 (wfield b 0) 0 s

/-! ### Reading (R501 to R504) -/

/-- A read of the 64-bit word at an address: uncorrectable or not, with what the controller counts and reports. -/
def flashSense (a : Nat) (s : State) : Bool × State :=
  match assocGet (a / 8) s.flash.weak with
  | none => (false, s)
  | some n =>
    if inParamArea a then (false, bump 0xB10C 1 s)
    else if n = 0 then (false, bump 0xB100 1 s)
    else
      let s := bump 0xB104 (min n 4) (regSet 0xB010 (BitVec.ofNat 32 (a / 8 * 8)) s)
      if n ≤ 4 then (false, flashErr 0 s)
      else
        let s := flashErr 1 (bump 0xB108 1 s)
        let b := partOf a
        let s := s.modFlash fun f => if b = 0 then { f with uncorr0 := f.uncorr0 + 1 } else { f with uncorr1 := f.uncorr1 + 1 }
        let k := if b = 0 then s.flash.uncorr0 else s.flash.uncorr1
        (true, if k = 4 then retireBank b s else s)

/-- A partition programs or erases: reads of it wait (R501). -/
def partBusy (p : Nat) (s : State) : Bool :=
  (busyOp p s).isSome || (decide (p = 2) && (s.dev.markBusy.isSome || s.cipher.nonceBusy.isSome))

/-! ### Flash operations (R505 to R509, R512, R514, R515) -/

/-- An address lies in a main sector. -/
def inMain (a : Nat) : Bool := inFlash a && !inParamArea a

/-- An address lies in parameter sectors 2 to 5. -/
def inRing (a : Nat) : Bool := decide (0x08804000 ≤ a ∧ a < 0x0880C000)

/-- Partition an operation targets: by its kind, and for main sectors by the bank of its address (log 13). -/
def opPart (op a : Nat) : Nat := if op = 1 ∨ op = 3 then (if a < 0x08800000 then 0 else 1) else 2

/-- The operation, address, length and alignment agree with Table 15-6, and the bank is in service. -/
def opOk (op a len src : Nat) (s : State) : Bool :=
  let srcOk := fun n => src % 4 == 0 && inSram src && inSram (src + n - 1)
  if op = 1 then inMain a && a % 256 == 0 && decide (1 ≤ len ∧ len ≤ 16 ∧ a % 0x40000 + 256 * len ≤ 0x40000) && srcOk (256 * len)
    && !bankRetired (opPart op a) s
  else if op = 2 then inRing a && a % 4 == 0 && decide (1 ≤ len ∧ len ≤ 16 ∧ a % 0x2000 + 4 * len ≤ 0x2000) && srcOk (4 * len)
  else if op = 3 then inMain a && len == 0 && !bankRetired (opPart op a) s
  else if op = 4 then inRing a && len == 0
  else
    let k := natAt (sramRead src 4 s) 3 1
    a == 0 && len == 0 && srcOk 8 && decide (0x10 ≤ k ∧ k ≤ 0x14)

/-- First address of an image slot. -/
def imageBase (n : Nat) : Nat := if n = 0 then 0x08000000 else 0x08840000

/-- An address in the image slot that holds the running image, while the E9 is in MAINTAIN (R117; log 122). -/
def inRunning (a : Nat) (s : State) : Bool :=
  s.dev.mode == .maintain && match s.warden.running with
    | some n => decide (imageBase n ≤ a ∧ a < imageBase n + 24 * 0x40000)
    | none => false

/-- A core fetched from a bank in the last 64 Warden cycles (R515). -/
def fetchedLately (b : Nat) (s : State) : Bool :=
  (List.range 4).any fun n => decide ((if b = 0 then (coreGet n s).since0 else (coreGet n s).since1) < 64)

/-- Data bytes an operation copies from SRAM. -/
def opLenBytes (op len : Nat) : Nat := if op = 1 then 256 * len else if op = 2 then 4 * len else if op = 5 then 8 else 0

/-- The words of a byte list. -/
def wordsOf (bs : List Byte) : List Nat := (chunks 4 bs).map leNat

/-- Every row or word an operation targets can be programmed (R505, R506). -/
def cellsAllow (op a : Nat) (data : List Byte) (s : State) : Bool :=
  if op = 1 then (List.range (data.length / 256)).all fun i => rowErased (a + 256 * i) s
  else if op = 2 then ((wordsOf data).mapIdx fun i v => wordAllows (a + 4 * i) v s).all id
  else true

/-- Write a result register, set `DONE` and raise interrupt 0x15 on the issuing core (R515). -/
def flashResult (p n : Nat) (st : Status) (s : State) : State :=
  let s := regSet (0xB030 + 4 * p) (wbit true 31 ||| wfield n 16 ||| wfield st.code 0) s
  coreMod n (fun k => { k with ipend := k.ipend ||| 0x20 }) s

/-- A `FLASH_CMD` write of core `n` (R514, R515). -/
def flashCmd (n op len : Nat) (s : State) : State :=
  if op = 0 ∨ 5 < op then s
  else
    let a := (coreGet n s).flashAddr.toNat
    let src := (coreGet n s).flashSrc.toNat
    let p := opPart op a
    if partBusy p s then flashErr 2 s
    else if !opOk op a len src s then flashResult p n .badParam s
    else if p ≠ 2 ∧ (fetchedLately p s ∨ inRunning a s) then flashResult p n .flashSameBank s
    else
      let data := sramRead src (opLenBytes op len) s
      if !cellsAllow op a data s then flashResult p n .progNotErased s
      else
        let (g, s) := if op = 3 ∨ op = 4 then openFlag (sectorNum a) s else (0, s)
        setBusy p (some ⟨op, n, a, data, g⟩) s

/-- Program main rows. -/
def progRows (a : Nat) : List (List Byte) → State → State
  | [], s => s
  | r :: rs, s => progRows (a + 256) rs (progRow a r s)

/-- Note words that will not read clean. -/
def weaken (ws : List (Nat × Nat)) (s : State) : State :=
  s.modFlash fun f => { f with weak := ws.foldl (fun m w => assocSet w.1 (some w.2) m) f.weak }

/-- Bytes of a program that has failed its verify or that power loss has cut short: each bit as programmed or left as it was, freely
(R507; log 133). -/
def mixBytes (data free : List Byte) : List Byte := List.zipWith (· ||| ·) data free

/-- The bytes a program leaves, with its verify passed or failed. -/
def programmed (ok : Bool) (data : List Byte) (s : State) : List Byte × State :=
  if ok then (data, s)
  else
    let (fb, s) := drawBytes data.length s
    (mixBytes data fb, s)

/-- What a failed erase leaves of a range: each programmed bit erased or not, freely (R508; log 133). -/
def eraseFail (a n : Nat) (s : State) : State :=
  let (fb, s) := drawBytes s.flash.cells.length s
  s.modFlash fun f => { f with
    cells := ((f.cells.zip fb).map fun x => if a ≤ x.1.1 ∧ x.1.1 < a + n then (x.1.1, x.1.2 ||| x.2) else x.1).filter fun c => c.2 != 0xFF }

/-- A record that has failed its verify takes up the next slot of the log sector in use, its words free (R512; log 133). -/
def tornRecord (s : State) : State :=
  let x := logSector s
  let i := (usedSlots x s).foldl (fun m n => max m (n + 1)) 0
  if i < 512 then
    let (fb, s) := drawBytes 16 s
    progWords (slotAddr x i) (wordsOf fb) s
  else s

/-- What an operation has done when it ends with its verify passed or failed (R507, R508). -/
def opEffect (o : FlashOp) (ok : Bool) (s : State) : State :=
  if o.op = 1 then
    let (d, s) := programmed ok o.data s
    bump 0xB11C (o.data.length / 256) (progRows o.addr (chunks 256 d) s)
  else if o.op = 2 then
    let (d, s) := programmed ok o.data s
    progWords o.addr (wordsOf d) s
  else if o.op = 5 then
    let w := leNat (o.data.take 4)
    logRecord (w / 2 ^ 24) (w % 2 ^ 24 * 2 ^ 32 + leNat (o.data.drop 4)) s
  else if ok then
    let r := sectorRange (sectorNum o.addr)
    bump 0xB118 1 (closeFlag o.flag (eraseRange r.1 r.2 s))
  else
    let r := sectorRange (sectorNum o.addr)
    let s := eraseFail r.1 r.2 s
    if o.op = 3 then retireBank (partOf o.addr) s else s

/-- End of the operation in progress in a partition: its verify has passed or failed, and `weak` are words that read badly. A record that
fails its verify is written again in the next slot: the operation goes on (R512). -/
def flashEnd (p : Nat) (ok : Bool) (weak : List (Nat × Nat)) (s : State) : State :=
  match busyOp p s with
  | none => s
  | some o =>
    if !ok && o.op == 5 then tornRecord s else
    let s := weaken weak (opEffect o ok (setBusy p none s))
    let s := if ok then s else flashErr 3 s
    flashResult p o.core (if ok then .ok else .internalFault) s

/-- FLASH_OP_DONE: the operation of a partition ends (R515). -/
def execFlashOpDone (p : Fin 3) (ok : Bool) (weak : List (Nat × Nat)) (s : State) : Out := .next <| flashEnd p.val ok weak s

/-- A `FLASH_CMD` write by a core that may reach the CSR space (R49, R514). -/
def flashOpRow (n : Fin 4) (op len : Nat) (s : State) : State :=
  if s.dev.mainOn && coreServes n.val s && decide ((coreGet n.val s).level ≠ 0) then flashCmd n.val op len s else s

/-- PROG_ROWS: core `n` starts a program of `len` main rows (R505). -/
def execProgRows (n : Fin 4) (len : BitVec 5) (s : State) : Out := .next <| flashOpRow n 1 len.toNat s
/-- PROG_WORDS: core `n` starts a program of `len` parameter words (R506). -/
def execProgWords (n : Fin 4) (len : BitVec 5) (s : State) : Out := .next <| flashOpRow n 2 len.toNat s
/-- ERASE_MAIN: core `n` starts the erase of a main sector (R508). -/
def execEraseMain (n : Fin 4) (len : BitVec 5) (s : State) : Out := .next <| flashOpRow n 3 len.toNat s
/-- ERASE_PARAM: core `n` starts the erase of a parameter sector (R508). -/
def execEraseParam (n : Fin 4) (len : BitVec 5) (s : State) : Out := .next <| flashOpRow n 4 len.toNat s
/-- RECORD_WRITE: core `n` starts the write of a record (R512). -/
def execRecordWrite (n : Fin 4) (len : BitVec 5) (s : State) : Out := .next <| flashOpRow n 5 len.toNat s

/-! ### Images (R517, R518) -/

/-- `FLASH_STATUS.ACTIVE_SLOT`: the slot of the latest `IMAGE_ACTIVE` record, or slot 0. -/
def activeSlot (s : State) : Nat := match latestRec 0x10 s with
  | some r => r.data % 2
  | none => 0

/-- Bytes of an image slot. -/
def imageSize : Nat := 0x600000

/-- A field of an image's header. -/
def imageField (n off k : Nat) (s : State) : Nat := leNat (flashRead (imageBase n + off) k s)

/-- The image in a slot passes its check, given whether its signature verifies under the Zarjan firmware key, which only the boot
ROM holds (R517). -/
def imagePasses (n : Nat) (sig : Bool) (s : State) : Bool :=
  let len := imageField n 8 4 s
  flashRead (imageBase n) 4 s == [0x5A, 0x4A, 0x46, 0x57] && len % 256 == 0 && decide (64 ≤ len ∧ len ≤ 6286592)
    && flashRead (imageBase n + 16) 32 s == sha256 (flashRead (imageBase n + 64) (len - 64) s) && sig
    && (s.dev.recovery || decide (imageField (activeSlot s) 4 4 s ≤ imageField n 4 4 s))

/-- A slot is erased. -/
def imageErased (n : Nat) (s : State) : Bool :=
  let b := imageBase n
  !(s.flash.cells.any fun c => decide (b ≤ c.1 ∧ c.1 < b + imageSize))
    && !(s.flash.marked.any fun r => decide (b / 256 ≤ r ∧ r < (b + imageSize) / 256))

/-- `SLOT` of an `IMAGE_LOAD`: 0xFF names the slot without the active image. -/
def loadSlot (c : Cmd) (s : State) : Nat :=
  let v := c.inlNat 49 1
  if v = 0xFF then 1 - activeSlot s else v

/-- `IMAGE_LOAD` (Table 15-8). -/
def imageLoadSpec : OpSpec :=
  { noKeys with
    lens := fun c =>
      if c.inlNat 48 1 = 1 then (if c.srcLen ≠ 0 then some (Ending.st .badLength) else none)
      else if c.inlNat 48 1 = 2 then
        (if c.srcLen < 256 ∨ c.srcLen % 256 ≠ 0 ∨ imageSize < c.inlNat 52 4 + c.srcLen then some (Ending.st .badLength) else none)
      else none
    params := fun c s =>
      let fn := c.inlNat 48 1
      let v := c.inlNat 49 1
      if c.keyA ≠ 0 ∨ c.keyB ≠ 0 ∨ !(fn == 1 || fn == 2) ∨ !(v == 0 || v == 1 || v == 0xFF) ∨ (fn = 2 ∧ c.inlNat 52 4 % 256 ≠ 0)
        ∨ (!s.dev.recovery ∧ loadSlot c s = activeSlot s) ∨ bankRetired (loadSlot c s) s then some .badParam else none }

/-- Erase the sectors of a slot. -/
def eraseImage (n : Nat) (s : State) : State :=
  (List.range 24).foldl (fun s i => bump 0xB118 1 (eraseSector (if n = 0 then i else 0x101 + i) s)) s

/-- The body of both functions of `IMAGE_LOAD`; the target bank is not one from which a core fetches (R515, R518), nor the slot of the
running image (R117; log 122). -/
def imageLoad (ok : Bool) (c : Cmd) (s : State) : State :=
  let n := loadSlot c s
  if partBusy n s then s
  else if fetchedLately n s || s.warden.running == some n then finishSt c .flashSameBank s
  else if c.inlNat 48 1 = 1 then
    if ok then finishSt c .ok (eraseImage n s)
    else finishSt c .internalFault (flashErr 3 (retireBank n (eraseFail (imageBase n) imageSize s)))
  else
    let a := imageBase n + c.inlNat 52 4
    if !cellsAllow 1 a c.data s then finishSt c .progNotErased s
    else
      let (d, s) := programmed ok c.data s
      let s := bump 0xB11C (c.srcLen / 256) (progRows a (chunks 256 d) s)
      if ok then finishSt c .ok s else finishSt c .internalFault (flashErr 3 s)

/-- A command names a function of `IMAGE_LOAD`. -/
def namesFn (id fn : Nat) (s : State) : Bool := match cmdGet id s with
  | some c => c.inlNat 48 1 == fn
  | none => false

/-- IMAGE_LOAD_ERASE: erases the 24 sectors of a slot; `ok`: the erases verify (R518). A function other than 0x01 and 0x02 fails
here too. -/
def execImageLoadErase (id : Nat) (ok : Bool) (s : State) : Out := .next <|
  if namesFn id 2 s then s else runOp imageLoadSpec 0x0033 id (imageLoad ok) s

/-- IMAGE_LOAD_WRITE: programs rows of a slot; `ok`: the programs verify (R518). -/
def execImageLoadWrite (id : Nat) (ok : Bool) (s : State) : Out := .next <|
  if namesFn id 2 s then runOp imageLoadSpec 0x0033 id (imageLoad ok) s else s

/-- The 16 bytes of one slot in `IMAGE_STATUS`. -/
def imageState (n : Nat) (sig : Bool) (s : State) : List Byte :=
  let st := if n = activeSlot s then 3 else if imageErased n s then 0 else if imagePasses n sig s then 2 else 1
  le 4 st ++ flashRead (imageBase n + 4) 4 s ++ flashRead (imageBase n + 8) 4 s ++ flashRead (imageBase n + 16) 4 s

/-- IMAGE_STATUS; `sig0`, `sig1`: whether the signature of each slot's image verifies (R518). -/
def execImageStatus (id : Nat) (sig0 sig1 : Bool) (s : State) : Out := .next <| runOp { noKeys with
    lens := fun c => needDst 32 c
    params := fun c _ => if c.keyA ≠ 0 ∨ c.keyB ≠ 0 ∨ !allZero c.inl then some .badParam else none } 0x0034 id
  (fun c s => finish c (Ending.out (imageState 0 sig0 s ++ imageState 1 sig1 s)) s) s

/-- What `FLASH_STATUS` reads (Table 15-12). -/
def flashStatus (s : State) : Word :=
  wbit (partBusy 2 s) 31 ||| wbit s.flash.busy1.isSome 30 ||| wbit s.flash.busy0.isSome 29
    ||| wbit (s.dev.markBusy.isSome || s.cipher.nonceBusy.isSome) 28 ||| wfield s.units.banks.toNat 24
    ||| wfield (flagSector s) 16 ||| wfield (logSector s) 8 ||| wfield (activeSlot s) 0

end Sys2Proof.Machine
end

