-- ==== Sys2Proof/Machine/Traps.lean ====
section
/-! DEFINITION. Traps, returns and the MPU of a Warden core (chapter 14), and the ends of an invocation (R462 to R464). -/
namespace Sys2Proof.Machine

/-! ### Errors and retirement (R468) -/

/-- A bit of `WARDEN_ERR`, with core and applet where known (Table 13-16). -/
def wardenErr (n core applet : Nat) (s : State) : State :=
  raiseErr 0xA010 0xA014 0xA001 n (wfield applet 16 ||| wfield core 8 ||| wfield n 0) s

/-- Retire a core (R114, R468). -/
def retireCore (n : Nat) (s : State) : State :=
  if s.units.cores.getLsbD n then s
  else
    let s := { s with units := { s.units with cores := s.units.cores ||| (1 <<< n) } }
    let s := wardenErr 1 n 0 (setDegraded 4 (recordRetired 6 s.units.cores.toNat s))
    postEvt .both 0xA002 (wfield (coresUp s) 4 ||| wfield n 0) 0 s

/-! ### How an invocation ends (R462, R464, Table 13-11) -/

/-- The status of a 32-bit value, where it is one of Table 5-9. -/
def statusOfWord (w : Word) : Option Status :=
  [Status.ok, .batchSealed, .badOpcode, .badForm, .badLength, .modeForbids, .badParam, .keyHandleStale, .keyUsageDenied,
   .keyColourMismatch, .sharesExhausted, .keyExpired, .counterWouldWrap, .verifyFailed, .abortedDisabled, .abortedAlarm,
   .furrowNotQuiesced, .quotaExceeded, .entropyUnavailable, .cartridgeIndeterminate, .cartridgeRetired, .flashSameBank,
   .progNotErased, .fieldTooWeak, .quorumNotMet, .linkDown, .dmaFault, .internalFault].find? fun st => decide (st.code = w.toNat)

/-- An end of an invocation or hook. -/
inductive InvEnd where
  /-- Service `EXIT` with w1, w2 and the inline result. -/
  | exit (w1 w2 : Word) (res : List Byte)
  /-- An exception at A level. -/
  | fault
  /-- The budget is spent. -/
  | budget
  /-- The core restarted, or the monitor ends the command (R478). -/
  | restart
  deriving DecidableEq, Repr

/-- An invocation that has debited ends with `VERIFY_FAILED`, the applet's status in inline bytes 20–21 (Table 13-11); where the
applet gave none, those bytes are free (log 45). -/
def endDebited (c : Cmd) (st : Option Nat) (s : State) : State := match st with
  | some v => finish c ⟨.verifyFailed, 0, le 2 v, [], []⟩ s
  | none => finish c ⟨.verifyFailed, 0, le 2 (drawNat s).1, [], []⟩ (drawNat s).2

/-- End of an invocation by fault: `APPLET_FAULT`. -/
def invokeFault (n : Nat) (i : Invocation) (c : Cmd) (st : Option Nat) (s : State) : State :=
  let s := wardenErr 2 n i.applet s
  if i.debited then endDebited c st s else finishSt c .internalFault s

/-- End of an `APPLET_INVOKE` (Table 13-11). -/
def invokeEnd (n : Nat) (i : Invocation) (c : Cmd) (e : InvEnd) (s : State) : State :=
  match e with
  | .fault => invokeFault n i c none s
  | .budget =>
    let s := wardenErr 3 n i.applet s
    if i.debited then endDebited c none s else finishSt c .quotaExceeded s
  | .restart => if i.debited then endDebited c none s else finishSt c .internalFault s
  | .exit w1 w2 res => match statusOfWord w1 with
    | none => invokeFault n i c (some (w1.toNat % 65536)) s
    | some st =>
      if i.cap < w2.toNat ∨ st = .batchSealed ∨ st.severity = 12 then invokeFault n i c (some st.code) s
      else if st.severity = 8 then (if i.debited then endDebited c (some st.code) s else finishSt c st s)
      else finish c ⟨st, w2.toNat, res, sramRead i.out w2.toNat s, []⟩ s

/-- End of a policy hook (R464). -/
def hookEnd (n : Nat) (i : Invocation) (c : Cmd) (e : InvEnd) (s : State) : State :=
  let bad := fun (s : State) => finishSt c .internalFault (wardenErr 2 n i.applet s)
  match e with
  | .fault => bad s
  | .budget => finishSt c .quotaExceeded (wardenErr 3 n i.applet s)
  | .restart => finishSt c .internalFault s
  | .exit w1 w2 _ =>
    if w2 ≠ 0 then bad s
    else if w1 = 0 then
      match nextHook c c.hookStep s with
      | some (_, k) => startHook c.id (cmdPut { c with scratch := [k] } s)
      | none => s
    else match statusOfWord w1 with
      | some st => if st.severity = 8 then finishSt c st s else bad s
      | none => bad s

/-- The invocation on a core ends; the core is free again, and commands that wait for one start their hooks. -/
def endInv (n : Nat) (e : InvEnd) (s : State) : State :=
  match (coreGet n s).inv with
  | none => s
  | some i =>
    let s := coreMod n (fun k => { k with inv := none }) s
    let s := match i.call with
      | some (id, _) => cmdDrop id s
      | none => s
    let s := match cmdGet i.cmd s with
      | none => s
      | some c => if i.hook then hookEnd n i c e s else invokeEnd n i c e s
    pumpHooks (pruneApplets s)

/-! ### Trap entry (R474 to R478) -/

/-- Where a trap goes (Table 14-1): 3 M, 1 S, none for the machine restart. -/
def trapTarget (code level : Nat) (gm : Bool) : Option Nat :=
  if code < 0x10 then
    if gm then (if level = 3 then none else some 3)
    else if code = 8 ∨ level = 3 then some 3
    else if level = 1 ∧ code = 9 then some 3
    else some 1
  else if code = 0x18 ∨ level = 3 then some 3
  else some 1

/-- Steps 2 to 7 of R475 on the core; with no target, steps 2 to 5. -/
def trapCore (code : Nat) (tval : Word) (ds : Bool) (ret : Word) (k : Core) : Core :=
  let gm := k.masked
  let target := trapTarget code k.level gm
  let k := if code = 8 ∨ gm then { k with fstatus := k.status, fepc := k.epc, fcause := k.cause, ftval := k.tval } else k
  let k := if code = 8 then k else { k with slc := k.lc, sls := k.ls, sle := k.le }
  let k := { k with lc := 0, epc := (ret &&& 0xFFFFFFFC) ||| wbit gm 0, cause := wbit ds 31 ||| wfield code 0, tval := tval }
  match target with
  | none => k
  | some t => { k with
      status := statusOf true k.level t
      pc := if t = 3 then k.mtvec else k.stvec
      slot := none
      waiting := false }

/-- A machine restart at RTC time `now`: the core resets, the F bank stays, and pending interrupt sources stay pending (R470,
R477). -/
def restartCore (now : Nat) (k : Core) : Core :=
  { resetCore false with
    fstatus := k.fstatus, fepc := k.fepc, fcause := k.fcause, ftval := k.ftval, ipend := k.ipend
    flashAddr := k.flashAddr, flashSrc := k.flashSrc, since0 := k.since0, since1 := k.since1
    restarts := now :: (k.restarts.filter fun t => decide (now < t + 32768)) }

/-- RTC time in 1/32,768 s. -/
def rtcNow (s : State) : Nat := s.backup.rtcSec * 32768 + s.backup.rtcFrac

/-- Take a trap on a core (R474 to R478); the wait of step 1 is over. -/
def takeTrap (n code : Nat) (tval : Word) (ds : Bool) (ret : Word) (s : State) : State :=
  let k := coreGet n s
  let s := bump 0xA108 1 s
  match trapTarget code k.level k.masked with
  | none =>
    let s := coreMod n (fun k => restartCore (rtcNow s) (trapCore code tval ds ret { k with inv := none })) (endInv n .restart (wardenErr 0 n 0 s))
    if 3 ≤ (coreGet n s).restarts.length then retireCore n s else s
  | some _ =>
    let s := coreMod n (trapCore code tval ds ret) s
    if code = 8 then endInv n .restart (wardenErr 0 n 0 s)
    else if k.inv.isSome ∧ k.level = 0 ∧ code < 0x10 then
      if code ≠ 9 then endInv n .fault s
      else if 6 < tval.toNat then svcReturn n .badOpcode none none none (bump 0xA114 1 s)
      else s
    else s

/-! ### Late writes (R496 to R499) -/

/-- A refused store of a core waits to be reported. -/
def storeLate (k : Core) : Option Word := k.late.find? fun t => !t.getLsbD 5

/-- Take a `LATE_WRITE`: stores refused meanwhile are dropped, DMA refusals are not (R498). -/
def takeLate (n : Nat) (tval ret : Word) (s : State) : State :=
  takeTrap n 7 tval false ret (coreMod n (fun k => { k with late := (k.late.erase tval).filter (·.getLsbD 5) }) s)

/-- The address that names the current instruction on return: its branch when it stands in a delay slot (R482). -/
def Core.here (k : Core) : Word := match k.slot with
  | some (b, _) => b
  | none => k.pc

/-- A trap that waits first (step 1 of R475): a store found refused displaces it (R497). -/
def trapOrLate (n code : Nat) (tval : Word) (ds : Bool) (ret displaced : Word) (s : State) : State :=
  match storeLate (coreGet n s) with
  | some t => takeLate n t displaced s
  | none => takeTrap n code tval ds ret s

/-- A precise exception of the current instruction (R476, R482). -/
def raiseExc (n code : Nat) (tval : Word) (s : State) : State :=
  let k := coreGet n s
  trapOrLate n code tval k.slot.isSome k.here k.here s

/-! ### The address map and the MPU (R438, R489 to R493) -/

/-- Kinds of access. -/
inductive Access where
  | fetch | load | store | atomic
  deriving DecidableEq, Repr

/-- An address lies in the CSR window. -/
def inWindow (a : Nat) : Bool := decide (0x20000000 ≤ a ∧ a < 0x20200000)

/-- An address lies in the boot ROM. -/
def inRom (a : Nat) : Bool := decide (a < 0x40000)

/-- The address map admits an access of `size` bytes at a level (Table 13-1, R444). -/
def mapAdmits (x : Access) (level a size : Nat) : Bool :=
  if inRom a then level == 3 && (x == .fetch || x == .load)
  else if inFlash a then x == .load || (x == .fetch && !inParamArea a)
  else if inSram a then true
  else if inWindow a then level == 0 && x != .fetch || ((x == .load || x == .store) && size == 4)
  else false

/-- A region matches an address (R489). -/
def Region.hits (r : Region) (a : Nat) : Bool := r.attr.getLsbD 16 && decide (r.base.toNat / 64 ≤ a / 64 ∧ a / 64 ≤ r.lim.toNat / 64)

/-- The deciding region: the lowest-numbered one that matches (R489). -/
def deciding (rs : List Region) (a : Nat) : Option (Nat × Region) :=
  ((List.range rs.length).zip rs).find? fun x => x.2.hits a

/-- Permission bits an access needs at A, S or M level (Table 14-4), as a mask of `ATTR`. -/
def needs (x : Access) (level : Nat) : Word :=
  match x with
  | .fetch => if level = 0 then 0x4 else if level = 1 then 0x20 else 0x40
  | .load => if level = 0 then 0x1 else if level = 1 then 0x8 else 0
  | .store => if level = 0 then 0x2 else if level = 1 then 0x10 else 0
  | .atomic => if level = 0 then 0x3 else if level = 1 then 0x18 else 0

/-- What the MPU says of an access: refused, or admitted with the region whose colour check applies. -/
inductive MpuAns where
  | refused
  | admitted (check : Option (Nat × Nat))
  deriving DecidableEq, Repr

/-- The core MPU (R471, R490, R491). -/
def mpuCheck (k : Core) (x : Access) (a : Nat) : MpuAns :=
  let level := k.level
  if level = 3 ∧ x ≠ .fetch then .admitted none
  else if !k.mpuctl.getLsbD 0 then (if level = 0 then .refused else .admitted none)
  else match deciding k.mpu a with
    | none => .refused
    | some (i, r) =>
      let need := needs x level
      if r.attr &&& need ≠ need then .refused
      else .admitted (if r.attr.getLsbD 7 && level != 3 then some (i, fieldOf r.attr 11 8) else none)

/-- The colour check of an admitted access: the region that refuses it (R491). -/
def colourRefuses (m : MpuAns) (a : Nat) (s : State) : Option Nat := match m with
  | .admitted (some (i, c)) => if lineColour a s = c then none else some i
  | _ => none

/-! ### Fetch and data access (R488) -/

/-- Answer of a fetch or load. -/
inductive MemAns (α : Type) where
  | ok (v : α) (s : State)
  | exc (code : Nat) (tval : Word) (s : State)
  /-- It waits: nothing changes yet. -/
  | wait

/-- Checks 1 to 3 of R488 on the fetch at the pc, and the bank it fetches from (R515). -/
def fetchCheck (n : Nat) (s : State) : MemAns Unit :=
  let k := coreGet n s
  let a := k.pc.toNat
  let m := mpuCheck k .fetch a
  if m = .refused then .exc 2 k.pc s
  else if (colourRefuses m a s).isSome then .exc 5 k.pc s
  else if !mapAdmits .fetch k.level a 4 then .exc 0xA k.pc s
  else
    let aged := coreMod n (fun k => { k with
      since0 := if inFlash a && partOf a == 0 then 0 else min 64 (k.since0 + 1)
      since1 := if inFlash a && partOf a == 1 then 0 else min 64 (k.since1 + 1) }) s
    if inFlash a then
      if partBusy (partOf a) s then .wait
      else match flashSense a aged with
        | (true, s) => .exc 0xA k.pc s
        | (false, s) => .ok () s
    else .ok () aged

/-- Checks 5 to 8 of R488 on a data access of `size` bytes: the exception to raise, or none with the region that refuses a
store's colour. -/
def dataCheck (k : Core) (x : Access) (a size : Nat) (s : State) : Option Nat × Option Nat :=
  if a % size ≠ 0 then (some 6, none)
  else if !mapAdmits x k.level a size then (some 0xA, none)
  else
    let m := if k.level = 0 ∧ inWindow a then .refused else mpuCheck k x a
    if m = .refused then (some (if x = .load then 3 else 4), none)
    else match colourRefuses m a s with
      | none => (none, none)
      | some i => if x = .store then (none, some i) else (some 5, none)

/-- A load of `size` bytes outside the CSR window: boot ROM content is a free value (log 46), flash reads may wait or fail. -/
def loadMem (a size : Nat) (s : State) : MemAns Nat :=
  if inSram a then .ok (leNat (sramRead a size s)) s
  else if inFlash a then
    if partBusy (partOf a) s then .wait
    else match flashSense a s with
      | (true, s) => .exc 0xA (BitVec.ofNat 32 a) s
      | (false, s) => .ok (leNat (flashRead a size s)) s
  else
    let (v, s) := drawNat s
    .ok (v % 2 ^ (8 * size)) s

/-- `TVAL` of a `LATE_WRITE` (Table 14-6). -/
def lateTval (a : Nat) (dma read : Bool) (region : Nat) : Word :=
  wfield (a / 64) 6 ||| wbit dma 5 ||| wbit read 4 ||| wfield (region % 16) 0

/-- Note a refused access of a core. -/
def addLate (n : Nat) (t : Word) (s : State) : State := coreMod n (fun k => { k with late := k.late ++ [t] }) s

end Sys2Proof.Machine
end

