-- ==== Sys2Proof/Machine/AppletCmds.lean ====
section
/-! DEFINITION. The class 0xA opcodes (R457 to R461). -/
namespace Sys2Proof.Machine

/-- A package's header is good (Table 13-8). Entries are word aligned and lie in the code (log 42). -/
def headerOk (p : List Byte) : Bool :=
  let f := natAt p
  let entryOk := fun (e : Nat) => e == 0xFFFFFFFF || (decide (e < f 12 4) && e % 4 == 0)
  bytesAt p 0 4 == [0x5A, 0x4A, 0x41, 0x50] && f 4 2 == 1 && f 6 2 != 0 && f 8 4 != 0 && f 12 4 % 4 == 0 && f 24 4 % 16 == 0
    && decide (1024 ≤ f 24 4) && entryOk (f 28 4) && entryOk (f 32 4) && f 38 2 == 0 && decide (f 40 2 ≤ 4096 ∧ f 42 2 ≤ 4096)
    && f 44 2 != 0 && f 46 2 != 0 && allZero (bytesAt p 48 16) && decide (64 + f 12 4 + f 16 4 ≤ p.length)

/-- Highest `VERSION` installed of an applet number since PROVISION (R458). -/
def versionFloor (n : Nat) (s : State) : Nat := (assocGet n s.vault.archive.versions).getD 0

/-- Length of a package's signature by the authority's `ALG`. -/
def pkgSigLen (alg : Nat) : Nat := if alg = 0x26 then 3309 else 4627

/-- The package's signature verifies under `KEY_A` (R454). -/
def pkgVerifies (c : Cmd) (s : State) : Bool :=
  let n := 64 + natAt c.data 12 4 + natAt c.data 16 4
  let alg := c.keyAlg c.keyA s
  c.data.length == n + pkgSigLen alg && dsaVerify (dsaSet alg) (c.keyMat c.keyA s) [] (c.data.take n) (c.data.drop n)

/-- An install or removal of another command waits for the vault: they run one at a time (log 42). -/
def appletBusy (id : Nat) (s : State) : Bool :=
  s.cmdif.cmds.any fun c => c.id != id && (c.opcode == 0xA001 || c.opcode == 0xA002) && c.waitSeg.isSome

/-- Insert an applet by number; an ended image of the same number stays beside it. -/
def insertApplet (a : Applet) : List Applet → List Applet
  | [] => [a]
  | x :: xs => if a.num < x.num then a :: x :: xs else x :: insertApplet a xs

/-- The image in SRAM: the code and the exit stub's `trap 0x0000` in the line after it (R455, R461, log 42). -/
def loadImage (a : Applet) (s : State) : State :=
  s.modWarden fun w => { w with
    sram := cellsWrite 0 (a.base + up64 a.codeLen) (le 4 0xFC000001) (cellsWrite 0 a.base a.code (cellsClear a.base a.imageLen w.sram))
    tags := w.tags.filter fun t => !decide (a.base / 64 ≤ t.1 ∧ t.1 < (a.base + a.size) / 64) }

/-- End the installed image of a number at a tally. -/
def endImage (num t : Nat) (s : State) : State :=
  s.modWarden fun w => { w with applets := w.applets.map fun a => if a.num = num ∧ a.ended.isNone then { a with ended := some t } else a }

/-- Put an applet in place from tally `t` on. -/
def placeApplet (pkg : List Byte) (base t : Nat) (s : State) : State :=
  let a : Applet := ⟨natAt pkg 6 2, pkg, base, t, none⟩
  let s := endImage a.num t s
  (loadImage a s).modWarden fun w => { w with applets := insertApplet a w.applets }

/-- `APPLET_INSTALL` (Table 13-9). -/
def installSpec : OpSpec :=
  { noKeys with
    lens := fun c => if c.srcLen = 0 then some (Ending.st .badLength) else none
    params := fun c s => badUnless (c.keyA != 0 && c.keyB == 0 && allZero c.inl && headerOk c.data
      && decide (versionFloor (natAt c.data 6 2) s < natAt c.data 8 4))
    keys := fun c _ => [(c.keyA, role (usageBits [17]) [0x26, 0x27])] }

/-- The install's commit (R459): the new image serves commands dispatched from the completion's tally on. -/
def installCommit (c : Cmd) (s : State) : State :=
  let num := natAt c.data 6 2
  let e := Ending.inline (le 2 num ++ [0, 0] ++ le 4 (natAt c.data 8 4))
  match placeFor (Applet.size ⟨num, c.data, 0, 0, none⟩) s with
  | none => finishSt c .quotaExceeded s
  | some b =>
    let s := placeApplet c.data b (cplTally c e s + 1) s
    let s := finish c e s
    let s := postEvt .both 0xA003 (wfield num 0) (BitVec.ofNat 128 (natAt c.data 8 4)) s
    pumpHooks (pruneApplets s)

/-- APPLET_INSTALL verifies a package, writes it to the vault, and installs it (R457 to R460). -/
def execAppletInstall (id : Nat) (s : State) : Out := .next <| runOp installSpec 0xA001 id (fun c s =>
  match c.waitSeg with
  | some seg => if durable seg s then installCommit c s else s
  | none =>
    let num := natAt c.data 6 2
    if appletBusy c.id s then s
    else if !pkgVerifies c s then finishSt c .verifyFailed s
    else if natAt c.data 8 4 ≤ versionFloor num s then finishSt c .badParam s
    else if (!appletInstalled num s && decide (64 ≤ (appletsNow s).length))
        || (placeFor (Applet.size ⟨num, c.data, 0, 0, none⟩) s).isNone then finishSt c .quotaExceeded s
    else if !vaultAccepts s then finishSt c .modeForbids s
    else
      let (seg, s) := archiveSync .archive (.applet num c.data) s
      cmdPut { c with waitSeg := some seg } s) s

/-- LIVE records that name an applet. -/
def keysNaming (n : Nat) (s : State) : Nat :=
  (s.keytab.slots.filter fun p => p.2.state == .live && (match p.2.entry with
    | some r => r.applet == n
    | none => false)).length

/-- APPLET_REMOVE removes an applet and clears its store (R457, R459, R467). -/
def execAppletRemove (id : Nat) (s : State) : Out := .next <| runOp noKeys 0xA002 id (fun c s =>
  let num := c.inlNat 48 2
  match c.waitSeg with
  | some seg =>
    if durable seg s then
      let s := endImage num (cplTally c (Ending.st .ok) s + 1) s
      pruneApplets (postEvt .both 0xA004 (wfield num 0) 0 (finishSt c .ok s))
    else s
  | none =>
    if appletBusy c.id s then s
    else if !appletInstalled num s then finishSt c .badParam s
    else if keysNaming num s ≠ 0 then finishSt c .furrowNotQuiesced s
    else if !vaultAccepts s then finishSt c .modeForbids s
    else
      let (seg, s) := archiveSync .archive (.appletDel num) s
      cmdPut { c with waitSeg := some seg } s) s

/-- An invocation of a command runs on a core. -/
def invokeRuns (id : Nat) (s : State) : Bool := (List.range 4).any fun n => match (coreGet n s).inv with
  | some i => i.cmd == id
  | none => false

/-- APPLET_INVOKE enters an applet on a free core (R460, R461); its end completes it (R462). -/
def execAppletInvoke (id : Nat) (s : State) : Out := .next <| runOp { noKeys with params := fun _ _ => none } 0xA003 id (fun c s =>
  if invokeRuns c.id s then s
  else match appletAt (c.inlNat 48 2) c.dispTally s with
    | none => if s.keytab.floorsLoaded then finishSt c .badParam s else s
    | some a =>
      if a.inMax < c.srcLen then finishSt c .badLength s
      else match a.entry false with
        | none => finishSt c .badParam s
        | some e => match freeCore s with
          | none => s
          | some n => enterApplet n c a false e s) s

/-- The 16 bytes of one applet in `APPLET_LIST`. -/
def appletEntry (s : State) (a : Applet) : List Byte :=
  le 2 a.num ++ [0, 0] ++ le 4 a.version ++ le 4 (keysNaming a.num s) ++ (sha256 a.pkg).take 4

/-- APPLET_LIST reports the installed applets (R457). -/
def execAppletList (id : Nat) (s : State) : Out := .next <| runOp noKeys 0xA004 id (fun c s =>
  let b := ((appletsNow s).map (appletEntry s)).flatten
  match needDst b.length c with
  | some e => finish c e s
  | none => finish c (Ending.out b) s) s

/-- Reload the installed applets from the archive at power-up (R460): each takes the lowest place, from the next tally on. -/
def reloadApplets (s : State) : State :=
  s.vault.archive.applets.foldl (fun s x =>
    match placeFor (Applet.size ⟨x.1, x.2, 0, 0, none⟩) s with
    | some b => placeApplet x.2 b 0 s
    | none => s) s

/-- Free bytes in the applet half (`WARDEN_APPLET_FREE`). -/
def appletFree (s : State) : Nat := 0x100000 - ((s.warden.applets.map (·.size)).sum)

/-- What `WARDEN_STATUS` reads (Table 13-14). -/
def wardenStatus (s : State) : Word :=
  wfield s.units.cores.toNat 28 ||| wbit (coreWaits 0 s) 24 ||| wbit (coreWaits 1 s) 25 ||| wbit (coreWaits 2 s) 26
    ||| wbit (coreWaits 3 s) 27 ||| wfield (appletsNow s).length 0

end Sys2Proof.Machine
end

