-- ==== Sys2Proof/Machine/Ledger.lean ====
section
/-! DEFINITION. The Cistern ledger's steps (chapter 12): statements, keepers, transfers, draws, settlement, broadcasts applied. -/
namespace Sys2Proof.Machine

/-! ### Statements of this device (R414) -/

/-- This device's incarnation. -/
def ownInc (s : State) : Nat := match s.cistern.cert with
  | some c => c.2.1
  | none => 0

/-- `HELD` of a pool as the statements already formed will leave it. -/
def projHeld (n : Nat) (s : State) : Nat :=
  let h := match poolGet n s with
    | some p => p.held
    | none => 0
  s.cistern.stmts.foldl (fun h p => match p.st.entries.find? (fun e => e.pool == n) with
    | some e => e.held
    | none => h) h

/-- Update a pool. -/
def poolMod (n : Nat) (f : Pool → Pool) (s : State) : State := match poolGet n s with
  | some p => poolSet n (f p) s
  | none => s

/-- Update a pool and archive it. -/
def poolKeep (n : Nat) (f : Pool → Pool) (s : State) : State := match poolGet n s with
  | some p => archive (.pool n (f p)) (poolSet n (f p) s)
  | none => s

/-- The audit record of a lapse (1), draw (2) or burn (3), with its own tally (R433; detail layout: log 64). -/
def ledgerAudit (kind pool amount : Nat) (s : State) : State := auditDev 2 (BitVec.ofNat 8 kind :: (le 4 pool ++ le 8 amount)) s

/-! ### The keeper's side (R415) -/

/-- Statements kept of a device. -/
def keptGet (d : Nat) (s : State) : Option Kept := s.cistern.kept.find? fun k => k.ddn == d

/-- Store the statements kept of a device. -/
def keptSet (k : Kept) (s : State) : State :=
  s.modCistern fun c => { c with
    kept := if c.kept.any (fun x => x.ddn == k.ddn) then updFirst (fun x => x.ddn == k.ddn) (fun _ => k) c.kept else c.kept ++ [k] }

/-- A pool is settled for a kept device; 0 in the list stands for every pool. -/
def Kept.settles (k : Kept) (n : Nat) : Bool := k.settled.contains 0 || k.settled.contains n

/-- A statement that the keeper answers with `VOID`: a settled pool, or a transfer in that it has voided (R415, R423). -/
def Kept.voidsStmt (k : Kept) (st : Stmt) : Bool :=
  st.entries.any fun e => k.settles e.pool || (e.change == 4 && k.voids.contains (e.pool, e.srcTally))

/-- The record kept after an accepted statement. -/
def Kept.after (k : Kept) (st : Stmt) : Kept :=
  { k with
    lsq := st.lsq
    latest := st.entries.foldl (fun l e => assocSet e.pool (some st) l) k.latest
    verdicts := k.verdicts ++ [(st.lsq, .acked)]
    ins := k.ins ++ (st.entries.filter fun e => e.change == 4).map fun e => (e.pool, e.srcTally)
    outs := (k.outs.filter fun o => !st.entries.any fun e => e.change == 5 && e.pool == o.1 && e.srcTally == o.2.1)
      ++ (st.entries.filter fun e => e.change == 3).map fun e => (e.pool, e.srcTally, e.amount) }

/-! ### Transfers: the ring (R417 to R420) -/

/-- Add a record to the ledger ring; a full ring first reclaims what R419 no longer needs (log 60). -/
def ringAdd (r : RingRec) (s : State) : State :=
  bump 0x911C 1 (s.modCistern fun c => { c with ring := c.ring ++ [r] })

/-- Highest floor received of a source. -/
def floorOf (d : Nat) (s : State) : Nat := (assocGet d s.cistern.floors).getD 0

/-- A ring record that is still needed. -/
def ringNeeds (s : State) (r : RingRec) : Bool := match r.state with
  | .prepared | .inbound => true
  | .credited => decide (floorOf r.peer s ≤ r.tally)
  | _ => false

/-- Reclaim when the ring is full. -/
def ringReclaim (s : State) : State :=
  if s.cistern.ring.length < 1024 then s else s.modCistern fun c => { c with ring := c.ring.filter (ringNeeds s) }

/-- The ring has no room for a step-1 record (R420). -/
def ringFull (s : State) : Bool := decide (1024 ≤ (ringReclaim s).cistern.ring.length)

/-- Update the first ring record that satisfies a test; its second programming counts as a write. -/
def ringMod (p : RingRec → Bool) (f : RingRec → RingRec) (s : State) : State :=
  s.modCistern fun c => { c with ring := updFirst p f c.ring }

/-- An outbound record by its tally. -/
def isOut (t : Nat) (r : RingRec) : Bool := r.tally == t && (r.state == .prepared || r.state == .done || r.state == .burned)

/-- An inbound record by source and tally. -/
def isIn (d t : Nat) (r : RingRec) : Bool := r.peer == d && r.tally == t && (r.state == .inbound || r.state == .credited)

/-- Send the TRANSFER of an outbound record. -/
def sendTransfer (r : RingRec) (s : State) : State := routeSend r.peer (.transfer r.pool r.tally r.amount) s

/-- This device's floor: the tally of its oldest PREPARED record, or the next tally when it has none (log 60). -/
def ownFloor (s : State) : Nat := match s.cistern.ring.find? (fun r => r.state == .prepared) with
  | some r => r.tally
  | none => s.dev.nextTally

/-- Complete a waiting command. -/
def endCmd (id : Option Nat) (e : Ending) (s : State) : State := match id with
  | none => s
  | some i => match cmdGet i s with
    | some c => finish c e s
    | none => s

/-- The pool header broadcast of a pool (R429). -/
def headerBcast (n : Nat) (s : State) : State := match poolGet n s with
  | some p => broadcast (.pool n p.kind p.minted p.declared p.draw p.lowWater) s
  | none => s

/-- A declaration has settled a pool here: what remains is burned, as lapsed, and no more is drawn (R424). -/
def burnRest (n : Nat) (s : State) : State := match poolGet n s with
  | none => s
  | some p =>
    let s := poolKeep n (fun p => { p with held := 0, working := 0, drawing := none, settled := true }) s
    if p.held + p.working = 0 then s else poolLow n (ledgerAudit 1 n (p.held + p.working) s)

/-- Data of CISTERN_TRANSFER_DONE and CISTERN_VOID: outbound tally and amount. -/
def transferData (t amount : Nat) : BitVec 128 := BitVec.ofNat 128 (t % 2 ^ 64 + 2 ^ 64 * amount)

/-! ### What an acknowledgement does (R414, R417) -/

/-- An accepted entry takes effect. -/
def entryTakes (e : StmtEntry) (cmd : Option Nat) (s : State) : State :=
  if e.change = 1 then
    let s := poolKeep e.pool (fun p => { p with held := p.held + e.amount, minted := p.minted + e.amount }) s
    endCmd cmd (Ending.inline (le 4 e.pool)) (headerBcast e.pool (poolLow e.pool s))
  else if e.change = 2 then
    let s := poolKeep e.pool (fun p => { p with held := p.held - e.amount, working := p.working + e.amount, drawing := none }) s
    poolLow e.pool (ledgerAudit 2 e.pool e.amount (bump 0x9118 1 s))
  else if e.change = 3 then
    let s := poolKeep e.pool (fun p => { p with held := p.held - e.amount }) s
    let s := ringMod (isOut e.srcTally) (fun r => { r with acked := true }) (poolLow e.pool s)
    let s := match s.cistern.ring.find? (isOut e.srcTally) with
      | some r => sendTransfer r s
      | none => s
    endCmd cmd (Ending.inline (le 8 e.srcTally)) s
  else if e.change = 4 then
    match s.cistern.ring.find? (fun r => r.state == .inbound && r.pool == e.pool && r.tally == e.srcTally) with
    | none => s
    | some r =>
      let s := poolKeep e.pool (fun p => { p with held := p.held + e.amount }) s
      let s := ringMod (isIn r.peer r.tally) (fun r => { r with state := .credited, acked := true }) (poolLow e.pool s)
      let s := routeSend r.peer (.transferAck r.pool r.tally .credited) s
      postEvt .both 0x9003 (BitVec.ofNat 32 r.pool) (BitVec.ofNat 128 (r.peer + 2 ^ 16 * (r.tally % 2 ^ 48) + 2 ^ 64 * r.amount)) s
  else s

/-- A voided entry: the pool is settled, and what the step prepared is undone (R415, Table 12-7). -/
def entryVoid (e : StmtEntry) (cmd : Option Nat) (s : State) : State :=
  let s := if e.change = 3 then
      match s.cistern.ring.find? (isOut e.srcTally) with
      | some _ => bump 0x911C 1 (ringMod (isOut e.srcTally) (fun r => { r with state := .burned }) s)
      | none => s
    else if e.change = 4 then
      match s.cistern.ring.find? (fun r => r.state == .inbound && r.pool == e.pool && r.tally == e.srcTally) with
      | some r =>
        let s := s.modCistern fun c => { c with ring := c.ring.filter fun x => x != r }
        routeSend r.peer (.transferAck r.pool r.tally .void) s
      | none => s
    else s
  let s := if e.change = 4 then s else burnRest e.pool s
  endCmd cmd (Ending.st .badParam) s

/-- The keeper's answer to this device's statement `lsq` (R414). -/
def ownAck (lsq : Nat) (v : Verdict) (s : State) : State :=
  match s.cistern.stmts.find? (fun p => p.st.lsq == lsq) with
  | none => s
  | some p =>
    let s := s.modCistern fun c => { c with
      stmts := c.stmts.filter fun q => q.st.lsq != lsq
      ownLatest := if v = .acked then p.st.entries.foldl (fun l e => assocSet e.pool (some p.st) l) c.ownLatest else c.ownLatest
      firstAck := c.firstAck || v == .acked }
    p.st.entries.foldl (fun s e => if v = .acked then entryTakes e p.cmd s else entryVoid e p.cmd s) s

/-- Send the answer to a statement: to its device, or to this one. -/
def sendAck (d lsq : Nat) (v : Verdict) (s : State) : State :=
  if d = ownDdn s then ownAck lsq v s else routeSend d (.stmtAck d lsq v) s

/-- Devices kept, this one included while it is its own keeper (R415). -/
def keptCount (s : State) : Nat := s.cistern.kept.length

/-- A keeper receives a statement (R415): a repeat gets the verdict given before, a settled pool `VOID`; a new one is journaled, and
acknowledged when its segment is durable. -/
def keepStmt (st : Stmt) (s : State) : State :=
  let accept := fun (k : Kept) =>
    let k := k.after st
    let (seg, s) := archiveSync .statement (.kept k) (keptSet k s)
    s.modCistern fun c => { c with keptWait := c.keptWait ++ [(st.ddn, st.lsq, seg)] }
  match keptGet st.ddn s with
  | none => if 8 ≤ keptCount s then sendAck st.ddn st.lsq .void s else accept ⟨st.ddn, 0, [], [], [], [], [], []⟩
  | some k =>
    match assocGet st.lsq k.verdicts with
    | some v => if s.cistern.keptWait.any (fun w => w.1 == st.ddn && w.2.1 == st.lsq) then s else sendAck st.ddn st.lsq v s
    | none =>
      if k.voidsStmt st then sendAck st.ddn st.lsq .void (keptSet { k with verdicts := k.verdicts ++ [(st.lsq, .void)] } s)
      else if st.lsq ≤ k.lsq then s
      else accept k

/-- The acknowledgement of SET_KEEPER's last statement by the new keeper ends the change (R416). -/
def keeperChanged (lsq : Nat) (v : Verdict) (s : State) : State :=
  match s.cistern.newKeeper with
  | none => s
  | some (id, k, want) =>
    if v = .void then endCmd (some id) (Ending.st .quotaExceeded) (s.modCistern fun c => { c with newKeeper := none })
    else if lsq < want then s
    else
      let old := s.cistern.keeper
      let s := s.modCistern fun c => { c with newKeeper := none, keeper := if k = ownDdn s then none else some k, firstAck := true }
      let s := match old with
        | some o => if o = k then s else routeSend o (.release (ownDdn s)) s
        | none => if k = ownDdn s then s else s.modCistern fun c => { c with kept := c.kept.filter fun x => x.ddn != ownDdn s }
      let s := endCmd (some id) (Ending.st .ok) s
      if s.cistern.keeper.isNone then s.cistern.stmts.foldl (fun s p => keepStmt p.st s) s else resendStmts s

/-- Acknowledge the statements whose segments have become durable (R415). -/
def ackDurable (s : State) : State :=
  let ready := s.cistern.keptWait.filter fun w => durable w.2.2 s
  let s := s.modCistern fun c => { c with keptWait := c.keptWait.filter fun w => !durable w.2.2 s }
  ready.foldl (fun s w =>
    let s := sendAck w.1 w.2.1 .acked s
    if w.1 = ownDdn s then keeperChanged w.2.1 .acked s else s) s

/-- Form a statement of the step with tally `t` and give it to the keeper. -/
def stepStmtAt (t : Nat) (e : StmtEntry) (cmd : Option Nat) (s : State) : State :=
  let st : Stmt := ⟨ownDdn s, ownInc s, s.cistern.lsq + 1, t, [e]⟩
  let s := s.modCistern fun c => { c with lsq := c.lsq + 1, stmts := c.stmts ++ [⟨st, cmd⟩] }
  if s.cistern.keeper.isNone && s.cistern.newKeeper.isNone then keepStmt st s else sendStmt st s

/-- Form a statement of one step, with a tally of its own, and give it to the keeper. -/
def stepStmt (e : StmtEntry) (cmd : Option Nat) (s : State) : State :=
  let (t, s) := issueTally s
  stepStmtAt t e cmd s

/-- A step can be made: the keeper is reachable, and where it is this device the vault accepts the statement. -/
def stepBar (s : State) : Option Status :=
  if !keeperUp s then some .linkDown
  else if s.cistern.keeper.isNone && !vaultAccepts s then some .modeForbids
  else none

/-! ### Transfers received (R417 to R419) -/

/-- A TRANSFER arrives at the destination (steps 4 and 5). A pool not known here, or a full ring, leaves it for a resend. -/
def transferIn (src pool tally amount : Nat) (s : State) : State :=
  match s.cistern.ring.find? (isIn src tally) with
  | some r => if r.state == .credited then routeSend src (.transferAck pool tally .credited) s else s
  | none =>
    if tally < floorOf src s then routeSend src (.transferAck pool tally .stale) s
    else match poolGet pool s with
      | none => s
      | some p =>
        if p.settled then routeSend src (.transferAck pool tally .void) s
        else if ringFull s then s
        else
          let (_, s) := issueTally (ringReclaim s)
          let s := ringAdd ⟨.inbound, pool, src, tally, amount, false⟩ s
          stepStmt ⟨pool, 4, projHeld pool s + amount, amount, tally⟩ none s

/-- The destination's answer arrives at the source (steps 6 to 8). -/
def transferAnswer (dst pool tally : Nat) (a : TransferAns) (s : State) : State :=
  match s.cistern.ring.find? (fun r => r.state == .prepared && r.acked && r.peer == dst && r.pool == pool && r.tally == tally) with
  | none => s
  | some r => match a with
    | .stale => s
    | .credited =>
      let s := bump 0x911C 1 (ringMod (· == r) (fun r => { r with state := .done }) s)
      let s := stepStmt ⟨pool, 5, projHeld pool s, r.amount, tally⟩ none s
      let s := postEvt .both 0x9002 (BitVec.ofNat 32 pool) (transferData tally r.amount) s
      routeSend dst (.floor (ownFloor s)) s
    | .void =>
      let s := bump 0x911C 1 (ringMod (· == r) (fun r => { r with state := .burned }) s)
      let s := ledgerAudit 3 pool r.amount s
      postEvt .both 0x9005 (BitVec.ofNat 32 pool) (transferData tally r.amount) s

/-- The source's floor arrives (step 8, R419). -/
def floorIn (src t : Nat) (s : State) : State :=
  s.modCistern fun c => { c with
    floors := assocSet src (some (max t (floorOf src s))) c.floors
    ring := c.ring.filter fun r => !(r.state == .credited && r.peer == src && decide (r.tally < t)) }

/-! ### Settlement (R423) -/

/-- Shares of a pool that settling a kept device burns: `HELD` as its latest statement gives, and the transfers out that are not done and
that the destinations' keepers have voided, not acknowledged (R423). `acked`: tallies of those acknowledged. -/
def Kept.burns (k : Kept) (acked : List Nat) (pool : Nat) : Nat :=
  (match (assocGet pool k.latest).bind fun st => st.entries.find? fun e => e.pool == pool with
    | some e => e.held
    | none => 0) + ((k.outs.filter fun o => o.1 == pool && !acked.contains o.2.1).map (·.2.2)).sum

/-- Note declared burns of a pool, archive and broadcast its header. -/
def declare (n amount : Nat) (s : State) : State :=
  if amount = 0 then s else headerBcast n (poolKeep n (fun p => { p with declared := p.declared + amount }) s)

/-- A source learns whether the keeper of a settled destination had acknowledged its transfer: it is credited there, or void (R418,
R423). -/
def settledAnswer (d pool tally : Nat) (held : Bool) (s : State) : State :=
  transferAnswer d pool tally (if held then .credited else .void) s

/-- For each of this device's transfers to a settled device that is not done, keeper `k` is asked, or this device where it is that keeper
(R423, step 4). -/
def askSettled (k d pool : Nat) (s : State) : State :=
  (s.cistern.ring.filter fun r => r.state == .prepared && r.acked && r.peer == d && (pool == 0 || r.pool == pool)).foldl (fun s r =>
    if k = ownDdn s then settledAnswer d r.pool r.tally ((keptGet d s).any fun x => x.ins.contains (r.pool, r.tally)) s
    else routeSend k (.query d r.pool r.tally) s) s

/-- Apply a declaration of keeper `k`: the event, the journal of the declaring device, this device's own pools where it is the one
settled, and its transfers to it. -/
def declared (k d pool amount lsq : Nat) (s : State) : State :=
  let s := postEvt .both 0x9006 (wfield d 0) (BitVec.ofNat 128 (pool + 2 ^ 64 * amount)) s
  let s := if d = ownDdn s then
      (s.cistern.pools.filter fun p => pool == 0 || p.1 == pool).foldl (fun s p => burnRest p.1 s) s
    else askSettled k d pool s
  let mine := s.cistern.settling.filter fun x => x.ddn == d && x.pool == pool
  if mine.isEmpty then s
  else
    let s := s.modCistern fun c => { c with settling := c.settling.filter fun x => !(x.ddn == d && x.pool == pool) }
    let s := auditDev 2 (3 :: (le 4 pool ++ le 8 amount ++ le 2 d ++ le 8 lsq)) s
    mine.foldl (fun s x => endCmd x.cmd (Ending.inline (le 8 amount)) s) s

/-- A keeper settles a device's pools (R423); `acked`: the tallies of its transfers out that the destinations' keepers have
acknowledged; those kept here are known. -/
def settleKept (d pool : Nat) (acked : List Nat) (s : State) : State :=
  match keptGet d s with
  | none => s
  | some k =>
    if k.settles pool then s
    else
      let here := (k.outs.filter fun o => s.cistern.kept.any fun x => x.ins.contains (o.1, o.2.1)).map (·.2.1)
      let each := (k.latest.filter fun l => (pool == 0 || l.1 == pool) && !k.settles l.1).map fun l => (l.1, k.burns (acked ++ here) l.1)
      let k' := { k with settled := k.settled ++ [pool], outs := k.outs.filter fun o => pool != 0 && o.1 != pool }
      let s := archive (.kept k') (keptSet k' s)
      let s := each.foldl (fun s x => declare x.1 x.2 s) s
      let amount := (each.map (·.2)).sum
      let s := auditDev 2 (3 :: (le 4 pool ++ le 8 amount ++ le 2 d ++ le 8 k.lsq)) s
      declared (ownDdn s) d pool amount k.lsq (broadcast (.declared d pool amount k.lsq) s)

/-- A settlement whose destinations' keepers answer elsewhere: which transfers they had acknowledged is a free value, one byte for each
(log 131). -/
def settleFree (d pool : Nat) (s : State) : State :=
  match keptGet d s with
  | none => s
  | some k =>
    let (bs, s) := drawBytes k.outs.length s
    settleKept d pool (((k.outs.zip bs).filter fun x => x.2.toNat % 2 == 1).map (·.1.2.1)) s

/-- A keeper answers whether it has acknowledged a transfer in, or else voids it (R423). -/
def answerQuery (asker d pool tally : Nat) (s : State) : State :=
  match keptGet d s with
  | none => s
  | some k =>
    if k.ins.contains (pool, tally) then routeSend asker (.queryAns d pool tally true) s
    else
      let k := { k with voids := k.voids ++ [(pool, tally)] }
      routeSend asker (.queryAns d pool tally false) (archive (.kept k) (keptSet k s))

/-! ### Broadcasts applied (R428, R429, R431) -/

/-- A pool as its header makes it known. -/
def headerPool (kind minted declared draw low : Nat) : Pool := ⟨kind, minted, 0, 0, draw, low, declared, 0, false, true, false, none⟩

/-- Apply a domain record change (R431): its home device's generation and record. -/
def applyDomainKey (i gen : Nat) (r : Option KeyRec) (s : State) : State :=
  let k := slotGet i s
  match r with
  | none =>
    let s := if k.state = .live then slotSet i { k with state := .cullet, gen := gen } s else slotSet i { k with gen := gen } s
    archive (.del i) s
  | some r =>
    let n := granulesOf r.alg r.material.length
    let place := match k.state, k.entry with
      | .live, some o => some (o.extFirst, s.keytab.granFree)
      | _, _ => if n = 0 then some (0, s.keytab.granFree) else rangesRun n s.keytab.granFree
    match place with
    | none => s
    | some (g, gs) =>
      let s := if n = 0 then s else s.modKeys fun t => { t with granFree := gs }
      let r := { r with extCount := n, extFirst := if n = 0 then 0 else g }
      let s := storeRec i gen r s
      if r.persist then archive (.put i gen r) s else s

/-- Apply what a broadcast carries. -/
def bcastTakes (origin : Nat) (b : Bcast) (s : State) : State :=
  match b with
  | .pool n kind minted decl draw low =>
    let p := match poolGet n s with
      | some p => { p with minted := max p.minted minted, declared := max p.declared decl }
      | none => headerPool kind minted decl draw low
    archive (.pool n p) (poolSet n p s)
  | .declared d pool amount lsq => declared origin d pool amount lsq s
  | .member d inc dig =>
    if d = ownDdn s then s
    else match memberGet d s with
      | some _ => memberMod d (fun m => { m with incarnation := inc, digest := dig }) s
      | none => memberMod d (fun m => { m with digest := dig }) (learnMember d inc s)
  | .key i g r => applyDomainKey i g r s

/-- A broadcast arrives through mesh port `n` (R428): in sequence it is applied, kept and passed on; a gap is fetched. Its origin becomes
known by it. -/
def bcastIn (n origin seq : Nat) (b : Bcast) (s : State) : State :=
  let s := learnMember origin 0 s
  match memberGet origin s with
  | none => s
  | some m =>
    if seq ≤ m.bcast then s
    else if seq = m.bcast + 1 then
      let s := memberMod origin (fun m => { m with bcast := seq }) s
      let s := bcastTakes origin b (s.modCistern fun c => { c with blog := c.blog ++ [(origin, seq, b)] })
      let s := flood (some n) (.bcast origin seq b) s
      match b with
      | .key _ _ _ => routeSend origin (.bcastAck origin seq) s
      | _ => s
    else neighbourSend n (.fetch origin (m.bcast + 1)) s

/-- A member acknowledges a domain record change of this device (R431). -/
def bcastAcked (d seq : Nat) (s : State) : State :=
  syncDone (s.modCistern fun c => { c with
    syncing := c.syncing.map fun x => if x.1 = seq then (x.1, x.2.filter (· != d)) else x })

/-- An adjacency record arrives (R407): the latest is kept, passed on, and the paths are recomputed. -/
def adjIn (n : Nat) (a : AdjRec) (s : State) : State :=
  match memberGet a.ddn s with
  | none => s
  | some m =>
    if a.seq ≤ m.adjSeq ∧ m.adjSeq ≠ 0 then s
    else
      let s := memberMod a.ddn (fun m => { m with adjSeq := a.seq, adj := a.links }) s
      reroute (flood (some n) (.adj a) s)

/-! ### Restore (R426) -/

/-- The keeper's answer to the restore: `HELD` and `LSQ` of each pool; unfinished transfer steps resume (R421, R426). -/
def restoreAnswer (sts : List Stmt) (s : State) : State :=
  if !s.cistern.restoring then s
  else
    let es := (sts.map fun st => st.entries.map fun e => (st.lsq, e)).flatten
    let last := fun (n : Nat) => (es.filter fun x => x.2.pool == n).foldl (fun m x => match m with
      | none => some x
      | some y => if y.1 < x.1 then some x else some y) (none : Option (Nat × StmtEntry))
    let s := s.modCistern fun c => { c with
      restoring := false
      lsq := max c.lsq (sts.foldl (fun m st => max m st.lsq) 0)
      ownLatest := es.foldl (fun l x => match sts.find? (fun st => st.lsq == x.1) with
        | some st => assocSet x.2.pool (some st) l
        | none => l) c.ownLatest
      pools := c.pools.map fun p => (p.1, { p.2 with confirmed := true, held := match last p.1 with
        | some x => x.2.held
        | none => p.2.held }) }
    s.cistern.ring.foldl (fun s r =>
      if (poolGet r.pool s).isNone then cisternErr 4 0 s
      else
        let noted := es.any fun x => x.2.pool == r.pool && x.2.srcTally == r.tally
        match r.state with
        | .prepared =>
          if r.acked || noted then sendTransfer r (ringMod (· == r) (fun r => { r with acked := true }) s)
          else stepStmt ⟨r.pool, 3, projHeld r.pool s - r.amount, r.amount, r.tally⟩ none s
        | .inbound =>
          if noted then
            routeSend r.peer (.transferAck r.pool r.tally .credited)
              (ringMod (· == r) (fun r => { r with state := .credited, acked := true }) s)
          else stepStmt ⟨r.pool, 4, projHeld r.pool s + r.amount, r.amount, r.tally⟩ none s
        | _ => s) s

/-- The ledger's part of the restore (R426), once the floors are loaded. -/
def ledgerRestore (s : State) : State :=
  let a := s.vault.archive
  let s := s.modCistern fun c => { c with
    pools := (a.pools.foldl (fun l p => assocSet p.1 (some p.2) l) c.pools).map fun p =>
      (p.1, { p.2 with working := 0, spent := 0, confirmed := false, drawing := none, lowPosted := false })
    kept := a.kept, restoring := true }
  let s := s.cistern.lapsed.foldl (fun s l => ledgerAudit 1 l.1 l.2 s) s
  let s := s.modCistern fun c => { c with lapsed := [] }
  match s.cistern.keeper with
  | none =>
    let own := match keptGet (ownDdn s) s with
      | some k => k.latest.map (·.2)
      | none => []
    restoreAnswer own s
  | some k => routeSend k (.askLatest (ownDdn s)) s

/-- At response level 4, `HELD` and `WORKING` of every pool are burned, with one zeroize record in the ring (R412, R422). -/
def ledgerZeroize (tally : Nat) (s : State) : State :=
  let s := s.cistern.pools.foldl (fun s p =>
    let s := if p.2.working = 0 then s else ledgerAudit 1 p.1 p.2.working s
    if p.2.held = 0 then s else ledgerAudit 3 p.1 p.2.held s) s
  let s := ringAdd ⟨.zeroize, 0, 0, tally, 0, true⟩ (ringReclaim s)
  s.modCistern fun c => { c with
    pools := c.pools.map fun p => (p.1, { p.2 with held := 0, working := 0, drawing := none })
    stmts := [] }

/-! ### Computed registers (Tables 12-10, 12-11, 12-14) -/

/-- `CISTERN_STATUS`. -/
def cisternStatus (s : State) : Word :=
  wbit s.cistern.restoring 31 ||| wbit (keeperUp s) 30 ||| wbit s.cistern.keeper.isNone 29 ||| wbit s.cistern.cert.isSome 28
    ||| wfield (ownInc s % 256) 14 ||| wfield ((s.cistern.keeper.getD (ownDdn s)) % 2 ^ 14) 0

/-- `CISTERN_MEMBERS`. -/
def cisternMembers (s : State) : Word :=
  let own := bit s.cistern.cert.isSome
  if own = 0 then 0
  else wfield ((s.cistern.members.filter (·.reachable)).length + 1) 16 ||| wfield (s.cistern.members.length + 1) 0

/-- `CISTERN_RING`. -/
def cisternRing (s : State) : Word :=
  wfield (s.cistern.ring.filter fun r => r.state == .prepared).length 16 ||| wfield s.cistern.ring.length 0

/-- `CISTERN_PORTn_STATUS`. -/
def meshStatus (n : Nat) (s : State) : Word := match meshGet n s with
  | none => 0
  | some p =>
    wbit (p.up && !p.training) 31 ||| wbit p.session 30 ||| wbit p.lowPower 29 ||| wbit (s.units.mesh.getLsbD n) 28 ||| wfield p.eq 24
      ||| wfield p.cost 16 ||| wfield p.neighbour 0

end Sys2Proof.Machine
end

