-- ==== Sys2Proof/Machine/CisternCmds.lean ====
section
/-! DEFINITION. The class 0x6 opcodes and the mesh's own events (chapter 12). -/
namespace Sys2Proof.Machine

/-! ### Class 0x6 opcodes (Table 12-9) -/

/-- The fields of a mint: pool, kind, amount, `DRAW`, `LOW_WATER`. -/
def mintFields (c : Cmd) : Nat × Nat × Nat × Nat × Nat :=
  let (b, o) := if c.form = 0 then (c.inl, 0) else (c.block, 0)
  let draw := if c.form = 0 then 0 else natAt c.block 16 4
  (natAt b o 4, natAt b (o + 4) 1, natAt b (o + 8) 8, if draw = 0 then 1024 else draw, if c.form = 0 then 0 else natAt c.block 24 8)

/-- Shares whose mint into a pool waits for the keeper. -/
def mintWaits (n : Nat) (s : State) : Nat :=
  ((s.cistern.stmts.map fun p => ((p.st.entries.filter fun e => e.change == 1 && e.pool == n).map (·.amount)).sum)).sum

/-- A declaration has settled a pool on some device (R424): one names it, or has burned shares of it. -/
def poolSettled (n : Nat) (p : Pool) (s : State) : Bool :=
  p.settled || p.declared != 0 || s.cistern.blog.any fun b => match b.2.2 with
    | .declared _ x _ _ => x == n
    | _ => false

/-- SHARES_MINT adds shares to a new or existing pool (R429); it completes with the keeper's acknowledgement. -/
def execSharesMint (id : Nat) (s : State) : Out := .next <| runOp { noKeys with
    block := fun c => if c.form = 1 then some (32, 32) else none } 0x6001 id (fun c s =>
  if !c.scratch.isEmpty then s
  else
    let (pool, kind, amount, draw, low) := mintFields c
    let go := fun (n : Nat) (s : State) =>
      match stepBar s with
      | some st => finishSt c st s
      | none => stepStmt ⟨n, 1, projHeld n s + amount, amount, 0⟩ (some c.id) (cmdPut { c with scratch := [1] } s)
    if pool = 0 then
      if !(kind == 1 || kind == 2) || decide (2 ^ 62 < amount) then finishSt c .badParam s
      else if 262143 ≤ s.cistern.lastPool ∨ 1048576 ≤ s.cistern.pools.length then finishSt c .quotaExceeded s
      else match stepBar s with
        | some st => finishSt c st s
        | none =>
          let n := ownDdn s * 2 ^ 18 + s.cistern.lastPool + 1
          let s := poolSet n ⟨kind, 0, 0, 0, draw, low, 0, 0, false, true, false, none⟩
            (s.modCistern fun x => { x with lastPool := x.lastPool + 1 })
          go n s
    else match poolGet pool s with
      | none => finishSt c .badParam s
      | some p =>
        if pool / 2 ^ 18 ≠ ownDdn s ∨ poolSettled pool p s ∨ 2 ^ 62 < p.minted + mintWaits pool s + amount then finishSt c .badParam s
        else go pool s) s

/-- SHARES_TRANSFER runs steps 1 to 3 of a transfer (R417). The statement carries the tally of its record (DEDUCED from Table 12-8,
log 132). -/
def execSharesTransfer (id : Nat) (s : State) : Out := .next <| runOp noKeys 0x6002 id (fun c s =>
  if !c.scratch.isEmpty then s
  else
    let pool := c.inlNat 48 4
    let dst := c.inlNat 52 2
    let n := c.inlNat 56 8
    match poolGet pool s with
    | none => finishSt c .badParam s
    | some p =>
      if n = 0 ∨ dst = ownDdn s ∨ (memberGet dst s).isNone ∨ p.settled then finishSt c .badParam s
      else match stepBar s with
        | some st => finishSt c st s
        | none =>
          if !reaches dst s then finishSt c .linkDown s
          else if projHeld pool s < n then finishSt c .sharesExhausted s
          else if ringFull s then finishSt c .quotaExceeded (cisternErr 2 0 s)
          else
            let (t, s) := issueTally (ringReclaim s)
            let s := ringAdd ⟨.prepared, pool, dst, t, n, false⟩ (cmdPut { c with scratch := [1] } s)
            stepStmtAt t ⟨pool, 3, projHeld pool s - n, n, t⟩ (some c.id) s) s

/-- Shares of a pool in flight out of this device. -/
def inFlightOut (n : Nat) (s : State) : Nat :=
  ((s.cistern.ring.filter fun r => r.state == .prepared && r.acked && r.pool == n).map (·.amount)).sum

/-- The 96 bytes of `SHARES_BALANCE` (Table 12-9a). -/
def balanceBytes (n : Nat) (p : Pool) (s : State) : List Byte :=
  le 4 n ++ [BitVec.ofNat 8 p.kind, 0, 0, 0] ++ le 8 p.minted ++ le 8 p.held ++ le 8 p.working
    ++ le 8 ((s.cmdif.cmds.map (Cmd.reserves n)).sum) ++ le 8 (inFlightOut n s) ++ le 8 p.spent
    ++ le 8 (match assocGet n s.cistern.ownLatest with
      | some st => st.lsq
      | none => 0)
    ++ le 8 p.declared ++ le 4 p.draw ++ le 4 0 ++ le 8 p.lowWater ++ le 8 0

/-- SHARES_BALANCE reports a pool (R433). -/
def execSharesBalance (id : Nat) (s : State) : Out := .next <| runOp { noKeys with lens := needDst 96 } 0x6003 id (fun c s =>
  match poolGet (c.inlNat 48 4) s with
  | none => finishSt c .badParam s
  | some p => finish c (Ending.out (balanceBytes (c.inlNat 48 4) p s)) s) s

/-- A member is stranded (R423). -/
def stranded (m : Member) (s : State) : Bool :=
  m.dead || (!m.reachable && decide (m.lastSeen + max 60 (fieldOf (regGet 0x9004 s) 19 0) ≤ s.backup.rtcSec))

/-- SHARES_BURN_STRANDED asks a stranded device's keeper to settle; `keeper` is that keeper as the domain knows it, where this
device does not keep it itself (R423). The declaration is journaled here, which needs the vault (R4, R535). -/
def execSharesBurnStranded (id keeper : Nat) (s : State) : Out := .next <| runOp noKeys 0x6004 id (fun c s =>
  if !c.scratch.isEmpty then s
  else
    let d := c.inlNat 48 2
    let pool := c.inlNat 52 4
    match memberGet d s with
    | none => finishSt c .badParam s
    | some m =>
      if !stranded m s ∨ (pool ≠ 0 ∧ (poolGet pool s).isNone) then finishSt c .badParam s
      else if !vaultAccepts s then finishSt c .modeForbids s
      else
        let wait := fun (s : State) => (cmdPut { c with scratch := [1] } s).modCistern fun x =>
          { x with settling := x.settling ++ [⟨d, pool, some c.id⟩] }
        if (keptGet d s).isSome then
          if keptGet d s |>.any (fun k => k.settles pool) then finish c (Ending.inline (le 8 0)) s
          else settleFree d pool (wait s)
        else
          let s := memberMod d (fun m => { m with keeper := keeper }) s
          if !reaches keeper s then finishSt c .linkDown s
          else routeSend keeper (.settle d pool) (wait s)) s

/-- A certificate's 64-byte statement (R406). -/
def certBytes (d inc : Nat) (dig : List Byte) (s : State) : List Byte :=
  let w := regGet 0x9008 s
  le 2 d ++ le 1 inc ++ zeros 5 ++ bytesAt dig 0 32 ++ le 1 (fieldOf w 12 8) ++ le 1 (fieldOf w 3 0) ++ zeros 22

/-- Every pool that a device may hold has been settled by a declaration held here (R406). -/
def allSettled (d : Nat) (s : State) : Bool :=
  let ds := s.cistern.blog.filterMap fun b => match b.2.2 with
    | .declared x p _ _ => if x = d then some p else none
    | _ => none
  ds.contains 0 || s.cistern.pools.all fun p => ds.contains p.1

/-- A command names a function of `ROUTE_UPDATE`. -/
def routeFn (id fn : Nat) (s : State) : Bool := match cmdGet id s with
  | some c => c.inlNat 48 1 == fn
  | none => false

/-- `ROUTE_UPDATE` lengths: a digest for `ADMIT`, a certificate for `INSTALL`. -/
def routeLens (c : Cmd) : Option Ending :=
  let fn := c.inlNat 48 1
  if fn = 1 then (if c.srcLen ≠ 32 then some (Ending.st .badLength) else needDst 4691 c)
  else if fn = 2 then (if c.srcLen ≠ 4691 then some (Ending.st .badLength) else none)
  else none

/-- `ROUTE_UPDATE` with one of its four functions. -/
def routeSpec : OpSpec :=
  { noKeys with
    lens := routeLens
    params := fun c _ => badUnless (c.keyA == 0 && c.keyB == 0 && decide (1 ≤ c.inlNat 48 1 ∧ c.inlNat 48 1 ≤ 4)) }

/-- ROUTE_UPDATE_ADMIT issues a certificate (R406): its signature by the domain root is a free value (log 65). A function outside 1
to 4 fails here too. -/
def execRouteUpdateAdmit (id : Nat) (s : State) : Out := .next <|
  if routeFn id 2 s || routeFn id 3 s || routeFn id 4 s then s else runOp routeSpec 0x6005 id (fun c s =>
    let d := c.inlNat 52 2
    let inc := c.inlNat 54 1
    let known : Bool := match memberGet d s with
      | some m => decide (inc ≤ m.incarnation) || !allSettled d s
      | none => false
    if !(c.mode == .ceremony && s.dev.quorum) then finishSt c .quorumNotMet s
    else if s.cistern.cert.isNone || decide (d = ownDdn s ∨ 2 ^ fieldOf (regGet 0x9008 s) 3 0 ≤ d) || known then finishSt c .badParam s
    else
      let (sig, s) := drawBytes 4627 s
      let dig := bytesAt c.data 0 32
      let s := bcastTakes (ownDdn s) (.member d inc dig) s
      finish c (Ending.out (certBytes d inc dig s ++ sig)) (broadcast (.member d inc dig) s)) s

/-- Runs of an index range that no listed slot takes up, rising: the FREE slots at power-up (R249). -/
def freeRuns (a b : Nat) (taken : List Nat) : List (Nat × Nat) :=
  if b ≤ a then [] else (taken.filter fun i => decide (a ≤ i ∧ i < b)).foldl (fun rs i => rangesTake i rs) [(a, b - a)]

/-- Build both free lists from the slots that are not FREE and the archived indices (R249, R430). -/
def rebuildFree (s : State) : State :=
  let taken := (s.keytab.slots.filter fun p => p.2.state != .free).map (·.1) ++ s.keytab.toRestore
  let (a, n) := domainPart s
  s.modKeys fun t => { t with
    freeLocal := freeRuns (max 1 t.domainLimit) (tableEntries s) taken
    freeDomain := freeRuns (max 1 a) (min (a + n) t.domainLimit) taken }

/-- Set `CISTERN_DOMAIN_CFG` with its `LOCK`, and `KEYTAB_DOMAIN_LIMIT` with it (R434); archived. With other ranges the free lists are built
anew (R237, R249). -/
def lockDomainCfg (limitLog2 devLog2 : Nat) (s : State) : State :=
  let was := (s.keytab.domainLimit, domainPart s)
  let s := regSet 0x9008 (wbit true 31 ||| wfield limitLog2 8 ||| wfield devLog2 0) s
  let s := s.modKeys fun t => { t with domainLimit := 2 ^ limitLog2 }
  archive (.shape limitLog2 devLog2)
    (if s.keytab.floorsLoaded && (s.keytab.domainLimit, domainPart s) != was then rebuildFree s else s)

/-- A domain's shape that this part can take (R237, Table 12-12). -/
def shapeOk (l d : Nat) (s : State) : Bool := decide (14 ≤ l ∧ l ≤ 25 ∧ d ≤ 14 ∧ (s.fuses.grade = .s4 → l ≤ 24))

/-- ROUTE_UPDATE_INSTALL installs a certificate in JOIN; `ok`: it verifies under the domain root and names this device's identity
(R406). It brings the domain's shape, which is locked (R432); a shape that Table 12-12 or, on a ZJE9-S4, R237 does not allow is refused
(DESIGN CHOICE, log 129). -/
def execRouteUpdateInstall (id : Nat) (ok : Bool) (s : State) : Out := .next <|
  if routeFn id 2 s then runOp routeSpec 0x6005 id (fun c s =>
    let d := natAt c.data 0 2
    if c.mode ≠ .join then finishSt c .modeForbids s
    else if !ok ∨ some d ≠ s.dev.ddn then finishSt c .verifyFailed s
    else if !shapeOk (natAt c.data 40 1) (natAt c.data 41 1) s then finishSt c .badParam s
    else
      let s := s.modCistern fun x => { x with cert := some (d, natAt c.data 2 1, bytesAt c.data 8 32) }
      finishSt c .ok (lockDomainCfg (natAt c.data 40 1) (natAt c.data 41 1) s)) s
  else s

/-- ROUTE_UPDATE_PORT_COST sets a mesh port's cost (R407). -/
def execRouteUpdatePortCost (id : Nat) (s : State) : Out := .next <|
  if routeFn id 3 s then runOp routeSpec 0x6005 id (fun c s =>
    let n := c.inlNat 49 1
    let k := c.inlNat 50 1
    if (meshGet n s).isNone ∨ k = 0 then finishSt c .badParam s
    else
      let s := meshMod n (fun p => { p with cost := k }) s
      let s := finishSt c .ok s
      if (sessionPorts s).contains n then adjChanged s else s) s
  else s

/-- The current own statements, in order of `LSQ`; with none, one that names no shares (log 62). -/
def currentStmts (s : State) : List Stmt :=
  let one := fun (l : List Stmt) (st : Stmt) => if l.any (fun x => x.lsq == st.lsq) then l else l.takeWhile (fun x => decide (x.lsq < st.lsq)) ++ [st]
    ++ l.dropWhile (fun x => decide (x.lsq < st.lsq))
  s.cistern.ownLatest.foldl (fun l x => one l x.2) []

/-- ROUTE_UPDATE_SET_KEEPER moves this device's statements to a new keeper (R416). -/
def execRouteUpdateSetKeeper (id : Nat) (s : State) : Out := .next <|
  if routeFn id 4 s then runOp routeSpec 0x6005 id (fun c s =>
    let k := c.inlNat 52 2
    if !c.scratch.isEmpty ∨ s.cistern.newKeeper.isSome then s
    else if k ≠ ownDdn s ∧ (memberGet k s).isNone then finishSt c .badParam s
    else if k ≠ ownDdn s ∧ !reaches k s then finishSt c .linkDown s
    else if k = ownDdn s ∧ !vaultAccepts s then finishSt c .modeForbids s
    else
      let s := cmdPut { c with scratch := [1] } s
      let (sts, s) := if s.cistern.ownLatest.isEmpty then
          let (t, s) := issueTally s
          let st : Stmt := ⟨ownDdn s, ownInc s, s.cistern.lsq + 1, t, [⟨0, 1, 0, 0, 0⟩]⟩
          ([st], s.modCistern fun x => { x with lsq := x.lsq + 1 })
        else (currentStmts s, s)
      let want := sts.foldl (fun m st => max m st.lsq) 0
      let s := s.modCistern fun x => { x with newKeeper := some (c.id, k, want) }
      sts.foldl (fun s st => if k = ownDdn s then keepStmt st s else routeSend k (.statement st) s) s) s
  else s

/-- The bytes of a statement (Table 12-5), its signature apart. -/
def stmtBytes (st : Stmt) : List Byte :=
  le 2 st.ddn ++ le 1 st.incarnation ++ le 1 st.entries.length ++ le 8 st.lsq ++ le 8 st.tally
    ++ (st.entries.map fun e => le 4 e.pool ++ le 1 e.change ++ zeros 3 ++ le 8 e.held ++ le 8 e.amount ++ le 8 e.srcTally).flatten

/-- The 64 bytes of `PEER_STATUS` in the order R433 lists them (widths: log 63). -/
def peerBytes (d : Nat) (s : State) : Option (List Byte) :=
  let row := fun (reach hops port inc keeper : Nat) (dig : List Byte) (ago : Nat) =>
    le 1 reach ++ le 1 hops ++ le 1 port ++ le 1 inc ++ le 2 keeper ++ le 2 0 ++ bytesAt dig 0 32 ++ le 8 ago ++ zeros 16
  if d = ownDdn s then
    some (row 1 0 0 (ownInc s) (s.cistern.keeper.getD (ownDdn s)) (match s.cistern.cert with
      | some c => c.2.2
      | none => []) 0)
  else (memberGet d s).map fun m =>
    row (bit m.reachable) m.hops m.firstHop m.incarnation m.keeper m.digest (if m.reachable then 0 else s.backup.rtcSec - m.lastSeen)

/-- PEER_STATUS (R433): in expert form the latest signed statement kept, its signature a free value (log 65). -/
def execPeerStatus (id : Nat) (s : State) : Out := .next <| runOp { noKeys with
    lens := fun c => if c.form = 0 then needDst 64 c else none } 0x6006 id (fun c s =>
  let d := c.inlNat 48 2
  if c.form = 0 then
    match peerBytes d s with
    | some b => finish c (Ending.out b) s
    | none => finishSt c .badParam s
  else match (keptGet d s).bind fun k => assocGet (c.inlNat 52 4) k.latest with
    | none => finishSt c .badParam s
    | some st =>
      let b := stmtBytes st
      match needDst (b.length + 4627) c with
      | some e => finish c e s
      | none =>
        let (sig, s) := drawBytes 4627 s
        finish c (Ending.out (b ++ sig)) s) s

/-! ### Mesh ports (R397) -/

/-- A mesh port is retired. -/
def meshRetired (n : Nat) (s : State) : Bool := s.units.mesh.getLsbD n

/-- `CISTERN_PORTn_CTL.DISABLE`. -/
def meshDisabled (n : Nat) (s : State) : Bool := regBit (0x9044 + 0x10 * n) 30 s

/-- Survey item 5 found a fault on the port: it is held down (R111, R397). -/
def meshHeld (n : Nat) (s : State) : Bool := regBit (0x0260 + 4 * n) 30 s

/-- The equaliser preset in force: the survey's, until `CISTERN_PORTn_CTL.EQ_PRESET` is written (R77, R78, R111). -/
def meshPreset (n : Nat) (s : State) : Nat :=
  if s.dev.expert.contains (0x9044 + 16 * n) then fieldOf (regGet (0x9044 + 16 * n) s) 3 0
  else fieldOf (regGet (0x0260 + 4 * n) s) 27 24

/-- Start training a fitted mesh port that survey item 5 found good, with the preset in force. -/
def meshTrain (n : Nat) (s : State) : State :=
  if meshFitted s ≤ n || meshRetired n s || meshDisabled n s || meshHeld n s then s
  else meshMod n (fun p => { p with trained := false, eq := meshPreset n s }) (retrain n s)

/-- Retire a mesh port (R114, R397). -/
def meshRetire (n : Nat) (s : State) : State :=
  if meshRetired n s then s
  else
    let s := { s with units := { s.units with mesh := s.units.mesh ||| (1 <<< n) } }
    setDegraded 5 (recordRetired 7 s.units.mesh.toNat (meshDown n s))

/-- `DATA` of a `MESH_FAULTS` record (Table 15-5). -/
def meshFaultData (s : State) : Nat := ((s.cistern.ports.mapIdx fun i p => min 3 p.faultedPowerUps * 4 ^ i)).sum

/-- A mesh port has faulted in this power-up; the third power-up in succession retires it (R397). -/
def meshFault (n : Nat) (s : State) : State :=
  match meshGet n s with
  | none => s
  | some p =>
    if p.faulted then s
    else
      let s := meshMod n (fun p => { p with faulted := true, faultedPowerUps := p.faultedPowerUps + 1 }) s
      let s := logRecord 0x13 (meshFaultData s) s
      if 3 ≤ p.faultedPowerUps + 1 then meshRetire n s else s

/-- `CISTERN_PORTn_CTL` (Table 12-14): `RETRAIN` reads 0. -/
def meshCtl (n : Nat) (s : State) : Word := (regGet (0x9044 + 16 * n) s &&& 0x40000000) ||| wfield (meshPreset n s) 0

/-- A write of `CISTERN_PORTn_CTL` that has passed its guard (Table 12-14); one that changes an expert field writes `EQ_PRESET` too
(R78; log 115). -/
def meshCtlWrite (n : Nat) (v : Word) (s : State) : State :=
  let s := if (v ^^^ meshCtl n s) &&& 0x4000000F = 0 then s
    else (regMask (0x9044 + 0x10 * n) 0x4000000F v s).modDev fun d => { d with expert := insertNat (0x9044 + 16 * n) d.expert }
  if v.getLsbD 30 then meshDown n s
  else if v.getLsbD 31 then meshTrain n (meshMod n (fun p => { p with fails := 0 }) s)
  else s

/-- A training attempt has failed; the third in succession holds the port down. -/
def meshTrainFail (n : Nat) (s : State) : State :=
  match meshGet n s with
  | none => s
  | some p =>
    if !p.training then s
    else if p.fails + 1 < 3 then meshMod n (fun p => { p with fails := p.fails + 1 }) s
    else
      let s := meshMod n (fun p => { p with training := false, fails := 3 }) s
      meshFault n (if p.up then meshDown n s else s)

/-- This device's capability word (Table 12-4). -/
def capWord (s : State) : Word :=
  wfield (ownDdn s) 18 ||| wbit s.dev.ddn.isSome 17 ||| wbit s.cistern.cert.isSome 16 ||| wfield 1 8
    ||| wfield (16 * gradeCode s.fuses.grade + s.fuses.stepping.toNat) 0

/-- MESH_TRAINING_DONE: training of a port completes, or fails. A retrain within a session keeps it; else
the initiator (`first`: this device has the lower number or UID) sends the first handshake message (R397, R400, R402). -/
def execMeshTrainingDone (n : Fin 4) (ok first : Bool) (s : State) : Out := .next <|
  match meshGet n.val s with
  | none => s
  | some p =>
    if !p.training then s
    else if !ok then meshTrainFail n.val s
    else
      let s := meshMod n.val (fun p => { p with training := false, trained := true, fails := 0 }) s
      if p.session then s
      else if first then meshMod n.val (fun p => { p with hs := .sentInit }) s
      else s

/-- MESH_TRAINING_TIMEOUT: training does not complete within 500 ms (R397). -/
def execMeshTrainingTimeout (n : Fin 4) (s : State) : Out := .next <| meshTrainFail n.val s

/-! ### Sessions (R402 to R404) -/

/-- The partner's capability word arrives: the port is up, and survey item 8 of the port is measured (R397, R403). -/
def meshCap (n : Nat) (cap : Word) (s : State) : State :=
  let s := meshMod n (fun p => { p with up := true, peerCap := cap }) s
  let s := regMask (0x0260 + 4 * n) 0x00FFFE00 (wbit true 23 ||| wfield (fieldOf cap 31 18) 9) s
  regOr 0x0200 (wbit true 8) s

/-- A certificate that a handshake carries: number, incarnation, and whether it verifies under this device's domain root. -/
def certPasses (cert : Option (Nat × Nat)) (s : State) : Option (Nat × Nat) :=
  match cert, s.cistern.cert with
  | some c, some own => if c.1 ≠ own.1 then some c else none
  | _, _ => none

/-- `EPOCH` of a port's next session (R404; the first is 0: log 61). -/
def nextEpoch (p : MeshPort) : Nat := if p.txKey.isEmpty && p.epoch == 0 then 0 else (p.epoch + 1) % 2 ^ 32

/-- A session key of one direction, from the nonces of both sides, the shared secret and the epoch (R402; the epoch's 4 bytes are
big-endian as in the IV: log 61). -/
def sessionKey (label nonces k : List Byte) (epoch : Nat) : List Byte := kdfCounter (hmac256 (hmac256 nonces k)) 32 label (be 4 epoch) 32

/-- Open a session (R401, R403): counters and credits start again, with keys derived from the nonces and the shared secret, whose values
are free (log 61); what was in flight is sent again. The neighbour becomes known, and the origins it reports; in JOIN their sequences are
noted (R432), and gaps are fetched. `init`: this device initiated. -/
def openSession (n : Nat) (init : Bool) (peer : Nat × Nat) (report : List (Nat × Nat)) (s : State) : State :=
  let (secret, s) := drawBytes 96 s
  let key := fun (label : List Byte) (p : MeshPort) => sessionKey label (secret.take 64) (secret.drop 64) (nextEpoch p)
  let i2r := key [0x57, 0x50, 0x49, 0x52]
  let r2i := key [0x57, 0x50, 0x52, 0x49]
  let s := meshMod n (fun p => { p with
    session := true, neighbour := peer.1, peerCert := some peer, hs := .none, epoch := nextEpoch p
    txKey := if init then i2r p else r2i p
    rxKey := if init then r2i p else i2r p
    txSeq := 0, rxSeq := 0
    txWait := (p.unacked.map (·.2)) ++ p.txWait, unacked := [], resends := 0, credits := 256, crdIn := 0, crdOut := 0, nakDue := false
    since := s.backup.rtcSec, retrains := [] }) s
  let s := report.foldl (fun s r => learnMember r.1 0 s) (learnMember peer.1 peer.2 s)
  let s := if s.dev.mode = .join then s.modCistern fun c => { c with syncTo := report.foldl (fun l r => assocSet r.1 (some r.2) l) c.syncTo } else s
  let s := report.foldl (fun s r => match memberGet r.1 s with
    | some m => if m.bcast < r.2 then neighbourSend n (.fetch r.1 (m.bcast + 1)) s else s
    | none => s) s
  adjChanged (txPumpFuel n 256 s)

/-- SESSION_INIT: the initiator's first message arrives; this device answers (R402, R403). -/
def execSessionInit (n : Fin 4) (cap : Word) (cert : Option (Nat × Nat)) (s : State) : Out := .next <|
  match meshGet n.val s with
  | none => s
  | some p =>
    if !p.trained then s
    else
      let s := meshCap n.val cap s
      meshMod n.val (fun p => { p with hs := .sentResponse, peerCert := certPasses cert s }) s

/-- SESSION_RESPONSE: the responder's message arrives at the initiator, with the certificate where it verifies, and the sequences it
reports (R402, R403, R432). -/
def execSessionResponse (n : Fin 4) (cap : Word) (cert : Option (Nat × Nat)) (report : List (Nat × Nat)) (s : State) : Out := .next <|
  match meshGet n.val s with
  | none => s
  | some p =>
    if p.hs ≠ .sentInit then s
    else
      let s := meshCap n.val cap s
      match certPasses cert s with
      | some c => openSession n.val true c report s
      | none => closeSession n.val (meshMod n.val (fun p => { p with hs := .none }) s)

/-- SESSION_CONFIRM: the initiator's last signature arrives at the responder; the session opens when it and the certificates
verify (R403). -/
def execSessionConfirm (n : Fin 4) (ok : Bool) (report : List (Nat × Nat)) (s : State) : Out := .next <|
  match meshGet n.val s with
  | none => s
  | some p =>
    if p.hs ≠ .sentResponse then s
    else match p.peerCert with
      | some c => if ok then openSession n.val false c report s else closeSession n.val (meshMod n.val (fun p => { p with hs := .none }) s)
      | none => closeSession n.val (meshMod n.val (fun p => { p with hs := .none }) s)

/-- A session is to be replaced: 2^32 frames in either direction, 24 hours, or three retrains within one minute (R404). -/
def replaceDue (p : MeshPort) (s : State) : Bool :=
  decide (2 ^ 32 ≤ p.txSeq ∨ 2 ^ 32 ≤ p.rxSeq ∨ p.since + 86400 ≤ s.backup.rtcSec)
    || p.retrains.any fun t => decide (3 ≤ (p.retrains.filter fun u => decide (t ≤ u ∧ u < t + 60)).length)

/-- SESSION_REPLACE: a session whose frames, age or retrains ask for it gets a new handshake, which this device starts where it
initiates (R404). -/
def execSessionReplace (n : Fin 4) (first : Bool) (s : State) : Out := .next <|
  match meshGet n.val s with
  | none => s
  | some p => if p.session && first && replaceDue p s then meshMod n.val (fun p => { p with hs := .sentInit }) s else s

/-! ### Frames (R399 to R401, R408) -/

/-- A message for this device. -/
def deliver (n src : Nat) (m : Msg) (s : State) : State :=
  match m with
  | .idle | .sessionInit _ | .sessionResponse _ | .sessionConfirm => s
  | .statement st => keepStmt st s
  | .stmtAck d l v =>
    if d ≠ ownDdn s then s
    else match s.cistern.newKeeper with
      | some (_, k, _) => if src = k then keeperChanged l v s else ownAck l v s
      | none => ownAck l v s
  | .askLatest d => match keptGet d s with
    | some k => routeSend src (.latest (k.latest.map (·.2))) s
    | none => s
  | .latest sts => restoreAnswer sts s
  | .release d => s.modCistern fun c => { c with kept := c.kept.filter fun k => k.ddn != d }
  | .transfer p t a => transferIn src p t a s
  | .transferAck p t a => transferAnswer src p t a s
  | .floor t => floorIn src t s
  | .settle d p => settleFree d p s
  | .query d p t => answerQuery src d p t s
  | .queryAns d p t held => settledAnswer d p t held s
  | .bcast o q b => bcastIn n o q b s
  | .fetch o q => (s.cistern.blog.filter fun b => b.1 == o && decide (q ≤ b.2.1)).foldl (fun s b => neighbourSend n (.bcast b.1 b.2.1 b.2.2) s) s
  | .bcastAck _ q => bcastAcked src q s
  | .adj a => adjIn n a s

/-- The frames that an `ACK` leaves unacknowledged. -/
def leftOver (ack : Nat) (us : List (Nat × Frame)) : List (Nat × Frame) :=
  if ack = noAck then us else us.filter fun u => decide (ack < u.1)

/-- Credits and acknowledgement that a frame brings; with `NAK`, every frame after `ACK` is sent again (R400, R401). -/
def frameAcks (n : Nat) (h : FrameHdr) (s : State) : State :=
  let s := meshMod n (fun p =>
    let back := (h.crd + 65536 - p.crdIn) % 65536
    let left := leftOver h.ack p.unacked
    { p with
      unacked := left, resends := if left.head?.map (·.1) = p.unacked.head?.map (·.1) then p.resends else 0
      credits := min 256 (p.credits + back), crdIn := h.crd }) s
  txPumpFuel n 256 (if h.nak then resendFrames n s else s)

/-- WEPER_FRAME_RECEIVE: a frame's 512 bytes arrive on a port: it is accepted, forwarded, or discarded with `NAK` (R399 to R401, R408).
`m`: the message that its payload carries once decrypted; SESSION frames have rows of their own, and a reserved `FTYPE` carries none
(log 130). -/
def execWeperFrameReceive (n : Fin 4) (b : List Byte) (m : Msg) (s : State) : Out := .next <|
  let h := frameHdr b
  match meshGet n.val s with
  | none => s
  | some p =>
    if !p.session || p.training || h.ftype == 1 then s
    else if !tagVerifies p.rxKey b then
      neighbourSend n.val .idle (meshMod n.val (fun p => { p with nakDue := true }) (bump 0x9114 1 (cisternErr 0 n.val s)))
    else if h.epoch ≠ p.epoch ∨ h.fseq ≠ p.rxSeq then
      neighbourSend n.val .idle (meshMod n.val (fun p => { p with nakDue := true }) s)
    else
      let s := meshMod n.val (fun p => { p with rxSeq := p.rxSeq + 1, crdOut := (p.crdOut + 1) % 65536, nakDue := false }) (bump64 0x9108 1 s)
      let s := frameAcks n.val h s
      if h.ftype = 0 ∨ 4 < h.ftype then s
      else if 0x8000 ≤ h.dst ∨ h.dst % 2 ^ 14 = ownDdn s then deliver n.val (h.src % 2 ^ 14) m s
      else if h.hops ≤ 1 then s
      else forward ⟨h.hops - 1, h.dst, h.src, m⟩ s

/-- FRAME_RESEND_TIMEOUT: the oldest frame is unacknowledged for 20 µs; eight resends retrain the port, its session intact (R400). -/
def execFrameResendTimeout (n : Fin 4) (s : State) : Out := .next <|
  match meshGet n.val s with
  | none => s
  | some p =>
    if p.training then s else resendFrames n.val s

/-! ### Ledger messages as rows -/

/-- ADJ: an adjacency record arrives on a port (R407). -/
def execAdj (n : Fin 4) (a : AdjRec) (s : State) : Out := .next <| adjIn n.val a s
/-- BROADCAST: a broadcast arrives on a port (R428). -/
def execBroadcast (n : Fin 4) (origin seq : Nat) (b : Bcast) (s : State) : Out := .next <| bcastIn n.val origin seq b s
/-- STATEMENT: a statement arrives at this device as keeper (R415). -/
def execStatement (st : Stmt) (s : State) : Out := .next <| keepStmt st s
/-- STATEMENT_ACK: an answer of a keeper arrives (R414, R416, R426). -/
def execStatementAck (src : Nat) (a : KeeperAns) (s : State) : Out := .next <|
  match a with
  | .ack l v => deliver 0 src (.stmtAck (ownDdn s) l v) s
  | .latest sts => restoreAnswer sts s
/-- TRANSFER: a TRANSFER arrives at the destination (R417). -/
def execTransfer (src pool tally amount : Nat) (s : State) : Out := .next <| transferIn src pool tally amount s
/-- TRANSFER_ACK: the destination's answer arrives (R418). -/
def execTransferAck (dst pool tally : Nat) (a : TransferAns) (s : State) : Out := .next <| transferAnswer dst pool tally a s
/-- TRANSFER_RESEND: the resend interval expires: every PREPARED record past step 2 is sent again (R418). -/
def execTransferResend (s : State) : Out := .next <|
  (s.cistern.ring.filter fun r => r.state == .prepared && r.acked).foldl (fun s r => sendTransfer r s) (resendStmts s)
/-- TRANSFER_FLOOR: a source's floor arrives (R419). -/
def execTransferFloor (src tally : Nat) (s : State) : Out := .next <| floorIn src tally s

/-- A command waits for shares of a pool (R410): one of its keys names it, or it is a try pool and the command of class 0x3. -/
def shareWaiter (n : Nat) (p : Pool) (s : State) : Bool := s.cmdif.cmds.any fun c =>
  c.phase == .waitShares && ((c.cls == 3 && p.kind == 2) || c.handles.any fun h => (slotGet (hIdx h) s).entry.any fun r => r.pool == n)

/-- DRAW: the ledger starts a draw of a pool (R411). -/
def execDraw (pool : Nat) (s : State) : Out := .next <|
  match poolGet pool s with
  | none => s
  | some p =>
    let h := projHeld pool s
    let n := min h p.draw
    if n = 0 ∨ p.drawing.isSome ∨ !drawsPossible p s ∨ !(decide (2 * p.working < p.draw) || shareWaiter pool p s) ∨ (stepBar s).isSome then s
    else stepStmt ⟨pool, 2, h - n, n, 0⟩ none (poolSet pool { p with drawing := some n } s)

/-- SETTLE_REQUEST: this device settles a stranded device it keeps; `acked`: the tallies of the device's transfers out that the
destinations' keepers have acknowledged; they have voided the others (R423). -/
def execSettleRequest (d pool : Nat) (acked : List Nat) (s : State) : Out := .next <| settleKept d pool acked s

/-! ### JOIN and restore -/

/-- Flags of the latest `MODE_STATE` record (Table 15-5). -/
def modeFlags (s : State) : Nat := match latestRec 0x11 s with
  | some r => r.data
  | none => 0

/-- Write a `MODE_STATE` record with some bits set and some cleared. -/
def setModeFlags (setBits clearBits : Nat) (s : State) : State :=
  logRecord 0x11 ((modeFlags s ||| setBits) &&& (0x1F ^^^ clearBits)) s

/-- Every condition of R432 holds. -/
def joinSynced (s : State) : Bool :=
  s.cistern.cert.isSome && !(sessionPorts s).isEmpty && regBit 0x9008 31 s && s.keytab.restoreDone && s.cistern.firstAck
    && s.cistern.syncTo.all fun x => match memberGet x.1 s with
      | some m => decide (x.2 ≤ m.bcast)
      | none => x.1 == ownDdn s

/-- The domain custodian key, copied at JOIN, is kept, archived and copied to flash (R548, R549). -/
def takeCustodianKey (key : BitVec 256) (s : State) : State :=
  let t := { s.cust.table with key := be 32 key.toNat }
  archive (.custodians t) (s.modCust fun c => { c with table := t, copy := t, evalDue := true })

/-- JOIN_SYNC_COMPLETE: synchronisation is complete, `key` is the domain custodian key that the domain gave (R549), and the E9 leaves
JOIN (R121, R432). -/
def execJoinSyncComplete (key : BitVec 256) (s : State) : Out := .next <|
  if s.dev.mode = .join && joinSynced s then changeMode (serviceOrDegraded s) (setModeFlags 0 0x8 (takeCustodianKey key s)) else s

/-- FLOORS_LOADED: the floors, the occupancy bitmap and the domain shape are loaded from the archive (R243, R249, R254, R255,
R434); a slot whose floor has passed the last generation is SPENT (R244); the ledger restores (R426) and the applets are reloaded (R460). -/
def execFloorsLoaded (s : State) : Out := .next <|
  if !restoreBegun s then s
  else
    let a := s.vault.archive
    let s := match a.shape with
      | some (l, d) =>
        (regSet 0x9008 (wbit true 31 ||| wfield l 8 ||| wfield d 0) s).modKeys fun t => { t with domainLimit := 2 ^ l }
      | none => s
    let s := a.floors.foldl (fun s x => slotSet x.1 { slotGet x.1 s with
      state := if 2 ^ 25 ≤ x.2 then .spent else .free, gen := x.2, floor := x.2 } s) s
    let s := s.modKeys fun t => { t with
      floorsLoaded := true, restoring := true, toRestore := a.keys.map (·.1)
      granFree := a.keys.foldl (fun g k => (List.range k.2.2.extCount).foldl (fun g i => rangesTake (k.2.2.extFirst + i) g) g) t.granFree }
    pumpHooks (reloadApplets (ledgerRestore (rebuildFree s)))

end Sys2Proof.Machine
end

