-- ==== Sys2Proof/Machine/Vault.lean ====
section
/-! DEFINITION. The vault (chapter 16): cartridges, segments and tokens, removal and return, rebuild, class 0x7 opcodes. -/
namespace Sys2Proof.Machine

/-! ### Registers (Tables 16-13 to 16-15) -/

/-- Code of a slot state. -/
def cartCode : CartState → Nat
  | .empty => 0
  | .bringup => 1
  | .current => 2
  | .stale => 3
  | .blank => 4
  | .foreign => 5
  | .rebuilding => 6
  | .retired => 7
  | .failed => 8
  | .released => 9

/-- `SPARES_PCT` (R523). -/
def sparesPct (k : CartSlot) : Nat := if k.sparesOrig = 0 then 0 else k.sparesLeft * 100 / k.sparesOrig

/-- `VAULT_SLOTn`. -/
def vaultSlot (n : Nat) (s : State) : Word := wfield (cartCode (s.cart n).state) 28 ||| wfield (sparesPct (s.cart n)) 0

/-- Code of a layout. -/
def layoutCode : Layout → Nat
  | .mirrored => 0
  | .striped => 1
  | .single => 2

/-- `VAULT_STATUS`. -/
def vaultStatus (s : State) : Word :=
  wfield (layoutCode (vaultLayout s)) 30 ||| wbit s.vault.ident.isSome 29 ||| wbit (vaultAvailable s) 28
    ||| wbit s.vault.copying.isSome 27

/-- Set a bit of `VAULT_ERR` for a slot (R547). -/
def vaultErr (n slot : Nat) (s : State) : State := raiseErr 0xC010 0xC014 0xC001 n (wfield slot 8 ||| wfield n 0) s

/-- `VAULT_SLOTn_CTL.RELEASE` reads 1. -/
def releasing (n : Nat) (s : State) : Bool := regBit (0xC018 + 4 * n) 0 s

/-- The cartridge in the slot has been measured and its `SURVEY_CARTn.ID_OK` is 1 (R523). -/
def cartIdOk (n : Nat) (s : State) : Bool := (s.cart n).measured && regBit (0x0280 + 4 * n) 29 s

/-! ### Durability (R531 to R533) -/

/-- Apply one change to the archive. -/
def applyOp (a : Archive) : ArchOp → Archive
  | .put i g r => { a with keys := assocSet i (some (g, r)) a.keys }
  | .del i => { a with keys := assocSet i none a.keys }
  | .floor i f => { a with floors := assocSet i (some f) a.floors }
  | .pool n p => { a with pools := assocSet n (some p) a.pools }
  | .shape l d => { a with shape := some (l, d) }
  | .kept k => { a with kept := (a.kept.filter fun x => x.ddn != k.ddn) ++ [k] }
  | .applet n b => { a with
      applets := assocSet n (some b) a.applets
      versions := assocSet n (some (max (natAt b 8 4) ((assocGet n a.versions).getD 0))) a.versions }
  | .appletDel n => { a with applets := assocSet n none a.applets, pstores := assocSet n none a.pstores }
  | .pstore n g b => { a with pstores := assocSet n (some (g, b)) a.pstores }
  | .exportMark t => { a with exportMark := t }
  | .custodians t => { a with custodians := some t }

/-- Highest tally a segment carries. -/
def Seg.lastTally (g : Seg) : Nat := g.recs.foldl (fun m r => max m r.tally) 0

/-- Reclaim the audit segments below the export mark (R544). -/
def reclaimAudit (s : State) : State :=
  let m := s.vault.archive.exportMark
  let old := (s.vault.auditSegs.filter fun t => decide (t < m)).length
  if old = 0 then s
  else
    let s := s.modVault fun v => { v with
      auditSegs := v.auditSegs.filter fun t => !decide (t < m)
      auditUsed := v.auditUsed - old
      audit := v.audit.filter fun r => !decide (r.tally < m) }
    s.modVault fun v => { v with auditHigh := v.auditHigh && !decide (10 * v.auditUsed < 9 * auditTotal s) }

/-- A durable segment with every earlier one durable becomes part of the vault's image (R530, R532). -/
def settleSeg (g : Seg) (s : State) : State :=
  let s := s.modVault fun v => { v with
    archive := g.ops.foldl applyOp v.archive
    audit := v.audit ++ g.recs
    auditSegs := if g.kind = .audit then v.auditSegs ++ [g.lastTally] else v.auditSegs
    durableTally := max v.durableTally g.lastTally }
  reclaimAudit s

/-- Settle the durable segments at the head of the journal. -/
def settleSegs : Nat → State → State
  | 0, s => s
  | fuel + 1, s => match s.vault.inflight with
    | [] => s
    | g :: rest =>
      if g.waits.isEmpty && !(s.vault.lost.any fun l => decide (l.seq < g.seq)) then
        settleSegs fuel (settleSeg g (s.modVault fun v => { v with inflight := rest }))
      else s

/-- Tokens have changed: durable segments settle, and keeper statements they hold are acknowledged. -/
def vaultProgress (s : State) : State := ackDurable (settleSegs (s.vault.inflight.length + 1) s)

/-- Write again, oldest first, the segments that no cartridge holds, now that a cartridge and a key are there (R535). -/
def resendLost (s : State) : State :=
  if !vaultWritable s then s
  else
    let go := s.vault.lost.filter fun g => !(segTargets g.seq s).isEmpty && segKey g.kind s
    let stay := s.vault.lost.filter fun g => (segTargets g.seq s).isEmpty || !segKey g.kind s
    s.modVault fun v => { v with
      lost := stay
      inflight := (go.map fun g => { g with waits := segTargets g.seq s, doneOn := [] }) ++ v.inflight }

/-- SEGMENT_SEAL: the open segment of a kind is sealed, its 200 µs over or its payload full (R531). -/
def execSegmentSeal (k : SegKind) (s : State) : Out := .next <|
  if segKey k s then sealKind k s else s

/-! ### Leaving the set (R534, R535) -/

/-- Commands that wait for indeterminate writes complete (R535). -/
def endWaiting (seqs : List Nat) (st : Status) (s : State) : State :=
  finishAll (fun c => match c.waitSeg with
    | some q => seqs.contains q
    | none => false) st s

/-- Settle the writes in flight of a slot that leaves: done where another cartridge holds them, else indeterminate. -/
def settleLeaving (n : Nat) (retired : Bool) (s : State) : State :=
  let drop := fun (g : Seg) => { g with waits := g.waits.filter (· != n), doneOn := g.doneOn.filter (· != n) }
  let hit := s.vault.inflight.filter fun g => g.waits.contains n && (drop g).waits.isEmpty && (drop g).doneOn.isEmpty
  let seqs := hit.map (·.seq)
  let s := s.modVault fun v => { v with
    inflight := (v.inflight.filter fun g => !seqs.contains g.seq).map fun g => if g.waits.contains n then drop g else g
    lost := v.lost ++ hit.map drop }
  if seqs.isEmpty then vaultProgress s
  else vaultProgress (endWaiting seqs (if retired then .cartridgeRetired else .cartridgeIndeterminate) (vaultErr 2 n s))

/-- A cartridge leaves its slot's place: from the set under R534, or from a copy, which stops (R541). -/
def leaveSlot (n : Nat) (into : CartState) (s : State) : State :=
  let was := (s.cart n).state
  let copying : Bool := match s.vault.copying with
    | some (m, _) => m == n || was == .current
    | none => false
  let target : Option Nat := s.vault.copying.map (·.1)
  let s := s.modCart n fun k => { k with state := into }
  let s := if copying then
      let s := s.modVault fun v => { v with copying := none }
      match target with
      | some m => if m = n then s else s.modCart m fun k => { k with state := if k.state = .rebuilding then .blank else k.state }
      | none => s
    else s
  if was = .current then
    let s := s.modVault fun v => { v with epoch := v.epoch + 1 }
    let s := logRecord 0x14 s.vault.epoch s
    let s := settleLeaving n (into == .retired) s
    let s := setDegraded 0 s
    postEvt .both 0xC002 (wfield (cartCode into) 8 ||| wfield n 0) (BitVec.ofNat 128 s.vault.epoch) s
  else if copying then settleLeaving n (into == .retired) s
  else s

/-- A slot is treated as removed (R527). -/
def removeCart (n : Nat) (s : State) : State :=
  if (s.cart n).state = .empty then s
  else regSet (0xC018 + 4 * n) 0 (leaveSlot n .empty s)

/-- A cartridge retires (R524, R540). -/
def retireCart (n : Nat) (s : State) : State :=
  if (s.cart n).state = .retired then s else leaveSlot n .retired (postEvt .both 0xC005 (wfield n 0) 0 s)

/-- A write awaits a slot's token. -/
def slotBusy (n : Nat) (s : State) : Bool := s.vault.inflight.any fun g => g.waits.contains n

/-- A release whose writes are done takes effect (Table 16-14). -/
def releaseDue (n : Nat) (s : State) : State :=
  if releasing n s && !slotBusy n s && (s.cart n).state != .released && (s.cart n).state != .empty then leaveSlot n .released s else s

/-- A write of 1 to `VAULT_SLOTn_CTL.RELEASE` (R546). -/
def slotRelease (n : Nat) (s : State) : State :=
  if (s.cart n).state = .empty then s
  else if currentSlots s = [n] then vaultErr 3 n s
  else releaseDue n (regSet (0xC018 + 4 * n) 1 s)

/-- ROLLUP_CLOSE: an RTC second has passed, and the rollup of the last one becomes one audit record (R26, R543). -/
def execRollupClose (s : State) : Out := .next <|
  if s.dev.mainOn && s.backup.rtcSec != s.vault.rollSecond && rollupFits s then closeRollup s else s

/-- PRESENCE_CHECK of an idle bus: `present` is what DAT0 shows (R527). -/
def execPresenceCheck (n : Fin 2) (present : Bool) (s : State) : Out := .next <|
  if slotBusy n s || present then s else removeCart n s

/-- TOKEN_TIMEOUT: a response or token misses its limit (R527). -/
def execTokenTimeout (n : Fin 2) (s : State) : Out := .next <|
  if slotBusy n s || (s.cart n).state == .bringup || s.vault.copying.isSome then removeCart n (bump 0xC110 1 s) else s

/-! ### Spares and tokens (R526, R539, R540) -/

/-- A `STATUS` answer: spares left and the cartridge's own `STATE` (R539). -/
def cartPoll (n left st : Nat) (s : State) : State :=
  let s := s.modCart n fun k => { k with sparesLeft := left }
  let pct := sparesPct (s.cart n)
  let s := if pct < fieldOf (regGet 0xC00C s) 6 0 ∧ !(s.cart n).warned then
      postEvt .both 0xC006 (wfield (pct % 256) 8 ||| wfield n 0) 0 (s.modCart n fun k => { k with warned := true })
    else s
  if st = 0 then s else retireCart n s

/-- CART_STATUS_POLL of a cartridge of the set (R539). -/
def execCartStatusPoll (n : Fin 2) (left : BitVec 32) (st : BitVec 8) (s : State) : Out := .next <|
  if (s.cart n).state = .current then cartPoll n left.toNat st.toNat s else s

/-- A cartridge slot's token for the segment whose `SEQ` modulo 128 is the write tag (R526; log 27). -/
def tagSeg (n tag : Nat) (s : State) : Option Seg := s.vault.inflight.find? fun g => g.seq % 128 == tag && g.waits.contains n

/-- Update a segment in flight. -/
def modSeg (seq : Nat) (f : Seg → Seg) (s : State) : State :=
  s.modVault fun v => { v with inflight := updFirst (fun g => g.seq == seq) f v.inflight }

/-- One bit into a CRC-15 register: polynomial 0xC599 (Table 16-2). -/
def crc15Bit (c : Nat) (b : Bool) : Nat := let t := 2 * c + bit b; if t < 2 ^ 15 then t else (t ^^^ 0xC599) % 2 ^ 15

/-- CRC-15 of a CMD frame over bits [63:16], most significant bit first, the register zero at first and driven out by 15 zero bits
(Table 16-2). -/
def crc15 (f : BitVec 64) : Nat :=
  ((List.range 48).map (fun i => f.getLsbD (63 - i)) ++ List.replicate 15 false).foldl crc15Bit 0

/-- A CMD frame that a cartridge sends is whole: start, direction and end bits, and the CRC (Table 16-2). -/
def frameWhole (f : BitVec 64) : Bool := !f.getLsbD 63 && !f.getLsbD 62 && f.getLsbD 0 && f.toNat / 2 % 2 ^ 15 == crc15 f

/-- A whole frame that is a completion token: its index is 0x3F (Table 16-2). -/
def frameToken (f : BitVec 64) : Bool := frameWhole f && f.toNat / 2 ^ 56 % 64 == 0x3F

/-- COMPLETION_TOKEN: a frame arrives from a cartridge; in a token, status 0x00 done, 0x01 media error, 0x02 read-only, with the write tag
in data [6:0]; `left` and `cst`: the `STATUS` read after a media error (R526, R532, R539, R540). A frame whose CRC fails counts and is no
token. -/
def execCompletionToken (n : Fin 2) (f : BitVec 64) (left : BitVec 32) (cst : BitVec 8) (s : State) : Out := .next <|
  let status := f.toNat / 2 ^ 48 % 256
  if !frameWhole f then bump 0xC10C 1 s
  else if !frameToken f then s
  else match tagSeg n (f.toNat / 2 ^ 16 % 128) s with
  | none => s
  | some g =>
    if status = 0 then
      let s := modSeg g.seq (fun g => { g with waits := g.waits.filter (· != n.val), doneOn := g.doneOn ++ [n.val] }) s
      let s := s.modCart n fun k => { k with lastSeq := max k.lastSeq g.seq }
      releaseDue n (vaultProgress s)
    else if status = 1 then
      let s := vaultErr 1 n (bump 0xC108 1 s)
      let s := modSeg g.seq (fun g => { g with errs := g.errs + 1 }) s
      if 3 ≤ g.errs + 1 then leaveSlot n .failed s else cartPoll n left.toNat cst.toNat s
    else if status = 2 then retireCart n s
    else s

/-! ### Arrival and bring-up (R523, R525, R536 to R538) -/

/-- CARTRIDGE_INSERT: a cartridge is present in an empty slot; bring-up begins (R525). `SURVEY_CARTn` holds its value until the slot is
measured again (R112). -/
def execCartridgeInsert (n : Fin 2) (s : State) : Out := .next <|
  if slotFitted n s && (s.cart n).state == .empty && s.dev.mainOn then
    s.modCart n fun k => { k with state := .bringup, label := none, warned := false, unopened := false, measured := false }
  else s

/-- The slot's cartridge is measured: `SURVEY_CARTn` takes its value (R112). -/
def surveyCart (n : Nat) (idOk v12 : Bool) (st : Nat) (s : State) : State :=
  let s := s.modCart n fun k => { k with measured := true }
  regSet (0x0280 + 4 * n) (wbit true 31 ||| wbit true 30 ||| wbit idOk 29 ||| wbit (st == 2) 28 ||| wbit v12 27
    ||| wbit (decide (st = 1 ∨ st = 2)) 26 ||| wfield (sparesPct (s.cart n)) 0) s

/-- An identity page is one of a ZJ-V2: its `MAGIC`, `BLOCKS` and reserved bytes (Table 16-1). -/
def pageOk (b : List Byte) : Bool :=
  bytesAt b 0 4 == [0x5A, 0x4A, 0x56, 0x32] && natAt b 12 4 == 536870912 && allZero (bytesAt b 25 7) && allZero (bytesAt b 192 3904)

/-- SLOT_BRING_UP ends (Table 16-4): `answers`: step 1 succeeded, with the identity page; `proof`: certificate and challenge verify under
the root that only the boot ROM holds; `v12`: the 1.2 V switch succeeded (R522, R523, R525). A page that is not of Table 16-1 has no
certificate that verifies. -/
def execSlotBringUp (n : Fin 2) (answers proof v12 : Bool) (page : List Byte) (s : State) : Out := .next <|
  let st := natAt page 24 1
  if (s.cart n).state ≠ .bringup ∨ (s.cart n).measured then s
  else if !answers then surveyCart n false false 0 (s.modCart n fun k => { k with state := .failed, sparesOrig := 0, sparesLeft := 0 })
  else
    let s := s.modCart n fun k => { k with serial := natAt page 4 8, sparesOrig := natAt page 16 4, sparesLeft := natAt page 20 4 }
    if !proof || !pageOk page then vaultErr 0 n (surveyCart n false false st (s.modCart n fun k => { k with state := .failed }))
    else surveyCart n true v12 st s

/-- With one current cartridge of a mirrored vault, a stale one is caught up and a blank one rebuilt (R537, R541). -/
def startCopy (n first : Nat) (rebuild : Bool) (s : State) : State :=
  if vaultLayout s = .mirrored ∧ s.vault.copying.isNone ∧ (currentSlots s).any (· != n) then
    let s := s.modVault fun v => { v with copying := some (n, rebuild), copyFrom := first }
    if rebuild then s.modCart n fun k => { k with state := .rebuilding } else s
  else s

/-- The `GAP` record of this power-up, once the vault serves (R533). -/
def gapRecord (s : State) : State :=
  match s.vault.gap with
  | none => s
  | some t => auditDev 5 (le 8 s.vault.durableTally ++ le 8 t) (s.modVault fun v => { v with gap := none })

/-- A cartridge becomes current: its label takes the epoch, lost writes are made again, and with the set complete `CART` clears. -/
def becomeCurrent (n : Nat) (s : State) : State :=
  let s := s.modCart n fun k => { k with
    state := .current, label := s.vault.ident.map fun i => (i, s.vault.epoch), lastSeq := s.vault.nextSeq - 1, member := some k.serial }
  let s := resendLost s
  let s := if s.vault.gap.isSome && vaultAvailable s then gapRecord s else s
  if (currentSlots s).length < layoutNeeds s then s else clearDegraded 0 s

/-- The other slot holds a stale cartridge that can now be caught up. -/
def copyOther (n : Nat) (s : State) : State :=
  if (s.cart (1 - n)).state = .stale then startCopy (1 - n) ((s.cart (1 - n)).lastSeq + 1) false s else s

/-- The vault key of this device's vault unwraps under the master key-encryption key held (R109, R529). -/
def vaultOpens (s : State) : Bool := !s.backup.mkek.isEmpty && s.backup.mkek == s.vault.kek

/-- Segments of a journal that replay keeps: those before the first whose seal fails (R536). -/
def segsKept (segs : List (Nat × Bool)) : List (Nat × Bool) := segs.takeWhile (·.2)

/-- The first `SEQ` that replay discards; 0 with none. -/
def firstLost (segs : List (Nat × Bool)) : Nat := ((segs.dropWhile (·.2)).map (·.1)).headD 0

/-- VAULT_REPLAY: the arriving cartridge's label and journal are read. `label`: its vault identifier and epoch; `segs`: each segment above
the unit `SEQ`s of its archive image in order, by `SEQ`, and whether its seal verifies (R536, R537). -/
def execVaultReplay (n : Fin 2) (label : Option (BitVec 64 × BitVec 32)) (segs : List (Nat × Bool)) (s : State) : Out := .next <|
  if (s.cart n).state ≠ .bringup ∨ !cartIdOk n s then s
  else
    let kept := (segsKept segs).length
    let discarded := segs.length - kept
    let first := firstLost segs
    let s := postEvt .both 0xC003 (wfield n.val 0) (BitVec.ofNat 128 (kept % 2 ^ 32 + 2 ^ 32 * (discarded % 2 ^ 32) + 2 ^ 64 * first)) s
    let s := auditDev 6 (le 1 n.val ++ le 4 kept ++ le 4 discarded ++ le 8 first) s
    let opened := vaultOpens s && (label.map fun l => l.1.toNat) == s.vault.ident
    let s := s.modCart n fun k => { k with label := label.map fun l => (l.1.toNat, l.2.toNat), unopened := !opened }
    let k := s.cart n
    let missed := discarded != 0 && decide (first ≤ k.lastSeq)
    if regBit (0x0280 + 4 * n.val) 26 s then s.modCart n fun k => { k with state := .retired }
    else match label with
      | none => startCopy n 0 true (s.modCart n fun k => { k with state := .blank })
      | some (i, e) =>
        if s.vault.ident ≠ some i.toNat then s.modCart n fun k => { k with state := .foreign }
        else
          let s := s.modVault fun v => { v with vaultKey := v.vaultKey || opened }
          if e.toNat = s.vault.epoch then copyOther n (becomeCurrent n s)
          else if vaultLayout s ≠ .mirrored ∧ k.member = some k.serial ∧ !missed then becomeCurrent n s
          else startCopy n (if discarded = 0 then k.lastSeq + 1 else first) false (s.modCart n fun k => { k with state := .stale })

/-- CATCH_UP_DONE: a stale mirror holds every segment and becomes current (R537). -/
def execCatchUpDone (n : Fin 2) (s : State) : Out := .next <|
  if s.vault.copying = some (n.val, false) then becomeCurrent n (s.modVault fun v => { v with copying := none }) else s

/-- VAULT_REBUILD_DONE: the copy is whole; the cartridge is current (R541). -/
def execVaultRebuildDone (n : Fin 2) (s : State) : Out := .next <|
  if s.vault.copying = some (n.val, true) then
    postEvt .both 0xC004 (wfield n.val 0) 0 (becomeCurrent n (s.modVault fun v => { v with copying := none }))
  else s

/-! ### Class 0x7 opcodes (Table 16-11) -/

/-- A slot holds a cartridge that VAULT_FORMAT takes as blank (R109). -/
def formattable (n : Nat) (s : State) : Bool :=
  let k := s.cart n
  cartIdOk n s && (k.state == .blank || (k.unopened && k.label.isSome && (k.state == .foreign || k.state == .stale || k.state == .current)))

/-- Slots that the layout needs. -/
def layoutSlots (s : State) : List Nat := if vaultLayout s = .single then [0] else [0, 1]

/-- VAULT_FORMAT formats the vault on blank cartridges (R528, R545); the epoch advances (log 25). -/
def execVaultFormat (id : Nat) (s : State) : Out := .next <| runOp { noKeys with
    params := fun c s => badUnless (c.keyA == 0 && c.keyB == 0 && allZero c.inl && (layoutSlots s).all fun n => formattable n s) } 0x7001 id
  (fun c s => withKey c 40 s fun k s =>
    let i := leNat (k.take 8)
    let s := s.modVault fun v => { v with
      ident := some i, epoch := v.epoch + 1, archive := ⟨[], [], [], none, [], [], [], [], 0, none⟩, audit := [], auditSegs := [], auditUsed := 0
      auditHigh := false, lost := [], inflight := [], vaultKey := !s.backup.mkek.isEmpty, sealKey := k.drop 8, kek := s.backup.mkek, copying := none, gap := none }
    let s := logRecord 0x14 s.vault.epoch s
    let s := (layoutSlots s).foldl (fun s n => becomeCurrent n (s.modCart n fun k => { k with unopened := false })) s
    finish c (Ending.inline (le 8 i)) s) s

/-- The 64 bytes of VAULT_STATUS. -/
def vaultStatusBytes (s : State) : List Byte :=
  le 4 (vaultStatus s).toNat ++ le 4 (vaultSlot 0 s).toNat ++ le 4 (vaultSlot 1 s).toNat ++ le 4 s.vault.epoch ++ le 8 s.vault.durableTally
    ++ le 8 s.vault.archive.exportMark ++ le 8 (auditTotal s - s.vault.auditUsed) ++ le 8 s.vault.slot0.serial ++ le 8 s.vault.slot1.serial
    ++ zeros 8

/-- VAULT_STATUS reports the vault (R545). -/
def execVaultStatus (id : Nat) (s : State) : Out := .next <| runOp { noKeys with lens := needDst 64 } 0x7002 id (fun c s =>
  finish c (Ending.out (vaultStatusBytes s)) s) s

/-- Whole records from a tally on, at most `room` bytes: the bytes and the next tally to read. -/
def takeRecs (room : Nat) : List JRec → Nat → List Byte × Nat
  | [], t => ([], t)
  | r :: rs, t =>
    if room < r.bytes.length then ([], r.tally)
    else
      let x := takeRecs (room - r.bytes.length) rs (r.tally + 1)
      (r.bytes ++ x.1, max t x.2)

/-- Durable audit records from a tally on. -/
def recsFrom (t : Nat) (s : State) : List JRec := s.vault.audit.filter fun r => decide (t ≤ r.tally)

/-- The first record does not fit: `BAD_LENGTH` with the length needed (R169). -/
def recsShort (c : Cmd) (more : Nat) (s : State) : Option Ending := match recsFrom (c.inlNat 48 8) s with
  | [] => needDst more c
  | r :: _ => needDst (r.bytes.length + more) c

/-- JOURNAL_READ reads audit records (R545). -/
def execJournalRead (id : Nat) (s : State) : Out := .next <| runOp noKeys 0x7003 id (fun c s =>
  if (currentSlots s).isEmpty then finishSt c .modeForbids s
  else match recsShort c 0 s with
    | some e => finish c e s
    | none =>
      let x := takeRecs c.dstLen (recsFrom (c.inlNat 48 8) s) (c.inlNat 48 8)
      finish c ⟨.ok, x.1.length, le 8 x.2, x.1, []⟩ s) s

/-- JOURNAL_EXPORT exports records with a signature (a free value, log 65); with `ADVANCE`, the export mark moves, synchronously: the
output waits in the command meanwhile. -/
def execJournalExport (id : Nat) (s : State) : Out := .next <| runOp noKeys 0x7004 id (fun c s =>
  match c.waitSeg with
  | some seg => if durable seg s then finish c ⟨.ok, c.data.length, le 8 (c.scratch.getD 0 0), c.data, []⟩ s else s
  | none =>
    if (currentSlots s).isEmpty then finishSt c .modeForbids s
    else match recsShort c 4627 s with
      | some e => finish c e s
      | none =>
        let x := takeRecs (c.dstLen - 4627) (recsFrom (c.inlNat 48 8) s) (c.inlNat 48 8)
        let (sig, s) := drawBytes 4627 s
        let out := x.1 ++ sig
        if (c.inlByte 56).getLsbD 0 then
          if !vaultAccepts s || !s.vault.vaultKey then finishSt c .modeForbids s
          else
            let (seg, s) := archiveSync .archive (.exportMark x.2) s
            cmdPut { c with waitSeg := some seg, data := out, scratch := [x.2] } s
        else finish c ⟨.ok, out.length, le 8 x.2, out, []⟩ s) s

/-- VAULT_REBUILD starts a rebuild onto a slot (R541, R545). -/
def execVaultRebuild (id : Nat) (s : State) : Out := .next <| runOp noKeys 0x7005 id (fun c s =>
  let n := c.inlNat 48 1
  let force := c.form == 1 && (c.inlByte 49).getLsbD 0
  let st := (s.cart n).state
  if force ∧ !s.dev.quorum then finishSt c .quorumNotMet s
  else if 2 ≤ n ∨ vaultLayout s ≠ .mirrored then finishSt c .badParam s
  else if st = .retired then finishSt c .cartridgeRetired s
  else if !((currentSlots s).any (· != n)) ∨ s.vault.copying.isSome ∨ !(st == .blank || (force && st == .foreign)) then finishSt c .badParam s
  else finishSt c .ok (startCopy n 0 true s)) s

/-- VAULT_SET_LAYOUT chooses the layout before the format (R528); basic form is `BAD_FORM` (Table 16-11). -/
def execVaultSetLayout (id : Nat) (s : State) : Out := .next <| runOp { noKeys with
    params := fun c s => if c.form = 0 then some .badForm else badUnless (c.keyA == 0 && c.keyB == 0 && decide (c.inlNat 48 1 ≤ 1) && s.fuses.grade != .s4 && s.vault.ident.isNone) }
    0x7006 id (fun c s => finishSt c .ok (s.modVault fun v => { v with layout := if c.inlNat 48 1 = 1 then .striped else .mirrored })) s

end Sys2Proof.Machine
end

