-- ==== Sys2Proof/Machine/Alarms.lean ====
section
/-! DEFINITION. Alarms and what they do (chapter 18): raising, the response lines, records and levels, erasures, the evidence
counter, the Punty shadow, zeroization. -/
namespace Sys2Proof.Machine

/-- Set a bit of `TAMPER_ERR` (R594). -/
def tamperErr (n : Nat) (s : State) : State := raiseErr 0xE050 0xE054 0xE004 n (wfield n 0) s

/-! ### Levels (R572, R574, Table 18-1) -/

/-- Lowest level of sources 0 to 9. -/
def lowestLevel (n : Nat) : Nat := if n = 0 ∨ n = 1 ∨ n = 8 ∨ n = 9 then 3 else 2

/-- A tamper pin. -/
def pinGet (n : Nat) (s : State) : TPin := s.backup.pins.getD n ⟨0, false, false, 0, 0, 0⟩

/-- Level of a source as configured. -/
def sourceLevel (n : Nat) (s : State) : Nat :=
  if n < 10 then fieldOf (regGet 0xE00C s) (3 * n + 2) (3 * n)
  else if n < 18 then (pinGet (n - 10) s).level
  else if n = 18 then 3
  else 2

/-- A source is watched in HOLD (Table 18-1). -/
def watchedInHold (n : Nat) : Bool := n != 2 && n != 3 && n != 20 && decide (n < 24)

/-! ### Backup records (R583) -/

/-- Place a record in the ring; a full one drops the oldest record of the lowest level below the new one's. -/
def putRecord (r : BackRec) (s : State) : State :=
  let rs := s.backup.records
  if rs.length < 128 then s.modBackup fun b => { b with records := b.records ++ [r] }
  else
    let low := rs.foldl (fun m x => min m x.level) 255
    if low < r.level then
      s.modBackup fun b => { b with records := (b.records.takeWhile fun x => x.level != low)
        ++ (b.records.dropWhile fun x => x.level != low).tail ++ [r] }
    else tamperErr 3 (s.modBackup fun b => { b with lost := satAdd 8 b.lost 1 })

/-- A record of the moment. -/
def recordNow (tally kind source level flags a b : Nat) (s : State) : BackRec :=
  ⟨s.backup.rtcSec, s.backup.rtcFrac, s.backup.rtcValid, tally, kind, source, level, flags, a, b⟩

/-- The first 32 bytes of a record (Table 18-4). -/
def recordBytes (r : BackRec) : List Byte :=
  le 6 r.sec ++ le 2 (r.frac % 2 ^ 15 + 2 ^ 15 * bit r.valid) ++ le 8 r.tally ++ le 1 r.kind ++ le 1 r.source ++ le 1 r.level ++ le 1 r.flags
    ++ le 4 r.a ++ le 4 r.b ++ zeros 4

/-- The event and the audit record of an alarm that has its tally (Table 18-3). -/
def announceAlarm (r : BackRec) (s : State) : State :=
  let hold := r.flags / 4 % 2
  let s := sendEvt .both ⟨0xE001, wfield hold 16 ||| wfield r.level 8 ||| wfield r.source 0,
    BitVec.ofNat 128 (r.sec + 2 ^ 64 * r.a + 2 ^ 96 * r.b), r.tally⟩ s
  auditDev 3 (recordBytes r) s

/-- Insert an alarm by source rising; equal sources keep their order. -/
def insertRaised (r : Raised) : List Raised → List Raised
  | [] => [r]
  | x :: xs => if r.source < x.source then r :: x :: xs else x :: insertRaised r xs

/-- The record of an alarm that has no tally yet (R577). -/
def recordUntallied (s : State) (r : Raised) : State :=
  puntyAlarm r.source r.level 0 (putRecord (recordNow 0 1 r.source r.level 0 r.a r.b s) s)

/-- The backup domain keeps the records of alarms that main power loss finds without one (R583). -/
def recordHeld (s : State) : State := (s.tamper.raised.foldl (fun l r => insertRaised r l) []).foldl recordUntallied s

/-- `RESP_LEVEL` follows the alarms in force; a change receives a tally (R576, R577). -/
def updateLevel (s : State) : State :=
  let new := s.tamper.alarms.foldl (fun m a => max m a.2) 0
  let old := s.tamper.respLevel
  if new = old then s
  else
    let (t, s) := issueTally s
    let s := s.modTamper fun x => { x with respLevel := new }
    puntyTouch t (sendEvt .both ⟨0xE002, wfield old 4 ||| wfield new 0, 0, t⟩ s)

/-! ### Sessions and erasures (R579) -/

/-- Custodian session identifier (R552). -/
def sessionId (x : CustSession) : Nat := x.cust + 256 * x.kind + 65536 * (x.tally % 2 ^ 48)

/-- End a custodian session: its key goes, CUST_SESSION is posted, and the verdict is evaluated anew (R553, R554). -/
def endSession (n : Nat) (s : State) : State :=
  match s.cust.sessions.find? (fun x => x.cust == n) with
  | none => s
  | some x =>
    let s := s.modCust fun c => { c with sessions := c.sessions.filter fun y => y.cust != n, evalDue := true }
    postEvt .both 0xD003 (wfield n 0) (BitVec.ofNat 128 (sessionId x)) s

/-- End every custodian session. -/
def endSessions (s : State) : State := s.cust.sessions.foldl (fun s x => endSession x.cust s) s

/-- R257 at level 3: the key cache is erased and every session record is cullet at once. -/
def keysScrub (s : State) : State :=
  s.keytab.slots.foldl (fun s p =>
    let session := match p.2.entry with
      | some r => !r.persist
      | none => false
    let s := slotSet p.1 { p.2 with cached := false } s
    if session then cullet p.1 s else s) s

/-- The erasures of level 3 begin: every unit's registers, sessions, mesh links, working vault keys. -/
def scrub (s : State) : State :=
  let s := rngErase (pkeErase (cipherErase (flumeErase s)))
  let s := endSessions (keysScrub s)
  let s := (List.range s.cistern.ports.length).foldl (fun s n => closeSession n s) s
  s.modTamper fun t => { t with scrubbing := true, reform := true }

/-- Commands that have not begun writing complete with `ABORTED_ALARM` at level 2 and above; one still being fetched is marked (R173,
log 81). `keep`: the command whose critical decision disagreed, which repeats its pair (R98; log 118). -/
def abortAlarm (keep : Option Nat) (s : State) : State :=
  let s := finishAll (fun c => !c.wroteDst && c.phase != .fetched && some c.id != keep) .abortedAlarm s
  s.modCmdif fun i => { i with cmds := i.cmds.map fun c => if c.phase = .fetched then { c with scratch := [1] } else c }

/-- The fast clocks start: the E9 leaves sleep, and the links their low-power state (R35, Table 4-1). -/
def awaken (s : State) : State :=
  if s.dev.asleep then
    let s := s.modDev fun d => { d with asleep := false }
    let s := (s.modPort .a fun q => { q with lowPower := false }).modPort .b fun q => { q with lowPower := false }
    s.modCistern fun x => { x with ports := x.ports.map fun p => { p with lowPower := false } }
  else s

/-- Set a Warden interrupt pending on every core: bit `n` for code 0x10 + n. -/
def wardenIrq (n : Nat) (s : State) : State :=
  s.modWarden fun w =>
    let f := fun (k : Core) => { k with ipend := k.ipend ||| (1 <<< n) }
    { w with c0 := f w.c0, c1 := f w.c1, c2 := f w.c2, c3 := f w.c3 }

/-- What the response lines do at once for an alarm of a level (Table 18-3, R577); they also wake the E9 at level 2 and above (R35). -/
def respond (keep : Option Nat) (level : Nat) (s : State) : State :=
  let s := wardenIrq 8 s
  let s := if 2 ≤ level then abortAlarm keep (awaken s) else s
  let s := if 3 ≤ level then scrub s else s
  if level = 4 then s.modTamper fun t => { t with deciding := true } else s

/-- An alarm of a source is raised under main power: in force at once, recorded at the next slow edge (R577). -/
def raiseBut (keep : Option Nat) (source a b : Nat) (s : State) : State :=
  let l := sourceLevel source s
  let s := s.modTamper fun t => { t with alarms := assocSet source (some l) t.alarms, raised := t.raised ++ [⟨source, l, a, b⟩] }
  respond keep l s

/-- An alarm that no command's decision raises. -/
def raiseAlarm (source a b : Nat) (s : State) : State := raiseBut none source a b s

/-- The two computations of a critical decision disagree: source 18 (Table 18-1). -/
def disagree (s : State) : State := raiseAlarm 18 0 0 s

/-- The two computations of a command's decision disagree: the command stays, and its row computes the pair again (R98). -/
def disagreeOf (id : Nat) (s : State) : State := raiseBut (some id) 18 0 0 s

/-! ### Evidence and retirement (R98, R99, R581, R582) -/

/-- Post EVIDENCE_BURN and write its backup record. -/
def evidenceBurn (s : State) : State :=
  let (t, s) := issueTally s
  let s := sendEvt .both ⟨0xE003, wbit s.otp.retire 16 ||| wfield s.otp.evidence 0, 0, t⟩ s
  puntyTouch t (putRecord (recordNow t 5 0xFF 0 0 0 0 s) s)

/-- Enter RETIRED: the fuse is burned before the mode change receives its tally (R99). Fetched commands end but for the one that causes
the change (log 83). -/
def retireBut (keep : Option Nat) (s : State) : State :=
  if s.dev.mode = .retired then s
  else
    let s := { s with otp := { s.otp with retire := true } }
    let s := evidenceBurn s
    let s := finishAll (fun c => c.phase != .fetched && some c.id != keep) .abortedAlarm s
    changeMode .retired s

/-- Enter RETIRED by a counted event or by mode selection. -/
def enterRetired (s : State) : State := retireBut none s

/-- A counted event under main power: the pending increment, the burn, and its clearing; with every bit burned, the decision to enter
RETIRED is to be computed (R98, R582; log 119). -/
def countedEvent (s : State) : State :=
  if 512 ≤ s.otp.evidence then s.modTamper fun t => { t with deciding := true, retiring := true }
  else evidenceBurn { s with otp := { s.otp with evidence := s.otp.evidence + 1 } }

/-! ### Zeroization (Table 18-3, R580) -/

/-- The key store's keys erased and its DRAM overwritten (R257). -/
def keyStoreErase (s : State) : State :=
  s.modKeys fun t => { t with
    slots := [], freeLocal := [], freeDomain := [], granFree := granulePool s, floorsLoaded := false, restoring := false, restoreDone := false
    toRestore := [], fills := [], xtsKey := [], macKey := [] }

/-- The master key-encryption key and everything under it is destroyed: the key store, ledger shares, applet stores, the vault key. -/
def destroyKeys (s : State) : State :=
  let s := (s.modBackup fun b => { b with mkek := [] }).modDev fun d => { d with rootKeys := false }
  let s := keyStoreErase s
  let s := ledgerZeroize s.dev.nextTally s
  let s := (List.range 4).foldl (fun s n => coreMod n (fun k => { k with inv := none }) s) s
  let s := s.modWarden fun w => { w with applets := [] }
  s.modVault fun v => { v with
    vaultKey := false, kek := [], sealKey := []
    archive := { v.archive with keys := [], floors := [], pools := [], kept := [], applets := [], pstores := [] }
    slot0 := { v.slot0 with unopened := true }, slot1 := { v.slot1 with unopened := true } }

/-- Enter ZEROIZED, its `MODE_STATE` record first (R108). -/
def enterZeroized (s : State) : State :=
  if s.dev.mode = .zeroized ∨ s.dev.mode = .retired then s else changeMode .zeroized (setModeFlags 0x2 0xC s)

/-- SURVEY has ended by an alarm's mode change: its end shows, and the doorbell writes it held are served (R87, Table 3-8; log 120). -/
def surveyCut (s : State) : State :=
  let (us, s) := drawNat s
  let s := regSet 0x0204 (BitVec.ofNat 32 us) (regOr 0x0200 (wbit true 31) s)
  serveHeld (s.modDev fun d => { d with selected := none, boot := if d.boot = .selected then .running else d.boot })

/-- A mode change that an alarm's decision brings, out of SURVEY too. -/
def alarmChange (f : State → State) (s : State) : State := if s.dev.mode = .survey then surveyCut (f s) else f s

/-- The zeroize actions that follow an agreed decision: keys, the counted event, the mode change. A counted event that finds the
evidence counter spent leaves the mode to the decision to enter RETIRED (R582). -/
def zeroize (s : State) : State :=
  let s := countedEvent (destroyKeys s)
  if s.tamper.retiring then s else alarmChange enterZeroized s

end Sys2Proof.Machine
end

