-- ==== Sys2Proof/Machine/TamperCmds.lean ====
section
/-! DEFINITION. Tamper monitors, backup domain and Punty: their events, class 0xB opcodes and registers (chapter 18). -/
namespace Sys2Proof.Machine

/-! ### Alarms as events -/

/-- A source can be raised under main power: a tamper pin only in a mode that raises it (R587). -/
def raisable (n : Nat) (s : State) : Bool :=
  if 10 ≤ n ∧ n < 18 then (pinGet (n - 10) s).mode == 1 || (pinGet (n - 10) s).mode == 3 else decide (n < 24)

/-- The source's condition is present; source 18's is momentary. -/
def noteActive (n : Nat) (s : State) : State :=
  if n = 18 then s else s.modTamper fun t => { t with active := insertNat n t.active }

/-- The input of a static pin as a sample shows it (Table 18-12 `STATE`). -/
def pinSample (n : Nat) (differs : Bool) (s : State) : State :=
  if 10 ≤ n ∧ n < 18 ∧ (pinGet (n - 10) s).mode = 1 then
    let p := pinGet (n - 10) s
    s.modBackup fun b => { b with pins := b.pins.set (n - 10) { p with state := p.expect != differs } }
  else s

/-- The diagnostic readings of pair `p` (Table 18-9). -/
def noteReadings (p : Nat) (a b : Word) (s : State) : State :=
  if p < 5 then regSet (0xE104 + 8 * p) b (regSet (0xE100 + 8 * p) a s) else s

/-- ALARM_RAISED: a source's condition is met under main power; `a`, `b`: the readings (R572, R577). -/
def execAlarmRaised (n : Fin 24) (a b : Word) (s : State) : Out := .next <|
  if s.dev.mainOn && raisable n s then raiseAlarm n a.toNat b.toNat (noteActive n (pinSample n true (noteReadings (n / 2) a b s))) else s

/-- MONITOR_FAULT: the detectors of pair `p` (Levee, voltage, temperature, clock, light) disagree for 1 ms (R573). -/
def execMonitorFault (p : Fin 5) (a b : Word) (s : State) : Out := .next <|
  if s.dev.mainOn then raiseAlarm (19 + p) a.toNat b.toNat (noteActive (19 + p) (noteReadings p a b s)) else s

/-- ALARM_CONDITION_ABSENT: a source's condition, or a pair's disagreement, has ceased (R573, R578). -/
def execAlarmConditionAbsent (n : Fin 24) (s : State) : Out := .next <|
  (pinSample n false s).modTamper fun t => { t with active := t.active.filter (· != n.val) }

/-- One alarm gets its record, and its tally unless the E9 sleeps (R577). Its event comes before one that a full ring posts (R42). -/
def recordAlarm (s : State) (r : Raised) : State :=
  if s.dev.asleep then recordUntallied s r
  else
    let (t, s) := issueTally s
    let x := recordNow t 1 r.source r.level 0 r.a r.b s
    puntyAlarm r.source r.level t (putRecord x (announceAlarm x s))

/-- Give a tally to record `i` of the ring, where it has none; an alarm is announced (R101 step 3, R577). -/
def tallyRecord (s : State) (i : Nat) : State := match s.backup.records[i]? with
  | some r =>
    if r.tally ≠ 0 then s
    else
      let (t, s) := issueTally s
      let r := { r with tally := t }
      let s := s.modBackup fun b => { b with records := b.records.set i r }
      puntyTouch t (if r.kind = 1 then announceAlarm r s else s)
  | none => s

/-- Record `a` comes before record `b`: by RTC time, alarms of one slow-clock cycle by monitor number. -/
def recordBefore (a b : BackRec) : Bool :=
  let t := fun (r : BackRec) => r.sec * 32768 + r.frac
  decide (t a < t b) || (t a == t b && a.kind == 1 && b.kind == 1 && decide (a.source < b.source))

/-- Insert a record with its place in the ring into a list in order; equals keep their order. -/
def insertRecord (x : Nat × BackRec) : List (Nat × BackRec) → List (Nat × BackRec)
  | [] => [x]
  | y :: ys => if recordBefore x.2 y.2 then x :: y :: ys else y :: insertRecord x ys

/-- Records without a tally, in the order in which they receive one. -/
def untallied (s : State) : List (Nat × BackRec) :=
  ((s.backup.records.mapIdx fun i r => (i, r)).filter fun x => x.2.tally == 0).foldl (fun l x => insertRecord x l) []

/-- Give tallies to the records that have none. -/
def tallyRecords (s : State) : State := (untallied s).foldl (fun s x => tallyRecord s x.1) s

/-- SCRUB_COMPLETE: every unit has reported its level 3 erasure (R579). -/
def execScrubComplete (s : State) : Out := .next <|
  if s.tamper.scrubbing then s.modTamper fun t => { t with scrubbing := false } else s

/-- WORKING_KEYS_REFORMED: the vault and audit keys are formed again; vault writes resume (R579). -/
def execWorkingKeysReformed (s : State) : Out := .next <|
  if s.tamper.reform && !s.tamper.scrubbing then resendLost (s.modTamper fun t => { t with reform := false }) else s

/-- The record of an alarm raised in HOLD, with its flags (R585). -/
def noteHold (src lev fl a b : Nat) (s : State) : State :=
  puntyAlarm src lev 0 (putRecord (recordNow 0 1 src lev fl a b s) s)

/-- The master key-encryption key is erased in HOLD, with its pending increment (R582, R585). -/
def holdErase (s : State) : State :=
  let bitNo := s.otp.evidence + s.backup.pending.length
  s.modBackup fun d => { d with mkek := [], pending := if d.pending.length < 8 then d.pending ++ [bitNo] else d.pending }

/-- A decision in HOLD disagreed: source 18 is raised and the pair is to be computed again (R580). -/
def holdDisagree (s : State) : State :=
  noteHold 18 3 4 0 0 (s.modTamper fun t => { t with alarms := assocSet 18 (some 3) t.alarms, deciding := true })

/-- Flag bits 0, 1 and 2 on the newest record of source 18, whose decision erased the key (R585; log 105). -/
def markErased (rs : List BackRec) : List BackRec :=
  let p := fun (r : BackRec) => !(r.kind == 1 && r.source == 18)
  match rs.reverse.dropWhile p with
  | r :: rest => (rs.reverse.takeWhile p ++ { r with flags := 7 } :: rest).reverse
  | [] => rs

/-- The pair computed again in HOLD (R580, R585). -/
def holdDecision (agree : Bool) (s : State) : State :=
  if !agree then holdDisagree s
  else
    let s := s.modTamper fun t => { t with deciding := false }
    if s.backup.mkek.isEmpty then s else (holdErase s).modBackup fun b => { b with records := markErased b.records }

/-- ZEROIZE_DECISION: the second computation; `agree` is whether the two agree (R580). After a counted event that found the evidence
counter spent, the decision is that to enter RETIRED (R98, R582; log 119). -/
def execZeroizeDecision (agree : Bool) (s : State) : Out := .next <|
  if !s.tamper.deciding then s
  else if !s.dev.mainOn then holdDecision agree s
  else
    let s := bump 0xE128 1 s
    if !agree then disagree s
    else
      let yes := s.tamper.alarms.any fun a => a.2 == 4
      let retire := s.tamper.retiring
      let s := s.modTamper fun t => { t with deciding := false, retiring := false }
      if retire then alarmChange enterRetired s else if yes then zeroize s else s

/-- HOLD_ALARM: an alarm raised in HOLD; `agree`: the two computations of the decision agree (R580, R585). -/
def execHoldAlarm (n : Fin 24) (a b : Word) (agree : Bool) (s : State) : Out := .next <|
  if s.dev.mainOn ∨ !s.backup.vbat ∨ !watchedInHold n ∨ (10 ≤ n.val ∧ n.val < 18 ∧ !raisable n s) then s
  else
    let l := sourceLevel n s
    let s := (noteActive n s).modTamper fun t => { t with alarms := assocSet n.val (some l) t.alarms }
    if l < 3 then noteHold n l 4 a.toNat b.toNat s
    else if !agree then holdDisagree (noteHold n l 4 a.toNat b.toNat s)
    else if s.backup.mkek.isEmpty then noteHold n l 4 a.toNat b.toNat s
    else noteHold n l 7 a.toNat b.toNat (holdErase s)

/-! ### The tamper log (R583, R584) -/

/-- Address of a position of the tamper log. -/
def logAddr (i : Nat) : Nat := 0x08600000 + 64 * i

/-- CRC-32 (IEEE 802.3) of bytes. -/
def crc32 (bs : List Byte) : Nat :=
  let step := fun (c : Nat) => if c % 2 = 1 then c / 2 ^^^ 0xEDB88320 else c / 2
  let byte := fun (c : Nat) (b : Byte) => (List.range 8).foldl (fun c _ => step c) (c ^^^ b.toNat)
  bs.foldl byte 0xFFFFFFFF ^^^ 0xFFFFFFFF

/-- `DEVICE_MODE` as the log holds it and as the register reads: see Table 2-6. -/
def deviceMode (s : State) : Word :=
  wbit s.dev.quorum 12 ||| wbit s.dev.asleep 11 ||| wfield s.tamper.respLevel 8 ||| wfield (modeCode s.dev.prevMode) 4
    ||| wfield (modeCode s.dev.mode) 0

/-- The 64 bytes of a tamper-log record (Table 18-4). -/
def logBytes (r : BackRec) (s : State) : List Byte :=
  let b := recordBytes r ++ le 4 (deviceMode s).toNat ++ le 4 (s.dev.markCopy % 2 ^ 32) ++ zeros 20
  b ++ le 4 (crc32 b)

/-- TAMPER_LOG_COPY: firmware copies the oldest record that holds a tally to the tamper log and frees it; `ok`: the row verifies. A record
takes its own 64 bytes of a 256-byte row (log 84). -/
def execTamperLogCopy (ok : Bool) (s : State) : Out := .next <|
  match s.backup.records.find? (fun r => r.tally != 0) with
  | none => s
  | some r =>
    if !s.dev.mainOn || s.flash.busy0.isSome then s
    else
      let i := s.tamper.logPos
      let s := if i % 4096 = 0 ∧ !(flashRead (logAddr i) 64 s).all (· == 0xFF) then
          tamperErr 1 (eraseSector (sectorNum (logAddr i)) s)
        else s
      let s := flashAnd (logAddr i) (logBytes r s) s
      let s := s.modTamper fun t => { t with logPos := (i + 1) % 32768 }
      if ok then s.modBackup fun b => { b with records := (b.records.takeWhile (· != r)) ++ (b.records.dropWhile (· != r)).tail } else s

/-- Records of the tamper log, oldest first: the sectors in ring order after the next position. -/
def logRecords (s : State) : List (List Byte) :=
  let used := fun (i : Nat) => s.flash.cells.any fun c => decide (logAddr i ≤ c.1 ∧ c.1 < logAddr i + 64)
  let at' := s.tamper.logPos
  ((List.range 32768).map fun k => (at' + k) % 32768).filterMap fun i =>
    if used i then
      let b := flashRead (logAddr i) 64 s
      if natAt b 60 4 = crc32 (b.take 60) then some b else none
    else none

/-! ### Class 0xB opcodes (Table 18-7) -/

/-- `TAMPER_STATUS` (Table 18-10). -/
def tamperStatus (s : State) : Word :=
  wbit s.backup.rtcValid 31 ||| wbit (!s.backup.mkek.isEmpty) 30 ||| wbit s.tamper.scrubbing 29 ||| wfield s.tamper.respLevel 24
    ||| wfield s.backup.records.length 16 ||| wfield s.backup.lost 8

/-- `TAMPER_ALARM`, without `PEND`. -/
def tamperAlarm (s : State) : Word := s.tamper.alarms.foldl (fun w a => w ||| wbit true a.1) 0

/-- `TAMPER_ACTIVE`. -/
def tamperActive (s : State) : Word := s.tamper.active.foldl (fun w n => w ||| wbit true n) 0

/-- A pin configuration as `TAMPER_PIN_CFGn` holds it (Table 18-12). -/
def pinWord (p : TPin) : Word :=
  wfield p.rate 12 ||| wfield p.level 8 ||| wfield p.debounce 4 ||| wbit p.state 3 ||| wbit p.expect 2 ||| wfield p.mode 0

/-- `TAMPER_PIN_CFGn` (Table 18-12). -/
def pinCfg (n : Nat) (s : State) : Word :=
  pinWord (pinGet n s)

/-- `TAMPER_EVIDENCE` (Table 18-12). -/
def tamperEvidence (s : State) : Word :=
  wbit (decide (512 ≤ s.otp.evidence)) 31 ||| wbit s.otp.retire 30 ||| wfield s.backup.pending.length 16 ||| wfield s.otp.evidence 0

/-- `TAMPER_RTC_HI`. -/
def rtcHi (s : State) : Word := wfield s.backup.rtcFrac 16 ||| wfield (s.backup.rtcSec / 2 ^ 32) 0

/-- No keys, every INLINE byte 0. -/
def plainOp : OpSpec := { noKeys with params := fun c _ => badUnless (c.keyA == 0 && c.keyB == 0 && allZero c.inl) }

/-- TAMPER_STATUS reports tamper state (R593). -/
def execTamperStatus (id : Nat) (s : State) : Out := .next <| runOp { plainOp with lens := needDst 64 } 0xB001 id (fun c s =>
  let w := fun (v : Word) => le 4 v.toNat
  finish c (Ending.out (w (tamperStatus s) ++ w (tamperAlarm s) ++ w (tamperActive s) ++ w (regGet 0xE00C s)
    ++ ((List.range 8).map fun n => w (pinCfg n s)).flatten ++ w (tamperEvidence s) ++ le 8 s.backup.rtcSec ++ zeros 4)) s) s

/-- TAMPER_LOG_READ reads whole records of the tamper log from a tally on (R593). -/
def execTamperLogRead (id : Nat) (s : State) : Out := .next <| runOp noKeys 0xB002 id (fun c s =>
  let t := c.inlNat 48 8
  let rs := (logRecords s).filter fun b => decide (t ≤ natAt b 8 8)
  if !rs.isEmpty ∧ c.dstLen < 64 then finish c ⟨.badLength, 64, [], [], []⟩ s
  else
    let n := min rs.length (c.dstLen / 64)
    let next := match (rs.drop n).head? with
      | some b => natAt b 8 8
      | none => (rs.take n).foldl (fun m b => max m (natAt b 8 8 + 1)) t
    let out := (rs.take n).flatten
    finish c ⟨.ok, out.length, le 8 next, out, []⟩ s) s

/-- The bitmap of burned evidence bits, 64 bytes. -/
def evidenceBitmap (n : Nat) : List Byte := le 64 (2 ^ n - 1)

/-- EVIDENCE_READ reports the evidence counter (R593). -/
def execEvidenceRead (id : Nat) (s : State) : Out := .next <| runOp { plainOp with lens := needDst 72 } 0xB003 id (fun c s =>
  finish c (Ending.out (evidenceBitmap s.otp.evidence ++ le 2 s.otp.evidence ++ le 1 s.backup.pending.length ++ le 1 (bit s.otp.retire)
    ++ zeros 4)) s) s

/-- First row and rows of a `PUNTY_WRITE`. -/
def puntyArgs (c : Cmd) : Nat × Nat := (c.inlNat 48 1, c.inlNat 49 1)

/-- The rows of a `PUNTY_WRITE` are all swapped in. -/
def puntySwapped (first n : Nat) (s : State) : Bool := !(s.punty.shadow.any fun r => decide (first ≤ r.1 ∧ r.1 < first + n))

/-- PUNTY_WRITE writes host rows into the shadow and completes once every one is swapped in (R589, R593). -/
def execPuntyWrite (id : Nat) (s : State) : Out := .next <| runOp { noKeys with
    params := fun c _ =>
      let (f, n) := puntyArgs c
      badUnless (c.keyA == 0 && c.keyB == 0 && decide (16 ≤ f ∧ f ≤ 127 ∧ 1 ≤ n ∧ n ≤ 112 ∧ f + n ≤ 128))
    lens7 := fun c => if c.srcLen ≠ 16 * (puntyArgs c).2 then some (Ending.st .badLength) else none } 0xB004 id (fun c s =>
  let (f, n) := puntyArgs c
  if !c.scratch.isEmpty then s
  else
    let s := (List.range n).foldl (fun s i => puntyPut (f + i) (bytesAt c.data (16 * i) 16) s) s
    if puntySwapped f n s then finishSt c .ok s
    else (cmdPut { c with scratch := [1] } s).modPunty fun p => { p with waits := p.waits ++ [(id, f, n)] }) s

/-- The pin configuration a command asks for. -/
def pinArgs (c : Cmd) : TPin :=
  ⟨c.inlNat 49 1, (c.inlByte 50).getLsbD 0, false, c.inlNat 51 1, c.inlNat 52 1, c.inlNat 53 1⟩

/-- A pin configuration is allowed on pin `n` (R587). -/
def pinOk (n : Nat) (p : TPin) (s : State) : Bool :=
  decide (n < 8 ∧ p.mode < 4 ∧ p.level ≤ 4 ∧ p.rate ≤ 10 ∧ p.debounce ≤ 15 ∧ (p.mode = 0 ∨ 1 ≤ p.debounce))
    && !(p.mode == 2 && n % 2 == 1) && !(p.mode == 3 && (n % 2 == 0 || (pinGet (n - 1) s).mode != 2))

/-- A posted write of a slow-domain register has not landed: `PEND` (R69). -/
def pend (key : Nat) (s : State) : Bool := s.dev.posted.any fun p => p.key == key

/-- Post a write of a slow-domain register (R69). -/
def post (key : Nat) (v : Word) (s : State) : State := s.modDev fun d => { d with posted := d.posted ++ [⟨key, v, 2⟩] }

/-- TAMPER_PIN_CONFIG configures a pin: its write is posted, and the command completes when it has landed (R70, R587, R593). While an
earlier write of the pin's register has not landed, the command waits and its row acts again (log 82). -/
def execTamperPinConfig (id : Nat) (s : State) : Out := .next <| runOp { noKeys with
    params := fun c s =>
      let n := c.inlNat 48 1
      let p := pinArgs c
      let old := pinGet n s
      if c.keyA ≠ 0 ∨ c.keyB ≠ 0 ∨ !pinOk n p s then some .badParam
      else if ((old.mode ≠ 0 ∧ p.mode = 0) ∨ p.level < old.level) ∧ !s.dev.quorum then some .quorumNotMet
      else none } 0xB005 id (fun c s =>
  let key := 0xE010 + 4 * c.inlNat 48 1
  if !c.scratch.isEmpty || pend key s then s
  else post key (pinWord (pinArgs c)) (cmdPut { c with scratch := [1] } s)) s

/-! ### VBAT -/

/-- VBAT_MEASURE: every 60 s under main power (R601). -/
def execVbatMeasure (mv : BitVec 16) (s : State) : Out := .next <|
  if !s.dev.mainOn then s
  else
    let s := s.modBackup fun b => { b with vbatMv := mv.toNat, vbat := decide (2200 ≤ mv.toNat) }
    if mv.toNat < 2500 then tamperErr 0 s else s

/-! ### Punty (R589 to R592) -/

/-- Complete the `PUNTY_WRITE`s whose rows are all swapped in. -/
def puntyDone (s : State) : State :=
  let ready := s.punty.waits.filter fun w => puntySwapped w.2.1 w.2.2 s
  let s := s.modPunty fun p => { p with waits := p.waits.filter fun w => !puntySwapped w.2.1 w.2.2 s }
  ready.foldl (fun s w => endCmd (some w.1) (Ending.st .ok) s) s

/-- The older slot of row `n` holds what a failed programming left: free bytes, and a CRC that does not verify (R590). -/
def puntySpoil (n : Nat) (s : State) : State :=
  let (bs, s) := drawBytes 16 s
  let (x, s) := drawNat s
  let good := Config.puntyCrc (leNat bs)
  let crc := if BitVec.ofNat 16 x = good then ~~~good else BitVec.ofNat 16 x
  s.modPunty fun p => { p with rows := assocSet n (some ((puntySlots n s).swap bs crc false)) p.rows }

/-- PUNTY_SWAP: the lowest pending row is swapped into the older slot of its visible row; `ok`: the slot verifies. One that does not
leaves the old version visible, and the row pending (R589, R590). -/
def execPuntySwap (ok : Bool) (s : State) : Out := .next <|
  match s.punty.shadow with
  | [] => s
  | (n, bs) :: rest =>
    if !s.dev.mainOn && !s.backup.vbat then s
    else if !ok then tamperErr 2 (puntySpoil n s)
    else
      let row := (puntySlots n s).swap bs (Config.puntyCrc (leNat bs)) true
      let s := s.modPunty fun p => { p with rows := assocSet n (some row) p.rows, shadow := rest }
      puntyDone (bump 0xF104 1 s)

/-- CRC_A of ISO/IEC 14443-3, two bytes, low first. -/
def crcA (bs : List Byte) : List Byte :=
  let step := fun (c : Nat) => if c % 2 = 1 then c / 2 ^^^ 0x8408 else c / 2
  le 2 (bs.foldl (fun c b => (List.range 8).foldl (fun c _ => step c) (c ^^^ b.toNat)) 0x6363)

/-- The 4-bit NAK 0x0. -/
def puntyNak : List Byte := [0]

/-- PUNTY_ANTICOLLISION: a reader's anticollision and SELECT are answered with the field's random UID (R591). -/
def execPuntyAnticollision (s : State) : Out := .next <|
  if !s.punty.field then s
  else
    let bcc := s.punty.uid.foldl (· ^^^ ·) 0
    s.modPunty fun p => { p with selected := true, halted := false, answer := p.uid ++ [bcc] }

/-- Answer a read of `n` rows from `row` on (Table 18-6). -/
def puntyRead (row n : Nat) (s : State) : State :=
  if !s.punty.field || !s.punty.selected || s.punty.halted then s
  else
    let a := if 128 < row + n then puntyNak
      else let b := ((List.range n).map fun i => puntySeen (row + i) s).flatten; b ++ crcA b
    bump 0xF100 1 (s.modPunty fun p => { p with answer := a })

/-- PT_READ returns one row. -/
def execPtRead (row : BitVec 8) (s : State) : Out := .next <| puntyRead row.toNat 1 s

/-- PT_READ4 returns four rows. -/
def execPtRead4 (row : BitVec 8) (s : State) : Out := .next <| puntyRead row.toNat 4 s

/-- HLTA halts the Punty. -/
def execHlta (s : State) : Out := .next <|
  if s.punty.field && s.punty.selected then s.modPunty fun p => { p with halted := true, selected := false, answer := [] } else s

/-- `PUNTY_STATUS`; a field read is one step, so `READING` reads 0 (log 80). -/
def puntyStatus (s : State) : Word := wbit s.punty.field 31 ||| wfield s.punty.shadow.length 8

end Sys2Proof.Machine
end

