-- ==== Sys2Proof/Machine/Clock.lean ====
section
/-! DEFINITION. The slow clock (chapters 02 and 18): posted writes, the slow-domain copies of the backup domain's registers, the records of
alarms, and one rising edge as a whole. -/
namespace Sys2Proof.Machine

/-! ### Registers and their copies (R68) -/

/-- The low word of a 64-bit number. -/
def lo32 (n : Nat) : Word := BitVec.ofNat 32 n
/-- The high word of a 64-bit number. -/
def hi32 (n : Nat) : Word := BitVec.ofNat 32 (n / 2 ^ 32)

/-- The words of RS access, the Punty's rows apart (Tables 2-3, 18-9 and 18-14). -/
def rsKeys : List Nat :=
  [0x0038, 0x003C, 0xE000, 0xE004, 0xE008, 0xE00C, 0xE010, 0xE014, 0xE018, 0xE01C, 0xE020, 0xE024, 0xE028, 0xE02C, 0xE030, 0xE038, 0xE03C,
    0xE040, 0xE100, 0xE104, 0xE108, 0xE10C, 0xE110, 0xE114, 0xE118, 0xE11C, 0xE120, 0xE124, 0xE128, 0xF000, 0xF100, 0xF104]

/-- What the backup domain itself holds for a word of RS access. -/
def rsLive (key : Nat) (s : State) : Word :=
  if key = 0x0038 then lo32 s.dev.markCopy
  else if key = 0x003C then hi32 s.dev.markCopy
  else if key = 0xE000 then tamperStatus s
  else if key = 0xE004 then tamperAlarm s
  else if key = 0xE008 then tamperActive s
  else if 0xE010 ≤ key ∧ key < 0xE030 then pinCfg ((key - 0xE010) / 4) s
  else if key = 0xE030 then tamperEvidence s
  else if key = 0xE038 then lo32 s.backup.rtcSec
  else if key = 0xE03C then rtcHi s
  else if key = 0xE040 then lo32 s.backup.vbatMv
  else if key = 0xF000 then puntyStatus s
  else regGet key s

/-- The copies of every RS register are refreshed together (R68). -/
def refreshSlow (s : State) : State :=
  s.modDev fun d => { d with
    rsWords := rsKeys.filterMap fun k => if rsLive k s = csrReset k then none else some (k, rsLive k s)
    rsRows := s.punty.rows.map fun r => (r.1, r.2.seen) }

/-- The copy of an RS word that a read returns. -/
def rsCopy (key : Nat) (s : State) : Word := (assocGet key s.dev.rsWords).getD (csrReset key)

/-- A word of the copy of `PUNTY_ROWn`, by byte offset from 0x400. -/
def rsRow (off : Nat) (s : State) : Word :=
  BitVec.ofNat 32 (natAt ((assocGet (off / 16) s.dev.rsRows).getD (zeros 16)) (off % 16 / 4 * 4) 4)

/-! ### Slow-domain writes that land (R574, R578) -/

/-- A landed write of `TAMPER_ALARM`: alarms whose conditions are absent end (R578). -/
def tamperAlarmLand (v : Word) (s : State) : State :=
  updateLevel (s.modTamper fun t => { t with alarms := t.alarms.filter fun a => !(v.getLsbD a.1 && !t.active.contains a.1) })

/-- One field of a landed `TAMPER_LEVEL0`: the value it takes, and whether lowering was refused. -/
def levelField (n : Nat) (v : Word) (s : State) : Nat × Bool :=
  let old := fieldOf (regGet 0xE00C s) (3 * n + 2) (3 * n)
  let new := min 4 (max (lowestLevel n) (fieldOf v (3 * n + 2) (3 * n)))
  if new < old ∧ !s.dev.quorum then (old, true) else (new, false)

/-- A landed write of `TAMPER_LEVEL0` (R574). -/
def tamperLevelLand (v : Word) (s : State) : State :=
  let fs := (List.range 10).map fun n => levelField n v s
  let w := ((List.range 10).zip fs).foldl (fun w x => w ||| wfield x.2.1 (3 * x.1)) 0
  let s' := regSet 0xE00C w s
  if fs.any (·.2) then tamperErr 4 s' else s'

/-- Key of a slow-domain register that posted writes change. -/
def slowKey : SlowReg → Nat
  | .alarm => 0xE004
  | .level0 => 0xE00C
  | .pin n => 0xE010 + 4 * n.val

/-- The pin configuration that a word of `TAMPER_PIN_CFGn` gives; `STATE` is the pin's own. -/
def pinOf (v : Word) (state : Bool) : TPin :=
  ⟨fieldOf v 1 0, v.getLsbD 2, state, fieldOf v 7 4, fieldOf v 10 8, fieldOf v 15 12⟩

/-- A landed configuration of pin `n`; the command that posted it completes (R587, R593). -/
def pinLand (n : Nat) (v : Word) (s : State) : State :=
  let s := s.modBackup fun b => { b with pins := b.pins.set n (pinOf v (pinGet n s).state) }
  match s.cmdif.cmds.find? fun c => c.opcode == 0xB005 && c.scratch == [1] && c.inlNat 48 1 == n with
  | some c => finishSt c .ok s
  | none => s

/-- What a landed write does. -/
def land (key : Nat) (v : Word) (s : State) : State :=
  if key = 0xE004 then tamperAlarmLand v s
  else if key = 0xE00C then tamperLevelLand v s
  else pinLand ((key - 0xE010) / 4) v s

/-- The posted write of a register takes effect and its `PEND` clears. -/
def landOne (key : Nat) (s : State) : State :=
  match s.dev.posted.find? fun p => p.key == key with
  | none => s
  | some p => land key p.value (s.modDev fun d => { d with posted := d.posted.filter fun q => q.key != key })

/-- A rising edge of the slow clock reaches the posted writes; those at their second edge land (R70). -/
def slowEdge (s : State) : State :=
  let s := s.modDev fun d => { d with posted := d.posted.map fun p => { p with edges := p.edges - 1 } }
  (s.dev.posted.filter fun p => p.edges == 0).foldl (fun s p => landOne p.key s) s

/-! ### One rising edge (R29, R68, R70, R577, R586) -/

/-- The alarms raised since the last edge get their records, in ascending source order, and `RESP_LEVEL` follows; records that the
E9 could give no tally in sleep get theirs (R577). Before the boot ROM's step 3 they wait for it (R101). -/
def recordAlarms (s : State) : State :=
  let s := if s.dev.asleep || s.dev.boot == .good then s else tallyRecords s
  if s.tamper.raised.isEmpty then s
  else
    let rs := s.tamper.raised.foldl (fun l r => insertRaised r l) []
    let s := rs.foldl recordAlarm (s.modTamper fun t => { t with raised := [] })
    if s.dev.asleep then s else updateLevel s

/-- The RTC counts one slow-clock cycle (R586): 48-bit seconds and a 15-bit fraction. -/
def rtcTick (b : Backup) : Backup :=
  if b.rtcFrac + 1 < 2 ^ 15 then { b with rtcFrac := b.rtcFrac + 1 }
  else { b with rtcFrac := 0, rtcSec := (b.rtcSec + 1) % 2 ^ 48 }

/-- The backup domain is held by either supply (R586). -/
def backupPowered (s : State) : Bool := s.dev.mainOn || s.backup.vbat

/-- No core has fetched from a flash bank in the last 64 cycles of the Warden clock (R515). -/
def fetchesSettle (n : Nat) (s : State) : State := coreMod n (fun k => { k with since0 := 64, since1 := 64 }) s

/-- One rising edge of the slow clock: the alarms of the cycle are recorded, the RTC counts, posted writes come nearer to landing or
land, fetches from flash lie back, and the copies are refreshed (log 1). -/
def tick (s : State) : State :=
  let s := if s.dev.mainOn then recordAlarms s else s
  let s := if backupPowered s then s.modBackup rtcTick else s
  if s.dev.mainOn then refreshSlow (slowEdge (fetchesSettle 3 (fetchesSettle 2 (fetchesSettle 1 (fetchesSettle 0 s))))) else s

/-- ALARM_RECORD: the next rising slow edge after an alarm (R577). -/
def execAlarmRecord (s : State) : Out := .next <| if s.dev.mainOn then tick s else s

/-- A posted write of the register lands at the next rising edge (R70). -/
def landsNext (key : Nat) (s : State) : Bool := s.dev.posted.any fun p => p.key == key && decide (p.edges ≤ 1)

/-- POSTED_WRITE_LAND: the second rising edge after the write's acceptance: the register takes the value, its copy shows it, and `PEND`
clears together (R70). Before that edge the row does nothing. -/
def execPostedWriteLand (r : SlowReg) (s : State) : Out := .next <| if s.dev.mainOn && landsNext (slowKey r) s then tick s else s

end Sys2Proof.Machine
end

