-- ==== Sys2Proof/Machine/Custodian.lean ====
section
/-! DEFINITION. Custodians, sessions and the quorum verdict, the contact slot and the reader (chapter 17). -/
namespace Sys2Proof.Machine

/-- Set a bit of `CUST_ERR` (R571). -/
def custErr (n : Nat) (s : State) : State := raiseErr 0xD010 0xD014 0xD001 n (wfield n 0) s

/-! ### Sets and the verdict (R548, R554) -/

/-- A custodian of the table. -/
def custGet (n : Nat) (s : State) : Option Custodian := assocGet n s.cust.table.custs

/-- A set is defined (R548). -/
def CustSet.defined (x : CustSet) : Bool := decide (x.threshold ≠ 0 ∧ x.threshold ≤ x.members.length)

/-- Some set of a table is defined. -/
def CustTable.hasSet (t : CustTable) : Bool := t.sets.any fun x => x.2.defined

/-- A custodian's session is live. -/
def hasSession (n : Nat) (s : State) : Bool := s.cust.sessions.any fun x => x.cust == n

/-- Bitmap of the sets satisfied. -/
def setsSatisfied (s : State) : Nat :=
  (s.cust.table.sets.map fun x =>
    if x.2.defined && decide (x.2.threshold ≤ (x.2.members.filter fun n => hasSession n s).length) then 2 ^ x.1 else 0).sum

/-- VERDICT_EVALUATION: the verdict is computed twice on one snapshot; `agree`: the two agree (R554). -/
def execVerdictEvaluation (agree : Bool) (s : State) : Out := .next <|
  if !s.cust.evalDue then s
  else if !agree then disagree (custErr 0 s)
  else
    let sets := setsSatisfied s
    let q := decide (sets ≠ 0)
    let s := s.modCust fun c => { c with evalDue := false }
    if q = s.dev.quorum then s
    else
      let (t, s) := issueTally s
      let s := (s.modDev fun d => { d with quorum := q }).modCust fun c => { c with verdictTally := t }
      let s := sendEvt .both ⟨0xD004, wfield sets 8 ||| wbit q 0, 0, t⟩ s
      if !q && s.dev.mode == .ceremony then changeMode (serviceOrDegraded s) s else s

/-! ### Sessions (R551 to R553) -/

/-- The session key of a handshake: the E9's ephemeral scalar and nonce, the credential's ephemeral key and nonce (R551). -/
def handshakeKey (d : Nat) (ne qc nc : List Byte) : List Byte :=
  let qe := ecPub p256 d
  let prk := hmac256 (ne ++ nc) ((ecdh p256 d qc).getD (zeros 32))
  kdfCounter (hmac256 prk) 32 [0x43, 0x55, 0x53, 0x54] (qe ++ qc) 32

/-- Open a session of custodian `n`: it replaces an older one; the opening receives a tally (R552). -/
def openCustSession (n kind : Nat) (key : List Byte) (s : State) : Nat × State :=
  let s := endSession n s
  let (t, s) := issueTally s
  let x : CustSession := ⟨n, kind, t, s.backup.rtcSec, key⟩
  let s := s.modCust fun c => { c with sessions := c.sessions ++ [x], evalDue := true, inSlot := if kind = 1 then some n else c.inSlot }
  (sessionId x, bump 0xD10C 1 (sendEvt .both ⟨0xD003, wbit true 8 ||| wfield n 0, BitVec.ofNat 128 (sessionId x), t⟩ s))

/-- A custodian's card stands in the slot: seen at every moment (R553). -/
def inSlotNow (n : Nat) (s : State) : Bool := s.cust.card && s.cust.inSlot == some n

/-- SESSION_EXPIRY: `HOLD_S` seconds after a credential was last seen its session ends (R553). -/
def execSessionExpiry (n : BitVec 8) (s : State) : Out := .next <|
  match s.cust.sessions.find? (fun x => x.cust == n.toNat) with
  | none => s
  | some x => if inSlotNow n.toNat s || decide (s.backup.rtcSec < x.seen + s.cust.holdS) then s else endSession n.toNat s

/-- A credential is seen. -/
def seeCredential (n : Nat) (s : State) : State :=
  s.modCust fun c => { c with sessions := c.sessions.map fun x => if x.cust = n then { x with seen := s.backup.rtcSec } else x }

/-- PROBE: every 250 ms the reader probes the badge of a live session; `answered`: the badge answers (R564). -/
def execProbe (n : BitVec 8) (answered : Bool) (s : State) : Out := .next <|
  if s.dev.mainOn && !s.dev.asleep && answered && s.cust.sessions.any (fun x => x.cust == n.toNat && x.kind == 2) then seeCredential n.toNat s
  else s

/-! ### Ends of an exchange (Table 17-6) -/

/-- Status of a reason. -/
def reasonStatus (r : Nat) : Status :=
  if r = 1 ∨ r = 2 ∨ r = 7 then .badParam
  else if r = 8 ∨ r = 9 then .fieldTooWeak
  else if r = 10 then .quorumNotMet
  else .verifyFailed

/-- End a command for a reason: its error bit, and inline byte 24. -/
def endReason (c : Cmd) (r : Nat) (s : State) : State :=
  let s := if r = 3 then custErr 2 s
    else if r = 4 then custErr 3 (bump 0xD114 1 s)
    else s
  finish c ⟨reasonStatus r, 0, [0, 0, 0, 0, BitVec.ofNat 8 r, 0, 0, 0], [], []⟩ s

/-- The `PROBE` before a write forbids it: no answer, or `VR` below `CUST_CFG.WRITE_MIN` (R566). -/
def weakField (vr : Option (BitVec 8)) (s : State) : Bool := match vr with
  | none => true
  | some v => decide (v.toNat < fieldOf (regGet 0xD004 s) 31 24)

/-- A write refused for the field (R566). -/
def endWeak (c : Cmd) (s : State) : State := endReason c 9 (custErr 5 (bump 0xD110 1 s))

/-- Note what is written to a credential or seal. -/
def sendTag (b : List Byte) (s : State) : State := s.modCust fun c => { c with sent := b }

/-- A reason an exchange may report: 0x01, 0x03 to 0x09; another counts as 0x03. -/
def reasonOf (r : Nat) : Nat := if r = 1 ∨ (3 ≤ r ∧ r ≤ 9 ∧ r ≠ 7) then r else 3

/-- `SLOT_DISABLED`: survey item 4 found a fault (R558, R613). -/
def cardSlotDisabled (s : State) : Bool := regBit 0x0250 29 s

/-- Why the contact slot cannot be used now; none when it can. -/
def slotBar (s : State) : Option Nat :=
  if cardSlotDisabled s then some 2 else if !s.cust.card then some 1 else if s.cust.cls == .inactive || !s.cust.atr then some 3 else none

/-- Run the handshake of a command and open the session. -/
def openFor (c : Cmd) (kind : Nat) (enrolled : Nat → Bool) (a : CredAns) (s : State) : State :=
  match a with
  | .fail r => endReason c (reasonOf r) s
  | .ok n qc nc =>
    if !enrolled n then endReason c 5 s
    else withKey c 72 s fun k s =>
      let key := handshakeKey (ecScalar p256 (k.take 40)) (k.drop 40) qc nc
      let (i, s) := openCustSession n kind key s
      finish c (Ending.inline (le 8 i)) s

/-- CARD_SESSION opens a session with the card in the slot (R551, R552). -/
def execCardSession (id : Nat) (a : CredAns) (s : State) : Out := .next <| runOp plainOp 0x8003 id (fun c s =>
  match slotBar s with
  | some r => endReason c r s
  | none => openFor c 1 (fun n => match custGet n s with
      | some x => !x.badge
      | none => false) a s) s

/-- BADGE_AUTHENTICATE opens a session with the badge of an identifier (R551, R562). -/
def execBadgeAuthenticate (id : Nat) (a : CredAns) (s : State) : Out := .next <| runOp noKeys 0x8004 id (fun c s =>
  let i := c.inlNat 56 8
  if s.cust.dups.contains i then endReason c 7 s
  else openFor c 2 (fun n => match custGet n s with
      | some x => x.badge && x.ident == i
      | none => false) a s) s

/-! ### CUSTODIAN_ENROL (R548, R550) -/

/-- Store a changed table: the archive, the flash copy, a new evaluation (R548). -/
def storeTable (t : CustTable) (s : State) : State :=
  archive (.custodians t) (s.modCust fun c => { c with table := t, copy := t, evalDue := true })

/-- A changed table would leave no defined set where it may not. -/
def leavesNoSet (t : CustTable) (s : State) : Bool := !t.hasSet && !(s.dev.mode == .provision && !s.cust.table.hasSet)

/-- Step 7 of `CUSTODIAN_ENROL`. -/
def enrolParams (c : Cmd) (_ : State) : Option Status :=
  let f := c.inlNat 48 1
  let ok :=
    if f = 1 then c.inlNat 49 1 != 0 && ((c.inlNat 50 1 == 1 && c.inlNat 56 8 == 0) || (c.inlNat 50 1 == 2 && c.inlNat 56 8 / 2 ^ 60 == 1))
    else if f = 2 then true
    else if f = 3 then decide (c.inlNat 49 1 < 8 ∧ (c.inlNat 50 1 = 0 ∨ (2 ≤ c.inlNat 50 1 ∧ c.inlNat 50 1 ≤ 16)))
    else f == 4 && decide (30 ≤ c.inlNat 52 2 ∧ c.inlNat 52 2 ≤ 3600)
  badUnless (c.keyA == 0 && c.keyB == 0 && ok)

/-- `CUSTODIAN_ENROL` with function `fn`; its mode rule stands in step 3 (R550). A function that changes the table must write to the
vault, once the E9 has one (R4, R535, R548). -/
def enrolOp (fn id : Nat) (body : Cmd → State → State) (s : State) : State :=
  let mine := match cmdGet id s with
    | some c => c.inlNat 48 1 == fn || (fn == 1 && !(c.inlNat 48 1 == 2 || c.inlNat 48 1 == 3 || c.inlNat 48 1 == 4))
    | none => false
  if mine then runOp { noKeys with params := enrolParams } 0x8001 id (fun c s =>
    if fn != 4 && s.vault.ident.isSome && !vaultWritable s then finishSt c .modeForbids s else body c s) s
  else s

/-- Put a custodian into exactly the sets of a bitmap. -/
def inSets (n bitmap : Nat) (sets : List (Nat × CustSet)) : List (Nat × CustSet) :=
  (List.range 8).foldl (fun l i =>
    let x := (assocGet i l).getD ⟨0, []⟩
    let m := x.members.filter (· != n)
    let x := { x with members := if bitmap / 2 ^ i % 2 = 1 then insertNat n m else m }
    assocSet i (if x.threshold = 0 ∧ x.members.isEmpty then none else some x) l) sets

/-- ENROL enrols a card or badge (R549, R550). The domain custodian key is created with the first enrolment (log 92). -/
def execEnrol (id : Nat) (a : TagWrite EnrolAns) (s : State) : Out := .next <| enrolOp 1 id (fun c s =>
  let n := c.inlNat 49 1
  let badge := c.inlNat 50 1 == 2
  let bar := if badge then (if s.cust.dups.contains (c.inlNat 56 8) then some 7 else none) else slotBar s
  match bar, a.ans with
  | some r, _ => endReason c r s
  | none, .fail r => endReason c (reasonOf r) s
  | none, .ok pub =>
    if badge && weakField a.vr s then endWeak c s else
    let go := fun (key : List Byte) (s : State) =>
      let old := s.cust.table
      let t : CustTable := ⟨assocSet n (some ⟨badge, c.inlNat 56 8, pub⟩) old.custs, inSets n (c.inlNat 52 1) old.sets, key⟩
      if leavesNoSet t s then finishSt c .badParam s
      else finish c (Ending.inline ((sha256 pub).take 8)) (storeTable t (endSession n s))
    if s.cust.table.key.isEmpty then withKey c 40 s fun k s => go (be 32 (ecScalar p256 k)) s else go s.cust.table.key s) s

/-- REVOKE revokes a custodian and ends its session (R550). -/
def execRevoke (id : Nat) (s : State) : Out := .next <| enrolOp 2 id (fun c s =>
  let n := c.inlNat 49 1
  let old := s.cust.table
  let t : CustTable := { old with custs := assocSet n none old.custs, sets := inSets n 0 old.sets }
  if (custGet n s).isNone || leavesNoSet t s then finishSt c .badParam s
  else finishSt c .ok (storeTable t (endSession n s))) s

/-- SET_DEFINE defines or deletes a set (R550). -/
def execSetDefine (id : Nat) (s : State) : Out := .next <| enrolOp 3 id (fun c s =>
  let n := c.inlNat 49 1
  let th := c.inlNat 50 1
  let old := s.cust.table
  let x := (assocGet n old.sets).getD ⟨0, []⟩
  let t : CustTable := { old with sets := assocSet n (if th = 0 then none else some { x with threshold := th }) old.sets }
  if leavesNoSet t s then finishSt c .badParam s else finishSt c .ok (storeTable t s)) s

/-- SET_HOLD sets `HOLD_S` (R553). -/
def execSetHold (id : Nat) (s : State) : Out := .next <| enrolOp 4 id (fun c s =>
  finishSt c .ok (s.modCust fun x => { x with holdS := c.inlNat 52 2 })) s

/-- The 64 bytes of QUORUM_STATUS. -/
def quorumBytes (s : State) : List Byte :=
  le 1 (bit s.dev.quorum) ++ le 1 (setsSatisfied s) ++ le 1 s.cust.sessions.length ++ [0]
    ++ le 32 ((s.cust.sessions.map fun x => 2 ^ x.cust).sum) ++ le 2 s.cust.holdS ++ zeros 2 ++ le 8 s.cust.verdictTally
    ++ (List.range 8).map (fun i => BitVec.ofNat 8 (((assocGet i s.cust.table.sets).map (·.threshold)).getD 0)) ++ zeros 8

/-- QUORUM_STATUS reports the verdict and the sessions (R569). -/
def execQuorumStatus (id : Nat) (s : State) : Out := .next <| runOp { plainOp with lens := needDst 64 } 0x8002 id (fun c s =>
  finish c (Ending.out (quorumBytes s)) s) s

/-! ### Inventory (R560 to R563) -/

/-- A tag found. -/
structure TagFound where
  ident : Nat
  vr : Byte
  dup : Bool
  deriving DecidableEq, Repr

/-- An identifier is a seal's. -/
def isSeal (i : Nat) : Bool := i / 2 ^ 60 == 2

/-- Take one single answer of a frame: a seal found before is drawn anew and counted with the first as one collision; a badge found
before gets its duplicate flag (R562). Answers: tags, singles, collisions, duplicate badges. -/
def takeTag (x : List TagFound × Nat × Nat × List Nat) (i : Nat) (vr : Byte) : List TagFound × Nat × Nat × List Nat :=
  let (ts, n, k, ds) := x
  if ts.any fun t => t.ident == i then
    if isSeal i then (ts.filter fun t => t.ident != i, n - 1, k + 1, ds)
    else (ts.map fun t => if t.ident = i then { t with dup := true } else t, n, k, insertNat i ds)
  else (ts ++ [⟨i, vr, false⟩], n + 1, k, ds)

/-- The next frame size of R561. -/
def nextFrame (f e c : Nat) : Nat :=
  let g := (239 * c + 99) / 100
  let g := if e = 0 then max g (2 * f) else g
  min 256 (max 1 g)

/-- Answer of a Sluice inventory. -/
structure Inv where
  tags : List TagFound
  frames : Nat
  incomplete : Bool
  collisions : Nat
  dups : List Nat
  deriving DecidableEq, Repr

/-- Run frames of R561: `fs` is what each frame's slots show; a frame takes `f` of them, missing ones being empty. -/
def inventory : Nat → Nat → List (List SlotAns) → Inv → Inv
  | 0, _, _, v => { v with incomplete := true }
  | fuel + 1, f, fs, v =>
    let slots := (fs.headD []).take f
    let e := f - slots.length + (slots.filter (· == .empty)).length
    let c := (slots.filter (· == .collided)).length
    let r := slots.foldl (fun x a => match a with
      | .single i vr => takeTag x i vr
      | _ => x) (v.tags, 0, c, v.dups)
    let c := r.2.2.1
    let v : Inv := { v with tags := r.1, frames := v.frames + 1, collisions := v.collisions + c, dups := r.2.2.2 }
    if c = 0 then v else inventory fuel (nextFrame f e c) fs.tail v

/-- The bits of a UID in the order of anticollision: cascade tags first, each byte from bit 0 (ISO/IEC 14443-3). -/
def cascadeBits (u : List Byte) : List Bool :=
  let b := if u.length = 7 then 0x88 :: u else if u.length = 10 then 0x88 :: (u.take 3 ++ 0x88 :: u.drop 3) else u
  (b.map fun x => (List.range 8).map fun i => x.getLsbD i).flatten

/-- The branch in which the first differing bit is 1 comes first (R563). -/
def firstBranch : List Bool → List Bool → Bool
  | a :: as, b :: bs => if a = b then firstBranch as bs else a
  | _, _ => true

/-- Insert a card in the order of R563. -/
def insertCard (x : CardFound) : List CardFound → List CardFound
  | [] => [x]
  | y :: ys => if firstBranch (cascadeBits x.uid) (cascadeBits y.uid) then x :: y :: ys else y :: insertCard x ys

/-- A badge identifier is enrolled. -/
def enrolledBadge (i : Nat) (s : State) : Bool := s.cust.table.custs.any fun c => c.2.badge && c.2.ident == i

/-- The 16-byte entry of a Sluice tag. -/
def tagEntry (t : TagFound) (s : State) : List Byte :=
  le 8 t.ident ++ [if isSeal t.ident then 2 else 1, t.vr, BitVec.ofNat 8 (bit t.dup + 2 * bit (enrolledBadge t.ident s)), 8] ++ zeros 4

/-- The 16-byte entry of a third-party card of kind 3 or 4. -/
def cardEntry (kind : Nat) (x : CardFound) : List Byte :=
  bytesAt x.uid 0 8 ++ [BitVec.ofNat 8 kind, 0, 0, BitVec.ofNat 8 x.uid.length] ++ bytesAt x.info 0 4

/-- First frame size (Table 17-9). -/
def invStart (s : State) : Nat := let n := fieldOf (regGet 0xD004 s) 15 8; if n = 0 then 256 else n

/-- TAG_INVENTORY runs the inventories; `frames`: what each Sluice frame shows; `cardsA`, `cardsB`: the third-party cards in the field
(R561 to R563, R569). -/
def execTagInventory (id : Nat) (frames : List (List SlotAns)) (cardsA cardsB : List CardFound) (s : State) : Out := .next <|
  runOp { noKeys with params := fun c _ => badUnless (c.keyA == 0 && c.keyB == 0
    && (if c.form = 0 then allZero c.inl else decide (c.inlNat 48 1 < 8) && allZero (c.inl.drop 1))) } 0x8005 id (fun c s =>
  let on := fun (n : Nat) => c.form == 0 || (c.inlByte 48).getLsbD n
  let v := if on 0 then inventory 64 (invStart s) frames ⟨[], 0, false, 0, []⟩ else ⟨[], 0, false, 0, []⟩
  let as := if on 1 then cardsA.foldl (fun l x => insertCard x l) [] else []
  let bs := if on 2 then cardsB else []
  let s := bump 0xD108 v.collisions (bump 0xD104 1 s)
  let s := s.modCust fun x => { x with dups := v.dups }
  let s := if v.dups.isEmpty then s else custErr 4 s
  let out := ((v.tags.map fun t => tagEntry t s) ++ as.map (cardEntry 3) ++ bs.map (cardEntry 4)).flatten
  let n := out.length / 16
  match needDst out.length c with
  | some e => finish c e s
  | none => finish c ⟨.ok, out.length, le 2 n ++ le 1 (bit v.incomplete) ++ le 1 v.frames ++ zeros 4, out, []⟩ s) s

/-! ### Seals (R565 to R567) -/

/-- `KEY_A` of a seal opcode: the domain seal master key, AES-256 with `DERIVE` (R565). -/
def sealSpec : OpSpec :=
  { noKeys with
    params := fun c _ => badUnless (c.keyB == 0)
    keys := fun c _ => [(c.keyA, role (usageBits [6]) [5])] }

/-- The two keys of a seal: its own, from its serial, and the transport key (R565). -/
def sealKeys (c : Cmd) (serial : Nat) (s : State) : List Byte × List Byte :=
  let k := c.keyMat c.keyA s
  ((cmac 5 k (le 8 serial)).take 16, (cmac 5 k [0x54, 0x52]).take 16)

/-- SEAL_READ reads a seal (R565). -/
def execSealRead (id : Nat) (a : SealAns) (s : State) : Out := .next <| runOp { sealSpec with lens := needDst 272 } 0x8006 id (fun c s =>
  match a with
  | .fail r => endReason c (reasonOf r) s
  | .ok serial st n mem =>
    if st % 2 = 0 then endReason c 5 s
    else finish c (Ending.out (le 8 serial ++ le 1 st ++ zeros 3 ++ le 4 n ++ bytesAt mem 0 256)) s) s

/-- Step 7 of `SEAL_WRITE`. -/
def sealWriteSpec : OpSpec :=
  { sealSpec with
    params := fun c _ =>
      let f := c.inlNat 48 1
      badUnless (c.keyB == 0 && (f == 1 || (f == 2 && decide (c.inlNat 49 1 < 16 ∧ 1 ≤ c.inlNat 50 1 ∧ c.inlNat 49 1 + c.inlNat 50 1 ≤ 16))))
    lens7 := fun c => if c.inlNat 48 1 = 2 ∧ c.srcLen ≠ 16 * c.inlNat 50 1 then some (Ending.st .badLength) else none }

/-- A write to a seal: a weak field or a broken seal refuses it (R566, R567); else the two keys of `ISSUE` or the rows are written, and the
new write count is the result. -/
def sealWrite (issued : Bool) (c : Cmd) (a : TagWrite SealAns) (s : State) : State :=
  if weakField a.vr s then endWeak c s
  else match a.ans with
  | .fail r => endReason c (reasonOf r) s
  | .ok serial st n _ =>
    if 2 ≤ st % 4 then endReason c 4 s
    else if issued ∧ st % 2 = 0 then endReason c 5 s
    else
      let keys := sealKeys c serial s
      finish c (Ending.inline (le 4 n)) (sendTag (if issued then c.data else keys.1 ++ keys.2) s)

/-- SEAL_ISSUE writes keys into a blank seal; `a`: the seal after it (R565 to R567). A function other than `WRITE` fails here too. -/
def execSealIssue (id : Nat) (a : TagWrite SealAns) (s : State) : Out := .next <|
  if namesFn id 2 s then s else runOp sealWriteSpec 0x8007 id (fun c s => sealWrite false c a s) s

/-- SEAL_WRITE writes rows of a seal's memory; `a`: the seal after it (R566, R567). -/
def execSealWrite (id : Nat) (a : TagWrite SealAns) (s : State) : Out := .next <|
  if namesFn id 2 s then runOp sealWriteSpec 0x8007 id (fun c s => sealWrite true c a s) s else s

/-! ### The contact slot (R555 to R558, R607) -/

/-- Wake from sleep; alarms recorded in sleep receive their tallies first (R35, R577). -/
def wakeUp (s : State) : State :=
  if s.dev.asleep then updateLevel (tallyRecords (awaken s)) else s

/-- Post CUST_PRESENCE. -/
def presence (src : Nat) (s : State) : State := postEvt .both 0xD002 (wfield src 0) 0 s

/-- Deactivate the contacts. -/
def deactivate (s : State) : State := s.modCust fun c => { c with cls := .inactive, atr := false }

/-- CARD_INSERT: the card-detect switch closes; the card is activated at class C unless the slot is disabled (R556, R568). -/
def execCardInsert (s : State) : Out := .next <|
  if !s.dev.mainOn || s.cust.card then s
  else
    let s := presence 1 (wakeUp s)
    s.modCust fun c => { c with card := true, silent := false, atr := false, inSlot := none, cls := if cardSlotDisabled s then .inactive else .c }

/-- ATR: the card answers, with its class indicator where it has one: includes A, B, C (R556). -/
def execAtr (ind : Option (Bool × Bool × Bool)) (s : State) : Out := .next <|
  if s.cust.cls == .inactive || s.cust.atr then s
  else match ind with
    | none => s.modCust fun c => { c with atr := true }
    | some (a, b, c') =>
      let fits := match s.cust.cls with
        | .a => a
        | .b => b
        | _ => c'
      if fits then s.modCust fun c => { c with atr := true }
      else if s.cust.cls == .c && b then s.modCust fun c => { c with cls := .b }
      else if s.cust.cls == .c && a then s.modCust fun c => { c with cls := .a }
      else custErr 1 (deactivate s)

/-- CARD_SILENT: no ATR at class C within 40,000 clock cycles (R556). -/
def execCardSilent (s : State) : Out := .next <|
  if s.cust.cls == .c && !s.cust.atr then (deactivate s).modCust fun c => { c with silent := true } else s

/-- CARD_REMOVED: the switch opens; the contacts are deactivated, and the session's hold time runs from now (R553, R558, R568). -/
def execCardRemoved (s : State) : Out := .next <|
  if !s.dev.mainOn || !s.cust.card then s
  else
    let s := presence 2 (wakeUp s)
    let s := match s.cust.inSlot with
      | some n => seeCredential n s
      | none => s
    (deactivate s).modCust fun c => { c with card := false, silent := false, inSlot := none }

/-- CARD_OVERCURRENT: a card over its current limit is deactivated (R607). -/
def execCardOvercurrent (s : State) : Out := .next <|
  if s.cust.cls == .inactive then s else custErr 2 (deactivate s)

/-- CAPACITIVE_WAKE in sleep (R568). -/
def execCapacitiveWake (s : State) : Out := .next <|
  if s.dev.asleep && regBit 0xD00C 31 s then presence 0 (wakeUp s) else s

/-! ### Registers -/

/-- Code of a card class. -/
def classCode : CardClass → Nat
  | .inactive => 0
  | .a => 1
  | .b => 2
  | .c => 3

/-- `CUST_STATUS` (Table 17-8). -/
def custStatus (s : State) : Word :=
  wbit s.cust.card 31 ||| wfield (classCode s.cust.cls) 29 ||| wbit (cardSlotDisabled s) 28 ||| wbit s.cust.fieldOn 27
    ||| wbit s.cust.readerBusy 26

/-- `CUST_RF` (Table 17-9): the drive level that was written, else the setting that the survey found (R77, R78). -/
def custRf (s : State) : Word :=
  if s.dev.expert.contains 0xD008 then regGet 0xD008 s else wfield (fieldOf (regGet 0x0240 s) 28 24) 0

/-- `CUST_LIVE`. -/
def custLive (s : State) : Word := wfield (setsSatisfied s) 8 ||| wfield (s.cust.sessions.length % 256) 0

/-! ### Component ceremonies (R265, R570) -/

/-- Session identifiers a component command names. -/
def compSessions (c : Cmd) : List Nat := (List.range (c.blk 32 1)).map fun i => c.blk (40 + 8 * i) 8

/-- The custodians named are distinct and their sessions live. -/
def compLive (c : Cmd) (s : State) : Bool :=
  (compSessions c).all (fun i => s.cust.sessions.any fun x => sessionId x == i)
    && ((compSessions c).foldl (fun l i => insertNat (i % 256) l) []).length == (compSessions c).length

/-- Step 7 of the component commands. -/
def compOk (c : Cmd) (s : State) : Bool :=
  let n := c.blk 32 1
  c.keyB == 0 && decide (2 ≤ n ∧ n ≤ 8 ∧ c.block.length = 40 + 8 * n) && allZero (bytesAt c.block 36 2) && compLive c s

/-- A reason a component exchange may report: also 0x0A. -/
def compReason (r : Nat) : Nat := if r = 10 then 10 else reasonOf r

/-- Length of a key made of components: every key whose material fits the 32 bytes of R559; 0 for the others. -/
def compLen (alg hmacLen : Nat) : Nat :=
  if isTdea alg || isAes alg then algLen alg else if alg = 8 ∧ hmacLen ≤ 32 then hmacLen
  else if alg = 0x18 ∨ alg = 0x1C ∨ alg = 0x1D then 32 else 0

/-- The exclusive OR of components of `n` bytes that stand one after the other. -/
def combine (n : Nat) (bs : List Byte) : List Byte := (chunks n bs).foldl xorBytes (zeros n)

/-- The components gathered so far, one after the other. -/
def gathered (c : Cmd) : List Byte := c.scratch.map (BitVec.ofNat 8)

/-- KEY_IMPORT_COMPONENTS: each call handles the next credential in order; with the last, the key is formed and checked (R265, R570). -/
def execKeyImportComponents (id : Nat) (a : CompAns) (s : State) : Out := .next <| runOp { noKeys with
    block := fun _ => some (56, 104)
    params := fun c s => badUnless (c.keyA == 0 && compOk c s && decide (0 < compLen (c.blk 0 1) (tmplLen c.block))
      && tmplOk c c.block s && tmplLenOk c.block)
    after := fun c s => endUnless (colourGiven c (c.blk 1 1) (tmplOwner c c.block) s) .keyColourMismatch } 0x1008 id (fun c s =>
  let n := compLen (c.blk 0 1) (tmplLen c.block)
  let form := fun (c : Cmd) (s : State) =>
    let r := tmplRec c c.block s
    let m := combine n (gathered c)
    if kcvOf r.alg m ≠ bytesAt c.block 33 3 then finishSt c .verifyFailed s
    else withSlots c [⟨r.domain, r.owner, granulesOf r.alg n⟩] s fun c s =>
      commitNew c [withMaterial r m] (Ending.inline (le 8 (nthHandle c 0 s))) s
  if (gathered c).length = n * c.blk 32 1 then form c s
  else match a with
    | .fail r => endReason c (compReason r) s
    | .ok b =>
      let c := { c with scratch := c.scratch ++ (bytesAt (b ++ zeros 48) 16 n).map (·.toNat) }
      let s := cmdPut c s
      if (gathered c).length = n * c.blk 32 1 then form c s else s) s

/-- The component record written to a credential: the export's tally, `ALG`, length, the component's KCV, the material (R559). -/
def compRecord (t alg : Nat) (m : List Byte) : List Byte :=
  le 8 t ++ le 1 alg ++ le 1 m.length ++ zeros 2 ++ bytesAt (kcvOf alg m) 0 3 ++ zeros 1 ++ bytesAt m 0 32

/-- KEY_EXPORT_COMPONENTS: the first call draws the components; each call writes the next one to its credential (R265, R570). The inline KCV
is that of the last component (log 90). -/
def execKeyExportComponents (id : Nat) (a : TagWrite CompAns) (s : State) : Out := .next <| runOp { noKeys with
    block := fun _ => some (56, 104)
    params := fun c s => badUnless (compOk c s)
    keys := fun c _ => [(c.keyA, role (usageBits [7]) [1, 2, 3, 4, 5, 8, 0x18, 0x1C, 0x1D])]
    after := fun c s => endUnless (decide ((c.keyMat c.keyA s).length ≤ 32)) .keyUsageDenied } 0x1009 id (fun c s =>
  let m := c.keyMat c.keyA s
  let n := m.length
  let count := c.blk 32 1
  let write := fun (c : Cmd) (s : State) =>
    let i := c.scratch.getD 0 0
    match a.ans with
    | .fail r => endReason c (compReason r) s
    | .ok _ =>
      if (compSessions c).getD i 0 / 256 % 256 = 2 && weakField a.vr s then endWeak c s else
      let s := sendTag (compRecord (c.scratch.getD 1 0) (c.keyAlg c.keyA s) (bytesAt c.data (n * i) n)) s
      if i + 1 < count then cmdPut { c with scratch := [i + 1, c.scratch.getD 1 0] } s
      else finish c (Ending.inline (kcvOf (c.keyAlg c.keyA s) (bytesAt c.data (n * i) n) ++ zeros 5)) s
  if c.scratch.isEmpty then
    withKey c (n * (count - 1)) s fun k s =>
      let (t, s) := issueTally s
      let c := { c with data := k ++ xorBytes m (combine n k), scratch := [0, t] }
      write c (cmdPut c s)
  else write c s) s

end Sys2Proof.Machine
end

