-- ==== Sys2Proof/Machine/Power.lean ====
section
/-! DEFINITION. Power: main power good and lost, the boot ROM, the survey, sleep, the Punty field, the reservation marks (chapters 01, 03,
15, 18, 19). -/
namespace Sys2Proof.Machine

/-! ### Main power lost (R598, R600, R601) -/

/-- A flash operation that power loss cuts short. An erase leaves its flag pending (R508, R510). -/
def cutShort (p : Nat) (s : State) : State :=
  match busyOp p s with
  | none => s
  | some o =>
    let s := setBusy p none s
    if o.op = 1 then
      let n := o.data.length
      let (fb, s) := drawBytes n s
      let (wb, s) := drawBytes (n / 8) s
      let s := flashAnd o.addr (mixBytes o.data fb) s
      let s := s.modFlash fun f => { f with
        marked := (List.range (n / 256)).foldl (fun m i => insertNat (o.addr / 256 + i) m) f.marked }
      weaken (wb.mapIdx fun i b => (o.addr / 8 + i, b.toNat % 6)) s
    else if o.op = 2 then
      let n := o.data.length
      let (fb, s) := drawBytes n s
      flashAnd o.addr (mixBytes o.data fb) s
    else s

/-- A register that the backup domain holds (R73): `TAMPER_LEVEL0`, the readings and counters of Tables 18-9 and 18-14. -/
def slowKept (key : Nat) : Bool := key == 0xE00C || (decide (0xE100 ≤ key) && decide (key ≤ 0xE128)) || key == 0xF100 || key == 0xF104

/-- The backup domain loses its supply: its contents are gone (R601; log 86). -/
def loseBackup (s : State) : State :=
  let s := { s with backup := { resetBackup with lostVbat := true } }
  let s := s.modTamper fun t => { t with respLevel := 0, alarms := [], active := [], deciding := false, retiring := false }
  { (s.modPunty fun p => { p with shadow := [] }) with regs := s.regs.filter fun r => !slowKept r.1 }

/-- What stays of a cartridge slot while power is absent: flash knows the set's last members (log 24). -/
def slotKept (k : CartSlot) : CartSlot := { resetSlot with serial := k.serial, lastSeq := k.lastSeq, member := k.member }

/-- Registers that keep their value: those of the backup domain (R73), and the retired units of `DEVICE_DEGRADED` (R114). -/
def regsKept (s : State) : List (Nat × Word) :=
  assocSet 0x0300 (if degraded s &&& 0x1FE = 0 then none else some (degraded s &&& 0x1FE)) (s.regs.filter fun r => slowKept r.1)

/-- The generator at main power-up: a source retired under R114 stays retired, and with both retired the KEY class is stopped (R376). -/
def retiredRng (sources : BitVec 2) : Rng :=
  let st := fun (gone : Bool) => if gone then SrcState.retired else .starting
  { resetRng with
    a := { resetSource with st := st (sources.getLsbD 0) }, b := { resetSource with st := st (sources.getLsbD 1) }
    stopped := sources == 3 }

/-- The state once main power is gone: fuses, OTP, flash, the backup domain, the Punty and the vault's cartridges stay (log 66). -/
def powerLost (s : State) : State :=
  { State.reset with
    fuses := s.fuses
    dev := { resetDev with
      mainOn := false, boot := .off, mode := s.dev.mode, prevMode := s.dev.prevMode, markCopy := s.dev.markCopy, ddn := s.dev.ddn
      identity := s.dev.identity, rootKeys := s.dev.rootKeys }
    units := s.units
    keytab := { resetKeyTab with
      granFree := granulePool s, spare := spareRegions s - s.keytab.remapped.length, remapped := s.keytab.remapped }
    flash := { s.flash with uncorr0 := 0, uncorr1 := 0 }
    cistern := { resetCistern with
      lastPool := s.cistern.lastPool, lsq := s.cistern.lsq, ring := s.cistern.ring, floors := s.cistern.floors, keeper := s.cistern.keeper
      ownLatest := s.cistern.ownLatest, firstAck := s.cistern.firstAck, cert := s.cistern.cert, root := s.cistern.root
      members := s.cistern.members.map fun m => { m with reachable := false, firstHop := 0, hops := 0 }
      bcast := s.cistern.bcast, blog := s.cistern.blog, adjSeq := s.cistern.adjSeq
      ports := s.cistern.ports.map fun p => { resetMeshPort with faultedPowerUps := if p.faulted then p.faultedPowerUps else 0 }
      lapsed := s.cistern.lapsed ++ (s.cistern.pools.filter fun p => p.2.working != 0).map fun p => (p.1, p.2.working) }
    vault := { resetVault with
      layout := s.vault.layout, ident := s.vault.ident, epoch := s.vault.epoch, slot0 := slotKept s.vault.slot0
      slot1 := slotKept s.vault.slot1, nextSeq := s.vault.nextSeq, durableTally := s.vault.durableTally, archive := s.vault.archive
      audit := s.vault.audit, auditUsed := s.vault.auditSegs.length, auditSegs := s.vault.auditSegs, auditHigh := s.vault.auditHigh
      kek := s.vault.kek, sealKey := s.vault.sealKey, sealTag := s.vault.sealTag }
    cust := { resetCust with table := s.cust.copy, copy := s.cust.copy }
    otp := s.otp
    backup := s.backup
    rng := retiredRng s.units.sources
    tamper := { s.tamper with
      respLevel := 0, active := s.tamper.active.filter watchedInHold, raised := [], scrubbing := false, reform := false, deciding := false
      retiring := false }
    punty := { s.punty with waits := [] }
    regs := regsKept s
    free := s.free
    pending := s.pending }

/-- Enter FORENSIC from HOLD or from no power: a Punty field is present without main power (R96, R583). -/
def enterForensic (s : State) : State :=
  let s := s.modDev fun d => { d with mode := .forensic, prevMode := d.mode }
  if s.backup.vbat then puntyTouch 0 (putRecord (recordNow 0 3 0xFF 0 0 0 0 s) s) else s

/-- Enter HOLD, or stay unpowered; a RETIRED E9 changes no mode (Table 3-4). With a Punty field already present, FORENSIC follows. -/
def enterHold (s : State) : State :=
  if s.dev.mode = .retired then (if s.backup.vbat then s else loseBackup s)
  else
    let s := if s.backup.vbat then
        let s := s.modDev fun d => { d with mode := .hold, prevMode := d.mode }
        puntyTouch 0 (putRecord (recordNow 0 2 0xFF 0 0 0 0 s) (s.modBackup fun b => { b with holdRecord := true }))
      else loseBackup (s.modDev fun d => { d with mode := .survey })
    if s.punty.field then enterForensic s else s

/-- MAIN_POWER_LOSS: `survive` segments in flight had been stored by their cartridges, the rest of the journal buffer is gone; flash
operations are cut short (R507, R533, R598, R601). -/
def execMainPowerLoss (survive : Nat) (s : State) : Out := .next <|
  if !s.dev.mainOn then s
  else
    let s := (s.vault.inflight.take survive).foldl (fun s g => settleSeg g s) s
    enterHold (powerLost (recordHeld (cutShort 2 (cutShort 1 (cutShort 0 s)))))

/-! ### Main power good (R100, R597) -/

/-- Burn one pending increment: a bit already burned is verified again (R100, R582). With every bit burned it stays pending. -/
def burnPending (s : State) (b : Nat) : State :=
  if b < s.otp.evidence then s
  else if 512 ≤ s.otp.evidence then s.modBackup fun d => { d with pending := d.pending ++ [b] }
  else regOr 0x0208 1 { s with otp := { s.otp with evidence := s.otp.evidence + 1 } }

/-- The value of the latest reservation-mark record of a kind; 0 with none. -/
def markRec (kind : Nat) (s : State) : Nat := match latestRec kind s with
  | some r => r.data
  | none => 0

/-- A noise source that an earlier power-up retired stays retired (R114, R376). -/
def retiredSources (s : State) : State :=
  let f := fun (x : Side) (s : State) => if s.units.sources.getLsbD (sideNum x) then s.modSrc x fun q => { q with st := .retired } else s
  let s := f .b (f .a s)
  if s.units.sources = 3 then s.modRng fun r => { r with stopped := true } else s

/-- MAIN_POWER_GOOD: every main rail is in range; the OTP sequencer burns the pending increments, and the E9 is in SURVEY, or RETIRED
(R96, R99, R100, R597). A pending increment counts as burned in this power-up also where its bit was burned before (R107; DESIGN CHOICE,
log 141). Tallies go on from the mark that flash records, before step 2 of R101 too (R40). -/
def execMainPowerGood (s : State) : Out := .next <|
  if s.dev.mainOn then s
  else
    let ps := s.backup.pending
    let m : Mode := if s.otp.retire then .retired else .survey
    let mark := markRec 0x01 s * 2 ^ 20
    let s := s.modDev fun d => { d with
      mainOn := true, boot := .good, mode := m, prevMode := m, pendingAtGood := !ps.isEmpty, countedThisPowerUp := !ps.isEmpty
      nextTally := mark, tallyMark := mark, markCopy := mark }
    let s := s.modTamper fun t => { t with deciding := false, retiring := false }
    let s := ps.foldl burnPending (s.modBackup fun b => { b with pending := [] })
    let s := s.modVault fun v => { v with auditKey := s.dev.identity.isSome }
    refreshSlow (retiredSources (if s.fuses.grade = .c8 ∧ !s.otp.retire then regOr 0x0200 0x120 s else s))

/-! ### The boot ROM (R101 to R104) -/

/-- Pending flag words of both flag sectors: their address and sector (Table 15-3). -/
def pendingFlags (s : State) : List (Nat × Nat) :=
  [0, 1].flatMap fun x => (List.range 2048).filterMap fun i =>
    let w := flashWord (flagAddr x i) s
    let n := w / 0x1000 % 0x1000
    if w = pendingCode n ∧ n < 0x200 then some (flagAddr x i, n) else none

/-- Step 1 of R101: repeat one erase (R510). -/
def resumeErase (s : State) (f : Nat × Nat) : State :=
  let r := sectorRange f.2
  let s := bump 0xB040 1 (flashErr 0 (regOr 0x0208 4 (closeFlag f.1 (eraseRange r.1 r.2 s))))
  putRecord (recordNow 0 6 0xFF 0 0 0 0 s) s

/-- Step 2 of R101: reserve 16 blocks beyond each mark (R513). -/
def reserveMarks (s : State) : State :=
  let t := markRec 0x01 s
  let n := markRec 0x02 s
  let s := bump 0xB114 2 (logRecord 0x02 (n + 16) (logRecord 0x01 (t + 16) s))
  let s := s.modDev fun d => { d with
    nextTally := t * 2 ^ 20, tallyMark := (t + 16) * 2 ^ 20, markCopy := (t + 16) * 2 ^ 20, tallyAdv := 16 }
  let s := s.modCipher fun e => { e with nonce := n * 2 ^ 20, nonceMark := (n + 16) * 2 ^ 20, nonceAdv := 16 }
  s.modVault fun v => { v with gap := if v.ident.isSome then some (t * 2 ^ 20) else none }

/-- Step 3 of R101: tallies for the records of backup SRAM; alarms in force set the response level. -/
def tallyBackup (s : State) : State :=
  let n := (s.backup.records.filter fun r => r.tally == 0 && decide (r.kind ≤ 4)).length
  updateLevel (tallyRecords (regMask 0x0208 0xFF00 (wfield (min n 255) 8) s))

/-- Step 4 of R101: a loss of the master key-encryption key that nothing explains is counted (R102). -/
def kekCheck (s : State) : State :=
  let f := modeFlags s
  let b := s.backup
  let s' := s.modBackup fun b => { b with lostVbat := false, holdRecord := false }
  if b.mkek.isEmpty && f % 2 == 1 && f / 2 % 2 == 0 && !s.dev.pendingAtGood && (b.lostVbat || !b.holdRecord) then
    let s := regOr 0x0208 2 (s'.modDev fun d => { d with countedThisPowerUp := true })
    if 512 ≤ s.otp.evidence then s.modBackup fun b => { b with pending := [512] }
    else evidenceBurn { s with otp := { s.otp with evidence := s.otp.evidence + 1 } }
  else s'

/-- BOOT_ROM_START: steps 1 to 4 of R101. -/
def execBootRomStart (s : State) : Out := .next <|
  if s.dev.boot ≠ .good then s
  else
    let s := (pendingFlags s).foldl resumeErase s
    (kekCheck (tallyBackup (reserveMarks s))).modDev fun d => { d with boot := .rom }

/-- Mode selection (R107). -/
def selectMode (noImage : Bool) (s : State) : Mode :=
  let f := modeFlags s
  if s.otp.retire || (!s.backup.pending.isEmpty && decide (512 ≤ s.otp.evidence)) then .retired
  else if noImage then .maintain
  else if s.dev.identity.isNone then .blank
  else if f / 2 % 2 = 1 ∨ s.dev.countedThisPowerUp then .zeroized
  else if f / 4 % 2 = 1 then .provision
  else if s.backup.mkek.isEmpty then .zeroized
  else if f / 8 % 2 = 1 ∧ s.fuses.grade ≠ .c8 then .join
  else serviceOrDegraded s

/-- Step 6 of R101: the key store's keys; equal halves of the XTS key are drawn again (R226); with them the cache's hash key, a free
number (R245, log 128). -/
def drawStoreKeys : Nat → State → State
  | 0, s => s
  | fuel + 1, s => match drawKey 64 [] s with
    | .ok x s =>
      if x.take 32 = x.drop 32 then drawStoreKeys fuel s
      else match drawKey 32 [] s with
        | .ok m s =>
          let (h, s) := drawNat s
          s.modKeys fun t => { t with xtsKey := x, macKey := m, hashKey := h }
        | .wait s => s
        | .stopped s => s
    | .wait s => s
    | .stopped s => s

/-- The image the boot ROM starts: the active one, else the other; none when neither passes (R104). -/
def bootImage (sig0 sig1 : Bool) (s : State) : Option Nat :=
  let a := activeSlot s
  let sig := fun (n : Nat) => if n = 0 then sig0 else sig1
  if imagePasses a (sig a) s then some a else if imagePasses (1 - a) (sig (1 - a)) s then some (1 - a) else none

/-- Start an image on the Warden cores: its version, and the other cores released (R437). -/
def startImage (n : Option Nat) (s : State) : State :=
  s.modWarden fun w => { w with
    fwVersion := match n with
      | some n => BitVec.ofNat 32 (imageField n 4 4 s)
      | none => 0
    running := n, c1 := { w.c1 with held := false }, c2 := { w.c2 with held := false }, c3 := { w.c3 with held := false } }

/-- BOOT_RELEASE: steps 5 to 7 of R101, once KEY-class output is there or the start-up tests are over (R103). `sig0`, `sig1`: the
signatures of the images verify; `agree`: the two checks agree, else they are repeated (R98). An E9 that is RETIRED, or that an alarm
took out of SURVEY, selects no mode. -/
def execBootRelease (sig0 sig1 agree : Bool) (s : State) : Out := .next <|
  if s.dev.boot ≠ .rom ∨ !(keyReady s || (s.rng.a.st != .starting && s.rng.b.st != .starting)) then s
  else if !agree then disagree s
  else
    let n := bootImage sig0 sig1 s
    let s := if n = some (1 - activeSlot s) then regOr 0x0208 8 s else s
    let s := drawStoreKeys 4 (startImage n s)
    if s.dev.mode = .survey then
      s.modDev fun d => { d with boot := .selected, recovery := n.isNone, selected := some (selectMode n.isNone s) }
    else s.modDev fun d => { d with boot := .running, recovery := n.isNone }

/-! ### The survey (R105, R106, R110 to R112, R613) -/

/-- An item of the survey is done. -/
def itemDone (n : Nat) (fault : Bool) (s : State) : State := regOr 0x0200 (wbit true n ||| wbit fault (16 + n)) s

/-- Nominal voltages of the main rails in mV (Table 19-2). -/
def railNominal : List Nat := [750, 850, 1100, 750, 900, 1800, 3300, 5000]

/-- A rail is outside its nominal value ±3 % (R596). -/
def railOut (n mv : Nat) : Bool := let v := railNominal.getD n 0; decide (100 * mv < 97 * v ∨ 103 * v < 100 * mv)

/-- A coil's register (Table 3-11). -/
def coilItem (item key : Nat) (bad : Bool) (nh : BitVec 16) (q : BitVec 8) (setting : BitVec 5) (s : State) : State :=
  let fault := bad || decide (q.toNat < 10)
  itemDone item fault (regSet key (wbit true 31 ||| wbit fault 30 ||| wfield setting.toNat 24 ||| wfield q.toNat 16 ||| wfield nh.toNat 0) s)

/-- The card slot (R613): with a card, its contacts decide whether the slot is enabled. -/
def cardItem (present : Bool) (mOhm : BitVec 16) (s : State) : State :=
  let fault := present && decide (500 < mOhm.toNat)
  let r := if present then mOhm.toNat else 0xFFFF
  let s := regSet 0x0250 (wbit true 31 ||| wbit present 30 ||| wbit fault 29 ||| wfield r 0) (regClr 0x0200 (wbit true 20) s)
  let s := itemDone 4 fault s
  if fault then (deactivate s).modCust fun c => { c with card := present }
  else if present && s.cust.cls == .inactive && !s.cust.silent then s.modCust fun c => { c with card := true, cls := .c }
  else s.modCust fun c => { c with card := present }

/-- One mesh port (R111): preset, fault, and training where the cable is good. -/
def meshItem (s : State) (n : Nat) (m : MeshFound) : State :=
  if meshFitted s ≤ n then s
  else
    let fault := m.medium = 0 ∧ (m.bad ∨ 510 < m.cm)
    let preset := if m.medium = 0 then min 10 ((m.cm + 49) / 50) else 0
    let s := regSet (0x0260 + 4 * n) (wbit true 31 ||| wbit (decide fault) 30 ||| wfield m.medium.val 28 ||| wfield preset 24
      ||| wfield (if m.medium = 0 then min m.cm 511 else 0) 0) s
    if fault then meshFault n (meshDown n (regOr 0x0200 (wbit true 21) s))
    else if m.medium = 2 then s
    else meshTrain n (meshMod n (fun p => { p with fails := 0 }) s)

/-- A cartridge slot's part of item 7: an empty slot reads `VALID` alone. -/
def cartItem (s : State) (n : Nat) : State :=
  if slotFitted n s && (s.cart n).state == .empty then regSet (0x0280 + 4 * n) (wbit true 31) s else s

/-- A slot's survey has ended. -/
def cartMeasured (s : State) (n : Nat) : Bool :=
  !slotFitted n s || (s.cart n).state == .empty || (s.cart n).measured

/-- A slot holds a good cartridge: identified, neither retired nor read-only. -/
def cartGood (s : State) (n : Nat) : Bool := cartIdOk n s && !regBit (0x0280 + 4 * n) 28 s && !regBit (0x0280 + 4 * n) 26 s

/-- Item 7: with fewer good cartridges than the layout needs, `DEVICE_DEGRADED.CART` is set (Tables 3-6, 3-16). -/
def cartsItem (s : State) : State :=
  if !([0, 1].all (cartMeasured s)) then s
  else
    let s := [0, 1].foldl cartItem s
    let bad := [0, 1].any fun n => (s.cart n).state != .empty && !cartGood s n
    let s := itemDone 7 bad s
    if ([0, 1].filter (cartGood s)).length < layoutNeeds s then setDegraded 0 s else s

/-- What one measurement does. `FAULT` bits 21 and 23 are never cleared (DESIGN CHOICE, log 140). -/
def surveyItem (d : SurveyData) (s : State) : State :=
  match d with
  | .rails mv =>
    let mv := (mv.take 8).map BitVec.toNat
    let s := (mv.mapIdx fun i v => (i, v)).foldl (fun s x =>
      regSet (0x0210 + 4 * x.1) (wbit true 31 ||| wbit (railOut x.1 x.2) 30 ||| wfield x.2 0) s) s
    itemDone 0 ((mv.mapIdx fun i v => railOut i v).any id) s
  | .cell mv =>
    let low := decide (mv.toNat < 2500)
    let s := regSet 0x0230 (wbit true 31 ||| wbit low 30 ||| wfield mv.toNat 0) s
    let s := s.modBackup fun b => { b with vbatMv := mv.toNat, vbat := decide (2200 ≤ mv.toNat) }
    itemDone 1 (decide (mv.toNat < 2200)) (if low then tamperErr 0 s else s)
  | .antenna bad nh q set => coilItem 2 0x0240 bad nh q set s
  | .punty bad nh q set => coilItem 3 0x0244 bad nh q set s
  | .card present r => cardItem present r s
  | .mesh ports => regOr 0x0200 (wbit true 5) ((ports.mapIdx fun i m => (i, m)).foldl (fun s x => meshItem s x.1 x.2) s)
  | .carts => cartsItem s
  | .peers => itemDone 8 false s
  | .decision agree =>
    if s.dev.boot ≠ .selected ∧ s.dev.boot ≠ .running then s else if agree then itemDone 9 false s else disagree s

/-- Number of a survey item. -/
def itemOf : SurveyData → Nat
  | .rails _ => 0
  | .cell _ => 1
  | .antenna _ _ _ _ => 2
  | .punty _ _ _ _ => 3
  | .card _ _ => 4
  | .mesh _ => 5
  | .carts => 7
  | .peers => 8
  | .decision _ => 9

/-- SURVEY_ITEM_DONE: an item's measurement completes, in SURVEY or later; the rails are watched until SURVEY ends (R105, R106, R110). -/
def execSurveyItemDone (d : SurveyData) (s : State) : Out := .next <|
  if !s.dev.mainOn ∨ s.dev.mode = .retired ∨ (regBit 0x0200 (itemOf d) s ∧ (s.dev.mode ≠ .survey ∨ itemOf d ≠ 0)) then s
  else surveyItem d (if itemOf d = 0 then regClr 0x0200 (wbit true 16) s else s)

/-- SURVEY_REPEAT: a mesh cable, a cartridge or a card has been connected after SURVEY (R111). -/
def execSurveyRepeat (d : SurveyData) (s : State) : Out := .next <|
  if s.dev.mainOn ∧ s.dev.boot = .running ∧ s.dev.mode ≠ .retired ∧ (itemOf d = 4 ∨ itemOf d = 5 ∨ itemOf d = 7) then surveyItem d s else s

/-! ### Entering the selected mode (R105, R107 to R109) -/

/-- PROVISION without a master key-encryption key makes a new one first (R109); without KEY-class output it is not entered. Root keys
made under an earlier key are void. -/
def enterProvision (s : State) (k : State → State) : Option State :=
  if !s.backup.mkek.isEmpty then some (k s)
  else match drawKey 32 [] s with
    | .ok x s => some (k ((s.modBackup fun b => { b with mkek := x }).modDev fun d => { d with rootKeys := false }))
    | .wait _ => none
    | .stopped _ => none

/-- Enter the mode that mode selection has chosen. -/
def enterSelected (m : Mode) (s : State) : Option State :=
  match m with
  | .retired => some (enterRetired s)
  | .zeroized => some (enterZeroized (if modeFlags s / 2 % 2 = 1 then s else destroyKeys s))
  | .provision => enterProvision s (changeMode .provision)
  | .service => some (changeMode (serviceOrDegraded s) s)
  | .degraded => some (changeMode (serviceOrDegraded s) s)
  | m => some (changeMode m s)

/-- SURVEY_END: every item is done, or the time is over (`late`); `us`: microseconds since main power good (R105, R106). A mode of R98
needs its agreed decision. -/
def execSurveyEnd (late : Bool) (us : BitVec 32) (s : State) : Out := .next <|
  match s.dev.selected with
  | none => s
  | some m =>
    let out := (List.range 8).any fun n => regBit (0x0210 + 4 * n) 30 s
    let critical := (m == .retired || m == .zeroized) && !regBit 0x0200 9 s
    if s.dev.mode ≠ .survey ∨ s.dev.boot ≠ .selected ∨ out ∨ critical ∨ !(late || regGet 0x0200 s &&& 0x3FF == 0x3FF) then s
    else
      match enterSelected m (regSet 0x0204 us (regOr 0x0200 (wbit true 31) s)) with
      | none => s
      | some s => serveHeld (s.modDev fun d => { d with boot := .running, selected := none })

/-- KNOWN_ANSWER_TESTS: the units that fail, before SURVEY ends (R274, R344, R364); `rng`: the tests of the DRBG, the Gather lanes
and the expander cores pass (R375). -/
def execKnownAnswerTests (flume lanes pke : List (Fin 64)) (rng : Bool) (s : State) : Out := .next <|
  if s.dev.mainOn ∧ (s.dev.mode = .survey ∨ s.dev.boot ≠ .running) then
    let s := if rng then s.modRng fun g => { g with kat := true } else s
    let s := flume.foldl (fun s u => flumeRetire u.val s) s
    let s := lanes.foldl (fun s n => if n.val < 16 then laneRetire n.val s else s) s
    pke.foldl (fun s n => if n.val < 48 then pkeRetire n.val s else s) s
  else s

/-! ### The Punty field, the backup cell (R586, R591, R592) -/

/-- PUNTY_FIELD_ARRIVE: a field powers the tag, with a UID drawn afresh; without main power the E9 enters FORENSIC.
In sleep the event is posted as when awake (log 80). -/
def execPuntyFieldArrive (s : State) : Out := .next <|
  if s.punty.field then s
  else
    let (u, s) := drawBytes 3 s
    let s := s.modPunty fun p => { p with field := true, uid := 0x08 :: u, selected := false, halted := false, answer := [] }
    if s.dev.mainOn then postEvt .both 0xF001 1 0 s
    else if s.dev.mode = .retired then s
    else enterForensic s

/-- PUNTY_FIELD_LOSS: the field is lost. -/
def execPuntyFieldLoss (s : State) : Out := .next <|
  if !s.punty.field then s
  else
    let s := s.modPunty fun p => { p with field := false, uid := [], selected := false, halted := false, answer := [] }
    if s.dev.mainOn then postEvt .both 0xF001 0 0 s
    else if s.dev.mode ≠ .forensic then s
    else if s.backup.vbat then
      let s := s.modDev fun d => { d with mode := .hold, prevMode := .forensic }
      puntyTouch 0 (putRecord (recordNow 0 4 0xFF 0 0 0 0 s) s)
    else s.modDev fun d => { d with mode := .survey }

/-- VBAT_LOST: the cell is lost without main power; the E9 is unpowered, but for a field (R102). -/
def execVbatLost (s : State) : Out := .next <|
  if s.dev.mainOn ∨ !s.backup.vbat then s
  else loseBackup (s.modDev fun d => { d with mode := if d.mode = .hold then .survey else d.mode })

/-- BACKUP_DOMAIN_FIRST_POWERED: a cell is fitted to an unpowered backup domain (R586). -/
def execBackupDomainFirstPowered (s : State) : Out := .next <|
  if s.dev.mainOn ∨ s.backup.vbat then s else (loseBackup s).modBackup fun b => { b with vbat := true }

/-! ### Sleep and temperature (R30, R34 to R36) -/

/-- Every condition of R34 holds. -/
def idle (s : State) : Bool :=
  (s.cmdif.sqs.all fun q => q.fetched == q.published) && s.cmdif.cmds.isEmpty
    && (List.range 4).all (fun n => s.units.cores.getLsbD n || (coreGet n s).waiting)
    && s.vault.opens.isEmpty && s.vault.inflight.isEmpty && s.vault.copying.isNone && !restoreComes s
    && [0, 1].all (fun n => (s.cart n).state != .bringup && (s.cart n).state != .rebuilding)
    && s.flash.busy0.isNone && s.flash.busy1.isNone && s.flash.busyP.isNone && s.dev.markBusy.isNone && s.cipher.nonceBusy.isNone
    && s.cistern.ports.all fun p => p.txWait.isEmpty && p.unacked.isEmpty

/-- The links that are up enter their low-power state (R124, R398, Table 4-1). -/
def sleepLinks (s : State) : State :=
  let f := fun (q : PortSt) => { q with lowPower := q.up }
  ((s.modPort .a f).modPort .b f).modCistern fun x => { x with ports := x.ports.map fun p => { p with lowPower := p.up } }

/-- SLEEP_ENTRY: `IDLE_TIME` of idleness has passed (R34). -/
def execSleepEntry (s : State) : Out := .next <|
  if (s.dev.mode = .service ∨ s.dev.mode = .degraded) ∧ !s.dev.asleep ∧ idle s ∧ fieldOf (regGet 0x0080 s) 27 16 ≠ 0
      ∧ !regBit 0x0080 1 s then
    sleepLinks ((s.modDev fun d => { d with asleep := true }).modCust fun c => { c with fieldOn := false })
  else s

/-- WAKE: a doorbell, a mesh wake request, capacitive sensing or a timer interrupt starts the fast clocks (R35, R38). -/
def execWake (s : State) : Out := .next <| onMain wakeUp s

/-- TEMP_STEP_DOWN: both sensors read above 125 °C (R30). -/
def execTempStepDown (s : State) : Out := .next <| onMain (fun s => s.modDev fun d => { d with tempStep := true }) s

/-- TEMP_STEP_UP: both sensors have read 120 °C or below for 10 ms (R30). -/
def execTempStepUp (s : State) : Out := .next <| onMain (fun s => s.modDev fun d => { d with tempStep := false }) s

/-! ### The reservation marks (R513) -/

/-- A mark runs low: fewer values below it than 2^19 or a quarter of its last advance. -/
def markLow (mark next adv : Nat) : Bool := decide (mark - next < max (2 ^ 19) (adv * 2 ^ 20 / 4))

/-- MARK_ADVANCE of the tally mark or the nonce mark; `n`: blocks used in the last 16 s. The record is being written. -/
def execMarkAdvance (nonce : Bool) (n : Nat) (s : State) : Out := .next <|
  let adv := min 65536 (n + 1)
  if !s.dev.mainOn ∨ s.dev.boot = .good then s
  else if nonce then
    if s.cipher.nonceBusy.isNone && markLow s.cipher.nonceMark s.cipher.nonce s.cipher.nonceAdv then
      s.modCipher fun e => { e with nonceBusy := some (e.nonceMark + adv * 2 ^ 20), nonceAdv := adv }
    else s
  else if s.dev.markBusy.isNone && markLow s.dev.tallyMark s.dev.nextTally s.dev.tallyAdv then
    s.modDev fun d => { d with markBusy := some (d.tallyMark + adv * 2 ^ 20), tallyAdv := adv }
  else s

/-- MARK_RECORD_VERIFIED: the record verifies; the mark moves, and the backup domain shows the tally mark. -/
def execMarkRecordVerified (nonce : Bool) (s : State) : Out := .next <|
  if nonce then match s.cipher.nonceBusy with
    | none => s
    | some m => bump 0xB114 1 (logRecord 0x02 (m / 2 ^ 20) (s.modCipher fun e => { e with nonceMark := m, nonceBusy := none }))
  else match s.dev.markBusy with
    | none => s
    | some m => bump 0xB114 1 (logRecord 0x01 (m / 2 ^ 20)
        (s.modDev fun d => { d with tallyMark := m, markCopy := m, markBusy := none }))

end Sys2Proof.Machine
end

