-- ==== Sys2Proof/Machine/Rules.lean ====
section
/-! DEFINITION. Steps 3 and 4 of the command checks (Table 5-6): modes, response levels, furrow 0, furrow policy (chapters 03, 05, 06). -/
namespace Sys2Proof.Machine

/-! ### Modes (R89 to R94, R104, R116, Table 3-2) -/

/-- Source modes of a mode-change command (Table 3-3). -/
def modeSources : Nat → Option (List Mode)
  | 0x0010 => some [.blank]
  | 0x0011 => some [.provision]
  | 0x0012 => some [.zeroized]
  | 0x0020 => some [.service, .degraded]
  | 0x0021 => some [.ceremony]
  | 0x0030 => some [.service, .degraded]
  | 0x0031 => some [.maintain]
  | 0x0032 => some [.maintain]
  | 0x0033 => some [.maintain]
  | 0x0040 => some [.service, .degraded]
  | 0x0041 => some [.join]
  | 0x0050 => some [.blank, .provision, .ceremony, .service, .degraded, .maintain, .join]
  | 0x0051 => some [.blank, .provision, .ceremony, .service, .degraded, .maintain, .join, .zeroized]
  | _ => none

/-- A mode-change command needs the quorum (Table 3-3). -/
def needsQuorum (op : Nat) (m : Mode) : Bool :=
  op == 0x0012 || op == 0x0020 || op == 0x0051 || (op == 0x0050 && m != .blank && m != .provision)

/-- Functions of the classes that Table 3-2 marks P3 and that draw KEY-class output at every use: `KEY_GENERATE`,
`KEY_EXPORT_COMPONENTS`, `PK_GENERATE`, `KEM_ENCAPSULATE`, `VAULT_FORMAT`. -/
def drawsAlways (op : Nat) : Bool := op == 0x1001 || op == 0x1009 || op == 0x4003 || op == 0x4005 || op == 0x7001

/-- Every unit of some kind that a command needs is retired (P3 of Table 3-2, R116, R275). Of the kinds that P3 lists, key-store regions
are never all retired (R228), and no function of the classes that Table 3-2 marks P3 programs flash or uses a mesh port. Where P3 and
chapter 11 both name an answer for a function that draws on a retired pair of noise sources, step 3 comes first (log 121). -/
def unitsGone (c : Cmd) (s : State) : Bool :=
  let cls := c.cls
  let warden := c.route == .warden && coresUp s == 0
  if drawsAlways c.opcode.toNat && s.units.sources == 3 then true
  else if cls = 2 then lanesUp s == 0 || warden
  else if cls = 3 then flumeUnits s == 0 || warden
  else if cls = 4 then
    let op := c.opcode.toNat
    let alg := match (slotGet (hIdx c.keyA) s).entry with
      | some r => some r.alg
      | none => none
    coresUp s == 0 || (modCores s == 0 && latCores s == 0) ||
      (if op = 0x4005 ∨ op = 0x4006 then latCores s == 0
       else if op = 0x4007 ∨ op = 0x4008 ∨ op = 0x4004 then modCores s == 0
       else if op = 0x4003 then c.form == 0 && kindGone (genAlg c) s
       else match alg with
         | some a => kindGone a s
         | none => false)
  else if cls = 1 ∨ cls = 7 ∨ cls = 10 then coresUp s == 0
  else false

/-- In CEREMONY with the quorum, a reserved function runs; elsewhere it completes as R28 states (P2 of Table 3-2): an opcode marked C,
or `ROUTE_UPDATE` `ADMIT`. -/
def reservedBar (o : OpInfo) (c : Cmd) (m : Mode) (s : State) : Option Status :=
  if (o.ceremony || (c.opcode == 0x6005 && c.inlByte 48 == 1)) && !(m == .ceremony && s.dev.quorum) then some .quorumNotMet else none

/-- A class by mode (Table 3-2), the unit kinds of P3 apart, and the mode rule of `CUSTODIAN_ENROL` (R550); `none`: accepted. -/
def classBar (o : OpInfo) (c : Cmd) (m : Mode) (s : State) : Option Status :=
  let no := some Status.modeForbids
  let cls := c.cls
  if cls = 0 ∨ cls = 9 ∨ cls = 11 then none
  else if cls = 15 then
    (if m = .blank ∨ m = .zeroized ∨ o.diag then none else no)
  else if c.opcode = 0x8001 then (if m = .provision ∨ (m = .ceremony ∧ s.dev.quorum) then none else no)
  else if cls = 8 then (if m = .provision ∨ m = .ceremony ∨ m = .service ∨ m = .degraded ∨ m = .zeroized then none else no)
  else match m with
    | .provision =>
      if cls = 1 ∨ cls = 4 then (if o.provision then none else no)
      else if cls = 5 ∨ cls = 7 then none
      else no
    | .ceremony => reservedBar o c m s
    | .service => reservedBar o c m s
    | .degraded => reservedBar o c m s
    | .maintain => if cls = 2 ∨ cls = 3 then none else no
    | .join =>
      if cls = 6 ∧ (c.opcode = 0x6003 ∨ c.opcode = 0x6006 ∨ (c.opcode = 0x6005 ∧ c.inlByte 48 ≠ 1)) then none else no
    | .zeroized => if c.opcode = 0x7003 ∨ c.opcode = 0x7004 then none else no
    | _ => no

/-- In recovery only the commit, the image functions, class 0x9 and class 0xF are accepted (R104). -/
def recoveryBar (c : Cmd) (s : State) : Bool :=
  s.dev.recovery && !(c.opcode == 0x0031 || c.opcode == 0x0033 || c.opcode == 0x0034 || c.cls == 9 || c.cls == 15)

/-- What mode `m` says to a command: `none` when it accepts it. -/
def modeBar (o : OpInfo) (c : Cmd) (m : Mode) (s : State) : Option Status :=
  let op := c.opcode.toNat
  match modeSources op with
  | some ms =>
    if !ms.contains m then some .modeForbids
    else if (m = .maintain ∧ recoveryBar c s) ∨ c.furrow ≠ 0 then some .modeForbids
    else if needsQuorum op m && !s.dev.quorum then some .quorumNotMet
    else none
  | none =>
    if o.provisionOnly ∧ m ≠ .provision then some .modeForbids
    else if m = .maintain ∧ recoveryBar c s then some .modeForbids
    else match classBar o c m s with
      | some st => some st
      | none => if unitsGone c s then some .modeForbids else none

/-- What the response levels in force say (R92, R579): class 0x1 at levels 1 and 3, new sessions at level 3 and above. -/
def levelBar (c : Cmd) (s : State) : Bool :=
  (c.cls == 1 && (levelInForce 1 s || levelInForce 3 s))
    || ((c.opcode == 0x8003 || c.opcode == 0x8004) && (levelInForce 3 s || levelInForce 4 s))

/-- The mode whose rules a command is dispatched under: the target of a mode change that waits (R91), else the mode. -/
def rulesMode (s : State) : Mode := match s.dev.modeWait with
  | some (_, m) => m
  | none => s.dev.mode

/-- What is accepted from furrow 0 only: the M limit of Table 5-11, and the two queries of another furrow's state (R158, R185). -/
def furrowBar (o : OpInfo) (c : Cmd) : Bool :=
  c.furrow != 0 && (o.mgr || ((c.opcode == 0x9016 || c.opcode == 0x900A) && c.inlNat 48 2 != c.furrow))

/-- Step 3 for a furrow and a mode. -/
def step3 (o : OpInfo) (c : Cmd) (m : Mode) (s : State) : Option Status :=
  match modeBar o c m s with
  | some st => some st
  | none => if levelBar c s || furrowBar o c then some .modeForbids else none

/-- A dispatched command that a target mode forbids (R91). -/
def forbidsInFlight (m : Mode) (but : Nat) (s : State) : Bool :=
  s.cmdif.cmds.any fun d => d.id != but && d.phase != .fetched && d.phase != .arrived &&
    match opInfo d.opcode.toNat with
    | some o => (modeSources d.opcode.toNat).isNone && (modeBar o d m s).isSome
    | none => false

/-! ### Furrow policy (R197, Table 6-2) -/

/-- Opcodes that pass step 4 whatever the policy holds. -/
def policyFree (c : Cmd) : Bool :=
  c.opcode == 0x0000 || c.opcode == 0x0001 || ((c.opcode == 0x9016 || c.opcode == 0x900A) && c.inlNat 48 2 == c.furrow)

/-- `ENGINE_SHARE` is 0 for an engine that the command uses (Table 6-2). -/
def shareBar (x : Furrow) (c : Cmd) : Bool :=
  let w := x.shareWarden == 0
  if c.cls = 2 then x.shareCipher == 0 || (c.route == .warden && w)
  else if c.cls = 3 then x.shareFlume == 0 || (c.route == .warden && w)
  else if c.cls = 4 then w || x.sharePke == 0
  else w

/-- Step 4. -/
def step4 (c : Cmd) (s : State) : Option Status :=
  if policyFree c then none
  else match furrowGet c.furrow s with
    | none => some .quotaExceeded
    | some x => if !x.classMask.getLsbD c.cls || shareBar x c then some .quotaExceeded else none

/-! ### Lengths and the block reference (step 5: R166) -/

/-- Step 5; a unit that the command needs, disabled, ends it once the limits that every opcode shares are checked. -/
def step5 (sp : OpSpec) (c : Cmd) (disabled : Bool) : Option Ending :=
  if 65536 < c.srcLen ∨ 65536 < c.dstLen then some (Ending.st .badLength)
  else if disabled then some (Ending.st .abortedDisabled)
  else match sp.lens c with
    | some e => some e
    | none => match sp.block c with
      | none => none
      | some (lo, hi) =>
        if c.blockLen < lo ∨ hi < c.blockLen ∨ c.blockLen < 16 ∨ 4096 < c.blockLen then some (Ending.st .badLength)
        else if c.blockAddr % 16 ≠ 0 ∨ c.inlNat 60 4 ≠ 0 then some (Ending.st .badParam)
        else none

end Sys2Proof.Machine
end

