-- ==== Sys2Proof/Machine/Modes.lean ====
section
/-! DEFINITION. The mode-change commands (Table 3-3) and the other class 0x0 and 0xF opcodes (chapters 03, 05, 18). -/
namespace Sys2Proof.Machine

/-! ### Mode-change commands (R91, R93 to R95, R98) -/

/-- A mode change that no longer waits. -/
def clearWait (s : State) : State := s.modDev fun d => { d with modeWait := none }

/-- A mode-change command: its other conditions, the wait of R91 for commands that the target forbids, then the change. A second one while one
waits, or one whose source mode is gone, completes with `MODE_FORBIDS` (log 74). -/
def modeOp (code id : Nat) (target : Cmd → State → Mode) (cond : Cmd → State → Option Status) (go : Cmd → State → State)
    (s : State) : Out := .next <| runOp noKeys code id (fun c s =>
  let mine : Bool := match s.dev.modeWait with
    | some (i, _) => i == c.id
    | none => true
  let here := match modeSources code with
    | some ms => ms.contains s.dev.mode
    | none => false
  if !mine then finishSt c .modeForbids s
  else if !here then finishSt c .modeForbids (clearWait s)
  else match cond c s with
    | some st => finishSt c st (clearWait s)
    | none =>
      let m := target c s
      if forbidsInFlight m c.id s then s.modDev fun d => { d with modeWait := some (c.id, m) }
      else go c (clearWait s)) s

/-- `MODE_FORBIDS` unless a condition holds. -/
def forbidUnless (b : Bool) : Option Status := if b then none else some .modeForbids

/-- No further condition. -/
def noCond (_ : Cmd) (_ : State) : Option Status := none

/-- Enter PROVISION and complete; without KEY-class output for a missing master key the command cannot (R109). -/
def provisionEnd (c : Cmd) (record : State → State) (s : State) : State :=
  match enterProvision s fun s => changeMode .provision (record s) with
  | some s => finishSt c .ok s
  | none => if s.rng.stopped then finishSt c .entropyUnavailable s else s

/-- MODE_PROVISION_BEGIN; `ddn`: the domain device number that provisioning assigns to a device without one (log 70). -/
def execModeProvisionBegin (id : Nat) (ddn : BitVec 14) (s : State) : Out :=
  modeOp 0x0010 id (fun _ _ => .provision) noCond (fun c s =>
    provisionEnd c (fun s => setModeFlags 0x4 0 (s.modDev fun d => { d with ddn := some (d.ddn.getD ddn.toNat) })) s) s

/-- `MODE_PROVISION_COMPLETE` with the JOIN bit. -/
def wantsJoin (c : Cmd) : Bool := (c.inlByte 48).getLsbD 0

/-- Conditions of `MODE_PROVISION_COMPLETE` (Table 3-3, R123). A vault whose label is sealed under an earlier master key does not open and
does not count (R109). -/
def completeCond (c : Cmd) (s : State) : Option Status :=
  forbidUnless (s.dev.identity.isSome && s.dev.rootKeys && s.cust.table.hasSet && s.vault.ident.isSome && vaultOpens s && s.dev.ddn.isSome
    && !(wantsJoin c && s.fuses.grade == .c8))

/-- The record of the domain root, an ML-DSA-87 key held as a domain record (R405). -/
def rootRec (s : State) : KeyRec := { blankRec 0x25 0 0 s with flags := 3, usage := usageBits [16] }

/-- Found the key domain: the root, this device's certificate at incarnation 0, the domain's shape (R405, R434). -/
def foundDomain (pub : List Byte) (s : State) : State :=
  let w := regGet 0x9008 s
  let s := s.modCistern fun x => { x with
    root := sha256 pub, cert := some (ownDdn s, 0, sha256 (s.dev.identity.getD [])) }
  lockDomainCfg (fieldOf w 12 8) (fieldOf w 3 0) s

/-- Leave PROVISION for SERVICE or DEGRADED; the first device of a domain founds it (R109, R116, R405). -/
def leaveProvision (c : Cmd) (s : State) : State :=
  let go := fun (s : State) => changeMode (serviceOrDegraded s) (setModeFlags 0x1 0x4 s)
  if !s.cistern.root.isEmpty then finishSt c .ok (go s)
  else withSlots c [⟨true, 0, granulesOf 0x25 0⟩] s fun c s =>
    match drawKey (rndLen 0x25 0) [] s with
    | .wait s => s
    | .stopped s => finishSt c .entropyUnavailable s
    | .ok rnd s =>
      withNewKey c 0x25 rnd s fun m s =>
        commitNew c [withMaterial (rootRec s) m] (Ending.st .ok) (go (foundDomain (pubKeyOf 0x25 m) s))

/-- MODE_PROVISION_COMPLETE (R109, R121, R123). -/
def execModeProvisionComplete (id : Nat) (s : State) : Out :=
  modeOp 0x0011 id (fun c s => if wantsJoin c then .join else serviceOrDegraded s) completeCond (fun c s =>
    if wantsJoin c then finishSt c .ok (changeMode .join (setModeFlags 0x19 0x4 s)) else leaveProvision c s) s

/-- MODE_REPROVISION; `agree`: the two computations of R98 agree (R108, R109). -/
def execModeReprovision (id : Nat) (agree : Bool) (s : State) : Out :=
  modeOp 0x0012 id (fun _ _ => .provision) noCond (fun c s =>
    if !agree then disagreeOf c.id s else provisionEnd c (setModeFlags 0x4 0xB) s) s

/-- MODE_CEREMONY_BEGIN. -/
def execModeCeremonyBegin (id : Nat) (s : State) : Out :=
  modeOp 0x0020 id (fun _ _ => .ceremony) noCond (fun c s => finishSt c .ok (changeMode .ceremony s)) s

/-- MODE_CEREMONY_END (R97). -/
def execModeCeremonyEnd (id : Nat) (s : State) : Out :=
  modeOp 0x0021 id (fun _ s => serviceOrDegraded s) noCond (fun c s => finishSt c .ok (changeMode (serviceOrDegraded s) s)) s

/-- MODE_MAINTAIN_BEGIN (R117). -/
def execModeMaintainBegin (id : Nat) (s : State) : Out :=
  modeOp 0x0030 id (fun _ _ => .maintain) noCond (fun c s => finishSt c .ok (changeMode .maintain s)) s

/-- MODE_MAINTAIN_ABORT, not in recovery (R97). -/
def execModeMaintainAbort (id : Nat) (s : State) : Out :=
  modeOp 0x0032 id (fun _ s => serviceOrDegraded s) (fun _ s => forbidUnless (!s.dev.recovery)) (fun c s =>
    finishSt c .ok (changeMode (serviceOrDegraded s) s)) s

/-- Restart the Warden cores from the boot ROM (R118). -/
def restartCores (s : State) : State :=
  (List.range 4).foldl (fun s n => coreMod n (fun _ => resetCore (decide (n ≠ 0))) s) s

/-- The staged image: the one in the slot that is not active; in recovery the active slot's where only that one passes (log 76). -/
def stagedSlot (sig0 sig1 : Bool) (s : State) : Option Nat :=
  let a := activeSlot s
  let sig := fun (n : Nat) => if n = 0 then sig0 else sig1
  if imagePasses (1 - a) (sig (1 - a)) s then some (1 - a)
  else if s.dev.recovery && imagePasses a (sig a) s then some a
  else none

/-- The cores restart, once for a commit; its repeated checks find them restarted (R98, R118). -/
def commitRestart (c : Cmd) (s : State) : State :=
  if c.scratch.isEmpty then cmdPut { c with scratch := [1] } (restartCores s) else s

/-- MODE_MAINTAIN_COMMIT: the cores restart from the boot ROM, which checks the staged image twice; `sig0`, `sig1`: the images' signatures
verify; `agree`: the two checks agree (R98, R118, R119). A commit that fails starts the image that ran before. -/
def execModeMaintainCommit (id : Nat) (sig0 sig1 agree : Bool) (s : State) : Out :=
  modeOp 0x0031 id (fun _ s => selectMode false s) noCond (fun c s =>
    let s := commitRestart c s
    if !agree then disagreeOf c.id s
    else match stagedSlot sig0 sig1 s with
      | none => finishSt c .verifyFailed (startImage s.warden.running s)
      | some n =>
        let s := startImage (some n) (logRecord 0x10 n s)
        let s := s.modDev fun d => { d with recovery := false }
        match selectMode false s with
        | .retired => finishSt c .ok (retireBut (some c.id) s)
        | m => match enterSelected m s with
          | some s => finishSt c .ok (pumpHooks s)
          | none => finishSt c .entropyUnavailable s) s

/-- MODE_JOIN_BEGIN (R121, R123). -/
def execModeJoinBegin (id : Nat) (s : State) : Out :=
  modeOp 0x0040 id (fun _ _ => .join) (fun _ s => forbidUnless (s.fuses.grade != .c8)) (fun c s =>
    finishSt c .ok (changeMode .join (setModeFlags 0x8 0x10 s))) s

/-- JOIN was entered from PROVISION, as the `MODE_STATE` record gives (R121). -/
def joinedFromProvision (s : State) : Bool := modeFlags s / 16 % 2 == 1

/-- MODE_JOIN_ABORT (R121). -/
def execModeJoinAbort (id : Nat) (s : State) : Out :=
  modeOp 0x0041 id (fun _ s => if joinedFromProvision s then .provision else serviceOrDegraded s) noCond (fun c s =>
    if joinedFromProvision s then provisionEnd c (setModeFlags 0x4 0x8) s
    else finishSt c .ok (changeMode (serviceOrDegraded s) (setModeFlags 0 0x8 s))) s

/-- The zeroize statement: every pool at `HELD` 0 (R422). -/
def zeroizeStmt (s : State) : State :=
  if s.cistern.pools.isEmpty then s
  else
    let (t, s) := issueTally s
    let st : Stmt := ⟨ownDdn s, ownInc s, s.cistern.lsq + 1, t, s.cistern.pools.map fun p => ⟨p.1, 6, 0, p.2.held, 0⟩⟩
    let s := s.modCistern fun x => { x with lsq := x.lsq + 1, stmts := x.stmts ++ [⟨st, none⟩] }
    if s.cistern.keeper.isNone && s.cistern.newKeeper.isNone then keepStmt st s else sendStmt st s

/-- MODE_ZEROIZE: the statement goes to the keeper, and the row acts again when it is acknowledged or 10 ms are over (R422); `agree`: the two
computations of R98 agree. Not a counted event (R581). -/
def execModeZeroize (id : Nat) (agree : Bool) (s : State) : Out :=
  modeOp 0x0050 id (fun _ _ => .zeroized) noCond (fun c s =>
    if c.scratch.isEmpty then cmdPut { c with scratch := [1] } (zeroizeStmt s)
    else if !agree then disagreeOf c.id s
    else
      let s := finishAll (fun d => d.id != c.id && !d.wroteDst && d.phase != .fetched) .abortedAlarm s
      finishSt c .ok (enterZeroized (destroyKeys s))) s

/-- MODE_RETIRE; `agree`: the two computations of R98 agree (R99). -/
def execModeRetire (id : Nat) (agree : Bool) (s : State) : Out :=
  modeOp 0x0051 id (fun _ _ => .retired) noCond (fun c s =>
    if !agree then disagreeOf c.id s else finishSt c .ok (retireBut (some c.id) s)) s

/-! ### The other class 0x0 opcodes -/

/-- A result whose content the spec leaves open: free bytes, as many as a free number gives up to `DST_LEN` (log 3). -/
def openResult (c : Cmd) (s : State) : State :=
  let (k, s) := drawNat s
  let (bs, s) := drawBytes (k % (c.dstLen + 1)) s
  finish c (Ending.out bs) s

/-- DEVICE_INFO; the content of the information is open. -/
def execDeviceInfo (id : Nat) (s : State) : Out := .next <| runOp noKeys 0x0001 id openResult s

/-- RTC_SET: INLINE bytes 48 to 53 give the seconds, the fraction starts at 0, `RTC_VALID` is set (R586; log 75). -/
def execRtcSet (id : Nat) (s : State) : Out := .next <| runOp noKeys 0x0060 id (fun c s =>
  finishSt c .ok (s.modBackup fun b => { b with rtcSec := c.inlNat 48 6, rtcFrac := 0, rtcValid := true })) s

/-- A unit that can be disabled, by its number in Table 1-1: 3 cipher engine, 4 Flume, 5 public-key engine (log 71). -/
def unitParams (c : Cmd) (_ : State) : Option Status :=
  badUnless (c.keyA == 0 && c.keyB == 0 && (c.inlNat 48 1 == 3 || c.inlNat 48 1 == 4 || c.inlNat 48 1 == 5))

/-- Write the disable control of a unit (R45). -/
def unitCtl (n : Nat) (v : Word) (s : State) : State :=
  if n = 3 then cipherCtlWrite v s else if n = 4 then flumeCtlWrite v s else pkeCtlWrite v s

/-- UNIT_DISABLE (R45). -/
def execUnitDisable (id : Nat) (s : State) : Out := .next <| runOp { noKeys with params := unitParams } 0x0070 id (fun c s =>
  finishSt c .ok (unitCtl (c.inlNat 48 1) 1 s)) s

/-- UNIT_ENABLE (R45). -/
def execUnitEnable (id : Nat) (s : State) : Out := .next <| runOp { noKeys with params := unitParams } 0x0071 id (fun c s =>
  finishSt c .ok (unitCtl (c.inlNat 48 1) 0 s)) s

/-! ### Class 0xF (P5 of Table 3-2); what their results hold is open -/

/-- SELFTEST_RESULTS. -/
def execSelftestResults (id : Nat) (s : State) : Out := .next <| runOp noKeys 0xF001 id openResult s
/-- COUNTER_SNAPSHOT. -/
def execCounterSnapshot (id : Nat) (s : State) : Out := .next <| runOp noKeys 0xF003 id openResult s
/-- A unit whose self-test fails is retired (R114). Which unit fails, or none, is a free number (log 123): the kind of the unit in its
lowest digit, the unit above. -/
def selftestFail (k : Nat) (s : State) : State :=
  let n := k / 8
  match k % 8 with
  | 1 => laneRetire (n % 16) s
  | 2 => flumeRetire (n % 64) s
  | 3 => pkeRetire (n % 48) s
  | 4 => retireCore (n % 4) s
  | 5 => if n % 4 < meshFitted s then meshRetire (n % 4) s else s
  | 6 => retireBank (n % 2) s
  | 7 => if s.units.sources.getLsbD (n % 2) then s else retireSource (if n % 2 = 0 then .a else .b) s
  | _ => s

/-- UNIT_SELFTEST: the self-test of units runs; one that fails retires its unit (R114). -/
def execUnitSelftest (id : Nat) (s : State) : Out := .next <| runOp noKeys 0xF010 id (fun c s =>
  let (k, s) := drawNat s
  openResult c (selftestFail k s)) s
/-- MEMORY_TEST. -/
def execMemoryTest (id : Nat) (s : State) : Out := .next <| runOp noKeys 0xF011 id openResult s

end Sys2Proof.Machine
end

