-- ==== Sys2Proof/Machine/DispatchCmds.lean ====
section
/-! DEFINITION. Dispatch of fetched commands (R20, R157, R168, R180) and the arrival of what they read. -/
namespace Sys2Proof.Machine

/-! ### What step 5 needs of each opcode: limits on lengths, and its extended block -/

/-- Limits and block of class 0x0 to 0x5 opcodes. -/
def spec05 : Nat → OpSpec
  | 0x0033 => imageLoadSpec
  | 0x0034 => { noKeys with lens := needDst 32 }
  | 0x1001 => keyGenSpec
  | 0x1002 => keyImportSpec
  | 0x1003 => keyExportSpec
  | 0x1004 => keyDeriveSpec
  | 0x1005 => subjectSpec
  | 0x1006 => { subjectSpec with lens := needDst 48 }
  | 0x1007 => { subjectSpec with block := fun _ => some (32, 32) }
  | 0x1008 => { noKeys with block := fun _ => some (56, 104) }
  | 0x1009 => { noKeys with block := fun _ => some (56, 104) }
  | 0x2001 => cipherSpec 1
  | 0x2002 => cipherSpec 2
  | 0x2003 => cipherSpec 3
  | 0x2004 => cipherSpec 4
  | 0x2005 => cipherSpec 5
  | 0x2006 => cipherSpec 6
  | 0x2007 => cipherSpec 7
  | 0x2008 => cipherSpec 8
  | 0x3001 => xlateSpec
  | 0x3002 => pinChkSpec 0
  | 0x3003 => pinChkSpec 1
  | 0x3004 => pinChkSpec 2
  | 0x3010 => emvSpec false
  | 0x3011 => emvSpec true
  | 0x3020 => cvvSpec 0
  | 0x3021 => cvvSpec 2
  | 0x3030 => dukptPinSpec
  | 0x3031 => dukptMacSpec
  | 0x3040 => retailSpec false
  | 0x3041 => retailSpec true
  | 0x3050 => ff1Spec false
  | 0x3051 => ff1Spec true
  | 0x4001 => signSpec
  | 0x4002 => verifySpec
  | 0x4003 => keypairSpec
  | 0x4004 => ecdhSpec
  | 0x4005 => encapsSpec
  | 0x4006 => decapsSpec
  | 0x4007 => rsaEncSpec
  | 0x4008 => rsaDecSpec
  | 0x5001 => randomSpec
  | 0x5002 => { noKeys with lens := fun c => if c.srcLen ≠ 0 then some (Ending.st .badLength) else needDst 64 c }
  | _ => noKeys

/-- Limits and block of class 0x6 to 0xF opcodes. -/
def spec6F : Nat → OpSpec
  | 0x6001 => { noKeys with block := fun c => if c.form = 1 then some (32, 32) else none }
  | 0x6003 => { noKeys with lens := needDst 96 }
  | 0x6005 => routeSpec
  | 0x6006 => { noKeys with lens := fun c => if c.form = 0 then needDst 64 c else none }
  | 0x7002 => { noKeys with lens := needDst 64 }
  | 0x8002 => { noKeys with lens := needDst 64 }
  | 0x8006 => { sealSpec with lens := needDst 272 }
  | 0x8007 => sealWriteSpec
  | 0x9001 => furrowCreateSpec
  | 0x9002 => blockOf 32
  | 0x9008 => blockOf 32
  | 0x900A => { noKeys with lens := fun c => needDst (furrowQueryLen c) c }
  | 0x9010 => blockOf 32
  | 0x9012 => blockOf 32
  | 0x9016 => { noKeys with lens := needDst 32 }
  | 0xA001 => installSpec
  | 0xB001 => { noKeys with lens := needDst 64 }
  | 0xB003 => { noKeys with lens := needDst 72 }
  | 0xF002 => { noKeys with lens := fun c => needDst c.srcLen c }
  | _ => noKeys

/-- What an opcode declares for step 5. -/
def opSpec (code : Nat) : OpSpec := if code < 0x6000 then spec05 code else spec6F code

/-! ### Dispatch -/

/-- A unit that a command needs is disabled (R22, R45, R276, R345, R366). -/
def unitDisabled (c : Cmd) (s : State) : Bool :=
  (c.cls == 2 && (cipherDisabled s || flumeDisabled s)) || (c.cls == 3 && flumeDisabled s) || (c.cls == 4 && pkeDisabled s)

/-- Steps 1 to 5 of Table 5-6 under a mode's rules; `none`: every check passes. -/
def dispatchStatus (c : Cmd) (m : Mode) (s : State) : Option Ending :=
  match entryCheck c s with
  | some st => some (Ending.st st)
  | none =>
    match opInfo c.opcode.toNat with
      | none => some (Ending.st .badOpcode)
      | some o => match step3 o c m s with
        | some st => some (Ending.st st)
        | none => match step4 c s with
          | some st => some (Ending.st st)
          | none => step5 (opSpec c.opcode.toNat) c (unitDisabled c s)

/-- The route of a command (R20). -/
def routeOf (c : Cmd) (s : State) : Route :=
  if (c.cls = 2 ∨ c.cls = 3) ∧ !(c.handles.any fun h => carriesPolicy h c.furrow c.cls s) then .flume else .warden

/-- A class 0x2 or 0x3 command names a slot whose restore is under way: its applet-policy test waits (R20, R254). -/
def restoreWait (c : Cmd) (s : State) : Bool :=
  (c.cls == 2 || c.cls == 3) && restoreComes s && c.handles.any fun h => routeWaits h s

/-- A command that adds to the rollup waits while the journal buffer cannot take the next one (R544). -/
def rollupWait (c : Cmd) (s : State) : Bool :=
  !rollupFits s && (match opInfo c.opcode.toNat with
    | some o => o.audit == .rollup
    | none => false)

/-- Ring order and fences: every earlier command of the SQ is dispatched, and for a fence completed (R157, R180). -/
def inTurn (c : Cmd) (s : State) : Bool :=
  (sqCmds c.furrow c.sq s).all fun d => decide (c.idx ≤ d.idx) || (!c.fence && d.phase != .fetched && d.phase != .arrived)

/-- The E9 dispatches commands (R87, R92). -/
def dispatching (s : State) : Bool :=
  s.dev.mainOn && s.dev.mode != .survey && s.dev.mode != .retired && !s.dev.asleep && !levelStops s

/-- DISPATCH of command `id`: steps 1 to 5, the route, and the reads of step 6 (R20, R90, R91, R168, R200). -/
def execDispatch (id : Nat) (s : State) : Out := .next <|
  match cmdGet id s with
  | none => s
  | some c =>
    if c.phase ≠ .arrived ∨ !dispatching s ∨ !inTurn c s ∨ (c.seals && !c.sealSlot) then s
    else if sqAborts c s || furrowAborts c.furrow s then finishSt c .abortedDisabled s
    else if (entryCheck c s).isNone && (restoreWait c s || rollupWait c s) then s
    else
      let c := { c with mode := rulesMode s, route := routeOf c s }
      match dispatchStatus c c.mode s with
      | some e => finish c e s
      | none =>
        let x := (furrowGet c.furrow s).getD resetFurrow0
        let blk := ((opSpec c.opcode.toNat).block c).isSome
        let src := c.srcLen != 0
        let p := homeOf c.furrow c.cq s
        let s := cmdPut { c with
          colours := x.colourSet, keyQuota := x.keyQuota, dispTally := s.dev.nextTally, dispRtc := s.backup.rtcSec, needBlock := blk, needSrc := src
          phase := if blk || src then .reading else .ready } s
        let s := if blk then pushMrd p (.block id) c.blockAddr c.blockLen (some c.ptag) s else s
        if src then pushMrd p (.src id) c.src.toNat c.srcLen (some c.ptag) s else s

/-- SHARE_RECHECK: a reservation of another command has resolved, and the share check of command `id` is repeated (R282). -/
def execShareRecheck (id : Nat) (s : State) : Out := .next <|
  match cmdGet id s with
  | some c => if c.phase = .waitShares then cmdPut { c with phase := .ready } s else s
  | none => s

/-- Store what a read brought; with nothing outstanding the command is ready. -/
def readDone (c : Cmd) (s : State) : State :=
  cmdPut (if c.needBlock || c.needSrc then c else { c with phase := .ready }) s

/-- The data of a read arrives with its `CST` (R133, R219). -/
def readArrive (r : ReadOf) (cst : Cst) (data : List Byte) (s : State) : State :=
  match r with
  | .entries _ => s
  | .block id => match cmdGet id s with
    | none => s
    | some c =>
      if c.phase ≠ .reading ∨ !c.needBlock then s
      else if cst ≠ .ok then finishSt c .dmaFault s
      else readDone { c with needBlock := false, block := bytesAt data 0 c.blockLen } s
  | .src id => match cmdGet id s with
    | none => s
    | some c =>
      if c.phase ≠ .reading ∨ !c.needSrc then s
      else if cst ≠ .ok then finishSt c .dmaFault s
      else readDone { c with needSrc := false, data := bytesAt data 0 c.srcLen } s
  | .bitmap f w => bitmapRead f w (cst == .ok) (natAt data 0 8) s

/-- CPL_RECEIVE: the completion of a read that is outstanding on a port that is up arrives. The entries of a queue arrive by
`ENTRY_ARRIVE`. -/
def execCplReceive (r : ReadOf) (cst : Cst) (data : List Byte) (s : State) : Out := .next <|
  match r with
  | .entries _ => s
  | _ => if readDue r s then readArrive r cst data (readOver r s) else s

end Sys2Proof.Machine
end

