-- ==== Sys2Proof/Machine/Csr.lean ====
section
/-! DEFINITION. The CSR space (chapter 02): decoding and aliases, reads with their latches, writes with their width, Headgate, guard
and lock checks, posted slow-domain writes; then the rows that are accesses to one register. -/
namespace Sys2Proof.Machine

/-! ### Decoding (R48, R50) -/

/-- Key of an aligned register address below the doorbells: block number, and bits [11:2]. -/
def csrKey (addr : Nat) : Nat := addr / 0x10000 * 0x1000 + addr % 0x1000 / 4 * 4

/-- A 32-bit address of a key's first place. -/
def keyAddr (key : Nat) : Nat := key / 0x1000 * 0x10000 + key % 0x1000

/-! ### What a register reads -/

/-- `DEVICE_ERR.BLK_ERR`: error registers of blocks 1 to 14 that hold a set bit (Table 2-7). -/
def blkErr (s : State) : Word :=
  [(0, 0x0020), (1, 0x1008), (2, 0x2050), (3, 0x3010), (4, 0x4020), (5, 0x5010), (6, 0x6010), (7, 0x7010), (8, 0x8010), (9, 0x9010),
    (10, 0xA010), (11, 0xB008), (12, 0xC010), (13, 0xD010), (14, 0xE050)].foldl
    (fun w x => w ||| wbit (decide (regGet x.2 s ≠ 0)) (16 + x.1)) 0

/-- A register with no rule of its own: its stored value, 0 where the map lists none (R52). -/
def plainRead (key : Nat) (s : State) : Word :=
  match csrFind key with
  | some c => if c.home = .stored then regGet key s else 0
  | none => 0

/-- DEVICE block (Tables 1-6 and 2-3 to 2-7). -/
def readDevice (off : Nat) (s : State) : Word :=
  if off = 0x00 then wfield 0x5A4A 16 ||| wfield 0xE9 8 ||| wfield (gradeCode s.fuses.grade) 4 ||| wfield s.fuses.stepping.toNat 0
  else if off = 0x04 then lo32 s.fuses.uid.toNat
  else if off = 0x08 then hi32 s.fuses.uid.toNat
  else if off = 0x0C then wbit s.dev.ddn.isSome 31 ||| wfield (s.dev.ddn.getD 0) 0
  else if off = 0x10 then deviceMode s
  else if off = 0x18 then lo32 s.dev.modeTally
  else if off = 0x1C then hi32 s.dev.modeTally
  else if off = 0x20 then regGet 0x0020 s ||| blkErr s
  else if off = 0x30 then lo32 s.dev.tally
  else if off = 0x34 then hi32 s.dev.tally
  else if off = 0x38 ∨ off = 0x3C then rsCopy off s
  else if off = 0x80 then
    regGet 0x0080 s ||| wbit (!s.dev.asleep) 9 ||| wbit (!s.dev.asleep) 8 ||| wbit s.dev.tempStep 3
      ||| wbit (decide (1 ≤ s.tamper.respLevel)) 2
  else plainRead off s

/-- PORT block (Tables 4-6, 4-9, 4-15). -/
def readPort (off : Nat) (s : State) : Word :=
  let tail := fun (p : Port) => wbit (s.port p).ring.phase 16 ||| wfield (s.port p).ring.tail 0
  if off = 0x00 then hgRead s
  else if off = 0x10 then linkRead .a s
  else if off = 0x14 then linkRead .b s
  else if off = 0x48 then evtCtlRead .a s
  else if off = 0x4C then wfield (s.port .a).ring.head 0
  else if off = 0x50 then tail .a
  else if off = 0x88 then evtCtlRead .b s
  else if off = 0x8C then wfield (s.port .b).ring.head 0
  else if off = 0x90 then tail .b
  else plainRead (0x1000 + off) s

/-- KEYTAB block (Table 7-13). -/
def readKeytab (off : Nat) (s : State) : Word :=
  if off = 0x00 then keytabStatus s
  else if off = 0x04 then lo32 (keytabFree s)
  else if off = 0x08 then lo32 (keytabCullet s)
  else if off = 0x0C then lo32 (keytabGranFree s)
  else if off = 0x10 then lo32 s.keytab.restored
  else if off = 0x14 then lo32 s.keytab.domainLimit
  else if off = 0x18 then lo32 s.keytab.spare
  else plainRead (0x4000 + off) s

/-- CIPHER block (Table 9-6); the staging sets are write-only. -/
def readCipher (off : Nat) (s : State) : Word :=
  if off = 0x00 then cipherStatus s
  else if off = 0x18 then s.units.lanes.setWidth 32
  else if off = 0x20 then lo32 s.cipher.lastNonce
  else if off = 0x24 then hi32 s.cipher.lastNonce
  else if 0x400 ≤ off ∧ off < 0x600 then
    let n := (off - 0x400) / 8
    if off % 8 = 0 then kslotInfo n s else lo32 (kslotGet n s).seq
  else plainRead (0x5000 + off) s

/-- CISTERN block (Table 12-10). -/
def readCistern (off : Nat) (s : State) : Word :=
  if off = 0x00 then cisternStatus s
  else if off = 0x0C then cisternMembers s
  else if off = 0x18 then cisternRing s
  else if 0x40 ≤ off ∧ off < 0x80 ∧ off % 16 = 0 then meshStatus ((off - 0x40) / 16) s
  else if 0x40 ≤ off ∧ off < 0x80 ∧ off % 16 = 4 then meshCtl ((off - 0x40) / 16) s
  else plainRead (0x9000 + off) s

/-- FLASH block (Table 15-11): the address pair is that of the requesting core, 0 for a host port (R514). -/
def readFlash (r : Requester) (off : Nat) (s : State) : Word :=
  if off = 0x00 then flashStatus s
  else if off = 0x20 then (match r with
    | .core n => (coreGet n.val s).flashAddr
    | .host _ => 0)
  else if off = 0x24 then (match r with
    | .core n => (coreGet n.val s).flashSrc
    | .host _ => 0)
  else plainRead (0xB000 + off) s

/-- TAMPER block (Table 18-9): the copies of the slow domain, with `PEND` of the registers that are written. -/
def readTamper (off : Nat) (s : State) : Word :=
  let key := 0xE000 + off
  if rsKeys.contains key then rsCopy key s ||| wbit (pend key s && (off == 0x04 || off == 0x0C)) 31 else plainRead key s

/-- What the grade does not fit: control and status of a mesh port, status and control of cartridge slot 1 (R6). -/
def unfitted (key : Nat) (s : State) : Bool :=
  (decide (0x9040 ≤ key ∧ key < 0x9080) && decide (key % 16 < 8 ∧ meshFitted s ≤ (key - 0x9040) / 16))
    || ((key == 0xC008 || key == 0xC01C) && !slotFitted 1 s)

/-- What a register reads now for a requester, with no latch and no side effect (R56). -/
def csrNow (r : Requester) (key : Nat) (s : State) : Word :=
  let off := key % 0x1000
  if unfitted key s then 0 else match key / 0x1000 with
  | 0 => readDevice off s
  | 1 => readPort off s
  | 2 => if off = 0x40 then lo32 s.cmdif.pool else if off = 0x44 then lo32 (s.cmdif.cmds.filter fun c => c.svc.isNone).length else plainRead key s
  | 3 => if 0x600 ≤ off ∧ off < 0xE00 then furrowStates ((off - 0x600) / 4) s else if off = 0x20 then
      wfield (s.furrows.filter fun f => f.2.logOn).length 16 ||| wfield (s.furrows.filter fun f => f.2.state != .free).length 0
    else plainRead key s
  | 4 => readKeytab off s
  | 5 => readCipher off s
  | 6 => if off = 0 then flumeStatus s else if off = 0x18 then lo32 s.units.flume.toNat
    else if off = 0x1C then hi32 s.units.flume.toNat else plainRead key s
  | 7 => if off = 0 then pkeStatus s else if off = 0x18 then s.units.pke else if off = 0x1C then s.units.pkeLat else plainRead key s
  | 8 => if off = 0 then rngStatus s else if off = 0x24 then lo32 s.rng.requests else plainRead key s
  | 9 => readCistern off s
  | 10 => if off = 0 then wardenStatus s else if off = 4 then s.warden.fwVersion
    else if off = 0x20 then lo32 (appletFree s) else plainRead key s
  | 11 => readFlash r off s
  | 12 => if off = 0 then vaultStatus s else if off = 4 then vaultSlot 0 s else if off = 8 then vaultSlot 1 s
    else if off = 0x20 then lo32 s.vault.durableTally else if off = 0x24 then hi32 s.vault.durableTally else plainRead key s
  | 13 => if off = 0 then custStatus s else if off = 8 then custRf s else if off = 0x20 then custLive s else plainRead key s
  | 14 => readTamper off s
  | 15 => if rsKeys.contains key then rsCopy key s else if 0x400 ≤ off ∧ off < 0xC00 then rsRow (off - 0x400) s else plainRead key s
  | _ => 0

/-! ### Wide values (R74, R75, R373) -/

/-- Lowest words of the 64-bit values, part 1. -/
def wideLows1 : List Nat :=
  [0x0004, 0x0018, 0x0030, 0x0038, 0x1040, 0x1054, 0x1080, 0x1094, 0x2010, 0x2018, 0x2024, 0x2100, 0x2108, 0x3100, 0x3108]
/-- Lowest words of the 64-bit values, part 2. -/
def wideLows2 : List Nat :=
  [0x4100, 0x4108, 0x5020, 0x5100, 0x5108, 0x6018, 0x6100, 0x6108, 0x7100, 0x8100, 0x9100, 0x9108, 0xA100, 0xC020, 0xC100, 0xE038]

/-- The higher words that a read of this lowest word latches. -/
def wideHighs (key : Nat) : List Nat :=
  if wideLows1.contains key || wideLows2.contains key then [key + 4]
  else if key = 0x8044 ∨ key = 0x8064 then [key + 4, key + 8, key + 12, key + 16]
  else []

/-- The words latched with this highest word. -/
def wideTop (key : Nat) : List Nat :=
  if wideLows1.contains (key - 4) || wideLows2.contains (key - 4) then [key]
  else if key = 0x8054 ∨ key = 0x8074 then [key - 12, key - 8, key - 4, key]
  else []

/-- A latched word of a requester. -/
def latched (r : Requester) (key : Nat) (s : State) : Option Word :=
  (s.dev.latches.find? fun l => decide (l.req = r) && l.key == key).map (·.value)

/-- Drop a requester's latches of some words. -/
def unlatch (r : Requester) (keys : List Nat) (s : State) : State :=
  s.modDev fun d => { d with latches := d.latches.filter fun l => !(decide (l.req = r) && keys.contains l.key) }

/-- Latch words for a requester at their values now. -/
def latch (r : Requester) (keys : List Nat) (s : State) : State :=
  (unlatch r keys s).modDev fun d => { d with latches := d.latches ++ keys.map fun k => ⟨r, k, csrNow r k s⟩ }

/-! ### Reads (R54 to R56, R87) -/

/-- A raw word answers only a Warden read at M level in BLANK (Table 11-10). -/
def rawAnswers (r : Requester) (s : State) : Bool :=
  match r with
  | .core n => decide (s.dev.mode = .blank) && decide ((coreGet n.val s).level = 3)
  | .host _ => false

/-- Diagnostic counters of what the model does not show, clocks held and characters or frames on a wire: the credit stalls,
`VAULT_CRC_ERRS`, `CUST_CARD_REPEATS` and `PUNTY_SWAP_WAITS`. By a read each has counted on by a free number (log 8). -/
def unseenCounters : List Nat := [0x110C, 0x112C, 0xC10C, 0xD100, 0xF108]

/-- What an unseen counter has counted since its last read. -/
def countUnseen (key : Nat) (s : State) : State :=
  if unseenCounters.contains key then
    let (n, s) := drawNat s
    bump key n s
  else s

/-- One aligned 32-bit read of a register, with its latch. A raw word of a noise source is a free value (log 3). -/
def csrRead32 (r : Requester) (key : Nat) (s : State) : Word × State :=
  let s := countUnseen key s
  if key = 0x8180 ∨ key = 0x8184 then
    if rawAnswers r s then
      let (b, s) := drawBytes 4 s
      (BitVec.ofNat 32 (leNat b), s)
    else (0, s)
  else
    let v := (latched r key s).getD (csrNow r key s)
    let s := if (wideTop key).isEmpty then s else unlatch r (wideTop key) s
    (v, if (wideHighs key).isEmpty then s else latch r (wideHighs key) s)

/-- One aligned 32-bit read anywhere in the CSR space. -/
def spaceRead32 (r : Requester) (ptag : Option (BitVec 20)) (addr : Nat) (s : State) : Word × State :=
  if 0x100000 ≤ addr then (dbRead r ptag addr s, s) else csrRead32 r (csrKey addr) s

/-- A host access to this address is not served in SURVEY and RETIRED as in other modes (R87): reads. -/
def readBarred (r : Requester) (addr : Nat) (s : State) : Bool :=
  isHost r && (s.dev.mode == .survey || s.dev.mode == .retired) && decide (0x20000 ≤ addr)

/-- Bytes of a width. -/
def widthBytes : Width → Nat
  | .b8 => 1
  | .b16 => 2
  | .b32 => 4
  | .b64 => 8

/-- Where an answer was read: block and offset below the doorbells, the address itself above. -/
def answerKey (addr : Nat) : Nat := if 0x100000 ≤ addr then addr else csrKey addr + addr % 4

/-- The access reaches the CSR space: main power, and the host port up or the core released above A level (R49). -/
def accessReaches (r : Requester) (s : State) : Bool :=
  s.dev.mainOn && match r with
    | .host p => (s.port p).up
    | .core n => !(coreGet n.val s).held && decide ((coreGet n.val s).level ≠ 0)

/-- A read of the CSR space. -/
def csrRead (r : Requester) (ptag : Option (BitVec 20)) (addr : Nat) (w : Width) (tag : Nat) (s : State) : State :=
  let n := widthBytes w
  if readBarred r addr s then answer r (answerKey addr) n tag 0 s
  else if addr % n ≠ 0 then answer r (answerKey addr) n tag 0 (devErr 2 r s)
  else if addr < 0x100000 ∧ csrKey addr = 0x8020 then rngDataRead r (addr % 4) n tag s
  else
    let (v, s) := spaceRead32 r ptag (addr / 4 * 4) s
    if n ≤ 4 then answer r (answerKey addr) n tag (wordBytes (addr % 4) n v) s
    else
      let (h, s) := spaceRead32 r ptag (addr + 4) s
      answer r (answerKey addr) n tag (h ++ v) s

/-! ### Writes (R54, R58 to R67, R610) -/

/-- Bits of RWG access: those of the map, and the command fields that read 0. -/
def guardBits (key : Nat) : Word :=
  if key = 0x1020 ∨ key = 0x1024 then 0xFC000000
  else if key = 0x9044 ∨ key = 0x9054 ∨ key = 0x9064 ∨ key = 0x9074 then 0xC000000F
  else if key = 0x5060 then 0xFFFF0FFF
  else match csrFind key with
    | some c => c.rwg
    | none => 0

/-- Bits of RWL access. -/
def lockBits (key : Nat) : Word := match csrFind key with
  | some c => c.rwl
  | none => 0

/-- The lock of the one RWL register of the CSR space, `CISTERN_DOMAIN_CFG.LOCK`, is set (R66, Table 12-12). -/
def locked (key : Nat) (s : State) : Bool := key == 0x9008 && regBit 0x9008 31 s

/-- A posted write is accepted, or refused while `PEND` is 1 (R69, R71). -/
def postWrite (r : Requester) (key : Nat) (v : Word) (s : State) : State :=
  if pend key s then devErr 3 r s else post key (v &&& 0x7FFFFFFF) s

/-- A write of `CISTERN_DOMAIN_CFG` (Table 12-12): only in PROVISION, only a shape the table allows; setting `LOCK` archives the
fields (R434). -/
def domainCfgWrite (v : Word) (s : State) : State :=
  let l := fieldOf v 12 8
  let d := fieldOf v 3 0
  if s.dev.mode = .provision ∧ shapeOk l d s then
    if (v ^^^ regGet 0x9008 s) &&& 0x80001F0F = 0 then s
    else if v.getLsbD 31 then lockDomainCfg l d s else regMask 0x9008 0x1F0F v s
  else s

/-- A FLASH address-pair or command write (R514). -/
def flashWrite (r : Requester) (off : Nat) (v : Word) (s : State) : State :=
  match r with
  | .host _ => s
  | .core n =>
    if off = 0x20 then coreMod n.val (fun c => { c with flashAddr := v }) s
    else if off = 0x24 then coreMod n.val (fun c => { c with flashSrc := v }) s
    else flashCmd n.val (fieldOf v 31 28) (fieldOf v 4 0) s

/-- RW, RWG and RWL bits take the written value, W1C bits written 1 clear; RSV bits keep reading 0 (DESIGN CHOICE, log 116). -/
def plainWrite (key : Nat) (v : Word) (s : State) : State :=
  match csrFind key with
  | none => s
  | some c =>
    if c.home = .stored then
      let m := c.rw ||| c.rwg ||| c.rwl
      regSet key ((regGet key s &&& ~~~(m ||| (v &&& c.w1c))) ||| (v &&& m)) s
    else s

/-- A write of `CUST_RF`, an expert control whose value the survey assigns until it is written (R77, R78, Table 17-9). -/
def custRfWrite (v : Word) (s : State) : State :=
  if (v ^^^ custRf s) &&& 0x1F = 0 then s else (plainWrite 0xD008 v s).modDev fun d => { d with expert := insertNat 0xD008 d.expert }

/-- The effect of a 32-bit write that has passed its checks. -/
def csrEffect (r : Requester) (key : Nat) (v : Word) (s : State) : State :=
  if key = 0x1000 then hgWrite r v s
  else if key = 0x1020 then portCtlWrite .a v s
  else if key = 0x1024 then portCtlWrite .b v s
  else if 0x1040 ≤ key ∧ key < 0x1060 then evtRegWrite .a (key - 0x1040) r v s
  else if 0x1080 ≤ key ∧ key < 0x10A0 then evtRegWrite .b (key - 0x1080) r v s
  else if key = 0x2020 then adminCfgWrite v s
  else if 0x2010 ≤ key ∧ key < 0x2030 then adminRegWrite key v s
  else if key = 0x3000 then (if regBit 0x2020 31 s then s else plainWrite key v s)
  else if key = 0x5004 then cipherCtlWrite v s
  else if 0x5040 ≤ key ∧ key < 0x5060 then kdataWrite r ((key - 0x5040) / 4) v s
  else if key = 0x5060 then kslotCmdWrite r v s
  else if key = 0x6004 then flumeCtlWrite v s
  else if key = 0x7004 then pkeCtlWrite v s
  else if key = 0x8004 then rngCfgWrite v s
  else if key = 0x8008 then rngMaskCfgWrite v s
  else if key = 0x8080 then rngMaskFailsWrite v s
  else if key = 0x9008 then domainCfgWrite v s
  else if 0x9040 ≤ key ∧ key < 0x9080 ∧ key % 16 = 4 then meshCtlWrite ((key - 0x9040) / 16) v s
  else if key = 0xB020 ∨ key = 0xB024 ∨ key = 0xB028 then flashWrite r (key % 0x1000) v s
  else if key = 0xC018 ∨ key = 0xC01C then (if v.getLsbD 0 && !regBit key 0 s then slotRelease ((key - 0xC018) / 4) s else s)
  else if key = 0xD008 then custRfWrite v s
  else if key = 0xE004 ∨ key = 0xE00C then postWrite r key v s
  else plainWrite key v s

/-- A host write that R87 drops without an error bit in SURVEY and RETIRED. -/
def writeBarred (r : Requester) (key : Nat) (s : State) : Bool :=
  isHost r && (s.dev.mode == .survey || s.dev.mode == .retired)
    && !(key / 0x1000 == 1 || key == 0x0020 || key == 0x0024 || key == 0x0FFC)

/-- The port holds the Headgate, or the requester needs none (R60). -/
def passesGate (r : Requester) (s : State) : Bool :=
  match r with
  | .host p => decide (s.ports.hg.owner = hgOf p)
  | .core _ => true

/-- A write to `<BLK>_UNLOCK` (R62). -/
def unlockWrite (r : Requester) (blk : Nat) (v : Word) (s : State) : State :=
  if v = 0x51C3E000 ||| wfield blk 0 then s.modDev fun d => { d with armed := d.armed ||| ((1 : BitVec 16) <<< blk) } else devErr 5 r s

/-- The guard of a block is armed. -/
def guardArmed (blk : Nat) (s : State) : Bool := s.dev.armed.getLsbD blk

/-- The guard of a block locks again (R63). -/
def rearm (blk : Nat) (s : State) : State := s.modDev fun d => { d with armed := d.armed &&& ~~~((1 : BitVec 16) <<< blk) }

/-- One aligned 32-bit write of a register: Headgate, then guard or lock, then its effect (R60 to R67, R610). -/
def csrWrite32 (r : Requester) (key : Nat) (v : Word) (s0 : State) : State :=
  let blk := key / 0x1000
  let armed := guardArmed blk s0
  let s := rearm blk s0
  if writeBarred r key s || unfitted key s then s
  else if key % 0x1000 = 0xFFC then unlockWrite r blk v s
  else
    let diff := v ^^^ csrNow r key s
    let g := decide (diff &&& guardBits key ≠ 0)
    let l := decide (diff &&& lockBits key ≠ 0)
    if (g || l) && !passesGate r s then devErr 4 r s
    else if g && !armed then devErr 0 r s
    else if l && locked key s then devErr 1 r s
    else csrEffect r key v s

/-- One aligned 32-bit write anywhere in the CSR space. -/
def spaceWrite32 (r : Requester) (ptag : Option (BitVec 20)) (addr : Nat) (v : Word) (s : State) : State :=
  if 0x100000 ≤ addr then dbWrite r ptag addr v s else csrWrite32 r (csrKey addr) v s

/-- The width check fails (R55): the write is dropped; it still locks the block's guard again (R63). So does a Warden core's to the
doorbells, which R164 else ignores (DESIGN CHOICE, log 139). -/
def widthFail (r : Requester) (addr : Nat) (s : State) : State :=
  if 0x100000 ≤ addr then (if s.dev.mode = .retired then s else devErr 2 r s)
  else
    let s := rearm (addr / 0x10000) s
    if writeBarred r (csrKey addr) s then s else devErr 2 r s

/-- A write of the CSR space, of any width. -/
def csrWrite (r : Requester) (ptag : Option (BitVec 20)) (addr : Nat) (w : Width) (v : BitVec 64) (s : State) : State :=
  match w with
  | .b8 => widthFail r addr s
  | .b16 => widthFail r addr s
  | .b32 => if addr % 4 ≠ 0 then widthFail r addr s else spaceWrite32 r ptag addr (v.setWidth 32) s
  | .b64 =>
    if addr % 8 ≠ 0 then widthFail r addr s
    else spaceWrite32 r ptag (addr + 4) ((v >>> 32).setWidth 32) (spaceWrite32 r ptag addr (v.setWidth 32) s)

/-! ### Accesses behind a read of `RNG_DATA` that waits (R389) -/

/-- A read of `RNG_DATA` of the requester waits. -/
def rngWaits (r : Requester) (s : State) : Bool := s.rng.reads.any fun x => decide (x.1 = r)

/-- An access takes effect. -/
def access (r : Requester) (s : State) : CsrAccess → State
  | .read ptag addr w tag => csrRead r ptag addr w tag s
  | .write ptag addr w v => csrWrite r ptag addr w v s

/-- An access is put behind the requester's waiting read. -/
def holdBehind (r : Requester) (a : CsrAccess) (s : State) : State := s.modRng fun g => { g with behind := g.behind ++ [(r, a)] }

/-- A requester presents an access: it takes effect, or waits behind the requester's waiting read. -/
def submit (r : Requester) (a : CsrAccess) (s : State) : State := if rngWaits r s then holdBehind r a s else access r s a

/-- Held accesses whose requester waits no more take effect, in order. -/
def drainFuel : Nat → State → State
  | 0, s => s
  | n + 1, s => match s.rng.behind.find? fun x => !rngWaits x.1 s with
    | none => s
    | some x => drainFuel n (access x.1 (s.modRng fun g => { g with behind := g.behind.erase x }) x.2)

/-- Reads of `RNG_DATA` may have returned: what waited behind them goes on. -/
def drainBehind (s : State) : State := drainFuel s.rng.behind.length s

/-- A 32-bit write of one register is presented. -/
def writeReg (r : Requester) (key : Nat) (v : Word) (s : State) : State :=
  if rngWaits r s then holdBehind r (.write none (keyAddr key) .b32 (v.setWidth 64)) s else csrWrite32 r key v s

/-! ### Rows: accesses in general -/

/-- CSR_WRITE: a write of the CSR space, checked for width, Headgate and guard or lock (R67). -/
def execCsrWrite (r : Requester) (ptag : Option (BitVec 20)) (addr : BitVec 21) (w : Width) (v : BitVec 64) (s : State) : Out :=
  .next <| if accessReaches r s then submit r (.write ptag addr.toNat w v) s else s

/-- BLK_UNLOCK: a write to a block's unlock register (R62). -/
def execBlkUnlock (r : Requester) (blk : Fin 16) (v : Word) (s : State) : Out :=
  .next <| if accessReaches r s then writeReg r (blk.val * 0x1000 + 0xFFC) v s else s

/-- WIDE_VALUE_LATCH: a read of the CSR space; a read of the lowest word of a wide value latches its higher words (R74). -/
def execWideValueLatch (r : Requester) (ptag : Option (BitVec 20)) (addr : BitVec 21) (w : Width) (s : State) : Out :=
  .next <| if accessReaches r s then submit r (.read ptag addr.toNat w 0) s else s

/-- EST_LATCH: a read of `RNG_x_EST0` latches the other estimate registers (R373). -/
def execEstLatch (r : Requester) (x : Side) (s : State) : Out :=
  .next <| if accessReaches r s then submit r (.read none (match x with
    | .a => 0x80044
    | .b => 0x80064) .b32 0) s else s

/-- RNG_DATA: a 32-bit or 64-bit read of `RNG_DATA` (R388, R389). -/
def execRngData (r : Requester) (wide : Bool) (s : State) : Out :=
  .next <| if accessReaches r s then submit r (.read none 0x80020 (if wide then .b64 else .b32) 0) s else s

/-- RNG_RAW_READ: a diagnostic read of a raw word `raw` of a source, withheld from Gather; it answers only Warden reads at M level
in BLANK (R371, Table 11-10). -/
def execRngRawRead (r : Requester) (x : Side) (raw : Word) (s : State) : Out :=
  let key := match x with
    | .a => 0x8180
    | .b => 0x8184
  .next <| if !accessReaches r s then s
    else if rngWaits r s then holdBehind r (.read none (keyAddr key) .b32 0) s
    else answer r key 4 0 (if rawAnswers r s then raw.setWidth 64 else 0) s

/-- A row that is a 32-bit write of one register. -/
def regRow (r : Requester) (key : Nat) (v : Word) (s : State) : Out :=
  .next <| if accessReaches r s then writeReg r key v s else s

/-! ### Rows: one register each -/

/-- CLAIM of the Headgate through a port, with a lease (R136); `tie`: the lease of a claim of the other port in the same control-bus
cycle (R137). -/
def execClaim (p : Port) (lease : BitVec 8) (tie : Option (BitVec 8)) (s : State) : Out :=
  let v := fun (l : BitVec 8) => wfield l.toNat 16 ||| wfield 1 0
  match tie with
  | none => regRow (.host p) 0x1000 (v lease) s
  | some l =>
    .next <|
      if !(accessReaches (.host p) s && accessReaches (.host (otherPort p)) s) then s
      else if rngWaits (.host p) s || rngWaits (.host (otherPort p)) s then
        writeReg (.host (otherPort p)) 0x1000 (v l) (writeReg (.host p) 0x1000 (v lease) s)
      else hgTie p lease l (rearm 1 s)

/-- RELEASE of the Headgate through a port (R136). -/
def execRelease (p : Port) (s : State) : Out := regRow (.host p) 0x1000 2 s

/-- CANCEL of a port's pending claim (R136). -/
def execCancel (p : Port) (s : State) : Out := regRow (.host p) 0x1000 3 s

/-- PORT_x_EVT_CTL is written (R141). -/
def execPortXEvtCtl (r : Requester) (x : Port) (v : Word) (s : State) : Out := regRow r (evtKey x + 8) v s

/-- PORT_x_EVT_HEAD is written (R141). -/
def execPortXEvtHead (r : Requester) (x : Port) (v : Word) (s : State) : Out := regRow r (evtKey x + 0xC) v s

/-- PORT_RETRAIN: `PORT_x_CTL` is written with `RETRAIN` 1 (R152). -/
def execPortRetrain (r : Requester) (x : Port) (v : Word) (s : State) : Out := regRow r (portCtlKey x) (v ||| 0x80000000) s

/-- PORT_DISABLE: `PORT_x_CTL` is written with `RETRAIN` 0; `DISABLE` holds the port down or releases it (R152). -/
def execPortDisable (r : Requester) (x : Port) (v : Word) (s : State) : Out := regRow r (portCtlKey x) (v &&& 0x7FFFFFFF) s

/-- SQ_TAIL: a host write to `SQ_TAIL` of queue `q` (R160, R161). -/
def execSqTail (p : Port) (ptag : Option (BitVec 20)) (q : BitVec 15) (v : Word) (s : State) : Out :=
  .next <| if accessReaches (.host p) s then submit (.host p) (.write ptag (0x100000 + 32 * q.toNat) .b32 (v.setWidth 64)) s else s

/-- CQ_HEAD: a host write to `CQ_HEAD` of queue `q` (R160, R174). -/
def execCqHead (p : Port) (ptag : Option (BitVec 20)) (q : BitVec 15) (v : Word) (s : State) : Out :=
  .next <| if accessReaches (.host p) s then submit (.host p) (.write ptag (0x100000 + 32 * q.toNat + 4) .b32 (v.setWidth 64)) s else s

/-- ADMIN_QUEUE_ENABLE: `CMD_ADMIN_CFG` is written with `EN` 1 (R187). -/
def execAdminQueueEnable (r : Requester) (v : Word) (s : State) : Out := regRow r 0x2020 (v ||| 0x80000000) s

/-- ADMIN_QUEUE_DISABLE: `CMD_ADMIN_CFG` is written with `EN` 0 (R187). -/
def execAdminQueueDisable (r : Requester) (v : Word) (s : State) : Out := regRow r 0x2020 (v &&& 0x7FFFFFFF) s

/-- KSLOT_LOAD: `CIPHER_KSLOT_CMD` is written with `CMD` `LOAD` (R339). -/
def execKslotLoad (r : Requester) (v : Word) (s : State) : Out := regRow r 0x5060 ((v &&& 0x3FFFFFFF) ||| 0x40000000) s

/-- KSLOT_CLEAR: `CIPHER_KSLOT_CMD` is written with `CMD` `CLEAR` (R339). -/
def execKslotClear (r : Requester) (v : Word) (s : State) : Out := regRow r 0x5060 ((v &&& 0x3FFFFFFF) ||| 0x80000000) s

/-- CIPHER_DISABLE: `CIPHER_CTL` is written (R345). -/
def execCipherDisable (r : Requester) (v : Word) (s : State) : Out := regRow r 0x5004 v s

/-- FLUME_DISABLE: `FLUME_CTL` is written (R276). -/
def execFlumeDisable (r : Requester) (v : Word) (s : State) : Out := regRow r 0x6004 v s

/-- PKE_DISABLE: `PKE_CTL` is written (R366). -/
def execPkeDisable (r : Requester) (v : Word) (s : State) : Out := regRow r 0x7004 v s

/-- KEY_PREF_WRITE: `RNG_CFG` is written (R379). -/
def execKeyPrefWrite (r : Requester) (v : Word) (s : State) : Out := regRow r 0x8004 v s

/-- MASK_FAILS_CLEAR: `RNG_MASK_FAILS` is written with `CLEAR` 1 (R380). -/
def execMaskFailsClear (r : Requester) (v : Word) (s : State) : Out := regRow r 0x8080 (v ||| 0x80000000) s

/-- MESH_PORT_RETRAIN: `CISTERN_PORTn_CTL` is written with `RETRAIN` 1 (R397). -/
def execMeshPortRetrain (r : Requester) (n : Fin 4) (v : Word) (s : State) : Out :=
  regRow r (0x9044 + 16 * n.val) (v ||| 0x80000000) s

/-- MESH_PORT_DISABLE: `CISTERN_PORTn_CTL` is written with `RETRAIN` 0 (R397). -/
def execMeshPortDisable (r : Requester) (n : Fin 4) (v : Word) (s : State) : Out :=
  regRow r (0x9044 + 16 * n.val) (v &&& 0x7FFFFFFF) s

/-- SLOT_RELEASE: `VAULT_SLOTn_CTL` is written with `RELEASE` 1 (R546). -/
def execSlotRelease (r : Requester) (n : Fin 2) (v : Word) (s : State) : Out := regRow r (0xC018 + 4 * n.val) (v ||| 1) s

/-- TAMPER_LEVEL0_WRITE: `TAMPER_LEVEL0` is written; the write is posted and its rule acts when it lands (R70, R574). -/
def execTamperLevel0Write (r : Requester) (v : Word) (s : State) : Out := regRow r 0xE00C v s

end Sys2Proof.Machine
end

