-- ==== Sys2Proof/Machine/Flags.lean ====
section
/-! DEFINITION. The results of the Warden's arithmetic that are more than one machine word's plain sum (13): conditions, immediates,
division, the high word of a product. A Warden core has no flag register: a comparison writes 0 or 1 to a register (R443). -/
namespace Sys2Proof.Machine

/-- A condition as a word. -/
def flag (b : Bool) : Word := if b then 1 else 0

/-- A sign-extended immediate (R443). -/
def sx {n : Nat} (imm : BitVec n) : Word := imm.signExtend 32
/-- An unsigned immediate (R443). -/
def ux {n : Nat} (imm : BitVec n) : Word := imm.setWidth 32

/-! ### Division (R445) -/

/-- `div`. -/
def divS (a b : Word) : Word := if b = 0 then 0 else if a = 0x80000000 ∧ b = 0xFFFFFFFF then 0x7FFFFFFF else a.sdiv b
/-- `mod`. -/
def modS (a b : Word) : Word := a - divS a b * b
/-- `divu`. -/
def divU (a b : Word) : Word := if b = 0 then 0 else a / b
/-- `modu`. -/
def modU (a b : Word) : Word := if b = 0 then a else a % b

/-! ### High words of products (Table 13-6) -/

/-- High word of the signed product. -/
def mulHiS (a b : Word) : Word := BitVec.ofInt 32 (a.toInt * b.toInt / 2 ^ 32)
/-- High word of the unsigned product. -/
def mulHiU (a b : Word) : Word := BitVec.ofNat 32 (a.toNat * b.toNat / 2 ^ 32)

end Sys2Proof.Machine
end

