-- ==== Sys2Proof/Machine/Isa.lean ====
section
/-! DEFINITION. How a Warden core runs one instruction (chapters 13 and 14): formats, due conditions, the checks before execution, delay
slots, the hardware loop, data accesses, core CSRs. -/
namespace Sys2Proof.Machine

/-! ### Instruction words (Table 13-5) -/

/-- R format. -/
def wordR (funct : Nat) (rd rs1 rs2 : BitVec 4) (z : BitVec 8) : Word :=
  wfield rd.toNat 22 ||| wfield rs1.toNat 18 ||| wfield rs2.toNat 14 ||| wfield z.toNat 6 ||| wfield funct 0

/-- I and S formats, and B format: opcode, two registers, 18 bits. -/
def wordI (op : Nat) (a b : BitVec 4) (imm : BitVec 18) : Word :=
  wfield op 26 ||| wfield a.toNat 22 ||| wfield b.toNat 18 ||| wfield imm.toNat 0

/-- J format. -/
def wordJ (op : Nat) (off : BitVec 26) : Word := wfield op 26 ||| wfield off.toNat 0

/-- C format. -/
def wordC (op : Nat) (rd rs1 : BitVec 4) (z : BitVec 6) (csr : BitVec 12) : Word :=
  wfield op 26 ||| wfield rd.toNat 22 ||| wfield rs1.toNat 18 ||| wfield z.toNat 12 ||| wfield csr.toNat 0

/-- X format: bits [25:6] and a function. -/
def wordX (funct : Nat) (body : BitVec 20) : Word := wfield 0x3F 26 ||| wfield body.toNat 6 ||| wfield funct 0

/-! ### One instruction -/

/-- What executing an instruction comes to. -/
inductive Eff where
  /-- It completes; `lc`: it has written `LC`. -/
  | done (s : State) (lc : Bool)
  /-- A branch: the target after the delay slot. -/
  | jump (target : Word) (s : State)
  /-- It completes and execution goes on at an address at once. -/
  | goto (a : Word) (s : State)
  /-- A precise exception. -/
  | exc (code : Nat) (tval : Word) (s : State)
  /-- A trap was taken or a trap return made: the core stands where that put it. -/
  | moved (s : State)
  /-- It waits; nothing changes. -/
  | stall

/-- The core can run an instruction: main power, fast clocks, in service, not waiting, and with A-level budget left (R437, R444,
R462). -/
def coreRuns (n : Nat) (s : State) : Bool :=
  let k := coreGet n s
  s.dev.mainOn && !s.dev.asleep && coreServes n s && (!k.waiting || enabledPending k s.warden.tick)
    && !(k.level == 0 && (match k.inv with
      | some i => i.budget == 0
      | none => false))

/-- An instruction in a delay slot, or at `LE` with `LC` not 0, where R449 and R452 make it `ILLEGAL`; `ban`: it is one of R449. -/
def placeIllegal (ban : Bool) (k : Core) : Bool :=
  (ban && k.slot.isSome) || (k.lc != 0 && k.pc == k.le && (ban || k.slot.isSome))

/-- Count a completed instruction, and take it from an applet's budget. -/
def charge (n : Nat) (k : Core) (s : State) : State :=
  let s := bump64 0xA100 1 s
  if k.level = 0 then coreMod n (fun k => { k with inv := k.inv.map fun i => { i with budget := i.budget - 1 } }) s else s

/-- Where a completed instruction leaves the core `k` it started on, and the loop count it leaves (R447, R451). -/
def nextPc (k : Core) : Word × Word :=
  match k.slot with
  | some (_, t) => (t, k.lc)
  | none =>
    if k.lc ≠ 0 ∧ k.pc = k.le then
      let c := k.lc - 1
      (if c ≠ 0 then k.ls else k.le + 4, c)
    else (k.pc + 4, k.lc)

/-- Apply what an instruction came to. -/
def applyEff (n : Nat) (k : Core) (s : State) : Eff → State
  | .done s' lc =>
    let (p, c) := nextPc k
    charge n k (coreMod n (fun x => { x with pc := p, slot := none, lc := if lc then x.lc else c }) s')
  | .jump t s' => charge n k (coreMod n (fun x => { x with pc := k.pc + 4, slot := some (k.pc, t) }) s')
  | .goto a s' => charge n k (coreMod n (fun x => { x with pc := a, slot := none }) s')
  | .exc code tval s' => raiseExc n code tval s'
  | .moved s' => s'
  | .stall => s

/-- Run one instruction with word `w` on a core: checks 1 to 4 of R488, then its body. -/
def runInstr (n : Fin 4) (w : Word) (ban : Bool) (illegal : Core → Bool) (body : Core → State → Eff) (s : State) : Out := .next <|
  let k := coreGet n.val s
  if !coreRuns n.val s then s
  else match fetchCheck n.val s with
    | .wait => s
    | .exc code tval s' => raiseExc n.val code tval s'
    | .ok _ s' =>
      if placeIllegal ban k || illegal k then raiseExc n.val 1 w s'
      else applyEff n.val k s (body k (coreMod n.val (fun x => { x with waiting := false }) s'))

/-- Write a general register of a core. -/
def putReg (n : Nat) (rd : BitVec 4) (v : Word) (s : State) : State := coreMod n (fun k => k.setReg rd v) s

/-- Never illegal of itself. -/
def legal : Core → Bool := fun _ => false

/-- Register arithmetic: `rd := f rs1 rs2`. -/
def runR (n : Fin 4) (funct : Nat) (rd rs1 rs2 : BitVec 4) (z : BitVec 8) (f : Word → Word → Word) (s : State) : Out :=
  runInstr n (wordR funct rd rs1 rs2 z) false (fun _ => z != 0)
    (fun k s => .done (putReg n.val rd (f (k.reg rs1) (k.reg rs2)) s) false) s

/-- Immediate arithmetic: `rd := f rs1`. -/
def runI (n : Fin 4) (op : Nat) (rd rs1 : BitVec 4) (imm : BitVec 18) (bad : Bool) (f : Word → Word) (s : State) : Out :=
  runInstr n (wordI op rd rs1 imm) false (fun _ => bad) (fun k s => .done (putReg n.val rd (f (k.reg rs1)) s) false) s

/-! ### Loads, stores, atomics -/

/-- The word at an aligned address of the CSR window for a core (R49); a read of `RNG_DATA` waits while its word is not ready (R389). -/
def windowLoad (n : Fin 4) (a : Nat) (s : State) : MemAns Word :=
  let x := a % 0x20000000
  if x < 0x100000 ∧ csrKey x = 0x8020 then
    match rngWord (.core n) s with
    | .ok w s => .ok w s
    | .wait _ => .wait
    | .zero s => .ok 0 s
  else
    let (v, s) := spaceRead32 (.core n) none x s
    .ok v s

/-- A load of `size` bytes, widened by `ext` (R443, R488). -/
def runLoad (n : Fin 4) (op size : Nat) (ext : Nat → Word) (rd rs1 : BitVec 4) (imm : BitVec 18) (s : State) : Out :=
  runInstr n (wordI op rd rs1 imm) false legal
    (fun k s =>
      let w := k.reg rs1 + sx imm
      let a := w.toNat
      match dataCheck k .load a size s with
      | (some code, _) => .exc code w s
      | (none, _) =>
        if inWindow a then
          match windowLoad n a s with
          | .ok v s => .done (putReg n.val rd v s) false
          | .wait => .stall
          | .exc code t s => .exc code t s
        else match loadMem a size s with
          | .ok v s => .done (putReg n.val rd (ext v) s) false
          | .wait => .stall
          | .exc code t s => .exc code t s) s

/-- A store of the low `size` bytes of rs2; `bus`: the SRAM refuses it with a bus fault (R491, R496). -/
def runStore (n : Fin 4) (op size : Nat) (rs2 rs1 : BitVec 4) (imm : BitVec 18) (bus : Bool) (s : State) : Out :=
  runInstr n (wordI op rs2 rs1 imm) false legal
    (fun k s =>
      let w := k.reg rs1 + sx imm
      let a := w.toNat
      let v := k.reg rs2
      match dataCheck k .store a size s with
      | (some code, _) => .exc code w s
      | (none, some region) => .done (addLate n.val (lateTval a false false region) s) false
      | (none, none) =>
        if inWindow a then .done (spaceWrite32 (.core n) none (a % 0x20000000) v s) false
        else if bus then .done (addLate n.val (lateTval a false false 15) s) false
        else .done (sramWrite a (le size v.toNat) s) false) s

/-- An atomic: `rd := mem[rs1]; mem[rs1] := f mem[rs1] rs2` (R446). -/
def runAtomic (n : Fin 4) (funct : Nat) (f : Word → Word → Word) (rd rs1 rs2 : BitVec 4) (z : BitVec 8) (s : State) : Out :=
  runInstr n (wordR funct rd rs1 rs2 z) false (fun _ => z != 0)
    (fun k s =>
      let w := k.reg rs1
      let a := w.toNat
      match dataCheck k .atomic a 4 s with
      | (some code, _) => .exc code w s
      | (none, _) =>
        let old := BitVec.ofNat 32 (leNat (sramRead a 4 s))
        .done (putReg n.val rd old (sramWrite a (le 4 (f old (k.reg rs2)).toNat) s)) false) s

/-! ### Branches (R447 to R449) -/

/-- A conditional branch. -/
def runB (n : Fin 4) (op : Nat) (cond : Word → Word → Bool) (rs1 rs2 : BitVec 4) (off : BitVec 18) (s : State) : Out :=
  runInstr n (wordI op rs1 rs2 off) true legal
    (fun k s => .jump (if cond (k.reg rs1) (k.reg rs2) then k.pc + 4 * sx off else k.pc + 8) s) s

/-! ### The hardware loop (R450) -/

/-- Start a loop of `count`, with off14 ≥ 1; an off14 that is 0, or negative as read, is `ILLEGAL` (log 47). -/
def loopStart (n : Nat) (off : BitVec 14) (count : Core → Word) (k : Core) (s : State) : Eff :=
  let c := count k
  let e := k.pc + 4 * sx off
  let s := coreMod n (fun x => { x with ls := k.pc + 4, le := e, lc := c }) s
  if c = 0 then .goto (e + 4) s else .done s true

/-- The loop instructions that R450 and R452 refuse. -/
def loopIllegal (off : BitVec 14) (k : Core) : Bool := off == 0 || off.msb || k.lc != 0

/-! ### Core CSRs (R440 to R442, R469, R484, R495) -/

/-- Number, lowest level that reads, lowest level that writes, read-only (Table 13-2); none for a number not in the table. -/
def ccsrAccess (c : Nat) : Option (Nat × Nat × Bool) :=
  if c = 0 then some (0, 1, false)
  else if c = 4 then some (1, 3, false)
  else if 1 ≤ c ∧ c ≤ 3 then some (1, 1, false)
  else if 8 ≤ c ∧ c ≤ 0xA then some (0, 0, false)
  else if 0xC ≤ c ∧ c ≤ 0xE then some (1, 1, false)
  else if c = 0x10 ∨ c = 0x14 then some (1, 1, false)
  else if c = 0x11 ∨ c = 0x15 then some (3, 3, false)
  else if 0x18 ≤ c ∧ c ≤ 0x1B then some (3, 3, false)
  else if 0x20 ≤ c ∧ c ≤ 0x22 then some (0, 0, true)
  else if c = 0x24 ∨ c = 0x25 ∨ c = 0x28 ∨ c = 0x2A then some (1, 1, false)
  else if c = 0x29 then some (1, 1, true)
  else if c = 0x40 ∨ (0x80 ≤ c ∧ c ≤ 0xAF) ∨ (0xC0 ≤ c ∧ c ≤ 0xD7) then some (3, 3, false)
  else none

/-- A region of a list. -/
def regionAt (rs : List Region) (i : Nat) : Region := rs.getD i emptyRegion

/-- The old value of a core CSR. -/
def ccsrOld (n c : Nat) (k : Core) (tick : BitVec 64) : Word :=
  if c = 0 then k.status else if c = 1 then k.epc else if c = 2 then k.cause else if c = 3 then k.tval
  else if c = 4 then wfield k.pceil.toNat 0
  else if c = 8 then k.lc else if c = 9 then k.ls else if c = 0xA then k.le
  else if c = 0xC then k.slc else if c = 0xD then k.sls else if c = 0xE then k.sle
  else if c = 0x10 then k.stvec else if c = 0x11 then k.mtvec else if c = 0x14 then k.ssave else if c = 0x15 then k.msave
  else if c = 0x18 then k.fstatus else if c = 0x19 then k.fepc else if c = 0x1A then k.fcause else if c = 0x1B then k.ftval
  else if c = 0x20 then wfield n 0
  else if c = 0x21 then tick.setWidth 32
  else if c = 0x22 then k.tickLatch.getD ((tick >>> 32).setWidth 32)
  else if c = 0x24 then k.tmatch.setWidth 32 else if c = 0x25 then (k.tmatch >>> 32).setWidth 32
  else if c = 0x28 then k.ien.setWidth 32 else if c = 0x29 then (ipendOf k tick).setWidth 32
  else if c = 0x40 then k.mpuctl
  else if 0x80 ≤ c ∧ c < 0x90 then (regionAt k.mpu (c - 0x80)).base
  else if 0x90 ≤ c ∧ c < 0xA0 then (regionAt k.mpu (c - 0x90)).lim
  else if 0xA0 ≤ c ∧ c < 0xB0 then (regionAt k.mpu (c - 0xA0)).attr
  else if 0xC0 ≤ c ∧ c < 0xC8 then (regionAt k.dma (c - 0xC0)).base
  else if 0xC8 ≤ c ∧ c < 0xD0 then (regionAt k.dma (c - 0xC8)).lim
  else if 0xD0 ≤ c ∧ c < 0xD8 then (regionAt k.dma (c - 0xD0)).attr
  else 0

/-- Bits of a core CSR that hold a value. -/
def ccsrMask (c : Nat) : Word :=
  if c = 0 then 0x2F else if c = 2 then 0x800000FF else if c = 4 then 3
  else if c = 0x10 ∨ c = 0x11 then 0xFFFFFFFC
  else if c = 0x28 then 0xFFFF
  else if c = 0x40 then 0x103
  else if (0x80 ≤ c ∧ c < 0xA0) ∨ (0xC0 ≤ c ∧ c < 0xD0) then 0xFFFFFFC0
  else if (0xA0 ≤ c ∧ c < 0xB0) ∨ (0xD0 ≤ c ∧ c < 0xD8) then 0x80010FFF
  else 0xFFFFFFFF

/-- The CSR stands locked (R495). -/
def ccsrLocked (c : Nat) (k : Core) : Bool :=
  if c = 0x40 then k.mpuctl.getLsbD 8
  else if 0x80 ≤ c ∧ c < 0xB0 then (regionAt k.mpu (c % 16)).attr.getLsbD 31
  else if 0xC0 ≤ c ∧ c < 0xD8 then (regionAt k.dma (c % 8)).attr.getLsbD 31
  else false

/-- A write of `v` (already masked) that is `ILLEGAL` by its value (R441, R469, R495). -/
def ccsrRefused (c : Nat) (v : Word) (k : Core) (tick : BitVec 64) : Bool :=
  let dmaAttr := decide (0xD0 ≤ c ∧ c < 0xD8)
  (c == 0 && (decide (k.level < fieldOf v 1 0) || fieldOf v 1 0 == 2 || fieldOf v 3 2 == 2))
    || (c == 4 && fieldOf v 1 0 == 2)
    || (ccsrLocked c k && v != ccsrOld 0 c k tick)
    || (dmaAttr && v &&& 0x67 != 0)

/-- The write waits for earlier stores first (R484). -/
def ccsrWaits (c : Nat) (v : Word) (k : Core) : Bool :=
  (c == 0 && fieldOf v 1 0 != k.level) || c == 4 || c == 0x40 || decide (0x80 ≤ c)

/-- Replace one part of a region. -/
def setRegion (rs : List Region) (i : Nat) (f : Region → Region) : List Region := rs.set i (f (regionAt rs i))

/-- The core after a write of `v` to a CSR of its own. -/
def ccsrPut (c : Nat) (v : Word) (k : Core) : Core :=
  if c = 0 then { k with status := v } else if c = 1 then { k with epc := v } else if c = 2 then { k with cause := v }
  else if c = 3 then { k with tval := v } else if c = 4 then { k with pceil := v.setWidth 2 }
  else if c = 8 then { k with lc := v } else if c = 9 then { k with ls := v } else if c = 0xA then { k with le := v }
  else if c = 0xC then { k with slc := v } else if c = 0xD then { k with sls := v } else if c = 0xE then { k with sle := v }
  else if c = 0x10 then { k with stvec := v } else if c = 0x11 then { k with mtvec := v }
  else if c = 0x14 then { k with ssave := v } else if c = 0x15 then { k with msave := v }
  else if c = 0x18 then { k with fstatus := v } else if c = 0x19 then { k with fepc := v }
  else if c = 0x1A then { k with fcause := v } else if c = 0x1B then { k with ftval := v }
  else if c = 0x24 then { k with tmatch := (k.tmatch.extractLsb' 32 32) ++ v }
  else if c = 0x25 then { k with tmatch := v ++ (k.tmatch.extractLsb' 0 32) }
  else if c = 0x28 then { k with ien := v.setWidth 16 }
  else if c = 0x40 then { k with mpuctl := v }
  else if 0x80 ≤ c ∧ c < 0x90 then { k with mpu := setRegion k.mpu (c - 0x80) fun r => { r with base := v } }
  else if 0x90 ≤ c ∧ c < 0xA0 then { k with mpu := setRegion k.mpu (c - 0x90) fun r => { r with lim := v } }
  else if 0xA0 ≤ c ∧ c < 0xB0 then { k with mpu := setRegion k.mpu (c - 0xA0) fun r => { r with attr := v } }
  else if 0xC0 ≤ c ∧ c < 0xC8 then { k with dma := setRegion k.dma (c - 0xC0) fun r => { r with base := v } }
  else if 0xC8 ≤ c ∧ c < 0xD0 then { k with dma := setRegion k.dma (c - 0xC8) fun r => { r with lim := v } }
  else if 0xD0 ≤ c ∧ c < 0xD8 then { k with dma := setRegion k.dma (c - 0xD0) fun r => { r with attr := v } }
  else k

/-- Software interrupts: bit k raises 0x11 on core k. -/
def swint (v : Word) (s : State) : State :=
  (List.range 4).foldl (fun s m => if v.getLsbD m then coreMod m (fun k => { k with ipend := k.ipend ||| 2 }) s else s) s

/-- The tick count moves on by a free amount before it is read (log 3), and a read of `TICKLO` latches `TICKHI` until that is read
(R74). -/
def ccsrTouch (n c : Nat) (s : State) : State :=
  if c = 0x21 then
    let (d, s) := drawNat s
    let s := s.modWarden fun w => { w with tick := w.tick + BitVec.ofNat 64 d }
    coreMod n (fun k => { k with tickLatch := some ((s.warden.tick >>> 32).setWidth 32) }) s
  else if c = 0x22 then
    let (d, s) := drawNat s
    s.modWarden fun w => { w with tick := w.tick + BitVec.ofNat 64 d }
  else s

/-- After a read of `TICKHI` its latch is released. -/
def ccsrRelease (n c : Nat) (s : State) : State := if c = 0x22 then coreMod n (fun k => { k with tickLatch := none }) s else s

/-- `rdcr`, `wrcr`, `setcr` and `clrcr`: `new` gives the value written from the old one and rs1; none for `rdcr`. -/
def runC (n : Fin 4) (op : Nat) (new : Option (Word → Word → Word)) (rd rs1 : BitVec 4) (z : BitVec 6) (csr : BitVec 12) (s : State) :
    Out :=
  let c := csr.toNat
  let w := wordC op rd rs1 z csr
  runInstr n w false (fun k => z != 0 || (match ccsrAccess c with
    | none => true
    | some (r, wr, _) => decide (k.level < (if new.isSome then max r wr else r))))
    (fun _ s =>
      let s := ccsrTouch n.val c s
      let k := coreGet n.val s
      let old := ccsrOld n.val c k s.warden.tick
      let fin := fun (s : State) => ccsrRelease n.val c (putReg n.val rd old s)
      match new with
      | none => .done (fin s) false
      | some f =>
        let ro := match ccsrAccess c with
          | some (_, _, x) => x
          | none => false
        let v := f old (k.reg rs1) &&& ccsrMask c
        if ro then .done (fin s) false
        else if ccsrRefused c v k s.warden.tick then .exc 1 w s
        else match if ccsrWaits c v k then storeLate k else none with
          | some t => .moved (takeLate n.val t k.here s)
          | none =>
            let s := if c = 0x2A then swint v s else coreMod n.val (ccsrPut c v) s
            .done (fin s) (c == 8)) s

end Sys2Proof.Machine
end

