-- ==== Sys2Proof/Machine/Instrs.lean ====
section
/-! DEFINITION. The Warden instructions, one row each (Table 13-6), and the rows of a core that are no instruction: LATE_WRITE, INTERRUPT
and DMA_DONE. `n` is the core; the reserved bits of a format stand in `z`. -/
namespace Sys2Proof.Machine

/-! ### Register arithmetic (R443, R445) -/

/-- ADD: rd := rs1 + rs2. -/
def execAdd (n : Fin 4) (rd rs1 rs2 : BitVec 4) (z : BitVec 8) (s : State) : Out :=
  runR n 0x00 rd rs1 rs2 z (· + ·) s

/-- SUB: rd := rs1 - rs2. -/
def execSub (n : Fin 4) (rd rs1 rs2 : BitVec 4) (z : BitVec 8) (s : State) : Out :=
  runR n 0x01 rd rs1 rs2 z (· - ·) s

/-- AND: rd := rs1 AND rs2. -/
def execAnd (n : Fin 4) (rd rs1 rs2 : BitVec 4) (z : BitVec 8) (s : State) : Out :=
  runR n 0x02 rd rs1 rs2 z (· &&& ·) s

/-- OR: rd := rs1 OR rs2. -/
def execOr (n : Fin 4) (rd rs1 rs2 : BitVec 4) (z : BitVec 8) (s : State) : Out :=
  runR n 0x03 rd rs1 rs2 z (· ||| ·) s

/-- XOR: rd := rs1 XOR rs2. -/
def execXor (n : Fin 4) (rd rs1 rs2 : BitVec 4) (z : BitVec 8) (s : State) : Out :=
  runR n 0x04 rd rs1 rs2 z (· ^^^ ·) s

/-- SHL: shift left by rs2[4:0]. -/
def execShl (n : Fin 4) (rd rs1 rs2 : BitVec 4) (z : BitVec 8) (s : State) : Out :=
  runR n 0x05 rd rs1 rs2 z (fun a b => a <<< (b.toNat % 32)) s

/-- SHR: shift right logical by rs2[4:0]. -/
def execShr (n : Fin 4) (rd rs1 rs2 : BitVec 4) (z : BitVec 8) (s : State) : Out :=
  runR n 0x06 rd rs1 rs2 z (fun a b => a >>> (b.toNat % 32)) s

/-- SAR: shift right arithmetic by rs2[4:0]. -/
def execSar (n : Fin 4) (rd rs1 rs2 : BitVec 4) (z : BitVec 8) (s : State) : Out :=
  runR n 0x07 rd rs1 rs2 z (fun a b => a.sshiftRight (b.toNat % 32)) s

/-- ROTR: rotate right by rs2[4:0]. -/
def execRotr (n : Fin 4) (rd rs1 rs2 : BitVec 4) (z : BitVec 8) (s : State) : Out :=
  runR n 0x11 rd rs1 rs2 z (fun a b => a.rotateRight (b.toNat % 32)) s

/-- CMPLT: rd := 1 when rs1 < rs2, signed, else 0. -/
def execCmplt (n : Fin 4) (rd rs1 rs2 : BitVec 4) (z : BitVec 8) (s : State) : Out :=
  runR n 0x08 rd rs1 rs2 z (fun a b => flag (a.slt b)) s

/-- CMPLTU: rd := 1 when rs1 < rs2, unsigned, else 0. -/
def execCmpltu (n : Fin 4) (rd rs1 rs2 : BitVec 4) (z : BitVec 8) (s : State) : Out :=
  runR n 0x09 rd rs1 rs2 z (fun a b => flag (a.ult b)) s

/-- MUL: low word of the product. -/
def execMul (n : Fin 4) (rd rs1 rs2 : BitVec 4) (z : BitVec 8) (s : State) : Out :=
  runR n 0x0a rd rs1 rs2 z (· * ·) s

/-- MULHI: high word of the signed product. -/
def execMulhi (n : Fin 4) (rd rs1 rs2 : BitVec 4) (z : BitVec 8) (s : State) : Out :=
  runR n 0x0b rd rs1 rs2 z mulHiS s

/-- MULHIU: high word of the unsigned product. -/
def execMulhiu (n : Fin 4) (rd rs1 rs2 : BitVec 4) (z : BitVec 8) (s : State) : Out :=
  runR n 0x0c rd rs1 rs2 z mulHiU s

/-- DIV: signed quotient, truncated toward zero (R445). -/
def execDiv (n : Fin 4) (rd rs1 rs2 : BitVec 4) (z : BitVec 8) (s : State) : Out :=
  runR n 0x0d rd rs1 rs2 z divS s

/-- DIVU: unsigned quotient (R445). -/
def execDivu (n : Fin 4) (rd rs1 rs2 : BitVec 4) (z : BitVec 8) (s : State) : Out :=
  runR n 0x0e rd rs1 rs2 z divU s

/-- MOD: signed remainder (R445). -/
def execMod (n : Fin 4) (rd rs1 rs2 : BitVec 4) (z : BitVec 8) (s : State) : Out :=
  runR n 0x0f rd rs1 rs2 z modS s

/-- MODU: unsigned remainder (R445). -/
def execModu (n : Fin 4) (rd rs1 rs2 : BitVec 4) (z : BitVec 8) (s : State) : Out :=
  runR n 0x10 rd rs1 rs2 z modU s

/-! ### Atomics (R446) -/

/-- ATSWAP: rd := mem[rs1]; mem[rs1] := rs2, atomically. -/
def execAtswap (n : Fin 4) (rd rs1 rs2 : BitVec 4) (z : BitVec 8) (s : State) : Out := runAtomic n 0x20 (fun _ b => b) rd rs1 rs2 z s

/-- ATADD: rd := mem[rs1]; mem[rs1] := mem[rs1] + rs2, atomically. -/
def execAtadd (n : Fin 4) (rd rs1 rs2 : BitVec 4) (z : BitVec 8) (s : State) : Out := runAtomic n 0x21 (fun a b => a + b) rd rs1 rs2 z s

/-! ### Immediate arithmetic (R443) -/

/-- ADDK: rd := rs1 + imm. -/
def execAddk (n : Fin 4) (rd rs1 : BitVec 4) (imm : BitVec 18) (s : State) : Out :=
  runI n 0x01 rd rs1 imm false (fun a => a + sx imm) s

/-- ANDK: rd := rs1 AND imm, unsigned. -/
def execAndk (n : Fin 4) (rd rs1 : BitVec 4) (imm : BitVec 18) (s : State) : Out :=
  runI n 0x02 rd rs1 imm false (fun a => a &&& ux imm) s

/-- ORK: rd := rs1 OR imm, unsigned. -/
def execOrk (n : Fin 4) (rd rs1 : BitVec 4) (imm : BitVec 18) (s : State) : Out :=
  runI n 0x03 rd rs1 imm false (fun a => a ||| ux imm) s

/-- XORK: rd := rs1 XOR imm, unsigned. -/
def execXork (n : Fin 4) (rd rs1 : BitVec 4) (imm : BitVec 18) (s : State) : Out :=
  runI n 0x04 rd rs1 imm false (fun a => a ^^^ ux imm) s

/-- CMPLTK: rd := 1 when rs1 < imm, signed, else 0. -/
def execCmpltk (n : Fin 4) (rd rs1 : BitVec 4) (imm : BitVec 18) (s : State) : Out :=
  runI n 0x05 rd rs1 imm false (fun a => flag (a.slt (sx imm))) s

/-- CMPLTUK: rd := 1 when rs1 < imm, unsigned, else 0. -/
def execCmpltuk (n : Fin 4) (rd rs1 : BitVec 4) (imm : BitVec 18) (s : State) : Out :=
  runI n 0x06 rd rs1 imm false (fun a => flag (a.ult (ux imm))) s

/-- SHLK: shift left by imm[4:0]; imm[17:5] is 0. -/
def execShlk (n : Fin 4) (rd rs1 : BitVec 4) (imm : BitVec 18) (s : State) : Out :=
  runI n 0x07 rd rs1 imm (decide (32 ≤ imm.toNat)) (fun a => a <<< (imm.toNat % 32)) s

/-- SHRK: shift right logical by imm[4:0]; imm[17:5] is 0. -/
def execShrk (n : Fin 4) (rd rs1 : BitVec 4) (imm : BitVec 18) (s : State) : Out :=
  runI n 0x08 rd rs1 imm (decide (32 ≤ imm.toNat)) (fun a => a >>> (imm.toNat % 32)) s

/-- SARK: shift right arithmetic by imm[4:0]; imm[17:5] is 0. -/
def execSark (n : Fin 4) (rd rs1 : BitVec 4) (imm : BitVec 18) (s : State) : Out :=
  runI n 0x09 rd rs1 imm (decide (32 ≤ imm.toNat)) (fun a => a.sshiftRight (imm.toNat % 32)) s

/-- UPK: rd := imm[13:0] << 18; rs1 and imm[17:14] are 0. -/
def execUpk (n : Fin 4) (rd rs1 : BitVec 4) (imm : BitVec 18) (s : State) : Out :=
  runI n 0x0a rd rs1 imm (rs1 != 0 || decide (2 ^ 14 ≤ imm.toNat)) (fun _ => ux imm <<< 18) s

/-! ### Loads and stores (R443, R444, R488) -/

/-- LDW: load a word. -/
def execLdw (n : Fin 4) (rd rs1 : BitVec 4) (imm : BitVec 18) (s : State) : Out :=
  runLoad n 0x10 4 (fun v => BitVec.ofNat 32 v) rd rs1 imm s

/-- LDH: load a halfword, sign-extended. -/
def execLdh (n : Fin 4) (rd rs1 : BitVec 4) (imm : BitVec 18) (s : State) : Out :=
  runLoad n 0x11 2 (fun v => (BitVec.ofNat 16 v).signExtend 32) rd rs1 imm s

/-- LDHU: load a halfword, zero-extended. -/
def execLdhu (n : Fin 4) (rd rs1 : BitVec 4) (imm : BitVec 18) (s : State) : Out :=
  runLoad n 0x12 2 (fun v => BitVec.ofNat 32 v) rd rs1 imm s

/-- LDB: load a byte, sign-extended. -/
def execLdb (n : Fin 4) (rd rs1 : BitVec 4) (imm : BitVec 18) (s : State) : Out :=
  runLoad n 0x13 1 (fun v => (BitVec.ofNat 8 v).signExtend 32) rd rs1 imm s

/-- LDBU: load a byte, zero-extended. -/
def execLdbu (n : Fin 4) (rd rs1 : BitVec 4) (imm : BitVec 18) (s : State) : Out :=
  runLoad n 0x14 1 (fun v => BitVec.ofNat 32 v) rd rs1 imm s

/-- STW: store a word; `bus`: the SRAM refuses it with a bus fault (R496). -/
def execStw (n : Fin 4) (rs2 rs1 : BitVec 4) (imm : BitVec 18) (bus : Bool) (s : State) : Out :=
  runStore n 0x18 4 rs2 rs1 imm bus s

/-- STH: store a halfword; `bus`: the SRAM refuses it with a bus fault (R496). -/
def execSth (n : Fin 4) (rs2 rs1 : BitVec 4) (imm : BitVec 18) (bus : Bool) (s : State) : Out :=
  runStore n 0x19 2 rs2 rs1 imm bus s

/-- STB: store a byte; `bus`: the SRAM refuses it with a bus fault (R496). -/
def execStb (n : Fin 4) (rs2 rs1 : BitVec 4) (imm : BitVec 18) (bus : Bool) (s : State) : Out :=
  runStore n 0x1a 1 rs2 rs1 imm bus s

/-! ### Branches (R447 to R449) -/

/-- BREQ: branch if rs1 and rs2 compare equal. -/
def execBreq (n : Fin 4) (rs1 rs2 : BitVec 4) (off : BitVec 18) (s : State) : Out :=
  runB n 0x20 (fun a b => a == b) rs1 rs2 off s

/-- BRNE: branch if rs1 and rs2 compare not equal. -/
def execBrne (n : Fin 4) (rs1 rs2 : BitVec 4) (off : BitVec 18) (s : State) : Out :=
  runB n 0x21 (fun a b => a != b) rs1 rs2 off s

/-- BRLT: branch if rs1 and rs2 compare less, signed. -/
def execBrlt (n : Fin 4) (rs1 rs2 : BitVec 4) (off : BitVec 18) (s : State) : Out :=
  runB n 0x22 (fun a b => a.slt b) rs1 rs2 off s

/-- BRGE: branch if rs1 and rs2 compare greater or equal, signed. -/
def execBrge (n : Fin 4) (rs1 rs2 : BitVec 4) (off : BitVec 18) (s : State) : Out :=
  runB n 0x23 (fun a b => !a.slt b) rs1 rs2 off s

/-- BRLTU: branch if rs1 and rs2 compare less, unsigned. -/
def execBrltu (n : Fin 4) (rs1 rs2 : BitVec 4) (off : BitVec 18) (s : State) : Out :=
  runB n 0x24 (fun a b => a.ult b) rs1 rs2 off s

/-- BRGEU: branch if rs1 and rs2 compare greater or equal, unsigned. -/
def execBrgeu (n : Fin 4) (rs1 rs2 : BitVec 4) (off : BitVec 18) (s : State) : Out :=
  runB n 0x25 (fun a b => !a.ult b) rs1 rs2 off s

/-- JMP: jump with a delay slot. -/
def execJmp (n : Fin 4) (off : BitVec 26) (s : State) : Out :=
  runInstr n (wordJ 0x28 off) true legal (fun k s => .jump (k.pc + 4 * sx off) s) s

/-- CALL: jump with a delay slot; w15 := PC + 8 (R448). -/
def execCall (n : Fin 4) (off : BitVec 26) (s : State) : Out :=
  runInstr n (wordJ 0x29 off) true legal (fun k s => .jump (k.pc + 4 * sx off) (putReg n.val 15 (k.pc + 8) s)) s

/-- CALLR: rd := PC + 8; target rs1 + imm, aligned to 4 bytes (R448, R483). -/
def execCallr (n : Fin 4) (rd rs1 : BitVec 4) (imm : BitVec 18) (s : State) : Out :=
  runInstr n (wordI 0x2B rd rs1 imm) true (fun _ => rd == rs1 && rd != 0)
    (fun k s => .jump ((k.reg rs1 + sx imm) &&& 0xFFFFFFFC) (putReg n.val rd (k.pc + 8) s)) s

/-! ### The hardware loop (R450) -/

/-- LOOP: a hardware loop with its count from rs1. -/
def execLoop (n : Fin 4) (z : BitVec 4) (rs1 : BitVec 4) (z' : BitVec 4) (off : BitVec 14) (s : State) : Out :=
  runInstr n (wordI 0x2C z rs1 (z' ++ off)) true (fun k => z != 0 || z' != 0 || loopIllegal off k)
    (fun k s => loopStart n.val off (fun k => k.reg rs1) k s) s

/-- LOOPI: a hardware loop with an unsigned immediate count. -/
def execLoopi (n : Fin 4) (count : BitVec 12) (off : BitVec 14) (s : State) : Out :=
  runInstr n (wfield 0x2D 26 ||| wfield count.toNat 14 ||| wfield off.toNat 0) true (loopIllegal off)
    (fun k s => loopStart n.val off (fun _ => ux count) k s) s

/-! ### Core CSRs (R440, R484) -/

/-- RDCR: rd := csr. -/
def execRdcr (n : Fin 4) (rd rs1 : BitVec 4) (z : BitVec 6) (csr : BitVec 12) (s : State) : Out := runC n 0x30 none rd rs1 z csr s

/-- WRCR: rd := old csr; csr := rs1. -/
def execWrcr (n : Fin 4) (rd rs1 : BitVec 4) (z : BitVec 6) (csr : BitVec 12) (s : State) : Out :=
  runC n 0x31 (some fun _ v => v) rd rs1 z csr s

/-- SETCR: rd := old csr; csr := csr OR rs1. -/
def execSetcr (n : Fin 4) (rd rs1 : BitVec 4) (z : BitVec 6) (csr : BitVec 12) (s : State) : Out :=
  runC n 0x32 (some fun o v => o ||| v) rd rs1 z csr s

/-- CLRCR: rd := old csr; csr := csr AND NOT rs1. -/
def execClrcr (n : Fin 4) (rd rs1 : BitVec 4) (z : BitVec 6) (csr : BitVec 12) (s : State) : Out :=
  runC n 0x33 (some fun o v => o &&& ~~~v) rd rs1 z csr s

/-! ### System instructions (R444, R446, R474, R479, R492, R499) -/

/-- XRET returns from a trap: level, mask and loop state are restored, or the return is forged (R479 to R481). -/
def execXret (n : Fin 4) (z : BitVec 20) (s : State) : Out :=
  runInstr n (wordX 0 z) true (fun k => z != 0 || k.level == 0)
    (fun k s =>
      let p := k.prevLevel
      match storeLate k with
      | some t => .moved (takeLate n.val t k.pc s)
      | none =>
        if k.level < p ∨ k.pceil.toNat < p then .moved (takeTrap n.val 8 (wfield k.level 2 ||| wfield p 0) false k.pc s)
        else .moved (charge n.val k (coreMod n.val (fun x => { x with
          status := statusOf (x.epc.getLsbD 0) p p, lc := x.slc, ls := x.sls, le := x.sle, pc := x.epc &&& 0xFFFFFFFC }) s))) s

/-- TRAP raises `TRAP_INSTR` with `TVAL` := imm16 (R474, R476). -/
def execTrap (n : Fin 4) (z : BitVec 4) (imm : BitVec 16) (s : State) : Out :=
  runInstr n (wordX 1 (z ++ imm)) true (fun _ => z != 0)
    (fun k s => .moved (trapOrLate n.val 9 (ux imm) false (k.pc + 4) k.pc s)) s

/-- WAIT waits for an interrupt enabled in `IEN` (R444). The program counter moves past it, and the core then runs nothing until one is
pending. -/
def execWait (n : Fin 4) (z : BitVec 20) (s : State) : Out :=
  runInstr n (wordX 2 z) false (fun k => z != 0 || k.level == 0)
    (fun _ s => .done (coreMod n.val (fun x => { x with waiting := true }) s) false) s

/-- SYNC: earlier stores are performed, or reported by `LATE_WRITE` first (R446, R499). -/
def execSync (n : Fin 4) (z : BitVec 20) (s : State) : Out :=
  runInstr n (wordX 3 z) false (fun _ => z != 0)
    (fun k s => match storeLate k with
      | some t => .moved (takeLate n.val t k.here s)
      | none => .done s false) s

/-- TAGW: the colour of the line at rs1 := rs2[3:0] (R492). A line outside SRAM raises `BUS_ERROR` (log 47). -/
def execTagw (n : Fin 4) (z : BitVec 4) (rs1 rs2 : BitVec 4) (z' : BitVec 8) (s : State) : Out :=
  runInstr n (wordX 4 (z ++ rs1 ++ rs2 ++ z')) false (fun k => z != 0 || z' != 0 || k.level == 0)
    (fun k s =>
      let a := k.reg rs1
      if !inSram a.toNat then .exc 0xA a s
      else match storeLate k with
        | some t => .moved (takeLate n.val t k.here s)
        | none => .done (setColour a.toNat ((k.reg rs2).toNat % 16) s) false) s

/-- TAGR: rd := the colour of the line at rs1 (R439). -/
def execTagr (n : Fin 4) (rd rs1 : BitVec 4) (z : BitVec 12) (s : State) : Out :=
  runInstr n (wordX 5 (rd ++ rs1 ++ z)) false (fun k => z != 0 || k.level == 0)
    (fun k s =>
      let a := k.reg rs1
      if !inSram a.toNat then .exc 0xA a s
      else .done (putReg n.val rd (wfield (lineColour a.toNat s) 0) s) false) s

/-! ### Boundaries: late writes and interrupts (R472, R496) -/

/-- The core can take a `LATE_WRITE` or an interrupt: it runs, and stands between two instructions that are not a branch and its slot. -/
def boundary (n : Nat) (s : State) : Bool := s.dev.mainOn && !s.dev.asleep && coreServes n s && (coreGet n s).slot.isNone

/-- LATE_WRITE: a refused store or DMA access is reported at a boundary (R496 to R498). -/
def execLateWrite (n : Fin 4) (s : State) : Out := .next <|
  let k := coreGet n.val s
  if boundary n.val s then match k.late with
    | t :: _ => takeLate n.val t k.pc s
    | [] => s
  else s

/-- Bits of `IPEND` whose sources stand outside the cores as the spec gives them: timer, dispatch queue, engine done, vault,
custodian interfaces, mesh. -/
def outsideIrq (i : Nat) : Bool := i == 0 || i == 2 || i == 4 || i == 6 || i == 7 || i == 9

/-- An interrupt source becomes pending on a core; the timer's does so when the tick count reaches its match. -/
def irqArrives (n i : Nat) (s : State) : State :=
  if !outsideIrq i then s
  else if i = 0 then
    let m := (coreGet n s).tmatch
    s.modWarden fun w => { w with tick := if w.tick ≤ m then m else w.tick }
  else coreMod n (fun k => { k with ipend := k.ipend ||| (1 <<< i) }) s

/-- The interrupt taken first among those pending and enabled: 0x18, then the lowest code (R472). -/
def firstIrq (p : BitVec 16) : Option Nat := if p.getLsbD 8 then some 8 else (List.range 10).find? fun i => p.getLsbD i

/-- INTERRUPT: a source may become pending on core `n` (`src`, a bit of `IPEND`), and a pending, enabled interrupt is taken at a
boundary while `GM` is 0 (R472). A `LATE_WRITE` due goes first (R496); taking an interrupt clears its pending bit, but for the
timer's (log 47). -/
def execInterrupt (n : Fin 4) (src : Option (Fin 16)) (s : State) : Out := .next <|
  if !s.dev.mainOn then s
  else
    let s := match src with
      | some i => irqArrives n.val i.val s
      | none => s
    let k := coreGet n.val s
    if boundary n.val s && !k.masked && k.late.isEmpty then
      match firstIrq (ipendOf k s.warden.tick &&& k.ien) with
      | none => s
      | some i =>
        let s := coreMod n.val (fun x => { x with ipend := x.ipend &&& ~~~((1 : BitVec 16) <<< i) }) s
        trapOrLate n.val (0x10 + i) 0 false k.pc k.pc s
    else s

/-! ### DMA (R493, R494, R503) -/

/-- Why a DMA access to one line stops. -/
inductive DmaAns where
  | ok (s : State)
  | refused (region : Nat)
  | uncorrectable (s : State)

/-- The DMA engine's access to one address: the address map, the DMA regions, their colour, the flash (R438, R491, R493). -/
def dmaCheck (k : Core) (write : Bool) (a : Nat) (s : State) : DmaAns :=
  let flash := inFlash a && !write
  let sense := fun (s : State) => if flash then (match flashSense a s with
    | (true, s) => DmaAns.uncorrectable s
    | (false, s) => .ok s) else .ok s
  if !(inSram a || flash) then .refused 15
  else if !k.mpuctl.getLsbD 1 then sense s
  else match deciding k.dma a with
    | none => .refused 15
    | some (i, r) =>
      if !r.attr.getLsbD (if write then 4 else 3) then .refused i
      else if r.attr.getLsbD 7 && lineColour a s != fieldOf r.attr 11 8 then .refused i
      else sense s

/-- A transfer line by line, `fuel` bounding the lines: bytes written to SRAM, or `len` bytes read. -/
def dmaRun (n : Nat) (write : Bool) : Nat → Nat → List Byte → Nat → State → State
  | 0, _, _, _, s => s
  | fuel + 1, a, data, len, s =>
    if len = 0 then s
    else
      let m := min len (64 - a % 64)
      match dmaCheck (coreGet n s) write a s with
      | .refused i => addLate n (lateTval a true (!write) i) s
      | .uncorrectable s => s
      | .ok s =>
        let s := if write then sramWrite a (data.take m) s else s
        dmaRun n write fuel (a + m) (data.drop m) (len - m) s

/-- DMA_DONE: a core's DMA transfer ends, or stops on a refusal or an uncorrectable flash word, and raises its done interrupt
(R494, R503). `data`: bytes brought from host memory and written from address `a` on; none: `len` bytes are read from `a`. The host
side and the engine's own programming are not described (log 47). -/
def execDmaDone (n : Fin 4) (a : Word) (data : Option (List Byte)) (len : BitVec 16) (s : State) : Out := .next <|
  if !s.dev.mainOn || !coreServes n.val s then s
  else
    let bytes := data.getD []
    let len := if data.isSome then bytes.length else len.toNat
    let s := dmaRun n.val data.isSome (len / 64 + 2) a.toNat bytes len s
    coreMod n.val (fun k => { k with ipend := k.ipend ||| 8 }) s

end Sys2Proof.Machine
end

