-- ==== Sys2Proof/Machine/Link.lean ====
section
/-! DEFINITION. What a received flit brings (R128 to R134): its packets are the host's accesses, the completions of the E9's reads, and
`FLUSH` with its acknowledgement. -/
namespace Sys2Proof.Machine

/-- The width of an access by its byte enables (R134). -/
def beOfWidth (be : Nat) : Option Width :=
  if be = 1 then some .b8 else if be = 3 then some .b16 else if be = 0xF then some .b32 else if be = 0xFF then some .b64 else none

/-- An `MWR` is a host write of the CSR space (R134). Byte enables that are no access of 1, 2, 4 or 8 low bytes fail the width check;
an offset above the 2 MiB of R48 addresses nothing (log 112). -/
def hostWrite (p : Port) (k : Packet) (s : State) : State :=
  if !accessReaches (.host p) s || decide (2 ^ 21 ≤ k.addr) then s
  else match beOfWidth k.be with
    | none => submit (.host p) (.write k.ptag k.addr .b8 0) s
    | some w => submit (.host p) (.write k.ptag k.addr w (BitVec.ofNat 64 (natAt k.data 0 8))) s

/-- An `MRD` is a host read of the CSR space, answered by one `CPL` with its `TAG` (R134). -/
def hostRead (p : Port) (k : Packet) (s : State) : State :=
  if !accessReaches (.host p) s then s
  else if 2 ^ 21 ≤ k.addr then answer (.host p) 0x100000 8 k.tag 0 s
  else match beOfWidth k.be with
    | none => answer (.host p) (answerKey k.addr) 4 k.tag 0 (devErr 2 (.host p) s)
    | some w => submit (.host p) (.read k.ptag k.addr w k.tag) s

/-- Entries of one read arrive, each as the row `ENTRY_ARRIVE` says. -/
def entriesArrive (cst : Cst) : List Nat → List Byte → State → State
  | [], _, s => s
  | id :: ids, bs, s => entriesArrive cst ids (bs.drop 64) (entryArrive id cst (bytesAt bs 0 64) (entryOver id s))

/-- A read has been answered in full, or with a fault (R133). -/
def readFinish (m : Mrd) (cst : Cst) (s : State) : State :=
  match m.of with
  | .entries ids => entriesArrive cst ids m.bytes s
  | r => readArrive r cst m.bytes (readOver r s)

/-- The `CST` of a `CPL` (Table 4-5); the code 0b11 counts as an abort (log 112). -/
def cstOf (n : Nat) : Cst := if n = 0 then .ok else if n = 1 then .translation else .abort

/-- The piece with this tag has its data. -/
def Mrd.fill (m : Mrd) (tag : Nat) (data : List Byte) : Mrd :=
  { m with pieces := m.pieces.map fun x => if x.tag = some tag then { x with tag := none, data := some data } else x }

/-- A `CPL` answers the read whose tag it echoes; one with another tag is dropped. -/
def cplArrive (p : Port) (k : Packet) (s : State) : State :=
  match s.ports.reads.find? fun m => decide (m.port = p) && m.pieces.any fun x => x.tag == some k.tag with
  | none => s
  | some m =>
    if cstOf k.cst ≠ .ok then readFinish m (cstOf k.cst) s
    else
      let n := m.fill k.tag k.data
      let s := s.modPorts fun x => { x with reads := updFirst (fun y => decide (y = m)) (fun _ => n) x.reads }
      if n.done then readFinish n .ok s else issueReads p s

/-- A `FLUSH_ACK` makes visible the writes up to the one that its `FLUSH` followed (R145). -/
def flushArrive (p : Port) (tag : Nat) (s : State) : State :=
  let ws := (s.port p).unflushed
  if ws.any (fun w => w.flush == tag) then flushAcked p ((ws.takeWhile fun w => w.flush != tag).length + 1) s else s

/-- One packet takes effect; a reserved `TYPE` has none (log 112). -/
def packetArrive (p : Port) (s : State) (k : Packet) : State :=
  if k.type = 1 then hostWrite p k s
  else if k.type = 2 then hostRead p k s
  else if k.type = 3 then cplArrive p k s
  else if k.type = 4 then s.modPort p fun q => q.enq [flushAckPacket k.tag]
  else if k.type = 5 then flushArrive p k.tag s
  else s

/-- The packets of an accepted DATA flit take effect in order; the flit is acknowledged at once (R130). -/
def flitServe (p : Port) (s : State) : State :=
  let r := rxTake p s
  let s := r.1.foldl (packetArrive p) r.2
  if (s.port p).up && !(s.port p).training then s.modPort p fun q => q.null false else s

/-- FLIT_RECEIVE: a flit of 256 bytes arrives (R128, R130): a bad `CRC` or a `SEQ` out of order is discarded with a `NAK`; else
its `ACK`, credits and `NAK` are taken, and the packets of a DATA flit take effect. A reserved `FTYPE` has no effect (log 112). -/
def execFlitReceive (p : Port) (flit : List Byte) (s : State) : Out := .next <|
  let q := s.port p
  let h := flitHdr flit
  if !q.up || q.training then s
  else if !flitCrcOk flit then sendNak p (bump (portDiag p) 1 s)
  else if 1 < h.ftype then s
  else if h.seq ≠ (if h.ftype = 1 then q.rxSeq + 1 else q.rxSeq) then sendNak p s
  else
    let s := flitTake p h (flitPayload flit) s
    if h.ftype = 1 then flitServe p s else s

end Sys2Proof.Machine
end

