-- ==== Sys2Proof/Machine/RngRows.lean ====
section
/-! DEFINITION. The events of the random number generator after which a read of `RNG_DATA` may return, and with it what its requester
has presented since (chapter 11, R389). -/
namespace Sys2Proof.Machine

/-- An event of the generator under main power; accesses that waited behind a read of `RNG_DATA` go on once it has returned. -/
def rngRow (f : State → State) (s : State) : Out := .next <| onMain (fun s => drainBehind (f s)) s

/-- RNG_HEALTH_FAIL: repetition-count or adaptive-proportion tests have failed (R378, R382). -/
def execRngHealthFail (s : State) : Out := rngRow healthRow s

/-- ESTIMATE_WINDOW_END: a source's estimate window ends (R371 to R373). -/
def execEstimateWindowEnd (x : Side) (s : State) : Out := rngRow (windowRow x) s

/-- STARTUP_TEST_DONE: a start-up test or retest ends (R374 to R376, R379, R381). -/
def execStartupTestDone (x : Side) (s : State) : Out := rngRow (startupRow x) s

/-- DRBG_INSTANTIATE: the DRBG is instantiated and the expander cores are seeded (R375, R381, R394). -/
def execDrbgInstantiate (s : State) : Out := rngRow instantiateRow s

/-- RESEED: the DRBG reseeds from two blocks (R385). -/
def execReseed (s : State) : Out := rngRow reseedRow s

end Sys2Proof.Machine
end

