-- ==== Sys2Proof/Machine/Services.lean ====
section
/-! DEFINITION. The firmware services of an applet (R462, R464 to R467, Table 13-12) and the end of its budget. A service row is what
firmware does after the applet's `trap`; it is due while the core stands at S level with that trap's `CAUSE` and `TVAL`. -/
namespace Sys2Proof.Machine

/-- The invocation of a core that has trapped for service `n` and waits for firmware. -/
def svcDue (core n : Nat) (s : State) : Option Invocation :=
  let k := coreGet core s
  if s.dev.mainOn && coreServes core s && k.level == 1 && k.prevLevel == 0 && fieldOf k.cause 7 0 == 9 && k.tval.toNat == n then
    match k.inv with
    | some i => if i.call.isNone then some i else none
    | none => none
  else none

/-- An argument register of a core, as a number. -/
def arg (core : Nat) (r : BitVec 4) (s : State) : Nat := ((coreGet core s).reg r).toNat

/-- A buffer lies in the caller's frame (R465). -/
def inFrame (i : Invocation) (a n : Nat) : Bool := decide (i.frame ≤ a ∧ a + n ≤ i.frame + i.len)

/-- Run a service that is due; it is counted. -/
def service (core n : Nat) (f : Invocation → State → State) (s : State) : Out := .next <|
  match svcDue core n s with
  | some i => f i (if i.seg.isNone then bump 0xA114 1 s else s)
  | none => s

/-- EXIT ends an invocation or hook with its status and result (R462, R464). -/
def execExit (core : Fin 4) (s : State) : Out :=
  service core.val 0 (fun _ s =>
    let k := coreGet core.val s
    endInv core.val (.exit (k.reg 1) (k.reg 2) (le 4 (k.reg 3).toNat ++ le 4 (k.reg 4).toNat)) s) s

/-- The command that a `CALL` submits: the entry in the frame, for the furrow, queue and policy of the command that invoked the
applet, with the applet's colours (R466). -/
def calledCmd (core : Nat) (i : Invocation) (p : Cmd) (e : List Byte) (s : State) : Cmd :=
  let c := decodeEntry (fetchedCmd s.cmdif.nextId ⟨p.furrow, p.sq, 0, 0, p.cq, 0, 0, 0, 0, 0, false, 0, 0, [], [], [], false, false⟩
    p.idx p.batch p.ptag (rulesMode s)) e
  { c with phase := .ready, route := .flume, colours := p.colours &&& i.colours, keyQuota := p.keyQuota, dispTally := s.dev.nextTally, dispRtc := s.backup.rtcSec
           svc := some (core, i.applet) }

/-- The parts of a called command that must lie in the frame. -/
def callParts (i : Invocation) (c : Cmd) : Bool :=
  (c.srcLen == 0 || inFrame i c.src.toNat c.srcLen) && (c.dstLen == 0 || inFrame i c.dst.toNat c.dstLen)
    && (((opSpec c.opcode.toNat).block c).isNone || inFrame i c.blockAddr c.blockLen)

/-- SERVICE_CALL: the `CALL` service submits a command entry for the applet (R466). What `CALL` itself refuses returns the status and
writes no completion (log 43). -/
def execServiceCall (core : Fin 4) (s : State) : Out :=
  service core.val 1 (fun i s =>
    let n := core.val
    let ret := fun (st : Status) => svcReturn n st none none none s
    let a := arg n 1 s
    let area := arg n 2 s
    match cmdGet i.cmd s with
    | none => s
    | some p =>
      if i.hook then ret .modeForbids
      else if !inFrame i a 64 || !inFrame i area 32 then ret .badParam
      else
        let c := calledCmd n i p (sramRead a 64 s) s
        if !(2 ≤ c.cls && c.cls ≤ 5) && c.opcode != 0x1006 then ret .modeForbids
        else if c.flags &&& 0xFB ≠ 0 then ret .badForm
        else
          let st := dispatchStatus c c.mode s
          if st.isNone && !callParts i c then ret .badParam
          else
            let s := coreMod n (fun k => { k with inv := k.inv.map fun i => { i with call := some (c.id, area) } }) s
            let blk := if ((opSpec c.opcode.toNat).block c).isSome then sramRead c.blockAddr c.blockLen s else []
            let c := if st.isNone then { c with data := sramRead c.src.toNat c.srcLen s, block := blk } else c
            let s := s.modCmdif fun f => { f with cmds := f.cmds ++ [c], nextId := f.nextId + 1 }
            match st with
            | some e => finish c e s
            | none => s) s

/-- RANDOM returns KEY-class bytes; it waits while the class waits (R465, R384). Its length rule: log 48. -/
def execRandom (core : Fin 4) (s : State) : Out :=
  let n := core.val
  let a := arg n 1 s
  let len := arg n 2 s
  match svcDue n 2 s with
  | none => .next s
  | some i =>
    if len < 1 ∨ 4096 < len ∨ !inFrame i a len then
      service n 2 (fun _ s => svcReturn n (if 1 ≤ len ∧ len ≤ 4096 then .badParam else .badLength) none none none s) s
    else match drawKey len [] s with
      | .wait s => .next s
      | .stopped _ => service n 2 (fun _ s => svcReturn n .entropyUnavailable none none none s) s
      | .ok bs s => service n 2 (fun _ s => svcReturn n .ok none none none (sramWrite a bs s)) s

/-- TIME returns the RTC (R465). -/
def execTime (core : Fin 4) (s : State) : Out :=
  service core.val 3 (fun _ s =>
    svcReturn core.val .ok (some (BitVec.ofNat 32 s.backup.rtcSec)) (some (BitVec.ofNat 32 (s.backup.rtcSec / 2 ^ 32 % 65536)))
      (some (BitVec.ofNat 32 s.backup.rtcFrac)) s) s

/-- An applet's persistent store: generation and 4,096 bytes, zero at install (R467). -/
def pstoreOf (num : Nat) (s : State) : Nat × List Byte := (assocGet num s.vault.archive.pstores).getD (0, zeros 4096)

/-- Another core's write of the same applet's store is under way (R467). -/
def pstoreBusy (core num : Nat) (s : State) : Bool :=
  (List.range 4).any fun m => m != core && (match (coreGet m s).inv with
    | some j => j.applet == num && j.seg.isSome
    | none => false)

/-- PSTORE_READ reads the applet's persistent store (R467). -/
def execPstoreRead (core : Fin 4) (s : State) : Out :=
  service core.val 4 (fun i s =>
    let n := core.val
    let (a, off, len) := (arg n 1 s, arg n 2 s, arg n 3 s)
    let (gen, b) := pstoreOf i.applet s
    if pstoreBusy n i.applet s then s
    else if 4096 < off + len then svcReturn n .badLength none none none s
    else if !inFrame i a len then svcReturn n .badParam none none none s
    else svcReturn n .ok (some (BitVec.ofNat 32 gen)) none none (sramWrite a (bytesAt b off len) s)) s

/-- The segment that the core's `PSTORE_WRITE` waits for. -/
def setSeg (core : Nat) (seg : Option Nat) (s : State) : State :=
  coreMod core (fun k => { k with inv := k.inv.map fun i => { i with seg := seg } }) s

/-- PSTORE_WRITE writes the store synchronously when the generation matches; the call returns once its segment is durable (R467). -/
def execPstoreWrite (core : Fin 4) (s : State) : Out :=
  service core.val 5 (fun i s =>
    let n := core.val
    let (a, off, len, want) := (arg n 1 s, arg n 2 s, arg n 3 s, arg n 4 s)
    let (gen, b) := pstoreOf i.applet s
    match i.seg with
    | some seg =>
      if indeterminate seg s then svcReturn n .cartridgeIndeterminate none none none (setSeg n none s)
      else if durable seg s then svcReturn n .ok (some (BitVec.ofNat 32 (want + 1))) none none (setSeg n none s)
      else s
    | none =>
      if i.hook then svcReturn n .modeForbids none none none s
      else if pstoreBusy n i.applet s then s
      else if 4096 < off + len then svcReturn n .badLength none none none s
      else if !inFrame i a len then svcReturn n .badParam none none none s
      else if want ≠ gen then svcReturn n .verifyFailed (some (BitVec.ofNat 32 gen)) none none s
      else if !vaultAccepts s then svcReturn n .modeForbids none none none s
      else
        let new := b.take off ++ sramRead a len s ++ b.drop (off + len)
        let (seg, s) := archiveSync .archive (.pstore i.applet (gen + 1) new) s
        setSeg n (some seg) s) s

/-- LOG writes an individual audit record from the applet (R465, R542; fields: log 49). -/
def execLog (core : Fin 4) (s : State) : Out :=
  service core.val 6 (fun i s =>
    let n := core.val
    let (a, len) := (arg n 1 s, arg n 2 s)
    if len < 1 ∨ 64 < len then svcReturn n .badLength none none none s
    else if !inFrame i a len then svcReturn n .badParam none none none s
    else if !auditSpace s then svcReturn n .modeForbids none none none s
    else
      let f := ((cmdGet i.cmd s).map (·.furrow)).getD 0
      svcReturn n .ok none none none (auditRec 7 f 0 0 0 0 0 0 [] (sramRead a len s) s)) s

/-- APPLET_BUDGET: an invocation has spent its budget of A-level instructions and ends; the core returns to firmware at S level (R462,
log 40). -/
def execAppletBudget (core : Fin 4) (s : State) : Out := .next <|
  let n := core.val
  let k := coreGet n s
  match k.inv with
  | none => s
  | some i =>
    if s.dev.mainOn && coreServes n s && i.budget == 0 && k.level == 0 then
      let s := endInv n .budget s
      coreMod n (fun k => { k with status := statusOf true 0 1, pc := k.stvec, slot := none, lc := 0 }) s
    else s

end Sys2Proof.Machine
end

