-- ==== Sys2Proof/Machine/Dispatch.lean ====
section
/-! DEFINITION. One arm for each command: a direct call of its meaning. -/
namespace Sys2Proof.Machine

def exec (i : Instr) (s : State) : Host.Outcome State Fault Refusal :=
  match i with
  | .csrWrite r ptag addr w v => Sys2Proof.Machine.execCsrWrite r ptag addr w v s
  | .blkUnlock r blk v => Sys2Proof.Machine.execBlkUnlock r blk v s
  | .wideValueLatch r ptag addr w => Sys2Proof.Machine.execWideValueLatch r ptag addr w s
  | .postedWriteLand r => Sys2Proof.Machine.execPostedWriteLand r s
  | .claim p lease tie => Sys2Proof.Machine.execClaim p lease tie s
  | .release p => Sys2Proof.Machine.execRelease p s
  | .cancel p => Sys2Proof.Machine.execCancel p s
  | .leaseExpiry => Sys2Proof.Machine.execLeaseExpiry s
  | .headgateLinkLoss => Sys2Proof.Machine.execHeadgateLinkLoss s
  | .portXEvtCtl r x v => Sys2Proof.Machine.execPortXEvtCtl r x v s
  | .portXEvtHead r x v => Sys2Proof.Machine.execPortXEvtHead r x v s
  | .portRetrain r x v => Sys2Proof.Machine.execPortRetrain r x v s
  | .portDisable r x v => Sys2Proof.Machine.execPortDisable r x v s
  | .trainingRequest p => Sys2Proof.Machine.execTrainingRequest p s
  | .linkTrainingDone p trains partner failTx failRx => Sys2Proof.Machine.execLinkTrainingDone p trains partner failTx failRx s
  | .e9CapRsp p cap => Sys2Proof.Machine.execE9CapRsp p cap s
  | .e9CapTimeout p => Sys2Proof.Machine.execE9CapTimeout p s
  | .flitReceive p flit => Sys2Proof.Machine.execFlitReceive p flit s
  | .replayTimeout p => Sys2Proof.Machine.execReplayTimeout p s
  | .portDown p => Sys2Proof.Machine.execPortDown p s
  | .cplReceive r cst data => Sys2Proof.Machine.execCplReceive r cst data s
  | .flushAck p n => Sys2Proof.Machine.execFlushAck p n s
  | .flushTimeout p => Sys2Proof.Machine.execFlushTimeout p s
  | .linkDown id => Sys2Proof.Machine.execLinkDown id s
  | .cqHomeReturn f n => Sys2Proof.Machine.execCqHomeReturn f n s
  | .sqTail p ptag q v => Sys2Proof.Machine.execSqTail p ptag q v s
  | .cqHead p ptag q v => Sys2Proof.Machine.execCqHead p ptag q v s
  | .adminQueueEnable r v => Sys2Proof.Machine.execAdminQueueEnable r v s
  | .adminQueueDisable r v => Sys2Proof.Machine.execAdminQueueDisable r v s
  | .entryFetch f n k => Sys2Proof.Machine.execEntryFetch f n k s
  | .entryArrive id cst e => Sys2Proof.Machine.execEntryArrive id cst e s
  | .dispatch id => Sys2Proof.Machine.execDispatch id s
  | .shareRecheck id => Sys2Proof.Machine.execShareRecheck id s
  | .sealCompletion f n => Sys2Proof.Machine.execSealCompletion f n s
  | .coalesceTimeout f n => Sys2Proof.Machine.execCoalesceTimeout f n s
  | .queueDrained f n => Sys2Proof.Machine.execQueueDrained f n s
  | .mainPowerGood => Sys2Proof.Machine.execMainPowerGood s
  | .bootRomStart => Sys2Proof.Machine.execBootRomStart s
  | .bootRelease sig0 sig1 agree => Sys2Proof.Machine.execBootRelease sig0 sig1 agree s
  | .surveyItemDone d => Sys2Proof.Machine.execSurveyItemDone d s
  | .surveyRepeat d => Sys2Proof.Machine.execSurveyRepeat d s
  | .surveyEnd late us => Sys2Proof.Machine.execSurveyEnd late us s
  | .knownAnswerTests flume lanes pke rng => Sys2Proof.Machine.execKnownAnswerTests flume lanes pke rng s
  | .mainPowerLoss survive => Sys2Proof.Machine.execMainPowerLoss survive s
  | .puntyFieldArrive => Sys2Proof.Machine.execPuntyFieldArrive s
  | .puntyFieldLoss => Sys2Proof.Machine.execPuntyFieldLoss s
  | .sleepEntry => Sys2Proof.Machine.execSleepEntry s
  | .wake => Sys2Proof.Machine.execWake s
  | .tempStepDown => Sys2Proof.Machine.execTempStepDown s
  | .tempStepUp => Sys2Proof.Machine.execTempStepUp s
  | .markAdvance nonce n => Sys2Proof.Machine.execMarkAdvance nonce n s
  | .markRecordVerified nonce => Sys2Proof.Machine.execMarkRecordVerified nonce s
  | .nop id => Sys2Proof.Machine.execNop id s
  | .deviceInfo id => Sys2Proof.Machine.execDeviceInfo id s
  | .modeProvisionBegin id ddn => Sys2Proof.Machine.execModeProvisionBegin id ddn s
  | .modeProvisionComplete id => Sys2Proof.Machine.execModeProvisionComplete id s
  | .modeReprovision id agree => Sys2Proof.Machine.execModeReprovision id agree s
  | .modeCeremonyBegin id => Sys2Proof.Machine.execModeCeremonyBegin id s
  | .modeCeremonyEnd id => Sys2Proof.Machine.execModeCeremonyEnd id s
  | .modeMaintainBegin id => Sys2Proof.Machine.execModeMaintainBegin id s
  | .modeMaintainCommit id sig0 sig1 agree => Sys2Proof.Machine.execModeMaintainCommit id sig0 sig1 agree s
  | .modeMaintainAbort id => Sys2Proof.Machine.execModeMaintainAbort id s
  | .imageLoadErase id ok => Sys2Proof.Machine.execImageLoadErase id ok s
  | .imageLoadWrite id ok => Sys2Proof.Machine.execImageLoadWrite id ok s
  | .imageStatus id sig0 sig1 => Sys2Proof.Machine.execImageStatus id sig0 sig1 s
  | .modeJoinBegin id => Sys2Proof.Machine.execModeJoinBegin id s
  | .modeJoinAbort id => Sys2Proof.Machine.execModeJoinAbort id s
  | .modeZeroize id agree => Sys2Proof.Machine.execModeZeroize id agree s
  | .modeRetire id agree => Sys2Proof.Machine.execModeRetire id agree s
  | .rtcSet id => Sys2Proof.Machine.execRtcSet id s
  | .unitDisable id => Sys2Proof.Machine.execUnitDisable id s
  | .unitEnable id => Sys2Proof.Machine.execUnitEnable id s
  | .keyGenerate id => Sys2Proof.Machine.execKeyGenerate id s
  | .keyImport id => Sys2Proof.Machine.execKeyImport id s
  | .keyExport id => Sys2Proof.Machine.execKeyExport id s
  | .keyDerive id => Sys2Proof.Machine.execKeyDerive id s
  | .keyDelete id => Sys2Proof.Machine.execKeyDelete id s
  | .keyQuery id => Sys2Proof.Machine.execKeyQuery id s
  | .keySetPolicy id => Sys2Proof.Machine.execKeySetPolicy id s
  | .keyImportComponents id a => Sys2Proof.Machine.execKeyImportComponents id a s
  | .keyExportComponents id a => Sys2Proof.Machine.execKeyExportComponents id a s
  | .cacheFill idx gran reads others => Sys2Proof.Machine.execCacheFill idx gran reads others s
  | .recordReload idx ok => Sys2Proof.Machine.execRecordReload idx ok s
  | .scrub idx => Sys2Proof.Machine.execScrub idx s
  | .floorsLoaded => Sys2Proof.Machine.execFloorsLoaded s
  | .recordRestore idx => Sys2Proof.Machine.execRecordRestore idx s
  | .keytabRestoreDone => Sys2Proof.Machine.execKeytabRestoreDone s
  | .symEncrypt id => Sys2Proof.Machine.execSymEncrypt id s
  | .symDecrypt id => Sys2Proof.Machine.execSymDecrypt id s
  | .aeadSeal id => Sys2Proof.Machine.execAeadSeal id s
  | .aeadOpen id => Sys2Proof.Machine.execAeadOpen id s
  | .macGenerate id => Sys2Proof.Machine.execMacGenerate id s
  | .macVerify id => Sys2Proof.Machine.execMacVerify id s
  | .symWrap id => Sys2Proof.Machine.execSymWrap id s
  | .symUnwrap id => Sys2Proof.Machine.execSymUnwrap id s
  | .kslotLoad r v => Sys2Proof.Machine.execKslotLoad r v s
  | .kslotClear r v => Sys2Proof.Machine.execKslotClear r v s
  | .laneFault n => Sys2Proof.Machine.execLaneFault n s
  | .cipherDisable r v => Sys2Proof.Machine.execCipherDisable r v s
  | .cipherDrained => Sys2Proof.Machine.execCipherDrained s
  | .pinTranslate id => Sys2Proof.Machine.execPinTranslate id s
  | .pinVerify id => Sys2Proof.Machine.execPinVerify id s
  | .pinOffsetGenerate id => Sys2Proof.Machine.execPinOffsetGenerate id s
  | .pvvGenerate id => Sys2Proof.Machine.execPvvGenerate id s
  | .arqcVerify id => Sys2Proof.Machine.execArqcVerify id s
  | .arqcVerifyArpc id => Sys2Proof.Machine.execArqcVerifyArpc id s
  | .cvvGenerate id => Sys2Proof.Machine.execCvvGenerate id s
  | .cvvVerify id => Sys2Proof.Machine.execCvvVerify id s
  | .dukptPinTranslate id => Sys2Proof.Machine.execDukptPinTranslate id s
  | .dukptMacVerify id => Sys2Proof.Machine.execDukptMacVerify id s
  | .retailMacGenerate id => Sys2Proof.Machine.execRetailMacGenerate id s
  | .retailMacVerify id => Sys2Proof.Machine.execRetailMacVerify id s
  | .ff1Tokenise id => Sys2Proof.Machine.execFf1Tokenise id s
  | .ff1Detokenise id => Sys2Proof.Machine.execFf1Detokenise id s
  | .flumeUnitFault u => Sys2Proof.Machine.execFlumeUnitFault u s
  | .flumeDisable r v => Sys2Proof.Machine.execFlumeDisable r v s
  | .flumeDrained => Sys2Proof.Machine.execFlumeDrained s
  | .rollupClose => Sys2Proof.Machine.execRollupClose s
  | .pkSign id run => Sys2Proof.Machine.execPkSign id run s
  | .pkVerify id fault => Sys2Proof.Machine.execPkVerify id fault s
  | .pkKeypairGenerate id run => Sys2Proof.Machine.execPkKeypairGenerate id run s
  | .ecdhDerive id run => Sys2Proof.Machine.execEcdhDerive id run s
  | .kemEncapsulate id fault => Sys2Proof.Machine.execKemEncapsulate id fault s
  | .kemDecapsulate id fault => Sys2Proof.Machine.execKemDecapsulate id fault s
  | .rsaEncrypt id fault => Sys2Proof.Machine.execRsaEncrypt id fault s
  | .rsaDecrypt id run => Sys2Proof.Machine.execRsaDecrypt id run s
  | .pkeDisable r v => Sys2Proof.Machine.execPkeDisable r v s
  | .pkeDrained => Sys2Proof.Machine.execPkeDrained s
  | .randomBytes id => Sys2Proof.Machine.execRandomBytes id s
  | .rngHealth id => Sys2Proof.Machine.execRngHealth id s
  | .rngData r wide => Sys2Proof.Machine.execRngData r wide s
  | .estLatch r x => Sys2Proof.Machine.execEstLatch r x s
  | .rngRawRead r x raw => Sys2Proof.Machine.execRngRawRead r x raw s
  | .keyPrefWrite r v => Sys2Proof.Machine.execKeyPrefWrite r v s
  | .maskFailsClear r v => Sys2Proof.Machine.execMaskFailsClear r v s
  | .gatherBlock x raw => Sys2Proof.Machine.execGatherBlock x raw s
  | .estimateWindowEnd x => Sys2Proof.Machine.execEstimateWindowEnd x s
  | .rngHealthFail => Sys2Proof.Machine.execRngHealthFail s
  | .startupTestDone x => Sys2Proof.Machine.execStartupTestDone x s
  | .drbgInstantiate => Sys2Proof.Machine.execDrbgInstantiate s
  | .reseed => Sys2Proof.Machine.execReseed s
  | .maskFallback => Sys2Proof.Machine.execMaskFallback s
  | .expanderRekey core short => Sys2Proof.Machine.execExpanderRekey core short s
  | .e7Req consumer => Sys2Proof.Machine.execE7Req consumer s
  | .sharesMint id => Sys2Proof.Machine.execSharesMint id s
  | .sharesTransfer id => Sys2Proof.Machine.execSharesTransfer id s
  | .sharesBalance id => Sys2Proof.Machine.execSharesBalance id s
  | .sharesBurnStranded id keeper => Sys2Proof.Machine.execSharesBurnStranded id keeper s
  | .routeUpdateAdmit id => Sys2Proof.Machine.execRouteUpdateAdmit id s
  | .routeUpdateInstall id ok => Sys2Proof.Machine.execRouteUpdateInstall id ok s
  | .routeUpdatePortCost id => Sys2Proof.Machine.execRouteUpdatePortCost id s
  | .routeUpdateSetKeeper id => Sys2Proof.Machine.execRouteUpdateSetKeeper id s
  | .peerStatus id => Sys2Proof.Machine.execPeerStatus id s
  | .meshPortRetrain r n v => Sys2Proof.Machine.execMeshPortRetrain r n v s
  | .meshPortDisable r n v => Sys2Proof.Machine.execMeshPortDisable r n v s
  | .meshTrainingDone n ok first => Sys2Proof.Machine.execMeshTrainingDone n ok first s
  | .meshTrainingTimeout n => Sys2Proof.Machine.execMeshTrainingTimeout n s
  | .sessionInit n cap cert => Sys2Proof.Machine.execSessionInit n cap cert s
  | .sessionResponse n cap cert report => Sys2Proof.Machine.execSessionResponse n cap cert report s
  | .sessionConfirm n ok report => Sys2Proof.Machine.execSessionConfirm n ok report s
  | .sessionReplace n first => Sys2Proof.Machine.execSessionReplace n first s
  | .weperFrameReceive n b m => Sys2Proof.Machine.execWeperFrameReceive n b m s
  | .frameResendTimeout n => Sys2Proof.Machine.execFrameResendTimeout n s
  | .adj n a => Sys2Proof.Machine.execAdj n a s
  | .broadcast n origin seq b => Sys2Proof.Machine.execBroadcast n origin seq b s
  | .statement st => Sys2Proof.Machine.execStatement st s
  | .statementAck src a => Sys2Proof.Machine.execStatementAck src a s
  | .transfer src pool tally amount => Sys2Proof.Machine.execTransfer src pool tally amount s
  | .transferAck dst pool tally a => Sys2Proof.Machine.execTransferAck dst pool tally a s
  | .transferResend => Sys2Proof.Machine.execTransferResend s
  | .transferFloor src tally => Sys2Proof.Machine.execTransferFloor src tally s
  | .draw pool => Sys2Proof.Machine.execDraw pool s
  | .settleRequest d pool acked => Sys2Proof.Machine.execSettleRequest d pool acked s
  | .joinSyncComplete key => Sys2Proof.Machine.execJoinSyncComplete key s
  | .appletInstall id => Sys2Proof.Machine.execAppletInstall id s
  | .appletRemove id => Sys2Proof.Machine.execAppletRemove id s
  | .appletInvoke id => Sys2Proof.Machine.execAppletInvoke id s
  | .appletList id => Sys2Proof.Machine.execAppletList id s
  | .appletBudget core => Sys2Proof.Machine.execAppletBudget core s
  | .exit core => Sys2Proof.Machine.execExit core s
  | .serviceCall core => Sys2Proof.Machine.execServiceCall core s
  | .random core => Sys2Proof.Machine.execRandom core s
  | .time core => Sys2Proof.Machine.execTime core s
  | .pstoreRead core => Sys2Proof.Machine.execPstoreRead core s
  | .pstoreWrite core => Sys2Proof.Machine.execPstoreWrite core s
  | .log core => Sys2Proof.Machine.execLog core s
  | .add n rd rs1 rs2 z => Sys2Proof.Machine.execAdd n rd rs1 rs2 z s
  | .sub n rd rs1 rs2 z => Sys2Proof.Machine.execSub n rd rs1 rs2 z s
  | .and n rd rs1 rs2 z => Sys2Proof.Machine.execAnd n rd rs1 rs2 z s
  | .or n rd rs1 rs2 z => Sys2Proof.Machine.execOr n rd rs1 rs2 z s
  | .xor n rd rs1 rs2 z => Sys2Proof.Machine.execXor n rd rs1 rs2 z s
  | .shl n rd rs1 rs2 z => Sys2Proof.Machine.execShl n rd rs1 rs2 z s
  | .shr n rd rs1 rs2 z => Sys2Proof.Machine.execShr n rd rs1 rs2 z s
  | .sar n rd rs1 rs2 z => Sys2Proof.Machine.execSar n rd rs1 rs2 z s
  | .rotr n rd rs1 rs2 z => Sys2Proof.Machine.execRotr n rd rs1 rs2 z s
  | .cmplt n rd rs1 rs2 z => Sys2Proof.Machine.execCmplt n rd rs1 rs2 z s
  | .cmpltu n rd rs1 rs2 z => Sys2Proof.Machine.execCmpltu n rd rs1 rs2 z s
  | .mul n rd rs1 rs2 z => Sys2Proof.Machine.execMul n rd rs1 rs2 z s
  | .mulhi n rd rs1 rs2 z => Sys2Proof.Machine.execMulhi n rd rs1 rs2 z s
  | .mulhiu n rd rs1 rs2 z => Sys2Proof.Machine.execMulhiu n rd rs1 rs2 z s
  | .div n rd rs1 rs2 z => Sys2Proof.Machine.execDiv n rd rs1 rs2 z s
  | .divu n rd rs1 rs2 z => Sys2Proof.Machine.execDivu n rd rs1 rs2 z s
  | .mod n rd rs1 rs2 z => Sys2Proof.Machine.execMod n rd rs1 rs2 z s
  | .modu n rd rs1 rs2 z => Sys2Proof.Machine.execModu n rd rs1 rs2 z s
  | .atswap n rd rs1 rs2 z => Sys2Proof.Machine.execAtswap n rd rs1 rs2 z s
  | .atadd n rd rs1 rs2 z => Sys2Proof.Machine.execAtadd n rd rs1 rs2 z s
  | .addk n rd rs1 imm => Sys2Proof.Machine.execAddk n rd rs1 imm s
  | .andk n rd rs1 imm => Sys2Proof.Machine.execAndk n rd rs1 imm s
  | .ork n rd rs1 imm => Sys2Proof.Machine.execOrk n rd rs1 imm s
  | .xork n rd rs1 imm => Sys2Proof.Machine.execXork n rd rs1 imm s
  | .cmpltk n rd rs1 imm => Sys2Proof.Machine.execCmpltk n rd rs1 imm s
  | .cmpltuk n rd rs1 imm => Sys2Proof.Machine.execCmpltuk n rd rs1 imm s
  | .shlk n rd rs1 imm => Sys2Proof.Machine.execShlk n rd rs1 imm s
  | .shrk n rd rs1 imm => Sys2Proof.Machine.execShrk n rd rs1 imm s
  | .sark n rd rs1 imm => Sys2Proof.Machine.execSark n rd rs1 imm s
  | .upk n rd rs1 imm => Sys2Proof.Machine.execUpk n rd rs1 imm s
  | .ldw n rd rs1 imm => Sys2Proof.Machine.execLdw n rd rs1 imm s
  | .ldh n rd rs1 imm => Sys2Proof.Machine.execLdh n rd rs1 imm s
  | .ldhu n rd rs1 imm => Sys2Proof.Machine.execLdhu n rd rs1 imm s
  | .ldb n rd rs1 imm => Sys2Proof.Machine.execLdb n rd rs1 imm s
  | .ldbu n rd rs1 imm => Sys2Proof.Machine.execLdbu n rd rs1 imm s
  | .stw n rs2 rs1 imm bus => Sys2Proof.Machine.execStw n rs2 rs1 imm bus s
  | .sth n rs2 rs1 imm bus => Sys2Proof.Machine.execSth n rs2 rs1 imm bus s
  | .stb n rs2 rs1 imm bus => Sys2Proof.Machine.execStb n rs2 rs1 imm bus s
  | .breq n rs1 rs2 off => Sys2Proof.Machine.execBreq n rs1 rs2 off s
  | .brne n rs1 rs2 off => Sys2Proof.Machine.execBrne n rs1 rs2 off s
  | .brlt n rs1 rs2 off => Sys2Proof.Machine.execBrlt n rs1 rs2 off s
  | .brge n rs1 rs2 off => Sys2Proof.Machine.execBrge n rs1 rs2 off s
  | .brltu n rs1 rs2 off => Sys2Proof.Machine.execBrltu n rs1 rs2 off s
  | .brgeu n rs1 rs2 off => Sys2Proof.Machine.execBrgeu n rs1 rs2 off s
  | .jmp n off => Sys2Proof.Machine.execJmp n off s
  | .call n off => Sys2Proof.Machine.execCall n off s
  | .callr n rd rs1 imm => Sys2Proof.Machine.execCallr n rd rs1 imm s
  | .loop n z rs1 z' off => Sys2Proof.Machine.execLoop n z rs1 z' off s
  | .loopi n count off => Sys2Proof.Machine.execLoopi n count off s
  | .rdcr n rd rs1 z csr => Sys2Proof.Machine.execRdcr n rd rs1 z csr s
  | .wrcr n rd rs1 z csr => Sys2Proof.Machine.execWrcr n rd rs1 z csr s
  | .setcr n rd rs1 z csr => Sys2Proof.Machine.execSetcr n rd rs1 z csr s
  | .clrcr n rd rs1 z csr => Sys2Proof.Machine.execClrcr n rd rs1 z csr s
  | .xret n z => Sys2Proof.Machine.execXret n z s
  | .trap n z imm => Sys2Proof.Machine.execTrap n z imm s
  | .wait n z => Sys2Proof.Machine.execWait n z s
  | .sync n z => Sys2Proof.Machine.execSync n z s
  | .tagw n z rs1 rs2 z' => Sys2Proof.Machine.execTagw n z rs1 rs2 z' s
  | .tagr n rd rs1 z => Sys2Proof.Machine.execTagr n rd rs1 z s
  | .lateWrite n => Sys2Proof.Machine.execLateWrite n s
  | .interrupt n src => Sys2Proof.Machine.execInterrupt n src s
  | .dmaDone n a data len => Sys2Proof.Machine.execDmaDone n a data len s
  | .progRows n len => Sys2Proof.Machine.execProgRows n len s
  | .progWords n len => Sys2Proof.Machine.execProgWords n len s
  | .eraseMain n len => Sys2Proof.Machine.execEraseMain n len s
  | .eraseParam n len => Sys2Proof.Machine.execEraseParam n len s
  | .recordWrite n len => Sys2Proof.Machine.execRecordWrite n len s
  | .flashOpDone p ok weak => Sys2Proof.Machine.execFlashOpDone p ok weak s
  | .vaultFormat id => Sys2Proof.Machine.execVaultFormat id s
  | .vaultStatus id => Sys2Proof.Machine.execVaultStatus id s
  | .journalRead id => Sys2Proof.Machine.execJournalRead id s
  | .journalExport id => Sys2Proof.Machine.execJournalExport id s
  | .vaultRebuild id => Sys2Proof.Machine.execVaultRebuild id s
  | .vaultSetLayout id => Sys2Proof.Machine.execVaultSetLayout id s
  | .slotRelease r n v => Sys2Proof.Machine.execSlotRelease r n v s
  | .segmentSeal k => Sys2Proof.Machine.execSegmentSeal k s
  | .completionToken n f left cst => Sys2Proof.Machine.execCompletionToken n f left cst s
  | .tokenTimeout n => Sys2Proof.Machine.execTokenTimeout n s
  | .presenceCheck n present => Sys2Proof.Machine.execPresenceCheck n present s
  | .cartridgeInsert n => Sys2Proof.Machine.execCartridgeInsert n s
  | .slotBringUp n answers proof v12 page => Sys2Proof.Machine.execSlotBringUp n answers proof v12 page s
  | .vaultReplay n label segs => Sys2Proof.Machine.execVaultReplay n label segs s
  | .catchUpDone n => Sys2Proof.Machine.execCatchUpDone n s
  | .vaultRebuildDone n => Sys2Proof.Machine.execVaultRebuildDone n s
  | .cartStatusPoll n left st => Sys2Proof.Machine.execCartStatusPoll n left st s
  | .enrol id a => Sys2Proof.Machine.execEnrol id a s
  | .revoke id => Sys2Proof.Machine.execRevoke id s
  | .setDefine id => Sys2Proof.Machine.execSetDefine id s
  | .setHold id => Sys2Proof.Machine.execSetHold id s
  | .quorumStatus id => Sys2Proof.Machine.execQuorumStatus id s
  | .cardSession id a => Sys2Proof.Machine.execCardSession id a s
  | .badgeAuthenticate id a => Sys2Proof.Machine.execBadgeAuthenticate id a s
  | .tagInventory id frames cardsA cardsB => Sys2Proof.Machine.execTagInventory id frames cardsA cardsB s
  | .sealRead id a => Sys2Proof.Machine.execSealRead id a s
  | .sealIssue id a => Sys2Proof.Machine.execSealIssue id a s
  | .sealWrite id a => Sys2Proof.Machine.execSealWrite id a s
  | .cardInsert => Sys2Proof.Machine.execCardInsert s
  | .atr ind => Sys2Proof.Machine.execAtr ind s
  | .cardRemoved => Sys2Proof.Machine.execCardRemoved s
  | .cardOvercurrent => Sys2Proof.Machine.execCardOvercurrent s
  | .sessionExpiry n => Sys2Proof.Machine.execSessionExpiry n s
  | .verdictEvaluation agree => Sys2Proof.Machine.execVerdictEvaluation agree s
  | .probe n answered => Sys2Proof.Machine.execProbe n answered s
  | .capacitiveWake => Sys2Proof.Machine.execCapacitiveWake s
  | .tamperStatus id => Sys2Proof.Machine.execTamperStatus id s
  | .tamperLogRead id => Sys2Proof.Machine.execTamperLogRead id s
  | .evidenceRead id => Sys2Proof.Machine.execEvidenceRead id s
  | .puntyWrite id => Sys2Proof.Machine.execPuntyWrite id s
  | .tamperPinConfig id => Sys2Proof.Machine.execTamperPinConfig id s
  | .tamperLevel0Write r v => Sys2Proof.Machine.execTamperLevel0Write r v s
  | .alarmRaised n a b => Sys2Proof.Machine.execAlarmRaised n a b s
  | .alarmRecord => Sys2Proof.Machine.execAlarmRecord s
  | .monitorFault p a b => Sys2Proof.Machine.execMonitorFault p a b s
  | .scrubComplete => Sys2Proof.Machine.execScrubComplete s
  | .workingKeysReformed => Sys2Proof.Machine.execWorkingKeysReformed s
  | .zeroizeDecision agree => Sys2Proof.Machine.execZeroizeDecision agree s
  | .holdAlarm n a b agree => Sys2Proof.Machine.execHoldAlarm n a b agree s
  | .tamperLogCopy ok => Sys2Proof.Machine.execTamperLogCopy ok s
  | .vbatMeasure mv => Sys2Proof.Machine.execVbatMeasure mv s
  | .puntySwap ok => Sys2Proof.Machine.execPuntySwap ok s
  | .puntyAnticollision => Sys2Proof.Machine.execPuntyAnticollision s
  | .ptRead row => Sys2Proof.Machine.execPtRead row s
  | .ptRead4 row => Sys2Proof.Machine.execPtRead4 row s
  | .hlta => Sys2Proof.Machine.execHlta s
  | .furrowCreate id => Sys2Proof.Machine.execFurrowCreate id s
  | .furrowSetPolicy id => Sys2Proof.Machine.execFurrowSetPolicy id s
  | .furrowQuiesce id => Sys2Proof.Machine.execFurrowQuiesce id s
  | .furrowQuiesced n => Sys2Proof.Machine.execFurrowQuiesced n s
  | .furrowReset id => Sys2Proof.Machine.execFurrowReset id s
  | .furrowRemove id => Sys2Proof.Machine.execFurrowRemove id s
  | .furrowDisable id => Sys2Proof.Machine.execFurrowDisable id s
  | .furrowDisabled n => Sys2Proof.Machine.execFurrowDisabled n s
  | .furrowEnable id => Sys2Proof.Machine.execFurrowEnable id s
  | .dirtyLogStart id => Sys2Proof.Machine.execDirtyLogStart id s
  | .dirtyLogStop id => Sys2Proof.Machine.execDirtyLogStop id s
  | .furrowQuery id => Sys2Proof.Machine.execFurrowQuery id s
  | .cqCreate id => Sys2Proof.Machine.execCqCreate id s
  | .cqDelete id => Sys2Proof.Machine.execCqDelete id s
  | .sqCreate id => Sys2Proof.Machine.execSqCreate id s
  | .sqDelete id => Sys2Proof.Machine.execSqDelete id s
  | .sqDisable id => Sys2Proof.Machine.execSqDisable id s
  | .sqEnable id => Sys2Proof.Machine.execSqEnable id s
  | .queueQuery id => Sys2Proof.Machine.execQueueQuery id s
  | .selftestResults id => Sys2Proof.Machine.execSelftestResults id s
  | .loopback id => Sys2Proof.Machine.execLoopback id s
  | .counterSnapshot id => Sys2Proof.Machine.execCounterSnapshot id s
  | .unitSelftest id => Sys2Proof.Machine.execUnitSelftest id s
  | .memoryTest id => Sys2Proof.Machine.execMemoryTest id s
  | .alarmConditionAbsent n => Sys2Proof.Machine.execAlarmConditionAbsent n s
  | .vbatLost => Sys2Proof.Machine.execVbatLost s
  | .backupDomainFirstPowered => Sys2Proof.Machine.execBackupDomainFirstPowered s
  | .cardSilent => Sys2Proof.Machine.execCardSilent s

end Sys2Proof.Machine
end

