-- ==== Sys2Proof/WellFormed.lean ====
section
/-! DEFINITION. Which commands are well formed: the ranges the spec gives the operands that a constructor's type does not bound. The
machine is total: it answers on every command, well formed or not. -/
namespace Sys2Proof
open Sys2Proof.Machine

/-- A queue: furrow 0 to 4,095, number 0 to 7 (R153, R190). -/
def queueOk (f n : Nat) : Bool := decide (f < 4096 ∧ n < 8)

/-- A furrow other than furrow 0 (R190). -/
def furrowOk (n : Nat) : Bool := decide (0 < n ∧ n < 4096)

/-- An index of the key table (R229). -/
def idxOk (i : Nat) : Bool := decide (i < 2 ^ 25)

/-- A domain device number, 14 bits (Table 2-5). -/
def memberOk (d : Nat) : Bool := decide (d < 2 ^ 14)

/-- A pool number: 32 bits, not 0 (R429). -/
def poolOk (p : Nat) : Bool := decide (0 < p ∧ p < 2 ^ 32)

/-- A membership certificate names a domain device number and a 32-bit incarnation (R406). -/
def certOk (c : Option (Nat × Nat)) : Bool := c.all fun x => memberOk x.1 && decide (x.2 < 2 ^ 32)

/-- An enrolment answers with a 64-byte public key (R550). -/
def enrolOk : EnrolAns → Bool
  | .fail _ => true
  | .ok pub => pub.length == 64

/-- A credential answers with a custodian number 1 to 255 and a 64-byte ephemeral key (R548, R551). -/
def credOk : CredAns → Bool
  | .fail _ => true
  | .ok n q _ => decide (0 < n ∧ n < 256) && q.length == 64

/-- A seal has a 64-bit serial number, a state of two bits and 256 bytes of memory (R565). -/
def sealOk : SealAns → Bool
  | .fail _ => true
  | .ok serial state _ mem => decide (serial < 2 ^ 64 ∧ state < 4) && mem.length == 256

/-- The command is well formed. -/
def Instr.wf : Instr → Bool
  | .csrWrite _ _ _ _ _ => true
  | .blkUnlock _ _ _ => true
  | .wideValueLatch _ _ _ _ => true
  | .postedWriteLand _ => true
  | .claim _ _ _ => true
  | .release _ => true
  | .cancel _ => true
  | .leaseExpiry => true
  | .headgateLinkLoss => true
  | .portXEvtCtl _ _ _ => true
  | .portXEvtHead _ _ _ => true
  | .portRetrain _ _ _ => true
  | .portDisable _ _ _ => true
  | .trainingRequest _ => true
  | .linkTrainingDone _ _ _ tx rx => decide (tx ≤ 64 ∧ rx ≤ 64)
  | .e9CapRsp _ _ => true
  | .e9CapTimeout _ => true
  | .flitReceive _ flit => flit.length == 256
  | .replayTimeout _ => true
  | .portDown _ => true
  | .cplReceive _ cst data => cst == .ok || data.isEmpty
  | .flushAck _ n => decide (0 < n)
  | .flushTimeout _ => true
  | .linkDown _ => true
  | .cqHomeReturn f n => queueOk f n
  | .sqTail _ _ _ _ => true
  | .cqHead _ _ _ _ => true
  | .adminQueueEnable _ _ => true
  | .adminQueueDisable _ _ => true
  | .entryFetch f n k => queueOk f n && decide (0 < k)
  | .entryArrive _ cst e => if cst == .ok then e.length == 64 else e.isEmpty
  | .dispatch _ => true
  | .shareRecheck _ => true
  | .sealCompletion f n => queueOk f n
  | .coalesceTimeout f n => queueOk f n
  | .queueDrained f n => queueOk f n
  | .mainPowerGood => true
  | .bootRomStart => true
  | .bootRelease _ _ _ => true
  | .surveyItemDone _ => true
  | .surveyRepeat _ => true
  | .surveyEnd _ _ => true
  | .knownAnswerTests _ lanes pke _ => lanes.all (fun l => decide (l.val < 16)) && pke.all (fun u => decide (u.val < 48))
  | .mainPowerLoss _ => true
  | .puntyFieldArrive => true
  | .puntyFieldLoss => true
  | .sleepEntry => true
  | .wake => true
  | .tempStepDown => true
  | .tempStepUp => true
  | .markAdvance _ _ => true
  | .markRecordVerified _ => true
  | .nop _ => true
  | .deviceInfo _ => true
  | .modeProvisionBegin _ _ => true
  | .modeProvisionComplete _ => true
  | .modeReprovision _ _ => true
  | .modeCeremonyBegin _ => true
  | .modeCeremonyEnd _ => true
  | .modeMaintainBegin _ => true
  | .modeMaintainCommit _ _ _ _ => true
  | .modeMaintainAbort _ => true
  | .imageLoadErase _ _ => true
  | .imageLoadWrite _ _ => true
  | .imageStatus _ _ _ => true
  | .modeJoinBegin _ => true
  | .modeJoinAbort _ => true
  | .modeZeroize _ _ => true
  | .modeRetire _ _ => true
  | .rtcSet _ => true
  | .unitDisable _ => true
  | .unitEnable _ => true
  | .keyGenerate _ => true
  | .keyImport _ => true
  | .keyExport _ => true
  | .keyDerive _ => true
  | .keyDelete _ => true
  | .keyQuery _ => true
  | .keySetPolicy _ => true
  | .keyImportComponents _ _ => true
  | .keyExportComponents _ _ => true
  | .cacheFill i gran reads others => idxOk i && gran.all (fun g => decide (g < 8)) && decide (reads.length ≤ 2) && others.all fun u => decide (u < 2 ^ 26)
  | .recordReload i _ => idxOk i
  | .scrub i => idxOk i
  | .floorsLoaded => true
  | .recordRestore i => idxOk i
  | .keytabRestoreDone => true
  | .symEncrypt _ => true
  | .symDecrypt _ => true
  | .aeadSeal _ => true
  | .aeadOpen _ => true
  | .macGenerate _ => true
  | .macVerify _ => true
  | .symWrap _ => true
  | .symUnwrap _ => true
  | .kslotLoad _ _ => true
  | .kslotClear _ _ => true
  | .laneFault _ => true
  | .cipherDisable _ _ => true
  | .cipherDrained => true
  | .pinTranslate _ => true
  | .pinVerify _ => true
  | .pinOffsetGenerate _ => true
  | .pvvGenerate _ => true
  | .arqcVerify _ => true
  | .arqcVerifyArpc _ => true
  | .cvvGenerate _ => true
  | .cvvVerify _ => true
  | .dukptPinTranslate _ => true
  | .dukptMacVerify _ => true
  | .retailMacGenerate _ => true
  | .retailMacVerify _ => true
  | .ff1Tokenise _ => true
  | .ff1Detokenise _ => true
  | .flumeUnitFault _ => true
  | .flumeDisable _ _ => true
  | .flumeDrained => true
  | .rollupClose => true
  | .pkSign _ _ => true
  | .pkVerify _ _ => true
  | .pkKeypairGenerate _ _ => true
  | .ecdhDerive _ _ => true
  | .kemEncapsulate _ _ => true
  | .kemDecapsulate _ _ => true
  | .rsaEncrypt _ _ => true
  | .rsaDecrypt _ _ => true
  | .pkeDisable _ _ => true
  | .pkeDrained => true
  | .randomBytes _ => true
  | .rngHealth _ => true
  | .rngData _ _ => true
  | .estLatch _ _ => true
  | .rngRawRead _ _ _ => true
  | .keyPrefWrite _ _ => true
  | .maskFailsClear _ _ => true
  | .gatherBlock _ raw => !raw.isEmpty
  | .estimateWindowEnd _ => true
  | .rngHealthFail => true
  | .startupTestDone _ => true
  | .drbgInstantiate => true
  | .reseed => true
  | .maskFallback => true
  | .expanderRekey _ _ => true
  | .e7Req _ => true
  | .sharesMint _ => true
  | .sharesTransfer _ => true
  | .sharesBalance _ => true
  | .sharesBurnStranded _ keeper => memberOk keeper
  | .routeUpdateAdmit _ => true
  | .routeUpdateInstall _ _ => true
  | .routeUpdatePortCost _ => true
  | .routeUpdateSetKeeper _ => true
  | .peerStatus _ => true
  | .meshPortRetrain _ _ _ => true
  | .meshPortDisable _ _ _ => true
  | .meshTrainingDone _ _ _ => true
  | .meshTrainingTimeout _ => true
  | .sessionInit _ _ cert => certOk cert
  | .sessionResponse _ _ cert report => certOk cert && report.all (fun r => memberOk r.1)
  | .sessionConfirm _ _ report => report.all (fun r => memberOk r.1)
  | .sessionReplace _ _ => true
  | .weperFrameReceive _ b _ => b.length == 512
  | .frameResendTimeout _ => true
  | .adj _ _ => true
  | .broadcast _ origin _ _ => memberOk origin
  | .statement _ => true
  | .statementAck src _ => memberOk src
  | .transfer src pool tally amount => memberOk src && poolOk pool && decide (tally < 2 ^ 64 ∧ 0 < amount ∧ amount < 2 ^ 64)
  | .transferAck dst pool tally _ => memberOk dst && poolOk pool && decide (tally < 2 ^ 64)
  | .transferResend => true
  | .transferFloor src tally => memberOk src && decide (tally < 2 ^ 64)
  | .draw pool => poolOk pool
  | .settleRequest d pool acked => memberOk d && (pool == 0 || poolOk pool) && acked.all fun t => decide (t < 2 ^ 64)
  | .joinSyncComplete _ => true
  | .appletInstall _ => true
  | .appletRemove _ => true
  | .appletInvoke _ => true
  | .appletList _ => true
  | .appletBudget _ => true
  | .exit _ => true
  | .serviceCall _ => true
  | .random _ => true
  | .time _ => true
  | .pstoreRead _ => true
  | .pstoreWrite _ => true
  | .log _ => true
  | .add _ _ _ _ _ => true
  | .sub _ _ _ _ _ => true
  | .and _ _ _ _ _ => true
  | .or _ _ _ _ _ => true
  | .xor _ _ _ _ _ => true
  | .shl _ _ _ _ _ => true
  | .shr _ _ _ _ _ => true
  | .sar _ _ _ _ _ => true
  | .rotr _ _ _ _ _ => true
  | .cmplt _ _ _ _ _ => true
  | .cmpltu _ _ _ _ _ => true
  | .mul _ _ _ _ _ => true
  | .mulhi _ _ _ _ _ => true
  | .mulhiu _ _ _ _ _ => true
  | .div _ _ _ _ _ => true
  | .divu _ _ _ _ _ => true
  | .mod _ _ _ _ _ => true
  | .modu _ _ _ _ _ => true
  | .atswap _ _ _ _ _ => true
  | .atadd _ _ _ _ _ => true
  | .addk _ _ _ _ => true
  | .andk _ _ _ _ => true
  | .ork _ _ _ _ => true
  | .xork _ _ _ _ => true
  | .cmpltk _ _ _ _ => true
  | .cmpltuk _ _ _ _ => true
  | .shlk _ _ _ _ => true
  | .shrk _ _ _ _ => true
  | .sark _ _ _ _ => true
  | .upk _ _ _ _ => true
  | .ldw _ _ _ _ => true
  | .ldh _ _ _ _ => true
  | .ldhu _ _ _ _ => true
  | .ldb _ _ _ _ => true
  | .ldbu _ _ _ _ => true
  | .stw _ _ _ _ _ => true
  | .sth _ _ _ _ _ => true
  | .stb _ _ _ _ _ => true
  | .breq _ _ _ _ => true
  | .brne _ _ _ _ => true
  | .brlt _ _ _ _ => true
  | .brge _ _ _ _ => true
  | .brltu _ _ _ _ => true
  | .brgeu _ _ _ _ => true
  | .jmp _ _ => true
  | .call _ _ => true
  | .callr _ _ _ _ => true
  | .loop _ _ _ _ _ => true
  | .loopi _ _ _ => true
  | .rdcr _ _ _ _ _ => true
  | .wrcr _ _ _ _ _ => true
  | .setcr _ _ _ _ _ => true
  | .clrcr _ _ _ _ _ => true
  | .xret _ _ => true
  | .trap _ _ _ => true
  | .wait _ _ => true
  | .sync _ _ => true
  | .tagw _ _ _ _ _ => true
  | .tagr _ _ _ _ => true
  | .lateWrite _ => true
  | .interrupt _ _ => true
  | .dmaDone _ _ data len => data.all (fun d => d.length == len.toNat)
  | .progRows _ _ => true
  | .progWords _ _ => true
  | .eraseMain _ _ => true
  | .eraseParam _ _ => true
  | .recordWrite _ _ => true
  | .flashOpDone _ _ weak => weak.all (fun w => decide (0x1000000 ≤ w.1 ∧ w.1 < 0x1200000))
  | .vaultFormat _ => true
  | .vaultStatus _ => true
  | .journalRead _ => true
  | .journalExport _ => true
  | .vaultRebuild _ => true
  | .vaultSetLayout _ => true
  | .slotRelease _ _ _ => true
  | .segmentSeal _ => true
  | .completionToken _ _ _ _ => true
  | .tokenTimeout _ => true
  | .presenceCheck _ _ => true
  | .cartridgeInsert _ => true
  | .slotBringUp _ _ _ _ page => page.length == 4096
  | .vaultReplay _ _ segs => decide (segs.length < 2 ^ 32) && segs.all fun x => decide (x.1 < 2 ^ 64)
  | .catchUpDone _ => true
  | .vaultRebuildDone _ => true
  | .cartStatusPoll _ _ _ => true
  | .enrol _ a => enrolOk a.ans
  | .revoke _ => true
  | .setDefine _ => true
  | .setHold _ => true
  | .quorumStatus _ => true
  | .cardSession _ a => credOk a
  | .badgeAuthenticate _ a => credOk a
  | .tagInventory _ frames _ _ => frames.all (fun f => decide (f.length ≤ 256))
  | .sealRead _ a => sealOk a
  | .sealIssue _ a => sealOk a.ans
  | .sealWrite _ a => sealOk a.ans
  | .cardInsert => true
  | .atr _ => true
  | .cardRemoved => true
  | .cardOvercurrent => true
  | .sessionExpiry _ => true
  | .verdictEvaluation _ => true
  | .probe _ _ => true
  | .capacitiveWake => true
  | .tamperStatus _ => true
  | .tamperLogRead _ => true
  | .evidenceRead _ => true
  | .puntyWrite _ => true
  | .tamperPinConfig _ => true
  | .tamperLevel0Write _ _ => true
  | .alarmRaised _ _ _ => true
  | .alarmRecord => true
  | .monitorFault _ _ _ => true
  | .scrubComplete => true
  | .workingKeysReformed => true
  | .zeroizeDecision _ => true
  | .holdAlarm _ _ _ _ => true
  | .tamperLogCopy _ => true
  | .vbatMeasure _ => true
  | .puntySwap _ => true
  | .puntyAnticollision => true
  | .ptRead _ => true
  | .ptRead4 _ => true
  | .hlta => true
  | .furrowCreate _ => true
  | .furrowSetPolicy _ => true
  | .furrowQuiesce _ => true
  | .furrowQuiesced n => furrowOk n
  | .furrowReset _ => true
  | .furrowRemove _ => true
  | .furrowDisable _ => true
  | .furrowDisabled n => furrowOk n
  | .furrowEnable _ => true
  | .dirtyLogStart _ => true
  | .dirtyLogStop _ => true
  | .furrowQuery _ => true
  | .cqCreate _ => true
  | .cqDelete _ => true
  | .sqCreate _ => true
  | .sqDelete _ => true
  | .sqDisable _ => true
  | .sqEnable _ => true
  | .queueQuery _ => true
  | .selftestResults _ => true
  | .loopback _ => true
  | .counterSnapshot _ => true
  | .unitSelftest _ => true
  | .memoryTest _ => true
  | .alarmConditionAbsent _ => true
  | .vbatLost => true
  | .backupDomainFirstPowered => true
  | .cardSilent => true

end Sys2Proof
end

