-- ==== Sys2Proof/Safety.lean ====
section
/-! DEFINITION. What holds along a run, in the terms the statements use: the form of the memories and of the cores, what OTP never takes
back, the parts of the state. -/
namespace Sys2Proof.Machine

/-- Both byte memories are in canonical form: the SRAM over 0, the flash over 0xFF (erased). -/
def Memory.wf (s : State) : Bool := cellsWf 0 s.warden.sram && cellsWf 0xFF s.flash.cells

/-- What is fused stays, and OTP bits that the field burns stay burned (R99, R581, R582). -/
def State.keepsOtp (s t : State) : Prop :=
  t.fuses = s.fuses ∧ (s.otp.retire = true → t.otp.retire = true) ∧ s.otp.evidence ≤ t.otp.evidence

/-- Every Warden core holds its 16 general registers. -/
def State.coresWf (s : State) : Prop :=
  s.warden.c0.regs.length = 16 ∧ s.warden.c1.regs.length = 16 ∧ s.warden.c2.regs.length = 16 ∧ s.warden.c3.regs.length = 16

/-- The parts of the state, by the chapter of the manual that describes them. -/
inductive Part where
  | fuses | dev | ports | cmdif | furrows | units | keytab | rng | cipher | pke | warden | flash | cistern | vault | cust | otp
  | backup | tamper | punty | regs | free
  deriving DecidableEq, Repr

/-- A part stands in `t` as in `s`. -/
def Unchanged (s t : State) : Part → Prop
  | .fuses => t.fuses = s.fuses
  | .dev => t.dev = s.dev
  | .ports => t.ports = s.ports
  | .cmdif => t.cmdif = s.cmdif
  | .furrows => t.furrows = s.furrows
  | .units => t.units = s.units
  | .keytab => t.keytab = s.keytab
  | .rng => t.rng = s.rng
  | .cipher => t.cipher = s.cipher
  | .pke => t.pke = s.pke
  | .warden => t.warden = s.warden
  | .flash => t.flash = s.flash
  | .cistern => t.cistern = s.cistern
  | .vault => t.vault = s.vault
  | .cust => t.cust = s.cust
  | .otp => t.otp = s.otp
  | .backup => t.backup = s.backup
  | .tamper => t.tamper = s.tamper
  | .punty => t.punty = s.punty
  | .regs => t.regs = s.regs
  | .free => t.free = s.free

end Sys2Proof.Machine
end

