-- ==== Sys2Proof/Certificates/Slice0/Obligations.lean ====
section
/-! DEFINITION. The statements about the E9, each a Prop, in the order of OBLIGATIONS.json. The names of namespace Stated say the
conditions that statements share. -/
namespace Sys2Proof.Stated
open Sys2Proof.Machine

/-! ### Conditions on a Warden core -/

/-- Core `n` fetches its next instruction at state `s` and stands at `s'` with it (R444, R488): it runs, the fetch is admitted, and any
`wait` is over. -/
def Fetches (n : Fin 4) (s s' : State) : Prop :=
  coreRuns n.val s = true ∧ ∃ u, fetchCheck n.val s = .ok () u ∧ s' = coreMod n.val (fun x => { x with waiting := false }) u

/-- The core as it stands before the instruction. -/
def before (n : Fin 4) (s : State) : Core := coreGet n.val s

/-- An instruction that goes on at the next address has completed: the program counter, the delay slot, the loop count, the count of
instructions and the budget of an applet (R437, R444, R447, R451, R462). -/
def completed (n : Fin 4) (k : Core) (s : State) : State :=
  charge n.val k (coreMod n.val (fun x => { x with pc := (nextPc k).1, slot := none, lc := (nextPc k).2 }) s)

/-- As `completed`, for an instruction that has written `LC` itself. -/
def completedLc (n : Fin 4) (k : Core) (s : State) : State :=
  charge n.val k (coreMod n.val (fun x => { x with pc := (nextPc k).1, slot := none }) s)

/-- A branch to `target` has completed: the next instruction stands in its delay slot (R447). -/
def branched (n : Fin 4) (k : Core) (target : Word) (s : State) : State :=
  charge n.val k (coreMod n.val (fun x => { x with pc := k.pc + 4, slot := some (k.pc, target) }) s)

/-- An instruction that may stand in a delay slot is not misplaced (R449, R452). -/
abbrev Placed (n : Fin 4) (s : State) : Prop := placeIllegal false (before n s) = false

/-- A branch or loop instruction is not misplaced (R449, R452). -/
abbrev PlacedBranch (n : Fin 4) (s : State) : Prop := placeIllegal true (before n s) = false

end Sys2Proof.Stated

open Sys2Proof Sys2Proof.Machine Sys2Proof.Stated

/-! ## The block and its queue -/

/-- A step takes the command at the front of the queue and runs it with the queue's rest (log 1). -/
def Obligations.StepRunsTheFrontCommand : Prop :=
  ∀ (c : Instr) (rest : List Instr) (s : State),
    step { s with pending := c :: rest } = exec c { s with pending := rest }

/-- On an empty queue a step is one edge of the slow clock (log 1, the model's choice). With main power or a cell, on an edge that no
alarm, no record without a tally and no posted write waits for, the RTC counts one 32,768th of a second (R586), and nothing else of the
backup domain changes. -/
def Obligations.IdleStepTicksTheRtc : Prop :=
  (∀ s : State, s.pending = [] → step s = .next (tick s)) ∧
  ∀ s : State, (s.dev.mainOn = true ∨ s.backup.vbat = true) → s.dev.posted = [] → s.tamper.raised = [] → untallied s = [] →
    (tick s).backup = (if s.backup.rtcFrac + 1 < 2 ^ 15 then { s.backup with rtcFrac := s.backup.rtcFrac + 1 }
      else { s.backup with rtcFrac := 0, rtcSec := (s.backup.rtcSec + 1) % 2 ^ 48 })

/-! ## Warden instructions -/

/-- Register arithmetic of R format computes what Table 13-6 gives and completes (R443, R445). -/
def Obligations.RegisterArithmeticCompletes : Prop :=
  ∀ (n : Fin 4) (rd rs1 rs2 : BitVec 4) (s s' : State), Fetches n s s' → Placed n s →
    let k := before n s
    let a := k.reg rs1
    let b := k.reg rs2
    let gives := fun (v : Word) => Host.Outcome.next (ρ := Refusal) (φ := Fault) (completed n k (putReg n.val rd v s'))
    exec (.add n rd rs1 rs2 0) s = gives (a + b) ∧
    exec (.sub n rd rs1 rs2 0) s = gives (a - b) ∧
    exec (.and n rd rs1 rs2 0) s = gives (a &&& b) ∧
    exec (.or n rd rs1 rs2 0) s = gives (a ||| b) ∧
    exec (.xor n rd rs1 rs2 0) s = gives (a ^^^ b) ∧
    exec (.shl n rd rs1 rs2 0) s = gives (a <<< (b.toNat % 32)) ∧
    exec (.shr n rd rs1 rs2 0) s = gives (a >>> (b.toNat % 32)) ∧
    exec (.sar n rd rs1 rs2 0) s = gives (a.sshiftRight (b.toNat % 32)) ∧
    exec (.rotr n rd rs1 rs2 0) s = gives (a.rotateRight (b.toNat % 32)) ∧
    exec (.cmplt n rd rs1 rs2 0) s = gives (flag (a.slt b)) ∧
    exec (.cmpltu n rd rs1 rs2 0) s = gives (flag (a.ult b)) ∧
    exec (.mul n rd rs1 rs2 0) s = gives (a * b) ∧
    exec (.mulhi n rd rs1 rs2 0) s = gives (BitVec.ofInt 32 (a.toInt * b.toInt / 2 ^ 32)) ∧
    exec (.mulhiu n rd rs1 rs2 0) s = gives (BitVec.ofNat 32 (a.toNat * b.toNat / 2 ^ 32)) ∧
    exec (.div n rd rs1 rs2 0) s = gives (divS a b) ∧
    exec (.divu n rd rs1 rs2 0) s = gives (divU a b) ∧
    exec (.mod n rd rs1 rs2 0) s = gives (modS a b) ∧
    exec (.modu n rd rs1 rs2 0) s = gives (modU a b)

/-- Immediate arithmetic computes what Table 13-6 gives and completes; the shift counts and `upk` take the immediates R443 allows them. -/
def Obligations.ImmediateArithmeticCompletes : Prop :=
  ∀ (n : Fin 4) (rd rs1 : BitVec 4) (imm : BitVec 18) (s s' : State), Fetches n s s' → Placed n s →
    let k := before n s
    let a := k.reg rs1
    let gives := fun (v : Word) => Host.Outcome.next (ρ := Refusal) (φ := Fault) (completed n k (putReg n.val rd v s'))
    exec (.addk n rd rs1 imm) s = gives (a + imm.signExtend 32) ∧
    exec (.andk n rd rs1 imm) s = gives (a &&& imm.setWidth 32) ∧
    exec (.ork n rd rs1 imm) s = gives (a ||| imm.setWidth 32) ∧
    exec (.xork n rd rs1 imm) s = gives (a ^^^ imm.setWidth 32) ∧
    exec (.cmpltk n rd rs1 imm) s = gives (flag (a.slt (imm.signExtend 32))) ∧
    exec (.cmpltuk n rd rs1 imm) s = gives (flag (a.ult (imm.setWidth 32))) ∧
    (imm.toNat < 32 →
      exec (.shlk n rd rs1 imm) s = gives (a <<< imm.toNat) ∧
      exec (.shrk n rd rs1 imm) s = gives (a >>> imm.toNat) ∧
      exec (.sark n rd rs1 imm) s = gives (a.sshiftRight imm.toNat)) ∧
    (rs1 = 0 → imm.toNat < 2 ^ 14 → exec (.upk n rd rs1 imm) s = gives (imm.setWidth 32 <<< 18))

/-- A load from SRAM that its checks admit reads the addressed bytes, least significant first, and widens them as Table 13-6 says
(R443, R444, R488). -/
def Obligations.LoadsFromSramComplete : Prop :=
  ∀ (n : Fin 4) (rd rs1 : BitVec 4) (imm : BitVec 18) (s s' : State), Fetches n s s' → Placed n s →
    let k := before n s
    let a := (k.reg rs1 + imm.signExtend 32).toNat
    let admits := fun (size : Nat) => dataCheck k .load a size s' = (none, none) ∧ inSram a = true
    let gives := fun (v : Word) => Host.Outcome.next (ρ := Refusal) (φ := Fault) (completed n k (putReg n.val rd v s'))
    let bytes := fun (size : Nat) => leNat (sramRead a size s')
    (admits 4 → exec (.ldw n rd rs1 imm) s = gives (BitVec.ofNat 32 (bytes 4))) ∧
    (admits 2 → exec (.ldh n rd rs1 imm) s = gives ((BitVec.ofNat 16 (bytes 2)).signExtend 32) ∧
      exec (.ldhu n rd rs1 imm) s = gives (BitVec.ofNat 32 (bytes 2))) ∧
    (admits 1 → exec (.ldb n rd rs1 imm) s = gives ((BitVec.ofNat 8 (bytes 1)).signExtend 32) ∧
      exec (.ldbu n rd rs1 imm) s = gives (BitVec.ofNat 32 (bytes 1)))

/-- A store to SRAM that its checks admit and no bus fault refuses writes the low bytes of its register, least significant first, at the
address it computes, and nothing else of the SRAM: every byte outside reads as before. One that a granule's colour or a bus fault refuses
completes too, writes nothing and is noted for `LATE_WRITE`; one to the CSR window writes there (R443, R446, R488, R491, R496). -/
def Obligations.StoresToSramComplete : Prop :=
  ∀ (n : Fin 4) (rs2 rs1 : BitVec 4) (imm : BitVec 18) (s s' : State), Fetches n s s' → Placed n s →
    let k := before n s
    let a := (k.reg rs1 + imm.signExtend 32).toNat
    let admits := fun (size : Nat) => dataCheck k .store a size s' = (none, none) ∧ inSram a = true
    let gives := fun (size : Nat) =>
      Host.Outcome.next (ρ := Refusal) (φ := Fault) (completed n k (sramWrite a (le size (k.reg rs2).toNat) s'))
    (admits 4 → exec (.stw n rs2 rs1 imm false) s = gives 4) ∧
    (admits 2 → exec (.sth n rs2 rs1 imm false) s = gives 2) ∧
    (admits 1 → exec (.stb n rs2 rs1 imm false) s = gives 1) ∧
    (let late := fun (region : Nat) =>
       Host.Outcome.next (ρ := Refusal) (φ := Fault) (completed n k (addLate n.val (lateTval a false false region) s'))
     (∀ region bus,
       (dataCheck k .store a 4 s' = (none, some region) → exec (.stw n rs2 rs1 imm bus) s = late region) ∧
       (dataCheck k .store a 2 s' = (none, some region) → exec (.sth n rs2 rs1 imm bus) s = late region) ∧
       (dataCheck k .store a 1 s' = (none, some region) → exec (.stb n rs2 rs1 imm bus) s = late region)) ∧
     (admits 4 → exec (.stw n rs2 rs1 imm true) s = late 15) ∧
     (admits 2 → exec (.sth n rs2 rs1 imm true) s = late 15) ∧
     (admits 1 → exec (.stb n rs2 rs1 imm true) s = late 15)) ∧
    (∀ bus, dataCheck k .store a 4 s' = (none, none) → inWindow a = true → exec (.stw n rs2 rs1 imm bus) s =
      .next (completed n k (spaceWrite32 (.core n) none (a % 0x20000000) (k.reg rs2) s'))) ∧
    ∀ (size : Nat) (x : Nat), cellsWf 0 s'.warden.sram = true → (x < a ∨ a + size ≤ x) →
      cellGet 0 x (completed n k (sramWrite a (le size (k.reg rs2).toNat) s')).warden.sram = cellGet 0 x s'.warden.sram

/-- `atswap` and `atadd` read the word at the address in rs1, write rs2 or the sum there, and give the old word (R446). -/
def Obligations.AtomicsComplete : Prop :=
  ∀ (n : Fin 4) (rd rs1 rs2 : BitVec 4) (s s' : State), Fetches n s s' → Placed n s →
    let k := before n s
    let a := (k.reg rs1).toNat
    let old := BitVec.ofNat 32 (leNat (sramRead a 4 s'))
    let gives := fun (v : Word) =>
      Host.Outcome.next (ρ := Refusal) (φ := Fault) (completed n k (putReg n.val rd old (sramWrite a (le 4 v.toNat) s')))
    dataCheck k .atomic a 4 s' = (none, none) →
      exec (.atswap n rd rs1 rs2 0) s = gives (k.reg rs2) ∧ exec (.atadd n rd rs1 rs2 0) s = gives (old + k.reg rs2)

/-- Branches, jumps and calls put their target after the delay slot; a branch not taken goes on behind it; `call` and `callr` write
PC + 8 (R447, R448). -/
def Obligations.BranchesComplete : Prop :=
  ∀ (n : Fin 4) (rs1 rs2 rd : BitVec 4) (off : BitVec 18) (far : BitVec 26) (s s' : State), Fetches n s s' → PlacedBranch n s →
    let k := before n s
    let a := k.reg rs1
    let b := k.reg rs2
    let goes := fun (c : Bool) => Host.Outcome.next (ρ := Refusal) (φ := Fault)
      (branched n k (if c then k.pc + 4 * off.signExtend 32 else k.pc + 8) s')
    exec (.breq n rs1 rs2 off) s = goes (a == b) ∧
    exec (.brne n rs1 rs2 off) s = goes (a != b) ∧
    exec (.brlt n rs1 rs2 off) s = goes (a.slt b) ∧
    exec (.brge n rs1 rs2 off) s = goes (!a.slt b) ∧
    exec (.brltu n rs1 rs2 off) s = goes (a.ult b) ∧
    exec (.brgeu n rs1 rs2 off) s = goes (!a.ult b) ∧
    exec (.jmp n far) s = .next (branched n k (k.pc + 4 * far.signExtend 32) s') ∧
    exec (.call n far) s = .next (branched n k (k.pc + 4 * far.signExtend 32) (putReg n.val 15 (k.pc + 8) s')) ∧
    (rd ≠ rs1 ∨ rd = 0 → exec (.callr n rd rs1 off) s =
      .next (branched n k ((a + off.signExtend 32) &&& 0xFFFFFFFC) (putReg n.val rd (k.pc + 8) s')))

/-- `loop` and `loopi` set `LS`, `LE` and `LC`; a count of 0 skips the loop at once (R450). The offset is read as a signed number that
must be positive (log 47, the model's reading). -/
def Obligations.HardwareLoopsStart : Prop :=
  ∀ (n : Fin 4) (rs1 : BitVec 4) (count : BitVec 12) (off : BitVec 14) (s s' : State), Fetches n s s' → PlacedBranch n s →
    (before n s).lc = 0 → off ≠ 0 → off.msb = false →
    let k := before n s
    let e := k.pc + 4 * off.signExtend 32
    let starts := fun (c : Word) =>
      let t := coreMod n.val (fun x => { x with ls := k.pc + 4, le := e, lc := c }) s'
      Host.Outcome.next (ρ := Refusal) (φ := Fault)
        (if c = 0 then charge n.val k (coreMod n.val (fun x => { x with pc := e + 4, slot := none }) t) else completedLc n k t)
    exec (.loop n 0 rs1 0 off) s = starts (k.reg rs1) ∧ exec (.loopi n count off) s = starts (count.setWidth 32)

/-- `rdcr` reads a core CSR of Table 13-2 at a level that may read it; `wrcr`, `setcr` and `clrcr` give the old value and write rs1, its
union or its difference, masked to the bits that hold a value, where R441, R469 and R495 refuse nothing and no refused store waits; a
write of a read-only CSR only reads; a write of `SWINT` raises software interrupts (R440, R442, R484). -/
def Obligations.CoreCsrInstructionsComplete : Prop :=
  ∀ (n : Fin 4) (rd rs1 : BitVec 4) (csr : BitVec 12) (s s' : State) (r w : Nat) (ro : Bool), Fetches n s s' → Placed n s →
    let c := csr.toNat
    ccsrAccess c = some (r, w, ro) →
    let k := before n s
    let t := ccsrTouch n.val c s'
    let x := coreGet n.val t
    let old := ccsrOld n.val c x t.warden.tick
    (r ≤ k.level → exec (.rdcr n rd rs1 0 csr) s = .next (completed n k (ccsrRelease n.val c (putReg n.val rd old t)))) ∧
    ∀ v : Word → Word → Word,
      let new := v old (x.reg rs1) &&& ccsrMask c
      let stored := if ro then t else if c = 0x2A then swint new t else coreMod n.val (ccsrPut c new) t
      let writes := Host.Outcome.next (ρ := Refusal) (φ := Fault)
        ((if c = 8 then completedLc else completed) n k (ccsrRelease n.val c (putReg n.val rd old stored)))
      max r w ≤ k.level → (ro = false → ccsrRefused c new x t.warden.tick = false ∧ (ccsrWaits c new x = false ∨ storeLate x = none)) →
      (v = (fun _ b => b) → exec (.wrcr n rd rs1 0 csr) s = writes) ∧
      (v = (fun o b => o ||| b) → exec (.setcr n rd rs1 0 csr) s = writes) ∧
      (v = (fun o b => o &&& ~~~b) → exec (.clrcr n rd rs1 0 csr) s = writes)

/-- `xret`, `trap`, `wait`, `sync`, `tagw` and `tagr` where no refused store waits to be reported: the return restores level, mask and
loop state, the trap enters its handler with code 9, `wait` stops the core, `tagw` and `tagr` write and read a line's colour
(R444, R446, R474, R479, R492). -/
def Obligations.SystemInstructionsComplete : Prop :=
  ∀ (n : Fin 4) (rd rs1 rs2 : BitVec 4) (imm : BitVec 16) (s s' : State), Fetches n s s' →
    let k := before n s
    storeLate k = none → storeLate (coreGet n.val s') = none →
    (PlacedBranch n s → k.level ≠ 0 → k.prevLevel ≤ k.level → k.prevLevel ≤ k.pceil.toNat →
      exec (.xret n 0) s = .next (charge n.val k (coreMod n.val (fun x => { x with
        status := statusOf (x.epc.getLsbD 0) k.prevLevel k.prevLevel
        lc := x.slc, ls := x.sls, le := x.sle, pc := x.epc &&& 0xFFFFFFFC }) s'))) ∧
    (PlacedBranch n s → exec (.trap n 0 imm) s = .next (takeTrap n.val 9 (imm.setWidth 32) false (k.pc + 4) s')) ∧
    (Placed n s → k.level ≠ 0 →
      exec (.wait n 0) s = .next (completed n k (coreMod n.val (fun x => { x with waiting := true }) s'))) ∧
    (Placed n s → exec (.sync n 0) s = .next (completed n k s')) ∧
    (Placed n s → k.level ≠ 0 → inSram (k.reg rs1).toNat = true →
      exec (.tagw n 0 rs1 rs2 0) s = .next (completed n k (setColour (k.reg rs1).toNat ((k.reg rs2).toNat % 16) s')) ∧
      exec (.tagr n rd rs1 0) s = .next (completed n k (putReg n.val rd (BitVec.ofNat 32 (lineColour (k.reg rs1).toNat s')) s')))

/-- At a boundary, a refused access is reported by `LATE_WRITE`; a pending enabled interrupt is taken while nothing masks it; a DMA
transfer ends with its done interrupt pending and, without a refusal, its bytes in SRAM (R472, R494, R496, R498). -/
def Obligations.CoreBoundariesComplete : Prop :=
  ∀ (n : Fin 4) (s : State),
    let k := coreGet n.val s
    (∀ t rest, boundary n.val s = true → k.late = t :: rest →
      exec (.lateWrite n) s = .next (takeTrap n.val 7 t false k.pc
        (coreMod n.val (fun x => { x with late := (x.late.erase t).filter (·.getLsbD 5) }) s))) ∧
    (∀ i, s.dev.mainOn = true → boundary n.val s = true → k.masked = false → k.late = [] →
      firstIrq (ipendOf k s.warden.tick &&& k.ien) = some i →
      exec (.interrupt n none) s = .next (takeTrap n.val (0x10 + i) 0 false k.pc
        (coreMod n.val (fun x => { x with ipend := x.ipend &&& ~~~((1 : BitVec 16) <<< i) }) s))) ∧
    (∀ (a : Word) (bytes : List Byte), s.dev.mainOn = true → coreServes n.val s = true → k.mpuctl.getLsbD 1 = false →
      a.toNat % 64 + bytes.length ≤ 64 → bytes ≠ [] → inSram a.toNat = true → inFlash a.toNat = false →
      exec (.dmaDone n a (some bytes) 0) s =
        .next (coreMod n.val (fun x => { x with ipend := x.ipend ||| 8 }) (sramWrite a.toNat bytes s)))

/-- A service that firmware is due to give an applet: core `n` stands in the handler of `trap` number `m`, for invocation `i`. -/
abbrev Sys2Proof.Stated.Calls (n : Fin 4) (m : Nat) (i : Invocation) (s : State) : Prop := svcDue n.val m s = some i

/-- The services of Table 13-12 that need no wait: `EXIT` ends the invocation; `TIME` gives the RTC; `PSTORE_READ` copies from the
applet's store into its frame; `LOG` writes an audit record; `RANDOM` gives KEY-class bytes; a spent budget ends the invocation
(R462, R465, R467). -/
def Obligations.AppletServicesComplete : Prop :=
  ∀ (n : Fin 4) (i : Invocation) (s : State), i.seg = none →
    let s' := bump 0xA114 1 s
    let k := coreGet n.val s'
    let a := (k.reg 1).toNat
    let b := (k.reg 2).toNat
    let d := (k.reg 3).toNat
    (Calls n 0 i s → exec (.exit n) s =
      .next (endInv n.val (.exit (k.reg 1) (k.reg 2) (le 4 (k.reg 3).toNat ++ le 4 (k.reg 4).toNat)) s')) ∧
    (Calls n 3 i s → exec (.time n) s = .next (svcReturn n.val .ok (some (BitVec.ofNat 32 s.backup.rtcSec))
      (some (BitVec.ofNat 32 (s.backup.rtcSec / 2 ^ 32 % 65536))) (some (BitVec.ofNat 32 s.backup.rtcFrac)) s')) ∧
    (Calls n 4 i s → pstoreBusy n.val i.applet s' = false → b + d ≤ 4096 → inFrame i a d = true →
      exec (.pstoreRead n) s = .next (svcReturn n.val .ok (some (BitVec.ofNat 32 (pstoreOf i.applet s').1)) none none
        (sramWrite a (bytesAt (pstoreOf i.applet s').2 b d) s'))) ∧
    (Calls n 6 i s → 1 ≤ b → b ≤ 64 → inFrame i a b = true → auditSpace s' = true →
      exec (.log n) s = .next (svcReturn n.val .ok none none none
        (auditRec 7 (((cmdGet i.cmd s').map (·.furrow)).getD 0) 0 0 0 0 0 0 [] (sramRead a b s') s'))) ∧
    (∀ bytes u, Calls n 2 i s → Calls n 2 i u → 1 ≤ arg n.val 2 s → arg n.val 2 s ≤ 4096 → inFrame i (arg n.val 1 s) (arg n.val 2 s) = true →
      drawKey (arg n.val 2 s) [] s = .ok bytes u →
      exec (.random n) s = .next (svcReturn n.val .ok none none none (sramWrite (arg n.val 1 s) bytes (bump 0xA114 1 u)))) ∧
    ((coreGet n.val s).inv = some i → s.dev.mainOn = true → coreServes n.val s = true → i.budget = 0 →
      (coreGet n.val s).level = 0 →
      exec (.appletBudget n) s = .next (coreMod n.val (fun x =>
        { x with status := statusOf true 0 1, pc := x.stvec, slot := none, lc := 0 }) (endInv n.val .budget s)))

/-- `CALL` puts the command of the applet's frame in flight for the furrow and queue of the command that invoked the applet, and notes
that the invocation waits for it; `PSTORE_WRITE` puts the new contents into an archive segment, waits for it, and then returns the
generation it has written (R466, R467). -/
def Obligations.WaitingServicesComplete : Prop :=
  ∀ (n : Fin 4) (i : Invocation) (s : State),
    let s' := bump 0xA114 1 s
    let a := arg n.val 1 s'
    let b := arg n.val 2 s'
    let d := arg n.val 3 s'
    (∀ (p : Cmd), Calls n 1 i s → i.seg = none → cmdGet i.cmd s' = some p → i.hook = false → inFrame i a 64 = true →
      inFrame i b 32 = true →
      let c := calledCmd n.val i p (sramRead a 64 s') s'
      ((2 ≤ c.cls ∧ c.cls ≤ 5) ∨ c.opcode = 0x1006) → c.flags &&& 0xFB = 0 → dispatchStatus c c.mode s' = none →
      callParts i c = true →
      exec (.serviceCall n) s = .next (
        let t := coreMod n.val (fun x => { x with inv := x.inv.map fun i => { i with call := some (c.id, b) } }) s'
        t.modCmdif fun f => { f with
          cmds := f.cmds ++ [{ c with
            data := sramRead c.src.toNat c.srcLen t
            block := if ((opSpec c.opcode.toNat).block c).isSome then sramRead c.blockAddr c.blockLen t else [] }]
          nextId := f.nextId + 1 })) ∧
    (Calls n 5 i s → i.seg = none → i.hook = false → pstoreBusy n.val i.applet s' = false → b + d ≤ 4096 → inFrame i a d = true →
      arg n.val 4 s' = (pstoreOf i.applet s').1 → vaultAccepts s' = true →
      let r := archiveSync .archive (.pstore i.applet ((pstoreOf i.applet s').1 + 1)
        ((pstoreOf i.applet s').2.take b ++ sramRead a d s' ++ (pstoreOf i.applet s').2.drop (b + d))) s'
      exec (.pstoreWrite n) s = .next (setSeg n.val (some r.1) r.2)) ∧
    (∀ seg, Calls n 5 i s → i.seg = some seg → indeterminate seg s = false → durable seg s = true →
      exec (.pstoreWrite n) s = .next (svcReturn n.val .ok (some (BitVec.ofNat 32 (arg n.val 4 s + 1))) none none (setSeg n.val none s)))

/-! ## Registers -/

/-- An access of `r` reaches the CSR space now: no earlier read of `RNG_DATA` by `r` still waits (R49, R389). -/
abbrev Sys2Proof.Stated.Reaches (r : Requester) (s : State) : Prop := accessReaches r s = true ∧ rngWaits r s = false

/-- A 32-bit write of register `key` by `r` passes its checks (R6, R60 to R67, R87): the access arrives, the part has the register, the
mode takes the write, a change of guarded bits finds the Headgate held and the guard armed, a change of lockable bits the Headgate held
and the lock open. -/
abbrev Sys2Proof.Stated.Accepts (r : Requester) (key : Nat) (v : Word) (s : State) : Prop :=
  let t := rearm (key / 0x1000) s
  let diff := v ^^^ csrNow r key t
  Reaches r s ∧ writeBarred r key t = false ∧ unfitted key t = false ∧
  (diff &&& guardBits key ≠ 0 → passesGate r t = true ∧ guardArmed (key / 0x1000) s = true) ∧
  (diff &&& lockBits key ≠ 0 → passesGate r t = true ∧ locked key t = false)

/-- A write is dropped at the first check it fails, and only the error bit of that check is set: a width or alignment that the space
does not take, the Headgate, the guard or the lock; one that passes all of them takes effect (R67); a write of a register that the
part does not have is ignored (R6). -/
def Obligations.WritesAreCheckedInOrder : Prop :=
  ∀ (r : Requester) (addr : BitVec 21) (w : Width) (v : BitVec 64) (s : State),
    Reaches r s → addr.toNat < 0x100000 →
    let key := csrKey addr.toNat
    let x : Word := v.setWidth 32
    let armed := guardArmed (key / 0x1000) s
    let t := rearm (key / 0x1000) s
    writeBarred r key t = false →
    ((w = .b8 ∨ w = .b16 ∨ (w = .b32 ∧ addr.toNat % 4 ≠ 0) ∨ (w = .b64 ∧ addr.toNat % 8 ≠ 0)) →
      exec (.csrWrite r none addr w v) s = .next (devErr 2 r t)) ∧
    (w = .b32 → addr.toNat % 4 = 0 → unfitted key t = true → exec (.csrWrite r none addr w v) s = .next t) ∧
    (w = .b32 → addr.toNat % 4 = 0 → key % 0x1000 ≠ 0xFFC → unfitted key t = false →
      let diff := x ^^^ csrNow r key t
      let guarded := diff &&& guardBits key ≠ 0
      let lockable := diff &&& lockBits key ≠ 0
      ((guarded ∨ lockable) → passesGate r t = false → exec (.csrWrite r none addr w v) s = .next (devErr 4 r t)) ∧
      (passesGate r t = true → guarded → armed = false → exec (.csrWrite r none addr w v) s = .next (devErr 0 r t)) ∧
      (passesGate r t = true → (guarded → armed = true) → lockable → locked key t = true →
        exec (.csrWrite r none addr w v) s = .next (devErr 1 r t)) ∧
      (Accepts r key x s → exec (.csrWrite r none addr w v) s = .next (csrEffect r key x t)))

/-- A write of 0x51C3_E000 or the block number to a block's unlock register arms that block's guard; any other value leaves it locked
and sets `DEVICE_ERR.UNLOCK_BAD` (R62). -/
def Obligations.UnlockArmsTheGuard : Prop :=
  ∀ (r : Requester) (blk : Fin 16) (v : Word) (s : State), Reaches r s →
    writeBarred r (blk.val * 0x1000 + 0xFFC) s = false →
    (v = 0x51C3E000 + BitVec.ofNat 32 blk.val → exec (.blkUnlock r blk v) s =
        .next (s.modDev fun d => { d with armed := d.armed ||| ((1 : BitVec 16) <<< blk.val) })) ∧
    (v ≠ 0x51C3E000 + BitVec.ofNat 32 blk.val → exec (.blkUnlock r blk v) s =
        .next (devErr 5 r (s.modDev fun d => { d with armed := d.armed &&& ~~~((1 : BitVec 16) <<< blk.val) })))

/-- A read of the lowest word of a 64-bit value answers it and latches the higher word for that requester alone; its next read of the
higher word answers the latched word and drops the latch, and without a latch answers what the register reads now (R74, R75). -/
def Obligations.WideValuesLatch : Prop :=
  ∀ (r : Requester) (addr : BitVec 21) (s : State),
    Reaches r s → readBarred r addr.toNat s = false → addr.toNat % 4 = 0 → addr.toNat < 0x100000 →
    let key := csrKey addr.toNat
    (wideHighs key = [key + 4] → wideTop key = [] → latched r key s = none → key ≠ 0x8020 → key ≠ 0x8180 → key ≠ 0x8184 →
      exec (.wideValueLatch r none addr .b32) s =
        .next (answer r key 4 0 ((csrNow r key s).setWidth 64) (latch r [key + 4] s)) ∧
      latched r (key + 4) (latch r [key + 4] s) = some (csrNow r (key + 4) s) ∧
      ∀ q, q ≠ r → latched q (key + 4) (latch r [key + 4] s) = latched q (key + 4) s) ∧
    (wideTop key = [key] → wideHighs key = [] → key ≠ 0x8020 → key ≠ 0x8180 → key ≠ 0x8184 →
      exec (.wideValueLatch r none addr .b32) s =
        .next (answer r key 4 0 (((latched r key s).getD (csrNow r key s)).setWidth 64) (unlatch r [key] s)))

/-- Reads of the noise block, where no earlier read of `RNG_DATA` by the requester waits: `RNG_x_EST0` latches the four other estimate
words; `RNG_DATA` gives the requester's next one or two words, the first in the low half: those its buffer holds, or else those of the
next 32 bytes of the KEY class; a raw word answers a Warden read at M level in BLANK and is 0 for any other requester (R371, R373,
R388). -/
def Obligations.NoiseReadsComplete : Prop :=
  ∀ (r : Requester) (x : Side) (raw : Word) (s : State), Reaches r s → readBarred r 0x80020 s = false →
    let k := reqCode r
    let open_ := s.rng.stopped = false ∧ (isHost r && class5Forbidden s.dev.mode) = false ∧ keyReady s = true
    let left := fun (ws : List Word) (u : State) => u.modRng fun g => { g with bufs := assocSet k (some ws) g.bufs }
    let est := match x with
      | .a => 0x8044
      | .b => 0x8064
    (latched r est s = none → exec (.estLatch r x) s =
      .next (answer r est 4 0 ((csrNow r est s).setWidth 64) (latch r [est + 4, est + 8, est + 12, est + 16] s))) ∧
    (∀ w ws, open_ → assocGet k s.rng.bufs = some (w :: ws) →
      exec (.rngData r false) s = .next (answer r 0x8020 4 0 (w.setWidth 64) (left ws s))) ∧
    (∀ bytes u, open_ → assocGet k s.rng.bufs = none → drawKey 32 [] s = .ok bytes u →
      let ws := (chunks 4 bytes).map fun b => BitVec.ofNat 32 (leNat b)
      exec (.rngData r false) s = .next (answer r 0x8020 4 0 ((ws.headD 0).setWidth 64) (left (ws.drop 1) u))) ∧
    (∀ w u h t, rngWord r s = .ok w u → rngWord r u = .ok h t →
      exec (.rngData r true) s = .next (answer r 0x8020 8 0 (h ++ w) t)) ∧
    exec (.rngRawRead r x raw) s = .next (answer r (match x with
      | .a => 0x8180
      | .b => 0x8184) 4 0 (if rawAnswers r s then raw.setWidth 64 else 0) s)

/-- The rows that are a write of one register, when the write passes its checks: an event ring is enabled, disabled or given a new head;
a host port or a mesh port trains anew or is held down; the admin queue is made or is disabled; a key slot is loaded from the
requester's staging registers or cleared, and the staging registers are cleared; an engine aborts what has not begun and drains, or is
released; the KEY class moves to the preferred source; `RNG_MASK_FAILS` clears; a slot is released; `TAMPER_LEVEL0` waits for its second
edge. A posted write with one edge to come lands at that edge: with nothing else waiting for the edge, the register takes its value,
the copies show it and `PEND` is 0 (R45, R69, R70, R141, R152, R187, R276, R339, R345, R366, R379, R380, R397, R546). -/
def Obligations.RegisterRowsComplete : Prop :=
  ∀ (r : Requester) (x : Port) (m : Fin 4) (d : Fin 2) (q : SlowReg) (v : Word) (s : State),
    let at_ := fun (key : Nat) => rearm (key / 0x1000) s
    let on := v ||| 0x80000000
    let off := v &&& 0x7FFFFFFF
    let drains := fun (n : BitVec 3) (t : State) => t.modDev fun d => { d with drains := d.drains ||| n }
    let ends := fun (n : BitVec 3) (t : State) => t.modDev fun d => { d with drains := d.drains &&& ~~~n }
    (Accepts r (evtKey x + 8) v s → r = .host x →
      (v.getLsbD 31 = true → (s.port x).ring.en = false → 6 ≤ fieldOf v 23 20 → fieldOf v 23 20 ≤ 15 →
        exec (.portXEvtCtl r x v) s = .next (pump x ((at_ 0x1000).modRing x fun g => { g with
          en := true, irqEn := v.getLsbD 30, sizeLog2 := fieldOf v 23 20, head := 0, tail := 0, lost := 0, phase := true }))) ∧
      (v.getLsbD 31 = false → (s.port x).ring.en = true →
        exec (.portXEvtCtl r x v) s = .next ((at_ 0x1000).modRing x fun g => { g with en := false, irqEn := v.getLsbD 30 }))) ∧
    (let g := (s.port x).ring
     let n := 2 ^ g.sizeLog2
     let i := fieldOf v 15 0
     Accepts r (evtKey x + 0xC) v s → r = .host x → i < n → (i + n - g.head) % n ≤ (g.tail + n - g.head) % n →
      exec (.portXEvtHead r x v) s = .next (pump x ((at_ 0x1000).modRing x fun g => { g with head := i }))) ∧
    (Accepts r (portCtlKey x) on s → on.getLsbD 30 = false →
      exec (.portRetrain r x v) s = .next ((regMask (portCtlKey x) 0x7C000000 on (at_ 0x1000)).modPort x fun q => { q with
        training := true, capWait := false, retrains := satAdd 8 q.retrains 1 })) ∧
    (Accepts r (portCtlKey x) off s →
      (off.getLsbD 30 = true →
        exec (.portDisable r x v) s = .next (portDown x (regMask (portCtlKey x) 0x7C000000 off (at_ 0x1000)))) ∧
      (off.getLsbD 30 = false → exec (.portDisable r x v) s = .next (regMask (portCtlKey x) 0x7C000000 off (at_ 0x1000)))) ∧
    (let sqk := fieldOf on 19 16
     let cqk := fieldOf on 23 20
     let cr := fieldOf on 11 0
     let home : Port := if on.getLsbD 30 then .b else .a
     let sq : Sq := ⟨0, 0, reg64 0x2010 s, sqk, 0, 16, cr, cr, 0, 0, true, 0, 0, [], [], [], false, false⟩
     let cq : Cq := ⟨0, 0, reg64 0x2018 s, cqk, home, home, 0, 0, 0, 0, false, 0, 0, true, 0, 0, 0⟩
     Accepts r 0x2020 on s → regBit 0x2020 31 s = false → 4 ≤ sqk → sqk ≤ 15 → 4 ≤ cqk → cqk ≤ 15 → 1 ≤ cr → cr ≤ s.cmdif.pool →
      reg64 0x2010 s % 64 = 0 → reg64 0x2018 s % 32 = 0 → sqGet 0 0 s = none →
      exec (.adminQueueEnable r v) s = .next ((regMask 0x2020 0xC0FF0FFF on (at_ 0x2000)).modCmdif fun c => { c with
        pool := c.pool - cr, sqs := sq :: c.sqs, cqs := cq :: c.cqs.filter fun q => !(q.furrow == 0 && q.n == 0) })) ∧
    (Accepts r 0x2020 off s → regBit 0x2020 31 s = true →
      exec (.adminQueueDisable r v) s = .next (disableSq 0 0 (regMask 0x2020 0x80000000 0 (at_ 0x2000)))) ∧
    (let load := (v &&& 0x3FFFFFFF) ||| 0x40000000
     let t := regMask 0x5060 0x3FFF0FFF load (at_ 0x5000)
     let n := fieldOf v 29 24
     let alg := fieldOf v 19 16
     Accepts r 0x5060 load s → 1 ≤ alg → alg ≤ 5 → fieldOf v 23 20 ≠ 0 → furrowState (fieldOf v 11 0) s ≠ .free →
      (kslotGet n s).seq ≠ 0xFFFFFFFF → s.tamper.respLevel < 3 →
      exec (.kslotLoad r v) s = .next (stagingClear r (kslotSet n
        ⟨true, alg, fieldOf v 23 20, fieldOf v 11 0, (kslotGet n s).seq + 1, (stagingBytes r s).take (algLen alg)⟩ t))) ∧
    (let clear := (v &&& 0x3FFFFFFF) ||| 0x80000000
     let n := fieldOf v 29 24
     Accepts r 0x5060 clear s → exec (.kslotClear r v) s =
      .next (stagingClear r (kslotSet n (kslotGet n s).emptied (regMask 0x5060 0x3FFF0FFF clear (at_ 0x5000))))) ∧
    (Accepts r 0x5004 v s →
      (v.getLsbD 0 = true → cipherDisabled s = false → exec (.cipherDisable r v) s =
        .next (finishAll (fun c => c.cls == 2 && !c.startedP) .abortedDisabled (drains 1 (regMask 0x5004 1 v (at_ 0x5000))))) ∧
      (v.getLsbD 0 = false → exec (.cipherDisable r v) s = .next (ends 1 (regMask 0x5004 1 v (at_ 0x5000))))) ∧
    (Accepts r 0x6004 v s →
      (v.getLsbD 0 = true → flumeDisabled s = false → exec (.flumeDisable r v) s =
        .next (finishAll (fun c => flumeCovers c && !c.startedP) .abortedDisabled (drains 2 (regMask 0x6004 1 v (at_ 0x6000))))) ∧
      (v.getLsbD 0 = false → exec (.flumeDisable r v) s = .next (ends 2 (regMask 0x6004 1 v (at_ 0x6000))))) ∧
    (Accepts r 0x7004 v s →
      (v.getLsbD 0 = true → pkeDisabled s = false → exec (.pkeDisable r v) s =
        .next (finishAll (fun c => c.cls == 4 && !c.startedP) .abortedDisabled (drains 4 (regMask 0x7004 1 v (at_ 0x7000))))) ∧
      (v.getLsbD 0 = false → exec (.pkeDisable r v) s = .next (ends 4 (regMask 0x7004 1 v (at_ 0x7000))))) ∧
    (let t := regMask 0x8004 1 v (at_ 0x8000)
     let p : Side := if v.getLsbD 0 then .b else .a
     Accepts r 0x8004 v s → v.getLsbD 0 ≠ regBit 0x8004 0 s →
      (s.rng.started = true → s.rng.stopped = false → (s.src p).st = .inService → s.rng.keySrc ≠ some p →
        exec (.keyPrefWrite r v) s = .next (moveKey p t)) ∧
      ((s.src p).st ≠ .inService → exec (.keyPrefWrite r v) s = .next t)) ∧
    (Accepts r 0x8080 on s → exec (.maskFailsClear r v) s = .next (regSet 0x8080 0 (at_ 0x8000))) ∧
    (let key := 0x9044 + 16 * m.val
     Accepts r key on s → on.getLsbD 30 = false → (on ^^^ meshCtl m.val s) &&& 0x4000000F = 0 → m.val < meshFitted s →
      meshRetired m.val s = false → meshDisabled m.val s = false → meshHeld m.val s = false →
      exec (.meshPortRetrain r m v) s =
        .next (meshTrain m.val (meshMod m.val (fun p => { p with fails := 0 }) (at_ 0x9000)))) ∧
    (let key := 0x9044 + 16 * m.val
     Accepts r key off s → off.getLsbD 30 = true → (off ^^^ meshCtl m.val s) &&& 0x4000000F ≠ 0 →
      exec (.meshPortDisable r m v) s = .next (meshDown m.val ((regMask key 0x4000000F off (at_ 0x9000)).modDev fun d =>
        { d with expert := insertNat key d.expert }))) ∧
    (let key := 0xC018 + 4 * d.val
     Accepts r key (v ||| 1) s → regBit key 0 s = false → (s.cart d.val).state ≠ .empty → currentSlots s ≠ [d.val] →
      exec (.slotRelease r d v) s = .next (releaseDue d.val (regSet key 1 (at_ 0xC000)))) ∧
    (Accepts r 0xE00C v s → pend 0xE00C s = false → exec (.tamperLevel0Write r v) s =
      .next ((at_ 0xE000).modDev fun d => { d with posted := d.posted ++ [⟨0xE00C, v &&& 0x7FFFFFFF, 2⟩] })) ∧
    (s.dev.mainOn = true → landsNext (slowKey q) s = true → exec (.postedWriteLand q) s = .next (tick s)) ∧
    (let u := (fetchesSettle 3 (fetchesSettle 2 (fetchesSettle 1 (fetchesSettle 0 (s.modBackup rtcTick))))).modDev fun d =>
      { d with posted := [] }
     s.dev.mainOn = true → s.dev.posted = [⟨slowKey q, v, 1⟩] → s.tamper.raised = [] → untallied s = [] →
      exec (.postedWriteLand q) s = .next (refreshSlow (land (slowKey q) v u)) ∧ pend (slowKey q) u = false)

/-! ## The Headgate and the host ports -/

/-- A command of the Headgate comes through port `p`: the device is powered, the port is up and no read of `RNG_DATA` through it waits. -/
abbrev Sys2Proof.Stated.Speaks (p : Port) (s : State) : Prop :=
  s.dev.mainOn = true ∧ (s.port p).up = true ∧ rngWaits (.host p) s = false

/-- The Headgate answers each command of a port as Table 4-7 gives; an expired lease and a lost link release it, to the waiting port
where there is one (R136, R138, R139). -/
def Obligations.HeadgateAnswersCommands : Prop :=
  ∀ (p : Port) (lease : BitVec 8) (s : State), Speaks p s →
    let t := rearm 1 s
    let h := s.ports.hg
    let q := otherPort p
    (h.owner = .free → exec (.claim p lease none) s = .next (hgChange (hgOf p) lease 0 t)) ∧
    (h.owner = hgOf p → exec (.claim p lease none) s = .next (t.modHg fun h => { h with lease := lease })) ∧
    (h.owner = hgOf q → exec (.claim p lease none) s =
      .next (postEvt (.own q) 0x1002 (wfield (portNum p) 0) 0 (t.modHg (hgSetWait p (some lease))))) ∧
    (∀ l, h.owner = hgOf p → hgWait q h = some l → exec (.release p) s = .next (hgChange (hgOf q) l 1 t)) ∧
    (h.owner = hgOf p → hgWait q h = none → exec (.release p) s = .next (hgChange .free 0 1 t)) ∧
    (h.owner ≠ hgOf p → exec (.release p) s = .next (portErr 2 t)) ∧
    ((hgWait p h).isSome → exec (.cancel p) s = .next (t.modHg (hgSetWait p none))) ∧
    (hgWait p h = none → exec (.cancel p) s = .next (portErr 2 t)) ∧
    (∀ l, h.owner = hgOf p → h.lease ≠ 0 → hgWait q h = some l → exec .leaseExpiry s = .next (hgChange (hgOf q) l 2 s)) ∧
    (h.owner = hgOf p → h.lease ≠ 0 → hgWait q h = none → exec .leaseExpiry s = .next (hgChange .free 0 2 s)) ∧
    (∀ l, h.owner = hgOf q → (s.port q).up = false → hgWait p h = some l →
      exec .headgateLinkLoss s = .next (hgChange (hgOf p) l 3 s)) ∧
    (h.owner = hgOf q → (s.port q).up = false → hgWait p h = none → exec .headgateLinkLoss s = .next (hgChange .free 0 3 s))

/-- When claims of both ports reach a free Headgate in the same cycle, the port named by `TIE_NEXT` wins, the other port's claim becomes
pending, and `TIE_NEXT` then names the losing port (R137). -/
def Obligations.HeadgateTieGoesToTieNext : Prop :=
  ∀ (p : Port) (lp lq : BitVec 8) (s : State), Speaks p s → Speaks (otherPort p) s → s.ports.hg.owner = .free →
    let w : Port := if s.ports.hg.tieNext then .b else .a
    let l := otherPort w
    let lease := fun (x : Port) => if x = p then lp else lq
    ∃ t, exec (.claim p lp (some lq)) s = .next t ∧
      t.ports.hg.owner = hgOf w ∧ t.ports.hg.lease = lease w ∧ t.ports.hg.tieNext = !s.ports.hg.tieNext ∧
      hgWait w t.ports.hg = none ∧ hgWait l t.ports.hg = some (lease l)

/-- A change of the Headgate's owner in one step: `GEN` counts, `CAUSE` and `OWNER` are set, the guard of every block locks, the new
owner's pending claim is gone, the change receives a tally, and `HEADGATE_CHANGE` with that tally goes to the ring of each port that is
up (R140). -/
def Obligations.HeadgateChangeIsOneStep : Prop :=
  ∀ (p : Port) (lease : BitVec 8) (s : State), Speaks p s → s.ports.hg.owner = .free →
    ∃ t, exec (.claim p lease none) s = .next t ∧
      t.ports.hg.gen = s.ports.hg.gen + 1 ∧ t.ports.hg.cause = 0 ∧ t.ports.hg.owner = hgOf p ∧ t.ports.hg.lease = lease ∧
      hgWait p t.ports.hg = none ∧ t.dev.armed = 0 ∧
      ∃ u : State, u.dev.tally = s.dev.nextTally ∧ u.dev.nextTally = s.dev.nextTally + 1 ∧ u.ports = { s.ports with hg := t.ports.hg } ∧
        let e : Evt := ⟨0x1001, hgChangeData t.ports.hg, 0, s.dev.nextTally⟩
        let v := if s.ports.a.up then ringEvt .a e u else u
        t = if s.ports.b.up then ringEvt .b e v else v

/-- Link training, the capability exchange, replay, flushes and port loss where each is due (R125 to R127, R130, R131, R145, R149 to
R152). An intact flit in its turn gives its acknowledgement and credits, and a DATA flit its packets; a damaged flit or one out of turn is
answered with a `NAK` and has no other effect, but that a damaged one is counted. -/
def Obligations.PortEventsComplete : Prop :=
  ∀ (p : Port) (s : State),
    let q := s.port p
    (∀ trains partner r, q.training = true →
      bestRate trains (min (rateCap (fieldOf (regGet (portCtlKey p) s) 29 27)) (rateCap ((partner.toNat >>> 10) % 8))) = some r →
      exec (.linkTrainingDone p trains partner 0 0) s = .next (s.modPort p fun q => { q with
        training := false, capWait := true, rate := BitVec.ofNat 3 r, x32 := false, repTx := 0, repRx := 0 })) ∧
    (∀ cap : BitVec 16, q.capWait = true → q.up = false → cap.getLsbD 15 = true → cap.getLsbD 14 = true → cap.getLsbD 13 = true →
      exec (.e9CapRsp p cap) s = .next (surveyUcie p true (portUp p (s.modPort p fun q => { q with cap := cap })))) ∧
    (q.capWait = true → exec (.e9CapTimeout p) s = .next (surveyUcie p false (portDown p s))) ∧
    (s.dev.mainOn = true → q.up = false → q.training = false → portDisabled p s = false →
      exec (.trainingRequest p) s = .next (s.modPort p fun q => { q with
        training := true, capWait := false, retrains := satAdd 8 q.retrains 1 })) ∧
    (q.up = true → exec (.portDown p) s = .next (portDown p s)) ∧
    (q.up = true → q.training = false → q.replay ≠ [] → portDisabled p s = false →
      exec (.replayTimeout p) s = .next (s.modPort p fun q => { q with
        training := true, capWait := false, retrains := satAdd 8 q.retrains 1 })) ∧
    (q.up = true → q.training = true → q.attempts = 2 → exec (.replayTimeout p) s = .next (portDown p s)) ∧
    (q.up = true → q.unflushed ≠ [] → exec (.flushTimeout p) s = .next (startTrain p (portErr 0 s))) ∧
    (∀ flit : List Byte, q.up = true → q.training = false →
      let h := flitHdr flit
      let taken := fun (rxq : List Byte) (u : State) => u.modPort p fun q => sendFlits { q.acked h.ack with
        rxSeq := h.seq, nakDue := false, crdHdr := q.crdHdr + h.hdr, crdData := q.crdData + h.data, rxq := rxq }
      (flitCrcOk flit = false →
        exec (.flitReceive p flit) s = .next (sendNak p (bump (if p = .a then 0x1100 else 0x1120) 1 s))) ∧
      (flitCrcOk flit = true → h.ftype = 1 → h.seq ≠ q.rxSeq + 1 → exec (.flitReceive p flit) s = .next (sendNak p s)) ∧
      (flitCrcOk flit = true → h.ftype = 1 → h.seq = q.rxSeq + 1 → h.nak = false →
        exec (.flitReceive p flit) s = .next (flitServe p (taken (q.rxq ++ flitPayload flit) s))) ∧
      (flitCrcOk flit = true → h.ftype = 0 → h.seq = q.rxSeq → h.nak = false →
        exec (.flitReceive p flit) s = .next (taken q.rxq (bump (if p = .a then 0x1108 else 0x1128) 1 s)))) ∧
    (∀ n, q.up = true → exec (.flushAck p n) s = .next (sendAnswers (s.modPort p fun q => { q with unflushed := q.unflushed.drop n })))

/-! ## Queues and commands -/

/-- Command `id`, of opcode `code`, has passed its checks and has started; it stands as `c` (R45, R168 step 10). No record it uses waits
for its reload (R227), and the mask ports of the units it runs on deliver (R269, R335, R349). -/
abbrev Sys2Proof.Stated.Runs (id code : Nat) (c : Cmd) (s : State) : Prop :=
  cmdGet id s = some c ∧ c.opcode.toNat = code ∧ c.phase = .started ∧ keyReloads c s = false ∧ masksReady c s = true

/-- Commands, doorbells and queue events where each is due: a doorbell is recorded; an entry is fetched against a credit and a free
completion slot; an arrived entry is decoded; a command in its turn passes steps 1 to 5 and reads what it needs; a seal, a coalesced
interrupt, a drained queue, a home that returns, a lost link (R157, R160, R168, R174, R175, R181, R45, R155, R151). -/
def Obligations.QueueEventsComplete : Prop :=
  ∀ (p : Port) (q : BitVec 15) (v : Word) (f n k id : Nat) (s : State),
    let fq := q.toNat / 8
    let nq := q.toNat % 8
    let x := (v.toNat % 2 ^ 16)
    (∀ sq : Sq, Reaches (.host p) s → s.dev.mode ≠ .survey → s.dev.mode ≠ .retired → dbOpen fq s = true → sqGet fq nq s = some sq →
      x < 2 ^ sq.sizeLog2 → x ≠ sq.tail → sq.tail < 2 ^ sq.sizeLog2 →
      exec (.sqTail p (some (furrowPtag fq s)) q v) s = .next (modSq fq nq (fun q => { q with
        tail := x, published := q.published + (x + 2 ^ sq.sizeLog2 - sq.tail) % 2 ^ sq.sizeLog2
        batches := q.batches ++ [q.published] }) s)) ∧
    (∀ cq : Cq, Reaches (.host p) s → s.dev.mode ≠ .survey → s.dev.mode ≠ .retired → dbOpen fq s = true → cqGet fq nq s = some cq →
      x < 2 ^ cq.sizeLog2 → (x + 2 ^ cq.sizeLog2 - cq.head) % 2 ^ cq.sizeLog2 ≤ cq.unread →
      exec (.cqHead p (some (furrowPtag fq s)) q v) s = .next (giveSealSlots fq nq (modCq fq nq (fun q => { q with
        head := x, unread := q.unread - (x + 2 ^ cq.sizeLog2 - cq.head) % 2 ^ cq.sizeLog2 }) s))) ∧
    (∀ (sq : Sq) (cq : Cq), sqGet f n s = some sq → cqGet f sq.cq s = some cq → fetching s = true → sq.enabled = true →
      dbOpen f s = true → 1 ≤ k → k ≤ 4 → sq.fetched + k ≤ sq.published → sq.head + k ≤ 2 ^ sq.sizeLog2 →
      creditsHold sq s = true → k ≤ sq.avail → k + sealWaiters f sq.cq s ≤ cq.free → fetchTurn s = some (f * 8 + n) →
      let u := tookTurn (f * 8 + n) sq.weight s
      exec (.entryFetch f n k) s = .next (pushMrd cq.home (.entries ((List.range k).map fun i => s.cmdif.nextId + i))
        (sq.base + 64 * sq.head) (64 * k) (some (furrowPtag f s)) (bump64 0x2100 k (fetchK f n k u)))) ∧
    (∀ (c : Cmd) (e : List Byte), cmdGet id s = some c → c.phase = .fetched → c.scratch = [] → entryDue id s = true →
      let d := { decodeEntry c e with phase := .arrived }
      let t := giveSealSlots c.furrow c.cq (cmdPut d (entryOver id s))
      cmdGet id t = some d → sqAborts d t = false → furrowAborts d.furrow t = false → d.seals = false → entryCheck d t = none →
      exec (.entryArrive id .ok e) s = .next t) ∧
    (∀ c : Cmd, cmdGet id s = some c → c.phase = .arrived → dispatching s = true → inTurn c s = true → c.seals = false →
      sqAborts c s = false → furrowAborts c.furrow s = false → restoreWait c s = false → rollupWait c s = false →
      let d := { c with mode := rulesMode s, route := routeOf c s }
      dispatchStatus d d.mode s = none →
      let blk := ((opSpec c.opcode.toNat).block d).isSome
      let src := c.srcLen != 0
      let home := homeOf c.furrow c.cq s
      let t := cmdPut { d with
        colours := ((furrowGet c.furrow s).getD resetFurrow0).colourSet
        keyQuota := ((furrowGet c.furrow s).getD resetFurrow0).keyQuota
        dispTally := s.dev.nextTally
        dispRtc := s.backup.rtcSec
        needBlock := blk
        needSrc := src
        phase := if blk || src then .reading else .ready } s
      let u := if blk then pushMrd home (.block id) c.blockAddr c.blockLen (some c.ptag) t else t
      exec (.dispatch id) s = .next (if src then pushMrd home (.src id) c.src.toNat c.srcLen (some c.ptag) u else u)) ∧
    (∀ c : Cmd, cmdGet id s = some c → c.phase = .waitShares → exec (.shareRecheck id) s = .next (cmdPut { c with phase := .ready } s)) ∧
    (∀ (c : Cmd) (bytes : List Byte), cmdGet id s = some c → c.phase = .reading → c.needSrc = true → c.needBlock = false →
      readDue (.src id) s = true →
      exec (.cplReceive (.src id) .ok bytes) s =
        .next (cmdPut { c with needSrc := false, data := bytesAt bytes 0 c.srcLen, phase := .ready } (readOver (.src id) s))) ∧
    (∀ (sq : Sq) (d : SealDue) (w e : Nat) (num : Nat), sqGet f n s = some sq →
      sq.seals.find? (fun d => !d.written && (sealReady sq (sqCmds f n s) d).isSome) = some d →
      sealReady sq (sqCmds f n s) d = some (num, w, e) → (d.slot = true ∨ ∃ cq, cqGet f sq.cq s = some cq ∧ 0 < cq.free) →
      let u := if d.slot then s else modCq f sq.cq (fun c => { c with reserved := c.reserved + 1 }) s
      exec (.sealCompletion f n) s = .next (pruneSeals f n d.batch
        (writeCpl f n sq.cq (furrowPtag f s) d.tag .batchSealed 0 (le 2 num ++ le 2 w ++ le 2 e ++ [0, 0]) d.irq
          (modSq f n (fun q => { q with
            seals := updFirst (fun x => x.idx == d.idx) (fun x => { x with written := true }) q.seals }) u)))) ∧
    (∀ cq : Cq, cqGet f n s = some cq → cq.irqEn = true → cq.coalUs ≠ 0 → cq.unsignalled ≠ 0 → (f ≠ 0 ∨ n ≠ 0) →
      exec (.coalesceTimeout f n) s = .next (cqIrq f n s)) ∧
    (∀ sq : Sq, sqGet f n s = some sq → sq.enabled = false → sq.disabling = true → sq.faulted = false → sqDrained sq s = true →
      (f ≠ 0 ∨ n ≠ 0) →
      exec (.queueDrained f n) s = .next (postEvt .both 0x2001 (wfield (f * 8 + n) 0) 0
        (modSq f n (fun q => { q with disabling := false, faulted := false })
          (regSet 0x2058 (wbit true 31 ||| wfield (f * 8 + n) 0) s)))) ∧
    (∀ cq : Cq, cqGet f n s = some cq → cq.home ≠ cq.confHome → (s.port cq.confHome).up = true → cqFlushed cq s = true →
      (s.cmdif.cmds.any fun c => c.furrow == f && c.cq == n) = false →
      exec (.cqHomeReturn f n) s = .next (modCq f n (fun q => { q with home := q.confHome }) s)) ∧
    (∀ c : Cmd, cmdGet id s = some c → (c.phase = .fetched ∨ c.phase = .reading) → readStalled id s = true →
      exec (.linkDown id) s = .next (finishSt c .linkDown (readOver (.block id) (readOver (.src id) (entryOver id s)))))

/-- `NOP` completes with `OK`: its completion entry is written at the tail of its CQ with the ring's phase and a fresh tally, the tail
moves on, the reserved slot is used up, the credit returns, and the command is gone (R170, R171, R172, R176). -/
def Obligations.NopCompletes : Prop :=
  ∀ (id : Nat) (c : Cmd) (sq : Sq) (cq : Cq) (s : State), Runs id 0 c s →
    sqGet c.furrow c.sq s = some sq → cqGet c.furrow c.cq s = some cq →
    c.svc = none → c.resv = [] → c.alloc = [] → c.auditResv = false → c.auditFull = false → c.tryPool = 0 → c.irq = false →
    c.seals = false → cq.irqEn = false → s.dev.nextTally < s.dev.tallyMark →
    (∀ x, furrowGet c.furrow s = some x → x.logOn = false ∧ x.log = none) → (s.port cq.home).up = true →
    ∃ t, exec (.nop id) s = .next t ∧ cmdGet id t = none ∧ t.dev.nextTally = s.dev.nextTally + 1 ∧
      (sqGet c.furrow c.sq t).map (·.avail) = some (sq.avail + 1) ∧
      (cqGet c.furrow c.cq t).map (fun q => (q.tail, q.phase, q.unread, q.reserved)) =
        some ((cq.tail + 1) % 2 ^ cq.sizeLog2, (if (cq.tail + 1) % 2 ^ cq.sizeLog2 = 0 then !cq.phase else cq.phase),
          cq.unread + 1, cq.reserved - 1) ∧
      (t.port cq.home).unflushed = (s.port cq.home).unflushed ++
        [⟨.completion, cq.base + 32 * cq.tail, cplBytes c.tag .ok cq.phase c.sq s.dev.nextTally 0 [], some c.ptag, s.dev.nextTally,
          some c.furrow, (s.port cq.home).flushTag⟩]

/-! ## Furrows -/

/-- The furrow and queue commands, started, where their parameters are in range and the furrow's state allows them: the new state of
the furrow or the queue, and `OK` (Tables 5-1 to 5-3, 6-1, 6-4; R158, R205, R206, R209 to R213). -/
def Obligations.FurrowCommandsComplete : Prop :=
  ∀ (id n : Nat) (c : Cmd) (x : Furrow) (s : State),
    let named := c.inlNat 48 2 = n
    let ok := fun (t : State) => Host.Outcome.next (ρ := Refusal) (φ := Fault) (finishSt c .ok t)
    let goes := fun (st : FState) (d : Bool) => furrowSet n (some { x with state := st, draining := d }) s
    let idle := c.scratch = [] ∧ logBusy n s = false
    let settled := (x.draining && furrowDrained n s) = false
    (Runs id 0x9001 c s → c.form = 0 → natAt c.block 0 2 = n → 1 ≤ n → n ≤ 4095 → policyOk c.block = true →
      natAt c.block 2 2 = 0 → natAt c.block 24 8 = 0 → furrowState n s = .free → tagHeld (policyFurrow c.block .active).ptag n s = false →
      exec (.furrowCreate id) s =
        .next (finish c (Ending.inline (le 2 n)) (furrowSet n (some (policyFurrow c.block .active)) s))) ∧
    (let sqs := (present (byteAt c.block 24)).map fun i => sqOfRecord c.block (320 + 32 * i) n i
     let cqs := (present (byteAt c.block 25)).map fun i => cqOfRecord c.block (64 + 32 * i) n i
     let granted := (sqs.map (·.credits)).sum
     Runs id 0x9001 c s → c.form ≠ 0 → natAt c.block 0 2 = n → 1 ≤ n → n ≤ 4095 → policyOk c.block = true →
      bitAt c.block 3 1 = true → furrowState n s = .free → tagHeld (policyFurrow c.block .quiesced).ptag n s = false →
      (∀ i ∈ present (byteAt c.block 24), sqRecordOk c.block (320 + 32 * i) (byteAt c.block 25) = true) →
      (∀ i ∈ present (byteAt c.block 25), cqRecordOk c.block (64 + 32 * i) = true) →
      granted ≤ s.cmdif.pool → granted ≤ natAt c.block 16 4 →
      exec (.furrowCreate id) s = .next (finish c (Ending.inline (le 2 n))
        ((furrowSet n (some (policyFurrow c.block .quiesced)) s).modCmdif fun i => { i with
          pool := i.pool - granted
          sqs := sqs.foldl (fun l q => insertSq q l) i.sqs
          cqs := cqs.foldl (fun l q => insertCq q l) i.cqs }))) ∧
    (Runs id 0x9002 c s → natAt c.block 0 2 = n → 1 ≤ n → n ≤ 4095 → furrowGet n s = some x → policyOk c.block = true →
      natAt c.block 2 2 = 0 → natAt c.block 24 8 = 0 → tagHeld (policyFurrow c.block .active).ptag n s = false →
      furrowCredits n s ≤ natAt c.block 16 4 → ((policyFurrow c.block .active).ptag = furrowPtag n s ∨ x.state = .quiesced) →
      exec (.furrowSetPolicy id) s = ok (furrowSet n (some { policyFurrow c.block .active with
        state := x.state, logOn := x.logOn, log := x.log, draining := x.draining
        olds := (cplTally c (Ending.st .ok) s, x.colourSet, x.keyQuota) :: livePolicies x.olds s }) s)) ∧
    (Runs id 0x9003 c s → settled → named → 1 ≤ n → n ≤ 4095 → furrowGet n s = some x → (x.state = .active ∨ x.state = .logging) →
      exec (.furrowQuiesce id) s = ok (goes .quiescing true)) ∧
    (Runs id 0x9004 c s → settled → named → 1 ≤ n → n ≤ 4095 → furrowGet n s = some x → x.state = .quiesced →
      exec (.furrowReset id) s = ok (modFurrow n (fun x => { x with state := .active, draining := false }) (furrowClear n s))) ∧
    (Runs id 0x9005 c s → settled → named → 1 ≤ n → n ≤ 4095 → furrowGet n s = some x → x.state = .quiesced → ownedIdx n (fun r => r.persist) s = [] →
      exec (.furrowRemove id) s = ok (furrowSet n none (furrowClear n s))) ∧
    (Runs id 0x9006 c s → settled → named → 1 ≤ n → n ≤ 4095 → furrowGet n s = some x → x.state ≠ .disabled → x.state ≠ .free →
      exec (.furrowDisable id) s = .next (furrowAbort n (finishSt c .ok (goes .disabled true)))) ∧
    (Runs id 0x9007 c s → settled → named → 1 ≤ n → n ≤ 4095 → furrowGet n s = some x → x.state = .quiesced →
      exec (.furrowEnable id) s = ok (goes (if x.logOn then .logging else .active) false)) ∧
    (Runs id 0x9008 c s → settled → idle → natAt c.block 24 2 = n → 1 ≤ n → n ≤ 4095 → furrowGet n s = some x → natAt c.block 0 8 % 64 = 0 →
      natAt c.block 8 8 % 4096 = 0 → natAt c.block 16 8 % 64 = 0 → 64 ≤ natAt c.block 16 8 → natAt c.block 16 8 ≤ 2 ^ 36 →
      natAt c.block 26 6 = 0 → x.state ≠ .free →
      exec (.dirtyLogStart id) s =
        .next (logSwitch c n x (some ⟨natAt c.block 0 8, natAt c.block 8 8, natAt c.block 16 8, [], [], [], 0, false⟩) s)) ∧
    (Runs id 0x9009 c s → settled → idle → named → 1 ≤ n → n ≤ 4095 → furrowGet n s = some x → x.state ≠ .active → x.state ≠ .free →
      exec (.dirtyLogStop id) s = .next (logSwitch c n x none s)) ∧
    (Runs id 0x900A c s → named → furrowGet n s = some x →
      let t := cplTally c (Ending.out (zeros (furrowQueryLen c))) s
      exec (.furrowQuery id) s = .next (finish c (Ending.out (furrowRecord n x t (c.form != 0) s)) s)) ∧
    (furrowGet n s = some x → x.draining = true → furrowDrained n s = true → x.state = .quiescing →
      exec (.furrowQuiesced n) s = .next (furrowDone n 31 0x3001 (modFurrow n (fun x => { x with state := .quiesced }) s))) ∧
    (furrowGet n s = some x → x.draining = true → furrowDrained n s = true → x.state = .disabled →
      exec (.furrowDisabled n) s = .next (furrowDone n 30 0x3002 s))

/-- The queue commands, started, on a queue that exists or can be made (Tables 5-1 to 5-3a, R158). -/
def Obligations.QueueCommandsComplete : Prop :=
  ∀ (id : Nat) (c : Cmd) (q : Sq) (s : State),
    let b := c.block
    let f := natAt b 10 2
    let n := natAt b 12 1
    let ok := fun (t : State) => Host.Outcome.next (ρ := Refusal) (φ := Fault) (finishSt c .ok t)
    (Runs id 0x9010 c s → natAt b 0 8 % 32 = 0 → 4 ≤ natAt b 8 1 → natAt b 8 1 ≤ 16 → natAt b 9 1 ≤ 1 → f ≤ 4095 → n ≤ 7 →
      natAt b 28 1 ≤ 1 → natAt b 29 3 = 0 → (f ≠ 0 ∨ n ≠ 0) → cqGet f n s = none → furrowState f s = .active →
      let home : Port := if bitAt b 9 0 then .b else .a
      exec (.cqCreate id) s = ok (s.modCmdif fun i => { i with
        cqs := insertCq ⟨f, n, natAt b 0 8, natAt b 8 1, home, home, natAt b 13 1, natAt b 14 2, natAt b 16 8,
          BitVec.ofNat 32 (natAt b 24 4), bitAt b 28 0, 0, 0, true, 0, 0, 0⟩ i.cqs })) ∧
    (Runs id 0x9012 c s → natAt b 0 8 % 64 = 0 → 4 ≤ natAt b 8 1 → natAt b 8 1 ≤ 16 → f ≤ 4095 → n ≤ 7 → natAt b 9 1 ≤ 7 →
      1 ≤ natAt b 13 1 → natAt b 13 1 ≤ 16 → 1 ≤ natAt b 14 2 → natAt b 14 2 ≤ 4096 → allZero (bytesAt b 16 16) = true →
      (f ≠ 0 ∨ n ≠ 0) → sqGet f n s = none → (cqGet f (natAt b 9 1) s).isSome → furrowState f s = .active →
      natAt b 14 2 ≤ s.cmdif.pool → (∀ x, furrowGet f s = some x → furrowCredits f s + natAt b 14 2 ≤ x.creditQuota) →
      exec (.sqCreate id) s = ok (s.modCmdif fun i => { i with
        pool := i.pool - natAt b 14 2
        sqs := insertSq ⟨f, n, natAt b 0 8, natAt b 8 1, natAt b 9 1, natAt b 13 1, natAt b 14 2, natAt b 14 2, 0, 0, true, 0, 0,
          [], [], [], false, false⟩ i.sqs })) ∧
    (let f := c.inlNat 48 2
     let n := c.inlNat 50 1
     Runs id 0x9011 c s → (f ≠ 0 ∨ n ≠ 0) → (cqGet f n s).isSome → (s.cmdif.sqs.any fun q => q.furrow == f && q.cq == n) = false →
      exec (.cqDelete id) s = ok (s.modCmdif fun i => { i with cqs := i.cqs.filter fun q => !(q.furrow == f && q.n == n) })) ∧
    (Runs id 0x9013 c s → namedSq c s = some q → q.enabled = false → sqDrained q s = true →
      exec (.sqDelete id) s = ok (s.modCmdif fun i => { i with
        pool := i.pool + q.credits, sqs := i.sqs.filter fun x => !(x.furrow == q.furrow && x.n == q.n) })) ∧
    (Runs id 0x9014 c s → namedSq c s = some q → q.enabled = true →
      exec (.sqDisable id) s = .next (disableSq q.furrow q.n (finishSt c .ok s))) ∧
    (Runs id 0x9015 c s → namedSq c s = some q → q.enabled = false → sqDrained q s = true →
      exec (.sqEnable id) s = ok (modSq q.furrow q.n (fun q => { q with enabled := true, disabling := false }) s)) ∧
    (Runs id 0x9016 c s → namedSq c s = some q →
      exec (.queueQuery id) s = .next (finish c (Ending.out (queueReport q s)) s))

/-! ## Modes -/

/-- A mode-change command, started, may act now: no other one waits, its source mode still holds, and no command in flight is of a kind
that the target mode `m` forbids (R91, Table 3-3). -/
def Sys2Proof.Stated.Turns (id code : Nat) (c : Cmd) (m : Mode) (s : State) : Prop :=
  Runs id code c s ∧ (∀ w, s.dev.modeWait = some w → w.1 = c.id) ∧ (∃ ms, modeSources code = some ms ∧ s.dev.mode ∈ ms) ∧
    forbidsInFlight m c.id s = false

/-- Each mode-change command of Table 3-3, where its conditions hold: the mode it enters, the flags it records, and `OK`
(R91, R93, R97, R99, R108, R109, R117, R119, R121, R123). -/
def Obligations.ModeCommandsComplete : Prop :=
  ∀ (id : Nat) (c : Cmd) (s : State),
    let t := clearWait s
    let back := serviceOrDegraded t
    let ok := fun (u : State) => Host.Outcome.next (ρ := Refusal) (φ := Fault) (finishSt c .ok u)
    (∀ (ddn : BitVec 14) (u : State), Turns id 0x0010 c .provision s →
      enterProvision t (fun s => changeMode .provision
        (setModeFlags 0x4 0 (s.modDev fun d => { d with ddn := some (d.ddn.getD ddn.toNat) }))) = some u →
      exec (.modeProvisionBegin id ddn) s = ok u) ∧
    (Turns id 0x0011 c (serviceOrDegraded s) s → wantsJoin c = false → completeCond c s = none → s.cistern.root ≠ [] →
      exec (.modeProvisionComplete id) s = ok (changeMode back (setModeFlags 0x1 0x4 t))) ∧
    (Turns id 0x0011 c .join s → wantsJoin c = true → completeCond c s = none →
      exec (.modeProvisionComplete id) s = ok (changeMode .join (setModeFlags 0x19 0x4 t))) ∧
    (∀ u, Turns id 0x0012 c .provision s → enterProvision t (fun s => changeMode .provision (setModeFlags 0x4 0xB s)) = some u →
      exec (.modeReprovision id true) s = ok u) ∧
    (Turns id 0x0020 c .ceremony s → exec (.modeCeremonyBegin id) s = ok (changeMode .ceremony t)) ∧
    (Turns id 0x0021 c (serviceOrDegraded s) s → exec (.modeCeremonyEnd id) s = ok (changeMode back t)) ∧
    (Turns id 0x0030 c .maintain s → exec (.modeMaintainBegin id) s = ok (changeMode .maintain t)) ∧
    (Turns id 0x0032 c (serviceOrDegraded s) s → s.dev.recovery = false →
      exec (.modeMaintainAbort id) s = ok (changeMode back t)) ∧
    (∀ (sig0 sig1 : Bool) (n : Nat), Turns id 0x0031 c (selectMode false s) s → stagedSlot sig0 sig1 (commitRestart c t) = some n →
      let u := (startImage (some n) (logRecord 0x10 n (commitRestart c t))).modDev fun d => { d with recovery := false }
      ∀ m v, selectMode false u = m → m ≠ .retired → enterSelected m u = some v →
      exec (.modeMaintainCommit id sig0 sig1 true) s = ok (pumpHooks v)) ∧
    (Turns id 0x0040 c .join s → s.fuses.grade ≠ .c8 →
      exec (.modeJoinBegin id) s = ok (changeMode .join (setModeFlags 0x8 0x10 t))) ∧
    (Turns id 0x0041 c (serviceOrDegraded s) s → joinedFromProvision s = false →
      exec (.modeJoinAbort id) s = ok (changeMode back (setModeFlags 0 0x8 t))) ∧
    (Turns id 0x0050 c .zeroized s → c.scratch = [] →
      exec (.modeZeroize id true) s = .next (cmdPut { c with scratch := [1] } (zeroizeStmt t))) ∧
    (Turns id 0x0050 c .zeroized s → c.scratch ≠ [] →
      exec (.modeZeroize id true) s = ok (enterZeroized (destroyKeys
        (finishAll (fun d => d.id != c.id && !d.wroteDst && d.phase != .fetched) .abortedAlarm t)))) ∧
    (Turns id 0x0051 c .retired s → exec (.modeRetire id true) s = ok (retireBut (some c.id) t))

/-- While the two computations of a critical decision disagree, no decision is taken and the alarm of source 18 is raised; a command that
decides stays, so that its row computes the pair again (R98, Table 18-1; that the alarm does not end it is log 118, the model's
reading). -/
def Obligations.DisagreementRaisesTheAlarm : Prop :=
  ∀ (id : Nat) (c : Cmd) (s : State),
    let t := clearWait s
    let alarm := fun (u : State) => Host.Outcome.next (ρ := Refusal) (φ := Fault) (raiseBut (some c.id) 18 0 0 u)
    (Turns id 0x0050 c .zeroized s → c.scratch ≠ [] → exec (.modeZeroize id false) s = alarm t) ∧
    (Turns id 0x0051 c .retired s → exec (.modeRetire id false) s = alarm t) ∧
    (Turns id 0x0012 c .provision s → exec (.modeReprovision id false) s = alarm t) ∧
    (∀ sig0 sig1, Turns id 0x0031 c (selectMode false s) s →
      exec (.modeMaintainCommit id sig0 sig1 false) s = alarm (commitRestart c t)) ∧
    (∀ sig0 sig1, s.dev.boot = .rom → keyReady s = true →
      exec (.bootRelease sig0 sig1 false) s = .next (raiseBut none 18 0 0 s)) ∧
    (s.dev.mainOn = true → s.dev.mode = .survey → s.dev.boot = .selected → regBit 0x0200 9 s = false →
      exec (.surveyItemDone (.decision false)) s = .next (raiseBut none 18 0 0 s))

/-- The general and diagnostic commands, started: `RTC_SET` sets the clock, `LOOPBACK` copies its `SRC` bytes to
`DST`, the units' controls are written, a unit whose self-test fails is retired, and the results whose content the manual leaves open are
free bytes, at most as many as `DST_LEN` (R45, R114, R185, R586; which unit fails and the bytes are free values, logs 3 and 123). -/
def Obligations.GeneralCommandsComplete : Prop :=
  ∀ (id : Nat) (c : Cmd) (s : State),
    let len := (drawNat s).1 % (c.dstLen + 1)
    let drawn := drawBytes len (drawNat s).2
    let gives := Host.Outcome.next (ρ := Refusal) (φ := Fault) (finish c (Ending.out drawn.1) drawn.2)
    (Runs id 0x0001 c s → exec (.deviceInfo id) s = gives) ∧
    (Runs id 0xF001 c s → exec (.selftestResults id) s = gives) ∧
    (Runs id 0xF003 c s → exec (.counterSnapshot id) s = gives) ∧
    (Runs id 0xF010 c s →
      let t := selftestFail (drawNat s).1 (drawNat s).2
      let bytes := drawBytes ((drawNat t).1 % (c.dstLen + 1)) (drawNat t).2
      exec (.unitSelftest id) s = .next (finish c (Ending.out bytes.1) bytes.2)) ∧
    (Runs id 0xF011 c s → exec (.memoryTest id) s = gives) ∧
    len ≤ c.dstLen ∧
    (Runs id 0x0060 c s → exec (.rtcSet id) s =
      .next (finishSt c .ok (s.modBackup fun b => { b with rtcSec := c.inlNat 48 6, rtcFrac := 0, rtcValid := true }))) ∧
    (Runs id 0x0070 c s → exec (.unitDisable id) s = .next (finishSt c .ok (unitCtl (c.inlNat 48 1) 1 s))) ∧
    (Runs id 0x0071 c s → exec (.unitEnable id) s = .next (finishSt c .ok (unitCtl (c.inlNat 48 1) 0 s))) ∧
    (Runs id 0xF002 c s → exec (.loopback id) s = .next (finish c ⟨.ok, c.data.length, [], c.data, []⟩ s))

/-! ## Power, boot, survey, sleep -/

/-- The events of the power domains, each where it is due (R30, R34, R35, R96, R100, R586, R597, R598; Table 3-3). -/
def Obligations.PowerEventsComplete : Prop :=
  ∀ (s : State),
    (∀ n, s.dev.mainOn = true → exec (.mainPowerLoss n) s = .next (enterHold (powerLost (recordHeld (cutShort 2 (cutShort 1 (cutShort 0
      ((s.vault.inflight.take n).foldl (fun s g => settleSeg g s) s)))))))) ∧
    (s.dev.mainOn = false → s.backup.pending = [] → s.fuses.grade ≠ .c8 →
      let m : Mode := if s.otp.retire then .retired else .survey
      let mark := markRec 0x01 s * 2 ^ 20
      exec .mainPowerGood s = .next (refreshSlow (retiredSources ((((s.modDev fun d => { d with
        mainOn := true, boot := .good, mode := m, prevMode := m, pendingAtGood := false, countedThisPowerUp := false
        nextTally := mark, tallyMark := mark, markCopy := mark }).modTamper
          fun t => { t with deciding := false, retiring := false }).modBackup fun b => { b with pending := [] }).modVault fun v =>
            { v with auditKey := s.dev.identity.isSome })))) ∧
    (s.dev.mainOn = false → s.backup.pending ≠ [] →
      ∃ t, exec .mainPowerGood s = .next t ∧ t.dev.pendingAtGood = true ∧ t.dev.countedThisPowerUp = true ∧
        t.dev.mode = (if s.otp.retire then .retired else .survey)) ∧
    (s.dev.mainOn = false → s.backup.vbat = true →
      exec .vbatLost s = .next (loseBackup (s.modDev fun d => { d with mode := if d.mode = .hold then .survey else d.mode }))) ∧
    (s.dev.mainOn = false → s.backup.vbat = false →
      exec .backupDomainFirstPowered s = .next ((loseBackup s).modBackup fun b => { b with vbat := true })) ∧
    ((s.dev.mode = .service ∨ s.dev.mode = .degraded) → s.dev.asleep = false → idle s = true →
      fieldOf (regGet 0x0080 s) 27 16 ≠ 0 → regBit 0x0080 1 s = false →
      exec .sleepEntry s =
        .next (sleepLinks ((s.modDev fun d => { d with asleep := true }).modCust fun c => { c with fieldOn := false }))) ∧
    (s.dev.mainOn = true → exec .wake s = .next (wakeUp s)) ∧
    (s.dev.mainOn = true → exec .tempStepDown s = .next (s.modDev fun d => { d with tempStep := true })) ∧
    (s.dev.mainOn = true → exec .tempStepUp s = .next (s.modDev fun d => { d with tempStep := false })) ∧
    (s.punty.field = false → s.dev.mainOn = true →
      let u := drawBytes 3 s
      exec .puntyFieldArrive s = .next (postEvt .both 0xF001 1 0 (u.2.modPunty fun p => { p with
        field := true, uid := 0x08 :: u.1, selected := false, halted := false, answer := [] }))) ∧
    (s.punty.field = true → s.dev.mainOn = true →
      exec .puntyFieldLoss s = .next (postEvt .both 0xF001 0 0 (s.modPunty fun p => { p with
        field := false, uid := [], selected := false, halted := false, answer := [] })))

/-- Boot and SURVEY, each step where it is due: the boot ROM's checks, the release of the cores, the items, the known-answer tests, the
end of SURVEY; the marks of the tally and the nonce (R101, R103, R105, R106, R110, R111, R274, R513). -/
def Obligations.BootAndSurveyComplete : Prop :=
  ∀ (s : State),
    (s.dev.boot = .good → exec .bootRomStart s =
      .next ((kekCheck (tallyBackup (reserveMarks ((pendingFlags s).foldl resumeErase s)))).modDev fun d => { d with boot := .rom })) ∧
    (∀ sig0 sig1 : Bool, s.dev.boot = .rom → keyReady s = true → s.dev.mode = .survey →
      let n := bootImage sig0 sig1 s
      let u := drawStoreKeys 4 (startImage n (if n = some (1 - activeSlot s) then regOr 0x0208 8 s else s))
      exec (.bootRelease sig0 sig1 true) s = .next (u.modDev fun d => { d with
        boot := .selected, recovery := n.isNone, selected := some (selectMode n.isNone u) })) ∧
    (∀ d : SurveyData, s.dev.mainOn = true → s.dev.mode = .survey → itemOf d ≠ 0 → regBit 0x0200 (itemOf d) s = false →
      (itemOf d = 9 → s.dev.boot = .selected) →
      exec (.surveyItemDone d) s = .next (surveyItem d s)) ∧
    (∀ d : SurveyData, s.dev.mainOn = true → s.dev.boot = .running → s.dev.mode ≠ .retired →
      (itemOf d = 4 ∨ itemOf d = 5 ∨ itemOf d = 7) → exec (.surveyRepeat d) s = .next (surveyItem d s)) ∧
    (∀ (us : BitVec 32) (m : Mode) (u : State), s.dev.mode = .survey → s.dev.boot = .selected → s.dev.selected = some m →
      ((List.range 8).any fun n => regBit (0x0210 + 4 * n) 30 s) = false → regBit 0x0200 9 s = true →
      enterSelected m (regSet 0x0204 us (regOr 0x0200 0x80000000 s)) = some u →
      exec (.surveyEnd true us) s = .next (serveHeld (u.modDev fun d => { d with boot := .running, selected := none }))) ∧
    (∀ flume lanes pke rng, s.dev.mainOn = true → s.dev.mode = .survey →
      let t := if rng then s.modRng fun g => { g with kat := true } else s
      exec (.knownAnswerTests flume lanes pke rng) s = .next (pke.foldl (fun s n => if n.val < 48 then pkeRetire n.val s else s)
        (lanes.foldl (fun s n => if n.val < 16 then laneRetire n.val s else s)
          (flume.foldl (fun s u => flumeRetire u.val s) t)))) ∧
    (∀ n, s.dev.mainOn = true → s.dev.boot ≠ .good → s.cipher.nonceBusy = none →
      markLow s.cipher.nonceMark s.cipher.nonce s.cipher.nonceAdv = true →
      exec (.markAdvance true n) s = .next (s.modCipher fun e => { e with
        nonceBusy := some (e.nonceMark + min 65536 (n + 1) * 2 ^ 20), nonceAdv := min 65536 (n + 1) })) ∧
    (∀ n, s.dev.mainOn = true → s.dev.boot ≠ .good → s.dev.markBusy = none →
      markLow s.dev.tallyMark s.dev.nextTally s.dev.tallyAdv = true →
      exec (.markAdvance false n) s = .next (s.modDev fun d => { d with
        markBusy := some (d.tallyMark + min 65536 (n + 1) * 2 ^ 20), tallyAdv := min 65536 (n + 1) })) ∧
    (∀ m, s.cipher.nonceBusy = some m → exec (.markRecordVerified true) s =
      .next (bump 0xB114 1 (logRecord 0x02 (m / 2 ^ 20) (s.modCipher fun e => { e with nonceMark := m, nonceBusy := none })))) ∧
    (∀ m, s.dev.markBusy = some m → exec (.markRecordVerified false) s =
      .next (bump 0xB114 1 (logRecord 0x01 (m / 2 ^ 20)
        (s.modDev fun d => { d with tallyMark := m, markCopy := m, markBusy := none }))))

/-! ## Keys -/

/-- A started command that creates records holds every slot it needs, `n` of them (R243). -/
abbrev Sys2Proof.Stated.Holds (n : Nat) (c : Cmd) : Prop := c.waitSeg = none ∧ c.alloc.length = n

/-- A new record may be stored: a persistent one needs a current cartridge (R4, Table 3-2). -/
abbrev Sys2Proof.Stated.Storable (r : KeyRec) (s : State) : Prop := r.persist = false ∨ vaultWritable s = true

/-- The key commands, started and with their slots, where their subject is LIVE and the KEY class gives its bytes: the record created,
changed, read, exported or made cullet (R244, R246, R251, R259 to R263, R611). -/
def Obligations.KeyCommandsComplete : Prop :=
  ∀ (id : Nat) (c : Cmd) (s : State),
    let gives := fun (t : State) => Host.Outcome.next (ρ := Refusal) (φ := Fault) t
    (∀ rnd u m, Runs id 0x1001 c s → Holds 1 c → drawKey (rndLen (genRec c s).alg (genLen c)) [] s = .ok rnd u →
      let r := genRec c s
      genMaterial r.alg rnd = some m → Storable r u →
      let dst := if isPrivate r.alg then pubKeyOf r.alg m else []
      exec (.keyGenerate id) s =
        gives (commitNew c [withMaterial r m] ⟨.ok, dst.length, le 8 (nthHandle c 0 u), dst, []⟩ u)) ∧
    (∀ k d alg m r p, Runs id 0x1002 c s → Holds 1 c → readBlock c.data = some k → k.version = kbVersion (c.keyAlg c.keyB s) →
      kbOpen (c.keyAlg c.keyB s) (c.keyMat c.keyB s) k.header k.enc k.mac = some d →
      (keyData d).bind (keyOfData k.alg) = some (alg, m) →
      importRec c k alg m s = some r → c.keyRec c.keyB s = some p → p.wrapColours.getLsbD r.colour = true → Storable r s →
      let e9 := (blockE9 k).join.map (·.colour)
      (e9.all fun x => p.wrapColours.getLsbD x && c.colours.getLsbD x) = true →
      ((c.form = 0 ∧ e9 = none) ∨ colourGiven c r.colour r.owner s = true) →
      exec (.keyImport id) s = gives (commitNew c [r] ⟨.ok, 0, le 8 (nthHandle c 0 s), [], []⟩ s)) ∧
    (Runs id 0x1003 c s → c.keyB ≠ 0 →
      let d := drawBytes (exportRnd c s) s
      exec (.keyExport id) s = gives (finish c (Ending.out (exportBlock c d.1 d.2)) d.2)) ∧
    (Runs id 0x1003 c s → c.keyB = 0 → exec (.keyExport id) s = gives (finish c (Ending.out (c.keyMat c.keyA s)) s)) ∧
    (Runs id 0x1004 c s → Holds 1 c → Storable (deriveRec c s) s →
      exec (.keyDerive id) s = gives (commitNew c [deriveRec c s] ⟨.ok, 0, le 8 (nthHandle c 0 s), [], []⟩ s)) ∧
    (∀ r, Runs id 0x1005 c s → handleRec c.keyA c.furrow c.cls s = some r → exportPins (hIdx c.keyA) s = false →
      (r.persist = false ∨ vaultWritable s = true) →
      let t := finishSt c .ok (deleteKey (hIdx c.keyA) s)
      exec (.keyDelete id) s = gives (if r.domain then domainChange (hIdx c.keyA) t else t)) ∧
    (∀ r, Runs id 0x1006 c s → (slotGet (hIdx c.keyA) s).entry = some r →
      exec (.keyQuery id) s = gives (finish c (Ending.out (queryBytes (slotGet (hIdx c.keyA) s) r)) s)) ∧
    (∀ r, Runs id 0x1007 c s → handleRec c.keyA c.furrow c.cls s = some r →
      let i := hIdx c.keyA
      let t := tmplRec c c.block s
      let n := { r with
        flags := t.flags, usage := t.usage, owner := t.owner, pool := t.pool, wrapColours := t.wrapColours
        deriveColour := t.deriveColour, expiry := t.expiry, applet := t.applet }
      t.alg = r.alg → t.colour = r.colour → t.persist = r.persist → t.domain = r.domain → (c.mode = .ceremony ∨ narrows r n = true) →
      (n.owner = r.owner ∨ keysOwned n.owner s < quotaFor c n.owner s) → Storable r s →
      let u := storeRec i (slotGet i s).gen n s
      let v := finishSt c .ok (if n.persist then archive (.put i (slotGet i u).gen n) u else u)
      exec (.keySetPolicy id) s = gives (if n.domain then domainChange i v else v))

/-- The key store's own events, each where it is due: a missed record is filled, a corrupt one reloaded, a cullet one scrubbed, the
records restored in order (R227, R242, R244, R245, R248, R252, R254, R266). -/
def Obligations.KeyStoreEventsComplete : Prop :=
  ∀ (i : Nat) (s : State),
    (∀ r reads others u, s.keytab.fills.contains i = true → liveRec i s = some r → unitFails i reads s = false → cacheIn i s = some u →
      exec (.cacheFill i none reads others) s = .next (u.modKeys fun t => { t with fills := t.fills.filter (· != i) })) ∧
    (∀ reads others, s.keytab.fills.contains i = true → unitFails i reads s = true →
      exec (.cacheFill i none reads others) s =
        .next (tagFail i others (s.modKeys fun t => { t with fills := t.fills.filter (· != i) }))) ∧
    (∀ g r, (slotGet i s).reloading = true → assocGet i s.vault.archive.keys = some (g, r) →
      exec (.recordReload i true) s = .next (storeRec i g r s)) ∧
    ((slotGet i s).state = .cullet → pinCount i s = 0 → (slotGet i s).entry = none → (slotGet i s).gen ≤ 0x1FFFFFF →
      isDomainIdx i s = false →
      ∃ t, exec (.scrub i) s = .next t ∧
        t = (let u := slotSet i { slotGet i s with state := .free, cached := false, reloading := false } (bump 0x4114 1 s)
             setFreeList false (freeList false u ++ [(i, 1)]) u)) ∧
    (s.keytab.restoring = true → s.keytab.floorsLoaded = true → s.keytab.toRestore.head? = some i →
      exec (.recordRestore i) s = .next (restoreKey i s)) ∧
    (s.keytab.restoring = true → s.keytab.floorsLoaded = true → s.keytab.toRestore = [] →
      exec .keytabRestoreDone s = .next (postEvt .both 0x4001 (wfield s.keytab.restored 0) 0
        (s.modKeys fun t => { t with restoring := false, restoreDone := true })))

/-! ## Applet commands -/

/-- The applet commands, started: an image goes to the vault when its package verifies (else `VERIFY_FAILED`) and is installed when it
is durable, a removed one ends, an invoked one is entered on a free core, the list is written (R457 to R461, R467). -/
def Obligations.AppletCommandsComplete : Prop :=
  ∀ (id : Nat) (c : Cmd) (s : State),
    let num := natAt c.data 6 2
    let rm := c.inlNat 48 2
    (Runs id 0xA001 c s → c.waitSeg = none → appletBusy c.id s = false →
      versionFloor num s < natAt c.data 8 4 → (appletInstalled num s = true ∨ (appletsNow s).length < 64) →
      (placeFor (Applet.size ⟨num, c.data, 0, 0, none⟩) s).isSome → vaultAccepts s = true →
      let r := archiveSync .archive (.applet num c.data) s
      exec (.appletInstall id) s = .next
        (if pkgVerifies c s then cmdPut { c with waitSeg := some r.1 } r.2 else finishSt c .verifyFailed s)) ∧
    (∀ seg b, Runs id 0xA001 c s → c.waitSeg = some seg → durable seg s = true →
      placeFor (Applet.size ⟨num, c.data, 0, 0, none⟩) s = some b →
      let e := Ending.inline (le 2 num ++ [0, 0] ++ le 4 (natAt c.data 8 4))
      exec (.appletInstall id) s = .next (pumpHooks (pruneApplets (postEvt .both 0xA003 (wfield num 0)
        (BitVec.ofNat 128 (natAt c.data 8 4)) (finish c e (placeApplet c.data b (cplTally c e s + 1) s)))))) ∧
    (Runs id 0xA002 c s → c.waitSeg = none → appletBusy c.id s = false → appletInstalled rm s = true → keysNaming rm s = 0 →
      vaultAccepts s = true →
      let r := archiveSync .archive (.appletDel rm) s
      exec (.appletRemove id) s = .next (cmdPut { c with waitSeg := some r.1 } r.2)) ∧
    (∀ seg, Runs id 0xA002 c s → c.waitSeg = some seg → durable seg s = true →
      exec (.appletRemove id) s = .next (pruneApplets (postEvt .both 0xA004 (wfield rm 0) 0
        (finishSt c .ok (endImage rm (cplTally c (Ending.st .ok) s + 1) s))))) ∧
    (∀ a e n, Runs id 0xA003 c s → invokeRuns c.id s = false → appletAt rm c.dispTally s = some a → c.srcLen ≤ a.inMax →
      a.entry false = some e → freeCore s = some n → exec (.appletInvoke id) s = .next (enterApplet n c a false e s)) ∧
    (let b := ((appletsNow s).map (appletEntry s)).flatten
     Runs id 0xA004 c s → b.length ≤ c.dstLen → exec (.appletList id) s = .next (finish c (Ending.out b) s))

/-! ## Payment commands -/

/-- The payment commands of Flume, started, on parameters that step 7 admits: PIN blocks decoded and re-encoded, values computed,
candidates compared (R285, R288, R294 to R310). -/
def Obligations.PaymentCommandsComplete : Prop :=
  ∀ (id : Nat) (c : Cmd) (s : State),
    let ends := fun (f : Ending) => Host.Outcome.next (ρ := Refusal) (φ := Fault) (flumeEnd c f s)
    let a := c.keyAlg c.keyA s
    let ka := c.keyMat c.keyA s
    let kb := c.keyMat c.keyB s
    let verdict := fun (b : Bool) => Ending.st (if b then .ok else .verifyFailed)
    (∀ x pin, Runs id 0x3001 c s → xlateOf c = some x → pinDecipher x.fi a ka x.pi c.data = some pin → x.fo = 0 →
      exec (.pinTranslate id) s = ends (Ending.out (pinEncipher x.fo (c.keyAlg c.keyB s) kb x.po pin []))) ∧
    (∀ x pin fill u, Runs id 0x3001 c s → xlateOf c = some x → pinDecipher x.fi a ka x.pi c.data = some pin → x.fo ≠ 0 →
      drawKey 16 [] s = .ok fill u →
      exec (.pinTranslate id) s = .next (flumeEnd c (Ending.out (pinEncipher x.fo (c.keyAlg c.keyB s) kb x.po pin fill)) u)) ∧
    (∀ x pin, Runs id 0x3002 c s → pinChkOf 0 c = some x → chkPin c x s = some pin →
      let st := if pinMatches x kb pin then Status.ok else Status.verifyFailed
      exec (.pinVerify id) s = ends ⟨st, 0, tryBalance c st s, [], []⟩) ∧
    (∀ x pin, Runs id 0x3003 c s → pinChkOf 1 c = some x → chkPin c x s = some pin → x.len ≤ pin.length →
      exec (.pinOffsetGenerate id) s = ends (Ending.inline (digitString
        (List.zipWith (fun p n => (p + 10 - n) % 10) pin (naturalPin kb x.valid x.table x.len)) 6))) ∧
    (∀ x pin, Runs id 0x3004 c s → pinChkOf 2 c = some x → chkPin c x s = some pin →
      exec (.pvvGenerate id) s = ends (Ending.inline (digitString (pvvOf kb x.pan x.pvki pin) 2))) ∧
    (∀ x, emvOf false c = some x → Runs id 0x3010 c s →
      exec (.arqcVerify id) s = ends (verdict (decide
        (emvMac a (emvKey x.method a ka x.atc x.pan x.psn) (c.data.drop 32) x.pad = bytesAt c.data 0 8)))) ∧
    (∀ x, emvOf true c = some x → Runs id 0x3011 c s →
      let k := emvKey x.method a ka x.atc x.pan x.psn
      let arqc := bytesAt c.data 0 8
      exec (.arqcVerifyArpc id) s = ends (if emvMac a k (c.data.drop 32) x.pad = arqc then
        Ending.inline (emvArpc x.arpc a k arqc (bytesAt c.data 8 4) (bytesAt c.data 16 (natAt c.data 12 1))) else verdict false)) ∧
    (Runs id 0x3020 c s → exec (.cvvGenerate id) s = ends (Ending.inline (digitString (cvvValue c s) 2))) ∧
    (Runs id 0x3021 c s → exec (.cvvVerify id) s = ends (verdict (digitsOf c.data 3 == some (cvvValue c s)))) ∧
    (∀ ksn fi p pin, Runs id 0x3030 c s → dukptPinOf c = some (ksn, fi, 0, p) →
      pinDecipher fi (workAlg c a) (dukptPinKey c ksn s) p c.data = some pin →
      exec (.dukptPinTranslate id) s = ends (Ending.out (pinEncipher 0 (c.keyAlg c.keyB s) kb p pin []))) ∧
    (∀ ksn fi fo p pin fill u, Runs id 0x3030 c s → dukptPinOf c = some (ksn, fi, fo, p) → fo ≠ 0 →
      pinDecipher fi (workAlg c a) (dukptPinKey c ksn s) p c.data = some pin → drawKey 16 [] s = .ok fill u →
      exec (.dukptPinTranslate id) s = .next (flumeEnd c (Ending.out (pinEncipher fo (c.keyAlg c.keyB s) kb p pin fill)) u)) ∧
    (Runs id 0x3031 c s → exec (.dukptMacVerify id) s =
      ends (verdict ((dukptMac c s).take (c.blk 2 1) == bytesAt c.block 18 (c.blk 2 1)))) ∧
    (Runs id 0x3040 c s → exec (.retailMacGenerate id) s = ends (Ending.inline (retailMac c s))) ∧
    (Runs id 0x3041 c s → exec (.retailMacVerify id) s = ends (verdict (retailMac c s == c.inlBytes 52 (c.inlNat 50 1)))) ∧
    (Runs id 0x3050 c s → exec (.ff1Tokenise id) s = ends (Ending.out (ff1Out false c s))) ∧
    (Runs id 0x3051 c s → exec (.ff1Detokenise id) s = ends (Ending.out (ff1Out true c s)))

/-! ## Cipher commands -/

/-- The cipher commands, started, under their mode and the key or key slot they name: the bytes at `DST`, and a verdict for the
verifying ones; a sealing command without an IV draws its nonce value as it is handed to a lane (R327, R329, R332, R333; Tables 9-2 to
9-5). -/
def Obligations.CipherCommandsComplete : Prop :=
  ∀ (id : Nat) (c : Cmd) (s : State),
    let alg := laneAlg c s
    let key := laneKey c s
    let bs := blockLen alg
    let mbs := if alg = 8 then 16 else bs
    let m := c.cMode
    let tail := fun (op : Nat) => c.data.drop (srcPrefix op c bs)
    let pre := fun (op : Nat) => c.data.take (srcPrefix op c bs)
    let ends := fun (op : Nat) (f : Ending) => Host.Outcome.next (ρ := Refusal) (φ := Fault) (cipherEnd op c f s)
    let verdict := fun (b : Bool) => Ending.st (if b then .ok else .verifyFailed)
    (Runs id 0x2001 c s → (m = 1 → exec (.symEncrypt id) s = ends 1 (Ending.out (ecbEnc alg key (tail 1)))) ∧
      (m = 2 → c.ivIn = true → exec (.symEncrypt id) s = ends 1 (Ending.out (cbcEnc alg key (pre 1) (tail 1)))) ∧
      (m = 3 → c.ivIn = true → ctrWraps c.ctrBits (pre 1) (tail 1).length bs = false →
        exec (.symEncrypt id) s = ends 1 (Ending.out (ctrMode alg c.ctrBits key (pre 1) (tail 1)))) ∧
      (∀ iv u, m = 2 → c.ivIn = false → drawKey bs [] s = .ok iv u → exec (.symEncrypt id) s =
        .next (cipherEnd 1 c (Ending.out (iv ++ cbcEnc alg key iv (tail 1))) u)) ∧
      (m = 3 → c.ivIn = false →
        let block := genIv c.nonce s ++ be 4 1
        exec (.symEncrypt id) s = ends 1 (outWith (block ++ ctrMode alg 32 key block (tail 1)) (le 8 c.nonce))) ∧
      (m = 4 → exec (.symEncrypt id) s = ends 1 (Ending.out (xtsEnc key (c.keyMat c.keyB s) (xtsTweakOf c) (tail 1))))) ∧
    (Runs id 0x2002 c s → (m = 1 → exec (.symDecrypt id) s = ends 2 (Ending.out (ecbDec alg key (tail 2)))) ∧
      (m = 2 → exec (.symDecrypt id) s = ends 2 (Ending.out (cbcDec alg key (pre 2) (tail 2)))) ∧
      (m = 3 →
        let w := if c.ctrBits = 0 then 32 else c.ctrBits
        ctrWraps w (pre 2) (tail 2).length bs = false →
        exec (.symDecrypt id) s = ends 2 (Ending.out (ctrMode alg w key (pre 2) (tail 2)))) ∧
      (m = 4 → exec (.symDecrypt id) s = ends 2 (Ending.out (xtsDec key (c.keyMat c.keyB s) (xtsTweakOf c) (tail 2))))) ∧
    (let aad := (c.data.drop (srcPrefix 3 c 16)).take c.aadLen
     let pt := c.data.drop (srcPrefix 3 c 16 + c.aadLen)
     let len := tagLenOf c 16
     let sealed := fun (iv : List Byte) =>
       if m = 0x10 then gcmCrypt key iv pt ++ (gcmTag key iv aad (gcmCrypt key iv pt)).take len
       else ccmCrypt key iv pt ++ ccmTag key iv aad pt len
     (Runs id 0x2003 c s → c.ivIn = true → exec (.aeadSeal id) s = ends 3 (Ending.out (sealed (c.data.take 12)))) ∧
     (Runs id 0x2003 c s → c.ivIn = false →
       exec (.aeadSeal id) s = ends 3 (outWith (genIv c.nonce s ++ sealed (genIv c.nonce s)) (le 8 c.nonce)))) ∧
    (∀ n u, cmdGet id s = some c → c.opcode.toNat = 0x2003 → c.phase = .admitted → c.scratch = [] → c.ivIn = false →
      keyReloads c s = false → unitList c s ≠ [] → drawNonce s = .ok n u →
      exec (.aeadSeal id) s = .next (startCmd { c with scratch := [2, n] } u)) ∧
    (Runs id 0x2004 c s →
      let n := payloadLen 4 c 16
      let len := tagLenOf c 16
      let iv := c.data.take 12
      let aad := (c.data.drop 12).take c.aadLen
      let ct := (c.data.drop (12 + c.aadLen)).take n
      let pt := if m = 0x10 then gcmCrypt key iv ct else ccmCrypt key iv ct
      let tag := if m = 0x10 then (gcmTag key iv aad ct).take len else ccmTag key iv aad pt len
      exec (.aeadOpen id) s =
        ends 4 (if tag = c.data.drop (12 + c.aadLen + n) then Ending.out pt else Ending.st .verifyFailed)) ∧
    (Runs id 0x2005 c s → exec (.macGenerate id) s = ends 5 (Ending.out ((macOf m alg key c.data).take (tagLenOf c mbs)))) ∧
    (Runs id 0x2006 c s →
      let n := c.data.length - tagLenOf c mbs
      exec (.macVerify id) s =
        ends 6 (verdict ((macOf m alg key (c.data.take n)).take (tagLenOf c mbs) == c.data.drop n))) ∧
    (Runs id 0x2007 c s → exec (.symWrap id) s =
      ends 7 (Ending.out (if m = 0x30 then kwWrap alg key c.data else kwpWrap alg key c.data))) ∧
    (∀ pt, Runs id 0x2008 c s → (if m = 0x30 then kwUnwrap alg key c.data else kwpUnwrap alg key c.data) = some pt →
      pt.length ≤ c.dstLen → exec (.symUnwrap id) s = ends 8 (Ending.out pt))

/-- The units' own events, each where it is due: faults retire a lane, a Flume unit or a public-key core, and a drained disable is
reported (R274, R276, R344, R345, R363, R366). -/
def Obligations.UnitEventsComplete : Prop :=
  ∀ (s : State), s.dev.mainOn = true →
    let report := fun (key : Nat) (drain : BitVec 3) (code : Nat) => Host.Outcome.next (ρ := Refusal) (φ := Fault)
      (postEvt .both code 0 0 (regOr key 0x80000000 (s.modDev fun d => { d with drains := d.drains &&& ~~~drain })))
    (∀ n, exec (.laneFault n) s = .next (laneRetire n.val s)) ∧
    (∀ u, exec (.flumeUnitFault u) s = .next (flumeRetire u.val s)) ∧
    (cipherDisabled s = true → s.dev.drains.getLsbD 0 = true → (s.cmdif.cmds.any fun c => c.cls == 2) = false →
      exec .cipherDrained s = report 0x5000 1 0x5001) ∧
    (flumeDisabled s = true → s.dev.drains.getLsbD 1 = true → s.cmdif.cmds.any flumeCovers = false →
      exec .flumeDrained s = report 0x6000 2 0x6001) ∧
    (pkeDisabled s = true → s.dev.drains.getLsbD 2 = true → (s.cmdif.cmds.any fun c => c.cls == 4) = false →
      exec .pkeDrained s = report 0x7000 4 0x7001)

/-! ## Public-key commands -/

/-- The public-key commands, started and with their slots, when no core fails the check before release and the KEY class gives its
bytes (R353 to R361). -/
def Obligations.PublicKeyCommandsComplete : Prop :=
  ∀ (id : Nat) (c : Cmd) (s : State),
    let ends := fun (f : Ending) => Host.Outcome.next (ρ := Refusal) (φ := Fault) (pkeEnd c f s)
    (Runs id 0x4001 c s → signRnd c (schemeOf c s) s = 0 →
      exec (.pkSign id .ok) s = ends (Ending.out (signature c (schemeOf c s) [] s))) ∧
    (∀ rnd u, Runs id 0x4001 c s → signRnd c (schemeOf c s) s ≠ 0 → drawKey (signRnd c (schemeOf c s) s) [] s = .ok rnd u →
      exec (.pkSign id .ok) s = .next (pkeEnd c (Ending.out (signature c (schemeOf c s) rnd u)) u)) ∧
    (Runs id 0x4002 c s → exec (.pkVerify id false) s = ends (Ending.st (if verifies c s then .ok else .verifyFailed))) ∧
    (∀ rnd u m, Runs id 0x4003 c s → Holds (if pubRecord c then 2 else 1) c → drawKey (rndLen (genRec c s).alg 0) [] s = .ok rnd u →
      let r := genRec c s
      genMaterial r.alg rnd = some m →
      let pub := pubKeyOf r.alg m
      let dst := le 8 (if pubRecord c then nthHandle c 1 u else 0) ++ pub
      exec (.pkKeypairGenerate id .ok) s = .next (pkeCommit c
        ([withMaterial r m] ++ (if pubRecord c then [publicRec c r pub] else [])) ⟨.ok, dst.length, le 8 (nthHandle c 0 u), dst, []⟩ u)) ∧
    (∀ z, Runs id 0x4004 c s → Holds (derivedSlots c).length c →
      let cv := curveOf (c.keyAlg c.keyA s)
      ecdh cv (ecPrivOf (c.keyAlg c.keyA s) (c.keyMat c.keyA s)) (c.data.take (2 * cv.len)) = some z →
      exec (.ecdhDerive id .ok) s =
        .next (pkeCommit c [derivedRec c z (c.data.drop (2 * cv.len)) s] ⟨.ok, 0, le 8 (nthHandle c 0 s), [], []⟩ s)) ∧
    (∀ m u, Runs id 0x4005 c s → Holds (derivedSlots c).length c → drawKey 32 [] s = .ok m u →
      let e := kemEncaps (kemK (pubCode c u)) (pubKey c u) m
      exec (.kemEncapsulate id false) s =
        .next (pkeCommit c [derivedRec c e.1 (afterKey c) u] ⟨.ok, e.2.length, le 8 (nthHandle c 0 u), e.2, []⟩ u)) ∧
    (Runs id 0x4006 c s → Holds (derivedSlots c).length c →
      let k := kemK (c.keyAlg c.keyA s)
      let z := kemDecaps k (c.keyMat c.keyA s) (c.data.take (kemCt k))
      exec (.kemDecapsulate id false) s =
        .next (pkeCommit c [derivedRec c z (c.data.drop (kemCt k)) s] ⟨.ok, 0, le 8 (nthHandle c 0 s), [], []⟩ s)) ∧
    (∀ seed u, Runs id 0x4007 c s → drawKey (hashLen (oaepHash c)) [] s = .ok seed u →
      let b := afterKey c
      let r := rsaPubKey c u
      let em := oaepEnc (oaepHash c) r.k (b.take (labelLen c)) (b.drop (labelLen c)) seed
      exec (.rsaEncrypt id false) s = .next (pkeEnd c (Ending.out (be r.k (rsaPub r (beNat em)))) u)) ∧
    (∀ m, Runs id 0x4008 c s →
      let k := rsaLen (c.keyAlg c.keyA s)
      let r := rsaOf k (c.keyMat c.keyA s)
      let x := beNat (c.data.drop (labelLen c))
      x < r.n → oaepDec (oaepHash c) (c.data.take (labelLen c)) (be k (rsaPriv r x)) = some m → m.length ≤ c.dstLen →
      exec (.rsaDecrypt id .ok) s = ends (Ending.out m))

/-! ## The noise sources and the DRBG -/

/-- The noise block's commands and events, each where it is due: raw bits are tested and absorbed, a window is credited or fails, a
start-up test passes or fails, the DRBG is instantiated and reseeds, a core is seeded (R370 to R376, R381, R382, R385, R387, R390 to R393;
Table 11-3). Accesses behind a read of `RNG_DATA` that has returned go on with the event (R389). -/
def Obligations.NoiseEventsComplete : Prop :=
  ∀ (id : Nat) (c : Cmd) (x : Side) (s : State), s.dev.mainOn = true →
    let gives := fun (t : State) => Host.Outcome.next (ρ := Refusal) (φ := Fault) t
    let back := fun (t : State) => gives (drainBehind t)
    (∀ bytes u, Runs id 0x5001 c s → c.form = 0 → drawKey c.dstLen [] s = .ok bytes u →
      exec (.randomBytes id) s = gives (finish c (Ending.out bytes) u)) ∧
    (Runs id 0x5002 c s → exec (.rngHealth id) s = gives (finish c (Ending.out (healthRecord s)) s)) ∧
    (∀ raw, (s.src x).st ≠ .retired →
      exec (.gatherBlock x raw) s = gives (s.modSrc x fun q => sampleBits x (q.health.queue ++ raw) q)) ∧
    (let h := (s.src x).health
     let t := (writeEst x (estimates h) s).modSrc x fun q => q.modHealth newWindow
     (s.src x).st = .inService → h.pos = 65536 →
      (estFailing (estLimit x) 2 (estimates h) = none → h.bad = false →
        exec (.estimateWindowEnd x) s = back (resumeBits x (credit x t))) ∧
      (estFailing (estLimit x) 2 (estimates h) = none → h.bad = true →
        exec (.estimateWindowEnd x) s = back (resumeBits x (windowFail x t))) ∧
      (∀ n, estFailing (estLimit x) 2 (estimates h) = some n →
        exec (.estimateWindowEnd x) s = back (resumeBits x (healthFail x n t)))) ∧
    (let clear := fun (y : Side) (u : State) => u.modSrc y fun q => q.modHealth fun h => { h with failed := [] }
     (∀ n, s.rng.a.health.failed = [n] → s.rng.b.health.failed = [] →
      exec .rngHealthFail s = back (resumeBits .b (resumeBits .a (clear .b (healthFail .a n (clear .a s)))))) ∧
     (∀ n, s.rng.a.health.failed = [] → s.rng.b.health.failed = [n] →
      exec .rngHealthFail s = back (resumeBits .b (resumeBits .a (healthFail .b n (clear .b (clear .a s))))))) ∧
    (let k := healthKey x
     let t := s.modSrc x fun q => q.modHealth newTest
     ((s.src x).st = .starting ∨ (s.src x).st = .retesting) → 4 ≤ (s.src x).health.windows →
      ((s.src x).health.testBad = false → s.rng.stopped = false → exec (.startupTestDone x) s =
        back (resumeBits x (regMask k 3 0 (t.modSrc x fun q => { q with st := .inService })))) ∧
      ((s.src x).health.testBad = true → fieldOf (regGet k s) 1 0 = 0 →
        exec (.startupTestDone x) s = back (resumeBits x (healthEvt x 11 (regMask k 3 1 t)))) ∧
      ((s.src x).health.testBad = true → fieldOf (regGet k s) 1 0 = 1 →
        exec (.startupTestDone x) s = back (retireSource x (healthEvt x 11 (regMask k 3 2 t))))) ∧
    (s.rng.inst = false → s.rng.stopped = false → s.rng.started = false → startReady s = true →
      exec .drbgInstantiate s = back (serveWaiters (instantiate (startSrc s) s))) ∧
    (∀ y, s.rng.inst = false → s.rng.stopped = false → s.rng.started = true → s.rng.keySrc = some y → 3 ≤ (s.src y).reserve.length →
      exec .drbgInstantiate s = back (serveWaiters (instantiate y s))) ∧
    (reseedWanted s = true → exec .reseed s = back (serveWaiters (reseed [] s))) ∧
    (∀ y, s.rng.keySrc = some y → y ≠ otherSide (keyPref s) → s.rng.fallback = false → fieldOf (regGet 0x8080 s) 30 24 < 127 →
      exec .maskFallback s = gives ((regSet 0x8080 (regGet 0x8080 s + wfield 1 24) s).modRng fun g => { g with fallback := true })) ∧
    (∀ (core : Fin 24) (short : Nat), s.rng.started = true → (s.rng.asks = [] ∨ s.rng.asks.head? = some core.val) →
      let u := bump 0x8118 short s
      let y := maskSrc u
      (if u.rng.keySrc = some y then keyWants u else 0) < (u.src y).reserve.length →
      exec (.expanderRekey core short) s = gives (bump 0x811C 1 ((takeBlocks y 1 u).2.modRng fun g => { g with
        seeds := assocSet core.val (some (takeBlocks y 1 u).1) g.seeds
        spent := assocSet core.val none g.spent, asks := g.asks.drop 1 }))) ∧
    (∀ (n : Fin 3) bytes u, drawKey 16 [] s = .ok bytes u → exec (.e7Req n) s = gives (u.modRng fun g => { g with
        wires := assocSet n.val (some bytes) g.wires, held := g.held.filter (· != n.val) }))

/-! ## The Cistern: ledger and mesh -/

/-- The Cistern's commands, started, where nothing bars a ledger step: a statement goes to the keeper and the command waits for it, a
report is written, a certificate issued or installed, a cost or a keeper set (R405 to R407, R416, R417, R423, R429, R433). -/
def Obligations.LedgerCommandsComplete : Prop :=
  ∀ (id keeper : Nat) (c : Cmd) (s : State),
    let gives := fun (t : State) => Host.Outcome.next (ρ := Refusal) (φ := Fault) t
    let fresh := c.scratch = []
    let waits := fun (t : State) => cmdPut { c with scratch := [1] } t
    (∀ pool kind amount draw low p, Runs id 0x6001 c s → fresh → mintFields c = (pool, kind, amount, draw, low) → pool ≠ 0 →
      poolGet pool s = some p → pool / 2 ^ 18 = ownDdn s → poolSettled pool p s = false → p.minted + mintWaits pool s + amount ≤ 2 ^ 62 →
      stepBar s = none →
      exec (.sharesMint id) s = gives (stepStmt ⟨pool, 1, projHeld pool s + amount, amount, 0⟩ (some c.id) (waits s))) ∧
    (∀ kind amount draw low, Runs id 0x6001 c s → fresh → mintFields c = (0, kind, amount, draw, low) → (kind = 1 ∨ kind = 2) →
      amount ≤ 2 ^ 62 → s.cistern.lastPool < 262143 → s.cistern.pools.length < 1048576 → stepBar s = none →
      let n := ownDdn s * 2 ^ 18 + s.cistern.lastPool + 1
      let t := poolSet n ⟨kind, 0, 0, 0, draw, low, 0, 0, false, true, false, none⟩
        (s.modCistern fun x => { x with lastPool := x.lastPool + 1 })
      stepBar t = none →
      exec (.sharesMint id) s = gives (stepStmt ⟨n, 1, projHeld n t + amount, amount, 0⟩ (some c.id) (waits t))) ∧
    (let pool := c.inlNat 48 4
     let dst := c.inlNat 52 2
     let n := c.inlNat 56 8
     ∀ p, Runs id 0x6002 c s → fresh → poolGet pool s = some p → n ≠ 0 → dst ≠ ownDdn s → (memberGet dst s).isSome → p.settled = false →
      stepBar s = none → reaches dst s = true → n ≤ projHeld pool s → ringFull s = false →
      let r := issueTally (ringReclaim s)
      let t := ringAdd ⟨.prepared, pool, dst, r.1, n, false⟩ (waits r.2)
      exec (.sharesTransfer id) s = gives (stepStmtAt r.1 ⟨pool, 3, projHeld pool t - n, n, r.1⟩ (some c.id) t)) ∧
    (∀ p, Runs id 0x6003 c s → poolGet (c.inlNat 48 4) s = some p →
      exec (.sharesBalance id) s = gives (finish c (Ending.out (balanceBytes (c.inlNat 48 4) p s)) s)) ∧
    (let d := c.inlNat 48 2
     let pool := c.inlNat 52 4
     ∀ m, Runs id 0x6004 c s → fresh → memberGet d s = some m → stranded m s = true → (pool = 0 ∨ (poolGet pool s).isSome) →
      vaultAccepts s = true →
      let asks := fun (t : State) => (waits t).modCistern fun x => { x with settling := x.settling ++ [⟨d, pool, some c.id⟩] }
      let t := memberMod d (fun m => { m with keeper := keeper }) s
      (keptGet d s = none → reaches keeper t = true →
        exec (.sharesBurnStranded id keeper) s = gives (routeSend keeper (.settle d pool) (asks t))) ∧
      (∀ k, keptGet d s = some k → k.settles pool = false →
        exec (.sharesBurnStranded id keeper) s = gives (settleFree d pool (asks s))) ∧
      (∀ k, keptGet d s = some k → k.settles pool = true →
        exec (.sharesBurnStranded id keeper) s = gives (finish c (Ending.inline (le 8 0)) s))) ∧
    (let d := c.inlNat 52 2
     let inc := c.inlNat 54 1
     Runs id 0x6005 c s → c.inlNat 48 1 = 1 → c.mode = .ceremony → s.dev.quorum = true → s.cistern.cert.isSome → d ≠ ownDdn s →
      d < 2 ^ fieldOf (regGet 0x9008 s) 3 0 → (∀ m, memberGet d s = some m → m.incarnation < inc ∧ allSettled d s = true) →
      let sig := drawBytes 4627 s
      let dig := bytesAt c.data 0 32
      let t := bcastTakes (ownDdn sig.2) (.member d inc dig) sig.2
      exec (.routeUpdateAdmit id) s =
        gives (finish c (Ending.out (certBytes d inc dig t ++ sig.1)) (broadcast (.member d inc dig) t))) ∧
    (let l := natAt c.data 40 1
     let d := natAt c.data 41 1
     Runs id 0x6005 c s → c.inlNat 48 1 = 2 → c.mode = .join → s.dev.ddn = some (natAt c.data 0 2) → shapeOk l d s = true →
      exec (.routeUpdateInstall id true) s = gives (finishSt c .ok (lockDomainCfg l d
        (s.modCistern fun x => { x with cert := some (natAt c.data 0 2, natAt c.data 2 1, bytesAt c.data 8 32) })))) ∧
    (let n := c.inlNat 49 1
     let t := finishSt c .ok (meshMod n (fun p => { p with cost := c.inlNat 50 1 }) s)
     Runs id 0x6005 c s → c.inlNat 48 1 = 3 → (meshGet n s).isSome → c.inlNat 50 1 ≠ 0 →
      exec (.routeUpdatePortCost id) s = gives (if (sessionPorts t).contains n then adjChanged t else t)) ∧
    (let k := c.inlNat 52 2
     Runs id 0x6005 c s → c.inlNat 48 1 = 4 → fresh → s.cistern.newKeeper = none →
      ((k = ownDdn s ∧ vaultAccepts s = true) ∨ (k ≠ ownDdn s ∧ (memberGet k s).isSome ∧ reaches k s = true)) →
      s.cistern.ownLatest ≠ [] →
      let sts := currentStmts (waits s)
      exec (.routeUpdateSetKeeper id) s = gives (sts.foldl (fun s st => if k = ownDdn s then keepStmt st s else routeSend k (.statement st) s)
        ((waits s).modCistern fun x => { x with newKeeper := some (c.id, k, sts.foldl (fun m st => max m st.lsq) 0) }))) ∧
    (∀ b, Runs id 0x6006 c s → c.form = 0 → peerBytes (c.inlNat 48 2) s = some b →
      exec (.peerStatus id) s = gives (finish c (Ending.out b) s)) ∧
    (∀ k st, Runs id 0x6006 c s → c.form ≠ 0 → keptGet (c.inlNat 48 2) s = some k → assocGet (c.inlNat 52 4) k.latest = some st →
      (stmtBytes st).length + 4627 ≤ c.dstLen →
      let sig := drawBytes 4627 s
      exec (.peerStatus id) s = gives (finish c (Ending.out (stmtBytes st ++ sig.1)) sig.2))

/-- Messages and times of the ledger, each where it is due (R407, R411, R415, R417 to R419, R423, R428, R432). -/
def Obligations.LedgerEventsComplete : Prop :=
  ∀ (s : State),
    let gives := fun (t : State) => Host.Outcome.next (ρ := Refusal) (φ := Fault) t
    (∀ (n : Fin 4) (a : AdjRec) m, memberGet a.ddn s = some m → (m.adjSeq < a.seq ∨ m.adjSeq = 0) →
      exec (.adj n a) s = gives (reroute (flood (some n.val) (.adj a)
        (memberMod a.ddn (fun m => { m with adjSeq := a.seq, adj := a.links }) s)))) ∧
    (∀ (n : Fin 4) origin (b : Bcast) m, memberGet origin (learnMember origin 0 s) = some m →
      let seq := m.bcast + 1
      let t := memberMod origin (fun x => { x with bcast := seq }) (learnMember origin 0 s)
      let u := flood (some n.val) (.bcast origin seq b)
        (bcastTakes origin b (t.modCistern fun c => { c with blog := c.blog ++ [(origin, seq, b)] }))
      exec (.broadcast n origin seq b) s = gives (match b with
        | .key _ _ _ => routeSend origin (.bcastAck origin seq) u
        | _ => u)) ∧
    (∀ (st : Stmt) k, (keptGet st.ddn s = some k ∨ (keptGet st.ddn s = none ∧ keptCount s < 8 ∧ k = ⟨st.ddn, 0, [], [], [], [], [], []⟩)) →
      ((keptGet st.ddn s).isSome → k.lsq < st.lsq) → assocGet st.lsq k.verdicts = none → k.voidsStmt st = false →
      let r := archiveSync .statement (.kept (k.after st)) (keptSet (k.after st) s)
      exec (.statement st) s = gives (r.2.modCistern fun c => { c with keptWait := c.keptWait ++ [(st.ddn, st.lsq, r.1)] })) ∧
    (∀ src l v, s.cistern.newKeeper = none → exec (.statementAck src (.ack l v)) s = gives (ownAck l v s)) ∧
    (∀ src pool tally amount p, s.cistern.ring.find? (isIn src tally) = none → floorOf src s ≤ tally → poolGet pool s = some p →
      p.settled = false → ringFull s = false →
      let t := ringAdd ⟨.inbound, pool, src, tally, amount, false⟩ (issueTally (ringReclaim s)).2
      exec (.transfer src pool tally amount) s = gives (stepStmt ⟨pool, 4, projHeld pool t + amount, amount, tally⟩ none t)) ∧
    (∀ dst pool tally r, s.cistern.ring.find? (fun r => r.state == .prepared && r.acked && r.peer == dst && r.pool == pool && r.tally == tally)
        = some r →
      let done := fun (st : RingState) => bump 0x911C 1 (ringMod (· == r) (fun r => { r with state := st }) s)
      let t := stepStmt ⟨pool, 5, projHeld pool (done .done), r.amount, tally⟩ none (done .done)
      let u := postEvt .both 0x9002 (BitVec.ofNat 32 pool) (transferData tally r.amount) t
      exec (.transferAck dst pool tally .credited) s = gives (routeSend dst (.floor (ownFloor u)) u) ∧
      exec (.transferAck dst pool tally .void) s = gives (postEvt .both 0x9005 (BitVec.ofNat 32 pool) (transferData tally r.amount)
        (ledgerAudit 3 pool r.amount (done .burned)))) ∧
    exec .transferResend s = gives ((s.cistern.ring.filter fun r => r.state == .prepared && r.acked).foldl
      (fun s r => sendTransfer r s) (resendStmts s)) ∧
    (∀ src tally, exec (.transferFloor src tally) s = gives (s.modCistern fun c => { c with
      floors := assocSet src (some (max tally (floorOf src s))) c.floors
      ring := c.ring.filter fun r => !(r.state == .credited && r.peer == src && decide (r.tally < tally)) })) ∧
    (∀ pool p, poolGet pool s = some p → p.drawing = none → drawsPossible p s = true → 2 * p.working < p.draw →
      0 < projHeld pool s → 0 < p.draw → stepBar s = none →
      let n := min (projHeld pool s) p.draw
      exec (.draw pool) s = gives (stepStmt ⟨pool, 2, projHeld pool s - n, n, 0⟩ none (poolSet pool { p with drawing := some n } s))) ∧
    (∀ d pool acked k, keptGet d s = some k → k.settles pool = false →
      let here := (k.outs.filter fun o => s.cistern.kept.any fun x => x.ins.contains (o.1, o.2.1)).map (·.2.1)
      let each := (k.latest.filter fun l => (pool == 0 || l.1 == pool) && !k.settles l.1).map fun l => (l.1, k.burns (acked ++ here) l.1)
      let after := { k with settled := k.settled ++ [pool], outs := k.outs.filter fun o => pool != 0 && o.1 != pool }
      let amount := (each.map (·.2)).sum
      let t := auditDev 2 (3 :: (le 4 pool ++ le 8 amount ++ le 2 d ++ le 8 k.lsq))
        (each.foldl (fun s x => declare x.1 x.2 s) (archive (.kept after) (keptSet after s)))
      exec (.settleRequest d pool acked) s =
        gives (declared (ownDdn t) d pool amount k.lsq (broadcast (.declared d pool amount k.lsq) t))) ∧
    (∀ key, s.dev.mode = .join → joinSynced s = true →
      exec (.joinSyncComplete key) s =
        gives (changeMode (serviceOrDegraded s) (setModeFlags 0 0x8 (takeCustodianKey key s))))

/-- The mesh ports, each event where it is due: training, the three messages of a session, its replacement, frames in order, resends
(R397 to R404). -/
def Obligations.MeshEventsComplete : Prop :=
  ∀ (n : Fin 4) (p : MeshPort) (s : State), meshGet n.val s = some p →
    let gives := fun (t : State) => Host.Outcome.next (ρ := Refusal) (φ := Fault) t
    (∀ first : Bool, p.training = true →
      let t := meshMod n.val (fun p => { p with training := false, trained := true, fails := 0 }) s
      exec (.meshTrainingDone n true first) s =
        gives (if first && !p.session then meshMod n.val (fun p => { p with hs := .sentInit }) t else t)) ∧
    (p.training = true → p.fails < 2 →
      exec (.meshTrainingTimeout n) s = gives (meshMod n.val (fun q => { q with fails := p.fails + 1 }) s)) ∧
    (∀ cap cert, p.trained = true → exec (.sessionInit n cap cert) s =
      let t := meshCap n.val cap s
      gives (meshMod n.val (fun p => { p with hs := .sentResponse, peerCert := certPasses cert t }) t)) ∧
    (∀ cap cert c report, p.hs = .sentInit → certPasses cert (meshCap n.val cap s) = some c →
      exec (.sessionResponse n cap cert report) s = gives (openSession n.val true c report (meshCap n.val cap s))) ∧
    (∀ c report, p.hs = .sentResponse → p.peerCert = some c →
      exec (.sessionConfirm n true report) s = gives (openSession n.val false c report s)) ∧
    (p.session = true → replaceDue p s = true → exec (.sessionReplace n true) s = gives (meshMod n.val (fun p => { p with hs := .sentInit }) s)) ∧
    (∀ (b : List Byte) (m : Msg), p.session = true → p.training = false → tagVerifies p.rxKey b = true →
      let h := frameHdr b
      2 ≤ h.ftype → h.ftype ≤ 4 → h.epoch = p.epoch → h.fseq = p.rxSeq →
      let t := frameAcks n.val h (meshMod n.val (fun p => { p with
        rxSeq := p.rxSeq + 1, crdOut := (p.crdOut + 1) % 65536, nakDue := false }) (bump64 0x9108 1 s))
      (0x8000 ≤ h.dst ∨ h.dst % 2 ^ 14 = ownDdn t) →
      exec (.weperFrameReceive n b m) s = gives (deliver n.val (h.src % 2 ^ 14) m t)) ∧
    (∀ (b : List Byte) (m : Msg), p.session = true → p.training = false → (frameHdr b).ftype ≠ 1 → tagVerifies p.rxKey b = false →
      exec (.weperFrameReceive n b m) s = gives (neighbourSend n.val .idle (meshMod n.val (fun p => { p with nakDue := true })
        (bump 0x9114 1 (cisternErr 0 n.val s))))) ∧
    (∀ u, p.unacked.getLast? = some u → p.training = false → p.resends < 8 → exec (.frameResendTimeout n) s =
      gives (bump 0x9110 p.unacked.length (meshMod n.val (fun p => { putWire u.1 u.2 p with resends := p.resends + 1 }) s)))

/-! ## Flash and images -/

/-- The flash engine's rows and the image commands: an operation whose partition is free and whose range and cells admit it starts, and
its end has its effect; a slot is erased and programmed, and both are reported (R505, R506, R508, R512, R515, R518). -/
def Obligations.FlashRowsComplete : Prop :=
  ∀ (n : Fin 4) (len : BitVec 5) (id : Nat) (c : Cmd) (s : State),
    let k := coreGet n.val s
    let a := k.flashAddr.toNat
    let src := k.flashSrc.toNat
    let admits := fun (op : Nat) =>
      s.dev.mainOn = true ∧ coreServes n.val s = true ∧ k.level ≠ 0 ∧ partBusy (opPart op a) s = false ∧
      opOk op a len.toNat src s = true ∧ (opPart op a = 2 ∨ (fetchedLately (opPart op a) s = false ∧ inRunning a s = false)) ∧
      cellsAllow op a (sramRead src (opLenBytes op len.toNat) s) s = true
    let starts := fun (op : Nat) => Host.Outcome.next (ρ := Refusal) (φ := Fault)
      (setBusy (opPart op a) (some ⟨op, n.val, a, sramRead src (opLenBytes op len.toNat) s, 0⟩) s)
    let erases := fun (op : Nat) => Host.Outcome.next (ρ := Refusal) (φ := Fault)
      (setBusy (opPart op a) (some ⟨op, n.val, a, sramRead src (opLenBytes op len.toNat) s, (openFlag (sectorNum a) s).1⟩)
        (openFlag (sectorNum a) s).2)
    (admits 1 → exec (.progRows n len) s = starts 1) ∧
    (admits 2 → exec (.progWords n len) s = starts 2) ∧
    (admits 3 → exec (.eraseMain n len) s = erases 3) ∧
    (admits 4 → exec (.eraseParam n len) s = erases 4) ∧
    (admits 5 → exec (.recordWrite n len) s = starts 5) ∧
    (∀ (p : Fin 3) o weak, busyOp p.val s = some o →
      exec (.flashOpDone p true weak) s =
        .next (flashResult p.val o.core .ok (weaken weak (opEffect o true (setBusy p.val none s))))) ∧
    (Runs id 0x0033 c s → c.inlNat 48 1 = 1 → partBusy (loadSlot c s) s = false → fetchedLately (loadSlot c s) s = false →
      s.warden.running ≠ some (loadSlot c s) → exec (.imageLoadErase id true) s = .next (finishSt c .ok (eraseImage (loadSlot c s) s))) ∧
    (let b := imageBase (loadSlot c s) + c.inlNat 52 4
     Runs id 0x0033 c s → c.inlNat 48 1 = 2 → partBusy (loadSlot c s) s = false → fetchedLately (loadSlot c s) s = false →
      s.warden.running ≠ some (loadSlot c s) → cellsAllow 1 b c.data s = true → exec (.imageLoadWrite id true) s =
        .next (finishSt c .ok (bump 0xB11C (c.srcLen / 256) (progRows b (chunks 256 c.data) s)))) ∧
    (∀ sig0 sig1, Runs id 0x0034 c s →
      exec (.imageStatus id sig0 sig1) s = .next (finish c (Ending.out (imageState 0 sig0 s ++ imageState 1 sig1 s)) s))

/-! ## The vault -/

/-- The vault's commands, started, where a current cartridge is there and the ranges admit them (R528, R541, R545). -/
def Obligations.VaultCommandsComplete : Prop :=
  ∀ (id : Nat) (c : Cmd) (s : State),
    let gives := fun (t : State) => Host.Outcome.next (ρ := Refusal) (φ := Fault) t
    (∀ bytes u, Runs id 0x7001 c s → drawKey 40 [] s = .ok bytes u →
      let i := leNat (bytes.take 8)
      let t := u.modVault fun v => { v with
        ident := some i, epoch := v.epoch + 1, archive := ⟨[], [], [], none, [], [], [], [], 0, none⟩, audit := [], auditSegs := []
        auditUsed := 0, auditHigh := false, lost := [], inflight := [], vaultKey := !u.backup.mkek.isEmpty, sealKey := bytes.drop 8
        kek := u.backup.mkek, copying := none, gap := none }
      let w := logRecord 0x14 t.vault.epoch t
      exec (.vaultFormat id) s = gives (finish c (Ending.inline (le 8 i)) ((layoutSlots w).foldl
        (fun s n => becomeCurrent n (s.modCart n fun k => { k with unopened := false })) w))) ∧
    (Runs id 0x7002 c s → exec (.vaultStatus id) s = gives (finish c (Ending.out (vaultStatusBytes s)) s)) ∧
    (Runs id 0x7003 c s → currentSlots s ≠ [] → recsShort c 0 s = none →
      let x := takeRecs c.dstLen (recsFrom (c.inlNat 48 8) s) (c.inlNat 48 8)
      exec (.journalRead id) s = gives (finish c ⟨.ok, x.1.length, le 8 x.2, x.1, []⟩ s)) ∧
    (let x := takeRecs (c.dstLen - 4627) (recsFrom (c.inlNat 48 8) s) (c.inlNat 48 8)
     let sig := drawBytes 4627 s
     let out := x.1 ++ sig.1
     Runs id 0x7004 c s → c.waitSeg = none → currentSlots s ≠ [] → recsShort c 4627 s = none →
      ((c.inlByte 56).getLsbD 0 = false → exec (.journalExport id) s =
        gives (finish c ⟨.ok, out.length, le 8 x.2, out, []⟩ sig.2)) ∧
      ((c.inlByte 56).getLsbD 0 = true → vaultAccepts sig.2 = true → sig.2.vault.vaultKey = true →
        let r := archiveSync .archive (.exportMark x.2) sig.2
        exec (.journalExport id) s = gives (cmdPut { c with waitSeg := some r.1, data := out, scratch := [x.2] } r.2))) ∧
    (∀ seg, Runs id 0x7004 c s → c.waitSeg = some seg → durable seg s = true →
      exec (.journalExport id) s = gives (finish c ⟨.ok, c.data.length, le 8 (c.scratch.getD 0 0), c.data, []⟩ s)) ∧
    (let n := c.inlNat 48 1
     Runs id 0x7005 c s → c.form = 0 → n < 2 → vaultLayout s = .mirrored → (s.cart n).state = .blank →
      (currentSlots s).any (· != n) = true → s.vault.copying = none →
      exec (.vaultRebuild id) s = gives (finishSt c .ok (startCopy n 0 true s))) ∧
    (Runs id 0x7006 c s → exec (.vaultSetLayout id) s =
      gives (finishSt c .ok (s.modVault fun v => { v with layout := if c.inlNat 48 1 = 1 then .striped else .mirrored })))

/-- The journal's and the cartridges' events, each where it is due (R525 to R527, R531, R532, R536, R537, R539, R541, R543, R243, R254,
R434). -/
def Obligations.VaultEventsComplete : Prop :=
  ∀ (n : Fin 2) (s : State),
    let gives := fun (t : State) => Host.Outcome.next (ρ := Refusal) (φ := Fault) t
    let cart := s.cart n.val
    (∀ k, segKey k s = true → exec (.segmentSeal k) s = gives (sealKind k s)) ∧
    (s.dev.mainOn = true → s.backup.rtcSec ≠ s.vault.rollSecond → rollupFits s = true →
      exec .rollupClose s = gives (closeRollup s)) ∧
    (slotBusy n.val s = false → exec (.presenceCheck n false) s = gives (removeCart n.val s)) ∧
    ((slotBusy n.val s = true ∨ cart.state = .bringup) → exec (.tokenTimeout n) s = gives (removeCart n.val (bump 0xC110 1 s))) ∧
    (∀ left st, cart.state = .current → exec (.cartStatusPoll n left st) s = gives (cartPoll n.val left.toNat st.toNat s)) ∧
    (∀ f left cst, frameWhole f = false → exec (.completionToken n f left cst) s = gives (bump 0xC10C 1 s)) ∧
    (∀ f left cst g, frameToken f = true → tagSeg n.val (f.toNat / 2 ^ 16 % 128) s = some g →
      let status := f.toNat / 2 ^ 48 % 256
      let t := modSeg g.seq (fun g => { g with waits := g.waits.filter (· != n.val), doneOn := g.doneOn ++ [n.val] }) s
      (status = 0 → exec (.completionToken n f left cst) s =
        gives (releaseDue n.val (vaultProgress (t.modCart n.val fun k => { k with lastSeq := max k.lastSeq g.seq })))) ∧
      (status = 2 → exec (.completionToken n f left cst) s = gives (retireCart n.val s)) ∧
      (status = 1 → 2 ≤ g.errs → exec (.completionToken n f left cst) s = gives (leaveSlot n.val .failed
        (modSeg g.seq (fun g => { g with errs := g.errs + 1 }) (vaultErr 1 n.val (bump 0xC108 1 s)))))) ∧
    (slotFitted n.val s = true → cart.state = .empty → s.dev.mainOn = true →
      exec (.cartridgeInsert n) s = gives (s.modCart n.val fun k => { k with
        state := .bringup, label := none, warned := false, unopened := false, measured := false })) ∧
    (∀ v12 (page : List Byte), cart.state = .bringup → cart.measured = false →
      let st := natAt page 24 1
      let t := s.modCart n.val fun k => { k with serial := natAt page 4 8, sparesOrig := natAt page 16 4, sparesLeft := natAt page 20 4 }
      (pageOk page = true → exec (.slotBringUp n true true v12 page) s = gives (surveyCart n.val true v12 st t)) ∧
      exec (.slotBringUp n true false v12 page) s = gives (vaultErr 0 n.val
        (surveyCart n.val false false st (t.modCart n.val fun k => { k with state := .failed })))) ∧
    (∀ segs : List (Nat × Bool), cart.state = .bringup → cartIdOk n.val s = true →
      let kept := (segsKept segs).length
      let discarded := segs.length - kept
      let first := firstLost segs
      let t := auditDev 6 (le 1 n.val ++ le 4 kept ++ le 4 discarded ++ le 8 first) (postEvt .both 0xC003 (wfield n.val 0)
        (BitVec.ofNat 128 (kept % 2 ^ 32 + 2 ^ 32 * (discarded % 2 ^ 32) + 2 ^ 64 * first)) s)
      let u := t.modCart n.val fun k => { k with label := none, unopened := !(vaultOpens t && t.vault.ident.isNone) }
      exec (.vaultReplay n none segs) s =
        gives (if regBit (0x0280 + 4 * n.val) 26 u then u.modCart n.val fun k => { k with state := .retired }
          else startCopy n.val 0 true (u.modCart n.val fun k => { k with state := .blank }))) ∧
    (s.vault.copying = some (n.val, false) →
      exec (.catchUpDone n) s = gives (becomeCurrent n.val (s.modVault fun v => { v with copying := none }))) ∧
    (s.vault.copying = some (n.val, true) → exec (.vaultRebuildDone n) s =
      gives (postEvt .both 0xC004 (wfield n.val 0) 0 (becomeCurrent n.val (s.modVault fun v => { v with copying := none })))) ∧
    (restoreBegun s = true → s.vault.archive.shape = none →
      let t := s.vault.archive.floors.foldl (fun s x => slotSet x.1 { slotGet x.1 s with
        state := if 2 ^ 25 ≤ x.2 then .spent else .free, gen := x.2, floor := x.2 } s) s
      exec .floorsLoaded s = gives (pumpHooks (reloadApplets (ledgerRestore (rebuildFree (t.modKeys fun k => { k with
        floorsLoaded := true, restoring := true, toRestore := s.vault.archive.keys.map (·.1)
        granFree := s.vault.archive.keys.foldl (fun g x =>
          (List.range x.2.2.extCount).foldl (fun g i => rangesTake (x.2.2.extFirst + i) g) g) k.granFree }))))))

/-! ## Custodians -/

/-- The custodian commands, started, in PROVISION or in a CEREMONY with its quorum: enrolment, revocation, sets, hold time, sessions,
reports, seals, key components (R265, R549 to R553, R561 to R567, R569, R570). -/
def Obligations.CustodianCommandsComplete : Prop :=
  ∀ (id : Nat) (c : Cmd) (s : State),
    let gives := fun (t : State) => Host.Outcome.next (ρ := Refusal) (φ := Fault) t
    let may := c.mode = .provision ∨ (c.mode = .ceremony ∧ s.dev.quorum = true)
    let stores := s.vault.ident.isSome = true → vaultWritable s = true
    let n := c.inlNat 49 1
    let old := s.cust.table
    (∀ vr (pub key : List Byte) (u : State), Runs id 0x8001 c s → c.inlNat 48 1 = 1 → may → stores →
      (if c.inlNat 50 1 = 2 then s.cust.dups.contains (c.inlNat 56 8) = false ∧ weakField vr s = false else slotBar s = none) →
      ((old.key ≠ [] ∧ key = old.key ∧ u = s) ∨
        (old.key = [] ∧ ∃ bytes, drawKey 40 [] s = .ok bytes u ∧ key = be 32 (ecScalar p256 bytes))) →
      let was := u.cust.table
      let t : CustTable :=
        ⟨assocSet n (some ⟨c.inlNat 50 1 == 2, c.inlNat 56 8, pub⟩) was.custs, inSets n (c.inlNat 52 1) was.sets, key⟩
      leavesNoSet t u = false → exec (.enrol id ⟨vr, .ok pub⟩) s =
        gives (finish c (Ending.inline ((sha256 pub).take 8)) (storeTable t (endSession n u)))) ∧
    (let t : CustTable := { old with custs := assocSet n none old.custs, sets := inSets n 0 old.sets }
     Runs id 0x8001 c s → c.inlNat 48 1 = 2 → may → stores → (custGet n s).isSome → leavesNoSet t s = false →
      exec (.revoke id) s = gives (finishSt c .ok (storeTable t (endSession n s)))) ∧
    (let x := (assocGet n old.sets).getD ⟨0, []⟩
     let th := c.inlNat 50 1
     let t : CustTable := { old with sets := assocSet n (if th = 0 then none else some { x with threshold := th }) old.sets }
     Runs id 0x8001 c s → c.inlNat 48 1 = 3 → may → stores → leavesNoSet t s = false →
      exec (.setDefine id) s = gives (finishSt c .ok (storeTable t s))) ∧
    (Runs id 0x8001 c s → c.inlNat 48 1 = 4 → may →
      exec (.setHold id) s = gives (finishSt c .ok (s.modCust fun x => { x with holdS := c.inlNat 52 2 }))) ∧
    (Runs id 0x8002 c s → exec (.quorumStatus id) s = gives (finish c (Ending.out (quorumBytes s)) s)) ∧
    (∀ (m : Nat) x qc nc bytes u, Runs id 0x8003 c s → slotBar s = none → custGet m s = some x → x.badge = false →
      drawKey 72 [] s = .ok bytes u →
      let r := openCustSession m 1 (handshakeKey (ecScalar p256 (bytes.take 40)) (bytes.drop 40) qc nc) u
      exec (.cardSession id (.ok m qc nc)) s = gives (finish c (Ending.inline (le 8 r.1)) r.2)) ∧
    (∀ (m : Nat) x qc nc bytes u, Runs id 0x8004 c s → s.cust.dups.contains (c.inlNat 56 8) = false → custGet m s = some x →
      x.badge = true → x.ident = c.inlNat 56 8 → drawKey 72 [] s = .ok bytes u →
      let r := openCustSession m 2 (handshakeKey (ecScalar p256 (bytes.take 40)) (bytes.drop 40) qc nc) u
      exec (.badgeAuthenticate id (.ok m qc nc)) s = gives (finish c (Ending.inline (le 8 r.1)) r.2)) ∧
    (∀ frames cardsA cardsB, Runs id 0x8005 c s → c.form = 0 →
      let v := inventory 64 (invStart s) frames ⟨[], 0, false, 0, []⟩
      let t := (bump 0xD108 v.collisions (bump 0xD104 1 s)).modCust fun x => { x with dups := v.dups }
      let u := if v.dups.isEmpty then t else custErr 4 t
      let out := ((v.tags.map fun g => tagEntry g u) ++ (cardsA.foldl (fun l x => insertCard x l) []).map (cardEntry 3)
        ++ cardsB.map (cardEntry 4)).flatten
      out.length ≤ c.dstLen → exec (.tagInventory id frames cardsA cardsB) s =
        gives (finish c ⟨.ok, out.length, le 2 (out.length / 16) ++ le 1 (bit v.incomplete) ++ le 1 v.frames ++ zeros 4, out, []⟩ u)) ∧
    (∀ serial st k mem, Runs id 0x8006 c s → st % 2 = 1 → exec (.sealRead id (.ok serial st k mem)) s =
      gives (finish c (Ending.out (le 8 serial ++ le 1 st ++ zeros 3 ++ le 4 k ++ bytesAt mem 0 256)) s)) ∧
    (∀ vr serial st k mem, Runs id 0x8007 c s → c.inlNat 48 1 = 1 → weakField vr s = false → st % 4 < 2 →
      let keys := sealKeys c serial s
      exec (.sealIssue id ⟨vr, .ok serial st k mem⟩) s = gives (finish c (Ending.inline (le 4 k)) (sendTag (keys.1 ++ keys.2) s))) ∧
    (∀ vr serial st k mem, Runs id 0x8007 c s → c.inlNat 48 1 = 2 → weakField vr s = false → st % 4 = 1 →
      exec (.sealWrite id ⟨vr, .ok serial st k mem⟩) s = gives (finish c (Ending.inline (le 4 k)) (sendTag c.data s))) ∧
    (let len := compLen (c.blk 0 1) (tmplLen c.block)
     let r := tmplRec c c.block s
     let m := combine len (gathered c)
     (∀ a, Runs id 0x1008 c s → Holds 1 c → (gathered c).length = len * c.blk 32 1 → kcvOf r.alg m = bytesAt c.block 33 3 →
      exec (.keyImportComponents id a) s = gives (commitNew c [withMaterial r m] (Ending.inline (le 8 (nthHandle c 0 s))) s)) ∧
     (∀ b, let d := { c with scratch := c.scratch ++ (bytesAt (b ++ zeros 48) 16 len).map (·.toNat) }
      Runs id 0x1008 c s → (gathered c).length ≠ len * c.blk 32 1 → (gathered d).length ≠ len * c.blk 32 1 →
      exec (.keyImportComponents id (.ok b)) s = gives (cmdPut d s))) ∧
    (let m := c.keyMat c.keyA s
     let i := c.scratch.getD 0 0
     let part := bytesAt c.data (m.length * i) m.length
     let t := sendTag (compRecord (c.scratch.getD 1 0) (c.keyAlg c.keyA s) part) s
     ∀ vr b, Runs id 0x1009 c s → c.scratch ≠ [] → ((compSessions c).getD i 0 / 256 % 256 = 2 → weakField vr s = false) →
      exec (.keyExportComponents id ⟨vr, .ok b⟩) s = gives (
        if i + 1 < c.blk 32 1 then cmdPut { c with scratch := [i + 1, c.scratch.getD 1 0] } t
        else finish c (Ending.inline (kcvOf (c.keyAlg c.keyA t) part ++ zeros 5)) t))

/-- The custodian unit's events, each where it is due: the verdict, sessions that end, probes, the card slot, the touch sense
(R553, R554, R556, R558, R564, R568, R607). -/
def Obligations.CustodianEventsComplete : Prop :=
  ∀ (s : State),
    let gives := fun (t : State) => Host.Outcome.next (ρ := Refusal) (φ := Fault) t
    let q := decide (setsSatisfied s ≠ 0)
    (s.cust.evalDue = true → q = s.dev.quorum →
      exec (.verdictEvaluation true) s = gives (s.modCust fun c => { c with evalDue := false })) ∧
    (s.cust.evalDue = true → q ≠ s.dev.quorum →
      let r := issueTally (s.modCust fun c => { c with evalDue := false })
      let t := sendEvt .both ⟨0xD004, wfield (setsSatisfied s) 8 ||| wbit q 0, 0, r.1⟩
        ((r.2.modDev fun d => { d with quorum := q }).modCust fun c => { c with verdictTally := r.1 })
      exec (.verdictEvaluation true) s =
        gives (if !q && t.dev.mode == .ceremony then changeMode (serviceOrDegraded t) t else t)) ∧
    (s.cust.evalDue = true → exec (.verdictEvaluation false) s = gives (disagree (custErr 0 s))) ∧
    (∀ (n : BitVec 8) x, s.cust.sessions.find? (fun x => x.cust == n.toNat) = some x → inSlotNow n.toNat s = false →
      x.seen + s.cust.holdS ≤ s.backup.rtcSec → exec (.sessionExpiry n) s = gives (endSession n.toNat s)) ∧
    (∀ n : BitVec 8, s.dev.mainOn = true → s.dev.asleep = false → s.cust.sessions.any (fun x => x.cust == n.toNat && x.kind == 2) = true →
      exec (.probe n true) s = gives (seeCredential n.toNat s)) ∧
    (s.dev.mainOn = true → s.cust.card = false →
      let t := presence 1 (wakeUp s)
      exec .cardInsert s = gives (t.modCust fun c => { c with
        card := true, silent := false, atr := false, inSlot := none, cls := if cardSlotDisabled t then .inactive else .c })) ∧
    (s.cust.cls ≠ .inactive → s.cust.atr = false → exec (.atr none) s = gives (s.modCust fun c => { c with atr := true })) ∧
    (s.cust.cls = .c → s.cust.atr = false →
      exec .cardSilent s = gives ((deactivate s).modCust fun c => { c with silent := true })) ∧
    (s.dev.mainOn = true → s.cust.card = true →
      let t := presence 2 (wakeUp s)
      let u := match t.cust.inSlot with
        | some n => seeCredential n t
        | none => t
      exec .cardRemoved s = gives ((deactivate u).modCust fun c => { c with card := false, silent := false, inSlot := none })) ∧
    (s.cust.cls ≠ .inactive → exec .cardOvercurrent s = gives (custErr 2 (deactivate s))) ∧
    (s.dev.asleep = true → regBit 0xD00C 31 s = true → exec .capacitiveWake s = gives (presence 0 (wakeUp s)))

/-! ## Tamper, backup domain, Punty -/

/-- Alarms and their records (at an edge of the slow clock), the decisions they ask for, the erasures they start, the battery, each event
where it is due (R572, R573, R577 to R580, R584, R585, R601). -/
def Obligations.TamperEventsComplete : Prop :=
  ∀ (s : State),
    let gives := fun (t : State) => Host.Outcome.next (ρ := Refusal) (φ := Fault) t
    (∀ (n : Fin 24) (a b : Word), s.dev.mainOn = true → raisable n s = true → exec (.alarmRaised n a b) s =
      gives (raiseAlarm n.val a.toNat b.toNat (noteActive n.val (pinSample n true (noteReadings (n.val / 2) a b s))))) ∧
    (∀ (p : Fin 5) (a b : Word), s.dev.mainOn = true → exec (.monitorFault p a b) s =
      gives (raiseAlarm (19 + p.val) a.toNat b.toNat (noteActive (19 + p.val) (noteReadings p.val a b s)))) ∧
    (∀ n : Fin 24, exec (.alarmConditionAbsent n) s =
      gives ((pinSample n false s).modTamper fun t => { t with active := t.active.filter (· != n.val) })) ∧
    (s.dev.mainOn = true → exec .alarmRecord s = gives (tick s)) ∧
    (∀ r, s.dev.asleep = false → s.dev.boot ≠ .good → (tallyRecords s).tamper.raised = [r] →
      let t := recordAlarm ((tallyRecords s).modTamper fun t => { t with raised := [] }) r
      recordAlarms s = if t.dev.asleep then t else updateLevel t) ∧
    (s.tamper.scrubbing = true → exec .scrubComplete s = gives (s.modTamper fun t => { t with scrubbing := false })) ∧
    (s.tamper.reform = true → s.tamper.scrubbing = false →
      exec .workingKeysReformed s = gives (resendLost (s.modTamper fun t => { t with reform := false }))) ∧
    (s.tamper.deciding = true → s.dev.mainOn = true →
      let t := bump 0xE128 1 s
      exec (.zeroizeDecision false) s = gives (disagree t) ∧
      let u := t.modTamper fun x => { x with deciding := false, retiring := false }
      (s.tamper.retiring = true → exec (.zeroizeDecision true) s = gives (alarmChange enterRetired u)) ∧
      (s.tamper.retiring = false → s.tamper.alarms.any (fun a => a.2 == 4) = true →
        exec (.zeroizeDecision true) s = gives (zeroize u))) ∧
    (∀ (n : Fin 24) (a b : Word) (agree : Bool), s.dev.mainOn = false → s.backup.vbat = true → watchedInHold n = true →
      raisable n s = true → sourceLevel n.val s < 3 →
      let t := (noteActive n.val s).modTamper fun t => { t with alarms := assocSet n.val (some (sourceLevel n.val s)) t.alarms }
      exec (.holdAlarm n a b agree) s = gives (puntyAlarm n.val (sourceLevel n.val s) 0
        (putRecord (recordNow 0 1 n.val (sourceLevel n.val s) 4 a.toNat b.toNat t) t))) ∧
    (∀ r, s.backup.records.find? (fun r => r.tally != 0) = some r → s.dev.mainOn = true → s.flash.busy0 = none →
      s.tamper.logPos % 4096 ≠ 0 →
      let t := (flashAnd (logAddr s.tamper.logPos) (logBytes r s) s).modTamper fun t => { t with logPos := (s.tamper.logPos + 1) % 32768 }
      exec (.tamperLogCopy true) s = gives (t.modBackup fun b => { b with
        records := (b.records.takeWhile (· != r)) ++ (b.records.dropWhile (· != r)).tail })) ∧
    (∀ mv : BitVec 16, s.dev.mainOn = true →
      let t := s.modBackup fun b => { b with vbatMv := mv.toNat, vbat := decide (2200 ≤ mv.toNat) }
      exec (.vbatMeasure mv) s = gives (if mv.toNat < 2500 then tamperErr 0 t else t))

/-- The tamper commands, started: reports of state, log and evidence, Punty rows written, a pin's configuration posted for the slow domain
(R587, R589, R593; R70). -/
def Obligations.TamperCommandsComplete : Prop :=
  ∀ (id : Nat) (c : Cmd) (s : State),
    let gives := fun (t : State) => Host.Outcome.next (ρ := Refusal) (φ := Fault) t
    let w := fun (v : Word) => le 4 v.toNat
    (Runs id 0xB001 c s → exec (.tamperStatus id) s = gives (finish c (Ending.out (w (tamperStatus s) ++ w (tamperAlarm s)
      ++ w (tamperActive s) ++ w (regGet 0xE00C s) ++ ((List.range 8).map fun n => w (pinCfg n s)).flatten ++ w (tamperEvidence s)
      ++ le 8 s.backup.rtcSec ++ zeros 4)) s)) ∧
    (let t := c.inlNat 48 8
     let rs := (logRecords s).filter fun b => decide (t ≤ natAt b 8 8)
     let n := min rs.length (c.dstLen / 64)
     let next := match (rs.drop n).head? with
       | some b => natAt b 8 8
       | none => (rs.take n).foldl (fun m b => max m (natAt b 8 8 + 1)) t
     Runs id 0xB002 c s → (rs = [] ∨ 64 ≤ c.dstLen) → exec (.tamperLogRead id) s =
      gives (finish c ⟨.ok, (rs.take n).flatten.length, le 8 next, (rs.take n).flatten, []⟩ s)) ∧
    (Runs id 0xB003 c s → exec (.evidenceRead id) s = gives (finish c (Ending.out (evidenceBitmap s.otp.evidence
      ++ le 2 s.otp.evidence ++ le 1 s.backup.pending.length ++ le 1 (bit s.otp.retire) ++ zeros 4)) s)) ∧
    (let f := (puntyArgs c).1
     let n := (puntyArgs c).2
     let t := (List.range n).foldl (fun s i => puntyPut (f + i) (bytesAt c.data (16 * i) 16) s) s
     Runs id 0xB004 c s → c.scratch = [] → exec (.puntyWrite id) s = gives (if puntySwapped f n t then finishSt c .ok t
      else (cmdPut { c with scratch := [1] } t).modPunty fun p => { p with waits := p.waits ++ [(id, f, n)] })) ∧
    (let key := 0xE010 + 4 * c.inlNat 48 1
     Runs id 0xB005 c s → c.scratch = [] → pend key s = false → exec (.tamperPinConfig id) s =
      gives (post key (pinWord (pinArgs c)) (cmdPut { c with scratch := [1] } s)))

/-- The Punty: a verified row goes to the slot that is not the newest and becomes it; a selected tag in its field answers reads of rows in
range, and halts (R589 to R591). -/
def Obligations.PuntyEventsComplete : Prop :=
  ∀ (row : BitVec 8) (s : State),
    let gives := fun (t : State) => Host.Outcome.next (ρ := Refusal) (φ := Fault) t
    let answers := fun (b : List Byte) => gives (bump 0xF100 1 (s.modPunty fun p => { p with answer := b ++ crcA b }))
    let live := s.punty.field = true ∧ s.punty.selected = true ∧ s.punty.halted = false
    let seen := fun (i : Nat) => puntySeen (row.toNat + i) s
    (∀ n bytes rest, s.punty.shadow = (n, bytes) :: rest → (s.dev.mainOn = true ∨ s.backup.vbat = true) →
      let row := puntySlots n s
      let fresh : PuntySlot := ⟨bytes, Config.puntyCrc (leNat bytes), if row.first then !row.slot1.ver else !row.slot0.ver⟩
      exec (.puntySwap true) s = gives (puntyDone (bump 0xF104 1 (s.modPunty fun p => { p with
        rows := assocSet n (some (if row.first then { row with slot1 := fresh } else { row with slot0 := fresh })) p.rows
        shadow := rest })))) ∧
    (s.punty.field = true → exec .puntyAnticollision s = gives (s.modPunty fun p => { p with
      selected := true, halted := false, answer := p.uid ++ [s.punty.uid.foldl (· ^^^ ·) 0] })) ∧
    (live → row.toNat < 128 → exec (.ptRead row) s = answers (seen 0)) ∧
    (live → row.toNat ≤ 124 → exec (.ptRead4 row) s = answers (seen 0 ++ seen 1 ++ seen 2 ++ seen 3)) ∧
    (s.punty.field = true → s.punty.selected = true →
      exec .hlta s = gives (s.modPunty fun p => { p with halted := true, selected := false, answer := [] }))

/-! ## What holds of every command -/

/-- The command that a row of an opcode runs, and the opcode. -/
def Sys2Proof.Stated.opcodeRow : Instr → Option (Nat × Nat)
  | .nop id => some (id, 0x0000)
  | .deviceInfo id => some (id, 0x0001)
  | .modeProvisionBegin id _ => some (id, 0x0010)
  | .modeProvisionComplete id => some (id, 0x0011)
  | .modeReprovision id _ => some (id, 0x0012)
  | .modeCeremonyBegin id => some (id, 0x0020)
  | .modeCeremonyEnd id => some (id, 0x0021)
  | .modeMaintainBegin id => some (id, 0x0030)
  | .modeMaintainCommit id _ _ _ => some (id, 0x0031)
  | .modeMaintainAbort id => some (id, 0x0032)
  | .imageLoadErase id _ => some (id, 0x0033)
  | .imageLoadWrite id _ => some (id, 0x0033)
  | .imageStatus id _ _ => some (id, 0x0034)
  | .modeJoinBegin id => some (id, 0x0040)
  | .modeJoinAbort id => some (id, 0x0041)
  | .modeZeroize id _ => some (id, 0x0050)
  | .modeRetire id _ => some (id, 0x0051)
  | .rtcSet id => some (id, 0x0060)
  | .unitDisable id => some (id, 0x0070)
  | .unitEnable id => some (id, 0x0071)
  | .keyGenerate id => some (id, 0x1001)
  | .keyImport id => some (id, 0x1002)
  | .keyExport id => some (id, 0x1003)
  | .keyDerive id => some (id, 0x1004)
  | .keyDelete id => some (id, 0x1005)
  | .keyQuery id => some (id, 0x1006)
  | .keySetPolicy id => some (id, 0x1007)
  | .keyImportComponents id _ => some (id, 0x1008)
  | .keyExportComponents id _ => some (id, 0x1009)
  | .symEncrypt id => some (id, 0x2001)
  | .symDecrypt id => some (id, 0x2002)
  | .aeadSeal id => some (id, 0x2003)
  | .aeadOpen id => some (id, 0x2004)
  | .macGenerate id => some (id, 0x2005)
  | .macVerify id => some (id, 0x2006)
  | .symWrap id => some (id, 0x2007)
  | .symUnwrap id => some (id, 0x2008)
  | .pinTranslate id => some (id, 0x3001)
  | .pinVerify id => some (id, 0x3002)
  | .pinOffsetGenerate id => some (id, 0x3003)
  | .pvvGenerate id => some (id, 0x3004)
  | .arqcVerify id => some (id, 0x3010)
  | .arqcVerifyArpc id => some (id, 0x3011)
  | .cvvGenerate id => some (id, 0x3020)
  | .cvvVerify id => some (id, 0x3021)
  | .dukptPinTranslate id => some (id, 0x3030)
  | .dukptMacVerify id => some (id, 0x3031)
  | .retailMacGenerate id => some (id, 0x3040)
  | .retailMacVerify id => some (id, 0x3041)
  | .ff1Tokenise id => some (id, 0x3050)
  | .ff1Detokenise id => some (id, 0x3051)
  | .pkSign id _ => some (id, 0x4001)
  | .pkVerify id _ => some (id, 0x4002)
  | .pkKeypairGenerate id _ => some (id, 0x4003)
  | .ecdhDerive id _ => some (id, 0x4004)
  | .kemEncapsulate id _ => some (id, 0x4005)
  | .kemDecapsulate id _ => some (id, 0x4006)
  | .rsaEncrypt id _ => some (id, 0x4007)
  | .rsaDecrypt id _ => some (id, 0x4008)
  | .randomBytes id => some (id, 0x5001)
  | .rngHealth id => some (id, 0x5002)
  | .sharesMint id => some (id, 0x6001)
  | .sharesTransfer id => some (id, 0x6002)
  | .sharesBalance id => some (id, 0x6003)
  | .sharesBurnStranded id _ => some (id, 0x6004)
  | .routeUpdateAdmit id => some (id, 0x6005)
  | .routeUpdateInstall id _ => some (id, 0x6005)
  | .routeUpdatePortCost id => some (id, 0x6005)
  | .routeUpdateSetKeeper id => some (id, 0x6005)
  | .peerStatus id => some (id, 0x6006)
  | .appletInstall id => some (id, 0xA001)
  | .appletRemove id => some (id, 0xA002)
  | .appletInvoke id => some (id, 0xA003)
  | .appletList id => some (id, 0xA004)
  | .vaultFormat id => some (id, 0x7001)
  | .vaultStatus id => some (id, 0x7002)
  | .journalRead id => some (id, 0x7003)
  | .journalExport id => some (id, 0x7004)
  | .vaultRebuild id => some (id, 0x7005)
  | .vaultSetLayout id => some (id, 0x7006)
  | .enrol id _ => some (id, 0x8001)
  | .revoke id => some (id, 0x8001)
  | .setDefine id => some (id, 0x8001)
  | .setHold id => some (id, 0x8001)
  | .quorumStatus id => some (id, 0x8002)
  | .cardSession id _ => some (id, 0x8003)
  | .badgeAuthenticate id _ => some (id, 0x8004)
  | .tagInventory id _ _ _ => some (id, 0x8005)
  | .sealRead id _ => some (id, 0x8006)
  | .sealIssue id _ => some (id, 0x8007)
  | .sealWrite id _ => some (id, 0x8007)
  | .tamperStatus id => some (id, 0xB001)
  | .tamperLogRead id => some (id, 0xB002)
  | .evidenceRead id => some (id, 0xB003)
  | .puntyWrite id => some (id, 0xB004)
  | .tamperPinConfig id => some (id, 0xB005)
  | .furrowCreate id => some (id, 0x9001)
  | .furrowSetPolicy id => some (id, 0x9002)
  | .furrowQuiesce id => some (id, 0x9003)
  | .furrowReset id => some (id, 0x9004)
  | .furrowRemove id => some (id, 0x9005)
  | .furrowDisable id => some (id, 0x9006)
  | .furrowEnable id => some (id, 0x9007)
  | .dirtyLogStart id => some (id, 0x9008)
  | .dirtyLogStop id => some (id, 0x9009)
  | .furrowQuery id => some (id, 0x900A)
  | .cqCreate id => some (id, 0x9010)
  | .cqDelete id => some (id, 0x9011)
  | .sqCreate id => some (id, 0x9012)
  | .sqDelete id => some (id, 0x9013)
  | .sqDisable id => some (id, 0x9014)
  | .sqEnable id => some (id, 0x9015)
  | .queueQuery id => some (id, 0x9016)
  | .selftestResults id => some (id, 0xF001)
  | .loopback id => some (id, 0xF002)
  | .counterSnapshot id => some (id, 0xF003)
  | .unitSelftest id => some (id, 0xF010)
  | .memoryTest id => some (id, 0xF011)
  | _ => none

/-- Where several rows share an opcode, the function number in the command's first inline byte names the row (Tables 12-9, 15-6, 17-3). -/
def Sys2Proof.Stated.namesRow (c : Cmd) : Instr → Prop
  | .imageLoadErase .. | .sealIssue .. => c.inlNat 48 1 ≠ 2
  | .imageLoadWrite .. | .sealWrite .. | .routeUpdateInstall .. | .revoke .. => c.inlNat 48 1 = 2
  | .routeUpdatePortCost .. | .setDefine .. => c.inlNat 48 1 = 3
  | .routeUpdateSetKeeper .. | .setHold .. => c.inlNat 48 1 = 4
  | .routeUpdateAdmit .. | .enrol .. => c.inlNat 48 1 ≠ 2 ∧ c.inlNat 48 1 ≠ 3 ∧ c.inlNat 48 1 ≠ 4
  | _ => True

/-- The row of each opcode runs its command through steps 7 to 10 of Table 5-6. A command whose reads have arrived is handed to its engines
only if the parameter, key and audit checks of its opcode admit it; a failed check ends it at once. A command whose policies name applets
runs their hooks between steps 8 and 9. An admitted one is handed over when its turn comes; one in progress goes on unless a mask port
keeps it, and neither moves while a record that it uses is being reloaded. In every other phase its row does nothing. The lengths and the
block of those checks are the ones that its dispatch has used. -/
def Obligations.CommandsAreAdmittedThenStart : Prop :=
  ∀ (i : Instr) (id code : Nat), opcodeRow i = some (id, code) →
    ∃ (o : OpSpec) (body : Cmd → State → State), o.lens = (opSpec code).lens ∧ o.block = (opSpec code).block ∧
      ∀ (c : Cmd) (s : State), cmdGet id s = some c → c.opcode.toNat = code → namesRow c i →
        let gives := fun (t : State) => Host.Outcome.next (ρ := Refusal) (φ := Fault) t
        let handed := fun (a : Admit) => match a with
          | .stay t => gives t
          | .go d t => gives (begin o d body t)
        (c.phase = .ready → exec i s = handed (admission o c s)) ∧
        (c.phase = .hook → exec i s = if c.hookStep = 3 then handed (step9 o c s) else gives (startHook id s)) ∧
        (c.phase = .admitted → keyReloads c s = false → exec i s = handed (.go c s)) ∧
        (c.phase = .started → keyReloads c s = false → exec i s = gives (if masksReady c s then body c s else maskStall c s)) ∧
        ((c.phase = .admitted ∨ c.phase = .started) → keyReloads c s = true → exec i s = gives s) ∧
        (c.phase ≠ .ready → c.phase ≠ .hook → c.phase ≠ .admitted → c.phase ≠ .started → exec i s = gives s)

/-! ## Arithmetic and exceptions of a Warden core -/

/-- `div`, `mod`, `divu` and `modu` complete with every divisor: the quotient is truncated toward zero, the remainder of `mod` takes the
sign of the dividend, division by 0 gives 0 and the dividend, −2^31 by −1 gives 0x7FFF_FFFF and −1, and in every case the dividend is
quotient × divisor + remainder modulo 2^32 (R445). -/
def Obligations.DivisionNeverRaises : Prop :=
  ∀ (n : Fin 4) (rd rs1 rs2 : BitVec 4) (s s' : State), Fetches n s s' → Placed n s →
    let k := before n s
    let a := k.reg rs1
    let b := k.reg rs2
    let gives := fun (v : Word) => Host.Outcome.next (ρ := Refusal) (φ := Fault) (completed n k (putReg n.val rd v s'))
    ∃ q r uq ur : Word,
      exec (.div n rd rs1 rs2 0) s = gives q ∧ exec (.mod n rd rs1 rs2 0) s = gives r ∧
      exec (.divu n rd rs1 rs2 0) s = gives uq ∧ exec (.modu n rd rs1 rs2 0) s = gives ur ∧
      a = q * b + r ∧ a = uq * b + ur ∧
      (b = 0 → q = 0 ∧ r = a ∧ uq = 0 ∧ ur = a) ∧
      (a = 0x80000000 → b = 0xFFFFFFFF → q = 0x7FFFFFFF ∧ r = 0xFFFFFFFF) ∧
      (b ≠ 0 → ¬(a = 0x80000000 ∧ b = 0xFFFFFFFF) → q.toInt = a.toInt.tdiv b.toInt ∧ r.toInt = a.toInt.tmod b.toInt) ∧
      (b ≠ 0 → uq.toNat = a.toNat / b.toNat ∧ ur.toNat = a.toNat % b.toNat)

/-- What a completed instruction that writes one general register leaves unchanged: every other general register, w0 in every case,
every other core, every byte of the SRAM and every colour, the CSR space's registers but the counter of instructions, and the core's
own CSRs but `LC`. -/
def Obligations.RegisterResultsChangeNothingElse : Prop :=
  ∀ (n : Fin 4) (rd : BitVec 4) (v : Word) (s : State),
    let k := coreGet n.val s
    let t := completed n k (putReg n.val rd v s)
    let x := coreGet n.val t
    (k.regs.length = 16 → x.reg rd = if rd = 0 then 0 else v) ∧ (∀ r, r ≠ rd → x.reg r = k.reg r) ∧
    (x.status, x.epc, x.cause, x.tval, x.pceil, x.ls, x.le, x.slc, x.sls, x.sle, x.stvec, x.mtvec, x.ssave, x.msave) =
      (k.status, k.epc, k.cause, k.tval, k.pceil, k.ls, k.le, k.slc, k.sls, k.sle, k.stvec, k.mtvec, k.ssave, k.msave) ∧
    (x.fstatus, x.fepc, x.fcause, x.ftval, x.tmatch, x.ien, x.ipend, x.mpuctl, x.mpu, x.dma, x.late, x.restarts) =
      (k.fstatus, k.fepc, k.fcause, k.ftval, k.tmatch, k.ien, k.ipend, k.mpuctl, k.mpu, k.dma, k.late, k.restarts) ∧
    (∀ m : Fin 4, m ≠ n → coreGet m.val t = coreGet m.val s) ∧
    (∀ a, cellGet 0 a t.warden.sram = cellGet 0 a s.warden.sram) ∧ t.warden.tags = s.warden.tags ∧
    (∀ key, key ≠ 0xA100 → key ≠ 0xA104 → regGet key t = regGet key s) ∧
    (t.dev, t.ports, t.cmdif, t.furrows, t.units, t.keytab, t.rng, t.cipher, t.pke) =
      (s.dev, s.ports, s.cmdif, s.furrows, s.units, s.keytab, s.rng, s.cipher, s.pke) ∧
    (t.flash, t.cistern, t.vault, t.cust, t.otp, t.backup, t.tamper, t.punty) =
      (s.flash, s.cistern, s.vault, s.cust, s.otp, s.backup, s.tamper, s.punty)

/-- Taking a trap leaves the core at the vector of Table 14-1, with the return address and the old `GM` in `EPC`, code and delay-slot bit in
`CAUSE`, `TVAL`, the level kept in `PPL`, `GM` set and `LC` 0. All but `RETURN_FORGE` save the loop state; `RETURN_FORGE`, and every trap
while `GM` is set, saves the exception CSRs in the F bank. The general registers keep their values. A trap that ends or serves an
invocation does that next, from the state this one describes (R474 to R476). -/
def Obligations.TrapsEnterTheHandler : Prop :=
  ∀ (n : Fin 4) (code : Nat) (tval ret : Word) (ds : Bool) (t : Nat) (s : State),
    let k := coreGet n.val s
    trapTarget code k.level k.masked = some t → (t = 1 ∨ t = 3) → code < 0x20 →
    ∃ u, (code ≠ 8 → (k.inv = none ∨ k.level ≠ 0 ∨ 0x10 ≤ code) → takeTrap n.val code tval ds ret s = u) ∧
      (code ≠ 8 → code ≠ 9 → k.inv.isSome → k.level = 0 → code < 0x10 → takeTrap n.val code tval ds ret s = endInv n.val .fault u) ∧
      (code = 9 → tval.toNat ≤ 6 → takeTrap n.val code tval ds ret s = u) ∧
      let x := coreGet n.val u
      x.epc = (ret &&& 0xFFFFFFFC) ||| wbit k.masked 0 ∧ x.cause = wbit ds 31 ||| wfield code 0 ∧ x.tval = tval ∧ x.lc = 0 ∧
      x.status = statusOf true k.level t ∧ x.pc = (if t = 3 then k.mtvec else k.stvec) ∧ x.slot = none ∧ x.waiting = false ∧
      (code ≠ 8 → (x.slc, x.sls, x.sle) = (k.lc, k.ls, k.le)) ∧ (code = 8 → (x.slc, x.sls, x.sle) = (k.slc, k.sls, k.sle)) ∧
      ((code = 8 ∨ k.masked = true) → (x.fstatus, x.fepc, x.fcause, x.ftval) = (k.status, k.epc, k.cause, k.tval)) ∧
      (code ≠ 8 → k.masked = false → (x.fstatus, x.fepc, x.fcause, x.ftval) = (k.fstatus, k.fepc, k.fcause, k.ftval)) ∧
      (x.regs, x.ls, x.le, x.pceil, x.stvec, x.mtvec, x.ien, x.ipend, x.mpuctl, x.mpu, x.dma) =
        (k.regs, k.ls, k.le, k.pceil, k.stvec, k.mtvec, k.ien, k.ipend, k.mpuctl, k.mpu, k.dma) ∧
      (∀ m : Fin 4, m ≠ n → coreGet m.val u = coreGet m.val s) ∧ u.warden.sram = s.warden.sram

/-- The exceptions of Table 14-2, where no refused store displaces them: a reserved field, a banned place in a delay slot or at a loop's
end, or a level too low raises `ILLEGAL` with the word; a data address that is no multiple of its size raises `MISALIGNED` with the
address; an address outside the map raises `BUS_ERROR`; an `xret` to a level above its own or `PCEIL` raises `RETURN_FORGE`
(R438, R443, R444, R449, R479, R482, R488). -/
def Obligations.ExceptionsAreRaised : Prop :=
  ∀ (n : Fin 4) (rd rs1 rs2 : BitVec 4) (imm : BitVec 18) (far : BitVec 26) (s s' : State), Fetches n s s' →
    storeLate (before n s) = none → storeLate (coreGet n.val s') = none →
    let k := before n s
    let u := coreMod n.val (fun x => { x with waiting := k.waiting }) s'
    let raises := fun (code : Nat) (tval : Word) (x : State) =>
      Host.Outcome.next (ρ := Refusal) (φ := Fault) (takeTrap n.val code tval k.slot.isSome k.here x)
    let a := k.reg rs1 + imm.signExtend 32
    (∀ z : BitVec 8, z ≠ 0 → exec (.add n rd rs1 rs2 z) s = raises 1 (wordR 0 rd rs1 rs2 z) u ∧
      exec (.mul n rd rs1 rs2 z) s = raises 1 (wordR 0xA rd rs1 rs2 z) u) ∧
    (32 ≤ imm.toNat → exec (.shlk n rd rs1 imm) s = raises 1 (wordI 7 rd rs1 imm) u) ∧
    (placeIllegal true k = true → exec (.breq n rs1 rs2 imm) s = raises 1 (wordI 0x20 rs1 rs2 imm) u ∧
      exec (.jmp n far) s = raises 1 (wordJ 0x28 far) u) ∧
    (k.level = 0 → exec (.wait n 0) s = raises 1 (wordX 2 0) u ∧ exec (.xret n 0) s = raises 1 (wordX 0 0) u) ∧
    (Placed n s → a.toNat % 4 ≠ 0 →
      exec (.ldw n rd rs1 imm) s = raises 6 a s' ∧ exec (.stw n rs2 rs1 imm false) s = raises 6 a s') ∧
    (Placed n s → a.toNat % 4 = 0 → mapAdmits .load k.level a.toNat 4 = false → exec (.ldw n rd rs1 imm) s = raises 0xA a s') ∧
    (Placed n s → (k.reg rs1).toNat % 4 ≠ 0 → exec (.atswap n rd rs1 rs2 0) s = raises 6 (k.reg rs1) s') ∧
    (PlacedBranch n s → k.level ≠ 0 → (k.level < k.prevLevel ∨ k.pceil.toNat < k.prevLevel) →
      exec (.xret n 0) s = .next (takeTrap n.val 8 (wfield k.level 2 ||| wfield k.prevLevel 0) false k.pc s'))

/-! ## Reset and what every step keeps -/

/-- At main power-up of a device whose retire fuse is not burned: the mode is SURVEY; every guard is locked; the Headgate is free; both
ports are down; furrow 0 is ACTIVE and every other furrow FREE; no queue exists and every credit is in the pool; every core is at M level,
masked, with `PCEIL` 3, its MPU off, `LC` 0 and its general registers 0, core 0 running at address 0 and the others held; a hold is
600 s; the RTC of a backup domain without earlier supply starts at 0 and not valid, with every pin disabled. The memories are in canonical
form and every core has its registers (R177, R190, R437, R553, R586, R587). -/
def Obligations.ResetIsAsStated : Prop :=
  let s := State.reset
  s.dev.mode = .survey ∧ s.dev.armed = 0 ∧ s.ports.hg.owner = .free ∧ s.ports.a.up = false ∧ s.ports.b.up = false ∧
  furrowState 0 s = .active ∧ (∀ f, f ≠ 0 → furrowState f s = .free) ∧
  s.cmdif.sqs = [] ∧ s.cmdif.cqs = [] ∧ s.cmdif.cmds = [] ∧ s.cmdif.pool = 65536 ∧
  (∀ n : Fin 4, let k := coreGet n.val s
    k.level = 3 ∧ k.masked = true ∧ k.pceil = 3 ∧ k.mpuctl.getLsbD 0 = false ∧ k.lc = 0 ∧ (∀ r, k.reg r = 0) ∧
      k.held = decide (n ≠ 0)) ∧
  (coreGet 0 s).pc = 0 ∧ s.cust.holdS = 600 ∧ s.backup.rtcSec = 0 ∧ s.backup.rtcFrac = 0 ∧ s.backup.rtcValid = false ∧
  (∀ p ∈ s.backup.pins, p.mode = 0) ∧ s.backup.pins.length = 8 ∧ Memory.wf s = true ∧ s.coresWf ∧ s.pending = []

/-- Every step keeps the form of the machine: both memories canonical (addresses rising, no byte listed that an unlisted address reads as)
and 16 general registers in every core. -/
def Obligations.StepsKeepTheMachineForm : Prop :=
  ∀ s t : State, step s = .next t → Memory.wf s = true → s.coresWf → Memory.wf t = true ∧ t.coresWf

/-- Nothing takes back what is burned: along every step the fuses stay, a burned retire fuse stays burned, and no evidence count falls
(R99, R581, R582). -/
def Obligations.StepsKeepWhatIsBurned : Prop := ∀ s t : State, step s = .next t → s.keepsOtp t

/-! ## What each command can write -/

/-- The parts that a command may write, with all that its completion, its events and its errors write. -/
def Sys2Proof.Stated.mayWrite : Instr → List Part
  | .nop .. | .deviceInfo .. | .imageStatus .. | .unitDisable .. | .unitEnable .. | .keyImport .. | .keyExport ..
  | .keyDerive .. | .keyDelete .. | .keyQuery .. | .keySetPolicy .. | .keyImportComponents .. | .recordReload .. | .floorsLoaded
  | .pinVerify .. | .pinOffsetGenerate .. | .pvvGenerate .. | .arqcVerify .. | .arqcVerifyArpc .. | .cvvGenerate ..
  | .cvvVerify .. | .dukptMacVerify .. | .retailMacGenerate .. | .retailMacVerify .. | .ff1Tokenise .. | .ff1Detokenise ..
  | .rngHealth .. | .sharesMint .. | .sharesTransfer .. | .sharesBalance .. | .sharesBurnStranded .. | .routeUpdateAdmit ..
  | .routeUpdateInstall .. | .routeUpdatePortCost .. | .routeUpdateSetKeeper .. | .peerStatus .. | .sessionResponse ..
  | .sessionConfirm .. | .weperFrameReceive .. | .broadcast .. | .statementAck .. | .appletInstall .. | .appletRemove ..
  | .appletInvoke .. | .appletList .. | .appletBudget .. | .exit .. | .vaultStatus .. | .journalRead .. | .journalExport ..
  | .vaultRebuild .. | .vaultSetLayout .. | .quorumStatus .. | .sealRead .. | .tamperStatus .. | .tamperLogRead ..
  | .evidenceRead .. | .tamperPinConfig .. | .furrowCreate .. | .furrowSetPolicy .. | .furrowQuiesce .. | .furrowDisable ..
  | .furrowEnable .. | .dirtyLogStart .. | .dirtyLogStop .. | .furrowQuery .. | .cqCreate .. | .cqDelete .. | .sqCreate ..
  | .sqDelete .. | .sqDisable .. | .sqEnable .. | .queueQuery .. | .selftestResults .. | .loopback .. | .counterSnapshot ..
  | .memoryTest .. =>
    [.dev, .ports, .cmdif, .furrows, .keytab, .warden, .flash, .cistern, .vault, .regs, .free]
  | .imageLoadErase .. | .imageLoadWrite .. | .laneFault .. | .add .. | .sub .. | .and .. | .or .. | .xor .. | .shl .. | .shr ..
  | .sar .. | .rotr .. | .cmplt .. | .cmpltu .. | .mul .. | .mulhi .. | .mulhiu .. | .div .. | .divu .. | .mod .. | .modu ..
  | .atswap .. | .atadd .. | .addk .. | .andk .. | .ork .. | .xork .. | .cmpltk .. | .cmpltuk .. | .shlk .. | .shrk ..
  | .sark .. | .upk .. | .breq .. | .brne .. | .brlt .. | .brge .. | .brltu .. | .brgeu .. | .jmp .. | .call .. | .callr ..
  | .loop .. | .loopi .. | .rdcr .. | .wrcr .. | .setcr .. | .clrcr .. | .xret .. | .trap .. | .wait .. | .sync .. | .tagw ..
  | .tagr .. | .lateWrite .. | .interrupt .. =>
    [.dev, .ports, .cmdif, .furrows, .units, .keytab, .warden, .flash, .cistern, .vault, .punty, .regs, .free]
  | .blkUnlock .. | .claim .. | .release .. | .cancel .. | .portXEvtCtl .. | .portXEvtHead .. | .portRetrain ..
  | .portDisable .. | .adminQueueEnable .. | .adminQueueDisable .. | .kslotLoad .. | .kslotClear .. | .cipherDisable ..
  | .flumeDisable .. | .pkeDisable .. | .keyPrefWrite .. | .maskFailsClear .. | .meshPortRetrain .. | .meshPortDisable ..
  | .slotRelease .. | .tamperLevel0Write .. =>
    [.dev, .ports, .cmdif, .furrows, .keytab, .rng, .cipher, .warden, .flash, .cistern, .vault, .punty, .regs]
  | .cplReceive .. | .linkDown .. | .entryFetch .. | .entryArrive .. | .dispatch .. | .adj .. | .statement .. | .transfer ..
  | .transferAck .. | .draw .. | .settleRequest .. | .serviceCall .. =>
    [.dev, .ports, .cmdif, .furrows, .keytab, .warden, .flash, .cistern, .vault, .regs]
  | .csrWrite .. | .wideValueLatch .. | .flitReceive .. | .sqTail .. | .cqHead .. | .rngData .. | .estLatch ..
  | .estimateWindowEnd .. | .rngHealthFail | .drbgInstantiate | .reseed =>
    [.dev, .ports, .cmdif, .furrows, .keytab, .rng, .cipher, .warden, .flash, .cistern, .vault, .punty, .regs, .free]
  | .modeCeremonyBegin .. | .modeCeremonyEnd .. | .modeMaintainBegin .. | .modeMaintainAbort .. | .modeJoinBegin ..
  | .cacheFill .. | .puntyWrite .. | .puntySwap .. =>
    [.dev, .ports, .cmdif, .furrows, .keytab, .warden, .flash, .cistern, .vault, .punty, .regs, .free]
  | .symEncrypt .. | .symDecrypt .. | .aeadSeal .. | .aeadOpen .. | .macGenerate .. | .macVerify .. | .symWrap ..
  | .symUnwrap .. =>
    [.dev, .ports, .cmdif, .furrows, .keytab, .rng, .cipher, .warden, .flash, .cistern, .vault, .regs, .free]
  | .knownAnswerTests .. | .ldw .. | .ldh .. | .ldhu .. | .ldb .. | .ldbu .. | .unitSelftest .. =>
    [.dev, .ports, .cmdif, .furrows, .units, .keytab, .rng, .warden, .flash, .cistern, .vault, .punty, .regs, .free]
  | .linkTrainingDone .. | .e9CapRsp .. | .e9CapTimeout .. | .replayTimeout .. | .portDown .. | .queueDrained .. =>
    [.dev, .ports, .cmdif, .flash, .regs]
  | .revoke .. | .setDefine .. | .setHold .. | .tagInventory .. | .sealIssue .. | .sealWrite .. =>
    [.dev, .ports, .cmdif, .furrows, .keytab, .warden, .flash, .cistern, .vault, .cust, .regs, .free]
  | .leaseExpiry | .headgateLinkLoss | .cipherDrained | .flumeDrained | .pkeDrained =>
    [.dev, .ports, .flash, .regs]
  | .progRows .. | .progWords .. | .eraseMain .. | .eraseParam .. | .recordWrite .. =>
    [.dev, .ports, .warden, .flash, .regs]
  | .keyGenerate .. | .pinTranslate .. | .dukptPinTranslate .. | .randomBytes .. =>
    [.dev, .ports, .cmdif, .furrows, .keytab, .rng, .warden, .flash, .cistern, .vault, .regs, .free]
  | .keyExportComponents .. | .enrol .. | .cardSession .. | .badgeAuthenticate .. =>
    [.dev, .ports, .cmdif, .furrows, .keytab, .rng, .warden, .flash, .cistern, .vault, .cust, .regs, .free]
  | .pkSign .. | .pkKeypairGenerate .. | .kemEncapsulate .. | .rsaEncrypt .. =>
    [.dev, .ports, .cmdif, .furrows, .units, .keytab, .rng, .pke, .warden, .flash, .cistern, .vault, .punty, .regs, .free]
  | .pkVerify .. | .ecdhDerive .. | .kemDecapsulate .. | .rsaDecrypt .. =>
    [.dev, .ports, .cmdif, .furrows, .units, .keytab, .pke, .warden, .flash, .cistern, .vault, .punty, .regs, .free]
  | .startupTestDone .. | .stw .. | .sth .. | .stb .. =>
    [.dev, .ports, .cmdif, .furrows, .units, .keytab, .rng, .cipher, .warden, .flash, .cistern, .vault, .punty, .regs, .free]
  | .completionToken .. | .tokenTimeout .. | .presenceCheck .. | .cartStatusPoll .. =>
    [.dev, .ports, .cmdif, .furrows, .keytab, .warden, .flash, .cistern, .vault, .punty, .regs]
  | .modeMaintainCommit .. | .modeRetire .. | .zeroizeDecision .. =>
    [.dev, .ports, .cmdif, .furrows, .keytab, .rng, .cipher, .warden, .flash, .cistern, .vault, .cust, .otp, .backup, .tamper, .punty, .regs, .free]
  | .flumeUnitFault .. | .meshTrainingDone .. | .meshTrainingTimeout .. =>
    [.dev, .ports, .cmdif, .furrows, .units, .keytab, .warden, .flash, .cistern, .vault, .punty, .regs]
  | .rollupClose | .segmentSeal .. | .slotBringUp .. =>
    [.dev, .ports, .flash, .vault, .regs]
  | .maskFallback | .expanderRekey .. | .e7Req .. =>
    [.rng, .regs]
  | .sessionInit .. | .frameResendTimeout .. | .transferResend =>
    [.cistern, .regs]
  | .vaultReplay .. | .catchUpDone .. | .vaultRebuildDone .. =>
    [.dev, .ports, .flash, .vault, .punty, .regs]
  | .atr .. | .cardOvercurrent | .sessionExpiry .. =>
    [.dev, .ports, .flash, .cust, .regs]
  | .postedWriteLand .. | .alarmRecord =>
    [.dev, .ports, .cmdif, .furrows, .keytab, .warden, .flash, .cistern, .vault, .backup, .tamper, .punty, .regs]
  | .cqHomeReturn .. | .shareRecheck .. =>
    [.cmdif]
  | .surveyItemDone .. | .surveyRepeat .. =>
    [.dev, .ports, .cmdif, .furrows, .units, .keytab, .rng, .cipher, .warden, .flash, .cistern, .vault, .cust, .backup, .tamper, .punty, .regs]
  | .wake | .capacitiveWake =>
    [.dev, .ports, .flash, .cistern, .vault, .backup, .tamper, .punty, .regs]
  | .tempStepDown | .tempStepUp =>
    [.dev]
  | .modeProvisionBegin .. | .modeJoinAbort .. =>
    [.dev, .ports, .cmdif, .furrows, .keytab, .rng, .warden, .flash, .cistern, .vault, .backup, .punty, .regs, .free]
  | .modeProvisionComplete .. | .vaultFormat .. =>
    [.dev, .ports, .cmdif, .furrows, .keytab, .rng, .warden, .flash, .cistern, .vault, .punty, .regs, .free]
  | .modeReprovision .. | .modeZeroize .. =>
    [.dev, .ports, .cmdif, .furrows, .keytab, .rng, .cipher, .warden, .flash, .cistern, .vault, .cust, .backup, .tamper, .punty, .regs, .free]
  | .sessionReplace .. | .transferFloor .. =>
    [.cistern]
  | .time .. | .pstoreRead .. =>
    [.warden, .regs]
  | .pstoreWrite .. | .log .. =>
    [.dev, .ports, .warden, .flash, .vault, .regs]
  | .cardInsert | .cardRemoved =>
    [.dev, .ports, .flash, .cistern, .vault, .cust, .backup, .tamper, .punty, .regs]
  | .probe .. | .cardSilent =>
    [.cust]
  | .puntyAnticollision | .hlta =>
    [.punty]
  | .ptRead .. | .ptRead4 .. =>
    [.punty, .regs]
  | .furrowQuiesced .. | .furrowDisabled .. =>
    [.dev, .ports, .furrows, .flash, .regs]
  | .furrowReset .. | .furrowRemove .. =>
    [.dev, .ports, .cmdif, .furrows, .keytab, .cipher, .warden, .flash, .cistern, .vault, .regs, .free]
  | .trainingRequest .. =>
    [.ports]
  | .flushAck .. =>
    [.dev, .ports]
  | .flushTimeout .. =>
    [.ports, .regs]
  | .sealCompletion .. =>
    [.dev, .ports, .cmdif, .furrows, .flash, .regs]
  | .coalesceTimeout .. =>
    [.ports, .cmdif, .furrows]
  | .mainPowerGood =>
    [.dev, .rng, .vault, .otp, .backup, .tamper, .regs]
  | .bootRomStart =>
    [.dev, .ports, .cipher, .flash, .vault, .otp, .backup, .tamper, .punty, .regs]
  | .bootRelease .. =>
    [.dev, .ports, .cmdif, .furrows, .keytab, .rng, .cipher, .warden, .flash, .cistern, .vault, .cust, .tamper, .regs, .free]
  | .surveyEnd .. =>
    [.dev, .ports, .cmdif, .furrows, .keytab, .rng, .warden, .flash, .cistern, .vault, .otp, .backup, .punty, .regs]
  | .mainPowerLoss .. =>
    [.dev, .ports, .cmdif, .furrows, .keytab, .rng, .cipher, .pke, .warden, .flash, .cistern, .vault, .cust, .backup, .tamper, .punty, .regs, .free]
  | .puntyFieldArrive =>
    [.dev, .ports, .flash, .backup, .punty, .regs, .free]
  | .puntyFieldLoss =>
    [.dev, .ports, .flash, .backup, .punty, .regs]
  | .sleepEntry =>
    [.dev, .ports, .cistern, .cust]
  | .markAdvance .. =>
    [.dev, .cipher]
  | .markRecordVerified .. =>
    [.dev, .cipher, .flash, .regs]
  | .rtcSet .. =>
    [.dev, .ports, .cmdif, .furrows, .keytab, .warden, .flash, .cistern, .vault, .backup, .regs, .free]
  | .scrub .. =>
    [.keytab, .regs]
  | .recordRestore .. =>
    [.keytab, .free]
  | .keytabRestoreDone =>
    [.dev, .ports, .keytab, .flash, .regs]
  | .rngRawRead .. =>
    [.dev, .ports, .rng]
  | .gatherBlock .. =>
    [.rng]
  | .joinSyncComplete .. =>
    [.dev, .ports, .flash, .vault, .cust, .punty, .regs]
  | .random .. =>
    [.rng, .warden, .regs]
  | .dmaDone .. =>
    [.dev, .ports, .units, .warden, .flash, .vault, .punty, .regs]
  | .flashOpDone .. =>
    [.dev, .ports, .units, .warden, .flash, .vault, .punty, .regs, .free]
  | .cartridgeInsert .. =>
    [.vault]
  | .verdictEvaluation .. =>
    [.dev, .ports, .cmdif, .furrows, .keytab, .rng, .cipher, .warden, .flash, .cistern, .vault, .cust, .tamper, .punty, .regs]
  | .alarmRaised .. =>
    [.dev, .ports, .cmdif, .furrows, .keytab, .rng, .cipher, .warden, .flash, .cistern, .vault, .cust, .backup, .tamper, .regs]
  | .monitorFault .. =>
    [.dev, .ports, .cmdif, .furrows, .keytab, .rng, .cipher, .warden, .flash, .cistern, .vault, .cust, .tamper, .regs]
  | .scrubComplete =>
    [.tamper]
  | .workingKeysReformed =>
    [.vault, .tamper]
  | .holdAlarm .. =>
    [.dev, .ports, .flash, .backup, .tamper, .punty, .regs]
  | .tamperLogCopy .. =>
    [.dev, .ports, .flash, .backup, .tamper, .regs]
  | .vbatMeasure .. =>
    [.dev, .ports, .flash, .backup, .regs]
  | .alarmConditionAbsent .. =>
    [.backup, .tamper]
  | .vbatLost =>
    [.dev, .backup, .tamper, .punty, .regs]
  | .backupDomainFirstPowered =>
    [.backup, .tamper, .punty, .regs]

/-- Every command, in every state, answers a next state; it writes no part of the state but those of its row, and nothing else touches the
queue. No command writes a fuse. -/
def Obligations.CommandsWriteOnlyTheirParts : Prop :=
  ∀ (i : Instr) (s : State), ∃ t, exec i s = .next t ∧ t.pending = s.pending ∧ ∀ p, p ∉ mayWrite i → Unchanged s t p
end

