-- ==== Sys2Proof/Laws/Cells.lean ====
section
/-! SUPPORT. Byte memories as sorted lists: every operation keeps the canonical form; a read after a write gives what was written, and
every other byte as before. -/
namespace Sys2Proof.Machine

/-- Every listed address lies above a bound. -/
def cellsAbove (a : Nat) (cs : List Host.Cell) : Prop := ∀ c ∈ cs, a < c.1

theorem cellsAbove_nil (a : Nat) : cellsAbove a [] := by simp [cellsAbove]

theorem cellsAbove_cons {a : Nat} {c : Host.Cell} {cs : List Host.Cell} : cellsAbove a (c :: cs) ↔ a < c.1 ∧ cellsAbove a cs := by
  simp [cellsAbove]

theorem cellsAbove_mono {a b : Nat} {cs : List Host.Cell} (h : cellsAbove b cs) (hab : a ≤ b) : cellsAbove a cs :=
  fun c hc => Nat.lt_of_le_of_lt hab (h c hc)

/-- The canonical form of a list, by its first entry and the rest. -/
theorem cellsWf_cons {d : Byte} {a : Nat} {v : Byte} {cs : List Host.Cell} :
    cellsWf d ((a, v) :: cs) = true ↔ v ≠ d ∧ cellsAbove a cs ∧ cellsWf d cs = true := by
  induction cs generalizing a v with
  | nil => simp [cellsWf, cellsAbove_nil]
  | cons c cs ih =>
    obtain ⟨b, w⟩ := c
    simp only [cellsWf, Bool.and_eq_true, bne_iff_ne, decide_eq_true_eq, ih, cellsAbove_cons]
    constructor
    · rintro ⟨⟨h1, h2⟩, h3, h4, h5⟩
      exact ⟨h1, ⟨h2, cellsAbove_mono h4 (Nat.le_of_lt h2)⟩, h3, h4, h5⟩
    · rintro ⟨h1, ⟨h2, _⟩, h3, h4, h5⟩
      exact ⟨⟨h1, h2⟩, h3, h4, h5⟩

theorem cellSet_above {d : Byte} {a x : Nat} {v : Byte} {cs : List Host.Cell} (h : cellsAbove x cs) (hx : x < a) :
    cellsAbove x (cellSet d a v cs) := by
  induction cs with
  | nil => simp only [cellSet]; split <;> simp [cellsAbove, hx]
  | cons c cs ih =>
    obtain ⟨b, w⟩ := c
    rw [cellsAbove_cons] at h
    simp only [cellSet]
    split
    · split <;> simp [cellsAbove_cons, h, hx]
    · split
      · split <;> simp [cellsAbove_cons, h, hx]
      · exact cellsAbove_cons.2 ⟨h.1, ih h.2⟩

/-- Storing one byte keeps the canonical form. -/
theorem cellSet_wf {d : Byte} {a : Nat} {v : Byte} {cs : List Host.Cell} (h : cellsWf d cs = true) :
    cellsWf d (cellSet d a v cs) = true := by
  induction cs with
  | nil => simp only [cellSet]; split <;> simp_all [cellsWf]
  | cons c cs ih =>
    obtain ⟨b, w⟩ := c
    obtain ⟨h1, h2, h3⟩ := cellsWf_cons.1 h
    simp only [cellSet]
    split
    · split
      · exact h
      · exact cellsWf_cons.2 ⟨by assumption, cellsAbove_cons.2 ⟨by assumption, cellsAbove_mono h2 (by omega)⟩, h⟩
    · split
      · split
        · exact h3
        · exact cellsWf_cons.2 ⟨by assumption, by rename_i e _; subst e; exact h2, h3⟩
      · exact cellsWf_cons.2 ⟨h1, cellSet_above h2 (by omega), ih h3⟩

/-- Storing bytes keeps the canonical form. -/
theorem cellsWrite_wf {d : Byte} {a : Nat} {bs : List Byte} {cs : List Host.Cell} (h : cellsWf d cs = true) :
    cellsWf d (cellsWrite d a bs cs) = true := by
  induction bs generalizing a cs with
  | nil => exact h
  | cons b bs ih => exact ih (cellSet_wf h)

/-- Dropping entries keeps the canonical form. -/
theorem cellsFilter_wf {d : Byte} {p : Host.Cell → Bool} {cs : List Host.Cell} (h : cellsWf d cs = true) :
    cellsWf d (cs.filter p) = true := by
  induction cs with
  | nil => exact h
  | cons c cs ih =>
    obtain ⟨b, w⟩ := c
    obtain ⟨h1, h2, h3⟩ := cellsWf_cons.1 h
    simp only [List.filter_cons]
    split
    · exact cellsWf_cons.2 ⟨h1, fun c hc => h2 c (List.mem_filter.1 hc).1, ih h3⟩
    · exact ih h3

/-- Changing the bytes of the entries, where they stand, and dropping those that are then the default, keeps the canonical form. -/
theorem cellsMixed_wf {d : Byte} {f : Host.Cell × Byte → Host.Cell} {bs : List Byte} {cs : List Host.Cell} (hf : ∀ x, (f x).1 = x.1.1)
    (h : cellsWf d cs = true) : cellsWf d (((cs.zip bs).map f).filter fun c => c.2 != d) = true := by
  induction cs generalizing bs with
  | nil => rfl
  | cons c cs ih =>
    cases bs with
    | nil => rfl
    | cons b bs =>
      obtain ⟨a, v⟩ := c
      obtain ⟨_, h2, h3⟩ := cellsWf_cons.1 h
      simp only [List.zip_cons_cons, List.map_cons, List.filter_cons]
      split
      · next hk =>
        have e : f ((a, v), b) = (a, (f ((a, v), b)).2) := Prod.ext (hf _) rfl
        rw [e] at hk ⊢
        refine cellsWf_cons.2 ⟨by simpa using hk, ?_, ih h3⟩
        intro x hx
        obtain ⟨y, hy, rfl⟩ := List.mem_map.1 (List.mem_filter.1 hx).1
        rw [hf]
        exact h2 _ (List.of_mem_zip hy).1
      · exact ih h3

/-- Returning a range to the default keeps the canonical form. -/
theorem cellsClear_wf {d : Byte} {a n : Nat} {cs : List Host.Cell} (h : cellsWf d cs = true) :
    cellsWf d (cellsClear a n cs) = true := cellsFilter_wf h

theorem cellGet_above {d : Byte} {a : Nat} {cs : List Host.Cell} (h : cellsAbove a cs) : cellGet d a cs = d := by
  cases cs with
  | nil => rfl
  | cons c cs =>
    obtain ⟨b, w⟩ := c
    have := (cellsAbove_cons.1 h).1
    simp only [cellGet]
    rw [if_neg (by simp at this; omega), if_pos this]

/-- A byte reads as it was stored. -/
theorem cellGet_cellSet_self {d : Byte} {a : Nat} {v : Byte} {cs : List Host.Cell} (h : cellsWf d cs = true) :
    cellGet d a (cellSet d a v cs) = v := by
  induction cs with
  | nil => simp only [cellSet]; split <;> simp_all [cellGet]
  | cons c cs ih =>
    obtain ⟨b, w⟩ := c
    obtain ⟨h1, h2, h3⟩ := cellsWf_cons.1 h
    simp only [cellSet]
    split
    · split
      · rename_i hv; subst hv; exact cellGet_above (cellsAbove_cons.2 ⟨by assumption, cellsAbove_mono h2 (by omega)⟩)
      · simp [cellGet]
    · split
      · split
        · rename_i e hv; subst e; subst hv; exact cellGet_above h2
        · simp [cellGet]
      · simp only [cellGet]
        rw [if_neg (by assumption), if_neg (by assumption)]
        exact ih h3

/-- A store leaves every other byte as it was. -/
theorem cellGet_cellSet_other {d : Byte} {a x : Nat} {v : Byte} {cs : List Host.Cell} (h : cellsWf d cs = true) (hx : x ≠ a) :
    cellGet d x (cellSet d a v cs) = cellGet d x cs := by
  induction cs with
  | nil => simp only [cellSet]; split <;> simp [cellGet, hx]
  | cons c cs ih =>
    obtain ⟨b, w⟩ := c
    obtain ⟨h1, h2, h3⟩ := cellsWf_cons.1 h
    simp only [cellSet]
    split
    · split
      · rfl
      · simp only [cellGet, hx, if_false]
        split
        · rename_i hlt
          split
          · omega
          · split
            · rfl
            · omega
        · rfl
    · split
      · rename_i e; subst e
        split
        · simp only [cellGet, hx, if_false]
          split
          · exact cellGet_above (cellsAbove_mono h2 (by omega))
          · rfl
        · simp [cellGet, hx]
      · simp only [cellGet]
        split
        · rfl
        · split
          · rfl
          · exact ih h3

/-- Storing bytes leaves every byte outside them as it was. -/
theorem cellGet_cellsWrite_other {d : Byte} {a x : Nat} {bs : List Byte} {cs : List Host.Cell} (h : cellsWf d cs = true)
    (hx : x < a ∨ a + bs.length ≤ x) : cellGet d x (cellsWrite d a bs cs) = cellGet d x cs := by
  induction bs generalizing a cs with
  | nil => rfl
  | cons b bs ih =>
    simp only [List.length_cons] at hx
    simp only [cellsWrite]
    rw [ih (cellSet_wf h) (by omega), cellGet_cellSet_other h (by omega)]

/-- Bytes read as they were stored. -/
theorem cellGet_cellsWrite_self {d : Byte} {a i : Nat} {bs : List Byte} {cs : List Host.Cell} (h : cellsWf d cs = true)
    (hi : i < bs.length) : cellGet d (a + i) (cellsWrite d a bs cs) = bs[i] := by
  induction bs generalizing a i cs with
  | nil => simp at hi
  | cons b bs ih =>
    simp only [cellsWrite]
    cases i with
    | zero => rw [Nat.add_zero, cellGet_cellsWrite_other (cellSet_wf h) (by omega), cellGet_cellSet_self h]; rfl
    | succ i =>
      have := ih (a := a + 1) (cellSet_wf (a := a) (v := b) h) (i := i) (by simpa using hi)
      rw [show a + (i + 1) = a + 1 + i by omega, this]; rfl

end Sys2Proof.Machine
end

