-- ==== Sys2Proof/Laws/Commands.lean ====
section
/-! SUPPORT. The life of a command: what `runOp` comes to in each phase, and commands found after an update. -/
namespace Sys2Proof.Machine

/-! ### Finding after an update of the command list -/

/-- The first element that satisfies a test, after an update that keeps the test's answer. -/
theorem find_updFirst {α : Type} (p : α → Bool) (g : α → α) (hg : ∀ x, p x = true → p (g x) = true) :
    ∀ xs : List α, (updFirst p g xs).find? p = (xs.find? p).map g
  | [] => rfl
  | x :: xs => by
    by_cases h : p x = true
    · simp [updFirst, h, hg x h]
    · simp only [updFirst, h, List.find?_cons, if_false, Bool.false_eq_true]
      exact find_updFirst p g hg xs

/-- A stored command is found as it was stored. -/
theorem cmdGet_cmdPut {c d : Cmd} {s : State} (h : cmdGet d.id s = some c) : cmdGet d.id (cmdPut d s) = some d := by
  have := find_updFirst (fun x : Cmd => x.id == d.id) (fun _ => d) (by simp) s.cmdif.cmds
  simp only [cmdGet] at h
  simpa [cmdGet, cmdPut, State.modCmdif, h] using this

/-- A command keeps its number when found. -/
theorem cmdGet_id {id : Nat} {c : Cmd} {s : State} (h : cmdGet id s = some c) : c.id = id := by
  simpa using List.find?_some h

/-- A dropped command is found no more. -/
theorem cmdGet_cmdDrop (id : Nat) (s : State) : cmdGet id (cmdDrop id s) = none := by
  simp [cmdGet, cmdDrop, State.modCmdif, List.find?_filter, List.find?_eq_none]

/-! ### `runOp`, phase by phase -/

/-- No such command: nothing is due. -/
theorem runOp_none {o : OpSpec} {code id : Nat} {body : Cmd → State → State} {s : State} (h : cmdGet id s = none) :
    runOp o code id body s = s := by simp [runOp, h]

/-- Another opcode: nothing is due. -/
theorem runOp_other {o : OpSpec} {code id : Nat} {body : Cmd → State → State} {s : State} {c : Cmd} (h : cmdGet id s = some c)
    (hc : c.opcode.toNat ≠ code) : runOp o code id body s = s := by simp [runOp, h, hc]

/-- A started command goes on while no record it uses waits for its reload and its masks are delivered. -/
theorem runOp_started {o : OpSpec} {code id : Nat} {body : Cmd → State → State} {s : State} {c : Cmd} (h : cmdGet id s = some c)
    (hc : c.opcode.toNat = code) (hp : c.phase = .started) (hk : keyReloads c s = false) (hm : masksReady c s = true) :
    runOp o code id body s = body c s := by
  simp [runOp, h, hc, hp, hk, hm]

/-- A started command holds, and counts the hold, while its masks are not delivered. -/
theorem runOp_stalls {o : OpSpec} {code id : Nat} {body : Cmd → State → State} {s : State} {c : Cmd} (h : cmdGet id s = some c)
    (hc : c.opcode.toNat = code) (hp : c.phase = .started) (hk : keyReloads c s = false) (hm : masksReady c s = false) :
    runOp o code id body s = maskStall c s := by
  simp [runOp, h, hc, hp, hk, hm]

/-- A command holds while a record it uses waits for its reload. -/
theorem runOp_reloads {o : OpSpec} {code id : Nat} {body : Cmd → State → State} {s : State} {c : Cmd} (h : cmdGet id s = some c)
    (hc : c.opcode.toNat = code) (hp : c.phase = .started ∨ c.phase = .admitted) (hk : keyReloads c s = true) :
    runOp o code id body s = s := by
  obtain hp | hp := hp <;> simp [runOp, h, hc, hp, hk]

/-- An admitted command is handed to its engines. -/
theorem runOp_admitted {o : OpSpec} {code id : Nat} {body : Cmd → State → State} {s : State} {c : Cmd} (h : cmdGet id s = some c)
    (hc : c.opcode.toNat = code) (hp : c.phase = .admitted) (hk : keyReloads c s = false) :
    runOp o code id body s = begin o c body s := by
  simp [runOp, h, hc, hp, hk]

/-- A command whose reads have arrived is admitted, or not. -/
theorem runOp_ready {o : OpSpec} {code id : Nat} {body : Cmd → State → State} {s : State} {c : Cmd} (h : cmdGet id s = some c)
    (hc : c.opcode.toNat = code) (hp : c.phase = .ready) :
    runOp o code id body s = match admission o c s with
      | .stay s => s
      | .go c s => begin o c body s := by
  simp only [runOp, h, hc, ne_eq, not_true_eq_false, if_false, hp]
  all_goals cases admission o c s <;> rfl

/-! ### Handing a command to its engines -/

/-- The count of commands served touches no command. -/
theorem countServed_cmds (f : Nat) : ∀ (es : List Engine) (s : State), (es.foldl (countServed f) s).cmdif.cmds = s.cmdif.cmds
  | [], _ => rfl
  | e :: es, s => countServed_cmds f es (countServed f s e)

/-- What `startCmd` can do: the command waits, admitted, or is started with the units it gets. -/
theorem startCmd_cases (c : Cmd) (s : State) :
    ((itsTurn c s && unitIdle c s) = false ∧ startCmd c s = cmdPut { c with phase := .admitted } s) ∨
    ((itsTurn c s && unitIdle c s) = true ∧ ∃ us w u, (c.needsUnit = false → us = []) ∧ u.cmdif.cmds = s.cmdif.cmds ∧
      startCmd c s = cmdPut { c with phase := .started, units := us, wroteDst := w } u) := by
  unfold startCmd
  by_cases h : (itsTurn c s && unitIdle c s) = true
  · refine .inr ⟨h, if c.needsUnit then pickUnits c s else [], _, _, fun hn => ?_, countServed_cmds .., by rw [if_pos h]⟩
    simp [hn]
  · exact .inl ⟨by simpa using h, by rw [if_neg h]⟩

/-- A command in the table is found as `startCmd` has left it, with the same class. -/
theorem startCmd_get {c c' d : Cmd} {s : State} (h : cmdGet c.id s = some c') (hd : cmdGet c.id (startCmd c s) = some d) :
    d.needsUnit = c.needsUnit ∧ (d.phase = .started ↔ (itsTurn c s && unitIdle c s) = true) := by
  obtain ⟨ht, he⟩ | ⟨ht, us, w, u, -, hu, he⟩ := startCmd_cases c s
  · have := cmdGet_cmdPut (d := { c with phase := .admitted }) h
    rw [he] at hd
    obtain rfl := Option.some.inj (hd.symm.trans this)
    simp [Cmd.needsUnit, Cmd.cls, ht]
  · have := cmdGet_cmdPut (d := { c with phase := .started, units := us, wroteDst := w }) (s := u) (c := c')
      (by simpa [cmdGet, hu] using h)
    rw [he] at hd
    obtain rfl := Option.some.inj (hd.symm.trans this)
    simp [Cmd.needsUnit, Cmd.cls, ht]

/-- A command whose units are all out of service ends with `INTERNAL_FAULT`. -/
theorem begin_noUnit {o : OpSpec} {c : Cmd} {body : Cmd → State → State} {s : State} (hn : c.needsUnit = true)
    (hu : unitList c s = []) : begin o c body s = finishSt c .internalFault s := by
  simp [begin, hn, hu]

/-- A command that runs on a unit, or is not served now, stands as `startCmd` leaves it: its row's next step goes on with it. -/
theorem begin_starts {o : OpSpec} {c c' d : Cmd} {body : Cmd → State → State} {s t : State}
    (hu : c.needsUnit = true → unitList c s ≠ []) (hd : o.draw c s = .ok d t) (hg : cmdGet d.id t = some c')
    (hn : d.needsUnit = true ∨ (itsTurn d t && unitIdle d t) = false) : begin o c body s = startCmd d t := by
  have he : (c.needsUnit && (unitList c s).isEmpty) = false := by
    cases h : c.needsUnit with
    | false => rfl
    | true => simpa using hu h
  simp only [begin, he, hd, Bool.false_eq_true, if_false]
  split
  · rename_i x hx
    obtain ⟨h1, h2⟩ := startCmd_get hg hx
    obtain hn | hn := hn
    · simp [h1, hn]
    · simp [h2, hn]
  · rfl

/-- A command that runs on no unit runs at once when it is its turn, as `startCmd` has left it. -/
theorem begin_runs {o : OpSpec} {c c' d : Cmd} {body : Cmd → State → State} {s t : State} (hc : c.needsUnit = false)
    (hd : o.draw c s = .ok d t) (hn : d.needsUnit = false) (hg : cmdGet d.id t = some c') (ht : itsTurn d t = true) :
    ∃ w u, u.cmdif.cmds = t.cmdif.cmds ∧ startCmd d t = cmdPut { d with phase := .started, units := [], wroteDst := w } u ∧
      begin o c body s = body { d with phase := .started, units := [], wroteDst := w } (startCmd d t) := by
  have hi : (itsTurn d t && unitIdle d t) = true := by simp [ht, unitIdle, hn]
  obtain ⟨h, -⟩ | ⟨-, us, w, u, hus, hu, he⟩ := startCmd_cases d t
  · simp [h] at hi
  · obtain rfl := hus hn
    refine ⟨w, u, hu, he, ?_⟩
    have hx : cmdGet d.id (startCmd d t) = some { d with phase := .started, units := [], wroteDst := w } := by
      rw [he]; exact cmdGet_cmdPut (d := { d with phase := .started, units := [], wroteDst := w }) (by simpa [cmdGet, hu] using hg)
    simp only [begin, hc, hd, Bool.false_and, Bool.false_eq_true, if_false, hx]
    rw [if_pos]
    exact ⟨trivial, by rw [show Cmd.needsUnit { d with phase := .started, units := [], wroteDst := w } = d.needsUnit from rfl, hn]; rfl⟩

/-- A command that goes on after the checks of its own keeps its number, opcode and inline fields, and stands in the table as it goes on. -/
theorem step9_go {o : OpSpec} {c d : Cmd} {s t : State} (h : step9 o c s = .go d t) :
    d.id = c.id ∧ d.opcode = c.opcode ∧ d.inl = c.inl ∧ ∃ u : State, u.cmdif.cmds = s.cmdif.cmds ∧ t = cmdPut d u := by
  simp only [step9] at h
  split at h
  · cases h
  · simp only [Admit.go.injEq] at h
    obtain ⟨rfl, rfl⟩ := h
    refine ⟨rfl, rfl, rfl, _, ?_, rfl⟩
    split <;> rfl

/-- So does a command that goes on after admission, when what it latches keeps them. -/
theorem admission_go {o : OpSpec} {c d : Cmd} {s t : State} (h : admission o c s = .go d t)
    (hl : ∀ u, (o.latch c u).id = c.id ∧ (o.latch c u).opcode = c.opcode ∧ (o.latch c u).inl = c.inl) :
    d.id = c.id ∧ d.opcode = c.opcode ∧ d.inl = c.inl ∧ ∃ u : State, u.cmdif.cmds = s.cmdif.cmds ∧ t = cmdPut d u := by
  simp only [admission] at h
  repeat' split at h
  all_goals first | cases h; done | skip
  all_goals
    obtain ⟨a, b, e, u, hu, rfl⟩ := step9_go h
    exact ⟨a.trans (hl s).1, b.trans (hl s).2.1, e.trans (hl s).2.2, u, hu, rfl⟩

/-- A command that goes on is found again. -/
theorem go_get {c d : Cmd} {id : Nat} {s t : State} (hc : cmdGet id s = some c)
    (h : d.id = c.id ∧ ∃ u : State, u.cmdif.cmds = s.cmdif.cmds ∧ t = cmdPut d u) : cmdGet d.id t = some d := by
  obtain ⟨a, u, hu, rfl⟩ := h
  refine cmdGet_cmdPut (c := c) ?_
  rw [a, cmdGet_id hc]
  simpa [cmdGet, hu] using hc

end Sys2Proof.Machine
end

