-- ==== Sys2Proof/Laws/Draws.lean ====
section
/-! SUPPORT. What a draw from the KEY class comes to. -/
namespace Sys2Proof.Machine

/-- The KEY class answers at once while it is instantiated, not stopped, and no reseed is due (R381, R384, R385). -/
theorem drawKey_ok {n : Nat} {add : List Byte} {s : State} (hs : s.rng.stopped = false) (hr : keyReady s = true)
    (hq : s.rng.requests < 1048576) :
    drawKey n add s = .ok (drbgGen n add s.rng.key s.rng.v).1 (bump64 0x8100 1 (s.modRng fun r => { r with
      key := (drbgGen n add s.rng.key s.rng.v).2.1, v := (drbgGen n add s.rng.key s.rng.v).2.2, requests := r.requests + 1 })) := by
  unfold drawKey
  rw [if_neg (by simp [hs]), if_neg (by simp [hr]), if_neg (by omega)]

/-- It waits while it cannot answer. -/
theorem drawKey_wait {n : Nat} {add : List Byte} {s : State} (hs : s.rng.stopped = false) (hr : keyReady s = false) :
    drawKey n add s = .wait s := by
  unfold drawKey
  rw [if_neg (by simp [hs]), if_pos (by simp [hr])]

/-- It refuses while it is stopped. -/
theorem drawKey_stopped {n : Nat} {add : List Byte} {s : State} (hs : s.rng.stopped = true) : drawKey n add s = .stopped s := by
  unfold drawKey
  rw [if_pos hs]

end Sys2Proof.Machine
end

