-- ==== Sys2Proof/Laws/Flit.lean ====
section
/-! SUPPORT. Little-endian numbers in bytes, and what a flit's CRC and header read back as. -/
namespace Sys2Proof.Machine

@[simp] theorem le_length (n v : Nat) : (le n v).length = n := by
  induction n generalizing v with
  | zero => rfl
  | succ n ih => simp [le, ih]

/-- Bytes written little-endian read back as the number, cut to their width. -/
theorem leNat_le (n v : Nat) : leNat (le n v) = v % 256 ^ n := by
  induction n generalizing v with
  | zero => simp [le, leNat, Nat.mod_one]
  | succ n ih =>
    have h : 256 ^ (n + 1) = 256 * 256 ^ n := by rw [Nat.pow_succ, Nat.mul_comm]
    simp only [le, leNat, ih, BitVec.toNat_ofNat]
    rw [h, Nat.mod_mul]

/-- `n` bytes at offset `off` of a list that holds them there. -/
theorem bytesAt_append (a b c : List Byte) : bytesAt (a ++ b ++ c) a.length b.length = b := by
  simp [bytesAt, List.append_assoc]

theorem bytesAt_length (bs : List Byte) (off n : Nat) : (bytesAt bs off n).length = n := by
  simp only [bytesAt, List.length_append, List.length_take, List.length_replicate]
  omega

/-- A flit of 248 bytes and a CRC passes exactly when the CRC is that of the bytes. -/
theorem flitCrcOk_iff (body : List Byte) (n : Nat) (h : body.length = 248) :
    flitCrcOk (body ++ le 8 n) = decide (n % 256 ^ 8 = crc64 body) := by
  have h1 : bytesAt (body ++ le 8 n) 248 8 = le 8 n := by
    have := bytesAt_append body (le 8 n) []
    simpa [h] using this
  have h2 : bytesAt (body ++ le 8 n) 0 248 = body := by
    have := bytesAt_append [] body (le 8 n)
    simpa [h] using this
  simp only [flitCrcOk, natAt, h1, h2, leNat_le]
  rfl

theorem flitBody_length (h : FlitHdr) (p : List Byte) : (h.bytes ++ bytesAt p 0 240).length = 248 := by
  simp [FlitHdr.bytes, bytesAt_length]

/-- A flit as it is sent passes its CRC (R128). -/
theorem flitBytes_crcOk (h : FlitHdr) (p : List Byte) : flitCrcOk (flitBytes h p) = true := by
  simp only [flitBytes]
  rw [flitCrcOk_iff _ _ (flitBody_length h p), decide_eq_true_iff, Nat.mod_eq_of_lt]
  simp only [crc64]
  omega

/-- A flit whose CRC field is one too high fails it. -/
theorem flitBytes_damaged (h : FlitHdr) (p : List Byte) :
    flitCrcOk (h.bytes ++ bytesAt p 0 240 ++ le 8 (crc64 (h.bytes ++ bytesAt p 0 240) + 1)) = false := by
  rw [flitCrcOk_iff _ _ (flitBody_length h p), decide_eq_false_iff_not]
  have : crc64 (h.bytes ++ bytesAt p 0 240) < 256 ^ 8 := by simp only [crc64]; omega
  omega

/-- Bytes 0 to 7 of a flit as it is sent are its header. -/
theorem flitBytes_front (h : FlitHdr) (p : List Byte) : bytesAt (flitBytes h p) 0 8 = h.bytes := by
  have h1 : h.bytes.length = 8 := by simp [FlitHdr.bytes]
  have h2 : ∀ a b : List Byte, a.length = 8 → bytesAt (a ++ b) 0 8 = a := by
    intro a b ha
    simp [bytesAt, ← ha]
  simp only [flitBytes]
  generalize crc64 _ = n
  rw [List.append_assoc]
  exact h2 _ _ h1

/-- The fields of a header, out of the number that its bytes spell. -/
theorem hdrFields (ft sq ak nk hc dc : Nat) (h1 : ft < 16) (h2 : sq < 2 ^ 12) (h3 : ak < 2 ^ 12) (h4 : nk < 2) (h5 : hc < 256)
    (h6 : dc < 256) (w : Nat) (hw : w = (ft * 2 ^ 60 + sq * 2 ^ 48 + ak * 2 ^ 36 + nk * 2 ^ 35 + hc % 256 * 2 ^ 24
      + dc % 256 * 2 ^ 16) % 256 ^ 8) :
    w / 2 ^ 60 = ft ∧ w / 2 ^ 48 % 2 ^ 12 = sq ∧ w / 2 ^ 36 % 2 ^ 12 = ak ∧ w / 2 ^ 35 % 2 = nk ∧ w / 2 ^ 24 % 256 = hc ∧
      w / 2 ^ 16 % 256 = dc := by
  omega

/-- What `flitHdr` reads, from the number that the first eight bytes spell. -/
theorem flitHdr_of (flit : List Byte) (w : Nat) (h : natAt flit 0 8 = w) :
    flitHdr flit = ⟨w / 2 ^ 60, BitVec.ofNat 12 (w / 2 ^ 48), BitVec.ofNat 12 (w / 2 ^ 36), w / 2 ^ 35 % 2 == 1, w / 2 ^ 24 % 256,
      w / 2 ^ 16 % 256⟩ := by
  subst h; rfl

/-- The header of a flit as it is sent reads back (Table 4-4). -/
theorem flitHdr_flitBytes (h : FlitHdr) (p : List Byte) (hf : h.ftype < 16) (hh : h.hdr < 256) (hd : h.data < 256) :
    flitHdr (flitBytes h p) = h := by
  have h4 : bit h.nak < 2 := by cases h.nak <;> simp [bit]
  have hn : natAt (flitBytes h p) 0 8 = leNat h.bytes := by rw [natAt, flitBytes_front]
  have hw : leNat h.bytes = (h.ftype * 2 ^ 60 + h.seq.toNat * 2 ^ 48 + h.ack.toNat * 2 ^ 36 + bit h.nak * 2 ^ 35
    + h.hdr % 256 * 2 ^ 24 + h.data % 256 * 2 ^ 16) % 256 ^ 8 := by rw [FlitHdr.bytes, leNat_le]
  obtain ⟨e1, e2, e3, e4, e5, e6⟩ := hdrFields h.ftype h.seq.toNat h.ack.toNat (bit h.nak) h.hdr h.data hf h.seq.isLt h.ack.isLt
    h4 hh hd _ hw
  rw [flitHdr_of _ _ hn, e1, e4, e5, e6]
  have b2 : BitVec.ofNat 12 (leNat h.bytes / 2 ^ 48) = h.seq := by
    apply BitVec.eq_of_toNat_eq
    rw [BitVec.toNat_ofNat, e2]
  have b3 : BitVec.ofNat 12 (leNat h.bytes / 2 ^ 36) = h.ack := by
    apply BitVec.eq_of_toNat_eq
    rw [BitVec.toNat_ofNat, e3]
  have b4 : (bit h.nak == 1) = h.nak := by cases h.nak <;> rfl
  rw [b2, b3, b4]

end Sys2Proof.Machine
end

