-- ==== Sys2Proof/Laws/Frame.lean ====
section
/-! SUPPORT. What an operation may change, as a relation between the state before and after: the parts it may write, both memories in
canonical form, 16 registers a core, nothing burned taken back, the queue untouched. The other frame files say it of every operation. -/
namespace Sys2Proof.Machine

/-- The bit of a part in a set of parts. -/
def Part.bit : Part → Nat
  | .fuses => 0
  | .dev => 1
  | .ports => 2
  | .cmdif => 3
  | .furrows => 4
  | .units => 5
  | .keytab => 6
  | .rng => 7
  | .cipher => 8
  | .pke => 9
  | .warden => 10
  | .flash => 11
  | .cistern => 12
  | .vault => 13
  | .cust => 14
  | .otp => 15
  | .backup => 16
  | .tamper => 17
  | .punty => 18
  | .regs => 19
  | .free => 20

/-- From `s` to `t` only the parts of the set `w` change, and what every operation keeps is kept. -/
structure Keeps (w : Nat) (s t : State) : Prop where
  parts : ∀ p : Part, w.testBit p.bit = false → Unchanged s t p
  mem : Memory.wf s = true → Memory.wf t = true
  cores : s.coresWf → t.coresWf
  otp : s.keepsOtp t
  queue : t.pending = s.pending

/-- One set of parts lies in another. -/
def Sub (a b : Nat) : Prop := ∀ i, a.testBit i = true → b.testBit i = true

theorem Sub.refl (a : Nat) : Sub a a := fun _ h => h

/-- A set computed to lie in another lies in any larger one. -/
theorem Sub.step {a b c : Nat} (hb : Sub b c) (h : Nat.land a b = a) : Sub a c := by
  intro i hi
  refine hb i ?_
  have : (a &&& b).testBit i = true := by rw [show a &&& b = a from h]; exact hi
  rw [Nat.testBit_and] at this
  simp_all

variable {W : Nat} {s0 s : State}

theorem Keeps.refl (w : Nat) (s : State) : Keeps w s s where
  parts := fun p _ => by cases p <;> rfl
  mem := id
  cores := id
  otp := ⟨rfl, id, Nat.le_refl _⟩
  queue := rfl

/-- Use what is known of an intermediate state. -/
theorem Keeps.cut {x : State} {Q : Prop} (hx : Keeps W s0 x) (hq : Keeps W s0 x → Q) : Q := hq hx

/-- A local operation with an argument keeps what holds. -/
def OpKeeps {α : Type} (P : State → Prop) (f : α → State → State) : Prop := ∀ a u, P u → P (f a u)
theorem OpKeeps.use {α : Type} {P : State → Prop} {f : α → State → State} {a : α} {u : State} (h : OpKeeps P f) (hu : P u) :
    P (f a u) := h a u hu
theorem OpKeeps.cut {α : Type} {P : State → Prop} {f : α → State → State} {Q : Prop} (hf : ∀ a u, P u → P (f a u))
    (hq : OpKeeps P f → Q) : Q := hq hf

/-- A local state that depends on a value. -/
def ArgKeeps {α : Type} (P : State → Prop) (f : α → State) : Prop := ∀ a, P (f a)
theorem ArgKeeps.use {α : Type} {P : State → Prop} {f : α → State} {a : α} (h : ArgKeeps P f) : P (f a) := h a
theorem ArgKeeps.cut {α : Type} {P : State → Prop} {f : α → State} {Q : Prop} (hf : ∀ a, P (f a)) (hq : ArgKeeps P f → Q) : Q := hq hf

/-- A part that may be written is not among those that stay. -/
theorem Sub.absurd {b i : Nat} {P : Prop} (hw : Sub b W) (hb : b.testBit i = true) (h : W.testBit i = false) : P := by
  rw [hw i hb] at h; cases h

/-! ### Answers that hold a state -/

/-- The state beside a value. -/
def PairAll {α : Type} (P : State → Prop) (p : α × State) : Prop := P p.2
theorem PairAll.mk {α : Type} {P : State → Prop} {a : α} {t : State} (h : P t) : PairAll P (a, t) := h
theorem PairAll.out {α : Type} {P : State → Prop} {p : α × State} {a : α} {t : State} (e : p = (a, t)) (h : PairAll P p) : P t := by
  subst e; exact h
theorem PairAll.snd {α : Type} {P : State → Prop} {p : α × State} (h : PairAll P p) : P p.2 := h

/-- The state that may be absent. -/
def OptAll (P : State → Prop) : Option State → Prop
  | none => True
  | some t => P t
theorem OptAll.none {P : State → Prop} : OptAll P none := trivial
theorem OptAll.some {P : State → Prop} {t : State} (h : P t) : OptAll P (some t) := h
theorem OptAll.out {P : State → Prop} {o : Option State} {t : State} (e : o = Option.some t) (h : OptAll P o) : P t := by
  subst e; exact h

theorem OptAll.getD {P : State → Prop} {o : Option State} {t : State} (h : OptAll P o) (ht : P t) : P (o.getD t) := by
  cases o
  · exact ht
  · exact h

/-- The operation that may be absent keeps what holds. -/
def ActAll (P : State → Prop) : Option (State → State) → Prop
  | none => True
  | some f => ∀ u, P u → P (f u)
theorem ActAll.none {P : State → Prop} : ActAll P none := trivial
theorem ActAll.some {P : State → Prop} {f : State → State} (h : ∀ u, P u → P (f u)) : ActAll P (some f) := h
theorem ActAll.out {P : State → Prop} {o : Option (State → State)} {f : State → State} (e : o = Option.some f) (h : ActAll P o)
    {u : State} (hu : P u) : P (f u) := by
  subst e; exact h u hu

/-- A step goes on to a state. -/
def OutAll (P : State → Prop) (o : Out) : Prop := ∃ t, o = .next t ∧ P t
theorem OutAll.next {P : State → Prop} {t : State} (h : P t) : OutAll P (.next t) := ⟨t, rfl, h⟩

/-- Every state that an answer holds. -/
def Draw.All (P : State → Prop) : Draw → Prop
  | .ok _ t => P t
  | .wait t => P t
  | .stopped t => P t
theorem Draw.all_ok {P : State → Prop} {t : State} {b} (h : P t) : Draw.All P (.ok b t : Draw) := h
theorem Draw.out_ok {P : State → Prop} {d : Draw} {t : State} {b} (e : d = .ok b t) (h : Draw.All P d) : P t := by subst e; exact h
theorem Draw.all_wait {P : State → Prop} {t : State} (h : P t) : Draw.All P (.wait t : Draw) := h
theorem Draw.out_wait {P : State → Prop} {d : Draw} {t : State} (e : d = .wait t) (h : Draw.All P d) : P t := by subst e; exact h
theorem Draw.all_stopped {P : State → Prop} {t : State} (h : P t) : Draw.All P (.stopped t : Draw) := h
theorem Draw.out_stopped {P : State → Prop} {d : Draw} {t : State} (e : d = .stopped t) (h : Draw.All P d) : P t := by subst e; exact h

/-- Every state that an answer holds. -/
def Draws.All (P : State → Prop) : Draws → Prop
  | .ok _ t => P t
  | .stay t => P t
theorem Draws.all_ok {P : State → Prop} {t : State} {c} (h : P t) : Draws.All P (.ok c t : Draws) := h
theorem Draws.out_ok {P : State → Prop} {d : Draws} {t : State} {c} (e : d = .ok c t) (h : Draws.All P d) : P t := by subst e; exact h
theorem Draws.all_stay {P : State → Prop} {t : State} (h : P t) : Draws.All P (.stay t : Draws) := h
theorem Draws.out_stay {P : State → Prop} {d : Draws} {t : State} (e : d = .stay t) (h : Draws.All P d) : P t := by subst e; exact h

/-- What an opcode draws before it is handed over keeps what holds. -/
def OpSpec.All (P : State → Prop) (o : OpSpec) : Prop := ∀ c u, P u → Draws.All P (o.draw c u)
theorem OpSpec.All.default {P : State → Prop} {o : OpSpec} (h : o.draw = .ok) : OpSpec.All P o := fun c u hu => by rw [h]; exact hu
theorem OpSpec.All.use {P : State → Prop} {o : OpSpec} {c : Cmd} {u : State} (h : OpSpec.All P o) (hu : P u) : Draws.All P (o.draw c u) := h c u hu

/-- Every state that an answer holds. -/
def WordAns.All (P : State → Prop) : WordAns → Prop
  | .ok _ t => P t
  | .wait t => P t
  | .zero t => P t
theorem WordAns.all_ok {P : State → Prop} {t : State} {b} (h : P t) : WordAns.All P (.ok b t : WordAns) := h
theorem WordAns.out_ok {P : State → Prop} {d : WordAns} {t : State} {b} (e : d = .ok b t) (h : WordAns.All P d) : P t := by subst e; exact h
theorem WordAns.all_wait {P : State → Prop} {t : State} (h : P t) : WordAns.All P (.wait t : WordAns) := h
theorem WordAns.out_wait {P : State → Prop} {d : WordAns} {t : State} (e : d = .wait t) (h : WordAns.All P d) : P t := by subst e; exact h
theorem WordAns.all_zero {P : State → Prop} {t : State} (h : P t) : WordAns.All P (.zero t : WordAns) := h
theorem WordAns.out_zero {P : State → Prop} {d : WordAns} {t : State} (e : d = .zero t) (h : WordAns.All P d) : P t := by subst e; exact h

/-- Every state that an answer holds. -/
def AllocAns.All (P : State → Prop) : AllocAns → Prop
  | .ok _ t => P t
  | .floor _ _ t => P t
  | .wait => True
  | .fail _ => True
theorem AllocAns.all_ok {P : State → Prop} {t : State} {a} (h : P t) : AllocAns.All P (.ok a t : AllocAns) := h
theorem AllocAns.out_ok {P : State → Prop} {d : AllocAns} {t : State} {a} (e : d = .ok a t) (h : AllocAns.All P d) : P t := by subst e; exact h
theorem AllocAns.all_floor {P : State → Prop} {t : State} {a} {g} (h : P t) : AllocAns.All P (.floor a g t : AllocAns) := h
theorem AllocAns.out_floor {P : State → Prop} {d : AllocAns} {t : State} {a} {g} (e : d = .floor a g t) (h : AllocAns.All P d) : P t := by subst e; exact h
theorem AllocAns.all_wait {P : State → Prop} : AllocAns.All P (.wait : AllocAns) := trivial
theorem AllocAns.all_fail {P : State → Prop} {st} : AllocAns.All P (.fail st : AllocAns) := trivial

/-- Every state that an answer holds. -/
def Admit.All (P : State → Prop) : Admit → Prop
  | .stay t => P t
  | .go _ t => P t
theorem Admit.all_stay {P : State → Prop} {t : State} (h : P t) : Admit.All P (.stay t : Admit) := h
theorem Admit.out_stay {P : State → Prop} {d : Admit} {t : State} (e : d = .stay t) (h : Admit.All P d) : P t := by subst e; exact h
theorem Admit.all_go {P : State → Prop} {t : State} {c} (h : P t) : Admit.All P (.go c t : Admit) := h
theorem Admit.out_go {P : State → Prop} {d : Admit} {t : State} {c} (e : d = .go c t) (h : Admit.All P d) : P t := by subst e; exact h

/-- Every state that an answer holds. -/
def NonceAns.All (P : State → Prop) : NonceAns → Prop
  | .ok _ t => P t
  | .wait => True
  | .wrap => True
theorem NonceAns.all_ok {P : State → Prop} {t : State} {n} (h : P t) : NonceAns.All P (.ok n t : NonceAns) := h
theorem NonceAns.out_ok {P : State → Prop} {d : NonceAns} {t : State} {n} (e : d = .ok n t) (h : NonceAns.All P d) : P t := by subst e; exact h
theorem NonceAns.all_wait {P : State → Prop} : NonceAns.All P (.wait : NonceAns) := trivial
theorem NonceAns.all_wrap {P : State → Prop} : NonceAns.All P (.wrap : NonceAns) := trivial

/-- Every state that an answer holds. -/
def DmaAns.All (P : State → Prop) : DmaAns → Prop
  | .ok t => P t
  | .refused _ => True
  | .uncorrectable t => P t
theorem DmaAns.all_ok {P : State → Prop} {t : State} (h : P t) : DmaAns.All P (.ok t : DmaAns) := h
theorem DmaAns.out_ok {P : State → Prop} {d : DmaAns} {t : State} (e : d = .ok t) (h : DmaAns.All P d) : P t := by subst e; exact h
theorem DmaAns.all_refused {P : State → Prop} {r} : DmaAns.All P (.refused r : DmaAns) := trivial
theorem DmaAns.all_uncorrectable {P : State → Prop} {t : State} (h : P t) : DmaAns.All P (.uncorrectable t : DmaAns) := h
theorem DmaAns.out_uncorrectable {P : State → Prop} {d : DmaAns} {t : State} (e : d = .uncorrectable t) (h : DmaAns.All P d) : P t := by subst e; exact h

/-- Every state that an answer holds. -/
def MemAns.All {α : Type} (P : State → Prop) : MemAns α → Prop
  | .ok _ t => P t
  | .exc _ _ t => P t
  | .wait => True
theorem MemAns.all_ok {α : Type} {P : State → Prop} {t : State} {v} (h : P t) : MemAns.All P (.ok v t : MemAns α) := h
theorem MemAns.out_ok {α : Type} {P : State → Prop} {d : MemAns α} {t : State} {v} (e : d = .ok v t) (h : MemAns.All P d) : P t := by subst e; exact h
theorem MemAns.all_exc {α : Type} {P : State → Prop} {t : State} {c} {w} (h : P t) : MemAns.All P (.exc c w t : MemAns α) := h
theorem MemAns.out_exc {α : Type} {P : State → Prop} {d : MemAns α} {t : State} {c} {w} (e : d = .exc c w t) (h : MemAns.All P d) : P t := by subst e; exact h
theorem MemAns.all_wait {α : Type} {P : State → Prop} : MemAns.All P (.wait : MemAns α) := trivial

/-- Every state that an answer holds. -/
def Eff.All (P : State → Prop) : Eff → Prop
  | .done t _ => P t
  | .jump _ t => P t
  | .goto _ t => P t
  | .exc _ _ t => P t
  | .moved t => P t
  | .stall => True
theorem Eff.all_done {P : State → Prop} {t : State} {lc} (h : P t) : Eff.All P (.done t lc : Eff) := h
theorem Eff.out_done {P : State → Prop} {d : Eff} {t : State} {lc} (e : d = .done t lc) (h : Eff.All P d) : P t := by subst e; exact h
theorem Eff.all_jump {P : State → Prop} {t : State} {w} (h : P t) : Eff.All P (.jump w t : Eff) := h
theorem Eff.out_jump {P : State → Prop} {d : Eff} {t : State} {w} (e : d = .jump w t) (h : Eff.All P d) : P t := by subst e; exact h
theorem Eff.all_goto {P : State → Prop} {t : State} {w} (h : P t) : Eff.All P (.goto w t : Eff) := h
theorem Eff.out_goto {P : State → Prop} {d : Eff} {t : State} {w} (e : d = .goto w t) (h : Eff.All P d) : P t := by subst e; exact h
theorem Eff.all_exc {P : State → Prop} {t : State} {c} {w} (h : P t) : Eff.All P (.exc c w t : Eff) := h
theorem Eff.out_exc {P : State → Prop} {d : Eff} {t : State} {c} {w} (e : d = .exc c w t) (h : Eff.All P d) : P t := by subst e; exact h
theorem Eff.all_moved {P : State → Prop} {t : State} (h : P t) : Eff.All P (.moved t : Eff) := h
theorem Eff.out_moved {P : State → Prop} {d : Eff} {t : State} (e : d = .moved t) (h : Eff.All P d) : P t := by subst e; exact h
theorem Eff.all_stall {P : State → Prop} : Eff.All P (.stall : Eff) := trivial

/-! ### Repeated operations -/

theorem Keeps.ite {c : Prop} [Decidable c] {t u : State} (ht : Keeps W s0 t) (hu : Keeps W s0 u) : Keeps W s0 (if c then t else u) := by
  split
  · exact ht
  · exact hu


theorem Keeps.foldl {α : Type} {f : State → α → State} {l : List α} {u : State} (h : Keeps W s0 u)
    (hf : ∀ v a, Keeps W s0 v → Keeps W s0 (f v a)) : Keeps W s0 (l.foldl f u) := by
  induction l generalizing u with
  | nil => exact h
  | cons a l ih => exact ih (hf u a h)

/-! ### Updates of one part -/

theorem Keeps.dev (hw : Sub 0x2 W) {x : Dev} (h : Keeps W s0 s) : Keeps W s0 { s with dev := x } where
  parts := fun p hp => by cases p <;> first | exact h.parts _ hp | exact hw.absurd rfl hp
  mem := h.mem
  cores := h.cores
  otp := h.otp
  queue := h.queue

theorem Keeps.ports (hw : Sub 0x4 W) {x : Ports} (h : Keeps W s0 s) : Keeps W s0 { s with ports := x } where
  parts := fun p hp => by cases p <;> first | exact h.parts _ hp | exact hw.absurd rfl hp
  mem := h.mem
  cores := h.cores
  otp := h.otp
  queue := h.queue

theorem Keeps.cmdif (hw : Sub 0x8 W) {x : CmdIf} (h : Keeps W s0 s) : Keeps W s0 { s with cmdif := x } where
  parts := fun p hp => by cases p <;> first | exact h.parts _ hp | exact hw.absurd rfl hp
  mem := h.mem
  cores := h.cores
  otp := h.otp
  queue := h.queue

theorem Keeps.furrows (hw : Sub 0x10 W) {x : List (Nat × Furrow)} (h : Keeps W s0 s) : Keeps W s0 { s with furrows := x } where
  parts := fun p hp => by cases p <;> first | exact h.parts _ hp | exact hw.absurd rfl hp
  mem := h.mem
  cores := h.cores
  otp := h.otp
  queue := h.queue

theorem Keeps.units (hw : Sub 0x20 W) {x : Units} (h : Keeps W s0 s) : Keeps W s0 { s with units := x } where
  parts := fun p hp => by cases p <;> first | exact h.parts _ hp | exact hw.absurd rfl hp
  mem := h.mem
  cores := h.cores
  otp := h.otp
  queue := h.queue

theorem Keeps.keytab (hw : Sub 0x40 W) {x : KeyTab} (h : Keeps W s0 s) : Keeps W s0 { s with keytab := x } where
  parts := fun p hp => by cases p <;> first | exact h.parts _ hp | exact hw.absurd rfl hp
  mem := h.mem
  cores := h.cores
  otp := h.otp
  queue := h.queue

theorem Keeps.rng (hw : Sub 0x80 W) {x : Rng} (h : Keeps W s0 s) : Keeps W s0 { s with rng := x } where
  parts := fun p hp => by cases p <;> first | exact h.parts _ hp | exact hw.absurd rfl hp
  mem := h.mem
  cores := h.cores
  otp := h.otp
  queue := h.queue

theorem Keeps.cipher (hw : Sub 0x100 W) {x : Cipher} (h : Keeps W s0 s) : Keeps W s0 { s with cipher := x } where
  parts := fun p hp => by cases p <;> first | exact h.parts _ hp | exact hw.absurd rfl hp
  mem := h.mem
  cores := h.cores
  otp := h.otp
  queue := h.queue

theorem Keeps.pke (hw : Sub 0x200 W) {x : Pke} (h : Keeps W s0 s) : Keeps W s0 { s with pke := x } where
  parts := fun p hp => by cases p <;> first | exact h.parts _ hp | exact hw.absurd rfl hp
  mem := h.mem
  cores := h.cores
  otp := h.otp
  queue := h.queue

theorem Keeps.cistern (hw : Sub 0x1000 W) {x : Cistern} (h : Keeps W s0 s) : Keeps W s0 { s with cistern := x } where
  parts := fun p hp => by cases p <;> first | exact h.parts _ hp | exact hw.absurd rfl hp
  mem := h.mem
  cores := h.cores
  otp := h.otp
  queue := h.queue

theorem Keeps.vault (hw : Sub 0x2000 W) {x : Vault} (h : Keeps W s0 s) : Keeps W s0 { s with vault := x } where
  parts := fun p hp => by cases p <;> first | exact h.parts _ hp | exact hw.absurd rfl hp
  mem := h.mem
  cores := h.cores
  otp := h.otp
  queue := h.queue

theorem Keeps.cust (hw : Sub 0x4000 W) {x : Cust} (h : Keeps W s0 s) : Keeps W s0 { s with cust := x } where
  parts := fun p hp => by cases p <;> first | exact h.parts _ hp | exact hw.absurd rfl hp
  mem := h.mem
  cores := h.cores
  otp := h.otp
  queue := h.queue

theorem Keeps.backup (hw : Sub 0x10000 W) {x : Backup} (h : Keeps W s0 s) : Keeps W s0 { s with backup := x } where
  parts := fun p hp => by cases p <;> first | exact h.parts _ hp | exact hw.absurd rfl hp
  mem := h.mem
  cores := h.cores
  otp := h.otp
  queue := h.queue

theorem Keeps.tamper (hw : Sub 0x20000 W) {x : Tamper} (h : Keeps W s0 s) : Keeps W s0 { s with tamper := x } where
  parts := fun p hp => by cases p <;> first | exact h.parts _ hp | exact hw.absurd rfl hp
  mem := h.mem
  cores := h.cores
  otp := h.otp
  queue := h.queue

theorem Keeps.punty (hw : Sub 0x40000 W) {x : Punty} (h : Keeps W s0 s) : Keeps W s0 { s with punty := x } where
  parts := fun p hp => by cases p <;> first | exact h.parts _ hp | exact hw.absurd rfl hp
  mem := h.mem
  cores := h.cores
  otp := h.otp
  queue := h.queue

theorem Keeps.regs (hw : Sub 0x80000 W) {x : List (Nat × Word)} (h : Keeps W s0 s) : Keeps W s0 { s with regs := x } where
  parts := fun p hp => by cases p <;> first | exact h.parts _ hp | exact hw.absurd rfl hp
  mem := h.mem
  cores := h.cores
  otp := h.otp
  queue := h.queue

theorem Keeps.free (hw : Sub 0x100000 W) {x : Nat} (h : Keeps W s0 s) : Keeps W s0 { s with free := x } where
  parts := fun p hp => by cases p <;> first | exact h.parts _ hp | exact hw.absurd rfl hp
  mem := h.mem
  cores := h.cores
  otp := h.otp
  queue := h.queue

theorem Keeps.setOtp (hw : Sub 0x8000 W) {x : Otp} (hr : s.otp.retire = true → x.retire = true) (he : s.otp.evidence ≤ x.evidence)
    (h : Keeps W s0 s) : Keeps W s0 { s with otp := x } where
  parts := fun p hp => by cases p <;> first | exact h.parts _ hp | exact hw.absurd rfl hp
  mem := h.mem
  cores := h.cores
  otp := ⟨h.otp.1, fun e => hr (h.otp.2.1 e), Nat.le_trans h.otp.2.2 he⟩
  queue := h.queue

theorem State.modFlash_keeps (hw : Sub 0x800 W) {f : Flash → Flash}
    (hf : ∀ x : Flash, cellsWf 0xFF x.cells = true → cellsWf 0xFF (f x).cells = true) (h : Keeps W s0 s) : Keeps W s0 (s.modFlash f) where
  parts := fun p hp => by cases p <;> first | exact h.parts _ hp | exact hw.absurd rfl hp
  mem := fun e => by
    have := h.mem e
    simp only [Memory.wf, Bool.and_eq_true, State.modFlash] at this ⊢
    exact ⟨this.1, hf _ this.2⟩
  cores := h.cores
  otp := h.otp
  queue := h.queue

/-- Every core of a cluster holds its registers. -/
def Warden.coresWf (w : Warden) : Prop := w.c0.regs.length = 16 ∧ w.c1.regs.length = 16 ∧ w.c2.regs.length = 16 ∧ w.c3.regs.length = 16

theorem State.modWarden_keeps (hw : Sub 0x400 W) {f : Warden → Warden}
    (hm : ∀ x : Warden, cellsWf 0 x.sram = true → cellsWf 0 (f x).sram = true) (hc : ∀ x : Warden, x.coresWf → (f x).coresWf)
    (h : Keeps W s0 s) : Keeps W s0 (s.modWarden f) where
  parts := fun p hp => by cases p <;> first | exact h.parts _ hp | exact hw.absurd rfl hp
  mem := fun e => by
    have := h.mem e
    simp only [Memory.wf, Bool.and_eq_true, State.modWarden] at this ⊢
    exact ⟨hm _ this.1, this.2⟩
  cores := fun e => hc _ (h.cores e)
  otp := h.otp
  queue := h.queue

theorem coreMod_keeps (hw : Sub 0x400 W) {n : Nat} {f : Core → Core} (hf : ∀ k : Core, k.regs.length = 16 → (f k).regs.length = 16)
    (h : Keeps W s0 s) : Keeps W s0 (coreMod n f s) := by
  unfold coreMod
  refine State.modWarden_keeps hw ?_ ?_ h
  · intro x hx; (repeat' split) <;> exact hx
  · intro x hx; obtain ⟨h0, h1, h2, h3⟩ := hx
    (repeat' split) <;> refine ⟨?_, ?_, ?_, ?_⟩ <;> first | assumption | exact hf _ (by assumption)

theorem Core.setReg_length {k : Core} {i : BitVec 4} {v : Word} (h : k.regs.length = 16) : (k.setReg i v).regs.length = 16 := by
  unfold Core.setReg; split <;> simpa using h

end Sys2Proof.Machine
end

