-- ==== Sys2Proof/Laws/FrameMem.lean ====
section
/-! SUPPORT. The frame of every operation of Machine/Mem.lean: the parts it may write, and what it keeps (`Keeps`). -/
namespace Sys2Proof.Machine

set_option linter.tactic.unusedName false
variable {W : Nat} {s0 : State}

theorem sramWrite_keeps (hw : Sub 0x400 W) {a bs s} (hs : Keeps W s0 s) : Keeps W s0 (sramWrite a bs s) := by
  unfold sramWrite
  repeat' first
    | with_reducible assumption
    | with_reducible refine State.modWarden_keeps (Sub.step hw rfl) ?_ ?_ ?_
    | with_reducible exact cellsWrite_wf ‹_›
    | exact ‹Warden.coresWf _›
    | intro _

theorem setColour_keeps (hw : Sub 0x400 W) {a c s} (hs : Keeps W s0 s) : Keeps W s0 (setColour a c s) := by
  unfold setColour
  repeat' first
    | with_reducible assumption
    | with_reducible refine State.modWarden_keeps (Sub.step hw rfl) ?_ ?_ ?_
    | with_reducible refine Keeps.foldl ?_ ?_
    | exact ‹Warden.coresWf _›
    | exact ‹List.length _ = 16›
    | exact Core.setReg_length ‹_›
    | intro _
    | (extract_lets +onlyGivenNames z; refine Keeps.cut (W := W) (s0 := s0) (x := z) ?_ ?_; dsimp -zeta only [z]; rotate_left; clear_value z; rotate_right)
    | (extract_lets +onlyGivenNames z; clear_value z)
    | split

theorem setBusy_keeps (hw : Sub 0x800 W) {p o s} (hs : Keeps W s0 s) : Keeps W s0 (setBusy p o s) := by
  unfold setBusy
  repeat' first
    | with_reducible assumption
    | with_reducible refine State.modFlash_keeps (Sub.step hw rfl) ?_ ?_
    | with_reducible refine Keeps.foldl ?_ ?_
    | exact ‹Warden.coresWf _›
    | exact ‹List.length _ = 16›
    | exact Core.setReg_length ‹_›
    | intro _
    | (extract_lets +onlyGivenNames z; refine Keeps.cut (W := W) (s0 := s0) (x := z) ?_ ?_; dsimp -zeta only [z]; rotate_left; clear_value z; rotate_right)
    | (extract_lets +onlyGivenNames z; clear_value z)
    | split

theorem flashAnd_keeps (hw : Sub 0x800 W) {a bs s} (hs : Keeps W s0 s) : Keeps W s0 (flashAnd a bs s) := by
  unfold flashAnd
  repeat' first
    | with_reducible assumption
    | with_reducible refine State.modFlash_keeps (Sub.step hw rfl) ?_ ?_
    | with_reducible exact cellsWrite_wf ‹_›
    | intro _

theorem progRow_keeps (hw : Sub 0x800 W) {a bs s} (hs : Keeps W s0 s) : Keeps W s0 (progRow a bs s) := by
  unfold progRow
  repeat' first
    | with_reducible assumption
    | with_reducible refine State.modFlash_keeps (Sub.step hw rfl) ?_ ?_
    | with_reducible refine flashAnd_keeps (Sub.step hw rfl) ?_
    | with_reducible refine Keeps.foldl ?_ ?_
    | exact ‹Warden.coresWf _›
    | exact ‹List.length _ = 16›
    | exact Core.setReg_length ‹_›
    | intro _
    | (extract_lets +onlyGivenNames z; refine Keeps.cut (W := W) (s0 := s0) (x := z) ?_ ?_; dsimp -zeta only [z]; rotate_left; clear_value z; rotate_right)
    | (extract_lets +onlyGivenNames z; clear_value z)
    | split

theorem progWord_keeps (hw : Sub 0x800 W) {a v s} (hs : Keeps W s0 s) : Keeps W s0 (progWord a v s) := by
  unfold progWord
  repeat' first
    | with_reducible assumption
    | with_reducible refine State.modFlash_keeps (Sub.step hw rfl) ?_ ?_
    | with_reducible refine flashAnd_keeps (Sub.step hw rfl) ?_
    | with_reducible refine Keeps.foldl ?_ ?_
    | exact ‹Warden.coresWf _›
    | exact ‹List.length _ = 16›
    | exact Core.setReg_length ‹_›
    | intro _
    | (extract_lets +onlyGivenNames z; refine Keeps.cut (W := W) (s0 := s0) (x := z) ?_ ?_; dsimp -zeta only [z]; rotate_left; clear_value z; rotate_right)
    | (extract_lets +onlyGivenNames z; clear_value z)
    | split

theorem progWords_keeps (hw : Sub 0x800 W) {a x1 s} (hs : Keeps W s0 s) : Keeps W s0 (progWords a x1 s) := by
  induction x1 generalizing a s with
  | nil =>
   rw [progWords]
   first
    | exact hs
  | cons x xs ih =>
   rw [progWords]
   repeat' first
    | with_reducible refine ih ?_
    | with_reducible assumption
    | with_reducible refine progWord_keeps (Sub.step hw rfl) ?_
    | with_reducible refine Keeps.foldl ?_ ?_
    | intro _
    | (extract_lets +onlyGivenNames z; refine Keeps.cut (W := W) (s0 := s0) (x := z) ?_ ?_; dsimp -zeta only [z]; rotate_left; clear_value z; rotate_right)
    | (extract_lets +onlyGivenNames z; clear_value z)
    | split

theorem eraseRange_keeps (hw : Sub 0x800 W) {a n s} (hs : Keeps W s0 s) : Keeps W s0 (eraseRange a n s) := by
  unfold eraseRange
  repeat' first
    | with_reducible assumption
    | with_reducible refine State.modFlash_keeps (Sub.step hw rfl) ?_ ?_
    | with_reducible exact cellsClear_wf ‹_›
    | intro _

theorem putRec_keeps (hw : Sub 0x800 W) {x i r s} (hs : Keeps W s0 s) : Keeps W s0 (putRec x i r s) := by
  unfold putRec
  repeat' first
    | with_reducible assumption
    | with_reducible refine progWords_keeps (Sub.step hw rfl) ?_
    | with_reducible refine Keeps.foldl ?_ ?_
    | intro _
    | (extract_lets +onlyGivenNames z; refine Keeps.cut (W := W) (s0 := s0) (x := z) ?_ ?_; dsimp -zeta only [z]; rotate_left; clear_value z; rotate_right)
    | (extract_lets +onlyGivenNames z; clear_value z)
    | split

theorem putRecs_keeps (hw : Sub 0x800 W) {x x1 x2 x3 s} (hs : Keeps W s0 s) : Keeps W s0 (putRecs x x1 x2 x3 s) := by
  induction x3 generalizing x x1 x2 s with
  | nil =>
   rw [putRecs]
   first
    | exact hs
  | cons x xs ih =>
   rw [putRecs]
   repeat' first
    | with_reducible refine ih ?_
    | with_reducible assumption
    | with_reducible refine putRec_keeps (Sub.step hw rfl) ?_
    | with_reducible refine Keeps.foldl ?_ ?_
    | intro _
    | (extract_lets +onlyGivenNames z; refine Keeps.cut (W := W) (s0 := s0) (x := z) ?_ ?_; dsimp -zeta only [z]; rotate_left; clear_value z; rotate_right)
    | (extract_lets +onlyGivenNames z; clear_value z)
    | split

theorem openFlag_keeps (hw : Sub 0x800 W) {n s} (hs : Keeps W s0 s) : PairAll (Keeps W s0) (openFlag n s) := by
  unfold openFlag
  repeat' first
    | with_reducible assumption
    | with_reducible refine progWord_keeps (Sub.step hw rfl) ?_
    | with_reducible refine eraseRange_keeps (Sub.step hw rfl) ?_
    | with_reducible refine PairAll.mk ?_
    | with_reducible refine Keeps.foldl ?_ ?_
    | intro _
    | (extract_lets +onlyGivenNames z; refine Keeps.cut (W := W) (s0 := s0) (x := z) ?_ ?_; dsimp -zeta only [z]; rotate_left; clear_value z; rotate_right)
    | (extract_lets +onlyGivenNames z; clear_value z)
    | split

theorem closeFlag_keeps (hw : Sub 0x800 W) {a s} (hs : Keeps W s0 s) : Keeps W s0 (closeFlag a s) := by
  unfold closeFlag
  repeat' first
    | with_reducible assumption
    | with_reducible refine progWord_keeps (Sub.step hw rfl) ?_
    | with_reducible refine Keeps.foldl ?_ ?_
    | intro _
    | (extract_lets +onlyGivenNames z; refine Keeps.cut (W := W) (s0 := s0) (x := z) ?_ ?_; dsimp -zeta only [z]; rotate_left; clear_value z; rotate_right)
    | (extract_lets +onlyGivenNames z; clear_value z)
    | split

theorem eraseSector_keeps (hw : Sub 0x800 W) {n s} (hs : Keeps W s0 s) : Keeps W s0 (eraseSector n s) := by
  unfold eraseSector
  repeat' first
    | with_reducible assumption
    | with_reducible refine openFlag_keeps (Sub.step hw rfl) ?_
    | with_reducible refine closeFlag_keeps (Sub.step hw rfl) ?_
    | with_reducible refine eraseRange_keeps (Sub.step hw rfl) ?_
    | with_reducible refine PairAll.snd (P := Keeps W s0) (p := openFlag _ _) ?_
    | with_reducible refine PairAll.out (P := Keeps W s0) (by assumption) ?_
    | with_reducible refine Keeps.foldl ?_ ?_
    | intro _
    | (extract_lets +onlyGivenNames z; refine Keeps.cut (W := W) (s0 := s0) (x := z) ?_ ?_; dsimp -zeta only [z]; rotate_left; clear_value z; rotate_right)
    | (extract_lets +onlyGivenNames z; clear_value z)
    | split

theorem logRecord_keeps (hw : Sub 0x800 W) {kind data s} (hs : Keeps W s0 s) : Keeps W s0 (logRecord kind data s) := by
  unfold logRecord
  repeat' first
    | with_reducible assumption
    | with_reducible refine putRec_keeps (Sub.step hw rfl) ?_
    | with_reducible refine eraseSector_keeps (Sub.step hw rfl) ?_
    | with_reducible refine putRecs_keeps (Sub.step hw rfl) ?_
    | with_reducible refine Keeps.foldl ?_ ?_
    | intro _
    | (extract_lets +onlyGivenNames z; refine Keeps.cut (W := W) (s0 := s0) (x := z) ?_ ?_; dsimp -zeta only [z]; rotate_left; clear_value z; rotate_right)
    | (extract_lets +onlyGivenNames z; clear_value z)
    | split

end Sys2Proof.Machine
end

