-- ==== Sys2Proof/Laws/FrameOps.lean ====
section
/-! SUPPORT. The frame of every operation of Machine/Ops.lean: the parts it may write, and what it keeps (`Keeps`). -/
namespace Sys2Proof.Machine

set_option linter.tactic.unusedName false
variable {W : Nat} {s0 : State}

theorem State.modDev_keeps (hw : Sub 0x2 W) {s f} (hs : Keeps W s0 s) : Keeps W s0 (State.modDev s f) := by
  unfold State.modDev
  repeat' first
    | exact Keeps.dev (Sub.step hw rfl) hs

theorem State.modPorts_keeps (hw : Sub 0x4 W) {s f} (hs : Keeps W s0 s) : Keeps W s0 (State.modPorts s f) := by
  unfold State.modPorts
  repeat' first
    | exact Keeps.ports (Sub.step hw rfl) hs

theorem State.modHg_keeps (hw : Sub 0x4 W) {s f} (hs : Keeps W s0 s) : Keeps W s0 (State.modHg s f) := by
  unfold State.modHg
  repeat' first
    | exact Keeps.ports (Sub.step hw rfl) hs

theorem State.modCmdif_keeps (hw : Sub 0x8 W) {s f} (hs : Keeps W s0 s) : Keeps W s0 (State.modCmdif s f) := by
  unfold State.modCmdif
  repeat' first
    | exact Keeps.cmdif (Sub.step hw rfl) hs

theorem State.modPort_keeps (hw : Sub 0x4 W) {s p f} (hs : Keeps W s0 s) : Keeps W s0 (State.modPort s p f) := by
  unfold State.modPort
  repeat' first
    | with_reducible assumption
    | (extract_lets +onlyGivenNames z; clear_value z)
    | split
    | with_reducible refine Keeps.ports (Sub.step hw rfl) ?_

theorem State.modRing_keeps (hw : Sub 0x4 W) {s p f} (hs : Keeps W s0 s) : Keeps W s0 (State.modRing s p f) := by
  unfold State.modRing
  repeat' first
    | with_reducible assumption
    | with_reducible refine State.modPort_keeps (Sub.step hw rfl) ?_
    | with_reducible refine Keeps.foldl ?_ ?_
    | intro _
    | (extract_lets +onlyGivenNames z; refine Keeps.cut (W := W) (s0 := s0) (x := z) ?_ ?_; dsimp -zeta only [z]; rotate_left; clear_value z; rotate_right)
    | (extract_lets +onlyGivenNames z; clear_value z)
    | split

theorem regSet_keeps (hw : Sub 0x80000 W) {k v s} (hs : Keeps W s0 s) : Keeps W s0 (regSet k v s) := by
  unfold regSet
  repeat' first
    | with_reducible assumption
    | with_reducible refine Keeps.foldl ?_ ?_
    | intro _
    | (extract_lets +onlyGivenNames z; refine Keeps.cut (W := W) (s0 := s0) (x := z) ?_ ?_; dsimp -zeta only [z]; rotate_left; clear_value z; rotate_right)
    | (extract_lets +onlyGivenNames z; clear_value z)
    | split
    | with_reducible refine Keeps.regs (Sub.step hw rfl) ?_

theorem regOr_keeps (hw : Sub 0x80000 W) {k m s} (hs : Keeps W s0 s) : Keeps W s0 (regOr k m s) := by
  unfold regOr
  repeat' first
    | with_reducible assumption
    | with_reducible refine regSet_keeps (Sub.step hw rfl) ?_
    | with_reducible refine Keeps.foldl ?_ ?_
    | intro _
    | (extract_lets +onlyGivenNames z; refine Keeps.cut (W := W) (s0 := s0) (x := z) ?_ ?_; dsimp -zeta only [z]; rotate_left; clear_value z; rotate_right)
    | (extract_lets +onlyGivenNames z; clear_value z)
    | split

theorem regClr_keeps (hw : Sub 0x80000 W) {k m s} (hs : Keeps W s0 s) : Keeps W s0 (regClr k m s) := by
  unfold regClr
  repeat' first
    | with_reducible assumption
    | with_reducible refine regSet_keeps (Sub.step hw rfl) ?_
    | with_reducible refine Keeps.foldl ?_ ?_
    | intro _
    | (extract_lets +onlyGivenNames z; refine Keeps.cut (W := W) (s0 := s0) (x := z) ?_ ?_; dsimp -zeta only [z]; rotate_left; clear_value z; rotate_right)
    | (extract_lets +onlyGivenNames z; clear_value z)
    | split

theorem regMask_keeps (hw : Sub 0x80000 W) {k m v s} (hs : Keeps W s0 s) : Keeps W s0 (regMask k m v s) := by
  unfold regMask
  repeat' first
    | with_reducible assumption
    | with_reducible refine regSet_keeps (Sub.step hw rfl) ?_
    | with_reducible refine Keeps.foldl ?_ ?_
    | intro _
    | (extract_lets +onlyGivenNames z; refine Keeps.cut (W := W) (s0 := s0) (x := z) ?_ ?_; dsimp -zeta only [z]; rotate_left; clear_value z; rotate_right)
    | (extract_lets +onlyGivenNames z; clear_value z)
    | split

theorem bump_keeps (hw : Sub 0x80000 W) {k n s} (hs : Keeps W s0 s) : Keeps W s0 (bump k n s) := by
  unfold bump
  repeat' first
    | with_reducible assumption
    | with_reducible refine regSet_keeps (Sub.step hw rfl) ?_
    | with_reducible refine Keeps.foldl ?_ ?_
    | intro _
    | (extract_lets +onlyGivenNames z; refine Keeps.cut (W := W) (s0 := s0) (x := z) ?_ ?_; dsimp -zeta only [z]; rotate_left; clear_value z; rotate_right)
    | (extract_lets +onlyGivenNames z; clear_value z)
    | split

theorem bump64_keeps (hw : Sub 0x80000 W) {k n s} (hs : Keeps W s0 s) : Keeps W s0 (bump64 k n s) := by
  unfold bump64
  repeat' first
    | with_reducible assumption
    | with_reducible refine regSet_keeps (Sub.step hw rfl) ?_
    | with_reducible refine Keeps.foldl ?_ ?_
    | intro _
    | (extract_lets +onlyGivenNames z; refine Keeps.cut (W := W) (s0 := s0) (x := z) ?_ ?_; dsimp -zeta only [z]; rotate_left; clear_value z; rotate_right)
    | (extract_lets +onlyGivenNames z; clear_value z)
    | split

theorem drawBytes_keeps (hw : Sub 0x100000 W) {n s} (hs : Keeps W s0 s) : PairAll (Keeps W s0) (drawBytes n s) := by
  unfold drawBytes
  repeat' first
    | with_reducible assumption
    | with_reducible refine PairAll.mk ?_
    | with_reducible refine Keeps.foldl ?_ ?_
    | intro _
    | (extract_lets +onlyGivenNames z; refine Keeps.cut (W := W) (s0 := s0) (x := z) ?_ ?_; dsimp -zeta only [z]; rotate_left; clear_value z; rotate_right)
    | (extract_lets +onlyGivenNames z; clear_value z)
    | split
    | with_reducible refine Keeps.free (Sub.step hw rfl) ?_

theorem drawNat_keeps (hw : Sub 0x100000 W) {s} (hs : Keeps W s0 s) : PairAll (Keeps W s0) (drawNat s) := by
  unfold drawNat
  repeat' first
    | with_reducible assumption
    | with_reducible refine PairAll.mk ?_
    | with_reducible refine Keeps.foldl ?_ ?_
    | intro _
    | (extract_lets +onlyGivenNames z; refine Keeps.cut (W := W) (s0 := s0) (x := z) ?_ ?_; dsimp -zeta only [z]; rotate_left; clear_value z; rotate_right)
    | (extract_lets +onlyGivenNames z; clear_value z)
    | split
    | with_reducible refine Keeps.free (Sub.step hw rfl) ?_

theorem issueTally_keeps (hw : Sub 0x80802 W) {s} (hs : Keeps W s0 s) : PairAll (Keeps W s0) (issueTally s) := by
  unfold issueTally
  repeat' first
    | with_reducible assumption
    | with_reducible refine logRecord_keeps (Sub.step hw rfl) ?_
    | with_reducible refine bump_keeps (Sub.step hw rfl) ?_
    | with_reducible refine State.modDev_keeps (Sub.step hw rfl) ?_
    | with_reducible refine PairAll.mk ?_
    | with_reducible refine Keeps.foldl ?_ ?_
    | intro _
    | (extract_lets +onlyGivenNames z; refine Keeps.cut (W := W) (s0 := s0) (x := z) ?_ ?_; dsimp -zeta only [z]; rotate_left; clear_value z; rotate_right)
    | (extract_lets +onlyGivenNames z; clear_value z)
    | split

theorem pushMwr_keeps (hw : Sub 0x4 W) {p w s} (hs : Keeps W s0 s) : Keeps W s0 (pushMwr p w s) := by
  unfold pushMwr
  repeat' first
    | with_reducible assumption
    | with_reducible refine State.modPort_keeps (Sub.step hw rfl) ?_
    | with_reducible refine Keeps.foldl ?_ ?_
    | intro _
    | (extract_lets +onlyGivenNames z; refine Keeps.cut (W := W) (s0 := s0) (x := z) ?_ ?_; dsimp -zeta only [z]; rotate_left; clear_value z; rotate_right)
    | (extract_lets +onlyGivenNames z; clear_value z)
    | split

theorem issueReads_keeps (hw : Sub 0x4 W) {p s} (hs : Keeps W s0 s) : Keeps W s0 (issueReads p s) := by
  unfold issueReads
  repeat' first
    | with_reducible assumption
    | with_reducible refine State.modPort_keeps (Sub.step hw rfl) ?_
    | with_reducible refine State.modPorts_keeps (Sub.step hw rfl) ?_
    | with_reducible refine Keeps.foldl ?_ ?_
    | intro _
    | (extract_lets +onlyGivenNames z; refine Keeps.cut (W := W) (s0 := s0) (x := z) ?_ ?_; dsimp -zeta only [z]; rotate_left; clear_value z; rotate_right)
    | (extract_lets +onlyGivenNames z; clear_value z)
    | split

theorem pushMrd_keeps (hw : Sub 0x4 W) {p of addr len ptag s} (hs : Keeps W s0 s) : Keeps W s0 (pushMrd p of addr len ptag s) := by
  unfold pushMrd
  repeat' first
    | with_reducible assumption
    | with_reducible refine issueReads_keeps (Sub.step hw rfl) ?_
    | with_reducible refine State.modPorts_keeps (Sub.step hw rfl) ?_
    | with_reducible refine Keeps.foldl ?_ ?_
    | intro _
    | (extract_lets +onlyGivenNames z; refine Keeps.cut (W := W) (s0 := s0) (x := z) ?_ ?_; dsimp -zeta only [z]; rotate_left; clear_value z; rotate_right)
    | (extract_lets +onlyGivenNames z; clear_value z)
    | split

theorem readOver_keeps (hw : Sub 0x4 W) {of s} (hs : Keeps W s0 s) : Keeps W s0 (readOver of s) := by
  unfold readOver
  repeat' first
    | with_reducible assumption
    | with_reducible refine State.modPorts_keeps (Sub.step hw rfl) ?_
    | with_reducible refine issueReads_keeps (Sub.step hw rfl) ?_
    | with_reducible refine Keeps.foldl ?_ ?_
    | intro _
    | (extract_lets +onlyGivenNames z; refine Keeps.cut (W := W) (s0 := s0) (x := z) ?_ ?_; dsimp -zeta only [z]; rotate_left; clear_value z; rotate_right)
    | (extract_lets +onlyGivenNames z; clear_value z)
    | split

theorem writeEvt_keeps (hw : Sub 0x4 W) {p e s} (hs : Keeps W s0 s) : Keeps W s0 (writeEvt p e s) := by
  unfold writeEvt
  repeat' first
    | with_reducible assumption
    | with_reducible refine pushMwr_keeps (Sub.step hw rfl) ?_
    | with_reducible refine State.modRing_keeps (Sub.step hw rfl) ?_
    | with_reducible refine Keeps.foldl ?_ ?_
    | intro _
    | (extract_lets +onlyGivenNames z; refine Keeps.cut (W := W) (s0 := s0) (x := z) ?_ ?_; dsimp -zeta only [z]; rotate_left; clear_value z; rotate_right)
    | (extract_lets +onlyGivenNames z; clear_value z)
    | split

theorem evtIrq_keeps (hw : Sub 0x4 W) {p s} (hs : Keeps W s0 s) : Keeps W s0 (evtIrq p s) := by
  unfold evtIrq
  repeat' first
    | with_reducible assumption
    | with_reducible refine pushMwr_keeps (Sub.step hw rfl) ?_
    | with_reducible refine Keeps.foldl ?_ ?_
    | intro _
    | (extract_lets +onlyGivenNames z; refine Keeps.cut (W := W) (s0 := s0) (x := z) ?_ ?_; dsimp -zeta only [z]; rotate_left; clear_value z; rotate_right)
    | (extract_lets +onlyGivenNames z; clear_value z)
    | split

theorem dropEvt_keeps (hw : Sub 0x4 W) {p e s} (hs : Keeps W s0 s) : Keeps W s0 (dropEvt p e s) := by
  unfold dropEvt
  repeat' first
    | with_reducible assumption
    | with_reducible refine State.modRing_keeps (Sub.step hw rfl) ?_
    | with_reducible refine Keeps.foldl ?_ ?_
    | intro _
    | (extract_lets +onlyGivenNames z; refine Keeps.cut (W := W) (s0 := s0) (x := z) ?_ ?_; dsimp -zeta only [z]; rotate_left; clear_value z; rotate_right)
    | (extract_lets +onlyGivenNames z; clear_value z)
    | split

theorem pumpFuel_keeps (hw : Sub 0x80806 W) {p x1 s} (hs : Keeps W s0 s) : Keeps W s0 (pumpFuel p x1 s) := by
  induction x1 generalizing p s with
  | zero =>
   rw [pumpFuel]
   exact hs
  | succ m ih =>
   rw [pumpFuel]
   repeat' first
    | with_reducible refine ih ?_
    | with_reducible assumption
    | with_reducible refine writeEvt_keeps (Sub.step hw rfl) ?_
    | with_reducible refine State.modRing_keeps (Sub.step hw rfl) ?_
    | with_reducible refine issueTally_keeps (Sub.step hw rfl) ?_
    | with_reducible refine PairAll.snd (P := Keeps W s0) (p := issueTally _) ?_
    | with_reducible refine PairAll.out (P := Keeps W s0) (by assumption) ?_
    | with_reducible refine Keeps.foldl ?_ ?_
    | intro _
    | (extract_lets +onlyGivenNames z; refine Keeps.cut (W := W) (s0 := s0) (x := z) ?_ ?_; dsimp -zeta only [z]; rotate_left; clear_value z; rotate_right)
    | (extract_lets +onlyGivenNames z; clear_value z)
    | split

theorem holdLoss_keeps (hw : Sub 0x80806 W) {p s} (hs : Keeps W s0 s) : Keeps W s0 (holdLoss p s) := by
  unfold holdLoss
  repeat' first
    | with_reducible assumption
    | with_reducible refine issueTally_keeps (Sub.step hw rfl) ?_
    | with_reducible refine State.modRing_keeps (Sub.step hw rfl) ?_
    | with_reducible refine PairAll.snd (P := Keeps W s0) (p := issueTally _) ?_
    | with_reducible refine PairAll.out (P := Keeps W s0) (by assumption) ?_
    | with_reducible refine Keeps.foldl ?_ ?_
    | intro _
    | (extract_lets +onlyGivenNames z; refine Keeps.cut (W := W) (s0 := s0) (x := z) ?_ ?_; dsimp -zeta only [z]; rotate_left; clear_value z; rotate_right)
    | (extract_lets +onlyGivenNames z; clear_value z)
    | split

theorem pump_keeps (hw : Sub 0x80806 W) {p s} (hs : Keeps W s0 s) : Keeps W s0 (pump p s) := by
  unfold pump
  repeat' first
    | with_reducible assumption
    | with_reducible refine holdLoss_keeps (Sub.step hw rfl) ?_
    | with_reducible refine pumpFuel_keeps (Sub.step hw rfl) ?_
    | with_reducible refine evtIrq_keeps (Sub.step hw rfl) ?_
    | with_reducible refine Keeps.foldl ?_ ?_
    | intro _
    | (extract_lets +onlyGivenNames z; refine Keeps.cut (W := W) (s0 := s0) (x := z) ?_ ?_; dsimp -zeta only [z]; rotate_left; clear_value z; rotate_right)
    | (extract_lets +onlyGivenNames z; clear_value z)
    | split

theorem ringEvt_keeps (hw : Sub 0x4 W) {p e s} (hs : Keeps W s0 s) : Keeps W s0 (ringEvt p e s) := by
  unfold ringEvt
  repeat' first
    | with_reducible assumption
    | with_reducible refine evtIrq_keeps (Sub.step hw rfl) ?_
    | with_reducible refine writeEvt_keeps (Sub.step hw rfl) ?_
    | with_reducible refine State.modRing_keeps (Sub.step hw rfl) ?_
    | with_reducible refine dropEvt_keeps (Sub.step hw rfl) ?_
    | with_reducible refine Keeps.foldl ?_ ?_
    | intro _
    | (extract_lets +onlyGivenNames z; refine Keeps.cut (W := W) (s0 := s0) (x := z) ?_ ?_; dsimp -zeta only [z]; rotate_left; clear_value z; rotate_right)
    | (extract_lets +onlyGivenNames z; clear_value z)
    | split

theorem sendEvt_keeps (hw : Sub 0x4 W) {r e s} (hs : Keeps W s0 s) : Keeps W s0 (sendEvt r e s) := by
  unfold sendEvt
  repeat' first
    | with_reducible assumption
    | with_reducible refine ringEvt_keeps (Sub.step hw rfl) ?_
    | with_reducible refine Keeps.foldl ?_ ?_
    | intro _
    | (extract_lets +onlyGivenNames z; refine Keeps.cut (W := W) (s0 := s0) (x := z) ?_ ?_; dsimp -zeta only [z]; rotate_left; clear_value z; rotate_right)
    | (extract_lets +onlyGivenNames z; clear_value z)
    | split

theorem postEvt_keeps (hw : Sub 0x80806 W) {r code d0 d1 s} (hs : Keeps W s0 s) : Keeps W s0 (postEvt r code d0 d1 s) := by
  unfold postEvt
  repeat' first
    | with_reducible assumption
    | with_reducible refine issueTally_keeps (Sub.step hw rfl) ?_
    | with_reducible refine sendEvt_keeps (Sub.step hw rfl) ?_
    | with_reducible refine PairAll.snd (P := Keeps W s0) (p := issueTally _) ?_
    | with_reducible refine PairAll.out (P := Keeps W s0) (by assumption) ?_
    | with_reducible refine Keeps.foldl ?_ ?_
    | intro _
    | (extract_lets +onlyGivenNames z; refine Keeps.cut (W := W) (s0 := s0) (x := z) ?_ ?_; dsimp -zeta only [z]; rotate_left; clear_value z; rotate_right)
    | (extract_lets +onlyGivenNames z; clear_value z)
    | split

theorem raiseErr_keeps (hw : Sub 0x80806 W) {errKey enKey code n d0 s} (hs : Keeps W s0 s) : Keeps W s0 (raiseErr errKey enKey code n d0 s) := by
  unfold raiseErr
  repeat' first
    | with_reducible assumption
    | with_reducible refine regOr_keeps (Sub.step hw rfl) ?_
    | with_reducible refine postEvt_keeps (Sub.step hw rfl) ?_
    | with_reducible refine Keeps.foldl ?_ ?_
    | intro _
    | (extract_lets +onlyGivenNames z; refine Keeps.cut (W := W) (s0 := s0) (x := z) ?_ ?_; dsimp -zeta only [z]; rotate_left; clear_value z; rotate_right)
    | (extract_lets +onlyGivenNames z; clear_value z)
    | split

theorem devErr_keeps (hw : Sub 0x80806 W) {n r s} (hs : Keeps W s0 s) : Keeps W s0 (devErr n r s) := by
  unfold devErr
  repeat' first
    | with_reducible assumption
    | with_reducible refine raiseErr_keeps (Sub.step hw rfl) ?_
    | with_reducible refine Keeps.foldl ?_ ?_
    | intro _
    | (extract_lets +onlyGivenNames z; refine Keeps.cut (W := W) (s0 := s0) (x := z) ?_ ?_; dsimp -zeta only [z]; rotate_left; clear_value z; rotate_right)
    | (extract_lets +onlyGivenNames z; clear_value z)
    | split

theorem cmdErr_keeps (hw : Sub 0x80806 W) {n q s} (hs : Keeps W s0 s) : Keeps W s0 (cmdErr n q s) := by
  unfold cmdErr
  repeat' first
    | with_reducible assumption
    | with_reducible refine raiseErr_keeps (Sub.step hw rfl) ?_
    | with_reducible refine Keeps.foldl ?_ ?_
    | intro _
    | (extract_lets +onlyGivenNames z; refine Keeps.cut (W := W) (s0 := s0) (x := z) ?_ ?_; dsimp -zeta only [z]; rotate_left; clear_value z; rotate_right)
    | (extract_lets +onlyGivenNames z; clear_value z)
    | split

theorem portErr_keeps (hw : Sub 0x80000 W) {n s} (hs : Keeps W s0 s) : Keeps W s0 (portErr n s) := by
  unfold portErr
  repeat' first
    | with_reducible assumption
    | with_reducible refine regOr_keeps (Sub.step hw rfl) ?_
    | with_reducible refine Keeps.foldl ?_ ?_
    | intro _
    | (extract_lets +onlyGivenNames z; refine Keeps.cut (W := W) (s0 := s0) (x := z) ?_ ?_; dsimp -zeta only [z]; rotate_left; clear_value z; rotate_right)
    | (extract_lets +onlyGivenNames z; clear_value z)
    | split

theorem emptyKSlots_keeps (hw : Sub 0x100 W) {p s} (hs : Keeps W s0 s) : Keeps W s0 (emptyKSlots p s) := by
  unfold emptyKSlots
  repeat' first
    | with_reducible assumption
    | with_reducible refine Keeps.foldl ?_ ?_
    | intro _
    | (extract_lets +onlyGivenNames z; refine Keeps.cut (W := W) (s0 := s0) (x := z) ?_ ?_; dsimp -zeta only [z]; rotate_left; clear_value z; rotate_right)
    | (extract_lets +onlyGivenNames z; clear_value z)
    | split
    | with_reducible refine Keeps.cipher (Sub.step hw rfl) ?_

end Sys2Proof.Machine
end

