-- ==== Sys2Proof/Laws/FrameJournal.lean ====
section
/-! SUPPORT. The frame of every operation of Machine/Journal.lean: the parts it may write, and what it keeps (`Keeps`). -/
namespace Sys2Proof.Machine

set_option linter.tactic.unusedName false
variable {W : Nat} {s0 : State}

theorem State.modTamper_keeps (hw : Sub 0x20000 W) {s f} (hs : Keeps W s0 s) : Keeps W s0 (State.modTamper s f) := by
  unfold State.modTamper
  repeat' first
    | exact Keeps.tamper (Sub.step hw rfl) hs

theorem State.modBackup_keeps (hw : Sub 0x10000 W) {s f} (hs : Keeps W s0 s) : Keeps W s0 (State.modBackup s f) := by
  unfold State.modBackup
  repeat' first
    | exact Keeps.backup (Sub.step hw rfl) hs

theorem State.modPunty_keeps (hw : Sub 0x40000 W) {s f} (hs : Keeps W s0 s) : Keeps W s0 (State.modPunty s f) := by
  unfold State.modPunty
  repeat' first
    | exact Keeps.punty (Sub.step hw rfl) hs

theorem State.modCust_keeps (hw : Sub 0x4000 W) {s f} (hs : Keeps W s0 s) : Keeps W s0 (State.modCust s f) := by
  unfold State.modCust
  repeat' first
    | exact Keeps.cust (Sub.step hw rfl) hs

theorem State.modVault_keeps (hw : Sub 0x2000 W) {s f} (hs : Keeps W s0 s) : Keeps W s0 (State.modVault s f) := by
  unfold State.modVault
  repeat' first
    | exact Keeps.vault (Sub.step hw rfl) hs

theorem State.modCart_keeps (hw : Sub 0x2000 W) {s n f} (hs : Keeps W s0 s) : Keeps W s0 (State.modCart s n f) := by
  unfold State.modCart
  repeat' first
    | with_reducible assumption
    | with_reducible refine State.modVault_keeps (Sub.step hw rfl) ?_
    | with_reducible refine Keeps.foldl ?_ ?_
    | intro _
    | (extract_lets +onlyGivenNames z; refine Keeps.cut (W := W) (s0 := s0) (x := z) ?_ ?_; dsimp -zeta only [z]; rotate_left; clear_value z; rotate_right)
    | (extract_lets +onlyGivenNames z; clear_value z)
    | split

theorem auditHigh_keeps (hw : Sub 0x82806 W) {s} (hs : Keeps W s0 s) : Keeps W s0 (auditHigh s) := by
  unfold auditHigh
  repeat' first
    | with_reducible assumption
    | with_reducible refine postEvt_keeps (Sub.step hw rfl) ?_
    | with_reducible refine State.modVault_keeps (Sub.step hw rfl) ?_
    | with_reducible refine Keeps.foldl ?_ ?_
    | intro _
    | (extract_lets +onlyGivenNames z; refine Keeps.cut (W := W) (s0 := s0) (x := z) ?_ ?_; dsimp -zeta only [z]; rotate_left; clear_value z; rotate_right)
    | (extract_lets +onlyGivenNames z; clear_value z)
    | split

theorem sealOne_keeps (hw : Sub 0x82806 W) {g s} (hs : Keeps W s0 s) : Keeps W s0 (sealOne g s) := by
  unfold sealOne
  repeat' first
    | with_reducible assumption
    | with_reducible refine State.modVault_keeps (Sub.step hw rfl) ?_
    | with_reducible refine regSet_keeps (Sub.step hw rfl) ?_
    | with_reducible refine bump64_keeps (Sub.step hw rfl) ?_
    | with_reducible refine auditHigh_keeps (Sub.step hw rfl) ?_
    | with_reducible refine Keeps.foldl ?_ ?_
    | intro _
    | (extract_lets +onlyGivenNames z; refine Keeps.cut (W := W) (s0 := s0) (x := z) ?_ ?_; dsimp -zeta only [z]; rotate_left; clear_value z; rotate_right)
    | (extract_lets +onlyGivenNames z; clear_value z)
    | split

theorem sealKind_keeps (hw : Sub 0x82806 W) {k s} (hs : Keeps W s0 s) : Keeps W s0 (sealKind k s) := by
  unfold sealKind
  repeat' first
    | with_reducible assumption
    | with_reducible refine sealOne_keeps (Sub.step hw rfl) ?_
    | with_reducible refine State.modVault_keeps (Sub.step hw rfl) ?_
    | with_reducible refine Keeps.foldl ?_ ?_
    | intro _
    | (extract_lets +onlyGivenNames z; refine Keeps.cut (W := W) (s0 := s0) (x := z) ?_ ?_; dsimp -zeta only [z]; rotate_left; clear_value z; rotate_right)
    | (extract_lets +onlyGivenNames z; clear_value z)
    | split

theorem intoSeg_keeps (hw : Sub 0x82806 W) {k len f s} (hs : Keeps W s0 s) : Keeps W s0 (intoSeg k len f s) := by
  unfold intoSeg
  repeat' first
    | with_reducible assumption
    | with_reducible refine sealKind_keeps (Sub.step hw rfl) ?_
    | with_reducible refine State.modVault_keeps (Sub.step hw rfl) ?_
    | with_reducible refine Keeps.foldl ?_ ?_
    | intro _
    | (extract_lets +onlyGivenNames z; refine Keeps.cut (W := W) (s0 := s0) (x := z) ?_ ?_; dsimp -zeta only [z]; rotate_left; clear_value z; rotate_right)
    | (extract_lets +onlyGivenNames z; clear_value z)
    | split

theorem archive_keeps (hw : Sub 0x82806 W) {op s} (hs : Keeps W s0 s) : Keeps W s0 (archive op s) := by
  unfold archive
  repeat' first
    | with_reducible assumption
    | with_reducible refine intoSeg_keeps (Sub.step hw rfl) ?_
    | with_reducible refine Keeps.foldl ?_ ?_
    | intro _
    | (extract_lets +onlyGivenNames z; refine Keeps.cut (W := W) (s0 := s0) (x := z) ?_ ?_; dsimp -zeta only [z]; rotate_left; clear_value z; rotate_right)
    | (extract_lets +onlyGivenNames z; clear_value z)
    | split

theorem archiveSync_keeps (hw : Sub 0x82806 W) {k op s} (hs : Keeps W s0 s) : PairAll (Keeps W s0) (archiveSync k op s) := by
  unfold archiveSync
  repeat' first
    | with_reducible assumption
    | with_reducible refine intoSeg_keeps (Sub.step hw rfl) ?_
    | with_reducible refine sealKind_keeps (Sub.step hw rfl) ?_
    | with_reducible refine PairAll.mk ?_
    | with_reducible refine Keeps.foldl ?_ ?_
    | intro _
    | (extract_lets +onlyGivenNames z; refine Keeps.cut (W := W) (s0 := s0) (x := z) ?_ ?_; dsimp -zeta only [z]; rotate_left; clear_value z; rotate_right)
    | (extract_lets +onlyGivenNames z; clear_value z)
    | split

theorem auditRec_keeps (hw : Sub 0x82806 W) {kind furrow opcode status keyA keyB tag sqPort inl detail s} (hs : Keeps W s0 s) : Keeps W s0 (auditRec kind furrow opcode status keyA keyB tag sqPort inl detail s) := by
  unfold auditRec
  repeat' first
    | with_reducible assumption
    | with_reducible refine issueTally_keeps (Sub.step hw rfl) ?_
    | with_reducible refine intoSeg_keeps (Sub.step hw rfl) ?_
    | with_reducible refine PairAll.snd (P := Keeps W s0) (p := issueTally _) ?_
    | with_reducible refine PairAll.out (P := Keeps W s0) (by assumption) ?_
    | with_reducible refine Keeps.foldl ?_ ?_
    | intro _
    | (extract_lets +onlyGivenNames z; refine Keeps.cut (W := W) (s0 := s0) (x := z) ?_ ?_; dsimp -zeta only [z]; rotate_left; clear_value z; rotate_right)
    | (extract_lets +onlyGivenNames z; clear_value z)
    | split

theorem auditDev_keeps (hw : Sub 0x82806 W) {kind detail s} (hs : Keeps W s0 s) : Keeps W s0 (auditDev kind detail s) := by
  unfold auditDev
  repeat' first
    | with_reducible assumption
    | with_reducible refine auditRec_keeps (Sub.step hw rfl) ?_
    | with_reducible refine Keeps.foldl ?_ ?_
    | intro _
    | (extract_lets +onlyGivenNames z; refine Keeps.cut (W := W) (s0 := s0) (x := z) ?_ ?_; dsimp -zeta only [z]; rotate_left; clear_value z; rotate_right)
    | (extract_lets +onlyGivenNames z; clear_value z)
    | split

theorem rollAdd_keeps (hw : Sub 0x82806 W) {ty f id uses vf sh s} (hs : Keeps W s0 s) : Keeps W s0 (rollAdd ty f id uses vf sh s) := by
  unfold rollAdd
  repeat' first
    | with_reducible assumption
    | with_reducible refine State.modVault_keeps (Sub.step hw rfl) ?_
    | with_reducible refine raiseErr_keeps (Sub.step hw rfl) ?_
    | with_reducible refine Keeps.foldl ?_ ?_
    | intro _
    | (extract_lets +onlyGivenNames z; refine Keeps.cut (W := W) (s0 := s0) (x := z) ?_ ?_; dsimp -zeta only [z]; rotate_left; clear_value z; rotate_right)
    | (extract_lets +onlyGivenNames z; clear_value z)
    | split

theorem closeRollup_keeps (hw : Sub 0x82806 W) {s} (hs : Keeps W s0 s) : Keeps W s0 (closeRollup s) := by
  unfold closeRollup
  repeat' first
    | with_reducible assumption
    | with_reducible refine issueTally_keeps (Sub.step hw rfl) ?_
    | with_reducible refine intoSeg_keeps (Sub.step hw rfl) ?_
    | with_reducible refine State.modVault_keeps (Sub.step hw rfl) ?_
    | with_reducible refine PairAll.snd (P := Keeps W s0) (p := issueTally _) ?_
    | with_reducible refine PairAll.out (P := Keeps W s0) (by assumption) ?_
    | with_reducible refine Keeps.foldl ?_ ?_
    | intro _
    | (extract_lets +onlyGivenNames z; refine Keeps.cut (W := W) (s0 := s0) (x := z) ?_ ?_; dsimp -zeta only [z]; rotate_left; clear_value z; rotate_right)
    | (extract_lets +onlyGivenNames z; clear_value z)
    | split

theorem puntyPut_keeps (hw : Sub 0x40000 W) {n bs s} (hs : Keeps W s0 s) : Keeps W s0 (puntyPut n bs s) := by
  unfold puntyPut
  repeat' first
    | with_reducible assumption
    | with_reducible refine State.modPunty_keeps (Sub.step hw rfl) ?_
    | with_reducible refine Keeps.foldl ?_ ?_
    | intro _
    | (extract_lets +onlyGivenNames z; refine Keeps.cut (W := W) (s0 := s0) (x := z) ?_ ?_; dsimp -zeta only [z]; rotate_left; clear_value z; rotate_right)
    | (extract_lets +onlyGivenNames z; clear_value z)
    | split

theorem puntyStatusRows_keeps (hw : Sub 0x40000 W) {t newest s} (hs : Keeps W s0 s) : Keeps W s0 (puntyStatusRows t newest s) := by
  unfold puntyStatusRows
  repeat' first
    | with_reducible assumption
    | with_reducible refine puntyPut_keeps (Sub.step hw rfl) ?_
    | with_reducible refine Keeps.foldl ?_ ?_
    | intro _
    | (extract_lets +onlyGivenNames z; refine Keeps.cut (W := W) (s0 := s0) (x := z) ?_ ?_; dsimp -zeta only [z]; rotate_left; clear_value z; rotate_right)
    | (extract_lets +onlyGivenNames z; clear_value z)
    | split

theorem puntyTouch_keeps (hw : Sub 0x40000 W) {t s} (hs : Keeps W s0 s) : Keeps W s0 (puntyTouch t s) := by
  unfold puntyTouch
  repeat' first
    | with_reducible assumption
    | with_reducible refine puntyStatusRows_keeps (Sub.step hw rfl) ?_
    | with_reducible refine Keeps.foldl ?_ ?_
    | intro _
    | (extract_lets +onlyGivenNames z; refine Keeps.cut (W := W) (s0 := s0) (x := z) ?_ ?_; dsimp -zeta only [z]; rotate_left; clear_value z; rotate_right)
    | (extract_lets +onlyGivenNames z; clear_value z)
    | split

theorem puntyAlarm_keeps (hw : Sub 0x40000 W) {source level t s} (hs : Keeps W s0 s) : Keeps W s0 (puntyAlarm source level t s) := by
  unfold puntyAlarm
  repeat' first
    | with_reducible assumption
    | with_reducible refine puntyStatusRows_keeps (Sub.step hw rfl) ?_
    | with_reducible refine puntyPut_keeps (Sub.step hw rfl) ?_
    | with_reducible refine Keeps.foldl ?_ ?_
    | intro _
    | (extract_lets +onlyGivenNames z; refine Keeps.cut (W := W) (s0 := s0) (x := z) ?_ ?_; dsimp -zeta only [z]; rotate_left; clear_value z; rotate_right)
    | (extract_lets +onlyGivenNames z; clear_value z)
    | split

theorem changeMode_keeps (hw : Sub 0xc2806 W) {m s} (hs : Keeps W s0 s) : Keeps W s0 (changeMode m s) := by
  unfold changeMode
  repeat' first
    | with_reducible assumption
    | with_reducible refine issueTally_keeps (Sub.step hw rfl) ?_
    | with_reducible refine State.modDev_keeps (Sub.step hw rfl) ?_
    | with_reducible refine puntyTouch_keeps (Sub.step hw rfl) ?_
    | with_reducible refine sendEvt_keeps (Sub.step hw rfl) ?_
    | with_reducible refine auditDev_keeps (Sub.step hw rfl) ?_
    | with_reducible refine PairAll.snd (P := Keeps W s0) (p := issueTally _) ?_
    | with_reducible refine PairAll.out (P := Keeps W s0) (by assumption) ?_
    | with_reducible refine Keeps.foldl ?_ ?_
    | intro _
    | (extract_lets +onlyGivenNames z; refine Keeps.cut (W := W) (s0 := s0) (x := z) ?_ ?_; dsimp -zeta only [z]; rotate_left; clear_value z; rotate_right)
    | (extract_lets +onlyGivenNames z; clear_value z)
    | split

theorem setDegraded_keeps (hw : Sub 0xc2806 W) {n s} (hs : Keeps W s0 s) : Keeps W s0 (setDegraded n s) := by
  unfold setDegraded
  repeat' first
    | with_reducible assumption
    | with_reducible refine regOr_keeps (Sub.step hw rfl) ?_
    | with_reducible refine changeMode_keeps (Sub.step hw rfl) ?_
    | with_reducible refine Keeps.foldl ?_ ?_
    | intro _
    | (extract_lets +onlyGivenNames z; refine Keeps.cut (W := W) (s0 := s0) (x := z) ?_ ?_; dsimp -zeta only [z]; rotate_left; clear_value z; rotate_right)
    | (extract_lets +onlyGivenNames z; clear_value z)
    | split

theorem clearDegraded_keeps (hw : Sub 0xc2806 W) {n s} (hs : Keeps W s0 s) : Keeps W s0 (clearDegraded n s) := by
  unfold clearDegraded
  repeat' first
    | with_reducible assumption
    | with_reducible refine regClr_keeps (Sub.step hw rfl) ?_
    | with_reducible refine changeMode_keeps (Sub.step hw rfl) ?_
    | with_reducible refine Keeps.foldl ?_ ?_
    | intro _
    | (extract_lets +onlyGivenNames z; refine Keeps.cut (W := W) (s0 := s0) (x := z) ?_ ?_; dsimp -zeta only [z]; rotate_left; clear_value z; rotate_right)
    | (extract_lets +onlyGivenNames z; clear_value z)
    | split

theorem recordRetired_keeps (hw : Sub 0x800 W) {cls bitmap s} (hs : Keeps W s0 s) : Keeps W s0 (recordRetired cls bitmap s) := by
  unfold recordRetired
  repeat' first
    | with_reducible assumption
    | with_reducible refine logRecord_keeps (Sub.step hw rfl) ?_
    | with_reducible refine Keeps.foldl ?_ ?_
    | intro _
    | (extract_lets +onlyGivenNames z; refine Keeps.cut (W := W) (s0 := s0) (x := z) ?_ ?_; dsimp -zeta only [z]; rotate_left; clear_value z; rotate_right)
    | (extract_lets +onlyGivenNames z; clear_value z)
    | split

end Sys2Proof.Machine
end

