-- ==== Sys2Proof/Laws/FrameShares.lean ====
section
/-! SUPPORT. The frame of every operation of Machine/Shares.lean: the parts it may write, and what it keeps (`Keeps`). -/
namespace Sys2Proof.Machine

set_option linter.tactic.unusedName false
variable {W : Nat} {s0 : State}

theorem State.modCistern_keeps (hw : Sub 0x1000 W) {s f} (hs : Keeps W s0 s) : Keeps W s0 (State.modCistern s f) := by
  unfold State.modCistern
  repeat' first
    | exact Keeps.cistern (Sub.step hw rfl) hs

theorem poolSet_keeps (hw : Sub 0x1000 W) {n p s} (hs : Keeps W s0 s) : Keeps W s0 (poolSet n p s) := by
  unfold poolSet
  repeat' first
    | with_reducible assumption
    | with_reducible refine State.modCistern_keeps (Sub.step hw rfl) ?_
    | with_reducible refine Keeps.foldl ?_ ?_
    | intro _
    | (extract_lets +onlyGivenNames z; refine Keeps.cut (W := W) (s0 := s0) (x := z) ?_ ?_; dsimp -zeta only [z]; rotate_left; clear_value z; rotate_right)
    | (extract_lets +onlyGivenNames z; clear_value z)
    | split

theorem poolLow_keeps (hw : Sub 0x81806 W) {n s} (hs : Keeps W s0 s) : Keeps W s0 (poolLow n s) := by
  unfold poolLow
  repeat' first
    | with_reducible assumption
    | with_reducible refine postEvt_keeps (Sub.step hw rfl) ?_
    | with_reducible refine poolSet_keeps (Sub.step hw rfl) ?_
    | with_reducible refine Keeps.foldl ?_ ?_
    | intro _
    | (extract_lets +onlyGivenNames z; refine Keeps.cut (W := W) (s0 := s0) (x := z) ?_ ?_; dsimp -zeta only [z]; rotate_left; clear_value z; rotate_right)
    | (extract_lets +onlyGivenNames z; clear_value z)
    | split

theorem debit_keeps (hw : Sub 0x81806 W) {n k s} (hs : Keeps W s0 s) : Keeps W s0 (debit n k s) := by
  unfold debit
  repeat' first
    | with_reducible assumption
    | with_reducible refine poolLow_keeps (Sub.step hw rfl) ?_
    | with_reducible refine poolSet_keeps (Sub.step hw rfl) ?_
    | with_reducible refine Keeps.foldl ?_ ?_
    | intro _
    | (extract_lets +onlyGivenNames z; refine Keeps.cut (W := W) (s0 := s0) (x := z) ?_ ?_; dsimp -zeta only [z]; rotate_left; clear_value z; rotate_right)
    | (extract_lets +onlyGivenNames z; clear_value z)
    | split

theorem debitAll_keeps (hw : Sub 0x81806 W) {rs s} (hs : Keeps W s0 s) : Keeps W s0 (debitAll rs s) := by
  unfold debitAll
  repeat' first
    | with_reducible assumption
    | with_reducible refine debit_keeps (Sub.step hw rfl) ?_
    | with_reducible refine Keeps.foldl ?_ ?_
    | intro _
    | (extract_lets +onlyGivenNames z; refine Keeps.cut (W := W) (s0 := s0) (x := z) ?_ ?_; dsimp -zeta only [z]; rotate_left; clear_value z; rotate_right)
    | (extract_lets +onlyGivenNames z; clear_value z)
    | split

theorem settle_keeps (hw : Sub 0x81806 W) {c st s} (hs : Keeps W s0 s) : Keeps W s0 (settle c st s) := by
  unfold settle
  repeat' first
    | with_reducible assumption
    | with_reducible refine debitAll_keeps (Sub.step hw rfl) ?_
    | with_reducible refine debit_keeps (Sub.step hw rfl) ?_
    | with_reducible refine Keeps.foldl ?_ ?_
    | intro _
    | (extract_lets +onlyGivenNames z; refine Keeps.cut (W := W) (s0 := s0) (x := z) ?_ ?_; dsimp -zeta only [z]; rotate_left; clear_value z; rotate_right)
    | (extract_lets +onlyGivenNames z; clear_value z)
    | split

end Sys2Proof.Machine
end

