-- ==== Sys2Proof/Laws/FrameKeyStore.lean ====
section
/-! SUPPORT. The frame of every operation of Machine/KeyStore.lean: the parts it may write, and what it keeps (`Keeps`). -/
namespace Sys2Proof.Machine

set_option linter.tactic.unusedName false
variable {W : Nat} {s0 : State}

theorem State.modKeys_keeps (hw : Sub 0x40 W) {s f} (hs : Keeps W s0 s) : Keeps W s0 (State.modKeys s f) := by
  unfold State.modKeys
  repeat' first
    | exact Keeps.keytab (Sub.step hw rfl) hs

theorem slotSet_keeps (hw : Sub 0x40 W) {i k s} (hs : Keeps W s0 s) : Keeps W s0 (slotSet i k s) := by
  unfold slotSet
  repeat' first
    | with_reducible assumption
    | with_reducible refine State.modKeys_keeps (Sub.step hw rfl) ?_
    | with_reducible refine Keeps.foldl ?_ ?_
    | intro _
    | (extract_lets +onlyGivenNames z; refine Keeps.cut (W := W) (s0 := s0) (x := z) ?_ ?_; dsimp -zeta only [z]; rotate_left; clear_value z; rotate_right)
    | (extract_lets +onlyGivenNames z; clear_value z)
    | split

theorem cullet_keeps (hw : Sub 0x40 W) {i s} (hs : Keeps W s0 s) : Keeps W s0 (cullet i s) := by
  unfold cullet
  repeat' first
    | with_reducible assumption
    | with_reducible refine slotSet_keeps (Sub.step hw rfl) ?_
    | with_reducible refine Keeps.foldl ?_ ?_
    | intro _
    | (extract_lets +onlyGivenNames z; refine Keeps.cut (W := W) (s0 := s0) (x := z) ?_ ?_; dsimp -zeta only [z]; rotate_left; clear_value z; rotate_right)
    | (extract_lets +onlyGivenNames z; clear_value z)
    | split

theorem setFreeList_keeps (hw : Sub 0x40 W) {dom rs s} (hs : Keeps W s0 s) : Keeps W s0 (setFreeList dom rs s) := by
  unfold setFreeList
  repeat' first
    | with_reducible assumption
    | with_reducible refine State.modKeys_keeps (Sub.step hw rfl) ?_
    | with_reducible refine Keeps.foldl ?_ ?_
    | intro _
    | (extract_lets +onlyGivenNames z; refine Keeps.cut (W := W) (s0 := s0) (x := z) ?_ ?_; dsimp -zeta only [z]; rotate_left; clear_value z; rotate_right)
    | (extract_lets +onlyGivenNames z; clear_value z)
    | split

theorem allocate_keeps (hw : Sub 0x82846 W) {dom owner quota n s} (hs : Keeps W s0 s) : AllocAns.All (Keeps W s0) (allocate dom owner quota n s) := by
  unfold allocate
  dsimp only
  have take : ∀ g i, Keeps W s0 ((setFreeList dom (rangesTake i (freeList dom s)) s).modKeys fun t =>
      if n = 0 then t else { t with granFree := g }) := fun g i =>
    State.modKeys_keeps (Sub.step hw rfl) (setFreeList_keeps (Sub.step hw rfl) hs)
  repeat' first
    | with_reducible exact take _ _
    | with_reducible refine archiveSync_keeps (Sub.step hw rfl) ?_
    | with_reducible refine PairAll.snd (P := Keeps W s0) (p := archiveSync _ _ _) ?_
    | with_reducible refine AllocAns.all_ok ?_
    | with_reducible refine AllocAns.all_floor ?_
    | exact AllocAns.all_wait
    | exact AllocAns.all_fail
    | split

theorem giveBack_keeps (hw : Sub 0x40 W) {a s} (hs : Keeps W s0 s) : Keeps W s0 (giveBack a s) := by
  unfold giveBack
  repeat' first
    | with_reducible assumption
    | with_reducible refine setFreeList_keeps (Sub.step hw rfl) ?_
    | with_reducible refine State.modKeys_keeps (Sub.step hw rfl) ?_
    | with_reducible refine Keeps.foldl ?_ ?_
    | intro _
    | (extract_lets +onlyGivenNames z; refine Keeps.cut (W := W) (s0 := s0) (x := z) ?_ ?_; dsimp -zeta only [z]; rotate_left; clear_value z; rotate_right)
    | (extract_lets +onlyGivenNames z; clear_value z)
    | split

theorem raiseFloor_keeps (hw : Sub 0x40 W) {i s} (hs : Keeps W s0 s) : Keeps W s0 (raiseFloor i s) := by
  unfold raiseFloor
  repeat' first
    | with_reducible assumption
    | with_reducible refine slotSet_keeps (Sub.step hw rfl) ?_
    | with_reducible refine Keeps.foldl ?_ ?_
    | intro _
    | (extract_lets +onlyGivenNames z; refine Keeps.cut (W := W) (s0 := s0) (x := z) ?_ ?_; dsimp -zeta only [z]; rotate_left; clear_value z; rotate_right)
    | (extract_lets +onlyGivenNames z; clear_value z)
    | split

theorem cacheIn_keeps (hw : Sub 0x100040 W) {i s} (hs : Keeps W s0 s) : OptAll (Keeps W s0) (cacheIn i s) := by
  unfold cacheIn
  dsimp only
  repeat' first
    | with_reducible assumption
    | with_reducible refine slotSet_keeps (Sub.step hw rfl) ?_
    | with_reducible refine drawNat_keeps (Sub.step hw rfl) ?_
    | with_reducible refine PairAll.snd (P := Keeps W s0) (p := drawNat _) ?_
    | with_reducible refine PairAll.out (P := Keeps W s0) (by assumption) ?_
    | with_reducible exact OptAll.none
    | with_reducible refine OptAll.some ?_
    | with_reducible refine Keeps.foldl ?_ ?_
    | intro _
    | (extract_lets +onlyGivenNames z; refine Keeps.cut (W := W) (s0 := s0) (x := z) ?_ ?_; dsimp -zeta only [z]; rotate_left; clear_value z; rotate_right)
    | (extract_lets +onlyGivenNames z; clear_value z)
    | split

theorem storeRec_keeps (hw : Sub 0x100040 W) {i gen r s} (hs : Keeps W s0 s) : Keeps W s0 (storeRec i gen r s) := by
  unfold storeRec
  repeat' first
    | with_reducible assumption
    | with_reducible refine drawBytes_keeps (Sub.step hw rfl) ?_
    | with_reducible refine slotSet_keeps (Sub.step hw rfl) ?_
    | with_reducible refine cacheIn_keeps (Sub.step hw rfl) ?_
    | with_reducible refine PairAll.snd (P := Keeps W s0) (p := drawBytes _ _) ?_
    | with_reducible refine PairAll.out (P := Keeps W s0) (by assumption) ?_
    | with_reducible refine OptAll.getD ?_ ?_
    | with_reducible refine OptAll.out (P := Keeps W s0) (by assumption) ?_
    | with_reducible refine Keeps.foldl ?_ ?_
    | intro _
    | (extract_lets +onlyGivenNames z; refine Keeps.cut (W := W) (s0 := s0) (x := z) ?_ ?_; dsimp -zeta only [z]; rotate_left; clear_value z; rotate_right)
    | (extract_lets +onlyGivenNames z; clear_value z)
    | split

theorem commitKey_keeps (hw : Sub 0x182846 W) {a r s} (hs : Keeps W s0 s) : Keeps W s0 (commitKey a r s) := by
  unfold commitKey
  repeat' first
    | with_reducible assumption
    | with_reducible refine storeRec_keeps (Sub.step hw rfl) ?_
    | with_reducible refine archive_keeps (Sub.step hw rfl) ?_
    | with_reducible refine Keeps.foldl ?_ ?_
    | intro _
    | (extract_lets +onlyGivenNames z; refine Keeps.cut (W := W) (s0 := s0) (x := z) ?_ ?_; dsimp -zeta only [z]; rotate_left; clear_value z; rotate_right)
    | (extract_lets +onlyGivenNames z; clear_value z)
    | split

end Sys2Proof.Machine
end

