-- ==== Sys2Proof/Laws/FrameApplets.lean ====
section
/-! SUPPORT. The frame of every operation of Machine/Applets.lean: the parts it may write, and what it keeps (`Keeps`). -/
namespace Sys2Proof.Machine

set_option linter.tactic.unusedName false
variable {W : Nat} {s0 : State}

theorem pruneApplets_keeps (hw : Sub 0x400 W) {s} (hs : Keeps W s0 s) : Keeps W s0 (pruneApplets s) := by
  unfold pruneApplets
  repeat' first
    | with_reducible assumption
    | with_reducible refine State.modWarden_keeps (Sub.step hw rfl) ?_ ?_ ?_
    | with_reducible refine Keeps.foldl ?_ ?_
    | exact ‹Warden.coresWf _›
    | exact ‹List.length _ = 16›
    | exact Core.setReg_length ‹_›
    | intro _
    | (extract_lets +onlyGivenNames z; refine Keeps.cut (W := W) (s0 := s0) (x := z) ?_ ?_; dsimp -zeta only [z]; rotate_left; clear_value z; rotate_right)
    | (extract_lets +onlyGivenNames z; clear_value z)
    | split

theorem freeRegs_keeps (hw : Sub 0x100000 W) {n s} (hs : Keeps W s0 s) : PairAll (Keeps W s0) (freeRegs n s) := by
  unfold freeRegs
  repeat' first
    | with_reducible assumption
    | with_reducible refine PairAll.mk ?_
    | with_reducible refine Keeps.foldl ?_ ?_
    | intro _
    | (extract_lets +onlyGivenNames z; refine Keeps.cut (W := W) (s0 := s0) (x := z) ?_ ?_; dsimp -zeta only [z]; rotate_left; clear_value z; rotate_right)
    | (extract_lets +onlyGivenNames z; clear_value z)
    | split
    | with_reducible refine Keeps.free (Sub.step hw rfl) ?_

theorem enterApplet_keeps (hw : Sub 0x180400 W) {n c a hook entry s} (hs : Keeps W s0 s) : Keeps W s0 (enterApplet n c a hook entry s) := by
  unfold enterApplet
  extract_lets f input cap s1
  have h1 : Keeps W s0 s1 := by
    refine State.modWarden_keeps (Sub.step hw rfl) ?_ ?_ hs
    · intro x hx; exact cellsWrite_wf (cellsWrite_wf (cellsWrite_wf (cellsClear_wf hx)))
    · intro x hx; exact hx
  clear_value s1
  have hl : (freeRegs 12 s1).1.length = 12 := by simp [freeRegs]
  have h2 : Keeps W s0 (freeRegs 12 s1).2 := freeRegs_keeps (Sub.step hw rfl) h1
  refine bump_keeps (Sub.step hw rfl) (coreMod_keeps (Sub.step hw rfl) ?_ h2)
  intro k _
  simp

theorem svcReturn_keeps (hw : Sub 0x400 W) {n st w2 w3 w4 s} (hs : Keeps W s0 s) : Keeps W s0 (svcReturn n st w2 w3 w4 s) := by
  unfold svcReturn
  refine coreMod_keeps (Sub.step hw rfl) ?_ hs
  intro k hk
  have put : ∀ (i : BitVec 4) (v : Option Word) (k : Core), k.regs.length = 16 →
      (match v with
        | some x => k.setReg i x
        | none => k).regs.length = 16 := by
    intro i v k hk; cases v
    · exact hk
    · exact Core.setReg_length hk
  exact put 4 w4 _ (put 3 w3 _ (put 2 w2 _ (Core.setReg_length hk)))

theorem callOver_keeps (hw : Sub 0x400 W) {n debited s} (hs : Keeps W s0 s) : Keeps W s0 (callOver n debited s) := by
  unfold callOver
  repeat' first
    | with_reducible assumption
    | with_reducible refine coreMod_keeps (Sub.step hw rfl) ?_ ?_
    | with_reducible refine Keeps.foldl ?_ ?_
    | exact ‹Warden.coresWf _›
    | exact ‹List.length _ = 16›
    | exact Core.setReg_length ‹_›
    | intro _
    | (extract_lets +onlyGivenNames z; refine Keeps.cut (W := W) (s0 := s0) (x := z) ?_ ?_; dsimp -zeta only [z]; rotate_left; clear_value z; rotate_right)
    | (extract_lets +onlyGivenNames z; clear_value z)
    | split

end Sys2Proof.Machine
end

