-- ==== Sys2Proof/Laws/FrameCmds.lean ====
section
/-! SUPPORT. The frame of every operation of Machine/Cmds.lean: the parts it may write, and what it keeps (`Keeps`). -/
namespace Sys2Proof.Machine

set_option linter.tactic.unusedName false
variable {W : Nat} {s0 : State}

theorem modSq_keeps (hw : Sub 0x8 W) {f n g s} (hs : Keeps W s0 s) : Keeps W s0 (modSq f n g s) := by
  unfold modSq
  repeat' first
    | with_reducible assumption
    | with_reducible refine State.modCmdif_keeps (Sub.step hw rfl) ?_
    | with_reducible refine Keeps.foldl ?_ ?_
    | intro _
    | (extract_lets +onlyGivenNames z; refine Keeps.cut (W := W) (s0 := s0) (x := z) ?_ ?_; dsimp -zeta only [z]; rotate_left; clear_value z; rotate_right)
    | (extract_lets +onlyGivenNames z; clear_value z)
    | split

theorem modCq_keeps (hw : Sub 0x8 W) {f n g s} (hs : Keeps W s0 s) : Keeps W s0 (modCq f n g s) := by
  unfold modCq
  repeat' first
    | with_reducible assumption
    | with_reducible refine State.modCmdif_keeps (Sub.step hw rfl) ?_
    | with_reducible refine Keeps.foldl ?_ ?_
    | intro _
    | (extract_lets +onlyGivenNames z; refine Keeps.cut (W := W) (s0 := s0) (x := z) ?_ ?_; dsimp -zeta only [z]; rotate_left; clear_value z; rotate_right)
    | (extract_lets +onlyGivenNames z; clear_value z)
    | split

theorem cmdPut_keeps (hw : Sub 0x8 W) {c s} (hs : Keeps W s0 s) : Keeps W s0 (cmdPut c s) := by
  unfold cmdPut
  repeat' first
    | with_reducible assumption
    | with_reducible refine State.modCmdif_keeps (Sub.step hw rfl) ?_
    | with_reducible refine Keeps.foldl ?_ ?_
    | intro _
    | (extract_lets +onlyGivenNames z; refine Keeps.cut (W := W) (s0 := s0) (x := z) ?_ ?_; dsimp -zeta only [z]; rotate_left; clear_value z; rotate_right)
    | (extract_lets +onlyGivenNames z; clear_value z)
    | split

theorem cmdDrop_keeps (hw : Sub 0x8 W) {id s} (hs : Keeps W s0 s) : Keeps W s0 (cmdDrop id s) := by
  unfold cmdDrop
  repeat' first
    | with_reducible assumption
    | with_reducible refine State.modCmdif_keeps (Sub.step hw rfl) ?_
    | with_reducible refine Keeps.foldl ?_ ?_
    | intro _
    | (extract_lets +onlyGivenNames z; refine Keeps.cut (W := W) (s0 := s0) (x := z) ?_ ?_; dsimp -zeta only [z]; rotate_left; clear_value z; rotate_right)
    | (extract_lets +onlyGivenNames z; clear_value z)
    | split

theorem furrowSet_keeps (hw : Sub 0x10 W) {f v s} (hs : Keeps W s0 s) : Keeps W s0 (furrowSet f v s) := by
  unfold furrowSet
  repeat' first
    | with_reducible assumption
    | with_reducible refine Keeps.foldl ?_ ?_
    | intro _
    | (extract_lets +onlyGivenNames z; refine Keeps.cut (W := W) (s0 := s0) (x := z) ?_ ?_; dsimp -zeta only [z]; rotate_left; clear_value z; rotate_right)
    | (extract_lets +onlyGivenNames z; clear_value z)
    | split
    | with_reducible refine Keeps.furrows (Sub.step hw rfl) ?_

theorem modFurrow_keeps (hw : Sub 0x10 W) {f g s} (hs : Keeps W s0 s) : Keeps W s0 (modFurrow f g s) := by
  unfold modFurrow
  repeat' first
    | with_reducible assumption
    | with_reducible refine furrowSet_keeps (Sub.step hw rfl) ?_
    | with_reducible refine Keeps.foldl ?_ ?_
    | intro _
    | (extract_lets +onlyGivenNames z; refine Keeps.cut (W := W) (s0 := s0) (x := z) ?_ ?_; dsimp -zeta only [z]; rotate_left; clear_value z; rotate_right)
    | (extract_lets +onlyGivenNames z; clear_value z)
    | split

theorem modLog_keeps (hw : Sub 0x10 W) {f g s} (hs : Keeps W s0 s) : Keeps W s0 (modLog f g s) := by
  unfold modLog
  repeat' first
    | with_reducible assumption
    | with_reducible refine modFurrow_keeps (Sub.step hw rfl) ?_
    | with_reducible refine Keeps.foldl ?_ ?_
    | intro _
    | (extract_lets +onlyGivenNames z; refine Keeps.cut (W := W) (s0 := s0) (x := z) ?_ ?_; dsimp -zeta only [z]; rotate_left; clear_value z; rotate_right)
    | (extract_lets +onlyGivenNames z; clear_value z)
    | split

theorem markKnown_keeps (hw : Sub 0x80014 W) {port f p v l s} (hs : Keeps W s0 s) : Keeps W s0 (markKnown port f p v l s) := by
  unfold markKnown
  repeat' first
    | with_reducible assumption
    | with_reducible refine bump64_keeps (Sub.step hw rfl) ?_
    | with_reducible refine pushMwr_keeps (Sub.step hw rfl) ?_
    | with_reducible refine modLog_keeps (Sub.step hw rfl) ?_
    | with_reducible refine Keeps.foldl ?_ ?_
    | intro _
    | (extract_lets +onlyGivenNames z; refine Keeps.cut (W := W) (s0 := s0) (x := z) ?_ ?_; dsimp -zeta only [z]; rotate_left; clear_value z; rotate_right)
    | (extract_lets +onlyGivenNames z; clear_value z)
    | split

theorem markPage_keeps (hw : Sub 0x80816 W) {port f pg s} (hs : Keeps W s0 s) : Keeps W s0 (markPage port f pg s) := by
  unfold markPage
  repeat' first
    | with_reducible assumption
    | with_reducible refine modFurrow_keeps (Sub.step hw rfl) ?_
    | with_reducible refine raiseErr_keeps (Sub.step hw rfl) ?_
    | with_reducible refine markKnown_keeps (Sub.step hw rfl) ?_
    | with_reducible refine modLog_keeps (Sub.step hw rfl) ?_
    | with_reducible refine pushMrd_keeps (Sub.step hw rfl) ?_
    | with_reducible refine Keeps.foldl ?_ ?_
    | intro _
    | (extract_lets +onlyGivenNames z; refine Keeps.cut (W := W) (s0 := s0) (x := z) ?_ ?_; dsimp -zeta only [z]; rotate_left; clear_value z; rotate_right)
    | (extract_lets +onlyGivenNames z; clear_value z)
    | split

theorem markPages_keeps (hw : Sub 0x80816 W) {port f addr len s} (hs : Keeps W s0 s) : Keeps W s0 (markPages port f addr len s) := by
  unfold markPages
  repeat' first
    | with_reducible assumption
    | with_reducible refine markPage_keeps (Sub.step hw rfl) ?_
    | with_reducible refine Keeps.foldl ?_ ?_
    | intro _
    | (extract_lets +onlyGivenNames z; refine Keeps.cut (W := W) (s0 := s0) (x := z) ?_ ?_; dsimp -zeta only [z]; rotate_left; clear_value z; rotate_right)
    | (extract_lets +onlyGivenNames z; clear_value z)
    | split

theorem furrowPush_keeps (hw : Sub 0x14 W) {f port w s} (hs : Keeps W s0 s) : Keeps W s0 (furrowPush f port w s) := by
  unfold furrowPush
  repeat' first
    | with_reducible assumption
    | with_reducible refine pushMwr_keeps (Sub.step hw rfl) ?_
    | with_reducible refine modLog_keeps (Sub.step hw rfl) ?_
    | with_reducible refine Keeps.foldl ?_ ?_
    | intro _
    | (extract_lets +onlyGivenNames z; refine Keeps.cut (W := W) (s0 := s0) (x := z) ?_ ?_; dsimp -zeta only [z]; rotate_left; clear_value z; rotate_right)
    | (extract_lets +onlyGivenNames z; clear_value z)
    | split

theorem releaseMarked_keeps (hw : Sub 0x14 W) {f s} (hs : Keeps W s0 s) : Keeps W s0 (releaseMarked f s) := by
  unfold releaseMarked
  repeat' first
    | with_reducible assumption
    | with_reducible refine pushMwr_keeps (Sub.step hw rfl) ?_
    | with_reducible refine modLog_keeps (Sub.step hw rfl) ?_
    | with_reducible refine Keeps.foldl ?_ ?_
    | intro _
    | (extract_lets +onlyGivenNames z; refine Keeps.cut (W := W) (s0 := s0) (x := z) ?_ ?_; dsimp -zeta only [z]; rotate_left; clear_value z; rotate_right)
    | (extract_lets +onlyGivenNames z; clear_value z)
    | split

theorem bitmapRead_keeps (hw : Sub 0x80816 W) {f w ok v s} (hs : Keeps W s0 s) : Keeps W s0 (bitmapRead f w ok v s) := by
  unfold bitmapRead
  repeat' first
    | with_reducible assumption
    | with_reducible refine modLog_keeps (Sub.step hw rfl) ?_
    | with_reducible refine releaseMarked_keeps (Sub.step hw rfl) ?_
    | with_reducible refine markKnown_keeps (Sub.step hw rfl) ?_
    | with_reducible refine raiseErr_keeps (Sub.step hw rfl) ?_
    | with_reducible refine Keeps.foldl ?_ ?_
    | intro _
    | (extract_lets +onlyGivenNames z; refine Keeps.cut (W := W) (s0 := s0) (x := z) ?_ ?_; dsimp -zeta only [z]; rotate_left; clear_value z; rotate_right)
    | (extract_lets +onlyGivenNames z; clear_value z)
    | split

theorem serveWrite_keeps (hw : Sub 0x80816 W) {k f ptag cq addr data tally s} (hs : Keeps W s0 s) : Keeps W s0 (serveWrite k f ptag cq addr data tally s) := by
  unfold serveWrite
  repeat' first
    | with_reducible assumption
    | with_reducible refine markPages_keeps (Sub.step hw rfl) ?_
    | with_reducible refine furrowPush_keeps (Sub.step hw rfl) ?_
    | with_reducible refine Keeps.foldl ?_ ?_
    | intro _
    | (extract_lets +onlyGivenNames z; refine Keeps.cut (W := W) (s0 := s0) (x := z) ?_ ?_; dsimp -zeta only [z]; rotate_left; clear_value z; rotate_right)
    | (extract_lets +onlyGivenNames z; clear_value z)
    | split

theorem cqIrq_keeps (hw : Sub 0x1c W) {f cq s} (hs : Keeps W s0 s) : Keeps W s0 (cqIrq f cq s) := by
  unfold cqIrq
  repeat' first
    | with_reducible assumption
    | with_reducible refine modCq_keeps (Sub.step hw rfl) ?_
    | with_reducible refine pushMwr_keeps (Sub.step hw rfl) ?_
    | with_reducible refine furrowPush_keeps (Sub.step hw rfl) ?_
    | with_reducible refine Keeps.foldl ?_ ?_
    | intro _
    | (extract_lets +onlyGivenNames z; refine Keeps.cut (W := W) (s0 := s0) (x := z) ?_ ?_; dsimp -zeta only [z]; rotate_left; clear_value z; rotate_right)
    | (extract_lets +onlyGivenNames z; clear_value z)
    | split

theorem irqAfter_keeps (hw : Sub 0x1c W) {f cq flag s} (hs : Keeps W s0 s) : Keeps W s0 (irqAfter f cq flag s) := by
  unfold irqAfter
  repeat' first
    | with_reducible assumption
    | with_reducible refine cqIrq_keeps (Sub.step hw rfl) ?_
    | with_reducible refine Keeps.foldl ?_ ?_
    | intro _
    | (extract_lets +onlyGivenNames z; refine Keeps.cut (W := W) (s0 := s0) (x := z) ?_ ?_; dsimp -zeta only [z]; rotate_left; clear_value z; rotate_right)
    | (extract_lets +onlyGivenNames z; clear_value z)
    | split

theorem writeCpl_keeps (hw : Sub 0x8081e W) {f sq cq ptag tag st len res flag s} (hs : Keeps W s0 s) : Keeps W s0 (writeCpl f sq cq ptag tag st len res flag s) := by
  unfold writeCpl
  repeat' first
    | with_reducible assumption
    | with_reducible refine issueTally_keeps (Sub.step hw rfl) ?_
    | with_reducible refine serveWrite_keeps (Sub.step hw rfl) ?_
    | with_reducible refine modCq_keeps (Sub.step hw rfl) ?_
    | with_reducible refine irqAfter_keeps (Sub.step hw rfl) ?_
    | with_reducible refine bump64_keeps (Sub.step hw rfl) ?_
    | with_reducible refine PairAll.snd (P := Keeps W s0) (p := issueTally _) ?_
    | with_reducible refine PairAll.out (P := Keeps W s0) (by assumption) ?_
    | with_reducible refine Keeps.foldl ?_ ?_
    | intro _
    | (extract_lets +onlyGivenNames z; refine Keeps.cut (W := W) (s0 := s0) (x := z) ?_ ?_; dsimp -zeta only [z]; rotate_left; clear_value z; rotate_right)
    | (extract_lets +onlyGivenNames z; clear_value z)
    | split

theorem vfailLimit_keeps (hw : Sub 0x82806 W) {h s} (hs : Keeps W s0 s) : Keeps W s0 (vfailLimit h s) := by
  unfold vfailLimit
  repeat' first
    | with_reducible assumption
    | with_reducible refine State.modVault_keeps (Sub.step hw rfl) ?_
    | with_reducible refine postEvt_keeps (Sub.step hw rfl) ?_
    | with_reducible refine raiseErr_keeps (Sub.step hw rfl) ?_
    | with_reducible refine Keeps.foldl ?_ ?_
    | intro _
    | (extract_lets +onlyGivenNames z; refine Keeps.cut (W := W) (s0 := s0) (x := z) ?_ ?_; dsimp -zeta only [z]; rotate_left; clear_value z; rotate_right)
    | (extract_lets +onlyGivenNames z; clear_value z)
    | split

theorem rollHandle_keeps (hw : Sub 0x82806 W) {c st h s} (hs : Keeps W s0 s) : Keeps W s0 (rollHandle c st h s) := by
  unfold rollHandle
  repeat' first
    | with_reducible assumption
    | with_reducible refine rollAdd_keeps (Sub.step hw rfl) ?_
    | with_reducible refine vfailLimit_keeps (Sub.step hw rfl) ?_
    | with_reducible refine Keeps.foldl ?_ ?_
    | intro _
    | (extract_lets +onlyGivenNames z; refine Keeps.cut (W := W) (s0 := s0) (x := z) ?_ ?_; dsimp -zeta only [z]; rotate_left; clear_value z; rotate_right)
    | (extract_lets +onlyGivenNames z; clear_value z)
    | split

theorem rollFailed_keeps (hw : Sub 0x82806 W) {c st s} (hs : Keeps W s0 s) : Keeps W s0 (rollFailed c st s) := by
  unfold rollFailed
  repeat' first
    | with_reducible assumption
    | with_reducible refine rollAdd_keeps (Sub.step hw rfl) ?_
    | with_reducible refine Keeps.foldl ?_ ?_
    | intro _
    | (extract_lets +onlyGivenNames z; refine Keeps.cut (W := W) (s0 := s0) (x := z) ?_ ?_; dsimp -zeta only [z]; rotate_left; clear_value z; rotate_right)
    | (extract_lets +onlyGivenNames z; clear_value z)
    | split

theorem rollup_keeps (hw : Sub 0x82806 W) {c st s} (hs : Keeps W s0 s) : Keeps W s0 (rollup c st s) := by
  unfold rollup
  repeat' first
    | with_reducible assumption
    | with_reducible refine rollFailed_keeps (Sub.step hw rfl) ?_
    | with_reducible refine rollHandle_keeps (Sub.step hw rfl) ?_
    | with_reducible refine rollAdd_keeps (Sub.step hw rfl) ?_
    | with_reducible refine Keeps.foldl ?_ ?_
    | intro _
    | (extract_lets +onlyGivenNames z; refine Keeps.cut (W := W) (s0 := s0) (x := z) ?_ ?_; dsimp -zeta only [z]; rotate_left; clear_value z; rotate_right)
    | (extract_lets +onlyGivenNames z; clear_value z)
    | split

theorem auditCmd_keeps (hw : Sub 0x82806 W) {c st detail s} (hs : Keeps W s0 s) : Keeps W s0 (auditCmd c st detail s) := by
  unfold auditCmd
  repeat' first
    | with_reducible assumption
    | with_reducible refine auditRec_keeps (Sub.step hw rfl) ?_
    | with_reducible refine Keeps.foldl ?_ ?_
    | intro _
    | (extract_lets +onlyGivenNames z; refine Keeps.cut (W := W) (s0 := s0) (x := z) ?_ ?_; dsimp -zeta only [z]; rotate_left; clear_value z; rotate_right)
    | (extract_lets +onlyGivenNames z; clear_value z)
    | split

theorem pruneSeals_keeps (hw : Sub 0x8 W) {f n b s} (hs : Keeps W s0 s) : Keeps W s0 (pruneSeals f n b s) := by
  unfold pruneSeals
  repeat' first
    | with_reducible assumption
    | with_reducible refine modSq_keeps (Sub.step hw rfl) ?_
    | with_reducible refine Keeps.foldl ?_ ?_
    | intro _
    | (extract_lets +onlyGivenNames z; refine Keeps.cut (W := W) (s0 := s0) (x := z) ?_ ?_; dsimp -zeta only [z]; rotate_left; clear_value z; rotate_right)
    | (extract_lets +onlyGivenNames z; clear_value z)
    | split

theorem slotSeals_keeps (hw : Sub 0x8 W) {f cq s} (hs : Keeps W s0 s) : Keeps W s0 (slotSeals f cq s) := by
  unfold slotSeals
  repeat' first
    | with_reducible assumption
    | with_reducible refine modSq_keeps (Sub.step hw rfl) ?_
    | with_reducible refine modCq_keeps (Sub.step hw rfl) ?_
    | with_reducible refine Keeps.foldl ?_ ?_
    | intro _
    | (extract_lets +onlyGivenNames z; refine Keeps.cut (W := W) (s0 := s0) (x := z) ?_ ?_; dsimp -zeta only [z]; rotate_left; clear_value z; rotate_right)
    | (extract_lets +onlyGivenNames z; clear_value z)
    | split

theorem giveSealSlots_keeps (hw : Sub 0x8 W) {f cq s} (hs : Keeps W s0 s) : Keeps W s0 (giveSealSlots f cq s) := by
  unfold giveSealSlots
  repeat' first
    | with_reducible assumption
    | with_reducible refine slotSeals_keeps (Sub.step hw rfl) ?_
    | with_reducible refine cmdPut_keeps (Sub.step hw rfl) ?_
    | with_reducible refine modCq_keeps (Sub.step hw rfl) ?_
    | with_reducible refine Keeps.foldl ?_ ?_
    | intro _
    | (extract_lets +onlyGivenNames z; refine Keeps.cut (W := W) (s0 := s0) (x := z) ?_ ?_; dsimp -zeta only [z]; rotate_left; clear_value z; rotate_right)
    | (extract_lets +onlyGivenNames z; clear_value z)
    | split

theorem putDst_keeps (hw : Sub 0x80c16 W) {c bs s} (hs : Keeps W s0 s) : Keeps W s0 (putDst c bs s) := by
  unfold putDst
  repeat' first
    | with_reducible assumption
    | with_reducible refine sramWrite_keeps (Sub.step hw rfl) ?_
    | with_reducible refine serveWrite_keeps (Sub.step hw rfl) ?_
    | with_reducible refine Keeps.foldl ?_ ?_
    | intro _
    | (extract_lets +onlyGivenNames z; refine Keeps.cut (W := W) (s0 := s0) (x := z) ?_ ?_; dsimp -zeta only [z]; rotate_left; clear_value z; rotate_right)
    | (extract_lets +onlyGivenNames z; clear_value z)
    | split

theorem noteIdentity_keeps (hw : Sub 0x2002 W) {c f s} (hs : Keeps W s0 s) : Keeps W s0 (noteIdentity c f s) := by
  unfold noteIdentity
  repeat' first
    | with_reducible assumption
    | with_reducible refine State.modVault_keeps (Sub.step hw rfl) ?_
    | with_reducible refine State.modDev_keeps (Sub.step hw rfl) ?_
    | with_reducible refine Keeps.foldl ?_ ?_
    | intro _
    | (extract_lets +onlyGivenNames z; refine Keeps.cut (W := W) (s0 := s0) (x := z) ?_ ?_; dsimp -zeta only [z]; rotate_left; clear_value z; rotate_right)
    | (extract_lets +onlyGivenNames z; clear_value z)
    | split

theorem beforeCpl_keeps (hw : Sub 0x83c56 W) {c f s} (hs : Keeps W s0 s) : Keeps W s0 (beforeCpl c f s) := by
  unfold beforeCpl
  repeat' first
    | with_reducible assumption
    | with_reducible refine putDst_keeps (Sub.step hw rfl) ?_
    | with_reducible refine noteIdentity_keeps (Sub.step hw rfl) ?_
    | with_reducible refine settle_keeps (Sub.step hw rfl) ?_
    | with_reducible refine rollup_keeps (Sub.step hw rfl) ?_
    | with_reducible refine State.modVault_keeps (Sub.step hw rfl) ?_
    | with_reducible refine auditCmd_keeps (Sub.step hw rfl) ?_
    | with_reducible refine giveBack_keeps (Sub.step hw rfl) ?_
    | with_reducible refine Keeps.foldl ?_ ?_
    | intro _
    | (extract_lets +onlyGivenNames z; refine Keeps.cut (W := W) (s0 := s0) (x := z) ?_ ?_; dsimp -zeta only [z]; rotate_left; clear_value z; rotate_right)
    | (extract_lets +onlyGivenNames z; clear_value z)
    | split

theorem finishCall_keeps (hw : Sub 0x83c5e W) {c n f s} (hs : Keeps W s0 s) : Keeps W s0 (finishCall c n f s) := by
  unfold finishCall
  repeat' first
    | with_reducible assumption
    | with_reducible refine cmdDrop_keeps (Sub.step hw rfl) ?_
    | with_reducible refine beforeCpl_keeps (Sub.step hw rfl) ?_
    | with_reducible refine issueTally_keeps (Sub.step hw rfl) ?_
    | with_reducible refine sramWrite_keeps (Sub.step hw rfl) ?_
    | with_reducible refine svcReturn_keeps (Sub.step hw rfl) ?_
    | with_reducible refine callOver_keeps (Sub.step hw rfl) ?_
    | with_reducible refine PairAll.snd (P := Keeps W s0) (p := issueTally _) ?_
    | with_reducible refine PairAll.out (P := Keeps W s0) (by assumption) ?_
    | with_reducible refine Keeps.foldl ?_ ?_
    | intro _
    | (extract_lets +onlyGivenNames z; refine Keeps.cut (W := W) (s0 := s0) (x := z) ?_ ?_; dsimp -zeta only [z]; rotate_left; clear_value z; rotate_right)
    | (extract_lets +onlyGivenNames z; clear_value z)
    | split

theorem finish_keeps (hw : Sub 0x83c5e W) {c f s} (hs : Keeps W s0 s) : Keeps W s0 (finish c f s) := by
  unfold finish
  repeat' first
    | with_reducible assumption
    | with_reducible refine finishCall_keeps (Sub.step hw rfl) ?_
    | with_reducible refine beforeCpl_keeps (Sub.step hw rfl) ?_
    | with_reducible refine cmdDrop_keeps (Sub.step hw rfl) ?_
    | with_reducible refine writeCpl_keeps (Sub.step hw rfl) ?_
    | with_reducible refine modSq_keeps (Sub.step hw rfl) ?_
    | with_reducible refine giveSealSlots_keeps (Sub.step hw rfl) ?_
    | with_reducible refine pruneSeals_keeps (Sub.step hw rfl) ?_
    | with_reducible refine Keeps.foldl ?_ ?_
    | intro _
    | (extract_lets +onlyGivenNames z; refine Keeps.cut (W := W) (s0 := s0) (x := z) ?_ ?_; dsimp -zeta only [z]; rotate_left; clear_value z; rotate_right)
    | (extract_lets +onlyGivenNames z; clear_value z)
    | split

theorem finishSt_keeps (hw : Sub 0x83c5e W) {c st s} (hs : Keeps W s0 s) : Keeps W s0 (finishSt c st s) := by
  unfold finishSt
  repeat' first
    | with_reducible assumption
    | with_reducible refine finish_keeps (Sub.step hw rfl) ?_
    | with_reducible refine Keeps.foldl ?_ ?_
    | intro _
    | (extract_lets +onlyGivenNames z; refine Keeps.cut (W := W) (s0 := s0) (x := z) ?_ ?_; dsimp -zeta only [z]; rotate_left; clear_value z; rotate_right)
    | (extract_lets +onlyGivenNames z; clear_value z)
    | split

theorem finishAll_keeps (hw : Sub 0x83c5e W) {p st s} (hs : Keeps W s0 s) : Keeps W s0 (finishAll p st s) := by
  unfold finishAll
  repeat' first
    | with_reducible assumption
    | with_reducible refine finishSt_keeps (Sub.step hw rfl) ?_
    | with_reducible refine Keeps.foldl ?_ ?_
    | intro _
    | (extract_lets +onlyGivenNames z; refine Keeps.cut (W := W) (s0 := s0) (x := z) ?_ ?_; dsimp -zeta only [z]; rotate_left; clear_value z; rotate_right)
    | (extract_lets +onlyGivenNames z; clear_value z)
    | split

end Sys2Proof.Machine
end

