-- ==== Sys2Proof/Laws/FrameEngines.lean ====
section
/-! SUPPORT. The frame of every operation of Machine/Engines.lean: the parts it may write, and what it keeps (`Keeps`). -/
namespace Sys2Proof.Machine

set_option linter.tactic.unusedName false
variable {W : Nat} {s0 : State}

theorem countServed_keeps (hw : Sub 0x8 W) {f s e} (hs : Keeps W s0 s) : Keeps W s0 (countServed f s e) := by
  unfold countServed
  repeat' first
    | with_reducible assumption
    | with_reducible refine State.modCmdif_keeps (Sub.step hw rfl) ?_
    | with_reducible refine Keeps.foldl ?_ ?_
    | intro _
    | (extract_lets +onlyGivenNames z; refine Keeps.cut (W := W) (s0 := s0) (x := z) ?_ ?_; dsimp -zeta only [z]; rotate_left; clear_value z; rotate_right)
    | (extract_lets +onlyGivenNames z; clear_value z)
    | split

theorem startCmd_keeps (hw : Sub 0x8 W) {c s} (hs : Keeps W s0 s) : Keeps W s0 (startCmd c s) := by
  unfold startCmd
  repeat' first
    | with_reducible assumption
    | with_reducible refine cmdPut_keeps (Sub.step hw rfl) ?_
    | with_reducible refine countServed_keeps (Sub.step hw rfl) ?_
    | with_reducible refine Keeps.foldl ?_ ?_
    | intro _
    | (extract_lets +onlyGivenNames z; refine Keeps.cut (W := W) (s0 := s0) (x := z) ?_ ?_; dsimp -zeta only [z]; rotate_left; clear_value z; rotate_right)
    | (extract_lets +onlyGivenNames z; clear_value z)
    | split

theorem maskStall_keeps (hw : Sub 0x180000 W) {c s} (hs : Keeps W s0 s) : Keeps W s0 (maskStall c s) := by
  unfold maskStall
  repeat' first
    | with_reducible assumption
    | with_reducible refine drawNat_keeps (Sub.step hw rfl) ?_
    | with_reducible refine bump_keeps (Sub.step hw rfl) ?_
    | with_reducible refine PairAll.snd (P := Keeps W s0) (p := drawNat _) ?_
    | with_reducible refine PairAll.out (P := Keeps W s0) (by assumption) ?_
    | with_reducible refine Keeps.foldl ?_ ?_
    | intro _
    | (extract_lets +onlyGivenNames z; refine Keeps.cut (W := W) (s0 := s0) (x := z) ?_ ?_; dsimp -zeta only [z]; rotate_left; clear_value z; rotate_right)
    | (extract_lets +onlyGivenNames z; clear_value z)
    | split

theorem takeMasks_keeps (hw : Sub 0x80 W) {n k s} (hs : Keeps W s0 s) : Keeps W s0 (takeMasks n k s) := by
  unfold takeMasks
  repeat' first
    | with_reducible assumption
    | with_reducible refine Keeps.foldl ?_ ?_
    | intro _
    | (extract_lets +onlyGivenNames z; refine Keeps.cut (W := W) (s0 := s0) (x := z) ?_ ?_; dsimp -zeta only [z]; rotate_left; clear_value z; rotate_right)
    | (extract_lets +onlyGivenNames z; clear_value z)
    | split
    | with_reducible refine Keeps.rng (Sub.step hw rfl) ?_

end Sys2Proof.Machine
end

