-- ==== Sys2Proof/Laws/FrameAdmit.lean ====
section
/-! SUPPORT. The frame of every operation of Machine/Admit.lean: the parts it may write, and what it keeps (`Keeps`). -/
namespace Sys2Proof.Machine

set_option linter.tactic.unusedName false
variable {W : Nat} {s0 : State}

theorem noKeys_keeps  : OpSpec.All (Keeps W s0) (noKeys ) := by
  intro c u hu
  exact Draws.all_ok hu

theorem blockOf_keeps {n}  : OpSpec.All (Keeps W s0) (blockOf n) := by
  intro c u hu
  exact Draws.all_ok hu

theorem hookFuel_keeps (hw : Sub 0x183c5e W) {x0 x1 s} (hs : Keeps W s0 s) : Keeps W s0 (hookFuel x0 x1 s) := by
  induction x0 generalizing x1 s with
  | zero =>
   rw [hookFuel]
   exact hs
  | succ m ih =>
   rw [hookFuel]
   repeat' first
    | with_reducible refine ih ?_
    | with_reducible assumption
    | with_reducible refine cmdPut_keeps (Sub.step hw rfl) ?_
    | with_reducible refine finishSt_keeps (Sub.step hw rfl) ?_
    | with_reducible refine enterApplet_keeps (Sub.step hw rfl) ?_
    | with_reducible refine Keeps.foldl ?_ ?_
    | intro _
    | (extract_lets +onlyGivenNames z; refine Keeps.cut (W := W) (s0 := s0) (x := z) ?_ ?_; dsimp -zeta only [z]; rotate_left; clear_value z; rotate_right)
    | (extract_lets +onlyGivenNames z; clear_value z)
    | split

theorem startHook_keeps (hw : Sub 0x183c5e W) {id s} (hs : Keeps W s0 s) : Keeps W s0 (startHook id s) := by
  unfold startHook
  repeat' first
    | with_reducible assumption
    | with_reducible refine hookFuel_keeps (Sub.step hw rfl) ?_
    | with_reducible refine Keeps.foldl ?_ ?_
    | intro _
    | (extract_lets +onlyGivenNames z; refine Keeps.cut (W := W) (s0 := s0) (x := z) ?_ ?_; dsimp -zeta only [z]; rotate_left; clear_value z; rotate_right)
    | (extract_lets +onlyGivenNames z; clear_value z)
    | split

theorem pumpHooks_keeps (hw : Sub 0x183c5e W) {s} (hs : Keeps W s0 s) : Keeps W s0 (pumpHooks s) := by
  unfold pumpHooks
  repeat' first
    | with_reducible assumption
    | with_reducible refine startHook_keeps (Sub.step hw rfl) ?_
    | with_reducible refine Keeps.foldl ?_ ?_
    | intro _
    | (extract_lets +onlyGivenNames z; refine Keeps.cut (W := W) (s0 := s0) (x := z) ?_ ?_; dsimp -zeta only [z]; rotate_left; clear_value z; rotate_right)
    | (extract_lets +onlyGivenNames z; clear_value z)
    | split

theorem step9_keeps (hw : Sub 0x83c5e W) {o c s} (hs : Keeps W s0 s) (ho : OpSpec.All (Keeps W s0) o) : Admit.All (Keeps W s0) (step9 o c s) := by
  unfold step9
  repeat' first
    | with_reducible assumption
    | with_reducible refine OpSpec.All.use (by assumption) ?_
    | with_reducible refine finishSt_keeps (Sub.step hw rfl) ?_
    | with_reducible refine State.modVault_keeps (Sub.step hw rfl) ?_
    | with_reducible refine cmdPut_keeps (Sub.step hw rfl) ?_
    | with_reducible refine Draws.out_ok (P := Keeps W s0) (by assumption) ?_
    | with_reducible refine Draws.out_stay (P := Keeps W s0) (by assumption) ?_
    | with_reducible refine Admit.all_stay ?_
    | with_reducible refine Admit.all_go ?_
    | with_reducible refine Keeps.foldl ?_ ?_
    | intro _
    | (extract_lets +onlyGivenNames z; refine Keeps.cut (W := W) (s0 := s0) (x := z) ?_ ?_; dsimp -zeta only [z]; rotate_left; clear_value z; rotate_right)
    | (extract_lets +onlyGivenNames z; clear_value z)
    | split

theorem admission_keeps (hw : Sub 0x183c5e W) {o c s} (hs : Keeps W s0 s) (ho : OpSpec.All (Keeps W s0) o) : Admit.All (Keeps W s0) (admission o c s) := by
  unfold admission
  repeat' first
    | with_reducible assumption
    | with_reducible refine OpSpec.All.use (by assumption) ?_
    | with_reducible refine finishSt_keeps (Sub.step hw rfl) ?_
    | with_reducible refine finish_keeps (Sub.step hw rfl) ?_
    | with_reducible refine cmdPut_keeps (Sub.step hw rfl) ?_
    | with_reducible refine bump_keeps (Sub.step hw rfl) ?_
    | with_reducible refine bump64_keeps (Sub.step hw rfl) ?_
    | with_reducible refine State.modKeys_keeps (Sub.step hw rfl) ?_
    | with_reducible refine startHook_keeps (Sub.step hw rfl) ?_
    | with_reducible refine step9_keeps (Sub.step hw rfl) ?_ ?_
    | with_reducible refine Admit.out_stay (P := Keeps W s0) (by assumption) ?_
    | with_reducible refine Admit.out_go (P := Keeps W s0) (by assumption) ?_
    | with_reducible refine Draws.out_ok (P := Keeps W s0) (by assumption) ?_
    | with_reducible refine Draws.out_stay (P := Keeps W s0) (by assumption) ?_
    | ((with_reducible refine OpSpec.All.default ?_); exact rfl)
    | with_reducible refine Admit.all_stay ?_
    | with_reducible refine Admit.all_go ?_
    | with_reducible refine Keeps.foldl ?_ ?_
    | intro _
    | (extract_lets +onlyGivenNames z; refine Keeps.cut (W := W) (s0 := s0) (x := z) ?_ ?_; dsimp -zeta only [z]; rotate_left; clear_value z; rotate_right)
    | (extract_lets +onlyGivenNames z; clear_value z)
    | split

theorem begin_keeps (hw : Sub 0x83c5e W) {o c body s} (hs : Keeps W s0 s) (ho : OpSpec.All (Keeps W s0) o) (hbody : ∀ a0 u, Keeps W s0 u → Keeps W s0 (body a0 u)) : Keeps W s0 (begin o c body s) := by
  unfold begin
  repeat' first
    | with_reducible assumption
    | with_reducible refine OpSpec.All.use (by assumption) ?_
    | with_reducible apply hbody
    | with_reducible refine finishSt_keeps (Sub.step hw rfl) ?_
    | with_reducible refine startCmd_keeps (Sub.step hw rfl) ?_
    | with_reducible refine Draws.out_ok (P := Keeps W s0) (by assumption) ?_
    | with_reducible refine Draws.out_stay (P := Keeps W s0) (by assumption) ?_
    | with_reducible refine Keeps.foldl ?_ ?_
    | intro _
    | (extract_lets +onlyGivenNames z; refine Keeps.cut (W := W) (s0 := s0) (x := z) ?_ ?_; dsimp -zeta only [z]; rotate_left; clear_value z; rotate_right)
    | (extract_lets +onlyGivenNames z; clear_value z)
    | split

theorem runOp_keeps (hw : Sub 0x183c5e W) {o code id body s} (hs : Keeps W s0 s) (ho : OpSpec.All (Keeps W s0) o) (hbody : ∀ a0 u, Keeps W s0 u → Keeps W s0 (body a0 u)) : Keeps W s0 (runOp o code id body s) := by
  unfold runOp
  repeat' first
    | with_reducible assumption
    | with_reducible refine OpSpec.All.use (by assumption) ?_
    | with_reducible apply hbody
    | with_reducible refine admission_keeps (Sub.step hw rfl) ?_ ?_
    | with_reducible refine begin_keeps (Sub.step hw rfl) ?_ ?_ ?_
    | with_reducible refine step9_keeps (Sub.step hw rfl) ?_ ?_
    | with_reducible refine startHook_keeps (Sub.step hw rfl) ?_
    | with_reducible refine maskStall_keeps (Sub.step hw rfl) ?_
    | with_reducible refine Admit.out_stay (P := Keeps W s0) (by assumption) ?_
    | with_reducible refine Admit.out_go (P := Keeps W s0) (by assumption) ?_
    | with_reducible refine Draws.out_ok (P := Keeps W s0) (by assumption) ?_
    | with_reducible refine Draws.out_stay (P := Keeps W s0) (by assumption) ?_
    | ((with_reducible refine OpSpec.All.default ?_); exact rfl)
    | with_reducible refine Keeps.foldl ?_ ?_
    | intro _
    | split

end Sys2Proof.Machine
end

