-- ==== Sys2Proof/Laws/FramePorts.lean ====
section
/-! SUPPORT. The frame of every operation of Machine/Ports.lean: the parts it may write, and what it keeps (`Keeps`). -/
namespace Sys2Proof.Machine

set_option linter.tactic.unusedName false
variable {W : Nat} {s0 : State}

theorem hgChange_keeps (hw : Sub 0x80806 W) {o lease cause s} (hs : Keeps W s0 s) : Keeps W s0 (hgChange o lease cause s) := by
  unfold hgChange
  repeat' first
    | with_reducible assumption
    | with_reducible refine State.modHg_keeps (Sub.step hw rfl) ?_
    | with_reducible refine State.modDev_keeps (Sub.step hw rfl) ?_
    | with_reducible refine issueTally_keeps (Sub.step hw rfl) ?_
    | with_reducible refine ringEvt_keeps (Sub.step hw rfl) ?_
    | with_reducible refine PairAll.snd (P := Keeps W s0) (p := issueTally _) ?_
    | with_reducible refine PairAll.out (P := Keeps W s0) (by assumption) ?_
    | with_reducible refine Keeps.foldl ?_ ?_
    | intro _
    | (extract_lets +onlyGivenNames z; refine Keeps.cut (W := W) (s0 := s0) (x := z) ?_ ?_; dsimp -zeta only [z]; rotate_left; clear_value z; rotate_right)
    | (extract_lets +onlyGivenNames z; clear_value z)
    | split

theorem hgRelease_keeps (hw : Sub 0x80806 W) {p cause s} (hs : Keeps W s0 s) : Keeps W s0 (hgRelease p cause s) := by
  unfold hgRelease
  repeat' first
    | with_reducible assumption
    | with_reducible refine hgChange_keeps (Sub.step hw rfl) ?_
    | with_reducible refine Keeps.foldl ?_ ?_
    | intro _
    | (extract_lets +onlyGivenNames z; refine Keeps.cut (W := W) (s0 := s0) (x := z) ?_ ?_; dsimp -zeta only [z]; rotate_left; clear_value z; rotate_right)
    | (extract_lets +onlyGivenNames z; clear_value z)
    | split

theorem hgWaitEvt_keeps (hw : Sub 0x80806 W) {owner waiter s} (hs : Keeps W s0 s) : Keeps W s0 (hgWaitEvt owner waiter s) := by
  unfold hgWaitEvt
  repeat' first
    | with_reducible assumption
    | with_reducible refine postEvt_keeps (Sub.step hw rfl) ?_
    | with_reducible refine Keeps.foldl ?_ ?_
    | intro _
    | (extract_lets +onlyGivenNames z; refine Keeps.cut (W := W) (s0 := s0) (x := z) ?_ ?_; dsimp -zeta only [z]; rotate_left; clear_value z; rotate_right)
    | (extract_lets +onlyGivenNames z; clear_value z)
    | split

theorem hgClaim_keeps (hw : Sub 0x80806 W) {p lease s} (hs : Keeps W s0 s) : Keeps W s0 (hgClaim p lease s) := by
  unfold hgClaim
  repeat' first
    | with_reducible assumption
    | with_reducible refine hgChange_keeps (Sub.step hw rfl) ?_
    | with_reducible refine State.modHg_keeps (Sub.step hw rfl) ?_
    | with_reducible refine hgWaitEvt_keeps (Sub.step hw rfl) ?_
    | with_reducible refine Keeps.foldl ?_ ?_
    | intro _
    | (extract_lets +onlyGivenNames z; refine Keeps.cut (W := W) (s0 := s0) (x := z) ?_ ?_; dsimp -zeta only [z]; rotate_left; clear_value z; rotate_right)
    | (extract_lets +onlyGivenNames z; clear_value z)
    | split

theorem hgDoRelease_keeps (hw : Sub 0x80806 W) {p s} (hs : Keeps W s0 s) : Keeps W s0 (hgDoRelease p s) := by
  unfold hgDoRelease
  repeat' first
    | with_reducible assumption
    | with_reducible refine hgRelease_keeps (Sub.step hw rfl) ?_
    | with_reducible refine portErr_keeps (Sub.step hw rfl) ?_
    | with_reducible refine Keeps.foldl ?_ ?_
    | intro _
    | (extract_lets +onlyGivenNames z; refine Keeps.cut (W := W) (s0 := s0) (x := z) ?_ ?_; dsimp -zeta only [z]; rotate_left; clear_value z; rotate_right)
    | (extract_lets +onlyGivenNames z; clear_value z)
    | split

theorem hgCancel_keeps (hw : Sub 0x80004 W) {p s} (hs : Keeps W s0 s) : Keeps W s0 (hgCancel p s) := by
  unfold hgCancel
  repeat' first
    | with_reducible assumption
    | with_reducible refine State.modHg_keeps (Sub.step hw rfl) ?_
    | with_reducible refine portErr_keeps (Sub.step hw rfl) ?_
    | with_reducible refine Keeps.foldl ?_ ?_
    | intro _
    | (extract_lets +onlyGivenNames z; refine Keeps.cut (W := W) (s0 := s0) (x := z) ?_ ?_; dsimp -zeta only [z]; rotate_left; clear_value z; rotate_right)
    | (extract_lets +onlyGivenNames z; clear_value z)
    | split

theorem hgWrite_keeps (hw : Sub 0x80806 W) {r v s} (hs : Keeps W s0 s) : Keeps W s0 (hgWrite r v s) := by
  unfold hgWrite
  repeat' first
    | with_reducible assumption
    | with_reducible refine hgClaim_keeps (Sub.step hw rfl) ?_
    | with_reducible refine hgDoRelease_keeps (Sub.step hw rfl) ?_
    | with_reducible refine hgCancel_keeps (Sub.step hw rfl) ?_
    | with_reducible refine Keeps.foldl ?_ ?_
    | intro _
    | (extract_lets +onlyGivenNames z; refine Keeps.cut (W := W) (s0 := s0) (x := z) ?_ ?_; dsimp -zeta only [z]; rotate_left; clear_value z; rotate_right)
    | (extract_lets +onlyGivenNames z; clear_value z)
    | split

theorem hgTie_keeps (hw : Sub 0x80806 W) {p lp lq s} (hs : Keeps W s0 s) : Keeps W s0 (hgTie p lp lq s) := by
  unfold hgTie
  repeat' first
    | with_reducible assumption
    | with_reducible refine State.modHg_keeps (Sub.step hw rfl) ?_
    | with_reducible refine hgChange_keeps (Sub.step hw rfl) ?_
    | with_reducible refine hgWaitEvt_keeps (Sub.step hw rfl) ?_
    | with_reducible refine hgClaim_keeps (Sub.step hw rfl) ?_
    | with_reducible refine Keeps.foldl ?_ ?_
    | intro _
    | (extract_lets +onlyGivenNames z; refine Keeps.cut (W := W) (s0 := s0) (x := z) ?_ ?_; dsimp -zeta only [z]; rotate_left; clear_value z; rotate_right)
    | (extract_lets +onlyGivenNames z; clear_value z)
    | split

theorem evtCtlWrite_keeps (hw : Sub 0x80806 W) {p v s} (hs : Keeps W s0 s) : Keeps W s0 (evtCtlWrite p v s) := by
  unfold evtCtlWrite
  repeat' first
    | with_reducible assumption
    | with_reducible refine State.modRing_keeps (Sub.step hw rfl) ?_
    | with_reducible refine pump_keeps (Sub.step hw rfl) ?_
    | with_reducible refine Keeps.foldl ?_ ?_
    | intro _
    | (extract_lets +onlyGivenNames z; refine Keeps.cut (W := W) (s0 := s0) (x := z) ?_ ?_; dsimp -zeta only [z]; rotate_left; clear_value z; rotate_right)
    | (extract_lets +onlyGivenNames z; clear_value z)
    | split

theorem evtHeadWrite_keeps (hw : Sub 0x80806 W) {p v s} (hs : Keeps W s0 s) : Keeps W s0 (evtHeadWrite p v s) := by
  unfold evtHeadWrite
  repeat' first
    | with_reducible assumption
    | with_reducible refine portErr_keeps (Sub.step hw rfl) ?_
    | with_reducible refine pump_keeps (Sub.step hw rfl) ?_
    | with_reducible refine State.modRing_keeps (Sub.step hw rfl) ?_
    | with_reducible refine Keeps.foldl ?_ ?_
    | intro _
    | (extract_lets +onlyGivenNames z; refine Keeps.cut (W := W) (s0 := s0) (x := z) ?_ ?_; dsimp -zeta only [z]; rotate_left; clear_value z; rotate_right)
    | (extract_lets +onlyGivenNames z; clear_value z)
    | split

theorem evtRegWrite_keeps (hw : Sub 0x80806 W) {p off r v s} (hs : Keeps W s0 s) : Keeps W s0 (evtRegWrite p off r v s) := by
  unfold evtRegWrite
  repeat' first
    | with_reducible assumption
    | with_reducible refine evtCtlWrite_keeps (Sub.step hw rfl) ?_
    | with_reducible refine evtHeadWrite_keeps (Sub.step hw rfl) ?_
    | with_reducible refine regSet_keeps (Sub.step hw rfl) ?_
    | with_reducible refine portErr_keeps (Sub.step hw rfl) ?_
    | with_reducible refine Keeps.foldl ?_ ?_
    | intro _
    | (extract_lets +onlyGivenNames z; refine Keeps.cut (W := W) (s0 := s0) (x := z) ?_ ?_; dsimp -zeta only [z]; rotate_left; clear_value z; rotate_right)
    | (extract_lets +onlyGivenNames z; clear_value z)
    | split

theorem surveyUcie_keeps (hw : Sub 0x80004 W) {p up s} (hs : Keeps W s0 s) : Keeps W s0 (surveyUcie p up s) := by
  unfold surveyUcie
  repeat' first
    | with_reducible assumption
    | with_reducible refine regSet_keeps (Sub.step hw rfl) ?_
    | with_reducible refine State.modPort_keeps (Sub.step hw rfl) ?_
    | with_reducible refine regOr_keeps (Sub.step hw rfl) ?_
    | with_reducible refine Keeps.foldl ?_ ?_
    | intro _
    | (extract_lets +onlyGivenNames z; refine Keeps.cut (W := W) (s0 := s0) (x := z) ?_ ?_; dsimp -zeta only [z]; rotate_left; clear_value z; rotate_right)
    | (extract_lets +onlyGivenNames z; clear_value z)
    | split

theorem rehomeTo_keeps (hw : Sub 0x8 W) {p s} (hs : Keeps W s0 s) : Keeps W s0 (rehomeTo p s) := by
  unfold rehomeTo
  repeat' first
    | with_reducible assumption
    | with_reducible refine State.modCmdif_keeps (Sub.step hw rfl) ?_
    | with_reducible refine Keeps.foldl ?_ ?_
    | intro _
    | (extract_lets +onlyGivenNames z; refine Keeps.cut (W := W) (s0 := s0) (x := z) ?_ ?_; dsimp -zeta only [z]; rotate_left; clear_value z; rotate_right)
    | (extract_lets +onlyGivenNames z; clear_value z)
    | split

theorem moveWrites_keeps (hw : Sub 0x4 W) {p s} (hs : Keeps W s0 s) : Keeps W s0 (moveWrites p s) := by
  unfold moveWrites
  repeat' first
    | with_reducible assumption
    | with_reducible refine State.modPort_keeps (Sub.step hw rfl) ?_
    | with_reducible refine Keeps.foldl ?_ ?_
    | intro _
    | (extract_lets +onlyGivenNames z; refine Keeps.cut (W := W) (s0 := s0) (x := z) ?_ ?_; dsimp -zeta only [z]; rotate_left; clear_value z; rotate_right)
    | (extract_lets +onlyGivenNames z; clear_value z)
    | split

theorem deliverWrites_keeps (hw : Sub 0x4 W) {p s} (hs : Keeps W s0 s) : Keeps W s0 (deliverWrites p s) := by
  unfold deliverWrites
  repeat' first
    | with_reducible assumption
    | with_reducible refine State.modPort_keeps (Sub.step hw rfl) ?_
    | with_reducible refine Keeps.foldl ?_ ?_
    | intro _
    | (extract_lets +onlyGivenNames z; refine Keeps.cut (W := W) (s0 := s0) (x := z) ?_ ?_; dsimp -zeta only [z]; rotate_left; clear_value z; rotate_right)
    | (extract_lets +onlyGivenNames z; clear_value z)
    | split

theorem moveReads_keeps (hw : Sub 0x4 W) {p s} (hs : Keeps W s0 s) : Keeps W s0 (moveReads p s) := by
  unfold moveReads
  repeat' first
    | with_reducible assumption
    | with_reducible refine issueReads_keeps (Sub.step hw rfl) ?_
    | with_reducible refine State.modPorts_keeps (Sub.step hw rfl) ?_
    | with_reducible refine Keeps.foldl ?_ ?_
    | intro _
    | (extract_lets +onlyGivenNames z; refine Keeps.cut (W := W) (s0 := s0) (x := z) ?_ ?_; dsimp -zeta only [z]; rotate_left; clear_value z; rotate_right)
    | (extract_lets +onlyGivenNames z; clear_value z)
    | split

theorem stallReads_keeps (hw : Sub 0x4 W) {s} (hs : Keeps W s0 s) : Keeps W s0 (stallReads s) := by
  unfold stallReads
  repeat' first
    | with_reducible assumption
    | with_reducible refine State.modPorts_keeps (Sub.step hw rfl) ?_
    | with_reducible refine Keeps.foldl ?_ ?_
    | intro _
    | (extract_lets +onlyGivenNames z; refine Keeps.cut (W := W) (s0 := s0) (x := z) ?_ ?_; dsimp -zeta only [z]; rotate_left; clear_value z; rotate_right)
    | (extract_lets +onlyGivenNames z; clear_value z)
    | split

theorem cplOut_keeps (hw : Sub 0x4 W) {a s} (hs : Keeps W s0 s) : Keeps W s0 (cplOut a s) := by
  unfold cplOut
  repeat' first
    | with_reducible assumption
    | with_reducible refine State.modPort_keeps (Sub.step hw rfl) ?_
    | with_reducible refine Keeps.foldl ?_ ?_
    | intro _
    | (extract_lets +onlyGivenNames z; refine Keeps.cut (W := W) (s0 := s0) (x := z) ?_ ?_; dsimp -zeta only [z]; rotate_left; clear_value z; rotate_right)
    | (extract_lets +onlyGivenNames z; clear_value z)
    | split

theorem sendAnswers_keeps (hw : Sub 0x6 W) {s} (hs : Keeps W s0 s) : Keeps W s0 (sendAnswers s) := by
  unfold sendAnswers
  repeat' first
    | with_reducible assumption
    | with_reducible refine State.modDev_keeps (Sub.step hw rfl) ?_
    | with_reducible refine cplOut_keeps (Sub.step hw rfl) ?_
    | with_reducible refine Keeps.foldl ?_ ?_
    | intro _
    | (extract_lets +onlyGivenNames z; refine Keeps.cut (W := W) (s0 := s0) (x := z) ?_ ?_; dsimp -zeta only [z]; rotate_left; clear_value z; rotate_right)
    | (extract_lets +onlyGivenNames z; clear_value z)
    | split

theorem answer_keeps (hw : Sub 0x6 W) {r addr n tag v s} (hs : Keeps W s0 s) : Keeps W s0 (answer r addr n tag v s) := by
  unfold answer
  repeat' first
    | with_reducible assumption
    | with_reducible refine sendAnswers_keeps (Sub.step hw rfl) ?_
    | with_reducible refine State.modDev_keeps (Sub.step hw rfl) ?_
    | with_reducible refine Keeps.foldl ?_ ?_
    | intro _
    | (extract_lets +onlyGivenNames z; refine Keeps.cut (W := W) (s0 := s0) (x := z) ?_ ?_; dsimp -zeta only [z]; rotate_left; clear_value z; rotate_right)
    | (extract_lets +onlyGivenNames z; clear_value z)
    | split

theorem portUp_keeps (hw : Sub 0x8080e W) {p s} (hs : Keeps W s0 s) : Keeps W s0 (portUp p s) := by
  unfold portUp
  repeat' first
    | with_reducible assumption
    | with_reducible refine State.modPort_keeps (Sub.step hw rfl) ?_
    | with_reducible refine moveReads_keeps (Sub.step hw rfl) ?_
    | with_reducible refine deliverWrites_keeps (Sub.step hw rfl) ?_
    | with_reducible refine rehomeTo_keeps (Sub.step hw rfl) ?_
    | with_reducible refine postEvt_keeps (Sub.step hw rfl) ?_
    | with_reducible refine pump_keeps (Sub.step hw rfl) ?_
    | with_reducible refine Keeps.foldl ?_ ?_
    | intro _
    | (extract_lets +onlyGivenNames z; refine Keeps.cut (W := W) (s0 := s0) (x := z) ?_ ?_; dsimp -zeta only [z]; rotate_left; clear_value z; rotate_right)
    | (extract_lets +onlyGivenNames z; clear_value z)
    | split

theorem portDown_keeps (hw : Sub 0x8080e W) {p s} (hs : Keeps W s0 s) : Keeps W s0 (portDown p s) := by
  unfold portDown
  repeat' first
    | with_reducible assumption
    | with_reducible refine State.modPort_keeps (Sub.step hw rfl) ?_
    | with_reducible refine portErr_keeps (Sub.step hw rfl) ?_
    | with_reducible refine moveReads_keeps (Sub.step hw rfl) ?_
    | with_reducible refine moveWrites_keeps (Sub.step hw rfl) ?_
    | with_reducible refine rehomeTo_keeps (Sub.step hw rfl) ?_
    | with_reducible refine stallReads_keeps (Sub.step hw rfl) ?_
    | with_reducible refine sendAnswers_keeps (Sub.step hw rfl) ?_
    | with_reducible refine postEvt_keeps (Sub.step hw rfl) ?_
    | with_reducible refine Keeps.foldl ?_ ?_
    | intro _
    | (extract_lets +onlyGivenNames z; refine Keeps.cut (W := W) (s0 := s0) (x := z) ?_ ?_; dsimp -zeta only [z]; rotate_left; clear_value z; rotate_right)
    | (extract_lets +onlyGivenNames z; clear_value z)
    | split

theorem startTrain_keeps (hw : Sub 0x4 W) {p s} (hs : Keeps W s0 s) : Keeps W s0 (startTrain p s) := by
  unfold startTrain
  repeat' first
    | with_reducible assumption
    | with_reducible refine State.modPort_keeps (Sub.step hw rfl) ?_
    | with_reducible refine Keeps.foldl ?_ ?_
    | intro _
    | (extract_lets +onlyGivenNames z; refine Keeps.cut (W := W) (s0 := s0) (x := z) ?_ ?_; dsimp -zeta only [z]; rotate_left; clear_value z; rotate_right)
    | (extract_lets +onlyGivenNames z; clear_value z)
    | split

theorem trainFail_keeps (hw : Sub 0x8080e W) {p s} (hs : Keeps W s0 s) : Keeps W s0 (trainFail p s) := by
  unfold trainFail
  repeat' first
    | with_reducible assumption
    | with_reducible refine State.modPort_keeps (Sub.step hw rfl) ?_
    | with_reducible refine portDown_keeps (Sub.step hw rfl) ?_
    | with_reducible refine surveyUcie_keeps (Sub.step hw rfl) ?_
    | with_reducible refine Keeps.foldl ?_ ?_
    | intro _
    | (extract_lets +onlyGivenNames z; refine Keeps.cut (W := W) (s0 := s0) (x := z) ?_ ?_; dsimp -zeta only [z]; rotate_left; clear_value z; rotate_right)
    | (extract_lets +onlyGivenNames z; clear_value z)
    | split

theorem portCtlWrite_keeps (hw : Sub 0x8080e W) {p v s} (hs : Keeps W s0 s) : Keeps W s0 (portCtlWrite p v s) := by
  unfold portCtlWrite
  repeat' first
    | with_reducible assumption
    | with_reducible refine regMask_keeps (Sub.step hw rfl) ?_
    | with_reducible refine portDown_keeps (Sub.step hw rfl) ?_
    | with_reducible refine startTrain_keeps (Sub.step hw rfl) ?_
    | with_reducible refine Keeps.foldl ?_ ?_
    | intro _
    | (extract_lets +onlyGivenNames z; refine Keeps.cut (W := W) (s0 := s0) (x := z) ?_ ?_; dsimp -zeta only [z]; rotate_left; clear_value z; rotate_right)
    | (extract_lets +onlyGivenNames z; clear_value z)
    | split

theorem execLinkTrainingDone_keeps (hw : Sub 0x8080e W) {p trains partner failTx failRx s} (hs : Keeps W s0 s) : OutAll (Keeps W s0) (execLinkTrainingDone p trains partner failTx failRx s) := by
  unfold execLinkTrainingDone
  repeat' first
    | with_reducible assumption
    | with_reducible refine trainFail_keeps (Sub.step hw rfl) ?_
    | with_reducible refine State.modPort_keeps (Sub.step hw rfl) ?_
    | with_reducible refine OutAll.next ?_
    | with_reducible refine Keeps.foldl ?_ ?_
    | intro _
    | (extract_lets +onlyGivenNames z; refine Keeps.cut (W := W) (s0 := s0) (x := z) ?_ ?_; dsimp -zeta only [z]; rotate_left; clear_value z; rotate_right)
    | (extract_lets +onlyGivenNames z; clear_value z)
    | split

theorem execE9CapRsp_keeps (hw : Sub 0x8080e W) {p cap s} (hs : Keeps W s0 s) : OutAll (Keeps W s0) (execE9CapRsp p cap s) := by
  unfold execE9CapRsp
  repeat' first
    | with_reducible assumption
    | with_reducible refine State.modPort_keeps (Sub.step hw rfl) ?_
    | with_reducible refine surveyUcie_keeps (Sub.step hw rfl) ?_
    | with_reducible refine portUp_keeps (Sub.step hw rfl) ?_
    | with_reducible refine portDown_keeps (Sub.step hw rfl) ?_
    | with_reducible refine OutAll.next ?_
    | with_reducible refine Keeps.foldl ?_ ?_
    | intro _
    | (extract_lets +onlyGivenNames z; refine Keeps.cut (W := W) (s0 := s0) (x := z) ?_ ?_; dsimp -zeta only [z]; rotate_left; clear_value z; rotate_right)
    | (extract_lets +onlyGivenNames z; clear_value z)
    | split

theorem execE9CapTimeout_keeps (hw : Sub 0x8080e W) {p s} (hs : Keeps W s0 s) : OutAll (Keeps W s0) (execE9CapTimeout p s) := by
  unfold execE9CapTimeout
  repeat' first
    | with_reducible assumption
    | with_reducible refine surveyUcie_keeps (Sub.step hw rfl) ?_
    | with_reducible refine portDown_keeps (Sub.step hw rfl) ?_
    | with_reducible refine OutAll.next ?_
    | with_reducible refine Keeps.foldl ?_ ?_
    | intro _
    | (extract_lets +onlyGivenNames z; refine Keeps.cut (W := W) (s0 := s0) (x := z) ?_ ?_; dsimp -zeta only [z]; rotate_left; clear_value z; rotate_right)
    | (extract_lets +onlyGivenNames z; clear_value z)
    | split

theorem execTrainingRequest_keeps (hw : Sub 0x4 W) {p s} (hs : Keeps W s0 s) : OutAll (Keeps W s0) (execTrainingRequest p s) := by
  unfold execTrainingRequest
  repeat' first
    | with_reducible assumption
    | with_reducible refine startTrain_keeps (Sub.step hw rfl) ?_
    | with_reducible refine OutAll.next ?_
    | with_reducible refine Keeps.foldl ?_ ?_
    | intro _
    | (extract_lets +onlyGivenNames z; refine Keeps.cut (W := W) (s0 := s0) (x := z) ?_ ?_; dsimp -zeta only [z]; rotate_left; clear_value z; rotate_right)
    | (extract_lets +onlyGivenNames z; clear_value z)
    | split

theorem execPortDown_keeps (hw : Sub 0x8080e W) {p s} (hs : Keeps W s0 s) : OutAll (Keeps W s0) (execPortDown p s) := by
  unfold execPortDown
  repeat' first
    | with_reducible assumption
    | with_reducible refine portDown_keeps (Sub.step hw rfl) ?_
    | with_reducible refine OutAll.next ?_
    | with_reducible refine Keeps.foldl ?_ ?_
    | intro _
    | (extract_lets +onlyGivenNames z; refine Keeps.cut (W := W) (s0 := s0) (x := z) ?_ ?_; dsimp -zeta only [z]; rotate_left; clear_value z; rotate_right)
    | (extract_lets +onlyGivenNames z; clear_value z)
    | split

theorem execReplayTimeout_keeps (hw : Sub 0x8080e W) {p s} (hs : Keeps W s0 s) : OutAll (Keeps W s0) (execReplayTimeout p s) := by
  unfold execReplayTimeout
  repeat' first
    | with_reducible assumption
    | with_reducible refine trainFail_keeps (Sub.step hw rfl) ?_
    | with_reducible refine startTrain_keeps (Sub.step hw rfl) ?_
    | with_reducible refine OutAll.next ?_
    | with_reducible refine Keeps.foldl ?_ ?_
    | intro _
    | (extract_lets +onlyGivenNames z; refine Keeps.cut (W := W) (s0 := s0) (x := z) ?_ ?_; dsimp -zeta only [z]; rotate_left; clear_value z; rotate_right)
    | (extract_lets +onlyGivenNames z; clear_value z)
    | split

theorem execFlushTimeout_keeps (hw : Sub 0x80004 W) {p s} (hs : Keeps W s0 s) : OutAll (Keeps W s0) (execFlushTimeout p s) := by
  unfold execFlushTimeout
  repeat' first
    | with_reducible assumption
    | with_reducible refine startTrain_keeps (Sub.step hw rfl) ?_
    | with_reducible refine portErr_keeps (Sub.step hw rfl) ?_
    | with_reducible refine OutAll.next ?_
    | with_reducible refine Keeps.foldl ?_ ?_
    | intro _
    | (extract_lets +onlyGivenNames z; refine Keeps.cut (W := W) (s0 := s0) (x := z) ?_ ?_; dsimp -zeta only [z]; rotate_left; clear_value z; rotate_right)
    | (extract_lets +onlyGivenNames z; clear_value z)
    | split

theorem sendNak_keeps (hw : Sub 0x4 W) {p s} (hs : Keeps W s0 s) : Keeps W s0 (sendNak p s) := by
  unfold sendNak
  repeat' first
    | with_reducible assumption
    | with_reducible refine State.modPort_keeps (Sub.step hw rfl) ?_
    | with_reducible refine Keeps.foldl ?_ ?_
    | intro _
    | (extract_lets +onlyGivenNames z; refine Keeps.cut (W := W) (s0 := s0) (x := z) ?_ ?_; dsimp -zeta only [z]; rotate_left; clear_value z; rotate_right)
    | (extract_lets +onlyGivenNames z; clear_value z)
    | split

theorem replayed_keeps (hw : Sub 0x80004 W) {p s} (hs : Keeps W s0 s) : Keeps W s0 (replayed p s) := by
  unfold replayed
  repeat' first
    | with_reducible assumption
    | with_reducible refine bump_keeps (Sub.step hw rfl) ?_
    | with_reducible refine State.modPort_keeps (Sub.step hw rfl) ?_
    | with_reducible refine startTrain_keeps (Sub.step hw rfl) ?_
    | with_reducible refine Keeps.foldl ?_ ?_
    | intro _
    | (extract_lets +onlyGivenNames z; refine Keeps.cut (W := W) (s0 := s0) (x := z) ?_ ?_; dsimp -zeta only [z]; rotate_left; clear_value z; rotate_right)
    | (extract_lets +onlyGivenNames z; clear_value z)
    | split

theorem flitTake_keeps (hw : Sub 0x80004 W) {p h payload s} (hs : Keeps W s0 s) : Keeps W s0 (flitTake p h payload s) := by
  unfold flitTake
  repeat' first
    | with_reducible assumption
    | with_reducible refine bump_keeps (Sub.step hw rfl) ?_
    | with_reducible refine State.modPort_keeps (Sub.step hw rfl) ?_
    | with_reducible refine replayed_keeps (Sub.step hw rfl) ?_
    | with_reducible refine Keeps.foldl ?_ ?_
    | intro _
    | (extract_lets +onlyGivenNames z; refine Keeps.cut (W := W) (s0 := s0) (x := z) ?_ ?_; dsimp -zeta only [z]; rotate_left; clear_value z; rotate_right)
    | (extract_lets +onlyGivenNames z; clear_value z)
    | split

theorem rxTake_keeps (hw : Sub 0x4 W) {p s} (hs : Keeps W s0 s) : PairAll (Keeps W s0) (rxTake p s) := by
  unfold rxTake
  repeat' first
    | with_reducible assumption
    | with_reducible refine State.modPort_keeps (Sub.step hw rfl) ?_
    | with_reducible refine PairAll.mk ?_
    | with_reducible refine Keeps.foldl ?_ ?_
    | intro _
    | (extract_lets +onlyGivenNames z; refine Keeps.cut (W := W) (s0 := s0) (x := z) ?_ ?_; dsimp -zeta only [z]; rotate_left; clear_value z; rotate_right)
    | (extract_lets +onlyGivenNames z; clear_value z)
    | split

theorem flushAcked_keeps (hw : Sub 0x6 W) {p n s} (hs : Keeps W s0 s) : Keeps W s0 (flushAcked p n s) := by
  unfold flushAcked
  repeat' first
    | with_reducible assumption
    | with_reducible refine sendAnswers_keeps (Sub.step hw rfl) ?_
    | with_reducible refine State.modPort_keeps (Sub.step hw rfl) ?_
    | with_reducible refine Keeps.foldl ?_ ?_
    | intro _
    | (extract_lets +onlyGivenNames z; refine Keeps.cut (W := W) (s0 := s0) (x := z) ?_ ?_; dsimp -zeta only [z]; rotate_left; clear_value z; rotate_right)
    | (extract_lets +onlyGivenNames z; clear_value z)
    | split

theorem execFlushAck_keeps (hw : Sub 0x6 W) {p n s} (hs : Keeps W s0 s) : OutAll (Keeps W s0) (execFlushAck p n s) := by
  unfold execFlushAck
  repeat' first
    | with_reducible assumption
    | with_reducible refine flushAcked_keeps (Sub.step hw rfl) ?_
    | with_reducible refine OutAll.next ?_
    | with_reducible refine Keeps.foldl ?_ ?_
    | intro _
    | (extract_lets +onlyGivenNames z; refine Keeps.cut (W := W) (s0 := s0) (x := z) ?_ ?_; dsimp -zeta only [z]; rotate_left; clear_value z; rotate_right)
    | (extract_lets +onlyGivenNames z; clear_value z)
    | split

theorem execLeaseExpiry_keeps (hw : Sub 0x80806 W) {s} (hs : Keeps W s0 s) : OutAll (Keeps W s0) (execLeaseExpiry s) := by
  unfold execLeaseExpiry
  repeat' first
    | with_reducible assumption
    | with_reducible refine hgRelease_keeps (Sub.step hw rfl) ?_
    | with_reducible refine OutAll.next ?_
    | with_reducible refine Keeps.foldl ?_ ?_
    | intro _
    | (extract_lets +onlyGivenNames z; refine Keeps.cut (W := W) (s0 := s0) (x := z) ?_ ?_; dsimp -zeta only [z]; rotate_left; clear_value z; rotate_right)
    | (extract_lets +onlyGivenNames z; clear_value z)
    | split

theorem execHeadgateLinkLoss_keeps (hw : Sub 0x80806 W) {s} (hs : Keeps W s0 s) : OutAll (Keeps W s0) (execHeadgateLinkLoss s) := by
  unfold execHeadgateLinkLoss
  repeat' first
    | with_reducible assumption
    | with_reducible refine hgRelease_keeps (Sub.step hw rfl) ?_
    | with_reducible refine OutAll.next ?_
    | with_reducible refine Keeps.foldl ?_ ?_
    | intro _
    | (extract_lets +onlyGivenNames z; refine Keeps.cut (W := W) (s0 := s0) (x := z) ?_ ?_; dsimp -zeta only [z]; rotate_left; clear_value z; rotate_right)
    | (extract_lets +onlyGivenNames z; clear_value z)
    | split

end Sys2Proof.Machine
end

