-- ==== Sys2Proof/Laws/FrameQueues.lean ====
section
/-! SUPPORT. The frame of every operation of Machine/Queues.lean: the parts it may write, and what it keeps (`Keeps`). -/
namespace Sys2Proof.Machine

set_option linter.tactic.unusedName false
variable {W : Nat} {s0 : State}

theorem dbReject_keeps (hw : Sub 0x80806 W) {n q s} (hs : Keeps W s0 s) : Keeps W s0 (dbReject n q s) := by
  unfold dbReject
  repeat' first
    | with_reducible assumption
    | with_reducible refine cmdErr_keeps (Sub.step hw rfl) ?_
    | with_reducible refine bump_keeps (Sub.step hw rfl) ?_
    | with_reducible refine Keeps.foldl ?_ ?_
    | intro _
    | (extract_lets +onlyGivenNames z; refine Keeps.cut (W := W) (s0 := s0) (x := z) ?_ ?_; dsimp -zeta only [z]; rotate_left; clear_value z; rotate_right)
    | (extract_lets +onlyGivenNames z; clear_value z)
    | split

theorem tailWrite_keeps (hw : Sub 0x8080e W) {f n v s} (hs : Keeps W s0 s) : Keeps W s0 (tailWrite f n v s) := by
  unfold tailWrite
  repeat' first
    | with_reducible assumption
    | with_reducible refine dbReject_keeps (Sub.step hw rfl) ?_
    | with_reducible refine modSq_keeps (Sub.step hw rfl) ?_
    | with_reducible refine Keeps.foldl ?_ ?_
    | intro _
    | (extract_lets +onlyGivenNames z; refine Keeps.cut (W := W) (s0 := s0) (x := z) ?_ ?_; dsimp -zeta only [z]; rotate_left; clear_value z; rotate_right)
    | (extract_lets +onlyGivenNames z; clear_value z)
    | split

theorem headWrite_keeps (hw : Sub 0x8080e W) {f n v s} (hs : Keeps W s0 s) : Keeps W s0 (headWrite f n v s) := by
  unfold headWrite
  repeat' first
    | with_reducible assumption
    | with_reducible refine dbReject_keeps (Sub.step hw rfl) ?_
    | with_reducible refine giveSealSlots_keeps (Sub.step hw rfl) ?_
    | with_reducible refine modCq_keeps (Sub.step hw rfl) ?_
    | with_reducible refine Keeps.foldl ?_ ?_
    | intro _
    | (extract_lets +onlyGivenNames z; refine Keeps.cut (W := W) (s0 := s0) (x := z) ?_ ?_; dsimp -zeta only [z]; rotate_left; clear_value z; rotate_right)
    | (extract_lets +onlyGivenNames z; clear_value z)
    | split

theorem dbServe_keeps (hw : Sub 0x8080e W) {ptag addr v s} (hs : Keeps W s0 s) : Keeps W s0 (dbServe ptag addr v s) := by
  unfold dbServe
  repeat' first
    | with_reducible assumption
    | with_reducible refine dbReject_keeps (Sub.step hw rfl) ?_
    | with_reducible refine tailWrite_keeps (Sub.step hw rfl) ?_
    | with_reducible refine headWrite_keeps (Sub.step hw rfl) ?_
    | with_reducible refine Keeps.foldl ?_ ?_
    | intro _
    | (extract_lets +onlyGivenNames z; refine Keeps.cut (W := W) (s0 := s0) (x := z) ?_ ?_; dsimp -zeta only [z]; rotate_left; clear_value z; rotate_right)
    | (extract_lets +onlyGivenNames z; clear_value z)
    | split

theorem dbWrite_keeps (hw : Sub 0x8080e W) {r ptag addr v s} (hs : Keeps W s0 s) : Keeps W s0 (dbWrite r ptag addr v s) := by
  unfold dbWrite
  repeat' first
    | with_reducible assumption
    | with_reducible refine State.modCmdif_keeps (Sub.step hw rfl) ?_
    | with_reducible refine dbServe_keeps (Sub.step hw rfl) ?_
    | with_reducible refine Keeps.foldl ?_ ?_
    | intro _
    | (extract_lets +onlyGivenNames z; refine Keeps.cut (W := W) (s0 := s0) (x := z) ?_ ?_; dsimp -zeta only [z]; rotate_left; clear_value z; rotate_right)
    | (extract_lets +onlyGivenNames z; clear_value z)
    | split

theorem serveHeld_keeps (hw : Sub 0x8080e W) {s} (hs : Keeps W s0 s) : Keeps W s0 (serveHeld s) := by
  unfold serveHeld
  repeat' first
    | with_reducible assumption
    | with_reducible refine State.modCmdif_keeps (Sub.step hw rfl) ?_
    | with_reducible refine dbWrite_keeps (Sub.step hw rfl) ?_
    | with_reducible refine Keeps.foldl ?_ ?_
    | intro _
    | (extract_lets +onlyGivenNames z; refine Keeps.cut (W := W) (s0 := s0) (x := z) ?_ ?_; dsimp -zeta only [z]; rotate_left; clear_value z; rotate_right)
    | (extract_lets +onlyGivenNames z; clear_value z)
    | split

theorem disableSq_keeps (hw : Sub 0x83c5e W) {f n s} (hs : Keeps W s0 s) : Keeps W s0 (disableSq f n s) := by
  unfold disableSq
  repeat' first
    | with_reducible assumption
    | with_reducible refine modSq_keeps (Sub.step hw rfl) ?_
    | with_reducible refine finishAll_keeps (Sub.step hw rfl) ?_
    | with_reducible refine Keeps.foldl ?_ ?_
    | intro _
    | (extract_lets +onlyGivenNames z; refine Keeps.cut (W := W) (s0 := s0) (x := z) ?_ ?_; dsimp -zeta only [z]; rotate_left; clear_value z; rotate_right)
    | (extract_lets +onlyGivenNames z; clear_value z)
    | split

theorem adminCfgWrite_keeps (hw : Sub 0x83c5e W) {v s} (hs : Keeps W s0 s) : Keeps W s0 (adminCfgWrite v s) := by
  unfold adminCfgWrite
  repeat' first
    | with_reducible assumption
    | with_reducible refine disableSq_keeps (Sub.step hw rfl) ?_
    | with_reducible refine regMask_keeps (Sub.step hw rfl) ?_
    | with_reducible refine cmdErr_keeps (Sub.step hw rfl) ?_
    | with_reducible refine State.modCmdif_keeps (Sub.step hw rfl) ?_
    | with_reducible refine Keeps.foldl ?_ ?_
    | intro _
    | (extract_lets +onlyGivenNames z; refine Keeps.cut (W := W) (s0 := s0) (x := z) ?_ ?_; dsimp -zeta only [z]; rotate_left; clear_value z; rotate_right)
    | (extract_lets +onlyGivenNames z; clear_value z)
    | split

theorem adminRegWrite_keeps (hw : Sub 0x80000 W) {k v s} (hs : Keeps W s0 s) : Keeps W s0 (adminRegWrite k v s) := by
  unfold adminRegWrite
  repeat' first
    | with_reducible assumption
    | with_reducible refine regSet_keeps (Sub.step hw rfl) ?_
    | with_reducible refine Keeps.foldl ?_ ?_
    | intro _
    | (extract_lets +onlyGivenNames z; refine Keeps.cut (W := W) (s0 := s0) (x := z) ?_ ?_; dsimp -zeta only [z]; rotate_left; clear_value z; rotate_right)
    | (extract_lets +onlyGivenNames z; clear_value z)
    | split

theorem entryOver_keeps (hw : Sub 0x4 W) {id s} (hs : Keeps W s0 s) : Keeps W s0 (entryOver id s) := by
  unfold entryOver
  repeat' first
    | with_reducible assumption
    | with_reducible refine State.modPorts_keeps (Sub.step hw rfl) ?_
    | with_reducible refine issueReads_keeps (Sub.step hw rfl) ?_
    | with_reducible refine Keeps.foldl ?_ ?_
    | intro _
    | (extract_lets +onlyGivenNames z; refine Keeps.cut (W := W) (s0 := s0) (x := z) ?_ ?_; dsimp -zeta only [z]; rotate_left; clear_value z; rotate_right)
    | (extract_lets +onlyGivenNames z; clear_value z)
    | split

theorem fetchOne_keeps (hw : Sub 0x8 W) {f n s} (hs : Keeps W s0 s) : Keeps W s0 (fetchOne f n s) := by
  unfold fetchOne
  repeat' first
    | with_reducible assumption
    | with_reducible refine modSq_keeps (Sub.step hw rfl) ?_
    | with_reducible refine modCq_keeps (Sub.step hw rfl) ?_
    | with_reducible refine State.modCmdif_keeps (Sub.step hw rfl) ?_
    | with_reducible refine Keeps.foldl ?_ ?_
    | intro _
    | (extract_lets +onlyGivenNames z; refine Keeps.cut (W := W) (s0 := s0) (x := z) ?_ ?_; dsimp -zeta only [z]; rotate_left; clear_value z; rotate_right)
    | (extract_lets +onlyGivenNames z; clear_value z)
    | split

theorem fetchK_keeps (hw : Sub 0x8 W) {f n x2 s} (hs : Keeps W s0 s) : Keeps W s0 (fetchK f n x2 s) := by
  induction x2 generalizing f n s with
  | zero =>
   rw [fetchK]
   exact hs
  | succ m ih =>
   rw [fetchK]
   repeat' first
    | with_reducible refine ih ?_
    | with_reducible assumption
    | with_reducible refine fetchOne_keeps (Sub.step hw rfl) ?_
    | with_reducible refine Keeps.foldl ?_ ?_
    | intro _
    | (extract_lets +onlyGivenNames z; refine Keeps.cut (W := W) (s0 := s0) (x := z) ?_ ?_; dsimp -zeta only [z]; rotate_left; clear_value z; rotate_right)
    | (extract_lets +onlyGivenNames z; clear_value z)
    | split

theorem tookTurn_keeps (hw : Sub 0x8 W) {q weight s} (hs : Keeps W s0 s) : Keeps W s0 (tookTurn q weight s) := by
  unfold tookTurn
  repeat' first
    | with_reducible assumption
    | with_reducible refine State.modCmdif_keeps (Sub.step hw rfl) ?_
    | with_reducible refine Keeps.foldl ?_ ?_
    | intro _
    | (extract_lets +onlyGivenNames z; refine Keeps.cut (W := W) (s0 := s0) (x := z) ?_ ?_; dsimp -zeta only [z]; rotate_left; clear_value z; rotate_right)
    | (extract_lets +onlyGivenNames z; clear_value z)
    | split

theorem execEntryFetch_keeps (hw : Sub 0x83c5e W) {f n k s} (hs : Keeps W s0 s) : OutAll (Keeps W s0) (execEntryFetch f n k s) := by
  unfold execEntryFetch
  repeat' first
    | with_reducible assumption
    | with_reducible refine disableSq_keeps (Sub.step hw rfl) ?_
    | with_reducible refine modSq_keeps (Sub.step hw rfl) ?_
    | with_reducible refine cmdErr_keeps (Sub.step hw rfl) ?_
    | with_reducible refine bump_keeps (Sub.step hw rfl) ?_
    | with_reducible refine tookTurn_keeps (Sub.step hw rfl) ?_
    | with_reducible refine pushMrd_keeps (Sub.step hw rfl) ?_
    | with_reducible refine bump64_keeps (Sub.step hw rfl) ?_
    | with_reducible refine fetchK_keeps (Sub.step hw rfl) ?_
    | with_reducible refine OutAll.next ?_
    | with_reducible refine Keeps.foldl ?_ ?_
    | intro _
    | (extract_lets +onlyGivenNames z; refine Keeps.cut (W := W) (s0 := s0) (x := z) ?_ ?_; dsimp -zeta only [z]; rotate_left; clear_value z; rotate_right)
    | (extract_lets +onlyGivenNames z; clear_value z)
    | split

theorem entryArrive_keeps (hw : Sub 0x83c5e W) {id cst e s} (hs : Keeps W s0 s) : Keeps W s0 (entryArrive id cst e s) := by
  unfold entryArrive
  repeat' first
    | with_reducible assumption
    | with_reducible refine finishSt_keeps (Sub.step hw rfl) ?_
    | with_reducible refine cmdErr_keeps (Sub.step hw rfl) ?_
    | with_reducible refine giveSealSlots_keeps (Sub.step hw rfl) ?_
    | with_reducible refine cmdPut_keeps (Sub.step hw rfl) ?_
    | with_reducible refine Keeps.foldl ?_ ?_
    | intro _
    | (extract_lets +onlyGivenNames z; refine Keeps.cut (W := W) (s0 := s0) (x := z) ?_ ?_; dsimp -zeta only [z]; rotate_left; clear_value z; rotate_right)
    | (extract_lets +onlyGivenNames z; clear_value z)
    | split

theorem execEntryArrive_keeps (hw : Sub 0x83c5e W) {id cst e s} (hs : Keeps W s0 s) : OutAll (Keeps W s0) (execEntryArrive id cst e s) := by
  unfold execEntryArrive
  repeat' first
    | with_reducible assumption
    | with_reducible refine entryArrive_keeps (Sub.step hw rfl) ?_
    | with_reducible refine entryOver_keeps (Sub.step hw rfl) ?_
    | with_reducible refine OutAll.next ?_
    | with_reducible refine Keeps.foldl ?_ ?_
    | intro _
    | (extract_lets +onlyGivenNames z; refine Keeps.cut (W := W) (s0 := s0) (x := z) ?_ ?_; dsimp -zeta only [z]; rotate_left; clear_value z; rotate_right)
    | (extract_lets +onlyGivenNames z; clear_value z)
    | split

theorem execSealCompletion_keeps (hw : Sub 0x8081e W) {f n s} (hs : Keeps W s0 s) : OutAll (Keeps W s0) (execSealCompletion f n s) := by
  unfold execSealCompletion
  repeat' first
    | with_reducible assumption
    | with_reducible refine modCq_keeps (Sub.step hw rfl) ?_
    | with_reducible refine modSq_keeps (Sub.step hw rfl) ?_
    | with_reducible refine writeCpl_keeps (Sub.step hw rfl) ?_
    | with_reducible refine pruneSeals_keeps (Sub.step hw rfl) ?_
    | with_reducible refine OutAll.next ?_
    | with_reducible refine Keeps.foldl ?_ ?_
    | intro _
    | (extract_lets +onlyGivenNames z; refine Keeps.cut (W := W) (s0 := s0) (x := z) ?_ ?_; dsimp -zeta only [z]; rotate_left; clear_value z; rotate_right)
    | (extract_lets +onlyGivenNames z; clear_value z)
    | split

theorem execCoalesceTimeout_keeps (hw : Sub 0x1c W) {f n s} (hs : Keeps W s0 s) : OutAll (Keeps W s0) (execCoalesceTimeout f n s) := by
  unfold execCoalesceTimeout
  repeat' first
    | with_reducible assumption
    | with_reducible refine cqIrq_keeps (Sub.step hw rfl) ?_
    | with_reducible refine OutAll.next ?_
    | with_reducible refine Keeps.foldl ?_ ?_
    | intro _
    | (extract_lets +onlyGivenNames z; refine Keeps.cut (W := W) (s0 := s0) (x := z) ?_ ?_; dsimp -zeta only [z]; rotate_left; clear_value z; rotate_right)
    | (extract_lets +onlyGivenNames z; clear_value z)
    | split

theorem execQueueDrained_keeps (hw : Sub 0x8080e W) {f n s} (hs : Keeps W s0 s) : OutAll (Keeps W s0) (execQueueDrained f n s) := by
  unfold execQueueDrained
  repeat' first
    | with_reducible assumption
    | with_reducible refine regSet_keeps (Sub.step hw rfl) ?_
    | with_reducible refine modSq_keeps (Sub.step hw rfl) ?_
    | with_reducible refine State.modCmdif_keeps (Sub.step hw rfl) ?_
    | with_reducible refine postEvt_keeps (Sub.step hw rfl) ?_
    | with_reducible refine OutAll.next ?_
    | with_reducible refine Keeps.foldl ?_ ?_
    | intro _
    | (extract_lets +onlyGivenNames z; refine Keeps.cut (W := W) (s0 := s0) (x := z) ?_ ?_; dsimp -zeta only [z]; rotate_left; clear_value z; rotate_right)
    | (extract_lets +onlyGivenNames z; clear_value z)
    | split

theorem execCqHomeReturn_keeps (hw : Sub 0x8 W) {f n s} (hs : Keeps W s0 s) : OutAll (Keeps W s0) (execCqHomeReturn f n s) := by
  unfold execCqHomeReturn
  repeat' first
    | with_reducible assumption
    | with_reducible refine modCq_keeps (Sub.step hw rfl) ?_
    | with_reducible refine OutAll.next ?_
    | with_reducible refine Keeps.foldl ?_ ?_
    | intro _
    | (extract_lets +onlyGivenNames z; refine Keeps.cut (W := W) (s0 := s0) (x := z) ?_ ?_; dsimp -zeta only [z]; rotate_left; clear_value z; rotate_right)
    | (extract_lets +onlyGivenNames z; clear_value z)
    | split

theorem execLinkDown_keeps (hw : Sub 0x83c5e W) {id s} (hs : Keeps W s0 s) : OutAll (Keeps W s0) (execLinkDown id s) := by
  unfold execLinkDown
  repeat' first
    | with_reducible assumption
    | with_reducible refine finishSt_keeps (Sub.step hw rfl) ?_
    | with_reducible refine readOver_keeps (Sub.step hw rfl) ?_
    | with_reducible refine entryOver_keeps (Sub.step hw rfl) ?_
    | with_reducible refine OutAll.next ?_
    | with_reducible refine Keeps.foldl ?_ ?_
    | intro _
    | (extract_lets +onlyGivenNames z; refine Keeps.cut (W := W) (s0 := s0) (x := z) ?_ ?_; dsimp -zeta only [z]; rotate_left; clear_value z; rotate_right)
    | (extract_lets +onlyGivenNames z; clear_value z)
    | split

end Sys2Proof.Machine
end

