-- ==== Sys2Proof/Laws/FrameFurrowCmds.lean ====
section
/-! SUPPORT. The frame of every operation of Machine/FurrowCmds.lean: the parts it may write, and what it keeps (`Keeps`). -/
namespace Sys2Proof.Machine

set_option linter.tactic.unusedName false
variable {W : Nat} {s0 : State}

theorem furrowCreateSpec_keeps  : OpSpec.All (Keeps W s0) (furrowCreateSpec ) := by
  intro c u hu
  exact Draws.all_ok hu

theorem furrowCreateBasic_keeps (hw : Sub 0x83c5e W) {c s} (hs : Keeps W s0 s) : Keeps W s0 (furrowCreateBasic c s) := by
  unfold furrowCreateBasic
  repeat' first
    | with_reducible assumption
    | with_reducible refine finishSt_keeps (Sub.step hw rfl) ?_
    | with_reducible refine finish_keeps (Sub.step hw rfl) ?_
    | with_reducible refine furrowSet_keeps (Sub.step hw rfl) ?_
    | with_reducible refine Keeps.foldl ?_ ?_
    | intro _
    | (extract_lets +onlyGivenNames z; refine Keeps.cut (W := W) (s0 := s0) (x := z) ?_ ?_; dsimp -zeta only [z]; rotate_left; clear_value z; rotate_right)
    | (extract_lets +onlyGivenNames z; clear_value z)
    | split

theorem furrowCreateExpert_keeps (hw : Sub 0x83c5e W) {c s} (hs : Keeps W s0 s) : Keeps W s0 (furrowCreateExpert c s) := by
  unfold furrowCreateExpert
  repeat' first
    | with_reducible assumption
    | with_reducible refine finishSt_keeps (Sub.step hw rfl) ?_
    | with_reducible refine furrowSet_keeps (Sub.step hw rfl) ?_
    | with_reducible refine State.modCmdif_keeps (Sub.step hw rfl) ?_
    | with_reducible refine finish_keeps (Sub.step hw rfl) ?_
    | with_reducible refine Keeps.foldl ?_ ?_
    | intro _
    | (extract_lets +onlyGivenNames z; refine Keeps.cut (W := W) (s0 := s0) (x := z) ?_ ?_; dsimp -zeta only [z]; rotate_left; clear_value z; rotate_right)
    | (extract_lets +onlyGivenNames z; clear_value z)
    | split

theorem execFurrowCreate_keeps (hw : Sub 0x183c5e W) {id s} (hs : Keeps W s0 s) : OutAll (Keeps W s0) (execFurrowCreate id s) := by
  unfold execFurrowCreate
  repeat' first
    | with_reducible assumption
    | with_reducible refine runOp_keeps (Sub.step hw rfl) ?_ ?_ ?_
    | with_reducible refine furrowCreateSpec_keeps 
    | with_reducible refine furrowCreateBasic_keeps (Sub.step hw rfl) ?_
    | with_reducible refine furrowCreateExpert_keeps (Sub.step hw rfl) ?_
    | ((with_reducible refine OpSpec.All.default ?_); exact rfl)
    | with_reducible refine OutAll.next ?_
    | with_reducible refine Keeps.foldl ?_ ?_
    | intro _
    | (extract_lets +onlyGivenNames z; refine Keeps.cut (W := W) (s0 := s0) (x := z) ?_ ?_; dsimp -zeta only [z]; rotate_left; clear_value z; rotate_right)
    | (extract_lets +onlyGivenNames z; clear_value z)
    | split

theorem execFurrowSetPolicy_keeps (hw : Sub 0x183c5e W) {id s} (hs : Keeps W s0 s) : OutAll (Keeps W s0) (execFurrowSetPolicy id s) := by
  unfold execFurrowSetPolicy
  repeat' first
    | with_reducible assumption
    | with_reducible refine runOp_keeps (Sub.step hw rfl) ?_ ?_ ?_
    | with_reducible refine blockOf_keeps 
    | with_reducible refine finishSt_keeps (Sub.step hw rfl) ?_
    | with_reducible refine furrowSet_keeps (Sub.step hw rfl) ?_
    | ((with_reducible refine OpSpec.All.default ?_); exact rfl)
    | with_reducible refine OutAll.next ?_
    | with_reducible refine Keeps.foldl ?_ ?_
    | intro _
    | (extract_lets +onlyGivenNames z; refine Keeps.cut (W := W) (s0 := s0) (x := z) ?_ ?_; dsimp -zeta only [z]; rotate_left; clear_value z; rotate_right)
    | (extract_lets +onlyGivenNames z; clear_value z)
    | split

theorem furrowDone_keeps (hw : Sub 0x80816 W) {n bitNo evt s} (hs : Keeps W s0 s) : Keeps W s0 (furrowDone n bitNo evt s) := by
  unfold furrowDone
  repeat' first
    | with_reducible assumption
    | with_reducible refine regSet_keeps (Sub.step hw rfl) ?_
    | with_reducible refine postEvt_keeps (Sub.step hw rfl) ?_
    | with_reducible refine modFurrow_keeps (Sub.step hw rfl) ?_
    | with_reducible refine Keeps.foldl ?_ ?_
    | intro _
    | (extract_lets +onlyGivenNames z; refine Keeps.cut (W := W) (s0 := s0) (x := z) ?_ ?_; dsimp -zeta only [z]; rotate_left; clear_value z; rotate_right)
    | (extract_lets +onlyGivenNames z; clear_value z)
    | split

theorem drainReport_keeps (hw : Sub 0x80816 W) {n s} (hs : Keeps W s0 s) : Keeps W s0 (drainReport n s) := by
  unfold drainReport
  repeat' first
    | with_reducible assumption
    | with_reducible refine furrowDone_keeps (Sub.step hw rfl) ?_
    | with_reducible refine modFurrow_keeps (Sub.step hw rfl) ?_
    | with_reducible refine Keeps.foldl ?_ ?_
    | intro _
    | (extract_lets +onlyGivenNames z; refine Keeps.cut (W := W) (s0 := s0) (x := z) ?_ ?_; dsimp -zeta only [z]; rotate_left; clear_value z; rotate_right)
    | (extract_lets +onlyGivenNames z; clear_value z)
    | split

theorem furrowCmd_keeps (hw : Sub 0x83c5e W) {c n g s} (hs : Keeps W s0 s) (hg : ∀ a0, ActAll (Keeps W s0) (g a0)) : Keeps W s0 (furrowCmd c n g s) := by
  unfold furrowCmd
  repeat' first
    | with_reducible assumption
    | with_reducible refine ActAll.out (P := Keeps W s0) (by assumption) (hg _) ?_
    | with_reducible refine drainReport_keeps (Sub.step hw rfl) ?_
    | with_reducible refine finishSt_keeps (Sub.step hw rfl) ?_
    | with_reducible refine Keeps.foldl ?_ ?_
    | intro _
    | (extract_lets +onlyGivenNames z; refine Keeps.cut (W := W) (s0 := s0) (x := z) ?_ ?_; dsimp -zeta only [z]; rotate_left; clear_value z; rotate_right)
    | (extract_lets +onlyGivenNames z; clear_value z)
    | split

theorem execFurrowQuiesce_keeps (hw : Sub 0x183c5e W) {id s} (hs : Keeps W s0 s) : OutAll (Keeps W s0) (execFurrowQuiesce id s) := by
  unfold execFurrowQuiesce
  repeat' first
    | with_reducible assumption
    | with_reducible refine runOp_keeps (Sub.step hw rfl) ?_ ?_ ?_
    | with_reducible refine noKeys_keeps 
    | with_reducible refine furrowCmd_keeps (Sub.step hw rfl) ?_ ?_
    | with_reducible refine finishSt_keeps (Sub.step hw rfl) ?_
    | with_reducible refine furrowSet_keeps (Sub.step hw rfl) ?_
    | ((with_reducible refine OpSpec.All.default ?_); exact rfl)
    | with_reducible refine OutAll.next ?_
    | with_reducible refine Keeps.foldl ?_ ?_
    | with_reducible exact ActAll.none
    | with_reducible refine ActAll.some ?_
    | intro _
    | (extract_lets +onlyGivenNames z; refine Keeps.cut (W := W) (s0 := s0) (x := z) ?_ ?_; dsimp -zeta only [z]; rotate_left; clear_value z; rotate_right)
    | (extract_lets +onlyGivenNames z; clear_value z)
    | split

theorem furrowAbort_keeps (hw : Sub 0x83c5e W) {n s} (hs : Keeps W s0 s) : Keeps W s0 (furrowAbort n s) := by
  unfold furrowAbort
  repeat' first
    | with_reducible assumption
    | with_reducible refine finishAll_keeps (Sub.step hw rfl) ?_
    | with_reducible refine Keeps.foldl ?_ ?_
    | intro _
    | (extract_lets +onlyGivenNames z; refine Keeps.cut (W := W) (s0 := s0) (x := z) ?_ ?_; dsimp -zeta only [z]; rotate_left; clear_value z; rotate_right)
    | (extract_lets +onlyGivenNames z; clear_value z)
    | split

theorem execFurrowDisable_keeps (hw : Sub 0x183c5e W) {id s} (hs : Keeps W s0 s) : OutAll (Keeps W s0) (execFurrowDisable id s) := by
  unfold execFurrowDisable
  repeat' first
    | with_reducible assumption
    | with_reducible refine runOp_keeps (Sub.step hw rfl) ?_ ?_ ?_
    | with_reducible refine noKeys_keeps 
    | with_reducible refine furrowCmd_keeps (Sub.step hw rfl) ?_ ?_
    | with_reducible refine furrowAbort_keeps (Sub.step hw rfl) ?_
    | with_reducible refine finishSt_keeps (Sub.step hw rfl) ?_
    | with_reducible refine furrowSet_keeps (Sub.step hw rfl) ?_
    | ((with_reducible refine OpSpec.All.default ?_); exact rfl)
    | with_reducible refine OutAll.next ?_
    | with_reducible refine Keeps.foldl ?_ ?_
    | with_reducible exact ActAll.none
    | with_reducible refine ActAll.some ?_
    | intro _
    | (extract_lets +onlyGivenNames z; refine Keeps.cut (W := W) (s0 := s0) (x := z) ?_ ?_; dsimp -zeta only [z]; rotate_left; clear_value z; rotate_right)
    | (extract_lets +onlyGivenNames z; clear_value z)
    | split

theorem execFurrowEnable_keeps (hw : Sub 0x183c5e W) {id s} (hs : Keeps W s0 s) : OutAll (Keeps W s0) (execFurrowEnable id s) := by
  unfold execFurrowEnable
  repeat' first
    | with_reducible assumption
    | with_reducible refine runOp_keeps (Sub.step hw rfl) ?_ ?_ ?_
    | with_reducible refine noKeys_keeps 
    | with_reducible refine furrowCmd_keeps (Sub.step hw rfl) ?_ ?_
    | with_reducible refine finishSt_keeps (Sub.step hw rfl) ?_
    | with_reducible refine furrowSet_keeps (Sub.step hw rfl) ?_
    | ((with_reducible refine OpSpec.All.default ?_); exact rfl)
    | with_reducible refine OutAll.next ?_
    | with_reducible refine Keeps.foldl ?_ ?_
    | with_reducible exact ActAll.none
    | with_reducible refine ActAll.some ?_
    | intro _
    | (extract_lets +onlyGivenNames z; refine Keeps.cut (W := W) (s0 := s0) (x := z) ?_ ?_; dsimp -zeta only [z]; rotate_left; clear_value z; rotate_right)
    | (extract_lets +onlyGivenNames z; clear_value z)
    | split

theorem furrowClear_keeps (hw : Sub 0x158 W) {n s} (hs : Keeps W s0 s) : Keeps W s0 (furrowClear n s) := by
  unfold furrowClear
  repeat' first
    | with_reducible assumption
    | with_reducible refine State.modCmdif_keeps (Sub.step hw rfl) ?_
    | with_reducible refine emptyKSlots_keeps (Sub.step hw rfl) ?_
    | with_reducible refine modFurrow_keeps (Sub.step hw rfl) ?_
    | with_reducible refine cullet_keeps (Sub.step hw rfl) ?_
    | with_reducible refine Keeps.foldl ?_ ?_
    | intro _
    | (extract_lets +onlyGivenNames z; refine Keeps.cut (W := W) (s0 := s0) (x := z) ?_ ?_; dsimp -zeta only [z]; rotate_left; clear_value z; rotate_right)
    | (extract_lets +onlyGivenNames z; clear_value z)
    | split

theorem execFurrowReset_keeps (hw : Sub 0x183d5e W) {id s} (hs : Keeps W s0 s) : OutAll (Keeps W s0) (execFurrowReset id s) := by
  unfold execFurrowReset
  repeat' first
    | with_reducible assumption
    | with_reducible refine runOp_keeps (Sub.step hw rfl) ?_ ?_ ?_
    | with_reducible refine noKeys_keeps 
    | with_reducible refine furrowCmd_keeps (Sub.step hw rfl) ?_ ?_
    | with_reducible refine finishSt_keeps (Sub.step hw rfl) ?_
    | with_reducible refine modFurrow_keeps (Sub.step hw rfl) ?_
    | with_reducible refine furrowClear_keeps (Sub.step hw rfl) ?_
    | ((with_reducible refine OpSpec.All.default ?_); exact rfl)
    | with_reducible refine OutAll.next ?_
    | with_reducible refine Keeps.foldl ?_ ?_
    | with_reducible exact ActAll.none
    | with_reducible refine ActAll.some ?_
    | intro _
    | (extract_lets +onlyGivenNames z; refine Keeps.cut (W := W) (s0 := s0) (x := z) ?_ ?_; dsimp -zeta only [z]; rotate_left; clear_value z; rotate_right)
    | (extract_lets +onlyGivenNames z; clear_value z)
    | split

theorem execFurrowRemove_keeps (hw : Sub 0x183d5e W) {id s} (hs : Keeps W s0 s) : OutAll (Keeps W s0) (execFurrowRemove id s) := by
  unfold execFurrowRemove
  repeat' first
    | with_reducible assumption
    | with_reducible refine runOp_keeps (Sub.step hw rfl) ?_ ?_ ?_
    | with_reducible refine noKeys_keeps 
    | with_reducible refine furrowCmd_keeps (Sub.step hw rfl) ?_ ?_
    | with_reducible refine finishSt_keeps (Sub.step hw rfl) ?_
    | with_reducible refine furrowSet_keeps (Sub.step hw rfl) ?_
    | with_reducible refine furrowClear_keeps (Sub.step hw rfl) ?_
    | ((with_reducible refine OpSpec.All.default ?_); exact rfl)
    | with_reducible refine OutAll.next ?_
    | with_reducible refine Keeps.foldl ?_ ?_
    | with_reducible exact ActAll.none
    | with_reducible refine ActAll.some ?_
    | intro _
    | (extract_lets +onlyGivenNames z; refine Keeps.cut (W := W) (s0 := s0) (x := z) ?_ ?_; dsimp -zeta only [z]; rotate_left; clear_value z; rotate_right)
    | (extract_lets +onlyGivenNames z; clear_value z)
    | split

theorem logWait_keeps (hw : Sub 0x83c5e W) {c s} (hs : Keeps W s0 s) : Keeps W s0 (logWait c s) := by
  unfold logWait
  repeat' first
    | with_reducible assumption
    | with_reducible refine finish_keeps (Sub.step hw rfl) ?_
    | with_reducible refine Keeps.foldl ?_ ?_
    | intro _
    | (extract_lets +onlyGivenNames z; refine Keeps.cut (W := W) (s0 := s0) (x := z) ?_ ?_; dsimp -zeta only [z]; rotate_left; clear_value z; rotate_right)
    | (extract_lets +onlyGivenNames z; clear_value z)
    | split

theorem logSwitch_keeps (hw : Sub 0x83c5e W) {c n x l s} (hs : Keeps W s0 s) : Keeps W s0 (logSwitch c n x l s) := by
  unfold logSwitch
  repeat' first
    | with_reducible assumption
    | with_reducible refine logWait_keeps (Sub.step hw rfl) ?_
    | with_reducible refine cmdPut_keeps (Sub.step hw rfl) ?_
    | with_reducible refine furrowSet_keeps (Sub.step hw rfl) ?_
    | with_reducible refine Keeps.foldl ?_ ?_
    | intro _
    | (extract_lets +onlyGivenNames z; refine Keeps.cut (W := W) (s0 := s0) (x := z) ?_ ?_; dsimp -zeta only [z]; rotate_left; clear_value z; rotate_right)
    | (extract_lets +onlyGivenNames z; clear_value z)
    | split

theorem execDirtyLogStart_keeps (hw : Sub 0x183c5e W) {id s} (hs : Keeps W s0 s) : OutAll (Keeps W s0) (execDirtyLogStart id s) := by
  unfold execDirtyLogStart
  repeat' first
    | with_reducible assumption
    | with_reducible refine runOp_keeps (Sub.step hw rfl) ?_ ?_ ?_
    | with_reducible refine blockOf_keeps 
    | with_reducible refine logWait_keeps (Sub.step hw rfl) ?_
    | with_reducible refine finishSt_keeps (Sub.step hw rfl) ?_
    | with_reducible refine furrowCmd_keeps (Sub.step hw rfl) ?_ ?_
    | with_reducible refine logSwitch_keeps (Sub.step hw rfl) ?_
    | ((with_reducible refine OpSpec.All.default ?_); exact rfl)
    | with_reducible refine OutAll.next ?_
    | with_reducible refine Keeps.foldl ?_ ?_
    | with_reducible exact ActAll.none
    | with_reducible refine ActAll.some ?_
    | intro _
    | (extract_lets +onlyGivenNames z; refine Keeps.cut (W := W) (s0 := s0) (x := z) ?_ ?_; dsimp -zeta only [z]; rotate_left; clear_value z; rotate_right)
    | (extract_lets +onlyGivenNames z; clear_value z)
    | split

theorem execDirtyLogStop_keeps (hw : Sub 0x183c5e W) {id s} (hs : Keeps W s0 s) : OutAll (Keeps W s0) (execDirtyLogStop id s) := by
  unfold execDirtyLogStop
  repeat' first
    | with_reducible assumption
    | with_reducible refine runOp_keeps (Sub.step hw rfl) ?_ ?_ ?_
    | with_reducible refine noKeys_keeps 
    | with_reducible refine logWait_keeps (Sub.step hw rfl) ?_
    | with_reducible refine furrowCmd_keeps (Sub.step hw rfl) ?_ ?_
    | with_reducible refine logSwitch_keeps (Sub.step hw rfl) ?_
    | ((with_reducible refine OpSpec.All.default ?_); exact rfl)
    | with_reducible refine OutAll.next ?_
    | with_reducible refine Keeps.foldl ?_ ?_
    | with_reducible exact ActAll.none
    | with_reducible refine ActAll.some ?_
    | intro _
    | (extract_lets +onlyGivenNames z; refine Keeps.cut (W := W) (s0 := s0) (x := z) ?_ ?_; dsimp -zeta only [z]; rotate_left; clear_value z; rotate_right)
    | (extract_lets +onlyGivenNames z; clear_value z)
    | split

theorem execFurrowQuery_keeps (hw : Sub 0x183c5e W) {id s} (hs : Keeps W s0 s) : OutAll (Keeps W s0) (execFurrowQuery id s) := by
  unfold execFurrowQuery
  repeat' first
    | with_reducible assumption
    | with_reducible refine runOp_keeps (Sub.step hw rfl) ?_ ?_ ?_
    | with_reducible refine noKeys_keeps 
    | with_reducible refine finishSt_keeps (Sub.step hw rfl) ?_
    | with_reducible refine finish_keeps (Sub.step hw rfl) ?_
    | ((with_reducible refine OpSpec.All.default ?_); exact rfl)
    | with_reducible refine OutAll.next ?_
    | with_reducible refine Keeps.foldl ?_ ?_
    | intro _
    | (extract_lets +onlyGivenNames z; refine Keeps.cut (W := W) (s0 := s0) (x := z) ?_ ?_; dsimp -zeta only [z]; rotate_left; clear_value z; rotate_right)
    | (extract_lets +onlyGivenNames z; clear_value z)
    | split

theorem execFurrowQuiesced_keeps (hw : Sub 0x80816 W) {n s} (hs : Keeps W s0 s) : OutAll (Keeps W s0) (execFurrowQuiesced n s) := by
  unfold execFurrowQuiesced
  repeat' first
    | with_reducible assumption
    | with_reducible refine drainReport_keeps (Sub.step hw rfl) ?_
    | with_reducible refine OutAll.next ?_
    | with_reducible refine Keeps.foldl ?_ ?_
    | intro _
    | (extract_lets +onlyGivenNames z; refine Keeps.cut (W := W) (s0 := s0) (x := z) ?_ ?_; dsimp -zeta only [z]; rotate_left; clear_value z; rotate_right)
    | (extract_lets +onlyGivenNames z; clear_value z)
    | split

theorem execFurrowDisabled_keeps (hw : Sub 0x80816 W) {n s} (hs : Keeps W s0 s) : OutAll (Keeps W s0) (execFurrowDisabled n s) := by
  unfold execFurrowDisabled
  repeat' first
    | with_reducible assumption
    | with_reducible refine drainReport_keeps (Sub.step hw rfl) ?_
    | with_reducible refine OutAll.next ?_
    | with_reducible refine Keeps.foldl ?_ ?_
    | intro _
    | (extract_lets +onlyGivenNames z; refine Keeps.cut (W := W) (s0 := s0) (x := z) ?_ ?_; dsimp -zeta only [z]; rotate_left; clear_value z; rotate_right)
    | (extract_lets +onlyGivenNames z; clear_value z)
    | split

theorem execCqCreate_keeps (hw : Sub 0x183c5e W) {id s} (hs : Keeps W s0 s) : OutAll (Keeps W s0) (execCqCreate id s) := by
  unfold execCqCreate
  repeat' first
    | with_reducible assumption
    | with_reducible refine runOp_keeps (Sub.step hw rfl) ?_ ?_ ?_
    | with_reducible refine blockOf_keeps 
    | with_reducible refine finishSt_keeps (Sub.step hw rfl) ?_
    | with_reducible refine State.modCmdif_keeps (Sub.step hw rfl) ?_
    | ((with_reducible refine OpSpec.All.default ?_); exact rfl)
    | with_reducible refine OutAll.next ?_
    | with_reducible refine Keeps.foldl ?_ ?_
    | intro _
    | (extract_lets +onlyGivenNames z; refine Keeps.cut (W := W) (s0 := s0) (x := z) ?_ ?_; dsimp -zeta only [z]; rotate_left; clear_value z; rotate_right)
    | (extract_lets +onlyGivenNames z; clear_value z)
    | split

theorem execSqCreate_keeps (hw : Sub 0x183c5e W) {id s} (hs : Keeps W s0 s) : OutAll (Keeps W s0) (execSqCreate id s) := by
  unfold execSqCreate
  repeat' first
    | with_reducible assumption
    | with_reducible refine runOp_keeps (Sub.step hw rfl) ?_ ?_ ?_
    | with_reducible refine blockOf_keeps 
    | with_reducible refine finishSt_keeps (Sub.step hw rfl) ?_
    | with_reducible refine State.modCmdif_keeps (Sub.step hw rfl) ?_
    | ((with_reducible refine OpSpec.All.default ?_); exact rfl)
    | with_reducible refine OutAll.next ?_
    | with_reducible refine Keeps.foldl ?_ ?_
    | intro _
    | (extract_lets +onlyGivenNames z; refine Keeps.cut (W := W) (s0 := s0) (x := z) ?_ ?_; dsimp -zeta only [z]; rotate_left; clear_value z; rotate_right)
    | (extract_lets +onlyGivenNames z; clear_value z)
    | split

theorem execCqDelete_keeps (hw : Sub 0x183c5e W) {id s} (hs : Keeps W s0 s) : OutAll (Keeps W s0) (execCqDelete id s) := by
  unfold execCqDelete
  repeat' first
    | with_reducible assumption
    | with_reducible refine runOp_keeps (Sub.step hw rfl) ?_ ?_ ?_
    | with_reducible refine noKeys_keeps 
    | with_reducible refine finishSt_keeps (Sub.step hw rfl) ?_
    | with_reducible refine State.modCmdif_keeps (Sub.step hw rfl) ?_
    | ((with_reducible refine OpSpec.All.default ?_); exact rfl)
    | with_reducible refine OutAll.next ?_
    | with_reducible refine Keeps.foldl ?_ ?_
    | intro _
    | (extract_lets +onlyGivenNames z; refine Keeps.cut (W := W) (s0 := s0) (x := z) ?_ ?_; dsimp -zeta only [z]; rotate_left; clear_value z; rotate_right)
    | (extract_lets +onlyGivenNames z; clear_value z)
    | split

theorem execSqDelete_keeps (hw : Sub 0x183c5e W) {id s} (hs : Keeps W s0 s) : OutAll (Keeps W s0) (execSqDelete id s) := by
  unfold execSqDelete
  repeat' first
    | with_reducible assumption
    | with_reducible refine runOp_keeps (Sub.step hw rfl) ?_ ?_ ?_
    | with_reducible refine noKeys_keeps 
    | with_reducible refine finishSt_keeps (Sub.step hw rfl) ?_
    | with_reducible refine State.modCmdif_keeps (Sub.step hw rfl) ?_
    | ((with_reducible refine OpSpec.All.default ?_); exact rfl)
    | with_reducible refine OutAll.next ?_
    | with_reducible refine Keeps.foldl ?_ ?_
    | intro _
    | (extract_lets +onlyGivenNames z; refine Keeps.cut (W := W) (s0 := s0) (x := z) ?_ ?_; dsimp -zeta only [z]; rotate_left; clear_value z; rotate_right)
    | (extract_lets +onlyGivenNames z; clear_value z)
    | split

theorem execSqDisable_keeps (hw : Sub 0x183c5e W) {id s} (hs : Keeps W s0 s) : OutAll (Keeps W s0) (execSqDisable id s) := by
  unfold execSqDisable
  repeat' first
    | with_reducible assumption
    | with_reducible refine runOp_keeps (Sub.step hw rfl) ?_ ?_ ?_
    | with_reducible refine noKeys_keeps 
    | with_reducible refine finishSt_keeps (Sub.step hw rfl) ?_
    | with_reducible refine disableSq_keeps (Sub.step hw rfl) ?_
    | ((with_reducible refine OpSpec.All.default ?_); exact rfl)
    | with_reducible refine OutAll.next ?_
    | with_reducible refine Keeps.foldl ?_ ?_
    | intro _
    | (extract_lets +onlyGivenNames z; refine Keeps.cut (W := W) (s0 := s0) (x := z) ?_ ?_; dsimp -zeta only [z]; rotate_left; clear_value z; rotate_right)
    | (extract_lets +onlyGivenNames z; clear_value z)
    | split

theorem execSqEnable_keeps (hw : Sub 0x183c5e W) {id s} (hs : Keeps W s0 s) : OutAll (Keeps W s0) (execSqEnable id s) := by
  unfold execSqEnable
  repeat' first
    | with_reducible assumption
    | with_reducible refine runOp_keeps (Sub.step hw rfl) ?_ ?_ ?_
    | with_reducible refine noKeys_keeps 
    | with_reducible refine finishSt_keeps (Sub.step hw rfl) ?_
    | with_reducible refine modSq_keeps (Sub.step hw rfl) ?_
    | ((with_reducible refine OpSpec.All.default ?_); exact rfl)
    | with_reducible refine OutAll.next ?_
    | with_reducible refine Keeps.foldl ?_ ?_
    | intro _
    | (extract_lets +onlyGivenNames z; refine Keeps.cut (W := W) (s0 := s0) (x := z) ?_ ?_; dsimp -zeta only [z]; rotate_left; clear_value z; rotate_right)
    | (extract_lets +onlyGivenNames z; clear_value z)
    | split

theorem execQueueQuery_keeps (hw : Sub 0x183c5e W) {id s} (hs : Keeps W s0 s) : OutAll (Keeps W s0) (execQueueQuery id s) := by
  unfold execQueueQuery
  repeat' first
    | with_reducible assumption
    | with_reducible refine runOp_keeps (Sub.step hw rfl) ?_ ?_ ?_
    | with_reducible refine noKeys_keeps 
    | with_reducible refine finishSt_keeps (Sub.step hw rfl) ?_
    | with_reducible refine finish_keeps (Sub.step hw rfl) ?_
    | ((with_reducible refine OpSpec.All.default ?_); exact rfl)
    | with_reducible refine OutAll.next ?_
    | with_reducible refine Keeps.foldl ?_ ?_
    | intro _
    | (extract_lets +onlyGivenNames z; refine Keeps.cut (W := W) (s0 := s0) (x := z) ?_ ?_; dsimp -zeta only [z]; rotate_left; clear_value z; rotate_right)
    | (extract_lets +onlyGivenNames z; clear_value z)
    | split

theorem execNop_keeps (hw : Sub 0x183c5e W) {id s} (hs : Keeps W s0 s) : OutAll (Keeps W s0) (execNop id s) := by
  unfold execNop
  repeat' first
    | with_reducible assumption
    | with_reducible refine runOp_keeps (Sub.step hw rfl) ?_ ?_ ?_
    | with_reducible refine noKeys_keeps 
    | with_reducible refine finishSt_keeps (Sub.step hw rfl) ?_
    | ((with_reducible refine OpSpec.All.default ?_); exact rfl)
    | with_reducible refine OutAll.next ?_
    | with_reducible refine Keeps.foldl ?_ ?_
    | intro _
    | (extract_lets +onlyGivenNames z; refine Keeps.cut (W := W) (s0 := s0) (x := z) ?_ ?_; dsimp -zeta only [z]; rotate_left; clear_value z; rotate_right)
    | (extract_lets +onlyGivenNames z; clear_value z)
    | split

theorem execLoopback_keeps (hw : Sub 0x183c5e W) {id s} (hs : Keeps W s0 s) : OutAll (Keeps W s0) (execLoopback id s) := by
  unfold execLoopback
  repeat' first
    | with_reducible assumption
    | with_reducible refine runOp_keeps (Sub.step hw rfl) ?_ ?_ ?_
    | with_reducible refine noKeys_keeps 
    | with_reducible refine finish_keeps (Sub.step hw rfl) ?_
    | ((with_reducible refine OpSpec.All.default ?_); exact rfl)
    | with_reducible refine OutAll.next ?_
    | with_reducible refine Keeps.foldl ?_ ?_
    | intro _
    | (extract_lets +onlyGivenNames z; refine Keeps.cut (W := W) (s0 := s0) (x := z) ?_ ?_; dsimp -zeta only [z]; rotate_left; clear_value z; rotate_right)
    | (extract_lets +onlyGivenNames z; clear_value z)
    | split

end Sys2Proof.Machine
end

