-- ==== Sys2Proof/Laws/FrameRng.lean ====
section
/-! SUPPORT. The frame of every operation of Machine/Rng.lean: the parts it may write, and what it keeps (`Keeps`). -/
namespace Sys2Proof.Machine

set_option linter.tactic.unusedName false
variable {W : Nat} {s0 : State}

theorem State.modRng_keeps (hw : Sub 0x80 W) {s f} (hs : Keeps W s0 s) : Keeps W s0 (State.modRng s f) := by
  unfold State.modRng
  repeat' first
    | exact Keeps.rng (Sub.step hw rfl) hs

theorem State.modSrc_keeps (hw : Sub 0x80 W) {s x f} (hs : Keeps W s0 s) : Keeps W s0 (State.modSrc s x f) := by
  unfold State.modSrc
  repeat' first
    | with_reducible assumption
    | with_reducible refine State.modRng_keeps (Sub.step hw rfl) ?_
    | with_reducible refine Keeps.foldl ?_ ?_
    | intro _
    | (extract_lets +onlyGivenNames z; refine Keeps.cut (W := W) (s0 := s0) (x := z) ?_ ?_; dsimp -zeta only [z]; rotate_left; clear_value z; rotate_right)
    | (extract_lets +onlyGivenNames z; clear_value z)
    | split

theorem onMain_keeps {f s} (hs : Keeps W s0 s) (hf : ∀ u, Keeps W s0 u → Keeps W s0 (f u)) : Keeps W s0 (onMain f s) := by
  unfold onMain
  repeat' first
    | with_reducible assumption
    | with_reducible apply hf
    | with_reducible refine Keeps.foldl ?_ ?_
    | intro _
    | (extract_lets +onlyGivenNames z; refine Keeps.cut (W := W) (s0 := s0) (x := z) ?_ ?_; dsimp -zeta only [z]; rotate_left; clear_value z; rotate_right)
    | (extract_lets +onlyGivenNames z; clear_value z)
    | split

theorem takeBlocks_keeps (hw : Sub 0x80 W) {x n s} (hs : Keeps W s0 s) : PairAll (Keeps W s0) (takeBlocks x n s) := by
  unfold takeBlocks
  repeat' first
    | with_reducible assumption
    | with_reducible refine State.modSrc_keeps (Sub.step hw rfl) ?_
    | with_reducible refine PairAll.mk ?_
    | with_reducible refine Keeps.foldl ?_ ?_
    | intro _
    | (extract_lets +onlyGivenNames z; refine Keeps.cut (W := W) (s0 := s0) (x := z) ?_ ?_; dsimp -zeta only [z]; rotate_left; clear_value z; rotate_right)
    | (extract_lets +onlyGivenNames z; clear_value z)
    | split

theorem reseed_keeps (hw : Sub 0x80080 W) {add s} (hs : Keeps W s0 s) : Keeps W s0 (reseed add s) := by
  unfold reseed
  repeat' first
    | with_reducible assumption
    | with_reducible refine takeBlocks_keeps (Sub.step hw rfl) ?_
    | with_reducible refine bump_keeps (Sub.step hw rfl) ?_
    | with_reducible refine State.modRng_keeps (Sub.step hw rfl) ?_
    | with_reducible refine PairAll.snd (P := Keeps W s0) (p := takeBlocks _ _ _) ?_
    | with_reducible refine PairAll.out (P := Keeps W s0) (by assumption) ?_
    | with_reducible refine Keeps.foldl ?_ ?_
    | intro _
    | (extract_lets +onlyGivenNames z; refine Keeps.cut (W := W) (s0 := s0) (x := z) ?_ ?_; dsimp -zeta only [z]; rotate_left; clear_value z; rotate_right)
    | (extract_lets +onlyGivenNames z; clear_value z)
    | split

theorem drawKey_keeps (hw : Sub 0x80080 W) {n add s} (hs : Keeps W s0 s) : Draw.All (Keeps W s0) (drawKey n add s) := by
  unfold drawKey
  repeat' first
    | with_reducible assumption
    | with_reducible refine bump_keeps (Sub.step hw rfl) ?_
    | with_reducible refine bump64_keeps (Sub.step hw rfl) ?_
    | with_reducible refine State.modRng_keeps (Sub.step hw rfl) ?_
    | with_reducible refine Draw.all_ok ?_
    | with_reducible refine Draw.all_wait ?_
    | with_reducible refine Draw.all_stopped ?_
    | with_reducible refine Keeps.foldl ?_ ?_
    | intro _
    | (extract_lets +onlyGivenNames z; refine Keeps.cut (W := W) (s0 := s0) (x := z) ?_ ?_; dsimp -zeta only [z]; rotate_left; clear_value z; rotate_right)
    | (extract_lets +onlyGivenNames z; clear_value z)
    | split

theorem withKey_keeps (hw : Sub 0x83cde W) {c n s k} (hs : Keeps W s0 s) (hk : ∀ a0 u, Keeps W s0 u → Keeps W s0 (k a0 u)) : Keeps W s0 (withKey c n s k) := by
  unfold withKey
  repeat' first
    | with_reducible assumption
    | with_reducible apply hk
    | with_reducible refine drawKey_keeps (Sub.step hw rfl) ?_
    | with_reducible refine cmdPut_keeps (Sub.step hw rfl) ?_
    | with_reducible refine finishSt_keeps (Sub.step hw rfl) ?_
    | with_reducible refine Draw.out_ok (P := Keeps W s0) (by assumption) ?_
    | with_reducible refine Draw.out_wait (P := Keeps W s0) (by assumption) ?_
    | with_reducible refine Draw.out_stopped (P := Keeps W s0) (by assumption) ?_
    | with_reducible refine Keeps.foldl ?_ ?_
    | intro _
    | (extract_lets +onlyGivenNames z; refine Keeps.cut (W := W) (s0 := s0) (x := z) ?_ ?_; dsimp -zeta only [z]; rotate_left; clear_value z; rotate_right)
    | (extract_lets +onlyGivenNames z; clear_value z)
    | split

theorem rngErr_keeps (hw : Sub 0x80806 W) {n s} (hs : Keeps W s0 s) : Keeps W s0 (rngErr n s) := by
  unfold rngErr
  repeat' first
    | with_reducible assumption
    | with_reducible refine raiseErr_keeps (Sub.step hw rfl) ?_
    | with_reducible refine Keeps.foldl ?_ ?_
    | intro _
    | (extract_lets +onlyGivenNames z; refine Keeps.cut (W := W) (s0 := s0) (x := z) ?_ ?_; dsimp -zeta only [z]; rotate_left; clear_value z; rotate_right)
    | (extract_lets +onlyGivenNames z; clear_value z)
    | split

theorem rngWord_keeps (hw : Sub 0x80886 W) {r s} (hs : Keeps W s0 s) : WordAns.All (Keeps W s0) (rngWord r s) := by
  unfold rngWord
  repeat' first
    | with_reducible assumption
    | with_reducible refine rngErr_keeps (Sub.step hw rfl) ?_
    | with_reducible refine State.modRng_keeps (Sub.step hw rfl) ?_
    | with_reducible refine drawKey_keeps (Sub.step hw rfl) ?_
    | with_reducible refine Draw.out_ok (P := Keeps W s0) (by assumption) ?_
    | with_reducible refine Draw.out_wait (P := Keeps W s0) (by assumption) ?_
    | with_reducible refine Draw.out_stopped (P := Keeps W s0) (by assumption) ?_
    | with_reducible refine WordAns.all_ok ?_
    | with_reducible refine WordAns.all_wait ?_
    | with_reducible refine WordAns.all_zero ?_
    | with_reducible refine Keeps.foldl ?_ ?_
    | intro _
    | (extract_lets +onlyGivenNames z; refine Keeps.cut (W := W) (s0 := s0) (x := z) ?_ ?_; dsimp -zeta only [z]; rotate_left; clear_value z; rotate_right)
    | (extract_lets +onlyGivenNames z; clear_value z)
    | split

theorem rngDataRead_keeps (hw : Sub 0x80886 W) {r off n tag s} (hs : Keeps W s0 s) : Keeps W s0 (rngDataRead r off n tag s) := by
  unfold rngDataRead
  dsimp only
  repeat' first
    | with_reducible assumption
    | with_reducible refine State.modRng_keeps (Sub.step hw rfl) ?_
    | with_reducible refine rngWord_keeps (Sub.step hw rfl) ?_
    | with_reducible refine answer_keeps (Sub.step hw rfl) ?_
    | with_reducible refine WordAns.out_ok (P := Keeps W s0) (by assumption) ?_
    | with_reducible refine WordAns.out_wait (P := Keeps W s0) (by assumption) ?_
    | with_reducible refine WordAns.out_zero (P := Keeps W s0) (by assumption) ?_
    | with_reducible refine Keeps.foldl ?_ ?_
    | intro _
    | (extract_lets +onlyGivenNames z; refine Keeps.cut (W := W) (s0 := s0) (x := z) ?_ ?_; dsimp -zeta only [z]; rotate_left; clear_value z; rotate_right)
    | (extract_lets +onlyGivenNames z; clear_value z)
    | split

theorem e7Serve_keeps (hw : Sub 0x80080 W) {consumer s} (hs : Keeps W s0 s) : Keeps W s0 (e7Serve consumer s) := by
  unfold e7Serve
  repeat' first
    | with_reducible assumption
    | with_reducible refine drawKey_keeps (Sub.step hw rfl) ?_
    | with_reducible refine State.modRng_keeps (Sub.step hw rfl) ?_
    | with_reducible refine Draw.out_ok (P := Keeps W s0) (by assumption) ?_
    | with_reducible refine Draw.out_wait (P := Keeps W s0) (by assumption) ?_
    | with_reducible refine Draw.out_stopped (P := Keeps W s0) (by assumption) ?_
    | with_reducible refine Keeps.foldl ?_ ?_
    | intro _
    | (extract_lets +onlyGivenNames z; refine Keeps.cut (W := W) (s0 := s0) (x := z) ?_ ?_; dsimp -zeta only [z]; rotate_left; clear_value z; rotate_right)
    | (extract_lets +onlyGivenNames z; clear_value z)
    | split

theorem serveOne_keeps (hw : Sub 0x80886 W) {s n} (hs : Keeps W s0 s) : Keeps W s0 (serveOne s n) := by
  unfold serveOne
  repeat' first
    | with_reducible assumption
    | with_reducible refine State.modRng_keeps (Sub.step hw rfl) ?_
    | with_reducible refine rngDataRead_keeps (Sub.step hw rfl) ?_
    | with_reducible refine e7Serve_keeps (Sub.step hw rfl) ?_
    | with_reducible refine Keeps.foldl ?_ ?_
    | intro _
    | (extract_lets +onlyGivenNames z; refine Keeps.cut (W := W) (s0 := s0) (x := z) ?_ ?_; dsimp -zeta only [z]; rotate_left; clear_value z; rotate_right)
    | (extract_lets +onlyGivenNames z; clear_value z)
    | split

theorem serveWaiters_keeps (hw : Sub 0x80886 W) {s} (hs : Keeps W s0 s) : Keeps W s0 (serveWaiters s) := by
  unfold serveWaiters
  repeat' first
    | with_reducible assumption
    | with_reducible refine serveOne_keeps (Sub.step hw rfl) ?_
    | with_reducible refine Keeps.foldl ?_ ?_
    | intro _
    | (extract_lets +onlyGivenNames z; refine Keeps.cut (W := W) (s0 := s0) (x := z) ?_ ?_; dsimp -zeta only [z]; rotate_left; clear_value z; rotate_right)
    | (extract_lets +onlyGivenNames z; clear_value z)
    | split

theorem stopKey_keeps (hw : Sub 0x83cde W) {s} (hs : Keeps W s0 s) : Keeps W s0 (stopKey s) := by
  unfold stopKey
  repeat' first
    | with_reducible assumption
    | with_reducible refine State.modRng_keeps (Sub.step hw rfl) ?_
    | with_reducible refine postEvt_keeps (Sub.step hw rfl) ?_
    | with_reducible refine rngErr_keeps (Sub.step hw rfl) ?_
    | with_reducible refine serveWaiters_keeps (Sub.step hw rfl) ?_
    | with_reducible refine finishAll_keeps (Sub.step hw rfl) ?_
    | with_reducible refine Keeps.foldl ?_ ?_
    | intro _
    | (extract_lets +onlyGivenNames z; refine Keeps.cut (W := W) (s0 := s0) (x := z) ?_ ?_; dsimp -zeta only [z]; rotate_left; clear_value z; rotate_right)
    | (extract_lets +onlyGivenNames z; clear_value z)
    | split

theorem moveKey_keeps (hw : Sub 0x80886 W) {x s} (hs : Keeps W s0 s) : Keeps W s0 (moveKey x s) := by
  unfold moveKey
  repeat' first
    | with_reducible assumption
    | with_reducible refine State.modRng_keeps (Sub.step hw rfl) ?_
    | with_reducible refine postEvt_keeps (Sub.step hw rfl) ?_
    | with_reducible refine rngErr_keeps (Sub.step hw rfl) ?_
    | with_reducible refine Keeps.foldl ?_ ?_
    | intro _
    | (extract_lets +onlyGivenNames z; refine Keeps.cut (W := W) (s0 := s0) (x := z) ?_ ?_; dsimp -zeta only [z]; rotate_left; clear_value z; rotate_right)
    | (extract_lets +onlyGivenNames z; clear_value z)
    | split

theorem seedCores_keeps (hw : Sub 0x80 W) {s} (hs : Keeps W s0 s) : Keeps W s0 (seedCores s) := by
  unfold seedCores
  repeat' first
    | with_reducible assumption
    | with_reducible refine takeBlocks_keeps (Sub.step hw rfl) ?_
    | with_reducible refine State.modRng_keeps (Sub.step hw rfl) ?_
    | with_reducible refine PairAll.snd (P := Keeps W s0) (p := takeBlocks _ _ _) ?_
    | with_reducible refine PairAll.out (P := Keeps W s0) (by assumption) ?_
    | with_reducible refine Keeps.foldl ?_ ?_
    | intro _
    | (extract_lets +onlyGivenNames z; refine Keeps.cut (W := W) (s0 := s0) (x := z) ?_ ?_; dsimp -zeta only [z]; rotate_left; clear_value z; rotate_right)
    | (extract_lets +onlyGivenNames z; clear_value z)
    | split

theorem instantiate_keeps (hw : Sub 0x80 W) {x s} (hs : Keeps W s0 s) : Keeps W s0 (instantiate x s) := by
  unfold instantiate
  repeat' first
    | with_reducible assumption
    | with_reducible refine takeBlocks_keeps (Sub.step hw rfl) ?_
    | with_reducible refine seedCores_keeps (Sub.step hw rfl) ?_
    | with_reducible refine State.modRng_keeps (Sub.step hw rfl) ?_
    | with_reducible refine PairAll.snd (P := Keeps W s0) (p := takeBlocks _ _ _) ?_
    | with_reducible refine PairAll.out (P := Keeps W s0) (by assumption) ?_
    | with_reducible refine Keeps.foldl ?_ ?_
    | intro _
    | (extract_lets +onlyGivenNames z; refine Keeps.cut (W := W) (s0 := s0) (x := z) ?_ ?_; dsimp -zeta only [z]; rotate_left; clear_value z; rotate_right)
    | (extract_lets +onlyGivenNames z; clear_value z)
    | split

theorem resumeKey_keeps (hw : Sub 0x80886 W) {x s} (hs : Keeps W s0 s) : Keeps W s0 (resumeKey x s) := by
  unfold resumeKey
  repeat' first
    | with_reducible assumption
    | with_reducible refine serveWaiters_keeps (Sub.step hw rfl) ?_
    | with_reducible refine postEvt_keeps (Sub.step hw rfl) ?_
    | with_reducible refine instantiate_keeps (Sub.step hw rfl) ?_
    | with_reducible refine Keeps.foldl ?_ ?_
    | intro _
    | (extract_lets +onlyGivenNames z; refine Keeps.cut (W := W) (s0 := s0) (x := z) ?_ ?_; dsimp -zeta only [z]; rotate_left; clear_value z; rotate_right)
    | (extract_lets +onlyGivenNames z; clear_value z)
    | split

theorem resumeBits_keeps (hw : Sub 0x80 W) {x s} (hs : Keeps W s0 s) : Keeps W s0 (resumeBits x s) := by
  unfold resumeBits
  repeat' first
    | with_reducible assumption
    | with_reducible refine State.modSrc_keeps (Sub.step hw rfl) ?_
    | with_reducible refine Keeps.foldl ?_ ?_
    | intro _
    | (extract_lets +onlyGivenNames z; refine Keeps.cut (W := W) (s0 := s0) (x := z) ?_ ?_; dsimp -zeta only [z]; rotate_left; clear_value z; rotate_right)
    | (extract_lets +onlyGivenNames z; clear_value z)
    | split

theorem execGatherBlock_keeps (hw : Sub 0x80 W) {x raw s} (hs : Keeps W s0 s) : OutAll (Keeps W s0) (execGatherBlock x raw s) := by
  unfold execGatherBlock
  repeat' first
    | with_reducible assumption
    | with_reducible refine onMain_keeps ?_ ?_
    | with_reducible refine State.modSrc_keeps (Sub.step hw rfl) ?_
    | with_reducible refine OutAll.next ?_
    | with_reducible refine Keeps.foldl ?_ ?_
    | intro _
    | (extract_lets +onlyGivenNames z; refine Keeps.cut (W := W) (s0 := s0) (x := z) ?_ ?_; dsimp -zeta only [z]; rotate_left; clear_value z; rotate_right)
    | (extract_lets +onlyGivenNames z; clear_value z)
    | split

theorem bumpField_keeps (hw : Sub 0x80000 W) {k lo top s} (hs : Keeps W s0 s) : Keeps W s0 (bumpField k lo top s) := by
  unfold bumpField
  repeat' first
    | with_reducible assumption
    | with_reducible refine regSet_keeps (Sub.step hw rfl) ?_
    | with_reducible refine Keeps.foldl ?_ ?_
    | intro _
    | (extract_lets +onlyGivenNames z; refine Keeps.cut (W := W) (s0 := s0) (x := z) ?_ ?_; dsimp -zeta only [z]; rotate_left; clear_value z; rotate_right)
    | (extract_lets +onlyGivenNames z; clear_value z)
    | split

theorem maskFail_keeps (hw : Sub 0x80000 W) {test s} (hs : Keeps W s0 s) : Keeps W s0 (maskFail test s) := by
  unfold maskFail
  repeat' first
    | with_reducible assumption
    | with_reducible refine bumpField_keeps (Sub.step hw rfl) ?_
    | with_reducible refine Keeps.foldl ?_ ?_
    | intro _
    | (extract_lets +onlyGivenNames z; refine Keeps.cut (W := W) (s0 := s0) (x := z) ?_ ?_; dsimp -zeta only [z]; rotate_left; clear_value z; rotate_right)
    | (extract_lets +onlyGivenNames z; clear_value z)
    | split

theorem windowFail_keeps (hw : Sub 0x80 W) {x s} (hs : Keeps W s0 s) : Keeps W s0 (windowFail x s) := by
  unfold windowFail
  repeat' first
    | with_reducible assumption
    | with_reducible refine State.modSrc_keeps (Sub.step hw rfl) ?_
    | with_reducible refine Keeps.foldl ?_ ?_
    | intro _
    | (extract_lets +onlyGivenNames z; refine Keeps.cut (W := W) (s0 := s0) (x := z) ?_ ?_; dsimp -zeta only [z]; rotate_left; clear_value z; rotate_right)
    | (extract_lets +onlyGivenNames z; clear_value z)
    | split

theorem healthEvt_keeps (hw : Sub 0x80806 W) {x test s} (hs : Keeps W s0 s) : Keeps W s0 (healthEvt x test s) := by
  unfold healthEvt
  repeat' first
    | with_reducible assumption
    | with_reducible refine postEvt_keeps (Sub.step hw rfl) ?_
    | with_reducible refine Keeps.foldl ?_ ?_
    | intro _
    | (extract_lets +onlyGivenNames z; refine Keeps.cut (W := W) (s0 := s0) (x := z) ?_ ?_; dsimp -zeta only [z]; rotate_left; clear_value z; rotate_right)
    | (extract_lets +onlyGivenNames z; clear_value z)
    | split

theorem healthFail_keeps (hw : Sub 0x83cde W) {x test s} (hs : Keeps W s0 s) : Keeps W s0 (healthFail x test s) := by
  unfold healthFail
  repeat' first
    | with_reducible assumption
    | with_reducible refine bumpField_keeps (Sub.step hw rfl) ?_
    | with_reducible refine windowFail_keeps (Sub.step hw rfl) ?_
    | with_reducible refine State.modSrc_keeps (Sub.step hw rfl) ?_
    | with_reducible refine healthEvt_keeps (Sub.step hw rfl) ?_
    | with_reducible refine maskFail_keeps (Sub.step hw rfl) ?_
    | with_reducible refine rngErr_keeps (Sub.step hw rfl) ?_
    | with_reducible refine moveKey_keeps (Sub.step hw rfl) ?_
    | with_reducible refine stopKey_keeps (Sub.step hw rfl) ?_
    | with_reducible refine Keeps.foldl ?_ ?_
    | intro _
    | (extract_lets +onlyGivenNames z; refine Keeps.cut (W := W) (s0 := s0) (x := z) ?_ ?_; dsimp -zeta only [z]; rotate_left; clear_value z; rotate_right)
    | (extract_lets +onlyGivenNames z; clear_value z)
    | split

theorem actFails_keeps (hw : Sub 0x83cde W) {x s} (hs : Keeps W s0 s) : Keeps W s0 (actFails x s) := by
  unfold actFails
  repeat' first
    | with_reducible assumption
    | with_reducible refine healthFail_keeps (Sub.step hw rfl) ?_
    | with_reducible refine State.modSrc_keeps (Sub.step hw rfl) ?_
    | with_reducible refine Keeps.foldl ?_ ?_
    | intro _
    | (extract_lets +onlyGivenNames z; refine Keeps.cut (W := W) (s0 := s0) (x := z) ?_ ?_; dsimp -zeta only [z]; rotate_left; clear_value z; rotate_right)
    | (extract_lets +onlyGivenNames z; clear_value z)
    | split

theorem healthRow_keeps (hw : Sub 0x83cde W) {s} (hs : Keeps W s0 s) : Keeps W s0 (healthRow s) := by
  unfold healthRow
  repeat' first
    | with_reducible assumption
    | with_reducible refine resumeBits_keeps (Sub.step hw rfl) ?_
    | with_reducible refine actFails_keeps (Sub.step hw rfl) ?_
    | with_reducible refine Keeps.foldl ?_ ?_
    | intro _
    | (extract_lets +onlyGivenNames z; refine Keeps.cut (W := W) (s0 := s0) (x := z) ?_ ?_; dsimp -zeta only [z]; rotate_left; clear_value z; rotate_right)
    | (extract_lets +onlyGivenNames z; clear_value z)
    | split

theorem writeEst_keeps (hw : Sub 0x80000 W) {x es s} (hs : Keeps W s0 s) : Keeps W s0 (writeEst x es s) := by
  unfold writeEst
  repeat' first
    | with_reducible assumption
    | with_reducible refine regSet_keeps (Sub.step hw rfl) ?_
    | with_reducible refine Keeps.foldl ?_ ?_
    | intro _
    | (extract_lets +onlyGivenNames z; refine Keeps.cut (W := W) (s0 := s0) (x := z) ?_ ?_; dsimp -zeta only [z]; rotate_left; clear_value z; rotate_right)
    | (extract_lets +onlyGivenNames z; clear_value z)
    | split

theorem credit_keeps (hw : Sub 0x80080 W) {x s} (hs : Keeps W s0 s) : Keeps W s0 (credit x s) := by
  unfold credit
  repeat' first
    | with_reducible assumption
    | with_reducible refine State.modSrc_keeps (Sub.step hw rfl) ?_
    | with_reducible refine bump_keeps (Sub.step hw rfl) ?_
    | with_reducible refine State.modRng_keeps (Sub.step hw rfl) ?_
    | with_reducible refine Keeps.foldl ?_ ?_
    | intro _
    | (extract_lets +onlyGivenNames z; refine Keeps.cut (W := W) (s0 := s0) (x := z) ?_ ?_; dsimp -zeta only [z]; rotate_left; clear_value z; rotate_right)
    | (extract_lets +onlyGivenNames z; clear_value z)
    | split

theorem windowRow_keeps (hw : Sub 0x83cde W) {x s} (hs : Keeps W s0 s) : Keeps W s0 (windowRow x s) := by
  unfold windowRow
  repeat' first
    | with_reducible assumption
    | with_reducible refine State.modSrc_keeps (Sub.step hw rfl) ?_
    | with_reducible refine writeEst_keeps (Sub.step hw rfl) ?_
    | with_reducible refine healthFail_keeps (Sub.step hw rfl) ?_
    | with_reducible refine windowFail_keeps (Sub.step hw rfl) ?_
    | with_reducible refine credit_keeps (Sub.step hw rfl) ?_
    | with_reducible refine resumeBits_keeps (Sub.step hw rfl) ?_
    | with_reducible refine Keeps.foldl ?_ ?_
    | intro _
    | (extract_lets +onlyGivenNames z; refine Keeps.cut (W := W) (s0 := s0) (x := z) ?_ ?_; dsimp -zeta only [z]; rotate_left; clear_value z; rotate_right)
    | (extract_lets +onlyGivenNames z; clear_value z)
    | split

theorem retireSource_keeps (hw : Sub 0xc3cfe W) {x s} (hs : Keeps W s0 s) : Keeps W s0 (retireSource x s) := by
  unfold retireSource
  repeat' first
    | with_reducible assumption
    | with_reducible refine State.modSrc_keeps (Sub.step hw rfl) ?_
    | with_reducible refine postEvt_keeps (Sub.step hw rfl) ?_
    | with_reducible refine rngErr_keeps (Sub.step hw rfl) ?_
    | with_reducible refine setDegraded_keeps (Sub.step hw rfl) ?_
    | with_reducible refine recordRetired_keeps (Sub.step hw rfl) ?_
    | with_reducible refine stopKey_keeps (Sub.step hw rfl) ?_
    | intro _
    | (extract_lets +onlyGivenNames z; refine Keeps.cut (W := W) (s0 := s0) (x := z) ?_ ?_; dsimp -zeta only [z]; rotate_left; clear_value z; rotate_right)
    | (extract_lets +onlyGivenNames z; clear_value z)
    | split
    | with_reducible refine Keeps.units (Sub.step hw rfl) ?_

theorem startupRow_keeps (hw : Sub 0xc3cfe W) {x s} (hs : Keeps W s0 s) : Keeps W s0 (startupRow x s) := by
  unfold startupRow
  repeat' first
    | with_reducible assumption
    | with_reducible refine State.modSrc_keeps (Sub.step hw rfl) ?_
    | with_reducible refine regMask_keeps (Sub.step hw rfl) ?_
    | with_reducible refine resumeBits_keeps (Sub.step hw rfl) ?_
    | with_reducible refine resumeKey_keeps (Sub.step hw rfl) ?_
    | with_reducible refine healthEvt_keeps (Sub.step hw rfl) ?_
    | with_reducible refine retireSource_keeps (Sub.step hw rfl) ?_
    | with_reducible refine Keeps.foldl ?_ ?_
    | intro _
    | (extract_lets +onlyGivenNames z; refine Keeps.cut (W := W) (s0 := s0) (x := z) ?_ ?_; dsimp -zeta only [z]; rotate_left; clear_value z; rotate_right)
    | (extract_lets +onlyGivenNames z; clear_value z)
    | split

theorem instantiateRow_keeps (hw : Sub 0x80886 W) {s} (hs : Keeps W s0 s) : Keeps W s0 (instantiateRow s) := by
  unfold instantiateRow
  repeat' first
    | with_reducible assumption
    | with_reducible refine resumeKey_keeps (Sub.step hw rfl) ?_
    | with_reducible refine serveWaiters_keeps (Sub.step hw rfl) ?_
    | with_reducible refine instantiate_keeps (Sub.step hw rfl) ?_
    | with_reducible refine Keeps.foldl ?_ ?_
    | intro _
    | (extract_lets +onlyGivenNames z; refine Keeps.cut (W := W) (s0 := s0) (x := z) ?_ ?_; dsimp -zeta only [z]; rotate_left; clear_value z; rotate_right)
    | (extract_lets +onlyGivenNames z; clear_value z)
    | split

theorem reseedRow_keeps (hw : Sub 0x80886 W) {s} (hs : Keeps W s0 s) : Keeps W s0 (reseedRow s) := by
  unfold reseedRow
  repeat' first
    | with_reducible assumption
    | with_reducible refine serveWaiters_keeps (Sub.step hw rfl) ?_
    | with_reducible refine reseed_keeps (Sub.step hw rfl) ?_
    | with_reducible refine Keeps.foldl ?_ ?_
    | intro _
    | (extract_lets +onlyGivenNames z; refine Keeps.cut (W := W) (s0 := s0) (x := z) ?_ ?_; dsimp -zeta only [z]; rotate_left; clear_value z; rotate_right)
    | (extract_lets +onlyGivenNames z; clear_value z)
    | split

theorem execMaskFallback_keeps (hw : Sub 0x80080 W) {s} (hs : Keeps W s0 s) : OutAll (Keeps W s0) (execMaskFallback s) := by
  unfold execMaskFallback
  repeat' first
    | with_reducible assumption
    | with_reducible refine onMain_keeps ?_ ?_
    | with_reducible refine regSet_keeps (Sub.step hw rfl) ?_
    | with_reducible refine State.modRng_keeps (Sub.step hw rfl) ?_
    | with_reducible refine OutAll.next ?_
    | with_reducible refine Keeps.foldl ?_ ?_
    | intro _
    | (extract_lets +onlyGivenNames z; refine Keeps.cut (W := W) (s0 := s0) (x := z) ?_ ?_; dsimp -zeta only [z]; rotate_left; clear_value z; rotate_right)
    | (extract_lets +onlyGivenNames z; clear_value z)
    | split

theorem execExpanderRekey_keeps (hw : Sub 0x80080 W) {core short s} (hs : Keeps W s0 s) : OutAll (Keeps W s0) (execExpanderRekey core short s) := by
  unfold execExpanderRekey
  repeat' first
    | with_reducible assumption
    | with_reducible refine onMain_keeps ?_ ?_
    | with_reducible refine bump_keeps (Sub.step hw rfl) ?_
    | with_reducible refine takeBlocks_keeps (Sub.step hw rfl) ?_
    | with_reducible refine State.modRng_keeps (Sub.step hw rfl) ?_
    | with_reducible refine PairAll.snd (P := Keeps W s0) (p := takeBlocks _ _ _) ?_
    | with_reducible refine PairAll.out (P := Keeps W s0) (by assumption) ?_
    | with_reducible refine OutAll.next ?_
    | with_reducible refine Keeps.foldl ?_ ?_
    | intro _
    | (extract_lets +onlyGivenNames z; refine Keeps.cut (W := W) (s0 := s0) (x := z) ?_ ?_; dsimp -zeta only [z]; rotate_left; clear_value z; rotate_right)
    | (extract_lets +onlyGivenNames z; clear_value z)
    | split

theorem execE7Req_keeps (hw : Sub 0x80080 W) {consumer s} (hs : Keeps W s0 s) : OutAll (Keeps W s0) (execE7Req consumer s) := by
  unfold execE7Req
  repeat' first
    | with_reducible assumption
    | with_reducible refine onMain_keeps ?_ ?_
    | with_reducible refine e7Serve_keeps (Sub.step hw rfl) ?_
    | with_reducible refine OutAll.next ?_
    | with_reducible refine Keeps.foldl ?_ ?_
    | intro _
    | (extract_lets +onlyGivenNames z; refine Keeps.cut (W := W) (s0 := s0) (x := z) ?_ ?_; dsimp -zeta only [z]; rotate_left; clear_value z; rotate_right)
    | (extract_lets +onlyGivenNames z; clear_value z)
    | split

theorem rngCfgWrite_keeps (hw : Sub 0x80886 W) {v s} (hs : Keeps W s0 s) : Keeps W s0 (rngCfgWrite v s) := by
  unfold rngCfgWrite
  repeat' first
    | with_reducible assumption
    | with_reducible refine regMask_keeps (Sub.step hw rfl) ?_
    | with_reducible refine moveKey_keeps (Sub.step hw rfl) ?_
    | with_reducible refine Keeps.foldl ?_ ?_
    | intro _
    | (extract_lets +onlyGivenNames z; refine Keeps.cut (W := W) (s0 := s0) (x := z) ?_ ?_; dsimp -zeta only [z]; rotate_left; clear_value z; rotate_right)
    | (extract_lets +onlyGivenNames z; clear_value z)
    | split

theorem rngMaskCfgWrite_keeps (hw : Sub 0x80000 W) {v s} (hs : Keeps W s0 s) : Keeps W s0 (rngMaskCfgWrite v s) := by
  unfold rngMaskCfgWrite
  repeat' first
    | with_reducible assumption
    | with_reducible refine regMask_keeps (Sub.step hw rfl) ?_
    | with_reducible refine Keeps.foldl ?_ ?_
    | intro _
    | (extract_lets +onlyGivenNames z; refine Keeps.cut (W := W) (s0 := s0) (x := z) ?_ ?_; dsimp -zeta only [z]; rotate_left; clear_value z; rotate_right)
    | (extract_lets +onlyGivenNames z; clear_value z)
    | split

theorem rngMaskFailsWrite_keeps (hw : Sub 0x80000 W) {v s} (hs : Keeps W s0 s) : Keeps W s0 (rngMaskFailsWrite v s) := by
  unfold rngMaskFailsWrite
  repeat' first
    | with_reducible assumption
    | with_reducible refine regSet_keeps (Sub.step hw rfl) ?_
    | with_reducible refine Keeps.foldl ?_ ?_
    | intro _
    | (extract_lets +onlyGivenNames z; refine Keeps.cut (W := W) (s0 := s0) (x := z) ?_ ?_; dsimp -zeta only [z]; rotate_left; clear_value z; rotate_right)
    | (extract_lets +onlyGivenNames z; clear_value z)
    | split

theorem rngErase_keeps (hw : Sub 0x80 W) {s} (hs : Keeps W s0 s) : Keeps W s0 (rngErase s) := by
  unfold rngErase
  repeat' first
    | with_reducible assumption
    | with_reducible refine State.modRng_keeps (Sub.step hw rfl) ?_
    | with_reducible refine Keeps.foldl ?_ ?_
    | intro _
    | (extract_lets +onlyGivenNames z; refine Keeps.cut (W := W) (s0 := s0) (x := z) ?_ ?_; dsimp -zeta only [z]; rotate_left; clear_value z; rotate_right)
    | (extract_lets +onlyGivenNames z; clear_value z)
    | split

theorem randomSpec_keeps  : OpSpec.All (Keeps W s0) (randomSpec ) := by
  intro c u hu
  exact Draws.all_ok hu

theorem randomBody_keeps (hw : Sub 0x83cde W) {c s} (hs : Keeps W s0 s) : Keeps W s0 (randomBody c s) := by
  unfold randomBody
  dsimp only
  repeat' first
    | with_reducible assumption
    | with_reducible refine drawKey_keeps (Sub.step hw rfl) ?_
    | with_reducible refine finish_keeps (Sub.step hw rfl) ?_
    | with_reducible refine cmdPut_keeps (Sub.step hw rfl) ?_
    | with_reducible refine finishSt_keeps (Sub.step hw rfl) ?_
    | with_reducible refine reseed_keeps (Sub.step hw rfl) ?_
    | with_reducible refine Draw.out_ok (P := Keeps W s0) (by assumption) ?_
    | with_reducible refine Draw.out_wait (P := Keeps W s0) (by assumption) ?_
    | with_reducible refine Draw.out_stopped (P := Keeps W s0) (by assumption) ?_
    | with_reducible refine Keeps.foldl ?_ ?_
    | intro _
    | (extract_lets +onlyGivenNames z; refine Keeps.cut (W := W) (s0 := s0) (x := z) ?_ ?_; dsimp -zeta only [z]; rotate_left; clear_value z; rotate_right)
    | (extract_lets +onlyGivenNames z; clear_value z)
    | split

theorem execRandomBytes_keeps (hw : Sub 0x183cde W) {id s} (hs : Keeps W s0 s) : OutAll (Keeps W s0) (execRandomBytes id s) := by
  unfold execRandomBytes
  repeat' first
    | with_reducible assumption
    | with_reducible refine runOp_keeps (Sub.step hw rfl) ?_ ?_ ?_
    | with_reducible refine randomSpec_keeps 
    | with_reducible refine randomBody_keeps (Sub.step hw rfl) ?_
    | ((with_reducible refine OpSpec.All.default ?_); exact rfl)
    | with_reducible refine OutAll.next ?_
    | with_reducible refine Keeps.foldl ?_ ?_
    | intro _
    | (extract_lets +onlyGivenNames z; refine Keeps.cut (W := W) (s0 := s0) (x := z) ?_ ?_; dsimp -zeta only [z]; rotate_left; clear_value z; rotate_right)
    | (extract_lets +onlyGivenNames z; clear_value z)
    | split

theorem execRngHealth_keeps (hw : Sub 0x183c5e W) {id s} (hs : Keeps W s0 s) : OutAll (Keeps W s0) (execRngHealth id s) := by
  unfold execRngHealth
  repeat' first
    | with_reducible assumption
    | with_reducible refine runOp_keeps (Sub.step hw rfl) ?_ ?_ ?_
    | with_reducible refine noKeys_keeps 
    | with_reducible refine finish_keeps (Sub.step hw rfl) ?_
    | ((with_reducible refine OpSpec.All.default ?_); exact rfl)
    | with_reducible refine OutAll.next ?_
    | with_reducible refine Keeps.foldl ?_ ?_
    | intro _
    | (extract_lets +onlyGivenNames z; refine Keeps.cut (W := W) (s0 := s0) (x := z) ?_ ?_; dsimp -zeta only [z]; rotate_left; clear_value z; rotate_right)
    | (extract_lets +onlyGivenNames z; clear_value z)
    | split

end Sys2Proof.Machine
end

