-- ==== Sys2Proof/Laws/FrameFlume.lean ====
section
/-! SUPPORT. The frame of every operation of Machine/Flume.lean: the parts it may write, and what it keeps (`Keeps`). -/
namespace Sys2Proof.Machine

set_option linter.tactic.unusedName false
variable {W : Nat} {s0 : State}

theorem flumeEnd_keeps (hw : Sub 0x83c5e W) {c f s} (hs : Keeps W s0 s) : Keeps W s0 (flumeEnd c f s) := by
  unfold flumeEnd
  repeat' first
    | with_reducible assumption
    | with_reducible refine bump64_keeps (Sub.step hw rfl) ?_
    | with_reducible refine finish_keeps (Sub.step hw rfl) ?_
    | with_reducible refine Keeps.foldl ?_ ?_
    | intro _
    | (extract_lets +onlyGivenNames z; refine Keeps.cut (W := W) (s0 := s0) (x := z) ?_ ?_; dsimp -zeta only [z]; rotate_left; clear_value z; rotate_right)
    | (extract_lets +onlyGivenNames z; clear_value z)
    | split

theorem flumeVerify_keeps (hw : Sub 0x83c5e W) {c ok s} (hs : Keeps W s0 s) : Keeps W s0 (flumeVerify c ok s) := by
  unfold flumeVerify
  repeat' first
    | with_reducible assumption
    | with_reducible refine flumeEnd_keeps (Sub.step hw rfl) ?_
    | with_reducible refine Keeps.foldl ?_ ?_
    | intro _
    | (extract_lets +onlyGivenNames z; refine Keeps.cut (W := W) (s0 := s0) (x := z) ?_ ?_; dsimp -zeta only [z]; rotate_left; clear_value z; rotate_right)
    | (extract_lets +onlyGivenNames z; clear_value z)
    | split

theorem withFill_keeps (hw : Sub 0x83cde W) {c fmt s k} (hs : Keeps W s0 s) (hk : ∀ a0 u, Keeps W s0 u → Keeps W s0 (k a0 u)) : Keeps W s0 (withFill c fmt s k) := by
  unfold withFill
  repeat' first
    | with_reducible assumption
    | with_reducible apply hk
    | with_reducible refine drawKey_keeps (Sub.step hw rfl) ?_
    | with_reducible refine cmdPut_keeps (Sub.step hw rfl) ?_
    | with_reducible refine bump_keeps (Sub.step hw rfl) ?_
    | with_reducible refine flumeEnd_keeps (Sub.step hw rfl) ?_
    | with_reducible refine Draw.out_ok (P := Keeps W s0) (by assumption) ?_
    | with_reducible refine Draw.out_wait (P := Keeps W s0) (by assumption) ?_
    | with_reducible refine Draw.out_stopped (P := Keeps W s0) (by assumption) ?_
    | with_reducible refine Keeps.foldl ?_ ?_
    | intro _
    | (extract_lets +onlyGivenNames z; refine Keeps.cut (W := W) (s0 := s0) (x := z) ?_ ?_; dsimp -zeta only [z]; rotate_left; clear_value z; rotate_right)
    | (extract_lets +onlyGivenNames z; clear_value z)
    | split

theorem xlateSpec_keeps  : OpSpec.All (Keeps W s0) (xlateSpec ) := by
  intro c u hu
  exact Draws.all_ok hu

theorem translate_keeps (hw : Sub 0x83cde W) {c fi fo algI algO keyI keyO pi po s} (hs : Keeps W s0 s) : Keeps W s0 (translate c fi fo algI algO keyI keyO pi po s) := by
  unfold translate
  repeat' first
    | with_reducible assumption
    | with_reducible refine flumeEnd_keeps (Sub.step hw rfl) ?_
    | with_reducible refine withFill_keeps (Sub.step hw rfl) ?_ ?_
    | with_reducible refine Keeps.foldl ?_ ?_
    | intro _
    | (extract_lets +onlyGivenNames z; refine Keeps.cut (W := W) (s0 := s0) (x := z) ?_ ?_; dsimp -zeta only [z]; rotate_left; clear_value z; rotate_right)
    | (extract_lets +onlyGivenNames z; clear_value z)
    | split

theorem execPinTranslate_keeps (hw : Sub 0x183cde W) {id s} (hs : Keeps W s0 s) : OutAll (Keeps W s0) (execPinTranslate id s) := by
  unfold execPinTranslate
  repeat' first
    | with_reducible assumption
    | with_reducible refine runOp_keeps (Sub.step hw rfl) ?_ ?_ ?_
    | with_reducible refine xlateSpec_keeps 
    | with_reducible refine translate_keeps (Sub.step hw rfl) ?_
    | ((with_reducible refine OpSpec.All.default ?_); exact rfl)
    | with_reducible refine OutAll.next ?_
    | with_reducible refine Keeps.foldl ?_ ?_
    | intro _
    | (extract_lets +onlyGivenNames z; refine Keeps.cut (W := W) (s0 := s0) (x := z) ?_ ?_; dsimp -zeta only [z]; rotate_left; clear_value z; rotate_right)
    | (extract_lets +onlyGivenNames z; clear_value z)
    | split

theorem pinChkSpec_keeps {kind}  : OpSpec.All (Keeps W s0) (pinChkSpec kind) := by
  intro c u hu
  exact Draws.all_ok hu

theorem execPinVerify_keeps (hw : Sub 0x183c5e W) {id s} (hs : Keeps W s0 s) : OutAll (Keeps W s0) (execPinVerify id s) := by
  unfold execPinVerify
  repeat' first
    | with_reducible assumption
    | with_reducible refine runOp_keeps (Sub.step hw rfl) ?_ ?_ ?_
    | with_reducible refine pinChkSpec_keeps 
    | with_reducible refine flumeEnd_keeps (Sub.step hw rfl) ?_
    | ((with_reducible refine OpSpec.All.default ?_); exact rfl)
    | with_reducible refine OutAll.next ?_
    | with_reducible refine Keeps.foldl ?_ ?_
    | intro _
    | (extract_lets +onlyGivenNames z; refine Keeps.cut (W := W) (s0 := s0) (x := z) ?_ ?_; dsimp -zeta only [z]; rotate_left; clear_value z; rotate_right)
    | (extract_lets +onlyGivenNames z; clear_value z)
    | split

theorem execPinOffsetGenerate_keeps (hw : Sub 0x183c5e W) {id s} (hs : Keeps W s0 s) : OutAll (Keeps W s0) (execPinOffsetGenerate id s) := by
  unfold execPinOffsetGenerate
  repeat' first
    | with_reducible assumption
    | with_reducible refine runOp_keeps (Sub.step hw rfl) ?_ ?_ ?_
    | with_reducible refine pinChkSpec_keeps 
    | with_reducible refine flumeEnd_keeps (Sub.step hw rfl) ?_
    | ((with_reducible refine OpSpec.All.default ?_); exact rfl)
    | with_reducible refine OutAll.next ?_
    | with_reducible refine Keeps.foldl ?_ ?_
    | intro _
    | (extract_lets +onlyGivenNames z; refine Keeps.cut (W := W) (s0 := s0) (x := z) ?_ ?_; dsimp -zeta only [z]; rotate_left; clear_value z; rotate_right)
    | (extract_lets +onlyGivenNames z; clear_value z)
    | split

theorem execPvvGenerate_keeps (hw : Sub 0x183c5e W) {id s} (hs : Keeps W s0 s) : OutAll (Keeps W s0) (execPvvGenerate id s) := by
  unfold execPvvGenerate
  repeat' first
    | with_reducible assumption
    | with_reducible refine runOp_keeps (Sub.step hw rfl) ?_ ?_ ?_
    | with_reducible refine pinChkSpec_keeps 
    | with_reducible refine flumeEnd_keeps (Sub.step hw rfl) ?_
    | ((with_reducible refine OpSpec.All.default ?_); exact rfl)
    | with_reducible refine OutAll.next ?_
    | with_reducible refine Keeps.foldl ?_ ?_
    | intro _
    | (extract_lets +onlyGivenNames z; refine Keeps.cut (W := W) (s0 := s0) (x := z) ?_ ?_; dsimp -zeta only [z]; rotate_left; clear_value z; rotate_right)
    | (extract_lets +onlyGivenNames z; clear_value z)
    | split

theorem emvSpec_keeps {gen}  : OpSpec.All (Keeps W s0) (emvSpec gen) := by
  intro c u hu
  exact Draws.all_ok hu

theorem emvBody_keeps (hw : Sub 0x83c5e W) {gen c s} (hs : Keeps W s0 s) : Keeps W s0 (emvBody gen c s) := by
  unfold emvBody
  repeat' first
    | with_reducible assumption
    | with_reducible refine flumeEnd_keeps (Sub.step hw rfl) ?_
    | with_reducible refine flumeVerify_keeps (Sub.step hw rfl) ?_
    | with_reducible refine Keeps.foldl ?_ ?_
    | intro _
    | (extract_lets +onlyGivenNames z; refine Keeps.cut (W := W) (s0 := s0) (x := z) ?_ ?_; dsimp -zeta only [z]; rotate_left; clear_value z; rotate_right)
    | (extract_lets +onlyGivenNames z; clear_value z)
    | split

theorem execArqcVerify_keeps (hw : Sub 0x183c5e W) {id s} (hs : Keeps W s0 s) : OutAll (Keeps W s0) (execArqcVerify id s) := by
  unfold execArqcVerify
  repeat' first
    | with_reducible assumption
    | with_reducible refine runOp_keeps (Sub.step hw rfl) ?_ ?_ ?_
    | with_reducible refine emvSpec_keeps 
    | with_reducible refine emvBody_keeps (Sub.step hw rfl) ?_
    | ((with_reducible refine OpSpec.All.default ?_); exact rfl)
    | with_reducible refine OutAll.next ?_
    | with_reducible refine Keeps.foldl ?_ ?_
    | intro _
    | (extract_lets +onlyGivenNames z; refine Keeps.cut (W := W) (s0 := s0) (x := z) ?_ ?_; dsimp -zeta only [z]; rotate_left; clear_value z; rotate_right)
    | (extract_lets +onlyGivenNames z; clear_value z)
    | split

theorem execArqcVerifyArpc_keeps (hw : Sub 0x183c5e W) {id s} (hs : Keeps W s0 s) : OutAll (Keeps W s0) (execArqcVerifyArpc id s) := by
  unfold execArqcVerifyArpc
  repeat' first
    | with_reducible assumption
    | with_reducible refine runOp_keeps (Sub.step hw rfl) ?_ ?_ ?_
    | with_reducible refine emvSpec_keeps 
    | with_reducible refine emvBody_keeps (Sub.step hw rfl) ?_
    | ((with_reducible refine OpSpec.All.default ?_); exact rfl)
    | with_reducible refine OutAll.next ?_
    | with_reducible refine Keeps.foldl ?_ ?_
    | intro _
    | (extract_lets +onlyGivenNames z; refine Keeps.cut (W := W) (s0 := s0) (x := z) ?_ ?_; dsimp -zeta only [z]; rotate_left; clear_value z; rotate_right)
    | (extract_lets +onlyGivenNames z; clear_value z)
    | split

theorem cvvSpec_keeps {src}  : OpSpec.All (Keeps W s0) (cvvSpec src) := by
  intro c u hu
  exact Draws.all_ok hu

theorem execCvvGenerate_keeps (hw : Sub 0x183c5e W) {id s} (hs : Keeps W s0 s) : OutAll (Keeps W s0) (execCvvGenerate id s) := by
  unfold execCvvGenerate
  repeat' first
    | with_reducible assumption
    | with_reducible refine runOp_keeps (Sub.step hw rfl) ?_ ?_ ?_
    | with_reducible refine cvvSpec_keeps 
    | with_reducible refine flumeEnd_keeps (Sub.step hw rfl) ?_
    | ((with_reducible refine OpSpec.All.default ?_); exact rfl)
    | with_reducible refine OutAll.next ?_
    | with_reducible refine Keeps.foldl ?_ ?_
    | intro _
    | (extract_lets +onlyGivenNames z; refine Keeps.cut (W := W) (s0 := s0) (x := z) ?_ ?_; dsimp -zeta only [z]; rotate_left; clear_value z; rotate_right)
    | (extract_lets +onlyGivenNames z; clear_value z)
    | split

theorem execCvvVerify_keeps (hw : Sub 0x183c5e W) {id s} (hs : Keeps W s0 s) : OutAll (Keeps W s0) (execCvvVerify id s) := by
  unfold execCvvVerify
  repeat' first
    | with_reducible assumption
    | with_reducible refine runOp_keeps (Sub.step hw rfl) ?_ ?_ ?_
    | with_reducible refine cvvSpec_keeps 
    | with_reducible refine flumeVerify_keeps (Sub.step hw rfl) ?_
    | ((with_reducible refine OpSpec.All.default ?_); exact rfl)
    | with_reducible refine OutAll.next ?_
    | with_reducible refine Keeps.foldl ?_ ?_
    | intro _
    | (extract_lets +onlyGivenNames z; refine Keeps.cut (W := W) (s0 := s0) (x := z) ?_ ?_; dsimp -zeta only [z]; rotate_left; clear_value z; rotate_right)
    | (extract_lets +onlyGivenNames z; clear_value z)
    | split

theorem dukptPinSpec_keeps  : OpSpec.All (Keeps W s0) (dukptPinSpec ) := by
  intro c u hu
  exact Draws.all_ok hu

theorem execDukptPinTranslate_keeps (hw : Sub 0x183cde W) {id s} (hs : Keeps W s0 s) : OutAll (Keeps W s0) (execDukptPinTranslate id s) := by
  unfold execDukptPinTranslate
  repeat' first
    | with_reducible assumption
    | with_reducible refine runOp_keeps (Sub.step hw rfl) ?_ ?_ ?_
    | with_reducible refine dukptPinSpec_keeps 
    | with_reducible refine translate_keeps (Sub.step hw rfl) ?_
    | ((with_reducible refine OpSpec.All.default ?_); exact rfl)
    | with_reducible refine OutAll.next ?_
    | with_reducible refine Keeps.foldl ?_ ?_
    | intro _
    | (extract_lets +onlyGivenNames z; refine Keeps.cut (W := W) (s0 := s0) (x := z) ?_ ?_; dsimp -zeta only [z]; rotate_left; clear_value z; rotate_right)
    | (extract_lets +onlyGivenNames z; clear_value z)
    | split

theorem dukptMacSpec_keeps  : OpSpec.All (Keeps W s0) (dukptMacSpec ) := by
  intro c u hu
  exact Draws.all_ok hu

theorem execDukptMacVerify_keeps (hw : Sub 0x183c5e W) {id s} (hs : Keeps W s0 s) : OutAll (Keeps W s0) (execDukptMacVerify id s) := by
  unfold execDukptMacVerify
  repeat' first
    | with_reducible assumption
    | with_reducible refine runOp_keeps (Sub.step hw rfl) ?_ ?_ ?_
    | with_reducible refine dukptMacSpec_keeps 
    | with_reducible refine flumeVerify_keeps (Sub.step hw rfl) ?_
    | ((with_reducible refine OpSpec.All.default ?_); exact rfl)
    | with_reducible refine OutAll.next ?_
    | with_reducible refine Keeps.foldl ?_ ?_
    | intro _
    | (extract_lets +onlyGivenNames z; refine Keeps.cut (W := W) (s0 := s0) (x := z) ?_ ?_; dsimp -zeta only [z]; rotate_left; clear_value z; rotate_right)
    | (extract_lets +onlyGivenNames z; clear_value z)
    | split

theorem retailSpec_keeps {verify}  : OpSpec.All (Keeps W s0) (retailSpec verify) := by
  intro c u hu
  exact Draws.all_ok hu

theorem execRetailMacGenerate_keeps (hw : Sub 0x183c5e W) {id s} (hs : Keeps W s0 s) : OutAll (Keeps W s0) (execRetailMacGenerate id s) := by
  unfold execRetailMacGenerate
  repeat' first
    | with_reducible assumption
    | with_reducible refine runOp_keeps (Sub.step hw rfl) ?_ ?_ ?_
    | with_reducible refine retailSpec_keeps 
    | with_reducible refine flumeEnd_keeps (Sub.step hw rfl) ?_
    | ((with_reducible refine OpSpec.All.default ?_); exact rfl)
    | with_reducible refine OutAll.next ?_
    | with_reducible refine Keeps.foldl ?_ ?_
    | intro _
    | (extract_lets +onlyGivenNames z; refine Keeps.cut (W := W) (s0 := s0) (x := z) ?_ ?_; dsimp -zeta only [z]; rotate_left; clear_value z; rotate_right)
    | (extract_lets +onlyGivenNames z; clear_value z)
    | split

theorem execRetailMacVerify_keeps (hw : Sub 0x183c5e W) {id s} (hs : Keeps W s0 s) : OutAll (Keeps W s0) (execRetailMacVerify id s) := by
  unfold execRetailMacVerify
  repeat' first
    | with_reducible assumption
    | with_reducible refine runOp_keeps (Sub.step hw rfl) ?_ ?_ ?_
    | with_reducible refine retailSpec_keeps 
    | with_reducible refine flumeVerify_keeps (Sub.step hw rfl) ?_
    | ((with_reducible refine OpSpec.All.default ?_); exact rfl)
    | with_reducible refine OutAll.next ?_
    | with_reducible refine Keeps.foldl ?_ ?_
    | intro _
    | (extract_lets +onlyGivenNames z; refine Keeps.cut (W := W) (s0 := s0) (x := z) ?_ ?_; dsimp -zeta only [z]; rotate_left; clear_value z; rotate_right)
    | (extract_lets +onlyGivenNames z; clear_value z)
    | split

theorem ff1Spec_keeps {dec}  : OpSpec.All (Keeps W s0) (ff1Spec dec) := by
  intro c u hu
  exact Draws.all_ok hu

theorem execFf1Tokenise_keeps (hw : Sub 0x183c5e W) {id s} (hs : Keeps W s0 s) : OutAll (Keeps W s0) (execFf1Tokenise id s) := by
  unfold execFf1Tokenise
  repeat' first
    | with_reducible assumption
    | with_reducible refine runOp_keeps (Sub.step hw rfl) ?_ ?_ ?_
    | with_reducible refine ff1Spec_keeps 
    | with_reducible refine flumeEnd_keeps (Sub.step hw rfl) ?_
    | ((with_reducible refine OpSpec.All.default ?_); exact rfl)
    | with_reducible refine OutAll.next ?_
    | with_reducible refine Keeps.foldl ?_ ?_
    | intro _
    | (extract_lets +onlyGivenNames z; refine Keeps.cut (W := W) (s0 := s0) (x := z) ?_ ?_; dsimp -zeta only [z]; rotate_left; clear_value z; rotate_right)
    | (extract_lets +onlyGivenNames z; clear_value z)
    | split

theorem execFf1Detokenise_keeps (hw : Sub 0x183c5e W) {id s} (hs : Keeps W s0 s) : OutAll (Keeps W s0) (execFf1Detokenise id s) := by
  unfold execFf1Detokenise
  repeat' first
    | with_reducible assumption
    | with_reducible refine runOp_keeps (Sub.step hw rfl) ?_ ?_ ?_
    | with_reducible refine ff1Spec_keeps 
    | with_reducible refine flumeEnd_keeps (Sub.step hw rfl) ?_
    | ((with_reducible refine OpSpec.All.default ?_); exact rfl)
    | with_reducible refine OutAll.next ?_
    | with_reducible refine Keeps.foldl ?_ ?_
    | intro _
    | (extract_lets +onlyGivenNames z; refine Keeps.cut (W := W) (s0 := s0) (x := z) ?_ ?_; dsimp -zeta only [z]; rotate_left; clear_value z; rotate_right)
    | (extract_lets +onlyGivenNames z; clear_value z)
    | split

theorem flumeErr_keeps (hw : Sub 0x80806 W) {n unit s} (hs : Keeps W s0 s) : Keeps W s0 (flumeErr n unit s) := by
  unfold flumeErr
  repeat' first
    | with_reducible assumption
    | with_reducible refine raiseErr_keeps (Sub.step hw rfl) ?_
    | with_reducible refine Keeps.foldl ?_ ?_
    | intro _
    | (extract_lets +onlyGivenNames z; refine Keeps.cut (W := W) (s0 := s0) (x := z) ?_ ?_; dsimp -zeta only [z]; rotate_left; clear_value z; rotate_right)
    | (extract_lets +onlyGivenNames z; clear_value z)
    | split

theorem flumeRetire_keeps (hw : Sub 0xc3c7e W) {u s} (hs : Keeps W s0 s) : Keeps W s0 (flumeRetire u s) := by
  unfold flumeRetire
  repeat' first
    | with_reducible assumption
    | with_reducible refine recordRetired_keeps (Sub.step hw rfl) ?_
    | with_reducible refine flumeErr_keeps (Sub.step hw rfl) ?_
    | with_reducible refine setDegraded_keeps (Sub.step hw rfl) ?_
    | with_reducible refine postEvt_keeps (Sub.step hw rfl) ?_
    | with_reducible refine finishSt_keeps (Sub.step hw rfl) ?_
    | with_reducible refine Keeps.foldl ?_ ?_
    | intro _
    | (extract_lets +onlyGivenNames z; refine Keeps.cut (W := W) (s0 := s0) (x := z) ?_ ?_; dsimp -zeta only [z]; rotate_left; clear_value z; rotate_right)
    | (extract_lets +onlyGivenNames z; clear_value z)
    | split
    | with_reducible refine Keeps.units (Sub.step hw rfl) ?_

theorem execFlumeUnitFault_keeps (hw : Sub 0xc3c7e W) {u s} (hs : Keeps W s0 s) : OutAll (Keeps W s0) (execFlumeUnitFault u s) := by
  unfold execFlumeUnitFault
  repeat' first
    | with_reducible assumption
    | with_reducible refine onMain_keeps ?_ ?_
    | with_reducible refine flumeErr_keeps (Sub.step hw rfl) ?_
    | with_reducible refine finishSt_keeps (Sub.step hw rfl) ?_
    | with_reducible refine flumeRetire_keeps (Sub.step hw rfl) ?_
    | with_reducible refine OutAll.next ?_
    | intro _
    | (extract_lets +onlyGivenNames z; refine Keeps.cut (W := W) (s0 := s0) (x := z) ?_ ?_; dsimp -zeta only [z]; rotate_left; clear_value z; rotate_right)
    | split

theorem flumeDrain_keeps (hw : Sub 0x80806 W) {s} (hs : Keeps W s0 s) : Keeps W s0 (flumeDrain s) := by
  unfold flumeDrain
  repeat' first
    | with_reducible assumption
    | with_reducible refine postEvt_keeps (Sub.step hw rfl) ?_
    | with_reducible refine regOr_keeps (Sub.step hw rfl) ?_
    | with_reducible refine State.modDev_keeps (Sub.step hw rfl) ?_
    | with_reducible refine Keeps.foldl ?_ ?_
    | intro _
    | (extract_lets +onlyGivenNames z; refine Keeps.cut (W := W) (s0 := s0) (x := z) ?_ ?_; dsimp -zeta only [z]; rotate_left; clear_value z; rotate_right)
    | (extract_lets +onlyGivenNames z; clear_value z)
    | split

theorem flumeCtlWrite_keeps (hw : Sub 0x83c5e W) {v s} (hs : Keeps W s0 s) : Keeps W s0 (flumeCtlWrite v s) := by
  unfold flumeCtlWrite
  repeat' first
    | with_reducible assumption
    | with_reducible refine regMask_keeps (Sub.step hw rfl) ?_
    | with_reducible refine State.modDev_keeps (Sub.step hw rfl) ?_
    | with_reducible refine finishAll_keeps (Sub.step hw rfl) ?_
    | with_reducible refine Keeps.foldl ?_ ?_
    | intro _
    | (extract_lets +onlyGivenNames z; refine Keeps.cut (W := W) (s0 := s0) (x := z) ?_ ?_; dsimp -zeta only [z]; rotate_left; clear_value z; rotate_right)
    | (extract_lets +onlyGivenNames z; clear_value z)
    | split

theorem execFlumeDrained_keeps (hw : Sub 0x80806 W) {s} (hs : Keeps W s0 s) : OutAll (Keeps W s0) (execFlumeDrained s) := by
  unfold execFlumeDrained
  repeat' first
    | with_reducible assumption
    | with_reducible refine onMain_keeps ?_ ?_
    | with_reducible refine flumeDrain_keeps (Sub.step hw rfl) ?_
    | with_reducible refine OutAll.next ?_
    | with_reducible refine Keeps.foldl ?_ ?_
    | intro _
    | (extract_lets +onlyGivenNames z; refine Keeps.cut (W := W) (s0 := s0) (x := z) ?_ ?_; dsimp -zeta only [z]; rotate_left; clear_value z; rotate_right)
    | (extract_lets +onlyGivenNames z; clear_value z)
    | split

theorem flumeErase_keeps (hw : Sub 0x83c5e W) {s} (hs : Keeps W s0 s) : Keeps W s0 (flumeErase s) := by
  unfold flumeErase
  repeat' first
    | with_reducible assumption
    | with_reducible refine finishAll_keeps (Sub.step hw rfl) ?_
    | with_reducible refine Keeps.foldl ?_ ?_
    | intro _
    | (extract_lets +onlyGivenNames z; refine Keeps.cut (W := W) (s0 := s0) (x := z) ?_ ?_; dsimp -zeta only [z]; rotate_left; clear_value z; rotate_right)
    | (extract_lets +onlyGivenNames z; clear_value z)
    | split

end Sys2Proof.Machine
end

