-- ==== Sys2Proof/Laws/FrameCipher.lean ====
section
/-! SUPPORT. The frame of every operation of Machine/Cipher.lean: the parts it may write, and what it keeps (`Keeps`). -/
namespace Sys2Proof.Machine

set_option linter.tactic.unusedName false
variable {W : Nat} {s0 : State}

theorem State.modCipher_keeps (hw : Sub 0x100 W) {s f} (hs : Keeps W s0 s) : Keeps W s0 (State.modCipher s f) := by
  unfold State.modCipher
  repeat' first
    | exact Keeps.cipher (Sub.step hw rfl) hs

theorem kslotSet_keeps (hw : Sub 0x100 W) {n k s} (hs : Keeps W s0 s) : Keeps W s0 (kslotSet n k s) := by
  unfold kslotSet
  repeat' first
    | with_reducible assumption
    | with_reducible refine State.modCipher_keeps (Sub.step hw rfl) ?_
    | with_reducible refine Keeps.foldl ?_ ?_
    | intro _
    | (extract_lets +onlyGivenNames z; refine Keeps.cut (W := W) (s0 := s0) (x := z) ?_ ?_; dsimp -zeta only [z]; rotate_left; clear_value z; rotate_right)
    | (extract_lets +onlyGivenNames z; clear_value z)
    | split

theorem drawNonce_keeps (hw : Sub 0x100 W) {s} (hs : Keeps W s0 s) : NonceAns.All (Keeps W s0) (drawNonce s) := by
  unfold drawNonce
  repeat' first
    | with_reducible assumption
    | with_reducible refine State.modCipher_keeps (Sub.step hw rfl) ?_
    | with_reducible refine NonceAns.all_ok ?_
    | exact NonceAns.all_wait
    | exact NonceAns.all_wrap
    | (extract_lets +onlyGivenNames z; clear_value z)
    | split

theorem nonceDraw_keeps (hw : Sub 0x83d5e W) {op c s} (hs : Keeps W s0 s) : Draws.All (Keeps W s0) (nonceDraw op c s) := by
  unfold nonceDraw
  repeat' first
    | with_reducible assumption
    | with_reducible refine drawNonce_keeps (Sub.step hw rfl) ?_
    | with_reducible refine cmdPut_keeps (Sub.step hw rfl) ?_
    | with_reducible refine bump_keeps (Sub.step hw rfl) ?_
    | with_reducible refine finishSt_keeps (Sub.step hw rfl) ?_
    | with_reducible refine NonceAns.out_ok (P := Keeps W s0) (by assumption) ?_
    | with_reducible refine Draws.all_ok ?_
    | with_reducible refine Draws.all_stay ?_
    | with_reducible refine Keeps.foldl ?_ ?_
    | intro _
    | (extract_lets +onlyGivenNames z; refine Keeps.cut (W := W) (s0 := s0) (x := z) ?_ ?_; dsimp -zeta only [z]; rotate_left; clear_value z; rotate_right)
    | (extract_lets +onlyGivenNames z; clear_value z)
    | split

theorem cipherSpec_keeps (hw : Sub 0x83d5e W) {op}  : OpSpec.All (Keeps W s0) (cipherSpec op) := by
  intro c u hu
  unfold cipherSpec
  repeat' first
    | with_reducible assumption
    | with_reducible refine noKeys_keeps 
    | with_reducible refine nonceDraw_keeps (Sub.step hw rfl) ?_
    | with_reducible refine Draws.out_ok (P := Keeps W s0) (by assumption) ?_
    | with_reducible refine Draws.out_stay (P := Keeps W s0) (by assumption) ?_
    | with_reducible refine Keeps.foldl ?_ ?_
    | intro _
    | split

theorem spendMasks_keeps (hw : Sub 0x80 W) {op c s} (hs : Keeps W s0 s) : Keeps W s0 (spendMasks op c s) := by
  unfold spendMasks
  repeat' first
    | with_reducible assumption
    | with_reducible refine takeMasks_keeps (Sub.step hw rfl) ?_
    | with_reducible refine Keeps.foldl ?_ ?_
    | intro _
    | (extract_lets +onlyGivenNames z; refine Keeps.cut (W := W) (s0 := s0) (x := z) ?_ ?_; dsimp -zeta only [z]; rotate_left; clear_value z; rotate_right)
    | (extract_lets +onlyGivenNames z; clear_value z)
    | split

theorem cipherEnd_keeps (hw : Sub 0x83cde W) {op c f s} (hs : Keeps W s0 s) : Keeps W s0 (cipherEnd op c f s) := by
  unfold cipherEnd
  repeat' first
    | with_reducible assumption
    | with_reducible refine spendMasks_keeps (Sub.step hw rfl) ?_
    | with_reducible refine bump64_keeps (Sub.step hw rfl) ?_
    | with_reducible refine finish_keeps (Sub.step hw rfl) ?_
    | with_reducible refine bump_keeps (Sub.step hw rfl) ?_
    | with_reducible refine Keeps.foldl ?_ ?_
    | intro _
    | (extract_lets +onlyGivenNames z; refine Keeps.cut (W := W) (s0 := s0) (x := z) ?_ ?_; dsimp -zeta only [z]; rotate_left; clear_value z; rotate_right)
    | (extract_lets +onlyGivenNames z; clear_value z)
    | split

theorem withIv_keeps (hw : Sub 0x83cde W) {c n s k} (hs : Keeps W s0 s) (hk : ∀ a0 u, Keeps W s0 u → Keeps W s0 (k a0 u)) : Keeps W s0 (withIv c n s k) := by
  unfold withIv
  repeat' first
    | with_reducible assumption
    | with_reducible apply hk
    | with_reducible refine drawKey_keeps (Sub.step hw rfl) ?_
    | with_reducible refine cmdPut_keeps (Sub.step hw rfl) ?_
    | with_reducible refine bump_keeps (Sub.step hw rfl) ?_
    | with_reducible refine finishSt_keeps (Sub.step hw rfl) ?_
    | with_reducible refine Draw.out_ok (P := Keeps W s0) (by assumption) ?_
    | with_reducible refine Draw.out_wait (P := Keeps W s0) (by assumption) ?_
    | with_reducible refine Draw.out_stopped (P := Keeps W s0) (by assumption) ?_
    | with_reducible refine Keeps.foldl ?_ ?_
    | intro _
    | (extract_lets +onlyGivenNames z; refine Keeps.cut (W := W) (s0 := s0) (x := z) ?_ ?_; dsimp -zeta only [z]; rotate_left; clear_value z; rotate_right)
    | (extract_lets +onlyGivenNames z; clear_value z)
    | split

theorem encryptBody_keeps (hw : Sub 0x83cde W) {c s} (hs : Keeps W s0 s) : Keeps W s0 (encryptBody c s) := by
  unfold encryptBody
  dsimp only
  repeat' first
    | with_reducible assumption
    | with_reducible refine cipherEnd_keeps (Sub.step hw rfl) ?_
    | with_reducible refine withIv_keeps (Sub.step hw rfl) ?_ ?_
    | with_reducible refine Keeps.foldl ?_ ?_
    | intro _
    | (extract_lets +onlyGivenNames z; refine Keeps.cut (W := W) (s0 := s0) (x := z) ?_ ?_; dsimp -zeta only [z]; rotate_left; clear_value z; rotate_right)
    | (extract_lets +onlyGivenNames z; clear_value z)
    | split

theorem decryptBody_keeps (hw : Sub 0x83cde W) {c s} (hs : Keeps W s0 s) : Keeps W s0 (decryptBody c s) := by
  unfold decryptBody
  dsimp only
  repeat' first
    | with_reducible assumption
    | with_reducible refine cipherEnd_keeps (Sub.step hw rfl) ?_
    | with_reducible refine Keeps.foldl ?_ ?_
    | intro _
    | (extract_lets +onlyGivenNames z; refine Keeps.cut (W := W) (s0 := s0) (x := z) ?_ ?_; dsimp -zeta only [z]; rotate_left; clear_value z; rotate_right)
    | (extract_lets +onlyGivenNames z; clear_value z)
    | split

theorem sealBody_keeps (hw : Sub 0x83cde W) {c s} (hs : Keeps W s0 s) : Keeps W s0 (sealBody c s) := by
  unfold sealBody
  repeat' first
    | with_reducible assumption
    | with_reducible refine cipherEnd_keeps (Sub.step hw rfl) ?_
    | with_reducible refine Keeps.foldl ?_ ?_
    | intro _
    | (extract_lets +onlyGivenNames z; refine Keeps.cut (W := W) (s0 := s0) (x := z) ?_ ?_; dsimp -zeta only [z]; rotate_left; clear_value z; rotate_right)
    | (extract_lets +onlyGivenNames z; clear_value z)
    | split

theorem openBody_keeps (hw : Sub 0x83cde W) {c s} (hs : Keeps W s0 s) : Keeps W s0 (openBody c s) := by
  unfold openBody
  repeat' first
    | with_reducible assumption
    | with_reducible refine cipherEnd_keeps (Sub.step hw rfl) ?_
    | with_reducible refine Keeps.foldl ?_ ?_
    | intro _
    | (extract_lets +onlyGivenNames z; refine Keeps.cut (W := W) (s0 := s0) (x := z) ?_ ?_; dsimp -zeta only [z]; rotate_left; clear_value z; rotate_right)
    | (extract_lets +onlyGivenNames z; clear_value z)
    | split

theorem macGenBody_keeps (hw : Sub 0x83cde W) {c s} (hs : Keeps W s0 s) : Keeps W s0 (macGenBody c s) := by
  unfold macGenBody
  repeat' first
    | with_reducible assumption
    | with_reducible refine cipherEnd_keeps (Sub.step hw rfl) ?_
    | with_reducible refine Keeps.foldl ?_ ?_
    | intro _
    | (extract_lets +onlyGivenNames z; refine Keeps.cut (W := W) (s0 := s0) (x := z) ?_ ?_; dsimp -zeta only [z]; rotate_left; clear_value z; rotate_right)
    | (extract_lets +onlyGivenNames z; clear_value z)
    | split

theorem macVerBody_keeps (hw : Sub 0x83cde W) {c s} (hs : Keeps W s0 s) : Keeps W s0 (macVerBody c s) := by
  unfold macVerBody
  repeat' first
    | with_reducible assumption
    | with_reducible refine cipherEnd_keeps (Sub.step hw rfl) ?_
    | with_reducible refine Keeps.foldl ?_ ?_
    | intro _
    | (extract_lets +onlyGivenNames z; refine Keeps.cut (W := W) (s0 := s0) (x := z) ?_ ?_; dsimp -zeta only [z]; rotate_left; clear_value z; rotate_right)
    | (extract_lets +onlyGivenNames z; clear_value z)
    | split

theorem wrapBody_keeps (hw : Sub 0x83cde W) {c s} (hs : Keeps W s0 s) : Keeps W s0 (wrapBody c s) := by
  unfold wrapBody
  repeat' first
    | with_reducible assumption
    | with_reducible refine cipherEnd_keeps (Sub.step hw rfl) ?_
    | with_reducible refine Keeps.foldl ?_ ?_
    | intro _
    | (extract_lets +onlyGivenNames z; refine Keeps.cut (W := W) (s0 := s0) (x := z) ?_ ?_; dsimp -zeta only [z]; rotate_left; clear_value z; rotate_right)
    | (extract_lets +onlyGivenNames z; clear_value z)
    | split

theorem unwrapBody_keeps (hw : Sub 0x83cde W) {c s} (hs : Keeps W s0 s) : Keeps W s0 (unwrapBody c s) := by
  unfold unwrapBody
  repeat' first
    | with_reducible assumption
    | with_reducible refine cipherEnd_keeps (Sub.step hw rfl) ?_
    | with_reducible refine Keeps.foldl ?_ ?_
    | intro _
    | (extract_lets +onlyGivenNames z; refine Keeps.cut (W := W) (s0 := s0) (x := z) ?_ ?_; dsimp -zeta only [z]; rotate_left; clear_value z; rotate_right)
    | (extract_lets +onlyGivenNames z; clear_value z)
    | split

theorem execSymEncrypt_keeps (hw : Sub 0x183dde W) {id s} (hs : Keeps W s0 s) : OutAll (Keeps W s0) (execSymEncrypt id s) := by
  unfold execSymEncrypt
  repeat' first
    | with_reducible assumption
    | with_reducible refine runOp_keeps (Sub.step hw rfl) ?_ ?_ ?_
    | with_reducible refine cipherSpec_keeps (Sub.step hw rfl) 
    | with_reducible refine encryptBody_keeps (Sub.step hw rfl) ?_
    | ((with_reducible refine OpSpec.All.default ?_); exact rfl)
    | with_reducible refine OutAll.next ?_
    | with_reducible refine Keeps.foldl ?_ ?_
    | intro _
    | (extract_lets +onlyGivenNames z; refine Keeps.cut (W := W) (s0 := s0) (x := z) ?_ ?_; dsimp -zeta only [z]; rotate_left; clear_value z; rotate_right)
    | (extract_lets +onlyGivenNames z; clear_value z)
    | split

theorem execSymDecrypt_keeps (hw : Sub 0x183dde W) {id s} (hs : Keeps W s0 s) : OutAll (Keeps W s0) (execSymDecrypt id s) := by
  unfold execSymDecrypt
  repeat' first
    | with_reducible assumption
    | with_reducible refine runOp_keeps (Sub.step hw rfl) ?_ ?_ ?_
    | with_reducible refine cipherSpec_keeps (Sub.step hw rfl) 
    | with_reducible refine decryptBody_keeps (Sub.step hw rfl) ?_
    | ((with_reducible refine OpSpec.All.default ?_); exact rfl)
    | with_reducible refine OutAll.next ?_
    | with_reducible refine Keeps.foldl ?_ ?_
    | intro _
    | (extract_lets +onlyGivenNames z; refine Keeps.cut (W := W) (s0 := s0) (x := z) ?_ ?_; dsimp -zeta only [z]; rotate_left; clear_value z; rotate_right)
    | (extract_lets +onlyGivenNames z; clear_value z)
    | split

theorem execAeadSeal_keeps (hw : Sub 0x183dde W) {id s} (hs : Keeps W s0 s) : OutAll (Keeps W s0) (execAeadSeal id s) := by
  unfold execAeadSeal
  repeat' first
    | with_reducible assumption
    | with_reducible refine runOp_keeps (Sub.step hw rfl) ?_ ?_ ?_
    | with_reducible refine cipherSpec_keeps (Sub.step hw rfl) 
    | with_reducible refine sealBody_keeps (Sub.step hw rfl) ?_
    | ((with_reducible refine OpSpec.All.default ?_); exact rfl)
    | with_reducible refine OutAll.next ?_
    | with_reducible refine Keeps.foldl ?_ ?_
    | intro _
    | (extract_lets +onlyGivenNames z; refine Keeps.cut (W := W) (s0 := s0) (x := z) ?_ ?_; dsimp -zeta only [z]; rotate_left; clear_value z; rotate_right)
    | (extract_lets +onlyGivenNames z; clear_value z)
    | split

theorem execAeadOpen_keeps (hw : Sub 0x183dde W) {id s} (hs : Keeps W s0 s) : OutAll (Keeps W s0) (execAeadOpen id s) := by
  unfold execAeadOpen
  repeat' first
    | with_reducible assumption
    | with_reducible refine runOp_keeps (Sub.step hw rfl) ?_ ?_ ?_
    | with_reducible refine cipherSpec_keeps (Sub.step hw rfl) 
    | with_reducible refine openBody_keeps (Sub.step hw rfl) ?_
    | ((with_reducible refine OpSpec.All.default ?_); exact rfl)
    | with_reducible refine OutAll.next ?_
    | with_reducible refine Keeps.foldl ?_ ?_
    | intro _
    | (extract_lets +onlyGivenNames z; refine Keeps.cut (W := W) (s0 := s0) (x := z) ?_ ?_; dsimp -zeta only [z]; rotate_left; clear_value z; rotate_right)
    | (extract_lets +onlyGivenNames z; clear_value z)
    | split

theorem execMacGenerate_keeps (hw : Sub 0x183dde W) {id s} (hs : Keeps W s0 s) : OutAll (Keeps W s0) (execMacGenerate id s) := by
  unfold execMacGenerate
  repeat' first
    | with_reducible assumption
    | with_reducible refine runOp_keeps (Sub.step hw rfl) ?_ ?_ ?_
    | with_reducible refine cipherSpec_keeps (Sub.step hw rfl) 
    | with_reducible refine macGenBody_keeps (Sub.step hw rfl) ?_
    | ((with_reducible refine OpSpec.All.default ?_); exact rfl)
    | with_reducible refine OutAll.next ?_
    | with_reducible refine Keeps.foldl ?_ ?_
    | intro _
    | (extract_lets +onlyGivenNames z; refine Keeps.cut (W := W) (s0 := s0) (x := z) ?_ ?_; dsimp -zeta only [z]; rotate_left; clear_value z; rotate_right)
    | (extract_lets +onlyGivenNames z; clear_value z)
    | split

theorem execMacVerify_keeps (hw : Sub 0x183dde W) {id s} (hs : Keeps W s0 s) : OutAll (Keeps W s0) (execMacVerify id s) := by
  unfold execMacVerify
  repeat' first
    | with_reducible assumption
    | with_reducible refine runOp_keeps (Sub.step hw rfl) ?_ ?_ ?_
    | with_reducible refine cipherSpec_keeps (Sub.step hw rfl) 
    | with_reducible refine macVerBody_keeps (Sub.step hw rfl) ?_
    | ((with_reducible refine OpSpec.All.default ?_); exact rfl)
    | with_reducible refine OutAll.next ?_
    | with_reducible refine Keeps.foldl ?_ ?_
    | intro _
    | (extract_lets +onlyGivenNames z; refine Keeps.cut (W := W) (s0 := s0) (x := z) ?_ ?_; dsimp -zeta only [z]; rotate_left; clear_value z; rotate_right)
    | (extract_lets +onlyGivenNames z; clear_value z)
    | split

theorem execSymWrap_keeps (hw : Sub 0x183dde W) {id s} (hs : Keeps W s0 s) : OutAll (Keeps W s0) (execSymWrap id s) := by
  unfold execSymWrap
  repeat' first
    | with_reducible assumption
    | with_reducible refine runOp_keeps (Sub.step hw rfl) ?_ ?_ ?_
    | with_reducible refine cipherSpec_keeps (Sub.step hw rfl) 
    | with_reducible refine wrapBody_keeps (Sub.step hw rfl) ?_
    | ((with_reducible refine OpSpec.All.default ?_); exact rfl)
    | with_reducible refine OutAll.next ?_
    | with_reducible refine Keeps.foldl ?_ ?_
    | intro _
    | (extract_lets +onlyGivenNames z; refine Keeps.cut (W := W) (s0 := s0) (x := z) ?_ ?_; dsimp -zeta only [z]; rotate_left; clear_value z; rotate_right)
    | (extract_lets +onlyGivenNames z; clear_value z)
    | split

theorem execSymUnwrap_keeps (hw : Sub 0x183dde W) {id s} (hs : Keeps W s0 s) : OutAll (Keeps W s0) (execSymUnwrap id s) := by
  unfold execSymUnwrap
  repeat' first
    | with_reducible assumption
    | with_reducible refine runOp_keeps (Sub.step hw rfl) ?_ ?_ ?_
    | with_reducible refine cipherSpec_keeps (Sub.step hw rfl) 
    | with_reducible refine unwrapBody_keeps (Sub.step hw rfl) ?_
    | ((with_reducible refine OpSpec.All.default ?_); exact rfl)
    | with_reducible refine OutAll.next ?_
    | with_reducible refine Keeps.foldl ?_ ?_
    | intro _
    | (extract_lets +onlyGivenNames z; refine Keeps.cut (W := W) (s0 := s0) (x := z) ?_ ?_; dsimp -zeta only [z]; rotate_left; clear_value z; rotate_right)
    | (extract_lets +onlyGivenNames z; clear_value z)
    | split

theorem cipherErr_keeps (hw : Sub 0x80806 W) {n lane s} (hs : Keeps W s0 s) : Keeps W s0 (cipherErr n lane s) := by
  unfold cipherErr
  repeat' first
    | with_reducible assumption
    | with_reducible refine raiseErr_keeps (Sub.step hw rfl) ?_
    | with_reducible refine Keeps.foldl ?_ ?_
    | intro _
    | (extract_lets +onlyGivenNames z; refine Keeps.cut (W := W) (s0 := s0) (x := z) ?_ ?_; dsimp -zeta only [z]; rotate_left; clear_value z; rotate_right)
    | (extract_lets +onlyGivenNames z; clear_value z)
    | split

theorem kdataWrite_keeps (hw : Sub 0x100 W) {r i v s} (hs : Keeps W s0 s) : Keeps W s0 (kdataWrite r i v s) := by
  unfold kdataWrite
  repeat' first
    | with_reducible assumption
    | with_reducible refine State.modCipher_keeps (Sub.step hw rfl) ?_
    | with_reducible refine Keeps.foldl ?_ ?_
    | intro _
    | (extract_lets +onlyGivenNames z; refine Keeps.cut (W := W) (s0 := s0) (x := z) ?_ ?_; dsimp -zeta only [z]; rotate_left; clear_value z; rotate_right)
    | (extract_lets +onlyGivenNames z; clear_value z)
    | split

theorem stagingClear_keeps (hw : Sub 0x100 W) {r s} (hs : Keeps W s0 s) : Keeps W s0 (stagingClear r s) := by
  unfold stagingClear
  repeat' first
    | with_reducible assumption
    | with_reducible refine State.modCipher_keeps (Sub.step hw rfl) ?_
    | with_reducible refine Keeps.foldl ?_ ?_
    | intro _
    | (extract_lets +onlyGivenNames z; refine Keeps.cut (W := W) (s0 := s0) (x := z) ?_ ?_; dsimp -zeta only [z]; rotate_left; clear_value z; rotate_right)
    | (extract_lets +onlyGivenNames z; clear_value z)
    | split

theorem kslotLoad_keeps (hw : Sub 0x80906 W) {r v s} (hs : Keeps W s0 s) : Keeps W s0 (kslotLoad r v s) := by
  unfold kslotLoad
  repeat' first
    | with_reducible assumption
    | with_reducible refine cipherErr_keeps (Sub.step hw rfl) ?_
    | with_reducible refine kslotSet_keeps (Sub.step hw rfl) ?_
    | with_reducible refine Keeps.foldl ?_ ?_
    | intro _
    | (extract_lets +onlyGivenNames z; refine Keeps.cut (W := W) (s0 := s0) (x := z) ?_ ?_; dsimp -zeta only [z]; rotate_left; clear_value z; rotate_right)
    | (extract_lets +onlyGivenNames z; clear_value z)
    | split

theorem kslotCmdWrite_keeps (hw : Sub 0x80906 W) {r v s} (hs : Keeps W s0 s) : Keeps W s0 (kslotCmdWrite r v s) := by
  unfold kslotCmdWrite
  repeat' first
    | with_reducible assumption
    | with_reducible refine regMask_keeps (Sub.step hw rfl) ?_
    | with_reducible refine stagingClear_keeps (Sub.step hw rfl) ?_
    | with_reducible refine kslotLoad_keeps (Sub.step hw rfl) ?_
    | with_reducible refine kslotSet_keeps (Sub.step hw rfl) ?_
    | with_reducible refine Keeps.foldl ?_ ?_
    | intro _
    | (extract_lets +onlyGivenNames z; refine Keeps.cut (W := W) (s0 := s0) (x := z) ?_ ?_; dsimp -zeta only [z]; rotate_left; clear_value z; rotate_right)
    | (extract_lets +onlyGivenNames z; clear_value z)
    | split

theorem laneLost_keeps (hw : Sub 0x183c5e W) {n c s} (hs : Keeps W s0 s) : Keeps W s0 (laneLost n c s) := by
  unfold laneLost
  repeat' first
    | with_reducible assumption
    | with_reducible refine cipherErr_keeps (Sub.step hw rfl) ?_
    | with_reducible refine drawBytes_keeps (Sub.step hw rfl) ?_
    | with_reducible refine finishSt_keeps (Sub.step hw rfl) ?_
    | with_reducible refine putDst_keeps (Sub.step hw rfl) ?_
    | with_reducible refine PairAll.snd (P := Keeps W s0) (p := drawBytes _ _) ?_
    | with_reducible refine PairAll.out (P := Keeps W s0) (by assumption) ?_
    | with_reducible refine Keeps.foldl ?_ ?_
    | intro _
    | (extract_lets +onlyGivenNames z; refine Keeps.cut (W := W) (s0 := s0) (x := z) ?_ ?_; dsimp -zeta only [z]; rotate_left; clear_value z; rotate_right)
    | (extract_lets +onlyGivenNames z; clear_value z)
    | split

theorem laneMove_keeps (hw : Sub 0x8 W) {n c s} (hs : Keeps W s0 s) : Keeps W s0 (laneMove n c s) := by
  unfold laneMove
  repeat' first
    | with_reducible assumption
    | with_reducible refine cmdPut_keeps (Sub.step hw rfl) ?_
    | with_reducible refine Keeps.foldl ?_ ?_
    | intro _
    | (extract_lets +onlyGivenNames z; refine Keeps.cut (W := W) (s0 := s0) (x := z) ?_ ?_; dsimp -zeta only [z]; rotate_left; clear_value z; rotate_right)
    | (extract_lets +onlyGivenNames z; clear_value z)
    | split

theorem laneRetire_keeps (hw : Sub 0x1c3c7e W) {n s} (hs : Keeps W s0 s) : Keeps W s0 (laneRetire n s) := by
  unfold laneRetire
  repeat' first
    | with_reducible assumption
    | with_reducible refine cipherErr_keeps (Sub.step hw rfl) ?_
    | with_reducible refine setDegraded_keeps (Sub.step hw rfl) ?_
    | with_reducible refine recordRetired_keeps (Sub.step hw rfl) ?_
    | with_reducible refine postEvt_keeps (Sub.step hw rfl) ?_
    | with_reducible refine laneLost_keeps (Sub.step hw rfl) ?_
    | with_reducible refine laneMove_keeps (Sub.step hw rfl) ?_
    | with_reducible refine Keeps.foldl ?_ ?_
    | intro _
    | (extract_lets +onlyGivenNames z; refine Keeps.cut (W := W) (s0 := s0) (x := z) ?_ ?_; dsimp -zeta only [z]; rotate_left; clear_value z; rotate_right)
    | (extract_lets +onlyGivenNames z; clear_value z)
    | split
    | with_reducible refine Keeps.units (Sub.step hw rfl) ?_

theorem execLaneFault_keeps (hw : Sub 0x1c3c7e W) {n s} (hs : Keeps W s0 s) : OutAll (Keeps W s0) (execLaneFault n s) := by
  unfold execLaneFault
  repeat' first
    | with_reducible assumption
    | with_reducible refine onMain_keeps ?_ ?_
    | with_reducible refine laneRetire_keeps (Sub.step hw rfl) ?_
    | with_reducible refine OutAll.next ?_
    | intro _

theorem cipherCtlWrite_keeps (hw : Sub 0x83c5e W) {v s} (hs : Keeps W s0 s) : Keeps W s0 (cipherCtlWrite v s) := by
  unfold cipherCtlWrite
  repeat' first
    | with_reducible assumption
    | with_reducible refine regMask_keeps (Sub.step hw rfl) ?_
    | with_reducible refine finishAll_keeps (Sub.step hw rfl) ?_
    | with_reducible refine State.modDev_keeps (Sub.step hw rfl) ?_
    | with_reducible refine Keeps.foldl ?_ ?_
    | intro _
    | (extract_lets +onlyGivenNames z; refine Keeps.cut (W := W) (s0 := s0) (x := z) ?_ ?_; dsimp -zeta only [z]; rotate_left; clear_value z; rotate_right)
    | (extract_lets +onlyGivenNames z; clear_value z)
    | split

theorem execCipherDrained_keeps (hw : Sub 0x80806 W) {s} (hs : Keeps W s0 s) : OutAll (Keeps W s0) (execCipherDrained s) := by
  unfold execCipherDrained
  repeat' first
    | with_reducible assumption
    | with_reducible refine onMain_keeps ?_ ?_
    | with_reducible refine postEvt_keeps (Sub.step hw rfl) ?_
    | with_reducible refine regOr_keeps (Sub.step hw rfl) ?_
    | with_reducible refine State.modDev_keeps (Sub.step hw rfl) ?_
    | with_reducible refine OutAll.next ?_
    | with_reducible refine Keeps.foldl ?_ ?_
    | intro _
    | (extract_lets +onlyGivenNames z; refine Keeps.cut (W := W) (s0 := s0) (x := z) ?_ ?_; dsimp -zeta only [z]; rotate_left; clear_value z; rotate_right)
    | (extract_lets +onlyGivenNames z; clear_value z)
    | split

theorem cipherErase_keeps (hw : Sub 0x83d5e W) {s} (hs : Keeps W s0 s) : Keeps W s0 (cipherErase s) := by
  unfold cipherErase
  repeat' first
    | with_reducible assumption
    | with_reducible refine finishAll_keeps (Sub.step hw rfl) ?_
    | with_reducible refine cipherErr_keeps (Sub.step hw rfl) ?_
    | with_reducible refine State.modCipher_keeps (Sub.step hw rfl) ?_
    | with_reducible refine emptyKSlots_keeps (Sub.step hw rfl) ?_
    | with_reducible refine Keeps.foldl ?_ ?_
    | intro _
    | (extract_lets +onlyGivenNames z; refine Keeps.cut (W := W) (s0 := s0) (x := z) ?_ ?_; dsimp -zeta only [z]; rotate_left; clear_value z; rotate_right)
    | (extract_lets +onlyGivenNames z; clear_value z)
    | split

end Sys2Proof.Machine
end

