-- ==== Sys2Proof/Laws/FrameMesh.lean ====
section
/-! SUPPORT. The frame of every operation of Machine/Mesh.lean: the parts it may write, and what it keeps (`Keeps`). -/
namespace Sys2Proof.Machine

set_option linter.tactic.unusedName false
variable {W : Nat} {s0 : State}

theorem cisternErr_keeps (hw : Sub 0x80806 W) {n port s} (hs : Keeps W s0 s) : Keeps W s0 (cisternErr n port s) := by
  unfold cisternErr
  repeat' first
    | with_reducible assumption
    | with_reducible refine raiseErr_keeps (Sub.step hw rfl) ?_
    | with_reducible refine Keeps.foldl ?_ ?_
    | intro _
    | (extract_lets +onlyGivenNames z; refine Keeps.cut (W := W) (s0 := s0) (x := z) ?_ ?_; dsimp -zeta only [z]; rotate_left; clear_value z; rotate_right)
    | (extract_lets +onlyGivenNames z; clear_value z)
    | split

theorem meshMod_keeps (hw : Sub 0x1000 W) {n f s} (hs : Keeps W s0 s) : Keeps W s0 (meshMod n f s) := by
  unfold meshMod
  repeat' first
    | with_reducible assumption
    | with_reducible refine State.modCistern_keeps (Sub.step hw rfl) ?_
    | with_reducible refine Keeps.foldl ?_ ?_
    | intro _
    | (extract_lets +onlyGivenNames z; refine Keeps.cut (W := W) (s0 := s0) (x := z) ?_ ?_; dsimp -zeta only [z]; rotate_left; clear_value z; rotate_right)
    | (extract_lets +onlyGivenNames z; clear_value z)
    | split

theorem txPumpFuel_keeps (hw : Sub 0x81000 W) {n x1 s} (hs : Keeps W s0 s) : Keeps W s0 (txPumpFuel n x1 s) := by
  induction x1 generalizing n s with
  | zero =>
   rw [txPumpFuel]
   exact hs
  | succ m ih =>
   rw [txPumpFuel]
   repeat' first
    | with_reducible refine ih ?_
    | with_reducible assumption
    | with_reducible refine bump64_keeps (Sub.step hw rfl) ?_
    | with_reducible refine meshMod_keeps (Sub.step hw rfl) ?_
    | with_reducible refine Keeps.foldl ?_ ?_
    | intro _
    | (extract_lets +onlyGivenNames z; refine Keeps.cut (W := W) (s0 := s0) (x := z) ?_ ?_; dsimp -zeta only [z]; rotate_left; clear_value z; rotate_right)
    | (extract_lets +onlyGivenNames z; clear_value z)
    | split

theorem retrain_keeps (hw : Sub 0x1000 W) {n s} (hs : Keeps W s0 s) : Keeps W s0 (retrain n s) := by
  unfold retrain
  repeat' first
    | with_reducible assumption
    | with_reducible refine meshMod_keeps (Sub.step hw rfl) ?_
    | with_reducible refine Keeps.foldl ?_ ?_
    | intro _
    | (extract_lets +onlyGivenNames z; refine Keeps.cut (W := W) (s0 := s0) (x := z) ?_ ?_; dsimp -zeta only [z]; rotate_left; clear_value z; rotate_right)
    | (extract_lets +onlyGivenNames z; clear_value z)
    | split

theorem resendFrames_keeps (hw : Sub 0x81000 W) {n s} (hs : Keeps W s0 s) : Keeps W s0 (resendFrames n s) := by
  unfold resendFrames
  repeat' first
    | with_reducible assumption
    | with_reducible refine retrain_keeps (Sub.step hw rfl) ?_
    | with_reducible refine bump_keeps (Sub.step hw rfl) ?_
    | with_reducible refine meshMod_keeps (Sub.step hw rfl) ?_
    | with_reducible refine Keeps.foldl ?_ ?_
    | intro _
    | (extract_lets +onlyGivenNames z; refine Keeps.cut (W := W) (s0 := s0) (x := z) ?_ ?_; dsimp -zeta only [z]; rotate_left; clear_value z; rotate_right)
    | (extract_lets +onlyGivenNames z; clear_value z)
    | split

theorem portSend_keeps (hw : Sub 0x81000 W) {n f s} (hs : Keeps W s0 s) : Keeps W s0 (portSend n f s) := by
  unfold portSend
  repeat' first
    | with_reducible assumption
    | with_reducible refine meshMod_keeps (Sub.step hw rfl) ?_
    | with_reducible refine txPumpFuel_keeps (Sub.step hw rfl) ?_
    | with_reducible refine Keeps.foldl ?_ ?_
    | intro _
    | (extract_lets +onlyGivenNames z; refine Keeps.cut (W := W) (s0 := s0) (x := z) ?_ ?_; dsimp -zeta only [z]; rotate_left; clear_value z; rotate_right)
    | (extract_lets +onlyGivenNames z; clear_value z)
    | split

theorem neighbourSend_keeps (hw : Sub 0x81000 W) {n m s} (hs : Keeps W s0 s) : Keeps W s0 (neighbourSend n m s) := by
  unfold neighbourSend
  repeat' first
    | with_reducible assumption
    | with_reducible refine portSend_keeps (Sub.step hw rfl) ?_
    | with_reducible refine Keeps.foldl ?_ ?_
    | intro _
    | (extract_lets +onlyGivenNames z; refine Keeps.cut (W := W) (s0 := s0) (x := z) ?_ ?_; dsimp -zeta only [z]; rotate_left; clear_value z; rotate_right)
    | (extract_lets +onlyGivenNames z; clear_value z)
    | split

theorem flood_keeps (hw : Sub 0x81000 W) {but m s} (hs : Keeps W s0 s) : Keeps W s0 (flood but m s) := by
  unfold flood
  repeat' first
    | with_reducible assumption
    | with_reducible refine neighbourSend_keeps (Sub.step hw rfl) ?_
    | with_reducible refine Keeps.foldl ?_ ?_
    | intro _
    | (extract_lets +onlyGivenNames z; refine Keeps.cut (W := W) (s0 := s0) (x := z) ?_ ?_; dsimp -zeta only [z]; rotate_left; clear_value z; rotate_right)
    | (extract_lets +onlyGivenNames z; clear_value z)
    | split

theorem memberMod_keeps (hw : Sub 0x1000 W) {d f s} (hs : Keeps W s0 s) : Keeps W s0 (memberMod d f s) := by
  unfold memberMod
  repeat' first
    | with_reducible assumption
    | with_reducible refine State.modCistern_keeps (Sub.step hw rfl) ?_
    | with_reducible refine Keeps.foldl ?_ ?_
    | intro _
    | (extract_lets +onlyGivenNames z; refine Keeps.cut (W := W) (s0 := s0) (x := z) ?_ ?_; dsimp -zeta only [z]; rotate_left; clear_value z; rotate_right)
    | (extract_lets +onlyGivenNames z; clear_value z)
    | split

theorem forward_keeps (hw : Sub 0x81000 W) {f s} (hs : Keeps W s0 s) : Keeps W s0 (forward f s) := by
  unfold forward
  repeat' first
    | with_reducible assumption
    | with_reducible refine portSend_keeps (Sub.step hw rfl) ?_
    | with_reducible refine Keeps.foldl ?_ ?_
    | intro _
    | (extract_lets +onlyGivenNames z; refine Keeps.cut (W := W) (s0 := s0) (x := z) ?_ ?_; dsimp -zeta only [z]; rotate_left; clear_value z; rotate_right)
    | (extract_lets +onlyGivenNames z; clear_value z)
    | split

theorem learnMember_keeps (hw : Sub 0x1000 W) {d inc s} (hs : Keeps W s0 s) : Keeps W s0 (learnMember d inc s) := by
  unfold learnMember
  repeat' first
    | with_reducible assumption
    | with_reducible refine memberMod_keeps (Sub.step hw rfl) ?_
    | with_reducible refine State.modCistern_keeps (Sub.step hw rfl) ?_
    | with_reducible refine Keeps.foldl ?_ ?_
    | intro _
    | (extract_lets +onlyGivenNames z; refine Keeps.cut (W := W) (s0 := s0) (x := z) ?_ ?_; dsimp -zeta only [z]; rotate_left; clear_value z; rotate_right)
    | (extract_lets +onlyGivenNames z; clear_value z)
    | split

theorem routeSend_keeps (hw : Sub 0x81000 W) {d m s} (hs : Keeps W s0 s) : Keeps W s0 (routeSend d m s) := by
  unfold routeSend
  repeat' first
    | with_reducible assumption
    | with_reducible refine portSend_keeps (Sub.step hw rfl) ?_
    | with_reducible refine Keeps.foldl ?_ ?_
    | intro _
    | (extract_lets +onlyGivenNames z; refine Keeps.cut (W := W) (s0 := s0) (x := z) ?_ ?_; dsimp -zeta only [z]; rotate_left; clear_value z; rotate_right)
    | (extract_lets +onlyGivenNames z; clear_value z)
    | split

theorem syncDone_keeps (hw : Sub 0x81806 W) {s} (hs : Keeps W s0 s) : Keeps W s0 (syncDone s) := by
  unfold syncDone
  repeat' first
    | with_reducible assumption
    | with_reducible refine State.modCistern_keeps (Sub.step hw rfl) ?_
    | with_reducible refine postEvt_keeps (Sub.step hw rfl) ?_
    | with_reducible refine Keeps.foldl ?_ ?_
    | intro _
    | (extract_lets +onlyGivenNames z; refine Keeps.cut (W := W) (s0 := s0) (x := z) ?_ ?_; dsimp -zeta only [z]; rotate_left; clear_value z; rotate_right)
    | (extract_lets +onlyGivenNames z; clear_value z)
    | split

theorem sendStmt_keeps (hw : Sub 0x81000 W) {st s} (hs : Keeps W s0 s) : Keeps W s0 (sendStmt st s) := by
  unfold sendStmt
  repeat' first
    | with_reducible assumption
    | with_reducible refine routeSend_keeps (Sub.step hw rfl) ?_
    | with_reducible refine Keeps.foldl ?_ ?_
    | intro _
    | (extract_lets +onlyGivenNames z; refine Keeps.cut (W := W) (s0 := s0) (x := z) ?_ ?_; dsimp -zeta only [z]; rotate_left; clear_value z; rotate_right)
    | (extract_lets +onlyGivenNames z; clear_value z)
    | split

theorem resendStmts_keeps (hw : Sub 0x81000 W) {s} (hs : Keeps W s0 s) : Keeps W s0 (resendStmts s) := by
  unfold resendStmts
  repeat' first
    | with_reducible assumption
    | with_reducible refine sendStmt_keeps (Sub.step hw rfl) ?_
    | with_reducible refine Keeps.foldl ?_ ?_
    | intro _
    | (extract_lets +onlyGivenNames z; refine Keeps.cut (W := W) (s0 := s0) (x := z) ?_ ?_; dsimp -zeta only [z]; rotate_left; clear_value z; rotate_right)
    | (extract_lets +onlyGivenNames z; clear_value z)
    | split

theorem endUnreachable_keeps (hw : Sub 0x83c5e W) {s} (hs : Keeps W s0 s) : Keeps W s0 (endUnreachable s) := by
  unfold endUnreachable
  dsimp only
  repeat' first
    | with_reducible assumption
    | with_reducible refine finishSt_keeps (Sub.step hw rfl) ?_
    | with_reducible refine State.modCistern_keeps (Sub.step hw rfl) ?_
    | with_reducible refine Keeps.foldl ?_ ?_
    | intro _
    | (extract_lets +onlyGivenNames z; refine Keeps.cut (W := W) (s0 := s0) (x := z) ?_ ?_; dsimp -zeta only [z]; rotate_left; clear_value z; rotate_right)
    | (extract_lets +onlyGivenNames z; clear_value z)
    | split

theorem reroute_keeps (hw : Sub 0x83c5e W) {s} (hs : Keeps W s0 s) : Keeps W s0 (reroute s) := by
  unfold reroute
  repeat' first
    | with_reducible assumption
    | with_reducible refine memberMod_keeps (Sub.step hw rfl) ?_
    | with_reducible refine postEvt_keeps (Sub.step hw rfl) ?_
    | with_reducible refine cisternErr_keeps (Sub.step hw rfl) ?_
    | with_reducible refine resendStmts_keeps (Sub.step hw rfl) ?_
    | with_reducible refine endUnreachable_keeps (Sub.step hw rfl) ?_
    | with_reducible refine syncDone_keeps (Sub.step hw rfl) ?_
    | with_reducible refine Keeps.foldl ?_ ?_
    | intro _
    | (extract_lets +onlyGivenNames z; refine Keeps.cut (W := W) (s0 := s0) (x := z) ?_ ?_; dsimp -zeta only [z]; rotate_left; clear_value z; rotate_right)
    | (extract_lets +onlyGivenNames z; clear_value z)
    | split

theorem adjChanged_keeps (hw : Sub 0x83c5e W) {s} (hs : Keeps W s0 s) : Keeps W s0 (adjChanged s) := by
  unfold adjChanged
  repeat' first
    | with_reducible assumption
    | with_reducible refine State.modCistern_keeps (Sub.step hw rfl) ?_
    | with_reducible refine reroute_keeps (Sub.step hw rfl) ?_
    | with_reducible refine flood_keeps (Sub.step hw rfl) ?_
    | with_reducible refine Keeps.foldl ?_ ?_
    | intro _
    | (extract_lets +onlyGivenNames z; refine Keeps.cut (W := W) (s0 := s0) (x := z) ?_ ?_; dsimp -zeta only [z]; rotate_left; clear_value z; rotate_right)
    | (extract_lets +onlyGivenNames z; clear_value z)
    | split

theorem closeSession_keeps (hw : Sub 0x83c5e W) {n s} (hs : Keeps W s0 s) : Keeps W s0 (closeSession n s) := by
  unfold closeSession
  repeat' first
    | with_reducible assumption
    | with_reducible refine meshMod_keeps (Sub.step hw rfl) ?_
    | with_reducible refine adjChanged_keeps (Sub.step hw rfl) ?_
    | with_reducible refine Keeps.foldl ?_ ?_
    | intro _
    | (extract_lets +onlyGivenNames z; refine Keeps.cut (W := W) (s0 := s0) (x := z) ?_ ?_; dsimp -zeta only [z]; rotate_left; clear_value z; rotate_right)
    | (extract_lets +onlyGivenNames z; clear_value z)
    | split

theorem meshDown_keeps (hw : Sub 0x83c5e W) {n s} (hs : Keeps W s0 s) : Keeps W s0 (meshDown n s) := by
  unfold meshDown
  repeat' first
    | with_reducible assumption
    | with_reducible refine meshMod_keeps (Sub.step hw rfl) ?_
    | with_reducible refine cisternErr_keeps (Sub.step hw rfl) ?_
    | with_reducible refine closeSession_keeps (Sub.step hw rfl) ?_
    | with_reducible refine routeSend_keeps (Sub.step hw rfl) ?_
    | with_reducible refine forward_keeps (Sub.step hw rfl) ?_
    | with_reducible refine Keeps.foldl ?_ ?_
    | intro _
    | (extract_lets +onlyGivenNames z; refine Keeps.cut (W := W) (s0 := s0) (x := z) ?_ ?_; dsimp -zeta only [z]; rotate_left; clear_value z; rotate_right)
    | (extract_lets +onlyGivenNames z; clear_value z)
    | split

theorem broadcast_keeps (hw : Sub 0x81000 W) {b s} (hs : Keeps W s0 s) : Keeps W s0 (broadcast b s) := by
  unfold broadcast
  repeat' first
    | with_reducible assumption
    | with_reducible refine State.modCistern_keeps (Sub.step hw rfl) ?_
    | with_reducible refine flood_keeps (Sub.step hw rfl) ?_
    | with_reducible refine Keeps.foldl ?_ ?_
    | intro _
    | (extract_lets +onlyGivenNames z; refine Keeps.cut (W := W) (s0 := s0) (x := z) ?_ ?_; dsimp -zeta only [z]; rotate_left; clear_value z; rotate_right)
    | (extract_lets +onlyGivenNames z; clear_value z)
    | split

theorem domainChange_keeps (hw : Sub 0x81806 W) {i s} (hs : Keeps W s0 s) : Keeps W s0 (domainChange i s) := by
  unfold domainChange
  repeat' first
    | with_reducible assumption
    | with_reducible refine broadcast_keeps (Sub.step hw rfl) ?_
    | with_reducible refine syncDone_keeps (Sub.step hw rfl) ?_
    | with_reducible refine State.modCistern_keeps (Sub.step hw rfl) ?_
    | with_reducible refine Keeps.foldl ?_ ?_
    | intro _
    | (extract_lets +onlyGivenNames z; refine Keeps.cut (W := W) (s0 := s0) (x := z) ?_ ?_; dsimp -zeta only [z]; rotate_left; clear_value z; rotate_right)
    | (extract_lets +onlyGivenNames z; clear_value z)
    | split

end Sys2Proof.Machine
end

