-- ==== Sys2Proof/Laws/FrameKeyCmds.lean ====
section
/-! SUPPORT. The frame of every operation of Machine/KeyCmds.lean: the parts it may write, and what it keeps (`Keeps`). -/
namespace Sys2Proof.Machine

set_option linter.tactic.unusedName false
variable {W : Nat} {s0 : State}

theorem allocMore_keeps (hw : Sub 0x83c5e W) {c x1 s k} (hs : Keeps W s0 s) (hk : ∀ a0 u, Keeps W s0 u → Keeps W s0 (k a0 u)) : Keeps W s0 (allocMore c x1 s k) := by
  induction x1 generalizing c s with
  | nil =>
   rw [allocMore]
   first
    | exact hs
    | exact hk _ _ hs
  | cons x xs ih =>
   rw [allocMore]
   repeat' first
    | with_reducible refine ih ?_
    | with_reducible assumption
    | with_reducible apply hk
    | with_reducible refine allocate_keeps (Sub.step hw rfl) ?_
    | with_reducible refine finishSt_keeps (Sub.step hw rfl) ?_
    | with_reducible refine cmdPut_keeps (Sub.step hw rfl) ?_
    | with_reducible refine AllocAns.out_ok (P := Keeps W s0) (by assumption) ?_
    | with_reducible refine AllocAns.out_floor (P := Keeps W s0) (by assumption) ?_
    | with_reducible refine Keeps.foldl ?_ ?_
    | intro _
    | (extract_lets +onlyGivenNames z; refine Keeps.cut (W := W) (s0 := s0) (x := z) ?_ ?_; dsimp -zeta only [z]; rotate_left; clear_value z; rotate_right)
    | (extract_lets +onlyGivenNames z; clear_value z)
    | split

theorem withSlots_keeps (hw : Sub 0x83c5e W) {c rs s k} (hs : Keeps W s0 s) (hk : ∀ a0 u, Keeps W s0 u → Keeps W s0 (k a0 u)) : Keeps W s0 (withSlots c rs s k) := by
  unfold withSlots
  repeat' first
    | with_reducible assumption
    | with_reducible apply hk
    | with_reducible refine raiseFloor_keeps (Sub.step hw rfl) ?_
    | with_reducible refine allocMore_keeps (Sub.step hw rfl) ?_ ?_
    | with_reducible refine cmdPut_keeps (Sub.step hw rfl) ?_
    | with_reducible refine Keeps.foldl ?_ ?_
    | intro _
    | (extract_lets +onlyGivenNames z; refine Keeps.cut (W := W) (s0 := s0) (x := z) ?_ ?_; dsimp -zeta only [z]; rotate_left; clear_value z; rotate_right)
    | (extract_lets +onlyGivenNames z; clear_value z)
    | split

theorem commitNew_keeps (hw : Sub 0x183c5e W) {c rs e s} (hs : Keeps W s0 s) : Keeps W s0 (commitNew c rs e s) := by
  unfold commitNew
  repeat' first
    | with_reducible assumption
    | with_reducible refine finishSt_keeps (Sub.step hw rfl) ?_
    | with_reducible refine commitKey_keeps (Sub.step hw rfl) ?_
    | with_reducible refine finish_keeps (Sub.step hw rfl) ?_
    | with_reducible refine domainChange_keeps (Sub.step hw rfl) ?_
    | with_reducible refine Keeps.foldl ?_ ?_
    | intro _
    | (extract_lets +onlyGivenNames z; refine Keeps.cut (W := W) (s0 := s0) (x := z) ?_ ?_; dsimp -zeta only [z]; rotate_left; clear_value z; rotate_right)
    | (extract_lets +onlyGivenNames z; clear_value z)
    | split

theorem keyGenSpec_keeps  : OpSpec.All (Keeps W s0) (keyGenSpec ) := by
  intro c u hu
  exact Draws.all_ok hu

theorem withNewKey_keeps (hw : Sub 0x83c5e W) {c alg rnd s k} (hs : Keeps W s0 s) (hk : ∀ a0 u, Keeps W s0 u → Keeps W s0 (k a0 u)) : Keeps W s0 (withNewKey c alg rnd s k) := by
  unfold withNewKey
  repeat' first
    | with_reducible assumption
    | with_reducible apply hk
    | with_reducible refine finishSt_keeps (Sub.step hw rfl) ?_
    | with_reducible refine Keeps.foldl ?_ ?_
    | intro _
    | (extract_lets +onlyGivenNames z; refine Keeps.cut (W := W) (s0 := s0) (x := z) ?_ ?_; dsimp -zeta only [z]; rotate_left; clear_value z; rotate_right)
    | (extract_lets +onlyGivenNames z; clear_value z)
    | split

theorem keyGenBody_keeps (hw : Sub 0x183cde W) {c s} (hs : Keeps W s0 s) : Keeps W s0 (keyGenBody c s) := by
  unfold keyGenBody
  repeat' first
    | with_reducible assumption
    | with_reducible refine withSlots_keeps (Sub.step hw rfl) ?_ ?_
    | with_reducible refine withKey_keeps (Sub.step hw rfl) ?_ ?_
    | with_reducible refine withNewKey_keeps (Sub.step hw rfl) ?_ ?_
    | with_reducible refine commitNew_keeps (Sub.step hw rfl) ?_
    | with_reducible refine Keeps.foldl ?_ ?_
    | intro _
    | (extract_lets +onlyGivenNames z; refine Keeps.cut (W := W) (s0 := s0) (x := z) ?_ ?_; dsimp -zeta only [z]; rotate_left; clear_value z; rotate_right)
    | (extract_lets +onlyGivenNames z; clear_value z)
    | split

theorem execKeyGenerate_keeps (hw : Sub 0x183cde W) {id s} (hs : Keeps W s0 s) : OutAll (Keeps W s0) (execKeyGenerate id s) := by
  unfold execKeyGenerate
  repeat' first
    | with_reducible assumption
    | with_reducible refine runOp_keeps (Sub.step hw rfl) ?_ ?_ ?_
    | with_reducible refine keyGenSpec_keeps 
    | with_reducible refine keyGenBody_keeps (Sub.step hw rfl) ?_
    | ((with_reducible refine OpSpec.All.default ?_); exact rfl)
    | with_reducible refine OutAll.next ?_
    | with_reducible refine Keeps.foldl ?_ ?_
    | intro _
    | (extract_lets +onlyGivenNames z; refine Keeps.cut (W := W) (s0 := s0) (x := z) ?_ ?_; dsimp -zeta only [z]; rotate_left; clear_value z; rotate_right)
    | (extract_lets +onlyGivenNames z; clear_value z)
    | split

theorem keyImportSpec_keeps  : OpSpec.All (Keeps W s0) (keyImportSpec ) := by
  intro c u hu
  exact Draws.all_ok hu

theorem keyImportBody_keeps (hw : Sub 0x183c5e W) {c s} (hs : Keeps W s0 s) : Keeps W s0 (keyImportBody c s) := by
  unfold keyImportBody
  repeat' first
    | with_reducible assumption
    | with_reducible refine finishSt_keeps (Sub.step hw rfl) ?_
    | with_reducible refine withSlots_keeps (Sub.step hw rfl) ?_ ?_
    | with_reducible refine commitNew_keeps (Sub.step hw rfl) ?_
    | with_reducible refine Keeps.foldl ?_ ?_
    | intro _
    | (extract_lets +onlyGivenNames z; refine Keeps.cut (W := W) (s0 := s0) (x := z) ?_ ?_; dsimp -zeta only [z]; rotate_left; clear_value z; rotate_right)
    | (extract_lets +onlyGivenNames z; clear_value z)
    | split

theorem execKeyImport_keeps (hw : Sub 0x183c5e W) {id s} (hs : Keeps W s0 s) : OutAll (Keeps W s0) (execKeyImport id s) := by
  unfold execKeyImport
  repeat' first
    | with_reducible assumption
    | with_reducible refine runOp_keeps (Sub.step hw rfl) ?_ ?_ ?_
    | with_reducible refine keyImportSpec_keeps 
    | with_reducible refine keyImportBody_keeps (Sub.step hw rfl) ?_
    | ((with_reducible refine OpSpec.All.default ?_); exact rfl)
    | with_reducible refine OutAll.next ?_
    | with_reducible refine Keeps.foldl ?_ ?_
    | intro _
    | (extract_lets +onlyGivenNames z; refine Keeps.cut (W := W) (s0 := s0) (x := z) ?_ ?_; dsimp -zeta only [z]; rotate_left; clear_value z; rotate_right)
    | (extract_lets +onlyGivenNames z; clear_value z)
    | split

theorem keyExportSpec_keeps  : OpSpec.All (Keeps W s0) (keyExportSpec ) := by
  intro c u hu
  exact Draws.all_ok hu

theorem execKeyExport_keeps (hw : Sub 0x183c5e W) {id s} (hs : Keeps W s0 s) : OutAll (Keeps W s0) (execKeyExport id s) := by
  unfold execKeyExport
  repeat' first
    | with_reducible assumption
    | with_reducible refine runOp_keeps (Sub.step hw rfl) ?_ ?_ ?_
    | with_reducible refine keyExportSpec_keeps 
    | with_reducible refine drawBytes_keeps (Sub.step hw rfl) ?_
    | with_reducible refine finish_keeps (Sub.step hw rfl) ?_
    | with_reducible refine PairAll.snd (P := Keeps W s0) (p := drawBytes _ _) ?_
    | with_reducible refine PairAll.out (P := Keeps W s0) (by assumption) ?_
    | ((with_reducible refine OpSpec.All.default ?_); exact rfl)
    | with_reducible refine OutAll.next ?_
    | with_reducible refine Keeps.foldl ?_ ?_
    | intro _
    | (extract_lets +onlyGivenNames z; refine Keeps.cut (W := W) (s0 := s0) (x := z) ?_ ?_; dsimp -zeta only [z]; rotate_left; clear_value z; rotate_right)
    | (extract_lets +onlyGivenNames z; clear_value z)
    | split

theorem keyDeriveSpec_keeps  : OpSpec.All (Keeps W s0) (keyDeriveSpec ) := by
  intro c u hu
  exact Draws.all_ok hu

theorem execKeyDerive_keeps (hw : Sub 0x183c5e W) {id s} (hs : Keeps W s0 s) : OutAll (Keeps W s0) (execKeyDerive id s) := by
  unfold execKeyDerive
  repeat' first
    | with_reducible assumption
    | with_reducible refine runOp_keeps (Sub.step hw rfl) ?_ ?_ ?_
    | with_reducible refine keyDeriveSpec_keeps 
    | with_reducible refine withSlots_keeps (Sub.step hw rfl) ?_ ?_
    | with_reducible refine commitNew_keeps (Sub.step hw rfl) ?_
    | ((with_reducible refine OpSpec.All.default ?_); exact rfl)
    | with_reducible refine OutAll.next ?_
    | with_reducible refine Keeps.foldl ?_ ?_
    | intro _
    | (extract_lets +onlyGivenNames z; refine Keeps.cut (W := W) (s0 := s0) (x := z) ?_ ?_; dsimp -zeta only [z]; rotate_left; clear_value z; rotate_right)
    | (extract_lets +onlyGivenNames z; clear_value z)
    | split

theorem subjectSpec_keeps  : OpSpec.All (Keeps W s0) (subjectSpec ) := by
  intro c u hu
  exact Draws.all_ok hu

theorem deleteKey_keeps (hw : Sub 0x82846 W) {i s} (hs : Keeps W s0 s) : Keeps W s0 (deleteKey i s) := by
  unfold deleteKey
  repeat' first
    | with_reducible assumption
    | with_reducible refine cullet_keeps (Sub.step hw rfl) ?_
    | with_reducible refine archive_keeps (Sub.step hw rfl) ?_
    | with_reducible refine Keeps.foldl ?_ ?_
    | intro _
    | (extract_lets +onlyGivenNames z; refine Keeps.cut (W := W) (s0 := s0) (x := z) ?_ ?_; dsimp -zeta only [z]; rotate_left; clear_value z; rotate_right)
    | (extract_lets +onlyGivenNames z; clear_value z)
    | split

theorem execKeyDelete_keeps (hw : Sub 0x183c5e W) {id s} (hs : Keeps W s0 s) : OutAll (Keeps W s0) (execKeyDelete id s) := by
  unfold execKeyDelete
  repeat' first
    | with_reducible assumption
    | with_reducible refine runOp_keeps (Sub.step hw rfl) ?_ ?_ ?_
    | with_reducible refine subjectSpec_keeps 
    | with_reducible refine finishSt_keeps (Sub.step hw rfl) ?_
    | with_reducible refine deleteKey_keeps (Sub.step hw rfl) ?_
    | with_reducible refine domainChange_keeps (Sub.step hw rfl) ?_
    | ((with_reducible refine OpSpec.All.default ?_); exact rfl)
    | with_reducible refine OutAll.next ?_
    | with_reducible refine Keeps.foldl ?_ ?_
    | intro _
    | (extract_lets +onlyGivenNames z; refine Keeps.cut (W := W) (s0 := s0) (x := z) ?_ ?_; dsimp -zeta only [z]; rotate_left; clear_value z; rotate_right)
    | (extract_lets +onlyGivenNames z; clear_value z)
    | split

theorem execKeyQuery_keeps (hw : Sub 0x183c5e W) {id s} (hs : Keeps W s0 s) : OutAll (Keeps W s0) (execKeyQuery id s) := by
  unfold execKeyQuery
  repeat' first
    | with_reducible assumption
    | with_reducible refine runOp_keeps (Sub.step hw rfl) ?_ ?_ ?_
    | with_reducible refine subjectSpec_keeps 
    | with_reducible refine finish_keeps (Sub.step hw rfl) ?_
    | with_reducible refine finishSt_keeps (Sub.step hw rfl) ?_
    | ((with_reducible refine OpSpec.All.default ?_); exact rfl)
    | with_reducible refine OutAll.next ?_
    | with_reducible refine Keeps.foldl ?_ ?_
    | intro _
    | (extract_lets +onlyGivenNames z; refine Keeps.cut (W := W) (s0 := s0) (x := z) ?_ ?_; dsimp -zeta only [z]; rotate_left; clear_value z; rotate_right)
    | (extract_lets +onlyGivenNames z; clear_value z)
    | split

theorem keySetPolicyBody_keeps (hw : Sub 0x183c5e W) {c s} (hs : Keeps W s0 s) : Keeps W s0 (keySetPolicyBody c s) := by
  unfold keySetPolicyBody
  repeat' first
    | with_reducible assumption
    | with_reducible refine finishSt_keeps (Sub.step hw rfl) ?_
    | with_reducible refine storeRec_keeps (Sub.step hw rfl) ?_
    | with_reducible refine archive_keeps (Sub.step hw rfl) ?_
    | with_reducible refine domainChange_keeps (Sub.step hw rfl) ?_
    | with_reducible refine Keeps.foldl ?_ ?_
    | intro _
    | (extract_lets +onlyGivenNames z; refine Keeps.cut (W := W) (s0 := s0) (x := z) ?_ ?_; dsimp -zeta only [z]; rotate_left; clear_value z; rotate_right)
    | (extract_lets +onlyGivenNames z; clear_value z)
    | split

theorem execKeySetPolicy_keeps (hw : Sub 0x183c5e W) {id s} (hs : Keeps W s0 s) : OutAll (Keeps W s0) (execKeySetPolicy id s) := by
  unfold execKeySetPolicy
  repeat' first
    | with_reducible assumption
    | with_reducible refine runOp_keeps (Sub.step hw rfl) ?_ ?_ ?_
    | with_reducible refine subjectSpec_keeps 
    | with_reducible refine keySetPolicyBody_keeps (Sub.step hw rfl) ?_
    | ((with_reducible refine OpSpec.All.default ?_); exact rfl)
    | with_reducible refine OutAll.next ?_
    | with_reducible refine Keeps.foldl ?_ ?_
    | intro _
    | (extract_lets +onlyGivenNames z; refine Keeps.cut (W := W) (s0 := s0) (x := z) ?_ ?_; dsimp -zeta only [z]; rotate_left; clear_value z; rotate_right)
    | (extract_lets +onlyGivenNames z; clear_value z)
    | split

theorem keytabErr_keeps (hw : Sub 0x80806 W) {n region s} (hs : Keeps W s0 s) : Keeps W s0 (keytabErr n region s) := by
  unfold keytabErr
  repeat' first
    | with_reducible assumption
    | with_reducible refine raiseErr_keeps (Sub.step hw rfl) ?_
    | with_reducible refine Keeps.foldl ?_ ?_
    | intro _
    | (extract_lets +onlyGivenNames z; refine Keeps.cut (W := W) (s0 := s0) (x := z) ?_ ?_; dsimp -zeta only [z]; rotate_left; clear_value z; rotate_right)
    | (extract_lets +onlyGivenNames z; clear_value z)
    | split

theorem corrupt_keeps (hw : Sub 0x83c5e W) {i s} (hs : Keeps W s0 s) : Keeps W s0 (corrupt i s) := by
  unfold corrupt
  repeat' first
    | with_reducible assumption
    | with_reducible refine slotSet_keeps (Sub.step hw rfl) ?_
    | with_reducible refine finishAll_keeps (Sub.step hw rfl) ?_
    | with_reducible refine cullet_keeps (Sub.step hw rfl) ?_
    | with_reducible refine Keeps.foldl ?_ ?_
    | intro _
    | (extract_lets +onlyGivenNames z; refine Keeps.cut (W := W) (s0 := s0) (x := z) ?_ ?_; dsimp -zeta only [z]; rotate_left; clear_value z; rotate_right)
    | (extract_lets +onlyGivenNames z; clear_value z)
    | split

theorem corruptUnit_keeps (hw : Sub 0x83c5e W) {u s} (hs : Keeps W s0 s) : Keeps W s0 (corruptUnit u s) := by
  unfold corruptUnit
  repeat' first
    | with_reducible assumption
    | with_reducible refine corrupt_keeps (Sub.step hw rfl) ?_
    | with_reducible refine Keeps.foldl ?_ ?_
    | intro _
    | (extract_lets +onlyGivenNames z; refine Keeps.cut (W := W) (s0 := s0) (x := z) ?_ ?_; dsimp -zeta only [z]; rotate_left; clear_value z; rotate_right)
    | (extract_lets +onlyGivenNames z; clear_value z)
    | split

theorem unitFailed_keeps (hw : Sub 0x83c5e W) {u s} (hs : Keeps W s0 s) : Keeps W s0 (unitFailed u s) := by
  unfold unitFailed
  repeat' first
    | with_reducible assumption
    | with_reducible refine bump_keeps (Sub.step hw rfl) ?_
    | with_reducible refine keytabErr_keeps (Sub.step hw rfl) ?_
    | with_reducible refine corruptUnit_keeps (Sub.step hw rfl) ?_
    | with_reducible refine State.modKeys_keeps (Sub.step hw rfl) ?_
    | with_reducible refine Keeps.foldl ?_ ?_
    | intro _
    | (extract_lets +onlyGivenNames z; refine Keeps.cut (W := W) (s0 := s0) (x := z) ?_ ?_; dsimp -zeta only [z]; rotate_left; clear_value z; rotate_right)
    | (extract_lets +onlyGivenNames z; clear_value z)
    | split

theorem retireRegion_keeps (hw : Sub 0xc3c5e W) {reg others s} (hs : Keeps W s0 s) : Keeps W s0 (retireRegion reg others s) := by
  unfold retireRegion
  repeat' first
    | with_reducible assumption
    | with_reducible refine keytabErr_keeps (Sub.step hw rfl) ?_
    | with_reducible refine State.modKeys_keeps (Sub.step hw rfl) ?_
    | with_reducible refine unitFailed_keeps (Sub.step hw rfl) ?_
    | with_reducible refine setDegraded_keeps (Sub.step hw rfl) ?_
    | with_reducible refine recordRetired_keeps (Sub.step hw rfl) ?_
    | with_reducible refine postEvt_keeps (Sub.step hw rfl) ?_
    | with_reducible refine Keeps.foldl ?_ ?_
    | intro _
    | (extract_lets +onlyGivenNames z; refine Keeps.cut (W := W) (s0 := s0) (x := z) ?_ ?_; dsimp -zeta only [z]; rotate_left; clear_value z; rotate_right)
    | (extract_lets +onlyGivenNames z; clear_value z)
    | split

theorem tagFail_keeps (hw : Sub 0xc3c5e W) {u others s} (hs : Keeps W s0 s) : Keeps W s0 (tagFail u others s) := by
  unfold tagFail
  repeat' first
    | with_reducible assumption
    | with_reducible refine unitFailed_keeps (Sub.step hw rfl) ?_
    | with_reducible refine retireRegion_keeps (Sub.step hw rfl) ?_
    | with_reducible refine Keeps.foldl ?_ ?_
    | intro _
    | (extract_lets +onlyGivenNames z; refine Keeps.cut (W := W) (s0 := s0) (x := z) ?_ ?_; dsimp -zeta only [z]; rotate_left; clear_value z; rotate_right)
    | (extract_lets +onlyGivenNames z; clear_value z)
    | split

theorem execCacheFill_keeps (hw : Sub 0x1c3c5e W) {i gran reads others s} (hs : Keeps W s0 s) : OutAll (Keeps W s0) (execCacheFill i gran reads others s) := by
  unfold execCacheFill
  dsimp only
  repeat' first
    | with_reducible assumption
    | with_reducible refine tagFail_keeps (Sub.step hw rfl) ?_
    | with_reducible refine State.modKeys_keeps (Sub.step hw rfl) ?_
    | with_reducible refine cacheIn_keeps (Sub.step hw rfl) ?_
    | with_reducible refine bump_keeps (Sub.step hw rfl) ?_
    | with_reducible refine OptAll.getD ?_ ?_
    | with_reducible refine OptAll.out (P := Keeps W s0) (by assumption) ?_
    | with_reducible refine OutAll.next ?_
    | with_reducible refine Keeps.foldl ?_ ?_
    | intro _
    | (extract_lets +onlyGivenNames z; refine Keeps.cut (W := W) (s0 := s0) (x := z) ?_ ?_; dsimp -zeta only [z]; rotate_left; clear_value z; rotate_right)
    | (extract_lets +onlyGivenNames z; clear_value z)
    | split

theorem execRecordReload_keeps (hw : Sub 0x183c5e W) {i ok s} (hs : Keeps W s0 s) : OutAll (Keeps W s0) (execRecordReload i ok s) := by
  unfold execRecordReload
  repeat' first
    | with_reducible assumption
    | with_reducible refine storeRec_keeps (Sub.step hw rfl) ?_
    | with_reducible refine finishAll_keeps (Sub.step hw rfl) ?_
    | with_reducible refine keytabErr_keeps (Sub.step hw rfl) ?_
    | with_reducible refine slotSet_keeps (Sub.step hw rfl) ?_
    | with_reducible refine OutAll.next ?_
    | with_reducible refine Keeps.foldl ?_ ?_
    | intro _
    | (extract_lets +onlyGivenNames z; refine Keeps.cut (W := W) (s0 := s0) (x := z) ?_ ?_; dsimp -zeta only [z]; rotate_left; clear_value z; rotate_right)
    | (extract_lets +onlyGivenNames z; clear_value z)
    | split

theorem execScrub_keeps (hw : Sub 0x80040 W) {i s} (hs : Keeps W s0 s) : OutAll (Keeps W s0) (execScrub i s) := by
  unfold execScrub
  repeat' first
    | with_reducible assumption
    | with_reducible refine bump_keeps (Sub.step hw rfl) ?_
    | with_reducible refine State.modKeys_keeps (Sub.step hw rfl) ?_
    | with_reducible refine slotSet_keeps (Sub.step hw rfl) ?_
    | with_reducible refine setFreeList_keeps (Sub.step hw rfl) ?_
    | with_reducible refine OutAll.next ?_
    | with_reducible refine Keeps.foldl ?_ ?_
    | intro _
    | (extract_lets +onlyGivenNames z; refine Keeps.cut (W := W) (s0 := s0) (x := z) ?_ ?_; dsimp -zeta only [z]; rotate_left; clear_value z; rotate_right)
    | (extract_lets +onlyGivenNames z; clear_value z)
    | split

theorem restoreKey_keeps (hw : Sub 0x100040 W) {i s} (hs : Keeps W s0 s) : Keeps W s0 (restoreKey i s) := by
  unfold restoreKey
  repeat' first
    | with_reducible assumption
    | with_reducible refine State.modKeys_keeps (Sub.step hw rfl) ?_
    | with_reducible refine storeRec_keeps (Sub.step hw rfl) ?_
    | with_reducible refine Keeps.foldl ?_ ?_
    | intro _
    | (extract_lets +onlyGivenNames z; refine Keeps.cut (W := W) (s0 := s0) (x := z) ?_ ?_; dsimp -zeta only [z]; rotate_left; clear_value z; rotate_right)
    | (extract_lets +onlyGivenNames z; clear_value z)
    | split

theorem execRecordRestore_keeps (hw : Sub 0x100040 W) {i s} (hs : Keeps W s0 s) : OutAll (Keeps W s0) (execRecordRestore i s) := by
  unfold execRecordRestore
  repeat' first
    | with_reducible assumption
    | with_reducible refine restoreKey_keeps (Sub.step hw rfl) ?_
    | with_reducible refine OutAll.next ?_
    | with_reducible refine Keeps.foldl ?_ ?_
    | intro _
    | (extract_lets +onlyGivenNames z; refine Keeps.cut (W := W) (s0 := s0) (x := z) ?_ ?_; dsimp -zeta only [z]; rotate_left; clear_value z; rotate_right)
    | (extract_lets +onlyGivenNames z; clear_value z)
    | split

theorem execKeytabRestoreDone_keeps (hw : Sub 0x80846 W) {s} (hs : Keeps W s0 s) : OutAll (Keeps W s0) (execKeytabRestoreDone s) := by
  unfold execKeytabRestoreDone
  repeat' first
    | with_reducible assumption
    | with_reducible refine postEvt_keeps (Sub.step hw rfl) ?_
    | with_reducible refine State.modKeys_keeps (Sub.step hw rfl) ?_
    | with_reducible refine OutAll.next ?_
    | with_reducible refine Keeps.foldl ?_ ?_
    | intro _
    | (extract_lets +onlyGivenNames z; refine Keeps.cut (W := W) (s0 := s0) (x := z) ?_ ?_; dsimp -zeta only [z]; rotate_left; clear_value z; rotate_right)
    | (extract_lets +onlyGivenNames z; clear_value z)
    | split

end Sys2Proof.Machine
end

