-- ==== Sys2Proof/Laws/FramePke.lean ====
section
/-! SUPPORT. The frame of every operation of Machine/Pke.lean: the parts it may write, and what it keeps (`Keeps`). -/
namespace Sys2Proof.Machine

set_option linter.tactic.unusedName false
variable {W : Nat} {s0 : State}

theorem State.modPke_keeps (hw : Sub 0x200 W) {s f} (hs : Keeps W s0 s) : Keeps W s0 (State.modPke s f) := by
  unfold State.modPke
  repeat' first
    | exact Keeps.pke (Sub.step hw rfl) hs

theorem pkeErr_keeps (hw : Sub 0x80806 W) {n core s} (hs : Keeps W s0 s) : Keeps W s0 (pkeErr n core s) := by
  unfold pkeErr
  repeat' first
    | with_reducible assumption
    | with_reducible refine raiseErr_keeps (Sub.step hw rfl) ?_
    | with_reducible refine Keeps.foldl ?_ ?_
    | intro _
    | (extract_lets +onlyGivenNames z; refine Keeps.cut (W := W) (s0 := s0) (x := z) ?_ ?_; dsimp -zeta only [z]; rotate_left; clear_value z; rotate_right)
    | (extract_lets +onlyGivenNames z; clear_value z)
    | split

theorem pkeRetire_keeps (hw : Sub 0xc3c7e W) {n s} (hs : Keeps W s0 s) : Keeps W s0 (pkeRetire n s) := by
  unfold pkeRetire
  repeat' first
    | with_reducible assumption
    | with_reducible refine recordRetired_keeps (Sub.step hw rfl) ?_
    | with_reducible refine pkeErr_keeps (Sub.step hw rfl) ?_
    | with_reducible refine setDegraded_keeps (Sub.step hw rfl) ?_
    | with_reducible refine postEvt_keeps (Sub.step hw rfl) ?_
    | with_reducible refine finishSt_keeps (Sub.step hw rfl) ?_
    | with_reducible refine Keeps.foldl ?_ ?_
    | intro _
    | (extract_lets +onlyGivenNames z; refine Keeps.cut (W := W) (s0 := s0) (x := z) ?_ ?_; dsimp -zeta only [z]; rotate_left; clear_value z; rotate_right)
    | (extract_lets +onlyGivenNames z; clear_value z)
    | split
    | with_reducible refine Keeps.units (Sub.step hw rfl) ?_

theorem checkFail_keeps (hw : Sub 0xc3e7e W) {c core s} (hs : Keeps W s0 s) : Keeps W s0 (checkFail c core s) := by
  unfold checkFail
  repeat' first
    | with_reducible assumption
    | with_reducible refine State.modPke_keeps (Sub.step hw rfl) ?_
    | with_reducible refine bump_keeps (Sub.step hw rfl) ?_
    | with_reducible refine pkeErr_keeps (Sub.step hw rfl) ?_
    | with_reducible refine finishSt_keeps (Sub.step hw rfl) ?_
    | with_reducible refine pkeRetire_keeps (Sub.step hw rfl) ?_
    | intro _
    | (extract_lets +onlyGivenNames z; refine Keeps.cut (W := W) (s0 := s0) (x := z) ?_ ?_; dsimp -zeta only [z]; rotate_left; clear_value z; rotate_right)
    | (extract_lets +onlyGivenNames z; clear_value z)
    | split

theorem pkeEnd_keeps (hw : Sub 0x83c5e W) {c e s} (hs : Keeps W s0 s) : Keeps W s0 (pkeEnd c e s) := by
  unfold pkeEnd
  repeat' first
    | with_reducible assumption
    | with_reducible refine bump64_keeps (Sub.step hw rfl) ?_
    | with_reducible refine finish_keeps (Sub.step hw rfl) ?_
    | with_reducible refine bump_keeps (Sub.step hw rfl) ?_
    | with_reducible refine Keeps.foldl ?_ ?_
    | intro _
    | (extract_lets +onlyGivenNames z; refine Keeps.cut (W := W) (s0 := s0) (x := z) ?_ ?_; dsimp -zeta only [z]; rotate_left; clear_value z; rotate_right)
    | (extract_lets +onlyGivenNames z; clear_value z)
    | split

theorem pkeCommit_keeps (hw : Sub 0x183c5e W) {c rs e s} (hs : Keeps W s0 s) : Keeps W s0 (pkeCommit c rs e s) := by
  unfold pkeCommit
  repeat' first
    | with_reducible assumption
    | with_reducible refine commitNew_keeps (Sub.step hw rfl) ?_
    | with_reducible refine bump64_keeps (Sub.step hw rfl) ?_
    | with_reducible refine Keeps.foldl ?_ ?_
    | intro _
    | (extract_lets +onlyGivenNames z; refine Keeps.cut (W := W) (s0 := s0) (x := z) ?_ ?_; dsimp -zeta only [z]; rotate_left; clear_value z; rotate_right)
    | (extract_lets +onlyGivenNames z; clear_value z)
    | split

theorem pkeDraw_keeps (hw : Sub 0x83cde W) {c n s k} (hs : Keeps W s0 s) (hk : ∀ a0 u, Keeps W s0 u → Keeps W s0 (k a0 u)) : Keeps W s0 (pkeDraw c n s k) := by
  unfold pkeDraw
  repeat' first
    | with_reducible assumption
    | with_reducible apply hk
    | with_reducible refine drawKey_keeps (Sub.step hw rfl) ?_
    | with_reducible refine cmdPut_keeps (Sub.step hw rfl) ?_
    | with_reducible refine bump_keeps (Sub.step hw rfl) ?_
    | with_reducible refine pkeEnd_keeps (Sub.step hw rfl) ?_
    | with_reducible refine Draw.out_ok (P := Keeps W s0) (by assumption) ?_
    | with_reducible refine Draw.out_wait (P := Keeps W s0) (by assumption) ?_
    | with_reducible refine Draw.out_stopped (P := Keeps W s0) (by assumption) ?_
    | with_reducible refine Keeps.foldl ?_ ?_
    | intro _
    | (extract_lets +onlyGivenNames z; refine Keeps.cut (W := W) (s0 := s0) (x := z) ?_ ?_; dsimp -zeta only [z]; rotate_left; clear_value z; rotate_right)
    | (extract_lets +onlyGivenNames z; clear_value z)
    | split

theorem onCore_keeps (hw : Sub 0xc3e7e W) {c run s k} (hs : Keeps W s0 s) (hk : ∀ u, Keeps W s0 u → Keeps W s0 (k u)) : Keeps W s0 (onCore c run s k) := by
  unfold onCore
  repeat' first
    | with_reducible assumption
    | with_reducible apply hk
    | with_reducible refine checkFail_keeps (Sub.step hw rfl) ?_
    | with_reducible refine pkeRetire_keeps (Sub.step hw rfl) ?_
    | with_reducible refine Keeps.foldl ?_ ?_
    | intro _
    | (extract_lets +onlyGivenNames z; refine Keeps.cut (W := W) (s0 := s0) (x := z) ?_ ?_; dsimp -zeta only [z]; rotate_left; clear_value z; rotate_right)
    | (extract_lets +onlyGivenNames z; clear_value z)
    | split

theorem signSpec_keeps  : OpSpec.All (Keeps W s0) (signSpec ) := by
  intro c u hu
  exact Draws.all_ok hu

theorem signBody_keeps (hw : Sub 0xc3efe W) {run c s} (hs : Keeps W s0 s) : Keeps W s0 (signBody run c s) := by
  unfold signBody
  dsimp only
  repeat' first
    | with_reducible assumption
    | with_reducible refine onCore_keeps (Sub.step hw rfl) ?_ ?_
    | with_reducible refine pkeEnd_keeps (Sub.step hw rfl) ?_
    | with_reducible refine pkeDraw_keeps (Sub.step hw rfl) ?_ ?_
    | with_reducible refine Keeps.foldl ?_ ?_
    | intro _
    | (extract_lets +onlyGivenNames z; refine Keeps.cut (W := W) (s0 := s0) (x := z) ?_ ?_; dsimp -zeta only [z]; rotate_left; clear_value z; rotate_right)
    | (extract_lets +onlyGivenNames z; clear_value z)
    | split

theorem execPkSign_keeps (hw : Sub 0x1c3efe W) {id run s} (hs : Keeps W s0 s) : OutAll (Keeps W s0) (execPkSign id run s) := by
  unfold execPkSign
  repeat' first
    | with_reducible assumption
    | with_reducible refine runOp_keeps (Sub.step hw rfl) ?_ ?_ ?_
    | with_reducible refine signSpec_keeps 
    | with_reducible refine signBody_keeps (Sub.step hw rfl) ?_
    | ((with_reducible refine OpSpec.All.default ?_); exact rfl)
    | with_reducible refine OutAll.next ?_
    | with_reducible refine Keeps.foldl ?_ ?_
    | intro _
    | (extract_lets +onlyGivenNames z; refine Keeps.cut (W := W) (s0 := s0) (x := z) ?_ ?_; dsimp -zeta only [z]; rotate_left; clear_value z; rotate_right)
    | (extract_lets +onlyGivenNames z; clear_value z)
    | split

theorem verifySpec_keeps  : OpSpec.All (Keeps W s0) (verifySpec ) := by
  intro c u hu
  exact Draws.all_ok hu

theorem execPkVerify_keeps (hw : Sub 0x1c3e7e W) {id fault s} (hs : Keeps W s0 s) : OutAll (Keeps W s0) (execPkVerify id fault s) := by
  unfold execPkVerify
  repeat' first
    | with_reducible assumption
    | with_reducible refine runOp_keeps (Sub.step hw rfl) ?_ ?_ ?_
    | with_reducible refine verifySpec_keeps 
    | with_reducible refine onCore_keeps (Sub.step hw rfl) ?_ ?_
    | with_reducible refine pkeEnd_keeps (Sub.step hw rfl) ?_
    | ((with_reducible refine OpSpec.All.default ?_); exact rfl)
    | with_reducible refine OutAll.next ?_
    | with_reducible refine Keeps.foldl ?_ ?_
    | intro _
    | (extract_lets +onlyGivenNames z; refine Keeps.cut (W := W) (s0 := s0) (x := z) ?_ ?_; dsimp -zeta only [z]; rotate_left; clear_value z; rotate_right)
    | (extract_lets +onlyGivenNames z; clear_value z)
    | split

theorem keypairSpec_keeps  : OpSpec.All (Keeps W s0) (keypairSpec ) := by
  intro c u hu
  exact Draws.all_ok hu

theorem keypairBody_keeps (hw : Sub 0x1c3efe W) {run c s} (hs : Keeps W s0 s) : Keeps W s0 (keypairBody run c s) := by
  unfold keypairBody
  repeat' first
    | with_reducible assumption
    | with_reducible refine withSlots_keeps (Sub.step hw rfl) ?_ ?_
    | with_reducible refine pkeDraw_keeps (Sub.step hw rfl) ?_ ?_
    | with_reducible refine onCore_keeps (Sub.step hw rfl) ?_ ?_
    | with_reducible refine withNewKey_keeps (Sub.step hw rfl) ?_ ?_
    | with_reducible refine pkeCommit_keeps (Sub.step hw rfl) ?_
    | with_reducible refine Keeps.foldl ?_ ?_
    | intro _
    | (extract_lets +onlyGivenNames z; refine Keeps.cut (W := W) (s0 := s0) (x := z) ?_ ?_; dsimp -zeta only [z]; rotate_left; clear_value z; rotate_right)
    | (extract_lets +onlyGivenNames z; clear_value z)
    | split

theorem execPkKeypairGenerate_keeps (hw : Sub 0x1c3efe W) {id run s} (hs : Keeps W s0 s) : OutAll (Keeps W s0) (execPkKeypairGenerate id run s) := by
  unfold execPkKeypairGenerate
  repeat' first
    | with_reducible assumption
    | with_reducible refine runOp_keeps (Sub.step hw rfl) ?_ ?_ ?_
    | with_reducible refine keypairSpec_keeps 
    | with_reducible refine keypairBody_keeps (Sub.step hw rfl) ?_
    | ((with_reducible refine OpSpec.All.default ?_); exact rfl)
    | with_reducible refine OutAll.next ?_
    | with_reducible refine Keeps.foldl ?_ ?_
    | intro _
    | (extract_lets +onlyGivenNames z; refine Keeps.cut (W := W) (s0 := s0) (x := z) ?_ ?_; dsimp -zeta only [z]; rotate_left; clear_value z; rotate_right)
    | (extract_lets +onlyGivenNames z; clear_value z)
    | split

theorem deriveSpec_keeps {bitNo algs inl}  : OpSpec.All (Keeps W s0) (deriveSpec bitNo algs inl) := by
  intro c u hu
  exact Draws.all_ok hu

theorem ecdhSpec_keeps  : OpSpec.All (Keeps W s0) (ecdhSpec ) := by
  intro c u hu
  exact Draws.all_ok hu

theorem execEcdhDerive_keeps (hw : Sub 0x1c3e7e W) {id run s} (hs : Keeps W s0 s) : OutAll (Keeps W s0) (execEcdhDerive id run s) := by
  unfold execEcdhDerive
  repeat' first
    | with_reducible assumption
    | with_reducible refine runOp_keeps (Sub.step hw rfl) ?_ ?_ ?_
    | with_reducible refine ecdhSpec_keeps 
    | with_reducible refine withSlots_keeps (Sub.step hw rfl) ?_ ?_
    | with_reducible refine pkeEnd_keeps (Sub.step hw rfl) ?_
    | with_reducible refine onCore_keeps (Sub.step hw rfl) ?_ ?_
    | with_reducible refine pkeCommit_keeps (Sub.step hw rfl) ?_
    | ((with_reducible refine OpSpec.All.default ?_); exact rfl)
    | with_reducible refine OutAll.next ?_
    | with_reducible refine Keeps.foldl ?_ ?_
    | intro _
    | (extract_lets +onlyGivenNames z; refine Keeps.cut (W := W) (s0 := s0) (x := z) ?_ ?_; dsimp -zeta only [z]; rotate_left; clear_value z; rotate_right)
    | (extract_lets +onlyGivenNames z; clear_value z)
    | split

theorem encapsSpec_keeps  : OpSpec.All (Keeps W s0) (encapsSpec ) := by
  intro c u hu
  exact Draws.all_ok hu

theorem execKemEncapsulate_keeps (hw : Sub 0x1c3efe W) {id fault s} (hs : Keeps W s0 s) : OutAll (Keeps W s0) (execKemEncapsulate id fault s) := by
  unfold execKemEncapsulate
  repeat' first
    | with_reducible assumption
    | with_reducible refine runOp_keeps (Sub.step hw rfl) ?_ ?_ ?_
    | with_reducible refine encapsSpec_keeps 
    | with_reducible refine withSlots_keeps (Sub.step hw rfl) ?_ ?_
    | with_reducible refine pkeDraw_keeps (Sub.step hw rfl) ?_ ?_
    | with_reducible refine onCore_keeps (Sub.step hw rfl) ?_ ?_
    | with_reducible refine pkeCommit_keeps (Sub.step hw rfl) ?_
    | ((with_reducible refine OpSpec.All.default ?_); exact rfl)
    | with_reducible refine OutAll.next ?_
    | with_reducible refine Keeps.foldl ?_ ?_
    | intro _
    | (extract_lets +onlyGivenNames z; refine Keeps.cut (W := W) (s0 := s0) (x := z) ?_ ?_; dsimp -zeta only [z]; rotate_left; clear_value z; rotate_right)
    | (extract_lets +onlyGivenNames z; clear_value z)
    | split

theorem decapsSpec_keeps  : OpSpec.All (Keeps W s0) (decapsSpec ) := by
  intro c u hu
  exact Draws.all_ok hu

theorem execKemDecapsulate_keeps (hw : Sub 0x1c3e7e W) {id fault s} (hs : Keeps W s0 s) : OutAll (Keeps W s0) (execKemDecapsulate id fault s) := by
  unfold execKemDecapsulate
  repeat' first
    | with_reducible assumption
    | with_reducible refine runOp_keeps (Sub.step hw rfl) ?_ ?_ ?_
    | with_reducible refine decapsSpec_keeps 
    | with_reducible refine withSlots_keeps (Sub.step hw rfl) ?_ ?_
    | with_reducible refine onCore_keeps (Sub.step hw rfl) ?_ ?_
    | with_reducible refine pkeCommit_keeps (Sub.step hw rfl) ?_
    | ((with_reducible refine OpSpec.All.default ?_); exact rfl)
    | with_reducible refine OutAll.next ?_
    | with_reducible refine Keeps.foldl ?_ ?_
    | intro _
    | (extract_lets +onlyGivenNames z; refine Keeps.cut (W := W) (s0 := s0) (x := z) ?_ ?_; dsimp -zeta only [z]; rotate_left; clear_value z; rotate_right)
    | (extract_lets +onlyGivenNames z; clear_value z)
    | split

theorem rsaEncSpec_keeps  : OpSpec.All (Keeps W s0) (rsaEncSpec ) := by
  intro c u hu
  exact Draws.all_ok hu

theorem execRsaEncrypt_keeps (hw : Sub 0x1c3efe W) {id fault s} (hs : Keeps W s0 s) : OutAll (Keeps W s0) (execRsaEncrypt id fault s) := by
  unfold execRsaEncrypt
  repeat' first
    | with_reducible assumption
    | with_reducible refine runOp_keeps (Sub.step hw rfl) ?_ ?_ ?_
    | with_reducible refine rsaEncSpec_keeps 
    | with_reducible refine pkeDraw_keeps (Sub.step hw rfl) ?_ ?_
    | with_reducible refine onCore_keeps (Sub.step hw rfl) ?_ ?_
    | with_reducible refine pkeEnd_keeps (Sub.step hw rfl) ?_
    | ((with_reducible refine OpSpec.All.default ?_); exact rfl)
    | with_reducible refine OutAll.next ?_
    | with_reducible refine Keeps.foldl ?_ ?_
    | intro _
    | (extract_lets +onlyGivenNames z; refine Keeps.cut (W := W) (s0 := s0) (x := z) ?_ ?_; dsimp -zeta only [z]; rotate_left; clear_value z; rotate_right)
    | (extract_lets +onlyGivenNames z; clear_value z)
    | split

theorem rsaDecSpec_keeps  : OpSpec.All (Keeps W s0) (rsaDecSpec ) := by
  intro c u hu
  exact Draws.all_ok hu

theorem execRsaDecrypt_keeps (hw : Sub 0x1c3e7e W) {id run s} (hs : Keeps W s0 s) : OutAll (Keeps W s0) (execRsaDecrypt id run s) := by
  unfold execRsaDecrypt
  repeat' first
    | with_reducible assumption
    | with_reducible refine runOp_keeps (Sub.step hw rfl) ?_ ?_ ?_
    | with_reducible refine rsaDecSpec_keeps 
    | with_reducible refine onCore_keeps (Sub.step hw rfl) ?_ ?_
    | with_reducible refine pkeEnd_keeps (Sub.step hw rfl) ?_
    | ((with_reducible refine OpSpec.All.default ?_); exact rfl)
    | with_reducible refine OutAll.next ?_
    | with_reducible refine Keeps.foldl ?_ ?_
    | intro _
    | (extract_lets +onlyGivenNames z; refine Keeps.cut (W := W) (s0 := s0) (x := z) ?_ ?_; dsimp -zeta only [z]; rotate_left; clear_value z; rotate_right)
    | (extract_lets +onlyGivenNames z; clear_value z)
    | split

theorem pkeCtlWrite_keeps (hw : Sub 0x83c5e W) {v s} (hs : Keeps W s0 s) : Keeps W s0 (pkeCtlWrite v s) := by
  unfold pkeCtlWrite
  repeat' first
    | with_reducible assumption
    | with_reducible refine regMask_keeps (Sub.step hw rfl) ?_
    | with_reducible refine finishAll_keeps (Sub.step hw rfl) ?_
    | with_reducible refine State.modDev_keeps (Sub.step hw rfl) ?_
    | with_reducible refine Keeps.foldl ?_ ?_
    | intro _
    | (extract_lets +onlyGivenNames z; refine Keeps.cut (W := W) (s0 := s0) (x := z) ?_ ?_; dsimp -zeta only [z]; rotate_left; clear_value z; rotate_right)
    | (extract_lets +onlyGivenNames z; clear_value z)
    | split

theorem execPkeDrained_keeps (hw : Sub 0x80806 W) {s} (hs : Keeps W s0 s) : OutAll (Keeps W s0) (execPkeDrained s) := by
  unfold execPkeDrained
  repeat' first
    | with_reducible assumption
    | with_reducible refine onMain_keeps ?_ ?_
    | with_reducible refine postEvt_keeps (Sub.step hw rfl) ?_
    | with_reducible refine regOr_keeps (Sub.step hw rfl) ?_
    | with_reducible refine State.modDev_keeps (Sub.step hw rfl) ?_
    | with_reducible refine OutAll.next ?_
    | with_reducible refine Keeps.foldl ?_ ?_
    | intro _
    | (extract_lets +onlyGivenNames z; refine Keeps.cut (W := W) (s0 := s0) (x := z) ?_ ?_; dsimp -zeta only [z]; rotate_left; clear_value z; rotate_right)
    | (extract_lets +onlyGivenNames z; clear_value z)
    | split

theorem pkeErase_keeps (hw : Sub 0x83c5e W) {s} (hs : Keeps W s0 s) : Keeps W s0 (pkeErase s) := by
  unfold pkeErase
  repeat' first
    | with_reducible assumption
    | with_reducible refine finishAll_keeps (Sub.step hw rfl) ?_
    | with_reducible refine Keeps.foldl ?_ ?_
    | intro _
    | (extract_lets +onlyGivenNames z; refine Keeps.cut (W := W) (s0 := s0) (x := z) ?_ ?_; dsimp -zeta only [z]; rotate_left; clear_value z; rotate_right)
    | (extract_lets +onlyGivenNames z; clear_value z)
    | split

end Sys2Proof.Machine
end

