-- ==== Sys2Proof/Laws/FrameFlash.lean ====
section
/-! SUPPORT. The frame of every operation of Machine/Flash.lean: the parts it may write, and what it keeps (`Keeps`). -/
namespace Sys2Proof.Machine

set_option linter.tactic.unusedName false
variable {W : Nat} {s0 : State}

theorem flashErr_keeps (hw : Sub 0x80806 W) {n s} (hs : Keeps W s0 s) : Keeps W s0 (flashErr n s) := by
  unfold flashErr
  repeat' first
    | with_reducible assumption
    | with_reducible refine regOr_keeps (Sub.step hw rfl) ?_
    | with_reducible refine postEvt_keeps (Sub.step hw rfl) ?_
    | with_reducible refine Keeps.foldl ?_ ?_
    | intro _
    | (extract_lets +onlyGivenNames z; refine Keeps.cut (W := W) (s0 := s0) (x := z) ?_ ?_; dsimp -zeta only [z]; rotate_left; clear_value z; rotate_right)
    | (extract_lets +onlyGivenNames z; clear_value z)
    | split

theorem retireBank_keeps (hw : Sub 0xc2826 W) {b s} (hs : Keeps W s0 s) : Keeps W s0 (retireBank b s) := by
  unfold retireBank
  repeat' first
    | with_reducible assumption
    | with_reducible refine flashErr_keeps (Sub.step hw rfl) ?_
    | with_reducible refine setDegraded_keeps (Sub.step hw rfl) ?_
    | with_reducible refine recordRetired_keeps (Sub.step hw rfl) ?_
    | with_reducible refine postEvt_keeps (Sub.step hw rfl) ?_
    | intro _
    | (extract_lets +onlyGivenNames z; refine Keeps.cut (W := W) (s0 := s0) (x := z) ?_ ?_; dsimp -zeta only [z]; rotate_left; clear_value z; rotate_right)
    | (extract_lets +onlyGivenNames z; clear_value z)
    | split
    | with_reducible refine Keeps.units (Sub.step hw rfl) ?_

theorem flashSense_keeps (hw : Sub 0xc2826 W) {a s} (hs : Keeps W s0 s) : PairAll (Keeps W s0) (flashSense a s) := by
  unfold flashSense
  split
  · exact PairAll.mk hs
  · split
    · exact PairAll.mk (bump_keeps (Sub.step hw rfl) hs)
    · split
      · exact PairAll.mk (bump_keeps (Sub.step hw rfl) hs)
      · extract_lets s1 s2 b s3 k
        have h1 : Keeps W s0 s1 := bump_keeps (Sub.step hw rfl) (regSet_keeps (Sub.step hw rfl) hs)
        clear_value s1
        split
        · exact PairAll.mk (flashErr_keeps (Sub.step hw rfl) h1)
        · have h2 : Keeps W s0 s2 := flashErr_keeps (Sub.step hw rfl) (bump_keeps (Sub.step hw rfl) h1)
          clear_value s2
          have h3 : Keeps W s0 s3 := by
            refine State.modFlash_keeps (Sub.step hw rfl) ?_ h2
            intro x hx
            split
            · exact hx
            · exact hx
          clear_value s3
          refine PairAll.mk ?_
          split
          · exact retireBank_keeps (Sub.step hw rfl) h3
          · exact h3

theorem flashResult_keeps (hw : Sub 0x80400 W) {p n st s} (hs : Keeps W s0 s) : Keeps W s0 (flashResult p n st s) := by
  unfold flashResult
  repeat' first
    | with_reducible assumption
    | with_reducible refine regSet_keeps (Sub.step hw rfl) ?_
    | with_reducible refine coreMod_keeps (Sub.step hw rfl) ?_ ?_
    | with_reducible refine Keeps.foldl ?_ ?_
    | exact ‹Warden.coresWf _›
    | exact ‹List.length _ = 16›
    | exact Core.setReg_length ‹_›
    | intro _
    | (extract_lets +onlyGivenNames z; refine Keeps.cut (W := W) (s0 := s0) (x := z) ?_ ?_; dsimp -zeta only [z]; rotate_left; clear_value z; rotate_right)
    | (extract_lets +onlyGivenNames z; clear_value z)
    | split

theorem flashCmd_keeps (hw : Sub 0x80c06 W) {n op len s} (hs : Keeps W s0 s) : Keeps W s0 (flashCmd n op len s) := by
  unfold flashCmd
  repeat' first
    | with_reducible assumption
    | with_reducible refine flashErr_keeps (Sub.step hw rfl) ?_
    | with_reducible refine flashResult_keeps (Sub.step hw rfl) ?_
    | with_reducible refine openFlag_keeps (Sub.step hw rfl) ?_
    | with_reducible refine setBusy_keeps (Sub.step hw rfl) ?_
    | with_reducible refine PairAll.snd (P := Keeps W s0) (p := openFlag _ _) ?_
    | with_reducible refine PairAll.out (P := Keeps W s0) (by assumption) ?_
    | with_reducible refine Keeps.foldl ?_ ?_
    | intro _
    | (extract_lets +onlyGivenNames z; refine Keeps.cut (W := W) (s0 := s0) (x := z) ?_ ?_; dsimp -zeta only [z]; rotate_left; clear_value z; rotate_right)
    | (extract_lets +onlyGivenNames z; clear_value z)
    | split

theorem progRows_keeps (hw : Sub 0x800 W) {a x1 s} (hs : Keeps W s0 s) : Keeps W s0 (progRows a x1 s) := by
  induction x1 generalizing a s with
  | nil =>
   rw [progRows]
   first
    | exact hs
  | cons x xs ih =>
   rw [progRows]
   repeat' first
    | with_reducible refine ih ?_
    | with_reducible assumption
    | with_reducible refine progRow_keeps (Sub.step hw rfl) ?_
    | with_reducible refine Keeps.foldl ?_ ?_
    | intro _
    | (extract_lets +onlyGivenNames z; refine Keeps.cut (W := W) (s0 := s0) (x := z) ?_ ?_; dsimp -zeta only [z]; rotate_left; clear_value z; rotate_right)
    | (extract_lets +onlyGivenNames z; clear_value z)
    | split

theorem weaken_keeps (hw : Sub 0x800 W) {ws s} (hs : Keeps W s0 s) : Keeps W s0 (weaken ws s) := by
  unfold weaken
  repeat' first
    | with_reducible assumption
    | with_reducible refine State.modFlash_keeps (Sub.step hw rfl) ?_ ?_
    | with_reducible refine Keeps.foldl ?_ ?_
    | exact ‹Warden.coresWf _›
    | exact ‹List.length _ = 16›
    | exact Core.setReg_length ‹_›
    | intro _
    | (extract_lets +onlyGivenNames z; refine Keeps.cut (W := W) (s0 := s0) (x := z) ?_ ?_; dsimp -zeta only [z]; rotate_left; clear_value z; rotate_right)
    | (extract_lets +onlyGivenNames z; clear_value z)
    | split

theorem programmed_keeps (hw : Sub 0x100000 W) {ok data s} (hs : Keeps W s0 s) : PairAll (Keeps W s0) (programmed ok data s) := by
  unfold programmed
  repeat' first
    | with_reducible assumption
    | with_reducible refine drawBytes_keeps (Sub.step hw rfl) ?_
    | with_reducible refine PairAll.snd (P := Keeps W s0) (p := drawBytes _ _) ?_
    | with_reducible refine PairAll.out (P := Keeps W s0) (by assumption) ?_
    | with_reducible refine PairAll.mk ?_
    | with_reducible refine Keeps.foldl ?_ ?_
    | intro _
    | (extract_lets +onlyGivenNames z; refine Keeps.cut (W := W) (s0 := s0) (x := z) ?_ ?_; dsimp -zeta only [z]; rotate_left; clear_value z; rotate_right)
    | (extract_lets +onlyGivenNames z; clear_value z)
    | split

theorem eraseFail_keeps (hw : Sub 0x100800 W) {a n s} (hs : Keeps W s0 s) : Keeps W s0 (eraseFail a n s) := by
  unfold eraseFail
  split
  rename_i b u hb
  have hu : Keeps W s0 u := PairAll.out (P := Keeps W s0) hb (drawBytes_keeps (Sub.step hw rfl) hs)
  exact State.modFlash_keeps (Sub.step hw rfl) (fun x hx => cellsMixed_wf (fun x => by split <;> rfl) hx) hu

theorem tornRecord_keeps (hw : Sub 0x100800 W) {s} (hs : Keeps W s0 s) : Keeps W s0 (tornRecord s) := by
  unfold tornRecord
  repeat' first
    | with_reducible assumption
    | with_reducible refine drawBytes_keeps (Sub.step hw rfl) ?_
    | with_reducible refine progWords_keeps (Sub.step hw rfl) ?_
    | with_reducible refine PairAll.snd (P := Keeps W s0) (p := drawBytes _ _) ?_
    | with_reducible refine PairAll.out (P := Keeps W s0) (by assumption) ?_
    | with_reducible refine Keeps.foldl ?_ ?_
    | intro _
    | (extract_lets +onlyGivenNames z; refine Keeps.cut (W := W) (s0 := s0) (x := z) ?_ ?_; dsimp -zeta only [z]; rotate_left; clear_value z; rotate_right)
    | (extract_lets +onlyGivenNames z; clear_value z)
    | split

theorem opEffect_keeps (hw : Sub 0x1c2826 W) {o ok s} (hs : Keeps W s0 s) : Keeps W s0 (opEffect o ok s) := by
  unfold opEffect
  repeat' first
    | with_reducible assumption
    | with_reducible refine programmed_keeps (Sub.step hw rfl) ?_
    | with_reducible refine bump_keeps (Sub.step hw rfl) ?_
    | with_reducible refine progRows_keeps (Sub.step hw rfl) ?_
    | with_reducible refine progWords_keeps (Sub.step hw rfl) ?_
    | with_reducible refine logRecord_keeps (Sub.step hw rfl) ?_
    | with_reducible refine closeFlag_keeps (Sub.step hw rfl) ?_
    | with_reducible refine eraseRange_keeps (Sub.step hw rfl) ?_
    | with_reducible refine eraseFail_keeps (Sub.step hw rfl) ?_
    | with_reducible refine retireBank_keeps (Sub.step hw rfl) ?_
    | with_reducible refine PairAll.snd (P := Keeps W s0) (p := programmed _ _ _) ?_
    | with_reducible refine PairAll.out (P := Keeps W s0) (by assumption) ?_
    | with_reducible refine Keeps.foldl ?_ ?_
    | intro _
    | (extract_lets +onlyGivenNames z; refine Keeps.cut (W := W) (s0 := s0) (x := z) ?_ ?_; dsimp -zeta only [z]; rotate_left; clear_value z; rotate_right)
    | (extract_lets +onlyGivenNames z; clear_value z)
    | split

theorem flashEnd_keeps (hw : Sub 0x1c2c26 W) {p ok weak s} (hs : Keeps W s0 s) : Keeps W s0 (flashEnd p ok weak s) := by
  unfold flashEnd
  repeat' first
    | with_reducible assumption
    | with_reducible refine tornRecord_keeps (Sub.step hw rfl) ?_
    | with_reducible refine weaken_keeps (Sub.step hw rfl) ?_
    | with_reducible refine opEffect_keeps (Sub.step hw rfl) ?_
    | with_reducible refine setBusy_keeps (Sub.step hw rfl) ?_
    | with_reducible refine flashErr_keeps (Sub.step hw rfl) ?_
    | with_reducible refine flashResult_keeps (Sub.step hw rfl) ?_
    | with_reducible refine Keeps.foldl ?_ ?_
    | intro _
    | (extract_lets +onlyGivenNames z; refine Keeps.cut (W := W) (s0 := s0) (x := z) ?_ ?_; dsimp -zeta only [z]; rotate_left; clear_value z; rotate_right)
    | (extract_lets +onlyGivenNames z; clear_value z)
    | split

theorem execFlashOpDone_keeps (hw : Sub 0x1c2c26 W) {p ok weak s} (hs : Keeps W s0 s) : OutAll (Keeps W s0) (execFlashOpDone p ok weak s) := by
  unfold execFlashOpDone
  repeat' first
    | with_reducible assumption
    | with_reducible refine flashEnd_keeps (Sub.step hw rfl) ?_
    | with_reducible refine OutAll.next ?_
    | with_reducible refine Keeps.foldl ?_ ?_
    | intro _
    | (extract_lets +onlyGivenNames z; refine Keeps.cut (W := W) (s0 := s0) (x := z) ?_ ?_; dsimp -zeta only [z]; rotate_left; clear_value z; rotate_right)
    | (extract_lets +onlyGivenNames z; clear_value z)
    | split

theorem flashOpRow_keeps (hw : Sub 0x80c06 W) {n op len s} (hs : Keeps W s0 s) : Keeps W s0 (flashOpRow n op len s) := by
  unfold flashOpRow
  repeat' first
    | with_reducible assumption
    | with_reducible refine flashCmd_keeps (Sub.step hw rfl) ?_
    | with_reducible refine Keeps.foldl ?_ ?_
    | intro _
    | (extract_lets +onlyGivenNames z; refine Keeps.cut (W := W) (s0 := s0) (x := z) ?_ ?_; dsimp -zeta only [z]; rotate_left; clear_value z; rotate_right)
    | (extract_lets +onlyGivenNames z; clear_value z)
    | split

theorem execProgRows_keeps (hw : Sub 0x80c06 W) {n len s} (hs : Keeps W s0 s) : OutAll (Keeps W s0) (execProgRows n len s) := by
  unfold execProgRows
  repeat' first
    | with_reducible assumption
    | with_reducible refine flashOpRow_keeps (Sub.step hw rfl) ?_
    | with_reducible refine OutAll.next ?_
    | with_reducible refine Keeps.foldl ?_ ?_
    | intro _
    | (extract_lets +onlyGivenNames z; refine Keeps.cut (W := W) (s0 := s0) (x := z) ?_ ?_; dsimp -zeta only [z]; rotate_left; clear_value z; rotate_right)
    | (extract_lets +onlyGivenNames z; clear_value z)
    | split

theorem execProgWords_keeps (hw : Sub 0x80c06 W) {n len s} (hs : Keeps W s0 s) : OutAll (Keeps W s0) (execProgWords n len s) := by
  unfold execProgWords
  repeat' first
    | with_reducible assumption
    | with_reducible refine flashOpRow_keeps (Sub.step hw rfl) ?_
    | with_reducible refine OutAll.next ?_
    | with_reducible refine Keeps.foldl ?_ ?_
    | intro _
    | (extract_lets +onlyGivenNames z; refine Keeps.cut (W := W) (s0 := s0) (x := z) ?_ ?_; dsimp -zeta only [z]; rotate_left; clear_value z; rotate_right)
    | (extract_lets +onlyGivenNames z; clear_value z)
    | split

theorem execEraseMain_keeps (hw : Sub 0x80c06 W) {n len s} (hs : Keeps W s0 s) : OutAll (Keeps W s0) (execEraseMain n len s) := by
  unfold execEraseMain
  repeat' first
    | with_reducible assumption
    | with_reducible refine flashOpRow_keeps (Sub.step hw rfl) ?_
    | with_reducible refine OutAll.next ?_
    | with_reducible refine Keeps.foldl ?_ ?_
    | intro _
    | (extract_lets +onlyGivenNames z; refine Keeps.cut (W := W) (s0 := s0) (x := z) ?_ ?_; dsimp -zeta only [z]; rotate_left; clear_value z; rotate_right)
    | (extract_lets +onlyGivenNames z; clear_value z)
    | split

theorem execEraseParam_keeps (hw : Sub 0x80c06 W) {n len s} (hs : Keeps W s0 s) : OutAll (Keeps W s0) (execEraseParam n len s) := by
  unfold execEraseParam
  repeat' first
    | with_reducible assumption
    | with_reducible refine flashOpRow_keeps (Sub.step hw rfl) ?_
    | with_reducible refine OutAll.next ?_
    | with_reducible refine Keeps.foldl ?_ ?_
    | intro _
    | (extract_lets +onlyGivenNames z; refine Keeps.cut (W := W) (s0 := s0) (x := z) ?_ ?_; dsimp -zeta only [z]; rotate_left; clear_value z; rotate_right)
    | (extract_lets +onlyGivenNames z; clear_value z)
    | split

theorem execRecordWrite_keeps (hw : Sub 0x80c06 W) {n len s} (hs : Keeps W s0 s) : OutAll (Keeps W s0) (execRecordWrite n len s) := by
  unfold execRecordWrite
  repeat' first
    | with_reducible assumption
    | with_reducible refine flashOpRow_keeps (Sub.step hw rfl) ?_
    | with_reducible refine OutAll.next ?_
    | with_reducible refine Keeps.foldl ?_ ?_
    | intro _
    | (extract_lets +onlyGivenNames z; refine Keeps.cut (W := W) (s0 := s0) (x := z) ?_ ?_; dsimp -zeta only [z]; rotate_left; clear_value z; rotate_right)
    | (extract_lets +onlyGivenNames z; clear_value z)
    | split

theorem imageLoadSpec_keeps  : OpSpec.All (Keeps W s0) (imageLoadSpec ) := by
  intro c u hu
  exact Draws.all_ok hu

theorem eraseImage_keeps (hw : Sub 0x80800 W) {n s} (hs : Keeps W s0 s) : Keeps W s0 (eraseImage n s) := by
  unfold eraseImage
  repeat' first
    | with_reducible assumption
    | with_reducible refine bump_keeps (Sub.step hw rfl) ?_
    | with_reducible refine eraseSector_keeps (Sub.step hw rfl) ?_
    | with_reducible refine Keeps.foldl ?_ ?_
    | intro _
    | (extract_lets +onlyGivenNames z; refine Keeps.cut (W := W) (s0 := s0) (x := z) ?_ ?_; dsimp -zeta only [z]; rotate_left; clear_value z; rotate_right)
    | (extract_lets +onlyGivenNames z; clear_value z)
    | split

theorem imageLoad_keeps (hw : Sub 0x1c3c7e W) {ok c s} (hs : Keeps W s0 s) : Keeps W s0 (imageLoad ok c s) := by
  unfold imageLoad
  repeat' first
    | with_reducible assumption
    | with_reducible refine finishSt_keeps (Sub.step hw rfl) ?_
    | with_reducible refine eraseImage_keeps (Sub.step hw rfl) ?_
    | with_reducible refine flashErr_keeps (Sub.step hw rfl) ?_
    | with_reducible refine retireBank_keeps (Sub.step hw rfl) ?_
    | with_reducible refine eraseFail_keeps (Sub.step hw rfl) ?_
    | with_reducible refine programmed_keeps (Sub.step hw rfl) ?_
    | with_reducible refine bump_keeps (Sub.step hw rfl) ?_
    | with_reducible refine progRows_keeps (Sub.step hw rfl) ?_
    | with_reducible refine PairAll.snd (P := Keeps W s0) (p := programmed _ _ _) ?_
    | with_reducible refine PairAll.out (P := Keeps W s0) (by assumption) ?_
    | with_reducible refine Keeps.foldl ?_ ?_
    | intro _
    | (extract_lets +onlyGivenNames z; refine Keeps.cut (W := W) (s0 := s0) (x := z) ?_ ?_; dsimp -zeta only [z]; rotate_left; clear_value z; rotate_right)
    | (extract_lets +onlyGivenNames z; clear_value z)
    | split

theorem execImageLoadErase_keeps (hw : Sub 0x1c3c7e W) {id ok s} (hs : Keeps W s0 s) : OutAll (Keeps W s0) (execImageLoadErase id ok s) := by
  unfold execImageLoadErase
  repeat' first
    | with_reducible assumption
    | with_reducible refine runOp_keeps (Sub.step hw rfl) ?_ ?_ ?_
    | with_reducible refine imageLoadSpec_keeps 
    | with_reducible refine imageLoad_keeps (Sub.step hw rfl) ?_
    | ((with_reducible refine OpSpec.All.default ?_); exact rfl)
    | with_reducible refine OutAll.next ?_
    | with_reducible refine Keeps.foldl ?_ ?_
    | intro _
    | (extract_lets +onlyGivenNames z; refine Keeps.cut (W := W) (s0 := s0) (x := z) ?_ ?_; dsimp -zeta only [z]; rotate_left; clear_value z; rotate_right)
    | (extract_lets +onlyGivenNames z; clear_value z)
    | split

theorem execImageLoadWrite_keeps (hw : Sub 0x1c3c7e W) {id ok s} (hs : Keeps W s0 s) : OutAll (Keeps W s0) (execImageLoadWrite id ok s) := by
  unfold execImageLoadWrite
  repeat' first
    | with_reducible assumption
    | with_reducible refine runOp_keeps (Sub.step hw rfl) ?_ ?_ ?_
    | with_reducible refine imageLoadSpec_keeps 
    | with_reducible refine imageLoad_keeps (Sub.step hw rfl) ?_
    | ((with_reducible refine OpSpec.All.default ?_); exact rfl)
    | with_reducible refine OutAll.next ?_
    | with_reducible refine Keeps.foldl ?_ ?_
    | intro _
    | (extract_lets +onlyGivenNames z; refine Keeps.cut (W := W) (s0 := s0) (x := z) ?_ ?_; dsimp -zeta only [z]; rotate_left; clear_value z; rotate_right)
    | (extract_lets +onlyGivenNames z; clear_value z)
    | split

theorem execImageStatus_keeps (hw : Sub 0x183c5e W) {id sig0 sig1 s} (hs : Keeps W s0 s) : OutAll (Keeps W s0) (execImageStatus id sig0 sig1 s) := by
  unfold execImageStatus
  repeat' first
    | with_reducible assumption
    | with_reducible refine runOp_keeps (Sub.step hw rfl) ?_ ?_ ?_
    | with_reducible refine noKeys_keeps 
    | with_reducible refine finish_keeps (Sub.step hw rfl) ?_
    | ((with_reducible refine OpSpec.All.default ?_); exact rfl)
    | with_reducible refine OutAll.next ?_
    | with_reducible refine Keeps.foldl ?_ ?_
    | intro _
    | (extract_lets +onlyGivenNames z; refine Keeps.cut (W := W) (s0 := s0) (x := z) ?_ ?_; dsimp -zeta only [z]; rotate_left; clear_value z; rotate_right)
    | (extract_lets +onlyGivenNames z; clear_value z)
    | split

end Sys2Proof.Machine
end

