-- ==== Sys2Proof/Laws/FrameTraps.lean ====
section
/-! SUPPORT. The frame of every operation of Machine/Traps.lean: the parts it may write, and what it keeps (`Keeps`). -/
namespace Sys2Proof.Machine

set_option linter.tactic.unusedName false
variable {W : Nat} {s0 : State}

theorem wardenErr_keeps (hw : Sub 0x80806 W) {n core applet s} (hs : Keeps W s0 s) : Keeps W s0 (wardenErr n core applet s) := by
  unfold wardenErr
  repeat' first
    | with_reducible assumption
    | with_reducible refine raiseErr_keeps (Sub.step hw rfl) ?_
    | with_reducible refine Keeps.foldl ?_ ?_
    | intro _
    | (extract_lets +onlyGivenNames z; refine Keeps.cut (W := W) (s0 := s0) (x := z) ?_ ?_; dsimp -zeta only [z]; rotate_left; clear_value z; rotate_right)
    | (extract_lets +onlyGivenNames z; clear_value z)
    | split

theorem retireCore_keeps (hw : Sub 0xc2826 W) {n s} (hs : Keeps W s0 s) : Keeps W s0 (retireCore n s) := by
  unfold retireCore
  repeat' first
    | with_reducible assumption
    | with_reducible refine wardenErr_keeps (Sub.step hw rfl) ?_
    | with_reducible refine setDegraded_keeps (Sub.step hw rfl) ?_
    | with_reducible refine recordRetired_keeps (Sub.step hw rfl) ?_
    | with_reducible refine postEvt_keeps (Sub.step hw rfl) ?_
    | intro _
    | (extract_lets +onlyGivenNames z; refine Keeps.cut (W := W) (s0 := s0) (x := z) ?_ ?_; dsimp -zeta only [z]; rotate_left; clear_value z; rotate_right)
    | (extract_lets +onlyGivenNames z; clear_value z)
    | split
    | with_reducible refine Keeps.units (Sub.step hw rfl) ?_

theorem endDebited_keeps (hw : Sub 0x183c5e W) {c st s} (hs : Keeps W s0 s) : Keeps W s0 (endDebited c st s) := by
  unfold endDebited
  repeat' first
    | with_reducible assumption
    | with_reducible refine finish_keeps (Sub.step hw rfl) ?_
    | with_reducible refine drawNat_keeps (Sub.step hw rfl) ?_
    | with_reducible refine PairAll.snd (P := Keeps W s0) (p := drawNat _) ?_
    | with_reducible refine PairAll.out (P := Keeps W s0) (by assumption) ?_
    | with_reducible refine Keeps.foldl ?_ ?_
    | intro _
    | (extract_lets +onlyGivenNames z; refine Keeps.cut (W := W) (s0 := s0) (x := z) ?_ ?_; dsimp -zeta only [z]; rotate_left; clear_value z; rotate_right)
    | (extract_lets +onlyGivenNames z; clear_value z)
    | split

theorem invokeFault_keeps (hw : Sub 0x183c5e W) {n i c st s} (hs : Keeps W s0 s) : Keeps W s0 (invokeFault n i c st s) := by
  unfold invokeFault
  repeat' first
    | with_reducible assumption
    | with_reducible refine wardenErr_keeps (Sub.step hw rfl) ?_
    | with_reducible refine endDebited_keeps (Sub.step hw rfl) ?_
    | with_reducible refine finishSt_keeps (Sub.step hw rfl) ?_
    | with_reducible refine Keeps.foldl ?_ ?_
    | intro _
    | (extract_lets +onlyGivenNames z; refine Keeps.cut (W := W) (s0 := s0) (x := z) ?_ ?_; dsimp -zeta only [z]; rotate_left; clear_value z; rotate_right)
    | (extract_lets +onlyGivenNames z; clear_value z)
    | split

theorem invokeEnd_keeps (hw : Sub 0x183c5e W) {n i c e s} (hs : Keeps W s0 s) : Keeps W s0 (invokeEnd n i c e s) := by
  unfold invokeEnd
  repeat' first
    | with_reducible assumption
    | with_reducible refine invokeFault_keeps (Sub.step hw rfl) ?_
    | with_reducible refine wardenErr_keeps (Sub.step hw rfl) ?_
    | with_reducible refine endDebited_keeps (Sub.step hw rfl) ?_
    | with_reducible refine finishSt_keeps (Sub.step hw rfl) ?_
    | with_reducible refine finish_keeps (Sub.step hw rfl) ?_
    | with_reducible refine Keeps.foldl ?_ ?_
    | intro _
    | (extract_lets +onlyGivenNames z; refine Keeps.cut (W := W) (s0 := s0) (x := z) ?_ ?_; dsimp -zeta only [z]; rotate_left; clear_value z; rotate_right)
    | (extract_lets +onlyGivenNames z; clear_value z)
    | split

theorem hookEnd_keeps (hw : Sub 0x183c5e W) {n i c e s} (hs : Keeps W s0 s) : Keeps W s0 (hookEnd n i c e s) := by
  unfold hookEnd
  dsimp only
  repeat' first
    | with_reducible assumption
    | with_reducible refine finishSt_keeps (Sub.step hw rfl) ?_
    | with_reducible refine wardenErr_keeps (Sub.step hw rfl) ?_
    | with_reducible refine startHook_keeps (Sub.step hw rfl) ?_
    | with_reducible refine cmdPut_keeps (Sub.step hw rfl) ?_
    | with_reducible refine Keeps.foldl ?_ ?_
    | intro _
    | (extract_lets +onlyGivenNames z; refine Keeps.cut (W := W) (s0 := s0) (x := z) ?_ ?_; dsimp -zeta only [z]; rotate_left; clear_value z; rotate_right)
    | (extract_lets +onlyGivenNames z; clear_value z)
    | split

theorem endInv_keeps (hw : Sub 0x183c5e W) {n e s} (hs : Keeps W s0 s) : Keeps W s0 (endInv n e s) := by
  unfold endInv
  repeat' first
    | with_reducible assumption
    | with_reducible refine coreMod_keeps (Sub.step hw rfl) ?_ ?_
    | with_reducible refine cmdDrop_keeps (Sub.step hw rfl) ?_
    | with_reducible refine hookEnd_keeps (Sub.step hw rfl) ?_
    | with_reducible refine invokeEnd_keeps (Sub.step hw rfl) ?_
    | with_reducible refine pumpHooks_keeps (Sub.step hw rfl) ?_
    | with_reducible refine pruneApplets_keeps (Sub.step hw rfl) ?_
    | with_reducible refine Keeps.foldl ?_ ?_
    | exact ‹Warden.coresWf _›
    | exact ‹List.length _ = 16›
    | exact Core.setReg_length ‹_›
    | intro _
    | (extract_lets +onlyGivenNames z; refine Keeps.cut (W := W) (s0 := s0) (x := z) ?_ ?_; dsimp -zeta only [z]; rotate_left; clear_value z; rotate_right)
    | (extract_lets +onlyGivenNames z; clear_value z)
    | split

theorem takeTrap_keeps (hw : Sub 0x1c3c7e W) {n code tval ds ret s} (hs : Keeps W s0 s) : Keeps W s0 (takeTrap n code tval ds ret s) := by
  unfold takeTrap
  have hb : Keeps W s0 (bump 0xA108 1 s) := bump_keeps (Sub.step hw rfl) hs
  have ht : ∀ k : Core, k.regs.length = 16 → (trapCore code tval ds ret k).regs.length = 16 := by
    intro k hk
    unfold trapCore
    dsimp only
    repeat' first
      | exact hk
      | split
  have he : ∀ e u, Keeps W s0 u → Keeps W s0 (endInv n e u) := fun e u h => endInv_keeps (Sub.step hw rfl) h
  extract_lets k s1
  have h1 : Keeps W s0 s1 := hb
  clear_value s1
  split
  · have h2 := coreMod_keeps (Sub.step (a := 0x400) hw rfl) (n := n) (f := fun k => restartCore (rtcNow s1) (trapCore code tval ds ret { k with inv := none }))
      (fun k _ => by simp [restartCore, resetCore]) (he .restart _ (wardenErr_keeps (n := 0) (applet := 0) (Sub.step hw rfl) (W := W) (s0 := s0) (core := n) (s := s1) h1))
    split
    · exact retireCore_keeps (Sub.step hw rfl) h2
    · exact h2
  · have h2 : Keeps W s0 (coreMod n (trapCore code tval ds ret) s1) := coreMod_keeps (Sub.step hw rfl) ht h1
    split
    · exact he _ _ (wardenErr_keeps (Sub.step hw rfl) h2)
    · split
      · split
        · exact he _ _ h2
        · split
          · exact svcReturn_keeps (Sub.step hw rfl) (bump_keeps (Sub.step hw rfl) h2)
          · exact h2
      · exact h2

theorem takeLate_keeps (hw : Sub 0x1c3c7e W) {n tval ret s} (hs : Keeps W s0 s) : Keeps W s0 (takeLate n tval ret s) := by
  unfold takeLate
  repeat' first
    | with_reducible assumption
    | with_reducible refine takeTrap_keeps (Sub.step hw rfl) ?_
    | with_reducible refine coreMod_keeps (Sub.step hw rfl) ?_ ?_
    | with_reducible refine Keeps.foldl ?_ ?_
    | exact ‹Warden.coresWf _›
    | exact ‹List.length _ = 16›
    | exact Core.setReg_length ‹_›
    | intro _
    | (extract_lets +onlyGivenNames z; refine Keeps.cut (W := W) (s0 := s0) (x := z) ?_ ?_; dsimp -zeta only [z]; rotate_left; clear_value z; rotate_right)
    | (extract_lets +onlyGivenNames z; clear_value z)
    | split

theorem trapOrLate_keeps (hw : Sub 0x1c3c7e W) {n code tval ds ret displaced s} (hs : Keeps W s0 s) : Keeps W s0 (trapOrLate n code tval ds ret displaced s) := by
  unfold trapOrLate
  repeat' first
    | with_reducible assumption
    | with_reducible refine takeLate_keeps (Sub.step hw rfl) ?_
    | with_reducible refine takeTrap_keeps (Sub.step hw rfl) ?_
    | with_reducible refine Keeps.foldl ?_ ?_
    | intro _
    | (extract_lets +onlyGivenNames z; refine Keeps.cut (W := W) (s0 := s0) (x := z) ?_ ?_; dsimp -zeta only [z]; rotate_left; clear_value z; rotate_right)
    | (extract_lets +onlyGivenNames z; clear_value z)
    | split

theorem raiseExc_keeps (hw : Sub 0x1c3c7e W) {n code tval s} (hs : Keeps W s0 s) : Keeps W s0 (raiseExc n code tval s) := by
  unfold raiseExc
  repeat' first
    | with_reducible assumption
    | with_reducible refine trapOrLate_keeps (Sub.step hw rfl) ?_
    | with_reducible refine Keeps.foldl ?_ ?_
    | intro _
    | (extract_lets +onlyGivenNames z; refine Keeps.cut (W := W) (s0 := s0) (x := z) ?_ ?_; dsimp -zeta only [z]; rotate_left; clear_value z; rotate_right)
    | (extract_lets +onlyGivenNames z; clear_value z)
    | split

theorem fetchCheck_keeps (hw : Sub 0xc2c26 W) {n s} (hs : Keeps W s0 s) : MemAns.All (Keeps W s0) (fetchCheck n s) := by
  unfold fetchCheck
  repeat' first
    | with_reducible assumption
    | with_reducible refine coreMod_keeps (Sub.step hw rfl) ?_ ?_
    | with_reducible refine flashSense_keeps (Sub.step hw rfl) ?_
    | with_reducible refine PairAll.out (P := Keeps W s0) (by assumption) ?_
    | with_reducible refine MemAns.all_ok ?_
    | with_reducible refine MemAns.all_exc ?_
    | exact MemAns.all_wait
    | intro _
    | (extract_lets +onlyGivenNames z; refine Keeps.cut (W := W) (s0 := s0) (x := z) ?_ ?_; dsimp -zeta only [z]; rotate_left; clear_value z; rotate_right)
    | (extract_lets +onlyGivenNames z; clear_value z)
    | split

theorem loadMem_keeps (hw : Sub 0x1c2826 W) {a size s} (hs : Keeps W s0 s) : MemAns.All (Keeps W s0) (loadMem a size s) := by
  unfold loadMem
  repeat' first
    | with_reducible assumption
    | with_reducible refine flashSense_keeps (Sub.step hw rfl) ?_
    | with_reducible refine drawNat_keeps (Sub.step hw rfl) ?_
    | with_reducible refine PairAll.out (P := Keeps W s0) (by assumption) ?_
    | with_reducible refine PairAll.snd (P := Keeps W s0) (p := drawNat _) ?_
    | with_reducible refine MemAns.all_ok ?_
    | with_reducible refine MemAns.all_exc ?_
    | exact MemAns.all_wait
    | split

theorem addLate_keeps (hw : Sub 0x400 W) {n t s} (hs : Keeps W s0 s) : Keeps W s0 (addLate n t s) := by
  unfold addLate
  repeat' first
    | with_reducible assumption
    | with_reducible refine coreMod_keeps (Sub.step hw rfl) ?_ ?_
    | with_reducible refine Keeps.foldl ?_ ?_
    | exact ‹Warden.coresWf _›
    | exact ‹List.length _ = 16›
    | exact Core.setReg_length ‹_›
    | intro _
    | (extract_lets +onlyGivenNames z; refine Keeps.cut (W := W) (s0 := s0) (x := z) ?_ ?_; dsimp -zeta only [z]; rotate_left; clear_value z; rotate_right)
    | (extract_lets +onlyGivenNames z; clear_value z)
    | split

end Sys2Proof.Machine
end

