-- ==== Sys2Proof/Laws/FrameAppletCmds.lean ====
section
/-! SUPPORT. The frame of every operation of Machine/AppletCmds.lean: the parts it may write, and what it keeps (`Keeps`). -/
namespace Sys2Proof.Machine

set_option linter.tactic.unusedName false
variable {W : Nat} {s0 : State}

theorem loadImage_keeps (hw : Sub 0x400 W) {a s} (hs : Keeps W s0 s) : Keeps W s0 (loadImage a s) := by
  unfold loadImage
  refine State.modWarden_keeps (Sub.step hw rfl) ?_ ?_ hs
  · intro x hx; exact cellsWrite_wf (cellsWrite_wf (cellsClear_wf hx))
  · intro x hx; exact hx

theorem endImage_keeps (hw : Sub 0x400 W) {num t s} (hs : Keeps W s0 s) : Keeps W s0 (endImage num t s) := by
  unfold endImage
  repeat' first
    | with_reducible assumption
    | with_reducible refine State.modWarden_keeps (Sub.step hw rfl) ?_ ?_ ?_
    | with_reducible refine Keeps.foldl ?_ ?_
    | exact ‹Warden.coresWf _›
    | exact ‹List.length _ = 16›
    | exact Core.setReg_length ‹_›
    | intro _
    | (extract_lets +onlyGivenNames z; refine Keeps.cut (W := W) (s0 := s0) (x := z) ?_ ?_; dsimp -zeta only [z]; rotate_left; clear_value z; rotate_right)
    | (extract_lets +onlyGivenNames z; clear_value z)
    | split

theorem placeApplet_keeps (hw : Sub 0x400 W) {pkg base t s} (hs : Keeps W s0 s) : Keeps W s0 (placeApplet pkg base t s) := by
  unfold placeApplet
  repeat' first
    | with_reducible assumption
    | with_reducible refine endImage_keeps (Sub.step hw rfl) ?_
    | with_reducible refine State.modWarden_keeps (Sub.step hw rfl) ?_ ?_ ?_
    | with_reducible refine loadImage_keeps (Sub.step hw rfl) ?_
    | with_reducible refine Keeps.foldl ?_ ?_
    | exact ‹Warden.coresWf _›
    | exact ‹List.length _ = 16›
    | exact Core.setReg_length ‹_›
    | intro _
    | (extract_lets +onlyGivenNames z; refine Keeps.cut (W := W) (s0 := s0) (x := z) ?_ ?_; dsimp -zeta only [z]; rotate_left; clear_value z; rotate_right)
    | (extract_lets +onlyGivenNames z; clear_value z)
    | split

theorem installSpec_keeps  : OpSpec.All (Keeps W s0) (installSpec ) := by
  intro c u hu
  exact Draws.all_ok hu

theorem installCommit_keeps (hw : Sub 0x183c5e W) {c s} (hs : Keeps W s0 s) : Keeps W s0 (installCommit c s) := by
  unfold installCommit
  repeat' first
    | with_reducible assumption
    | with_reducible refine finishSt_keeps (Sub.step hw rfl) ?_
    | with_reducible refine placeApplet_keeps (Sub.step hw rfl) ?_
    | with_reducible refine finish_keeps (Sub.step hw rfl) ?_
    | with_reducible refine postEvt_keeps (Sub.step hw rfl) ?_
    | with_reducible refine pumpHooks_keeps (Sub.step hw rfl) ?_
    | with_reducible refine pruneApplets_keeps (Sub.step hw rfl) ?_
    | with_reducible refine Keeps.foldl ?_ ?_
    | intro _
    | (extract_lets +onlyGivenNames z; refine Keeps.cut (W := W) (s0 := s0) (x := z) ?_ ?_; dsimp -zeta only [z]; rotate_left; clear_value z; rotate_right)
    | (extract_lets +onlyGivenNames z; clear_value z)
    | split

theorem execAppletInstall_keeps (hw : Sub 0x183c5e W) {id s} (hs : Keeps W s0 s) : OutAll (Keeps W s0) (execAppletInstall id s) := by
  unfold execAppletInstall
  repeat' first
    | with_reducible assumption
    | with_reducible refine runOp_keeps (Sub.step hw rfl) ?_ ?_ ?_
    | with_reducible refine installSpec_keeps 
    | with_reducible refine installCommit_keeps (Sub.step hw rfl) ?_
    | with_reducible refine finishSt_keeps (Sub.step hw rfl) ?_
    | with_reducible refine archiveSync_keeps (Sub.step hw rfl) ?_
    | with_reducible refine cmdPut_keeps (Sub.step hw rfl) ?_
    | with_reducible refine PairAll.snd (P := Keeps W s0) (p := archiveSync _ _ _) ?_
    | with_reducible refine PairAll.out (P := Keeps W s0) (by assumption) ?_
    | ((with_reducible refine OpSpec.All.default ?_); exact rfl)
    | with_reducible refine OutAll.next ?_
    | with_reducible refine Keeps.foldl ?_ ?_
    | intro _
    | (extract_lets +onlyGivenNames z; refine Keeps.cut (W := W) (s0 := s0) (x := z) ?_ ?_; dsimp -zeta only [z]; rotate_left; clear_value z; rotate_right)
    | (extract_lets +onlyGivenNames z; clear_value z)
    | split

theorem execAppletRemove_keeps (hw : Sub 0x183c5e W) {id s} (hs : Keeps W s0 s) : OutAll (Keeps W s0) (execAppletRemove id s) := by
  unfold execAppletRemove
  repeat' first
    | with_reducible assumption
    | with_reducible refine runOp_keeps (Sub.step hw rfl) ?_ ?_ ?_
    | with_reducible refine noKeys_keeps 
    | with_reducible refine endImage_keeps (Sub.step hw rfl) ?_
    | with_reducible refine pruneApplets_keeps (Sub.step hw rfl) ?_
    | with_reducible refine postEvt_keeps (Sub.step hw rfl) ?_
    | with_reducible refine finishSt_keeps (Sub.step hw rfl) ?_
    | with_reducible refine archiveSync_keeps (Sub.step hw rfl) ?_
    | with_reducible refine cmdPut_keeps (Sub.step hw rfl) ?_
    | with_reducible refine PairAll.snd (P := Keeps W s0) (p := archiveSync _ _ _) ?_
    | with_reducible refine PairAll.out (P := Keeps W s0) (by assumption) ?_
    | ((with_reducible refine OpSpec.All.default ?_); exact rfl)
    | with_reducible refine OutAll.next ?_
    | with_reducible refine Keeps.foldl ?_ ?_
    | intro _
    | (extract_lets +onlyGivenNames z; refine Keeps.cut (W := W) (s0 := s0) (x := z) ?_ ?_; dsimp -zeta only [z]; rotate_left; clear_value z; rotate_right)
    | (extract_lets +onlyGivenNames z; clear_value z)
    | split

theorem execAppletInvoke_keeps (hw : Sub 0x183c5e W) {id s} (hs : Keeps W s0 s) : OutAll (Keeps W s0) (execAppletInvoke id s) := by
  unfold execAppletInvoke
  repeat' first
    | with_reducible assumption
    | with_reducible refine runOp_keeps (Sub.step hw rfl) ?_ ?_ ?_
    | with_reducible refine noKeys_keeps 
    | with_reducible refine finishSt_keeps (Sub.step hw rfl) ?_
    | with_reducible refine enterApplet_keeps (Sub.step hw rfl) ?_
    | ((with_reducible refine OpSpec.All.default ?_); exact rfl)
    | with_reducible refine OutAll.next ?_
    | with_reducible refine Keeps.foldl ?_ ?_
    | intro _
    | (extract_lets +onlyGivenNames z; refine Keeps.cut (W := W) (s0 := s0) (x := z) ?_ ?_; dsimp -zeta only [z]; rotate_left; clear_value z; rotate_right)
    | (extract_lets +onlyGivenNames z; clear_value z)
    | split

theorem execAppletList_keeps (hw : Sub 0x183c5e W) {id s} (hs : Keeps W s0 s) : OutAll (Keeps W s0) (execAppletList id s) := by
  unfold execAppletList
  repeat' first
    | with_reducible assumption
    | with_reducible refine runOp_keeps (Sub.step hw rfl) ?_ ?_ ?_
    | with_reducible refine noKeys_keeps 
    | with_reducible refine finish_keeps (Sub.step hw rfl) ?_
    | ((with_reducible refine OpSpec.All.default ?_); exact rfl)
    | with_reducible refine OutAll.next ?_
    | with_reducible refine Keeps.foldl ?_ ?_
    | intro _
    | (extract_lets +onlyGivenNames z; refine Keeps.cut (W := W) (s0 := s0) (x := z) ?_ ?_; dsimp -zeta only [z]; rotate_left; clear_value z; rotate_right)
    | (extract_lets +onlyGivenNames z; clear_value z)
    | split

theorem reloadApplets_keeps (hw : Sub 0x400 W) {s} (hs : Keeps W s0 s) : Keeps W s0 (reloadApplets s) := by
  unfold reloadApplets
  repeat' first
    | with_reducible assumption
    | with_reducible refine placeApplet_keeps (Sub.step hw rfl) ?_
    | with_reducible refine Keeps.foldl ?_ ?_
    | intro _
    | (extract_lets +onlyGivenNames z; refine Keeps.cut (W := W) (s0 := s0) (x := z) ?_ ?_; dsimp -zeta only [z]; rotate_left; clear_value z; rotate_right)
    | (extract_lets +onlyGivenNames z; clear_value z)
    | split

end Sys2Proof.Machine
end

