-- ==== Sys2Proof/Laws/FrameLedger.lean ====
section
/-! SUPPORT. The frame of every operation of Machine/Ledger.lean: the parts it may write, and what it keeps (`Keeps`). -/
namespace Sys2Proof.Machine

set_option linter.tactic.unusedName false
variable {W : Nat} {s0 : State}

theorem poolMod_keeps (hw : Sub 0x1000 W) {n f s} (hs : Keeps W s0 s) : Keeps W s0 (poolMod n f s) := by
  unfold poolMod
  repeat' first
    | with_reducible assumption
    | with_reducible refine poolSet_keeps (Sub.step hw rfl) ?_
    | with_reducible refine Keeps.foldl ?_ ?_
    | intro _
    | (extract_lets +onlyGivenNames z; refine Keeps.cut (W := W) (s0 := s0) (x := z) ?_ ?_; dsimp -zeta only [z]; rotate_left; clear_value z; rotate_right)
    | (extract_lets +onlyGivenNames z; clear_value z)
    | split

theorem poolKeep_keeps (hw : Sub 0x83806 W) {n f s} (hs : Keeps W s0 s) : Keeps W s0 (poolKeep n f s) := by
  unfold poolKeep
  repeat' first
    | with_reducible assumption
    | with_reducible refine archive_keeps (Sub.step hw rfl) ?_
    | with_reducible refine poolSet_keeps (Sub.step hw rfl) ?_
    | with_reducible refine Keeps.foldl ?_ ?_
    | intro _
    | (extract_lets +onlyGivenNames z; refine Keeps.cut (W := W) (s0 := s0) (x := z) ?_ ?_; dsimp -zeta only [z]; rotate_left; clear_value z; rotate_right)
    | (extract_lets +onlyGivenNames z; clear_value z)
    | split

theorem ledgerAudit_keeps (hw : Sub 0x82806 W) {kind pool amount s} (hs : Keeps W s0 s) : Keeps W s0 (ledgerAudit kind pool amount s) := by
  unfold ledgerAudit
  repeat' first
    | with_reducible assumption
    | with_reducible refine auditDev_keeps (Sub.step hw rfl) ?_
    | with_reducible refine Keeps.foldl ?_ ?_
    | intro _
    | (extract_lets +onlyGivenNames z; refine Keeps.cut (W := W) (s0 := s0) (x := z) ?_ ?_; dsimp -zeta only [z]; rotate_left; clear_value z; rotate_right)
    | (extract_lets +onlyGivenNames z; clear_value z)
    | split

theorem keptSet_keeps (hw : Sub 0x1000 W) {k s} (hs : Keeps W s0 s) : Keeps W s0 (keptSet k s) := by
  unfold keptSet
  repeat' first
    | with_reducible assumption
    | with_reducible refine State.modCistern_keeps (Sub.step hw rfl) ?_
    | with_reducible refine Keeps.foldl ?_ ?_
    | intro _
    | (extract_lets +onlyGivenNames z; refine Keeps.cut (W := W) (s0 := s0) (x := z) ?_ ?_; dsimp -zeta only [z]; rotate_left; clear_value z; rotate_right)
    | (extract_lets +onlyGivenNames z; clear_value z)
    | split

theorem ringAdd_keeps (hw : Sub 0x81000 W) {r s} (hs : Keeps W s0 s) : Keeps W s0 (ringAdd r s) := by
  unfold ringAdd
  repeat' first
    | with_reducible assumption
    | with_reducible refine bump_keeps (Sub.step hw rfl) ?_
    | with_reducible refine State.modCistern_keeps (Sub.step hw rfl) ?_
    | with_reducible refine Keeps.foldl ?_ ?_
    | intro _
    | (extract_lets +onlyGivenNames z; refine Keeps.cut (W := W) (s0 := s0) (x := z) ?_ ?_; dsimp -zeta only [z]; rotate_left; clear_value z; rotate_right)
    | (extract_lets +onlyGivenNames z; clear_value z)
    | split

theorem ringReclaim_keeps (hw : Sub 0x1000 W) {s} (hs : Keeps W s0 s) : Keeps W s0 (ringReclaim s) := by
  unfold ringReclaim
  repeat' first
    | with_reducible assumption
    | with_reducible refine State.modCistern_keeps (Sub.step hw rfl) ?_
    | with_reducible refine Keeps.foldl ?_ ?_
    | intro _
    | (extract_lets +onlyGivenNames z; refine Keeps.cut (W := W) (s0 := s0) (x := z) ?_ ?_; dsimp -zeta only [z]; rotate_left; clear_value z; rotate_right)
    | (extract_lets +onlyGivenNames z; clear_value z)
    | split

theorem ringMod_keeps (hw : Sub 0x1000 W) {p f s} (hs : Keeps W s0 s) : Keeps W s0 (ringMod p f s) := by
  unfold ringMod
  repeat' first
    | with_reducible assumption
    | with_reducible refine State.modCistern_keeps (Sub.step hw rfl) ?_
    | with_reducible refine Keeps.foldl ?_ ?_
    | intro _
    | (extract_lets +onlyGivenNames z; refine Keeps.cut (W := W) (s0 := s0) (x := z) ?_ ?_; dsimp -zeta only [z]; rotate_left; clear_value z; rotate_right)
    | (extract_lets +onlyGivenNames z; clear_value z)
    | split

theorem sendTransfer_keeps (hw : Sub 0x81000 W) {r s} (hs : Keeps W s0 s) : Keeps W s0 (sendTransfer r s) := by
  unfold sendTransfer
  repeat' first
    | with_reducible assumption
    | with_reducible refine routeSend_keeps (Sub.step hw rfl) ?_
    | with_reducible refine Keeps.foldl ?_ ?_
    | intro _
    | (extract_lets +onlyGivenNames z; refine Keeps.cut (W := W) (s0 := s0) (x := z) ?_ ?_; dsimp -zeta only [z]; rotate_left; clear_value z; rotate_right)
    | (extract_lets +onlyGivenNames z; clear_value z)
    | split

theorem endCmd_keeps (hw : Sub 0x83c5e W) {id e s} (hs : Keeps W s0 s) : Keeps W s0 (endCmd id e s) := by
  unfold endCmd
  repeat' first
    | with_reducible assumption
    | with_reducible refine finish_keeps (Sub.step hw rfl) ?_
    | with_reducible refine Keeps.foldl ?_ ?_
    | intro _
    | (extract_lets +onlyGivenNames z; refine Keeps.cut (W := W) (s0 := s0) (x := z) ?_ ?_; dsimp -zeta only [z]; rotate_left; clear_value z; rotate_right)
    | (extract_lets +onlyGivenNames z; clear_value z)
    | split

theorem headerBcast_keeps (hw : Sub 0x81000 W) {n s} (hs : Keeps W s0 s) : Keeps W s0 (headerBcast n s) := by
  unfold headerBcast
  repeat' first
    | with_reducible assumption
    | with_reducible refine broadcast_keeps (Sub.step hw rfl) ?_
    | with_reducible refine Keeps.foldl ?_ ?_
    | intro _
    | (extract_lets +onlyGivenNames z; refine Keeps.cut (W := W) (s0 := s0) (x := z) ?_ ?_; dsimp -zeta only [z]; rotate_left; clear_value z; rotate_right)
    | (extract_lets +onlyGivenNames z; clear_value z)
    | split

theorem burnRest_keeps (hw : Sub 0x83806 W) {n s} (hs : Keeps W s0 s) : Keeps W s0 (burnRest n s) := by
  unfold burnRest
  repeat' first
    | with_reducible assumption
    | with_reducible refine poolKeep_keeps (Sub.step hw rfl) ?_
    | with_reducible refine poolLow_keeps (Sub.step hw rfl) ?_
    | with_reducible refine ledgerAudit_keeps (Sub.step hw rfl) ?_
    | with_reducible refine Keeps.foldl ?_ ?_
    | intro _
    | (extract_lets +onlyGivenNames z; refine Keeps.cut (W := W) (s0 := s0) (x := z) ?_ ?_; dsimp -zeta only [z]; rotate_left; clear_value z; rotate_right)
    | (extract_lets +onlyGivenNames z; clear_value z)
    | split

theorem entryTakes_keeps (hw : Sub 0x83c5e W) {e cmd s} (hs : Keeps W s0 s) : Keeps W s0 (entryTakes e cmd s) := by
  unfold entryTakes
  repeat' first
    | with_reducible assumption
    | with_reducible refine poolKeep_keeps (Sub.step hw rfl) ?_
    | with_reducible refine endCmd_keeps (Sub.step hw rfl) ?_
    | with_reducible refine headerBcast_keeps (Sub.step hw rfl) ?_
    | with_reducible refine poolLow_keeps (Sub.step hw rfl) ?_
    | with_reducible refine ledgerAudit_keeps (Sub.step hw rfl) ?_
    | with_reducible refine bump_keeps (Sub.step hw rfl) ?_
    | with_reducible refine ringMod_keeps (Sub.step hw rfl) ?_
    | with_reducible refine sendTransfer_keeps (Sub.step hw rfl) ?_
    | with_reducible refine routeSend_keeps (Sub.step hw rfl) ?_
    | with_reducible refine postEvt_keeps (Sub.step hw rfl) ?_
    | with_reducible refine Keeps.foldl ?_ ?_
    | intro _
    | (extract_lets +onlyGivenNames z; refine Keeps.cut (W := W) (s0 := s0) (x := z) ?_ ?_; dsimp -zeta only [z]; rotate_left; clear_value z; rotate_right)
    | (extract_lets +onlyGivenNames z; clear_value z)
    | split

theorem entryVoid_keeps (hw : Sub 0x83c5e W) {e cmd s} (hs : Keeps W s0 s) : Keeps W s0 (entryVoid e cmd s) := by
  unfold entryVoid
  repeat' first
    | with_reducible assumption
    | with_reducible refine bump_keeps (Sub.step hw rfl) ?_
    | with_reducible refine ringMod_keeps (Sub.step hw rfl) ?_
    | with_reducible refine State.modCistern_keeps (Sub.step hw rfl) ?_
    | with_reducible refine routeSend_keeps (Sub.step hw rfl) ?_
    | with_reducible refine burnRest_keeps (Sub.step hw rfl) ?_
    | with_reducible refine endCmd_keeps (Sub.step hw rfl) ?_
    | with_reducible refine Keeps.foldl ?_ ?_
    | intro _
    | (extract_lets +onlyGivenNames z; refine Keeps.cut (W := W) (s0 := s0) (x := z) ?_ ?_; dsimp -zeta only [z]; rotate_left; clear_value z; rotate_right)
    | (extract_lets +onlyGivenNames z; clear_value z)
    | split

theorem ownAck_keeps (hw : Sub 0x83c5e W) {lsq v s} (hs : Keeps W s0 s) : Keeps W s0 (ownAck lsq v s) := by
  unfold ownAck
  repeat' first
    | with_reducible assumption
    | with_reducible refine State.modCistern_keeps (Sub.step hw rfl) ?_
    | with_reducible refine entryTakes_keeps (Sub.step hw rfl) ?_
    | with_reducible refine entryVoid_keeps (Sub.step hw rfl) ?_
    | with_reducible refine Keeps.foldl ?_ ?_
    | intro _
    | (extract_lets +onlyGivenNames z; refine Keeps.cut (W := W) (s0 := s0) (x := z) ?_ ?_; dsimp -zeta only [z]; rotate_left; clear_value z; rotate_right)
    | (extract_lets +onlyGivenNames z; clear_value z)
    | split

theorem sendAck_keeps (hw : Sub 0x83c5e W) {d lsq v s} (hs : Keeps W s0 s) : Keeps W s0 (sendAck d lsq v s) := by
  unfold sendAck
  repeat' first
    | with_reducible assumption
    | with_reducible refine ownAck_keeps (Sub.step hw rfl) ?_
    | with_reducible refine routeSend_keeps (Sub.step hw rfl) ?_
    | with_reducible refine Keeps.foldl ?_ ?_
    | intro _
    | (extract_lets +onlyGivenNames z; refine Keeps.cut (W := W) (s0 := s0) (x := z) ?_ ?_; dsimp -zeta only [z]; rotate_left; clear_value z; rotate_right)
    | (extract_lets +onlyGivenNames z; clear_value z)
    | split

theorem keepStmt_keeps (hw : Sub 0x83c5e W) {st s} (hs : Keeps W s0 s) : Keeps W s0 (keepStmt st s) := by
  unfold keepStmt
  dsimp only
  repeat' first
    | with_reducible assumption
    | with_reducible refine archiveSync_keeps (Sub.step hw rfl) ?_
    | with_reducible refine keptSet_keeps (Sub.step hw rfl) ?_
    | with_reducible refine State.modCistern_keeps (Sub.step hw rfl) ?_
    | with_reducible refine sendAck_keeps (Sub.step hw rfl) ?_
    | with_reducible refine PairAll.snd (P := Keeps W s0) (p := archiveSync _ _ _) ?_
    | with_reducible refine PairAll.out (P := Keeps W s0) (by assumption) ?_
    | with_reducible refine Keeps.foldl ?_ ?_
    | intro _
    | (extract_lets +onlyGivenNames z; refine Keeps.cut (W := W) (s0 := s0) (x := z) ?_ ?_; dsimp -zeta only [z]; rotate_left; clear_value z; rotate_right)
    | (extract_lets +onlyGivenNames z; clear_value z)
    | split

theorem keeperChanged_keeps (hw : Sub 0x83c5e W) {lsq v s} (hs : Keeps W s0 s) : Keeps W s0 (keeperChanged lsq v s) := by
  unfold keeperChanged
  repeat' first
    | with_reducible assumption
    | with_reducible refine endCmd_keeps (Sub.step hw rfl) ?_
    | with_reducible refine State.modCistern_keeps (Sub.step hw rfl) ?_
    | with_reducible refine routeSend_keeps (Sub.step hw rfl) ?_
    | with_reducible refine keepStmt_keeps (Sub.step hw rfl) ?_
    | with_reducible refine resendStmts_keeps (Sub.step hw rfl) ?_
    | with_reducible refine Keeps.foldl ?_ ?_
    | intro _
    | (extract_lets +onlyGivenNames z; refine Keeps.cut (W := W) (s0 := s0) (x := z) ?_ ?_; dsimp -zeta only [z]; rotate_left; clear_value z; rotate_right)
    | (extract_lets +onlyGivenNames z; clear_value z)
    | split

theorem ackDurable_keeps (hw : Sub 0x83c5e W) {s} (hs : Keeps W s0 s) : Keeps W s0 (ackDurable s) := by
  unfold ackDurable
  repeat' first
    | with_reducible assumption
    | with_reducible refine State.modCistern_keeps (Sub.step hw rfl) ?_
    | with_reducible refine sendAck_keeps (Sub.step hw rfl) ?_
    | with_reducible refine keeperChanged_keeps (Sub.step hw rfl) ?_
    | with_reducible refine Keeps.foldl ?_ ?_
    | intro _
    | (extract_lets +onlyGivenNames z; refine Keeps.cut (W := W) (s0 := s0) (x := z) ?_ ?_; dsimp -zeta only [z]; rotate_left; clear_value z; rotate_right)
    | (extract_lets +onlyGivenNames z; clear_value z)
    | split

theorem stepStmtAt_keeps (hw : Sub 0x83c5e W) {t e cmd s} (hs : Keeps W s0 s) : Keeps W s0 (stepStmtAt t e cmd s) := by
  unfold stepStmtAt
  repeat' first
    | with_reducible assumption
    | with_reducible refine State.modCistern_keeps (Sub.step hw rfl) ?_
    | with_reducible refine keepStmt_keeps (Sub.step hw rfl) ?_
    | with_reducible refine sendStmt_keeps (Sub.step hw rfl) ?_
    | with_reducible refine Keeps.foldl ?_ ?_
    | intro _
    | (extract_lets +onlyGivenNames z; refine Keeps.cut (W := W) (s0 := s0) (x := z) ?_ ?_; dsimp -zeta only [z]; rotate_left; clear_value z; rotate_right)
    | (extract_lets +onlyGivenNames z; clear_value z)
    | split

theorem stepStmt_keeps (hw : Sub 0x83c5e W) {e cmd s} (hs : Keeps W s0 s) : Keeps W s0 (stepStmt e cmd s) := by
  unfold stepStmt
  repeat' first
    | with_reducible assumption
    | with_reducible refine issueTally_keeps (Sub.step hw rfl) ?_
    | with_reducible refine stepStmtAt_keeps (Sub.step hw rfl) ?_
    | with_reducible refine PairAll.snd (P := Keeps W s0) (p := issueTally _) ?_
    | with_reducible refine PairAll.out (P := Keeps W s0) (by assumption) ?_
    | with_reducible refine Keeps.foldl ?_ ?_
    | intro _
    | (extract_lets +onlyGivenNames z; refine Keeps.cut (W := W) (s0 := s0) (x := z) ?_ ?_; dsimp -zeta only [z]; rotate_left; clear_value z; rotate_right)
    | (extract_lets +onlyGivenNames z; clear_value z)
    | split

theorem transferIn_keeps (hw : Sub 0x83c5e W) {src pool tally amount s} (hs : Keeps W s0 s) : Keeps W s0 (transferIn src pool tally amount s) := by
  unfold transferIn
  repeat' first
    | with_reducible assumption
    | with_reducible refine routeSend_keeps (Sub.step hw rfl) ?_
    | with_reducible refine issueTally_keeps (Sub.step hw rfl) ?_
    | with_reducible refine ringReclaim_keeps (Sub.step hw rfl) ?_
    | with_reducible refine ringAdd_keeps (Sub.step hw rfl) ?_
    | with_reducible refine stepStmt_keeps (Sub.step hw rfl) ?_
    | with_reducible refine PairAll.snd (P := Keeps W s0) (p := issueTally _) ?_
    | with_reducible refine PairAll.out (P := Keeps W s0) (by assumption) ?_
    | with_reducible refine Keeps.foldl ?_ ?_
    | intro _
    | (extract_lets +onlyGivenNames z; refine Keeps.cut (W := W) (s0 := s0) (x := z) ?_ ?_; dsimp -zeta only [z]; rotate_left; clear_value z; rotate_right)
    | (extract_lets +onlyGivenNames z; clear_value z)
    | split

theorem transferAnswer_keeps (hw : Sub 0x83c5e W) {dst pool tally a s} (hs : Keeps W s0 s) : Keeps W s0 (transferAnswer dst pool tally a s) := by
  unfold transferAnswer
  repeat' first
    | with_reducible assumption
    | with_reducible refine bump_keeps (Sub.step hw rfl) ?_
    | with_reducible refine ringMod_keeps (Sub.step hw rfl) ?_
    | with_reducible refine stepStmt_keeps (Sub.step hw rfl) ?_
    | with_reducible refine postEvt_keeps (Sub.step hw rfl) ?_
    | with_reducible refine routeSend_keeps (Sub.step hw rfl) ?_
    | with_reducible refine ledgerAudit_keeps (Sub.step hw rfl) ?_
    | with_reducible refine Keeps.foldl ?_ ?_
    | intro _
    | (extract_lets +onlyGivenNames z; refine Keeps.cut (W := W) (s0 := s0) (x := z) ?_ ?_; dsimp -zeta only [z]; rotate_left; clear_value z; rotate_right)
    | (extract_lets +onlyGivenNames z; clear_value z)
    | split

theorem floorIn_keeps (hw : Sub 0x1000 W) {src t s} (hs : Keeps W s0 s) : Keeps W s0 (floorIn src t s) := by
  unfold floorIn
  repeat' first
    | with_reducible assumption
    | with_reducible refine State.modCistern_keeps (Sub.step hw rfl) ?_
    | with_reducible refine Keeps.foldl ?_ ?_
    | intro _
    | (extract_lets +onlyGivenNames z; refine Keeps.cut (W := W) (s0 := s0) (x := z) ?_ ?_; dsimp -zeta only [z]; rotate_left; clear_value z; rotate_right)
    | (extract_lets +onlyGivenNames z; clear_value z)
    | split

theorem declare_keeps (hw : Sub 0x83806 W) {n amount s} (hs : Keeps W s0 s) : Keeps W s0 (declare n amount s) := by
  unfold declare
  repeat' first
    | with_reducible assumption
    | with_reducible refine headerBcast_keeps (Sub.step hw rfl) ?_
    | with_reducible refine poolKeep_keeps (Sub.step hw rfl) ?_
    | with_reducible refine Keeps.foldl ?_ ?_
    | intro _
    | (extract_lets +onlyGivenNames z; refine Keeps.cut (W := W) (s0 := s0) (x := z) ?_ ?_; dsimp -zeta only [z]; rotate_left; clear_value z; rotate_right)
    | (extract_lets +onlyGivenNames z; clear_value z)
    | split

theorem settledAnswer_keeps (hw : Sub 0x83c5e W) {d pool tally held s} (hs : Keeps W s0 s) : Keeps W s0 (settledAnswer d pool tally held s) := by
  unfold settledAnswer
  repeat' first
    | with_reducible assumption
    | with_reducible refine transferAnswer_keeps (Sub.step hw rfl) ?_
    | with_reducible refine Keeps.foldl ?_ ?_
    | intro _
    | (extract_lets +onlyGivenNames z; refine Keeps.cut (W := W) (s0 := s0) (x := z) ?_ ?_; dsimp -zeta only [z]; rotate_left; clear_value z; rotate_right)
    | (extract_lets +onlyGivenNames z; clear_value z)
    | split

theorem askSettled_keeps (hw : Sub 0x83c5e W) {k d pool s} (hs : Keeps W s0 s) : Keeps W s0 (askSettled k d pool s) := by
  unfold askSettled
  repeat' first
    | with_reducible assumption
    | with_reducible refine settledAnswer_keeps (Sub.step hw rfl) ?_
    | with_reducible refine routeSend_keeps (Sub.step hw rfl) ?_
    | with_reducible refine Keeps.foldl ?_ ?_
    | intro _
    | (extract_lets +onlyGivenNames z; refine Keeps.cut (W := W) (s0 := s0) (x := z) ?_ ?_; dsimp -zeta only [z]; rotate_left; clear_value z; rotate_right)
    | (extract_lets +onlyGivenNames z; clear_value z)
    | split

theorem declared_keeps (hw : Sub 0x83c5e W) {k d pool amount lsq s} (hs : Keeps W s0 s) : Keeps W s0 (declared k d pool amount lsq s) := by
  unfold declared
  repeat' first
    | with_reducible assumption
    | with_reducible refine postEvt_keeps (Sub.step hw rfl) ?_
    | with_reducible refine burnRest_keeps (Sub.step hw rfl) ?_
    | with_reducible refine askSettled_keeps (Sub.step hw rfl) ?_
    | with_reducible refine State.modCistern_keeps (Sub.step hw rfl) ?_
    | with_reducible refine auditDev_keeps (Sub.step hw rfl) ?_
    | with_reducible refine endCmd_keeps (Sub.step hw rfl) ?_
    | with_reducible refine Keeps.foldl ?_ ?_
    | intro _
    | (extract_lets +onlyGivenNames z; refine Keeps.cut (W := W) (s0 := s0) (x := z) ?_ ?_; dsimp -zeta only [z]; rotate_left; clear_value z; rotate_right)
    | (extract_lets +onlyGivenNames z; clear_value z)
    | split

theorem settleKept_keeps (hw : Sub 0x83c5e W) {d pool acked s} (hs : Keeps W s0 s) : Keeps W s0 (settleKept d pool acked s) := by
  unfold settleKept
  repeat' first
    | with_reducible assumption
    | with_reducible refine archive_keeps (Sub.step hw rfl) ?_
    | with_reducible refine keptSet_keeps (Sub.step hw rfl) ?_
    | with_reducible refine declare_keeps (Sub.step hw rfl) ?_
    | with_reducible refine auditDev_keeps (Sub.step hw rfl) ?_
    | with_reducible refine declared_keeps (Sub.step hw rfl) ?_
    | with_reducible refine broadcast_keeps (Sub.step hw rfl) ?_
    | with_reducible refine Keeps.foldl ?_ ?_
    | intro _
    | (extract_lets +onlyGivenNames z; refine Keeps.cut (W := W) (s0 := s0) (x := z) ?_ ?_; dsimp -zeta only [z]; rotate_left; clear_value z; rotate_right)
    | (extract_lets +onlyGivenNames z; clear_value z)
    | split

theorem settleFree_keeps (hw : Sub 0x183c5e W) {d pool s} (hs : Keeps W s0 s) : Keeps W s0 (settleFree d pool s) := by
  unfold settleFree
  repeat' first
    | with_reducible assumption
    | with_reducible refine drawBytes_keeps (Sub.step hw rfl) ?_
    | with_reducible refine settleKept_keeps (Sub.step hw rfl) ?_
    | with_reducible refine PairAll.snd (P := Keeps W s0) (p := drawBytes _ _) ?_
    | with_reducible refine PairAll.out (P := Keeps W s0) (by assumption) ?_
    | with_reducible refine Keeps.foldl ?_ ?_
    | intro _
    | (extract_lets +onlyGivenNames z; refine Keeps.cut (W := W) (s0 := s0) (x := z) ?_ ?_; dsimp -zeta only [z]; rotate_left; clear_value z; rotate_right)
    | (extract_lets +onlyGivenNames z; clear_value z)
    | split

theorem answerQuery_keeps (hw : Sub 0x83806 W) {asker d pool tally s} (hs : Keeps W s0 s) : Keeps W s0 (answerQuery asker d pool tally s) := by
  unfold answerQuery
  repeat' first
    | with_reducible assumption
    | with_reducible refine routeSend_keeps (Sub.step hw rfl) ?_
    | with_reducible refine archive_keeps (Sub.step hw rfl) ?_
    | with_reducible refine keptSet_keeps (Sub.step hw rfl) ?_
    | with_reducible refine Keeps.foldl ?_ ?_
    | intro _
    | (extract_lets +onlyGivenNames z; refine Keeps.cut (W := W) (s0 := s0) (x := z) ?_ ?_; dsimp -zeta only [z]; rotate_left; clear_value z; rotate_right)
    | (extract_lets +onlyGivenNames z; clear_value z)
    | split

theorem applyDomainKey_keeps (hw : Sub 0x182846 W) {i gen r s} (hs : Keeps W s0 s) : Keeps W s0 (applyDomainKey i gen r s) := by
  unfold applyDomainKey
  repeat' first
    | with_reducible assumption
    | with_reducible refine slotSet_keeps (Sub.step hw rfl) ?_
    | with_reducible refine archive_keeps (Sub.step hw rfl) ?_
    | with_reducible refine State.modKeys_keeps (Sub.step hw rfl) ?_
    | with_reducible refine storeRec_keeps (Sub.step hw rfl) ?_
    | with_reducible refine Keeps.foldl ?_ ?_
    | intro _
    | (extract_lets +onlyGivenNames z; refine Keeps.cut (W := W) (s0 := s0) (x := z) ?_ ?_; dsimp -zeta only [z]; rotate_left; clear_value z; rotate_right)
    | (extract_lets +onlyGivenNames z; clear_value z)
    | split

theorem bcastTakes_keeps (hw : Sub 0x183c5e W) {origin b s} (hs : Keeps W s0 s) : Keeps W s0 (bcastTakes origin b s) := by
  unfold bcastTakes
  repeat' first
    | with_reducible assumption
    | with_reducible refine archive_keeps (Sub.step hw rfl) ?_
    | with_reducible refine poolSet_keeps (Sub.step hw rfl) ?_
    | with_reducible refine declared_keeps (Sub.step hw rfl) ?_
    | with_reducible refine memberMod_keeps (Sub.step hw rfl) ?_
    | with_reducible refine learnMember_keeps (Sub.step hw rfl) ?_
    | with_reducible refine applyDomainKey_keeps (Sub.step hw rfl) ?_
    | with_reducible refine Keeps.foldl ?_ ?_
    | intro _
    | (extract_lets +onlyGivenNames z; refine Keeps.cut (W := W) (s0 := s0) (x := z) ?_ ?_; dsimp -zeta only [z]; rotate_left; clear_value z; rotate_right)
    | (extract_lets +onlyGivenNames z; clear_value z)
    | split

theorem bcastIn_keeps (hw : Sub 0x183c5e W) {n origin seq b s} (hs : Keeps W s0 s) : Keeps W s0 (bcastIn n origin seq b s) := by
  unfold bcastIn
  repeat' first
    | with_reducible assumption
    | with_reducible refine learnMember_keeps (Sub.step hw rfl) ?_
    | with_reducible refine memberMod_keeps (Sub.step hw rfl) ?_
    | with_reducible refine bcastTakes_keeps (Sub.step hw rfl) ?_
    | with_reducible refine State.modCistern_keeps (Sub.step hw rfl) ?_
    | with_reducible refine flood_keeps (Sub.step hw rfl) ?_
    | with_reducible refine routeSend_keeps (Sub.step hw rfl) ?_
    | with_reducible refine neighbourSend_keeps (Sub.step hw rfl) ?_
    | with_reducible refine Keeps.foldl ?_ ?_
    | intro _
    | (extract_lets +onlyGivenNames z; refine Keeps.cut (W := W) (s0 := s0) (x := z) ?_ ?_; dsimp -zeta only [z]; rotate_left; clear_value z; rotate_right)
    | (extract_lets +onlyGivenNames z; clear_value z)
    | split

theorem bcastAcked_keeps (hw : Sub 0x81806 W) {d seq s} (hs : Keeps W s0 s) : Keeps W s0 (bcastAcked d seq s) := by
  unfold bcastAcked
  repeat' first
    | with_reducible assumption
    | with_reducible refine syncDone_keeps (Sub.step hw rfl) ?_
    | with_reducible refine State.modCistern_keeps (Sub.step hw rfl) ?_
    | with_reducible refine Keeps.foldl ?_ ?_
    | intro _
    | (extract_lets +onlyGivenNames z; refine Keeps.cut (W := W) (s0 := s0) (x := z) ?_ ?_; dsimp -zeta only [z]; rotate_left; clear_value z; rotate_right)
    | (extract_lets +onlyGivenNames z; clear_value z)
    | split

theorem adjIn_keeps (hw : Sub 0x83c5e W) {n a s} (hs : Keeps W s0 s) : Keeps W s0 (adjIn n a s) := by
  unfold adjIn
  repeat' first
    | with_reducible assumption
    | with_reducible refine memberMod_keeps (Sub.step hw rfl) ?_
    | with_reducible refine reroute_keeps (Sub.step hw rfl) ?_
    | with_reducible refine flood_keeps (Sub.step hw rfl) ?_
    | with_reducible refine Keeps.foldl ?_ ?_
    | intro _
    | (extract_lets +onlyGivenNames z; refine Keeps.cut (W := W) (s0 := s0) (x := z) ?_ ?_; dsimp -zeta only [z]; rotate_left; clear_value z; rotate_right)
    | (extract_lets +onlyGivenNames z; clear_value z)
    | split

theorem restoreAnswer_keeps (hw : Sub 0x83c5e W) {sts s} (hs : Keeps W s0 s) : Keeps W s0 (restoreAnswer sts s) := by
  unfold restoreAnswer
  repeat' first
    | with_reducible assumption
    | with_reducible refine State.modCistern_keeps (Sub.step hw rfl) ?_
    | with_reducible refine cisternErr_keeps (Sub.step hw rfl) ?_
    | with_reducible refine sendTransfer_keeps (Sub.step hw rfl) ?_
    | with_reducible refine ringMod_keeps (Sub.step hw rfl) ?_
    | with_reducible refine stepStmt_keeps (Sub.step hw rfl) ?_
    | with_reducible refine routeSend_keeps (Sub.step hw rfl) ?_
    | with_reducible refine Keeps.foldl ?_ ?_
    | intro _
    | (extract_lets +onlyGivenNames z; refine Keeps.cut (W := W) (s0 := s0) (x := z) ?_ ?_; dsimp -zeta only [z]; rotate_left; clear_value z; rotate_right)
    | (extract_lets +onlyGivenNames z; clear_value z)
    | split

theorem ledgerRestore_keeps (hw : Sub 0x83c5e W) {s} (hs : Keeps W s0 s) : Keeps W s0 (ledgerRestore s) := by
  unfold ledgerRestore
  repeat' first
    | with_reducible assumption
    | with_reducible refine State.modCistern_keeps (Sub.step hw rfl) ?_
    | with_reducible refine ledgerAudit_keeps (Sub.step hw rfl) ?_
    | with_reducible refine restoreAnswer_keeps (Sub.step hw rfl) ?_
    | with_reducible refine routeSend_keeps (Sub.step hw rfl) ?_
    | with_reducible refine Keeps.foldl ?_ ?_
    | intro _
    | (extract_lets +onlyGivenNames z; refine Keeps.cut (W := W) (s0 := s0) (x := z) ?_ ?_; dsimp -zeta only [z]; rotate_left; clear_value z; rotate_right)
    | (extract_lets +onlyGivenNames z; clear_value z)
    | split

theorem ledgerZeroize_keeps (hw : Sub 0x83806 W) {tally s} (hs : Keeps W s0 s) : Keeps W s0 (ledgerZeroize tally s) := by
  unfold ledgerZeroize
  repeat' first
    | with_reducible assumption
    | with_reducible refine ledgerAudit_keeps (Sub.step hw rfl) ?_
    | with_reducible refine ringAdd_keeps (Sub.step hw rfl) ?_
    | with_reducible refine ringReclaim_keeps (Sub.step hw rfl) ?_
    | with_reducible refine State.modCistern_keeps (Sub.step hw rfl) ?_
    | with_reducible refine Keeps.foldl ?_ ?_
    | intro _
    | (extract_lets +onlyGivenNames z; refine Keeps.cut (W := W) (s0 := s0) (x := z) ?_ ?_; dsimp -zeta only [z]; rotate_left; clear_value z; rotate_right)
    | (extract_lets +onlyGivenNames z; clear_value z)
    | split

end Sys2Proof.Machine
end

