-- ==== Sys2Proof/Laws/FrameCisternCmds.lean ====
section
/-! SUPPORT. The frame of every operation of Machine/CisternCmds.lean: the parts it may write, and what it keeps (`Keeps`). -/
namespace Sys2Proof.Machine

set_option linter.tactic.unusedName false
variable {W : Nat} {s0 : State}

theorem execSharesMint_keeps (hw : Sub 0x183c5e W) {id s} (hs : Keeps W s0 s) : OutAll (Keeps W s0) (execSharesMint id s) := by
  unfold execSharesMint
  dsimp only
  repeat' first
    | with_reducible assumption
    | with_reducible refine runOp_keeps (Sub.step hw rfl) ?_ ?_ ?_
    | with_reducible refine noKeys_keeps 
    | with_reducible refine finishSt_keeps (Sub.step hw rfl) ?_
    | with_reducible refine stepStmt_keeps (Sub.step hw rfl) ?_
    | with_reducible refine cmdPut_keeps (Sub.step hw rfl) ?_
    | with_reducible refine poolSet_keeps (Sub.step hw rfl) ?_
    | with_reducible refine State.modCistern_keeps (Sub.step hw rfl) ?_
    | ((with_reducible refine OpSpec.All.default ?_); exact rfl)
    | with_reducible refine OutAll.next ?_
    | with_reducible refine Keeps.foldl ?_ ?_
    | intro _
    | (extract_lets +onlyGivenNames z; refine Keeps.cut (W := W) (s0 := s0) (x := z) ?_ ?_; dsimp -zeta only [z]; rotate_left; clear_value z; rotate_right)
    | (extract_lets +onlyGivenNames z; clear_value z)
    | split

theorem execSharesTransfer_keeps (hw : Sub 0x183c5e W) {id s} (hs : Keeps W s0 s) : OutAll (Keeps W s0) (execSharesTransfer id s) := by
  unfold execSharesTransfer
  repeat' first
    | with_reducible assumption
    | with_reducible refine runOp_keeps (Sub.step hw rfl) ?_ ?_ ?_
    | with_reducible refine noKeys_keeps 
    | with_reducible refine finishSt_keeps (Sub.step hw rfl) ?_
    | with_reducible refine cisternErr_keeps (Sub.step hw rfl) ?_
    | with_reducible refine issueTally_keeps (Sub.step hw rfl) ?_
    | with_reducible refine ringReclaim_keeps (Sub.step hw rfl) ?_
    | with_reducible refine ringAdd_keeps (Sub.step hw rfl) ?_
    | with_reducible refine cmdPut_keeps (Sub.step hw rfl) ?_
    | with_reducible refine stepStmtAt_keeps (Sub.step hw rfl) ?_
    | with_reducible refine PairAll.snd (P := Keeps W s0) (p := issueTally _) ?_
    | with_reducible refine PairAll.out (P := Keeps W s0) (by assumption) ?_
    | ((with_reducible refine OpSpec.All.default ?_); exact rfl)
    | with_reducible refine OutAll.next ?_
    | with_reducible refine Keeps.foldl ?_ ?_
    | intro _
    | (extract_lets +onlyGivenNames z; refine Keeps.cut (W := W) (s0 := s0) (x := z) ?_ ?_; dsimp -zeta only [z]; rotate_left; clear_value z; rotate_right)
    | (extract_lets +onlyGivenNames z; clear_value z)
    | split

theorem execSharesBalance_keeps (hw : Sub 0x183c5e W) {id s} (hs : Keeps W s0 s) : OutAll (Keeps W s0) (execSharesBalance id s) := by
  unfold execSharesBalance
  repeat' first
    | with_reducible assumption
    | with_reducible refine runOp_keeps (Sub.step hw rfl) ?_ ?_ ?_
    | with_reducible refine noKeys_keeps 
    | with_reducible refine finishSt_keeps (Sub.step hw rfl) ?_
    | with_reducible refine finish_keeps (Sub.step hw rfl) ?_
    | ((with_reducible refine OpSpec.All.default ?_); exact rfl)
    | with_reducible refine OutAll.next ?_
    | with_reducible refine Keeps.foldl ?_ ?_
    | intro _
    | (extract_lets +onlyGivenNames z; refine Keeps.cut (W := W) (s0 := s0) (x := z) ?_ ?_; dsimp -zeta only [z]; rotate_left; clear_value z; rotate_right)
    | (extract_lets +onlyGivenNames z; clear_value z)
    | split

theorem execSharesBurnStranded_keeps (hw : Sub 0x183c5e W) {id keeper s} (hs : Keeps W s0 s) : OutAll (Keeps W s0) (execSharesBurnStranded id keeper s) := by
  unfold execSharesBurnStranded
  dsimp only
  repeat' first
    | with_reducible assumption
    | with_reducible refine runOp_keeps (Sub.step hw rfl) ?_ ?_ ?_
    | with_reducible refine noKeys_keeps 
    | with_reducible refine finishSt_keeps (Sub.step hw rfl) ?_
    | with_reducible refine State.modCistern_keeps (Sub.step hw rfl) ?_
    | with_reducible refine cmdPut_keeps (Sub.step hw rfl) ?_
    | with_reducible refine finish_keeps (Sub.step hw rfl) ?_
    | with_reducible refine settleFree_keeps (Sub.step hw rfl) ?_
    | with_reducible refine memberMod_keeps (Sub.step hw rfl) ?_
    | with_reducible refine routeSend_keeps (Sub.step hw rfl) ?_
    | ((with_reducible refine OpSpec.All.default ?_); exact rfl)
    | with_reducible refine OutAll.next ?_
    | with_reducible refine Keeps.foldl ?_ ?_
    | intro _
    | (extract_lets +onlyGivenNames z; refine Keeps.cut (W := W) (s0 := s0) (x := z) ?_ ?_; dsimp -zeta only [z]; rotate_left; clear_value z; rotate_right)
    | (extract_lets +onlyGivenNames z; clear_value z)
    | split

theorem routeSpec_keeps  : OpSpec.All (Keeps W s0) (routeSpec ) := by
  intro c u hu
  exact Draws.all_ok hu

theorem execRouteUpdateAdmit_keeps (hw : Sub 0x183c5e W) {id s} (hs : Keeps W s0 s) : OutAll (Keeps W s0) (execRouteUpdateAdmit id s) := by
  unfold execRouteUpdateAdmit
  repeat' first
    | with_reducible assumption
    | with_reducible refine runOp_keeps (Sub.step hw rfl) ?_ ?_ ?_
    | with_reducible refine routeSpec_keeps 
    | with_reducible refine finishSt_keeps (Sub.step hw rfl) ?_
    | with_reducible refine drawBytes_keeps (Sub.step hw rfl) ?_
    | with_reducible refine bcastTakes_keeps (Sub.step hw rfl) ?_
    | with_reducible refine finish_keeps (Sub.step hw rfl) ?_
    | with_reducible refine broadcast_keeps (Sub.step hw rfl) ?_
    | with_reducible refine PairAll.snd (P := Keeps W s0) (p := drawBytes _ _) ?_
    | with_reducible refine PairAll.out (P := Keeps W s0) (by assumption) ?_
    | ((with_reducible refine OpSpec.All.default ?_); exact rfl)
    | with_reducible refine OutAll.next ?_
    | with_reducible refine Keeps.foldl ?_ ?_
    | intro _
    | (extract_lets +onlyGivenNames z; refine Keeps.cut (W := W) (s0 := s0) (x := z) ?_ ?_; dsimp -zeta only [z]; rotate_left; clear_value z; rotate_right)
    | (extract_lets +onlyGivenNames z; clear_value z)
    | split

theorem rebuildFree_keeps (hw : Sub 0x40 W) {s} (hs : Keeps W s0 s) : Keeps W s0 (rebuildFree s) := by
  unfold rebuildFree
  repeat' first
    | with_reducible assumption
    | with_reducible refine State.modKeys_keeps (Sub.step hw rfl) ?_
    | with_reducible refine Keeps.foldl ?_ ?_
    | intro _
    | (extract_lets +onlyGivenNames z; refine Keeps.cut (W := W) (s0 := s0) (x := z) ?_ ?_; dsimp -zeta only [z]; rotate_left; clear_value z; rotate_right)
    | (extract_lets +onlyGivenNames z; clear_value z)
    | split

theorem lockDomainCfg_keeps (hw : Sub 0x82846 W) {limitLog2 devLog2 s} (hs : Keeps W s0 s) : Keeps W s0 (lockDomainCfg limitLog2 devLog2 s) := by
  unfold lockDomainCfg
  repeat' first
    | with_reducible assumption
    | with_reducible refine regSet_keeps (Sub.step hw rfl) ?_
    | with_reducible refine State.modKeys_keeps (Sub.step hw rfl) ?_
    | with_reducible refine archive_keeps (Sub.step hw rfl) ?_
    | with_reducible refine rebuildFree_keeps (Sub.step hw rfl) ?_
    | with_reducible refine Keeps.foldl ?_ ?_
    | intro _
    | (extract_lets +onlyGivenNames z; refine Keeps.cut (W := W) (s0 := s0) (x := z) ?_ ?_; dsimp -zeta only [z]; rotate_left; clear_value z; rotate_right)
    | (extract_lets +onlyGivenNames z; clear_value z)
    | split

theorem execRouteUpdateInstall_keeps (hw : Sub 0x183c5e W) {id ok s} (hs : Keeps W s0 s) : OutAll (Keeps W s0) (execRouteUpdateInstall id ok s) := by
  unfold execRouteUpdateInstall
  repeat' first
    | with_reducible assumption
    | with_reducible refine runOp_keeps (Sub.step hw rfl) ?_ ?_ ?_
    | with_reducible refine routeSpec_keeps 
    | with_reducible refine finishSt_keeps (Sub.step hw rfl) ?_
    | with_reducible refine State.modCistern_keeps (Sub.step hw rfl) ?_
    | with_reducible refine lockDomainCfg_keeps (Sub.step hw rfl) ?_
    | ((with_reducible refine OpSpec.All.default ?_); exact rfl)
    | with_reducible refine OutAll.next ?_
    | with_reducible refine Keeps.foldl ?_ ?_
    | intro _
    | (extract_lets +onlyGivenNames z; refine Keeps.cut (W := W) (s0 := s0) (x := z) ?_ ?_; dsimp -zeta only [z]; rotate_left; clear_value z; rotate_right)
    | (extract_lets +onlyGivenNames z; clear_value z)
    | split

theorem execRouteUpdatePortCost_keeps (hw : Sub 0x183c5e W) {id s} (hs : Keeps W s0 s) : OutAll (Keeps W s0) (execRouteUpdatePortCost id s) := by
  unfold execRouteUpdatePortCost
  repeat' first
    | with_reducible assumption
    | with_reducible refine runOp_keeps (Sub.step hw rfl) ?_ ?_ ?_
    | with_reducible refine routeSpec_keeps 
    | with_reducible refine finishSt_keeps (Sub.step hw rfl) ?_
    | with_reducible refine meshMod_keeps (Sub.step hw rfl) ?_
    | with_reducible refine adjChanged_keeps (Sub.step hw rfl) ?_
    | ((with_reducible refine OpSpec.All.default ?_); exact rfl)
    | with_reducible refine OutAll.next ?_
    | with_reducible refine Keeps.foldl ?_ ?_
    | intro _
    | (extract_lets +onlyGivenNames z; refine Keeps.cut (W := W) (s0 := s0) (x := z) ?_ ?_; dsimp -zeta only [z]; rotate_left; clear_value z; rotate_right)
    | (extract_lets +onlyGivenNames z; clear_value z)
    | split

theorem execRouteUpdateSetKeeper_keeps (hw : Sub 0x183c5e W) {id s} (hs : Keeps W s0 s) : OutAll (Keeps W s0) (execRouteUpdateSetKeeper id s) := by
  unfold execRouteUpdateSetKeeper
  repeat' first
    | with_reducible assumption
    | with_reducible refine runOp_keeps (Sub.step hw rfl) ?_ ?_ ?_
    | with_reducible refine routeSpec_keeps 
    | with_reducible refine finishSt_keeps (Sub.step hw rfl) ?_
    | with_reducible refine cmdPut_keeps (Sub.step hw rfl) ?_
    | with_reducible refine issueTally_keeps (Sub.step hw rfl) ?_
    | with_reducible refine State.modCistern_keeps (Sub.step hw rfl) ?_
    | with_reducible refine keepStmt_keeps (Sub.step hw rfl) ?_
    | with_reducible refine routeSend_keeps (Sub.step hw rfl) ?_
    | with_reducible refine PairAll.snd (P := Keeps W s0) (p := issueTally _) ?_
    | with_reducible refine PairAll.out (P := Keeps W s0) (by assumption) ?_
    | ((with_reducible refine OpSpec.All.default ?_); exact rfl)
    | with_reducible refine OutAll.next ?_
    | with_reducible refine Keeps.foldl ?_ ?_
    | intro _
    | (extract_lets +onlyGivenNames z; refine Keeps.cut (W := W) (s0 := s0) (x := z) ?_ ?_; dsimp -zeta only [z]; rotate_left; clear_value z; rotate_right)
    | (extract_lets +onlyGivenNames z; clear_value z)
    | split

theorem execPeerStatus_keeps (hw : Sub 0x183c5e W) {id s} (hs : Keeps W s0 s) : OutAll (Keeps W s0) (execPeerStatus id s) := by
  unfold execPeerStatus
  repeat' first
    | with_reducible assumption
    | with_reducible refine runOp_keeps (Sub.step hw rfl) ?_ ?_ ?_
    | with_reducible refine noKeys_keeps 
    | with_reducible refine finish_keeps (Sub.step hw rfl) ?_
    | with_reducible refine finishSt_keeps (Sub.step hw rfl) ?_
    | with_reducible refine drawBytes_keeps (Sub.step hw rfl) ?_
    | with_reducible refine PairAll.snd (P := Keeps W s0) (p := drawBytes _ _) ?_
    | with_reducible refine PairAll.out (P := Keeps W s0) (by assumption) ?_
    | ((with_reducible refine OpSpec.All.default ?_); exact rfl)
    | with_reducible refine OutAll.next ?_
    | with_reducible refine Keeps.foldl ?_ ?_
    | intro _
    | (extract_lets +onlyGivenNames z; refine Keeps.cut (W := W) (s0 := s0) (x := z) ?_ ?_; dsimp -zeta only [z]; rotate_left; clear_value z; rotate_right)
    | (extract_lets +onlyGivenNames z; clear_value z)
    | split

theorem meshTrain_keeps (hw : Sub 0x1000 W) {n s} (hs : Keeps W s0 s) : Keeps W s0 (meshTrain n s) := by
  unfold meshTrain
  repeat' first
    | with_reducible assumption
    | with_reducible refine meshMod_keeps (Sub.step hw rfl) ?_
    | with_reducible refine retrain_keeps (Sub.step hw rfl) ?_
    | with_reducible refine Keeps.foldl ?_ ?_
    | intro _
    | (extract_lets +onlyGivenNames z; refine Keeps.cut (W := W) (s0 := s0) (x := z) ?_ ?_; dsimp -zeta only [z]; rotate_left; clear_value z; rotate_right)
    | (extract_lets +onlyGivenNames z; clear_value z)
    | split

theorem meshRetire_keeps (hw : Sub 0xc3c7e W) {n s} (hs : Keeps W s0 s) : Keeps W s0 (meshRetire n s) := by
  unfold meshRetire
  repeat' first
    | with_reducible assumption
    | with_reducible refine setDegraded_keeps (Sub.step hw rfl) ?_
    | with_reducible refine recordRetired_keeps (Sub.step hw rfl) ?_
    | with_reducible refine meshDown_keeps (Sub.step hw rfl) ?_
    | intro _
    | (extract_lets +onlyGivenNames z; refine Keeps.cut (W := W) (s0 := s0) (x := z) ?_ ?_; dsimp -zeta only [z]; rotate_left; clear_value z; rotate_right)
    | (extract_lets +onlyGivenNames z; clear_value z)
    | split
    | with_reducible refine Keeps.units (Sub.step hw rfl) ?_

theorem meshFault_keeps (hw : Sub 0xc3c7e W) {n s} (hs : Keeps W s0 s) : Keeps W s0 (meshFault n s) := by
  unfold meshFault
  repeat' first
    | with_reducible assumption
    | with_reducible refine meshMod_keeps (Sub.step hw rfl) ?_
    | with_reducible refine logRecord_keeps (Sub.step hw rfl) ?_
    | with_reducible refine meshRetire_keeps (Sub.step hw rfl) ?_
    | with_reducible refine Keeps.foldl ?_ ?_
    | intro _
    | (extract_lets +onlyGivenNames z; refine Keeps.cut (W := W) (s0 := s0) (x := z) ?_ ?_; dsimp -zeta only [z]; rotate_left; clear_value z; rotate_right)
    | (extract_lets +onlyGivenNames z; clear_value z)
    | split

theorem meshCtlWrite_keeps (hw : Sub 0x83c5e W) {n v s} (hs : Keeps W s0 s) : Keeps W s0 (meshCtlWrite n v s) := by
  unfold meshCtlWrite
  repeat' first
    | with_reducible assumption
    | with_reducible refine State.modDev_keeps (Sub.step hw rfl) ?_
    | with_reducible refine regMask_keeps (Sub.step hw rfl) ?_
    | with_reducible refine meshDown_keeps (Sub.step hw rfl) ?_
    | with_reducible refine meshTrain_keeps (Sub.step hw rfl) ?_
    | with_reducible refine meshMod_keeps (Sub.step hw rfl) ?_
    | with_reducible refine Keeps.foldl ?_ ?_
    | intro _
    | (extract_lets +onlyGivenNames z; refine Keeps.cut (W := W) (s0 := s0) (x := z) ?_ ?_; dsimp -zeta only [z]; rotate_left; clear_value z; rotate_right)
    | (extract_lets +onlyGivenNames z; clear_value z)
    | split

theorem meshTrainFail_keeps (hw : Sub 0xc3c7e W) {n s} (hs : Keeps W s0 s) : Keeps W s0 (meshTrainFail n s) := by
  unfold meshTrainFail
  repeat' first
    | with_reducible assumption
    | with_reducible refine meshMod_keeps (Sub.step hw rfl) ?_
    | with_reducible refine meshFault_keeps (Sub.step hw rfl) ?_
    | with_reducible refine meshDown_keeps (Sub.step hw rfl) ?_
    | with_reducible refine Keeps.foldl ?_ ?_
    | intro _
    | (extract_lets +onlyGivenNames z; refine Keeps.cut (W := W) (s0 := s0) (x := z) ?_ ?_; dsimp -zeta only [z]; rotate_left; clear_value z; rotate_right)
    | (extract_lets +onlyGivenNames z; clear_value z)
    | split

theorem execMeshTrainingDone_keeps (hw : Sub 0xc3c7e W) {n ok first s} (hs : Keeps W s0 s) : OutAll (Keeps W s0) (execMeshTrainingDone n ok first s) := by
  unfold execMeshTrainingDone
  repeat' first
    | with_reducible assumption
    | with_reducible refine meshTrainFail_keeps (Sub.step hw rfl) ?_
    | with_reducible refine meshMod_keeps (Sub.step hw rfl) ?_
    | with_reducible refine OutAll.next ?_
    | with_reducible refine Keeps.foldl ?_ ?_
    | intro _
    | (extract_lets +onlyGivenNames z; refine Keeps.cut (W := W) (s0 := s0) (x := z) ?_ ?_; dsimp -zeta only [z]; rotate_left; clear_value z; rotate_right)
    | (extract_lets +onlyGivenNames z; clear_value z)
    | split

theorem execMeshTrainingTimeout_keeps (hw : Sub 0xc3c7e W) {n s} (hs : Keeps W s0 s) : OutAll (Keeps W s0) (execMeshTrainingTimeout n s) := by
  unfold execMeshTrainingTimeout
  repeat' first
    | with_reducible assumption
    | with_reducible refine meshTrainFail_keeps (Sub.step hw rfl) ?_
    | with_reducible refine OutAll.next ?_
    | with_reducible refine Keeps.foldl ?_ ?_
    | intro _
    | (extract_lets +onlyGivenNames z; refine Keeps.cut (W := W) (s0 := s0) (x := z) ?_ ?_; dsimp -zeta only [z]; rotate_left; clear_value z; rotate_right)
    | (extract_lets +onlyGivenNames z; clear_value z)
    | split

theorem meshCap_keeps (hw : Sub 0x81000 W) {n cap s} (hs : Keeps W s0 s) : Keeps W s0 (meshCap n cap s) := by
  unfold meshCap
  repeat' first
    | with_reducible assumption
    | with_reducible refine meshMod_keeps (Sub.step hw rfl) ?_
    | with_reducible refine regMask_keeps (Sub.step hw rfl) ?_
    | with_reducible refine regOr_keeps (Sub.step hw rfl) ?_
    | with_reducible refine Keeps.foldl ?_ ?_
    | intro _
    | (extract_lets +onlyGivenNames z; refine Keeps.cut (W := W) (s0 := s0) (x := z) ?_ ?_; dsimp -zeta only [z]; rotate_left; clear_value z; rotate_right)
    | (extract_lets +onlyGivenNames z; clear_value z)
    | split

theorem openSession_keeps (hw : Sub 0x183c5e W) {n init peer report s} (hs : Keeps W s0 s) : Keeps W s0 (openSession n init peer report s) := by
  unfold openSession
  repeat' first
    | with_reducible assumption
    | with_reducible refine drawBytes_keeps (Sub.step hw rfl) ?_
    | with_reducible refine meshMod_keeps (Sub.step hw rfl) ?_
    | with_reducible refine learnMember_keeps (Sub.step hw rfl) ?_
    | with_reducible refine State.modCistern_keeps (Sub.step hw rfl) ?_
    | with_reducible refine neighbourSend_keeps (Sub.step hw rfl) ?_
    | with_reducible refine adjChanged_keeps (Sub.step hw rfl) ?_
    | with_reducible refine txPumpFuel_keeps (Sub.step hw rfl) ?_
    | with_reducible refine PairAll.snd (P := Keeps W s0) (p := drawBytes _ _) ?_
    | with_reducible refine PairAll.out (P := Keeps W s0) (by assumption) ?_
    | with_reducible refine Keeps.foldl ?_ ?_
    | intro _
    | (extract_lets +onlyGivenNames z; refine Keeps.cut (W := W) (s0 := s0) (x := z) ?_ ?_; dsimp -zeta only [z]; rotate_left; clear_value z; rotate_right)
    | (extract_lets +onlyGivenNames z; clear_value z)
    | split

theorem execSessionInit_keeps (hw : Sub 0x81000 W) {n cap cert s} (hs : Keeps W s0 s) : OutAll (Keeps W s0) (execSessionInit n cap cert s) := by
  unfold execSessionInit
  repeat' first
    | with_reducible assumption
    | with_reducible refine meshCap_keeps (Sub.step hw rfl) ?_
    | with_reducible refine meshMod_keeps (Sub.step hw rfl) ?_
    | with_reducible refine OutAll.next ?_
    | with_reducible refine Keeps.foldl ?_ ?_
    | intro _
    | (extract_lets +onlyGivenNames z; refine Keeps.cut (W := W) (s0 := s0) (x := z) ?_ ?_; dsimp -zeta only [z]; rotate_left; clear_value z; rotate_right)
    | (extract_lets +onlyGivenNames z; clear_value z)
    | split

theorem execSessionResponse_keeps (hw : Sub 0x183c5e W) {n cap cert report s} (hs : Keeps W s0 s) : OutAll (Keeps W s0) (execSessionResponse n cap cert report s) := by
  unfold execSessionResponse
  repeat' first
    | with_reducible assumption
    | with_reducible refine meshCap_keeps (Sub.step hw rfl) ?_
    | with_reducible refine openSession_keeps (Sub.step hw rfl) ?_
    | with_reducible refine closeSession_keeps (Sub.step hw rfl) ?_
    | with_reducible refine meshMod_keeps (Sub.step hw rfl) ?_
    | with_reducible refine OutAll.next ?_
    | with_reducible refine Keeps.foldl ?_ ?_
    | intro _
    | (extract_lets +onlyGivenNames z; refine Keeps.cut (W := W) (s0 := s0) (x := z) ?_ ?_; dsimp -zeta only [z]; rotate_left; clear_value z; rotate_right)
    | (extract_lets +onlyGivenNames z; clear_value z)
    | split

theorem execSessionConfirm_keeps (hw : Sub 0x183c5e W) {n ok report s} (hs : Keeps W s0 s) : OutAll (Keeps W s0) (execSessionConfirm n ok report s) := by
  unfold execSessionConfirm
  repeat' first
    | with_reducible assumption
    | with_reducible refine openSession_keeps (Sub.step hw rfl) ?_
    | with_reducible refine closeSession_keeps (Sub.step hw rfl) ?_
    | with_reducible refine meshMod_keeps (Sub.step hw rfl) ?_
    | with_reducible refine OutAll.next ?_
    | with_reducible refine Keeps.foldl ?_ ?_
    | intro _
    | (extract_lets +onlyGivenNames z; refine Keeps.cut (W := W) (s0 := s0) (x := z) ?_ ?_; dsimp -zeta only [z]; rotate_left; clear_value z; rotate_right)
    | (extract_lets +onlyGivenNames z; clear_value z)
    | split

theorem execSessionReplace_keeps (hw : Sub 0x1000 W) {n first s} (hs : Keeps W s0 s) : OutAll (Keeps W s0) (execSessionReplace n first s) := by
  unfold execSessionReplace
  repeat' first
    | with_reducible assumption
    | with_reducible refine meshMod_keeps (Sub.step hw rfl) ?_
    | with_reducible refine OutAll.next ?_
    | with_reducible refine Keeps.foldl ?_ ?_
    | intro _
    | (extract_lets +onlyGivenNames z; refine Keeps.cut (W := W) (s0 := s0) (x := z) ?_ ?_; dsimp -zeta only [z]; rotate_left; clear_value z; rotate_right)
    | (extract_lets +onlyGivenNames z; clear_value z)
    | split

theorem deliver_keeps (hw : Sub 0x183c5e W) {n src m s} (hs : Keeps W s0 s) : Keeps W s0 (deliver n src m s) := by
  unfold deliver
  repeat' first
    | with_reducible assumption
    | with_reducible refine keepStmt_keeps (Sub.step hw rfl) ?_
    | with_reducible refine keeperChanged_keeps (Sub.step hw rfl) ?_
    | with_reducible refine ownAck_keeps (Sub.step hw rfl) ?_
    | with_reducible refine routeSend_keeps (Sub.step hw rfl) ?_
    | with_reducible refine restoreAnswer_keeps (Sub.step hw rfl) ?_
    | with_reducible refine State.modCistern_keeps (Sub.step hw rfl) ?_
    | with_reducible refine transferIn_keeps (Sub.step hw rfl) ?_
    | with_reducible refine transferAnswer_keeps (Sub.step hw rfl) ?_
    | with_reducible refine floorIn_keeps (Sub.step hw rfl) ?_
    | with_reducible refine settleFree_keeps (Sub.step hw rfl) ?_
    | with_reducible refine answerQuery_keeps (Sub.step hw rfl) ?_
    | with_reducible refine settledAnswer_keeps (Sub.step hw rfl) ?_
    | with_reducible refine bcastIn_keeps (Sub.step hw rfl) ?_
    | with_reducible refine neighbourSend_keeps (Sub.step hw rfl) ?_
    | with_reducible refine bcastAcked_keeps (Sub.step hw rfl) ?_
    | with_reducible refine adjIn_keeps (Sub.step hw rfl) ?_
    | with_reducible refine Keeps.foldl ?_ ?_
    | intro _
    | (extract_lets +onlyGivenNames z; refine Keeps.cut (W := W) (s0 := s0) (x := z) ?_ ?_; dsimp -zeta only [z]; rotate_left; clear_value z; rotate_right)
    | (extract_lets +onlyGivenNames z; clear_value z)
    | split

theorem frameAcks_keeps (hw : Sub 0x81000 W) {n h s} (hs : Keeps W s0 s) : Keeps W s0 (frameAcks n h s) := by
  unfold frameAcks
  repeat' first
    | with_reducible assumption
    | with_reducible refine meshMod_keeps (Sub.step hw rfl) ?_
    | with_reducible refine txPumpFuel_keeps (Sub.step hw rfl) ?_
    | with_reducible refine resendFrames_keeps (Sub.step hw rfl) ?_
    | with_reducible refine Keeps.foldl ?_ ?_
    | intro _
    | (extract_lets +onlyGivenNames z; refine Keeps.cut (W := W) (s0 := s0) (x := z) ?_ ?_; dsimp -zeta only [z]; rotate_left; clear_value z; rotate_right)
    | (extract_lets +onlyGivenNames z; clear_value z)
    | split

theorem execWeperFrameReceive_keeps (hw : Sub 0x183c5e W) {n b m s} (hs : Keeps W s0 s) : OutAll (Keeps W s0) (execWeperFrameReceive n b m s) := by
  unfold execWeperFrameReceive
  repeat' first
    | with_reducible assumption
    | with_reducible refine neighbourSend_keeps (Sub.step hw rfl) ?_
    | with_reducible refine meshMod_keeps (Sub.step hw rfl) ?_
    | with_reducible refine bump_keeps (Sub.step hw rfl) ?_
    | with_reducible refine cisternErr_keeps (Sub.step hw rfl) ?_
    | with_reducible refine bump64_keeps (Sub.step hw rfl) ?_
    | with_reducible refine frameAcks_keeps (Sub.step hw rfl) ?_
    | with_reducible refine deliver_keeps (Sub.step hw rfl) ?_
    | with_reducible refine forward_keeps (Sub.step hw rfl) ?_
    | with_reducible refine OutAll.next ?_
    | with_reducible refine Keeps.foldl ?_ ?_
    | intro _
    | (extract_lets +onlyGivenNames z; refine Keeps.cut (W := W) (s0 := s0) (x := z) ?_ ?_; dsimp -zeta only [z]; rotate_left; clear_value z; rotate_right)
    | (extract_lets +onlyGivenNames z; clear_value z)
    | split

theorem execFrameResendTimeout_keeps (hw : Sub 0x81000 W) {n s} (hs : Keeps W s0 s) : OutAll (Keeps W s0) (execFrameResendTimeout n s) := by
  unfold execFrameResendTimeout
  repeat' first
    | with_reducible assumption
    | with_reducible refine resendFrames_keeps (Sub.step hw rfl) ?_
    | with_reducible refine OutAll.next ?_
    | with_reducible refine Keeps.foldl ?_ ?_
    | intro _
    | (extract_lets +onlyGivenNames z; refine Keeps.cut (W := W) (s0 := s0) (x := z) ?_ ?_; dsimp -zeta only [z]; rotate_left; clear_value z; rotate_right)
    | (extract_lets +onlyGivenNames z; clear_value z)
    | split

theorem execAdj_keeps (hw : Sub 0x83c5e W) {n a s} (hs : Keeps W s0 s) : OutAll (Keeps W s0) (execAdj n a s) := by
  unfold execAdj
  repeat' first
    | with_reducible assumption
    | with_reducible refine adjIn_keeps (Sub.step hw rfl) ?_
    | with_reducible refine OutAll.next ?_
    | with_reducible refine Keeps.foldl ?_ ?_
    | intro _
    | (extract_lets +onlyGivenNames z; refine Keeps.cut (W := W) (s0 := s0) (x := z) ?_ ?_; dsimp -zeta only [z]; rotate_left; clear_value z; rotate_right)
    | (extract_lets +onlyGivenNames z; clear_value z)
    | split

theorem execBroadcast_keeps (hw : Sub 0x183c5e W) {n origin seq b s} (hs : Keeps W s0 s) : OutAll (Keeps W s0) (execBroadcast n origin seq b s) := by
  unfold execBroadcast
  repeat' first
    | with_reducible assumption
    | with_reducible refine bcastIn_keeps (Sub.step hw rfl) ?_
    | with_reducible refine OutAll.next ?_
    | with_reducible refine Keeps.foldl ?_ ?_
    | intro _
    | (extract_lets +onlyGivenNames z; refine Keeps.cut (W := W) (s0 := s0) (x := z) ?_ ?_; dsimp -zeta only [z]; rotate_left; clear_value z; rotate_right)
    | (extract_lets +onlyGivenNames z; clear_value z)
    | split

theorem execStatement_keeps (hw : Sub 0x83c5e W) {st s} (hs : Keeps W s0 s) : OutAll (Keeps W s0) (execStatement st s) := by
  unfold execStatement
  repeat' first
    | with_reducible assumption
    | with_reducible refine keepStmt_keeps (Sub.step hw rfl) ?_
    | with_reducible refine OutAll.next ?_
    | with_reducible refine Keeps.foldl ?_ ?_
    | intro _
    | (extract_lets +onlyGivenNames z; refine Keeps.cut (W := W) (s0 := s0) (x := z) ?_ ?_; dsimp -zeta only [z]; rotate_left; clear_value z; rotate_right)
    | (extract_lets +onlyGivenNames z; clear_value z)
    | split

theorem execStatementAck_keeps (hw : Sub 0x183c5e W) {src a s} (hs : Keeps W s0 s) : OutAll (Keeps W s0) (execStatementAck src a s) := by
  unfold execStatementAck
  repeat' first
    | with_reducible assumption
    | with_reducible refine deliver_keeps (Sub.step hw rfl) ?_
    | with_reducible refine restoreAnswer_keeps (Sub.step hw rfl) ?_
    | with_reducible refine OutAll.next ?_
    | with_reducible refine Keeps.foldl ?_ ?_
    | intro _
    | (extract_lets +onlyGivenNames z; refine Keeps.cut (W := W) (s0 := s0) (x := z) ?_ ?_; dsimp -zeta only [z]; rotate_left; clear_value z; rotate_right)
    | (extract_lets +onlyGivenNames z; clear_value z)
    | split

theorem execTransfer_keeps (hw : Sub 0x83c5e W) {src pool tally amount s} (hs : Keeps W s0 s) : OutAll (Keeps W s0) (execTransfer src pool tally amount s) := by
  unfold execTransfer
  repeat' first
    | with_reducible assumption
    | with_reducible refine transferIn_keeps (Sub.step hw rfl) ?_
    | with_reducible refine OutAll.next ?_
    | with_reducible refine Keeps.foldl ?_ ?_
    | intro _
    | (extract_lets +onlyGivenNames z; refine Keeps.cut (W := W) (s0 := s0) (x := z) ?_ ?_; dsimp -zeta only [z]; rotate_left; clear_value z; rotate_right)
    | (extract_lets +onlyGivenNames z; clear_value z)
    | split

theorem execTransferAck_keeps (hw : Sub 0x83c5e W) {dst pool tally a s} (hs : Keeps W s0 s) : OutAll (Keeps W s0) (execTransferAck dst pool tally a s) := by
  unfold execTransferAck
  repeat' first
    | with_reducible assumption
    | with_reducible refine transferAnswer_keeps (Sub.step hw rfl) ?_
    | with_reducible refine OutAll.next ?_
    | with_reducible refine Keeps.foldl ?_ ?_
    | intro _
    | (extract_lets +onlyGivenNames z; refine Keeps.cut (W := W) (s0 := s0) (x := z) ?_ ?_; dsimp -zeta only [z]; rotate_left; clear_value z; rotate_right)
    | (extract_lets +onlyGivenNames z; clear_value z)
    | split

theorem execTransferResend_keeps (hw : Sub 0x81000 W) {s} (hs : Keeps W s0 s) : OutAll (Keeps W s0) (execTransferResend s) := by
  unfold execTransferResend
  repeat' first
    | with_reducible assumption
    | with_reducible refine sendTransfer_keeps (Sub.step hw rfl) ?_
    | with_reducible refine resendStmts_keeps (Sub.step hw rfl) ?_
    | with_reducible refine OutAll.next ?_
    | with_reducible refine Keeps.foldl ?_ ?_
    | intro _
    | (extract_lets +onlyGivenNames z; refine Keeps.cut (W := W) (s0 := s0) (x := z) ?_ ?_; dsimp -zeta only [z]; rotate_left; clear_value z; rotate_right)
    | (extract_lets +onlyGivenNames z; clear_value z)
    | split

theorem execTransferFloor_keeps (hw : Sub 0x1000 W) {src tally s} (hs : Keeps W s0 s) : OutAll (Keeps W s0) (execTransferFloor src tally s) := by
  unfold execTransferFloor
  repeat' first
    | with_reducible assumption
    | with_reducible refine floorIn_keeps (Sub.step hw rfl) ?_
    | with_reducible refine OutAll.next ?_
    | with_reducible refine Keeps.foldl ?_ ?_
    | intro _
    | (extract_lets +onlyGivenNames z; refine Keeps.cut (W := W) (s0 := s0) (x := z) ?_ ?_; dsimp -zeta only [z]; rotate_left; clear_value z; rotate_right)
    | (extract_lets +onlyGivenNames z; clear_value z)
    | split

theorem execDraw_keeps (hw : Sub 0x83c5e W) {pool s} (hs : Keeps W s0 s) : OutAll (Keeps W s0) (execDraw pool s) := by
  unfold execDraw
  repeat' first
    | with_reducible assumption
    | with_reducible refine stepStmt_keeps (Sub.step hw rfl) ?_
    | with_reducible refine poolSet_keeps (Sub.step hw rfl) ?_
    | with_reducible refine OutAll.next ?_
    | with_reducible refine Keeps.foldl ?_ ?_
    | intro _
    | (extract_lets +onlyGivenNames z; refine Keeps.cut (W := W) (s0 := s0) (x := z) ?_ ?_; dsimp -zeta only [z]; rotate_left; clear_value z; rotate_right)
    | (extract_lets +onlyGivenNames z; clear_value z)
    | split

theorem execSettleRequest_keeps (hw : Sub 0x83c5e W) {d pool acked s} (hs : Keeps W s0 s) : OutAll (Keeps W s0) (execSettleRequest d pool acked s) := by
  unfold execSettleRequest
  repeat' first
    | with_reducible assumption
    | with_reducible refine settleKept_keeps (Sub.step hw rfl) ?_
    | with_reducible refine OutAll.next ?_
    | with_reducible refine Keeps.foldl ?_ ?_
    | intro _
    | (extract_lets +onlyGivenNames z; refine Keeps.cut (W := W) (s0 := s0) (x := z) ?_ ?_; dsimp -zeta only [z]; rotate_left; clear_value z; rotate_right)
    | (extract_lets +onlyGivenNames z; clear_value z)
    | split

theorem setModeFlags_keeps (hw : Sub 0x800 W) {setBits clearBits s} (hs : Keeps W s0 s) : Keeps W s0 (setModeFlags setBits clearBits s) := by
  unfold setModeFlags
  repeat' first
    | with_reducible assumption
    | with_reducible refine logRecord_keeps (Sub.step hw rfl) ?_
    | with_reducible refine Keeps.foldl ?_ ?_
    | intro _
    | (extract_lets +onlyGivenNames z; refine Keeps.cut (W := W) (s0 := s0) (x := z) ?_ ?_; dsimp -zeta only [z]; rotate_left; clear_value z; rotate_right)
    | (extract_lets +onlyGivenNames z; clear_value z)
    | split

theorem takeCustodianKey_keeps (hw : Sub 0x86806 W) {key s} (hs : Keeps W s0 s) : Keeps W s0 (takeCustodianKey key s) := by
  unfold takeCustodianKey
  repeat' first
    | with_reducible assumption
    | with_reducible refine archive_keeps (Sub.step hw rfl) ?_
    | with_reducible refine State.modCust_keeps (Sub.step hw rfl) ?_
    | with_reducible refine Keeps.foldl ?_ ?_
    | intro _
    | (extract_lets +onlyGivenNames z; refine Keeps.cut (W := W) (s0 := s0) (x := z) ?_ ?_; dsimp -zeta only [z]; rotate_left; clear_value z; rotate_right)
    | (extract_lets +onlyGivenNames z; clear_value z)
    | split

theorem execJoinSyncComplete_keeps (hw : Sub 0xc6806 W) {key s} (hs : Keeps W s0 s) : OutAll (Keeps W s0) (execJoinSyncComplete key s) := by
  unfold execJoinSyncComplete
  repeat' first
    | with_reducible assumption
    | with_reducible refine changeMode_keeps (Sub.step hw rfl) ?_
    | with_reducible refine setModeFlags_keeps (Sub.step hw rfl) ?_
    | with_reducible refine takeCustodianKey_keeps (Sub.step hw rfl) ?_
    | with_reducible refine OutAll.next ?_
    | with_reducible refine Keeps.foldl ?_ ?_
    | intro _
    | (extract_lets +onlyGivenNames z; refine Keeps.cut (W := W) (s0 := s0) (x := z) ?_ ?_; dsimp -zeta only [z]; rotate_left; clear_value z; rotate_right)
    | (extract_lets +onlyGivenNames z; clear_value z)
    | split

theorem execFloorsLoaded_keeps (hw : Sub 0x183c5e W) {s} (hs : Keeps W s0 s) : OutAll (Keeps W s0) (execFloorsLoaded s) := by
  unfold execFloorsLoaded
  repeat' first
    | with_reducible assumption
    | with_reducible refine State.modKeys_keeps (Sub.step hw rfl) ?_
    | with_reducible refine regSet_keeps (Sub.step hw rfl) ?_
    | with_reducible refine slotSet_keeps (Sub.step hw rfl) ?_
    | with_reducible refine pumpHooks_keeps (Sub.step hw rfl) ?_
    | with_reducible refine reloadApplets_keeps (Sub.step hw rfl) ?_
    | with_reducible refine ledgerRestore_keeps (Sub.step hw rfl) ?_
    | with_reducible refine rebuildFree_keeps (Sub.step hw rfl) ?_
    | with_reducible refine OutAll.next ?_
    | with_reducible refine Keeps.foldl ?_ ?_
    | intro _
    | (extract_lets +onlyGivenNames z; refine Keeps.cut (W := W) (s0 := s0) (x := z) ?_ ?_; dsimp -zeta only [z]; rotate_left; clear_value z; rotate_right)
    | (extract_lets +onlyGivenNames z; clear_value z)
    | split

end Sys2Proof.Machine
end

