-- ==== Sys2Proof/Laws/FrameVault.lean ====
section
/-! SUPPORT. The frame of every operation of Machine/Vault.lean: the parts it may write, and what it keeps (`Keeps`). -/
namespace Sys2Proof.Machine

set_option linter.tactic.unusedName false
variable {W : Nat} {s0 : State}

theorem vaultErr_keeps (hw : Sub 0x80806 W) {n slot s} (hs : Keeps W s0 s) : Keeps W s0 (vaultErr n slot s) := by
  unfold vaultErr
  repeat' first
    | with_reducible assumption
    | with_reducible refine raiseErr_keeps (Sub.step hw rfl) ?_
    | with_reducible refine Keeps.foldl ?_ ?_
    | intro _
    | (extract_lets +onlyGivenNames z; refine Keeps.cut (W := W) (s0 := s0) (x := z) ?_ ?_; dsimp -zeta only [z]; rotate_left; clear_value z; rotate_right)
    | (extract_lets +onlyGivenNames z; clear_value z)
    | split

theorem reclaimAudit_keeps (hw : Sub 0x2000 W) {s} (hs : Keeps W s0 s) : Keeps W s0 (reclaimAudit s) := by
  unfold reclaimAudit
  repeat' first
    | with_reducible assumption
    | with_reducible refine State.modVault_keeps (Sub.step hw rfl) ?_
    | with_reducible refine Keeps.foldl ?_ ?_
    | intro _
    | (extract_lets +onlyGivenNames z; refine Keeps.cut (W := W) (s0 := s0) (x := z) ?_ ?_; dsimp -zeta only [z]; rotate_left; clear_value z; rotate_right)
    | (extract_lets +onlyGivenNames z; clear_value z)
    | split

theorem settleSeg_keeps (hw : Sub 0x2000 W) {g s} (hs : Keeps W s0 s) : Keeps W s0 (settleSeg g s) := by
  unfold settleSeg
  repeat' first
    | with_reducible assumption
    | with_reducible refine State.modVault_keeps (Sub.step hw rfl) ?_
    | with_reducible refine reclaimAudit_keeps (Sub.step hw rfl) ?_
    | with_reducible refine Keeps.foldl ?_ ?_
    | intro _
    | (extract_lets +onlyGivenNames z; refine Keeps.cut (W := W) (s0 := s0) (x := z) ?_ ?_; dsimp -zeta only [z]; rotate_left; clear_value z; rotate_right)
    | (extract_lets +onlyGivenNames z; clear_value z)
    | split

theorem settleSegs_keeps (hw : Sub 0x2000 W) {x0 s} (hs : Keeps W s0 s) : Keeps W s0 (settleSegs x0 s) := by
  induction x0 generalizing s with
  | zero =>
   rw [settleSegs]
   exact hs
  | succ m ih =>
   rw [settleSegs]
   repeat' first
    | with_reducible refine ih ?_
    | with_reducible assumption
    | with_reducible refine settleSeg_keeps (Sub.step hw rfl) ?_
    | with_reducible refine State.modVault_keeps (Sub.step hw rfl) ?_
    | with_reducible refine Keeps.foldl ?_ ?_
    | intro _
    | (extract_lets +onlyGivenNames z; refine Keeps.cut (W := W) (s0 := s0) (x := z) ?_ ?_; dsimp -zeta only [z]; rotate_left; clear_value z; rotate_right)
    | (extract_lets +onlyGivenNames z; clear_value z)
    | split

theorem vaultProgress_keeps (hw : Sub 0x83c5e W) {s} (hs : Keeps W s0 s) : Keeps W s0 (vaultProgress s) := by
  unfold vaultProgress
  repeat' first
    | with_reducible assumption
    | with_reducible refine ackDurable_keeps (Sub.step hw rfl) ?_
    | with_reducible refine settleSegs_keeps (Sub.step hw rfl) ?_
    | with_reducible refine Keeps.foldl ?_ ?_
    | intro _
    | (extract_lets +onlyGivenNames z; refine Keeps.cut (W := W) (s0 := s0) (x := z) ?_ ?_; dsimp -zeta only [z]; rotate_left; clear_value z; rotate_right)
    | (extract_lets +onlyGivenNames z; clear_value z)
    | split

theorem resendLost_keeps (hw : Sub 0x2000 W) {s} (hs : Keeps W s0 s) : Keeps W s0 (resendLost s) := by
  unfold resendLost
  repeat' first
    | with_reducible assumption
    | with_reducible refine State.modVault_keeps (Sub.step hw rfl) ?_
    | with_reducible refine Keeps.foldl ?_ ?_
    | intro _
    | (extract_lets +onlyGivenNames z; refine Keeps.cut (W := W) (s0 := s0) (x := z) ?_ ?_; dsimp -zeta only [z]; rotate_left; clear_value z; rotate_right)
    | (extract_lets +onlyGivenNames z; clear_value z)
    | split

theorem execSegmentSeal_keeps (hw : Sub 0x82806 W) {k s} (hs : Keeps W s0 s) : OutAll (Keeps W s0) (execSegmentSeal k s) := by
  unfold execSegmentSeal
  repeat' first
    | with_reducible assumption
    | with_reducible refine sealKind_keeps (Sub.step hw rfl) ?_
    | with_reducible refine OutAll.next ?_
    | with_reducible refine Keeps.foldl ?_ ?_
    | intro _
    | (extract_lets +onlyGivenNames z; refine Keeps.cut (W := W) (s0 := s0) (x := z) ?_ ?_; dsimp -zeta only [z]; rotate_left; clear_value z; rotate_right)
    | (extract_lets +onlyGivenNames z; clear_value z)
    | split

theorem endWaiting_keeps (hw : Sub 0x83c5e W) {seqs st s} (hs : Keeps W s0 s) : Keeps W s0 (endWaiting seqs st s) := by
  unfold endWaiting
  repeat' first
    | with_reducible assumption
    | with_reducible refine finishAll_keeps (Sub.step hw rfl) ?_
    | with_reducible refine Keeps.foldl ?_ ?_
    | intro _
    | (extract_lets +onlyGivenNames z; refine Keeps.cut (W := W) (s0 := s0) (x := z) ?_ ?_; dsimp -zeta only [z]; rotate_left; clear_value z; rotate_right)
    | (extract_lets +onlyGivenNames z; clear_value z)
    | split

theorem settleLeaving_keeps (hw : Sub 0x83c5e W) {n retired s} (hs : Keeps W s0 s) : Keeps W s0 (settleLeaving n retired s) := by
  unfold settleLeaving
  repeat' first
    | with_reducible assumption
    | with_reducible refine State.modVault_keeps (Sub.step hw rfl) ?_
    | with_reducible refine vaultProgress_keeps (Sub.step hw rfl) ?_
    | with_reducible refine endWaiting_keeps (Sub.step hw rfl) ?_
    | with_reducible refine vaultErr_keeps (Sub.step hw rfl) ?_
    | with_reducible refine Keeps.foldl ?_ ?_
    | intro _
    | (extract_lets +onlyGivenNames z; refine Keeps.cut (W := W) (s0 := s0) (x := z) ?_ ?_; dsimp -zeta only [z]; rotate_left; clear_value z; rotate_right)
    | (extract_lets +onlyGivenNames z; clear_value z)
    | split

theorem leaveSlot_keeps (hw : Sub 0xc3c5e W) {n into s} (hs : Keeps W s0 s) : Keeps W s0 (leaveSlot n into s) := by
  unfold leaveSlot
  repeat' first
    | with_reducible assumption
    | with_reducible refine State.modCart_keeps (Sub.step hw rfl) ?_
    | with_reducible refine State.modVault_keeps (Sub.step hw rfl) ?_
    | with_reducible refine logRecord_keeps (Sub.step hw rfl) ?_
    | with_reducible refine settleLeaving_keeps (Sub.step hw rfl) ?_
    | with_reducible refine setDegraded_keeps (Sub.step hw rfl) ?_
    | with_reducible refine postEvt_keeps (Sub.step hw rfl) ?_
    | with_reducible refine Keeps.foldl ?_ ?_
    | intro _
    | (extract_lets +onlyGivenNames z; refine Keeps.cut (W := W) (s0 := s0) (x := z) ?_ ?_; dsimp -zeta only [z]; rotate_left; clear_value z; rotate_right)
    | (extract_lets +onlyGivenNames z; clear_value z)
    | split

theorem removeCart_keeps (hw : Sub 0xc3c5e W) {n s} (hs : Keeps W s0 s) : Keeps W s0 (removeCart n s) := by
  unfold removeCart
  repeat' first
    | with_reducible assumption
    | with_reducible refine regSet_keeps (Sub.step hw rfl) ?_
    | with_reducible refine leaveSlot_keeps (Sub.step hw rfl) ?_
    | with_reducible refine Keeps.foldl ?_ ?_
    | intro _
    | (extract_lets +onlyGivenNames z; refine Keeps.cut (W := W) (s0 := s0) (x := z) ?_ ?_; dsimp -zeta only [z]; rotate_left; clear_value z; rotate_right)
    | (extract_lets +onlyGivenNames z; clear_value z)
    | split

theorem retireCart_keeps (hw : Sub 0xc3c5e W) {n s} (hs : Keeps W s0 s) : Keeps W s0 (retireCart n s) := by
  unfold retireCart
  repeat' first
    | with_reducible assumption
    | with_reducible refine leaveSlot_keeps (Sub.step hw rfl) ?_
    | with_reducible refine postEvt_keeps (Sub.step hw rfl) ?_
    | with_reducible refine Keeps.foldl ?_ ?_
    | intro _
    | (extract_lets +onlyGivenNames z; refine Keeps.cut (W := W) (s0 := s0) (x := z) ?_ ?_; dsimp -zeta only [z]; rotate_left; clear_value z; rotate_right)
    | (extract_lets +onlyGivenNames z; clear_value z)
    | split

theorem releaseDue_keeps (hw : Sub 0xc3c5e W) {n s} (hs : Keeps W s0 s) : Keeps W s0 (releaseDue n s) := by
  unfold releaseDue
  repeat' first
    | with_reducible assumption
    | with_reducible refine leaveSlot_keeps (Sub.step hw rfl) ?_
    | with_reducible refine Keeps.foldl ?_ ?_
    | intro _
    | (extract_lets +onlyGivenNames z; refine Keeps.cut (W := W) (s0 := s0) (x := z) ?_ ?_; dsimp -zeta only [z]; rotate_left; clear_value z; rotate_right)
    | (extract_lets +onlyGivenNames z; clear_value z)
    | split

theorem slotRelease_keeps (hw : Sub 0xc3c5e W) {n s} (hs : Keeps W s0 s) : Keeps W s0 (slotRelease n s) := by
  unfold slotRelease
  repeat' first
    | with_reducible assumption
    | with_reducible refine vaultErr_keeps (Sub.step hw rfl) ?_
    | with_reducible refine releaseDue_keeps (Sub.step hw rfl) ?_
    | with_reducible refine regSet_keeps (Sub.step hw rfl) ?_
    | with_reducible refine Keeps.foldl ?_ ?_
    | intro _
    | (extract_lets +onlyGivenNames z; refine Keeps.cut (W := W) (s0 := s0) (x := z) ?_ ?_; dsimp -zeta only [z]; rotate_left; clear_value z; rotate_right)
    | (extract_lets +onlyGivenNames z; clear_value z)
    | split

theorem execRollupClose_keeps (hw : Sub 0x82806 W) {s} (hs : Keeps W s0 s) : OutAll (Keeps W s0) (execRollupClose s) := by
  unfold execRollupClose
  repeat' first
    | with_reducible assumption
    | with_reducible refine closeRollup_keeps (Sub.step hw rfl) ?_
    | with_reducible refine OutAll.next ?_
    | with_reducible refine Keeps.foldl ?_ ?_
    | intro _
    | (extract_lets +onlyGivenNames z; refine Keeps.cut (W := W) (s0 := s0) (x := z) ?_ ?_; dsimp -zeta only [z]; rotate_left; clear_value z; rotate_right)
    | (extract_lets +onlyGivenNames z; clear_value z)
    | split

theorem execPresenceCheck_keeps (hw : Sub 0xc3c5e W) {n present s} (hs : Keeps W s0 s) : OutAll (Keeps W s0) (execPresenceCheck n present s) := by
  unfold execPresenceCheck
  repeat' first
    | with_reducible assumption
    | with_reducible refine removeCart_keeps (Sub.step hw rfl) ?_
    | with_reducible refine OutAll.next ?_
    | with_reducible refine Keeps.foldl ?_ ?_
    | intro _
    | (extract_lets +onlyGivenNames z; refine Keeps.cut (W := W) (s0 := s0) (x := z) ?_ ?_; dsimp -zeta only [z]; rotate_left; clear_value z; rotate_right)
    | (extract_lets +onlyGivenNames z; clear_value z)
    | split

theorem execTokenTimeout_keeps (hw : Sub 0xc3c5e W) {n s} (hs : Keeps W s0 s) : OutAll (Keeps W s0) (execTokenTimeout n s) := by
  unfold execTokenTimeout
  repeat' first
    | with_reducible assumption
    | with_reducible refine removeCart_keeps (Sub.step hw rfl) ?_
    | with_reducible refine bump_keeps (Sub.step hw rfl) ?_
    | with_reducible refine OutAll.next ?_
    | with_reducible refine Keeps.foldl ?_ ?_
    | intro _
    | (extract_lets +onlyGivenNames z; refine Keeps.cut (W := W) (s0 := s0) (x := z) ?_ ?_; dsimp -zeta only [z]; rotate_left; clear_value z; rotate_right)
    | (extract_lets +onlyGivenNames z; clear_value z)
    | split

theorem cartPoll_keeps (hw : Sub 0xc3c5e W) {n left st s} (hs : Keeps W s0 s) : Keeps W s0 (cartPoll n left st s) := by
  unfold cartPoll
  repeat' first
    | with_reducible assumption
    | with_reducible refine State.modCart_keeps (Sub.step hw rfl) ?_
    | with_reducible refine postEvt_keeps (Sub.step hw rfl) ?_
    | with_reducible refine retireCart_keeps (Sub.step hw rfl) ?_
    | with_reducible refine Keeps.foldl ?_ ?_
    | intro _
    | (extract_lets +onlyGivenNames z; refine Keeps.cut (W := W) (s0 := s0) (x := z) ?_ ?_; dsimp -zeta only [z]; rotate_left; clear_value z; rotate_right)
    | (extract_lets +onlyGivenNames z; clear_value z)
    | split

theorem execCartStatusPoll_keeps (hw : Sub 0xc3c5e W) {n left st s} (hs : Keeps W s0 s) : OutAll (Keeps W s0) (execCartStatusPoll n left st s) := by
  unfold execCartStatusPoll
  repeat' first
    | with_reducible assumption
    | with_reducible refine cartPoll_keeps (Sub.step hw rfl) ?_
    | with_reducible refine OutAll.next ?_
    | with_reducible refine Keeps.foldl ?_ ?_
    | intro _
    | (extract_lets +onlyGivenNames z; refine Keeps.cut (W := W) (s0 := s0) (x := z) ?_ ?_; dsimp -zeta only [z]; rotate_left; clear_value z; rotate_right)
    | (extract_lets +onlyGivenNames z; clear_value z)
    | split

theorem modSeg_keeps (hw : Sub 0x2000 W) {seq f s} (hs : Keeps W s0 s) : Keeps W s0 (modSeg seq f s) := by
  unfold modSeg
  repeat' first
    | with_reducible assumption
    | with_reducible refine State.modVault_keeps (Sub.step hw rfl) ?_
    | with_reducible refine Keeps.foldl ?_ ?_
    | intro _
    | (extract_lets +onlyGivenNames z; refine Keeps.cut (W := W) (s0 := s0) (x := z) ?_ ?_; dsimp -zeta only [z]; rotate_left; clear_value z; rotate_right)
    | (extract_lets +onlyGivenNames z; clear_value z)
    | split

theorem execCompletionToken_keeps (hw : Sub 0xc3c5e W) {n f left cst s} (hs : Keeps W s0 s) : OutAll (Keeps W s0) (execCompletionToken n f left cst s) := by
  unfold execCompletionToken
  repeat' first
    | with_reducible assumption
    | with_reducible refine bump_keeps (Sub.step hw rfl) ?_
    | with_reducible refine modSeg_keeps (Sub.step hw rfl) ?_
    | with_reducible refine State.modCart_keeps (Sub.step hw rfl) ?_
    | with_reducible refine releaseDue_keeps (Sub.step hw rfl) ?_
    | with_reducible refine vaultProgress_keeps (Sub.step hw rfl) ?_
    | with_reducible refine vaultErr_keeps (Sub.step hw rfl) ?_
    | with_reducible refine leaveSlot_keeps (Sub.step hw rfl) ?_
    | with_reducible refine cartPoll_keeps (Sub.step hw rfl) ?_
    | with_reducible refine retireCart_keeps (Sub.step hw rfl) ?_
    | with_reducible refine OutAll.next ?_
    | with_reducible refine Keeps.foldl ?_ ?_
    | intro _
    | (extract_lets +onlyGivenNames z; refine Keeps.cut (W := W) (s0 := s0) (x := z) ?_ ?_; dsimp -zeta only [z]; rotate_left; clear_value z; rotate_right)
    | (extract_lets +onlyGivenNames z; clear_value z)
    | split

theorem execCartridgeInsert_keeps (hw : Sub 0x2000 W) {n s} (hs : Keeps W s0 s) : OutAll (Keeps W s0) (execCartridgeInsert n s) := by
  unfold execCartridgeInsert
  repeat' first
    | with_reducible assumption
    | with_reducible refine State.modCart_keeps (Sub.step hw rfl) ?_
    | with_reducible refine OutAll.next ?_
    | with_reducible refine Keeps.foldl ?_ ?_
    | intro _
    | (extract_lets +onlyGivenNames z; refine Keeps.cut (W := W) (s0 := s0) (x := z) ?_ ?_; dsimp -zeta only [z]; rotate_left; clear_value z; rotate_right)
    | (extract_lets +onlyGivenNames z; clear_value z)
    | split

theorem surveyCart_keeps (hw : Sub 0x82000 W) {n idOk v12 st s} (hs : Keeps W s0 s) : Keeps W s0 (surveyCart n idOk v12 st s) := by
  unfold surveyCart
  repeat' first
    | with_reducible assumption
    | with_reducible refine State.modCart_keeps (Sub.step hw rfl) ?_
    | with_reducible refine regSet_keeps (Sub.step hw rfl) ?_
    | with_reducible refine Keeps.foldl ?_ ?_
    | intro _
    | (extract_lets +onlyGivenNames z; refine Keeps.cut (W := W) (s0 := s0) (x := z) ?_ ?_; dsimp -zeta only [z]; rotate_left; clear_value z; rotate_right)
    | (extract_lets +onlyGivenNames z; clear_value z)
    | split

theorem execSlotBringUp_keeps (hw : Sub 0x82806 W) {n answers proof v12 page s} (hs : Keeps W s0 s) : OutAll (Keeps W s0) (execSlotBringUp n answers proof v12 page s) := by
  unfold execSlotBringUp
  repeat' first
    | with_reducible assumption
    | with_reducible refine surveyCart_keeps (Sub.step hw rfl) ?_
    | with_reducible refine State.modCart_keeps (Sub.step hw rfl) ?_
    | with_reducible refine vaultErr_keeps (Sub.step hw rfl) ?_
    | with_reducible refine OutAll.next ?_
    | with_reducible refine Keeps.foldl ?_ ?_
    | intro _
    | (extract_lets +onlyGivenNames z; refine Keeps.cut (W := W) (s0 := s0) (x := z) ?_ ?_; dsimp -zeta only [z]; rotate_left; clear_value z; rotate_right)
    | (extract_lets +onlyGivenNames z; clear_value z)
    | split

theorem startCopy_keeps (hw : Sub 0x2000 W) {n first rebuild s} (hs : Keeps W s0 s) : Keeps W s0 (startCopy n first rebuild s) := by
  unfold startCopy
  repeat' first
    | with_reducible assumption
    | with_reducible refine State.modVault_keeps (Sub.step hw rfl) ?_
    | with_reducible refine State.modCart_keeps (Sub.step hw rfl) ?_
    | with_reducible refine Keeps.foldl ?_ ?_
    | intro _
    | (extract_lets +onlyGivenNames z; refine Keeps.cut (W := W) (s0 := s0) (x := z) ?_ ?_; dsimp -zeta only [z]; rotate_left; clear_value z; rotate_right)
    | (extract_lets +onlyGivenNames z; clear_value z)
    | split

theorem gapRecord_keeps (hw : Sub 0x82806 W) {s} (hs : Keeps W s0 s) : Keeps W s0 (gapRecord s) := by
  unfold gapRecord
  repeat' first
    | with_reducible assumption
    | with_reducible refine auditDev_keeps (Sub.step hw rfl) ?_
    | with_reducible refine State.modVault_keeps (Sub.step hw rfl) ?_
    | with_reducible refine Keeps.foldl ?_ ?_
    | intro _
    | (extract_lets +onlyGivenNames z; refine Keeps.cut (W := W) (s0 := s0) (x := z) ?_ ?_; dsimp -zeta only [z]; rotate_left; clear_value z; rotate_right)
    | (extract_lets +onlyGivenNames z; clear_value z)
    | split

theorem becomeCurrent_keeps (hw : Sub 0xc2806 W) {n s} (hs : Keeps W s0 s) : Keeps W s0 (becomeCurrent n s) := by
  unfold becomeCurrent
  repeat' first
    | with_reducible assumption
    | with_reducible refine State.modCart_keeps (Sub.step hw rfl) ?_
    | with_reducible refine resendLost_keeps (Sub.step hw rfl) ?_
    | with_reducible refine gapRecord_keeps (Sub.step hw rfl) ?_
    | with_reducible refine clearDegraded_keeps (Sub.step hw rfl) ?_
    | with_reducible refine Keeps.foldl ?_ ?_
    | intro _
    | (extract_lets +onlyGivenNames z; refine Keeps.cut (W := W) (s0 := s0) (x := z) ?_ ?_; dsimp -zeta only [z]; rotate_left; clear_value z; rotate_right)
    | (extract_lets +onlyGivenNames z; clear_value z)
    | split

theorem copyOther_keeps (hw : Sub 0x2000 W) {n s} (hs : Keeps W s0 s) : Keeps W s0 (copyOther n s) := by
  unfold copyOther
  repeat' first
    | with_reducible assumption
    | with_reducible refine startCopy_keeps (Sub.step hw rfl) ?_
    | with_reducible refine Keeps.foldl ?_ ?_
    | intro _
    | (extract_lets +onlyGivenNames z; refine Keeps.cut (W := W) (s0 := s0) (x := z) ?_ ?_; dsimp -zeta only [z]; rotate_left; clear_value z; rotate_right)
    | (extract_lets +onlyGivenNames z; clear_value z)
    | split

theorem execVaultReplay_keeps (hw : Sub 0xc2806 W) {n label segs s} (hs : Keeps W s0 s) : OutAll (Keeps W s0) (execVaultReplay n label segs s) := by
  unfold execVaultReplay
  repeat' first
    | with_reducible assumption
    | with_reducible refine postEvt_keeps (Sub.step hw rfl) ?_
    | with_reducible refine auditDev_keeps (Sub.step hw rfl) ?_
    | with_reducible refine State.modCart_keeps (Sub.step hw rfl) ?_
    | with_reducible refine startCopy_keeps (Sub.step hw rfl) ?_
    | with_reducible refine State.modVault_keeps (Sub.step hw rfl) ?_
    | with_reducible refine copyOther_keeps (Sub.step hw rfl) ?_
    | with_reducible refine becomeCurrent_keeps (Sub.step hw rfl) ?_
    | with_reducible refine OutAll.next ?_
    | with_reducible refine Keeps.foldl ?_ ?_
    | intro _
    | (extract_lets +onlyGivenNames z; refine Keeps.cut (W := W) (s0 := s0) (x := z) ?_ ?_; dsimp -zeta only [z]; rotate_left; clear_value z; rotate_right)
    | (extract_lets +onlyGivenNames z; clear_value z)
    | split

theorem execCatchUpDone_keeps (hw : Sub 0xc2806 W) {n s} (hs : Keeps W s0 s) : OutAll (Keeps W s0) (execCatchUpDone n s) := by
  unfold execCatchUpDone
  repeat' first
    | with_reducible assumption
    | with_reducible refine becomeCurrent_keeps (Sub.step hw rfl) ?_
    | with_reducible refine State.modVault_keeps (Sub.step hw rfl) ?_
    | with_reducible refine OutAll.next ?_
    | with_reducible refine Keeps.foldl ?_ ?_
    | intro _
    | (extract_lets +onlyGivenNames z; refine Keeps.cut (W := W) (s0 := s0) (x := z) ?_ ?_; dsimp -zeta only [z]; rotate_left; clear_value z; rotate_right)
    | (extract_lets +onlyGivenNames z; clear_value z)
    | split

theorem execVaultRebuildDone_keeps (hw : Sub 0xc2806 W) {n s} (hs : Keeps W s0 s) : OutAll (Keeps W s0) (execVaultRebuildDone n s) := by
  unfold execVaultRebuildDone
  repeat' first
    | with_reducible assumption
    | with_reducible refine postEvt_keeps (Sub.step hw rfl) ?_
    | with_reducible refine becomeCurrent_keeps (Sub.step hw rfl) ?_
    | with_reducible refine State.modVault_keeps (Sub.step hw rfl) ?_
    | with_reducible refine OutAll.next ?_
    | with_reducible refine Keeps.foldl ?_ ?_
    | intro _
    | (extract_lets +onlyGivenNames z; refine Keeps.cut (W := W) (s0 := s0) (x := z) ?_ ?_; dsimp -zeta only [z]; rotate_left; clear_value z; rotate_right)
    | (extract_lets +onlyGivenNames z; clear_value z)
    | split

theorem execVaultFormat_keeps (hw : Sub 0x1c3cde W) {id s} (hs : Keeps W s0 s) : OutAll (Keeps W s0) (execVaultFormat id s) := by
  unfold execVaultFormat
  repeat' first
    | with_reducible assumption
    | with_reducible refine runOp_keeps (Sub.step hw rfl) ?_ ?_ ?_
    | with_reducible refine noKeys_keeps 
    | with_reducible refine withKey_keeps (Sub.step hw rfl) ?_ ?_
    | with_reducible refine State.modVault_keeps (Sub.step hw rfl) ?_
    | with_reducible refine logRecord_keeps (Sub.step hw rfl) ?_
    | with_reducible refine becomeCurrent_keeps (Sub.step hw rfl) ?_
    | with_reducible refine State.modCart_keeps (Sub.step hw rfl) ?_
    | with_reducible refine finish_keeps (Sub.step hw rfl) ?_
    | ((with_reducible refine OpSpec.All.default ?_); exact rfl)
    | with_reducible refine OutAll.next ?_
    | with_reducible refine Keeps.foldl ?_ ?_
    | intro _
    | (extract_lets +onlyGivenNames z; refine Keeps.cut (W := W) (s0 := s0) (x := z) ?_ ?_; dsimp -zeta only [z]; rotate_left; clear_value z; rotate_right)
    | (extract_lets +onlyGivenNames z; clear_value z)
    | split

theorem execVaultStatus_keeps (hw : Sub 0x183c5e W) {id s} (hs : Keeps W s0 s) : OutAll (Keeps W s0) (execVaultStatus id s) := by
  unfold execVaultStatus
  repeat' first
    | with_reducible assumption
    | with_reducible refine runOp_keeps (Sub.step hw rfl) ?_ ?_ ?_
    | with_reducible refine noKeys_keeps 
    | with_reducible refine finish_keeps (Sub.step hw rfl) ?_
    | ((with_reducible refine OpSpec.All.default ?_); exact rfl)
    | with_reducible refine OutAll.next ?_
    | with_reducible refine Keeps.foldl ?_ ?_
    | intro _
    | (extract_lets +onlyGivenNames z; refine Keeps.cut (W := W) (s0 := s0) (x := z) ?_ ?_; dsimp -zeta only [z]; rotate_left; clear_value z; rotate_right)
    | (extract_lets +onlyGivenNames z; clear_value z)
    | split

theorem execJournalRead_keeps (hw : Sub 0x183c5e W) {id s} (hs : Keeps W s0 s) : OutAll (Keeps W s0) (execJournalRead id s) := by
  unfold execJournalRead
  repeat' first
    | with_reducible assumption
    | with_reducible refine runOp_keeps (Sub.step hw rfl) ?_ ?_ ?_
    | with_reducible refine noKeys_keeps 
    | with_reducible refine finishSt_keeps (Sub.step hw rfl) ?_
    | with_reducible refine finish_keeps (Sub.step hw rfl) ?_
    | ((with_reducible refine OpSpec.All.default ?_); exact rfl)
    | with_reducible refine OutAll.next ?_
    | with_reducible refine Keeps.foldl ?_ ?_
    | intro _
    | (extract_lets +onlyGivenNames z; refine Keeps.cut (W := W) (s0 := s0) (x := z) ?_ ?_; dsimp -zeta only [z]; rotate_left; clear_value z; rotate_right)
    | (extract_lets +onlyGivenNames z; clear_value z)
    | split

theorem execJournalExport_keeps (hw : Sub 0x183c5e W) {id s} (hs : Keeps W s0 s) : OutAll (Keeps W s0) (execJournalExport id s) := by
  unfold execJournalExport
  repeat' first
    | with_reducible assumption
    | with_reducible refine runOp_keeps (Sub.step hw rfl) ?_ ?_ ?_
    | with_reducible refine noKeys_keeps 
    | with_reducible refine finish_keeps (Sub.step hw rfl) ?_
    | with_reducible refine finishSt_keeps (Sub.step hw rfl) ?_
    | with_reducible refine drawBytes_keeps (Sub.step hw rfl) ?_
    | with_reducible refine archiveSync_keeps (Sub.step hw rfl) ?_
    | with_reducible refine cmdPut_keeps (Sub.step hw rfl) ?_
    | with_reducible refine PairAll.snd (P := Keeps W s0) (p := drawBytes _ _) ?_
    | with_reducible refine PairAll.snd (P := Keeps W s0) (p := archiveSync _ _ _) ?_
    | with_reducible refine PairAll.out (P := Keeps W s0) (by assumption) ?_
    | ((with_reducible refine OpSpec.All.default ?_); exact rfl)
    | with_reducible refine OutAll.next ?_
    | with_reducible refine Keeps.foldl ?_ ?_
    | intro _
    | (extract_lets +onlyGivenNames z; refine Keeps.cut (W := W) (s0 := s0) (x := z) ?_ ?_; dsimp -zeta only [z]; rotate_left; clear_value z; rotate_right)
    | (extract_lets +onlyGivenNames z; clear_value z)
    | split

theorem execVaultRebuild_keeps (hw : Sub 0x183c5e W) {id s} (hs : Keeps W s0 s) : OutAll (Keeps W s0) (execVaultRebuild id s) := by
  unfold execVaultRebuild
  repeat' first
    | with_reducible assumption
    | with_reducible refine runOp_keeps (Sub.step hw rfl) ?_ ?_ ?_
    | with_reducible refine noKeys_keeps 
    | with_reducible refine finishSt_keeps (Sub.step hw rfl) ?_
    | with_reducible refine startCopy_keeps (Sub.step hw rfl) ?_
    | ((with_reducible refine OpSpec.All.default ?_); exact rfl)
    | with_reducible refine OutAll.next ?_
    | with_reducible refine Keeps.foldl ?_ ?_
    | intro _
    | (extract_lets +onlyGivenNames z; refine Keeps.cut (W := W) (s0 := s0) (x := z) ?_ ?_; dsimp -zeta only [z]; rotate_left; clear_value z; rotate_right)
    | (extract_lets +onlyGivenNames z; clear_value z)
    | split

theorem execVaultSetLayout_keeps (hw : Sub 0x183c5e W) {id s} (hs : Keeps W s0 s) : OutAll (Keeps W s0) (execVaultSetLayout id s) := by
  unfold execVaultSetLayout
  repeat' first
    | with_reducible assumption
    | with_reducible refine runOp_keeps (Sub.step hw rfl) ?_ ?_ ?_
    | with_reducible refine noKeys_keeps 
    | with_reducible refine finishSt_keeps (Sub.step hw rfl) ?_
    | with_reducible refine State.modVault_keeps (Sub.step hw rfl) ?_
    | ((with_reducible refine OpSpec.All.default ?_); exact rfl)
    | with_reducible refine OutAll.next ?_
    | with_reducible refine Keeps.foldl ?_ ?_
    | intro _
    | (extract_lets +onlyGivenNames z; refine Keeps.cut (W := W) (s0 := s0) (x := z) ?_ ?_; dsimp -zeta only [z]; rotate_left; clear_value z; rotate_right)
    | (extract_lets +onlyGivenNames z; clear_value z)
    | split

end Sys2Proof.Machine
end

