-- ==== Sys2Proof/Laws/FrameAlarms.lean ====
section
/-! SUPPORT. The frame of every operation of Machine/Alarms.lean: the parts it may write, and what it keeps (`Keeps`). -/
namespace Sys2Proof.Machine

set_option linter.tactic.unusedName false
variable {W : Nat} {s0 : State}

theorem tamperErr_keeps (hw : Sub 0x80806 W) {n s} (hs : Keeps W s0 s) : Keeps W s0 (tamperErr n s) := by
  unfold tamperErr
  repeat' first
    | with_reducible assumption
    | with_reducible refine raiseErr_keeps (Sub.step hw rfl) ?_
    | with_reducible refine Keeps.foldl ?_ ?_
    | intro _
    | (extract_lets +onlyGivenNames z; refine Keeps.cut (W := W) (s0 := s0) (x := z) ?_ ?_; dsimp -zeta only [z]; rotate_left; clear_value z; rotate_right)
    | (extract_lets +onlyGivenNames z; clear_value z)
    | split

theorem putRecord_keeps (hw : Sub 0x90806 W) {r s} (hs : Keeps W s0 s) : Keeps W s0 (putRecord r s) := by
  unfold putRecord
  repeat' first
    | with_reducible assumption
    | with_reducible refine State.modBackup_keeps (Sub.step hw rfl) ?_
    | with_reducible refine tamperErr_keeps (Sub.step hw rfl) ?_
    | with_reducible refine Keeps.foldl ?_ ?_
    | intro _
    | (extract_lets +onlyGivenNames z; refine Keeps.cut (W := W) (s0 := s0) (x := z) ?_ ?_; dsimp -zeta only [z]; rotate_left; clear_value z; rotate_right)
    | (extract_lets +onlyGivenNames z; clear_value z)
    | split

theorem announceAlarm_keeps (hw : Sub 0x82806 W) {r s} (hs : Keeps W s0 s) : Keeps W s0 (announceAlarm r s) := by
  unfold announceAlarm
  repeat' first
    | with_reducible assumption
    | with_reducible refine sendEvt_keeps (Sub.step hw rfl) ?_
    | with_reducible refine auditDev_keeps (Sub.step hw rfl) ?_
    | with_reducible refine Keeps.foldl ?_ ?_
    | intro _
    | (extract_lets +onlyGivenNames z; refine Keeps.cut (W := W) (s0 := s0) (x := z) ?_ ?_; dsimp -zeta only [z]; rotate_left; clear_value z; rotate_right)
    | (extract_lets +onlyGivenNames z; clear_value z)
    | split

theorem recordUntallied_keeps (hw : Sub 0xd0806 W) {s r} (hs : Keeps W s0 s) : Keeps W s0 (recordUntallied s r) := by
  unfold recordUntallied
  repeat' first
    | with_reducible assumption
    | with_reducible refine puntyAlarm_keeps (Sub.step hw rfl) ?_
    | with_reducible refine putRecord_keeps (Sub.step hw rfl) ?_
    | with_reducible refine Keeps.foldl ?_ ?_
    | intro _
    | (extract_lets +onlyGivenNames z; refine Keeps.cut (W := W) (s0 := s0) (x := z) ?_ ?_; dsimp -zeta only [z]; rotate_left; clear_value z; rotate_right)
    | (extract_lets +onlyGivenNames z; clear_value z)
    | split

theorem recordHeld_keeps (hw : Sub 0xd0806 W) {s} (hs : Keeps W s0 s) : Keeps W s0 (recordHeld s) := by
  unfold recordHeld
  refine Keeps.foldl hs ?_
  intro v r h
  exact recordUntallied_keeps (Sub.step hw rfl) h

theorem updateLevel_keeps (hw : Sub 0xe0806 W) {s} (hs : Keeps W s0 s) : Keeps W s0 (updateLevel s) := by
  unfold updateLevel
  repeat' first
    | with_reducible assumption
    | with_reducible refine issueTally_keeps (Sub.step hw rfl) ?_
    | with_reducible refine State.modTamper_keeps (Sub.step hw rfl) ?_
    | with_reducible refine puntyTouch_keeps (Sub.step hw rfl) ?_
    | with_reducible refine sendEvt_keeps (Sub.step hw rfl) ?_
    | with_reducible refine PairAll.snd (P := Keeps W s0) (p := issueTally _) ?_
    | with_reducible refine PairAll.out (P := Keeps W s0) (by assumption) ?_
    | with_reducible refine Keeps.foldl ?_ ?_
    | intro _
    | (extract_lets +onlyGivenNames z; refine Keeps.cut (W := W) (s0 := s0) (x := z) ?_ ?_; dsimp -zeta only [z]; rotate_left; clear_value z; rotate_right)
    | (extract_lets +onlyGivenNames z; clear_value z)
    | split

theorem endSession_keeps (hw : Sub 0x84806 W) {n s} (hs : Keeps W s0 s) : Keeps W s0 (endSession n s) := by
  unfold endSession
  repeat' first
    | with_reducible assumption
    | with_reducible refine State.modCust_keeps (Sub.step hw rfl) ?_
    | with_reducible refine postEvt_keeps (Sub.step hw rfl) ?_
    | with_reducible refine Keeps.foldl ?_ ?_
    | intro _
    | (extract_lets +onlyGivenNames z; refine Keeps.cut (W := W) (s0 := s0) (x := z) ?_ ?_; dsimp -zeta only [z]; rotate_left; clear_value z; rotate_right)
    | (extract_lets +onlyGivenNames z; clear_value z)
    | split

theorem endSessions_keeps (hw : Sub 0x84806 W) {s} (hs : Keeps W s0 s) : Keeps W s0 (endSessions s) := by
  unfold endSessions
  repeat' first
    | with_reducible assumption
    | with_reducible refine endSession_keeps (Sub.step hw rfl) ?_
    | with_reducible refine Keeps.foldl ?_ ?_
    | intro _
    | (extract_lets +onlyGivenNames z; refine Keeps.cut (W := W) (s0 := s0) (x := z) ?_ ?_; dsimp -zeta only [z]; rotate_left; clear_value z; rotate_right)
    | (extract_lets +onlyGivenNames z; clear_value z)
    | split

theorem keysScrub_keeps (hw : Sub 0x40 W) {s} (hs : Keeps W s0 s) : Keeps W s0 (keysScrub s) := by
  unfold keysScrub
  repeat' first
    | with_reducible assumption
    | with_reducible refine slotSet_keeps (Sub.step hw rfl) ?_
    | with_reducible refine cullet_keeps (Sub.step hw rfl) ?_
    | with_reducible refine Keeps.foldl ?_ ?_
    | intro _
    | (extract_lets +onlyGivenNames z; refine Keeps.cut (W := W) (s0 := s0) (x := z) ?_ ?_; dsimp -zeta only [z]; rotate_left; clear_value z; rotate_right)
    | (extract_lets +onlyGivenNames z; clear_value z)
    | split

theorem scrub_keeps (hw : Sub 0xa7dde W) {s} (hs : Keeps W s0 s) : Keeps W s0 (scrub s) := by
  unfold scrub
  repeat' first
    | with_reducible assumption
    | with_reducible refine rngErase_keeps (Sub.step hw rfl) ?_
    | with_reducible refine pkeErase_keeps (Sub.step hw rfl) ?_
    | with_reducible refine cipherErase_keeps (Sub.step hw rfl) ?_
    | with_reducible refine flumeErase_keeps (Sub.step hw rfl) ?_
    | with_reducible refine endSessions_keeps (Sub.step hw rfl) ?_
    | with_reducible refine keysScrub_keeps (Sub.step hw rfl) ?_
    | with_reducible refine closeSession_keeps (Sub.step hw rfl) ?_
    | with_reducible refine State.modTamper_keeps (Sub.step hw rfl) ?_
    | with_reducible refine Keeps.foldl ?_ ?_
    | intro _
    | (extract_lets +onlyGivenNames z; refine Keeps.cut (W := W) (s0 := s0) (x := z) ?_ ?_; dsimp -zeta only [z]; rotate_left; clear_value z; rotate_right)
    | (extract_lets +onlyGivenNames z; clear_value z)
    | split

theorem abortAlarm_keeps (hw : Sub 0x83c5e W) {keep s} (hs : Keeps W s0 s) : Keeps W s0 (abortAlarm keep s) := by
  unfold abortAlarm
  repeat' first
    | with_reducible assumption
    | with_reducible refine finishAll_keeps (Sub.step hw rfl) ?_
    | with_reducible refine State.modCmdif_keeps (Sub.step hw rfl) ?_
    | with_reducible refine Keeps.foldl ?_ ?_
    | intro _
    | (extract_lets +onlyGivenNames z; refine Keeps.cut (W := W) (s0 := s0) (x := z) ?_ ?_; dsimp -zeta only [z]; rotate_left; clear_value z; rotate_right)
    | (extract_lets +onlyGivenNames z; clear_value z)
    | split

theorem awaken_keeps (hw : Sub 0x1006 W) {s} (hs : Keeps W s0 s) : Keeps W s0 (awaken s) := by
  unfold awaken
  repeat' first
    | with_reducible assumption
    | with_reducible refine State.modDev_keeps (Sub.step hw rfl) ?_
    | with_reducible refine State.modPort_keeps (Sub.step hw rfl) ?_
    | with_reducible refine State.modCistern_keeps (Sub.step hw rfl) ?_
    | with_reducible refine Keeps.foldl ?_ ?_
    | intro _
    | (extract_lets +onlyGivenNames z; refine Keeps.cut (W := W) (s0 := s0) (x := z) ?_ ?_; dsimp -zeta only [z]; rotate_left; clear_value z; rotate_right)
    | (extract_lets +onlyGivenNames z; clear_value z)
    | split

theorem wardenIrq_keeps (hw : Sub 0x400 W) {n s} (hs : Keeps W s0 s) : Keeps W s0 (wardenIrq n s) := by
  unfold wardenIrq
  repeat' first
    | with_reducible assumption
    | with_reducible refine State.modWarden_keeps (Sub.step hw rfl) ?_ ?_ ?_
    | with_reducible refine Keeps.foldl ?_ ?_
    | exact ‹Warden.coresWf _›
    | exact ‹List.length _ = 16›
    | exact Core.setReg_length ‹_›
    | intro _
    | (extract_lets +onlyGivenNames z; refine Keeps.cut (W := W) (s0 := s0) (x := z) ?_ ?_; dsimp -zeta only [z]; rotate_left; clear_value z; rotate_right)
    | (extract_lets +onlyGivenNames z; clear_value z)
    | split

theorem respond_keeps (hw : Sub 0xa7dde W) {keep level s} (hs : Keeps W s0 s) : Keeps W s0 (respond keep level s) := by
  unfold respond
  repeat' first
    | with_reducible assumption
    | with_reducible refine wardenIrq_keeps (Sub.step hw rfl) ?_
    | with_reducible refine abortAlarm_keeps (Sub.step hw rfl) ?_
    | with_reducible refine awaken_keeps (Sub.step hw rfl) ?_
    | with_reducible refine scrub_keeps (Sub.step hw rfl) ?_
    | with_reducible refine State.modTamper_keeps (Sub.step hw rfl) ?_
    | with_reducible refine Keeps.foldl ?_ ?_
    | intro _
    | (extract_lets +onlyGivenNames z; refine Keeps.cut (W := W) (s0 := s0) (x := z) ?_ ?_; dsimp -zeta only [z]; rotate_left; clear_value z; rotate_right)
    | (extract_lets +onlyGivenNames z; clear_value z)
    | split

theorem raiseBut_keeps (hw : Sub 0xa7dde W) {keep source a b s} (hs : Keeps W s0 s) : Keeps W s0 (raiseBut keep source a b s) := by
  unfold raiseBut
  repeat' first
    | with_reducible assumption
    | with_reducible refine State.modTamper_keeps (Sub.step hw rfl) ?_
    | with_reducible refine respond_keeps (Sub.step hw rfl) ?_
    | with_reducible refine Keeps.foldl ?_ ?_
    | intro _
    | (extract_lets +onlyGivenNames z; refine Keeps.cut (W := W) (s0 := s0) (x := z) ?_ ?_; dsimp -zeta only [z]; rotate_left; clear_value z; rotate_right)
    | (extract_lets +onlyGivenNames z; clear_value z)
    | split

theorem raiseAlarm_keeps (hw : Sub 0xa7dde W) {source a b s} (hs : Keeps W s0 s) : Keeps W s0 (raiseAlarm source a b s) := by
  unfold raiseAlarm
  repeat' first
    | with_reducible assumption
    | with_reducible refine raiseBut_keeps (Sub.step hw rfl) ?_
    | with_reducible refine Keeps.foldl ?_ ?_
    | intro _
    | (extract_lets +onlyGivenNames z; refine Keeps.cut (W := W) (s0 := s0) (x := z) ?_ ?_; dsimp -zeta only [z]; rotate_left; clear_value z; rotate_right)
    | (extract_lets +onlyGivenNames z; clear_value z)
    | split

theorem disagree_keeps (hw : Sub 0xa7dde W) {s} (hs : Keeps W s0 s) : Keeps W s0 (disagree s) := by
  unfold disagree
  repeat' first
    | with_reducible assumption
    | with_reducible refine raiseAlarm_keeps (Sub.step hw rfl) ?_
    | with_reducible refine Keeps.foldl ?_ ?_
    | intro _
    | (extract_lets +onlyGivenNames z; refine Keeps.cut (W := W) (s0 := s0) (x := z) ?_ ?_; dsimp -zeta only [z]; rotate_left; clear_value z; rotate_right)
    | (extract_lets +onlyGivenNames z; clear_value z)
    | split

theorem disagreeOf_keeps (hw : Sub 0xa7dde W) {id s} (hs : Keeps W s0 s) : Keeps W s0 (disagreeOf id s) := by
  unfold disagreeOf
  repeat' first
    | with_reducible assumption
    | with_reducible refine raiseBut_keeps (Sub.step hw rfl) ?_
    | with_reducible refine Keeps.foldl ?_ ?_
    | intro _
    | (extract_lets +onlyGivenNames z; refine Keeps.cut (W := W) (s0 := s0) (x := z) ?_ ?_; dsimp -zeta only [z]; rotate_left; clear_value z; rotate_right)
    | (extract_lets +onlyGivenNames z; clear_value z)
    | split

theorem evidenceBurn_keeps (hw : Sub 0xd0806 W) {s} (hs : Keeps W s0 s) : Keeps W s0 (evidenceBurn s) := by
  unfold evidenceBurn
  repeat' first
    | with_reducible assumption
    | with_reducible refine issueTally_keeps (Sub.step hw rfl) ?_
    | with_reducible refine sendEvt_keeps (Sub.step hw rfl) ?_
    | with_reducible refine puntyTouch_keeps (Sub.step hw rfl) ?_
    | with_reducible refine putRecord_keeps (Sub.step hw rfl) ?_
    | with_reducible refine PairAll.snd (P := Keeps W s0) (p := issueTally _) ?_
    | with_reducible refine PairAll.out (P := Keeps W s0) (by assumption) ?_
    | with_reducible refine Keeps.foldl ?_ ?_
    | intro _
    | (extract_lets +onlyGivenNames z; refine Keeps.cut (W := W) (s0 := s0) (x := z) ?_ ?_; dsimp -zeta only [z]; rotate_left; clear_value z; rotate_right)
    | (extract_lets +onlyGivenNames z; clear_value z)
    | split

theorem retireBut_keeps (hw : Sub 0xdbc5e W) {keep s} (hs : Keeps W s0 s) : Keeps W s0 (retireBut keep s) := by
  unfold retireBut
  split
  · exact hs
  · exact changeMode_keeps (Sub.step hw rfl) (finishAll_keeps (Sub.step hw rfl) (evidenceBurn_keeps (Sub.step hw rfl)
      (Keeps.setOtp (Sub.step hw rfl) (fun _ => rfl) (Nat.le_refl _) hs)))

theorem enterRetired_keeps (hw : Sub 0xdbc5e W) {s} (hs : Keeps W s0 s) : Keeps W s0 (enterRetired s) := by
  unfold enterRetired
  repeat' first
    | with_reducible assumption
    | with_reducible refine retireBut_keeps (Sub.step hw rfl) ?_
    | with_reducible refine Keeps.foldl ?_ ?_
    | intro _
    | (extract_lets +onlyGivenNames z; refine Keeps.cut (W := W) (s0 := s0) (x := z) ?_ ?_; dsimp -zeta only [z]; rotate_left; clear_value z; rotate_right)
    | (extract_lets +onlyGivenNames z; clear_value z)
    | split

theorem countedEvent_keeps (hw : Sub 0xf8806 W) {s} (hs : Keeps W s0 s) : Keeps W s0 (countedEvent s) := by
  unfold countedEvent
  split
  · exact State.modTamper_keeps (Sub.step hw rfl) hs
  · exact evidenceBurn_keeps (Sub.step hw rfl) (Keeps.setOtp (Sub.step hw rfl) (fun h => h) (Nat.le_succ _) hs)

theorem keyStoreErase_keeps (hw : Sub 0x40 W) {s} (hs : Keeps W s0 s) : Keeps W s0 (keyStoreErase s) := by
  unfold keyStoreErase
  repeat' first
    | with_reducible assumption
    | with_reducible refine State.modKeys_keeps (Sub.step hw rfl) ?_
    | with_reducible refine Keeps.foldl ?_ ?_
    | intro _
    | (extract_lets +onlyGivenNames z; refine Keeps.cut (W := W) (s0 := s0) (x := z) ?_ ?_; dsimp -zeta only [z]; rotate_left; clear_value z; rotate_right)
    | (extract_lets +onlyGivenNames z; clear_value z)
    | split

theorem destroyKeys_keeps (hw : Sub 0x93c46 W) {s} (hs : Keeps W s0 s) : Keeps W s0 (destroyKeys s) := by
  unfold destroyKeys
  repeat' first
    | with_reducible assumption
    | with_reducible refine State.modDev_keeps (Sub.step hw rfl) ?_
    | with_reducible refine State.modBackup_keeps (Sub.step hw rfl) ?_
    | with_reducible refine keyStoreErase_keeps (Sub.step hw rfl) ?_
    | with_reducible refine ledgerZeroize_keeps (Sub.step hw rfl) ?_
    | with_reducible refine coreMod_keeps (Sub.step hw rfl) ?_ ?_
    | with_reducible refine State.modWarden_keeps (Sub.step hw rfl) ?_ ?_ ?_
    | with_reducible refine State.modVault_keeps (Sub.step hw rfl) ?_
    | with_reducible refine Keeps.foldl ?_ ?_
    | exact ‹Warden.coresWf _›
    | exact ‹List.length _ = 16›
    | exact Core.setReg_length ‹_›
    | intro _
    | (extract_lets +onlyGivenNames z; refine Keeps.cut (W := W) (s0 := s0) (x := z) ?_ ?_; dsimp -zeta only [z]; rotate_left; clear_value z; rotate_right)
    | (extract_lets +onlyGivenNames z; clear_value z)
    | split

theorem enterZeroized_keeps (hw : Sub 0xc2806 W) {s} (hs : Keeps W s0 s) : Keeps W s0 (enterZeroized s) := by
  unfold enterZeroized
  repeat' first
    | with_reducible assumption
    | with_reducible refine changeMode_keeps (Sub.step hw rfl) ?_
    | with_reducible refine setModeFlags_keeps (Sub.step hw rfl) ?_
    | with_reducible refine Keeps.foldl ?_ ?_
    | intro _
    | (extract_lets +onlyGivenNames z; refine Keeps.cut (W := W) (s0 := s0) (x := z) ?_ ?_; dsimp -zeta only [z]; rotate_left; clear_value z; rotate_right)
    | (extract_lets +onlyGivenNames z; clear_value z)
    | split

theorem surveyCut_keeps (hw : Sub 0x18080e W) {s} (hs : Keeps W s0 s) : Keeps W s0 (surveyCut s) := by
  unfold surveyCut
  repeat' first
    | with_reducible assumption
    | with_reducible refine drawNat_keeps (Sub.step hw rfl) ?_
    | with_reducible refine regSet_keeps (Sub.step hw rfl) ?_
    | with_reducible refine regOr_keeps (Sub.step hw rfl) ?_
    | with_reducible refine serveHeld_keeps (Sub.step hw rfl) ?_
    | with_reducible refine State.modDev_keeps (Sub.step hw rfl) ?_
    | with_reducible refine PairAll.snd (P := Keeps W s0) (p := drawNat _) ?_
    | with_reducible refine PairAll.out (P := Keeps W s0) (by assumption) ?_
    | with_reducible refine Keeps.foldl ?_ ?_
    | intro _
    | (extract_lets +onlyGivenNames z; refine Keeps.cut (W := W) (s0 := s0) (x := z) ?_ ?_; dsimp -zeta only [z]; rotate_left; clear_value z; rotate_right)
    | (extract_lets +onlyGivenNames z; clear_value z)
    | split

theorem alarmChange_keeps (hw : Sub 0x18080e W) {f s} (hs : Keeps W s0 s) (hf : ∀ u, Keeps W s0 u → Keeps W s0 (f u)) : Keeps W s0 (alarmChange f s) := by
  unfold alarmChange
  repeat' first
    | with_reducible assumption
    | with_reducible apply hf
    | with_reducible refine surveyCut_keeps (Sub.step hw rfl) ?_
    | with_reducible refine Keeps.foldl ?_ ?_
    | intro _
    | (extract_lets +onlyGivenNames z; refine Keeps.cut (W := W) (s0 := s0) (x := z) ?_ ?_; dsimp -zeta only [z]; rotate_left; clear_value z; rotate_right)
    | (extract_lets +onlyGivenNames z; clear_value z)
    | split

theorem zeroize_keeps (hw : Sub 0x1fbc4e W) {s} (hs : Keeps W s0 s) : Keeps W s0 (zeroize s) := by
  unfold zeroize
  repeat' first
    | with_reducible assumption
    | with_reducible refine countedEvent_keeps (Sub.step hw rfl) ?_
    | with_reducible refine destroyKeys_keeps (Sub.step hw rfl) ?_
    | with_reducible refine alarmChange_keeps (Sub.step hw rfl) ?_ ?_
    | with_reducible refine enterZeroized_keeps (Sub.step hw rfl) ?_
    | with_reducible refine Keeps.foldl ?_ ?_
    | intro _
    | (extract_lets +onlyGivenNames z; refine Keeps.cut (W := W) (s0 := s0) (x := z) ?_ ?_; dsimp -zeta only [z]; rotate_left; clear_value z; rotate_right)
    | (extract_lets +onlyGivenNames z; clear_value z)
    | split

end Sys2Proof.Machine
end

