-- ==== Sys2Proof/Laws/FrameTamperCmds.lean ====
section
/-! SUPPORT. The frame of every operation of Machine/TamperCmds.lean: the parts it may write, and what it keeps (`Keeps`). -/
namespace Sys2Proof.Machine

set_option linter.tactic.unusedName false
variable {W : Nat} {s0 : State}

theorem noteActive_keeps (hw : Sub 0x20000 W) {n s} (hs : Keeps W s0 s) : Keeps W s0 (noteActive n s) := by
  unfold noteActive
  repeat' first
    | with_reducible assumption
    | with_reducible refine State.modTamper_keeps (Sub.step hw rfl) ?_
    | with_reducible refine Keeps.foldl ?_ ?_
    | intro _
    | (extract_lets +onlyGivenNames z; refine Keeps.cut (W := W) (s0 := s0) (x := z) ?_ ?_; dsimp -zeta only [z]; rotate_left; clear_value z; rotate_right)
    | (extract_lets +onlyGivenNames z; clear_value z)
    | split

theorem pinSample_keeps (hw : Sub 0x10000 W) {n differs s} (hs : Keeps W s0 s) : Keeps W s0 (pinSample n differs s) := by
  unfold pinSample
  repeat' first
    | with_reducible assumption
    | with_reducible refine State.modBackup_keeps (Sub.step hw rfl) ?_
    | with_reducible refine Keeps.foldl ?_ ?_
    | intro _
    | (extract_lets +onlyGivenNames z; refine Keeps.cut (W := W) (s0 := s0) (x := z) ?_ ?_; dsimp -zeta only [z]; rotate_left; clear_value z; rotate_right)
    | (extract_lets +onlyGivenNames z; clear_value z)
    | split

theorem noteReadings_keeps (hw : Sub 0x80000 W) {p a b s} (hs : Keeps W s0 s) : Keeps W s0 (noteReadings p a b s) := by
  unfold noteReadings
  repeat' first
    | with_reducible assumption
    | with_reducible refine regSet_keeps (Sub.step hw rfl) ?_
    | with_reducible refine Keeps.foldl ?_ ?_
    | intro _
    | (extract_lets +onlyGivenNames z; refine Keeps.cut (W := W) (s0 := s0) (x := z) ?_ ?_; dsimp -zeta only [z]; rotate_left; clear_value z; rotate_right)
    | (extract_lets +onlyGivenNames z; clear_value z)
    | split

theorem execAlarmRaised_keeps (hw : Sub 0xb7dde W) {n a b s} (hs : Keeps W s0 s) : OutAll (Keeps W s0) (execAlarmRaised n a b s) := by
  unfold execAlarmRaised
  repeat' first
    | with_reducible assumption
    | with_reducible refine raiseAlarm_keeps (Sub.step hw rfl) ?_
    | with_reducible refine noteActive_keeps (Sub.step hw rfl) ?_
    | with_reducible refine pinSample_keeps (Sub.step hw rfl) ?_
    | with_reducible refine noteReadings_keeps (Sub.step hw rfl) ?_
    | with_reducible refine OutAll.next ?_
    | with_reducible refine Keeps.foldl ?_ ?_
    | intro _
    | (extract_lets +onlyGivenNames z; refine Keeps.cut (W := W) (s0 := s0) (x := z) ?_ ?_; dsimp -zeta only [z]; rotate_left; clear_value z; rotate_right)
    | (extract_lets +onlyGivenNames z; clear_value z)
    | split

theorem execMonitorFault_keeps (hw : Sub 0xa7dde W) {p a b s} (hs : Keeps W s0 s) : OutAll (Keeps W s0) (execMonitorFault p a b s) := by
  unfold execMonitorFault
  repeat' first
    | with_reducible assumption
    | with_reducible refine raiseAlarm_keeps (Sub.step hw rfl) ?_
    | with_reducible refine noteActive_keeps (Sub.step hw rfl) ?_
    | with_reducible refine noteReadings_keeps (Sub.step hw rfl) ?_
    | with_reducible refine OutAll.next ?_
    | with_reducible refine Keeps.foldl ?_ ?_
    | intro _
    | (extract_lets +onlyGivenNames z; refine Keeps.cut (W := W) (s0 := s0) (x := z) ?_ ?_; dsimp -zeta only [z]; rotate_left; clear_value z; rotate_right)
    | (extract_lets +onlyGivenNames z; clear_value z)
    | split

theorem execAlarmConditionAbsent_keeps (hw : Sub 0x30000 W) {n s} (hs : Keeps W s0 s) : OutAll (Keeps W s0) (execAlarmConditionAbsent n s) := by
  unfold execAlarmConditionAbsent
  repeat' first
    | with_reducible assumption
    | with_reducible refine State.modTamper_keeps (Sub.step hw rfl) ?_
    | with_reducible refine pinSample_keeps (Sub.step hw rfl) ?_
    | with_reducible refine OutAll.next ?_
    | with_reducible refine Keeps.foldl ?_ ?_
    | intro _
    | (extract_lets +onlyGivenNames z; refine Keeps.cut (W := W) (s0 := s0) (x := z) ?_ ?_; dsimp -zeta only [z]; rotate_left; clear_value z; rotate_right)
    | (extract_lets +onlyGivenNames z; clear_value z)
    | split

theorem recordAlarm_keeps (hw : Sub 0xd2806 W) {s r} (hs : Keeps W s0 s) : Keeps W s0 (recordAlarm s r) := by
  unfold recordAlarm
  repeat' first
    | with_reducible assumption
    | with_reducible refine recordUntallied_keeps (Sub.step hw rfl) ?_
    | with_reducible refine issueTally_keeps (Sub.step hw rfl) ?_
    | with_reducible refine puntyAlarm_keeps (Sub.step hw rfl) ?_
    | with_reducible refine putRecord_keeps (Sub.step hw rfl) ?_
    | with_reducible refine announceAlarm_keeps (Sub.step hw rfl) ?_
    | with_reducible refine PairAll.snd (P := Keeps W s0) (p := issueTally _) ?_
    | with_reducible refine PairAll.out (P := Keeps W s0) (by assumption) ?_
    | with_reducible refine Keeps.foldl ?_ ?_
    | intro _
    | (extract_lets +onlyGivenNames z; refine Keeps.cut (W := W) (s0 := s0) (x := z) ?_ ?_; dsimp -zeta only [z]; rotate_left; clear_value z; rotate_right)
    | (extract_lets +onlyGivenNames z; clear_value z)
    | split

theorem tallyRecord_keeps (hw : Sub 0xd2806 W) {s i} (hs : Keeps W s0 s) : Keeps W s0 (tallyRecord s i) := by
  unfold tallyRecord
  repeat' first
    | with_reducible assumption
    | with_reducible refine issueTally_keeps (Sub.step hw rfl) ?_
    | with_reducible refine State.modBackup_keeps (Sub.step hw rfl) ?_
    | with_reducible refine puntyTouch_keeps (Sub.step hw rfl) ?_
    | with_reducible refine announceAlarm_keeps (Sub.step hw rfl) ?_
    | with_reducible refine PairAll.snd (P := Keeps W s0) (p := issueTally _) ?_
    | with_reducible refine PairAll.out (P := Keeps W s0) (by assumption) ?_
    | with_reducible refine Keeps.foldl ?_ ?_
    | intro _
    | (extract_lets +onlyGivenNames z; refine Keeps.cut (W := W) (s0 := s0) (x := z) ?_ ?_; dsimp -zeta only [z]; rotate_left; clear_value z; rotate_right)
    | (extract_lets +onlyGivenNames z; clear_value z)
    | split

theorem tallyRecords_keeps (hw : Sub 0xd2806 W) {s} (hs : Keeps W s0 s) : Keeps W s0 (tallyRecords s) := by
  unfold tallyRecords
  repeat' first
    | with_reducible assumption
    | with_reducible refine tallyRecord_keeps (Sub.step hw rfl) ?_
    | with_reducible refine Keeps.foldl ?_ ?_
    | intro _
    | (extract_lets +onlyGivenNames z; refine Keeps.cut (W := W) (s0 := s0) (x := z) ?_ ?_; dsimp -zeta only [z]; rotate_left; clear_value z; rotate_right)
    | (extract_lets +onlyGivenNames z; clear_value z)
    | split

theorem execScrubComplete_keeps (hw : Sub 0x20000 W) {s} (hs : Keeps W s0 s) : OutAll (Keeps W s0) (execScrubComplete s) := by
  unfold execScrubComplete
  repeat' first
    | with_reducible assumption
    | with_reducible refine State.modTamper_keeps (Sub.step hw rfl) ?_
    | with_reducible refine OutAll.next ?_
    | with_reducible refine Keeps.foldl ?_ ?_
    | intro _
    | (extract_lets +onlyGivenNames z; refine Keeps.cut (W := W) (s0 := s0) (x := z) ?_ ?_; dsimp -zeta only [z]; rotate_left; clear_value z; rotate_right)
    | (extract_lets +onlyGivenNames z; clear_value z)
    | split

theorem execWorkingKeysReformed_keeps (hw : Sub 0x22000 W) {s} (hs : Keeps W s0 s) : OutAll (Keeps W s0) (execWorkingKeysReformed s) := by
  unfold execWorkingKeysReformed
  repeat' first
    | with_reducible assumption
    | with_reducible refine resendLost_keeps (Sub.step hw rfl) ?_
    | with_reducible refine State.modTamper_keeps (Sub.step hw rfl) ?_
    | with_reducible refine OutAll.next ?_
    | with_reducible refine Keeps.foldl ?_ ?_
    | intro _
    | (extract_lets +onlyGivenNames z; refine Keeps.cut (W := W) (s0 := s0) (x := z) ?_ ?_; dsimp -zeta only [z]; rotate_left; clear_value z; rotate_right)
    | (extract_lets +onlyGivenNames z; clear_value z)
    | split

theorem noteHold_keeps (hw : Sub 0xd0806 W) {src lev fl a b s} (hs : Keeps W s0 s) : Keeps W s0 (noteHold src lev fl a b s) := by
  unfold noteHold
  repeat' first
    | with_reducible assumption
    | with_reducible refine puntyAlarm_keeps (Sub.step hw rfl) ?_
    | with_reducible refine putRecord_keeps (Sub.step hw rfl) ?_
    | with_reducible refine Keeps.foldl ?_ ?_
    | intro _
    | (extract_lets +onlyGivenNames z; refine Keeps.cut (W := W) (s0 := s0) (x := z) ?_ ?_; dsimp -zeta only [z]; rotate_left; clear_value z; rotate_right)
    | (extract_lets +onlyGivenNames z; clear_value z)
    | split

theorem holdErase_keeps (hw : Sub 0x10000 W) {s} (hs : Keeps W s0 s) : Keeps W s0 (holdErase s) := by
  unfold holdErase
  exact State.modBackup_keeps (Sub.step hw rfl) hs

theorem holdDisagree_keeps (hw : Sub 0xf0806 W) {s} (hs : Keeps W s0 s) : Keeps W s0 (holdDisagree s) := by
  unfold holdDisagree
  exact noteHold_keeps (Sub.step hw rfl) (State.modTamper_keeps (Sub.step hw rfl) hs)

theorem holdDecision_keeps (hw : Sub 0xf0806 W) {agree s} (hs : Keeps W s0 s) : Keeps W s0 (holdDecision agree s) := by
  unfold holdDecision
  repeat' first
    | with_reducible assumption
    | with_reducible refine holdDisagree_keeps (Sub.step hw rfl) ?_
    | with_reducible refine State.modTamper_keeps (Sub.step hw rfl) ?_
    | with_reducible refine State.modBackup_keeps (Sub.step hw rfl) ?_
    | with_reducible refine holdErase_keeps (Sub.step hw rfl) ?_
    | with_reducible refine Keeps.foldl ?_ ?_
    | intro _
    | (extract_lets +onlyGivenNames z; refine Keeps.cut (W := W) (s0 := s0) (x := z) ?_ ?_; dsimp -zeta only [z]; rotate_left; clear_value z; rotate_right)
    | (extract_lets +onlyGivenNames z; clear_value z)
    | split

theorem execZeroizeDecision_keeps (hw : Sub 0x1ffdde W) {agree s} (hs : Keeps W s0 s) : OutAll (Keeps W s0) (execZeroizeDecision agree s) := by
  unfold execZeroizeDecision
  repeat' first
    | with_reducible assumption
    | with_reducible refine holdDecision_keeps (Sub.step hw rfl) ?_
    | with_reducible refine bump_keeps (Sub.step hw rfl) ?_
    | with_reducible refine disagree_keeps (Sub.step hw rfl) ?_
    | with_reducible refine State.modTamper_keeps (Sub.step hw rfl) ?_
    | with_reducible refine alarmChange_keeps (Sub.step hw rfl) ?_ ?_
    | with_reducible refine enterRetired_keeps (Sub.step hw rfl) ?_
    | with_reducible refine zeroize_keeps (Sub.step hw rfl) ?_
    | with_reducible refine OutAll.next ?_
    | with_reducible refine Keeps.foldl ?_ ?_
    | intro _
    | (extract_lets +onlyGivenNames z; refine Keeps.cut (W := W) (s0 := s0) (x := z) ?_ ?_; dsimp -zeta only [z]; rotate_left; clear_value z; rotate_right)
    | (extract_lets +onlyGivenNames z; clear_value z)
    | split

theorem execHoldAlarm_keeps (hw : Sub 0xf0806 W) {n a b agree s} (hs : Keeps W s0 s) : OutAll (Keeps W s0) (execHoldAlarm n a b agree s) := by
  unfold execHoldAlarm
  repeat' first
    | with_reducible assumption
    | with_reducible refine State.modTamper_keeps (Sub.step hw rfl) ?_
    | with_reducible refine noteActive_keeps (Sub.step hw rfl) ?_
    | with_reducible refine noteHold_keeps (Sub.step hw rfl) ?_
    | with_reducible refine holdDisagree_keeps (Sub.step hw rfl) ?_
    | with_reducible refine holdErase_keeps (Sub.step hw rfl) ?_
    | with_reducible refine OutAll.next ?_
    | with_reducible refine Keeps.foldl ?_ ?_
    | intro _
    | (extract_lets +onlyGivenNames z; refine Keeps.cut (W := W) (s0 := s0) (x := z) ?_ ?_; dsimp -zeta only [z]; rotate_left; clear_value z; rotate_right)
    | (extract_lets +onlyGivenNames z; clear_value z)
    | split

theorem execTamperLogCopy_keeps (hw : Sub 0xb0806 W) {ok s} (hs : Keeps W s0 s) : OutAll (Keeps W s0) (execTamperLogCopy ok s) := by
  unfold execTamperLogCopy
  repeat' first
    | with_reducible assumption
    | with_reducible refine tamperErr_keeps (Sub.step hw rfl) ?_
    | with_reducible refine eraseSector_keeps (Sub.step hw rfl) ?_
    | with_reducible refine flashAnd_keeps (Sub.step hw rfl) ?_
    | with_reducible refine State.modTamper_keeps (Sub.step hw rfl) ?_
    | with_reducible refine State.modBackup_keeps (Sub.step hw rfl) ?_
    | with_reducible refine OutAll.next ?_
    | with_reducible refine Keeps.foldl ?_ ?_
    | intro _
    | (extract_lets +onlyGivenNames z; refine Keeps.cut (W := W) (s0 := s0) (x := z) ?_ ?_; dsimp -zeta only [z]; rotate_left; clear_value z; rotate_right)
    | (extract_lets +onlyGivenNames z; clear_value z)
    | split

theorem plainOp_keeps  : OpSpec.All (Keeps W s0) (plainOp ) := by
  intro c u hu
  exact Draws.all_ok hu

theorem execTamperStatus_keeps (hw : Sub 0x183c5e W) {id s} (hs : Keeps W s0 s) : OutAll (Keeps W s0) (execTamperStatus id s) := by
  unfold execTamperStatus
  repeat' first
    | with_reducible assumption
    | with_reducible refine runOp_keeps (Sub.step hw rfl) ?_ ?_ ?_
    | with_reducible refine plainOp_keeps 
    | with_reducible refine finish_keeps (Sub.step hw rfl) ?_
    | ((with_reducible refine OpSpec.All.default ?_); exact rfl)
    | with_reducible refine OutAll.next ?_
    | with_reducible refine Keeps.foldl ?_ ?_
    | intro _
    | (extract_lets +onlyGivenNames z; refine Keeps.cut (W := W) (s0 := s0) (x := z) ?_ ?_; dsimp -zeta only [z]; rotate_left; clear_value z; rotate_right)
    | (extract_lets +onlyGivenNames z; clear_value z)
    | split

theorem execTamperLogRead_keeps (hw : Sub 0x183c5e W) {id s} (hs : Keeps W s0 s) : OutAll (Keeps W s0) (execTamperLogRead id s) := by
  unfold execTamperLogRead
  repeat' first
    | with_reducible assumption
    | with_reducible refine runOp_keeps (Sub.step hw rfl) ?_ ?_ ?_
    | with_reducible refine noKeys_keeps 
    | with_reducible refine finish_keeps (Sub.step hw rfl) ?_
    | ((with_reducible refine OpSpec.All.default ?_); exact rfl)
    | with_reducible refine OutAll.next ?_
    | with_reducible refine Keeps.foldl ?_ ?_
    | intro _
    | (extract_lets +onlyGivenNames z; refine Keeps.cut (W := W) (s0 := s0) (x := z) ?_ ?_; dsimp -zeta only [z]; rotate_left; clear_value z; rotate_right)
    | (extract_lets +onlyGivenNames z; clear_value z)
    | split

theorem execEvidenceRead_keeps (hw : Sub 0x183c5e W) {id s} (hs : Keeps W s0 s) : OutAll (Keeps W s0) (execEvidenceRead id s) := by
  unfold execEvidenceRead
  repeat' first
    | with_reducible assumption
    | with_reducible refine runOp_keeps (Sub.step hw rfl) ?_ ?_ ?_
    | with_reducible refine plainOp_keeps 
    | with_reducible refine finish_keeps (Sub.step hw rfl) ?_
    | ((with_reducible refine OpSpec.All.default ?_); exact rfl)
    | with_reducible refine OutAll.next ?_
    | with_reducible refine Keeps.foldl ?_ ?_
    | intro _
    | (extract_lets +onlyGivenNames z; refine Keeps.cut (W := W) (s0 := s0) (x := z) ?_ ?_; dsimp -zeta only [z]; rotate_left; clear_value z; rotate_right)
    | (extract_lets +onlyGivenNames z; clear_value z)
    | split

theorem execPuntyWrite_keeps (hw : Sub 0x1c3c5e W) {id s} (hs : Keeps W s0 s) : OutAll (Keeps W s0) (execPuntyWrite id s) := by
  unfold execPuntyWrite
  repeat' first
    | with_reducible assumption
    | with_reducible refine runOp_keeps (Sub.step hw rfl) ?_ ?_ ?_
    | with_reducible refine noKeys_keeps 
    | with_reducible refine puntyPut_keeps (Sub.step hw rfl) ?_
    | with_reducible refine finishSt_keeps (Sub.step hw rfl) ?_
    | with_reducible refine State.modPunty_keeps (Sub.step hw rfl) ?_
    | with_reducible refine cmdPut_keeps (Sub.step hw rfl) ?_
    | ((with_reducible refine OpSpec.All.default ?_); exact rfl)
    | with_reducible refine OutAll.next ?_
    | with_reducible refine Keeps.foldl ?_ ?_
    | intro _
    | (extract_lets +onlyGivenNames z; refine Keeps.cut (W := W) (s0 := s0) (x := z) ?_ ?_; dsimp -zeta only [z]; rotate_left; clear_value z; rotate_right)
    | (extract_lets +onlyGivenNames z; clear_value z)
    | split

theorem post_keeps (hw : Sub 0x2 W) {key v s} (hs : Keeps W s0 s) : Keeps W s0 (post key v s) := by
  unfold post
  repeat' first
    | with_reducible assumption
    | with_reducible refine State.modDev_keeps (Sub.step hw rfl) ?_
    | with_reducible refine Keeps.foldl ?_ ?_
    | intro _
    | (extract_lets +onlyGivenNames z; refine Keeps.cut (W := W) (s0 := s0) (x := z) ?_ ?_; dsimp -zeta only [z]; rotate_left; clear_value z; rotate_right)
    | (extract_lets +onlyGivenNames z; clear_value z)
    | split

theorem execTamperPinConfig_keeps (hw : Sub 0x183c5e W) {id s} (hs : Keeps W s0 s) : OutAll (Keeps W s0) (execTamperPinConfig id s) := by
  unfold execTamperPinConfig
  repeat' first
    | with_reducible assumption
    | with_reducible refine runOp_keeps (Sub.step hw rfl) ?_ ?_ ?_
    | with_reducible refine noKeys_keeps 
    | with_reducible refine post_keeps (Sub.step hw rfl) ?_
    | with_reducible refine cmdPut_keeps (Sub.step hw rfl) ?_
    | ((with_reducible refine OpSpec.All.default ?_); exact rfl)
    | with_reducible refine OutAll.next ?_
    | with_reducible refine Keeps.foldl ?_ ?_
    | intro _
    | (extract_lets +onlyGivenNames z; refine Keeps.cut (W := W) (s0 := s0) (x := z) ?_ ?_; dsimp -zeta only [z]; rotate_left; clear_value z; rotate_right)
    | (extract_lets +onlyGivenNames z; clear_value z)
    | split

theorem execVbatMeasure_keeps (hw : Sub 0x90806 W) {mv s} (hs : Keeps W s0 s) : OutAll (Keeps W s0) (execVbatMeasure mv s) := by
  unfold execVbatMeasure
  repeat' first
    | with_reducible assumption
    | with_reducible refine State.modBackup_keeps (Sub.step hw rfl) ?_
    | with_reducible refine tamperErr_keeps (Sub.step hw rfl) ?_
    | with_reducible refine OutAll.next ?_
    | with_reducible refine Keeps.foldl ?_ ?_
    | intro _
    | (extract_lets +onlyGivenNames z; refine Keeps.cut (W := W) (s0 := s0) (x := z) ?_ ?_; dsimp -zeta only [z]; rotate_left; clear_value z; rotate_right)
    | (extract_lets +onlyGivenNames z; clear_value z)
    | split

theorem puntyDone_keeps (hw : Sub 0xc3c5e W) {s} (hs : Keeps W s0 s) : Keeps W s0 (puntyDone s) := by
  unfold puntyDone
  repeat' first
    | with_reducible assumption
    | with_reducible refine State.modPunty_keeps (Sub.step hw rfl) ?_
    | with_reducible refine endCmd_keeps (Sub.step hw rfl) ?_
    | with_reducible refine Keeps.foldl ?_ ?_
    | intro _
    | (extract_lets +onlyGivenNames z; refine Keeps.cut (W := W) (s0 := s0) (x := z) ?_ ?_; dsimp -zeta only [z]; rotate_left; clear_value z; rotate_right)
    | (extract_lets +onlyGivenNames z; clear_value z)
    | split

theorem puntySpoil_keeps (hw : Sub 0x140000 W) {n s} (hs : Keeps W s0 s) : Keeps W s0 (puntySpoil n s) := by
  unfold puntySpoil
  repeat' first
    | with_reducible assumption
    | with_reducible refine drawBytes_keeps (Sub.step hw rfl) ?_
    | with_reducible refine drawNat_keeps (Sub.step hw rfl) ?_
    | with_reducible refine State.modPunty_keeps (Sub.step hw rfl) ?_
    | with_reducible refine PairAll.snd (P := Keeps W s0) (p := drawBytes _ _) ?_
    | with_reducible refine PairAll.snd (P := Keeps W s0) (p := drawNat _) ?_
    | with_reducible refine PairAll.out (P := Keeps W s0) (by assumption) ?_
    | with_reducible refine Keeps.foldl ?_ ?_
    | intro _
    | (extract_lets +onlyGivenNames z; refine Keeps.cut (W := W) (s0 := s0) (x := z) ?_ ?_; dsimp -zeta only [z]; rotate_left; clear_value z; rotate_right)
    | (extract_lets +onlyGivenNames z; clear_value z)
    | split

theorem execPuntySwap_keeps (hw : Sub 0x1c3c5e W) {ok s} (hs : Keeps W s0 s) : OutAll (Keeps W s0) (execPuntySwap ok s) := by
  unfold execPuntySwap
  repeat' first
    | with_reducible assumption
    | with_reducible refine tamperErr_keeps (Sub.step hw rfl) ?_
    | with_reducible refine puntySpoil_keeps (Sub.step hw rfl) ?_
    | with_reducible refine State.modPunty_keeps (Sub.step hw rfl) ?_
    | with_reducible refine puntyDone_keeps (Sub.step hw rfl) ?_
    | with_reducible refine bump_keeps (Sub.step hw rfl) ?_
    | with_reducible refine OutAll.next ?_
    | with_reducible refine Keeps.foldl ?_ ?_
    | intro _
    | (extract_lets +onlyGivenNames z; refine Keeps.cut (W := W) (s0 := s0) (x := z) ?_ ?_; dsimp -zeta only [z]; rotate_left; clear_value z; rotate_right)
    | (extract_lets +onlyGivenNames z; clear_value z)
    | split

theorem execPuntyAnticollision_keeps (hw : Sub 0x40000 W) {s} (hs : Keeps W s0 s) : OutAll (Keeps W s0) (execPuntyAnticollision s) := by
  unfold execPuntyAnticollision
  repeat' first
    | with_reducible assumption
    | with_reducible refine State.modPunty_keeps (Sub.step hw rfl) ?_
    | with_reducible refine OutAll.next ?_
    | with_reducible refine Keeps.foldl ?_ ?_
    | intro _
    | (extract_lets +onlyGivenNames z; refine Keeps.cut (W := W) (s0 := s0) (x := z) ?_ ?_; dsimp -zeta only [z]; rotate_left; clear_value z; rotate_right)
    | (extract_lets +onlyGivenNames z; clear_value z)
    | split

theorem puntyRead_keeps (hw : Sub 0xc0000 W) {row n s} (hs : Keeps W s0 s) : Keeps W s0 (puntyRead row n s) := by
  unfold puntyRead
  repeat' first
    | with_reducible assumption
    | with_reducible refine bump_keeps (Sub.step hw rfl) ?_
    | with_reducible refine State.modPunty_keeps (Sub.step hw rfl) ?_
    | with_reducible refine Keeps.foldl ?_ ?_
    | intro _
    | (extract_lets +onlyGivenNames z; refine Keeps.cut (W := W) (s0 := s0) (x := z) ?_ ?_; dsimp -zeta only [z]; rotate_left; clear_value z; rotate_right)
    | (extract_lets +onlyGivenNames z; clear_value z)
    | split

theorem execPtRead_keeps (hw : Sub 0xc0000 W) {row s} (hs : Keeps W s0 s) : OutAll (Keeps W s0) (execPtRead row s) := by
  unfold execPtRead
  repeat' first
    | with_reducible assumption
    | with_reducible refine puntyRead_keeps (Sub.step hw rfl) ?_
    | with_reducible refine OutAll.next ?_
    | with_reducible refine Keeps.foldl ?_ ?_
    | intro _
    | (extract_lets +onlyGivenNames z; refine Keeps.cut (W := W) (s0 := s0) (x := z) ?_ ?_; dsimp -zeta only [z]; rotate_left; clear_value z; rotate_right)
    | (extract_lets +onlyGivenNames z; clear_value z)
    | split

theorem execPtRead4_keeps (hw : Sub 0xc0000 W) {row s} (hs : Keeps W s0 s) : OutAll (Keeps W s0) (execPtRead4 row s) := by
  unfold execPtRead4
  repeat' first
    | with_reducible assumption
    | with_reducible refine puntyRead_keeps (Sub.step hw rfl) ?_
    | with_reducible refine OutAll.next ?_
    | with_reducible refine Keeps.foldl ?_ ?_
    | intro _
    | (extract_lets +onlyGivenNames z; refine Keeps.cut (W := W) (s0 := s0) (x := z) ?_ ?_; dsimp -zeta only [z]; rotate_left; clear_value z; rotate_right)
    | (extract_lets +onlyGivenNames z; clear_value z)
    | split

theorem execHlta_keeps (hw : Sub 0x40000 W) {s} (hs : Keeps W s0 s) : OutAll (Keeps W s0) (execHlta s) := by
  unfold execHlta
  repeat' first
    | with_reducible assumption
    | with_reducible refine State.modPunty_keeps (Sub.step hw rfl) ?_
    | with_reducible refine OutAll.next ?_
    | with_reducible refine Keeps.foldl ?_ ?_
    | intro _
    | (extract_lets +onlyGivenNames z; refine Keeps.cut (W := W) (s0 := s0) (x := z) ?_ ?_; dsimp -zeta only [z]; rotate_left; clear_value z; rotate_right)
    | (extract_lets +onlyGivenNames z; clear_value z)
    | split

end Sys2Proof.Machine
end

