-- ==== Sys2Proof/Laws/FrameClock.lean ====
section
/-! SUPPORT. The frame of every operation of Machine/Clock.lean: the parts it may write, and what it keeps (`Keeps`). -/
namespace Sys2Proof.Machine

set_option linter.tactic.unusedName false
variable {W : Nat} {s0 : State}

theorem refreshSlow_keeps (hw : Sub 0x2 W) {s} (hs : Keeps W s0 s) : Keeps W s0 (refreshSlow s) := by
  unfold refreshSlow
  repeat' first
    | with_reducible assumption
    | with_reducible refine State.modDev_keeps (Sub.step hw rfl) ?_
    | with_reducible refine Keeps.foldl ?_ ?_
    | intro _
    | (extract_lets +onlyGivenNames z; refine Keeps.cut (W := W) (s0 := s0) (x := z) ?_ ?_; dsimp -zeta only [z]; rotate_left; clear_value z; rotate_right)
    | (extract_lets +onlyGivenNames z; clear_value z)
    | split

theorem tamperAlarmLand_keeps (hw : Sub 0xe0806 W) {v s} (hs : Keeps W s0 s) : Keeps W s0 (tamperAlarmLand v s) := by
  unfold tamperAlarmLand
  repeat' first
    | with_reducible assumption
    | with_reducible refine updateLevel_keeps (Sub.step hw rfl) ?_
    | with_reducible refine State.modTamper_keeps (Sub.step hw rfl) ?_
    | with_reducible refine Keeps.foldl ?_ ?_
    | intro _
    | (extract_lets +onlyGivenNames z; refine Keeps.cut (W := W) (s0 := s0) (x := z) ?_ ?_; dsimp -zeta only [z]; rotate_left; clear_value z; rotate_right)
    | (extract_lets +onlyGivenNames z; clear_value z)
    | split

theorem tamperLevelLand_keeps (hw : Sub 0x80806 W) {v s} (hs : Keeps W s0 s) : Keeps W s0 (tamperLevelLand v s) := by
  unfold tamperLevelLand
  repeat' first
    | with_reducible assumption
    | with_reducible refine regSet_keeps (Sub.step hw rfl) ?_
    | with_reducible refine tamperErr_keeps (Sub.step hw rfl) ?_
    | with_reducible refine Keeps.foldl ?_ ?_
    | intro _
    | (extract_lets +onlyGivenNames z; refine Keeps.cut (W := W) (s0 := s0) (x := z) ?_ ?_; dsimp -zeta only [z]; rotate_left; clear_value z; rotate_right)
    | (extract_lets +onlyGivenNames z; clear_value z)
    | split

theorem pinLand_keeps (hw : Sub 0x93c5e W) {n v s} (hs : Keeps W s0 s) : Keeps W s0 (pinLand n v s) := by
  unfold pinLand
  repeat' first
    | with_reducible assumption
    | with_reducible refine State.modBackup_keeps (Sub.step hw rfl) ?_
    | with_reducible refine finishSt_keeps (Sub.step hw rfl) ?_
    | with_reducible refine Keeps.foldl ?_ ?_
    | intro _
    | (extract_lets +onlyGivenNames z; refine Keeps.cut (W := W) (s0 := s0) (x := z) ?_ ?_; dsimp -zeta only [z]; rotate_left; clear_value z; rotate_right)
    | (extract_lets +onlyGivenNames z; clear_value z)
    | split

theorem land_keeps (hw : Sub 0xf3c5e W) {key v s} (hs : Keeps W s0 s) : Keeps W s0 (land key v s) := by
  unfold land
  repeat' first
    | with_reducible assumption
    | with_reducible refine tamperAlarmLand_keeps (Sub.step hw rfl) ?_
    | with_reducible refine tamperLevelLand_keeps (Sub.step hw rfl) ?_
    | with_reducible refine pinLand_keeps (Sub.step hw rfl) ?_
    | with_reducible refine Keeps.foldl ?_ ?_
    | intro _
    | (extract_lets +onlyGivenNames z; refine Keeps.cut (W := W) (s0 := s0) (x := z) ?_ ?_; dsimp -zeta only [z]; rotate_left; clear_value z; rotate_right)
    | (extract_lets +onlyGivenNames z; clear_value z)
    | split

theorem landOne_keeps (hw : Sub 0xf3c5e W) {key s} (hs : Keeps W s0 s) : Keeps W s0 (landOne key s) := by
  unfold landOne
  repeat' first
    | with_reducible assumption
    | with_reducible refine land_keeps (Sub.step hw rfl) ?_
    | with_reducible refine State.modDev_keeps (Sub.step hw rfl) ?_
    | with_reducible refine Keeps.foldl ?_ ?_
    | intro _
    | (extract_lets +onlyGivenNames z; refine Keeps.cut (W := W) (s0 := s0) (x := z) ?_ ?_; dsimp -zeta only [z]; rotate_left; clear_value z; rotate_right)
    | (extract_lets +onlyGivenNames z; clear_value z)
    | split

theorem slowEdge_keeps (hw : Sub 0xf3c5e W) {s} (hs : Keeps W s0 s) : Keeps W s0 (slowEdge s) := by
  unfold slowEdge
  repeat' first
    | with_reducible assumption
    | with_reducible refine State.modDev_keeps (Sub.step hw rfl) ?_
    | with_reducible refine landOne_keeps (Sub.step hw rfl) ?_
    | with_reducible refine Keeps.foldl ?_ ?_
    | intro _
    | (extract_lets +onlyGivenNames z; refine Keeps.cut (W := W) (s0 := s0) (x := z) ?_ ?_; dsimp -zeta only [z]; rotate_left; clear_value z; rotate_right)
    | (extract_lets +onlyGivenNames z; clear_value z)
    | split

theorem recordAlarms_keeps (hw : Sub 0xf2806 W) {s} (hs : Keeps W s0 s) : Keeps W s0 (recordAlarms s) := by
  unfold recordAlarms
  repeat' first
    | with_reducible assumption
    | with_reducible refine tallyRecords_keeps (Sub.step hw rfl) ?_
    | with_reducible refine recordAlarm_keeps (Sub.step hw rfl) ?_
    | with_reducible refine State.modTamper_keeps (Sub.step hw rfl) ?_
    | with_reducible refine updateLevel_keeps (Sub.step hw rfl) ?_
    | with_reducible refine Keeps.foldl ?_ ?_
    | intro _
    | (extract_lets +onlyGivenNames z; refine Keeps.cut (W := W) (s0 := s0) (x := z) ?_ ?_; dsimp -zeta only [z]; rotate_left; clear_value z; rotate_right)
    | (extract_lets +onlyGivenNames z; clear_value z)
    | split

theorem fetchesSettle_keeps (hw : Sub 0x400 W) {n s} (hs : Keeps W s0 s) : Keeps W s0 (fetchesSettle n s) := by
  unfold fetchesSettle
  repeat' first
    | with_reducible assumption
    | with_reducible refine coreMod_keeps (Sub.step hw rfl) ?_ ?_
    | with_reducible refine Keeps.foldl ?_ ?_
    | exact ‹Warden.coresWf _›
    | exact ‹List.length _ = 16›
    | exact Core.setReg_length ‹_›
    | intro _
    | (extract_lets +onlyGivenNames z; refine Keeps.cut (W := W) (s0 := s0) (x := z) ?_ ?_; dsimp -zeta only [z]; rotate_left; clear_value z; rotate_right)
    | (extract_lets +onlyGivenNames z; clear_value z)
    | split

theorem tick_keeps (hw : Sub 0xf3c5e W) {s} (hs : Keeps W s0 s) : Keeps W s0 (tick s) := by
  unfold tick
  repeat' first
    | with_reducible assumption
    | with_reducible refine recordAlarms_keeps (Sub.step hw rfl) ?_
    | with_reducible refine State.modBackup_keeps (Sub.step hw rfl) ?_
    | with_reducible refine refreshSlow_keeps (Sub.step hw rfl) ?_
    | with_reducible refine slowEdge_keeps (Sub.step hw rfl) ?_
    | with_reducible refine fetchesSettle_keeps (Sub.step hw rfl) ?_
    | with_reducible refine Keeps.foldl ?_ ?_
    | intro _
    | (extract_lets +onlyGivenNames z; refine Keeps.cut (W := W) (s0 := s0) (x := z) ?_ ?_; dsimp -zeta only [z]; rotate_left; clear_value z; rotate_right)
    | (extract_lets +onlyGivenNames z; clear_value z)
    | split

theorem execAlarmRecord_keeps (hw : Sub 0xf3c5e W) {s} (hs : Keeps W s0 s) : OutAll (Keeps W s0) (execAlarmRecord s) := by
  unfold execAlarmRecord
  repeat' first
    | with_reducible assumption
    | with_reducible refine tick_keeps (Sub.step hw rfl) ?_
    | with_reducible refine OutAll.next ?_
    | with_reducible refine Keeps.foldl ?_ ?_
    | intro _
    | (extract_lets +onlyGivenNames z; refine Keeps.cut (W := W) (s0 := s0) (x := z) ?_ ?_; dsimp -zeta only [z]; rotate_left; clear_value z; rotate_right)
    | (extract_lets +onlyGivenNames z; clear_value z)
    | split

theorem execPostedWriteLand_keeps (hw : Sub 0xf3c5e W) {r s} (hs : Keeps W s0 s) : OutAll (Keeps W s0) (execPostedWriteLand r s) := by
  unfold execPostedWriteLand
  repeat' first
    | with_reducible assumption
    | with_reducible refine tick_keeps (Sub.step hw rfl) ?_
    | with_reducible refine OutAll.next ?_
    | with_reducible refine Keeps.foldl ?_ ?_
    | intro _
    | (extract_lets +onlyGivenNames z; refine Keeps.cut (W := W) (s0 := s0) (x := z) ?_ ?_; dsimp -zeta only [z]; rotate_left; clear_value z; rotate_right)
    | (extract_lets +onlyGivenNames z; clear_value z)
    | split

end Sys2Proof.Machine
end

