-- ==== Sys2Proof/Laws/FrameCustodian.lean ====
section
/-! SUPPORT. The frame of every operation of Machine/Custodian.lean: the parts it may write, and what it keeps (`Keeps`). -/
namespace Sys2Proof.Machine

set_option linter.tactic.unusedName false
variable {W : Nat} {s0 : State}

theorem custErr_keeps (hw : Sub 0x80806 W) {n s} (hs : Keeps W s0 s) : Keeps W s0 (custErr n s) := by
  unfold custErr
  repeat' first
    | with_reducible assumption
    | with_reducible refine raiseErr_keeps (Sub.step hw rfl) ?_
    | with_reducible refine Keeps.foldl ?_ ?_
    | intro _
    | (extract_lets +onlyGivenNames z; refine Keeps.cut (W := W) (s0 := s0) (x := z) ?_ ?_; dsimp -zeta only [z]; rotate_left; clear_value z; rotate_right)
    | (extract_lets +onlyGivenNames z; clear_value z)
    | split

theorem execVerdictEvaluation_keeps (hw : Sub 0xe7dde W) {agree s} (hs : Keeps W s0 s) : OutAll (Keeps W s0) (execVerdictEvaluation agree s) := by
  unfold execVerdictEvaluation
  repeat' first
    | with_reducible assumption
    | with_reducible refine disagree_keeps (Sub.step hw rfl) ?_
    | with_reducible refine custErr_keeps (Sub.step hw rfl) ?_
    | with_reducible refine State.modCust_keeps (Sub.step hw rfl) ?_
    | with_reducible refine issueTally_keeps (Sub.step hw rfl) ?_
    | with_reducible refine State.modDev_keeps (Sub.step hw rfl) ?_
    | with_reducible refine sendEvt_keeps (Sub.step hw rfl) ?_
    | with_reducible refine changeMode_keeps (Sub.step hw rfl) ?_
    | with_reducible refine PairAll.snd (P := Keeps W s0) (p := issueTally _) ?_
    | with_reducible refine PairAll.out (P := Keeps W s0) (by assumption) ?_
    | with_reducible refine OutAll.next ?_
    | with_reducible refine Keeps.foldl ?_ ?_
    | intro _
    | (extract_lets +onlyGivenNames z; refine Keeps.cut (W := W) (s0 := s0) (x := z) ?_ ?_; dsimp -zeta only [z]; rotate_left; clear_value z; rotate_right)
    | (extract_lets +onlyGivenNames z; clear_value z)
    | split

theorem openCustSession_keeps (hw : Sub 0x84806 W) {n kind key s} (hs : Keeps W s0 s) : PairAll (Keeps W s0) (openCustSession n kind key s) := by
  unfold openCustSession
  repeat' first
    | with_reducible assumption
    | with_reducible refine endSession_keeps (Sub.step hw rfl) ?_
    | with_reducible refine issueTally_keeps (Sub.step hw rfl) ?_
    | with_reducible refine State.modCust_keeps (Sub.step hw rfl) ?_
    | with_reducible refine bump_keeps (Sub.step hw rfl) ?_
    | with_reducible refine sendEvt_keeps (Sub.step hw rfl) ?_
    | with_reducible refine PairAll.snd (P := Keeps W s0) (p := issueTally _) ?_
    | with_reducible refine PairAll.out (P := Keeps W s0) (by assumption) ?_
    | with_reducible refine PairAll.mk ?_
    | with_reducible refine Keeps.foldl ?_ ?_
    | intro _
    | (extract_lets +onlyGivenNames z; refine Keeps.cut (W := W) (s0 := s0) (x := z) ?_ ?_; dsimp -zeta only [z]; rotate_left; clear_value z; rotate_right)
    | (extract_lets +onlyGivenNames z; clear_value z)
    | split

theorem execSessionExpiry_keeps (hw : Sub 0x84806 W) {n s} (hs : Keeps W s0 s) : OutAll (Keeps W s0) (execSessionExpiry n s) := by
  unfold execSessionExpiry
  repeat' first
    | with_reducible assumption
    | with_reducible refine endSession_keeps (Sub.step hw rfl) ?_
    | with_reducible refine OutAll.next ?_
    | with_reducible refine Keeps.foldl ?_ ?_
    | intro _
    | (extract_lets +onlyGivenNames z; refine Keeps.cut (W := W) (s0 := s0) (x := z) ?_ ?_; dsimp -zeta only [z]; rotate_left; clear_value z; rotate_right)
    | (extract_lets +onlyGivenNames z; clear_value z)
    | split

theorem seeCredential_keeps (hw : Sub 0x4000 W) {n s} (hs : Keeps W s0 s) : Keeps W s0 (seeCredential n s) := by
  unfold seeCredential
  repeat' first
    | with_reducible assumption
    | with_reducible refine State.modCust_keeps (Sub.step hw rfl) ?_
    | with_reducible refine Keeps.foldl ?_ ?_
    | intro _
    | (extract_lets +onlyGivenNames z; refine Keeps.cut (W := W) (s0 := s0) (x := z) ?_ ?_; dsimp -zeta only [z]; rotate_left; clear_value z; rotate_right)
    | (extract_lets +onlyGivenNames z; clear_value z)
    | split

theorem execProbe_keeps (hw : Sub 0x4000 W) {n answered s} (hs : Keeps W s0 s) : OutAll (Keeps W s0) (execProbe n answered s) := by
  unfold execProbe
  repeat' first
    | with_reducible assumption
    | with_reducible refine seeCredential_keeps (Sub.step hw rfl) ?_
    | with_reducible refine OutAll.next ?_
    | with_reducible refine Keeps.foldl ?_ ?_
    | intro _
    | (extract_lets +onlyGivenNames z; refine Keeps.cut (W := W) (s0 := s0) (x := z) ?_ ?_; dsimp -zeta only [z]; rotate_left; clear_value z; rotate_right)
    | (extract_lets +onlyGivenNames z; clear_value z)
    | split

theorem endReason_keeps (hw : Sub 0x83c5e W) {c r s} (hs : Keeps W s0 s) : Keeps W s0 (endReason c r s) := by
  unfold endReason
  repeat' first
    | with_reducible assumption
    | with_reducible refine custErr_keeps (Sub.step hw rfl) ?_
    | with_reducible refine bump_keeps (Sub.step hw rfl) ?_
    | with_reducible refine finish_keeps (Sub.step hw rfl) ?_
    | with_reducible refine Keeps.foldl ?_ ?_
    | intro _
    | (extract_lets +onlyGivenNames z; refine Keeps.cut (W := W) (s0 := s0) (x := z) ?_ ?_; dsimp -zeta only [z]; rotate_left; clear_value z; rotate_right)
    | (extract_lets +onlyGivenNames z; clear_value z)
    | split

theorem endWeak_keeps (hw : Sub 0x83c5e W) {c s} (hs : Keeps W s0 s) : Keeps W s0 (endWeak c s) := by
  unfold endWeak
  repeat' first
    | with_reducible assumption
    | with_reducible refine endReason_keeps (Sub.step hw rfl) ?_
    | with_reducible refine custErr_keeps (Sub.step hw rfl) ?_
    | with_reducible refine bump_keeps (Sub.step hw rfl) ?_
    | with_reducible refine Keeps.foldl ?_ ?_
    | intro _
    | (extract_lets +onlyGivenNames z; refine Keeps.cut (W := W) (s0 := s0) (x := z) ?_ ?_; dsimp -zeta only [z]; rotate_left; clear_value z; rotate_right)
    | (extract_lets +onlyGivenNames z; clear_value z)
    | split

theorem sendTag_keeps (hw : Sub 0x4000 W) {b s} (hs : Keeps W s0 s) : Keeps W s0 (sendTag b s) := by
  unfold sendTag
  repeat' first
    | with_reducible assumption
    | with_reducible refine State.modCust_keeps (Sub.step hw rfl) ?_
    | with_reducible refine Keeps.foldl ?_ ?_
    | intro _
    | (extract_lets +onlyGivenNames z; refine Keeps.cut (W := W) (s0 := s0) (x := z) ?_ ?_; dsimp -zeta only [z]; rotate_left; clear_value z; rotate_right)
    | (extract_lets +onlyGivenNames z; clear_value z)
    | split

theorem openFor_keeps (hw : Sub 0x87cde W) {c kind enrolled a s} (hs : Keeps W s0 s) : Keeps W s0 (openFor c kind enrolled a s) := by
  unfold openFor
  repeat' first
    | with_reducible assumption
    | with_reducible refine endReason_keeps (Sub.step hw rfl) ?_
    | with_reducible refine withKey_keeps (Sub.step hw rfl) ?_ ?_
    | with_reducible refine openCustSession_keeps (Sub.step hw rfl) ?_
    | with_reducible refine finish_keeps (Sub.step hw rfl) ?_
    | with_reducible refine PairAll.snd (P := Keeps W s0) (p := openCustSession _ _ _ _) ?_
    | with_reducible refine PairAll.out (P := Keeps W s0) (by assumption) ?_
    | with_reducible refine Keeps.foldl ?_ ?_
    | intro _
    | (extract_lets +onlyGivenNames z; refine Keeps.cut (W := W) (s0 := s0) (x := z) ?_ ?_; dsimp -zeta only [z]; rotate_left; clear_value z; rotate_right)
    | (extract_lets +onlyGivenNames z; clear_value z)
    | split

theorem execCardSession_keeps (hw : Sub 0x187cde W) {id a s} (hs : Keeps W s0 s) : OutAll (Keeps W s0) (execCardSession id a s) := by
  unfold execCardSession
  repeat' first
    | with_reducible assumption
    | with_reducible refine runOp_keeps (Sub.step hw rfl) ?_ ?_ ?_
    | with_reducible refine plainOp_keeps 
    | with_reducible refine endReason_keeps (Sub.step hw rfl) ?_
    | with_reducible refine openFor_keeps (Sub.step hw rfl) ?_
    | ((with_reducible refine OpSpec.All.default ?_); exact rfl)
    | with_reducible refine OutAll.next ?_
    | with_reducible refine Keeps.foldl ?_ ?_
    | intro _
    | (extract_lets +onlyGivenNames z; refine Keeps.cut (W := W) (s0 := s0) (x := z) ?_ ?_; dsimp -zeta only [z]; rotate_left; clear_value z; rotate_right)
    | (extract_lets +onlyGivenNames z; clear_value z)
    | split

theorem execBadgeAuthenticate_keeps (hw : Sub 0x187cde W) {id a s} (hs : Keeps W s0 s) : OutAll (Keeps W s0) (execBadgeAuthenticate id a s) := by
  unfold execBadgeAuthenticate
  repeat' first
    | with_reducible assumption
    | with_reducible refine runOp_keeps (Sub.step hw rfl) ?_ ?_ ?_
    | with_reducible refine noKeys_keeps 
    | with_reducible refine endReason_keeps (Sub.step hw rfl) ?_
    | with_reducible refine openFor_keeps (Sub.step hw rfl) ?_
    | ((with_reducible refine OpSpec.All.default ?_); exact rfl)
    | with_reducible refine OutAll.next ?_
    | with_reducible refine Keeps.foldl ?_ ?_
    | intro _
    | (extract_lets +onlyGivenNames z; refine Keeps.cut (W := W) (s0 := s0) (x := z) ?_ ?_; dsimp -zeta only [z]; rotate_left; clear_value z; rotate_right)
    | (extract_lets +onlyGivenNames z; clear_value z)
    | split

theorem storeTable_keeps (hw : Sub 0x86806 W) {t s} (hs : Keeps W s0 s) : Keeps W s0 (storeTable t s) := by
  unfold storeTable
  repeat' first
    | with_reducible assumption
    | with_reducible refine archive_keeps (Sub.step hw rfl) ?_
    | with_reducible refine State.modCust_keeps (Sub.step hw rfl) ?_
    | with_reducible refine Keeps.foldl ?_ ?_
    | intro _
    | (extract_lets +onlyGivenNames z; refine Keeps.cut (W := W) (s0 := s0) (x := z) ?_ ?_; dsimp -zeta only [z]; rotate_left; clear_value z; rotate_right)
    | (extract_lets +onlyGivenNames z; clear_value z)
    | split

theorem enrolOp_keeps (hw : Sub 0x183c5e W) {fn id body s} (hs : Keeps W s0 s) (hbody : ∀ a0 u, Keeps W s0 u → Keeps W s0 (body a0 u)) : Keeps W s0 (enrolOp fn id body s) := by
  unfold enrolOp
  dsimp only
  repeat' first
    | with_reducible assumption
    | with_reducible apply hbody
    | with_reducible refine runOp_keeps (Sub.step hw rfl) ?_ ?_ ?_
    | with_reducible refine noKeys_keeps 
    | with_reducible refine finishSt_keeps (Sub.step hw rfl) ?_
    | ((with_reducible refine OpSpec.All.default ?_); exact rfl)
    | with_reducible refine Keeps.foldl ?_ ?_
    | intro _
    | (extract_lets +onlyGivenNames z; refine Keeps.cut (W := W) (s0 := s0) (x := z) ?_ ?_; dsimp -zeta only [z]; rotate_left; clear_value z; rotate_right)
    | (extract_lets +onlyGivenNames z; clear_value z)
    | split

theorem execEnrol_keeps (hw : Sub 0x187cde W) {id a s} (hs : Keeps W s0 s) : OutAll (Keeps W s0) (execEnrol id a s) := by
  unfold execEnrol
  dsimp only
  repeat' first
    | with_reducible assumption
    | with_reducible refine enrolOp_keeps (Sub.step hw rfl) ?_ ?_
    | with_reducible refine endReason_keeps (Sub.step hw rfl) ?_
    | with_reducible refine endWeak_keeps (Sub.step hw rfl) ?_
    | with_reducible refine finishSt_keeps (Sub.step hw rfl) ?_
    | with_reducible refine finish_keeps (Sub.step hw rfl) ?_
    | with_reducible refine storeTable_keeps (Sub.step hw rfl) ?_
    | with_reducible refine endSession_keeps (Sub.step hw rfl) ?_
    | with_reducible refine withKey_keeps (Sub.step hw rfl) ?_ ?_
    | with_reducible refine OutAll.next ?_
    | with_reducible refine Keeps.foldl ?_ ?_
    | intro _
    | (extract_lets +onlyGivenNames z; refine Keeps.cut (W := W) (s0 := s0) (x := z) ?_ ?_; dsimp -zeta only [z]; rotate_left; clear_value z; rotate_right)
    | (extract_lets +onlyGivenNames z; clear_value z)
    | split

theorem execRevoke_keeps (hw : Sub 0x187c5e W) {id s} (hs : Keeps W s0 s) : OutAll (Keeps W s0) (execRevoke id s) := by
  unfold execRevoke
  repeat' first
    | with_reducible assumption
    | with_reducible refine enrolOp_keeps (Sub.step hw rfl) ?_ ?_
    | with_reducible refine finishSt_keeps (Sub.step hw rfl) ?_
    | with_reducible refine storeTable_keeps (Sub.step hw rfl) ?_
    | with_reducible refine endSession_keeps (Sub.step hw rfl) ?_
    | with_reducible refine OutAll.next ?_
    | intro _
    | (extract_lets +onlyGivenNames z; clear_value z)
    | split

theorem execSetDefine_keeps (hw : Sub 0x187c5e W) {id s} (hs : Keeps W s0 s) : OutAll (Keeps W s0) (execSetDefine id s) := by
  unfold execSetDefine
  repeat' first
    | with_reducible assumption
    | with_reducible refine enrolOp_keeps (Sub.step hw rfl) ?_ ?_
    | with_reducible refine finishSt_keeps (Sub.step hw rfl) ?_
    | with_reducible refine storeTable_keeps (Sub.step hw rfl) ?_
    | with_reducible refine OutAll.next ?_
    | intro _
    | (extract_lets +onlyGivenNames z; clear_value z)
    | split

theorem execSetHold_keeps (hw : Sub 0x187c5e W) {id s} (hs : Keeps W s0 s) : OutAll (Keeps W s0) (execSetHold id s) := by
  unfold execSetHold
  repeat' first
    | with_reducible assumption
    | with_reducible refine enrolOp_keeps (Sub.step hw rfl) ?_ ?_
    | with_reducible refine finishSt_keeps (Sub.step hw rfl) ?_
    | with_reducible refine State.modCust_keeps (Sub.step hw rfl) ?_
    | with_reducible refine OutAll.next ?_
    | intro _

theorem execQuorumStatus_keeps (hw : Sub 0x183c5e W) {id s} (hs : Keeps W s0 s) : OutAll (Keeps W s0) (execQuorumStatus id s) := by
  unfold execQuorumStatus
  repeat' first
    | with_reducible assumption
    | with_reducible refine runOp_keeps (Sub.step hw rfl) ?_ ?_ ?_
    | with_reducible refine plainOp_keeps 
    | with_reducible refine finish_keeps (Sub.step hw rfl) ?_
    | ((with_reducible refine OpSpec.All.default ?_); exact rfl)
    | with_reducible refine OutAll.next ?_
    | with_reducible refine Keeps.foldl ?_ ?_
    | intro _
    | (extract_lets +onlyGivenNames z; refine Keeps.cut (W := W) (s0 := s0) (x := z) ?_ ?_; dsimp -zeta only [z]; rotate_left; clear_value z; rotate_right)
    | (extract_lets +onlyGivenNames z; clear_value z)
    | split

theorem execTagInventory_keeps (hw : Sub 0x187c5e W) {id frames cardsA cardsB s} (hs : Keeps W s0 s) : OutAll (Keeps W s0) (execTagInventory id frames cardsA cardsB s) := by
  unfold execTagInventory
  repeat' first
    | with_reducible assumption
    | with_reducible refine runOp_keeps (Sub.step hw rfl) ?_ ?_ ?_
    | with_reducible refine noKeys_keeps 
    | with_reducible refine bump_keeps (Sub.step hw rfl) ?_
    | with_reducible refine State.modCust_keeps (Sub.step hw rfl) ?_
    | with_reducible refine custErr_keeps (Sub.step hw rfl) ?_
    | with_reducible refine finish_keeps (Sub.step hw rfl) ?_
    | ((with_reducible refine OpSpec.All.default ?_); exact rfl)
    | with_reducible refine OutAll.next ?_
    | with_reducible refine Keeps.foldl ?_ ?_
    | intro _
    | (extract_lets +onlyGivenNames z; refine Keeps.cut (W := W) (s0 := s0) (x := z) ?_ ?_; dsimp -zeta only [z]; rotate_left; clear_value z; rotate_right)
    | (extract_lets +onlyGivenNames z; clear_value z)
    | split

theorem sealSpec_keeps  : OpSpec.All (Keeps W s0) (sealSpec ) := by
  intro c u hu
  exact Draws.all_ok hu

theorem execSealRead_keeps (hw : Sub 0x183c5e W) {id a s} (hs : Keeps W s0 s) : OutAll (Keeps W s0) (execSealRead id a s) := by
  unfold execSealRead
  repeat' first
    | with_reducible assumption
    | with_reducible refine runOp_keeps (Sub.step hw rfl) ?_ ?_ ?_
    | with_reducible refine sealSpec_keeps 
    | with_reducible refine endReason_keeps (Sub.step hw rfl) ?_
    | with_reducible refine finish_keeps (Sub.step hw rfl) ?_
    | ((with_reducible refine OpSpec.All.default ?_); exact rfl)
    | with_reducible refine OutAll.next ?_
    | with_reducible refine Keeps.foldl ?_ ?_
    | intro _
    | (extract_lets +onlyGivenNames z; refine Keeps.cut (W := W) (s0 := s0) (x := z) ?_ ?_; dsimp -zeta only [z]; rotate_left; clear_value z; rotate_right)
    | (extract_lets +onlyGivenNames z; clear_value z)
    | split

theorem sealWriteSpec_keeps  : OpSpec.All (Keeps W s0) (sealWriteSpec ) := by
  intro c u hu
  exact Draws.all_ok hu

theorem sealWrite_keeps (hw : Sub 0x87c5e W) {issued c a s} (hs : Keeps W s0 s) : Keeps W s0 (sealWrite issued c a s) := by
  unfold sealWrite
  repeat' first
    | with_reducible assumption
    | with_reducible refine endWeak_keeps (Sub.step hw rfl) ?_
    | with_reducible refine endReason_keeps (Sub.step hw rfl) ?_
    | with_reducible refine finish_keeps (Sub.step hw rfl) ?_
    | with_reducible refine sendTag_keeps (Sub.step hw rfl) ?_
    | with_reducible refine Keeps.foldl ?_ ?_
    | intro _
    | (extract_lets +onlyGivenNames z; refine Keeps.cut (W := W) (s0 := s0) (x := z) ?_ ?_; dsimp -zeta only [z]; rotate_left; clear_value z; rotate_right)
    | (extract_lets +onlyGivenNames z; clear_value z)
    | split

theorem execSealIssue_keeps (hw : Sub 0x187c5e W) {id a s} (hs : Keeps W s0 s) : OutAll (Keeps W s0) (execSealIssue id a s) := by
  unfold execSealIssue
  repeat' first
    | with_reducible assumption
    | with_reducible refine runOp_keeps (Sub.step hw rfl) ?_ ?_ ?_
    | with_reducible refine sealWriteSpec_keeps 
    | with_reducible refine sealWrite_keeps (Sub.step hw rfl) ?_
    | ((with_reducible refine OpSpec.All.default ?_); exact rfl)
    | with_reducible refine OutAll.next ?_
    | with_reducible refine Keeps.foldl ?_ ?_
    | intro _
    | (extract_lets +onlyGivenNames z; refine Keeps.cut (W := W) (s0 := s0) (x := z) ?_ ?_; dsimp -zeta only [z]; rotate_left; clear_value z; rotate_right)
    | (extract_lets +onlyGivenNames z; clear_value z)
    | split

theorem execSealWrite_keeps (hw : Sub 0x187c5e W) {id a s} (hs : Keeps W s0 s) : OutAll (Keeps W s0) (execSealWrite id a s) := by
  unfold execSealWrite
  repeat' first
    | with_reducible assumption
    | with_reducible refine runOp_keeps (Sub.step hw rfl) ?_ ?_ ?_
    | with_reducible refine sealWriteSpec_keeps 
    | with_reducible refine sealWrite_keeps (Sub.step hw rfl) ?_
    | ((with_reducible refine OpSpec.All.default ?_); exact rfl)
    | with_reducible refine OutAll.next ?_
    | with_reducible refine Keeps.foldl ?_ ?_
    | intro _
    | (extract_lets +onlyGivenNames z; refine Keeps.cut (W := W) (s0 := s0) (x := z) ?_ ?_; dsimp -zeta only [z]; rotate_left; clear_value z; rotate_right)
    | (extract_lets +onlyGivenNames z; clear_value z)
    | split

theorem wakeUp_keeps (hw : Sub 0xf3806 W) {s} (hs : Keeps W s0 s) : Keeps W s0 (wakeUp s) := by
  unfold wakeUp
  repeat' first
    | with_reducible assumption
    | with_reducible refine updateLevel_keeps (Sub.step hw rfl) ?_
    | with_reducible refine tallyRecords_keeps (Sub.step hw rfl) ?_
    | with_reducible refine awaken_keeps (Sub.step hw rfl) ?_
    | with_reducible refine Keeps.foldl ?_ ?_
    | intro _
    | (extract_lets +onlyGivenNames z; refine Keeps.cut (W := W) (s0 := s0) (x := z) ?_ ?_; dsimp -zeta only [z]; rotate_left; clear_value z; rotate_right)
    | (extract_lets +onlyGivenNames z; clear_value z)
    | split

theorem presence_keeps (hw : Sub 0x80806 W) {src s} (hs : Keeps W s0 s) : Keeps W s0 (presence src s) := by
  unfold presence
  repeat' first
    | with_reducible assumption
    | with_reducible refine postEvt_keeps (Sub.step hw rfl) ?_
    | with_reducible refine Keeps.foldl ?_ ?_
    | intro _
    | (extract_lets +onlyGivenNames z; refine Keeps.cut (W := W) (s0 := s0) (x := z) ?_ ?_; dsimp -zeta only [z]; rotate_left; clear_value z; rotate_right)
    | (extract_lets +onlyGivenNames z; clear_value z)
    | split

theorem deactivate_keeps (hw : Sub 0x4000 W) {s} (hs : Keeps W s0 s) : Keeps W s0 (deactivate s) := by
  unfold deactivate
  repeat' first
    | with_reducible assumption
    | with_reducible refine State.modCust_keeps (Sub.step hw rfl) ?_
    | with_reducible refine Keeps.foldl ?_ ?_
    | intro _
    | (extract_lets +onlyGivenNames z; refine Keeps.cut (W := W) (s0 := s0) (x := z) ?_ ?_; dsimp -zeta only [z]; rotate_left; clear_value z; rotate_right)
    | (extract_lets +onlyGivenNames z; clear_value z)
    | split

theorem execCardInsert_keeps (hw : Sub 0xf7806 W) {s} (hs : Keeps W s0 s) : OutAll (Keeps W s0) (execCardInsert s) := by
  unfold execCardInsert
  repeat' first
    | with_reducible assumption
    | with_reducible refine presence_keeps (Sub.step hw rfl) ?_
    | with_reducible refine wakeUp_keeps (Sub.step hw rfl) ?_
    | with_reducible refine State.modCust_keeps (Sub.step hw rfl) ?_
    | with_reducible refine OutAll.next ?_
    | with_reducible refine Keeps.foldl ?_ ?_
    | intro _
    | (extract_lets +onlyGivenNames z; refine Keeps.cut (W := W) (s0 := s0) (x := z) ?_ ?_; dsimp -zeta only [z]; rotate_left; clear_value z; rotate_right)
    | (extract_lets +onlyGivenNames z; clear_value z)
    | split

theorem execAtr_keeps (hw : Sub 0x84806 W) {ind s} (hs : Keeps W s0 s) : OutAll (Keeps W s0) (execAtr ind s) := by
  unfold execAtr
  repeat' first
    | with_reducible assumption
    | with_reducible refine State.modCust_keeps (Sub.step hw rfl) ?_
    | with_reducible refine custErr_keeps (Sub.step hw rfl) ?_
    | with_reducible refine deactivate_keeps (Sub.step hw rfl) ?_
    | with_reducible refine OutAll.next ?_
    | with_reducible refine Keeps.foldl ?_ ?_
    | intro _
    | (extract_lets +onlyGivenNames z; refine Keeps.cut (W := W) (s0 := s0) (x := z) ?_ ?_; dsimp -zeta only [z]; rotate_left; clear_value z; rotate_right)
    | (extract_lets +onlyGivenNames z; clear_value z)
    | split

theorem execCardSilent_keeps (hw : Sub 0x4000 W) {s} (hs : Keeps W s0 s) : OutAll (Keeps W s0) (execCardSilent s) := by
  unfold execCardSilent
  repeat' first
    | with_reducible assumption
    | with_reducible refine State.modCust_keeps (Sub.step hw rfl) ?_
    | with_reducible refine deactivate_keeps (Sub.step hw rfl) ?_
    | with_reducible refine OutAll.next ?_
    | with_reducible refine Keeps.foldl ?_ ?_
    | intro _
    | (extract_lets +onlyGivenNames z; refine Keeps.cut (W := W) (s0 := s0) (x := z) ?_ ?_; dsimp -zeta only [z]; rotate_left; clear_value z; rotate_right)
    | (extract_lets +onlyGivenNames z; clear_value z)
    | split

theorem execCardRemoved_keeps (hw : Sub 0xf7806 W) {s} (hs : Keeps W s0 s) : OutAll (Keeps W s0) (execCardRemoved s) := by
  unfold execCardRemoved
  repeat' first
    | with_reducible assumption
    | with_reducible refine presence_keeps (Sub.step hw rfl) ?_
    | with_reducible refine wakeUp_keeps (Sub.step hw rfl) ?_
    | with_reducible refine seeCredential_keeps (Sub.step hw rfl) ?_
    | with_reducible refine State.modCust_keeps (Sub.step hw rfl) ?_
    | with_reducible refine deactivate_keeps (Sub.step hw rfl) ?_
    | with_reducible refine OutAll.next ?_
    | with_reducible refine Keeps.foldl ?_ ?_
    | intro _
    | (extract_lets +onlyGivenNames z; refine Keeps.cut (W := W) (s0 := s0) (x := z) ?_ ?_; dsimp -zeta only [z]; rotate_left; clear_value z; rotate_right)
    | (extract_lets +onlyGivenNames z; clear_value z)
    | split

theorem execCardOvercurrent_keeps (hw : Sub 0x84806 W) {s} (hs : Keeps W s0 s) : OutAll (Keeps W s0) (execCardOvercurrent s) := by
  unfold execCardOvercurrent
  repeat' first
    | with_reducible assumption
    | with_reducible refine custErr_keeps (Sub.step hw rfl) ?_
    | with_reducible refine deactivate_keeps (Sub.step hw rfl) ?_
    | with_reducible refine OutAll.next ?_
    | with_reducible refine Keeps.foldl ?_ ?_
    | intro _
    | (extract_lets +onlyGivenNames z; refine Keeps.cut (W := W) (s0 := s0) (x := z) ?_ ?_; dsimp -zeta only [z]; rotate_left; clear_value z; rotate_right)
    | (extract_lets +onlyGivenNames z; clear_value z)
    | split

theorem execCapacitiveWake_keeps (hw : Sub 0xf3806 W) {s} (hs : Keeps W s0 s) : OutAll (Keeps W s0) (execCapacitiveWake s) := by
  unfold execCapacitiveWake
  repeat' first
    | with_reducible assumption
    | with_reducible refine presence_keeps (Sub.step hw rfl) ?_
    | with_reducible refine wakeUp_keeps (Sub.step hw rfl) ?_
    | with_reducible refine OutAll.next ?_
    | with_reducible refine Keeps.foldl ?_ ?_
    | intro _
    | (extract_lets +onlyGivenNames z; refine Keeps.cut (W := W) (s0 := s0) (x := z) ?_ ?_; dsimp -zeta only [z]; rotate_left; clear_value z; rotate_right)
    | (extract_lets +onlyGivenNames z; clear_value z)
    | split

theorem execKeyImportComponents_keeps (hw : Sub 0x183c5e W) {id a s} (hs : Keeps W s0 s) : OutAll (Keeps W s0) (execKeyImportComponents id a s) := by
  unfold execKeyImportComponents
  dsimp only
  repeat' first
    | with_reducible assumption
    | with_reducible refine runOp_keeps (Sub.step hw rfl) ?_ ?_ ?_
    | with_reducible refine noKeys_keeps 
    | with_reducible refine finishSt_keeps (Sub.step hw rfl) ?_
    | with_reducible refine withSlots_keeps (Sub.step hw rfl) ?_ ?_
    | with_reducible refine commitNew_keeps (Sub.step hw rfl) ?_
    | with_reducible refine endReason_keeps (Sub.step hw rfl) ?_
    | with_reducible refine cmdPut_keeps (Sub.step hw rfl) ?_
    | ((with_reducible refine OpSpec.All.default ?_); exact rfl)
    | with_reducible refine OutAll.next ?_
    | with_reducible refine Keeps.foldl ?_ ?_
    | intro _
    | (extract_lets +onlyGivenNames z; refine Keeps.cut (W := W) (s0 := s0) (x := z) ?_ ?_; dsimp -zeta only [z]; rotate_left; clear_value z; rotate_right)
    | (extract_lets +onlyGivenNames z; clear_value z)
    | split

theorem execKeyExportComponents_keeps (hw : Sub 0x187cde W) {id a s} (hs : Keeps W s0 s) : OutAll (Keeps W s0) (execKeyExportComponents id a s) := by
  unfold execKeyExportComponents
  dsimp only
  repeat' first
    | with_reducible assumption
    | with_reducible refine runOp_keeps (Sub.step hw rfl) ?_ ?_ ?_
    | with_reducible refine noKeys_keeps 
    | with_reducible refine endReason_keeps (Sub.step hw rfl) ?_
    | with_reducible refine endWeak_keeps (Sub.step hw rfl) ?_
    | with_reducible refine sendTag_keeps (Sub.step hw rfl) ?_
    | with_reducible refine cmdPut_keeps (Sub.step hw rfl) ?_
    | with_reducible refine finish_keeps (Sub.step hw rfl) ?_
    | with_reducible refine withKey_keeps (Sub.step hw rfl) ?_ ?_
    | with_reducible refine issueTally_keeps (Sub.step hw rfl) ?_
    | with_reducible refine PairAll.snd (P := Keeps W s0) (p := issueTally _) ?_
    | with_reducible refine PairAll.out (P := Keeps W s0) (by assumption) ?_
    | ((with_reducible refine OpSpec.All.default ?_); exact rfl)
    | with_reducible refine OutAll.next ?_
    | with_reducible refine Keeps.foldl ?_ ?_
    | intro _
    | (extract_lets +onlyGivenNames z; refine Keeps.cut (W := W) (s0 := s0) (x := z) ?_ ?_; dsimp -zeta only [z]; rotate_left; clear_value z; rotate_right)
    | (extract_lets +onlyGivenNames z; clear_value z)
    | split

end Sys2Proof.Machine
end

