-- ==== Sys2Proof/Laws/FramePower.lean ====
section
/-! SUPPORT. The frame of every operation of Machine/Power.lean: the parts it may write, and what it keeps (`Keeps`). -/
namespace Sys2Proof.Machine

set_option linter.tactic.unusedName false
variable {W : Nat} {s0 : State}

theorem cutShort_keeps (hw : Sub 0x100800 W) {p s} (hs : Keeps W s0 s) : Keeps W s0 (cutShort p s) := by
  unfold cutShort
  repeat' first
    | with_reducible assumption
    | with_reducible refine setBusy_keeps (Sub.step hw rfl) ?_
    | with_reducible refine drawBytes_keeps (Sub.step hw rfl) ?_
    | with_reducible refine flashAnd_keeps (Sub.step hw rfl) ?_
    | with_reducible refine State.modFlash_keeps (Sub.step hw rfl) ?_ ?_
    | with_reducible refine weaken_keeps (Sub.step hw rfl) ?_
    | with_reducible refine PairAll.snd (P := Keeps W s0) (p := drawBytes _ _) ?_
    | with_reducible refine PairAll.out (P := Keeps W s0) (by assumption) ?_
    | with_reducible refine Keeps.foldl ?_ ?_
    | exact ‹Warden.coresWf _›
    | exact ‹List.length _ = 16›
    | exact Core.setReg_length ‹_›
    | intro _
    | (extract_lets +onlyGivenNames z; refine Keeps.cut (W := W) (s0 := s0) (x := z) ?_ ?_; dsimp -zeta only [z]; rotate_left; clear_value z; rotate_right)
    | (extract_lets +onlyGivenNames z; clear_value z)
    | split

theorem loseBackup_keeps (hw : Sub 0xf0000 W) {s} (hs : Keeps W s0 s) : Keeps W s0 (loseBackup s) := by
  unfold loseBackup
  repeat' first
    | with_reducible assumption
    | with_reducible refine State.modTamper_keeps (Sub.step hw rfl) ?_
    | with_reducible refine State.modPunty_keeps (Sub.step hw rfl) ?_
    | with_reducible refine Keeps.foldl ?_ ?_
    | intro _
    | (extract_lets +onlyGivenNames z; refine Keeps.cut (W := W) (s0 := s0) (x := z) ?_ ?_; dsimp -zeta only [z]; rotate_left; clear_value z; rotate_right)
    | (extract_lets +onlyGivenNames z; clear_value z)
    | split
    | with_reducible refine Keeps.backup (Sub.step hw rfl) ?_
    | with_reducible refine Keeps.regs (Sub.step hw rfl) ?_

theorem powerLost_keeps (hw : Sub 0xe7fde W) {s} (hs : Keeps W s0 s) : Keeps W s0 (powerLost s) := by
  exact {
    parts := fun p hp => by cases p <;> first | exact hs.parts _ hp | exact hw.absurd rfl hp
    mem := fun e => by
      have := hs.mem e
      simp only [Memory.wf, Bool.and_eq_true] at this ⊢
      exact ⟨rfl, this.2⟩
    cores := fun _ => ⟨rfl, rfl, rfl, rfl⟩
    otp := hs.otp
    queue := hs.queue }

theorem enterForensic_keeps (hw : Sub 0xd0806 W) {s} (hs : Keeps W s0 s) : Keeps W s0 (enterForensic s) := by
  unfold enterForensic
  repeat' first
    | with_reducible assumption
    | with_reducible refine State.modDev_keeps (Sub.step hw rfl) ?_
    | with_reducible refine puntyTouch_keeps (Sub.step hw rfl) ?_
    | with_reducible refine putRecord_keeps (Sub.step hw rfl) ?_
    | with_reducible refine Keeps.foldl ?_ ?_
    | intro _
    | (extract_lets +onlyGivenNames z; refine Keeps.cut (W := W) (s0 := s0) (x := z) ?_ ?_; dsimp -zeta only [z]; rotate_left; clear_value z; rotate_right)
    | (extract_lets +onlyGivenNames z; clear_value z)
    | split

theorem enterHold_keeps (hw : Sub 0xf0806 W) {s} (hs : Keeps W s0 s) : Keeps W s0 (enterHold s) := by
  unfold enterHold
  repeat' first
    | with_reducible assumption
    | with_reducible refine loseBackup_keeps (Sub.step hw rfl) ?_
    | with_reducible refine State.modDev_keeps (Sub.step hw rfl) ?_
    | with_reducible refine puntyTouch_keeps (Sub.step hw rfl) ?_
    | with_reducible refine putRecord_keeps (Sub.step hw rfl) ?_
    | with_reducible refine State.modBackup_keeps (Sub.step hw rfl) ?_
    | with_reducible refine enterForensic_keeps (Sub.step hw rfl) ?_
    | with_reducible refine Keeps.foldl ?_ ?_
    | intro _
    | (extract_lets +onlyGivenNames z; refine Keeps.cut (W := W) (s0 := s0) (x := z) ?_ ?_; dsimp -zeta only [z]; rotate_left; clear_value z; rotate_right)
    | (extract_lets +onlyGivenNames z; clear_value z)
    | split

theorem execMainPowerLoss_keeps (hw : Sub 0x1f7fde W) {survive s} (hs : Keeps W s0 s) : OutAll (Keeps W s0) (execMainPowerLoss survive s) := by
  unfold execMainPowerLoss
  repeat' first
    | with_reducible assumption
    | with_reducible refine settleSeg_keeps (Sub.step hw rfl) ?_
    | with_reducible refine enterHold_keeps (Sub.step hw rfl) ?_
    | with_reducible refine powerLost_keeps (Sub.step hw rfl) ?_
    | with_reducible refine recordHeld_keeps (Sub.step hw rfl) ?_
    | with_reducible refine cutShort_keeps (Sub.step hw rfl) ?_
    | with_reducible refine OutAll.next ?_
    | with_reducible refine Keeps.foldl ?_ ?_
    | intro _
    | (extract_lets +onlyGivenNames z; refine Keeps.cut (W := W) (s0 := s0) (x := z) ?_ ?_; dsimp -zeta only [z]; rotate_left; clear_value z; rotate_right)
    | (extract_lets +onlyGivenNames z; clear_value z)
    | split

theorem burnPending_keeps (hw : Sub 0x98000 W) {s b} (hs : Keeps W s0 s) : Keeps W s0 (burnPending s b) := by
  unfold burnPending
  dsimp only
  repeat' first
    | (intro h; exact h)
    | exact Nat.le_succ _
    | with_reducible assumption
    | with_reducible refine State.modBackup_keeps (Sub.step hw rfl) ?_
    | with_reducible refine regOr_keeps (Sub.step hw rfl) ?_
    | split
    | with_reducible refine Keeps.setOtp (Sub.step hw rfl) ?_ ?_ ?_

theorem retiredSources_keeps (hw : Sub 0x80 W) {s} (hs : Keeps W s0 s) : Keeps W s0 (retiredSources s) := by
  unfold retiredSources
  dsimp only
  repeat' first
    | with_reducible assumption
    | with_reducible refine State.modSrc_keeps (Sub.step hw rfl) ?_
    | with_reducible refine State.modRng_keeps (Sub.step hw rfl) ?_
    | with_reducible refine Keeps.foldl ?_ ?_
    | intro _
    | (extract_lets +onlyGivenNames z; refine Keeps.cut (W := W) (s0 := s0) (x := z) ?_ ?_; dsimp -zeta only [z]; rotate_left; clear_value z; rotate_right)
    | (extract_lets +onlyGivenNames z; clear_value z)
    | split

theorem execMainPowerGood_keeps (hw : Sub 0xba082 W) {s} (hs : Keeps W s0 s) : OutAll (Keeps W s0) (execMainPowerGood s) := by
  unfold execMainPowerGood
  repeat' first
    | with_reducible assumption
    | with_reducible refine State.modDev_keeps (Sub.step hw rfl) ?_
    | with_reducible refine State.modTamper_keeps (Sub.step hw rfl) ?_
    | with_reducible refine burnPending_keeps (Sub.step hw rfl) ?_
    | with_reducible refine State.modBackup_keeps (Sub.step hw rfl) ?_
    | with_reducible refine State.modVault_keeps (Sub.step hw rfl) ?_
    | with_reducible refine refreshSlow_keeps (Sub.step hw rfl) ?_
    | with_reducible refine retiredSources_keeps (Sub.step hw rfl) ?_
    | with_reducible refine regOr_keeps (Sub.step hw rfl) ?_
    | with_reducible refine OutAll.next ?_
    | with_reducible refine Keeps.foldl ?_ ?_
    | intro _
    | (extract_lets +onlyGivenNames z; refine Keeps.cut (W := W) (s0 := s0) (x := z) ?_ ?_; dsimp -zeta only [z]; rotate_left; clear_value z; rotate_right)
    | (extract_lets +onlyGivenNames z; clear_value z)
    | split

theorem resumeErase_keeps (hw : Sub 0x90806 W) {s f} (hs : Keeps W s0 s) : Keeps W s0 (resumeErase s f) := by
  unfold resumeErase
  repeat' first
    | with_reducible assumption
    | with_reducible refine bump_keeps (Sub.step hw rfl) ?_
    | with_reducible refine flashErr_keeps (Sub.step hw rfl) ?_
    | with_reducible refine regOr_keeps (Sub.step hw rfl) ?_
    | with_reducible refine closeFlag_keeps (Sub.step hw rfl) ?_
    | with_reducible refine eraseRange_keeps (Sub.step hw rfl) ?_
    | with_reducible refine putRecord_keeps (Sub.step hw rfl) ?_
    | with_reducible refine Keeps.foldl ?_ ?_
    | intro _
    | (extract_lets +onlyGivenNames z; refine Keeps.cut (W := W) (s0 := s0) (x := z) ?_ ?_; dsimp -zeta only [z]; rotate_left; clear_value z; rotate_right)
    | (extract_lets +onlyGivenNames z; clear_value z)
    | split

theorem reserveMarks_keeps (hw : Sub 0x82902 W) {s} (hs : Keeps W s0 s) : Keeps W s0 (reserveMarks s) := by
  unfold reserveMarks
  repeat' first
    | with_reducible assumption
    | with_reducible refine bump_keeps (Sub.step hw rfl) ?_
    | with_reducible refine logRecord_keeps (Sub.step hw rfl) ?_
    | with_reducible refine State.modDev_keeps (Sub.step hw rfl) ?_
    | with_reducible refine State.modCipher_keeps (Sub.step hw rfl) ?_
    | with_reducible refine State.modVault_keeps (Sub.step hw rfl) ?_
    | with_reducible refine Keeps.foldl ?_ ?_
    | intro _
    | (extract_lets +onlyGivenNames z; refine Keeps.cut (W := W) (s0 := s0) (x := z) ?_ ?_; dsimp -zeta only [z]; rotate_left; clear_value z; rotate_right)
    | (extract_lets +onlyGivenNames z; clear_value z)
    | split

theorem tallyBackup_keeps (hw : Sub 0xf2806 W) {s} (hs : Keeps W s0 s) : Keeps W s0 (tallyBackup s) := by
  unfold tallyBackup
  repeat' first
    | with_reducible assumption
    | with_reducible refine updateLevel_keeps (Sub.step hw rfl) ?_
    | with_reducible refine tallyRecords_keeps (Sub.step hw rfl) ?_
    | with_reducible refine regMask_keeps (Sub.step hw rfl) ?_
    | with_reducible refine Keeps.foldl ?_ ?_
    | intro _
    | (extract_lets +onlyGivenNames z; refine Keeps.cut (W := W) (s0 := s0) (x := z) ?_ ?_; dsimp -zeta only [z]; rotate_left; clear_value z; rotate_right)
    | (extract_lets +onlyGivenNames z; clear_value z)
    | split

theorem kekCheck_keeps (hw : Sub 0xd8806 W) {s} (hs : Keeps W s0 s) : Keeps W s0 (kekCheck s) := by
  unfold kekCheck
  dsimp only
  repeat' first
    | (intro h; exact h)
    | exact Nat.le_succ _
    | with_reducible assumption
    | with_reducible refine State.modBackup_keeps (Sub.step hw rfl) ?_
    | with_reducible refine regOr_keeps (Sub.step hw rfl) ?_
    | with_reducible refine State.modDev_keeps (Sub.step hw rfl) ?_
    | with_reducible refine evidenceBurn_keeps (Sub.step hw rfl) ?_
    | split
    | with_reducible refine Keeps.setOtp (Sub.step hw rfl) ?_ ?_ ?_

theorem execBootRomStart_keeps (hw : Sub 0xfa906 W) {s} (hs : Keeps W s0 s) : OutAll (Keeps W s0) (execBootRomStart s) := by
  unfold execBootRomStart
  repeat' first
    | with_reducible assumption
    | with_reducible refine resumeErase_keeps (Sub.step hw rfl) ?_
    | with_reducible refine State.modDev_keeps (Sub.step hw rfl) ?_
    | with_reducible refine kekCheck_keeps (Sub.step hw rfl) ?_
    | with_reducible refine tallyBackup_keeps (Sub.step hw rfl) ?_
    | with_reducible refine reserveMarks_keeps (Sub.step hw rfl) ?_
    | with_reducible refine OutAll.next ?_
    | with_reducible refine Keeps.foldl ?_ ?_
    | intro _
    | (extract_lets +onlyGivenNames z; refine Keeps.cut (W := W) (s0 := s0) (x := z) ?_ ?_; dsimp -zeta only [z]; rotate_left; clear_value z; rotate_right)
    | (extract_lets +onlyGivenNames z; clear_value z)
    | split

theorem drawStoreKeys_keeps (hw : Sub 0x1800c0 W) {x0 s} (hs : Keeps W s0 s) : Keeps W s0 (drawStoreKeys x0 s) := by
  induction x0 generalizing s with
  | zero =>
   rw [drawStoreKeys]
   exact hs
  | succ m ih =>
   rw [drawStoreKeys]
   repeat' first
    | with_reducible refine ih ?_
    | with_reducible assumption
    | with_reducible refine drawKey_keeps (Sub.step hw rfl) ?_
    | with_reducible refine drawNat_keeps (Sub.step hw rfl) ?_
    | with_reducible refine State.modKeys_keeps (Sub.step hw rfl) ?_
    | with_reducible refine PairAll.snd (P := Keeps W s0) (p := drawNat _) ?_
    | with_reducible refine PairAll.out (P := Keeps W s0) (by assumption) ?_
    | with_reducible refine Draw.out_ok (P := Keeps W s0) (by assumption) ?_
    | with_reducible refine Draw.out_wait (P := Keeps W s0) (by assumption) ?_
    | with_reducible refine Draw.out_stopped (P := Keeps W s0) (by assumption) ?_
    | with_reducible refine Keeps.foldl ?_ ?_
    | intro _
    | (extract_lets +onlyGivenNames z; refine Keeps.cut (W := W) (s0 := s0) (x := z) ?_ ?_; dsimp -zeta only [z]; rotate_left; clear_value z; rotate_right)
    | (extract_lets +onlyGivenNames z; clear_value z)
    | split

theorem startImage_keeps (hw : Sub 0x400 W) {n s} (hs : Keeps W s0 s) : Keeps W s0 (startImage n s) := by
  unfold startImage
  repeat' first
    | with_reducible assumption
    | with_reducible refine State.modWarden_keeps (Sub.step hw rfl) ?_ ?_ ?_
    | with_reducible refine Keeps.foldl ?_ ?_
    | exact ‹Warden.coresWf _›
    | exact ‹List.length _ = 16›
    | exact Core.setReg_length ‹_›
    | intro _
    | (extract_lets +onlyGivenNames z; refine Keeps.cut (W := W) (s0 := s0) (x := z) ?_ ?_; dsimp -zeta only [z]; rotate_left; clear_value z; rotate_right)
    | (extract_lets +onlyGivenNames z; clear_value z)
    | split

theorem execBootRelease_keeps (hw : Sub 0x1a7dde W) {sig0 sig1 agree s} (hs : Keeps W s0 s) : OutAll (Keeps W s0) (execBootRelease sig0 sig1 agree s) := by
  unfold execBootRelease
  repeat' first
    | with_reducible assumption
    | with_reducible refine disagree_keeps (Sub.step hw rfl) ?_
    | with_reducible refine regOr_keeps (Sub.step hw rfl) ?_
    | with_reducible refine drawStoreKeys_keeps (Sub.step hw rfl) ?_
    | with_reducible refine startImage_keeps (Sub.step hw rfl) ?_
    | with_reducible refine State.modDev_keeps (Sub.step hw rfl) ?_
    | with_reducible refine OutAll.next ?_
    | with_reducible refine Keeps.foldl ?_ ?_
    | intro _
    | (extract_lets +onlyGivenNames z; refine Keeps.cut (W := W) (s0 := s0) (x := z) ?_ ?_; dsimp -zeta only [z]; rotate_left; clear_value z; rotate_right)
    | (extract_lets +onlyGivenNames z; clear_value z)
    | split

theorem itemDone_keeps (hw : Sub 0x80000 W) {n fault s} (hs : Keeps W s0 s) : Keeps W s0 (itemDone n fault s) := by
  unfold itemDone
  repeat' first
    | with_reducible assumption
    | with_reducible refine regOr_keeps (Sub.step hw rfl) ?_
    | with_reducible refine Keeps.foldl ?_ ?_
    | intro _
    | (extract_lets +onlyGivenNames z; refine Keeps.cut (W := W) (s0 := s0) (x := z) ?_ ?_; dsimp -zeta only [z]; rotate_left; clear_value z; rotate_right)
    | (extract_lets +onlyGivenNames z; clear_value z)
    | split

theorem coilItem_keeps (hw : Sub 0x80000 W) {item key bad nh q setting s} (hs : Keeps W s0 s) : Keeps W s0 (coilItem item key bad nh q setting s) := by
  unfold coilItem
  repeat' first
    | with_reducible assumption
    | with_reducible refine itemDone_keeps (Sub.step hw rfl) ?_
    | with_reducible refine regSet_keeps (Sub.step hw rfl) ?_
    | with_reducible refine Keeps.foldl ?_ ?_
    | intro _
    | (extract_lets +onlyGivenNames z; refine Keeps.cut (W := W) (s0 := s0) (x := z) ?_ ?_; dsimp -zeta only [z]; rotate_left; clear_value z; rotate_right)
    | (extract_lets +onlyGivenNames z; clear_value z)
    | split

theorem cardItem_keeps (hw : Sub 0x84000 W) {present mOhm s} (hs : Keeps W s0 s) : Keeps W s0 (cardItem present mOhm s) := by
  unfold cardItem
  repeat' first
    | with_reducible assumption
    | with_reducible refine regSet_keeps (Sub.step hw rfl) ?_
    | with_reducible refine regClr_keeps (Sub.step hw rfl) ?_
    | with_reducible refine itemDone_keeps (Sub.step hw rfl) ?_
    | with_reducible refine State.modCust_keeps (Sub.step hw rfl) ?_
    | with_reducible refine deactivate_keeps (Sub.step hw rfl) ?_
    | with_reducible refine Keeps.foldl ?_ ?_
    | intro _
    | (extract_lets +onlyGivenNames z; refine Keeps.cut (W := W) (s0 := s0) (x := z) ?_ ?_; dsimp -zeta only [z]; rotate_left; clear_value z; rotate_right)
    | (extract_lets +onlyGivenNames z; clear_value z)
    | split

theorem meshItem_keeps (hw : Sub 0xc3c7e W) {s n m} (hs : Keeps W s0 s) : Keeps W s0 (meshItem s n m) := by
  unfold meshItem
  split
  · exact hs
  · dsimp only
    repeat' first
      | with_reducible exact hs
      | with_reducible refine regSet_keeps (Sub.step hw rfl) ?_
      | with_reducible refine meshFault_keeps (Sub.step hw rfl) ?_
      | with_reducible refine meshDown_keeps (Sub.step hw rfl) ?_
      | with_reducible refine regOr_keeps (Sub.step hw rfl) ?_
      | with_reducible refine meshTrain_keeps (Sub.step hw rfl) ?_
      | with_reducible refine meshMod_keeps (Sub.step hw rfl) ?_
      | split

theorem cartItem_keeps (hw : Sub 0x80000 W) {s n} (hs : Keeps W s0 s) : Keeps W s0 (cartItem s n) := by
  unfold cartItem
  repeat' first
    | with_reducible assumption
    | with_reducible refine regSet_keeps (Sub.step hw rfl) ?_
    | with_reducible refine Keeps.foldl ?_ ?_
    | intro _
    | (extract_lets +onlyGivenNames z; refine Keeps.cut (W := W) (s0 := s0) (x := z) ?_ ?_; dsimp -zeta only [z]; rotate_left; clear_value z; rotate_right)
    | (extract_lets +onlyGivenNames z; clear_value z)
    | split

theorem cartsItem_keeps (hw : Sub 0xc2806 W) {s} (hs : Keeps W s0 s) : Keeps W s0 (cartsItem s) := by
  unfold cartsItem
  repeat' first
    | with_reducible assumption
    | with_reducible refine cartItem_keeps (Sub.step hw rfl) ?_
    | with_reducible refine itemDone_keeps (Sub.step hw rfl) ?_
    | with_reducible refine setDegraded_keeps (Sub.step hw rfl) ?_
    | with_reducible refine Keeps.foldl ?_ ?_
    | intro _
    | (extract_lets +onlyGivenNames z; refine Keeps.cut (W := W) (s0 := s0) (x := z) ?_ ?_; dsimp -zeta only [z]; rotate_left; clear_value z; rotate_right)
    | (extract_lets +onlyGivenNames z; clear_value z)
    | split

theorem surveyItem_keeps (hw : Sub 0xf7dfe W) {d s} (hs : Keeps W s0 s) : Keeps W s0 (surveyItem d s) := by
  unfold surveyItem
  repeat' first
    | with_reducible assumption
    | with_reducible refine regSet_keeps (Sub.step hw rfl) ?_
    | with_reducible refine itemDone_keeps (Sub.step hw rfl) ?_
    | with_reducible refine State.modBackup_keeps (Sub.step hw rfl) ?_
    | with_reducible refine tamperErr_keeps (Sub.step hw rfl) ?_
    | with_reducible refine coilItem_keeps (Sub.step hw rfl) ?_
    | with_reducible refine cardItem_keeps (Sub.step hw rfl) ?_
    | with_reducible refine regOr_keeps (Sub.step hw rfl) ?_
    | with_reducible refine meshItem_keeps (Sub.step hw rfl) ?_
    | with_reducible refine cartsItem_keeps (Sub.step hw rfl) ?_
    | with_reducible refine disagree_keeps (Sub.step hw rfl) ?_
    | with_reducible refine Keeps.foldl ?_ ?_
    | intro _
    | (extract_lets +onlyGivenNames z; refine Keeps.cut (W := W) (s0 := s0) (x := z) ?_ ?_; dsimp -zeta only [z]; rotate_left; clear_value z; rotate_right)
    | (extract_lets +onlyGivenNames z; clear_value z)
    | split

theorem execSurveyItemDone_keeps (hw : Sub 0xf7dfe W) {d s} (hs : Keeps W s0 s) : OutAll (Keeps W s0) (execSurveyItemDone d s) := by
  unfold execSurveyItemDone
  repeat' first
    | with_reducible assumption
    | with_reducible refine surveyItem_keeps (Sub.step hw rfl) ?_
    | with_reducible refine regClr_keeps (Sub.step hw rfl) ?_
    | with_reducible refine OutAll.next ?_
    | with_reducible refine Keeps.foldl ?_ ?_
    | intro _
    | (extract_lets +onlyGivenNames z; refine Keeps.cut (W := W) (s0 := s0) (x := z) ?_ ?_; dsimp -zeta only [z]; rotate_left; clear_value z; rotate_right)
    | (extract_lets +onlyGivenNames z; clear_value z)
    | split

theorem execSurveyRepeat_keeps (hw : Sub 0xf7dfe W) {d s} (hs : Keeps W s0 s) : OutAll (Keeps W s0) (execSurveyRepeat d s) := by
  unfold execSurveyRepeat
  repeat' first
    | with_reducible assumption
    | with_reducible refine surveyItem_keeps (Sub.step hw rfl) ?_
    | with_reducible refine OutAll.next ?_
    | with_reducible refine Keeps.foldl ?_ ?_
    | intro _
    | (extract_lets +onlyGivenNames z; refine Keeps.cut (W := W) (s0 := s0) (x := z) ?_ ?_; dsimp -zeta only [z]; rotate_left; clear_value z; rotate_right)
    | (extract_lets +onlyGivenNames z; clear_value z)
    | split

theorem enterProvision_keeps (hw : Sub 0x90082 W) {s k} (hs : Keeps W s0 s) (hk : ∀ u, Keeps W s0 u → Keeps W s0 (k u)) : OptAll (Keeps W s0) (enterProvision s k) := by
  unfold enterProvision
  repeat' first
    | with_reducible assumption
    | with_reducible apply hk
    | with_reducible refine drawKey_keeps (Sub.step hw rfl) ?_
    | with_reducible refine State.modDev_keeps (Sub.step hw rfl) ?_
    | with_reducible refine State.modBackup_keeps (Sub.step hw rfl) ?_
    | with_reducible refine Draw.out_ok (P := Keeps W s0) (by assumption) ?_
    | with_reducible refine Draw.out_wait (P := Keeps W s0) (by assumption) ?_
    | with_reducible refine Draw.out_stopped (P := Keeps W s0) (by assumption) ?_
    | with_reducible exact OptAll.none
    | with_reducible refine OptAll.some ?_
    | with_reducible refine Keeps.foldl ?_ ?_
    | intro _
    | (extract_lets +onlyGivenNames z; refine Keeps.cut (W := W) (s0 := s0) (x := z) ?_ ?_; dsimp -zeta only [z]; rotate_left; clear_value z; rotate_right)
    | (extract_lets +onlyGivenNames z; clear_value z)
    | split

theorem enterSelected_keeps (hw : Sub 0xdbcde W) {m s} (hs : Keeps W s0 s) : OptAll (Keeps W s0) (enterSelected m s) := by
  unfold enterSelected
  repeat' first
    | with_reducible assumption
    | with_reducible refine enterRetired_keeps (Sub.step hw rfl) ?_
    | with_reducible refine enterZeroized_keeps (Sub.step hw rfl) ?_
    | with_reducible refine destroyKeys_keeps (Sub.step hw rfl) ?_
    | with_reducible refine enterProvision_keeps (Sub.step hw rfl) ?_ ?_
    | with_reducible refine changeMode_keeps (Sub.step hw rfl) ?_
    | with_reducible refine OptAll.getD ?_ ?_
    | with_reducible refine OptAll.out (P := Keeps W s0) (by assumption) ?_
    | with_reducible exact OptAll.none
    | with_reducible refine OptAll.some ?_
    | with_reducible refine Keeps.foldl ?_ ?_
    | intro _
    | (extract_lets +onlyGivenNames z; refine Keeps.cut (W := W) (s0 := s0) (x := z) ?_ ?_; dsimp -zeta only [z]; rotate_left; clear_value z; rotate_right)
    | (extract_lets +onlyGivenNames z; clear_value z)
    | split

theorem execSurveyEnd_keeps (hw : Sub 0xdbcde W) {late us s} (hs : Keeps W s0 s) : OutAll (Keeps W s0) (execSurveyEnd late us s) := by
  unfold execSurveyEnd
  repeat' first
    | with_reducible assumption
    | with_reducible refine enterSelected_keeps (Sub.step hw rfl) ?_
    | with_reducible refine regSet_keeps (Sub.step hw rfl) ?_
    | with_reducible refine regOr_keeps (Sub.step hw rfl) ?_
    | with_reducible refine serveHeld_keeps (Sub.step hw rfl) ?_
    | with_reducible refine State.modDev_keeps (Sub.step hw rfl) ?_
    | with_reducible refine OptAll.getD ?_ ?_
    | with_reducible refine OptAll.out (P := Keeps W s0) (by assumption) ?_
    | with_reducible refine OutAll.next ?_
    | with_reducible refine Keeps.foldl ?_ ?_
    | intro _
    | (extract_lets +onlyGivenNames z; refine Keeps.cut (W := W) (s0 := s0) (x := z) ?_ ?_; dsimp -zeta only [z]; rotate_left; clear_value z; rotate_right)
    | (extract_lets +onlyGivenNames z; clear_value z)
    | split

theorem execKnownAnswerTests_keeps (hw : Sub 0x1c3cfe W) {flume lanes pke rng s} (hs : Keeps W s0 s) : OutAll (Keeps W s0) (execKnownAnswerTests flume lanes pke rng s) := by
  unfold execKnownAnswerTests
  dsimp only
  repeat' first
    | with_reducible assumption
    | with_reducible refine State.modRng_keeps (Sub.step hw rfl) ?_
    | with_reducible refine flumeRetire_keeps (Sub.step hw rfl) ?_
    | with_reducible refine laneRetire_keeps (Sub.step hw rfl) ?_
    | with_reducible refine pkeRetire_keeps (Sub.step hw rfl) ?_
    | with_reducible refine OutAll.next ?_
    | with_reducible refine Keeps.foldl ?_ ?_
    | intro _
    | (extract_lets +onlyGivenNames z; refine Keeps.cut (W := W) (s0 := s0) (x := z) ?_ ?_; dsimp -zeta only [z]; rotate_left; clear_value z; rotate_right)
    | (extract_lets +onlyGivenNames z; clear_value z)
    | split

theorem execPuntyFieldArrive_keeps (hw : Sub 0x1d0806 W) {s} (hs : Keeps W s0 s) : OutAll (Keeps W s0) (execPuntyFieldArrive s) := by
  unfold execPuntyFieldArrive
  repeat' first
    | with_reducible assumption
    | with_reducible refine drawBytes_keeps (Sub.step hw rfl) ?_
    | with_reducible refine State.modPunty_keeps (Sub.step hw rfl) ?_
    | with_reducible refine postEvt_keeps (Sub.step hw rfl) ?_
    | with_reducible refine enterForensic_keeps (Sub.step hw rfl) ?_
    | with_reducible refine PairAll.snd (P := Keeps W s0) (p := drawBytes _ _) ?_
    | with_reducible refine PairAll.out (P := Keeps W s0) (by assumption) ?_
    | with_reducible refine OutAll.next ?_
    | with_reducible refine Keeps.foldl ?_ ?_
    | intro _
    | (extract_lets +onlyGivenNames z; refine Keeps.cut (W := W) (s0 := s0) (x := z) ?_ ?_; dsimp -zeta only [z]; rotate_left; clear_value z; rotate_right)
    | (extract_lets +onlyGivenNames z; clear_value z)
    | split

theorem execPuntyFieldLoss_keeps (hw : Sub 0xd0806 W) {s} (hs : Keeps W s0 s) : OutAll (Keeps W s0) (execPuntyFieldLoss s) := by
  unfold execPuntyFieldLoss
  repeat' first
    | with_reducible assumption
    | with_reducible refine State.modPunty_keeps (Sub.step hw rfl) ?_
    | with_reducible refine postEvt_keeps (Sub.step hw rfl) ?_
    | with_reducible refine State.modDev_keeps (Sub.step hw rfl) ?_
    | with_reducible refine puntyTouch_keeps (Sub.step hw rfl) ?_
    | with_reducible refine putRecord_keeps (Sub.step hw rfl) ?_
    | with_reducible refine OutAll.next ?_
    | with_reducible refine Keeps.foldl ?_ ?_
    | intro _
    | (extract_lets +onlyGivenNames z; refine Keeps.cut (W := W) (s0 := s0) (x := z) ?_ ?_; dsimp -zeta only [z]; rotate_left; clear_value z; rotate_right)
    | (extract_lets +onlyGivenNames z; clear_value z)
    | split

theorem execVbatLost_keeps (hw : Sub 0xf0002 W) {s} (hs : Keeps W s0 s) : OutAll (Keeps W s0) (execVbatLost s) := by
  unfold execVbatLost
  repeat' first
    | with_reducible assumption
    | with_reducible refine loseBackup_keeps (Sub.step hw rfl) ?_
    | with_reducible refine State.modDev_keeps (Sub.step hw rfl) ?_
    | with_reducible refine OutAll.next ?_
    | with_reducible refine Keeps.foldl ?_ ?_
    | intro _
    | (extract_lets +onlyGivenNames z; refine Keeps.cut (W := W) (s0 := s0) (x := z) ?_ ?_; dsimp -zeta only [z]; rotate_left; clear_value z; rotate_right)
    | (extract_lets +onlyGivenNames z; clear_value z)
    | split

theorem execBackupDomainFirstPowered_keeps (hw : Sub 0xf0000 W) {s} (hs : Keeps W s0 s) : OutAll (Keeps W s0) (execBackupDomainFirstPowered s) := by
  unfold execBackupDomainFirstPowered
  repeat' first
    | with_reducible assumption
    | with_reducible refine State.modBackup_keeps (Sub.step hw rfl) ?_
    | with_reducible refine loseBackup_keeps (Sub.step hw rfl) ?_
    | with_reducible refine OutAll.next ?_
    | with_reducible refine Keeps.foldl ?_ ?_
    | intro _
    | (extract_lets +onlyGivenNames z; refine Keeps.cut (W := W) (s0 := s0) (x := z) ?_ ?_; dsimp -zeta only [z]; rotate_left; clear_value z; rotate_right)
    | (extract_lets +onlyGivenNames z; clear_value z)
    | split

theorem sleepLinks_keeps (hw : Sub 0x1004 W) {s} (hs : Keeps W s0 s) : Keeps W s0 (sleepLinks s) := by
  unfold sleepLinks
  repeat' first
    | with_reducible assumption
    | with_reducible refine State.modCistern_keeps (Sub.step hw rfl) ?_
    | with_reducible refine State.modPort_keeps (Sub.step hw rfl) ?_
    | with_reducible refine Keeps.foldl ?_ ?_
    | intro _
    | (extract_lets +onlyGivenNames z; refine Keeps.cut (W := W) (s0 := s0) (x := z) ?_ ?_; dsimp -zeta only [z]; rotate_left; clear_value z; rotate_right)
    | (extract_lets +onlyGivenNames z; clear_value z)
    | split

theorem execSleepEntry_keeps (hw : Sub 0x5006 W) {s} (hs : Keeps W s0 s) : OutAll (Keeps W s0) (execSleepEntry s) := by
  unfold execSleepEntry
  repeat' first
    | with_reducible assumption
    | with_reducible refine sleepLinks_keeps (Sub.step hw rfl) ?_
    | with_reducible refine State.modCust_keeps (Sub.step hw rfl) ?_
    | with_reducible refine State.modDev_keeps (Sub.step hw rfl) ?_
    | with_reducible refine OutAll.next ?_
    | with_reducible refine Keeps.foldl ?_ ?_
    | intro _
    | (extract_lets +onlyGivenNames z; refine Keeps.cut (W := W) (s0 := s0) (x := z) ?_ ?_; dsimp -zeta only [z]; rotate_left; clear_value z; rotate_right)
    | (extract_lets +onlyGivenNames z; clear_value z)
    | split

theorem execWake_keeps (hw : Sub 0xf3806 W) {s} (hs : Keeps W s0 s) : OutAll (Keeps W s0) (execWake s) := by
  unfold execWake
  repeat' first
    | with_reducible assumption
    | with_reducible refine onMain_keeps ?_ ?_
    | with_reducible refine wakeUp_keeps (Sub.step hw rfl) ?_
    | with_reducible refine OutAll.next ?_
    | with_reducible refine Keeps.foldl ?_ ?_
    | intro _
    | (extract_lets +onlyGivenNames z; refine Keeps.cut (W := W) (s0 := s0) (x := z) ?_ ?_; dsimp -zeta only [z]; rotate_left; clear_value z; rotate_right)
    | (extract_lets +onlyGivenNames z; clear_value z)
    | split

theorem execTempStepDown_keeps (hw : Sub 0x2 W) {s} (hs : Keeps W s0 s) : OutAll (Keeps W s0) (execTempStepDown s) := by
  unfold execTempStepDown
  repeat' first
    | with_reducible assumption
    | with_reducible refine onMain_keeps ?_ ?_
    | with_reducible refine State.modDev_keeps (Sub.step hw rfl) ?_
    | with_reducible refine OutAll.next ?_
    | with_reducible refine Keeps.foldl ?_ ?_
    | intro _
    | (extract_lets +onlyGivenNames z; refine Keeps.cut (W := W) (s0 := s0) (x := z) ?_ ?_; dsimp -zeta only [z]; rotate_left; clear_value z; rotate_right)
    | (extract_lets +onlyGivenNames z; clear_value z)
    | split

theorem execTempStepUp_keeps (hw : Sub 0x2 W) {s} (hs : Keeps W s0 s) : OutAll (Keeps W s0) (execTempStepUp s) := by
  unfold execTempStepUp
  repeat' first
    | with_reducible assumption
    | with_reducible refine onMain_keeps ?_ ?_
    | with_reducible refine State.modDev_keeps (Sub.step hw rfl) ?_
    | with_reducible refine OutAll.next ?_
    | with_reducible refine Keeps.foldl ?_ ?_
    | intro _
    | (extract_lets +onlyGivenNames z; refine Keeps.cut (W := W) (s0 := s0) (x := z) ?_ ?_; dsimp -zeta only [z]; rotate_left; clear_value z; rotate_right)
    | (extract_lets +onlyGivenNames z; clear_value z)
    | split

theorem execMarkAdvance_keeps (hw : Sub 0x102 W) {nonce n s} (hs : Keeps W s0 s) : OutAll (Keeps W s0) (execMarkAdvance nonce n s) := by
  unfold execMarkAdvance
  repeat' first
    | with_reducible assumption
    | with_reducible refine State.modCipher_keeps (Sub.step hw rfl) ?_
    | with_reducible refine State.modDev_keeps (Sub.step hw rfl) ?_
    | with_reducible refine OutAll.next ?_
    | with_reducible refine Keeps.foldl ?_ ?_
    | intro _
    | (extract_lets +onlyGivenNames z; refine Keeps.cut (W := W) (s0 := s0) (x := z) ?_ ?_; dsimp -zeta only [z]; rotate_left; clear_value z; rotate_right)
    | (extract_lets +onlyGivenNames z; clear_value z)
    | split

theorem execMarkRecordVerified_keeps (hw : Sub 0x80902 W) {nonce s} (hs : Keeps W s0 s) : OutAll (Keeps W s0) (execMarkRecordVerified nonce s) := by
  unfold execMarkRecordVerified
  repeat' first
    | with_reducible assumption
    | with_reducible refine bump_keeps (Sub.step hw rfl) ?_
    | with_reducible refine logRecord_keeps (Sub.step hw rfl) ?_
    | with_reducible refine State.modCipher_keeps (Sub.step hw rfl) ?_
    | with_reducible refine State.modDev_keeps (Sub.step hw rfl) ?_
    | with_reducible refine OutAll.next ?_
    | with_reducible refine Keeps.foldl ?_ ?_
    | intro _
    | (extract_lets +onlyGivenNames z; refine Keeps.cut (W := W) (s0 := s0) (x := z) ?_ ?_; dsimp -zeta only [z]; rotate_left; clear_value z; rotate_right)
    | (extract_lets +onlyGivenNames z; clear_value z)
    | split

end Sys2Proof.Machine
end

