-- ==== Sys2Proof/Laws/FrameModes.lean ====
section
/-! SUPPORT. The frame of every operation of Machine/Modes.lean: the parts it may write, and what it keeps (`Keeps`). -/
namespace Sys2Proof.Machine

set_option linter.tactic.unusedName false
variable {W : Nat} {s0 : State}

theorem clearWait_keeps (hw : Sub 0x2 W) {s} (hs : Keeps W s0 s) : Keeps W s0 (clearWait s) := by
  unfold clearWait
  repeat' first
    | with_reducible assumption
    | with_reducible refine State.modDev_keeps (Sub.step hw rfl) ?_
    | with_reducible refine Keeps.foldl ?_ ?_
    | intro _
    | (extract_lets +onlyGivenNames z; refine Keeps.cut (W := W) (s0 := s0) (x := z) ?_ ?_; dsimp -zeta only [z]; rotate_left; clear_value z; rotate_right)
    | (extract_lets +onlyGivenNames z; clear_value z)
    | split

theorem modeOp_keeps (hw : Sub 0x183c5e W) {code id target cond go s} (hs : Keeps W s0 s) (hgo : ∀ a0 u, Keeps W s0 u → Keeps W s0 (go a0 u)) : OutAll (Keeps W s0) (modeOp code id target cond go s) := by
  unfold modeOp
  repeat' first
    | with_reducible assumption
    | with_reducible apply hgo
    | with_reducible refine runOp_keeps (Sub.step hw rfl) ?_ ?_ ?_
    | with_reducible refine noKeys_keeps 
    | with_reducible refine finishSt_keeps (Sub.step hw rfl) ?_
    | with_reducible refine clearWait_keeps (Sub.step hw rfl) ?_
    | with_reducible refine State.modDev_keeps (Sub.step hw rfl) ?_
    | ((with_reducible refine OpSpec.All.default ?_); exact rfl)
    | with_reducible refine OutAll.next ?_
    | with_reducible refine Keeps.foldl ?_ ?_
    | intro _
    | (extract_lets +onlyGivenNames z; refine Keeps.cut (W := W) (s0 := s0) (x := z) ?_ ?_; dsimp -zeta only [z]; rotate_left; clear_value z; rotate_right)
    | (extract_lets +onlyGivenNames z; clear_value z)
    | split

theorem provisionEnd_keeps (hw : Sub 0xd3cde W) {c record s} (hs : Keeps W s0 s) (hrecord : ∀ u, Keeps W s0 u → Keeps W s0 (record u)) : Keeps W s0 (provisionEnd c record s) := by
  unfold provisionEnd
  repeat' first
    | with_reducible assumption
    | with_reducible apply hrecord
    | with_reducible refine enterProvision_keeps (Sub.step hw rfl) ?_ ?_
    | with_reducible refine changeMode_keeps (Sub.step hw rfl) ?_
    | with_reducible refine finishSt_keeps (Sub.step hw rfl) ?_
    | with_reducible refine OptAll.getD ?_ ?_
    | with_reducible refine OptAll.out (P := Keeps W s0) (by assumption) ?_
    | with_reducible refine Keeps.foldl ?_ ?_
    | intro _
    | (extract_lets +onlyGivenNames z; refine Keeps.cut (W := W) (s0 := s0) (x := z) ?_ ?_; dsimp -zeta only [z]; rotate_left; clear_value z; rotate_right)
    | (extract_lets +onlyGivenNames z; clear_value z)
    | split

theorem execModeProvisionBegin_keeps (hw : Sub 0x1d3cde W) {id ddn s} (hs : Keeps W s0 s) : OutAll (Keeps W s0) (execModeProvisionBegin id ddn s) := by
  unfold execModeProvisionBegin
  repeat' first
    | with_reducible assumption
    | with_reducible refine modeOp_keeps (Sub.step hw rfl) ?_ ?_
    | with_reducible refine provisionEnd_keeps (Sub.step hw rfl) ?_ ?_
    | with_reducible refine setModeFlags_keeps (Sub.step hw rfl) ?_
    | with_reducible refine State.modDev_keeps (Sub.step hw rfl) ?_
    | with_reducible refine OutAll.next ?_
    | with_reducible refine Keeps.foldl ?_ ?_
    | intro _
    | (extract_lets +onlyGivenNames z; refine Keeps.cut (W := W) (s0 := s0) (x := z) ?_ ?_; dsimp -zeta only [z]; rotate_left; clear_value z; rotate_right)
    | (extract_lets +onlyGivenNames z; clear_value z)
    | split

theorem foundDomain_keeps (hw : Sub 0x83846 W) {pub s} (hs : Keeps W s0 s) : Keeps W s0 (foundDomain pub s) := by
  unfold foundDomain
  repeat' first
    | with_reducible assumption
    | with_reducible refine State.modCistern_keeps (Sub.step hw rfl) ?_
    | with_reducible refine lockDomainCfg_keeps (Sub.step hw rfl) ?_
    | with_reducible refine Keeps.foldl ?_ ?_
    | intro _
    | (extract_lets +onlyGivenNames z; refine Keeps.cut (W := W) (s0 := s0) (x := z) ?_ ?_; dsimp -zeta only [z]; rotate_left; clear_value z; rotate_right)
    | (extract_lets +onlyGivenNames z; clear_value z)
    | split

theorem leaveProvision_keeps (hw : Sub 0x1c3cde W) {c s} (hs : Keeps W s0 s) : Keeps W s0 (leaveProvision c s) := by
  unfold leaveProvision
  dsimp only
  repeat' first
    | with_reducible assumption
    | with_reducible refine changeMode_keeps (Sub.step hw rfl) ?_
    | with_reducible refine setModeFlags_keeps (Sub.step hw rfl) ?_
    | with_reducible refine finishSt_keeps (Sub.step hw rfl) ?_
    | with_reducible refine withSlots_keeps (Sub.step hw rfl) ?_ ?_
    | with_reducible refine drawKey_keeps (Sub.step hw rfl) ?_
    | with_reducible refine withNewKey_keeps (Sub.step hw rfl) ?_ ?_
    | with_reducible refine commitNew_keeps (Sub.step hw rfl) ?_
    | with_reducible refine foundDomain_keeps (Sub.step hw rfl) ?_
    | with_reducible refine Draw.out_ok (P := Keeps W s0) (by assumption) ?_
    | with_reducible refine Draw.out_wait (P := Keeps W s0) (by assumption) ?_
    | with_reducible refine Draw.out_stopped (P := Keeps W s0) (by assumption) ?_
    | with_reducible refine Keeps.foldl ?_ ?_
    | intro _
    | (extract_lets +onlyGivenNames z; refine Keeps.cut (W := W) (s0 := s0) (x := z) ?_ ?_; dsimp -zeta only [z]; rotate_left; clear_value z; rotate_right)
    | (extract_lets +onlyGivenNames z; clear_value z)
    | split

theorem execModeProvisionComplete_keeps (hw : Sub 0x1c3cde W) {id s} (hs : Keeps W s0 s) : OutAll (Keeps W s0) (execModeProvisionComplete id s) := by
  unfold execModeProvisionComplete
  repeat' first
    | with_reducible assumption
    | with_reducible refine modeOp_keeps (Sub.step hw rfl) ?_ ?_
    | with_reducible refine finishSt_keeps (Sub.step hw rfl) ?_
    | with_reducible refine changeMode_keeps (Sub.step hw rfl) ?_
    | with_reducible refine setModeFlags_keeps (Sub.step hw rfl) ?_
    | with_reducible refine leaveProvision_keeps (Sub.step hw rfl) ?_
    | with_reducible refine OutAll.next ?_
    | with_reducible refine Keeps.foldl ?_ ?_
    | intro _
    | (extract_lets +onlyGivenNames z; refine Keeps.cut (W := W) (s0 := s0) (x := z) ?_ ?_; dsimp -zeta only [z]; rotate_left; clear_value z; rotate_right)
    | (extract_lets +onlyGivenNames z; clear_value z)
    | split

theorem execModeReprovision_keeps (hw : Sub 0x1f7dde W) {id agree s} (hs : Keeps W s0 s) : OutAll (Keeps W s0) (execModeReprovision id agree s) := by
  unfold execModeReprovision
  repeat' first
    | with_reducible assumption
    | with_reducible refine modeOp_keeps (Sub.step hw rfl) ?_ ?_
    | with_reducible refine disagreeOf_keeps (Sub.step hw rfl) ?_
    | with_reducible refine provisionEnd_keeps (Sub.step hw rfl) ?_ ?_
    | with_reducible refine setModeFlags_keeps (Sub.step hw rfl) ?_
    | with_reducible refine OutAll.next ?_
    | with_reducible refine Keeps.foldl ?_ ?_
    | intro _
    | (extract_lets +onlyGivenNames z; refine Keeps.cut (W := W) (s0 := s0) (x := z) ?_ ?_; dsimp -zeta only [z]; rotate_left; clear_value z; rotate_right)
    | (extract_lets +onlyGivenNames z; clear_value z)
    | split

theorem execModeCeremonyBegin_keeps (hw : Sub 0x1c3c5e W) {id s} (hs : Keeps W s0 s) : OutAll (Keeps W s0) (execModeCeremonyBegin id s) := by
  unfold execModeCeremonyBegin
  repeat' first
    | with_reducible assumption
    | with_reducible refine modeOp_keeps (Sub.step hw rfl) ?_ ?_
    | with_reducible refine finishSt_keeps (Sub.step hw rfl) ?_
    | with_reducible refine changeMode_keeps (Sub.step hw rfl) ?_
    | with_reducible refine OutAll.next ?_
    | with_reducible refine Keeps.foldl ?_ ?_
    | intro _
    | (extract_lets +onlyGivenNames z; refine Keeps.cut (W := W) (s0 := s0) (x := z) ?_ ?_; dsimp -zeta only [z]; rotate_left; clear_value z; rotate_right)
    | (extract_lets +onlyGivenNames z; clear_value z)
    | split

theorem execModeCeremonyEnd_keeps (hw : Sub 0x1c3c5e W) {id s} (hs : Keeps W s0 s) : OutAll (Keeps W s0) (execModeCeremonyEnd id s) := by
  unfold execModeCeremonyEnd
  repeat' first
    | with_reducible assumption
    | with_reducible refine modeOp_keeps (Sub.step hw rfl) ?_ ?_
    | with_reducible refine finishSt_keeps (Sub.step hw rfl) ?_
    | with_reducible refine changeMode_keeps (Sub.step hw rfl) ?_
    | with_reducible refine OutAll.next ?_
    | with_reducible refine Keeps.foldl ?_ ?_
    | intro _
    | (extract_lets +onlyGivenNames z; refine Keeps.cut (W := W) (s0 := s0) (x := z) ?_ ?_; dsimp -zeta only [z]; rotate_left; clear_value z; rotate_right)
    | (extract_lets +onlyGivenNames z; clear_value z)
    | split

theorem execModeMaintainBegin_keeps (hw : Sub 0x1c3c5e W) {id s} (hs : Keeps W s0 s) : OutAll (Keeps W s0) (execModeMaintainBegin id s) := by
  unfold execModeMaintainBegin
  repeat' first
    | with_reducible assumption
    | with_reducible refine modeOp_keeps (Sub.step hw rfl) ?_ ?_
    | with_reducible refine finishSt_keeps (Sub.step hw rfl) ?_
    | with_reducible refine changeMode_keeps (Sub.step hw rfl) ?_
    | with_reducible refine OutAll.next ?_
    | with_reducible refine Keeps.foldl ?_ ?_
    | intro _
    | (extract_lets +onlyGivenNames z; refine Keeps.cut (W := W) (s0 := s0) (x := z) ?_ ?_; dsimp -zeta only [z]; rotate_left; clear_value z; rotate_right)
    | (extract_lets +onlyGivenNames z; clear_value z)
    | split

theorem execModeMaintainAbort_keeps (hw : Sub 0x1c3c5e W) {id s} (hs : Keeps W s0 s) : OutAll (Keeps W s0) (execModeMaintainAbort id s) := by
  unfold execModeMaintainAbort
  repeat' first
    | with_reducible assumption
    | with_reducible refine modeOp_keeps (Sub.step hw rfl) ?_ ?_
    | with_reducible refine finishSt_keeps (Sub.step hw rfl) ?_
    | with_reducible refine changeMode_keeps (Sub.step hw rfl) ?_
    | with_reducible refine OutAll.next ?_
    | with_reducible refine Keeps.foldl ?_ ?_
    | intro _
    | (extract_lets +onlyGivenNames z; refine Keeps.cut (W := W) (s0 := s0) (x := z) ?_ ?_; dsimp -zeta only [z]; rotate_left; clear_value z; rotate_right)
    | (extract_lets +onlyGivenNames z; clear_value z)
    | split

theorem restartCores_keeps (hw : Sub 0x400 W) {s} (hs : Keeps W s0 s) : Keeps W s0 (restartCores s) := by
  unfold restartCores
  exact Keeps.foldl hs fun v n h => coreMod_keeps (Sub.step hw rfl) (fun k _ => by simp [resetCore]) h

theorem commitRestart_keeps (hw : Sub 0x408 W) {c s} (hs : Keeps W s0 s) : Keeps W s0 (commitRestart c s) := by
  unfold commitRestart
  repeat' first
    | with_reducible assumption
    | with_reducible refine cmdPut_keeps (Sub.step hw rfl) ?_
    | with_reducible refine restartCores_keeps (Sub.step hw rfl) ?_
    | with_reducible refine Keeps.foldl ?_ ?_
    | intro _
    | (extract_lets +onlyGivenNames z; refine Keeps.cut (W := W) (s0 := s0) (x := z) ?_ ?_; dsimp -zeta only [z]; rotate_left; clear_value z; rotate_right)
    | (extract_lets +onlyGivenNames z; clear_value z)
    | split

theorem execModeMaintainCommit_keeps (hw : Sub 0x1ffdde W) {id sig0 sig1 agree s} (hs : Keeps W s0 s) : OutAll (Keeps W s0) (execModeMaintainCommit id sig0 sig1 agree s) := by
  unfold execModeMaintainCommit
  repeat' first
    | with_reducible assumption
    | with_reducible refine modeOp_keeps (Sub.step hw rfl) ?_ ?_
    | with_reducible refine commitRestart_keeps (Sub.step hw rfl) ?_
    | with_reducible refine disagreeOf_keeps (Sub.step hw rfl) ?_
    | with_reducible refine finishSt_keeps (Sub.step hw rfl) ?_
    | with_reducible refine startImage_keeps (Sub.step hw rfl) ?_
    | with_reducible refine logRecord_keeps (Sub.step hw rfl) ?_
    | with_reducible refine State.modDev_keeps (Sub.step hw rfl) ?_
    | with_reducible refine retireBut_keeps (Sub.step hw rfl) ?_
    | with_reducible refine enterSelected_keeps (Sub.step hw rfl) ?_
    | with_reducible refine pumpHooks_keeps (Sub.step hw rfl) ?_
    | with_reducible refine OptAll.getD ?_ ?_
    | with_reducible refine OptAll.out (P := Keeps W s0) (by assumption) ?_
    | with_reducible refine OutAll.next ?_
    | with_reducible refine Keeps.foldl ?_ ?_
    | intro _
    | (extract_lets +onlyGivenNames z; refine Keeps.cut (W := W) (s0 := s0) (x := z) ?_ ?_; dsimp -zeta only [z]; rotate_left; clear_value z; rotate_right)
    | (extract_lets +onlyGivenNames z; clear_value z)
    | split

theorem execModeJoinBegin_keeps (hw : Sub 0x1c3c5e W) {id s} (hs : Keeps W s0 s) : OutAll (Keeps W s0) (execModeJoinBegin id s) := by
  unfold execModeJoinBegin
  repeat' first
    | with_reducible assumption
    | with_reducible refine modeOp_keeps (Sub.step hw rfl) ?_ ?_
    | with_reducible refine finishSt_keeps (Sub.step hw rfl) ?_
    | with_reducible refine changeMode_keeps (Sub.step hw rfl) ?_
    | with_reducible refine setModeFlags_keeps (Sub.step hw rfl) ?_
    | with_reducible refine OutAll.next ?_
    | with_reducible refine Keeps.foldl ?_ ?_
    | intro _
    | (extract_lets +onlyGivenNames z; refine Keeps.cut (W := W) (s0 := s0) (x := z) ?_ ?_; dsimp -zeta only [z]; rotate_left; clear_value z; rotate_right)
    | (extract_lets +onlyGivenNames z; clear_value z)
    | split

theorem execModeJoinAbort_keeps (hw : Sub 0x1d3cde W) {id s} (hs : Keeps W s0 s) : OutAll (Keeps W s0) (execModeJoinAbort id s) := by
  unfold execModeJoinAbort
  repeat' first
    | with_reducible assumption
    | with_reducible refine modeOp_keeps (Sub.step hw rfl) ?_ ?_
    | with_reducible refine provisionEnd_keeps (Sub.step hw rfl) ?_ ?_
    | with_reducible refine setModeFlags_keeps (Sub.step hw rfl) ?_
    | with_reducible refine finishSt_keeps (Sub.step hw rfl) ?_
    | with_reducible refine changeMode_keeps (Sub.step hw rfl) ?_
    | with_reducible refine OutAll.next ?_
    | with_reducible refine Keeps.foldl ?_ ?_
    | intro _
    | (extract_lets +onlyGivenNames z; refine Keeps.cut (W := W) (s0 := s0) (x := z) ?_ ?_; dsimp -zeta only [z]; rotate_left; clear_value z; rotate_right)
    | (extract_lets +onlyGivenNames z; clear_value z)
    | split

theorem zeroizeStmt_keeps (hw : Sub 0x83c5e W) {s} (hs : Keeps W s0 s) : Keeps W s0 (zeroizeStmt s) := by
  unfold zeroizeStmt
  repeat' first
    | with_reducible assumption
    | with_reducible refine issueTally_keeps (Sub.step hw rfl) ?_
    | with_reducible refine State.modCistern_keeps (Sub.step hw rfl) ?_
    | with_reducible refine keepStmt_keeps (Sub.step hw rfl) ?_
    | with_reducible refine sendStmt_keeps (Sub.step hw rfl) ?_
    | with_reducible refine PairAll.snd (P := Keeps W s0) (p := issueTally _) ?_
    | with_reducible refine PairAll.out (P := Keeps W s0) (by assumption) ?_
    | with_reducible refine Keeps.foldl ?_ ?_
    | intro _
    | (extract_lets +onlyGivenNames z; refine Keeps.cut (W := W) (s0 := s0) (x := z) ?_ ?_; dsimp -zeta only [z]; rotate_left; clear_value z; rotate_right)
    | (extract_lets +onlyGivenNames z; clear_value z)
    | split

theorem execModeZeroize_keeps (hw : Sub 0x1f7dde W) {id agree s} (hs : Keeps W s0 s) : OutAll (Keeps W s0) (execModeZeroize id agree s) := by
  unfold execModeZeroize
  repeat' first
    | with_reducible assumption
    | with_reducible refine modeOp_keeps (Sub.step hw rfl) ?_ ?_
    | with_reducible refine cmdPut_keeps (Sub.step hw rfl) ?_
    | with_reducible refine zeroizeStmt_keeps (Sub.step hw rfl) ?_
    | with_reducible refine disagreeOf_keeps (Sub.step hw rfl) ?_
    | with_reducible refine finishAll_keeps (Sub.step hw rfl) ?_
    | with_reducible refine finishSt_keeps (Sub.step hw rfl) ?_
    | with_reducible refine enterZeroized_keeps (Sub.step hw rfl) ?_
    | with_reducible refine destroyKeys_keeps (Sub.step hw rfl) ?_
    | with_reducible refine OutAll.next ?_
    | with_reducible refine Keeps.foldl ?_ ?_
    | intro _
    | (extract_lets +onlyGivenNames z; refine Keeps.cut (W := W) (s0 := s0) (x := z) ?_ ?_; dsimp -zeta only [z]; rotate_left; clear_value z; rotate_right)
    | (extract_lets +onlyGivenNames z; clear_value z)
    | split

theorem execModeRetire_keeps (hw : Sub 0x1ffdde W) {id agree s} (hs : Keeps W s0 s) : OutAll (Keeps W s0) (execModeRetire id agree s) := by
  unfold execModeRetire
  repeat' first
    | with_reducible assumption
    | with_reducible refine modeOp_keeps (Sub.step hw rfl) ?_ ?_
    | with_reducible refine disagreeOf_keeps (Sub.step hw rfl) ?_
    | with_reducible refine finishSt_keeps (Sub.step hw rfl) ?_
    | with_reducible refine retireBut_keeps (Sub.step hw rfl) ?_
    | with_reducible refine OutAll.next ?_
    | with_reducible refine Keeps.foldl ?_ ?_
    | intro _
    | (extract_lets +onlyGivenNames z; refine Keeps.cut (W := W) (s0 := s0) (x := z) ?_ ?_; dsimp -zeta only [z]; rotate_left; clear_value z; rotate_right)
    | (extract_lets +onlyGivenNames z; clear_value z)
    | split

theorem openResult_keeps (hw : Sub 0x183c5e W) {c s} (hs : Keeps W s0 s) : Keeps W s0 (openResult c s) := by
  unfold openResult
  repeat' first
    | with_reducible assumption
    | with_reducible refine drawNat_keeps (Sub.step hw rfl) ?_
    | with_reducible refine drawBytes_keeps (Sub.step hw rfl) ?_
    | with_reducible refine finish_keeps (Sub.step hw rfl) ?_
    | with_reducible refine PairAll.snd (P := Keeps W s0) (p := drawNat _) ?_
    | with_reducible refine PairAll.snd (P := Keeps W s0) (p := drawBytes _ _) ?_
    | with_reducible refine PairAll.out (P := Keeps W s0) (by assumption) ?_
    | with_reducible refine Keeps.foldl ?_ ?_
    | intro _
    | (extract_lets +onlyGivenNames z; refine Keeps.cut (W := W) (s0 := s0) (x := z) ?_ ?_; dsimp -zeta only [z]; rotate_left; clear_value z; rotate_right)
    | (extract_lets +onlyGivenNames z; clear_value z)
    | split

theorem execDeviceInfo_keeps (hw : Sub 0x183c5e W) {id s} (hs : Keeps W s0 s) : OutAll (Keeps W s0) (execDeviceInfo id s) := by
  unfold execDeviceInfo
  repeat' first
    | with_reducible assumption
    | with_reducible refine runOp_keeps (Sub.step hw rfl) ?_ ?_ ?_
    | with_reducible refine noKeys_keeps 
    | with_reducible refine openResult_keeps (Sub.step hw rfl) ?_
    | ((with_reducible refine OpSpec.All.default ?_); exact rfl)
    | with_reducible refine OutAll.next ?_
    | with_reducible refine Keeps.foldl ?_ ?_
    | intro _
    | (extract_lets +onlyGivenNames z; refine Keeps.cut (W := W) (s0 := s0) (x := z) ?_ ?_; dsimp -zeta only [z]; rotate_left; clear_value z; rotate_right)
    | (extract_lets +onlyGivenNames z; clear_value z)
    | split

theorem execRtcSet_keeps (hw : Sub 0x193c5e W) {id s} (hs : Keeps W s0 s) : OutAll (Keeps W s0) (execRtcSet id s) := by
  unfold execRtcSet
  repeat' first
    | with_reducible assumption
    | with_reducible refine runOp_keeps (Sub.step hw rfl) ?_ ?_ ?_
    | with_reducible refine noKeys_keeps 
    | with_reducible refine finishSt_keeps (Sub.step hw rfl) ?_
    | with_reducible refine State.modBackup_keeps (Sub.step hw rfl) ?_
    | ((with_reducible refine OpSpec.All.default ?_); exact rfl)
    | with_reducible refine OutAll.next ?_
    | with_reducible refine Keeps.foldl ?_ ?_
    | intro _
    | (extract_lets +onlyGivenNames z; refine Keeps.cut (W := W) (s0 := s0) (x := z) ?_ ?_; dsimp -zeta only [z]; rotate_left; clear_value z; rotate_right)
    | (extract_lets +onlyGivenNames z; clear_value z)
    | split

theorem unitCtl_keeps (hw : Sub 0x83c5e W) {n v s} (hs : Keeps W s0 s) : Keeps W s0 (unitCtl n v s) := by
  unfold unitCtl
  repeat' first
    | with_reducible assumption
    | with_reducible refine cipherCtlWrite_keeps (Sub.step hw rfl) ?_
    | with_reducible refine flumeCtlWrite_keeps (Sub.step hw rfl) ?_
    | with_reducible refine pkeCtlWrite_keeps (Sub.step hw rfl) ?_
    | with_reducible refine Keeps.foldl ?_ ?_
    | intro _
    | (extract_lets +onlyGivenNames z; refine Keeps.cut (W := W) (s0 := s0) (x := z) ?_ ?_; dsimp -zeta only [z]; rotate_left; clear_value z; rotate_right)
    | (extract_lets +onlyGivenNames z; clear_value z)
    | split

theorem execUnitDisable_keeps (hw : Sub 0x183c5e W) {id s} (hs : Keeps W s0 s) : OutAll (Keeps W s0) (execUnitDisable id s) := by
  unfold execUnitDisable
  repeat' first
    | with_reducible assumption
    | with_reducible refine runOp_keeps (Sub.step hw rfl) ?_ ?_ ?_
    | with_reducible refine noKeys_keeps 
    | with_reducible refine finishSt_keeps (Sub.step hw rfl) ?_
    | with_reducible refine unitCtl_keeps (Sub.step hw rfl) ?_
    | ((with_reducible refine OpSpec.All.default ?_); exact rfl)
    | with_reducible refine OutAll.next ?_
    | with_reducible refine Keeps.foldl ?_ ?_
    | intro _
    | (extract_lets +onlyGivenNames z; refine Keeps.cut (W := W) (s0 := s0) (x := z) ?_ ?_; dsimp -zeta only [z]; rotate_left; clear_value z; rotate_right)
    | (extract_lets +onlyGivenNames z; clear_value z)
    | split

theorem execUnitEnable_keeps (hw : Sub 0x183c5e W) {id s} (hs : Keeps W s0 s) : OutAll (Keeps W s0) (execUnitEnable id s) := by
  unfold execUnitEnable
  repeat' first
    | with_reducible assumption
    | with_reducible refine runOp_keeps (Sub.step hw rfl) ?_ ?_ ?_
    | with_reducible refine noKeys_keeps 
    | with_reducible refine finishSt_keeps (Sub.step hw rfl) ?_
    | with_reducible refine unitCtl_keeps (Sub.step hw rfl) ?_
    | ((with_reducible refine OpSpec.All.default ?_); exact rfl)
    | with_reducible refine OutAll.next ?_
    | with_reducible refine Keeps.foldl ?_ ?_
    | intro _
    | (extract_lets +onlyGivenNames z; refine Keeps.cut (W := W) (s0 := s0) (x := z) ?_ ?_; dsimp -zeta only [z]; rotate_left; clear_value z; rotate_right)
    | (extract_lets +onlyGivenNames z; clear_value z)
    | split

theorem execSelftestResults_keeps (hw : Sub 0x183c5e W) {id s} (hs : Keeps W s0 s) : OutAll (Keeps W s0) (execSelftestResults id s) := by
  unfold execSelftestResults
  repeat' first
    | with_reducible assumption
    | with_reducible refine runOp_keeps (Sub.step hw rfl) ?_ ?_ ?_
    | with_reducible refine noKeys_keeps 
    | with_reducible refine openResult_keeps (Sub.step hw rfl) ?_
    | ((with_reducible refine OpSpec.All.default ?_); exact rfl)
    | with_reducible refine OutAll.next ?_
    | with_reducible refine Keeps.foldl ?_ ?_
    | intro _
    | (extract_lets +onlyGivenNames z; refine Keeps.cut (W := W) (s0 := s0) (x := z) ?_ ?_; dsimp -zeta only [z]; rotate_left; clear_value z; rotate_right)
    | (extract_lets +onlyGivenNames z; clear_value z)
    | split

theorem execCounterSnapshot_keeps (hw : Sub 0x183c5e W) {id s} (hs : Keeps W s0 s) : OutAll (Keeps W s0) (execCounterSnapshot id s) := by
  unfold execCounterSnapshot
  repeat' first
    | with_reducible assumption
    | with_reducible refine runOp_keeps (Sub.step hw rfl) ?_ ?_ ?_
    | with_reducible refine noKeys_keeps 
    | with_reducible refine openResult_keeps (Sub.step hw rfl) ?_
    | ((with_reducible refine OpSpec.All.default ?_); exact rfl)
    | with_reducible refine OutAll.next ?_
    | with_reducible refine Keeps.foldl ?_ ?_
    | intro _
    | (extract_lets +onlyGivenNames z; refine Keeps.cut (W := W) (s0 := s0) (x := z) ?_ ?_; dsimp -zeta only [z]; rotate_left; clear_value z; rotate_right)
    | (extract_lets +onlyGivenNames z; clear_value z)
    | split

theorem selftestFail_keeps (hw : Sub 0x1c3cfe W) {k s} (hs : Keeps W s0 s) : Keeps W s0 (selftestFail k s) := by
  unfold selftestFail
  repeat' first
    | with_reducible assumption
    | with_reducible refine laneRetire_keeps (Sub.step hw rfl) ?_
    | with_reducible refine flumeRetire_keeps (Sub.step hw rfl) ?_
    | with_reducible refine pkeRetire_keeps (Sub.step hw rfl) ?_
    | with_reducible refine retireCore_keeps (Sub.step hw rfl) ?_
    | with_reducible refine meshRetire_keeps (Sub.step hw rfl) ?_
    | with_reducible refine retireBank_keeps (Sub.step hw rfl) ?_
    | with_reducible refine retireSource_keeps (Sub.step hw rfl) ?_
    | with_reducible refine Keeps.foldl ?_ ?_
    | intro _
    | (extract_lets +onlyGivenNames z; refine Keeps.cut (W := W) (s0 := s0) (x := z) ?_ ?_; dsimp -zeta only [z]; rotate_left; clear_value z; rotate_right)
    | (extract_lets +onlyGivenNames z; clear_value z)
    | split

theorem execUnitSelftest_keeps (hw : Sub 0x1c3cfe W) {id s} (hs : Keeps W s0 s) : OutAll (Keeps W s0) (execUnitSelftest id s) := by
  unfold execUnitSelftest
  repeat' first
    | with_reducible assumption
    | with_reducible refine runOp_keeps (Sub.step hw rfl) ?_ ?_ ?_
    | with_reducible refine noKeys_keeps 
    | with_reducible refine drawNat_keeps (Sub.step hw rfl) ?_
    | with_reducible refine openResult_keeps (Sub.step hw rfl) ?_
    | with_reducible refine selftestFail_keeps (Sub.step hw rfl) ?_
    | with_reducible refine PairAll.snd (P := Keeps W s0) (p := drawNat _) ?_
    | with_reducible refine PairAll.out (P := Keeps W s0) (by assumption) ?_
    | ((with_reducible refine OpSpec.All.default ?_); exact rfl)
    | with_reducible refine OutAll.next ?_
    | with_reducible refine Keeps.foldl ?_ ?_
    | intro _
    | (extract_lets +onlyGivenNames z; refine Keeps.cut (W := W) (s0 := s0) (x := z) ?_ ?_; dsimp -zeta only [z]; rotate_left; clear_value z; rotate_right)
    | (extract_lets +onlyGivenNames z; clear_value z)
    | split

theorem execMemoryTest_keeps (hw : Sub 0x183c5e W) {id s} (hs : Keeps W s0 s) : OutAll (Keeps W s0) (execMemoryTest id s) := by
  unfold execMemoryTest
  repeat' first
    | with_reducible assumption
    | with_reducible refine runOp_keeps (Sub.step hw rfl) ?_ ?_ ?_
    | with_reducible refine noKeys_keeps 
    | with_reducible refine openResult_keeps (Sub.step hw rfl) ?_
    | ((with_reducible refine OpSpec.All.default ?_); exact rfl)
    | with_reducible refine OutAll.next ?_
    | with_reducible refine Keeps.foldl ?_ ?_
    | intro _
    | (extract_lets +onlyGivenNames z; refine Keeps.cut (W := W) (s0 := s0) (x := z) ?_ ?_; dsimp -zeta only [z]; rotate_left; clear_value z; rotate_right)
    | (extract_lets +onlyGivenNames z; clear_value z)
    | split

end Sys2Proof.Machine
end

