-- ==== Sys2Proof/Laws/FrameDispatchCmds.lean ====
section
/-! SUPPORT. The frame of every operation of Machine/DispatchCmds.lean: the parts it may write, and what it keeps (`Keeps`). -/
namespace Sys2Proof.Machine

set_option linter.tactic.unusedName false
variable {W : Nat} {s0 : State}

theorem execDispatch_keeps (hw : Sub 0x83c5e W) {id s} (hs : Keeps W s0 s) : OutAll (Keeps W s0) (execDispatch id s) := by
  unfold execDispatch
  repeat' first
    | with_reducible assumption
    | with_reducible refine finishSt_keeps (Sub.step hw rfl) ?_
    | with_reducible refine finish_keeps (Sub.step hw rfl) ?_
    | with_reducible refine cmdPut_keeps (Sub.step hw rfl) ?_
    | with_reducible refine pushMrd_keeps (Sub.step hw rfl) ?_
    | with_reducible refine OutAll.next ?_
    | with_reducible refine Keeps.foldl ?_ ?_
    | intro _
    | (extract_lets +onlyGivenNames z; refine Keeps.cut (W := W) (s0 := s0) (x := z) ?_ ?_; dsimp -zeta only [z]; rotate_left; clear_value z; rotate_right)
    | (extract_lets +onlyGivenNames z; clear_value z)
    | split

theorem execShareRecheck_keeps (hw : Sub 0x8 W) {id s} (hs : Keeps W s0 s) : OutAll (Keeps W s0) (execShareRecheck id s) := by
  unfold execShareRecheck
  repeat' first
    | with_reducible assumption
    | with_reducible refine cmdPut_keeps (Sub.step hw rfl) ?_
    | with_reducible refine OutAll.next ?_
    | with_reducible refine Keeps.foldl ?_ ?_
    | intro _
    | (extract_lets +onlyGivenNames z; refine Keeps.cut (W := W) (s0 := s0) (x := z) ?_ ?_; dsimp -zeta only [z]; rotate_left; clear_value z; rotate_right)
    | (extract_lets +onlyGivenNames z; clear_value z)
    | split

theorem readDone_keeps (hw : Sub 0x8 W) {c s} (hs : Keeps W s0 s) : Keeps W s0 (readDone c s) := by
  unfold readDone
  repeat' first
    | with_reducible assumption
    | with_reducible refine cmdPut_keeps (Sub.step hw rfl) ?_
    | with_reducible refine Keeps.foldl ?_ ?_
    | intro _
    | (extract_lets +onlyGivenNames z; refine Keeps.cut (W := W) (s0 := s0) (x := z) ?_ ?_; dsimp -zeta only [z]; rotate_left; clear_value z; rotate_right)
    | (extract_lets +onlyGivenNames z; clear_value z)
    | split

theorem readArrive_keeps (hw : Sub 0x83c5e W) {r cst data s} (hs : Keeps W s0 s) : Keeps W s0 (readArrive r cst data s) := by
  unfold readArrive
  repeat' first
    | with_reducible assumption
    | with_reducible refine finishSt_keeps (Sub.step hw rfl) ?_
    | with_reducible refine readDone_keeps (Sub.step hw rfl) ?_
    | with_reducible refine bitmapRead_keeps (Sub.step hw rfl) ?_
    | with_reducible refine Keeps.foldl ?_ ?_
    | intro _
    | (extract_lets +onlyGivenNames z; refine Keeps.cut (W := W) (s0 := s0) (x := z) ?_ ?_; dsimp -zeta only [z]; rotate_left; clear_value z; rotate_right)
    | (extract_lets +onlyGivenNames z; clear_value z)
    | split

theorem execCplReceive_keeps (hw : Sub 0x83c5e W) {r cst data s} (hs : Keeps W s0 s) : OutAll (Keeps W s0) (execCplReceive r cst data s) := by
  unfold execCplReceive
  repeat' first
    | with_reducible assumption
    | with_reducible refine readArrive_keeps (Sub.step hw rfl) ?_
    | with_reducible refine readOver_keeps (Sub.step hw rfl) ?_
    | with_reducible refine OutAll.next ?_
    | with_reducible refine Keeps.foldl ?_ ?_
    | intro _
    | (extract_lets +onlyGivenNames z; refine Keeps.cut (W := W) (s0 := s0) (x := z) ?_ ?_; dsimp -zeta only [z]; rotate_left; clear_value z; rotate_right)
    | (extract_lets +onlyGivenNames z; clear_value z)
    | split

end Sys2Proof.Machine
end

