-- ==== Sys2Proof/Laws/FrameCsr.lean ====
section
/-! SUPPORT. The frame of every operation of Machine/Csr.lean: the parts it may write, and what it keeps (`Keeps`). -/
namespace Sys2Proof.Machine

set_option linter.tactic.unusedName false
variable {W : Nat} {s0 : State}

theorem unlatch_keeps (hw : Sub 0x2 W) {r keys s} (hs : Keeps W s0 s) : Keeps W s0 (unlatch r keys s) := by
  unfold unlatch
  repeat' first
    | with_reducible assumption
    | with_reducible refine State.modDev_keeps (Sub.step hw rfl) ?_
    | with_reducible refine Keeps.foldl ?_ ?_
    | intro _
    | (extract_lets +onlyGivenNames z; refine Keeps.cut (W := W) (s0 := s0) (x := z) ?_ ?_; dsimp -zeta only [z]; rotate_left; clear_value z; rotate_right)
    | (extract_lets +onlyGivenNames z; clear_value z)
    | split

theorem latch_keeps (hw : Sub 0x2 W) {r keys s} (hs : Keeps W s0 s) : Keeps W s0 (latch r keys s) := by
  unfold latch
  repeat' first
    | with_reducible assumption
    | with_reducible refine State.modDev_keeps (Sub.step hw rfl) ?_
    | with_reducible refine unlatch_keeps (Sub.step hw rfl) ?_
    | with_reducible refine Keeps.foldl ?_ ?_
    | intro _
    | (extract_lets +onlyGivenNames z; refine Keeps.cut (W := W) (s0 := s0) (x := z) ?_ ?_; dsimp -zeta only [z]; rotate_left; clear_value z; rotate_right)
    | (extract_lets +onlyGivenNames z; clear_value z)
    | split

theorem countUnseen_keeps (hw : Sub 0x180000 W) {key s} (hs : Keeps W s0 s) : Keeps W s0 (countUnseen key s) := by
  unfold countUnseen
  repeat' first
    | with_reducible assumption
    | with_reducible refine drawNat_keeps (Sub.step hw rfl) ?_
    | with_reducible refine bump_keeps (Sub.step hw rfl) ?_
    | with_reducible refine PairAll.snd (P := Keeps W s0) (p := drawNat _) ?_
    | with_reducible refine PairAll.out (P := Keeps W s0) (by assumption) ?_
    | with_reducible refine Keeps.foldl ?_ ?_
    | intro _
    | (extract_lets +onlyGivenNames z; refine Keeps.cut (W := W) (s0 := s0) (x := z) ?_ ?_; dsimp -zeta only [z]; rotate_left; clear_value z; rotate_right)
    | (extract_lets +onlyGivenNames z; clear_value z)
    | split

theorem csrRead32_keeps (hw : Sub 0x180002 W) {r key s} (hs : Keeps W s0 s) : PairAll (Keeps W s0) (csrRead32 r key s) := by
  unfold csrRead32
  repeat' first
    | with_reducible assumption
    | with_reducible refine countUnseen_keeps (Sub.step hw rfl) ?_
    | with_reducible refine drawBytes_keeps (Sub.step hw rfl) ?_
    | with_reducible refine unlatch_keeps (Sub.step hw rfl) ?_
    | with_reducible refine latch_keeps (Sub.step hw rfl) ?_
    | with_reducible refine PairAll.snd (P := Keeps W s0) (p := drawBytes _ _) ?_
    | with_reducible refine PairAll.out (P := Keeps W s0) (by assumption) ?_
    | with_reducible refine PairAll.mk ?_
    | with_reducible refine Keeps.foldl ?_ ?_
    | intro _
    | (extract_lets +onlyGivenNames z; refine Keeps.cut (W := W) (s0 := s0) (x := z) ?_ ?_; dsimp -zeta only [z]; rotate_left; clear_value z; rotate_right)
    | (extract_lets +onlyGivenNames z; clear_value z)
    | split

theorem spaceRead32_keeps (hw : Sub 0x180002 W) {r ptag addr s} (hs : Keeps W s0 s) : PairAll (Keeps W s0) (spaceRead32 r ptag addr s) := by
  unfold spaceRead32
  repeat' first
    | with_reducible assumption
    | with_reducible refine csrRead32_keeps (Sub.step hw rfl) ?_
    | with_reducible refine PairAll.snd (P := Keeps W s0) (p := csrRead32 _ _ _) ?_
    | with_reducible refine PairAll.out (P := Keeps W s0) (by assumption) ?_
    | with_reducible refine PairAll.mk ?_
    | with_reducible refine Keeps.foldl ?_ ?_
    | intro _
    | (extract_lets +onlyGivenNames z; refine Keeps.cut (W := W) (s0 := s0) (x := z) ?_ ?_; dsimp -zeta only [z]; rotate_left; clear_value z; rotate_right)
    | (extract_lets +onlyGivenNames z; clear_value z)
    | split

theorem csrRead_keeps (hw : Sub 0x180886 W) {r ptag addr w tag s} (hs : Keeps W s0 s) : Keeps W s0 (csrRead r ptag addr w tag s) := by
  unfold csrRead
  repeat' first
    | with_reducible assumption
    | with_reducible refine answer_keeps (Sub.step hw rfl) ?_
    | with_reducible refine devErr_keeps (Sub.step hw rfl) ?_
    | with_reducible refine rngDataRead_keeps (Sub.step hw rfl) ?_
    | with_reducible refine spaceRead32_keeps (Sub.step hw rfl) ?_
    | with_reducible refine PairAll.snd (P := Keeps W s0) (p := spaceRead32 _ _ _ _) ?_
    | with_reducible refine PairAll.out (P := Keeps W s0) (by assumption) ?_
    | with_reducible refine Keeps.foldl ?_ ?_
    | intro _
    | (extract_lets +onlyGivenNames z; refine Keeps.cut (W := W) (s0 := s0) (x := z) ?_ ?_; dsimp -zeta only [z]; rotate_left; clear_value z; rotate_right)
    | (extract_lets +onlyGivenNames z; clear_value z)
    | split

theorem postWrite_keeps (hw : Sub 0x80806 W) {r key v s} (hs : Keeps W s0 s) : Keeps W s0 (postWrite r key v s) := by
  unfold postWrite
  repeat' first
    | with_reducible assumption
    | with_reducible refine devErr_keeps (Sub.step hw rfl) ?_
    | with_reducible refine post_keeps (Sub.step hw rfl) ?_
    | with_reducible refine Keeps.foldl ?_ ?_
    | intro _
    | (extract_lets +onlyGivenNames z; refine Keeps.cut (W := W) (s0 := s0) (x := z) ?_ ?_; dsimp -zeta only [z]; rotate_left; clear_value z; rotate_right)
    | (extract_lets +onlyGivenNames z; clear_value z)
    | split

theorem domainCfgWrite_keeps (hw : Sub 0x82846 W) {v s} (hs : Keeps W s0 s) : Keeps W s0 (domainCfgWrite v s) := by
  unfold domainCfgWrite
  repeat' first
    | with_reducible assumption
    | with_reducible refine lockDomainCfg_keeps (Sub.step hw rfl) ?_
    | with_reducible refine regMask_keeps (Sub.step hw rfl) ?_
    | with_reducible refine Keeps.foldl ?_ ?_
    | intro _
    | (extract_lets +onlyGivenNames z; refine Keeps.cut (W := W) (s0 := s0) (x := z) ?_ ?_; dsimp -zeta only [z]; rotate_left; clear_value z; rotate_right)
    | (extract_lets +onlyGivenNames z; clear_value z)
    | split

theorem flashWrite_keeps (hw : Sub 0x80c06 W) {r off v s} (hs : Keeps W s0 s) : Keeps W s0 (flashWrite r off v s) := by
  unfold flashWrite
  repeat' first
    | with_reducible assumption
    | with_reducible refine coreMod_keeps (Sub.step hw rfl) ?_ ?_
    | with_reducible refine flashCmd_keeps (Sub.step hw rfl) ?_
    | with_reducible refine Keeps.foldl ?_ ?_
    | exact ‹Warden.coresWf _›
    | exact ‹List.length _ = 16›
    | exact Core.setReg_length ‹_›
    | intro _
    | (extract_lets +onlyGivenNames z; refine Keeps.cut (W := W) (s0 := s0) (x := z) ?_ ?_; dsimp -zeta only [z]; rotate_left; clear_value z; rotate_right)
    | (extract_lets +onlyGivenNames z; clear_value z)
    | split

theorem plainWrite_keeps (hw : Sub 0x80000 W) {key v s} (hs : Keeps W s0 s) : Keeps W s0 (plainWrite key v s) := by
  unfold plainWrite
  repeat' first
    | with_reducible assumption
    | with_reducible refine regSet_keeps (Sub.step hw rfl) ?_
    | with_reducible refine Keeps.foldl ?_ ?_
    | intro _
    | (extract_lets +onlyGivenNames z; refine Keeps.cut (W := W) (s0 := s0) (x := z) ?_ ?_; dsimp -zeta only [z]; rotate_left; clear_value z; rotate_right)
    | (extract_lets +onlyGivenNames z; clear_value z)
    | split

theorem custRfWrite_keeps (hw : Sub 0x80002 W) {v s} (hs : Keeps W s0 s) : Keeps W s0 (custRfWrite v s) := by
  unfold custRfWrite
  repeat' first
    | with_reducible assumption
    | with_reducible refine State.modDev_keeps (Sub.step hw rfl) ?_
    | with_reducible refine plainWrite_keeps (Sub.step hw rfl) ?_
    | with_reducible refine Keeps.foldl ?_ ?_
    | intro _
    | (extract_lets +onlyGivenNames z; refine Keeps.cut (W := W) (s0 := s0) (x := z) ?_ ?_; dsimp -zeta only [z]; rotate_left; clear_value z; rotate_right)
    | (extract_lets +onlyGivenNames z; clear_value z)
    | split

theorem csrEffect_keeps (hw : Sub 0xc3dde W) {r key v s} (hs : Keeps W s0 s) : Keeps W s0 (csrEffect r key v s) := by
  unfold csrEffect
  repeat' first
    | with_reducible refine Keeps.ite ?_ ?_
    | with_reducible assumption
    | with_reducible refine hgWrite_keeps (Sub.step hw rfl) ?_
    | with_reducible refine portCtlWrite_keeps (Sub.step hw rfl) ?_
    | with_reducible refine evtRegWrite_keeps (Sub.step hw rfl) ?_
    | with_reducible refine adminCfgWrite_keeps (Sub.step hw rfl) ?_
    | with_reducible refine adminRegWrite_keeps (Sub.step hw rfl) ?_
    | with_reducible refine plainWrite_keeps (Sub.step hw rfl) ?_
    | with_reducible refine cipherCtlWrite_keeps (Sub.step hw rfl) ?_
    | with_reducible refine kdataWrite_keeps (Sub.step hw rfl) ?_
    | with_reducible refine kslotCmdWrite_keeps (Sub.step hw rfl) ?_
    | with_reducible refine flumeCtlWrite_keeps (Sub.step hw rfl) ?_
    | with_reducible refine pkeCtlWrite_keeps (Sub.step hw rfl) ?_
    | with_reducible refine rngCfgWrite_keeps (Sub.step hw rfl) ?_
    | with_reducible refine rngMaskCfgWrite_keeps (Sub.step hw rfl) ?_
    | with_reducible refine rngMaskFailsWrite_keeps (Sub.step hw rfl) ?_
    | with_reducible refine domainCfgWrite_keeps (Sub.step hw rfl) ?_
    | with_reducible refine meshCtlWrite_keeps (Sub.step hw rfl) ?_
    | with_reducible refine flashWrite_keeps (Sub.step hw rfl) ?_
    | with_reducible refine slotRelease_keeps (Sub.step hw rfl) ?_
    | with_reducible refine custRfWrite_keeps (Sub.step hw rfl) ?_
    | with_reducible refine postWrite_keeps (Sub.step hw rfl) ?_
    | with_reducible refine Keeps.foldl ?_ ?_
    | intro _
    | (extract_lets +onlyGivenNames z; refine Keeps.cut (W := W) (s0 := s0) (x := z) ?_ ?_; dsimp -zeta only [z]; rotate_left; clear_value z; rotate_right)
    | (extract_lets +onlyGivenNames z; clear_value z)

theorem unlockWrite_keeps (hw : Sub 0x80806 W) {r blk v s} (hs : Keeps W s0 s) : Keeps W s0 (unlockWrite r blk v s) := by
  unfold unlockWrite
  repeat' first
    | with_reducible assumption
    | with_reducible refine State.modDev_keeps (Sub.step hw rfl) ?_
    | with_reducible refine devErr_keeps (Sub.step hw rfl) ?_
    | with_reducible refine Keeps.foldl ?_ ?_
    | intro _
    | (extract_lets +onlyGivenNames z; refine Keeps.cut (W := W) (s0 := s0) (x := z) ?_ ?_; dsimp -zeta only [z]; rotate_left; clear_value z; rotate_right)
    | (extract_lets +onlyGivenNames z; clear_value z)
    | split

theorem rearm_keeps (hw : Sub 0x2 W) {blk s} (hs : Keeps W s0 s) : Keeps W s0 (rearm blk s) := by
  unfold rearm
  repeat' first
    | with_reducible assumption
    | with_reducible refine State.modDev_keeps (Sub.step hw rfl) ?_
    | with_reducible refine Keeps.foldl ?_ ?_
    | intro _
    | (extract_lets +onlyGivenNames z; refine Keeps.cut (W := W) (s0 := s0) (x := z) ?_ ?_; dsimp -zeta only [z]; rotate_left; clear_value z; rotate_right)
    | (extract_lets +onlyGivenNames z; clear_value z)
    | split

theorem csrWrite32_keeps (hw : Sub 0xc3dde W) {r key v s0'} (hs0' : Keeps W s0 s0') : Keeps W s0 (csrWrite32 r key v s0') := by
  unfold csrWrite32
  repeat' first
    | with_reducible assumption
    | with_reducible refine rearm_keeps (Sub.step hw rfl) ?_
    | with_reducible refine unlockWrite_keeps (Sub.step hw rfl) ?_
    | with_reducible refine devErr_keeps (Sub.step hw rfl) ?_
    | with_reducible refine csrEffect_keeps (Sub.step hw rfl) ?_
    | with_reducible refine Keeps.foldl ?_ ?_
    | intro _
    | (extract_lets +onlyGivenNames z; refine Keeps.cut (W := W) (s0 := s0) (x := z) ?_ ?_; dsimp -zeta only [z]; rotate_left; clear_value z; rotate_right)
    | (extract_lets +onlyGivenNames z; clear_value z)
    | split

theorem spaceWrite32_keeps (hw : Sub 0xc3dde W) {r ptag addr v s} (hs : Keeps W s0 s) : Keeps W s0 (spaceWrite32 r ptag addr v s) := by
  unfold spaceWrite32
  repeat' first
    | with_reducible assumption
    | with_reducible refine dbWrite_keeps (Sub.step hw rfl) ?_
    | with_reducible refine csrWrite32_keeps (Sub.step hw rfl) ?_
    | with_reducible refine Keeps.foldl ?_ ?_
    | intro _
    | (extract_lets +onlyGivenNames z; refine Keeps.cut (W := W) (s0 := s0) (x := z) ?_ ?_; dsimp -zeta only [z]; rotate_left; clear_value z; rotate_right)
    | (extract_lets +onlyGivenNames z; clear_value z)
    | split

theorem widthFail_keeps (hw : Sub 0x80806 W) {r addr s} (hs : Keeps W s0 s) : Keeps W s0 (widthFail r addr s) := by
  unfold widthFail
  repeat' first
    | with_reducible assumption
    | with_reducible refine devErr_keeps (Sub.step hw rfl) ?_
    | with_reducible refine rearm_keeps (Sub.step hw rfl) ?_
    | with_reducible refine Keeps.foldl ?_ ?_
    | intro _
    | (extract_lets +onlyGivenNames z; refine Keeps.cut (W := W) (s0 := s0) (x := z) ?_ ?_; dsimp -zeta only [z]; rotate_left; clear_value z; rotate_right)
    | (extract_lets +onlyGivenNames z; clear_value z)
    | split

theorem csrWrite_keeps (hw : Sub 0xc3dde W) {r ptag addr w v s} (hs : Keeps W s0 s) : Keeps W s0 (csrWrite r ptag addr w v s) := by
  unfold csrWrite
  repeat' first
    | with_reducible assumption
    | with_reducible refine widthFail_keeps (Sub.step hw rfl) ?_
    | with_reducible refine spaceWrite32_keeps (Sub.step hw rfl) ?_
    | with_reducible refine Keeps.foldl ?_ ?_
    | intro _
    | (extract_lets +onlyGivenNames z; refine Keeps.cut (W := W) (s0 := s0) (x := z) ?_ ?_; dsimp -zeta only [z]; rotate_left; clear_value z; rotate_right)
    | (extract_lets +onlyGivenNames z; clear_value z)
    | split

theorem access_keeps (hw : Sub 0x1c3dde W) {r s x2} (hs : Keeps W s0 s) : Keeps W s0 (access r s x2) := by
  unfold access
  repeat' first
    | with_reducible assumption
    | with_reducible refine csrRead_keeps (Sub.step hw rfl) ?_
    | with_reducible refine csrWrite_keeps (Sub.step hw rfl) ?_
    | with_reducible refine Keeps.foldl ?_ ?_
    | intro _
    | (extract_lets +onlyGivenNames z; refine Keeps.cut (W := W) (s0 := s0) (x := z) ?_ ?_; dsimp -zeta only [z]; rotate_left; clear_value z; rotate_right)
    | (extract_lets +onlyGivenNames z; clear_value z)
    | split

theorem holdBehind_keeps (hw : Sub 0x80 W) {r a s} (hs : Keeps W s0 s) : Keeps W s0 (holdBehind r a s) := by
  unfold holdBehind
  repeat' first
    | with_reducible assumption
    | with_reducible refine State.modRng_keeps (Sub.step hw rfl) ?_
    | with_reducible refine Keeps.foldl ?_ ?_
    | intro _
    | (extract_lets +onlyGivenNames z; refine Keeps.cut (W := W) (s0 := s0) (x := z) ?_ ?_; dsimp -zeta only [z]; rotate_left; clear_value z; rotate_right)
    | (extract_lets +onlyGivenNames z; clear_value z)
    | split

theorem submit_keeps (hw : Sub 0x1c3dde W) {r a s} (hs : Keeps W s0 s) : Keeps W s0 (submit r a s) := by
  unfold submit
  repeat' first
    | with_reducible assumption
    | with_reducible refine holdBehind_keeps (Sub.step hw rfl) ?_
    | with_reducible refine access_keeps (Sub.step hw rfl) ?_
    | with_reducible refine Keeps.foldl ?_ ?_
    | intro _
    | (extract_lets +onlyGivenNames z; refine Keeps.cut (W := W) (s0 := s0) (x := z) ?_ ?_; dsimp -zeta only [z]; rotate_left; clear_value z; rotate_right)
    | (extract_lets +onlyGivenNames z; clear_value z)
    | split

theorem drainFuel_keeps (hw : Sub 0x1c3dde W) {x0 s} (hs : Keeps W s0 s) : Keeps W s0 (drainFuel x0 s) := by
  induction x0 generalizing s with
  | zero =>
   rw [drainFuel]
   exact hs
  | succ m ih =>
   rw [drainFuel]
   repeat' first
    | with_reducible refine ih ?_
    | with_reducible assumption
    | with_reducible refine access_keeps (Sub.step hw rfl) ?_
    | with_reducible refine State.modRng_keeps (Sub.step hw rfl) ?_
    | with_reducible refine Keeps.foldl ?_ ?_
    | intro _
    | (extract_lets +onlyGivenNames z; refine Keeps.cut (W := W) (s0 := s0) (x := z) ?_ ?_; dsimp -zeta only [z]; rotate_left; clear_value z; rotate_right)
    | (extract_lets +onlyGivenNames z; clear_value z)
    | split

theorem drainBehind_keeps (hw : Sub 0x1c3dde W) {s} (hs : Keeps W s0 s) : Keeps W s0 (drainBehind s) := by
  unfold drainBehind
  repeat' first
    | with_reducible assumption
    | with_reducible refine drainFuel_keeps (Sub.step hw rfl) ?_
    | with_reducible refine Keeps.foldl ?_ ?_
    | intro _
    | (extract_lets +onlyGivenNames z; refine Keeps.cut (W := W) (s0 := s0) (x := z) ?_ ?_; dsimp -zeta only [z]; rotate_left; clear_value z; rotate_right)
    | (extract_lets +onlyGivenNames z; clear_value z)
    | split

theorem writeReg_keeps (hw : Sub 0xc3dde W) {r key v s} (hs : Keeps W s0 s) : Keeps W s0 (writeReg r key v s) := by
  unfold writeReg
  repeat' first
    | with_reducible assumption
    | with_reducible refine holdBehind_keeps (Sub.step hw rfl) ?_
    | with_reducible refine csrWrite32_keeps (Sub.step hw rfl) ?_
    | with_reducible refine Keeps.foldl ?_ ?_
    | intro _
    | (extract_lets +onlyGivenNames z; refine Keeps.cut (W := W) (s0 := s0) (x := z) ?_ ?_; dsimp -zeta only [z]; rotate_left; clear_value z; rotate_right)
    | (extract_lets +onlyGivenNames z; clear_value z)
    | split

theorem execCsrWrite_keeps (hw : Sub 0x1c3dde W) {r ptag addr w v s} (hs : Keeps W s0 s) : OutAll (Keeps W s0) (execCsrWrite r ptag addr w v s) := by
  unfold execCsrWrite
  repeat' first
    | with_reducible assumption
    | with_reducible refine submit_keeps (Sub.step hw rfl) ?_
    | with_reducible refine OutAll.next ?_
    | with_reducible refine Keeps.foldl ?_ ?_
    | intro _
    | (extract_lets +onlyGivenNames z; refine Keeps.cut (W := W) (s0 := s0) (x := z) ?_ ?_; dsimp -zeta only [z]; rotate_left; clear_value z; rotate_right)
    | (extract_lets +onlyGivenNames z; clear_value z)
    | split

theorem execBlkUnlock_keeps (hw : Sub 0xc3dde W) {r blk v s} (hs : Keeps W s0 s) : OutAll (Keeps W s0) (execBlkUnlock r blk v s) := by
  unfold execBlkUnlock
  repeat' first
    | with_reducible assumption
    | with_reducible refine writeReg_keeps (Sub.step hw rfl) ?_
    | with_reducible refine OutAll.next ?_
    | with_reducible refine Keeps.foldl ?_ ?_
    | intro _
    | (extract_lets +onlyGivenNames z; refine Keeps.cut (W := W) (s0 := s0) (x := z) ?_ ?_; dsimp -zeta only [z]; rotate_left; clear_value z; rotate_right)
    | (extract_lets +onlyGivenNames z; clear_value z)
    | split

theorem execWideValueLatch_keeps (hw : Sub 0x1c3dde W) {r ptag addr w s} (hs : Keeps W s0 s) : OutAll (Keeps W s0) (execWideValueLatch r ptag addr w s) := by
  unfold execWideValueLatch
  repeat' first
    | with_reducible assumption
    | with_reducible refine submit_keeps (Sub.step hw rfl) ?_
    | with_reducible refine OutAll.next ?_
    | with_reducible refine Keeps.foldl ?_ ?_
    | intro _
    | (extract_lets +onlyGivenNames z; refine Keeps.cut (W := W) (s0 := s0) (x := z) ?_ ?_; dsimp -zeta only [z]; rotate_left; clear_value z; rotate_right)
    | (extract_lets +onlyGivenNames z; clear_value z)
    | split

theorem execEstLatch_keeps (hw : Sub 0x1c3dde W) {r x s} (hs : Keeps W s0 s) : OutAll (Keeps W s0) (execEstLatch r x s) := by
  unfold execEstLatch
  repeat' first
    | with_reducible assumption
    | with_reducible refine submit_keeps (Sub.step hw rfl) ?_
    | with_reducible refine OutAll.next ?_
    | with_reducible refine Keeps.foldl ?_ ?_
    | intro _
    | (extract_lets +onlyGivenNames z; refine Keeps.cut (W := W) (s0 := s0) (x := z) ?_ ?_; dsimp -zeta only [z]; rotate_left; clear_value z; rotate_right)
    | (extract_lets +onlyGivenNames z; clear_value z)
    | split

theorem execRngData_keeps (hw : Sub 0x1c3dde W) {r wide s} (hs : Keeps W s0 s) : OutAll (Keeps W s0) (execRngData r wide s) := by
  unfold execRngData
  repeat' first
    | with_reducible assumption
    | with_reducible refine submit_keeps (Sub.step hw rfl) ?_
    | with_reducible refine OutAll.next ?_
    | with_reducible refine Keeps.foldl ?_ ?_
    | intro _
    | (extract_lets +onlyGivenNames z; refine Keeps.cut (W := W) (s0 := s0) (x := z) ?_ ?_; dsimp -zeta only [z]; rotate_left; clear_value z; rotate_right)
    | (extract_lets +onlyGivenNames z; clear_value z)
    | split

theorem execRngRawRead_keeps (hw : Sub 0x86 W) {r x raw s} (hs : Keeps W s0 s) : OutAll (Keeps W s0) (execRngRawRead r x raw s) := by
  unfold execRngRawRead
  repeat' first
    | with_reducible assumption
    | with_reducible refine holdBehind_keeps (Sub.step hw rfl) ?_
    | with_reducible refine answer_keeps (Sub.step hw rfl) ?_
    | with_reducible refine OutAll.next ?_
    | with_reducible refine Keeps.foldl ?_ ?_
    | intro _
    | (extract_lets +onlyGivenNames z; refine Keeps.cut (W := W) (s0 := s0) (x := z) ?_ ?_; dsimp -zeta only [z]; rotate_left; clear_value z; rotate_right)
    | (extract_lets +onlyGivenNames z; clear_value z)
    | split

theorem regRow_keeps (hw : Sub 0xc3dde W) {r key v s} (hs : Keeps W s0 s) : OutAll (Keeps W s0) (regRow r key v s) := by
  unfold regRow
  repeat' first
    | with_reducible assumption
    | with_reducible refine writeReg_keeps (Sub.step hw rfl) ?_
    | with_reducible refine OutAll.next ?_
    | with_reducible refine Keeps.foldl ?_ ?_
    | intro _
    | (extract_lets +onlyGivenNames z; refine Keeps.cut (W := W) (s0 := s0) (x := z) ?_ ?_; dsimp -zeta only [z]; rotate_left; clear_value z; rotate_right)
    | (extract_lets +onlyGivenNames z; clear_value z)
    | split

theorem execClaim_keeps (hw : Sub 0xc3dde W) {p lease tie s} (hs : Keeps W s0 s) : OutAll (Keeps W s0) (execClaim p lease tie s) := by
  unfold execClaim
  repeat' first
    | with_reducible assumption
    | with_reducible refine regRow_keeps (Sub.step hw rfl) ?_
    | with_reducible refine writeReg_keeps (Sub.step hw rfl) ?_
    | with_reducible refine hgTie_keeps (Sub.step hw rfl) ?_
    | with_reducible refine rearm_keeps (Sub.step hw rfl) ?_
    | with_reducible refine OutAll.next ?_
    | with_reducible refine Keeps.foldl ?_ ?_
    | intro _
    | (extract_lets +onlyGivenNames z; refine Keeps.cut (W := W) (s0 := s0) (x := z) ?_ ?_; dsimp -zeta only [z]; rotate_left; clear_value z; rotate_right)
    | (extract_lets +onlyGivenNames z; clear_value z)
    | split

theorem execRelease_keeps (hw : Sub 0xc3dde W) {p s} (hs : Keeps W s0 s) : OutAll (Keeps W s0) (execRelease p s) := by
  unfold execRelease
  repeat' first
    | with_reducible assumption
    | with_reducible refine regRow_keeps (Sub.step hw rfl) ?_
    | with_reducible refine OutAll.next ?_
    | with_reducible refine Keeps.foldl ?_ ?_
    | intro _
    | (extract_lets +onlyGivenNames z; refine Keeps.cut (W := W) (s0 := s0) (x := z) ?_ ?_; dsimp -zeta only [z]; rotate_left; clear_value z; rotate_right)
    | (extract_lets +onlyGivenNames z; clear_value z)
    | split

theorem execCancel_keeps (hw : Sub 0xc3dde W) {p s} (hs : Keeps W s0 s) : OutAll (Keeps W s0) (execCancel p s) := by
  unfold execCancel
  repeat' first
    | with_reducible assumption
    | with_reducible refine regRow_keeps (Sub.step hw rfl) ?_
    | with_reducible refine OutAll.next ?_
    | with_reducible refine Keeps.foldl ?_ ?_
    | intro _
    | (extract_lets +onlyGivenNames z; refine Keeps.cut (W := W) (s0 := s0) (x := z) ?_ ?_; dsimp -zeta only [z]; rotate_left; clear_value z; rotate_right)
    | (extract_lets +onlyGivenNames z; clear_value z)
    | split

theorem execPortXEvtCtl_keeps (hw : Sub 0xc3dde W) {r x v s} (hs : Keeps W s0 s) : OutAll (Keeps W s0) (execPortXEvtCtl r x v s) := by
  unfold execPortXEvtCtl
  repeat' first
    | with_reducible assumption
    | with_reducible refine regRow_keeps (Sub.step hw rfl) ?_
    | with_reducible refine OutAll.next ?_
    | with_reducible refine Keeps.foldl ?_ ?_
    | intro _
    | (extract_lets +onlyGivenNames z; refine Keeps.cut (W := W) (s0 := s0) (x := z) ?_ ?_; dsimp -zeta only [z]; rotate_left; clear_value z; rotate_right)
    | (extract_lets +onlyGivenNames z; clear_value z)
    | split

theorem execPortXEvtHead_keeps (hw : Sub 0xc3dde W) {r x v s} (hs : Keeps W s0 s) : OutAll (Keeps W s0) (execPortXEvtHead r x v s) := by
  unfold execPortXEvtHead
  repeat' first
    | with_reducible assumption
    | with_reducible refine regRow_keeps (Sub.step hw rfl) ?_
    | with_reducible refine OutAll.next ?_
    | with_reducible refine Keeps.foldl ?_ ?_
    | intro _
    | (extract_lets +onlyGivenNames z; refine Keeps.cut (W := W) (s0 := s0) (x := z) ?_ ?_; dsimp -zeta only [z]; rotate_left; clear_value z; rotate_right)
    | (extract_lets +onlyGivenNames z; clear_value z)
    | split

theorem execPortRetrain_keeps (hw : Sub 0xc3dde W) {r x v s} (hs : Keeps W s0 s) : OutAll (Keeps W s0) (execPortRetrain r x v s) := by
  unfold execPortRetrain
  repeat' first
    | with_reducible assumption
    | with_reducible refine regRow_keeps (Sub.step hw rfl) ?_
    | with_reducible refine OutAll.next ?_
    | with_reducible refine Keeps.foldl ?_ ?_
    | intro _
    | (extract_lets +onlyGivenNames z; refine Keeps.cut (W := W) (s0 := s0) (x := z) ?_ ?_; dsimp -zeta only [z]; rotate_left; clear_value z; rotate_right)
    | (extract_lets +onlyGivenNames z; clear_value z)
    | split

theorem execPortDisable_keeps (hw : Sub 0xc3dde W) {r x v s} (hs : Keeps W s0 s) : OutAll (Keeps W s0) (execPortDisable r x v s) := by
  unfold execPortDisable
  repeat' first
    | with_reducible assumption
    | with_reducible refine regRow_keeps (Sub.step hw rfl) ?_
    | with_reducible refine OutAll.next ?_
    | with_reducible refine Keeps.foldl ?_ ?_
    | intro _
    | (extract_lets +onlyGivenNames z; refine Keeps.cut (W := W) (s0 := s0) (x := z) ?_ ?_; dsimp -zeta only [z]; rotate_left; clear_value z; rotate_right)
    | (extract_lets +onlyGivenNames z; clear_value z)
    | split

theorem execSqTail_keeps (hw : Sub 0x1c3dde W) {p ptag q v s} (hs : Keeps W s0 s) : OutAll (Keeps W s0) (execSqTail p ptag q v s) := by
  unfold execSqTail
  repeat' first
    | with_reducible assumption
    | with_reducible refine submit_keeps (Sub.step hw rfl) ?_
    | with_reducible refine OutAll.next ?_
    | with_reducible refine Keeps.foldl ?_ ?_
    | intro _
    | (extract_lets +onlyGivenNames z; refine Keeps.cut (W := W) (s0 := s0) (x := z) ?_ ?_; dsimp -zeta only [z]; rotate_left; clear_value z; rotate_right)
    | (extract_lets +onlyGivenNames z; clear_value z)
    | split

theorem execCqHead_keeps (hw : Sub 0x1c3dde W) {p ptag q v s} (hs : Keeps W s0 s) : OutAll (Keeps W s0) (execCqHead p ptag q v s) := by
  unfold execCqHead
  repeat' first
    | with_reducible assumption
    | with_reducible refine submit_keeps (Sub.step hw rfl) ?_
    | with_reducible refine OutAll.next ?_
    | with_reducible refine Keeps.foldl ?_ ?_
    | intro _
    | (extract_lets +onlyGivenNames z; refine Keeps.cut (W := W) (s0 := s0) (x := z) ?_ ?_; dsimp -zeta only [z]; rotate_left; clear_value z; rotate_right)
    | (extract_lets +onlyGivenNames z; clear_value z)
    | split

theorem execAdminQueueEnable_keeps (hw : Sub 0xc3dde W) {r v s} (hs : Keeps W s0 s) : OutAll (Keeps W s0) (execAdminQueueEnable r v s) := by
  unfold execAdminQueueEnable
  repeat' first
    | with_reducible assumption
    | with_reducible refine regRow_keeps (Sub.step hw rfl) ?_
    | with_reducible refine OutAll.next ?_
    | with_reducible refine Keeps.foldl ?_ ?_
    | intro _
    | (extract_lets +onlyGivenNames z; refine Keeps.cut (W := W) (s0 := s0) (x := z) ?_ ?_; dsimp -zeta only [z]; rotate_left; clear_value z; rotate_right)
    | (extract_lets +onlyGivenNames z; clear_value z)
    | split

theorem execAdminQueueDisable_keeps (hw : Sub 0xc3dde W) {r v s} (hs : Keeps W s0 s) : OutAll (Keeps W s0) (execAdminQueueDisable r v s) := by
  unfold execAdminQueueDisable
  repeat' first
    | with_reducible assumption
    | with_reducible refine regRow_keeps (Sub.step hw rfl) ?_
    | with_reducible refine OutAll.next ?_
    | with_reducible refine Keeps.foldl ?_ ?_
    | intro _
    | (extract_lets +onlyGivenNames z; refine Keeps.cut (W := W) (s0 := s0) (x := z) ?_ ?_; dsimp -zeta only [z]; rotate_left; clear_value z; rotate_right)
    | (extract_lets +onlyGivenNames z; clear_value z)
    | split

theorem execKslotLoad_keeps (hw : Sub 0xc3dde W) {r v s} (hs : Keeps W s0 s) : OutAll (Keeps W s0) (execKslotLoad r v s) := by
  unfold execKslotLoad
  repeat' first
    | with_reducible assumption
    | with_reducible refine regRow_keeps (Sub.step hw rfl) ?_
    | with_reducible refine OutAll.next ?_
    | with_reducible refine Keeps.foldl ?_ ?_
    | intro _
    | (extract_lets +onlyGivenNames z; refine Keeps.cut (W := W) (s0 := s0) (x := z) ?_ ?_; dsimp -zeta only [z]; rotate_left; clear_value z; rotate_right)
    | (extract_lets +onlyGivenNames z; clear_value z)
    | split

theorem execKslotClear_keeps (hw : Sub 0xc3dde W) {r v s} (hs : Keeps W s0 s) : OutAll (Keeps W s0) (execKslotClear r v s) := by
  unfold execKslotClear
  repeat' first
    | with_reducible assumption
    | with_reducible refine regRow_keeps (Sub.step hw rfl) ?_
    | with_reducible refine OutAll.next ?_
    | with_reducible refine Keeps.foldl ?_ ?_
    | intro _
    | (extract_lets +onlyGivenNames z; refine Keeps.cut (W := W) (s0 := s0) (x := z) ?_ ?_; dsimp -zeta only [z]; rotate_left; clear_value z; rotate_right)
    | (extract_lets +onlyGivenNames z; clear_value z)
    | split

theorem execCipherDisable_keeps (hw : Sub 0xc3dde W) {r v s} (hs : Keeps W s0 s) : OutAll (Keeps W s0) (execCipherDisable r v s) := by
  unfold execCipherDisable
  repeat' first
    | with_reducible assumption
    | with_reducible refine regRow_keeps (Sub.step hw rfl) ?_
    | with_reducible refine OutAll.next ?_
    | with_reducible refine Keeps.foldl ?_ ?_
    | intro _
    | (extract_lets +onlyGivenNames z; refine Keeps.cut (W := W) (s0 := s0) (x := z) ?_ ?_; dsimp -zeta only [z]; rotate_left; clear_value z; rotate_right)
    | (extract_lets +onlyGivenNames z; clear_value z)
    | split

theorem execFlumeDisable_keeps (hw : Sub 0xc3dde W) {r v s} (hs : Keeps W s0 s) : OutAll (Keeps W s0) (execFlumeDisable r v s) := by
  unfold execFlumeDisable
  repeat' first
    | with_reducible assumption
    | with_reducible refine regRow_keeps (Sub.step hw rfl) ?_
    | with_reducible refine OutAll.next ?_
    | with_reducible refine Keeps.foldl ?_ ?_
    | intro _
    | (extract_lets +onlyGivenNames z; refine Keeps.cut (W := W) (s0 := s0) (x := z) ?_ ?_; dsimp -zeta only [z]; rotate_left; clear_value z; rotate_right)
    | (extract_lets +onlyGivenNames z; clear_value z)
    | split

theorem execPkeDisable_keeps (hw : Sub 0xc3dde W) {r v s} (hs : Keeps W s0 s) : OutAll (Keeps W s0) (execPkeDisable r v s) := by
  unfold execPkeDisable
  repeat' first
    | with_reducible assumption
    | with_reducible refine regRow_keeps (Sub.step hw rfl) ?_
    | with_reducible refine OutAll.next ?_
    | with_reducible refine Keeps.foldl ?_ ?_
    | intro _
    | (extract_lets +onlyGivenNames z; refine Keeps.cut (W := W) (s0 := s0) (x := z) ?_ ?_; dsimp -zeta only [z]; rotate_left; clear_value z; rotate_right)
    | (extract_lets +onlyGivenNames z; clear_value z)
    | split

theorem execKeyPrefWrite_keeps (hw : Sub 0xc3dde W) {r v s} (hs : Keeps W s0 s) : OutAll (Keeps W s0) (execKeyPrefWrite r v s) := by
  unfold execKeyPrefWrite
  repeat' first
    | with_reducible assumption
    | with_reducible refine regRow_keeps (Sub.step hw rfl) ?_
    | with_reducible refine OutAll.next ?_
    | with_reducible refine Keeps.foldl ?_ ?_
    | intro _
    | (extract_lets +onlyGivenNames z; refine Keeps.cut (W := W) (s0 := s0) (x := z) ?_ ?_; dsimp -zeta only [z]; rotate_left; clear_value z; rotate_right)
    | (extract_lets +onlyGivenNames z; clear_value z)
    | split

theorem execMaskFailsClear_keeps (hw : Sub 0xc3dde W) {r v s} (hs : Keeps W s0 s) : OutAll (Keeps W s0) (execMaskFailsClear r v s) := by
  unfold execMaskFailsClear
  repeat' first
    | with_reducible assumption
    | with_reducible refine regRow_keeps (Sub.step hw rfl) ?_
    | with_reducible refine OutAll.next ?_
    | with_reducible refine Keeps.foldl ?_ ?_
    | intro _
    | (extract_lets +onlyGivenNames z; refine Keeps.cut (W := W) (s0 := s0) (x := z) ?_ ?_; dsimp -zeta only [z]; rotate_left; clear_value z; rotate_right)
    | (extract_lets +onlyGivenNames z; clear_value z)
    | split

theorem execMeshPortRetrain_keeps (hw : Sub 0xc3dde W) {r n v s} (hs : Keeps W s0 s) : OutAll (Keeps W s0) (execMeshPortRetrain r n v s) := by
  unfold execMeshPortRetrain
  repeat' first
    | with_reducible assumption
    | with_reducible refine regRow_keeps (Sub.step hw rfl) ?_
    | with_reducible refine OutAll.next ?_
    | with_reducible refine Keeps.foldl ?_ ?_
    | intro _
    | (extract_lets +onlyGivenNames z; refine Keeps.cut (W := W) (s0 := s0) (x := z) ?_ ?_; dsimp -zeta only [z]; rotate_left; clear_value z; rotate_right)
    | (extract_lets +onlyGivenNames z; clear_value z)
    | split

theorem execMeshPortDisable_keeps (hw : Sub 0xc3dde W) {r n v s} (hs : Keeps W s0 s) : OutAll (Keeps W s0) (execMeshPortDisable r n v s) := by
  unfold execMeshPortDisable
  repeat' first
    | with_reducible assumption
    | with_reducible refine regRow_keeps (Sub.step hw rfl) ?_
    | with_reducible refine OutAll.next ?_
    | with_reducible refine Keeps.foldl ?_ ?_
    | intro _
    | (extract_lets +onlyGivenNames z; refine Keeps.cut (W := W) (s0 := s0) (x := z) ?_ ?_; dsimp -zeta only [z]; rotate_left; clear_value z; rotate_right)
    | (extract_lets +onlyGivenNames z; clear_value z)
    | split

theorem execSlotRelease_keeps (hw : Sub 0xc3dde W) {r n v s} (hs : Keeps W s0 s) : OutAll (Keeps W s0) (execSlotRelease r n v s) := by
  unfold execSlotRelease
  repeat' first
    | with_reducible assumption
    | with_reducible refine regRow_keeps (Sub.step hw rfl) ?_
    | with_reducible refine OutAll.next ?_
    | with_reducible refine Keeps.foldl ?_ ?_
    | intro _
    | (extract_lets +onlyGivenNames z; refine Keeps.cut (W := W) (s0 := s0) (x := z) ?_ ?_; dsimp -zeta only [z]; rotate_left; clear_value z; rotate_right)
    | (extract_lets +onlyGivenNames z; clear_value z)
    | split

theorem execTamperLevel0Write_keeps (hw : Sub 0xc3dde W) {r v s} (hs : Keeps W s0 s) : OutAll (Keeps W s0) (execTamperLevel0Write r v s) := by
  unfold execTamperLevel0Write
  repeat' first
    | with_reducible assumption
    | with_reducible refine regRow_keeps (Sub.step hw rfl) ?_
    | with_reducible refine OutAll.next ?_
    | with_reducible refine Keeps.foldl ?_ ?_
    | intro _
    | (extract_lets +onlyGivenNames z; refine Keeps.cut (W := W) (s0 := s0) (x := z) ?_ ?_; dsimp -zeta only [z]; rotate_left; clear_value z; rotate_right)
    | (extract_lets +onlyGivenNames z; clear_value z)
    | split

end Sys2Proof.Machine
end

