-- ==== Sys2Proof/Laws/FrameIsa.lean ====
section
/-! SUPPORT. The frame of every operation of Machine/Isa.lean: the parts it may write, and what it keeps (`Keeps`). -/
namespace Sys2Proof.Machine

set_option linter.tactic.unusedName false
variable {W : Nat} {s0 : State}

theorem charge_keeps (hw : Sub 0x80400 W) {n k s} (hs : Keeps W s0 s) : Keeps W s0 (charge n k s) := by
  unfold charge
  repeat' first
    | with_reducible assumption
    | with_reducible refine bump64_keeps (Sub.step hw rfl) ?_
    | with_reducible refine coreMod_keeps (Sub.step hw rfl) ?_ ?_
    | with_reducible refine Keeps.foldl ?_ ?_
    | exact ‹Warden.coresWf _›
    | exact ‹List.length _ = 16›
    | exact Core.setReg_length ‹_›
    | intro _
    | (extract_lets +onlyGivenNames z; refine Keeps.cut (W := W) (s0 := s0) (x := z) ?_ ?_; dsimp -zeta only [z]; rotate_left; clear_value z; rotate_right)
    | (extract_lets +onlyGivenNames z; clear_value z)
    | split

theorem applyEff_keeps (hw : Sub 0x1c3c7e W) {n k s e} (hs : Keeps W s0 s) (he : Eff.All (Keeps W s0) e) : Keeps W s0 (applyEff n k s e) := by
  unfold applyEff
  split
  · exact charge_keeps (Sub.step hw rfl) (coreMod_keeps (Sub.step hw rfl) (fun _ h => h) he)
  · exact charge_keeps (Sub.step hw rfl) (coreMod_keeps (Sub.step hw rfl) (fun _ h => h) he)
  · exact charge_keeps (Sub.step hw rfl) (coreMod_keeps (Sub.step hw rfl) (fun _ h => h) he)
  · exact raiseExc_keeps (Sub.step hw rfl) he
  · exact he
  · exact hs

theorem runInstr_keeps (hw : Sub 0x1c3c7e W) {n w ban illegal body s} (hs : Keeps W s0 s) (hbody : ∀ a u, Keeps W s0 u → Eff.All (Keeps W s0) (body a u)) : OutAll (Keeps W s0) (runInstr n w ban illegal body s) := by
  unfold runInstr
  repeat' first
    | with_reducible assumption
    | with_reducible apply hbody
    | with_reducible refine fetchCheck_keeps (Sub.step hw rfl) ?_
    | with_reducible refine raiseExc_keeps (Sub.step hw rfl) ?_
    | with_reducible refine applyEff_keeps (Sub.step hw rfl) ?_ ?_
    | with_reducible refine coreMod_keeps (Sub.step hw rfl) ?_ ?_
    | with_reducible refine MemAns.out_ok (P := Keeps W s0) (by assumption) ?_
    | with_reducible refine MemAns.out_exc (P := Keeps W s0) (by assumption) ?_
    | with_reducible refine OutAll.next ?_
    | with_reducible refine Keeps.foldl ?_ ?_
    | exact ‹Warden.coresWf _›
    | exact ‹List.length _ = 16›
    | exact Core.setReg_length ‹_›
    | intro _
    | (extract_lets +onlyGivenNames z; refine Keeps.cut (W := W) (s0 := s0) (x := z) ?_ ?_; dsimp -zeta only [z]; rotate_left; clear_value z; rotate_right)
    | (extract_lets +onlyGivenNames z; clear_value z)
    | split

theorem putReg_keeps (hw : Sub 0x400 W) {n rd v s} (hs : Keeps W s0 s) : Keeps W s0 (putReg n rd v s) := by
  unfold putReg
  repeat' first
    | with_reducible assumption
    | with_reducible refine coreMod_keeps (Sub.step hw rfl) ?_ ?_
    | exact Core.setReg_length ‹_›
    | intro _

theorem runR_keeps (hw : Sub 0x1c3c7e W) {n funct rd rs1 rs2 z f s} (hs : Keeps W s0 s) : OutAll (Keeps W s0) (runR n funct rd rs1 rs2 z f s) := by
  unfold runR
  exact runInstr_keeps (Sub.step hw rfl) hs fun k u hu => Eff.all_done (putReg_keeps (Sub.step hw rfl) hu)

theorem runI_keeps (hw : Sub 0x1c3c7e W) {n op rd rs1 imm bad f s} (hs : Keeps W s0 s) : OutAll (Keeps W s0) (runI n op rd rs1 imm bad f s) := by
  unfold runI
  exact runInstr_keeps (Sub.step hw rfl) hs fun k u hu => Eff.all_done (putReg_keeps (Sub.step hw rfl) hu)

theorem windowLoad_keeps (hw : Sub 0x180886 W) {n a s} (hs : Keeps W s0 s) : MemAns.All (Keeps W s0) (windowLoad n a s) := by
  unfold windowLoad
  extract_lets x
  clear_value x
  split
  · have := rngWord_keeps (Sub.step hw rfl) (r := .core n) hs
    split
    · exact WordAns.out_ok (P := Keeps W s0) (by assumption) this
    · exact MemAns.all_wait
    · exact WordAns.out_zero (P := Keeps W s0) (by assumption) this
  · have := spaceRead32_keeps (Sub.step hw rfl) (r := .core n) (ptag := none) (addr := x) hs
    split
    exact PairAll.out (P := Keeps W s0) (by assumption) this

theorem runLoad_keeps (hw : Sub 0x1c3cfe W) {n op size ext rd rs1 imm s} (hs : Keeps W s0 s) : OutAll (Keeps W s0) (runLoad n op size ext rd rs1 imm s) := by
  unfold runLoad
  refine runInstr_keeps (Sub.step hw rfl) hs ?_
  intro k u hu
  dsimp only
  split
  · exact Eff.all_exc hu
  · split
    · generalize (k.reg rs1 + sx imm).toNat = a
      have : MemAns.All (Keeps W s0) (windowLoad n a u) := windowLoad_keeps (Sub.step hw rfl) hu
      split
      · exact Eff.all_done (putReg_keeps (Sub.step hw rfl) (MemAns.out_ok (P := Keeps W s0) (by assumption) this))
      · exact Eff.all_stall
      · exact Eff.all_exc (MemAns.out_exc (P := Keeps W s0) (by assumption) this)
    · generalize (k.reg rs1 + sx imm).toNat = a
      have : MemAns.All (Keeps W s0) (loadMem a size u) := loadMem_keeps (Sub.step hw rfl) hu
      split
      · exact Eff.all_done (putReg_keeps (Sub.step hw rfl) (MemAns.out_ok (P := Keeps W s0) (by assumption) this))
      · exact Eff.all_stall
      · exact Eff.all_exc (MemAns.out_exc (P := Keeps W s0) (by assumption) this)

theorem runStore_keeps (hw : Sub 0x1c3dfe W) {n op size rs2 rs1 imm bus s} (hs : Keeps W s0 s) : OutAll (Keeps W s0) (runStore n op size rs2 rs1 imm bus s) := by
  unfold runStore
  refine runInstr_keeps (Sub.step hw rfl) hs ?_
  intro k u hu
  dsimp only
  split
  · exact Eff.all_exc hu
  · exact Eff.all_done (addLate_keeps (Sub.step hw rfl) hu)
  · split
    · exact Eff.all_done (spaceWrite32_keeps (Sub.step hw rfl) hu)
    · split
      · exact Eff.all_done (addLate_keeps (Sub.step hw rfl) hu)
      · exact Eff.all_done (sramWrite_keeps (Sub.step hw rfl) hu)

theorem runAtomic_keeps (hw : Sub 0x1c3c7e W) {n funct f rd rs1 rs2 z s} (hs : Keeps W s0 s) : OutAll (Keeps W s0) (runAtomic n funct f rd rs1 rs2 z s) := by
  unfold runAtomic
  refine runInstr_keeps (Sub.step hw rfl) hs ?_
  intro k u hu
  dsimp only
  split
  · exact Eff.all_exc hu
  · exact Eff.all_done (putReg_keeps (Sub.step hw rfl) (sramWrite_keeps (Sub.step hw rfl) hu))

theorem runB_keeps (hw : Sub 0x1c3c7e W) {n op cond rs1 rs2 off s} (hs : Keeps W s0 s) : OutAll (Keeps W s0) (runB n op cond rs1 rs2 off s) := by
  unfold runB
  exact runInstr_keeps (Sub.step hw rfl) hs fun k u hu => Eff.all_jump hu

theorem loopStart_keeps (hw : Sub 0x400 W) {n off count k s} (hs : Keeps W s0 s) : Eff.All (Keeps W s0) (loopStart n off count k s) := by
  unfold loopStart
  repeat' first
    | with_reducible assumption
    | with_reducible refine coreMod_keeps (Sub.step hw rfl) ?_ ?_
    | with_reducible refine Eff.all_done ?_
    | with_reducible refine Eff.all_jump ?_
    | with_reducible refine Eff.all_goto ?_
    | with_reducible refine Eff.all_exc ?_
    | with_reducible refine Eff.all_moved ?_
    | with_reducible exact Eff.all_stall
    | with_reducible refine Keeps.foldl ?_ ?_
    | exact ‹Warden.coresWf _›
    | exact ‹List.length _ = 16›
    | exact Core.setReg_length ‹_›
    | intro _
    | (extract_lets +onlyGivenNames z; refine Keeps.cut (W := W) (s0 := s0) (x := z) ?_ ?_; dsimp -zeta only [z]; rotate_left; clear_value z; rotate_right)
    | (extract_lets +onlyGivenNames z; clear_value z)
    | split

theorem swint_keeps (hw : Sub 0x400 W) {v s} (hs : Keeps W s0 s) : Keeps W s0 (swint v s) := by
  unfold swint
  repeat' first
    | with_reducible assumption
    | with_reducible refine coreMod_keeps (Sub.step hw rfl) ?_ ?_
    | with_reducible refine Keeps.foldl ?_ ?_
    | exact ‹Warden.coresWf _›
    | exact ‹List.length _ = 16›
    | exact Core.setReg_length ‹_›
    | intro _
    | (extract_lets +onlyGivenNames z; refine Keeps.cut (W := W) (s0 := s0) (x := z) ?_ ?_; dsimp -zeta only [z]; rotate_left; clear_value z; rotate_right)
    | (extract_lets +onlyGivenNames z; clear_value z)
    | split

theorem ccsrTouch_keeps (hw : Sub 0x100400 W) {n c s} (hs : Keeps W s0 s) : Keeps W s0 (ccsrTouch n c s) := by
  unfold ccsrTouch
  repeat' first
    | with_reducible assumption
    | with_reducible refine drawNat_keeps (Sub.step hw rfl) ?_
    | with_reducible refine State.modWarden_keeps (Sub.step hw rfl) ?_ ?_ ?_
    | with_reducible refine coreMod_keeps (Sub.step hw rfl) ?_ ?_
    | with_reducible refine PairAll.snd (P := Keeps W s0) (p := drawNat _) ?_
    | with_reducible refine PairAll.out (P := Keeps W s0) (by assumption) ?_
    | with_reducible refine Keeps.foldl ?_ ?_
    | exact ‹Warden.coresWf _›
    | exact ‹List.length _ = 16›
    | exact Core.setReg_length ‹_›
    | intro _
    | (extract_lets +onlyGivenNames z; refine Keeps.cut (W := W) (s0 := s0) (x := z) ?_ ?_; dsimp -zeta only [z]; rotate_left; clear_value z; rotate_right)
    | (extract_lets +onlyGivenNames z; clear_value z)
    | split

theorem ccsrRelease_keeps (hw : Sub 0x400 W) {n c s} (hs : Keeps W s0 s) : Keeps W s0 (ccsrRelease n c s) := by
  unfold ccsrRelease
  repeat' first
    | with_reducible assumption
    | with_reducible refine coreMod_keeps (Sub.step hw rfl) ?_ ?_
    | with_reducible refine Keeps.foldl ?_ ?_
    | exact ‹Warden.coresWf _›
    | exact ‹List.length _ = 16›
    | exact Core.setReg_length ‹_›
    | intro _
    | (extract_lets +onlyGivenNames z; refine Keeps.cut (W := W) (s0 := s0) (x := z) ?_ ?_; dsimp -zeta only [z]; rotate_left; clear_value z; rotate_right)
    | (extract_lets +onlyGivenNames z; clear_value z)
    | split

theorem runC_keeps (hw : Sub 0x1c3c7e W) {n op new rd rs1 z csr s} (hs : Keeps W s0 s) : OutAll (Keeps W s0) (runC n op new rd rs1 z csr s) := by
  unfold runC
  refine runInstr_keeps (Sub.step hw rfl) hs ?_
  intro k u hu
  have ht := ccsrTouch_keeps (Sub.step hw rfl) (n := n.val) (c := csr.toNat) hu
  have fin : ∀ v x, Keeps W s0 x → Keeps W s0 (ccsrRelease n.val csr.toNat (putReg n.val rd v x)) :=
    fun v x h => ccsrRelease_keeps (Sub.step hw rfl) (putReg_keeps (Sub.step hw rfl) h)
  have hite : ∀ (p : Prop) [Decidable p] (a b : Core), a.regs.length = 16 → b.regs.length = 16 → (if p then a else b).regs.length = 16 := by
    intro p _ a b ha hb
    split
    · exact ha
    · exact hb
  have put : ∀ c v (k : Core), k.regs.length = 16 → (ccsrPut c v k).regs.length = 16 := by
    intro c v k h
    unfold ccsrPut
    repeat' first
      | with_reducible refine hite _ _ _ ?_ ?_
      | exact h
  cases new with
  | none => exact Eff.all_done (fin _ _ ht)
  | some f =>
    dsimp only
    repeat' first
      | with_reducible exact Eff.all_exc ht
      | with_reducible exact Eff.all_done (fin _ _ ht)
      | with_reducible exact Eff.all_moved (takeLate_keeps (Sub.step hw rfl) ht)
      | with_reducible exact Eff.all_done (fin _ _ (swint_keeps (Sub.step hw rfl) ht))
      | with_reducible exact Eff.all_done (fin _ _ (coreMod_keeps (Sub.step hw rfl) (put _ _) ht))
      | split

end Sys2Proof.Machine
end

