-- ==== Sys2Proof/Laws/FrameInstrs.lean ====
section
/-! SUPPORT. The frame of every operation of Machine/Instrs.lean: the parts it may write, and what it keeps (`Keeps`). -/
namespace Sys2Proof.Machine

set_option linter.tactic.unusedName false
variable {W : Nat} {s0 : State}

theorem execAdd_keeps (hw : Sub 0x1c3c7e W) {n rd rs1 rs2 z s} (hs : Keeps W s0 s) : OutAll (Keeps W s0) (execAdd n rd rs1 rs2 z s) := by
  unfold execAdd
  repeat' first
    | with_reducible assumption
    | with_reducible refine runR_keeps (Sub.step hw rfl) ?_
    | with_reducible refine OutAll.next ?_
    | with_reducible refine Keeps.foldl ?_ ?_
    | intro _
    | (extract_lets +onlyGivenNames z; refine Keeps.cut (W := W) (s0 := s0) (x := z) ?_ ?_; dsimp -zeta only [z]; rotate_left; clear_value z; rotate_right)
    | (extract_lets +onlyGivenNames z; clear_value z)
    | split

theorem execSub_keeps (hw : Sub 0x1c3c7e W) {n rd rs1 rs2 z s} (hs : Keeps W s0 s) : OutAll (Keeps W s0) (execSub n rd rs1 rs2 z s) := by
  unfold execSub
  repeat' first
    | with_reducible assumption
    | with_reducible refine runR_keeps (Sub.step hw rfl) ?_
    | with_reducible refine OutAll.next ?_
    | with_reducible refine Keeps.foldl ?_ ?_
    | intro _
    | (extract_lets +onlyGivenNames z; refine Keeps.cut (W := W) (s0 := s0) (x := z) ?_ ?_; dsimp -zeta only [z]; rotate_left; clear_value z; rotate_right)
    | (extract_lets +onlyGivenNames z; clear_value z)
    | split

theorem execAnd_keeps (hw : Sub 0x1c3c7e W) {n rd rs1 rs2 z s} (hs : Keeps W s0 s) : OutAll (Keeps W s0) (execAnd n rd rs1 rs2 z s) := by
  unfold execAnd
  repeat' first
    | with_reducible assumption
    | with_reducible refine runR_keeps (Sub.step hw rfl) ?_
    | with_reducible refine OutAll.next ?_
    | with_reducible refine Keeps.foldl ?_ ?_
    | intro _
    | (extract_lets +onlyGivenNames z; refine Keeps.cut (W := W) (s0 := s0) (x := z) ?_ ?_; dsimp -zeta only [z]; rotate_left; clear_value z; rotate_right)
    | (extract_lets +onlyGivenNames z; clear_value z)
    | split

theorem execOr_keeps (hw : Sub 0x1c3c7e W) {n rd rs1 rs2 z s} (hs : Keeps W s0 s) : OutAll (Keeps W s0) (execOr n rd rs1 rs2 z s) := by
  unfold execOr
  repeat' first
    | with_reducible assumption
    | with_reducible refine runR_keeps (Sub.step hw rfl) ?_
    | with_reducible refine OutAll.next ?_
    | with_reducible refine Keeps.foldl ?_ ?_
    | intro _
    | (extract_lets +onlyGivenNames z; refine Keeps.cut (W := W) (s0 := s0) (x := z) ?_ ?_; dsimp -zeta only [z]; rotate_left; clear_value z; rotate_right)
    | (extract_lets +onlyGivenNames z; clear_value z)
    | split

theorem execXor_keeps (hw : Sub 0x1c3c7e W) {n rd rs1 rs2 z s} (hs : Keeps W s0 s) : OutAll (Keeps W s0) (execXor n rd rs1 rs2 z s) := by
  unfold execXor
  repeat' first
    | with_reducible assumption
    | with_reducible refine runR_keeps (Sub.step hw rfl) ?_
    | with_reducible refine OutAll.next ?_
    | with_reducible refine Keeps.foldl ?_ ?_
    | intro _
    | (extract_lets +onlyGivenNames z; refine Keeps.cut (W := W) (s0 := s0) (x := z) ?_ ?_; dsimp -zeta only [z]; rotate_left; clear_value z; rotate_right)
    | (extract_lets +onlyGivenNames z; clear_value z)
    | split

theorem execShl_keeps (hw : Sub 0x1c3c7e W) {n rd rs1 rs2 z s} (hs : Keeps W s0 s) : OutAll (Keeps W s0) (execShl n rd rs1 rs2 z s) := by
  unfold execShl
  repeat' first
    | with_reducible assumption
    | with_reducible refine runR_keeps (Sub.step hw rfl) ?_
    | with_reducible refine OutAll.next ?_
    | with_reducible refine Keeps.foldl ?_ ?_
    | intro _
    | (extract_lets +onlyGivenNames z; refine Keeps.cut (W := W) (s0 := s0) (x := z) ?_ ?_; dsimp -zeta only [z]; rotate_left; clear_value z; rotate_right)
    | (extract_lets +onlyGivenNames z; clear_value z)
    | split

theorem execShr_keeps (hw : Sub 0x1c3c7e W) {n rd rs1 rs2 z s} (hs : Keeps W s0 s) : OutAll (Keeps W s0) (execShr n rd rs1 rs2 z s) := by
  unfold execShr
  repeat' first
    | with_reducible assumption
    | with_reducible refine runR_keeps (Sub.step hw rfl) ?_
    | with_reducible refine OutAll.next ?_
    | with_reducible refine Keeps.foldl ?_ ?_
    | intro _
    | (extract_lets +onlyGivenNames z; refine Keeps.cut (W := W) (s0 := s0) (x := z) ?_ ?_; dsimp -zeta only [z]; rotate_left; clear_value z; rotate_right)
    | (extract_lets +onlyGivenNames z; clear_value z)
    | split

theorem execSar_keeps (hw : Sub 0x1c3c7e W) {n rd rs1 rs2 z s} (hs : Keeps W s0 s) : OutAll (Keeps W s0) (execSar n rd rs1 rs2 z s) := by
  unfold execSar
  repeat' first
    | with_reducible assumption
    | with_reducible refine runR_keeps (Sub.step hw rfl) ?_
    | with_reducible refine OutAll.next ?_
    | with_reducible refine Keeps.foldl ?_ ?_
    | intro _
    | (extract_lets +onlyGivenNames z; refine Keeps.cut (W := W) (s0 := s0) (x := z) ?_ ?_; dsimp -zeta only [z]; rotate_left; clear_value z; rotate_right)
    | (extract_lets +onlyGivenNames z; clear_value z)
    | split

theorem execRotr_keeps (hw : Sub 0x1c3c7e W) {n rd rs1 rs2 z s} (hs : Keeps W s0 s) : OutAll (Keeps W s0) (execRotr n rd rs1 rs2 z s) := by
  unfold execRotr
  repeat' first
    | with_reducible assumption
    | with_reducible refine runR_keeps (Sub.step hw rfl) ?_
    | with_reducible refine OutAll.next ?_
    | with_reducible refine Keeps.foldl ?_ ?_
    | intro _
    | (extract_lets +onlyGivenNames z; refine Keeps.cut (W := W) (s0 := s0) (x := z) ?_ ?_; dsimp -zeta only [z]; rotate_left; clear_value z; rotate_right)
    | (extract_lets +onlyGivenNames z; clear_value z)
    | split

theorem execCmplt_keeps (hw : Sub 0x1c3c7e W) {n rd rs1 rs2 z s} (hs : Keeps W s0 s) : OutAll (Keeps W s0) (execCmplt n rd rs1 rs2 z s) := by
  unfold execCmplt
  repeat' first
    | with_reducible assumption
    | with_reducible refine runR_keeps (Sub.step hw rfl) ?_
    | with_reducible refine OutAll.next ?_
    | with_reducible refine Keeps.foldl ?_ ?_
    | intro _
    | (extract_lets +onlyGivenNames z; refine Keeps.cut (W := W) (s0 := s0) (x := z) ?_ ?_; dsimp -zeta only [z]; rotate_left; clear_value z; rotate_right)
    | (extract_lets +onlyGivenNames z; clear_value z)
    | split

theorem execCmpltu_keeps (hw : Sub 0x1c3c7e W) {n rd rs1 rs2 z s} (hs : Keeps W s0 s) : OutAll (Keeps W s0) (execCmpltu n rd rs1 rs2 z s) := by
  unfold execCmpltu
  repeat' first
    | with_reducible assumption
    | with_reducible refine runR_keeps (Sub.step hw rfl) ?_
    | with_reducible refine OutAll.next ?_
    | with_reducible refine Keeps.foldl ?_ ?_
    | intro _
    | (extract_lets +onlyGivenNames z; refine Keeps.cut (W := W) (s0 := s0) (x := z) ?_ ?_; dsimp -zeta only [z]; rotate_left; clear_value z; rotate_right)
    | (extract_lets +onlyGivenNames z; clear_value z)
    | split

theorem execMul_keeps (hw : Sub 0x1c3c7e W) {n rd rs1 rs2 z s} (hs : Keeps W s0 s) : OutAll (Keeps W s0) (execMul n rd rs1 rs2 z s) := by
  unfold execMul
  repeat' first
    | with_reducible assumption
    | with_reducible refine runR_keeps (Sub.step hw rfl) ?_
    | with_reducible refine OutAll.next ?_
    | with_reducible refine Keeps.foldl ?_ ?_
    | intro _
    | (extract_lets +onlyGivenNames z; refine Keeps.cut (W := W) (s0 := s0) (x := z) ?_ ?_; dsimp -zeta only [z]; rotate_left; clear_value z; rotate_right)
    | (extract_lets +onlyGivenNames z; clear_value z)
    | split

theorem execMulhi_keeps (hw : Sub 0x1c3c7e W) {n rd rs1 rs2 z s} (hs : Keeps W s0 s) : OutAll (Keeps W s0) (execMulhi n rd rs1 rs2 z s) := by
  unfold execMulhi
  repeat' first
    | with_reducible assumption
    | with_reducible refine runR_keeps (Sub.step hw rfl) ?_
    | with_reducible refine OutAll.next ?_
    | with_reducible refine Keeps.foldl ?_ ?_
    | intro _
    | (extract_lets +onlyGivenNames z; refine Keeps.cut (W := W) (s0 := s0) (x := z) ?_ ?_; dsimp -zeta only [z]; rotate_left; clear_value z; rotate_right)
    | (extract_lets +onlyGivenNames z; clear_value z)
    | split

theorem execMulhiu_keeps (hw : Sub 0x1c3c7e W) {n rd rs1 rs2 z s} (hs : Keeps W s0 s) : OutAll (Keeps W s0) (execMulhiu n rd rs1 rs2 z s) := by
  unfold execMulhiu
  repeat' first
    | with_reducible assumption
    | with_reducible refine runR_keeps (Sub.step hw rfl) ?_
    | with_reducible refine OutAll.next ?_
    | with_reducible refine Keeps.foldl ?_ ?_
    | intro _
    | (extract_lets +onlyGivenNames z; refine Keeps.cut (W := W) (s0 := s0) (x := z) ?_ ?_; dsimp -zeta only [z]; rotate_left; clear_value z; rotate_right)
    | (extract_lets +onlyGivenNames z; clear_value z)
    | split

theorem execDiv_keeps (hw : Sub 0x1c3c7e W) {n rd rs1 rs2 z s} (hs : Keeps W s0 s) : OutAll (Keeps W s0) (execDiv n rd rs1 rs2 z s) := by
  unfold execDiv
  repeat' first
    | with_reducible assumption
    | with_reducible refine runR_keeps (Sub.step hw rfl) ?_
    | with_reducible refine OutAll.next ?_
    | with_reducible refine Keeps.foldl ?_ ?_
    | intro _
    | (extract_lets +onlyGivenNames z; refine Keeps.cut (W := W) (s0 := s0) (x := z) ?_ ?_; dsimp -zeta only [z]; rotate_left; clear_value z; rotate_right)
    | (extract_lets +onlyGivenNames z; clear_value z)
    | split

theorem execDivu_keeps (hw : Sub 0x1c3c7e W) {n rd rs1 rs2 z s} (hs : Keeps W s0 s) : OutAll (Keeps W s0) (execDivu n rd rs1 rs2 z s) := by
  unfold execDivu
  repeat' first
    | with_reducible assumption
    | with_reducible refine runR_keeps (Sub.step hw rfl) ?_
    | with_reducible refine OutAll.next ?_
    | with_reducible refine Keeps.foldl ?_ ?_
    | intro _
    | (extract_lets +onlyGivenNames z; refine Keeps.cut (W := W) (s0 := s0) (x := z) ?_ ?_; dsimp -zeta only [z]; rotate_left; clear_value z; rotate_right)
    | (extract_lets +onlyGivenNames z; clear_value z)
    | split

theorem execMod_keeps (hw : Sub 0x1c3c7e W) {n rd rs1 rs2 z s} (hs : Keeps W s0 s) : OutAll (Keeps W s0) (execMod n rd rs1 rs2 z s) := by
  unfold execMod
  repeat' first
    | with_reducible assumption
    | with_reducible refine runR_keeps (Sub.step hw rfl) ?_
    | with_reducible refine OutAll.next ?_
    | with_reducible refine Keeps.foldl ?_ ?_
    | intro _
    | (extract_lets +onlyGivenNames z; refine Keeps.cut (W := W) (s0 := s0) (x := z) ?_ ?_; dsimp -zeta only [z]; rotate_left; clear_value z; rotate_right)
    | (extract_lets +onlyGivenNames z; clear_value z)
    | split

theorem execModu_keeps (hw : Sub 0x1c3c7e W) {n rd rs1 rs2 z s} (hs : Keeps W s0 s) : OutAll (Keeps W s0) (execModu n rd rs1 rs2 z s) := by
  unfold execModu
  repeat' first
    | with_reducible assumption
    | with_reducible refine runR_keeps (Sub.step hw rfl) ?_
    | with_reducible refine OutAll.next ?_
    | with_reducible refine Keeps.foldl ?_ ?_
    | intro _
    | (extract_lets +onlyGivenNames z; refine Keeps.cut (W := W) (s0 := s0) (x := z) ?_ ?_; dsimp -zeta only [z]; rotate_left; clear_value z; rotate_right)
    | (extract_lets +onlyGivenNames z; clear_value z)
    | split

theorem execAtswap_keeps (hw : Sub 0x1c3c7e W) {n rd rs1 rs2 z s} (hs : Keeps W s0 s) : OutAll (Keeps W s0) (execAtswap n rd rs1 rs2 z s) := by
  unfold execAtswap
  repeat' first
    | with_reducible assumption
    | with_reducible refine runAtomic_keeps (Sub.step hw rfl) ?_
    | with_reducible refine OutAll.next ?_
    | with_reducible refine Keeps.foldl ?_ ?_
    | intro _
    | (extract_lets +onlyGivenNames z; refine Keeps.cut (W := W) (s0 := s0) (x := z) ?_ ?_; dsimp -zeta only [z]; rotate_left; clear_value z; rotate_right)
    | (extract_lets +onlyGivenNames z; clear_value z)
    | split

theorem execAtadd_keeps (hw : Sub 0x1c3c7e W) {n rd rs1 rs2 z s} (hs : Keeps W s0 s) : OutAll (Keeps W s0) (execAtadd n rd rs1 rs2 z s) := by
  unfold execAtadd
  repeat' first
    | with_reducible assumption
    | with_reducible refine runAtomic_keeps (Sub.step hw rfl) ?_
    | with_reducible refine OutAll.next ?_
    | with_reducible refine Keeps.foldl ?_ ?_
    | intro _
    | (extract_lets +onlyGivenNames z; refine Keeps.cut (W := W) (s0 := s0) (x := z) ?_ ?_; dsimp -zeta only [z]; rotate_left; clear_value z; rotate_right)
    | (extract_lets +onlyGivenNames z; clear_value z)
    | split

theorem execAddk_keeps (hw : Sub 0x1c3c7e W) {n rd rs1 imm s} (hs : Keeps W s0 s) : OutAll (Keeps W s0) (execAddk n rd rs1 imm s) := by
  unfold execAddk
  repeat' first
    | with_reducible assumption
    | with_reducible refine runI_keeps (Sub.step hw rfl) ?_
    | with_reducible refine OutAll.next ?_
    | with_reducible refine Keeps.foldl ?_ ?_
    | intro _
    | (extract_lets +onlyGivenNames z; refine Keeps.cut (W := W) (s0 := s0) (x := z) ?_ ?_; dsimp -zeta only [z]; rotate_left; clear_value z; rotate_right)
    | (extract_lets +onlyGivenNames z; clear_value z)
    | split

theorem execAndk_keeps (hw : Sub 0x1c3c7e W) {n rd rs1 imm s} (hs : Keeps W s0 s) : OutAll (Keeps W s0) (execAndk n rd rs1 imm s) := by
  unfold execAndk
  repeat' first
    | with_reducible assumption
    | with_reducible refine runI_keeps (Sub.step hw rfl) ?_
    | with_reducible refine OutAll.next ?_
    | with_reducible refine Keeps.foldl ?_ ?_
    | intro _
    | (extract_lets +onlyGivenNames z; refine Keeps.cut (W := W) (s0 := s0) (x := z) ?_ ?_; dsimp -zeta only [z]; rotate_left; clear_value z; rotate_right)
    | (extract_lets +onlyGivenNames z; clear_value z)
    | split

theorem execOrk_keeps (hw : Sub 0x1c3c7e W) {n rd rs1 imm s} (hs : Keeps W s0 s) : OutAll (Keeps W s0) (execOrk n rd rs1 imm s) := by
  unfold execOrk
  repeat' first
    | with_reducible assumption
    | with_reducible refine runI_keeps (Sub.step hw rfl) ?_
    | with_reducible refine OutAll.next ?_
    | with_reducible refine Keeps.foldl ?_ ?_
    | intro _
    | (extract_lets +onlyGivenNames z; refine Keeps.cut (W := W) (s0 := s0) (x := z) ?_ ?_; dsimp -zeta only [z]; rotate_left; clear_value z; rotate_right)
    | (extract_lets +onlyGivenNames z; clear_value z)
    | split

theorem execXork_keeps (hw : Sub 0x1c3c7e W) {n rd rs1 imm s} (hs : Keeps W s0 s) : OutAll (Keeps W s0) (execXork n rd rs1 imm s) := by
  unfold execXork
  repeat' first
    | with_reducible assumption
    | with_reducible refine runI_keeps (Sub.step hw rfl) ?_
    | with_reducible refine OutAll.next ?_
    | with_reducible refine Keeps.foldl ?_ ?_
    | intro _
    | (extract_lets +onlyGivenNames z; refine Keeps.cut (W := W) (s0 := s0) (x := z) ?_ ?_; dsimp -zeta only [z]; rotate_left; clear_value z; rotate_right)
    | (extract_lets +onlyGivenNames z; clear_value z)
    | split

theorem execCmpltk_keeps (hw : Sub 0x1c3c7e W) {n rd rs1 imm s} (hs : Keeps W s0 s) : OutAll (Keeps W s0) (execCmpltk n rd rs1 imm s) := by
  unfold execCmpltk
  repeat' first
    | with_reducible assumption
    | with_reducible refine runI_keeps (Sub.step hw rfl) ?_
    | with_reducible refine OutAll.next ?_
    | with_reducible refine Keeps.foldl ?_ ?_
    | intro _
    | (extract_lets +onlyGivenNames z; refine Keeps.cut (W := W) (s0 := s0) (x := z) ?_ ?_; dsimp -zeta only [z]; rotate_left; clear_value z; rotate_right)
    | (extract_lets +onlyGivenNames z; clear_value z)
    | split

theorem execCmpltuk_keeps (hw : Sub 0x1c3c7e W) {n rd rs1 imm s} (hs : Keeps W s0 s) : OutAll (Keeps W s0) (execCmpltuk n rd rs1 imm s) := by
  unfold execCmpltuk
  repeat' first
    | with_reducible assumption
    | with_reducible refine runI_keeps (Sub.step hw rfl) ?_
    | with_reducible refine OutAll.next ?_
    | with_reducible refine Keeps.foldl ?_ ?_
    | intro _
    | (extract_lets +onlyGivenNames z; refine Keeps.cut (W := W) (s0 := s0) (x := z) ?_ ?_; dsimp -zeta only [z]; rotate_left; clear_value z; rotate_right)
    | (extract_lets +onlyGivenNames z; clear_value z)
    | split

theorem execShlk_keeps (hw : Sub 0x1c3c7e W) {n rd rs1 imm s} (hs : Keeps W s0 s) : OutAll (Keeps W s0) (execShlk n rd rs1 imm s) := by
  unfold execShlk
  repeat' first
    | with_reducible assumption
    | with_reducible refine runI_keeps (Sub.step hw rfl) ?_
    | with_reducible refine OutAll.next ?_
    | with_reducible refine Keeps.foldl ?_ ?_
    | intro _
    | (extract_lets +onlyGivenNames z; refine Keeps.cut (W := W) (s0 := s0) (x := z) ?_ ?_; dsimp -zeta only [z]; rotate_left; clear_value z; rotate_right)
    | (extract_lets +onlyGivenNames z; clear_value z)
    | split

theorem execShrk_keeps (hw : Sub 0x1c3c7e W) {n rd rs1 imm s} (hs : Keeps W s0 s) : OutAll (Keeps W s0) (execShrk n rd rs1 imm s) := by
  unfold execShrk
  repeat' first
    | with_reducible assumption
    | with_reducible refine runI_keeps (Sub.step hw rfl) ?_
    | with_reducible refine OutAll.next ?_
    | with_reducible refine Keeps.foldl ?_ ?_
    | intro _
    | (extract_lets +onlyGivenNames z; refine Keeps.cut (W := W) (s0 := s0) (x := z) ?_ ?_; dsimp -zeta only [z]; rotate_left; clear_value z; rotate_right)
    | (extract_lets +onlyGivenNames z; clear_value z)
    | split

theorem execSark_keeps (hw : Sub 0x1c3c7e W) {n rd rs1 imm s} (hs : Keeps W s0 s) : OutAll (Keeps W s0) (execSark n rd rs1 imm s) := by
  unfold execSark
  repeat' first
    | with_reducible assumption
    | with_reducible refine runI_keeps (Sub.step hw rfl) ?_
    | with_reducible refine OutAll.next ?_
    | with_reducible refine Keeps.foldl ?_ ?_
    | intro _
    | (extract_lets +onlyGivenNames z; refine Keeps.cut (W := W) (s0 := s0) (x := z) ?_ ?_; dsimp -zeta only [z]; rotate_left; clear_value z; rotate_right)
    | (extract_lets +onlyGivenNames z; clear_value z)
    | split

theorem execUpk_keeps (hw : Sub 0x1c3c7e W) {n rd rs1 imm s} (hs : Keeps W s0 s) : OutAll (Keeps W s0) (execUpk n rd rs1 imm s) := by
  unfold execUpk
  repeat' first
    | with_reducible assumption
    | with_reducible refine runI_keeps (Sub.step hw rfl) ?_
    | with_reducible refine OutAll.next ?_
    | with_reducible refine Keeps.foldl ?_ ?_
    | intro _
    | (extract_lets +onlyGivenNames z; refine Keeps.cut (W := W) (s0 := s0) (x := z) ?_ ?_; dsimp -zeta only [z]; rotate_left; clear_value z; rotate_right)
    | (extract_lets +onlyGivenNames z; clear_value z)
    | split

theorem execLdw_keeps (hw : Sub 0x1c3cfe W) {n rd rs1 imm s} (hs : Keeps W s0 s) : OutAll (Keeps W s0) (execLdw n rd rs1 imm s) := by
  unfold execLdw
  repeat' first
    | with_reducible assumption
    | with_reducible refine runLoad_keeps (Sub.step hw rfl) ?_
    | with_reducible refine OutAll.next ?_
    | with_reducible refine Keeps.foldl ?_ ?_
    | intro _
    | (extract_lets +onlyGivenNames z; refine Keeps.cut (W := W) (s0 := s0) (x := z) ?_ ?_; dsimp -zeta only [z]; rotate_left; clear_value z; rotate_right)
    | (extract_lets +onlyGivenNames z; clear_value z)
    | split

theorem execLdh_keeps (hw : Sub 0x1c3cfe W) {n rd rs1 imm s} (hs : Keeps W s0 s) : OutAll (Keeps W s0) (execLdh n rd rs1 imm s) := by
  unfold execLdh
  repeat' first
    | with_reducible assumption
    | with_reducible refine runLoad_keeps (Sub.step hw rfl) ?_
    | with_reducible refine OutAll.next ?_
    | with_reducible refine Keeps.foldl ?_ ?_
    | intro _
    | (extract_lets +onlyGivenNames z; refine Keeps.cut (W := W) (s0 := s0) (x := z) ?_ ?_; dsimp -zeta only [z]; rotate_left; clear_value z; rotate_right)
    | (extract_lets +onlyGivenNames z; clear_value z)
    | split

theorem execLdhu_keeps (hw : Sub 0x1c3cfe W) {n rd rs1 imm s} (hs : Keeps W s0 s) : OutAll (Keeps W s0) (execLdhu n rd rs1 imm s) := by
  unfold execLdhu
  repeat' first
    | with_reducible assumption
    | with_reducible refine runLoad_keeps (Sub.step hw rfl) ?_
    | with_reducible refine OutAll.next ?_
    | with_reducible refine Keeps.foldl ?_ ?_
    | intro _
    | (extract_lets +onlyGivenNames z; refine Keeps.cut (W := W) (s0 := s0) (x := z) ?_ ?_; dsimp -zeta only [z]; rotate_left; clear_value z; rotate_right)
    | (extract_lets +onlyGivenNames z; clear_value z)
    | split

theorem execLdb_keeps (hw : Sub 0x1c3cfe W) {n rd rs1 imm s} (hs : Keeps W s0 s) : OutAll (Keeps W s0) (execLdb n rd rs1 imm s) := by
  unfold execLdb
  repeat' first
    | with_reducible assumption
    | with_reducible refine runLoad_keeps (Sub.step hw rfl) ?_
    | with_reducible refine OutAll.next ?_
    | with_reducible refine Keeps.foldl ?_ ?_
    | intro _
    | (extract_lets +onlyGivenNames z; refine Keeps.cut (W := W) (s0 := s0) (x := z) ?_ ?_; dsimp -zeta only [z]; rotate_left; clear_value z; rotate_right)
    | (extract_lets +onlyGivenNames z; clear_value z)
    | split

theorem execLdbu_keeps (hw : Sub 0x1c3cfe W) {n rd rs1 imm s} (hs : Keeps W s0 s) : OutAll (Keeps W s0) (execLdbu n rd rs1 imm s) := by
  unfold execLdbu
  repeat' first
    | with_reducible assumption
    | with_reducible refine runLoad_keeps (Sub.step hw rfl) ?_
    | with_reducible refine OutAll.next ?_
    | with_reducible refine Keeps.foldl ?_ ?_
    | intro _
    | (extract_lets +onlyGivenNames z; refine Keeps.cut (W := W) (s0 := s0) (x := z) ?_ ?_; dsimp -zeta only [z]; rotate_left; clear_value z; rotate_right)
    | (extract_lets +onlyGivenNames z; clear_value z)
    | split

theorem execStw_keeps (hw : Sub 0x1c3dfe W) {n rs2 rs1 imm bus s} (hs : Keeps W s0 s) : OutAll (Keeps W s0) (execStw n rs2 rs1 imm bus s) := by
  unfold execStw
  repeat' first
    | with_reducible assumption
    | with_reducible refine runStore_keeps (Sub.step hw rfl) ?_
    | with_reducible refine OutAll.next ?_
    | with_reducible refine Keeps.foldl ?_ ?_
    | intro _
    | (extract_lets +onlyGivenNames z; refine Keeps.cut (W := W) (s0 := s0) (x := z) ?_ ?_; dsimp -zeta only [z]; rotate_left; clear_value z; rotate_right)
    | (extract_lets +onlyGivenNames z; clear_value z)
    | split

theorem execSth_keeps (hw : Sub 0x1c3dfe W) {n rs2 rs1 imm bus s} (hs : Keeps W s0 s) : OutAll (Keeps W s0) (execSth n rs2 rs1 imm bus s) := by
  unfold execSth
  repeat' first
    | with_reducible assumption
    | with_reducible refine runStore_keeps (Sub.step hw rfl) ?_
    | with_reducible refine OutAll.next ?_
    | with_reducible refine Keeps.foldl ?_ ?_
    | intro _
    | (extract_lets +onlyGivenNames z; refine Keeps.cut (W := W) (s0 := s0) (x := z) ?_ ?_; dsimp -zeta only [z]; rotate_left; clear_value z; rotate_right)
    | (extract_lets +onlyGivenNames z; clear_value z)
    | split

theorem execStb_keeps (hw : Sub 0x1c3dfe W) {n rs2 rs1 imm bus s} (hs : Keeps W s0 s) : OutAll (Keeps W s0) (execStb n rs2 rs1 imm bus s) := by
  unfold execStb
  repeat' first
    | with_reducible assumption
    | with_reducible refine runStore_keeps (Sub.step hw rfl) ?_
    | with_reducible refine OutAll.next ?_
    | with_reducible refine Keeps.foldl ?_ ?_
    | intro _
    | (extract_lets +onlyGivenNames z; refine Keeps.cut (W := W) (s0 := s0) (x := z) ?_ ?_; dsimp -zeta only [z]; rotate_left; clear_value z; rotate_right)
    | (extract_lets +onlyGivenNames z; clear_value z)
    | split

theorem execBreq_keeps (hw : Sub 0x1c3c7e W) {n rs1 rs2 off s} (hs : Keeps W s0 s) : OutAll (Keeps W s0) (execBreq n rs1 rs2 off s) := by
  unfold execBreq
  repeat' first
    | with_reducible assumption
    | with_reducible refine runB_keeps (Sub.step hw rfl) ?_
    | with_reducible refine OutAll.next ?_
    | with_reducible refine Keeps.foldl ?_ ?_
    | intro _
    | (extract_lets +onlyGivenNames z; refine Keeps.cut (W := W) (s0 := s0) (x := z) ?_ ?_; dsimp -zeta only [z]; rotate_left; clear_value z; rotate_right)
    | (extract_lets +onlyGivenNames z; clear_value z)
    | split

theorem execBrne_keeps (hw : Sub 0x1c3c7e W) {n rs1 rs2 off s} (hs : Keeps W s0 s) : OutAll (Keeps W s0) (execBrne n rs1 rs2 off s) := by
  unfold execBrne
  repeat' first
    | with_reducible assumption
    | with_reducible refine runB_keeps (Sub.step hw rfl) ?_
    | with_reducible refine OutAll.next ?_
    | with_reducible refine Keeps.foldl ?_ ?_
    | intro _
    | (extract_lets +onlyGivenNames z; refine Keeps.cut (W := W) (s0 := s0) (x := z) ?_ ?_; dsimp -zeta only [z]; rotate_left; clear_value z; rotate_right)
    | (extract_lets +onlyGivenNames z; clear_value z)
    | split

theorem execBrlt_keeps (hw : Sub 0x1c3c7e W) {n rs1 rs2 off s} (hs : Keeps W s0 s) : OutAll (Keeps W s0) (execBrlt n rs1 rs2 off s) := by
  unfold execBrlt
  repeat' first
    | with_reducible assumption
    | with_reducible refine runB_keeps (Sub.step hw rfl) ?_
    | with_reducible refine OutAll.next ?_
    | with_reducible refine Keeps.foldl ?_ ?_
    | intro _
    | (extract_lets +onlyGivenNames z; refine Keeps.cut (W := W) (s0 := s0) (x := z) ?_ ?_; dsimp -zeta only [z]; rotate_left; clear_value z; rotate_right)
    | (extract_lets +onlyGivenNames z; clear_value z)
    | split

theorem execBrge_keeps (hw : Sub 0x1c3c7e W) {n rs1 rs2 off s} (hs : Keeps W s0 s) : OutAll (Keeps W s0) (execBrge n rs1 rs2 off s) := by
  unfold execBrge
  repeat' first
    | with_reducible assumption
    | with_reducible refine runB_keeps (Sub.step hw rfl) ?_
    | with_reducible refine OutAll.next ?_
    | with_reducible refine Keeps.foldl ?_ ?_
    | intro _
    | (extract_lets +onlyGivenNames z; refine Keeps.cut (W := W) (s0 := s0) (x := z) ?_ ?_; dsimp -zeta only [z]; rotate_left; clear_value z; rotate_right)
    | (extract_lets +onlyGivenNames z; clear_value z)
    | split

theorem execBrltu_keeps (hw : Sub 0x1c3c7e W) {n rs1 rs2 off s} (hs : Keeps W s0 s) : OutAll (Keeps W s0) (execBrltu n rs1 rs2 off s) := by
  unfold execBrltu
  repeat' first
    | with_reducible assumption
    | with_reducible refine runB_keeps (Sub.step hw rfl) ?_
    | with_reducible refine OutAll.next ?_
    | with_reducible refine Keeps.foldl ?_ ?_
    | intro _
    | (extract_lets +onlyGivenNames z; refine Keeps.cut (W := W) (s0 := s0) (x := z) ?_ ?_; dsimp -zeta only [z]; rotate_left; clear_value z; rotate_right)
    | (extract_lets +onlyGivenNames z; clear_value z)
    | split

theorem execBrgeu_keeps (hw : Sub 0x1c3c7e W) {n rs1 rs2 off s} (hs : Keeps W s0 s) : OutAll (Keeps W s0) (execBrgeu n rs1 rs2 off s) := by
  unfold execBrgeu
  repeat' first
    | with_reducible assumption
    | with_reducible refine runB_keeps (Sub.step hw rfl) ?_
    | with_reducible refine OutAll.next ?_
    | with_reducible refine Keeps.foldl ?_ ?_
    | intro _
    | (extract_lets +onlyGivenNames z; refine Keeps.cut (W := W) (s0 := s0) (x := z) ?_ ?_; dsimp -zeta only [z]; rotate_left; clear_value z; rotate_right)
    | (extract_lets +onlyGivenNames z; clear_value z)
    | split

theorem execJmp_keeps (hw : Sub 0x1c3c7e W) {n off s} (hs : Keeps W s0 s) : OutAll (Keeps W s0) (execJmp n off s) := by
  unfold execJmp
  repeat' first
    | with_reducible assumption
    | with_reducible refine runInstr_keeps (Sub.step hw rfl) ?_ ?_
    | with_reducible refine Eff.all_jump ?_
    | intro _

theorem execCall_keeps (hw : Sub 0x1c3c7e W) {n off s} (hs : Keeps W s0 s) : OutAll (Keeps W s0) (execCall n off s) := by
  unfold execCall
  repeat' first
    | with_reducible assumption
    | with_reducible refine runInstr_keeps (Sub.step hw rfl) ?_ ?_
    | with_reducible refine putReg_keeps (Sub.step hw rfl) ?_
    | with_reducible refine Eff.all_jump ?_
    | intro _

theorem execCallr_keeps (hw : Sub 0x1c3c7e W) {n rd rs1 imm s} (hs : Keeps W s0 s) : OutAll (Keeps W s0) (execCallr n rd rs1 imm s) := by
  unfold execCallr
  repeat' first
    | with_reducible assumption
    | with_reducible refine runInstr_keeps (Sub.step hw rfl) ?_ ?_
    | with_reducible refine putReg_keeps (Sub.step hw rfl) ?_
    | with_reducible refine Eff.all_jump ?_
    | intro _

theorem execLoop_keeps (hw : Sub 0x1c3c7e W) {n z rs1 z' off s} (hs : Keeps W s0 s) : OutAll (Keeps W s0) (execLoop n z rs1 z' off s) := by
  unfold execLoop
  repeat' first
    | with_reducible assumption
    | with_reducible refine runInstr_keeps (Sub.step hw rfl) ?_ ?_
    | with_reducible refine loopStart_keeps (Sub.step hw rfl) ?_
    | with_reducible refine Eff.out_done (P := Keeps W s0) (by assumption) ?_
    | with_reducible refine Eff.out_jump (P := Keeps W s0) (by assumption) ?_
    | with_reducible refine Eff.out_goto (P := Keeps W s0) (by assumption) ?_
    | with_reducible refine Eff.out_exc (P := Keeps W s0) (by assumption) ?_
    | with_reducible refine Eff.out_moved (P := Keeps W s0) (by assumption) ?_
    | with_reducible refine OutAll.next ?_
    | with_reducible refine Keeps.foldl ?_ ?_
    | intro _
    | (extract_lets +onlyGivenNames z; refine Keeps.cut (W := W) (s0 := s0) (x := z) ?_ ?_; dsimp -zeta only [z]; rotate_left; clear_value z; rotate_right)
    | (extract_lets +onlyGivenNames z; clear_value z)
    | split

theorem execLoopi_keeps (hw : Sub 0x1c3c7e W) {n count off s} (hs : Keeps W s0 s) : OutAll (Keeps W s0) (execLoopi n count off s) := by
  unfold execLoopi
  repeat' first
    | with_reducible assumption
    | with_reducible refine runInstr_keeps (Sub.step hw rfl) ?_ ?_
    | with_reducible refine loopStart_keeps (Sub.step hw rfl) ?_
    | with_reducible refine Eff.out_done (P := Keeps W s0) (by assumption) ?_
    | with_reducible refine Eff.out_jump (P := Keeps W s0) (by assumption) ?_
    | with_reducible refine Eff.out_goto (P := Keeps W s0) (by assumption) ?_
    | with_reducible refine Eff.out_exc (P := Keeps W s0) (by assumption) ?_
    | with_reducible refine Eff.out_moved (P := Keeps W s0) (by assumption) ?_
    | with_reducible refine OutAll.next ?_
    | with_reducible refine Keeps.foldl ?_ ?_
    | intro _
    | (extract_lets +onlyGivenNames z; refine Keeps.cut (W := W) (s0 := s0) (x := z) ?_ ?_; dsimp -zeta only [z]; rotate_left; clear_value z; rotate_right)
    | (extract_lets +onlyGivenNames z; clear_value z)
    | split

theorem execRdcr_keeps (hw : Sub 0x1c3c7e W) {n rd rs1 z csr s} (hs : Keeps W s0 s) : OutAll (Keeps W s0) (execRdcr n rd rs1 z csr s) := by
  unfold execRdcr
  repeat' first
    | with_reducible assumption
    | with_reducible refine runC_keeps (Sub.step hw rfl) ?_
    | with_reducible refine OutAll.next ?_
    | with_reducible refine Keeps.foldl ?_ ?_
    | intro _
    | (extract_lets +onlyGivenNames z; refine Keeps.cut (W := W) (s0 := s0) (x := z) ?_ ?_; dsimp -zeta only [z]; rotate_left; clear_value z; rotate_right)
    | (extract_lets +onlyGivenNames z; clear_value z)
    | split

theorem execWrcr_keeps (hw : Sub 0x1c3c7e W) {n rd rs1 z csr s} (hs : Keeps W s0 s) : OutAll (Keeps W s0) (execWrcr n rd rs1 z csr s) := by
  unfold execWrcr
  repeat' first
    | with_reducible assumption
    | with_reducible refine runC_keeps (Sub.step hw rfl) ?_
    | with_reducible refine OutAll.next ?_
    | with_reducible refine Keeps.foldl ?_ ?_
    | intro _
    | (extract_lets +onlyGivenNames z; refine Keeps.cut (W := W) (s0 := s0) (x := z) ?_ ?_; dsimp -zeta only [z]; rotate_left; clear_value z; rotate_right)
    | (extract_lets +onlyGivenNames z; clear_value z)
    | split

theorem execSetcr_keeps (hw : Sub 0x1c3c7e W) {n rd rs1 z csr s} (hs : Keeps W s0 s) : OutAll (Keeps W s0) (execSetcr n rd rs1 z csr s) := by
  unfold execSetcr
  repeat' first
    | with_reducible assumption
    | with_reducible refine runC_keeps (Sub.step hw rfl) ?_
    | with_reducible refine OutAll.next ?_
    | with_reducible refine Keeps.foldl ?_ ?_
    | intro _
    | (extract_lets +onlyGivenNames z; refine Keeps.cut (W := W) (s0 := s0) (x := z) ?_ ?_; dsimp -zeta only [z]; rotate_left; clear_value z; rotate_right)
    | (extract_lets +onlyGivenNames z; clear_value z)
    | split

theorem execClrcr_keeps (hw : Sub 0x1c3c7e W) {n rd rs1 z csr s} (hs : Keeps W s0 s) : OutAll (Keeps W s0) (execClrcr n rd rs1 z csr s) := by
  unfold execClrcr
  repeat' first
    | with_reducible assumption
    | with_reducible refine runC_keeps (Sub.step hw rfl) ?_
    | with_reducible refine OutAll.next ?_
    | with_reducible refine Keeps.foldl ?_ ?_
    | intro _
    | (extract_lets +onlyGivenNames z; refine Keeps.cut (W := W) (s0 := s0) (x := z) ?_ ?_; dsimp -zeta only [z]; rotate_left; clear_value z; rotate_right)
    | (extract_lets +onlyGivenNames z; clear_value z)
    | split

theorem execXret_keeps (hw : Sub 0x1c3c7e W) {n z s} (hs : Keeps W s0 s) : OutAll (Keeps W s0) (execXret n z s) := by
  unfold execXret
  repeat' first
    | with_reducible assumption
    | with_reducible refine runInstr_keeps (Sub.step hw rfl) ?_ ?_
    | with_reducible refine takeLate_keeps (Sub.step hw rfl) ?_
    | with_reducible refine takeTrap_keeps (Sub.step hw rfl) ?_
    | with_reducible refine charge_keeps (Sub.step hw rfl) ?_
    | with_reducible refine coreMod_keeps (Sub.step hw rfl) ?_ ?_
    | with_reducible refine Eff.all_moved ?_
    | intro _
    | (extract_lets +onlyGivenNames z; clear_value z)
    | split

theorem execTrap_keeps (hw : Sub 0x1c3c7e W) {n z imm s} (hs : Keeps W s0 s) : OutAll (Keeps W s0) (execTrap n z imm s) := by
  unfold execTrap
  repeat' first
    | with_reducible assumption
    | with_reducible refine runInstr_keeps (Sub.step hw rfl) ?_ ?_
    | with_reducible refine trapOrLate_keeps (Sub.step hw rfl) ?_
    | with_reducible refine Eff.all_moved ?_
    | intro _

theorem execWait_keeps (hw : Sub 0x1c3c7e W) {n z s} (hs : Keeps W s0 s) : OutAll (Keeps W s0) (execWait n z s) := by
  unfold execWait
  repeat' first
    | with_reducible assumption
    | with_reducible refine runInstr_keeps (Sub.step hw rfl) ?_ ?_
    | with_reducible refine coreMod_keeps (Sub.step hw rfl) ?_ ?_
    | with_reducible refine Eff.all_done ?_
    | intro _

theorem execSync_keeps (hw : Sub 0x1c3c7e W) {n z s} (hs : Keeps W s0 s) : OutAll (Keeps W s0) (execSync n z s) := by
  unfold execSync
  repeat' first
    | with_reducible assumption
    | with_reducible refine runInstr_keeps (Sub.step hw rfl) ?_ ?_
    | with_reducible refine takeLate_keeps (Sub.step hw rfl) ?_
    | with_reducible refine Eff.all_done ?_
    | with_reducible refine Eff.all_moved ?_
    | intro _
    | split

theorem execTagw_keeps (hw : Sub 0x1c3c7e W) {n z rs1 rs2 z' s} (hs : Keeps W s0 s) : OutAll (Keeps W s0) (execTagw n z rs1 rs2 z' s) := by
  unfold execTagw
  repeat' first
    | with_reducible assumption
    | with_reducible refine runInstr_keeps (Sub.step hw rfl) ?_ ?_
    | with_reducible refine takeLate_keeps (Sub.step hw rfl) ?_
    | with_reducible refine setColour_keeps (Sub.step hw rfl) ?_
    | with_reducible refine Eff.all_done ?_
    | with_reducible refine Eff.all_exc ?_
    | with_reducible refine Eff.all_moved ?_
    | intro _
    | (extract_lets +onlyGivenNames z; clear_value z)
    | split

theorem execTagr_keeps (hw : Sub 0x1c3c7e W) {n rd rs1 z s} (hs : Keeps W s0 s) : OutAll (Keeps W s0) (execTagr n rd rs1 z s) := by
  unfold execTagr
  repeat' first
    | with_reducible assumption
    | with_reducible refine runInstr_keeps (Sub.step hw rfl) ?_ ?_
    | with_reducible refine putReg_keeps (Sub.step hw rfl) ?_
    | with_reducible refine Eff.all_done ?_
    | with_reducible refine Eff.all_exc ?_
    | intro _
    | (extract_lets +onlyGivenNames z; clear_value z)
    | split

theorem execLateWrite_keeps (hw : Sub 0x1c3c7e W) {n s} (hs : Keeps W s0 s) : OutAll (Keeps W s0) (execLateWrite n s) := by
  unfold execLateWrite
  repeat' first
    | with_reducible assumption
    | with_reducible refine takeLate_keeps (Sub.step hw rfl) ?_
    | with_reducible refine OutAll.next ?_
    | with_reducible refine Keeps.foldl ?_ ?_
    | intro _
    | (extract_lets +onlyGivenNames z; refine Keeps.cut (W := W) (s0 := s0) (x := z) ?_ ?_; dsimp -zeta only [z]; rotate_left; clear_value z; rotate_right)
    | (extract_lets +onlyGivenNames z; clear_value z)
    | split

theorem irqArrives_keeps (hw : Sub 0x400 W) {n i s} (hs : Keeps W s0 s) : Keeps W s0 (irqArrives n i s) := by
  unfold irqArrives
  repeat' first
    | with_reducible assumption
    | with_reducible refine State.modWarden_keeps (Sub.step hw rfl) ?_ ?_ ?_
    | with_reducible refine coreMod_keeps (Sub.step hw rfl) ?_ ?_
    | with_reducible refine Keeps.foldl ?_ ?_
    | exact ‹Warden.coresWf _›
    | exact ‹List.length _ = 16›
    | exact Core.setReg_length ‹_›
    | intro _
    | (extract_lets +onlyGivenNames z; refine Keeps.cut (W := W) (s0 := s0) (x := z) ?_ ?_; dsimp -zeta only [z]; rotate_left; clear_value z; rotate_right)
    | (extract_lets +onlyGivenNames z; clear_value z)
    | split

theorem execInterrupt_keeps (hw : Sub 0x1c3c7e W) {n src s} (hs : Keeps W s0 s) : OutAll (Keeps W s0) (execInterrupt n src s) := by
  unfold execInterrupt
  repeat' first
    | with_reducible assumption
    | with_reducible refine irqArrives_keeps (Sub.step hw rfl) ?_
    | with_reducible refine coreMod_keeps (Sub.step hw rfl) ?_ ?_
    | with_reducible refine trapOrLate_keeps (Sub.step hw rfl) ?_
    | with_reducible refine OutAll.next ?_
    | with_reducible refine Keeps.foldl ?_ ?_
    | exact ‹Warden.coresWf _›
    | exact ‹List.length _ = 16›
    | exact Core.setReg_length ‹_›
    | intro _
    | (extract_lets +onlyGivenNames z; refine Keeps.cut (W := W) (s0 := s0) (x := z) ?_ ?_; dsimp -zeta only [z]; rotate_left; clear_value z; rotate_right)
    | (extract_lets +onlyGivenNames z; clear_value z)
    | split

theorem dmaCheck_keeps (hw : Sub 0xc2826 W) {k write a s} (hs : Keeps W s0 s) : DmaAns.All (Keeps W s0) (dmaCheck k write a s) := by
  unfold dmaCheck
  dsimp only
  repeat' first
    | with_reducible assumption
    | with_reducible refine flashSense_keeps (Sub.step hw rfl) ?_
    | with_reducible refine PairAll.out (P := Keeps W s0) (by assumption) ?_
    | with_reducible refine DmaAns.all_ok ?_
    | exact DmaAns.all_refused
    | with_reducible refine DmaAns.all_uncorrectable ?_
    | split

theorem dmaRun_keeps (hw : Sub 0xc2c26 W) {n write x2 x3 x4 x5 s} (hs : Keeps W s0 s) : Keeps W s0 (dmaRun n write x2 x3 x4 x5 s) := by
  induction x2 generalizing n write x3 x4 x5 s with
  | zero =>
   rw [dmaRun]
   exact hs
  | succ m ih =>
   rw [dmaRun]
   repeat' first
    | with_reducible refine ih ?_
    | with_reducible assumption
    | with_reducible refine dmaCheck_keeps (Sub.step hw rfl) ?_
    | with_reducible refine addLate_keeps (Sub.step hw rfl) ?_
    | with_reducible refine sramWrite_keeps (Sub.step hw rfl) ?_
    | with_reducible refine DmaAns.out_ok (P := Keeps W s0) (by assumption) ?_
    | with_reducible refine DmaAns.out_uncorrectable (P := Keeps W s0) (by assumption) ?_
    | with_reducible refine Keeps.foldl ?_ ?_
    | intro _
    | (extract_lets +onlyGivenNames z; refine Keeps.cut (W := W) (s0 := s0) (x := z) ?_ ?_; dsimp -zeta only [z]; rotate_left; clear_value z; rotate_right)
    | (extract_lets +onlyGivenNames z; clear_value z)
    | split

theorem execDmaDone_keeps (hw : Sub 0xc2c26 W) {n a data len s} (hs : Keeps W s0 s) : OutAll (Keeps W s0) (execDmaDone n a data len s) := by
  unfold execDmaDone
  repeat' first
    | with_reducible assumption
    | with_reducible refine dmaRun_keeps (Sub.step hw rfl) ?_
    | with_reducible refine coreMod_keeps (Sub.step hw rfl) ?_ ?_
    | with_reducible refine OutAll.next ?_
    | with_reducible refine Keeps.foldl ?_ ?_
    | exact ‹Warden.coresWf _›
    | exact ‹List.length _ = 16›
    | exact Core.setReg_length ‹_›
    | intro _
    | (extract_lets +onlyGivenNames z; refine Keeps.cut (W := W) (s0 := s0) (x := z) ?_ ?_; dsimp -zeta only [z]; rotate_left; clear_value z; rotate_right)
    | (extract_lets +onlyGivenNames z; clear_value z)
    | split

end Sys2Proof.Machine
end

