-- ==== Sys2Proof/Laws/FrameLink.lean ====
section
/-! SUPPORT. The frame of every operation of Machine/Link.lean: the parts it may write, and what it keeps (`Keeps`). -/
namespace Sys2Proof.Machine

set_option linter.tactic.unusedName false
variable {W : Nat} {s0 : State}

theorem hostWrite_keeps (hw : Sub 0x1c3dde W) {p k s} (hs : Keeps W s0 s) : Keeps W s0 (hostWrite p k s) := by
  unfold hostWrite
  repeat' first
    | with_reducible assumption
    | with_reducible refine submit_keeps (Sub.step hw rfl) ?_
    | with_reducible refine Keeps.foldl ?_ ?_
    | intro _
    | (extract_lets +onlyGivenNames z; refine Keeps.cut (W := W) (s0 := s0) (x := z) ?_ ?_; dsimp -zeta only [z]; rotate_left; clear_value z; rotate_right)
    | (extract_lets +onlyGivenNames z; clear_value z)
    | split

theorem hostRead_keeps (hw : Sub 0x1c3dde W) {p k s} (hs : Keeps W s0 s) : Keeps W s0 (hostRead p k s) := by
  unfold hostRead
  repeat' first
    | with_reducible assumption
    | with_reducible refine answer_keeps (Sub.step hw rfl) ?_
    | with_reducible refine devErr_keeps (Sub.step hw rfl) ?_
    | with_reducible refine submit_keeps (Sub.step hw rfl) ?_
    | with_reducible refine Keeps.foldl ?_ ?_
    | intro _
    | (extract_lets +onlyGivenNames z; refine Keeps.cut (W := W) (s0 := s0) (x := z) ?_ ?_; dsimp -zeta only [z]; rotate_left; clear_value z; rotate_right)
    | (extract_lets +onlyGivenNames z; clear_value z)
    | split

theorem entriesArrive_keeps (hw : Sub 0x83c5e W) {cst x1 x2 s} (hs : Keeps W s0 s) : Keeps W s0 (entriesArrive cst x1 x2 s) := by
  induction x1 generalizing cst x2 s with
  | nil =>
   rw [entriesArrive]
   first
    | exact hs
  | cons x xs ih =>
   rw [entriesArrive]
   repeat' first
    | with_reducible refine ih ?_
    | with_reducible assumption
    | with_reducible refine entryArrive_keeps (Sub.step hw rfl) ?_
    | with_reducible refine entryOver_keeps (Sub.step hw rfl) ?_
    | with_reducible refine Keeps.foldl ?_ ?_
    | intro _
    | (extract_lets +onlyGivenNames z; refine Keeps.cut (W := W) (s0 := s0) (x := z) ?_ ?_; dsimp -zeta only [z]; rotate_left; clear_value z; rotate_right)
    | (extract_lets +onlyGivenNames z; clear_value z)
    | split

theorem readFinish_keeps (hw : Sub 0x83c5e W) {m cst s} (hs : Keeps W s0 s) : Keeps W s0 (readFinish m cst s) := by
  unfold readFinish
  repeat' first
    | with_reducible assumption
    | with_reducible refine entriesArrive_keeps (Sub.step hw rfl) ?_
    | with_reducible refine readArrive_keeps (Sub.step hw rfl) ?_
    | with_reducible refine readOver_keeps (Sub.step hw rfl) ?_
    | with_reducible refine Keeps.foldl ?_ ?_
    | intro _
    | (extract_lets +onlyGivenNames z; refine Keeps.cut (W := W) (s0 := s0) (x := z) ?_ ?_; dsimp -zeta only [z]; rotate_left; clear_value z; rotate_right)
    | (extract_lets +onlyGivenNames z; clear_value z)
    | split

theorem cplArrive_keeps (hw : Sub 0x83c5e W) {p k s} (hs : Keeps W s0 s) : Keeps W s0 (cplArrive p k s) := by
  unfold cplArrive
  repeat' first
    | with_reducible assumption
    | with_reducible refine readFinish_keeps (Sub.step hw rfl) ?_
    | with_reducible refine State.modPorts_keeps (Sub.step hw rfl) ?_
    | with_reducible refine issueReads_keeps (Sub.step hw rfl) ?_
    | with_reducible refine Keeps.foldl ?_ ?_
    | intro _
    | (extract_lets +onlyGivenNames z; refine Keeps.cut (W := W) (s0 := s0) (x := z) ?_ ?_; dsimp -zeta only [z]; rotate_left; clear_value z; rotate_right)
    | (extract_lets +onlyGivenNames z; clear_value z)
    | split

theorem flushArrive_keeps (hw : Sub 0x6 W) {p tag s} (hs : Keeps W s0 s) : Keeps W s0 (flushArrive p tag s) := by
  unfold flushArrive
  repeat' first
    | with_reducible assumption
    | with_reducible refine flushAcked_keeps (Sub.step hw rfl) ?_
    | with_reducible refine Keeps.foldl ?_ ?_
    | intro _
    | (extract_lets +onlyGivenNames z; refine Keeps.cut (W := W) (s0 := s0) (x := z) ?_ ?_; dsimp -zeta only [z]; rotate_left; clear_value z; rotate_right)
    | (extract_lets +onlyGivenNames z; clear_value z)
    | split

theorem packetArrive_keeps (hw : Sub 0x1c3dde W) {p s k} (hs : Keeps W s0 s) : Keeps W s0 (packetArrive p s k) := by
  unfold packetArrive
  repeat' first
    | with_reducible assumption
    | with_reducible refine hostWrite_keeps (Sub.step hw rfl) ?_
    | with_reducible refine hostRead_keeps (Sub.step hw rfl) ?_
    | with_reducible refine cplArrive_keeps (Sub.step hw rfl) ?_
    | with_reducible refine State.modPort_keeps (Sub.step hw rfl) ?_
    | with_reducible refine flushArrive_keeps (Sub.step hw rfl) ?_
    | with_reducible refine Keeps.foldl ?_ ?_
    | intro _
    | (extract_lets +onlyGivenNames z; refine Keeps.cut (W := W) (s0 := s0) (x := z) ?_ ?_; dsimp -zeta only [z]; rotate_left; clear_value z; rotate_right)
    | (extract_lets +onlyGivenNames z; clear_value z)
    | split

theorem flitServe_keeps (hw : Sub 0x1c3dde W) {p s} (hs : Keeps W s0 s) : Keeps W s0 (flitServe p s) := by
  unfold flitServe
  dsimp only
  repeat' first
    | with_reducible assumption
    | with_reducible refine rxTake_keeps (Sub.step hw rfl) ?_
    | with_reducible refine packetArrive_keeps (Sub.step hw rfl) ?_
    | with_reducible refine State.modPort_keeps (Sub.step hw rfl) ?_
    | with_reducible refine PairAll.snd (P := Keeps W s0) (p := rxTake _ _) ?_
    | with_reducible refine PairAll.out (P := Keeps W s0) (by assumption) ?_
    | with_reducible refine Keeps.foldl ?_ ?_
    | intro _
    | (extract_lets +onlyGivenNames z; refine Keeps.cut (W := W) (s0 := s0) (x := z) ?_ ?_; dsimp -zeta only [z]; rotate_left; clear_value z; rotate_right)
    | (extract_lets +onlyGivenNames z; clear_value z)
    | split

theorem execFlitReceive_keeps (hw : Sub 0x1c3dde W) {p flit s} (hs : Keeps W s0 s) : OutAll (Keeps W s0) (execFlitReceive p flit s) := by
  unfold execFlitReceive
  repeat' first
    | with_reducible assumption
    | with_reducible refine sendNak_keeps (Sub.step hw rfl) ?_
    | with_reducible refine bump_keeps (Sub.step hw rfl) ?_
    | with_reducible refine flitTake_keeps (Sub.step hw rfl) ?_
    | with_reducible refine flitServe_keeps (Sub.step hw rfl) ?_
    | with_reducible refine OutAll.next ?_
    | with_reducible refine Keeps.foldl ?_ ?_
    | intro _
    | (extract_lets +onlyGivenNames z; refine Keeps.cut (W := W) (s0 := s0) (x := z) ?_ ?_; dsimp -zeta only [z]; rotate_left; clear_value z; rotate_right)
    | (extract_lets +onlyGivenNames z; clear_value z)
    | split

end Sys2Proof.Machine
end

