-- ==== Sys2Proof/Laws/FrameRngRows.lean ====
section
/-! SUPPORT. The frame of every operation of Machine/RngRows.lean: the parts it may write, and what it keeps (`Keeps`). -/
namespace Sys2Proof.Machine

set_option linter.tactic.unusedName false
variable {W : Nat} {s0 : State}

theorem rngRow_keeps (hw : Sub 0x1c3dde W) {f s} (hs : Keeps W s0 s) (hf : ∀ u, Keeps W s0 u → Keeps W s0 (f u)) : OutAll (Keeps W s0) (rngRow f s) := by
  unfold rngRow
  repeat' first
    | with_reducible assumption
    | with_reducible apply hf
    | with_reducible refine onMain_keeps ?_ ?_
    | with_reducible refine drainBehind_keeps (Sub.step hw rfl) ?_
    | with_reducible refine OutAll.next ?_
    | with_reducible refine Keeps.foldl ?_ ?_
    | intro _
    | (extract_lets +onlyGivenNames z; refine Keeps.cut (W := W) (s0 := s0) (x := z) ?_ ?_; dsimp -zeta only [z]; rotate_left; clear_value z; rotate_right)
    | (extract_lets +onlyGivenNames z; clear_value z)
    | split

theorem execRngHealthFail_keeps (hw : Sub 0x1c3dde W) {s} (hs : Keeps W s0 s) : OutAll (Keeps W s0) (execRngHealthFail s) := by
  unfold execRngHealthFail
  repeat' first
    | with_reducible assumption
    | with_reducible refine rngRow_keeps (Sub.step hw rfl) ?_ ?_
    | with_reducible refine healthRow_keeps (Sub.step hw rfl) ?_
    | with_reducible refine OutAll.next ?_
    | with_reducible refine Keeps.foldl ?_ ?_
    | intro _
    | (extract_lets +onlyGivenNames z; refine Keeps.cut (W := W) (s0 := s0) (x := z) ?_ ?_; dsimp -zeta only [z]; rotate_left; clear_value z; rotate_right)
    | (extract_lets +onlyGivenNames z; clear_value z)
    | split

theorem execEstimateWindowEnd_keeps (hw : Sub 0x1c3dde W) {x s} (hs : Keeps W s0 s) : OutAll (Keeps W s0) (execEstimateWindowEnd x s) := by
  unfold execEstimateWindowEnd
  repeat' first
    | with_reducible assumption
    | with_reducible refine rngRow_keeps (Sub.step hw rfl) ?_ ?_
    | with_reducible refine windowRow_keeps (Sub.step hw rfl) ?_
    | with_reducible refine OutAll.next ?_
    | with_reducible refine Keeps.foldl ?_ ?_
    | intro _
    | (extract_lets +onlyGivenNames z; refine Keeps.cut (W := W) (s0 := s0) (x := z) ?_ ?_; dsimp -zeta only [z]; rotate_left; clear_value z; rotate_right)
    | (extract_lets +onlyGivenNames z; clear_value z)
    | split

theorem execStartupTestDone_keeps (hw : Sub 0x1c3dfe W) {x s} (hs : Keeps W s0 s) : OutAll (Keeps W s0) (execStartupTestDone x s) := by
  unfold execStartupTestDone
  repeat' first
    | with_reducible assumption
    | with_reducible refine rngRow_keeps (Sub.step hw rfl) ?_ ?_
    | with_reducible refine startupRow_keeps (Sub.step hw rfl) ?_
    | with_reducible refine OutAll.next ?_
    | with_reducible refine Keeps.foldl ?_ ?_
    | intro _
    | (extract_lets +onlyGivenNames z; refine Keeps.cut (W := W) (s0 := s0) (x := z) ?_ ?_; dsimp -zeta only [z]; rotate_left; clear_value z; rotate_right)
    | (extract_lets +onlyGivenNames z; clear_value z)
    | split

theorem execDrbgInstantiate_keeps (hw : Sub 0x1c3dde W) {s} (hs : Keeps W s0 s) : OutAll (Keeps W s0) (execDrbgInstantiate s) := by
  unfold execDrbgInstantiate
  repeat' first
    | with_reducible assumption
    | with_reducible refine rngRow_keeps (Sub.step hw rfl) ?_ ?_
    | with_reducible refine instantiateRow_keeps (Sub.step hw rfl) ?_
    | with_reducible refine OutAll.next ?_
    | with_reducible refine Keeps.foldl ?_ ?_
    | intro _
    | (extract_lets +onlyGivenNames z; refine Keeps.cut (W := W) (s0 := s0) (x := z) ?_ ?_; dsimp -zeta only [z]; rotate_left; clear_value z; rotate_right)
    | (extract_lets +onlyGivenNames z; clear_value z)
    | split

theorem execReseed_keeps (hw : Sub 0x1c3dde W) {s} (hs : Keeps W s0 s) : OutAll (Keeps W s0) (execReseed s) := by
  unfold execReseed
  repeat' first
    | with_reducible assumption
    | with_reducible refine rngRow_keeps (Sub.step hw rfl) ?_ ?_
    | with_reducible refine reseedRow_keeps (Sub.step hw rfl) ?_
    | with_reducible refine OutAll.next ?_
    | with_reducible refine Keeps.foldl ?_ ?_
    | intro _
    | (extract_lets +onlyGivenNames z; refine Keeps.cut (W := W) (s0 := s0) (x := z) ?_ ?_; dsimp -zeta only [z]; rotate_left; clear_value z; rotate_right)
    | (extract_lets +onlyGivenNames z; clear_value z)
    | split

end Sys2Proof.Machine
end

