-- ==== Sys2Proof/Laws/FrameServices.lean ====
section
/-! SUPPORT. The frame of every operation of Machine/Services.lean: the parts it may write, and what it keeps (`Keeps`). -/
namespace Sys2Proof.Machine

set_option linter.tactic.unusedName false
variable {W : Nat} {s0 : State}

theorem service_keeps (hw : Sub 0x80000 W) {core n f s} (hs : Keeps W s0 s) (hf : ∀ a0 u, Keeps W s0 u → Keeps W s0 (f a0 u)) : OutAll (Keeps W s0) (service core n f s) := by
  unfold service
  repeat' first
    | with_reducible assumption
    | with_reducible apply hf
    | with_reducible refine bump_keeps (Sub.step hw rfl) ?_
    | with_reducible refine OutAll.next ?_
    | with_reducible refine Keeps.foldl ?_ ?_
    | intro _
    | (extract_lets +onlyGivenNames z; refine Keeps.cut (W := W) (s0 := s0) (x := z) ?_ ?_; dsimp -zeta only [z]; rotate_left; clear_value z; rotate_right)
    | (extract_lets +onlyGivenNames z; clear_value z)
    | split

theorem execExit_keeps (hw : Sub 0x183c5e W) {core s} (hs : Keeps W s0 s) : OutAll (Keeps W s0) (execExit core s) := by
  unfold execExit
  repeat' first
    | with_reducible assumption
    | with_reducible refine service_keeps (Sub.step hw rfl) ?_ ?_
    | with_reducible refine endInv_keeps (Sub.step hw rfl) ?_
    | with_reducible refine OutAll.next ?_
    | with_reducible refine Keeps.foldl ?_ ?_
    | intro _
    | (extract_lets +onlyGivenNames z; refine Keeps.cut (W := W) (s0 := s0) (x := z) ?_ ?_; dsimp -zeta only [z]; rotate_left; clear_value z; rotate_right)
    | (extract_lets +onlyGivenNames z; clear_value z)
    | split

theorem execServiceCall_keeps (hw : Sub 0x83c5e W) {core s} (hs : Keeps W s0 s) : OutAll (Keeps W s0) (execServiceCall core s) := by
  unfold execServiceCall
  dsimp only
  repeat' first
    | with_reducible assumption
    | with_reducible refine service_keeps (Sub.step hw rfl) ?_ ?_
    | with_reducible refine svcReturn_keeps (Sub.step hw rfl) ?_
    | with_reducible refine coreMod_keeps (Sub.step hw rfl) ?_ ?_
    | with_reducible refine State.modCmdif_keeps (Sub.step hw rfl) ?_
    | with_reducible refine finish_keeps (Sub.step hw rfl) ?_
    | with_reducible refine OutAll.next ?_
    | with_reducible refine Keeps.foldl ?_ ?_
    | exact ‹Warden.coresWf _›
    | exact ‹List.length _ = 16›
    | exact Core.setReg_length ‹_›
    | intro _
    | (extract_lets +onlyGivenNames z; refine Keeps.cut (W := W) (s0 := s0) (x := z) ?_ ?_; dsimp -zeta only [z]; rotate_left; clear_value z; rotate_right)
    | (extract_lets +onlyGivenNames z; clear_value z)
    | split

theorem execRandom_keeps (hw : Sub 0x80480 W) {core s} (hs : Keeps W s0 s) : OutAll (Keeps W s0) (execRandom core s) := by
  unfold execRandom
  repeat' first
    | with_reducible assumption
    | with_reducible refine service_keeps (Sub.step hw rfl) ?_ ?_
    | with_reducible refine svcReturn_keeps (Sub.step hw rfl) ?_
    | with_reducible refine drawKey_keeps (Sub.step hw rfl) ?_
    | with_reducible refine sramWrite_keeps (Sub.step hw rfl) ?_
    | with_reducible refine Draw.out_ok (P := Keeps W s0) (by assumption) ?_
    | with_reducible refine Draw.out_wait (P := Keeps W s0) (by assumption) ?_
    | with_reducible refine Draw.out_stopped (P := Keeps W s0) (by assumption) ?_
    | with_reducible refine OutAll.next ?_
    | with_reducible refine Keeps.foldl ?_ ?_
    | intro _
    | (extract_lets +onlyGivenNames z; refine Keeps.cut (W := W) (s0 := s0) (x := z) ?_ ?_; dsimp -zeta only [z]; rotate_left; clear_value z; rotate_right)
    | (extract_lets +onlyGivenNames z; clear_value z)
    | split

theorem execTime_keeps (hw : Sub 0x80400 W) {core s} (hs : Keeps W s0 s) : OutAll (Keeps W s0) (execTime core s) := by
  unfold execTime
  repeat' first
    | with_reducible assumption
    | with_reducible refine service_keeps (Sub.step hw rfl) ?_ ?_
    | with_reducible refine svcReturn_keeps (Sub.step hw rfl) ?_
    | with_reducible refine OutAll.next ?_
    | with_reducible refine Keeps.foldl ?_ ?_
    | intro _
    | (extract_lets +onlyGivenNames z; refine Keeps.cut (W := W) (s0 := s0) (x := z) ?_ ?_; dsimp -zeta only [z]; rotate_left; clear_value z; rotate_right)
    | (extract_lets +onlyGivenNames z; clear_value z)
    | split

theorem execPstoreRead_keeps (hw : Sub 0x80400 W) {core s} (hs : Keeps W s0 s) : OutAll (Keeps W s0) (execPstoreRead core s) := by
  unfold execPstoreRead
  repeat' first
    | with_reducible assumption
    | with_reducible refine service_keeps (Sub.step hw rfl) ?_ ?_
    | with_reducible refine svcReturn_keeps (Sub.step hw rfl) ?_
    | with_reducible refine sramWrite_keeps (Sub.step hw rfl) ?_
    | with_reducible refine OutAll.next ?_
    | with_reducible refine Keeps.foldl ?_ ?_
    | intro _
    | (extract_lets +onlyGivenNames z; refine Keeps.cut (W := W) (s0 := s0) (x := z) ?_ ?_; dsimp -zeta only [z]; rotate_left; clear_value z; rotate_right)
    | (extract_lets +onlyGivenNames z; clear_value z)
    | split

theorem setSeg_keeps (hw : Sub 0x400 W) {core seg s} (hs : Keeps W s0 s) : Keeps W s0 (setSeg core seg s) := by
  unfold setSeg
  repeat' first
    | with_reducible assumption
    | with_reducible refine coreMod_keeps (Sub.step hw rfl) ?_ ?_
    | with_reducible refine Keeps.foldl ?_ ?_
    | exact ‹Warden.coresWf _›
    | exact ‹List.length _ = 16›
    | exact Core.setReg_length ‹_›
    | intro _
    | (extract_lets +onlyGivenNames z; refine Keeps.cut (W := W) (s0 := s0) (x := z) ?_ ?_; dsimp -zeta only [z]; rotate_left; clear_value z; rotate_right)
    | (extract_lets +onlyGivenNames z; clear_value z)
    | split

theorem execPstoreWrite_keeps (hw : Sub 0x82c06 W) {core s} (hs : Keeps W s0 s) : OutAll (Keeps W s0) (execPstoreWrite core s) := by
  unfold execPstoreWrite
  repeat' first
    | with_reducible assumption
    | with_reducible refine service_keeps (Sub.step hw rfl) ?_ ?_
    | with_reducible refine svcReturn_keeps (Sub.step hw rfl) ?_
    | with_reducible refine setSeg_keeps (Sub.step hw rfl) ?_
    | with_reducible refine archiveSync_keeps (Sub.step hw rfl) ?_
    | with_reducible refine PairAll.snd (P := Keeps W s0) (p := archiveSync _ _ _) ?_
    | with_reducible refine PairAll.out (P := Keeps W s0) (by assumption) ?_
    | with_reducible refine OutAll.next ?_
    | with_reducible refine Keeps.foldl ?_ ?_
    | intro _
    | (extract_lets +onlyGivenNames z; refine Keeps.cut (W := W) (s0 := s0) (x := z) ?_ ?_; dsimp -zeta only [z]; rotate_left; clear_value z; rotate_right)
    | (extract_lets +onlyGivenNames z; clear_value z)
    | split

theorem execLog_keeps (hw : Sub 0x82c06 W) {core s} (hs : Keeps W s0 s) : OutAll (Keeps W s0) (execLog core s) := by
  unfold execLog
  repeat' first
    | with_reducible assumption
    | with_reducible refine service_keeps (Sub.step hw rfl) ?_ ?_
    | with_reducible refine svcReturn_keeps (Sub.step hw rfl) ?_
    | with_reducible refine auditRec_keeps (Sub.step hw rfl) ?_
    | with_reducible refine OutAll.next ?_
    | with_reducible refine Keeps.foldl ?_ ?_
    | intro _
    | (extract_lets +onlyGivenNames z; refine Keeps.cut (W := W) (s0 := s0) (x := z) ?_ ?_; dsimp -zeta only [z]; rotate_left; clear_value z; rotate_right)
    | (extract_lets +onlyGivenNames z; clear_value z)
    | split

theorem execAppletBudget_keeps (hw : Sub 0x183c5e W) {core s} (hs : Keeps W s0 s) : OutAll (Keeps W s0) (execAppletBudget core s) := by
  unfold execAppletBudget
  repeat' first
    | with_reducible assumption
    | with_reducible refine endInv_keeps (Sub.step hw rfl) ?_
    | with_reducible refine coreMod_keeps (Sub.step hw rfl) ?_ ?_
    | with_reducible refine OutAll.next ?_
    | with_reducible refine Keeps.foldl ?_ ?_
    | exact ‹Warden.coresWf _›
    | exact ‹List.length _ = 16›
    | exact Core.setReg_length ‹_›
    | intro _
    | (extract_lets +onlyGivenNames z; refine Keeps.cut (W := W) (s0 := s0) (x := z) ?_ ?_; dsimp -zeta only [z]; rotate_left; clear_value z; rotate_right)
    | (extract_lets +onlyGivenNames z; clear_value z)
    | split

end Sys2Proof.Machine
end

