-- ==== Sys2Proof/Laws/Instructions.lean ====
section
/-! SUPPORT. What running one Warden instruction comes to: every path of `runInstr`, and what each of its effects leaves. -/
namespace Sys2Proof.Machine

/-- A core that cannot run an instruction leaves the state as it is. -/
theorem runInstr_idle {n : Fin 4} {w : Word} {ban : Bool} {illegal : Core → Bool} {body : Core → State → Eff} {s : State}
    (h : coreRuns n.val s = false) : runInstr n w ban illegal body s = .next s := by
  simp [runInstr, h]

/-- A fetch that waits leaves the state as it is. -/
theorem runInstr_wait {n : Fin 4} {w : Word} {ban : Bool} {illegal : Core → Bool} {body : Core → State → Eff} {s : State}
    (h : fetchCheck n.val s = .wait) : runInstr n w ban illegal body s = .next s := by
  simp only [runInstr, h]; split <;> rfl

/-- A refused fetch raises its exception. -/
theorem runInstr_fetch_exc {n : Fin 4} {w : Word} {ban : Bool} {illegal : Core → Bool} {body : Core → State → Eff} {s u : State}
    {code : Nat} {t : Word} (hr : coreRuns n.val s = true) (h : fetchCheck n.val s = .exc code t u) :
    runInstr n w ban illegal body s = .next (raiseExc n.val code t u) := by
  simp [runInstr, hr, h]

/-- A misplaced or illegal word raises `ILLEGAL`. -/
theorem runInstr_illegal {n : Fin 4} {w : Word} {ban : Bool} {illegal : Core → Bool} {body : Core → State → Eff} {s u : State}
    (hr : coreRuns n.val s = true) (h : fetchCheck n.val s = .ok () u)
    (hi : placeIllegal ban (coreGet n.val s) = true ∨ illegal (coreGet n.val s) = true) :
    runInstr n w ban illegal body s = .next (raiseExc n.val 1 w u) := by
  simp only [runInstr, hr, h]; simp [hi]

/-- Otherwise the instruction's body decides. -/
theorem runInstr_body {n : Fin 4} {w : Word} {ban : Bool} {illegal : Core → Bool} {body : Core → State → Eff} {s u : State}
    (hr : coreRuns n.val s = true) (h : fetchCheck n.val s = .ok () u) (hp : placeIllegal ban (coreGet n.val s) = false)
    (hi : illegal (coreGet n.val s) = false) :
    runInstr n w ban illegal body s =
      .next (applyEff n.val (coreGet n.val s) s
        (body (coreGet n.val s) (coreMod n.val (fun x => { x with waiting := false }) u))) := by
  simp only [runInstr, hr, h, hp, hi]; rfl

/-- Everything `runInstr` can answer. -/
theorem runInstr_cases (n : Fin 4) (w : Word) (ban : Bool) (illegal : Core → Bool) (body : Core → State → Eff) (s : State) :
    runInstr n w ban illegal body s = .next s ∨
    (∃ code t u, fetchCheck n.val s = .exc code t u ∧ runInstr n w ban illegal body s = .next (raiseExc n.val code t u)) ∨
    (∃ u, fetchCheck n.val s = .ok () u ∧ runInstr n w ban illegal body s = .next (raiseExc n.val 1 w u)) ∨
    ∃ u, fetchCheck n.val s = .ok () u ∧ runInstr n w ban illegal body s =
      .next (applyEff n.val (coreGet n.val s) s
        (body (coreGet n.val s) (coreMod n.val (fun x => { x with waiting := false }) u))) := by
  by_cases hr : coreRuns n.val s = true
  · cases h : fetchCheck n.val s with
    | wait => exact .inl (runInstr_wait h)
    | exc code t u => exact .inr (.inl ⟨code, t, u, rfl, runInstr_fetch_exc hr h⟩)
    | ok v u =>
      by_cases hi : placeIllegal ban (coreGet n.val s) = true ∨ illegal (coreGet n.val s) = true
      · exact .inr (.inr (.inl ⟨u, rfl, runInstr_illegal hr h hi⟩))
      · simp only [not_or, Bool.not_eq_true] at hi
        exact .inr (.inr (.inr ⟨u, rfl, runInstr_body hr h hi.1 hi.2⟩))
  · exact .inl (runInstr_idle (by simpa using hr))

/-! ### One core read after an update -/

@[simp] theorem coreGet_coreMod_self (n : Fin 4) (f : Core → Core) (s : State) : coreGet n.val (coreMod n.val f s) = f (coreGet n.val s) := by
  match n with
  | 0 => rfl
  | 1 => rfl
  | 2 => rfl
  | 3 => rfl

theorem coreGet_coreMod_other {n m : Fin 4} (h : m ≠ n) (f : Core → Core) (s : State) :
    coreGet m.val (coreMod n.val f s) = coreGet m.val s := by
  match n, m with
  | 0, 0 | 1, 1 | 2, 2 | 3, 3 => exact absurd rfl h
  | 0, 1 | 0, 2 | 0, 3 | 1, 0 | 1, 2 | 1, 3 | 2, 0 | 2, 1 | 2, 3 | 3, 0 | 3, 1 | 3, 2 => rfl

@[simp] theorem coreMod_sram (n : Nat) (f : Core → Core) (s : State) : (coreMod n f s).warden.sram = s.warden.sram := by
  simp only [coreMod, State.modWarden]; (repeat' split) <;> rfl

/-! ### General registers -/

/-- w0 reads 0. -/
@[simp] theorem Core.reg_zero (k : Core) : k.reg 0 = 0 := rfl

/-- A write to w0 is discarded. -/
@[simp] theorem Core.setReg_zero (k : Core) (v : Word) : k.setReg 0 v = k := rfl

/-- Another register reads as before. -/
theorem Core.reg_setReg_other {k : Core} {i j : BitVec 4} {v : Word} (h : j ≠ i) : (k.setReg i v).reg j = k.reg j := by
  have : i.toNat ≠ j.toNat := fun e => h (BitVec.eq_of_toNat_eq e.symm)
  simp only [Core.setReg, Core.reg]
  split
  · rfl
  · split
    · rfl
    · simp [this]

end Sys2Proof.Machine
end

