-- ==== Sys2Proof/Laws/Registers.lean ====
section
/-! SUPPORT. What a 32-bit register write comes to: each way its checks end. -/
namespace Sys2Proof.Machine

/-- A write of a register the part has that passes the Headgate, the guard and the lock takes the register's effect; the block's guard locks again. -/
theorem csrWrite32_accepted {r : Requester} {key : Nat} {v : Word} {s : State} (hk : key % 0x1000 ≠ 0xFFC)
    (hb : writeBarred r key (rearm (key / 0x1000) s) = false) (hu : unfitted key (rearm (key / 0x1000) s) = false)
    (hg : (v ^^^ csrNow r key (rearm (key / 0x1000) s)) &&& guardBits key ≠ 0 →
      passesGate r (rearm (key / 0x1000) s) = true ∧ guardArmed (key / 0x1000) s = true)
    (hl : (v ^^^ csrNow r key (rearm (key / 0x1000) s)) &&& lockBits key ≠ 0 →
      passesGate r (rearm (key / 0x1000) s) = true ∧ locked key (rearm (key / 0x1000) s) = false) :
    csrWrite32 r key v s = csrEffect r key v (rearm (key / 0x1000) s) := by
  simp only [csrWrite32, hb, hu, if_neg hk, Bool.or_false, Bool.false_eq_true, if_false]
  by_cases h1 : (v ^^^ csrNow r key (rearm (key / 0x1000) s)) &&& guardBits key = 0 <;>
    by_cases h2 : (v ^^^ csrNow r key (rearm (key / 0x1000) s)) &&& lockBits key = 0
  · simp [h1, h2]
  · simp [h1, h2, hl h2]
  · simp [h1, h2, hg h1]
  · simp [h1, h2, hg h1, hl h2]

end Sys2Proof.Machine
end

