-- ==== Sys2Proof/Laws/State.lean ====
section
/-! SUPPORT. What each update of one part of the state does to every part: the part it names is rewritten, the others stay. -/
namespace Sys2Proof.Machine

/-! ### `State.modDev` -/

@[simp] theorem State.modDev_fuses (s : State) (f : Dev → Dev) : (s.modDev f).fuses = s.fuses := rfl
@[simp] theorem State.modDev_dev (s : State) (f : Dev → Dev) : (s.modDev f).dev = f s.dev := rfl
@[simp] theorem State.modDev_ports (s : State) (f : Dev → Dev) : (s.modDev f).ports = s.ports := rfl
@[simp] theorem State.modDev_cmdif (s : State) (f : Dev → Dev) : (s.modDev f).cmdif = s.cmdif := rfl
@[simp] theorem State.modDev_furrows (s : State) (f : Dev → Dev) : (s.modDev f).furrows = s.furrows := rfl
@[simp] theorem State.modDev_units (s : State) (f : Dev → Dev) : (s.modDev f).units = s.units := rfl
@[simp] theorem State.modDev_keytab (s : State) (f : Dev → Dev) : (s.modDev f).keytab = s.keytab := rfl
@[simp] theorem State.modDev_rng (s : State) (f : Dev → Dev) : (s.modDev f).rng = s.rng := rfl
@[simp] theorem State.modDev_cipher (s : State) (f : Dev → Dev) : (s.modDev f).cipher = s.cipher := rfl
@[simp] theorem State.modDev_pke (s : State) (f : Dev → Dev) : (s.modDev f).pke = s.pke := rfl
@[simp] theorem State.modDev_warden (s : State) (f : Dev → Dev) : (s.modDev f).warden = s.warden := rfl
@[simp] theorem State.modDev_flash (s : State) (f : Dev → Dev) : (s.modDev f).flash = s.flash := rfl
@[simp] theorem State.modDev_cistern (s : State) (f : Dev → Dev) : (s.modDev f).cistern = s.cistern := rfl
@[simp] theorem State.modDev_vault (s : State) (f : Dev → Dev) : (s.modDev f).vault = s.vault := rfl
@[simp] theorem State.modDev_cust (s : State) (f : Dev → Dev) : (s.modDev f).cust = s.cust := rfl
@[simp] theorem State.modDev_otp (s : State) (f : Dev → Dev) : (s.modDev f).otp = s.otp := rfl
@[simp] theorem State.modDev_backup (s : State) (f : Dev → Dev) : (s.modDev f).backup = s.backup := rfl
@[simp] theorem State.modDev_tamper (s : State) (f : Dev → Dev) : (s.modDev f).tamper = s.tamper := rfl
@[simp] theorem State.modDev_punty (s : State) (f : Dev → Dev) : (s.modDev f).punty = s.punty := rfl
@[simp] theorem State.modDev_regs (s : State) (f : Dev → Dev) : (s.modDev f).regs = s.regs := rfl
@[simp] theorem State.modDev_free (s : State) (f : Dev → Dev) : (s.modDev f).free = s.free := rfl
@[simp] theorem State.modDev_pending (s : State) (f : Dev → Dev) : (s.modDev f).pending = s.pending := rfl

/-! ### `State.modPorts` -/

@[simp] theorem State.modPorts_fuses (s : State) (f : Ports → Ports) : (s.modPorts f).fuses = s.fuses := rfl
@[simp] theorem State.modPorts_dev (s : State) (f : Ports → Ports) : (s.modPorts f).dev = s.dev := rfl
@[simp] theorem State.modPorts_ports (s : State) (f : Ports → Ports) : (s.modPorts f).ports = f s.ports := rfl
@[simp] theorem State.modPorts_cmdif (s : State) (f : Ports → Ports) : (s.modPorts f).cmdif = s.cmdif := rfl
@[simp] theorem State.modPorts_furrows (s : State) (f : Ports → Ports) : (s.modPorts f).furrows = s.furrows := rfl
@[simp] theorem State.modPorts_units (s : State) (f : Ports → Ports) : (s.modPorts f).units = s.units := rfl
@[simp] theorem State.modPorts_keytab (s : State) (f : Ports → Ports) : (s.modPorts f).keytab = s.keytab := rfl
@[simp] theorem State.modPorts_rng (s : State) (f : Ports → Ports) : (s.modPorts f).rng = s.rng := rfl
@[simp] theorem State.modPorts_cipher (s : State) (f : Ports → Ports) : (s.modPorts f).cipher = s.cipher := rfl
@[simp] theorem State.modPorts_pke (s : State) (f : Ports → Ports) : (s.modPorts f).pke = s.pke := rfl
@[simp] theorem State.modPorts_warden (s : State) (f : Ports → Ports) : (s.modPorts f).warden = s.warden := rfl
@[simp] theorem State.modPorts_flash (s : State) (f : Ports → Ports) : (s.modPorts f).flash = s.flash := rfl
@[simp] theorem State.modPorts_cistern (s : State) (f : Ports → Ports) : (s.modPorts f).cistern = s.cistern := rfl
@[simp] theorem State.modPorts_vault (s : State) (f : Ports → Ports) : (s.modPorts f).vault = s.vault := rfl
@[simp] theorem State.modPorts_cust (s : State) (f : Ports → Ports) : (s.modPorts f).cust = s.cust := rfl
@[simp] theorem State.modPorts_otp (s : State) (f : Ports → Ports) : (s.modPorts f).otp = s.otp := rfl
@[simp] theorem State.modPorts_backup (s : State) (f : Ports → Ports) : (s.modPorts f).backup = s.backup := rfl
@[simp] theorem State.modPorts_tamper (s : State) (f : Ports → Ports) : (s.modPorts f).tamper = s.tamper := rfl
@[simp] theorem State.modPorts_punty (s : State) (f : Ports → Ports) : (s.modPorts f).punty = s.punty := rfl
@[simp] theorem State.modPorts_regs (s : State) (f : Ports → Ports) : (s.modPorts f).regs = s.regs := rfl
@[simp] theorem State.modPorts_free (s : State) (f : Ports → Ports) : (s.modPorts f).free = s.free := rfl
@[simp] theorem State.modPorts_pending (s : State) (f : Ports → Ports) : (s.modPorts f).pending = s.pending := rfl

/-! ### `State.modCmdif` -/

@[simp] theorem State.modCmdif_fuses (s : State) (f : CmdIf → CmdIf) : (s.modCmdif f).fuses = s.fuses := rfl
@[simp] theorem State.modCmdif_dev (s : State) (f : CmdIf → CmdIf) : (s.modCmdif f).dev = s.dev := rfl
@[simp] theorem State.modCmdif_ports (s : State) (f : CmdIf → CmdIf) : (s.modCmdif f).ports = s.ports := rfl
@[simp] theorem State.modCmdif_cmdif (s : State) (f : CmdIf → CmdIf) : (s.modCmdif f).cmdif = f s.cmdif := rfl
@[simp] theorem State.modCmdif_furrows (s : State) (f : CmdIf → CmdIf) : (s.modCmdif f).furrows = s.furrows := rfl
@[simp] theorem State.modCmdif_units (s : State) (f : CmdIf → CmdIf) : (s.modCmdif f).units = s.units := rfl
@[simp] theorem State.modCmdif_keytab (s : State) (f : CmdIf → CmdIf) : (s.modCmdif f).keytab = s.keytab := rfl
@[simp] theorem State.modCmdif_rng (s : State) (f : CmdIf → CmdIf) : (s.modCmdif f).rng = s.rng := rfl
@[simp] theorem State.modCmdif_cipher (s : State) (f : CmdIf → CmdIf) : (s.modCmdif f).cipher = s.cipher := rfl
@[simp] theorem State.modCmdif_pke (s : State) (f : CmdIf → CmdIf) : (s.modCmdif f).pke = s.pke := rfl
@[simp] theorem State.modCmdif_warden (s : State) (f : CmdIf → CmdIf) : (s.modCmdif f).warden = s.warden := rfl
@[simp] theorem State.modCmdif_flash (s : State) (f : CmdIf → CmdIf) : (s.modCmdif f).flash = s.flash := rfl
@[simp] theorem State.modCmdif_cistern (s : State) (f : CmdIf → CmdIf) : (s.modCmdif f).cistern = s.cistern := rfl
@[simp] theorem State.modCmdif_vault (s : State) (f : CmdIf → CmdIf) : (s.modCmdif f).vault = s.vault := rfl
@[simp] theorem State.modCmdif_cust (s : State) (f : CmdIf → CmdIf) : (s.modCmdif f).cust = s.cust := rfl
@[simp] theorem State.modCmdif_otp (s : State) (f : CmdIf → CmdIf) : (s.modCmdif f).otp = s.otp := rfl
@[simp] theorem State.modCmdif_backup (s : State) (f : CmdIf → CmdIf) : (s.modCmdif f).backup = s.backup := rfl
@[simp] theorem State.modCmdif_tamper (s : State) (f : CmdIf → CmdIf) : (s.modCmdif f).tamper = s.tamper := rfl
@[simp] theorem State.modCmdif_punty (s : State) (f : CmdIf → CmdIf) : (s.modCmdif f).punty = s.punty := rfl
@[simp] theorem State.modCmdif_regs (s : State) (f : CmdIf → CmdIf) : (s.modCmdif f).regs = s.regs := rfl
@[simp] theorem State.modCmdif_free (s : State) (f : CmdIf → CmdIf) : (s.modCmdif f).free = s.free := rfl
@[simp] theorem State.modCmdif_pending (s : State) (f : CmdIf → CmdIf) : (s.modCmdif f).pending = s.pending := rfl

/-! ### `State.modKeys` -/

@[simp] theorem State.modKeys_fuses (s : State) (f : KeyTab → KeyTab) : (s.modKeys f).fuses = s.fuses := rfl
@[simp] theorem State.modKeys_dev (s : State) (f : KeyTab → KeyTab) : (s.modKeys f).dev = s.dev := rfl
@[simp] theorem State.modKeys_ports (s : State) (f : KeyTab → KeyTab) : (s.modKeys f).ports = s.ports := rfl
@[simp] theorem State.modKeys_cmdif (s : State) (f : KeyTab → KeyTab) : (s.modKeys f).cmdif = s.cmdif := rfl
@[simp] theorem State.modKeys_furrows (s : State) (f : KeyTab → KeyTab) : (s.modKeys f).furrows = s.furrows := rfl
@[simp] theorem State.modKeys_units (s : State) (f : KeyTab → KeyTab) : (s.modKeys f).units = s.units := rfl
@[simp] theorem State.modKeys_keytab (s : State) (f : KeyTab → KeyTab) : (s.modKeys f).keytab = f s.keytab := rfl
@[simp] theorem State.modKeys_rng (s : State) (f : KeyTab → KeyTab) : (s.modKeys f).rng = s.rng := rfl
@[simp] theorem State.modKeys_cipher (s : State) (f : KeyTab → KeyTab) : (s.modKeys f).cipher = s.cipher := rfl
@[simp] theorem State.modKeys_pke (s : State) (f : KeyTab → KeyTab) : (s.modKeys f).pke = s.pke := rfl
@[simp] theorem State.modKeys_warden (s : State) (f : KeyTab → KeyTab) : (s.modKeys f).warden = s.warden := rfl
@[simp] theorem State.modKeys_flash (s : State) (f : KeyTab → KeyTab) : (s.modKeys f).flash = s.flash := rfl
@[simp] theorem State.modKeys_cistern (s : State) (f : KeyTab → KeyTab) : (s.modKeys f).cistern = s.cistern := rfl
@[simp] theorem State.modKeys_vault (s : State) (f : KeyTab → KeyTab) : (s.modKeys f).vault = s.vault := rfl
@[simp] theorem State.modKeys_cust (s : State) (f : KeyTab → KeyTab) : (s.modKeys f).cust = s.cust := rfl
@[simp] theorem State.modKeys_otp (s : State) (f : KeyTab → KeyTab) : (s.modKeys f).otp = s.otp := rfl
@[simp] theorem State.modKeys_backup (s : State) (f : KeyTab → KeyTab) : (s.modKeys f).backup = s.backup := rfl
@[simp] theorem State.modKeys_tamper (s : State) (f : KeyTab → KeyTab) : (s.modKeys f).tamper = s.tamper := rfl
@[simp] theorem State.modKeys_punty (s : State) (f : KeyTab → KeyTab) : (s.modKeys f).punty = s.punty := rfl
@[simp] theorem State.modKeys_regs (s : State) (f : KeyTab → KeyTab) : (s.modKeys f).regs = s.regs := rfl
@[simp] theorem State.modKeys_free (s : State) (f : KeyTab → KeyTab) : (s.modKeys f).free = s.free := rfl
@[simp] theorem State.modKeys_pending (s : State) (f : KeyTab → KeyTab) : (s.modKeys f).pending = s.pending := rfl

/-! ### `State.modRng` -/

@[simp] theorem State.modRng_fuses (s : State) (f : Rng → Rng) : (s.modRng f).fuses = s.fuses := rfl
@[simp] theorem State.modRng_dev (s : State) (f : Rng → Rng) : (s.modRng f).dev = s.dev := rfl
@[simp] theorem State.modRng_ports (s : State) (f : Rng → Rng) : (s.modRng f).ports = s.ports := rfl
@[simp] theorem State.modRng_cmdif (s : State) (f : Rng → Rng) : (s.modRng f).cmdif = s.cmdif := rfl
@[simp] theorem State.modRng_furrows (s : State) (f : Rng → Rng) : (s.modRng f).furrows = s.furrows := rfl
@[simp] theorem State.modRng_units (s : State) (f : Rng → Rng) : (s.modRng f).units = s.units := rfl
@[simp] theorem State.modRng_keytab (s : State) (f : Rng → Rng) : (s.modRng f).keytab = s.keytab := rfl
@[simp] theorem State.modRng_rng (s : State) (f : Rng → Rng) : (s.modRng f).rng = f s.rng := rfl
@[simp] theorem State.modRng_cipher (s : State) (f : Rng → Rng) : (s.modRng f).cipher = s.cipher := rfl
@[simp] theorem State.modRng_pke (s : State) (f : Rng → Rng) : (s.modRng f).pke = s.pke := rfl
@[simp] theorem State.modRng_warden (s : State) (f : Rng → Rng) : (s.modRng f).warden = s.warden := rfl
@[simp] theorem State.modRng_flash (s : State) (f : Rng → Rng) : (s.modRng f).flash = s.flash := rfl
@[simp] theorem State.modRng_cistern (s : State) (f : Rng → Rng) : (s.modRng f).cistern = s.cistern := rfl
@[simp] theorem State.modRng_vault (s : State) (f : Rng → Rng) : (s.modRng f).vault = s.vault := rfl
@[simp] theorem State.modRng_cust (s : State) (f : Rng → Rng) : (s.modRng f).cust = s.cust := rfl
@[simp] theorem State.modRng_otp (s : State) (f : Rng → Rng) : (s.modRng f).otp = s.otp := rfl
@[simp] theorem State.modRng_backup (s : State) (f : Rng → Rng) : (s.modRng f).backup = s.backup := rfl
@[simp] theorem State.modRng_tamper (s : State) (f : Rng → Rng) : (s.modRng f).tamper = s.tamper := rfl
@[simp] theorem State.modRng_punty (s : State) (f : Rng → Rng) : (s.modRng f).punty = s.punty := rfl
@[simp] theorem State.modRng_regs (s : State) (f : Rng → Rng) : (s.modRng f).regs = s.regs := rfl
@[simp] theorem State.modRng_free (s : State) (f : Rng → Rng) : (s.modRng f).free = s.free := rfl
@[simp] theorem State.modRng_pending (s : State) (f : Rng → Rng) : (s.modRng f).pending = s.pending := rfl

/-! ### `State.modCipher` -/

@[simp] theorem State.modCipher_fuses (s : State) (f : Cipher → Cipher) : (s.modCipher f).fuses = s.fuses := rfl
@[simp] theorem State.modCipher_dev (s : State) (f : Cipher → Cipher) : (s.modCipher f).dev = s.dev := rfl
@[simp] theorem State.modCipher_ports (s : State) (f : Cipher → Cipher) : (s.modCipher f).ports = s.ports := rfl
@[simp] theorem State.modCipher_cmdif (s : State) (f : Cipher → Cipher) : (s.modCipher f).cmdif = s.cmdif := rfl
@[simp] theorem State.modCipher_furrows (s : State) (f : Cipher → Cipher) : (s.modCipher f).furrows = s.furrows := rfl
@[simp] theorem State.modCipher_units (s : State) (f : Cipher → Cipher) : (s.modCipher f).units = s.units := rfl
@[simp] theorem State.modCipher_keytab (s : State) (f : Cipher → Cipher) : (s.modCipher f).keytab = s.keytab := rfl
@[simp] theorem State.modCipher_rng (s : State) (f : Cipher → Cipher) : (s.modCipher f).rng = s.rng := rfl
@[simp] theorem State.modCipher_cipher (s : State) (f : Cipher → Cipher) : (s.modCipher f).cipher = f s.cipher := rfl
@[simp] theorem State.modCipher_pke (s : State) (f : Cipher → Cipher) : (s.modCipher f).pke = s.pke := rfl
@[simp] theorem State.modCipher_warden (s : State) (f : Cipher → Cipher) : (s.modCipher f).warden = s.warden := rfl
@[simp] theorem State.modCipher_flash (s : State) (f : Cipher → Cipher) : (s.modCipher f).flash = s.flash := rfl
@[simp] theorem State.modCipher_cistern (s : State) (f : Cipher → Cipher) : (s.modCipher f).cistern = s.cistern := rfl
@[simp] theorem State.modCipher_vault (s : State) (f : Cipher → Cipher) : (s.modCipher f).vault = s.vault := rfl
@[simp] theorem State.modCipher_cust (s : State) (f : Cipher → Cipher) : (s.modCipher f).cust = s.cust := rfl
@[simp] theorem State.modCipher_otp (s : State) (f : Cipher → Cipher) : (s.modCipher f).otp = s.otp := rfl
@[simp] theorem State.modCipher_backup (s : State) (f : Cipher → Cipher) : (s.modCipher f).backup = s.backup := rfl
@[simp] theorem State.modCipher_tamper (s : State) (f : Cipher → Cipher) : (s.modCipher f).tamper = s.tamper := rfl
@[simp] theorem State.modCipher_punty (s : State) (f : Cipher → Cipher) : (s.modCipher f).punty = s.punty := rfl
@[simp] theorem State.modCipher_regs (s : State) (f : Cipher → Cipher) : (s.modCipher f).regs = s.regs := rfl
@[simp] theorem State.modCipher_free (s : State) (f : Cipher → Cipher) : (s.modCipher f).free = s.free := rfl
@[simp] theorem State.modCipher_pending (s : State) (f : Cipher → Cipher) : (s.modCipher f).pending = s.pending := rfl

/-! ### `State.modPke` -/

@[simp] theorem State.modPke_fuses (s : State) (f : Pke → Pke) : (s.modPke f).fuses = s.fuses := rfl
@[simp] theorem State.modPke_dev (s : State) (f : Pke → Pke) : (s.modPke f).dev = s.dev := rfl
@[simp] theorem State.modPke_ports (s : State) (f : Pke → Pke) : (s.modPke f).ports = s.ports := rfl
@[simp] theorem State.modPke_cmdif (s : State) (f : Pke → Pke) : (s.modPke f).cmdif = s.cmdif := rfl
@[simp] theorem State.modPke_furrows (s : State) (f : Pke → Pke) : (s.modPke f).furrows = s.furrows := rfl
@[simp] theorem State.modPke_units (s : State) (f : Pke → Pke) : (s.modPke f).units = s.units := rfl
@[simp] theorem State.modPke_keytab (s : State) (f : Pke → Pke) : (s.modPke f).keytab = s.keytab := rfl
@[simp] theorem State.modPke_rng (s : State) (f : Pke → Pke) : (s.modPke f).rng = s.rng := rfl
@[simp] theorem State.modPke_cipher (s : State) (f : Pke → Pke) : (s.modPke f).cipher = s.cipher := rfl
@[simp] theorem State.modPke_pke (s : State) (f : Pke → Pke) : (s.modPke f).pke = f s.pke := rfl
@[simp] theorem State.modPke_warden (s : State) (f : Pke → Pke) : (s.modPke f).warden = s.warden := rfl
@[simp] theorem State.modPke_flash (s : State) (f : Pke → Pke) : (s.modPke f).flash = s.flash := rfl
@[simp] theorem State.modPke_cistern (s : State) (f : Pke → Pke) : (s.modPke f).cistern = s.cistern := rfl
@[simp] theorem State.modPke_vault (s : State) (f : Pke → Pke) : (s.modPke f).vault = s.vault := rfl
@[simp] theorem State.modPke_cust (s : State) (f : Pke → Pke) : (s.modPke f).cust = s.cust := rfl
@[simp] theorem State.modPke_otp (s : State) (f : Pke → Pke) : (s.modPke f).otp = s.otp := rfl
@[simp] theorem State.modPke_backup (s : State) (f : Pke → Pke) : (s.modPke f).backup = s.backup := rfl
@[simp] theorem State.modPke_tamper (s : State) (f : Pke → Pke) : (s.modPke f).tamper = s.tamper := rfl
@[simp] theorem State.modPke_punty (s : State) (f : Pke → Pke) : (s.modPke f).punty = s.punty := rfl
@[simp] theorem State.modPke_regs (s : State) (f : Pke → Pke) : (s.modPke f).regs = s.regs := rfl
@[simp] theorem State.modPke_free (s : State) (f : Pke → Pke) : (s.modPke f).free = s.free := rfl
@[simp] theorem State.modPke_pending (s : State) (f : Pke → Pke) : (s.modPke f).pending = s.pending := rfl

/-! ### `State.modWarden` -/

@[simp] theorem State.modWarden_fuses (s : State) (f : Warden → Warden) : (s.modWarden f).fuses = s.fuses := rfl
@[simp] theorem State.modWarden_dev (s : State) (f : Warden → Warden) : (s.modWarden f).dev = s.dev := rfl
@[simp] theorem State.modWarden_ports (s : State) (f : Warden → Warden) : (s.modWarden f).ports = s.ports := rfl
@[simp] theorem State.modWarden_cmdif (s : State) (f : Warden → Warden) : (s.modWarden f).cmdif = s.cmdif := rfl
@[simp] theorem State.modWarden_furrows (s : State) (f : Warden → Warden) : (s.modWarden f).furrows = s.furrows := rfl
@[simp] theorem State.modWarden_units (s : State) (f : Warden → Warden) : (s.modWarden f).units = s.units := rfl
@[simp] theorem State.modWarden_keytab (s : State) (f : Warden → Warden) : (s.modWarden f).keytab = s.keytab := rfl
@[simp] theorem State.modWarden_rng (s : State) (f : Warden → Warden) : (s.modWarden f).rng = s.rng := rfl
@[simp] theorem State.modWarden_cipher (s : State) (f : Warden → Warden) : (s.modWarden f).cipher = s.cipher := rfl
@[simp] theorem State.modWarden_pke (s : State) (f : Warden → Warden) : (s.modWarden f).pke = s.pke := rfl
@[simp] theorem State.modWarden_warden (s : State) (f : Warden → Warden) : (s.modWarden f).warden = f s.warden := rfl
@[simp] theorem State.modWarden_flash (s : State) (f : Warden → Warden) : (s.modWarden f).flash = s.flash := rfl
@[simp] theorem State.modWarden_cistern (s : State) (f : Warden → Warden) : (s.modWarden f).cistern = s.cistern := rfl
@[simp] theorem State.modWarden_vault (s : State) (f : Warden → Warden) : (s.modWarden f).vault = s.vault := rfl
@[simp] theorem State.modWarden_cust (s : State) (f : Warden → Warden) : (s.modWarden f).cust = s.cust := rfl
@[simp] theorem State.modWarden_otp (s : State) (f : Warden → Warden) : (s.modWarden f).otp = s.otp := rfl
@[simp] theorem State.modWarden_backup (s : State) (f : Warden → Warden) : (s.modWarden f).backup = s.backup := rfl
@[simp] theorem State.modWarden_tamper (s : State) (f : Warden → Warden) : (s.modWarden f).tamper = s.tamper := rfl
@[simp] theorem State.modWarden_punty (s : State) (f : Warden → Warden) : (s.modWarden f).punty = s.punty := rfl
@[simp] theorem State.modWarden_regs (s : State) (f : Warden → Warden) : (s.modWarden f).regs = s.regs := rfl
@[simp] theorem State.modWarden_free (s : State) (f : Warden → Warden) : (s.modWarden f).free = s.free := rfl
@[simp] theorem State.modWarden_pending (s : State) (f : Warden → Warden) : (s.modWarden f).pending = s.pending := rfl

/-! ### `State.modFlash` -/

@[simp] theorem State.modFlash_fuses (s : State) (f : Flash → Flash) : (s.modFlash f).fuses = s.fuses := rfl
@[simp] theorem State.modFlash_dev (s : State) (f : Flash → Flash) : (s.modFlash f).dev = s.dev := rfl
@[simp] theorem State.modFlash_ports (s : State) (f : Flash → Flash) : (s.modFlash f).ports = s.ports := rfl
@[simp] theorem State.modFlash_cmdif (s : State) (f : Flash → Flash) : (s.modFlash f).cmdif = s.cmdif := rfl
@[simp] theorem State.modFlash_furrows (s : State) (f : Flash → Flash) : (s.modFlash f).furrows = s.furrows := rfl
@[simp] theorem State.modFlash_units (s : State) (f : Flash → Flash) : (s.modFlash f).units = s.units := rfl
@[simp] theorem State.modFlash_keytab (s : State) (f : Flash → Flash) : (s.modFlash f).keytab = s.keytab := rfl
@[simp] theorem State.modFlash_rng (s : State) (f : Flash → Flash) : (s.modFlash f).rng = s.rng := rfl
@[simp] theorem State.modFlash_cipher (s : State) (f : Flash → Flash) : (s.modFlash f).cipher = s.cipher := rfl
@[simp] theorem State.modFlash_pke (s : State) (f : Flash → Flash) : (s.modFlash f).pke = s.pke := rfl
@[simp] theorem State.modFlash_warden (s : State) (f : Flash → Flash) : (s.modFlash f).warden = s.warden := rfl
@[simp] theorem State.modFlash_flash (s : State) (f : Flash → Flash) : (s.modFlash f).flash = f s.flash := rfl
@[simp] theorem State.modFlash_cistern (s : State) (f : Flash → Flash) : (s.modFlash f).cistern = s.cistern := rfl
@[simp] theorem State.modFlash_vault (s : State) (f : Flash → Flash) : (s.modFlash f).vault = s.vault := rfl
@[simp] theorem State.modFlash_cust (s : State) (f : Flash → Flash) : (s.modFlash f).cust = s.cust := rfl
@[simp] theorem State.modFlash_otp (s : State) (f : Flash → Flash) : (s.modFlash f).otp = s.otp := rfl
@[simp] theorem State.modFlash_backup (s : State) (f : Flash → Flash) : (s.modFlash f).backup = s.backup := rfl
@[simp] theorem State.modFlash_tamper (s : State) (f : Flash → Flash) : (s.modFlash f).tamper = s.tamper := rfl
@[simp] theorem State.modFlash_punty (s : State) (f : Flash → Flash) : (s.modFlash f).punty = s.punty := rfl
@[simp] theorem State.modFlash_regs (s : State) (f : Flash → Flash) : (s.modFlash f).regs = s.regs := rfl
@[simp] theorem State.modFlash_free (s : State) (f : Flash → Flash) : (s.modFlash f).free = s.free := rfl
@[simp] theorem State.modFlash_pending (s : State) (f : Flash → Flash) : (s.modFlash f).pending = s.pending := rfl

/-! ### `State.modCistern` -/

@[simp] theorem State.modCistern_fuses (s : State) (f : Cistern → Cistern) : (s.modCistern f).fuses = s.fuses := rfl
@[simp] theorem State.modCistern_dev (s : State) (f : Cistern → Cistern) : (s.modCistern f).dev = s.dev := rfl
@[simp] theorem State.modCistern_ports (s : State) (f : Cistern → Cistern) : (s.modCistern f).ports = s.ports := rfl
@[simp] theorem State.modCistern_cmdif (s : State) (f : Cistern → Cistern) : (s.modCistern f).cmdif = s.cmdif := rfl
@[simp] theorem State.modCistern_furrows (s : State) (f : Cistern → Cistern) : (s.modCistern f).furrows = s.furrows := rfl
@[simp] theorem State.modCistern_units (s : State) (f : Cistern → Cistern) : (s.modCistern f).units = s.units := rfl
@[simp] theorem State.modCistern_keytab (s : State) (f : Cistern → Cistern) : (s.modCistern f).keytab = s.keytab := rfl
@[simp] theorem State.modCistern_rng (s : State) (f : Cistern → Cistern) : (s.modCistern f).rng = s.rng := rfl
@[simp] theorem State.modCistern_cipher (s : State) (f : Cistern → Cistern) : (s.modCistern f).cipher = s.cipher := rfl
@[simp] theorem State.modCistern_pke (s : State) (f : Cistern → Cistern) : (s.modCistern f).pke = s.pke := rfl
@[simp] theorem State.modCistern_warden (s : State) (f : Cistern → Cistern) : (s.modCistern f).warden = s.warden := rfl
@[simp] theorem State.modCistern_flash (s : State) (f : Cistern → Cistern) : (s.modCistern f).flash = s.flash := rfl
@[simp] theorem State.modCistern_cistern (s : State) (f : Cistern → Cistern) : (s.modCistern f).cistern = f s.cistern := rfl
@[simp] theorem State.modCistern_vault (s : State) (f : Cistern → Cistern) : (s.modCistern f).vault = s.vault := rfl
@[simp] theorem State.modCistern_cust (s : State) (f : Cistern → Cistern) : (s.modCistern f).cust = s.cust := rfl
@[simp] theorem State.modCistern_otp (s : State) (f : Cistern → Cistern) : (s.modCistern f).otp = s.otp := rfl
@[simp] theorem State.modCistern_backup (s : State) (f : Cistern → Cistern) : (s.modCistern f).backup = s.backup := rfl
@[simp] theorem State.modCistern_tamper (s : State) (f : Cistern → Cistern) : (s.modCistern f).tamper = s.tamper := rfl
@[simp] theorem State.modCistern_punty (s : State) (f : Cistern → Cistern) : (s.modCistern f).punty = s.punty := rfl
@[simp] theorem State.modCistern_regs (s : State) (f : Cistern → Cistern) : (s.modCistern f).regs = s.regs := rfl
@[simp] theorem State.modCistern_free (s : State) (f : Cistern → Cistern) : (s.modCistern f).free = s.free := rfl
@[simp] theorem State.modCistern_pending (s : State) (f : Cistern → Cistern) : (s.modCistern f).pending = s.pending := rfl

/-! ### `State.modVault` -/

@[simp] theorem State.modVault_fuses (s : State) (f : Vault → Vault) : (s.modVault f).fuses = s.fuses := rfl
@[simp] theorem State.modVault_dev (s : State) (f : Vault → Vault) : (s.modVault f).dev = s.dev := rfl
@[simp] theorem State.modVault_ports (s : State) (f : Vault → Vault) : (s.modVault f).ports = s.ports := rfl
@[simp] theorem State.modVault_cmdif (s : State) (f : Vault → Vault) : (s.modVault f).cmdif = s.cmdif := rfl
@[simp] theorem State.modVault_furrows (s : State) (f : Vault → Vault) : (s.modVault f).furrows = s.furrows := rfl
@[simp] theorem State.modVault_units (s : State) (f : Vault → Vault) : (s.modVault f).units = s.units := rfl
@[simp] theorem State.modVault_keytab (s : State) (f : Vault → Vault) : (s.modVault f).keytab = s.keytab := rfl
@[simp] theorem State.modVault_rng (s : State) (f : Vault → Vault) : (s.modVault f).rng = s.rng := rfl
@[simp] theorem State.modVault_cipher (s : State) (f : Vault → Vault) : (s.modVault f).cipher = s.cipher := rfl
@[simp] theorem State.modVault_pke (s : State) (f : Vault → Vault) : (s.modVault f).pke = s.pke := rfl
@[simp] theorem State.modVault_warden (s : State) (f : Vault → Vault) : (s.modVault f).warden = s.warden := rfl
@[simp] theorem State.modVault_flash (s : State) (f : Vault → Vault) : (s.modVault f).flash = s.flash := rfl
@[simp] theorem State.modVault_cistern (s : State) (f : Vault → Vault) : (s.modVault f).cistern = s.cistern := rfl
@[simp] theorem State.modVault_vault (s : State) (f : Vault → Vault) : (s.modVault f).vault = f s.vault := rfl
@[simp] theorem State.modVault_cust (s : State) (f : Vault → Vault) : (s.modVault f).cust = s.cust := rfl
@[simp] theorem State.modVault_otp (s : State) (f : Vault → Vault) : (s.modVault f).otp = s.otp := rfl
@[simp] theorem State.modVault_backup (s : State) (f : Vault → Vault) : (s.modVault f).backup = s.backup := rfl
@[simp] theorem State.modVault_tamper (s : State) (f : Vault → Vault) : (s.modVault f).tamper = s.tamper := rfl
@[simp] theorem State.modVault_punty (s : State) (f : Vault → Vault) : (s.modVault f).punty = s.punty := rfl
@[simp] theorem State.modVault_regs (s : State) (f : Vault → Vault) : (s.modVault f).regs = s.regs := rfl
@[simp] theorem State.modVault_free (s : State) (f : Vault → Vault) : (s.modVault f).free = s.free := rfl
@[simp] theorem State.modVault_pending (s : State) (f : Vault → Vault) : (s.modVault f).pending = s.pending := rfl

/-! ### `State.modCust` -/

@[simp] theorem State.modCust_fuses (s : State) (f : Cust → Cust) : (s.modCust f).fuses = s.fuses := rfl
@[simp] theorem State.modCust_dev (s : State) (f : Cust → Cust) : (s.modCust f).dev = s.dev := rfl
@[simp] theorem State.modCust_ports (s : State) (f : Cust → Cust) : (s.modCust f).ports = s.ports := rfl
@[simp] theorem State.modCust_cmdif (s : State) (f : Cust → Cust) : (s.modCust f).cmdif = s.cmdif := rfl
@[simp] theorem State.modCust_furrows (s : State) (f : Cust → Cust) : (s.modCust f).furrows = s.furrows := rfl
@[simp] theorem State.modCust_units (s : State) (f : Cust → Cust) : (s.modCust f).units = s.units := rfl
@[simp] theorem State.modCust_keytab (s : State) (f : Cust → Cust) : (s.modCust f).keytab = s.keytab := rfl
@[simp] theorem State.modCust_rng (s : State) (f : Cust → Cust) : (s.modCust f).rng = s.rng := rfl
@[simp] theorem State.modCust_cipher (s : State) (f : Cust → Cust) : (s.modCust f).cipher = s.cipher := rfl
@[simp] theorem State.modCust_pke (s : State) (f : Cust → Cust) : (s.modCust f).pke = s.pke := rfl
@[simp] theorem State.modCust_warden (s : State) (f : Cust → Cust) : (s.modCust f).warden = s.warden := rfl
@[simp] theorem State.modCust_flash (s : State) (f : Cust → Cust) : (s.modCust f).flash = s.flash := rfl
@[simp] theorem State.modCust_cistern (s : State) (f : Cust → Cust) : (s.modCust f).cistern = s.cistern := rfl
@[simp] theorem State.modCust_vault (s : State) (f : Cust → Cust) : (s.modCust f).vault = s.vault := rfl
@[simp] theorem State.modCust_cust (s : State) (f : Cust → Cust) : (s.modCust f).cust = f s.cust := rfl
@[simp] theorem State.modCust_otp (s : State) (f : Cust → Cust) : (s.modCust f).otp = s.otp := rfl
@[simp] theorem State.modCust_backup (s : State) (f : Cust → Cust) : (s.modCust f).backup = s.backup := rfl
@[simp] theorem State.modCust_tamper (s : State) (f : Cust → Cust) : (s.modCust f).tamper = s.tamper := rfl
@[simp] theorem State.modCust_punty (s : State) (f : Cust → Cust) : (s.modCust f).punty = s.punty := rfl
@[simp] theorem State.modCust_regs (s : State) (f : Cust → Cust) : (s.modCust f).regs = s.regs := rfl
@[simp] theorem State.modCust_free (s : State) (f : Cust → Cust) : (s.modCust f).free = s.free := rfl
@[simp] theorem State.modCust_pending (s : State) (f : Cust → Cust) : (s.modCust f).pending = s.pending := rfl

/-! ### `State.modBackup` -/

@[simp] theorem State.modBackup_fuses (s : State) (f : Backup → Backup) : (s.modBackup f).fuses = s.fuses := rfl
@[simp] theorem State.modBackup_dev (s : State) (f : Backup → Backup) : (s.modBackup f).dev = s.dev := rfl
@[simp] theorem State.modBackup_ports (s : State) (f : Backup → Backup) : (s.modBackup f).ports = s.ports := rfl
@[simp] theorem State.modBackup_cmdif (s : State) (f : Backup → Backup) : (s.modBackup f).cmdif = s.cmdif := rfl
@[simp] theorem State.modBackup_furrows (s : State) (f : Backup → Backup) : (s.modBackup f).furrows = s.furrows := rfl
@[simp] theorem State.modBackup_units (s : State) (f : Backup → Backup) : (s.modBackup f).units = s.units := rfl
@[simp] theorem State.modBackup_keytab (s : State) (f : Backup → Backup) : (s.modBackup f).keytab = s.keytab := rfl
@[simp] theorem State.modBackup_rng (s : State) (f : Backup → Backup) : (s.modBackup f).rng = s.rng := rfl
@[simp] theorem State.modBackup_cipher (s : State) (f : Backup → Backup) : (s.modBackup f).cipher = s.cipher := rfl
@[simp] theorem State.modBackup_pke (s : State) (f : Backup → Backup) : (s.modBackup f).pke = s.pke := rfl
@[simp] theorem State.modBackup_warden (s : State) (f : Backup → Backup) : (s.modBackup f).warden = s.warden := rfl
@[simp] theorem State.modBackup_flash (s : State) (f : Backup → Backup) : (s.modBackup f).flash = s.flash := rfl
@[simp] theorem State.modBackup_cistern (s : State) (f : Backup → Backup) : (s.modBackup f).cistern = s.cistern := rfl
@[simp] theorem State.modBackup_vault (s : State) (f : Backup → Backup) : (s.modBackup f).vault = s.vault := rfl
@[simp] theorem State.modBackup_cust (s : State) (f : Backup → Backup) : (s.modBackup f).cust = s.cust := rfl
@[simp] theorem State.modBackup_otp (s : State) (f : Backup → Backup) : (s.modBackup f).otp = s.otp := rfl
@[simp] theorem State.modBackup_backup (s : State) (f : Backup → Backup) : (s.modBackup f).backup = f s.backup := rfl
@[simp] theorem State.modBackup_tamper (s : State) (f : Backup → Backup) : (s.modBackup f).tamper = s.tamper := rfl
@[simp] theorem State.modBackup_punty (s : State) (f : Backup → Backup) : (s.modBackup f).punty = s.punty := rfl
@[simp] theorem State.modBackup_regs (s : State) (f : Backup → Backup) : (s.modBackup f).regs = s.regs := rfl
@[simp] theorem State.modBackup_free (s : State) (f : Backup → Backup) : (s.modBackup f).free = s.free := rfl
@[simp] theorem State.modBackup_pending (s : State) (f : Backup → Backup) : (s.modBackup f).pending = s.pending := rfl

/-! ### `State.modTamper` -/

@[simp] theorem State.modTamper_fuses (s : State) (f : Tamper → Tamper) : (s.modTamper f).fuses = s.fuses := rfl
@[simp] theorem State.modTamper_dev (s : State) (f : Tamper → Tamper) : (s.modTamper f).dev = s.dev := rfl
@[simp] theorem State.modTamper_ports (s : State) (f : Tamper → Tamper) : (s.modTamper f).ports = s.ports := rfl
@[simp] theorem State.modTamper_cmdif (s : State) (f : Tamper → Tamper) : (s.modTamper f).cmdif = s.cmdif := rfl
@[simp] theorem State.modTamper_furrows (s : State) (f : Tamper → Tamper) : (s.modTamper f).furrows = s.furrows := rfl
@[simp] theorem State.modTamper_units (s : State) (f : Tamper → Tamper) : (s.modTamper f).units = s.units := rfl
@[simp] theorem State.modTamper_keytab (s : State) (f : Tamper → Tamper) : (s.modTamper f).keytab = s.keytab := rfl
@[simp] theorem State.modTamper_rng (s : State) (f : Tamper → Tamper) : (s.modTamper f).rng = s.rng := rfl
@[simp] theorem State.modTamper_cipher (s : State) (f : Tamper → Tamper) : (s.modTamper f).cipher = s.cipher := rfl
@[simp] theorem State.modTamper_pke (s : State) (f : Tamper → Tamper) : (s.modTamper f).pke = s.pke := rfl
@[simp] theorem State.modTamper_warden (s : State) (f : Tamper → Tamper) : (s.modTamper f).warden = s.warden := rfl
@[simp] theorem State.modTamper_flash (s : State) (f : Tamper → Tamper) : (s.modTamper f).flash = s.flash := rfl
@[simp] theorem State.modTamper_cistern (s : State) (f : Tamper → Tamper) : (s.modTamper f).cistern = s.cistern := rfl
@[simp] theorem State.modTamper_vault (s : State) (f : Tamper → Tamper) : (s.modTamper f).vault = s.vault := rfl
@[simp] theorem State.modTamper_cust (s : State) (f : Tamper → Tamper) : (s.modTamper f).cust = s.cust := rfl
@[simp] theorem State.modTamper_otp (s : State) (f : Tamper → Tamper) : (s.modTamper f).otp = s.otp := rfl
@[simp] theorem State.modTamper_backup (s : State) (f : Tamper → Tamper) : (s.modTamper f).backup = s.backup := rfl
@[simp] theorem State.modTamper_tamper (s : State) (f : Tamper → Tamper) : (s.modTamper f).tamper = f s.tamper := rfl
@[simp] theorem State.modTamper_punty (s : State) (f : Tamper → Tamper) : (s.modTamper f).punty = s.punty := rfl
@[simp] theorem State.modTamper_regs (s : State) (f : Tamper → Tamper) : (s.modTamper f).regs = s.regs := rfl
@[simp] theorem State.modTamper_free (s : State) (f : Tamper → Tamper) : (s.modTamper f).free = s.free := rfl
@[simp] theorem State.modTamper_pending (s : State) (f : Tamper → Tamper) : (s.modTamper f).pending = s.pending := rfl

/-! ### `State.modPunty` -/

@[simp] theorem State.modPunty_fuses (s : State) (f : Punty → Punty) : (s.modPunty f).fuses = s.fuses := rfl
@[simp] theorem State.modPunty_dev (s : State) (f : Punty → Punty) : (s.modPunty f).dev = s.dev := rfl
@[simp] theorem State.modPunty_ports (s : State) (f : Punty → Punty) : (s.modPunty f).ports = s.ports := rfl
@[simp] theorem State.modPunty_cmdif (s : State) (f : Punty → Punty) : (s.modPunty f).cmdif = s.cmdif := rfl
@[simp] theorem State.modPunty_furrows (s : State) (f : Punty → Punty) : (s.modPunty f).furrows = s.furrows := rfl
@[simp] theorem State.modPunty_units (s : State) (f : Punty → Punty) : (s.modPunty f).units = s.units := rfl
@[simp] theorem State.modPunty_keytab (s : State) (f : Punty → Punty) : (s.modPunty f).keytab = s.keytab := rfl
@[simp] theorem State.modPunty_rng (s : State) (f : Punty → Punty) : (s.modPunty f).rng = s.rng := rfl
@[simp] theorem State.modPunty_cipher (s : State) (f : Punty → Punty) : (s.modPunty f).cipher = s.cipher := rfl
@[simp] theorem State.modPunty_pke (s : State) (f : Punty → Punty) : (s.modPunty f).pke = s.pke := rfl
@[simp] theorem State.modPunty_warden (s : State) (f : Punty → Punty) : (s.modPunty f).warden = s.warden := rfl
@[simp] theorem State.modPunty_flash (s : State) (f : Punty → Punty) : (s.modPunty f).flash = s.flash := rfl
@[simp] theorem State.modPunty_cistern (s : State) (f : Punty → Punty) : (s.modPunty f).cistern = s.cistern := rfl
@[simp] theorem State.modPunty_vault (s : State) (f : Punty → Punty) : (s.modPunty f).vault = s.vault := rfl
@[simp] theorem State.modPunty_cust (s : State) (f : Punty → Punty) : (s.modPunty f).cust = s.cust := rfl
@[simp] theorem State.modPunty_otp (s : State) (f : Punty → Punty) : (s.modPunty f).otp = s.otp := rfl
@[simp] theorem State.modPunty_backup (s : State) (f : Punty → Punty) : (s.modPunty f).backup = s.backup := rfl
@[simp] theorem State.modPunty_tamper (s : State) (f : Punty → Punty) : (s.modPunty f).tamper = s.tamper := rfl
@[simp] theorem State.modPunty_punty (s : State) (f : Punty → Punty) : (s.modPunty f).punty = f s.punty := rfl
@[simp] theorem State.modPunty_regs (s : State) (f : Punty → Punty) : (s.modPunty f).regs = s.regs := rfl
@[simp] theorem State.modPunty_free (s : State) (f : Punty → Punty) : (s.modPunty f).free = s.free := rfl
@[simp] theorem State.modPunty_pending (s : State) (f : Punty → Punty) : (s.modPunty f).pending = s.pending := rfl

/-! ### `State.modHg` -/

@[simp] theorem State.modHg_fuses (s : State) (f : Headgate → Headgate) : (s.modHg f).fuses = s.fuses := rfl
@[simp] theorem State.modHg_dev (s : State) (f : Headgate → Headgate) : (s.modHg f).dev = s.dev := rfl
@[simp] theorem State.modHg_ports (s : State) (f : Headgate → Headgate) : (s.modHg f).ports = { s.ports with hg := f s.ports.hg } := rfl
@[simp] theorem State.modHg_cmdif (s : State) (f : Headgate → Headgate) : (s.modHg f).cmdif = s.cmdif := rfl
@[simp] theorem State.modHg_furrows (s : State) (f : Headgate → Headgate) : (s.modHg f).furrows = s.furrows := rfl
@[simp] theorem State.modHg_units (s : State) (f : Headgate → Headgate) : (s.modHg f).units = s.units := rfl
@[simp] theorem State.modHg_keytab (s : State) (f : Headgate → Headgate) : (s.modHg f).keytab = s.keytab := rfl
@[simp] theorem State.modHg_rng (s : State) (f : Headgate → Headgate) : (s.modHg f).rng = s.rng := rfl
@[simp] theorem State.modHg_cipher (s : State) (f : Headgate → Headgate) : (s.modHg f).cipher = s.cipher := rfl
@[simp] theorem State.modHg_pke (s : State) (f : Headgate → Headgate) : (s.modHg f).pke = s.pke := rfl
@[simp] theorem State.modHg_warden (s : State) (f : Headgate → Headgate) : (s.modHg f).warden = s.warden := rfl
@[simp] theorem State.modHg_flash (s : State) (f : Headgate → Headgate) : (s.modHg f).flash = s.flash := rfl
@[simp] theorem State.modHg_cistern (s : State) (f : Headgate → Headgate) : (s.modHg f).cistern = s.cistern := rfl
@[simp] theorem State.modHg_vault (s : State) (f : Headgate → Headgate) : (s.modHg f).vault = s.vault := rfl
@[simp] theorem State.modHg_cust (s : State) (f : Headgate → Headgate) : (s.modHg f).cust = s.cust := rfl
@[simp] theorem State.modHg_otp (s : State) (f : Headgate → Headgate) : (s.modHg f).otp = s.otp := rfl
@[simp] theorem State.modHg_backup (s : State) (f : Headgate → Headgate) : (s.modHg f).backup = s.backup := rfl
@[simp] theorem State.modHg_tamper (s : State) (f : Headgate → Headgate) : (s.modHg f).tamper = s.tamper := rfl
@[simp] theorem State.modHg_punty (s : State) (f : Headgate → Headgate) : (s.modHg f).punty = s.punty := rfl
@[simp] theorem State.modHg_regs (s : State) (f : Headgate → Headgate) : (s.modHg f).regs = s.regs := rfl
@[simp] theorem State.modHg_free (s : State) (f : Headgate → Headgate) : (s.modHg f).free = s.free := rfl
@[simp] theorem State.modHg_pending (s : State) (f : Headgate → Headgate) : (s.modHg f).pending = s.pending := rfl

/-! ### `State.modPort` -/

@[simp] theorem State.modPort_fuses (s : State) (p : Port) (f : PortSt → PortSt) : (s.modPort p f).fuses = s.fuses := by cases p <;> rfl
@[simp] theorem State.modPort_dev (s : State) (p : Port) (f : PortSt → PortSt) : (s.modPort p f).dev = s.dev := by cases p <;> rfl
@[simp] theorem State.modPort_cmdif (s : State) (p : Port) (f : PortSt → PortSt) : (s.modPort p f).cmdif = s.cmdif := by cases p <;> rfl
@[simp] theorem State.modPort_furrows (s : State) (p : Port) (f : PortSt → PortSt) : (s.modPort p f).furrows = s.furrows := by cases p <;> rfl
@[simp] theorem State.modPort_units (s : State) (p : Port) (f : PortSt → PortSt) : (s.modPort p f).units = s.units := by cases p <;> rfl
@[simp] theorem State.modPort_keytab (s : State) (p : Port) (f : PortSt → PortSt) : (s.modPort p f).keytab = s.keytab := by cases p <;> rfl
@[simp] theorem State.modPort_rng (s : State) (p : Port) (f : PortSt → PortSt) : (s.modPort p f).rng = s.rng := by cases p <;> rfl
@[simp] theorem State.modPort_cipher (s : State) (p : Port) (f : PortSt → PortSt) : (s.modPort p f).cipher = s.cipher := by cases p <;> rfl
@[simp] theorem State.modPort_pke (s : State) (p : Port) (f : PortSt → PortSt) : (s.modPort p f).pke = s.pke := by cases p <;> rfl
@[simp] theorem State.modPort_warden (s : State) (p : Port) (f : PortSt → PortSt) : (s.modPort p f).warden = s.warden := by cases p <;> rfl
@[simp] theorem State.modPort_flash (s : State) (p : Port) (f : PortSt → PortSt) : (s.modPort p f).flash = s.flash := by cases p <;> rfl
@[simp] theorem State.modPort_cistern (s : State) (p : Port) (f : PortSt → PortSt) : (s.modPort p f).cistern = s.cistern := by cases p <;> rfl
@[simp] theorem State.modPort_vault (s : State) (p : Port) (f : PortSt → PortSt) : (s.modPort p f).vault = s.vault := by cases p <;> rfl
@[simp] theorem State.modPort_cust (s : State) (p : Port) (f : PortSt → PortSt) : (s.modPort p f).cust = s.cust := by cases p <;> rfl
@[simp] theorem State.modPort_otp (s : State) (p : Port) (f : PortSt → PortSt) : (s.modPort p f).otp = s.otp := by cases p <;> rfl
@[simp] theorem State.modPort_backup (s : State) (p : Port) (f : PortSt → PortSt) : (s.modPort p f).backup = s.backup := by cases p <;> rfl
@[simp] theorem State.modPort_tamper (s : State) (p : Port) (f : PortSt → PortSt) : (s.modPort p f).tamper = s.tamper := by cases p <;> rfl
@[simp] theorem State.modPort_punty (s : State) (p : Port) (f : PortSt → PortSt) : (s.modPort p f).punty = s.punty := by cases p <;> rfl
@[simp] theorem State.modPort_regs (s : State) (p : Port) (f : PortSt → PortSt) : (s.modPort p f).regs = s.regs := by cases p <;> rfl
@[simp] theorem State.modPort_free (s : State) (p : Port) (f : PortSt → PortSt) : (s.modPort p f).free = s.free := by cases p <;> rfl
@[simp] theorem State.modPort_pending (s : State) (p : Port) (f : PortSt → PortSt) : (s.modPort p f).pending = s.pending := by cases p <;> rfl

/-! ### `State.modRing` -/

@[simp] theorem State.modRing_fuses (s : State) (p : Port) (f : EvtRing → EvtRing) : (s.modRing p f).fuses = s.fuses := by cases p <;> rfl
@[simp] theorem State.modRing_dev (s : State) (p : Port) (f : EvtRing → EvtRing) : (s.modRing p f).dev = s.dev := by cases p <;> rfl
@[simp] theorem State.modRing_cmdif (s : State) (p : Port) (f : EvtRing → EvtRing) : (s.modRing p f).cmdif = s.cmdif := by cases p <;> rfl
@[simp] theorem State.modRing_furrows (s : State) (p : Port) (f : EvtRing → EvtRing) : (s.modRing p f).furrows = s.furrows := by cases p <;> rfl
@[simp] theorem State.modRing_units (s : State) (p : Port) (f : EvtRing → EvtRing) : (s.modRing p f).units = s.units := by cases p <;> rfl
@[simp] theorem State.modRing_keytab (s : State) (p : Port) (f : EvtRing → EvtRing) : (s.modRing p f).keytab = s.keytab := by cases p <;> rfl
@[simp] theorem State.modRing_rng (s : State) (p : Port) (f : EvtRing → EvtRing) : (s.modRing p f).rng = s.rng := by cases p <;> rfl
@[simp] theorem State.modRing_cipher (s : State) (p : Port) (f : EvtRing → EvtRing) : (s.modRing p f).cipher = s.cipher := by cases p <;> rfl
@[simp] theorem State.modRing_pke (s : State) (p : Port) (f : EvtRing → EvtRing) : (s.modRing p f).pke = s.pke := by cases p <;> rfl
@[simp] theorem State.modRing_warden (s : State) (p : Port) (f : EvtRing → EvtRing) : (s.modRing p f).warden = s.warden := by cases p <;> rfl
@[simp] theorem State.modRing_flash (s : State) (p : Port) (f : EvtRing → EvtRing) : (s.modRing p f).flash = s.flash := by cases p <;> rfl
@[simp] theorem State.modRing_cistern (s : State) (p : Port) (f : EvtRing → EvtRing) : (s.modRing p f).cistern = s.cistern := by cases p <;> rfl
@[simp] theorem State.modRing_vault (s : State) (p : Port) (f : EvtRing → EvtRing) : (s.modRing p f).vault = s.vault := by cases p <;> rfl
@[simp] theorem State.modRing_cust (s : State) (p : Port) (f : EvtRing → EvtRing) : (s.modRing p f).cust = s.cust := by cases p <;> rfl
@[simp] theorem State.modRing_otp (s : State) (p : Port) (f : EvtRing → EvtRing) : (s.modRing p f).otp = s.otp := by cases p <;> rfl
@[simp] theorem State.modRing_backup (s : State) (p : Port) (f : EvtRing → EvtRing) : (s.modRing p f).backup = s.backup := by cases p <;> rfl
@[simp] theorem State.modRing_tamper (s : State) (p : Port) (f : EvtRing → EvtRing) : (s.modRing p f).tamper = s.tamper := by cases p <;> rfl
@[simp] theorem State.modRing_punty (s : State) (p : Port) (f : EvtRing → EvtRing) : (s.modRing p f).punty = s.punty := by cases p <;> rfl
@[simp] theorem State.modRing_regs (s : State) (p : Port) (f : EvtRing → EvtRing) : (s.modRing p f).regs = s.regs := by cases p <;> rfl
@[simp] theorem State.modRing_free (s : State) (p : Port) (f : EvtRing → EvtRing) : (s.modRing p f).free = s.free := by cases p <;> rfl
@[simp] theorem State.modRing_pending (s : State) (p : Port) (f : EvtRing → EvtRing) : (s.modRing p f).pending = s.pending := by cases p <;> rfl

/-! ### `State.modSrc` -/

@[simp] theorem State.modSrc_fuses (s : State) (x : Side) (f : NoiseSrc → NoiseSrc) : (s.modSrc x f).fuses = s.fuses := rfl
@[simp] theorem State.modSrc_dev (s : State) (x : Side) (f : NoiseSrc → NoiseSrc) : (s.modSrc x f).dev = s.dev := rfl
@[simp] theorem State.modSrc_ports (s : State) (x : Side) (f : NoiseSrc → NoiseSrc) : (s.modSrc x f).ports = s.ports := rfl
@[simp] theorem State.modSrc_cmdif (s : State) (x : Side) (f : NoiseSrc → NoiseSrc) : (s.modSrc x f).cmdif = s.cmdif := rfl
@[simp] theorem State.modSrc_furrows (s : State) (x : Side) (f : NoiseSrc → NoiseSrc) : (s.modSrc x f).furrows = s.furrows := rfl
@[simp] theorem State.modSrc_units (s : State) (x : Side) (f : NoiseSrc → NoiseSrc) : (s.modSrc x f).units = s.units := rfl
@[simp] theorem State.modSrc_keytab (s : State) (x : Side) (f : NoiseSrc → NoiseSrc) : (s.modSrc x f).keytab = s.keytab := rfl
@[simp] theorem State.modSrc_cipher (s : State) (x : Side) (f : NoiseSrc → NoiseSrc) : (s.modSrc x f).cipher = s.cipher := rfl
@[simp] theorem State.modSrc_pke (s : State) (x : Side) (f : NoiseSrc → NoiseSrc) : (s.modSrc x f).pke = s.pke := rfl
@[simp] theorem State.modSrc_warden (s : State) (x : Side) (f : NoiseSrc → NoiseSrc) : (s.modSrc x f).warden = s.warden := rfl
@[simp] theorem State.modSrc_flash (s : State) (x : Side) (f : NoiseSrc → NoiseSrc) : (s.modSrc x f).flash = s.flash := rfl
@[simp] theorem State.modSrc_cistern (s : State) (x : Side) (f : NoiseSrc → NoiseSrc) : (s.modSrc x f).cistern = s.cistern := rfl
@[simp] theorem State.modSrc_vault (s : State) (x : Side) (f : NoiseSrc → NoiseSrc) : (s.modSrc x f).vault = s.vault := rfl
@[simp] theorem State.modSrc_cust (s : State) (x : Side) (f : NoiseSrc → NoiseSrc) : (s.modSrc x f).cust = s.cust := rfl
@[simp] theorem State.modSrc_otp (s : State) (x : Side) (f : NoiseSrc → NoiseSrc) : (s.modSrc x f).otp = s.otp := rfl
@[simp] theorem State.modSrc_backup (s : State) (x : Side) (f : NoiseSrc → NoiseSrc) : (s.modSrc x f).backup = s.backup := rfl
@[simp] theorem State.modSrc_tamper (s : State) (x : Side) (f : NoiseSrc → NoiseSrc) : (s.modSrc x f).tamper = s.tamper := rfl
@[simp] theorem State.modSrc_punty (s : State) (x : Side) (f : NoiseSrc → NoiseSrc) : (s.modSrc x f).punty = s.punty := rfl
@[simp] theorem State.modSrc_regs (s : State) (x : Side) (f : NoiseSrc → NoiseSrc) : (s.modSrc x f).regs = s.regs := rfl
@[simp] theorem State.modSrc_free (s : State) (x : Side) (f : NoiseSrc → NoiseSrc) : (s.modSrc x f).free = s.free := rfl
@[simp] theorem State.modSrc_pending (s : State) (x : Side) (f : NoiseSrc → NoiseSrc) : (s.modSrc x f).pending = s.pending := rfl

/-! ### `State.modCart` -/

@[simp] theorem State.modCart_fuses (s : State) (n : Nat) (f : CartSlot → CartSlot) : (s.modCart n f).fuses = s.fuses := rfl
@[simp] theorem State.modCart_dev (s : State) (n : Nat) (f : CartSlot → CartSlot) : (s.modCart n f).dev = s.dev := rfl
@[simp] theorem State.modCart_ports (s : State) (n : Nat) (f : CartSlot → CartSlot) : (s.modCart n f).ports = s.ports := rfl
@[simp] theorem State.modCart_cmdif (s : State) (n : Nat) (f : CartSlot → CartSlot) : (s.modCart n f).cmdif = s.cmdif := rfl
@[simp] theorem State.modCart_furrows (s : State) (n : Nat) (f : CartSlot → CartSlot) : (s.modCart n f).furrows = s.furrows := rfl
@[simp] theorem State.modCart_units (s : State) (n : Nat) (f : CartSlot → CartSlot) : (s.modCart n f).units = s.units := rfl
@[simp] theorem State.modCart_keytab (s : State) (n : Nat) (f : CartSlot → CartSlot) : (s.modCart n f).keytab = s.keytab := rfl
@[simp] theorem State.modCart_rng (s : State) (n : Nat) (f : CartSlot → CartSlot) : (s.modCart n f).rng = s.rng := rfl
@[simp] theorem State.modCart_cipher (s : State) (n : Nat) (f : CartSlot → CartSlot) : (s.modCart n f).cipher = s.cipher := rfl
@[simp] theorem State.modCart_pke (s : State) (n : Nat) (f : CartSlot → CartSlot) : (s.modCart n f).pke = s.pke := rfl
@[simp] theorem State.modCart_warden (s : State) (n : Nat) (f : CartSlot → CartSlot) : (s.modCart n f).warden = s.warden := rfl
@[simp] theorem State.modCart_flash (s : State) (n : Nat) (f : CartSlot → CartSlot) : (s.modCart n f).flash = s.flash := rfl
@[simp] theorem State.modCart_cistern (s : State) (n : Nat) (f : CartSlot → CartSlot) : (s.modCart n f).cistern = s.cistern := rfl
@[simp] theorem State.modCart_cust (s : State) (n : Nat) (f : CartSlot → CartSlot) : (s.modCart n f).cust = s.cust := rfl
@[simp] theorem State.modCart_otp (s : State) (n : Nat) (f : CartSlot → CartSlot) : (s.modCart n f).otp = s.otp := rfl
@[simp] theorem State.modCart_backup (s : State) (n : Nat) (f : CartSlot → CartSlot) : (s.modCart n f).backup = s.backup := rfl
@[simp] theorem State.modCart_tamper (s : State) (n : Nat) (f : CartSlot → CartSlot) : (s.modCart n f).tamper = s.tamper := rfl
@[simp] theorem State.modCart_punty (s : State) (n : Nat) (f : CartSlot → CartSlot) : (s.modCart n f).punty = s.punty := rfl
@[simp] theorem State.modCart_regs (s : State) (n : Nat) (f : CartSlot → CartSlot) : (s.modCart n f).regs = s.regs := rfl
@[simp] theorem State.modCart_free (s : State) (n : Nat) (f : CartSlot → CartSlot) : (s.modCart n f).free = s.free := rfl
@[simp] theorem State.modCart_pending (s : State) (n : Nat) (f : CartSlot → CartSlot) : (s.modCart n f).pending = s.pending := rfl

/-! ### `regSet` -/

@[simp] theorem regSet_fuses (k : Nat) (v : Word) (s : State) : (regSet k v s).fuses = s.fuses := rfl
@[simp] theorem regSet_dev (k : Nat) (v : Word) (s : State) : (regSet k v s).dev = s.dev := rfl
@[simp] theorem regSet_ports (k : Nat) (v : Word) (s : State) : (regSet k v s).ports = s.ports := rfl
@[simp] theorem regSet_cmdif (k : Nat) (v : Word) (s : State) : (regSet k v s).cmdif = s.cmdif := rfl
@[simp] theorem regSet_furrows (k : Nat) (v : Word) (s : State) : (regSet k v s).furrows = s.furrows := rfl
@[simp] theorem regSet_units (k : Nat) (v : Word) (s : State) : (regSet k v s).units = s.units := rfl
@[simp] theorem regSet_keytab (k : Nat) (v : Word) (s : State) : (regSet k v s).keytab = s.keytab := rfl
@[simp] theorem regSet_rng (k : Nat) (v : Word) (s : State) : (regSet k v s).rng = s.rng := rfl
@[simp] theorem regSet_cipher (k : Nat) (v : Word) (s : State) : (regSet k v s).cipher = s.cipher := rfl
@[simp] theorem regSet_pke (k : Nat) (v : Word) (s : State) : (regSet k v s).pke = s.pke := rfl
@[simp] theorem regSet_warden (k : Nat) (v : Word) (s : State) : (regSet k v s).warden = s.warden := rfl
@[simp] theorem regSet_flash (k : Nat) (v : Word) (s : State) : (regSet k v s).flash = s.flash := rfl
@[simp] theorem regSet_cistern (k : Nat) (v : Word) (s : State) : (regSet k v s).cistern = s.cistern := rfl
@[simp] theorem regSet_vault (k : Nat) (v : Word) (s : State) : (regSet k v s).vault = s.vault := rfl
@[simp] theorem regSet_cust (k : Nat) (v : Word) (s : State) : (regSet k v s).cust = s.cust := rfl
@[simp] theorem regSet_otp (k : Nat) (v : Word) (s : State) : (regSet k v s).otp = s.otp := rfl
@[simp] theorem regSet_backup (k : Nat) (v : Word) (s : State) : (regSet k v s).backup = s.backup := rfl
@[simp] theorem regSet_tamper (k : Nat) (v : Word) (s : State) : (regSet k v s).tamper = s.tamper := rfl
@[simp] theorem regSet_punty (k : Nat) (v : Word) (s : State) : (regSet k v s).punty = s.punty := rfl
@[simp] theorem regSet_regs (k : Nat) (v : Word) (s : State) : (regSet k v s).regs = assocSet k (if v = csrReset k then none else some v) s.regs := rfl
@[simp] theorem regSet_free (k : Nat) (v : Word) (s : State) : (regSet k v s).free = s.free := rfl
@[simp] theorem regSet_pending (k : Nat) (v : Word) (s : State) : (regSet k v s).pending = s.pending := rfl

/-! ### `furrowSet` -/

@[simp] theorem furrowSet_fuses (f : Nat) (v : Option Furrow) (s : State) : (furrowSet f v s).fuses = s.fuses := rfl
@[simp] theorem furrowSet_dev (f : Nat) (v : Option Furrow) (s : State) : (furrowSet f v s).dev = s.dev := rfl
@[simp] theorem furrowSet_ports (f : Nat) (v : Option Furrow) (s : State) : (furrowSet f v s).ports = s.ports := rfl
@[simp] theorem furrowSet_cmdif (f : Nat) (v : Option Furrow) (s : State) : (furrowSet f v s).cmdif = s.cmdif := rfl
@[simp] theorem furrowSet_furrows (f : Nat) (v : Option Furrow) (s : State) : (furrowSet f v s).furrows = assocSet f v s.furrows := rfl
@[simp] theorem furrowSet_units (f : Nat) (v : Option Furrow) (s : State) : (furrowSet f v s).units = s.units := rfl
@[simp] theorem furrowSet_keytab (f : Nat) (v : Option Furrow) (s : State) : (furrowSet f v s).keytab = s.keytab := rfl
@[simp] theorem furrowSet_rng (f : Nat) (v : Option Furrow) (s : State) : (furrowSet f v s).rng = s.rng := rfl
@[simp] theorem furrowSet_cipher (f : Nat) (v : Option Furrow) (s : State) : (furrowSet f v s).cipher = s.cipher := rfl
@[simp] theorem furrowSet_pke (f : Nat) (v : Option Furrow) (s : State) : (furrowSet f v s).pke = s.pke := rfl
@[simp] theorem furrowSet_warden (f : Nat) (v : Option Furrow) (s : State) : (furrowSet f v s).warden = s.warden := rfl
@[simp] theorem furrowSet_flash (f : Nat) (v : Option Furrow) (s : State) : (furrowSet f v s).flash = s.flash := rfl
@[simp] theorem furrowSet_cistern (f : Nat) (v : Option Furrow) (s : State) : (furrowSet f v s).cistern = s.cistern := rfl
@[simp] theorem furrowSet_vault (f : Nat) (v : Option Furrow) (s : State) : (furrowSet f v s).vault = s.vault := rfl
@[simp] theorem furrowSet_cust (f : Nat) (v : Option Furrow) (s : State) : (furrowSet f v s).cust = s.cust := rfl
@[simp] theorem furrowSet_otp (f : Nat) (v : Option Furrow) (s : State) : (furrowSet f v s).otp = s.otp := rfl
@[simp] theorem furrowSet_backup (f : Nat) (v : Option Furrow) (s : State) : (furrowSet f v s).backup = s.backup := rfl
@[simp] theorem furrowSet_tamper (f : Nat) (v : Option Furrow) (s : State) : (furrowSet f v s).tamper = s.tamper := rfl
@[simp] theorem furrowSet_punty (f : Nat) (v : Option Furrow) (s : State) : (furrowSet f v s).punty = s.punty := rfl
@[simp] theorem furrowSet_regs (f : Nat) (v : Option Furrow) (s : State) : (furrowSet f v s).regs = s.regs := rfl
@[simp] theorem furrowSet_free (f : Nat) (v : Option Furrow) (s : State) : (furrowSet f v s).free = s.free := rfl
@[simp] theorem furrowSet_pending (f : Nat) (v : Option Furrow) (s : State) : (furrowSet f v s).pending = s.pending := rfl

/-! ### `coreMod` -/

@[simp] theorem coreMod_fuses (n : Nat) (f : Core → Core) (s : State) : (coreMod n f s).fuses = s.fuses := rfl
@[simp] theorem coreMod_dev (n : Nat) (f : Core → Core) (s : State) : (coreMod n f s).dev = s.dev := rfl
@[simp] theorem coreMod_ports (n : Nat) (f : Core → Core) (s : State) : (coreMod n f s).ports = s.ports := rfl
@[simp] theorem coreMod_cmdif (n : Nat) (f : Core → Core) (s : State) : (coreMod n f s).cmdif = s.cmdif := rfl
@[simp] theorem coreMod_furrows (n : Nat) (f : Core → Core) (s : State) : (coreMod n f s).furrows = s.furrows := rfl
@[simp] theorem coreMod_units (n : Nat) (f : Core → Core) (s : State) : (coreMod n f s).units = s.units := rfl
@[simp] theorem coreMod_keytab (n : Nat) (f : Core → Core) (s : State) : (coreMod n f s).keytab = s.keytab := rfl
@[simp] theorem coreMod_rng (n : Nat) (f : Core → Core) (s : State) : (coreMod n f s).rng = s.rng := rfl
@[simp] theorem coreMod_cipher (n : Nat) (f : Core → Core) (s : State) : (coreMod n f s).cipher = s.cipher := rfl
@[simp] theorem coreMod_pke (n : Nat) (f : Core → Core) (s : State) : (coreMod n f s).pke = s.pke := rfl
@[simp] theorem coreMod_flash (n : Nat) (f : Core → Core) (s : State) : (coreMod n f s).flash = s.flash := rfl
@[simp] theorem coreMod_cistern (n : Nat) (f : Core → Core) (s : State) : (coreMod n f s).cistern = s.cistern := rfl
@[simp] theorem coreMod_vault (n : Nat) (f : Core → Core) (s : State) : (coreMod n f s).vault = s.vault := rfl
@[simp] theorem coreMod_cust (n : Nat) (f : Core → Core) (s : State) : (coreMod n f s).cust = s.cust := rfl
@[simp] theorem coreMod_otp (n : Nat) (f : Core → Core) (s : State) : (coreMod n f s).otp = s.otp := rfl
@[simp] theorem coreMod_backup (n : Nat) (f : Core → Core) (s : State) : (coreMod n f s).backup = s.backup := rfl
@[simp] theorem coreMod_tamper (n : Nat) (f : Core → Core) (s : State) : (coreMod n f s).tamper = s.tamper := rfl
@[simp] theorem coreMod_punty (n : Nat) (f : Core → Core) (s : State) : (coreMod n f s).punty = s.punty := rfl
@[simp] theorem coreMod_regs (n : Nat) (f : Core → Core) (s : State) : (coreMod n f s).regs = s.regs := rfl
@[simp] theorem coreMod_free (n : Nat) (f : Core → Core) (s : State) : (coreMod n f s).free = s.free := rfl
@[simp] theorem coreMod_pending (n : Nat) (f : Core → Core) (s : State) : (coreMod n f s).pending = s.pending := rfl

/-! ### `cmdPut` -/

@[simp] theorem cmdPut_fuses (c : Cmd) (s : State) : (cmdPut c s).fuses = s.fuses := rfl
@[simp] theorem cmdPut_dev (c : Cmd) (s : State) : (cmdPut c s).dev = s.dev := rfl
@[simp] theorem cmdPut_ports (c : Cmd) (s : State) : (cmdPut c s).ports = s.ports := rfl
@[simp] theorem cmdPut_furrows (c : Cmd) (s : State) : (cmdPut c s).furrows = s.furrows := rfl
@[simp] theorem cmdPut_units (c : Cmd) (s : State) : (cmdPut c s).units = s.units := rfl
@[simp] theorem cmdPut_keytab (c : Cmd) (s : State) : (cmdPut c s).keytab = s.keytab := rfl
@[simp] theorem cmdPut_rng (c : Cmd) (s : State) : (cmdPut c s).rng = s.rng := rfl
@[simp] theorem cmdPut_cipher (c : Cmd) (s : State) : (cmdPut c s).cipher = s.cipher := rfl
@[simp] theorem cmdPut_pke (c : Cmd) (s : State) : (cmdPut c s).pke = s.pke := rfl
@[simp] theorem cmdPut_warden (c : Cmd) (s : State) : (cmdPut c s).warden = s.warden := rfl
@[simp] theorem cmdPut_flash (c : Cmd) (s : State) : (cmdPut c s).flash = s.flash := rfl
@[simp] theorem cmdPut_cistern (c : Cmd) (s : State) : (cmdPut c s).cistern = s.cistern := rfl
@[simp] theorem cmdPut_vault (c : Cmd) (s : State) : (cmdPut c s).vault = s.vault := rfl
@[simp] theorem cmdPut_cust (c : Cmd) (s : State) : (cmdPut c s).cust = s.cust := rfl
@[simp] theorem cmdPut_otp (c : Cmd) (s : State) : (cmdPut c s).otp = s.otp := rfl
@[simp] theorem cmdPut_backup (c : Cmd) (s : State) : (cmdPut c s).backup = s.backup := rfl
@[simp] theorem cmdPut_tamper (c : Cmd) (s : State) : (cmdPut c s).tamper = s.tamper := rfl
@[simp] theorem cmdPut_punty (c : Cmd) (s : State) : (cmdPut c s).punty = s.punty := rfl
@[simp] theorem cmdPut_regs (c : Cmd) (s : State) : (cmdPut c s).regs = s.regs := rfl
@[simp] theorem cmdPut_free (c : Cmd) (s : State) : (cmdPut c s).free = s.free := rfl
@[simp] theorem cmdPut_pending (c : Cmd) (s : State) : (cmdPut c s).pending = s.pending := rfl

/-! ### `cmdDrop` -/

@[simp] theorem cmdDrop_fuses (id : Nat) (s : State) : (cmdDrop id s).fuses = s.fuses := rfl
@[simp] theorem cmdDrop_dev (id : Nat) (s : State) : (cmdDrop id s).dev = s.dev := rfl
@[simp] theorem cmdDrop_ports (id : Nat) (s : State) : (cmdDrop id s).ports = s.ports := rfl
@[simp] theorem cmdDrop_furrows (id : Nat) (s : State) : (cmdDrop id s).furrows = s.furrows := rfl
@[simp] theorem cmdDrop_units (id : Nat) (s : State) : (cmdDrop id s).units = s.units := rfl
@[simp] theorem cmdDrop_keytab (id : Nat) (s : State) : (cmdDrop id s).keytab = s.keytab := rfl
@[simp] theorem cmdDrop_rng (id : Nat) (s : State) : (cmdDrop id s).rng = s.rng := rfl
@[simp] theorem cmdDrop_cipher (id : Nat) (s : State) : (cmdDrop id s).cipher = s.cipher := rfl
@[simp] theorem cmdDrop_pke (id : Nat) (s : State) : (cmdDrop id s).pke = s.pke := rfl
@[simp] theorem cmdDrop_warden (id : Nat) (s : State) : (cmdDrop id s).warden = s.warden := rfl
@[simp] theorem cmdDrop_flash (id : Nat) (s : State) : (cmdDrop id s).flash = s.flash := rfl
@[simp] theorem cmdDrop_cistern (id : Nat) (s : State) : (cmdDrop id s).cistern = s.cistern := rfl
@[simp] theorem cmdDrop_vault (id : Nat) (s : State) : (cmdDrop id s).vault = s.vault := rfl
@[simp] theorem cmdDrop_cust (id : Nat) (s : State) : (cmdDrop id s).cust = s.cust := rfl
@[simp] theorem cmdDrop_otp (id : Nat) (s : State) : (cmdDrop id s).otp = s.otp := rfl
@[simp] theorem cmdDrop_backup (id : Nat) (s : State) : (cmdDrop id s).backup = s.backup := rfl
@[simp] theorem cmdDrop_tamper (id : Nat) (s : State) : (cmdDrop id s).tamper = s.tamper := rfl
@[simp] theorem cmdDrop_punty (id : Nat) (s : State) : (cmdDrop id s).punty = s.punty := rfl
@[simp] theorem cmdDrop_regs (id : Nat) (s : State) : (cmdDrop id s).regs = s.regs := rfl
@[simp] theorem cmdDrop_free (id : Nat) (s : State) : (cmdDrop id s).free = s.free := rfl
@[simp] theorem cmdDrop_pending (id : Nat) (s : State) : (cmdDrop id s).pending = s.pending := rfl

/-! ### The part that was written, read back -/

@[simp] theorem State.modPort_port_self (s : State) (p : Port) (f : PortSt → PortSt) : (s.modPort p f).port p = f (s.port p) := by
  cases p <;> rfl

@[simp] theorem State.modPort_port_other (s : State) (p : Port) (f : PortSt → PortSt) :
    (s.modPort p f).port (otherPort p) = s.port (otherPort p) := by
  cases p <;> rfl

@[simp] theorem State.modSrc_src_self (s : State) (x : Side) (f : NoiseSrc → NoiseSrc) : (s.modSrc x f).src x = f (s.src x) := by
  cases x <;> rfl

end Sys2Proof.Machine
end

