-- ==== Sys2Proof/Tests/Slice0.lean ====
section
/-! SUPPORT. Small checks of the model: what `WellFormed` refuses, what a step does on one small state, and for each statement with
hypotheses states and operands that meet them. -/
namespace Sys2Proof.Tests
open Sys2Proof Sys2Proof.Machine Sys2Proof.Stated
-- One proof after another: each kernel evaluation waits for the one before it, and a thread for each would fill the memory.
set_option Elab.async false

/-! ### Small states -/

/-- A powered device in SERVICE: ports up, tallies and nonces to issue, the DRBG instantiated, a mask expander core of Flume and one of the
public-key engine seeded, a cartridge current, floors loaded. -/
def live : State := { State.reset with
  dev := { resetDev with boot := .running, mode := .service, nextTally := 100, tallyMark := 1048576, ddn := some 5 }
  ports := ⟨{ resetPort with up := true }, { resetPort with up := true }, State.reset.ports.hg, []⟩
  rng := { resetRng with inst := true, started := true, keySrc := some .a, seeds := [(16, zeros 32), (20, zeros 32)] }
  cipher := { State.reset.cipher with nonceMark := 1048576 }
  keytab := { resetKeyTab with floorsLoaded := true, restoreDone := true }
  vault := { resetVault with ident := some 1, slot0 := { resetSlot with state := .current }, vaultKey := true, auditKey := true } }

/-- As `live`, with core 0 as given. -/
def liveCore (f : Core → Core) : State := coreMod 0 f live

/-- The state in which core 0 stands once its fetch is admitted. -/
def fetched (s : State) : State :=
  coreMod 0 (fun x => { x with waiting := false }) (coreMod 0 (fun k => { k with
    since0 := if inFlash (coreGet 0 s).pc.toNat && partOf (coreGet 0 s).pc.toNat == 0 then 0 else min 64 (k.since0 + 1)
    since1 := if inFlash (coreGet 0 s).pc.toNat && partOf (coreGet 0 s).pc.toNat == 1 then 0 else min 64 (k.since1 + 1) }) s)

theorem fetches (f : Core → Core) (hr : coreRuns 0 (liveCore f) = true := by decide)
    (hf : fetchCheck 0 (liveCore f) = .ok () (coreMod 0 (fun k => { k with
      since0 := if inFlash (coreGet 0 (liveCore f)).pc.toNat && partOf (coreGet 0 (liveCore f)).pc.toNat == 0 then 0 else min 64 (k.since0 + 1)
      since1 := if inFlash (coreGet 0 (liveCore f)).pc.toNat && partOf (coreGet 0 (liveCore f)).pc.toNat == 1 then 0
        else min 64 (k.since1 + 1) }) (liveCore f)) := by rfl) :
    Fetches 0 (liveCore f) (fetched (liveCore f)) := ⟨hr, _, hf, rfl⟩

theorem witness_IdleStepTicksTheRtc : live.pending = [] ∧ (live.dev.mainOn = true ∨ live.backup.vbat = true) ∧ live.dev.posted = [] ∧
    live.tamper.raised = [] ∧ untallied live = [] := by decide

/-- Registers of a core in the tests: w1 is an SRAM address, w2 a number. -/
def regs12 (a b : Word) (k : Core) : Core := { k with regs := k.regs.set 1 a |>.set 2 b }

theorem witness_RegisterArithmeticCompletes : ∃ s s', Fetches 0 s s' ∧ Placed 0 s := ⟨_, _, fetches id, by decide⟩

theorem witness_ImmediateArithmeticCompletes : (∃ s s', Fetches 0 s s' ∧ Placed 0 s) ∧ (31 : BitVec 18).toNat < 32 ∧
    (0x3FFF : BitVec 18).toNat < 2 ^ 14 := ⟨⟨_, _, fetches id, by decide⟩, by decide⟩

theorem witness_LoadsFromSramComplete : ∃ s s', Fetches 0 s s' ∧ Placed 0 s ∧
    ∀ size ∈ [1, 2, 4], dataCheck (before 0 s) .load (((before 0 s).reg 1 + (4 : BitVec 18).signExtend 32).toNat) size s' = (none, none) ∧
      inSram (((before 0 s).reg 1 + (4 : BitVec 18).signExtend 32).toNat) = true :=
  ⟨_, _, fetches (regs12 0x10000000 7), by decide, by decide⟩

theorem witness_StoresToSramComplete : ∃ s s', Fetches 0 s s' ∧ Placed 0 s ∧
    (∀ size ∈ [1, 2, 4], dataCheck (before 0 s) .store (((before 0 s).reg 1 + (0 : BitVec 18).signExtend 32).toNat) size s' =
      (none, none) ∧ inSram (((before 0 s).reg 1 + (0 : BitVec 18).signExtend 32).toNat) = true) ∧
    cellsWf 0 s'.warden.sram = true :=
  ⟨_, _, fetches (regs12 0x101FFFFC 7), by decide, by decide, by decide⟩

/-- Core 0 at level S in SRAM, its MPU on: the code in region 0, and region 1 whose lines must have colour 1. -/
def coloured (k : Core) : Core :=
  { regs12 0x10001000 7 k with
    status := statusOf true 0 1, pc := 0x10000000, mpuctl := 1
    mpu := [⟨0x10000000, 0x1000003F, 0x10020⟩, ⟨0x10001000, 0x1000103F, 0x10190⟩] }

/-- A store that a granule's colour refuses, one that a bus fault refuses (the clause's own operand), one to the CSR window. -/
theorem witness_StoresToSramComplete_others :
    (∃ s s', Fetches 0 s s' ∧ Placed 0 s ∧ ∀ size ∈ [1, 2, 4],
      dataCheck (before 0 s) .store (((before 0 s).reg 1 + (60 : BitVec 18).signExtend 32).toNat) size s' = (none, some 1)) ∧
    (∃ s s', Fetches 0 s s' ∧ Placed 0 s ∧
      dataCheck (before 0 s) .store (((before 0 s).reg 1 + (0 : BitVec 18).signExtend 32).toNat) 4 s' = (none, none) ∧
      inWindow (((before 0 s).reg 1 + (0 : BitVec 18).signExtend 32).toNat) = true) :=
  ⟨⟨_, _, fetches coloured, by decide, by decide⟩, ⟨_, _, fetches (regs12 0x201FFFFC 7), by decide, by decide, by decide⟩⟩

theorem witness_AtomicsComplete : ∃ s s', Fetches 0 s s' ∧ Placed 0 s ∧
    dataCheck (before 0 s) .atomic ((before 0 s).reg 1).toNat 4 s' = (none, none) :=
  ⟨_, _, fetches (regs12 0x101FFFFC 7), by decide, by decide⟩

theorem witness_BranchesComplete : (∃ s s', Fetches 0 s s' ∧ PlacedBranch 0 s) ∧ ((1 : BitVec 4) ≠ 2 ∨ (1 : BitVec 4) = 0) ∧
    ((0 : BitVec 4) ≠ 0 ∨ (0 : BitVec 4) = 0) := ⟨⟨_, _, fetches id, by decide⟩, by decide⟩

theorem witness_HardwareLoopsStart : ∃ s s', Fetches 0 s s' ∧ PlacedBranch 0 s ∧ (before 0 s).lc = 0 ∧
    (0x1FFF : BitVec 14) ≠ 0 ∧ (0x1FFF : BitVec 14).msb = false := ⟨_, _, fetches id, by decide, by decide⟩

/-- A CSR that every level reads and writes (`LC`), one that only reads (`COREID`), and `SWINT`. -/
theorem witness_CoreCsrInstructionsComplete : (∃ s s', Fetches 0 s s' ∧ Placed 0 s ∧ (before 0 s).level = 3) ∧
    ccsrAccess 8 = some (0, 0, false) ∧ ccsrAccess 0x20 = some (0, 0, true) ∧ ccsrAccess 0x2A = some (1, 1, false) ∧
    ∀ c ∈ [8, 0x2A], ∀ v k tick, ccsrRefused c v k tick = false ∧ ccsrWaits c v k = false := by
  refine ⟨⟨_, _, fetches id, by decide, by decide⟩, by decide, by decide, by decide, ?_⟩
  intro c hc v k tick
  simp only [List.mem_cons, List.not_mem_nil, or_false] at hc
  rcases hc with rfl | rfl <;> simp [ccsrRefused, ccsrLocked, ccsrWaits]

theorem witness_SystemInstructionsComplete : ∃ s s', Fetches 0 s s' ∧ storeLate (before 0 s) = none ∧
    storeLate (coreGet 0 s') = none ∧ PlacedBranch 0 s ∧ Placed 0 s ∧ (before 0 s).level ≠ 0 ∧
    (before 0 s).prevLevel ≤ (before 0 s).level ∧ (before 0 s).prevLevel ≤ (before 0 s).pceil.toNat ∧
    inSram ((before 0 s).reg 1).toNat = true :=
  ⟨_, _, fetches (regs12 0x10000000 7), by decide⟩

/-- Unmasked, with an interrupt pending and enabled. -/
def irqCore (k : Core) : Core := { k with status := 0x0F, ipend := 0x100, ien := 0x100 }

theorem witness_CoreBoundariesComplete :
    (boundary 0 (liveCore fun k => { k with late := [1] }) = true ∧
      (coreGet 0 (liveCore fun k => { k with late := [1] })).late = [1]) ∧
    (let s := liveCore irqCore
     let k := coreGet 0 s
     s.dev.mainOn = true ∧ boundary 0 s = true ∧ k.masked = false ∧ k.late = [] ∧
      firstIrq (ipendOf k s.warden.tick &&& k.ien) = some 8) ∧
    (let k := coreGet 0 live
     live.dev.mainOn = true ∧ coreServes 0 live = true ∧ k.mpuctl.getLsbD 1 = false ∧
      (0x1000003E : Word).toNat % 64 + ([1, 2] : List Byte).length ≤ 64 ∧ inSram (0x1000003E : Word).toNat = true ∧
      inFlash (0x1000003E : Word).toNat = false) := by
  decide

/-! ### Applets -/

/-- A command in flight: number 1, on queue 1 of furrow 1, started. -/
def cmd (code : BitVec 16) (inl : List Byte := []) : Cmd :=
  { fetchedCmd 1 ⟨1, 1, 0, 4, 1, 1, 1, 1, 0, 0, true, 0, 0, [], [], [], false, false⟩ 0 0 7 .service with
    opcode := code, inl := inl, phase := .started }

/-- `live` with one command in flight and furrow 1 ACTIVE. -/
def withCmd (c : Cmd) (s : State := live) : State :=
  { s with
    furrows := [(0, resetFurrow0), (1, { resetFurrow0 with ptag := 7 })]
    cmdif := { s.cmdif with cmds := [c], nextId := 2 } }


/-- An invocation of applet 7 for command 1, with a frame of 8 KiB. -/
def inv : Invocation := ⟨1, 7, false, 1000, false, 16, 0x10001000, 8192, 0x10001000, 0xFFFF, none, none⟩

/-- Core 0 in the handler of `trap` number `m`, with arguments `a`, `b`, `d` and `e` in w1 to w4. -/
def serving (m : Nat) (i : Invocation) (a b d e : Word) : State :=
  liveCore fun k => { k with
    status := statusOf true 0 1, cause := 9, tval := BitVec.ofNat 32 m, inv := some i
    regs := [0, a, b, d, e] ++ List.replicate 11 0 }

theorem witness_AppletServicesComplete :
    inv.seg = none ∧ (∀ m ∈ [0, 2, 3, 4, 6], Calls 0 m inv (serving m inv 0x10001000 64 0 0)) ∧
    (let s := bump 0xA114 1 (serving 4 inv 0x10001000 96 4000 0)
     Calls 0 4 inv (serving 4 inv 0x10001000 96 4000 0) ∧ pstoreBusy 0 inv.applet s = false ∧ 96 + 4000 ≤ 4096 ∧
      inFrame inv 0x10001000 4000 = true) ∧
    (inFrame inv 0x10002FC0 64 = true ∧ auditSpace (bump 0xA114 1 (serving 6 inv 0x10002FC0 64 0 0)) = true) ∧
    (let s := serving 2 inv 0x10001000 4096 0 0
     ∃ bytes u, drawKey 4096 [] s = .ok bytes u ∧ Calls 0 2 inv u ∧ 1 ≤ arg 0 2 s ∧ arg 0 2 s = 4096 ∧
      inFrame inv (arg 0 1 s) (arg 0 2 s) = true) ∧
    (let i := { inv with budget := 0 }
     let s := liveCore fun k => { k with status := 0, inv := some i }
     (coreGet 0 s).inv = some i ∧ s.dev.mainOn = true ∧ coreServes 0 s = true ∧ i.budget = 0 ∧ (coreGet 0 s).level = 0) := by
  refine ⟨rfl, by decide, by decide, by decide, ⟨_, _, drawKey_ok (by decide) (by decide) (by decide), ?_⟩, by decide⟩
  exact ⟨rfl, by decide, rfl, by decide⟩

/-- The frame's first 64 bytes: the entry of `RNG_HEALTH`, with its result behind it. -/
def entryCells : List Host.Cell :=
  [(0x10001000, 0x02), (0x10001001, 0x50), (0x10001020, 0x40), (0x10001021, 0x10), (0x10001023, 0x10), (0x1000102C, 0x40)]

/-- Core 0 serving `CALL` for command 1, with the entry at the frame's start. -/
def calling : State :=
  let s := withCmd (cmd 0xA003) (serving 1 inv 0x10001000 0x10002FE0 0 0)
  { s with warden := { s.warden with sram := entryCells } }

theorem witness_WaitingServicesComplete :
    (let s := bump 0xA114 1 calling
     let c := calledCmd 0 inv (cmd 0xA003) (sramRead (arg 0 1 s) 64 s) s
     Calls 0 1 inv calling ∧ inv.seg = none ∧ cmdGet inv.cmd s = some (cmd 0xA003) ∧ inv.hook = false ∧
      inFrame inv (arg 0 1 s) 64 = true ∧ inFrame inv (arg 0 2 s) 32 = true ∧ ((2 ≤ c.cls ∧ c.cls ≤ 5) ∨ c.opcode = 0x1006) ∧
      c.flags &&& 0xFB = 0 ∧ dispatchStatus c c.mode s = none ∧ callParts inv c = true) ∧
    (let s := serving 5 inv 0x10001000 96 4000 0
     let t := bump 0xA114 1 s
     Calls 0 5 inv s ∧ pstoreBusy 0 inv.applet t = false ∧ arg 0 2 t + arg 0 3 t ≤ 4096 ∧ inFrame inv (arg 0 1 t) (arg 0 3 t) = true ∧
      arg 0 4 t = (pstoreOf inv.applet t).1 ∧ vaultAccepts t = true) ∧
    (let i := { inv with seg := some 0 }
     let s := serving 5 i 0x10001000 96 4000 0
     Calls 0 5 i s ∧ i.seg = some 0 ∧ indeterminate 0 s = false ∧ durable 0 s = true) := by
  decide +kernel

/-! ### Registers -/

/-- `live` with every guard armed and the Headgate with port A. -/
def armed : State :=
  { live with dev := { live.dev with armed := 0xFFFF }, ports := { live.ports with hg := { live.ports.hg with owner := .a } } }

theorem accepts (s : State) (r : Requester) (key : Nat) (v : Word) (hk : key < 0x10000) (h9 : key ≠ 0x9008)
    (hs : Reaches r s ∧ passesGate r s = true ∧ s.dev.mode = .service ∧ s.dev.armed = 0xFFFF ∧ s.fuses.grade = .x8) :
    Accepts r key v s := by
  obtain ⟨h1, h2, h3, h4, h5⟩ := hs
  have h6 : guardArmed (key / 0x1000) s = true := by
    have : key / 0x1000 < 16 := by omega
    have all : ∀ n < 16, (0xFFFF : BitVec 16).getLsbD n = true := by decide
    simp only [guardArmed, h4]
    exact all _ this
  refine ⟨h1, ?_, ?_, fun _ => ⟨h2, h6⟩, fun _ => ⟨h2, ?_⟩⟩
  · simp [writeBarred, rearm, State.modDev, h3]
  · have : (key - 0x9040) / 16 < 4 ∨ ¬ (0x9040 ≤ key ∧ key < 0x9080) := by omega
    simp only [unfitted, rearm, State.modDev, meshFitted, slotFitted, h5]
    rcases this with h | h <;> simp [h]
    all_goals omega
  · simp [locked, h9]

theorem witness_WritesAreCheckedInOrder :
    (Reaches (.host .a) armed ∧ (0x4FFFF : BitVec 21).toNat < 0x100000 ∧
      writeBarred (.host .a) (csrKey (0x40003 : BitVec 21).toNat) (rearm 4 armed) = false ∧
      (Width.b32 = .b32 ∧ (0x40003 : BitVec 21).toNat % 4 ≠ 0) ∧ (Width.b64 = .b64 ∧ (0x40004 : BitVec 21).toNat % 8 ≠ 0)) ∧
    -- VAULT_SLOT1_CTL of the ZJE9-S4
    (csrKey (0xC001C : BitVec 21).toNat = 0xC01C ∧
      unfitted 0xC01C (rearm 0xC { armed with fuses := { armed.fuses with grade := .s4 } }) = true) ∧
    -- PORT_A_CTL with one guarded bit changed: no Headgate, then no armed guard
    (csrKey (0x10020 : BitVec 21).toNat = 0x1020 ∧ unfitted 0x1020 (rearm 1 armed) = false ∧
      ((0x40000000 : Word) ^^^ csrNow (.host .b) 0x1020 (rearm 1 armed)) &&& guardBits 0x1020 ≠ 0 ∧
      passesGate (.host .b) (rearm 1 armed) = false ∧
      passesGate (.core 0) (rearm 1 live) = true ∧ guardArmed 1 live = false) ∧
    -- CISTERN_DOMAIN_CFG with its lock set
    (let s := regSet 0x9008 0x80000000 armed
     passesGate (.core 0) (rearm 9 s) = true ∧ ((0 : Word) ^^^ csrNow (.core 0) 0x9008 (rearm 9 s)) &&& lockBits 0x9008 ≠ 0 ∧
      locked 0x9008 (rearm 9 s) = true) ∧
    Accepts (.core 0) 0x1020 0x40000000 armed :=
  ⟨by decide, by decide, by decide, by decide, accepts _ _ _ _ (by decide) (by decide) (by decide)⟩

theorem witness_UnlockArmsTheGuard : Reaches (.core 0) live ∧
    (∀ blk : Fin 16, writeBarred (.core 0) (blk.val * 0x1000 + 0xFFC) live = false) ∧
    (0x51C3E00F : Word) = 0x51C3E000 + BitVec.ofNat 32 (15 : Fin 16).val ∧
    (0x51C3E00E : Word) ≠ 0x51C3E000 + BitVec.ofNat 32 (15 : Fin 16).val := by decide

/-- `DEVICE_TALLY_MARK`, low word, and its higher word. -/
theorem witness_WideValuesLatch :
    Reaches (.host .a) live ∧ readBarred (.host .a) 0x38 live = false ∧ (0x38 : BitVec 21).toNat % 4 = 0 ∧
    csrKey (0x38 : BitVec 21).toNat = 0x38 ∧
    wideHighs 0x38 = [0x3C] ∧ wideTop 0x38 = [] ∧ latched (.host .a) 0x38 live = none ∧ wideTop 0x3C = [0x3C] ∧ wideHighs 0x3C = [] := by
  decide

theorem rngWord_ok (r : Requester) (s : State) (h1 : s.rng.stopped = false) (h2 : (isHost r && class5Forbidden s.dev.mode) = false)
    (h3 : (assocGet (reqCode r) s.rng.bufs).getD [] = []) (h4 : keyReady s = true) (h5 : s.rng.requests < 1048576) :
    ∃ w u, rngWord r s = .ok w u := by
  unfold rngWord
  rw [if_neg (by simp [h1, h2])]
  dsimp only
  rw [h3, drawKey_ok h1 h4 h5]
  exact ⟨_, _, rfl⟩

theorem witness_NoiseReadsComplete :
    Reaches (.core 0) live ∧ readBarred (.core 0) 0x80020 live = false ∧ latched (.core 0) 0x8044 live = none ∧
    latched (.core 0) 0x8064 live = none ∧
    (let s := { live with rng := { live.rng with bufs := [(reqCode (.core 0), [1, 2])] } }
     s.rng.stopped = false ∧ (isHost (.core 0) && class5Forbidden s.dev.mode) = false ∧ keyReady s = true ∧
      assocGet (reqCode (.core 0)) s.rng.bufs = some (1 :: [2]) ∧
      ∃ w u h t, rngWord (.core 0) s = .ok w u ∧ rngWord (.core 0) u = .ok h t) ∧
    (live.rng.stopped = false ∧ (isHost (.core 0) && class5Forbidden live.dev.mode) = false ∧ keyReady live = true ∧
      assocGet (reqCode (.core 0)) live.rng.bufs = none ∧ ∃ bytes u, drawKey 32 [] live = .ok bytes u) ∧
    ∃ w u, rngWord (.core 0) live = .ok w u :=
  ⟨by decide, by decide, by decide, by decide, ⟨by decide, by decide, by decide, by decide, _, _, _, _, rfl, rfl⟩,
    ⟨by decide, by decide, by decide, by decide, _, _, drawKey_ok (by decide) (by decide) (by decide)⟩,
    rngWord_ok _ _ (by decide) (by decide) (by decide) (by decide) (by decide)⟩

/-- `armed` with the event ring of port A as given. -/
def ringed (g : EvtRing → EvtRing) : State :=
  { armed with ports := { armed.ports with a := { armed.ports.a with ring := g armed.ports.a.ring } } }

theorem witness_RegisterRowsComplete_ports :
    -- the largest ring enabled, one disabled, the last index as head; a port trains anew, is held down, is let go
    (Accepts (.host .a) (evtKey .a + 8) 0x80F00000 armed ∧ (armed.port .a).ring.en = false ∧ fieldOf 0x80F00000 23 20 = 15) ∧
    (let s := ringed fun g => { g with en := true }
     Accepts (.host .a) (evtKey .a + 8) 0 s ∧ (s.port .a).ring.en = true) ∧
    (let s := ringed fun g => { g with tail := 63 }
     let g := (s.port .a).ring
     Accepts (.host .a) (evtKey .a + 0xC) 63 s ∧ fieldOf 63 15 0 < 2 ^ g.sizeLog2 ∧
      (63 + 2 ^ g.sizeLog2 - g.head) % 2 ^ g.sizeLog2 ≤ (g.tail + 2 ^ g.sizeLog2 - g.head) % 2 ^ g.sizeLog2) ∧
    (Accepts (.core 0) (portCtlKey .b) (0 ||| 0x80000000) armed ∧ ((0 : Word) ||| 0x80000000).getLsbD 30 = false) ∧
    (∀ v ∈ [(0x40000000 : Word), 0], Accepts (.core 0) (portCtlKey .b) (v &&& 0x7FFFFFFF) armed) ∧
    ((0x40000000 : Word) &&& 0x7FFFFFFF).getLsbD 30 = true ∧ ((0 : Word) &&& 0x7FFFFFFF).getLsbD 30 = false := by
  refine ⟨⟨accepts _ _ _ _ (by decide) (by decide) (by decide), by decide, by decide⟩,
    ⟨accepts _ _ _ _ (by decide) (by decide) (by decide), by decide⟩,
    ⟨accepts _ _ _ _ (by decide) (by decide) (by decide), by decide, by decide⟩,
    ⟨accepts _ _ _ _ (by decide) (by decide) (by decide), by decide⟩, ?_, by decide, by decide⟩
  intro v _
  exact accepts _ _ _ _ (by decide) (by decide) (by decide)

theorem witness_RegisterRowsComplete_engines :
    -- the admin queue made with rings of 2^15 and 2^4 and every bit of CREDITS, and disabled
    (let on : Word := 0x004F0FFF ||| 0x80000000
     Accepts (.core 0) 0x2020 on armed ∧ regBit 0x2020 31 armed = false ∧ fieldOf on 19 16 = 15 ∧ fieldOf on 23 20 = 4 ∧
      1 ≤ fieldOf on 11 0 ∧ fieldOf on 11 0 ≤ armed.cmdif.pool ∧ reg64 0x2010 armed % 64 = 0 ∧ reg64 0x2018 armed % 32 = 0 ∧
      sqGet 0 0 armed = none) ∧
    (let s := regSet 0x2020 0x80000000 armed
     Accepts (.core 0) 0x2020 0x7FFFFFFF s ∧ regBit 0x2020 31 s = true) ∧
    -- key slot 63, algorithm 5, colour 15, furrow 0, and its clearing
    (let load : Word := (0x3FF50000 &&& 0x3FFFFFFF) ||| 0x40000000
     Accepts (.core 0) 0x5060 load armed ∧ fieldOf 0x3FF50000 19 16 = 5 ∧ fieldOf 0x3FF50000 23 20 ≠ 0 ∧
      furrowState (fieldOf 0x3FF50000 11 0) armed ≠ .free ∧ (kslotGet (fieldOf 0x3FF50000 29 24) armed).seq ≠ 0xFFFFFFFF ∧
      armed.tamper.respLevel < 3) ∧
    Accepts (.core 0) 0x5060 ((0x3F000000 &&& 0x3FFFFFFF) ||| 0x80000000) armed ∧
    (∀ key ∈ [0x5004, 0x6004, 0x7004], ∀ v ∈ [(0 : Word), 1], Accepts (.core 0) key v armed) ∧
    cipherDisabled armed = false ∧ flumeDisabled armed = false ∧ pkeDisabled armed = false ∧
    -- KEY_PREF to source A, in service and not
    (∀ st ∈ [SrcState.inService, .starting], let s := { armed with rng := { armed.rng with
       keySrc := some .b, a := { armed.rng.a with st := st } } }
     Accepts (.core 0) 0x8004 0 s ∧ (0 : Word).getLsbD 0 ≠ regBit 0x8004 0 s ∧ s.rng.started = true ∧ s.rng.stopped = false ∧
      (s.src .a).st = st ∧ s.rng.keySrc ≠ some .a) ∧
    Accepts (.core 0) 0x8080 (0 ||| 0x80000000) armed := by
  refine ⟨⟨accepts _ _ _ _ (by decide) (by decide) (by decide), by decide⟩,
    ⟨accepts _ _ _ _ (by decide) (by decide) (by decide), by decide⟩,
    ⟨accepts _ _ _ _ (by decide) (by decide) (by decide), by decide⟩,
    accepts _ _ _ _ (by decide) (by decide) (by decide), ?_, by decide, by decide, by decide, ?_,
    accepts _ _ _ _ (by decide) (by decide) (by decide)⟩
  · intro key h v _
    exact accepts _ _ _ _ (by revert key; decide) (by revert key; decide) (by decide)
  · intro st h
    simp only [List.mem_cons, List.not_mem_nil, or_false] at h
    rcases h with rfl | rfl <;> exact ⟨accepts _ _ _ _ (by decide) (by decide) (by decide), by decide⟩

/-- `live` with one posted write at its last edge. -/
def posting (key : Nat) : State := { live with dev := { live.dev with posted := [⟨key, 1, 1⟩] } }

theorem witness_RegisterRowsComplete_others :
    (∀ m : Fin 4, let on : Word := 0 ||| 0x80000000
     Accepts (.core 0) (0x9044 + 16 * m.val) on armed ∧ on.getLsbD 30 = false ∧ (on ^^^ meshCtl m.val armed) &&& 0x4000000F = 0 ∧
      m.val < meshFitted armed ∧ meshRetired m.val armed = false ∧ meshDisabled m.val armed = false ∧ meshHeld m.val armed = false) ∧
    (∀ m : Fin 4, let off : Word := 0x40000000 &&& 0x7FFFFFFF
     Accepts (.core 0) (0x9044 + 16 * m.val) off armed ∧ off.getLsbD 30 = true ∧ (off ^^^ meshCtl m.val armed) &&& 0x4000000F ≠ 0) ∧
    (∀ d : Fin 2, let s := { armed with vault := { armed.vault with slot1 := { resetSlot with state := .current } } }
     Accepts (.core 0) (0xC018 + 4 * d.val) (0 ||| 1) s ∧ regBit (0xC018 + 4 * d.val) 0 s = false ∧ (s.cart d.val).state ≠ .empty ∧
      currentSlots s ≠ [d.val]) ∧
    (Accepts (.core 0) 0xE00C 0x7FFFFFFF armed ∧ pend 0xE00C armed = false) ∧
    (∀ q ∈ [SlowReg.alarm, .level0, .pin 7], let s := posting (slowKey q)
     s.dev.mainOn = true ∧ landsNext (slowKey q) s = true ∧ s.dev.posted = [⟨slowKey q, 1, 1⟩] ∧ s.tamper.raised = [] ∧ untallied s = []) := by
  refine ⟨fun m => ⟨accepts _ _ _ _ (by omega) (by omega) (by decide), by revert m; decide⟩,
    fun m => ⟨accepts _ _ _ _ (by omega) (by omega) (by decide), by revert m; decide⟩,
    fun d => ⟨accepts _ _ _ _ (by omega) (by omega) (by decide), by revert d; decide⟩,
    ⟨accepts _ _ _ _ (by decide) (by decide) (by decide), by decide⟩, by decide⟩

/-! ### The Headgate and the ports -/

/-- `live` with the Headgate as given. -/
def gate (f : Headgate → Headgate) : State := { live with ports := { live.ports with hg := f live.ports.hg } }

theorem witness_HeadgateAnswersCommands :
    (∀ f ∈ [id, fun h => { h with owner := .a, lease := 1 }, fun h => { h with owner := .b, waitA := some 255 },
      fun h => { h with owner := .a, lease := 1, waitB := some 0 }], Speaks .a (gate f)) ∧
    (gate id).ports.hg.owner = .free ∧ hgWait .a (gate id).ports.hg = none ∧
    (let h := (gate fun h => { h with owner := .a, lease := 1 }).ports.hg
     h.owner = hgOf .a ∧ h.lease ≠ 0 ∧ hgWait .b h = none) ∧
    (let h := (gate fun h => { h with owner := .b, waitA := some 255 }).ports.hg
     h.owner = hgOf .b ∧ h.owner ≠ hgOf .a ∧ hgWait .a h = some 255) ∧
    (let h := (gate fun h => { h with owner := .a, lease := 1, waitB := some 0 }).ports.hg
     h.owner = hgOf .a ∧ h.lease ≠ 0 ∧ hgWait .b h = some 0) ∧
    (let s := gate fun h => { h with owner := .b, waitA := some 0 }
     let t := { s with ports := { s.ports with b := resetPort } }
     Speaks .a t ∧ t.ports.hg.owner = hgOf .b ∧ (t.port .b).up = false ∧ hgWait .a t.ports.hg = some 0) ∧
    (let s := gate fun h => { h with owner := .b }
     let t := { s with ports := { s.ports with b := resetPort } }
     Speaks .a t ∧ t.ports.hg.owner = hgOf .b ∧ (t.port .b).up = false ∧ hgWait .a t.ports.hg = none) := by
  refine ⟨?_, by decide, by decide, by decide, by decide, by decide, by decide, by decide⟩
  intro f _; exact ⟨rfl, rfl, rfl⟩

theorem witness_HeadgateTieGoesToTieNext :
    ∀ b, let s := gate fun h => { h with tieNext := b }
      Speaks .a s ∧ Speaks (otherPort .a) s ∧ s.ports.hg.owner = .free := by decide

theorem witness_HeadgateChangeIsOneStep : Speaks .b live ∧ live.ports.hg.owner = .free := by decide

/-- `live` with port A as given. -/
def portA (f : PortSt → PortSt) : State := { live with ports := { live.ports with a := f live.ports.a } }

theorem witness_PortEventsComplete :
    (let s := portA fun q => { q with up := false, training := true }
     (s.port .a).training = true ∧ bestRate 1 (min (rateCap (fieldOf (regGet (portCtlKey .a) s) 29 27))
      (rateCap (((0x1400 : BitVec 16).toNat >>> 10) % 8))) = some 0) ∧
    (let q := (portA fun q => { q with up := false, capWait := true }).port .a
     q.capWait = true ∧ q.up = false ∧ (0xE000 : BitVec 16).getLsbD 15 = true ∧ (0xE000 : BitVec 16).getLsbD 14 = true ∧
      (0xE000 : BitVec 16).getLsbD 13 = true) ∧
    (let s := portA fun q => { q with up := false }
     s.dev.mainOn = true ∧ (s.port .a).up = false ∧ (s.port .a).training = false ∧ portDisabled .a s = false) ∧
    (let s := portA fun q => { q with replay := [(0xFFF, zeros 240)] }
     (s.port .a).up = true ∧ (s.port .a).training = false ∧ (s.port .a).replay ≠ [] ∧ portDisabled .a s = false) ∧
    (let q := (portA fun q => { q with training := true, attempts := 2 }).port .a
     q.up = true ∧ q.training = true ∧ q.attempts = 2) ∧
    (let q := (portA fun q => { q with unflushed := [⟨.irq, 0, [], none, 0, none, 0⟩] }).port .a
     q.up = true ∧ q.unflushed ≠ []) := by
  decide

/-- A DATA flit in its turn and one behind it, a NULL flit, one whose CRC is wrong. -/
theorem witness_PortEventsComplete_flits :
    (live.port .a).up = true ∧ (live.port .a).training = false ∧ (live.port .a).rxSeq = 0xFFF ∧
    (∀ n ∈ [(0 : BitVec 12), 1], let f := flitBytes ⟨1, n, 0xFFF, false, 0, 0⟩ []
     flitCrcOk f = true ∧ (flitHdr f).ftype = 1 ∧ (flitHdr f).seq = n ∧ (flitHdr f).nak = false) ∧
    (let f := flitBytes ⟨0, 0xFFF, 0xFFF, false, 255, 255⟩ []
     flitCrcOk f = true ∧ (flitHdr f).ftype = 0 ∧ (flitHdr f).seq = 0xFFF ∧ (flitHdr f).nak = false) ∧
    ∃ f, flitCrcOk f = false := by
  refine ⟨rfl, rfl, rfl, ?_, ?_, _, flitBytes_damaged ⟨1, 0, 0xFFF, false, 0, 0⟩ []⟩
  · intro n _ f
    have h := flitHdr_flitBytes ⟨1, n, 0xFFF, false, 0, 0⟩ [] (Nat.lt_of_sub_eq_succ rfl) (Nat.lt_of_sub_eq_succ rfl)
      (Nat.lt_of_sub_eq_succ rfl)
    exact ⟨flitBytes_crcOk _ _, by rw [h], by rw [h], by rw [h]⟩
  · intro f
    have h := flitHdr_flitBytes ⟨0, 0xFFF, 0xFFF, false, 255, 255⟩ [] (by decide) (by decide) (by decide)
    exact ⟨flitBytes_crcOk _ _, by rw [h], by rw [h], by rw [h]⟩

/-! ### Queues and commands -/

/-- SQ 1 and CQ 1 of furrow 1, of 16 slots. -/
def sq1 : Sq := ⟨1, 1, 0x10000, 4, 1, 1, 2, 2, 0, 0, true, 0, 0, [], [], [], false, false⟩
def cq1 : Cq := ⟨1, 1, 0x20000, 4, .a, .a, 0, 0, 0, 0, false, 0, 15, true, 0, 1, 0⟩

/-- `withCmd` over given commands and queues. -/
def queued (cs : List Cmd) (q : Sq) (k : Cq) (s : State := live) : State :=
  { s with
    furrows := [(0, resetFurrow0), (1, { resetFurrow0 with ptag := 7 })]
    cmdif := { s.cmdif with cmds := cs, nextId := 2, sqs := [q], cqs := [k], pool := 65536 - q.credits } }

/-- With one read of host memory, through port A. -/
def reading (r : ReadOf) (stalled : Bool) (s : State) : State :=
  { s with ports := { s.ports with reads := [⟨r, .a, 0, none, [], stalled⟩] } }

/-- A queue event, a command at the step its event needs. -/
theorem witness_QueueEventsComplete :
    -- SQ_TAIL with the last index, CQ_HEAD with nothing to free
    (let s := queued [] sq1 { cq1 with unread := 15 }
     let q : BitVec 15 := 9
     Reaches (.host .a) s ∧ s.dev.mode ≠ .survey ∧ s.dev.mode ≠ .retired ∧ dbOpen (q.toNat / 8) s = true ∧
      sqGet (q.toNat / 8) (q.toNat % 8) s = some sq1 ∧ 15 < 2 ^ sq1.sizeLog2 ∧ 15 ≠ sq1.tail ∧ sq1.tail < 2 ^ sq1.sizeLog2 ∧
      cqGet (q.toNat / 8) (q.toNat % 8) s = some { cq1 with unread := 15 } ∧ (15 + 2 ^ 4 - 0) % 2 ^ 4 ≤ 15) ∧
    -- ENTRY_FETCH of every credit
    (let q := { sq1 with published := 2, tail := 2 }
     let s := queued [] q cq1
     sqGet 1 1 s = some q ∧ cqGet 1 q.cq s = some cq1 ∧ fetching s = true ∧ q.enabled = true ∧ dbOpen 1 s = true ∧
      q.fetched + 2 ≤ q.published ∧ q.head + 2 ≤ 2 ^ q.sizeLog2 ∧ creditsHold q s = true ∧ 2 ≤ q.avail ∧
      2 + sealWaiters 1 q.cq s ≤ cq1.free ∧ fetchTurn s = some (1 * 8 + 1)) ∧
    -- ENTRY_ARRIVE with a NOP
    (let c := { cmd 0 with phase := .fetched }
     let s := reading (.entries [1]) false (queued [c] sq1 cq1)
     let d := { decodeEntry c [] with phase := .arrived }
     let t := giveSealSlots c.furrow c.cq (cmdPut d (entryOver 1 s))
     cmdGet 1 s = some c ∧ c.scratch = [] ∧ entryDue 1 s = true ∧ cmdGet 1 t = some d ∧ sqAborts d t = false ∧
      furrowAborts d.furrow t = false ∧ d.seals = false ∧ entryCheck d t = none) ∧
    -- DISPATCH of a NOP
    (let c := { cmd 0 with phase := .arrived }
     let s := queued [c] sq1 cq1
     cmdGet 1 s = some c ∧ dispatching s = true ∧ inTurn c s = true ∧ c.seals = false ∧ sqAborts c s = false ∧
      furrowAborts c.furrow s = false ∧ restoreWait c s = false ∧ rollupWait c s = false ∧
      dispatchStatus { c with mode := rulesMode s, route := routeOf c s } (rulesMode s) s = none) ∧
    -- SHARE_RECHECK, CPL_RECEIVE, LINK_DOWN at an entry's read and at a command's
    (let c := { cmd 0 with phase := .waitShares }
     cmdGet 1 (queued [c] sq1 cq1) = some c) ∧
    (let c := { cmd 0xF002 with phase := .reading, needSrc := true, srcLen := 1 }
     let s := reading (.src 1) false (queued [c] sq1 cq1)
     cmdGet 1 s = some c ∧ c.needSrc = true ∧ c.needBlock = false ∧ readDue (.src 1) s = true) ∧
    (∀ e ∈ [(CmdPhase.fetched, ReadOf.entries [1]), (.reading, .block 1)], let c := { cmd 0 with phase := e.1 }
     let s := reading e.2 true (queued [c] sq1 cq1)
     cmdGet 1 s = some c ∧ c.phase = e.1 ∧ readStalled 1 s = true) := by
  decide +kernel

theorem witness_QueueEventsComplete_rings :
    -- SEAL_COMPLETION for a batch of one, with its slot and without one
    (∀ b, let d : SealDue := ⟨0, 0, 5, false, false, b⟩
     let q := { sq1 with seals := [d], done := [(0, 0, 8)] }
     let s := queued [] q cq1
     sqGet 1 1 s = some q ∧ q.seals.find? (fun d => !d.written && (sealReady q (sqCmds 1 1 s) d).isSome) = some d ∧
      sealReady q (sqCmds 1 1 s) d = some (1, 0, 1) ∧ d.slot = b ∧ cqGet 1 q.cq s = some cq1 ∧ 0 < cq1.free) ∧
    (let k := { cq1 with irqEn := true, coalUs := 1, unsignalled := 1 }
     cqGet 1 1 (queued [] sq1 k) = some k ∧ k.irqEn = true ∧ k.coalUs ≠ 0 ∧ k.unsignalled ≠ 0) ∧
    (let q := { sq1 with enabled := false, disabling := true }
     sqGet 1 1 (queued [] q cq1) = some q ∧ q.enabled = false ∧ q.disabling = true ∧ q.faulted = false ∧
      sqDrained q (queued [] q cq1) = true) ∧
    (let k := { cq1 with home := .b }
     let s := queued [] sq1 k
     cqGet 1 1 s = some k ∧ k.home ≠ k.confHome ∧ (s.port k.confHome).up = true ∧ cqFlushed k s = true ∧
      (s.cmdif.cmds.any fun c => c.furrow == 1 && c.cq == 1) = false) := by
  decide +kernel

theorem witness_NopCompletes :
    let c := cmd 0
    let s := queued [c] { sq1 with avail := 1 } cq1
    Runs 1 0 c s ∧ sqGet c.furrow c.sq s = some { sq1 with avail := 1 } ∧ cqGet c.furrow c.cq s = some cq1 ∧
    c.svc = none ∧ c.resv = [] ∧ c.alloc = [] ∧ c.auditResv = false ∧ c.auditFull = false ∧ c.tryPool = 0 ∧ c.irq = false ∧
    c.seals = false ∧ cq1.irqEn = false ∧ s.dev.nextTally < s.dev.tallyMark ∧
    (furrowGet c.furrow s).map (fun x => (x.logOn, x.log)) = some (false, none) ∧ (s.port cq1.home).up = true := by
  decide +kernel

/-! ### Furrows -/

/-- A policy block: furrow 4,095, process tag 9, every class and colour, one credit at least. -/
def policy : List Byte := le 2 4095 ++ [0, 0] ++ le 4 9 ++ le 2 0xFFFF ++ le 2 0xFFFF ++ le 4 33554431 ++ le 4 65536 ++ [255, 255, 255, 255]
  ++ zeros 8

/-- The expert block: the same, with `HAS_QUEUES`, one SQ and one CQ. -/
def policyX : List Byte := le 2 4095 ++ [0, 2] ++ le 4 9 ++ le 2 0xFFFF ++ le 2 0xFFFF ++ le 4 0 ++ le 4 1 ++ [255, 255, 255, 255] ++ [1, 1]
  ++ zeros 38 ++ (zeros 8 ++ [4] ++ zeros 23) ++ zeros 224 ++ (zeros 8 ++ [4, 0, 1, 0, 1, 0] ++ zeros 18) ++ zeros 224

/-- `live` with furrow 4,095 in a state, and one command in flight on furrow 1. -/
def furrowed (c : Cmd) (x : Furrow) : State :=
  let s := queued [c] sq1 cq1
  { s with furrows := s.furrows ++ [(4095, x)] }

/-- The number of furrow 4,095 as a command's first inline bytes. -/
def f4095 (code : BitVec 16) : Cmd := cmd code (le 2 4095)

theorem witness_FurrowCommandsComplete_create :
    (let c := { cmd 0x9001 with block := policy }
     let s := queued [c] sq1 cq1
     Runs 1 0x9001 c s ∧ c.form = 0 ∧ natAt c.block 0 2 = 4095 ∧ policyOk c.block = true ∧ natAt c.block 2 2 = 0 ∧ natAt c.block 24 8 = 0 ∧
      furrowState 4095 s = .free ∧ tagHeld (policyFurrow c.block .active).ptag 4095 s = false) := by
  decide +kernel

theorem witness_FurrowCommandsComplete_createExpert :
    (let c := { cmd 0x9001 with block := policyX, form := 1 }
     let s := queued [c] sq1 cq1
     Runs 1 0x9001 c s ∧ c.form ≠ 0 ∧ natAt c.block 0 2 = 4095 ∧ policyOk c.block = true ∧ bitAt c.block 3 1 = true ∧
      furrowState 4095 s = .free ∧ tagHeld (policyFurrow c.block .quiesced).ptag 4095 s = false ∧
      (∀ i ∈ present (byteAt c.block 24), sqRecordOk c.block (320 + 32 * i) (byteAt c.block 25) = true) ∧
      (∀ i ∈ present (byteAt c.block 25), cqRecordOk c.block (64 + 32 * i) = true) ∧
      ((present (byteAt c.block 24)).map fun i => (sqOfRecord c.block (320 + 32 * i) 4095 i).credits).sum = 1 ∧
      1 ≤ s.cmdif.pool ∧ 1 ≤ natAt c.block 16 4) := by
  decide +kernel

theorem witness_FurrowCommandsComplete_setPolicy :
    (let c := { cmd 0x9002 with block := policy }
     let x := { resetFurrow0 with state := .quiesced }
     let s := furrowed c x
     Runs 1 0x9002 c s ∧ natAt c.block 0 2 = 4095 ∧ furrowGet 4095 s = some x ∧ policyOk c.block = true ∧ natAt c.block 2 2 = 0 ∧
      natAt c.block 24 8 = 0 ∧ tagHeld (policyFurrow c.block .active).ptag 4095 s = false ∧ furrowCredits 4095 s ≤ natAt c.block 16 4 ∧
      x.state = .quiesced) := by
  decide +kernel

theorem witness_FurrowCommandsComplete_states :
    -- QUIESCE, RESET, REMOVE, DISABLE, ENABLE
    (∀ e ∈ [(0x9003, FState.active), (0x9003, .logging), (0x9004, .quiesced), (0x9005, .quiesced), (0x9006, .active), (0x9007, .quiesced),
        (0x900A, .disabled)],
      let c := f4095 (BitVec.ofNat 16 e.1)
      let x := { resetFurrow0 with state := e.2 }
      let s := furrowed c x
      Runs 1 e.1 c s ∧ (x.draining && furrowDrained 4095 s) = false ∧ c.inlNat 48 2 = 4095 ∧ furrowGet 4095 s = some x ∧ x.state = e.2 ∧ ownedIdx 4095 (fun r => r.persist) s = []) := by
  decide +kernel

theorem witness_FurrowCommandsComplete_log :
    -- the dirty log of 64 pages
    (let c := { cmd 0x9008 with block := zeros 16 ++ le 8 64 ++ le 2 4095 ++ zeros 6 }
     let s := furrowed c resetFurrow0
     Runs 1 0x9008 c s ∧ (resetFurrow0.draining && furrowDrained 4095 s) = false ∧ c.scratch = [] ∧ logBusy 4095 s = false ∧ natAt c.block 24 2 = 4095 ∧ furrowGet 4095 s = some resetFurrow0 ∧ natAt c.block 0 8 % 64 = 0 ∧
      natAt c.block 8 8 % 4096 = 0 ∧ natAt c.block 16 8 = 64 ∧ natAt c.block 26 6 = 0 ∧ resetFurrow0.state ≠ .free) := by
  decide +kernel

theorem witness_FurrowCommandsComplete_unlog :
    (let x := { resetFurrow0 with state := .logging, logOn := true, log := some ⟨0, 0, 64, [], [], [], 0, false⟩ }
     let s := furrowed (f4095 0x9009) x
     Runs 1 0x9009 (f4095 0x9009) s ∧ (x.draining && furrowDrained 4095 s) = false ∧ (f4095 0x9009).scratch = [] ∧
      logBusy 4095 s = false ∧ (f4095 0x9009).inlNat 48 2 = 4095 ∧ furrowGet 4095 s = some x ∧ x.state ≠ .active ∧ x.state ≠ .free) := by
  decide +kernel

theorem witness_FurrowCommandsComplete_drained :
    (∀ e ∈ [FState.quiescing, .disabled],
      let x := { resetFurrow0 with state := e, draining := true }
      let s := furrowed (cmd 0) x
      furrowGet 4095 s = some x ∧ x.draining = true ∧ furrowDrained 4095 s = true ∧ x.state = e) := by
  decide +kernel

theorem witness_QueueCommandsComplete :
    (let c := { cmd 0x9010 with block := zeros 8 ++ [16, 1] ++ le 2 1 ++ [7] ++ zeros 19 }
     let s := queued [c] sq1 cq1
     let b := c.block
     Runs 1 0x9010 c s ∧ natAt b 0 8 % 32 = 0 ∧ natAt b 8 1 = 16 ∧ natAt b 9 1 ≤ 1 ∧ natAt b 10 2 = 1 ∧ natAt b 12 1 = 7 ∧ natAt b 28 1 ≤ 1 ∧
      natAt b 29 3 = 0 ∧ cqGet 1 7 s = none ∧ furrowState 1 s = .active) ∧
    (let c := { cmd 0x9012 with block := zeros 8 ++ [4, 1] ++ le 2 1 ++ [7, 16] ++ le 2 4096 ++ zeros 16 }
     let s := queued [c] sq1 cq1
     let b := c.block
     Runs 1 0x9012 c s ∧ natAt b 0 8 % 64 = 0 ∧ natAt b 8 1 = 4 ∧ natAt b 10 2 = 1 ∧ natAt b 12 1 = 7 ∧ natAt b 9 1 = 1 ∧ natAt b 13 1 = 16 ∧
      natAt b 14 2 = 4096 ∧ allZero (bytesAt b 16 16) = true ∧ sqGet 1 7 s = none ∧ (cqGet 1 (natAt b 9 1) s).isSome ∧
      furrowState 1 s = .active ∧ natAt b 14 2 ≤ s.cmdif.pool ∧ furrowGet 1 s = some { resetFurrow0 with ptag := 7 } ∧
      furrowCredits 1 s + natAt b 14 2 ≤ 65536) ∧
    (let c := cmd 0x9011 (le 2 1 ++ [1])
     let s := queued [c] { sq1 with cq := 2 } cq1
     Runs 1 0x9011 c s ∧ c.inlNat 48 2 = 1 ∧ c.inlNat 50 1 = 1 ∧ (cqGet 1 1 s).isSome ∧
      (s.cmdif.sqs.any fun q => q.furrow == 1 && q.cq == 1) = false) ∧
    (∀ e ∈ [(0x9013, false), (0x9014, true), (0x9015, false), (0x9016, false)],
      let c := { cmd (BitVec.ofNat 16 e.1) (le 2 1 ++ [1]) with furrow := 0 }
      let q := { sq1 with enabled := e.2 }
      let s := queued [c] q cq1
      Runs 1 e.1 c s ∧ namedSq c s = some q ∧ q.enabled = e.2 ∧ sqDrained q s = true) := by
  decide +kernel

/-! ### Modes, power and boot -/

/-- One mode-change command in flight in mode `m`. -/
def inMode (m : Mode) (c : Cmd) (s : State := live) : State := { withCmd c s with dev := { s.dev with mode := m } }

theorem turns {id code : Nat} {c : Cmd} {m : Mode} {s : State} (h : Runs id code c s ∧ s.dev.modeWait = none ∧
    ((modeSources code).getD []).contains s.dev.mode = true ∧ forbidsInFlight m c.id s = false) : Turns id code c m s := by
  obtain ⟨hr, hw, hs, hf⟩ := h
  refine ⟨hr, by simp [hw], ?_, hf⟩
  cases e : modeSources code with
  | none => simp [e] at hs
  | some ms => exact ⟨ms, rfl, by simpa [e] using hs⟩

theorem provisions (s : State) (k : State → State) (hs : s.rng.stopped = false) (hr : keyReady s = true)
    (hq : s.rng.requests < 1048576) : ∃ u, enterProvision s k = some u := by
  unfold enterProvision
  split
  · exact ⟨_, rfl⟩
  · rw [drawKey_ok hs hr hq]; exact ⟨_, rfl⟩

/-- `live` with every condition of `MODE_PROVISION_COMPLETE`, a second firmware image in slot 1 (256 bytes, `IMG_VERSION` 1). -/
def provisioned : State := { live with
  dev := { live.dev with identity := some [], rootKeys := true, recovery := true }
  backup := { live.backup with mkek := [1] }
  vault := { live.vault with kek := [1] }
  cust := { live.cust with table := { live.cust.table with sets := [(0, ⟨2, [1, 2]⟩)] } }
  cistern := { live.cistern with root := [1] }
  flash := { live.flash with cells := ([0x5A, 0x4A, 0x46, 0x57, 1, 0, 0, 0, 0, 1, 0, 0, 0, 0, 0, 0] ++
      [0x8F, 0x62, 0xC3, 0x44, 0xEF, 0xF1, 0x56, 0x84, 0x74, 0xFB, 0x69, 0x3B, 0x8C, 0x18, 0x52, 0x66, 0x29, 0xDB, 0x44, 0x3B, 0x96, 0x53, 0xA8, 0x42, 0x64, 0x18, 0x9C, 0x97, 0x69, 0x36, 0x05, 0xDE] : List Byte).zipIdx.map fun x => (0x08840000 + x.2, x.1) } }

theorem witness_ModeCommandsComplete_provision :
    (∃ u, let c := cmd 0x0010
      Turns 1 0x0010 c .provision (inMode .blank c) ∧ enterProvision (clearWait (inMode .blank c)) (fun s => changeMode .provision
        (setModeFlags 0x4 0 (s.modDev fun d => { d with ddn := some (d.ddn.getD 16383) }))) = some u) ∧
    (∃ u, let c := cmd 0x0012
      let s := { inMode .zeroized c with backup := { live.backup with mkek := [1] } }
      Turns 1 0x0012 c .provision s ∧ enterProvision (clearWait s) (fun s => changeMode .provision (setModeFlags 0x4 0xB s)) = some u) ∧
    (let c := cmd 0x0011
     let s := inMode .provision c provisioned
     Turns 1 0x0011 c (serviceOrDegraded s) s ∧ wantsJoin c = false ∧ completeCond c s = none ∧ s.cistern.root ≠ []) ∧
    (let c := cmd 0x0011 [1]
     let s := { inMode .provision c provisioned with fuses := { live.fuses with grade := .x8 } }
     Turns 1 0x0011 c .join s ∧ wantsJoin c = true ∧ completeCond c s = none) := by
  refine ⟨?_, ⟨_, turns (by decide), rfl⟩, ⟨turns (by decide), by decide⟩, turns (by decide), by decide⟩
  obtain ⟨u, hu⟩ := provisions (clearWait (inMode .blank (cmd 0x0010))) (fun s => changeMode .provision
    (setModeFlags 0x4 0 (s.modDev fun d => { d with ddn := some (d.ddn.getD 16383) }))) (by decide) (by decide) (by decide)
  exact ⟨u, turns (by decide), hu⟩

theorem witness_ModeCommandsComplete_others :
    (∀ e ∈ [(0x0020, Mode.service, Mode.ceremony), (0x0020, .degraded, .ceremony), (0x0021, .ceremony, .service),
        (0x0030, .service, .maintain), (0x0032, .maintain, .service), (0x0040, .degraded, .join), (0x0041, .join, .service),
        (0x0050, .blank, .zeroized), (0x0051, .zeroized, .retired)],
      let c := cmd (BitVec.ofNat 16 e.1)
      let s := inMode e.2.1 c
      Turns 1 e.1 c e.2.2 s ∧ serviceOrDegraded s = .service ∧ s.dev.recovery = false ∧ joinedFromProvision s = false ∧
        s.fuses.grade ≠ .c8 ∧ c.scratch = []) ∧
    (let c := { cmd 0x0050 with scratch := [1] }
     Turns 1 0x0050 c .zeroized (inMode .join c) ∧ c.scratch ≠ []) := by
  refine ⟨?_, turns (by decide), by decide⟩
  intro e he
  simp only [List.mem_cons, List.not_mem_nil, or_false] at he
  rcases he with rfl | rfl | rfl | rfl | rfl | rfl | rfl | rfl | rfl <;> exact ⟨turns (by decide), by decide⟩

theorem witness_ModeCommandsComplete_commit :
    let c := cmd 0x0031
    let s := inMode .maintain c provisioned
    let t := clearWait s
    let u := (startImage (some 1) (logRecord 0x10 1 (commitRestart c t))).modDev fun d => { d with recovery := false }
    Turns 1 0x0031 c (selectMode false s) s ∧ stagedSlot false true (commitRestart c t) = some 1 ∧ selectMode false u ≠ .retired ∧
      ∃ v, enterSelected (selectMode false u) u = some v := by
  refine ⟨turns (by decide +kernel), by decide +kernel, by decide +kernel, ?_⟩
  exact ⟨_, rfl⟩

theorem witness_DisagreementRaisesTheAlarm :
    (let c := { cmd 0x0050 with scratch := [1] }
     Turns 1 0x0050 c .zeroized (inMode .service c) ∧ c.scratch ≠ []) ∧
    (let c := cmd 0x0051
     Turns 1 0x0051 c .retired (inMode .blank c)) ∧
    (let c := cmd 0x0012
     Turns 1 0x0012 c .provision (inMode .zeroized c)) ∧
    (let c := cmd 0x0031
     let s := inMode .maintain c
     Turns 1 0x0031 c (selectMode false s) s) ∧
    (let s := { live with dev := { live.dev with boot := .rom } }
     s.dev.boot = .rom ∧ keyReady s = true) ∧
    (let s := { live with dev := { live.dev with boot := .selected, mode := .survey } }
     s.dev.mainOn = true ∧ s.dev.mode = .survey ∧ s.dev.boot = .selected ∧ regBit 0x0200 9 s = false) :=
  ⟨⟨turns (by decide), by decide⟩, turns (by decide), turns (by decide), turns (by decide), by decide, by decide⟩

theorem witness_GeneralCommandsComplete :
    ∀ e ∈ [0x0001, 0xF001, 0xF003, 0xF010, 0xF011, 0x0060, 0x0070, 0x0071, 0xF002],
      Runs 1 e (cmd (BitVec.ofNat 16 e)) (withCmd (cmd (BitVec.ofNat 16 e))) := by
  decide

/-- Without main power. -/
def dark : State := { live with dev := { live.dev with mainOn := false, boot := .off } }

theorem witness_PowerEventsComplete :
    live.dev.mainOn = true ∧
    (dark.dev.mainOn = false ∧ dark.backup.pending = [] ∧ dark.otp.retire = false ∧ dark.fuses.grade ≠ .c8) ∧
    (let s := { dark with otp := { dark.otp with retire := true } }
     s.dev.mainOn = false ∧ s.otp.retire = true) ∧
    (let s := { dark with backup := { dark.backup with vbat := true } }
     s.dev.mainOn = false ∧ s.backup.vbat = true) ∧ dark.backup.vbat = false ∧
    (let s := [0, 1, 2, 3].foldl (fun s n => coreMod n (fun k => { k with waiting := true }) s) (regSet 0x0080 0x00010000 live)
     (s.dev.mode = .service ∨ s.dev.mode = .degraded) ∧ s.dev.asleep = false ∧ idle s = true ∧ fieldOf (regGet 0x0080 s) 27 16 ≠ 0 ∧
      regBit 0x0080 1 s = false) ∧
    (let s := { dark with backup := { dark.backup with pending := [3] } }
     s.dev.mainOn = false ∧ s.backup.pending ≠ []) ∧
    live.punty.field = false ∧
    (let s := { live with punty := { live.punty with field := true } }
     s.punty.field = true ∧ s.dev.mainOn = true) := by
  decide +kernel

theorem witness_BootAndSurveyComplete :
    (let s := { live with dev := { live.dev with boot := .good, mode := .survey } }
     s.dev.boot = .good ∧ s.dev.mainOn = true ∧ s.dev.mode = .survey ∧ ∀ d ∈ [SurveyData.carts, .peers, .cell 3000, .antenna true 0 0 0],
       itemOf d ≠ 0 ∧ itemOf d ≠ 9 ∧ regBit 0x0200 (itemOf d) s = false) ∧
    (let s := { live with dev := { live.dev with boot := .selected, mode := .survey } }
     s.dev.mainOn = true ∧ s.dev.mode = .survey ∧ itemOf (.decision true) = 9 ∧ regBit 0x0200 9 s = false ∧ s.dev.boot = .selected) ∧
    (let s := { live with dev := { live.dev with boot := .rom, mode := .survey } }
     s.dev.boot = .rom ∧ keyReady s = true ∧ s.dev.mode = .survey) ∧
    (live.dev.mainOn = true ∧ live.dev.boot = .running ∧ live.dev.mode ≠ .retired ∧ itemOf (.card false 0) = 4 ∧ itemOf (.mesh []) = 5 ∧
      itemOf .carts = 7) ∧
    (let s := regSet 0x0200 0x200 { live with dev := { live.dev with boot := .selected, selected := some .service, mode := .survey } }
     s.dev.mode = .survey ∧ s.dev.boot = .selected ∧ s.dev.selected = some .service ∧
      ((List.range 8).any fun n => regBit (0x0210 + 4 * n) 30 s) = false ∧ regBit 0x0200 9 s = true ∧
      ∃ u, enterSelected .service (regSet 0x0204 0xFFFFFFFF (regOr 0x0200 0x80000000 s)) = some u) ∧
    (let s := { live with
       dev := { live.dev with nextTally := 524289 }
       cipher := { live.cipher with nonce := 524289 } }
     s.dev.boot ≠ .good ∧ s.cipher.nonceBusy = none ∧ markLow s.cipher.nonceMark s.cipher.nonce s.cipher.nonceAdv = true ∧
      s.dev.markBusy = none ∧ markLow s.dev.tallyMark s.dev.nextTally s.dev.tallyAdv = true) ∧
    (let s := { live with
       dev := { live.dev with markBusy := some 2097152 }
       cipher := { live.cipher with nonceBusy := some 2097152 } }
     s.cipher.nonceBusy = some 2097152 ∧ s.dev.markBusy = some 2097152) := by
  refine ⟨by decide, by decide, by decide, by decide, ⟨by decide +kernel, by decide, by decide, by decide +kernel, by decide +kernel, _, rfl⟩,
    by decide, by decide⟩

/-! ### Keys -/

/-- Handles of the two records of `keyed`: slots 2^20 and 2^20 + 1 of the local range. -/
def hA : BitVec 64 := BitVec.ofNat 64 (mkHandle 5 0x100000 0)
def hB : BitVec 64 := BitVec.ofNat 64 (mkHandle 5 0x100001 0)

/-- A record of furrow 1, colour 2. -/
def sample (alg : Nat) (material : List Byte) : KeyRec :=
  { blankRec alg 2 1 live with usage := 0xFFFFFFFF, wrapColours := 0xFFFE, material := material }

def slotOf (r : KeyRec) : KeySlot := ⟨.live, 0, 0, some r, true, false, zeros 32⟩

/-- One command in flight, naming two LIVE records. -/
def keyed (c : Cmd) (a b : KeyRec) : State :=
  { withCmd c with keytab := { live.keytab with slots := [(0x100000, slotOf a), (0x100001, slotOf b)] } }

/-- A command that names the two records, its parameters in `INLINE`, a block and `SRC`. -/
def keyCmd (code : BitVec 16) (inl : List Byte := []) (block data : List Byte := []) : Cmd :=
  { cmd code inl with
    keyA := hA, keyB := hB, colours := 0xFFFF, block := block, data := data, srcLen := data.length
    alloc := [⟨0x100002, 1, 0, 0⟩] }

/-- The bytes 0 to `n` - 1. -/
def count (n : Nat) : List Byte := (List.range n).map (BitVec.ofNat 8)

/-- A key block of version D without optional blocks: an AES-128 data key under the AES-128 key of bytes 0 to 15. -/
def keyBlock : List Byte := [68, 48, 49, 49, 50, 68, 48, 65, 66, 48, 48, 69, 48, 48, 48, 48, 51, 65, 69, 68, 52, 56, 67, 49, 48, 65, 54, 49,
    69, 49, 54, 54, 52, 50, 70, 56, 65, 69, 54, 53, 66, 68, 57, 49, 66, 55, 52, 66, 65, 48, 69, 70, 53, 51, 55, 52,
    57, 67, 51, 51, 50, 52, 68, 54, 49, 56, 68, 49, 67, 67, 52, 52, 53, 57, 56, 70, 48, 48, 66, 48, 53, 69, 49, 49,
    51, 54, 54, 65, 53, 66, 65, 53, 55, 67, 55, 57, 49, 68, 54, 68, 48, 53, 49, 48, 65, 66, 66, 67, 67, 53, 56, 48]

/-- Its key data, enciphered, and its MAC. -/
def kEnc : List Byte := [58, 237, 72, 193, 10, 97, 225, 102, 66, 248, 174, 101, 189, 145, 183, 75, 160, 239, 83, 116, 156, 51, 36, 214, 24, 209, 204, 68,
    89, 143, 0, 176]
def kMac : List Byte := [94, 17, 54, 106, 91, 165, 124, 121, 29, 109, 5, 16, 171, 188, 197, 128]

theorem keyBlock_opens : kbOpen 3 (count 16) (keyBlock.take 16) kEnc kMac = some (0 :: 128 :: (count 16 ++ count 14)) := by
  decide +kernel

theorem drawn {n : Nat} (s : State) (hs : s.rng.stopped = false) (hr : keyReady s = true) (hq : s.rng.requests < 1048576) :
    ∃ bytes u, drawKey n [] s = .ok bytes u := ⟨_, _, drawKey_ok hs hr hq⟩

theorem witness_KeyCommandsComplete_generate :
    let c := keyCmd 0x1001 [3, 2]
    let s := keyed c (sample 3 (count 16)) (sample 3 (count 16))
    Runs 1 0x1001 c s ∧ Holds 1 c ∧ ∃ rnd u m, drawKey (rndLen (genRec c s).alg (genLen c)) [] s = .ok rnd u ∧
      genMaterial (genRec c s).alg rnd = some m ∧ Storable (genRec c s) u :=
  ⟨by decide, by decide, _, _, _, drawKey_ok (by decide) (by decide) (by decide), rfl, .inr rfl⟩

theorem witness_KeyCommandsComplete_import :
    let c := keyCmd 0x1002 [] [] keyBlock
    let s := keyed c (sample 3 (count 16)) (sample 3 (count 16))
    Runs 1 0x1002 c s ∧ Holds 1 c ∧ ∃ k, readBlock c.data = some k ∧ k.version = kbVersion (c.keyAlg c.keyB s) ∧
      ∃ d, kbOpen (c.keyAlg c.keyB s) (c.keyMat c.keyB s) k.header k.enc k.mac = some d ∧
      ∃ alg m, (keyData d).bind (keyOfData k.alg) = some (alg, m) ∧
      ∃ r p, importRec c k alg m s = some r ∧ c.keyRec c.keyB s = some p ∧ p.wrapColours.getLsbD r.colour = true ∧
        Storable r s ∧ (blockE9 k).join.map (·.colour) = none ∧ c.form = 0 := by
  refine ⟨by decide, by decide, ⟨code1 'D', code2 'D' '0', code1 'A', code1 'B', code1 'E', [], keyBlock.take 16,
    kEnc, kMac⟩, by decide +kernel, by decide +kernel, 0 :: 128 :: (count 16 ++ count 14), ?_⟩
  refine ⟨keyBlock_opens, 3, count 16, by decide +kernel, ?_⟩
  exact ⟨_, _, rfl, rfl, by decide +kernel, .inr rfl, rfl, rfl⟩

/-- In expert form the template's colour, 2, is the furrow's to give. -/
theorem witness_KeyCommandsComplete_importExpert :
    let c := { keyCmd 0x1002 [] ([3, 2, 0, 2] ++ zeros 28) keyBlock with form := 1 }
    let s := keyed c (sample 3 (count 16)) (sample 3 (count 16))
    ∃ r, importRec c ⟨code1 'D', code2 'D' '0', code1 'A', code1 'B', code1 'E', [], keyBlock.take 16, kEnc, kMac⟩ 3 (count 16) s = some r ∧
      c.form ≠ 0 ∧ r.colour = 2 ∧ colourGiven c r.colour r.owner s = true := ⟨_, rfl, by decide, rfl, by decide +kernel⟩

theorem witness_KeyCommandsComplete_others :
    (∀ e ∈ [0x1003, 0x1004], let c := keyCmd (BitVec.ofNat 16 e)
      let s := keyed c (sample 3 (count 16)) (sample 3 (count 16))
      Runs 1 e c s ∧ Holds 1 c ∧ c.keyB ≠ 0 ∧ Storable (deriveRec c s) s) ∧
    (let c := { keyCmd 0x1003 with keyB := 0 }
     Runs 1 0x1003 c (keyed c (sample 0x14 []) (sample 3 [])) ∧ c.keyB = 0) ∧
    -- a record that is not persistent, and one that is
    (let c := keyCmd 0x1005
     let r := { sample 3 (count 16) with flags := 1 }
     let s := keyed c r r
     Runs 1 0x1005 c s ∧ handleRec c.keyA c.furrow c.cls s = some r ∧ exportPins (hIdx c.keyA) s = false ∧ vaultWritable s = true) ∧
    (let c := keyCmd 0x1006
     let r := sample 3 (count 16)
     Runs 1 0x1006 c (keyed c r r) ∧ (slotGet (hIdx c.keyA) (keyed c r r)).entry = some r) ∧
    (let c := keyCmd 0x1007 [] ([3, 2, 0, 2, 0xFF, 0xFF, 0xFF, 0x7F, 0, 0, 0, 0, 0xFE, 0xFF, 0, 0, 0, 0, 0, 0, 0, 0, 1, 0] ++ zeros 8)
     let r := sample 3 (count 16)
     let s := keyed c r r
     let t := tmplRec c c.block s
     let n := { r with
       flags := t.flags, usage := t.usage, owner := t.owner, pool := t.pool, wrapColours := t.wrapColours
       deriveColour := t.deriveColour, expiry := t.expiry, applet := t.applet }
     Runs 1 0x1007 c s ∧ handleRec c.keyA c.furrow c.cls s = some r ∧ t.alg = r.alg ∧ t.colour = r.colour ∧ t.persist = r.persist ∧
      t.domain = r.domain ∧ narrows r n = true ∧ n.owner = r.owner ∧ Storable r s) := by
  decide +kernel

theorem witness_KeyStoreEventsComplete :
    let r := sample 3 (count 16)
    let s := keyed (cmd 0) r r
    (let t := s.modKeys fun t => { t with fills := [0x100000] }
     t.keytab.fills.contains 0x100000 = true ∧ liveRec 0x100000 t = some r ∧ unitFails 0x100000 [zeros 128] t = false ∧
      (cacheIn 0x100000 t).isSome ∧ unitFails 0x100000 [zeros 128, zeros 128] t = true) ∧
    (let t := slotSet 0x100000 { slotOf r with reloading := true }
       { s with vault := { s.vault with archive := { s.vault.archive with keys := [(0x100000, (7, r))] } } }
     (slotGet 0x100000 t).reloading = true ∧ assocGet 0x100000 t.vault.archive.keys = some (7, r)) ∧
    -- the last index of the local range, at the last generation
    (let t := slotSet 0x1FFFFFF ⟨.cullet, 0x1FFFFFF, 0, none, false, false, []⟩ s
     (slotGet 0x1FFFFFF t).state = .cullet ∧ pinCount 0x1FFFFFF t = 0 ∧ (slotGet 0x1FFFFFF t).entry = none ∧
      (slotGet 0x1FFFFFF t).gen ≤ 0x1FFFFFF ∧ isDomainIdx 0x1FFFFFF t = false) ∧
    (let t := s.modKeys fun t => { t with restoring := true, toRestore := [1, 2] }
     t.keytab.restoring = true ∧ t.keytab.floorsLoaded = true ∧ t.keytab.toRestore.head? = some 1) ∧
    (let t := s.modKeys fun t => { t with restoring := true }
     t.keytab.restoring = true ∧ t.keytab.floorsLoaded = true ∧ t.keytab.toRestore = []) := by
  decide +kernel

/-! ### Applets -/

/-- Applet 7 in the applet half: invoked at offset 0, inputs of 16 bytes. -/
def applet7 : Applet := ⟨7, zeros 6 ++ le 2 7 ++ le 4 1 ++ zeros 20 ++ [0xFF, 0xFF, 0xFF, 0xFF] ++ zeros 4 ++ le 2 1 ++ le 2 1 ++ zeros 20,
  0x10100000, 0, none⟩

/-- Applet 7 installed and one command in flight. -/
def withApplet (c : Cmd) : State := { withCmd c with warden := { live.warden with applets := [applet7] } }

theorem witness_AppletCommandsComplete :
    -- a first version of applet 8, then a later one of applet 7
    (∀ n ∈ [8, 7], let c := keyCmd 0xA001 [] [] (zeros 6 ++ le 2 n ++ le 4 1 ++ zeros 52)
     let s := withApplet c
     let num := natAt c.data 6 2
     Runs 1 0xA001 c s ∧ c.waitSeg = none ∧ appletBusy c.id s = false ∧ versionFloor num s < natAt c.data 8 4 ∧
      (appletInstalled num s = true ∨ (appletsNow s).length < 64) ∧ (placeFor (Applet.size ⟨num, c.data, 0, 0, none⟩) s).isSome ∧
      vaultAccepts s = true) ∧
    (∀ e ∈ [0xA001, 0xA002], let c := { cmd (BitVec.ofNat 16 e) (le 2 7) with waitSeg := some 3 }
     Runs 1 e c (withApplet c) ∧ c.waitSeg = some 3 ∧ durable 3 (withApplet c) = true) ∧
    (let c := cmd 0xA002 (le 2 7)
     let s := withApplet c
     let rm := c.inlNat 48 2
     Runs 1 0xA002 c s ∧ c.waitSeg = none ∧ appletBusy c.id s = false ∧ appletInstalled rm s = true ∧ keysNaming rm s = 0 ∧
      vaultAccepts s = true) ∧
    (let c := { cmd 0xA003 (le 2 7) with srcLen := 16 }
     let s := withApplet c
     Runs 1 0xA003 c s ∧ invokeRuns c.id s = false ∧ appletAt (c.inlNat 48 2) c.dispTally s = some applet7 ∧ c.srcLen ≤ applet7.inMax ∧
      applet7.entry false = some 0 ∧ freeCore s = some 0) ∧
    (let c := { cmd 0xA004 with dstLen := 64 }
     let s := withApplet c
     Runs 1 0xA004 c s ∧ ((appletsNow s).map (appletEntry s)).flatten.length ≤ c.dstLen) := by
  decide +kernel

/-! ### Payments -/

/-- A PAN of 12 digits, as a digit string of 10 bytes. -/
def panBytes : List Byte := [0x12, 0x34, 0x56, 0x78, 0x90, 0x12, 0xFF, 0xFF, 0xFF, 0xFF]
def panDigits : List Nat := [1, 2, 3, 4, 5, 6, 7, 8, 9, 0, 1, 2]

/-- The PIN 1234 of `panDigits` in format 0, under the two-key TDEA key of bytes 0 to 15. -/
def pinBlock : List Byte := [152, 176, 193, 172, 237, 76, 4, 100]
theorem pinBlock_opens : pinDecipher 0 1 (count 16) panDigits pinBlock = some [1, 2, 3, 4] := by decide +kernel

/-- The same under the PIN working key of that key and a TDEA KSN of counter 1. -/
def ksn : List Byte := be 10 0xFFFF9876543210E00001
def dukptBlock : List Byte := [177, 71, 185, 8, 128, 58, 41, 127]
theorem dukptBlock_opens : pinDecipher 0 1 (dukptVariant 7 (dukptKey (count 16) ksn)) panDigits dukptBlock = some [1, 2, 3, 4] := by
  decide +kernel

/-- `PIN_TRANSLATE` from format 0 to `fo`. -/
def xlate (fo : Byte) : Cmd := keyCmd 0x3001 ([0, fo, 12, 0] ++ panBytes ++ [0, 0]) [] pinBlock

/-- A PIN check of kind `kind`: offset method, or PVV. -/
def pinCheck (code : BitVec 16) (m : Byte) (ref : List Byte) : Cmd :=
  keyCmd code [] ([m, 0, 12, 4] ++ panBytes ++ zeros 6 ++ ref ++ zeros 6 ++ zeros 16) pinBlock

/-- `DUKPT_PIN_TRANSLATE` from format 0 to `fo`. -/
def dukptXlate (fo : Byte) : Cmd := keyCmd 0x3030 [] ([1, 0, fo, 0] ++ ksn ++ [0, 0] ++ [12, 0] ++ panBytes ++ zeros 20) dukptBlock

/-- Its state: both keys two-key TDEA. -/
def tdea (c : Cmd) : State := keyed c (sample 1 (count 16)) (sample 1 (count 16))

theorem witness_PaymentCommandsComplete_pin :
    (∃ x, xlateOf (xlate 0) = some x ∧ pinDecipher x.fi ((xlate 0).keyAlg (xlate 0).keyA (tdea (xlate 0)))
      ((xlate 0).keyMat (xlate 0).keyA (tdea (xlate 0))) x.pi (xlate 0).data = some [1, 2, 3, 4] ∧ x.fo = 0) ∧
    (∃ x, xlateOf (xlate 3) = some x ∧ pinDecipher x.fi ((xlate 3).keyAlg (xlate 3).keyA (tdea (xlate 3)))
      ((xlate 3).keyMat (xlate 3).keyA (tdea (xlate 3))) x.pi (xlate 3).data = some [1, 2, 3, 4] ∧ x.fo ≠ 0 ∧
      ∃ fill u, drawKey 16 [] (tdea (xlate 3)) = .ok fill u) ∧
    (∃ x, pinChkOf 0 (pinCheck 0x3002 1 [0x12, 0x34, 0xFF, 0xFF, 0xFF, 0xFF]) = some x ∧
      chkPin (pinCheck 0x3002 1 [0x12, 0x34, 0xFF, 0xFF, 0xFF, 0xFF]) x (tdea (pinCheck 0x3002 1 [0x12, 0x34, 0xFF, 0xFF, 0xFF, 0xFF])) =
        some [1, 2, 3, 4]) ∧
    (∃ x, pinChkOf 1 (pinCheck 0x3003 1 (zeros 6)) = some x ∧
      chkPin (pinCheck 0x3003 1 (zeros 6)) x (tdea (pinCheck 0x3003 1 (zeros 6))) = some [1, 2, 3, 4] ∧ x.len ≤ [1, 2, 3, 4].length) ∧
    (∃ x, pinChkOf 2 (pinCheck 0x3004 2 (zeros 6)) = some x ∧
      chkPin (pinCheck 0x3004 2 (zeros 6)) x (tdea (pinCheck 0x3004 2 (zeros 6))) = some [1, 2, 3, 4]) :=
  ⟨⟨⟨0, 0, panDigits, panDigits, false⟩, by decide +kernel, pinBlock_opens, rfl⟩,
    ⟨⟨0, 3, panDigits, panDigits, false⟩, by decide +kernel, pinBlock_opens, by decide, drawn _ (by decide) (by decide) (by decide)⟩,
    ⟨⟨false, 0, panDigits, 4, 0, 0, [1, 2, 3, 4], packNibs (panTail 16 panDigits), basicTable⟩, by decide +kernel, pinBlock_opens⟩,
    ⟨⟨false, 0, panDigits, 4, 0, 0, [], packNibs (panTail 16 panDigits), basicTable⟩, by decide +kernel, pinBlock_opens, by decide⟩,
    ⟨⟨true, 0, panDigits, 4, 0, 0, [], packNibs (panTail 16 panDigits), basicTable⟩, by decide +kernel, pinBlock_opens⟩⟩

theorem witness_PaymentCommandsComplete_dukpt : ∀ fo ∈ [(0 : Byte), 3],
    let c := dukptXlate fo
    let s := tdea c
    Runs 1 0x3030 c s ∧ dukptPinOf c = some (ksn, 0, fo.toNat, panDigits) ∧
    pinDecipher 0 (workAlg c (c.keyAlg c.keyA s)) (dukptPinKey c ksn s) panDigits c.data = some [1, 2, 3, 4] ∧
    ∃ fill u, drawKey 16 [] s = .ok fill u := by
  intro fo h
  simp only [List.mem_cons, List.not_mem_nil, or_false] at h
  rcases h with rfl | rfl <;>
    exact ⟨by decide, by decide +kernel, dukptBlock_opens, drawn _ (by decide) (by decide) (by decide)⟩

theorem witness_PaymentCommandsComplete_runs :
    (∀ e ∈ [0x3001, 0x3002, 0x3003, 0x3004, 0x3020, 0x3021, 0x3031, 0x3040, 0x3041, 0x3050, 0x3051],
      Runs 1 e (keyCmd (BitVec.ofNat 16 e)) (tdea (keyCmd (BitVec.ofNat 16 e)))) ∧
    (let c := keyCmd 0x3010 ([1, 12, 0, 1] ++ panBytes ++ [0, 0]) [] (zeros 40)
     Runs 1 0x3010 c (tdea c) ∧ (emvOf false c).isSome) ∧
    (let c := keyCmd 0x3011 ([3, 12, 0, 1] ++ panBytes ++ [0, 2]) [] (zeros 40)
     Runs 1 0x3011 c (tdea c) ∧ (emvOf true c).isSome) := by
  decide +kernel

/-! ### Cipher and public-key commands -/

/-- An AES key under which the six bytes 1 to 6 are wrapped, and the wrapped bytes. -/
theorem kwp_opens : kwpUnwrap 3 (count 16) [41, 135, 114, 182, 6, 194, 228, 200, 157, 130, 58, 194, 94, 159, 225, 162] =
    some (count 7) := by decide +kernel

/-- A cipher command of a mode. -/
def cipherCmd (code : BitVec 16) (m flags : Byte) (data : List Byte) : Cmd := keyCmd code ([m, flags] ++ zeros 14) [] data
def aes (c : Cmd) : State := keyed c (sample 3 (count 16)) (sample 3 (count 16))

theorem witness_CipherCommandsComplete :
    (∀ e ∈ [(0x2001, 1), (0x2001, 4), (0x2002, 1), (0x2002, 2), (0x2002, 4), (0x2004, 0x10), (0x2005, 0x20), (0x2006, 0x20), (0x2007, 0x30)],
      let c := cipherCmd (BitVec.ofNat 16 e.1) (BitVec.ofNat 8 e.2) 0 (count 32)
      Runs 1 e.1 c (aes c) ∧ (latchSlot c (aes c)).cMode = e.2) ∧
    (∀ e ∈ [(0x2001, 2), (0x2003, 0x10)], let c := cipherCmd (BitVec.ofNat 16 e.1) (BitVec.ofNat 8 e.2) 2 (count 32)
      Runs 1 e.1 c (aes c) ∧ (latchSlot c (aes c)).cMode = e.2 ∧ (latchSlot c (aes c)).ivIn = true) ∧
    (let c := { cipherCmd 0x2001 3 2 (zeros 16 ++ count 16) with inl := [3, 2, 0, 32] }
     Runs 1 0x2001 c (aes c) ∧ (latchSlot c (aes c)).cMode = 3 ∧ c.ivIn = true ∧
      ctrWraps c.ctrBits (c.data.take (srcPrefix 1 c 16)) (c.data.drop (srcPrefix 1 c 16)).length 16 = false) ∧
    (let c := cipherCmd 0x2002 3 0 (zeros 16 ++ count 16)
     Runs 1 0x2002 c (aes c) ∧ c.cMode = 3 ∧
      ctrWraps 32 (c.data.take (srcPrefix 2 c 16)) (c.data.drop (srcPrefix 2 c 16)).length 16 = false) := by
  decide +kernel

theorem witness_CipherCommandsComplete_draws :
    (let c := cipherCmd 0x2001 2 0 (count 32)
     Runs 1 0x2001 c (aes c) ∧ c.cMode = 2 ∧ c.ivIn = false ∧ ∃ iv u, drawKey 16 [] (aes c) = .ok iv u) ∧
    (∀ e ∈ [(0x2001, 3), (0x2003, 0x11)], let c := cipherCmd (BitVec.ofNat 16 e.1) (BitVec.ofNat 8 e.2) 0 (count 32)
      Runs 1 e.1 c (aes c) ∧ c.cMode = e.2 ∧ c.ivIn = false ∧ ∃ n u, drawNonce (aes c) = .ok n u) ∧
    (let c := { cipherCmd 0x2008 0x31 0 [41, 135, 114, 182, 6, 194, 228, 200, 157, 130, 58, 194, 94, 159, 225, 162] with dstLen := 7 }
     Runs 1 0x2008 c (aes c) ∧ (if c.cMode = 0x30 then kwUnwrap (laneAlg c (aes c)) (laneKey c (aes c)) c.data
       else kwpUnwrap (laneAlg c (aes c)) (laneKey c (aes c)) c.data) = some (count 7) ∧ (count 7).length ≤ c.dstLen) := by
  refine ⟨⟨by decide, by decide, by decide, drawn _ (by decide) (by decide) (by decide)⟩, ?_, by decide, ?_, by decide⟩
  · intro e h
    simp only [List.mem_cons, List.not_mem_nil, or_false] at h
    rcases h with rfl | rfl <;> exact ⟨by decide, by decide, by decide, _, _, rfl⟩
  · rw [if_neg (by decide)]
    exact kwp_opens

theorem witness_UnitEventsComplete :
    live.dev.mainOn = true ∧ live.units.flume.getLsbD 0 = false ∧
    (let s := regSet 0x5004 1 { live with dev := { live.dev with drains := 1 } }
     cipherDisabled s = true ∧ s.dev.drains.getLsbD 0 = true ∧ (s.cmdif.cmds.any fun c => c.cls == 2) = false) ∧
    (let s := regSet 0x6004 1 { live with dev := { live.dev with drains := 2 } }
     flumeDisabled s = true ∧ s.dev.drains.getLsbD 1 = true ∧ s.cmdif.cmds.any flumeCovers = false) ∧
    (let s := regSet 0x7004 1 { live with dev := { live.dev with drains := 4 } }
     pkeDisabled s = true ∧ s.dev.drains.getLsbD 2 = true ∧ (s.cmdif.cmds.any fun c => c.cls == 4) = false) := by
  decide +kernel

/-- The message 1, 2, 3 under OAEP with SHA-512, an empty label and a seed of zeros, for a modulus of 256 bytes. -/
def oaepBlock : List Byte :=
  be 64 0x0074DEFDFEE5374F6C3A43C947E55527692D6F6FA8743A3EE9119E6815B09DA261B42989283DA238E7B7DD3E795B8066A50F45B6E27A19FBE03E59B6C4FEAB78 ++
  be 64 0xD7CC0D5DF7C8E2C35214523F7B527262220138ADAA8DA31D36684710F61351853E811CE11C63FE45036465CD02611FDAA6572515E636848BEE5D300FC4D798B2 ++
  be 64 0x333BFF47C0D38D909CD2E8ABB8D4BB27BFDF4D8F637CAB8682CBD46E62FC08136E54824E092802E46E08E8C68E018D9358677855C34F11727767EFA7EA4ED08C ++
  be 64 0xB0B762901621DE9773EA06B74F7A8067F3D173CB945ABF9FE71FAA2B7FC14831BB6C83C4CCA3EB573019B7601CD1999A04E18D7C318B1654D72714B0072DED78
theorem oaepBlock_opens : oaepDec 3 [] oaepBlock = some [1, 2, 3] := by decide +kernel

/-- An RSA key in CRT form whose private exponents are 1: p = 2^1024 - 1, q = p - 1. -/
def rsaKey : List Byte :=
  rsaBytes ⟨256, (2 ^ 1024 - 1) * (2 ^ 1024 - 2), 1, 2 ^ 1024 - 1, 2 ^ 1024 - 2, 1, 1, 2 ^ 1024 - 2⟩

/-- `RSA_DECRYPT` with SHA-512. -/
def rsaCmd : Cmd := { keyCmd 0x4008 [3, 0] [] oaepBlock with form := 1, dstLen := 3 }

theorem witness_PublicKeyCommandsComplete_rsa :
    let s := keyed rsaCmd (sample 0x10 rsaKey) (sample 3 [])
    let k := rsaLen (rsaCmd.keyAlg rsaCmd.keyA s)
    let r := rsaOf k (rsaCmd.keyMat rsaCmd.keyA s)
    let x := beNat (rsaCmd.data.drop (labelLen rsaCmd))
    Runs 1 0x4008 rsaCmd s ∧ x < r.n ∧
    oaepDec (oaepHash rsaCmd) (rsaCmd.data.take (labelLen rsaCmd)) (be k (rsaPriv r x)) = some [1, 2, 3] ∧
    [1, 2, 3].length ≤ rsaCmd.dstLen := by
  intro s k r x
  have h : be k (rsaPriv r x) = oaepBlock := by decide +kernel
  refine ⟨by decide +kernel, by decide +kernel, ?_, by decide⟩
  rw [h]
  exact oaepBlock_opens

theorem witness_PublicKeyCommandsComplete_others :
    -- ML-DSA deterministic, then hedged
    (let c := keyCmd 0x4001 [0x20, 2]
     let s := keyed c (sample 0x24 []) (sample 3 [])
     Runs 1 0x4001 c s ∧ signRnd c (schemeOf c s) s = 0) ∧
    (let c := keyCmd 0x4001 [0x20, 0]
     let s := keyed c (sample 0x24 []) (sample 3 [])
     Runs 1 0x4001 c s ∧ signRnd c (schemeOf c s) s ≠ 0 ∧ ∃ rnd u, drawKey (signRnd c (schemeOf c s) s) [] s = .ok rnd u) ∧
    Runs 1 0x4002 (keyCmd 0x4002) (aes (keyCmd 0x4002)) ∧
    (let c := keyCmd 0x4003 [0x18, 2]
     let s := aes c
     Runs 1 0x4003 c s ∧ Holds (if pubRecord c then 2 else 1) c ∧ ∃ rnd u, drawKey (rndLen (genRec c s).alg 0) [] s = .ok rnd u) ∧
    (let c := { keyCmd 0x4003 [] (zeros 32 ++ [1] ++ zeros 15) with form := 1, alloc := [⟨1, 1, 0, 0⟩, ⟨2, 1, 0, 0⟩] }
     Holds (if pubRecord c then 2 else 1) c) ∧
    (let c := keyCmd 0x4005
     let s := aes c
     Runs 1 0x4005 c s ∧ Holds (derivedSlots c).length c ∧ ∃ m u, drawKey 32 [] s = .ok m u) ∧
    (let c := keyCmd 0x4006
     Runs 1 0x4006 c (aes c) ∧ Holds (derivedSlots c).length c) ∧
    (let c := keyCmd 0x4007
     Runs 1 0x4007 c (aes c) ∧ ∃ seed u, drawKey (hashLen (oaepHash c)) [] (aes c) = .ok seed u) := by
  refine ⟨by decide +kernel, ⟨by decide, by decide, drawn _ (by decide) (by decide) (by decide)⟩, by decide,
    ⟨by decide, by decide, drawn _ (by decide) (by decide) (by decide)⟩, by decide,
    ⟨by decide, by decide, drawn _ (by decide) (by decide) (by decide)⟩, by decide,
    by decide, drawn _ (by decide) (by decide) (by decide)⟩

/-- The private scalar 1 with the generator as the peer's key. -/
theorem witness_PublicKeyCommandsComplete_ecdh :
    let c := keyCmd 0x4004 [] [] (be 32 p256.gx ++ be 32 p256.gy)
    let s := keyed c (sample 0x18 (zeros 31 ++ [1])) (sample 3 [])
    let cv := curveOf (c.keyAlg c.keyA s)
    Runs 1 0x4004 c s ∧ Holds (derivedSlots c).length c ∧
    ecdh cv (ecPrivOf (c.keyAlg c.keyA s) (c.keyMat c.keyA s)) (c.data.take (2 * cv.len)) = some (be 32 p256.gx) := by
  decide +kernel

/-- `live` with the health tests of source `x` as given, in state `st`. -/
def tested (x : Side) (st : SrcState) (f : Health → Health) : State := live.modSrc x fun q => { (q.modHealth f) with st := st }

/-- A window of 65,536 bits without bias: every count stands half-way. -/
def fairWindow (h : Health) : Health := { h with pos := 65536, ones := 32768, lags := List.replicate 8 32768 }

theorem witness_NoiseEventsComplete_windows :
    (live.src .a).st ≠ .retired ∧
    (∀ x ∈ [Side.a, .b], ∀ b, let s := tested x .inService fun h => { fairWindow h with bad := b }
     let h := (s.src x).health
     (s.src x).st = .inService ∧ h.pos = 65536 ∧ estFailing (estLimit x) 2 (estimates h) = none ∧ h.bad = b) ∧
    (∀ x ∈ [Side.a, .b], let s := tested x .inService fun h => { fairWindow h with ones := 65536 }
     (estFailing (estLimit x) 2 (estimates (s.src x).health)).isSome) ∧
    (∀ n ∈ [0, 1],
      (let s := tested .a .inService fun h => { h with failed := [n] }
       s.rng.a.health.failed = [n] ∧ s.rng.b.health.failed = []) ∧
      (let s := tested .b .inService fun h => { h with failed := [n] }
       s.rng.a.health.failed = [] ∧ s.rng.b.health.failed = [n])) ∧
    (∀ st ∈ [SrcState.starting, .retesting], ∀ b, let s := tested .b st fun h => { h with windows := 4, testBad := b }
     (s.src .b).st = st ∧ 4 ≤ (s.src .b).health.windows ∧ (s.src .b).health.testBad = b ∧ s.rng.stopped = false ∧
      fieldOf (regGet (healthKey .b) s) 1 0 = 0 ∧ fieldOf (regGet (healthKey .b) (regMask (healthKey .b) 3 1 s)) 1 0 = 1) := by
  decide +kernel

theorem witness_NoiseEventsComplete :
    live.dev.mainOn = true ∧
    (let c := { cmd 0x5001 with dstLen := 4096 }
     Runs 1 0x5001 c (withCmd c) ∧ c.form = 0 ∧ ∃ bytes u, drawKey c.dstLen [] (withCmd c) = .ok bytes u) ∧
    Runs 1 0x5002 (cmd 0x5002) (withCmd (cmd 0x5002)) ∧
    -- the start, with three credited blocks of source B and source A retired, and a new instantiation
    (let q := { live.rng.b with st := .inService, reserve := [[1], [2], [3]] }
     let s := live.modRng fun r => { r with inst := false, started := false, kat := true, b := q, a := { r.a with st := .retired } }
     s.rng.inst = false ∧ s.rng.stopped = false ∧ s.rng.started = false ∧ startReady s = true) ∧
    (let s := live.modRng fun r => { r with inst := false, a := { r.a with reserve := [[1], [2], [3]] } }
     s.rng.inst = false ∧ s.rng.stopped = false ∧ s.rng.started = true ∧ s.rng.keySrc = some .a ∧ 3 ≤ (s.src .a).reserve.length) ∧
    reseedWanted (live.modRng fun r => { r with requests := 65536 }) = true ∧
    (let s := live.modRng fun r => { r with keySrc := some .b }
     s.rng.keySrc = some .b ∧ Side.b ≠ otherSide (keyPref s) ∧ s.rng.fallback = false ∧ fieldOf (regGet 0x8080 s) 30 24 < 127) ∧
    (let s := (live.modSrc .b fun q => { q with reserve := [[1]] }).modSrc .a fun q => { q with reserve := [[2]] }
     s.rng.started = true ∧ s.rng.asks = [] ∧ ∀ short ∈ [0, 7], let u := bump 0x8118 short s
     (if u.rng.keySrc = some (maskSrc u) then keyWants u else 0) < (u.src (maskSrc u)).reserve.length) ∧
    (∃ bytes u, drawKey 16 [] live = .ok bytes u) := by
  refine ⟨by decide, ⟨by decide, by decide, drawn _ (by decide) (by decide) (by decide)⟩, by decide, by decide +kernel, by decide +kernel,
    by decide, by decide, by decide +kernel, drawn _ (by decide) (by decide) (by decide)⟩

/-! ### The Cistern -/

/-- Pool 1 of device 5, and member 6 of its domain. -/
def pool1 : Nat := 5 * 2 ^ 18 + 1
def poolOne : Pool := ⟨1, 1000, 1000, 0, 64, 0, 0, 0, false, true, false, none⟩
def member6 : Member := ⟨6, 0, [], 0, [], true, 0, 0, 1, 6, false, 0⟩
def stmtOf (d lsq : Nat) (es : List StmtEntry) : Stmt := ⟨d, 0, lsq, 9, es⟩

/-- What is kept of device 7. -/
def kept7 : Kept := ⟨7, 3, [(8, stmtOf 7 3 [])], [], [], [], [], []⟩

/-- A cistern with both, its own statement of the pool acknowledged, device 7 kept. -/
def cist : Cistern := { resetCistern with
  pools := [(pool1, poolOne)], lastPool := 1, members := [member6], cert := some (5, 0, []), ownLatest := [(pool1, stmtOf 5 1 [])]
  kept := [kept7] }

/-- One command in flight over `cist`. -/
def onCist (c : Cmd) (f : Cistern → Cistern := id) : State := { withCmd c with cistern := f cist }

theorem witness_LedgerCommandsComplete_mint :
    (let c := cmd 0x6001 (le 4 pool1 ++ le 4 0 ++ le 8 (2 ^ 62 - 1000))
     let s := onCist c
     Runs 1 0x6001 c s ∧ c.scratch = [] ∧ mintFields c = (pool1, 0, 2 ^ 62 - 1000, 1024, 0) ∧ pool1 ≠ 0 ∧ poolGet pool1 s = some poolOne ∧
      pool1 / 2 ^ 18 = ownDdn s ∧ poolSettled pool1 poolOne s = false ∧ poolOne.minted + mintWaits pool1 s + (2 ^ 62 - 1000) ≤ 2 ^ 62 ∧
      stepBar s = none) ∧
    -- a new try pool, the last number there is
    (let c := cmd 0x6001 (le 4 0 ++ [2, 0, 0, 0] ++ le 8 (2 ^ 62))
     let s := onCist c fun x => { x with lastPool := 262142 }
     let n := ownDdn s * 2 ^ 18 + s.cistern.lastPool + 1
     let t := poolSet n ⟨2, 0, 0, 0, 1024, 0, 0, 0, false, true, false, none⟩
       (s.modCistern fun x => { x with lastPool := x.lastPool + 1 })
     Runs 1 0x6001 c s ∧ c.scratch = [] ∧ mintFields c = (0, 2, 2 ^ 62, 1024, 0) ∧ s.cistern.lastPool < 262143 ∧
      s.cistern.pools.length < 1048576 ∧ stepBar s = none ∧ stepBar t = none) := by
  decide +kernel

theorem witness_LedgerCommandsComplete_transfer :
    let c := cmd 0x6002 (le 4 pool1 ++ le 2 6 ++ [0, 0] ++ le 8 1000)
    let s := onCist c
    let pool := c.inlNat 48 4
    let dst := c.inlNat 52 2
    let n := c.inlNat 56 8
    Runs 1 0x6002 c s ∧ c.scratch = [] ∧ poolGet pool s = some poolOne ∧ n ≠ 0 ∧ dst ≠ ownDdn s ∧ (memberGet dst s).isSome ∧
    poolOne.settled = false ∧ stepBar s = none ∧ reaches dst s = true ∧ n ≤ projHeld pool s ∧ ringFull s = false := by
  decide +kernel

theorem witness_LedgerCommandsComplete_others :
    (let c := cmd 0x6003 (le 4 pool1)
     Runs 1 0x6003 c (onCist c) ∧ poolGet (c.inlNat 48 4) (onCist c) = some poolOne) ∧
    -- the stranded device's keeper is member 8, reachable; or it is this device, one pool or all settled before or not
    (∀ e ∈ [(([] : List Kept), 0), ([{ kept7 with ddn := 6 }], pool1), ([{ kept7 with ddn := 6, settled := [pool1] }], pool1)],
     let c := cmd 0x6004 (le 2 6 ++ [0, 0] ++ le 4 e.2)
     let m := { member6 with dead := true }
     let s := onCist c fun x => { x with members := [m, { member6 with ddn := 8 }], kept := e.1 }
     Runs 1 0x6004 c s ∧ c.scratch = [] ∧ memberGet (c.inlNat 48 2) s = some m ∧ stranded m s = true ∧ c.inlNat 52 4 = e.2 ∧
      (c.inlNat 52 4 = 0 ∨ (poolGet (c.inlNat 52 4) s).isSome) ∧ vaultAccepts s = true ∧ keptGet (c.inlNat 48 2) s = e.1.head? ∧
      reaches 8 (memberMod 6 (fun m => { m with keeper := 8 }) s) = true ∧
      (∀ k ∈ e.1, k.settles pool1 = decide (k.settled = [pool1]))) ∧
    -- a new member, and the next incarnation of a settled one
    (∀ e ∈ [0, 6], let c := { cmd 0x6005 ([1, 0, 0, 0] ++ le 2 e ++ [1]) with mode := .ceremony }
     let s := { (onCist c fun x => { x with blog := [(7, 1, .declared 6 0 0 1)] }) with dev := { live.dev with quorum := true } }
     let d := c.inlNat 52 2
     Runs 1 0x6005 c s ∧ c.inlNat 48 1 = 1 ∧ c.mode = .ceremony ∧ s.dev.quorum = true ∧ s.cistern.cert.isSome ∧ d ≠ ownDdn s ∧
      d < 2 ^ fieldOf (regGet 0x9008 s) 3 0 ∧ memberGet d s = (if e = 6 then some member6 else none) ∧ member6.incarnation < c.inlNat 54 1 ∧
      allSettled 6 s = true) ∧
    (let c := { cmd 0x6005 [2] with mode := .join, data := le 2 5 ++ zeros 38 ++ [25, 14] }
     Runs 1 0x6005 c (onCist c) ∧ c.inlNat 48 1 = 2 ∧ c.mode = .join ∧ (onCist c).dev.ddn = some (natAt c.data 0 2) ∧
      shapeOk (natAt c.data 40 1) (natAt c.data 41 1) (onCist c) = true) ∧
    (let c := cmd 0x6005 [3, 3, 0xFF]
     Runs 1 0x6005 c (onCist c) ∧ c.inlNat 48 1 = 3 ∧ (meshGet (c.inlNat 49 1) (onCist c)).isSome ∧ c.inlNat 50 1 ≠ 0) ∧
    (∀ k ∈ [5, 6], let c := cmd 0x6005 ([4, 0, 0, 0] ++ le 2 k)
     let s := onCist c
     Runs 1 0x6005 c s ∧ c.inlNat 48 1 = 4 ∧ c.scratch = [] ∧ s.cistern.newKeeper = none ∧ c.inlNat 52 2 = k ∧
      ((k = ownDdn s ∧ vaultAccepts s = true) ∨ (k ≠ ownDdn s ∧ (memberGet k s).isSome ∧ reaches k s = true)) ∧
      s.cistern.ownLatest ≠ []) ∧
    (∀ k ∈ [5, 6], let c := cmd 0x6006 (le 2 k)
     Runs 1 0x6006 c (onCist c) ∧ c.form = 0 ∧ (peerBytes (c.inlNat 48 2) (onCist c)).isSome) ∧
    (let c := { cmd 0x6006 (le 2 7 ++ [0, 0] ++ le 4 8) with form := 1, dstLen := 8192 }
     let s := onCist c
     Runs 1 0x6006 c s ∧ c.form ≠ 0 ∧ keptGet (c.inlNat 48 2) s = some kept7 ∧
      assocGet (c.inlNat 52 4) kept7.latest = some (stmtOf 7 3 []) ∧ (stmtBytes (stmtOf 7 3 [])).length + 4627 ≤ c.dstLen) :=
  ⟨by decide +kernel, by decide +kernel, by decide +kernel, by decide +kernel, by decide +kernel, by decide +kernel, by decide +kernel, by decide +kernel⟩

theorem witness_LedgerEventsComplete :
    let s := onCist (cmd 0)
    let k := kept7
    (memberGet 6 s = some member6 ∧ (member6.adjSeq < 1 ∨ member6.adjSeq = 0)) ∧
    -- broadcasts of a member, and of a device not known yet
    memberGet 6 (learnMember 6 0 s) = some member6 ∧ memberGet 16383 (learnMember 16383 0 s) ≠ none ∧
    -- statements of the device kept, and of a new one
    (keptGet 7 s = some k ∧ k.lsq < 4 ∧ assocGet 4 k.verdicts = none ∧ k.voidsStmt (stmtOf 7 4 []) = false) ∧
    (keptGet 6 s = none ∧ keptCount s < 8 ∧ Kept.voidsStmt ⟨6, 0, [], [], [], [], [], []⟩ (stmtOf 6 1 []) = false) ∧ s.cistern.newKeeper = none ∧
    -- a transfer of tally 0 from member 6
    (s.cistern.ring.find? (isIn 6 0) = none ∧ floorOf 6 s ≤ 0 ∧ poolGet pool1 s = some poolOne ∧ poolOne.settled = false ∧
      ringFull s = false) ∧
    (let r : RingRec := ⟨.prepared, pool1, 6, 50, 10, true⟩
     (onCist (cmd 0) fun x => { x with ring := [r] }).cistern.ring.find?
       (fun r => r.state == .prepared && r.acked && r.peer == 6 && r.pool == pool1 && r.tally == 50) = some r) ∧
    (poolOne.drawing = none ∧ drawsPossible poolOne s = true ∧ 2 * poolOne.working < poolOne.draw ∧ 0 < projHeld pool1 s ∧
      0 < poolOne.draw ∧ stepBar s = none) ∧
    k.settles 8 = false ∧
    (let t := regSet 0x9008 0x80000000 { onCist (cmd 0) fun x => { x with
       firstAck := true, ports := x.ports.set 0 { resetMeshPort with session := true } } with
       dev := { live.dev with mode := .join } }
     t.dev.mode = .join ∧ joinSynced t = true) := by
  decide +kernel

/-- A frame under a key of zeros, its encrypted payload zeros, from member 6 to `d`. -/
def hdrTo (d : Nat) : FrameHdr := ⟨2, false, 0, d, 6, 0, 0, 5, 6, 0⟩
def frameTo (d : Nat) : List Byte :=
  (hdrTo d).bytes ++ zeros 464 ++ gcmTag (zeros 32) (frameIv 0 0) (hdrTo d).bytes (zeros 464)

theorem frameTo_verifies : tagVerifies (zeros 32) (frameTo 5) = true := by decide +kernel
theorem frameTo_neighbour_verifies : tagVerifies (zeros 32) (frameTo 0x8000) = true := by decide +kernel

theorem witness_MeshEventsComplete_ports :
    ∀ p ∈ [{ resetMeshPort with training := true, fails := 1 }, { resetMeshPort with trained := true },
        { resetMeshPort with hs := .sentInit }, { resetMeshPort with hs := .sentResponse, peerCert := some (6, 0) }],
      meshGet (3 : Fin 4).val (onCist (cmd 0) fun x => { x with ports := x.ports.set 3 p }) = some p := by
  decide +kernel

theorem witness_MeshEventsComplete :
    let at' := fun (p : MeshPort) => onCist (cmd 0) fun x => { x with ports := x.ports.set 3 p }
    let p : MeshPort := { resetMeshPort with session := true, rxKey := zeros 32 }
    meshGet (3 : Fin 4).val (at' p) = some p ∧
    certPasses (some (6, 0)) (meshCap 3 0 (at' { resetMeshPort with hs := .sentInit })) = some (6, 0) ∧
    replaceDue { resetMeshPort with session := true, rxSeq := 2 ^ 32 } (at' resetMeshPort) = true ∧
    ({ resetMeshPort with resends := 7, unacked := [(0, ⟨0, 0x8000, 5, .idle⟩)] } : MeshPort).unacked.getLast? ≠ none ∧
    -- a frame for this device, one for the neighbour, one whose tag fails
    (p.session = true ∧ p.training = false ∧ ∀ d ∈ [5, 0x8000], let h := frameHdr (frameTo d)
       h = hdrTo d ∧ 2 ≤ h.ftype ∧ h.ftype ≤ 4 ∧ h.epoch = p.epoch ∧ h.fseq = p.rxSeq ∧
       (let t := frameAcks 3 h (meshMod 3 (fun p => { p with
          rxSeq := p.rxSeq + 1, crdOut := (p.crdOut + 1) % 65536, nakDue := false }) (bump64 0x9108 1 (at' p)))
        0x8000 ≤ h.dst ∨ h.dst % 2 ^ 14 = ownDdn t)) ∧
    ((frameHdr (zeros 512)).ftype ≠ 1 ∧ tagVerifies p.rxKey (zeros 512) = false) :=
  ⟨by decide +kernel, by decide +kernel, by decide +kernel, by decide +kernel, by decide +kernel, by decide +kernel⟩

/-! ### Flash and the vault -/

/-- Core 0 at level S with the flash registers given and no recent fetch from flash; its frame in SRAM holds a record word pair. -/
def flashing (a src : Word) (c : Cmd := cmd 0x0034) : State :=
  let s := withCmd c
  { s with warden := { s.warden with
    c0 := { s.warden.c0 with flashAddr := a, flashSrc := src, since0 := 64, since1 := 64 }
    c1 := { s.warden.c1 with since0 := 64, since1 := 64 }, c2 := { s.warden.c2 with since0 := 64, since1 := 64 }
    c3 := { s.warden.c3 with since0 := 64, since1 := 64 }, sram := [(0x10000003, 0x12)] } }

/-- `admits` of `FlashRowsComplete`. -/
abbrev admitted (op : Nat) (len : Nat) (a src : Word) : Prop :=
  let s := flashing a src
  let k := coreGet 0 s
  s.dev.mainOn = true ∧ coreServes 0 s = true ∧ k.level ≠ 0 ∧ partBusy (opPart op k.flashAddr.toNat) s = false ∧
    opOk op k.flashAddr.toNat len k.flashSrc.toNat s = true ∧
    (opPart op k.flashAddr.toNat = 2 ∨ (fetchedLately (opPart op k.flashAddr.toNat) s = false ∧ inRunning k.flashAddr.toNat s = false)) ∧
    cellsAllow op k.flashAddr.toNat (sramRead k.flashSrc.toNat (opLenBytes op len) s) s = true

theorem witness_FlashRowsComplete_rows :
    admitted 1 1 0x08000000 0x10000000 ∧ admitted 1 1 0x08FFFF00 0x101FFF00 ∧ admitted 2 1 0x0880BFFC 0x10000000 ∧
    admitted 3 0 0x08840000 0 ∧ admitted 4 0 0x08804000 0 ∧ admitted 5 0 0 0x10000000 := by
  decide +kernel

theorem witness_FlashRowsComplete_others :
    (∀ p ∈ [0, 1, 2], let o : FlashOp := ⟨1, 0, 0x08000000, [1], 0⟩
      let f := live.flash
      let s := { live with flash := { f with
        busy0 := if p = 0 then some o else none, busy1 := if p = 1 then some o else none, busyP := if p = 2 then some o else none } }
      busyOp p s = some o) ∧
    (∀ e ∈ [(1, 0), (2, 1), (1, 0xFF)], let c := { cmd 0x0033 (le 1 e.1 ++ le 1 e.2) with data := zeros 256, srcLen := 256 }
      let s := flashing 0 0 c
      Runs 1 0x0033 c s ∧ c.inlNat 48 1 = e.1 ∧ partBusy (loadSlot c s) s = false ∧ fetchedLately (loadSlot c s) s = false ∧
        s.warden.running ≠ some (loadSlot c s) ∧ cellsAllow 1 (imageBase (loadSlot c s) + c.inlNat 52 4) c.data s = true) ∧
    Runs 1 0x0034 (cmd 0x0034) (flashing 0 0) := by
  decide +kernel

/-- `live` with both cartridges current and one command in flight. -/
def vaulted (c : Cmd) (f : Vault → Vault := id) : State :=
  let s := withCmd c
  { s with vault := f { s.vault with slot1 := { resetSlot with state := .current } } }

/-- One audit record of 96 bytes. -/
def auditRec : JRec := ⟨50, zeros 96⟩

theorem witness_VaultCommandsComplete :
    (let c := cmd 0x7001
     Runs 1 0x7001 c (vaulted c) ∧ ∃ bytes u, drawKey 40 [] (vaulted c) = .ok bytes u) ∧
    Runs 1 0x7002 (cmd 0x7002) (vaulted (cmd 0x7002)) ∧
    (let c := { cmd 0x7003 (le 8 0) with dstLen := 96 }
     let s := vaulted c fun v => { v with audit := [auditRec] }
     Runs 1 0x7003 c s ∧ currentSlots s ≠ [] ∧ recsShort c 0 s = none) ∧
    (∀ e ∈ [(0 : Byte), 1], let c := { cmd 0x7004 (le 8 0 ++ [e]) with dstLen := 4723 }
     let s := vaulted c fun v => { v with audit := [auditRec] }
     Runs 1 0x7004 c s ∧ c.waitSeg = none ∧ currentSlots s ≠ [] ∧ recsShort c 4627 s = none ∧
      (c.inlByte 56).getLsbD 0 = decide (e = 1) ∧ vaultAccepts (drawBytes 4627 s).2 = true ∧ (drawBytes 4627 s).2.vault.vaultKey = true) ∧
    (let c := { cmd 0x7004 with waitSeg := some 3 }
     Runs 1 0x7004 c (vaulted c) ∧ c.waitSeg = some 3 ∧ durable 3 (vaulted c) = true) ∧
    (let c := cmd 0x7005 [1]
     let s := vaulted c fun v => { v with slot1 := { resetSlot with state := .blank } }
     let n := c.inlNat 48 1
     Runs 1 0x7005 c s ∧ c.form = 0 ∧ n < 2 ∧ vaultLayout s = .mirrored ∧ (s.cart n).state = .blank ∧
      (currentSlots s).any (· != n) = true ∧ s.vault.copying = none) ∧
    (∀ b ∈ [0, 1], Runs 1 0x7006 (cmd 0x7006 (le 1 b)) (vaulted (cmd 0x7006 (le 1 b)))) := by
  refine ⟨⟨by decide, drawn _ (by decide) (by decide) (by decide)⟩, by decide, by decide, ?_, by decide, by decide, by decide⟩
  intro e h
  simp only [List.mem_cons, List.not_mem_nil, or_false] at h
  rcases h with rfl | rfl <;> exact ⟨by decide, by decide, by decide, by decide, by decide, rfl, rfl⟩

theorem witness_VaultEventsComplete :
    (∀ k ∈ [SegKind.archive, .statement, .audit, .label], segKey k live = true) ∧
    (let s := { live with backup := { live.backup with rtcSec := 1 } }
     s.dev.mainOn = true ∧ s.dev.asleep = false ∧ s.backup.rtcSec ≠ s.vault.rollSecond ∧ rollupFits s = true) ∧
    (∀ n ∈ [0, 1], slotBusy n (vaulted (cmd 0)) = false ∧ ((vaulted (cmd 0)).cart n).state = .current) ∧
    -- frames of no token and, with the highest tag, of each status, two media errors met
    frameWhole 0 = false ∧
    (let g : Seg := ⟨.audit, 127, 0, [], [], 0, [1], [], 2, []⟩
     let s := vaulted (cmd 0) fun v => { v with inflight := [g] }
     ∀ e ∈ [(4539628424397809257, 0), (4539909899374537145, 1), (4540191374351233787, 2)], let f : BitVec 64 := BitVec.ofNat 64 e.1
     frameToken f = true ∧ f.toNat / 2 ^ 48 % 256 = e.2 ∧ tagSeg 1 (f.toNat / 2 ^ 16 % 128) s = some g ∧ 2 ≤ g.errs ∧ slotBusy 1 s = true) ∧
    (slotFitted 1 live = true ∧ (live.cart 1).state = .empty ∧ live.dev.mainOn = true) ∧
    (let s := vaulted (cmd 0) fun v => { v with slot1 := { resetSlot with state := .bringup } }
     (s.cart 1).state = .bringup ∧ (s.cart 1).measured = false ∧
     pageOk ([0x5A, 0x4A, 0x56, 0x32] ++ zeros 8 ++ le 4 536870912 ++ zeros 4080) = true ∧
     (let t := regSet 0x0284 0x20000000 (s.modCart 1 fun k => { k with measured := true })
      (t.cart 1).state = .bringup ∧ cartIdOk 1 t = true)) ∧
    (∀ b ∈ [false, true], (vaulted (cmd 0) fun v => { v with copying := some (1, b) }).vault.copying = some (1, b)) ∧
    (let s := (vaulted (cmd 0)).modKeys fun t => { t with floorsLoaded := false }
     restoreBegun s = true ∧ s.vault.archive.shape = none) :=
  ⟨by decide +kernel, by decide +kernel, by decide +kernel, by decide +kernel, by decide +kernel, by decide +kernel, by decide +kernel, by decide +kernel, by decide +kernel⟩

/-! ### Custodians -/

/-- Custodians 1 and 3 (cards) and 2 (a badge of number 2^60), a set of two of them, 1 and 2 live. -/
def custs : CustTable :=
  ⟨[(1, ⟨false, 0, zeros 64⟩), (2, ⟨true, 2 ^ 60, zeros 64⟩), (3, ⟨false, 0, zeros 64⟩)], [(0, ⟨2, [1, 2, 3]⟩)], zeros 32⟩
def custUnit : Cust := { live.cust with
  table := custs, sessions := [⟨1, 1, 3, 0, []⟩, ⟨2, 2, 4, 0, []⟩], card := true, cls := .c, atr := true }

/-- One command in flight, with them, in CEREMONY with its quorum. -/
def custody (c : Cmd) : State :=
  let s := withCmd c
  { s with cust := custUnit, dev := { s.dev with mode := .ceremony, quorum := true } }

/-- A command dispatched in CEREMONY. -/
def ceremonial (code : BitVec 16) (inl : List Byte) : Cmd := { cmd code inl with mode := .ceremony }

theorem witness_CustodianCommandsComplete_enrol :
    -- a card under the key that is there, and a badge
    (∀ e ∈ [1, 2], let c := ceremonial 0x8001 ([1, 255] ++ le 1 e ++ [0, 1, 0, 0, 0] ++ le 8 (if e = 1 then 0 else 2 ^ 60 + 1))
     let s := custody c
     let old := s.cust.table
     Runs 1 0x8001 c s ∧ c.inlNat 48 1 = 1 ∧ c.mode = .ceremony ∧ s.dev.quorum = true ∧ vaultWritable s = true ∧
      (if c.inlNat 50 1 = 2 then s.cust.dups.contains (c.inlNat 56 8) = false ∧ weakField (some 255) s = false else slotBar s = none) ∧
      old.key ≠ [] ∧
      leavesNoSet ⟨assocSet (c.inlNat 49 1) (some ⟨c.inlNat 50 1 == 2, c.inlNat 56 8, zeros 64⟩) old.custs,
        inSets (c.inlNat 49 1) (c.inlNat 52 1) old.sets, old.key⟩ s = false) ∧
    -- the first of a new domain, in PROVISION
    (let c := { ceremonial 0x8001 ([1, 1, 1, 0, 1, 0, 0, 0] ++ zeros 8) with mode := .provision }
     let s := { custody c with cust := { live.cust with card := true, cls := .c, atr := true }, dev := { live.dev with mode := .provision } }
     Runs 1 0x8001 c s ∧ c.inlNat 48 1 = 1 ∧ c.mode = .provision ∧ vaultWritable s = true ∧ slotBar s = none ∧ s.cust.table.key = [] ∧
      ∃ bytes u, drawKey 40 [] s = .ok bytes u ∧
        leavesNoSet ⟨assocSet 1 (some ⟨false, 0, zeros 64⟩) u.cust.table.custs, inSets 1 1 u.cust.table.sets,
          be 32 (ecScalar p256 bytes)⟩ u = false) := by
  refine ⟨by decide +kernel, by decide, by decide, by decide, by decide, by decide, by decide, _, _, drawKey_ok (by decide) (by decide) (by decide), ?_⟩
  rfl

theorem witness_CustodianCommandsComplete_sets :
    (let c := ceremonial 0x8001 [2, 2]
     let s := custody c
     let old := s.cust.table
     Runs 1 0x8001 c s ∧ c.inlNat 48 1 = 2 ∧ c.mode = .ceremony ∧ s.dev.quorum = true ∧ vaultWritable s = true ∧ (custGet (c.inlNat 49 1) s).isSome ∧
      leavesNoSet { old with custs := assocSet (c.inlNat 49 1) none old.custs, sets := inSets (c.inlNat 49 1) 0 old.sets } s = false) ∧
    -- set 7 at the highest threshold, and set 0 undefined with set 7 left
    (∀ e ∈ [16, 0], let c := ceremonial 0x8001 ([3, 7] ++ le 1 e)
     let s := custody c
     let old := s.cust.table
     let n := c.inlNat 49 1
     let x := (assocGet n old.sets).getD ⟨0, []⟩
     let th := c.inlNat 50 1
     Runs 1 0x8001 c s ∧ c.inlNat 48 1 = 3 ∧
      leavesNoSet { old with sets := assocSet n (if th = 0 then none else some { x with threshold := th }) old.sets } s = false) ∧
    (let c := ceremonial 0x8001 [4]
     Runs 1 0x8001 c (custody c) ∧ c.inlNat 48 1 = 4) ∧
    Runs 1 0x8002 (cmd 0x8002) (custody (cmd 0x8002)) := by
  decide +kernel

theorem witness_CustodianCommandsComplete_sessions :
    (let s := custody (cmd 0x8003)
     Runs 1 0x8003 (cmd 0x8003) s ∧ slotBar s = none ∧ custGet 1 s = some ⟨false, 0, zeros 64⟩ ∧
      ∃ bytes u, drawKey 72 [] s = .ok bytes u) ∧
    (let c := cmd 0x8004 (zeros 8 ++ le 8 (2 ^ 60))
     let s := custody c
     Runs 1 0x8004 c s ∧ s.cust.dups.contains (c.inlNat 56 8) = false ∧ custGet 2 s = some ⟨true, 2 ^ 60, zeros 64⟩ ∧
      2 ^ 60 = c.inlNat 56 8 ∧ ∃ bytes u, drawKey 72 [] s = .ok bytes u) :=
  ⟨⟨by decide, by decide, by decide, drawn _ (by decide) (by decide) (by decide)⟩,
    by decide, by decide, by decide, by decide, drawn _ (by decide) (by decide) (by decide)⟩

theorem witness_CustodianCommandsComplete_others :
    -- one badge in the first frame
    (let c := { cmd 0x8005 with dstLen := 16 }
     let s := custody c
     let v := inventory 64 (invStart s) [[.single (2 ^ 60) 1]] ⟨[], 0, false, 0, []⟩
     let t := (bump 0xD108 v.collisions (bump 0xD104 1 s)).modCust fun x => { x with dups := v.dups }
     Runs 1 0x8005 c s ∧ c.form = 0 ∧ ((v.tags.map fun g => tagEntry g t)).flatten.length ≤ c.dstLen) ∧
    Runs 1 0x8006 (cmd 0x8006) (custody (cmd 0x8006)) ∧
    (∀ b ∈ [1, 2], let s := custody (cmd 0x8007 (le 1 b))
     Runs 1 0x8007 (cmd 0x8007 (le 1 b)) s ∧ (cmd 0x8007 (le 1 b)).inlNat 48 1 = b ∧ weakField (some 255) s = false) ∧
    -- two components of a two-key TDEA key, both zero, gathered; and the first of them to come
    (∀ e ∈ [32, 0], let c := { keyCmd 0x1008 [] (([1, 2] : List Byte) ++ zeros 30 ++ [2, 140, 166, 77] ++ zeros 12) [] with
       mode := .ceremony, scratch := List.replicate e 0 }
     let s := custody c
     let len := compLen (c.blk 0 1) (tmplLen c.block)
     let m := combine len (gathered c)
     let d := { c with scratch := c.scratch ++ (bytesAt (zeros 16 ++ zeros 48) 16 len).map (·.toNat) }
     Runs 1 0x1008 c s ∧ Holds 1 c ∧ (e = 32 → (gathered c).length = len * c.blk 32 1 ∧
       kcvOf (tmplRec c c.block s).alg m = bytesAt c.block 33 3) ∧
      (e = 0 → (gathered c).length ≠ len * c.blk 32 1 ∧ (gathered d).length ≠ len * c.blk 32 1)) ∧
    -- a component for custodian 1's card, and one for a badge
    (∀ e ∈ [1, 2], let c := { keyCmd 0x1009 [] (zeros 32 ++ [1] ++ zeros 7 ++ le 8 (1 + 256 * e)) with scratch := [0, 9] }
     Runs 1 0x1009 c (custody c) ∧ c.scratch ≠ [] ∧ (compSessions c).getD 0 0 / 256 % 256 = e ∧ weakField (some 255) (custody c) = false) := by
  refine ⟨by decide +kernel, by decide +kernel, by decide +kernel, by decide +kernel, by decide +kernel⟩

theorem witness_CustodianEventsComplete :
    let s : State := { live with cust := { custUnit with evalDue := true } }
    (s.cust.evalDue = true ∧ decide (setsSatisfied s ≠ 0) ≠ s.dev.quorum) ∧
    (let t : State := { s with dev := { live.dev with quorum := true } }
     t.cust.evalDue = true ∧ decide (setsSatisfied t ≠ 0) = t.dev.quorum) ∧
    -- a card, also in the slot
    (s.dev.mainOn = true ∧ s.cust.card = true ∧ s.cust.cls ≠ .inactive) ∧
    -- a badge last seen exactly the hold time ago
    (let t : State := { s with backup := { live.backup with rtcSec := 600 } }
     t.cust.sessions.find? (fun x => x.cust == (2 : BitVec 8).toNat) = some ⟨2, 2, 4, 0, []⟩ ∧ inSlotNow 2 t = false ∧
      0 + t.cust.holdS ≤ t.backup.rtcSec) ∧
    (s.dev.mainOn = true ∧ s.dev.asleep = false ∧ s.cust.sessions.any (fun x => x.cust == (2 : BitVec 8).toNat && x.kind == 2) = true) ∧
    live.cust.card = false ∧
    (let t : State := { live with cust := { custUnit with atr := false } }
     t.cust.cls = .c ∧ t.cust.cls ≠ .inactive ∧ t.cust.atr = false ∧ t.cust.card = true) ∧
    (let t := regSet 0xD00C 0x80000000 { live with dev := { live.dev with asleep := true } }
     t.dev.asleep = true ∧ regBit 0xD00C 31 t = true) := by
  decide +kernel

/-! ### Tamper and the Punty -/

theorem witness_TamperEventsComplete :
    live.dev.mainOn = true ∧ raisable 0 live = true ∧ raisable 23 live = true ∧
    -- a static pin, and a dynamic one
    (∀ m ∈ [1, 3], raisable 17 { live with backup := { live.backup with pins := live.backup.pins.set 7 ⟨m, false, false, 0, 3, 0⟩ } } = true) ∧
    (let r : Raised := ⟨0, 1, 0, 0⟩
     let s : State := { live with tamper := { live.tamper with raised := [r] } }
     s.dev.asleep = false ∧ s.dev.boot ≠ .good ∧ (tallyRecords s).tamper.raised = [r]) ∧
    (let s : State := { live with tamper := { live.tamper with scrubbing := true } }
     s.tamper.scrubbing = true) ∧
    (let s : State := { live with tamper := { live.tamper with reform := true } }
     s.tamper.reform = true ∧ s.tamper.scrubbing = false) ∧
    (∀ b ∈ [true, false], let s : State := { live with tamper := { live.tamper with deciding := true, retiring := b, alarms := [(0, 4)] } }
     s.tamper.deciding = true ∧ s.dev.mainOn = true ∧ s.tamper.retiring = b ∧ s.tamper.alarms.any (fun a => a.2 == 4) = true) ∧
    (let s : State := { dark with backup := { dark.backup with vbat := true } }
     s.dev.mainOn = false ∧ s.backup.vbat = true ∧ watchedInHold 0 = true ∧ watchedInHold 23 = true ∧ raisable 0 s = true ∧ raisable 23 s = true ∧
      sourceLevel 23 s < 3) ∧
    (let r : BackRec := ⟨1, 0, true, 9, 1, 0, 1, 0, 0, 0⟩
     let s : State := { live with
       backup := { live.backup with records := [{ r with tally := 0 }, r] }, tamper := { live.tamper with logPos := 1 } }
     s.backup.records.find? (fun r => r.tally != 0) = some r ∧ s.dev.mainOn = true ∧ s.flash.busy0 = none ∧ s.tamper.logPos % 4096 ≠ 0) := by
  decide +kernel

theorem witness_TamperCommandsComplete :
    (∀ e ∈ [0xB001, 0xB002, 0xB003, 0xB004, 0xB005], let c := { cmd (BitVec.ofNat 16 e) with dstLen := 64 }
      Runs 1 e c (withCmd c) ∧ c.scratch = [] ∧ 64 ≤ c.dstLen ∧ ∀ n ∈ [0, 7], pend (0xE010 + 4 * n) (withCmd c) = false) := by
  decide

theorem witness_PuntyEventsComplete :
    let s : State := { live with punty := { live.punty with field := true, selected := true, shadow := [(127, count 16)] } }
    (s.punty.shadow = (127, count 16) :: [] ∧ s.dev.mainOn = true) ∧ s.punty.field = true ∧ s.punty.selected = true ∧ s.punty.halted = false ∧
    (127 : BitVec 8).toNat < 128 ∧ (124 : BitVec 8).toNat ≤ 124 := by
  decide

/-! ### Commands at their steps, cores, steps -/

theorem witness_CommandsAreAdmittedThenStart : opcodeRow (.loopback 1) = some (1, 0xF002) ∧
    ∀ p ∈ [CmdPhase.ready, .admitted, .hook, .arrived], ∀ h ∈ [0, 3], let c := { cmd 0xF002 with phase := p, scratch := [h] }
      cmdGet 1 (withCmd c) = some c ∧ c.opcode.toNat = 0xF002 ∧ c.phase = p :=
  ⟨rfl, by decide⟩

theorem witness_CommandsAreAdmittedThenStart_rows : namesRow (cmd 0x0033 [1]) (.imageLoadErase 1 true) ∧
    namesRow (cmd 0x0033 [2]) (.imageLoadWrite 1 true) ∧ namesRow (cmd 0x6005 [3]) (.routeUpdatePortCost 1) ∧
    namesRow (cmd 0x8001 [4]) (.setHold 1) ∧ namesRow (cmd 0x8001 [0]) (.enrol 1 ⟨none, .ok []⟩) := by
  simp only [namesRow]
  decide

theorem witness_DivisionNeverRaises : ∃ s s', Fetches 0 s s' ∧ Placed 0 s ∧ (before 0 s).reg 1 = 0x80000000 ∧
    (before 0 s).reg 2 = 0xFFFFFFFF := ⟨_, _, fetches (regs12 0x80000000 0xFFFFFFFF), by decide⟩

theorem witness_RegisterResultsChangeNothingElse : (coreGet 0 live).regs.length = 16 := by decide

/-- A synchronous cause from S level, the same masked, `RETURN_FORGE`, an interrupt, and the supervisor call of applet level. -/
theorem witness_TrapsEnterTheHandler :
    (∀ e ∈ [(1, 0, false), (1, 1, false), (1, 0, true), (8, 1, false), (9, 0, false), (0x10, 0, false), (0x1F, 1, false)],
      ∃ t, trapTarget e.1 e.2.1 e.2.2 = some t ∧ (t = 1 ∨ t = 3) ∧ e.1 < 0x20) ∧
    (let s := liveCore fun k => { k with status := 0, inv := some inv }
     (coreGet 0 s).inv.isSome ∧ (coreGet 0 s).level = 0) := by
  decide

/-- Core 0 at level A, at level S asked to return to M, and at a loop's end, with an address in w1. -/
theorem witness_ExceptionsAreRaised :
    (∃ s s', Fetches 0 s s' ∧ storeLate (before 0 s) = none ∧ storeLate (coreGet 0 s') = none ∧ Placed 0 s ∧
      ((before 0 s).reg 1 + (1 : BitVec 18).signExtend 32).toNat % 4 ≠ 0 ∧ (32 : BitVec 18).toNat ≥ 32 ∧ (1 : BitVec 8) ≠ 0) ∧
    (∃ s s', Fetches 0 s s' ∧ Placed 0 s ∧ ((before 0 s).reg 1 + (0 : BitVec 18).signExtend 32).toNat % 4 = 0 ∧
      mapAdmits .load (before 0 s).level ((before 0 s).reg 1 + (0 : BitVec 18).signExtend 32).toNat 4 = false) ∧
    (∃ s s', Fetches 0 s s' ∧ (before 0 s).level = 0) ∧
    (∃ s s', Fetches 0 s s' ∧ placeIllegal true (before 0 s) = true) ∧
    (∃ s s', Fetches 0 s s' ∧ PlacedBranch 0 s ∧ (before 0 s).level ≠ 0 ∧
      ((before 0 s).level < (before 0 s).prevLevel ∨ (before 0 s).pceil.toNat < (before 0 s).prevLevel)) :=
  ⟨⟨_, _, fetches (regs12 0x10000000 0), by decide⟩, ⟨_, _, fetches (regs12 0x30000000 0), by decide⟩,
    ⟨_, _, fetches (fun k => { k with
      status := statusOf false 0 0, pc := 0x10100000, mpuctl := 1, mpu := [⟨0x10100000, 0x101FFFFF, 0x10004⟩] }), by decide⟩,
    ⟨_, _, fetches (fun k => { k with lc := 2, le := k.pc }), by decide⟩,
    ⟨_, _, fetches (fun k => { k with status := statusOf false 3 1, pc := 0x10000000 }), by decide⟩⟩

theorem witness_StepsKeepTheMachineForm : (∃ t, step live = .next t) ∧ Memory.wf live = true ∧ live.coresWf :=
  ⟨⟨_, rfl⟩, by decide, by simp only [State.coresWf]; decide⟩

theorem witness_StepsKeepWhatIsBurned :
    ∃ t, step { live with otp := ⟨512, true⟩ } = .next t := ⟨_, rfl⟩

theorem witness_CommandsWriteOnlyTheirParts : Part.fuses ∉ mayWrite (.nop 1) ∧ Part.vault ∉ mayWrite .vbatLost := by decide

/-! ### Well-formedness: one ill-formed command for each check -/

theorem smoke_queue : (Instr.sealCompletion 4095 7).wf = true ∧ (Instr.sealCompletion 4096 0).wf = false ∧
    (Instr.coalesceTimeout 0 8).wf = false ∧ (Instr.queueDrained 4096 8).wf = false ∧ (Instr.cqHomeReturn 4096 0).wf = false ∧
    (Instr.entryFetch 4096 0 1).wf = false ∧ (Instr.entryFetch 0 0 0).wf = false := by decide

theorem smoke_furrow : (Instr.furrowQuiesced 4095).wf = true ∧ (Instr.furrowQuiesced 0).wf = false ∧ (Instr.furrowDisabled 4096).wf = false := by
  decide

theorem smoke_index : (Instr.scrub 0x1FFFFFF).wf = true ∧ (Instr.scrub 0x2000000).wf = false ∧ (Instr.recordReload 0x2000000 true).wf = false ∧
    (Instr.recordRestore 0x2000000).wf = false ∧ (Instr.cacheFill 0x2000000 none [] []).wf = false ∧
    (Instr.cacheFill 0 (some 8) [] []).wf = false ∧ (Instr.cacheFill 0 none [[], [], []] []).wf = false := by decide

theorem smoke_member : (Instr.transferFloor 16383 0).wf = true ∧ (Instr.transferFloor 16384 0).wf = false ∧
    (Instr.transferFloor 0 (2 ^ 64)).wf = false ∧ (Instr.sharesBurnStranded 1 16384).wf = false ∧
    (Instr.broadcast 0 16384 0 (.member 0 0 [])).wf = false ∧ (Instr.statementAck 16384 (.latest [])).wf = false ∧
    (Instr.sessionInit 0 0 (some (16384, 0))).wf = false ∧ (Instr.sessionInit 0 0 (some (0, 2 ^ 32))).wf = false ∧
    (Instr.sessionConfirm 0 true [(16384, 0)]).wf = false ∧ (Instr.sessionResponse 0 0 none [(16384, 0)]).wf = false := by decide

theorem smoke_pool : (Instr.draw 1).wf = true ∧ (Instr.draw 0).wf = false ∧ (Instr.draw (2 ^ 32)).wf = false ∧
    (Instr.transfer 6 1 0 0).wf = false ∧ (Instr.transfer 6 1 (2 ^ 64) 1).wf = false ∧ (Instr.transferAck 6 0 0 .void).wf = false ∧
    (Instr.settleRequest 6 0 [0]).wf = true ∧ (Instr.settleRequest 6 (2 ^ 32) []).wf = false ∧ (Instr.settleRequest 6 0 [2 ^ 64]).wf = false := by
  decide

theorem smoke_health : (Instr.gatherBlock .a [true]).wf = true ∧ (Instr.gatherBlock .a []).wf = false := by decide

theorem smoke_credential : (Instr.enrol 1 ⟨none, .fail 1⟩).wf = true ∧ (Instr.enrol 1 ⟨none, .ok [1]⟩).wf = false ∧
    (Instr.cardSession 1 (.ok 0 (zeros 64) [])).wf = false ∧ (Instr.badgeAuthenticate 1 (.ok 256 (zeros 64) [])).wf = false ∧
    (Instr.cardSession 1 (.ok 1 [] [])).wf = false ∧ (Instr.sealRead 1 (.ok (2 ^ 64) 0 0 (zeros 256))).wf = false ∧
    (Instr.sealIssue 1 ⟨none, .ok 0 4 0 (zeros 256)⟩).wf = false ∧ (Instr.sealWrite 1 ⟨none, .ok 0 0 0 []⟩).wf = false ∧
    (Instr.tagInventory 1 [List.replicate 257 .empty] [] []).wf = false := by decide +kernel

theorem smoke_links : (Instr.linkTrainingDone .a 0 0 65 64).wf = false ∧ (Instr.cplReceive (.block 1) .abort [1]).wf = false ∧
    (Instr.flushAck .a 0).wf = false ∧ (Instr.entryArrive 1 .ok []).wf = false ∧ (Instr.entryArrive 1 .abort [1]).wf = false ∧
    (Instr.knownAnswerTests [] [16] [] true).wf = false ∧ (Instr.knownAnswerTests [] [] [48] true).wf = false ∧
    (Instr.dmaDone 0 0 (some [1]) 2).wf = false ∧ (Instr.flashOpDone 0 true [(0x1200000, 5)]).wf = false := by decide

/-! ### Small checks of one step -/

/-- What a step leaves, read through `f`. -/
def leaves {α : Type} (o : Host.Outcome State Fault Refusal) (f : State → α) : Option α := match o with
  | .next t => some (f t)
  | _ => none

/-- Core 0 with a and b in w1 and w2: what an instruction leaves in w3. -/
def w3 (i : Instr) (a b : Word) : Option Word := leaves (exec i (liveCore (regs12 a b))) fun t => (coreGet 0 t).reg 3

/-- Table 13-6: sums wrap; shifts take the low five bits; comparisons are signed or not; R445 for division. -/
theorem test_arithmetic : w3 (.add 0 3 1 2 0) 0xFFFFFFFF 1 = some 0 ∧ w3 (.sub 0 3 1 2 0) 0 1 = some 0xFFFFFFFF ∧
    w3 (.sar 0 3 1 2 0) 0x80000000 31 = some 0xFFFFFFFF ∧ w3 (.rotr 0 3 1 2 0) 1 1 = some 0x80000000 ∧
    w3 (.cmplt 0 3 1 2 0) 0xFFFFFFFF 0 = some 1 ∧ w3 (.cmpltu 0 3 1 2 0) 0xFFFFFFFF 0 = some 0 ∧
    w3 (.mulhi 0 3 1 2 0) 0xFFFFFFFF 0xFFFFFFFF = some 0 ∧ w3 (.div 0 3 1 2 0) 0x80000000 0xFFFFFFFF = some 0x7FFFFFFF ∧
    w3 (.mod 0 3 1 2 0) 0xFFFFFFF9 2 = some 0xFFFFFFFF := by decide +kernel

/-- A byte load extends its sign, from the highest byte of the SRAM; a word store is little-endian. -/
theorem test_memory :
    leaves (exec (.ldb 0 3 1 0) { liveCore (regs12 0x101FFFFF 0) with warden := { (liveCore (regs12 0x101FFFFF 0)).warden with
      sram := [(0x101FFFFF, 0x80)] } }) (fun t => (coreGet 0 t).reg 3) = some 0xFFFFFF80 ∧
    leaves (exec (.stw 0 2 1 4 false) (liveCore (regs12 0x10000000 0x11223344))) (fun t => t.warden.sram) =
      some [(0x10000004, 0x44), (0x10000005, 0x33), (0x10000006, 0x22), (0x10000007, 0x11)] := by
  decide +kernel

/-- R586: at the last fraction of a second the idle step carries into the seconds. -/
theorem test_idle_carries :
    leaves (step { live with backup := { live.backup with rtcFrac := 32767 } }) (fun t => (t.backup.rtcSec, t.backup.rtcFrac)) =
      some (1, 0) := by
  decide +kernel

/-- `CLAIM` of the free Headgate: the claiming port becomes owner (04_ucie_ports, the table of `CMD` effects). -/
theorem test_claim_takes_the_headgate : leaves (exec (.claim .b 0 none) live) (fun t => t.ports.hg.owner) = some .b := by decide +kernel

/-- Published vectors of the standards the spec cites: FIPS 197 (C.1), FIPS 180-4 ("abc"), and DES. -/
theorem test_aes : aesEnc (count 16) ((List.range 16).map fun i => BitVec.ofNat 8 (17 * i)) =
    be 16 0x69C4E0D86A7B0430D8CDB78070B4C55A := by decide +kernel
theorem test_sha256 : sha256 [0x61, 0x62, 0x63] =
    be 32 0xBA7816BF8F01CFEA414140DE5DAE2223B00361A396177A9CB410FF61F20015AD := by decide +kernel
/-- CRC-64 of the nine digits, the published check value of this polynomial, initial value and inversion (Table 4-4). -/
theorem test_crc64 : crc64 [0x31, 0x32, 0x33, 0x34, 0x35, 0x36, 0x37, 0x38, 0x39] = 0x62EC59E3F1A4F00A := by decide +kernel
theorem test_des : desEnc (be 8 0x133457799BBCDFF1) (be 8 0x0123456789ABCDEF) = be 8 0x85E813540F0AB405 := by decide +kernel

end Sys2Proof.Tests
end

section
/-! PROOFS. Family 01_architecture: the rows that write one register (O19), the general and diagnostic commands (O30), the events of the
power domains (O31). -/
namespace Sys2Proof.Machine
open Sys2Proof.Stated

/-! ### Rows that write one register -/

/-- A row whose write passes its checks takes the register's effect, and the block's guard locks again (R63, R67). -/
theorem regRow_accepted {r : Requester} {key : Nat} {v : Word} {s : State} (h : Accepts r key v s) (hk : key % 0x1000 ≠ 0xFFC) :
    regRow r key v s = .next (csrEffect r key v (rearm (key / 0x1000) s)) := by
  obtain ⟨⟨hreach, hwaits⟩, hbarred, hfitted, hguard, hlock⟩ := h
  simp [regRow, writeReg, hreach, hwaits, csrWrite32_accepted hk hbarred hfitted hguard hlock]

theorem csrEffect_portCtl (r : Requester) (x : Port) (v : Word) (s : State) :
    csrEffect r (portCtlKey x) v s = portCtlWrite x v s := by
  cases x <;> rfl

/-- Training starts only where the register, once written, reads `DISABLE` 0: `startTrain` asks the register file, not the word. -/
theorem exec_portRetrain_accepted {r : Requester} {x : Port} {v : Word} {s : State}
    (h : Accepts r (portCtlKey x) (v ||| 0x80000000) s) (h30 : (v ||| 0x80000000).getLsbD 30 = false) :
    exec (.portRetrain r x v) s =
      .next (startTrain x (regMask (portCtlKey x) 0x7C000000 (v ||| 0x80000000) (rearm (portCtlKey x / 0x1000) s))) := by
  have hkey : portCtlKey x % 0x1000 ≠ 0xFFC := by cases x <;> decide
  have h31 : (v ||| 0x80000000).getLsbD 31 = true := by simp
  refine (regRow_accepted h hkey).trans ?_
  simp only [csrEffect_portCtl, portCtlWrite, h30, h31, Bool.false_eq_true, if_false, if_true]

/-- Reset, with every guard armed and a register file out of form: it lists `PORT_A_CTL` twice, both times with `DISABLE` 1. -/
def doubledPortCtl : State :=
  { State.reset with dev := { resetDev with armed := 0xFFFF }, regs := [(0x1020, 0x40000000), (0x1020, 0x40000000)] }

theorem doubledPortCtl_accepts : Accepts (.core 0) (portCtlKey .a) (0x2C000000 ||| 0x80000000) doubledPortCtl :=
  ⟨by decide, by decide, by decide, fun _ => by decide, fun _ => by decide⟩

/-- Refutes O19: the statement is about every `State`, also one whose register file is not in strictly ascending order of its keys.
Core 0 writes `PORT_A_CTL` with `RETRAIN` 1 and otherwise its reset value; a register at its reset value is not listed, so the write
drops the first entry, the second still reads `DISABLE` 1, and the port does not train. (`KEY_PREF_WRITE` reads its register back in
the same way. No run from reset reaches such a file, since `regs` is written only by `assocSet` and `filter`: the statement lacks a
hypothesis on the order of `regs`.) -/
theorem not_registerRowsComplete : ¬ Obligations.RegisterRowsComplete := by
  unfold Obligations.RegisterRowsComplete
  intro h
  obtain ⟨-, -, hretrain, -⟩ := h (.core 0) .a 0 0 .alarm 0x2C000000 doubledPortCtl
  have htrains := hretrain doubledPortCtl_accepts (by decide)
  rw [exec_portRetrain_accepted doubledPortCtl_accepts (by decide)] at htrains
  have hport := congrArg (fun t => t.ports.a.training) (Host.Outcome.next.inj htrains)
  exact absurd hport (by decide)

/-! ### General and diagnostic commands -/

/-- A started command that neither a reload nor its masks hold back does what its opcode's body says. -/
theorem next_runOp_of_runs {o : OpSpec} {code id : Nat} {body : Cmd → State → State} {c : Cmd} {s : State} (h : Runs id code c s) :
    (.next (runOp o code id body s) : Out) = .next (body c s) := by
  obtain ⟨hget, hcode, hphase, hkeys, hmasks⟩ := h
  rw [runOp_started hget hcode hphase hkeys hmasks]

/-- Settles O30: each row is `runOp` with the body that the clause writes out; the length of an open result is a remainder modulo
`DST_LEN` + 1. -/
theorem generalCommandsComplete : Obligations.GeneralCommandsComplete := by
  unfold Obligations.GeneralCommandsComplete
  intro id c s len drawn gives
  have hlen : len ≤ c.dstLen := Nat.le_of_lt_succ (Nat.mod_lt _ c.dstLen.succ_pos)
  exact ⟨next_runOp_of_runs, next_runOp_of_runs, next_runOp_of_runs, next_runOp_of_runs, next_runOp_of_runs, hlen,
    next_runOp_of_runs, next_runOp_of_runs, next_runOp_of_runs, next_runOp_of_runs⟩

/-! ### The power domains -/

theorem onMain_on {f : State → State} {s : State} (h : s.dev.mainOn = true) : onMain f s = f s := if_pos h

@[simp] theorem burnPending_dev (s : State) (b : Nat) : (burnPending s b).dev = s.dev :=
  (burnPending_keeps (Sub.refl _) (Keeps.refl _ s)).parts .dev rfl

@[simp] theorem foldl_burnPending_dev (ps : List Nat) (s : State) : (ps.foldl burnPending s).dev = s.dev := by
  induction ps generalizing s with
  | nil => rfl
  | cons b ps ih => rw [List.foldl_cons, ih, burnPending_dev]

@[simp] theorem retiredSources_dev (s : State) : (retiredSources s).dev = s.dev :=
  (retiredSources_keeps (Sub.refl _) (Keeps.refl _ s)).parts .dev rfl

/-- Main power good before the pending increments are burned: the device part of this power-up, and none pending (R40, R96, R597). -/
def poweredUp (s : State) : State :=
  let m : Mode := if s.otp.retire then .retired else .survey
  let mark := markRec 0x01 s * 2 ^ 20
  ((s.modDev fun d => { d with
    mainOn := true, boot := .good, mode := m, prevMode := m, pendingAtGood := !s.backup.pending.isEmpty
    countedThisPowerUp := !s.backup.pending.isEmpty, nextTally := mark, tallyMark := mark, markCopy := mark }).modTamper fun t =>
      { t with deciding := false, retiring := false }).modBackup fun b => { b with pending := [] }

/-- The audit key is there with the device identity. -/
def auditKeyed (s : State) : State := s.modVault fun v => { v with auditKey := s.dev.identity.isSome }

/-- The survey items of what a ZJE9-C8 does not fit are done at once. -/
def unfittedItemsDone (s : State) : State :=
  if s.fuses.grade = .c8 ∧ !s.otp.retire then regOr 0x0200 0x120 s else s

@[simp] theorem unfittedItemsDone_dev (s : State) : (unfittedItemsDone s).dev = s.dev := by
  unfold unfittedItemsDone
  split <;> rfl

theorem unfittedItemsDone_of_fitted {s : State} (h : s.fuses.grade ≠ .c8) : unfittedItemsDone s = s := if_neg fun hc => h hc.1

/-- Main power good from no main power, as one pass through its stages (R96, R99, R100, R597). -/
theorem execMainPowerGood_off {s : State} (h : s.dev.mainOn = false) : execMainPowerGood s =
    .next (refreshSlow (retiredSources (unfittedItemsDone (auditKeyed (s.backup.pending.foldl burnPending (poweredUp s)))))) := by
  simp only [execMainPowerGood, h, Bool.false_eq_true, if_false]
  rfl

/-- Settles O31: each event is due under the clause's hypotheses, which decide the row's tests; for main power good with increments
pending, none of the later stages touches the mode and the two flags that `poweredUp` sets. -/
theorem powerEventsComplete : Obligations.PowerEventsComplete := by
  unfold Obligations.PowerEventsComplete
  intro s
  refine ⟨?loss, ?good, ?pending, ?cellLost, ?cellFitted, ?sleep, ?wake, ?stepDown, ?stepUp, ?fieldArrives, ?fieldLost⟩
  case loss =>
    intro n hon
    change execMainPowerLoss n s = _
    simp [execMainPowerLoss, hon]
  case good =>
    intro hoff hnone hgrade
    refine (execMainPowerGood_off hoff).trans ?_
    have hfitted : (auditKeyed (poweredUp s)).fuses.grade ≠ .c8 := hgrade
    rw [hnone, List.foldl_nil, unfittedItemsDone_of_fitted hfitted]
    simp only [auditKeyed, poweredUp, hnone]
    rfl
  case pending =>
    intro hoff hsome
    refine ⟨_, execMainPowerGood_off hoff, ?_⟩
    simp [refreshSlow, auditKeyed, poweredUp, hsome]
  case cellLost =>
    intro hoff hcell
    change execVbatLost s = _
    simp [execVbatLost, hoff, hcell]
  case cellFitted =>
    intro hoff hcell
    change execBackupDomainFirstPowered s = _
    simp [execBackupDomainFirstPowered, hoff, hcell]
  case sleep =>
    intro hmode hawake hidle htime hbit
    change execSleepEntry s = _
    rw [execSleepEntry, if_pos ⟨hmode, by simpa using hawake, hidle, htime, by simpa using hbit⟩]
  case wake => exact fun hon => congrArg Host.Outcome.next (onMain_on hon)
  case stepDown => exact fun hon => congrArg Host.Outcome.next (onMain_on hon)
  case stepUp => exact fun hon => congrArg Host.Outcome.next (onMain_on hon)
  case fieldArrives =>
    intro hno hon
    have hdrawn : (drawBytes 3 s).2.dev.mainOn = true := hon
    change execPuntyFieldArrive s = _
    simp [execPuntyFieldArrive, hno, hdrawn]
  case fieldLost =>
    intro hfield hon
    change execPuntyFieldLoss s = _
    simp [execPuntyFieldLoss, hfield, hon]

end Sys2Proof.Machine
end

section
/-! PROOFS. Family 02_register_conventions: a write's checks in their order (O15), the unlock registers (O16), the latches of wide
values (O17). -/
namespace Sys2Proof.Machine
open Sys2Proof.Stated

/-! ### Accesses that reach the CSR space -/

theorem exec_csrWrite_reaches {r : Requester} {s : State} (h : Reaches r s) (ptag : Option (BitVec 20)) (addr : BitVec 21) (w : Width)
    (v : BitVec 64) : exec (.csrWrite r ptag addr w v) s = .next (csrWrite r ptag addr.toNat w v s) := by
  change execCsrWrite r ptag addr w v s = _
  simp [execCsrWrite, submit, access, h.1, h.2]

theorem exec_blkUnlock_reaches {r : Requester} {s : State} (h : Reaches r s) (blk : Fin 16) (v : Word) :
    exec (.blkUnlock r blk v) s = .next (csrWrite32 r (blk.val * 0x1000 + 0xFFC) v s) := by
  change execBlkUnlock r blk v s = _
  simp [execBlkUnlock, writeReg, h.1, h.2]

theorem exec_wideValueLatch_reaches {r : Requester} {s : State} (h : Reaches r s) (ptag : Option (BitVec 20)) (addr : BitVec 21)
    (w : Width) : exec (.wideValueLatch r ptag addr w) s = .next (csrRead r ptag addr.toNat w 0 s) := by
  change execWideValueLatch r ptag addr w s = _
  simp [execWideValueLatch, submit, access, h.1, h.2]

/-! ### Guards -/

@[simp] theorem writeBarred_rearm (r : Requester) (key blk : Nat) (s : State) : writeBarred r key (rearm blk s) = writeBarred r key s := rfl

/-- Locking a guard before it is armed makes no difference. -/
theorem arm_rearm (blk : Nat) (s : State) :
    (rearm blk s).modDev (fun d => { d with armed := d.armed ||| ((1 : BitVec 16) <<< blk) }) =
      s.modDev fun d => { d with armed := d.armed ||| ((1 : BitVec 16) <<< blk) } := by
  have hmask : ∀ a m : BitVec 16, a &&& ~~~m ||| m = a ||| m := by
    intro a m
    ext i hi
    cases hm : m[i] <;> simp [hm]
  simp [rearm, State.modDev, hmask]

/-! ### The checks of a write (R67) -/

/-- The width check: a write below the doorbells that fails it locks its block's guard and sets `WIDTH_ERR` alone. -/
theorem widthFail_below {r : Requester} {addr : Nat} {s : State} (hbelow : addr < 0x100000)
    (hbarred : writeBarred r (csrKey addr) s = false) : widthFail r addr s = devErr 2 r (rearm (csrKey addr / 0x1000) s) := by
  have hblk : csrKey addr / 0x1000 = addr / 0x10000 := by unfold csrKey; omega
  rw [hblk, widthFail, if_neg (by omega)]
  simp [hbarred]

/-- A narrow or misaligned write fails the width check. -/
theorem csrWrite_badWidth {r : Requester} {ptag : Option (BitVec 20)} {addr : Nat} {w : Width} (v : BitVec 64) (s : State)
    (hbad : w = .b8 ∨ w = .b16 ∨ (w = .b32 ∧ addr % 4 ≠ 0) ∨ (w = .b64 ∧ addr % 8 ≠ 0)) :
    csrWrite r ptag addr w v s = widthFail r addr s := by
  obtain rfl | rfl | ⟨rfl, halign⟩ | ⟨rfl, halign⟩ := hbad
  · rfl
  · rfl
  · exact if_pos halign
  · exact if_pos halign

/-- An aligned 32-bit write below the doorbells is a write of the register it decodes to. -/
theorem csrWrite_word {r : Requester} {ptag : Option (BitVec 20)} {addr : Nat} (v : BitVec 64) (s : State) (hbelow : addr < 0x100000)
    (halign : addr % 4 = 0) : csrWrite r ptag addr .b32 v s = csrWrite32 r (csrKey addr) (v.setWidth 32) s :=
  (if_neg (not_not_intro halign)).trans (if_neg (Nat.not_le.mpr hbelow))

theorem csrWrite32_unfitted {r : Requester} {key : Nat} {v : Word} {s : State}
    (hunfitted : unfitted key (rearm (key / 0x1000) s) = true) : csrWrite32 r key v s = rearm (key / 0x1000) s := by
  simp [csrWrite32, hunfitted]

theorem csrWrite32_unlock {r : Requester} {key : Nat} {v : Word} {s : State}
    (hbarred : writeBarred r key s = false) (hfitted : unfitted key (rearm (key / 0x1000) s) = false) (hkey : key % 0x1000 = 0xFFC) :
    csrWrite32 r key v s = unlockWrite r (key / 0x1000) v (rearm (key / 0x1000) s) := by
  simp [csrWrite32, hbarred, hfitted, hkey]

/-- The checks of a write of a register that the part has: the Headgate, then the guard, then the lock (R60, R64, R66, R610). -/
theorem csrWrite32_checks {r : Requester} {key : Nat} {v : Word} {s : State} (hbarred : writeBarred r key s = false)
    (hfitted : unfitted key (rearm (key / 0x1000) s) = false) (hkey : key % 0x1000 ≠ 0xFFC) :
    let t := rearm (key / 0x1000) s
    let diff := v ^^^ csrNow r key t
    let guarded := diff &&& guardBits key ≠ 0
    let lockable := diff &&& lockBits key ≠ 0
    csrWrite32 r key v s =
      if (guarded ∨ lockable) ∧ passesGate r t = false then devErr 4 r t
      else if guarded ∧ guardArmed (key / 0x1000) s = false then devErr 0 r t
      else if lockable ∧ locked key t = true then devErr 1 r t
      else csrEffect r key v t := by
  simp only [csrWrite32, writeBarred_rearm, hbarred, hfitted, if_neg hkey, Bool.or_false, Bool.false_eq_true, if_false,
    Bool.and_eq_true, Bool.or_eq_true, decide_eq_true_eq, Bool.not_eq_true']

/-- Settles O15: `widthFail_below` where the width check fails, `csrWrite32_checks` at each later check, and `csrWrite32_accepted` for the
write that passes them all. -/
theorem writesAreCheckedInOrder : Obligations.WritesAreCheckedInOrder := by
  unfold Obligations.WritesAreCheckedInOrder
  intro r addr w v s hreaches hbelow key x armed t hbarred
  refine ⟨?width, ?unfitted, ?checks⟩
  case width =>
    intro hbad
    rw [exec_csrWrite_reaches hreaches, csrWrite_badWidth v s hbad]
    exact congrArg Host.Outcome.next (widthFail_below hbelow hbarred)
  case unfitted =>
    rintro rfl halign hunfitted
    rw [exec_csrWrite_reaches hreaches, csrWrite_word v s hbelow halign, csrWrite32_unfitted hunfitted]
  case checks =>
    rintro rfl halign hkey hfitted diff guarded lockable
    rw [exec_csrWrite_reaches hreaches, csrWrite_word v s hbelow halign]
    have hchecks := csrWrite32_checks (v := x) (s := s) hbarred hfitted hkey
    have hholds : passesGate r t = true → ¬ ((guarded ∨ lockable) ∧ passesGate r t = false) :=
      fun hgate hfails => by simp [hgate] at hfails
    have hguardPasses : (guarded → armed = true) → ¬ (guarded ∧ armed = false) :=
      fun harmed hfails => by simp [harmed hfails.1] at hfails
    refine ⟨?gate, ?guard, ?lock, ?accepted⟩
    case gate =>
      intro hprotected hgate
      rw [hchecks, if_pos ⟨hprotected, hgate⟩]
    case guard =>
      intro hgate hguarded hunarmed
      rw [hchecks, if_neg (hholds hgate), if_pos ⟨hguarded, hunarmed⟩]
    case lock =>
      intro hgate harmed hlockable hlocked
      rw [hchecks, if_neg (hholds hgate), if_neg (hguardPasses harmed), if_pos ⟨hlockable, hlocked⟩]
    case accepted =>
      rintro ⟨-, -, -, hguard, hlock⟩
      rw [csrWrite32_accepted hkey hbarred hfitted hguard hlock]

/-! ### The unlock registers (R62) -/

theorem unlockWord (blk : Fin 16) : (0x51C3E000 : Word) ||| wfield blk.val 0 = 0x51C3E000 + BitVec.ofNat 32 blk.val := by
  revert blk
  decide

/-- Every grade has the unlock register of every block. -/
theorem unfitted_unlock (blk : Nat) (s : State) : unfitted (blk * 0x1000 + 0xFFC) s = false := by
  have hlow : ¬ (blk * 0x1000 + 0xFFC) % 16 < 8 := by omega
  have hslotStatus : (blk * 0x1000 + 0xFFC == 0xC008) = false := beq_false_of_ne (by omega)
  have hslotCtl : (blk * 0x1000 + 0xFFC == 0xC01C) = false := beq_false_of_ne (by omega)
  simp only [unfitted, hlow, hslotStatus, hslotCtl, false_and, decide_false, Bool.and_false, Bool.false_and, Bool.or_self]

theorem exec_blkUnlock_taken {r : Requester} {blk : Fin 16} {s : State} (hreaches : Reaches r s)
    (hbarred : writeBarred r (blk.val * 0x1000 + 0xFFC) s = false) (v : Word) :
    exec (.blkUnlock r blk v) s = .next (unlockWrite r blk.val v (rearm blk.val s)) := by
  have hblk : (blk.val * 0x1000 + 0xFFC) / 0x1000 = blk.val := by omega
  rw [exec_blkUnlock_reaches hreaches, csrWrite32_unlock hbarred (unfitted_unlock _ _) (by omega), hblk]

/-- Settles O16: the write locks the guard as any write of the block does (R63); the unlock word then arms it. -/
theorem unlockArmsTheGuard : Obligations.UnlockArmsTheGuard := by
  unfold Obligations.UnlockArmsTheGuard
  intro r blk v s hreaches hbarred
  rw [exec_blkUnlock_taken hreaches hbarred, unlockWrite, unlockWord]
  refine ⟨?arms, ?bad⟩
  case arms =>
    intro hword
    rw [if_pos hword, arm_rearm]
  case bad =>
    intro hword
    rw [if_neg hword, rearm]

/-! ### The latches of wide values (R74, R75) -/

theorem latched_unlatch_same {r : Requester} {key : Nat} {keys : List Nat} (hmem : key ∈ keys) (s : State) :
    latched r key (unlatch r keys s) = none := by
  simp only [latched, unlatch, State.modDev_dev, Option.map_eq_none_iff, List.find?_eq_none, List.mem_filter]
  rintro l ⟨-, hkept⟩ hfound
  obtain ⟨hreq, hkey⟩ : l.req = r ∧ l.key = key := by simpa using hfound
  simp [hreq, hkey, hmem] at hkept

theorem latched_unlatch_other {q r : Requester} (hne : q ≠ r) (key : Nat) (keys : List Nat) (s : State) :
    latched q key (unlatch r keys s) = latched q key s := by
  simp only [latched, unlatch, State.modDev_dev, List.find?_filter]
  congr 2
  funext l
  rw [Bool.eq_iff_iff]
  simp only [List.contains_eq_mem, Bool.not_and, Bool.or_eq_true, Bool.not_eq_eq_eq_not, Bool.not_true, decide_eq_false_iff_not,
    Bool.and_eq_true, decide_eq_true_eq, beq_iff_eq, Bool.decide_and, Bool.decide_or, decide_not, and_iff_right_iff_imp, and_imp]
  rintro rfl -
  exact .inl hne

/-- After a latch a requester's latched word is one kept from before, else the new one. -/
theorem latched_latch (q r : Requester) (key : Nat) (keys : List Nat) (s : State) : latched q key (latch r keys s) =
    (latched q key (unlatch r keys s)).or
      (((keys.map fun k => (⟨r, k, csrNow r k s⟩ : WideLatch)).find? fun l => decide (l.req = q) && l.key == key).map (·.value)) := by
  simp only [latched, latch, State.modDev_dev, List.find?_append, Option.map_or]

theorem latched_latch_same (r : Requester) (key : Nat) (s : State) : latched r key (latch r [key] s) = some (csrNow r key s) := by
  simp [latched_latch, latched_unlatch_same]

theorem latched_latch_other {q r : Requester} (hne : q ≠ r) (key : Nat) (keys : List Nat) (s : State) :
    latched q key (latch r keys s) = latched q key s := by
  have hnone : (keys.map fun k => (⟨r, k, csrNow r k s⟩ : WideLatch)).find? (fun l => decide (l.req = q) && l.key == key) = none := by
    simp [hne.symm]
  simp only [latched_latch, latched_unlatch_other hne, hnone, Option.map_none, Option.or_none]

theorem countUnseen_seen {key : Nat} {s : State} (h : key ∉ unseenCounters) : countUnseen key s = s := by
  simp [countUnseen, h]

/-- No unseen counter is a word of a wide value. -/
theorem unseenCounters_narrow : ∀ key ∈ unseenCounters, wideHighs key = [] ∧ wideTop key = [] := by decide

/-- A read of a register that is no raw word and no unseen counter: the latched word if there is one, else the word now. -/
theorem csrRead32_register {r : Requester} {key : Nat} {s : State} (hseen : key ∉ unseenCounters) (hrawA : key ≠ 0x8180)
    (hrawB : key ≠ 0x8184) : csrRead32 r key s = ((latched r key s).getD (csrNow r key s),
      let t := if (wideTop key).isEmpty then s else unlatch r (wideTop key) s
      if (wideHighs key).isEmpty then t else latch r (wideHighs key) t) := by
  simp [csrRead32, countUnseen_seen hseen, hrawA, hrawB]

theorem wordBytes_word (w : Word) : wordBytes 0 4 w = w.setWidth 64 := by
  have hlt : w.toNat < 4294967296 := w.isLt
  apply BitVec.eq_of_toNat_eq
  simp [wordBytes, Nat.mod_eq_of_lt hlt]

/-- An aligned 32-bit read below the doorbells, other than of `RNG_DATA`, answers what the register it decodes to gives. -/
theorem csrRead_word {r : Requester} {ptag : Option (BitVec 20)} {addr tag : Nat} {s : State}
    (hbarred : readBarred r addr s = false) (halign : addr % 4 = 0) (hbelow : addr < 0x100000) (hdata : csrKey addr ≠ 0x8020) :
    csrRead r ptag addr .b32 tag s =
      answer r (csrKey addr) 4 tag ((csrRead32 r (csrKey addr) s).1.setWidth 64) (csrRead32 r (csrKey addr) s).2 := by
  have haddr : addr / 4 * 4 = addr := Nat.div_mul_cancel (Nat.dvd_of_mod_eq_zero halign)
  have hnotDb : ¬ 0x100000 ≤ addr := by omega
  simp [csrRead, widthBytes, answerKey, spaceRead32, hbarred, halign, haddr, hnotDb, hdata, wordBytes_word]

/-- Settles O17: a lowest word has no word below it to drop and a highest word none above it to latch, and neither counts. -/
theorem wideValuesLatch : Obligations.WideValuesLatch := by
  unfold Obligations.WideValuesLatch
  intro r addr s hreaches hbarred halign hbelow key
  refine ⟨?low, ?high⟩
  case low =>
    intro hhighs htop hunlatched hdata hrawA hrawB
    have hseen : key ∉ unseenCounters := fun hmem => by simp [(unseenCounters_narrow key hmem).1] at hhighs
    refine ⟨?_, latched_latch_same r (key + 4) s, fun q hne => latched_latch_other hne (key + 4) [key + 4] s⟩
    rw [exec_wideValueLatch_reaches hreaches, csrRead_word hbarred halign hbelow hdata,
      csrRead32_register hseen hrawA hrawB]
    simp [key, hhighs, htop, hunlatched]
  case high =>
    intro htop hhighs hdata hrawA hrawB
    have hseen : key ∉ unseenCounters := fun hmem => by simp [(unseenCounters_narrow key hmem).2] at htop
    rw [exec_wideValueLatch_reaches hreaches, csrRead_word hbarred halign hbelow hdata,
      csrRead32_register hseen hrawA hrawB]
    simp [key, hhighs, htop]

end Sys2Proof.Machine
end

section
/-! PROOFS. What every command and every step keeps: the parts a command may write (`mayWrite`), and what `Keeps` says of each operation;
no step takes back what is burned (O59). -/
namespace Sys2Proof.Machine
open Sys2Proof.Stated

/-- The set of the parts in a list, as a number with the bits of the parts (`Part.bit`). -/
def partSet : List Part → Nat
  | [] => 0
  | p :: ps => 2 ^ p.bit ||| partSet ps

theorem Part.bit_injective : Function.Injective Part.bit := by
  intro p q
  cases p <;> cases q <;> decide

@[simp] theorem testBit_partSet (ps : List Part) (p : Part) : (partSet ps).testBit p.bit = decide (p ∈ ps) := by
  induction ps with
  | nil => simp [partSet]
  | cons q ps ih => simp [partSet, ih, Nat.testBit_two_pow, Part.bit_injective.eq_iff, eq_comm]

theorem Sub.of_land {a b : Nat} (h : Nat.land a b = a) : Sub a b := (Sub.refl b).step h

/-- Every command answers a next state, writes only the parts of its row, and keeps what every operation keeps. -/
theorem exec_keeps_mayWrite (i : Instr) (s : State) : OutAll (Keeps (partSet (mayWrite i)) s) (exec i s) := by
  have hs := Keeps.refl (partSet (mayWrite i)) s
  cases i with dsimp only [mayWrite] at hs ⊢
  | csrWrite => exact execCsrWrite_keeps (.of_land rfl) hs
  | blkUnlock => exact execBlkUnlock_keeps (.of_land rfl) hs
  | wideValueLatch => exact execWideValueLatch_keeps (.of_land rfl) hs
  | postedWriteLand => exact execPostedWriteLand_keeps (.of_land rfl) hs
  | claim => exact execClaim_keeps (.of_land rfl) hs
  | release => exact execRelease_keeps (.of_land rfl) hs
  | cancel => exact execCancel_keeps (.of_land rfl) hs
  | leaseExpiry => exact execLeaseExpiry_keeps (.of_land rfl) hs
  | headgateLinkLoss => exact execHeadgateLinkLoss_keeps (.of_land rfl) hs
  | portXEvtCtl => exact execPortXEvtCtl_keeps (.of_land rfl) hs
  | portXEvtHead => exact execPortXEvtHead_keeps (.of_land rfl) hs
  | portRetrain => exact execPortRetrain_keeps (.of_land rfl) hs
  | portDisable => exact execPortDisable_keeps (.of_land rfl) hs
  | trainingRequest => exact execTrainingRequest_keeps (.of_land rfl) hs
  | linkTrainingDone => exact execLinkTrainingDone_keeps (.of_land rfl) hs
  | e9CapRsp => exact execE9CapRsp_keeps (.of_land rfl) hs
  | e9CapTimeout => exact execE9CapTimeout_keeps (.of_land rfl) hs
  | flitReceive => exact execFlitReceive_keeps (.of_land rfl) hs
  | replayTimeout => exact execReplayTimeout_keeps (.of_land rfl) hs
  | portDown => exact execPortDown_keeps (.of_land rfl) hs
  | cplReceive => exact execCplReceive_keeps (.of_land rfl) hs
  | flushAck => exact execFlushAck_keeps (.of_land rfl) hs
  | flushTimeout => exact execFlushTimeout_keeps (.of_land rfl) hs
  | linkDown => exact execLinkDown_keeps (.of_land rfl) hs
  | cqHomeReturn => exact execCqHomeReturn_keeps (.of_land rfl) hs
  | sqTail => exact execSqTail_keeps (.of_land rfl) hs
  | cqHead => exact execCqHead_keeps (.of_land rfl) hs
  | adminQueueEnable => exact execAdminQueueEnable_keeps (.of_land rfl) hs
  | adminQueueDisable => exact execAdminQueueDisable_keeps (.of_land rfl) hs
  | entryFetch => exact execEntryFetch_keeps (.of_land rfl) hs
  | entryArrive => exact execEntryArrive_keeps (.of_land rfl) hs
  | dispatch => exact execDispatch_keeps (.of_land rfl) hs
  | shareRecheck => exact execShareRecheck_keeps (.of_land rfl) hs
  | sealCompletion => exact execSealCompletion_keeps (.of_land rfl) hs
  | coalesceTimeout => exact execCoalesceTimeout_keeps (.of_land rfl) hs
  | queueDrained => exact execQueueDrained_keeps (.of_land rfl) hs
  | mainPowerGood => exact execMainPowerGood_keeps (.of_land rfl) hs
  | bootRomStart => exact execBootRomStart_keeps (.of_land rfl) hs
  | bootRelease => exact execBootRelease_keeps (.of_land rfl) hs
  | surveyItemDone => exact execSurveyItemDone_keeps (.of_land rfl) hs
  | surveyRepeat => exact execSurveyRepeat_keeps (.of_land rfl) hs
  | surveyEnd => exact execSurveyEnd_keeps (.of_land rfl) hs
  | knownAnswerTests => exact execKnownAnswerTests_keeps (.of_land rfl) hs
  | mainPowerLoss => exact execMainPowerLoss_keeps (.of_land rfl) hs
  | puntyFieldArrive => exact execPuntyFieldArrive_keeps (.of_land rfl) hs
  | puntyFieldLoss => exact execPuntyFieldLoss_keeps (.of_land rfl) hs
  | sleepEntry => exact execSleepEntry_keeps (.of_land rfl) hs
  | wake => exact execWake_keeps (.of_land rfl) hs
  | tempStepDown => exact execTempStepDown_keeps (.of_land rfl) hs
  | tempStepUp => exact execTempStepUp_keeps (.of_land rfl) hs
  | markAdvance => exact execMarkAdvance_keeps (.of_land rfl) hs
  | markRecordVerified => exact execMarkRecordVerified_keeps (.of_land rfl) hs
  | nop => exact execNop_keeps (.of_land rfl) hs
  | deviceInfo => exact execDeviceInfo_keeps (.of_land rfl) hs
  | modeProvisionBegin => exact execModeProvisionBegin_keeps (.of_land rfl) hs
  | modeProvisionComplete => exact execModeProvisionComplete_keeps (.of_land rfl) hs
  | modeReprovision => exact execModeReprovision_keeps (.of_land rfl) hs
  | modeCeremonyBegin => exact execModeCeremonyBegin_keeps (.of_land rfl) hs
  | modeCeremonyEnd => exact execModeCeremonyEnd_keeps (.of_land rfl) hs
  | modeMaintainBegin => exact execModeMaintainBegin_keeps (.of_land rfl) hs
  | modeMaintainCommit => exact execModeMaintainCommit_keeps (.of_land rfl) hs
  | modeMaintainAbort => exact execModeMaintainAbort_keeps (.of_land rfl) hs
  | imageLoadErase => exact execImageLoadErase_keeps (.of_land rfl) hs
  | imageLoadWrite => exact execImageLoadWrite_keeps (.of_land rfl) hs
  | imageStatus => exact execImageStatus_keeps (.of_land rfl) hs
  | modeJoinBegin => exact execModeJoinBegin_keeps (.of_land rfl) hs
  | modeJoinAbort => exact execModeJoinAbort_keeps (.of_land rfl) hs
  | modeZeroize => exact execModeZeroize_keeps (.of_land rfl) hs
  | modeRetire => exact execModeRetire_keeps (.of_land rfl) hs
  | rtcSet => exact execRtcSet_keeps (.of_land rfl) hs
  | unitDisable => exact execUnitDisable_keeps (.of_land rfl) hs
  | unitEnable => exact execUnitEnable_keeps (.of_land rfl) hs
  | keyGenerate => exact execKeyGenerate_keeps (.of_land rfl) hs
  | keyImport => exact execKeyImport_keeps (.of_land rfl) hs
  | keyExport => exact execKeyExport_keeps (.of_land rfl) hs
  | keyDerive => exact execKeyDerive_keeps (.of_land rfl) hs
  | keyDelete => exact execKeyDelete_keeps (.of_land rfl) hs
  | keyQuery => exact execKeyQuery_keeps (.of_land rfl) hs
  | keySetPolicy => exact execKeySetPolicy_keeps (.of_land rfl) hs
  | keyImportComponents => exact execKeyImportComponents_keeps (.of_land rfl) hs
  | keyExportComponents => exact execKeyExportComponents_keeps (.of_land rfl) hs
  | cacheFill => exact execCacheFill_keeps (.of_land rfl) hs
  | recordReload => exact execRecordReload_keeps (.of_land rfl) hs
  | scrub => exact execScrub_keeps (.of_land rfl) hs
  | floorsLoaded => exact execFloorsLoaded_keeps (.of_land rfl) hs
  | recordRestore => exact execRecordRestore_keeps (.of_land rfl) hs
  | keytabRestoreDone => exact execKeytabRestoreDone_keeps (.of_land rfl) hs
  | symEncrypt => exact execSymEncrypt_keeps (.of_land rfl) hs
  | symDecrypt => exact execSymDecrypt_keeps (.of_land rfl) hs
  | aeadSeal => exact execAeadSeal_keeps (.of_land rfl) hs
  | aeadOpen => exact execAeadOpen_keeps (.of_land rfl) hs
  | macGenerate => exact execMacGenerate_keeps (.of_land rfl) hs
  | macVerify => exact execMacVerify_keeps (.of_land rfl) hs
  | symWrap => exact execSymWrap_keeps (.of_land rfl) hs
  | symUnwrap => exact execSymUnwrap_keeps (.of_land rfl) hs
  | kslotLoad => exact execKslotLoad_keeps (.of_land rfl) hs
  | kslotClear => exact execKslotClear_keeps (.of_land rfl) hs
  | laneFault => exact execLaneFault_keeps (.of_land rfl) hs
  | cipherDisable => exact execCipherDisable_keeps (.of_land rfl) hs
  | cipherDrained => exact execCipherDrained_keeps (.of_land rfl) hs
  | pinTranslate => exact execPinTranslate_keeps (.of_land rfl) hs
  | pinVerify => exact execPinVerify_keeps (.of_land rfl) hs
  | pinOffsetGenerate => exact execPinOffsetGenerate_keeps (.of_land rfl) hs
  | pvvGenerate => exact execPvvGenerate_keeps (.of_land rfl) hs
  | arqcVerify => exact execArqcVerify_keeps (.of_land rfl) hs
  | arqcVerifyArpc => exact execArqcVerifyArpc_keeps (.of_land rfl) hs
  | cvvGenerate => exact execCvvGenerate_keeps (.of_land rfl) hs
  | cvvVerify => exact execCvvVerify_keeps (.of_land rfl) hs
  | dukptPinTranslate => exact execDukptPinTranslate_keeps (.of_land rfl) hs
  | dukptMacVerify => exact execDukptMacVerify_keeps (.of_land rfl) hs
  | retailMacGenerate => exact execRetailMacGenerate_keeps (.of_land rfl) hs
  | retailMacVerify => exact execRetailMacVerify_keeps (.of_land rfl) hs
  | ff1Tokenise => exact execFf1Tokenise_keeps (.of_land rfl) hs
  | ff1Detokenise => exact execFf1Detokenise_keeps (.of_land rfl) hs
  | flumeUnitFault => exact execFlumeUnitFault_keeps (.of_land rfl) hs
  | flumeDisable => exact execFlumeDisable_keeps (.of_land rfl) hs
  | flumeDrained => exact execFlumeDrained_keeps (.of_land rfl) hs
  | rollupClose => exact execRollupClose_keeps (.of_land rfl) hs
  | pkSign => exact execPkSign_keeps (.of_land rfl) hs
  | pkVerify => exact execPkVerify_keeps (.of_land rfl) hs
  | pkKeypairGenerate => exact execPkKeypairGenerate_keeps (.of_land rfl) hs
  | ecdhDerive => exact execEcdhDerive_keeps (.of_land rfl) hs
  | kemEncapsulate => exact execKemEncapsulate_keeps (.of_land rfl) hs
  | kemDecapsulate => exact execKemDecapsulate_keeps (.of_land rfl) hs
  | rsaEncrypt => exact execRsaEncrypt_keeps (.of_land rfl) hs
  | rsaDecrypt => exact execRsaDecrypt_keeps (.of_land rfl) hs
  | pkeDisable => exact execPkeDisable_keeps (.of_land rfl) hs
  | pkeDrained => exact execPkeDrained_keeps (.of_land rfl) hs
  | randomBytes => exact execRandomBytes_keeps (.of_land rfl) hs
  | rngHealth => exact execRngHealth_keeps (.of_land rfl) hs
  | rngData => exact execRngData_keeps (.of_land rfl) hs
  | estLatch => exact execEstLatch_keeps (.of_land rfl) hs
  | rngRawRead => exact execRngRawRead_keeps (.of_land rfl) hs
  | keyPrefWrite => exact execKeyPrefWrite_keeps (.of_land rfl) hs
  | maskFailsClear => exact execMaskFailsClear_keeps (.of_land rfl) hs
  | gatherBlock => exact execGatherBlock_keeps (.of_land rfl) hs
  | estimateWindowEnd => exact execEstimateWindowEnd_keeps (.of_land rfl) hs
  | rngHealthFail => exact execRngHealthFail_keeps (.of_land rfl) hs
  | startupTestDone => exact execStartupTestDone_keeps (.of_land rfl) hs
  | drbgInstantiate => exact execDrbgInstantiate_keeps (.of_land rfl) hs
  | reseed => exact execReseed_keeps (.of_land rfl) hs
  | maskFallback => exact execMaskFallback_keeps (.of_land rfl) hs
  | expanderRekey => exact execExpanderRekey_keeps (.of_land rfl) hs
  | e7Req => exact execE7Req_keeps (.of_land rfl) hs
  | sharesMint => exact execSharesMint_keeps (.of_land rfl) hs
  | sharesTransfer => exact execSharesTransfer_keeps (.of_land rfl) hs
  | sharesBalance => exact execSharesBalance_keeps (.of_land rfl) hs
  | sharesBurnStranded => exact execSharesBurnStranded_keeps (.of_land rfl) hs
  | routeUpdateAdmit => exact execRouteUpdateAdmit_keeps (.of_land rfl) hs
  | routeUpdateInstall => exact execRouteUpdateInstall_keeps (.of_land rfl) hs
  | routeUpdatePortCost => exact execRouteUpdatePortCost_keeps (.of_land rfl) hs
  | routeUpdateSetKeeper => exact execRouteUpdateSetKeeper_keeps (.of_land rfl) hs
  | peerStatus => exact execPeerStatus_keeps (.of_land rfl) hs
  | meshPortRetrain => exact execMeshPortRetrain_keeps (.of_land rfl) hs
  | meshPortDisable => exact execMeshPortDisable_keeps (.of_land rfl) hs
  | meshTrainingDone => exact execMeshTrainingDone_keeps (.of_land rfl) hs
  | meshTrainingTimeout => exact execMeshTrainingTimeout_keeps (.of_land rfl) hs
  | sessionInit => exact execSessionInit_keeps (.of_land rfl) hs
  | sessionResponse => exact execSessionResponse_keeps (.of_land rfl) hs
  | sessionConfirm => exact execSessionConfirm_keeps (.of_land rfl) hs
  | sessionReplace => exact execSessionReplace_keeps (.of_land rfl) hs
  | weperFrameReceive => exact execWeperFrameReceive_keeps (.of_land rfl) hs
  | frameResendTimeout => exact execFrameResendTimeout_keeps (.of_land rfl) hs
  | adj => exact execAdj_keeps (.of_land rfl) hs
  | broadcast => exact execBroadcast_keeps (.of_land rfl) hs
  | statement => exact execStatement_keeps (.of_land rfl) hs
  | statementAck => exact execStatementAck_keeps (.of_land rfl) hs
  | transfer => exact execTransfer_keeps (.of_land rfl) hs
  | transferAck => exact execTransferAck_keeps (.of_land rfl) hs
  | transferResend => exact execTransferResend_keeps (.of_land rfl) hs
  | transferFloor => exact execTransferFloor_keeps (.of_land rfl) hs
  | draw => exact execDraw_keeps (.of_land rfl) hs
  | settleRequest => exact execSettleRequest_keeps (.of_land rfl) hs
  | joinSyncComplete => exact execJoinSyncComplete_keeps (.of_land rfl) hs
  | appletInstall => exact execAppletInstall_keeps (.of_land rfl) hs
  | appletRemove => exact execAppletRemove_keeps (.of_land rfl) hs
  | appletInvoke => exact execAppletInvoke_keeps (.of_land rfl) hs
  | appletList => exact execAppletList_keeps (.of_land rfl) hs
  | appletBudget => exact execAppletBudget_keeps (.of_land rfl) hs
  | exit => exact execExit_keeps (.of_land rfl) hs
  | serviceCall => exact execServiceCall_keeps (.of_land rfl) hs
  | random => exact execRandom_keeps (.of_land rfl) hs
  | time => exact execTime_keeps (.of_land rfl) hs
  | pstoreRead => exact execPstoreRead_keeps (.of_land rfl) hs
  | pstoreWrite => exact execPstoreWrite_keeps (.of_land rfl) hs
  | log => exact execLog_keeps (.of_land rfl) hs
  | add => exact execAdd_keeps (.of_land rfl) hs
  | sub => exact execSub_keeps (.of_land rfl) hs
  | and => exact execAnd_keeps (.of_land rfl) hs
  | or => exact execOr_keeps (.of_land rfl) hs
  | xor => exact execXor_keeps (.of_land rfl) hs
  | shl => exact execShl_keeps (.of_land rfl) hs
  | shr => exact execShr_keeps (.of_land rfl) hs
  | sar => exact execSar_keeps (.of_land rfl) hs
  | rotr => exact execRotr_keeps (.of_land rfl) hs
  | cmplt => exact execCmplt_keeps (.of_land rfl) hs
  | cmpltu => exact execCmpltu_keeps (.of_land rfl) hs
  | mul => exact execMul_keeps (.of_land rfl) hs
  | mulhi => exact execMulhi_keeps (.of_land rfl) hs
  | mulhiu => exact execMulhiu_keeps (.of_land rfl) hs
  | div => exact execDiv_keeps (.of_land rfl) hs
  | divu => exact execDivu_keeps (.of_land rfl) hs
  | mod => exact execMod_keeps (.of_land rfl) hs
  | modu => exact execModu_keeps (.of_land rfl) hs
  | atswap => exact execAtswap_keeps (.of_land rfl) hs
  | atadd => exact execAtadd_keeps (.of_land rfl) hs
  | addk => exact execAddk_keeps (.of_land rfl) hs
  | andk => exact execAndk_keeps (.of_land rfl) hs
  | ork => exact execOrk_keeps (.of_land rfl) hs
  | xork => exact execXork_keeps (.of_land rfl) hs
  | cmpltk => exact execCmpltk_keeps (.of_land rfl) hs
  | cmpltuk => exact execCmpltuk_keeps (.of_land rfl) hs
  | shlk => exact execShlk_keeps (.of_land rfl) hs
  | shrk => exact execShrk_keeps (.of_land rfl) hs
  | sark => exact execSark_keeps (.of_land rfl) hs
  | upk => exact execUpk_keeps (.of_land rfl) hs
  | ldw => exact execLdw_keeps (.of_land rfl) hs
  | ldh => exact execLdh_keeps (.of_land rfl) hs
  | ldhu => exact execLdhu_keeps (.of_land rfl) hs
  | ldb => exact execLdb_keeps (.of_land rfl) hs
  | ldbu => exact execLdbu_keeps (.of_land rfl) hs
  | stw => exact execStw_keeps (.of_land rfl) hs
  | sth => exact execSth_keeps (.of_land rfl) hs
  | stb => exact execStb_keeps (.of_land rfl) hs
  | breq => exact execBreq_keeps (.of_land rfl) hs
  | brne => exact execBrne_keeps (.of_land rfl) hs
  | brlt => exact execBrlt_keeps (.of_land rfl) hs
  | brge => exact execBrge_keeps (.of_land rfl) hs
  | brltu => exact execBrltu_keeps (.of_land rfl) hs
  | brgeu => exact execBrgeu_keeps (.of_land rfl) hs
  | jmp => exact execJmp_keeps (.of_land rfl) hs
  | call => exact execCall_keeps (.of_land rfl) hs
  | callr => exact execCallr_keeps (.of_land rfl) hs
  | loop => exact execLoop_keeps (.of_land rfl) hs
  | loopi => exact execLoopi_keeps (.of_land rfl) hs
  | rdcr => exact execRdcr_keeps (.of_land rfl) hs
  | wrcr => exact execWrcr_keeps (.of_land rfl) hs
  | setcr => exact execSetcr_keeps (.of_land rfl) hs
  | clrcr => exact execClrcr_keeps (.of_land rfl) hs
  | xret => exact execXret_keeps (.of_land rfl) hs
  | trap => exact execTrap_keeps (.of_land rfl) hs
  | wait => exact execWait_keeps (.of_land rfl) hs
  | sync => exact execSync_keeps (.of_land rfl) hs
  | tagw => exact execTagw_keeps (.of_land rfl) hs
  | tagr => exact execTagr_keeps (.of_land rfl) hs
  | lateWrite => exact execLateWrite_keeps (.of_land rfl) hs
  | interrupt => exact execInterrupt_keeps (.of_land rfl) hs
  | dmaDone => exact execDmaDone_keeps (.of_land rfl) hs
  | progRows => exact execProgRows_keeps (.of_land rfl) hs
  | progWords => exact execProgWords_keeps (.of_land rfl) hs
  | eraseMain => exact execEraseMain_keeps (.of_land rfl) hs
  | eraseParam => exact execEraseParam_keeps (.of_land rfl) hs
  | recordWrite => exact execRecordWrite_keeps (.of_land rfl) hs
  | flashOpDone => exact execFlashOpDone_keeps (.of_land rfl) hs
  | vaultFormat => exact execVaultFormat_keeps (.of_land rfl) hs
  | vaultStatus => exact execVaultStatus_keeps (.of_land rfl) hs
  | journalRead => exact execJournalRead_keeps (.of_land rfl) hs
  | journalExport => exact execJournalExport_keeps (.of_land rfl) hs
  | vaultRebuild => exact execVaultRebuild_keeps (.of_land rfl) hs
  | vaultSetLayout => exact execVaultSetLayout_keeps (.of_land rfl) hs
  | slotRelease => exact execSlotRelease_keeps (.of_land rfl) hs
  | segmentSeal => exact execSegmentSeal_keeps (.of_land rfl) hs
  | completionToken => exact execCompletionToken_keeps (.of_land rfl) hs
  | tokenTimeout => exact execTokenTimeout_keeps (.of_land rfl) hs
  | presenceCheck => exact execPresenceCheck_keeps (.of_land rfl) hs
  | cartridgeInsert => exact execCartridgeInsert_keeps (.of_land rfl) hs
  | slotBringUp => exact execSlotBringUp_keeps (.of_land rfl) hs
  | vaultReplay => exact execVaultReplay_keeps (.of_land rfl) hs
  | catchUpDone => exact execCatchUpDone_keeps (.of_land rfl) hs
  | vaultRebuildDone => exact execVaultRebuildDone_keeps (.of_land rfl) hs
  | cartStatusPoll => exact execCartStatusPoll_keeps (.of_land rfl) hs
  | enrol => exact execEnrol_keeps (.of_land rfl) hs
  | revoke => exact execRevoke_keeps (.of_land rfl) hs
  | setDefine => exact execSetDefine_keeps (.of_land rfl) hs
  | setHold => exact execSetHold_keeps (.of_land rfl) hs
  | quorumStatus => exact execQuorumStatus_keeps (.of_land rfl) hs
  | cardSession => exact execCardSession_keeps (.of_land rfl) hs
  | badgeAuthenticate => exact execBadgeAuthenticate_keeps (.of_land rfl) hs
  | tagInventory => exact execTagInventory_keeps (.of_land rfl) hs
  | sealRead => exact execSealRead_keeps (.of_land rfl) hs
  | sealIssue => exact execSealIssue_keeps (.of_land rfl) hs
  | sealWrite => exact execSealWrite_keeps (.of_land rfl) hs
  | cardInsert => exact execCardInsert_keeps (.of_land rfl) hs
  | atr => exact execAtr_keeps (.of_land rfl) hs
  | cardRemoved => exact execCardRemoved_keeps (.of_land rfl) hs
  | cardOvercurrent => exact execCardOvercurrent_keeps (.of_land rfl) hs
  | sessionExpiry => exact execSessionExpiry_keeps (.of_land rfl) hs
  | verdictEvaluation => exact execVerdictEvaluation_keeps (.of_land rfl) hs
  | probe => exact execProbe_keeps (.of_land rfl) hs
  | capacitiveWake => exact execCapacitiveWake_keeps (.of_land rfl) hs
  | tamperStatus => exact execTamperStatus_keeps (.of_land rfl) hs
  | tamperLogRead => exact execTamperLogRead_keeps (.of_land rfl) hs
  | evidenceRead => exact execEvidenceRead_keeps (.of_land rfl) hs
  | puntyWrite => exact execPuntyWrite_keeps (.of_land rfl) hs
  | tamperPinConfig => exact execTamperPinConfig_keeps (.of_land rfl) hs
  | tamperLevel0Write => exact execTamperLevel0Write_keeps (.of_land rfl) hs
  | alarmRaised => exact execAlarmRaised_keeps (.of_land rfl) hs
  | alarmRecord => exact execAlarmRecord_keeps (.of_land rfl) hs
  | monitorFault => exact execMonitorFault_keeps (.of_land rfl) hs
  | scrubComplete => exact execScrubComplete_keeps (.of_land rfl) hs
  | workingKeysReformed => exact execWorkingKeysReformed_keeps (.of_land rfl) hs
  | zeroizeDecision => exact execZeroizeDecision_keeps (.of_land rfl) hs
  | holdAlarm => exact execHoldAlarm_keeps (.of_land rfl) hs
  | tamperLogCopy => exact execTamperLogCopy_keeps (.of_land rfl) hs
  | vbatMeasure => exact execVbatMeasure_keeps (.of_land rfl) hs
  | puntySwap => exact execPuntySwap_keeps (.of_land rfl) hs
  | puntyAnticollision => exact execPuntyAnticollision_keeps (.of_land rfl) hs
  | ptRead => exact execPtRead_keeps (.of_land rfl) hs
  | ptRead4 => exact execPtRead4_keeps (.of_land rfl) hs
  | hlta => exact execHlta_keeps (.of_land rfl) hs
  | furrowCreate => exact execFurrowCreate_keeps (.of_land rfl) hs
  | furrowSetPolicy => exact execFurrowSetPolicy_keeps (.of_land rfl) hs
  | furrowQuiesce => exact execFurrowQuiesce_keeps (.of_land rfl) hs
  | furrowQuiesced => exact execFurrowQuiesced_keeps (.of_land rfl) hs
  | furrowReset => exact execFurrowReset_keeps (.of_land rfl) hs
  | furrowRemove => exact execFurrowRemove_keeps (.of_land rfl) hs
  | furrowDisable => exact execFurrowDisable_keeps (.of_land rfl) hs
  | furrowDisabled => exact execFurrowDisabled_keeps (.of_land rfl) hs
  | furrowEnable => exact execFurrowEnable_keeps (.of_land rfl) hs
  | dirtyLogStart => exact execDirtyLogStart_keeps (.of_land rfl) hs
  | dirtyLogStop => exact execDirtyLogStop_keeps (.of_land rfl) hs
  | furrowQuery => exact execFurrowQuery_keeps (.of_land rfl) hs
  | cqCreate => exact execCqCreate_keeps (.of_land rfl) hs
  | cqDelete => exact execCqDelete_keeps (.of_land rfl) hs
  | sqCreate => exact execSqCreate_keeps (.of_land rfl) hs
  | sqDelete => exact execSqDelete_keeps (.of_land rfl) hs
  | sqDisable => exact execSqDisable_keeps (.of_land rfl) hs
  | sqEnable => exact execSqEnable_keeps (.of_land rfl) hs
  | queueQuery => exact execQueueQuery_keeps (.of_land rfl) hs
  | selftestResults => exact execSelftestResults_keeps (.of_land rfl) hs
  | loopback => exact execLoopback_keeps (.of_land rfl) hs
  | counterSnapshot => exact execCounterSnapshot_keeps (.of_land rfl) hs
  | unitSelftest => exact execUnitSelftest_keeps (.of_land rfl) hs
  | memoryTest => exact execMemoryTest_keeps (.of_land rfl) hs
  | alarmConditionAbsent => exact execAlarmConditionAbsent_keeps (.of_land rfl) hs
  | vbatLost => exact execVbatLost_keeps (.of_land rfl) hs
  | backupDomainFirstPowered => exact execBackupDomainFirstPowered_keeps (.of_land rfl) hs
  | cardSilent => exact execCardSilent_keeps (.of_land rfl) hs

/-- Every step answers a next state that takes back nothing burned: by `exec_keeps_mayWrite` for the command at the front of the queue,
by `tick_keeps` for the clock edge on an empty one. -/
theorem step_keepsOtp (s : State) : OutAll s.keepsOtp (step s) := by
  unfold step
  split
  · exact OutAll.next (tick_keeps (Sub.refl _) (Keeps.refl _ s)).otp
  next c rest _ =>
    obtain ⟨t, ht, hkeeps⟩ := exec_keeps_mayWrite c { s with pending := rest }
    exact ⟨t, ht, hkeeps.otp⟩

/-- Settles O59: a step is one command with the rest of the queue, or one clock edge, and `step_keepsOtp` covers both. -/
theorem stepsKeepWhatIsBurned : Obligations.StepsKeepWhatIsBurned := by
  unfold Obligations.StepsKeepWhatIsBurned
  intro s t hstep
  obtain ⟨u, hu, hkeeps⟩ := step_keepsOtp s
  obtain rfl : u = t := by simpa [hu] using hstep
  exact hkeeps

end Sys2Proof.Machine
end

section
/-! PROOFS. Family 03_modes_and_startup: the mode-change commands (O28), the alarm of a disagreement (O29), boot and SURVEY (O32). -/
namespace Sys2Proof.Machine
open Sys2Proof.Stated

/-! ### Mode-change commands -/

@[simp] theorem forbidUnless_eq_none (b : Bool) : forbidUnless b = none ↔ b = true := by
  cases b <;> simp [forbidUnless]

/-- A mode-change command that may act and whose other conditions hold acts, with no mode change waiting. -/
theorem modeOp_turns {code id : Nat} {target : Cmd → State → Mode} {cond : Cmd → State → Option Status} {go : Cmd → State → State}
    {c : Cmd} {m : Mode} {s : State} (h : Turns id code c m s) (htarget : target c s = m) (hcond : cond c s = none) :
    modeOp code id target cond go s = .next (go c (clearWait s)) := by
  subst htarget
  obtain ⟨hruns, hwait, ⟨ms, hms, hmem⟩, hfree⟩ := h
  refine (next_runOp_of_runs hruns).trans (congrArg Host.Outcome.next ?_)
  cases hw : s.dev.modeWait with
  | none => simp [hms, hmem, hcond, hfree]
  | some w => simp [hms, hmem, hcond, hfree, hwait w hw]

/-- PROVISION entered, the command completes. -/
theorem provisionEnd_entered {c : Cmd} {record : State → State} {s u : State}
    (h : enterProvision s (fun s => changeMode .provision (record s)) = some u) : provisionEnd c record s = finishSt c .ok u := by
  simp [provisionEnd, h]

/-- A device of a founded key domain leaves PROVISION at once. -/
theorem leaveProvision_founded {c : Cmd} {s : State} (h : s.cistern.root ≠ []) :
    leaveProvision c s = finishSt c .ok (changeMode (serviceOrDegraded s) (setModeFlags 0x1 0x4 s)) := by
  simp [leaveProvision, h]

/-- Settles O28: `modeOp_turns` gives what each command then does; the cases with more to say are PROVISION entered
(`provisionEnd_entered`), a founded domain left (`leaveProvision_founded`), and the commit of an image. -/
theorem modeCommandsComplete : Obligations.ModeCommandsComplete := by
  unfold Obligations.ModeCommandsComplete
  intro id c s t back ok
  refine ⟨?provisionBegin, ?complete, ?completeJoin, ?reprovision, ?ceremonyBegin, ?ceremonyEnd, ?maintainBegin, ?maintainAbort,
    ?commit, ?joinBegin, ?joinAbort, ?zeroizeStatement, ?zeroize, ?retire⟩
  case provisionBegin =>
    intro ddn u h henter
    change execModeProvisionBegin id ddn s = _
    rw [execModeProvisionBegin, modeOp_turns h rfl rfl, provisionEnd_entered henter]
  case complete =>
    intro h hjoin hcond hroot
    change execModeProvisionComplete id s = _
    rw [execModeProvisionComplete, modeOp_turns h (by simp [hjoin]) hcond, if_neg (by simp [hjoin]),
      leaveProvision_founded (s := t) hroot]
  case completeJoin =>
    intro h hjoin hcond
    change execModeProvisionComplete id s = _
    rw [execModeProvisionComplete, modeOp_turns h (if_pos hjoin) hcond, if_pos hjoin]
  case reprovision =>
    intro u h henter
    change execModeReprovision id true s = _
    rw [execModeReprovision, modeOp_turns h rfl rfl, if_neg (by simp), provisionEnd_entered henter]
  case ceremonyBegin =>
    intro h
    change execModeCeremonyBegin id s = _
    rw [execModeCeremonyBegin, modeOp_turns h rfl rfl]
  case ceremonyEnd =>
    intro h
    change execModeCeremonyEnd id s = _
    rw [execModeCeremonyEnd, modeOp_turns h rfl rfl]
  case maintainBegin =>
    intro h
    change execModeMaintainBegin id s = _
    rw [execModeMaintainBegin, modeOp_turns h rfl rfl]
  case maintainAbort =>
    intro h hrecovery
    change execModeMaintainAbort id s = _
    rw [execModeMaintainAbort, modeOp_turns h rfl (by simp [hrecovery])]
  case commit =>
    intro sig0 sig1 n h hstaged u m v hselect hretired henter
    subst hselect
    change execModeMaintainCommit id sig0 sig1 true s = _
    rw [execModeMaintainCommit, modeOp_turns h rfl rfl, if_neg (by simp)]
    split
    next hnone => exact absurd (hnone.symm.trans hstaged) (by simp)
    next k hsome =>
      obtain rfl : k = n := Option.some.inj (hsome.symm.trans hstaged)
      dsimp only
      split
      next hsel => exact absurd hsel hretired
      next => rw [show enterSelected _ _ = some v from henter]
  case joinBegin =>
    intro h hgrade
    change execModeJoinBegin id s = _
    rw [execModeJoinBegin, modeOp_turns h rfl (by simpa using hgrade)]
  case joinAbort =>
    intro h hfrom
    have hstill : ¬ joinedFromProvision (clearWait s) = true := Bool.eq_false_iff.mp hfrom
    change execModeJoinAbort id s = _
    rw [execModeJoinAbort, modeOp_turns h (by simp [hfrom]) rfl, if_neg hstill]
  case zeroizeStatement =>
    intro h hfirst
    change execModeZeroize id true s = _
    rw [execModeZeroize, modeOp_turns h rfl rfl, if_pos (by simp [hfirst])]
  case zeroize =>
    intro h hagain
    change execModeZeroize id true s = _
    rw [execModeZeroize, modeOp_turns h rfl rfl, if_neg (by simp [hagain]), if_neg (by simp)]
  case retire =>
    intro h
    change execModeRetire id true s = _
    rw [execModeRetire, modeOp_turns h rfl rfl, if_neg (by simp)]

/-! ### The alarm of a disagreement -/

/-- In SURVEY an item other than the rails that is not done yet is done (R105). -/
theorem execSurveyItemDone_due {d : SurveyData} {s : State} (hon : s.dev.mainOn = true) (hmode : s.dev.mode = .survey)
    (hitem : itemOf d ≠ 0) (hbit : regBit 0x0200 (itemOf d) s = false) : execSurveyItemDone d s = .next (surveyItem d s) := by
  simp [execSurveyItemDone, hon, hmode, hitem, hbit]

/-- Settles O29: `modeOp_turns` brings each command to its decision, where two computations that disagree only raise the alarm. -/
theorem disagreementRaisesTheAlarm : Obligations.DisagreementRaisesTheAlarm := by
  unfold Obligations.DisagreementRaisesTheAlarm
  intro id c s t alarm
  refine ⟨?zeroize, ?retire, ?reprovision, ?commit, ?release, ?survey⟩
  case zeroize =>
    intro h hagain
    change execModeZeroize id false s = _
    rw [execModeZeroize, modeOp_turns h rfl rfl, if_neg (by simp [hagain]), if_pos (by simp), disagreeOf]
  case retire =>
    intro h
    change execModeRetire id false s = _
    rw [execModeRetire, modeOp_turns h rfl rfl, if_pos (by simp), disagreeOf]
  case reprovision =>
    intro h
    change execModeReprovision id false s = _
    rw [execModeReprovision, modeOp_turns h rfl rfl, if_pos (by simp), disagreeOf]
  case commit =>
    intro sig0 sig1 h
    change execModeMaintainCommit id sig0 sig1 false s = _
    rw [execModeMaintainCommit, modeOp_turns h rfl rfl, if_pos (by simp), disagreeOf]
  case release =>
    intro sig0 sig1 hrom hready
    change execBootRelease sig0 sig1 false s = _
    simp [execBootRelease, hrom, hready, disagree, raiseAlarm]
  case survey =>
    intro hon hmode hboot hbit
    refine (execSurveyItemDone_due (d := .decision false) hon hmode (by decide) hbit).trans (congrArg Host.Outcome.next ?_)
    simp [surveyItem, hboot, disagree, raiseAlarm]

/-! ### Boot and SURVEY -/

@[simp] theorem drawStoreKeys_dev (fuel : Nat) (s : State) : (drawStoreKeys fuel s).dev = s.dev :=
  (drawStoreKeys_keeps (Sub.refl _) (Keeps.refl _ s)).parts .dev rfl

@[simp] theorem startImage_dev (n : Option Nat) (s : State) : (startImage n s).dev = s.dev := rfl

/-- The cores' release in SURVEY selects a mode: neither the image's start nor the draw of the store's keys leaves SURVEY. -/
theorem execBootRelease_selects {sig0 sig1 : Bool} {s : State} (hrom : s.dev.boot = .rom) (hready : keyReady s = true)
    (hmode : s.dev.mode = .survey) :
    let n := bootImage sig0 sig1 s
    let u := drawStoreKeys 4 (startImage n (if n = some (1 - activeSlot s) then regOr 0x0208 8 s else s))
    execBootRelease sig0 sig1 true s = .next (u.modDev fun d => { d with
      boot := .selected, recovery := n.isNone, selected := some (selectMode n.isNone u) }) := by
  intro n u
  have hstill : u.dev.mode = .survey := by
    simp only [u, drawStoreKeys_dev, startImage_dev]
    split <;> exact hmode
  rw [execBootRelease, if_neg (by simp [hrom, hready]), if_neg (by simp)]
  exact congrArg Host.Outcome.next (if_pos hstill)

/-- SURVEY ends when its time is over, every rail is in range and the decision is done (R105, R106). -/
theorem execSurveyEnd_late {us : BitVec 32} {m : Mode} {u s : State} (hmode : s.dev.mode = .survey) (hboot : s.dev.boot = .selected)
    (hselected : s.dev.selected = some m) (hrails : ((List.range 8).any fun n => regBit (0x0210 + 4 * n) 30 s) = false)
    (hdecided : regBit 0x0200 9 s = true) (henter : enterSelected m (regSet 0x0204 us (regOr 0x0200 0x80000000 s)) = some u) :
    execSurveyEnd true us s = .next (serveHeld (u.modDev fun d => { d with boot := .running, selected := none })) := by
  have hended : wbit true 31 = 0x80000000 := rfl
  simp only [execSurveyEnd, hselected]
  rw [if_neg (by simp [hmode, hboot, hrails, hdecided]), hended, henter]

/-- Settles O32: each row is its guard, which the clause's conditions pass; only `BOOT_RELEASE` asks for the mode again after it has
written, so that `execBootRelease_selects` needs the device part kept until there. -/
theorem bootAndSurveyComplete : Obligations.BootAndSurveyComplete := by
  unfold Obligations.BootAndSurveyComplete
  intro s
  refine ⟨?romStart, ?release, ?item, ?again, ?ends, ?tests, ?nonceMark, ?tallyMark, ?nonceVerified, ?tallyVerified⟩
  case romStart => exact fun hgood => congrArg Host.Outcome.next (if_neg (not_not_intro hgood))
  case release => exact fun _ _ hrom hready hmode => execBootRelease_selects hrom hready hmode
  case item => exact fun _ hon hmode hitem hbit _ => execSurveyItemDone_due hon hmode hitem hbit
  case again => exact fun _ hon hboot hmode hitem => congrArg Host.Outcome.next (if_pos ⟨hon, hboot, hmode, hitem⟩)
  case ends => exact fun _ _ _ hmode hboot hselected hrails hdecided henter =>
    execSurveyEnd_late hmode hboot hselected hrails hdecided henter
  case tests => exact fun _ _ _ _ hon hmode => congrArg Host.Outcome.next (if_pos ⟨hon, .inl hmode⟩)
  case nonceMark =>
    intro n hon hboot hfree hlow
    change execMarkAdvance true n s = _
    simp [execMarkAdvance, hon, hboot, hfree, hlow]
  case tallyMark =>
    intro n hon hboot hfree hlow
    change execMarkAdvance false n s = _
    simp [execMarkAdvance, hon, hboot, hfree, hlow]
  case nonceVerified =>
    intro m hbusy
    change execMarkRecordVerified true s = _
    simp [execMarkRecordVerified, hbusy]
  case tallyVerified =>
    intro m hbusy
    change execMarkRecordVerified false s = _
    simp [execMarkRecordVerified, hbusy]

end Sys2Proof.Machine
end

section
/-! PROOFS. Family 04_ucie_ports: the Headgate's commands (O20), the tie of two claims (O21), a change of owner (O22), the link events of
the host ports (O23). -/
namespace Sys2Proof.Machine
open Sys2Proof.Stated

/-! ### What the delivery of an event leaves of the host interface -/

/-- The Headgate, and which ports are up: the part of the host interface that no event entry writes. -/
def gateAndLinks (s : State) : Headgate × Bool × Bool := (s.ports.hg, s.ports.a.up, s.ports.b.up)

theorem hg_of_gateAndLinks {s t : State} (h : gateAndLinks t = gateAndLinks s) : t.ports.hg = s.ports.hg := congrArg Prod.fst h

theorem up_of_gateAndLinks {s t : State} (h : gateAndLinks t = gateAndLinks s) (p : Port) : (t.port p).up = (s.port p).up := by
  cases p
  · exact congrArg (fun x => x.2.1) h
  · exact congrArg (fun x => x.2.2) h

theorem modPort_gateAndLinks {f : PortSt → PortSt} (hf : ∀ q, (f q).up = q.up) (p : Port) (s : State) :
    gateAndLinks (s.modPort p f) = gateAndLinks s := by
  cases p <;> simp [gateAndLinks, State.modPort, hf]

@[simp] theorem modRing_gateAndLinks (p : Port) (f : EvtRing → EvtRing) (s : State) :
    gateAndLinks (s.modRing p f) = gateAndLinks s :=
  modPort_gateAndLinks (f := fun q => { q with ring := f q.ring }) (fun _ => rfl) p s

@[simp] theorem sendFuel_up (n : Nat) (q : PortSt) : (sendFuel n q).up = q.up := by
  induction n generalizing q with
  | zero => rfl
  | succ n ih =>
    unfold sendFuel
    split
    · rfl
    · exact ih _

@[simp] theorem write_up (w : Mwr) (q : PortSt) : (q.write w).up = q.up := by
  unfold PortSt.write
  dsimp only
  split
  · exact sendFuel_up _ _
  · rfl

@[simp] theorem pushMwr_gateAndLinks (p : Port) (w : Mwr) (s : State) : gateAndLinks (pushMwr p w s) = gateAndLinks s :=
  modPort_gateAndLinks (write_up w) _ s

@[simp] theorem writeEvt_gateAndLinks (p : Port) (e : Evt) (s : State) : gateAndLinks (writeEvt p e s) = gateAndLinks s := by
  simp [writeEvt]

@[simp] theorem evtIrq_gateAndLinks (p : Port) (s : State) : gateAndLinks (evtIrq p s) = gateAndLinks s := by
  unfold evtIrq
  split
  · exact pushMwr_gateAndLinks _ _ s
  · rfl

@[simp] theorem dropEvt_gateAndLinks (p : Port) (e : Evt) (s : State) : gateAndLinks (dropEvt p e s) = gateAndLinks s :=
  modRing_gateAndLinks p _ s

/-- An entry written, held for room or lost: the Headgate and the links stay. -/
@[simp] theorem ringEvt_gateAndLinks (p : Port) (e : Evt) (s : State) : gateAndLinks (ringEvt p e s) = gateAndLinks s := by
  unfold ringEvt
  dsimp only
  split
  · split
    · split
      · rw [evtIrq_gateAndLinks, writeEvt_gateAndLinks]
      · split
        · exact modRing_gateAndLinks p _ s
        · exact dropEvt_gateAndLinks p e s
    · exact dropEvt_gateAndLinks p e s
  · rfl

@[simp] theorem ringEvt_dev (p : Port) (e : Evt) (s : State) : (ringEvt p e s).dev = s.dev :=
  (ringEvt_keeps (Sub.refl _) (Keeps.refl _ s)).parts .dev rfl

/-! ### A tally issued -/

@[simp] theorem logRecord_dev (kind data : Nat) (s : State) : (logRecord kind data s).dev = s.dev :=
  (logRecord_keeps (Sub.refl _) (Keeps.refl _ s)).parts .dev rfl

@[simp] theorem issueTally_ports (s : State) : (issueTally s).2.ports = s.ports :=
  (issueTally_keeps (Sub.refl _) (Keeps.refl _ s)).parts .ports rfl

@[simp] theorem issueTally_armed (s : State) : (issueTally s).2.dev.armed = s.dev.armed := by
  unfold issueTally
  dsimp only [State.modDev_dev]
  split
  · rfl
  · simp [bump]

theorem postEvt_own_hg (p : Port) (code : Nat) (d0 : Word) (d1 : BitVec 128) (s : State) :
    (postEvt (.own p) code d0 d1 s).ports.hg = s.ports.hg := by
  have hsent : (postEvt (.own p) code d0 d1 s).ports.hg = (issueTally s).2.ports.hg :=
    hg_of_gateAndLinks (ringEvt_gateAndLinks p _ _)
  rw [hsent, issueTally_ports]

/-! ### A change of the Headgate's owner (R140) -/

/-- The Headgate's registers after a change of owner. -/
def hgMoved (o : HgOwner) (lease : BitVec 8) (cause : BitVec 2) (h : Headgate) : Headgate :=
  let h := { h with gen := h.gen + 1, cause := cause, owner := o, lease := lease }
  match o with
  | .free => h
  | .a => hgSetWait .a none h
  | .b => hgSetWait .b none h

/-- A change of owner that has its tally and has not been reported yet. -/
def hgRecorded (o : HgOwner) (lease : BitVec 8) (cause : BitVec 2) (s : State) : State :=
  (issueTally ((s.modHg (hgMoved o lease cause)).modDev fun d => { d with armed := 0 })).2

@[simp] theorem hgRecorded_ports (o : HgOwner) (lease : BitVec 8) (cause : BitVec 2) (s : State) :
    (hgRecorded o lease cause s).ports = { s.ports with hg := hgMoved o lease cause s.ports.hg } :=
  issueTally_ports _

@[simp] theorem hgRecorded_armed (o : HgOwner) (lease : BitVec 8) (cause : BitVec 2) (s : State) :
    (hgRecorded o lease cause s).dev.armed = 0 :=
  issueTally_armed _

/-- `HEADGATE_CHANGE` of a change of owner (Table 4-11). -/
def hgChangeEvt (o : HgOwner) (lease : BitVec 8) (cause : BitVec 2) (s : State) : Evt :=
  ⟨0x1001, hgChangeData (hgMoved o lease cause s.ports.hg), 0, s.dev.nextTally⟩

/-- The reports of a change of owner to the ports that are up. -/
def hgReport (a b : Bool) (e : Evt) (u : State) : State :=
  let v := if a then ringEvt .a e u else u
  if b then ringEvt .b e v else v

@[simp] theorem hgReport_gateAndLinks (a b : Bool) (e : Evt) (u : State) : gateAndLinks (hgReport a b e u) = gateAndLinks u := by
  cases a <;> cases b <;> simp [hgReport]

@[simp] theorem hgReport_dev (a b : Bool) (e : Evt) (u : State) : (hgReport a b e u).dev = u.dev := by
  cases a <;> cases b <;> simp [hgReport]

/-- A change of owner is recorded and then reported to each port that is up: the report to port A leaves port B's link as it is. -/
theorem hgChange_eq (o : HgOwner) (lease : BitVec 8) (cause : BitVec 2) (s : State) :
    hgChange o lease cause s = hgReport s.ports.a.up s.ports.b.up (hgChangeEvt o lease cause s) (hgRecorded o lease cause s) := by
  have hstep : hgChange o lease cause s =
      let u := hgRecorded o lease cause s
      let e : Evt := ⟨0x1001, hgChangeData u.ports.hg, 0, s.dev.nextTally⟩
      let v := if u.ports.a.up then ringEvt .a e u else u
      if v.ports.b.up then ringEvt .b e v else v := rfl
  have hup : ∀ e, (ringEvt .a e (hgRecorded o lease cause s)).ports.b.up = s.ports.b.up := fun e =>
    (up_of_gateAndLinks (ringEvt_gateAndLinks .a e _) .b).trans (by simp [State.port])
  rw [hstep]
  simp only [hgRecorded_ports, hgChangeEvt, hgReport]
  cases s.ports.a.up
  · simp only [Bool.false_eq_true, if_false, hgRecorded_ports]
  · simp only [if_true, hup]

@[simp] theorem hgChange_hg (o : HgOwner) (lease : BitVec 8) (cause : BitVec 2) (s : State) :
    (hgChange o lease cause s).ports.hg = hgMoved o lease cause s.ports.hg := by
  have hrecorded : (hgRecorded o lease cause s).ports.hg = hgMoved o lease cause s.ports.hg := by simp
  rw [← hrecorded, hgChange_eq]
  exact hg_of_gateAndLinks (hgReport_gateAndLinks _ _ _ _)

@[simp] theorem hgChange_armed (o : HgOwner) (lease : BitVec 8) (cause : BitVec 2) (s : State) :
    (hgChange o lease cause s).dev.armed = 0 := by
  rw [hgChange_eq, hgReport_dev, hgRecorded_armed]

@[simp] theorem hgMoved_gen (o : HgOwner) (lease : BitVec 8) (cause : BitVec 2) (h : Headgate) :
    (hgMoved o lease cause h).gen = h.gen + 1 := by cases o <;> rfl

@[simp] theorem hgMoved_cause (o : HgOwner) (lease : BitVec 8) (cause : BitVec 2) (h : Headgate) :
    (hgMoved o lease cause h).cause = cause := by cases o <;> rfl

@[simp] theorem hgMoved_owner (o : HgOwner) (lease : BitVec 8) (cause : BitVec 2) (h : Headgate) :
    (hgMoved o lease cause h).owner = o := by cases o <;> rfl

@[simp] theorem hgMoved_lease (o : HgOwner) (lease : BitVec 8) (cause : BitVec 2) (h : Headgate) :
    (hgMoved o lease cause h).lease = lease := by cases o <;> rfl

@[simp] theorem hgMoved_tieNext (o : HgOwner) (lease : BitVec 8) (cause : BitVec 2) (h : Headgate) :
    (hgMoved o lease cause h).tieNext = h.tieNext := by cases o <;> rfl

/-- The new owner's claim is served. -/
@[simp] theorem hgWait_hgMoved_owner (p : Port) (lease : BitVec 8) (cause : BitVec 2) (h : Headgate) :
    hgWait p (hgMoved (hgOf p) lease cause h) = none := by cases p <;> rfl

/-! ### The commands of `PORT_HEADGATE` (Table 4-7) -/

theorem hgOf_ne_free (p : Port) : hgOf p ≠ .free := by cases p <;> decide

theorem hgOf_otherPort_ne (p : Port) : hgOf (otherPort p) ≠ hgOf p := by cases p <;> decide

@[simp] theorem otherPort_otherPort (p : Port) : otherPort (otherPort p) = p := by cases p <;> rfl

@[simp] theorem rearm_ports (blk : Nat) (s : State) : (rearm blk s).ports = s.ports := rfl

/-- The access of a port that speaks arrives. -/
theorem reaches_of_speaks {p : Port} {s : State} (h : Speaks p s) : Reaches (.host p) s := by
  obtain ⟨hon, hup, hwaits⟩ := h
  exact ⟨by simp [accessReaches, hon, hup], hwaits⟩

/-- `PORT_HEADGATE` has neither guarded nor lockable bits, and every mode takes a write of it. -/
theorem accepts_headgate {p : Port} {s : State} (h : Speaks p s) (v : Word) : Accepts (.host p) 0x1000 v s := by
  have hunguarded : guardBits 0x1000 = 0 := by decide
  have hunlocked : lockBits 0x1000 = 0 := by decide
  exact ⟨reaches_of_speaks h, by simp [writeBarred], by simp [unfitted], fun hg => absurd hg (by simp [hunguarded]),
    fun hl => absurd hl (by simp [hunlocked])⟩

theorem regRow_headgate {p : Port} {s : State} (h : Speaks p s) (v : Word) :
    regRow (.host p) 0x1000 v s = .next (hgWrite (.host p) v (rearm 1 s)) :=
  regRow_accepted (accepts_headgate h v) (by decide)

/-- The word of a `CLAIM` spells the command and its lease. -/
theorem claimWord_fields (lease : BitVec 8) :
    fieldOf (wfield lease.toNat 16 ||| wfield 1 0) 1 0 = 1 ∧
      BitVec.ofNat 8 (fieldOf (wfield lease.toNat 16 ||| wfield 1 0) 23 16) = lease := by
  revert lease
  decide

theorem exec_claim_speaks {p : Port} {s : State} (h : Speaks p s) (lease : BitVec 8) :
    exec (.claim p lease none) s = .next (hgClaim p lease (rearm 1 s)) := by
  obtain ⟨hcmd, hlease⟩ := claimWord_fields lease
  refine (regRow_headgate h _).trans ?_
  rw [hgWrite, hlease, if_pos hcmd]

theorem exec_release_speaks {p : Port} {s : State} (h : Speaks p s) :
    exec (.release p) s = .next (hgDoRelease p (rearm 1 s)) :=
  regRow_headgate h 2

theorem exec_cancel_speaks {p : Port} {s : State} (h : Speaks p s) : exec (.cancel p) s = .next (hgCancel p (rearm 1 s)) :=
  regRow_headgate h 3

theorem hgClaim_free {p : Port} {s : State} (h : s.ports.hg.owner = .free) (lease : BitVec 8) :
    hgClaim p lease s = hgChange (hgOf p) lease 0 s := if_pos h

/-- The owner's claim renews its lease. -/
theorem hgClaim_owned {p : Port} {s : State} (h : s.ports.hg.owner = hgOf p) (lease : BitVec 8) :
    hgClaim p lease s = s.modHg fun h => { h with lease := lease } := by
  have htaken : s.ports.hg.owner ≠ .free := fun hfree => hgOf_ne_free p (h.symm.trans hfree)
  rw [hgClaim, if_neg htaken, if_pos h]

/-- The other port's claim becomes pending, and the owner is told. -/
theorem hgClaim_other {p : Port} {s : State} (h : s.ports.hg.owner = hgOf (otherPort p)) (lease : BitVec 8) :
    hgClaim p lease s = hgWaitEvt (otherPort p) p (s.modHg (hgSetWait p (some lease))) := by
  have htaken : s.ports.hg.owner ≠ .free := fun hfree => hgOf_ne_free _ (h.symm.trans hfree)
  have hother : s.ports.hg.owner ≠ hgOf p := fun hown => hgOf_otherPort_ne p (h.symm.trans hown)
  rw [hgClaim, if_neg htaken, if_neg hother]

theorem hgDoRelease_owned {p : Port} {s : State} (h : s.ports.hg.owner = hgOf p) : hgDoRelease p s = hgRelease p 1 s := if_pos h

theorem hgDoRelease_other {p : Port} {s : State} (h : s.ports.hg.owner ≠ hgOf p) : hgDoRelease p s = portErr 2 s := if_neg h

theorem hgCancel_pending {p : Port} {s : State} (h : (hgWait p s.ports.hg).isSome) :
    hgCancel p s = s.modHg (hgSetWait p none) := by
  obtain ⟨l, hl⟩ := Option.isSome_iff_exists.mp h
  simp [hgCancel, hl]

theorem hgCancel_none {p : Port} {s : State} (h : hgWait p s.ports.hg = none) : hgCancel p s = portErr 2 s := by
  simp [hgCancel, h]

theorem hgRelease_waiting {p : Port} {l : BitVec 8} {s : State} (h : hgWait (otherPort p) s.ports.hg = some l) (cause : BitVec 2) :
    hgRelease p cause s = hgChange (hgOf (otherPort p)) l cause s := by
  simp [hgRelease, h]

theorem hgRelease_alone {p : Port} {s : State} (h : hgWait (otherPort p) s.ports.hg = none) (cause : BitVec 2) :
    hgRelease p cause s = hgChange .free 0 cause s := by
  simp [hgRelease, h]

theorem exec_leaseExpiry_owned {p : Port} {s : State} (howner : s.ports.hg.owner = hgOf p) (hlease : s.ports.hg.lease ≠ 0) :
    exec .leaseExpiry s = .next (hgRelease p 2 s) := by
  change execLeaseExpiry s = _
  rw [execLeaseExpiry, if_neg hlease, howner]
  cases p <;> rfl

theorem exec_headgateLinkLoss_owned {p : Port} {s : State} (howner : s.ports.hg.owner = hgOf p) (hdown : (s.port p).up = false) :
    exec .headgateLinkLoss s = .next (hgRelease p 3 s) := by
  change execHeadgateLinkLoss s = _
  cases p <;> simp_all [execHeadgateLinkLoss, hgOf, State.port]

/-- Settles O20: each command reaches the Headgate by `regRow_headgate`, an expired lease and a lost link by the owner's row; what is
left is who owns it and who waits. -/
theorem headgateAnswersCommands : Obligations.HeadgateAnswersCommands := by
  unfold Obligations.HeadgateAnswersCommands
  intro p lease s hspeaks t h q
  refine ⟨?claimFree, ?claimOwned, ?claimWaits, ?releaseWaiting, ?releaseAlone, ?releaseOther, ?cancelPending, ?cancelNone,
    ?expiryWaiting, ?expiryAlone, ?lossWaiting, ?lossAlone⟩
  case claimFree =>
    intro howner
    rw [exec_claim_speaks hspeaks, hgClaim_free (s := t) howner]
  case claimOwned =>
    intro howner
    rw [exec_claim_speaks hspeaks, hgClaim_owned (s := t) howner]
  case claimWaits =>
    intro howner
    rw [exec_claim_speaks hspeaks, hgClaim_other (s := t) howner, hgWaitEvt]
  case releaseWaiting =>
    intro l howner hwait
    rw [exec_release_speaks hspeaks, hgDoRelease_owned (s := t) howner, hgRelease_waiting (s := t) hwait]
  case releaseAlone =>
    intro howner hnone
    rw [exec_release_speaks hspeaks, hgDoRelease_owned (s := t) howner, hgRelease_alone (s := t) hnone]
  case releaseOther =>
    intro howner
    rw [exec_release_speaks hspeaks, hgDoRelease_other (s := t) howner]
  case cancelPending =>
    intro hsome
    rw [exec_cancel_speaks hspeaks, hgCancel_pending (s := t) hsome]
  case cancelNone =>
    intro hnone
    rw [exec_cancel_speaks hspeaks, hgCancel_none (s := t) hnone]
  case expiryWaiting =>
    intro l howner hlease hwait
    rw [exec_leaseExpiry_owned howner hlease, hgRelease_waiting hwait]
  case expiryAlone =>
    intro howner hlease hnone
    rw [exec_leaseExpiry_owned howner hlease, hgRelease_alone hnone]
  case lossWaiting =>
    intro l howner hdown hwait
    rw [exec_headgateLinkLoss_owned howner hdown, hgRelease_waiting ((otherPort_otherPort p).symm ▸ hwait), otherPort_otherPort]
  case lossAlone =>
    intro howner hdown hnone
    rw [exec_headgateLinkLoss_owned howner hdown, hgRelease_alone ((otherPort_otherPort p).symm ▸ hnone)]

/-- Settles O22: a claim of a free Headgate is the change that `hgChange_eq` writes out; the reports leave the Headgate and the guards as
the change has set them. -/
theorem headgateChangeIsOneStep : Obligations.HeadgateChangeIsOneStep := by
  unfold Obligations.HeadgateChangeIsOneStep
  intro p lease s hspeaks hfree
  have hclaim : exec (.claim p lease none) s = .next (hgChange (hgOf p) lease 0 (rearm 1 s)) := by
    rw [exec_claim_speaks hspeaks, hgClaim_free (s := rearm 1 s) hfree]
  refine ⟨_, hclaim, by simp, by simp, by simp, by simp, by simp, by simp,
    hgRecorded (hgOf p) lease 0 (rearm 1 s), rfl, rfl, by simp, ?_⟩
  rw [hgChange_hg]
  exact hgChange_eq (hgOf p) lease 0 (rearm 1 s)

/-! ### Two claims in one cycle (R137) -/

theorem exec_claim_tie {p : Port} {s : State} (hp : Speaks p s) (hq : Speaks (otherPort p) s) (lp lq : BitVec 8) :
    exec (.claim p lp (some lq)) s = .next (hgTie p lp lq (rearm 1 s)) := by
  obtain ⟨hreachP, hwaitsP⟩ := reaches_of_speaks hp
  obtain ⟨hreachQ, hwaitsQ⟩ := reaches_of_speaks hq
  change execClaim p lp (some lq) s = _
  simp [execClaim, hreachP, hwaitsP, hreachQ, hwaitsQ]

/-- Of two claims of a free Headgate the winner's changes the owner; the loser's then waits, which the winner is told. -/
theorem hgTie_free {p : Port} {s : State} (hfree : s.ports.hg.owner = .free) (lp lq : BitVec 8) :
    let w : Port := if s.ports.hg.tieNext then .b else .a
    let lease := fun (x : Port) => if x = p then lp else lq
    hgTie p lp lq s = hgWaitEvt w (otherPort w)
      ((hgChange (hgOf w) (lease w) 0 (s.modHg fun h => { h with tieNext := !s.ports.hg.tieNext })).modHg
        (hgSetWait (otherPort w) (some (lease (otherPort w))))) := by
  simp only [hgTie, if_pos hfree]
  cases p <;> cases s.ports.hg.tieNext <;> rfl

theorem hgWaitEvt_hg (owner waiter : Port) (s : State) : (hgWaitEvt owner waiter s).ports.hg = s.ports.hg :=
  postEvt_own_hg owner _ _ _ s

@[simp] theorem hgSetWait_owner (p : Port) (w : Option (BitVec 8)) (h : Headgate) : (hgSetWait p w h).owner = h.owner := by
  cases p <;> rfl

@[simp] theorem hgSetWait_lease (p : Port) (w : Option (BitVec 8)) (h : Headgate) : (hgSetWait p w h).lease = h.lease := by
  cases p <;> rfl

@[simp] theorem hgSetWait_tieNext (p : Port) (w : Option (BitVec 8)) (h : Headgate) : (hgSetWait p w h).tieNext = h.tieNext := by
  cases p <;> rfl

@[simp] theorem hgWait_hgSetWait_same (p : Port) (w : Option (BitVec 8)) (h : Headgate) : hgWait p (hgSetWait p w h) = w := by
  cases p <;> rfl

@[simp] theorem hgWait_hgSetWait_other (p : Port) (w : Option (BitVec 8)) (h : Headgate) :
    hgWait p (hgSetWait (otherPort p) w h) = hgWait p h := by
  cases p <;> rfl

/-- Settles O21: the Headgate that `hgTie_free` leaves is the winner's, with the loser's claim set in it. -/
theorem headgateTieGoesToTieNext : Obligations.HeadgateTieGoesToTieNext := by
  unfold Obligations.HeadgateTieGoesToTieNext
  intro p lp lq s hp hq hfree w l lease
  have hhg : (hgTie p lp lq (rearm 1 s)).ports.hg =
      hgSetWait l (some (lease l)) (hgMoved (hgOf w) (lease w) 0 { s.ports.hg with tieNext := !s.ports.hg.tieNext }) := by
    rw [hgTie_free (s := rearm 1 s) hfree, hgWaitEvt_hg, State.modHg_ports, hgChange_hg]
    rfl
  exact ⟨_, exec_claim_tie hp hq lp lq, by simp [hhg], by simp [hhg], by simp [hhg], by simp [hhg, l], by simp [hhg]⟩

/-! ### Link events -/

theorem modPort_congr {p : Port} {f g : PortSt → PortSt} {s : State} (h : f (s.port p) = g (s.port p)) :
    s.modPort p f = s.modPort p g := by
  cases p
  · exact congrArg (fun q => { s with ports := { s.ports with a := q } }) h
  · exact congrArg (fun q => { s with ports := { s.ports with b := q } }) h

@[simp] theorem bump_port (k n : Nat) (s : State) (p : Port) : (bump k n s).port p = s.port p := by cases p <;> rfl

theorem startTrain_free {p : Port} {s : State} (h : portDisabled p s = false) : startTrain p s =
    s.modPort p fun q => { q with training := true, capWait := false, retrains := satAdd 8 q.retrains 1 } :=
  if_neg (by simp [h])

/-- The third failed attempt of a retrain takes the port down (R131). -/
theorem trainFail_last {p : Port} {s : State} (hup : (s.port p).up = true) (hattempts : (s.port p).attempts = 2) :
    trainFail p s = portDown p s := by
  simp [trainFail, hup, hattempts]

/-- A flit in its turn without `NAK`: a DATA flit's units join those that wait, a NULL flit is counted (R130). -/
theorem flitTake_of_not_nak {h : FlitHdr} (hnak : h.nak = false) (p : Port) (payload : List Byte) (s : State) :
    flitTake p h payload s =
      (if h.ftype = 1 then s else bump (portDiag p + 8) 1 s).modPort p fun q => sendFlits { q.acked h.ack with
        rxSeq := h.seq, nakDue := false, crdHdr := q.crdHdr + h.hdr, crdData := q.crdData + h.data
        rxq := if h.ftype = 1 then (s.port p).rxq ++ payload else (s.port p).rxq } := by
  rw [flitTake, if_neg (by simp [hnak])]
  refine modPort_congr ?_
  split <;> simp [PortSt.acked]

section
variable {p : Port} {s : State}

/-- Training without a failed lane succeeds at the highest rate within both sides' limits (R125, R126). -/
theorem exec_linkTrainingDone_trained {trains : BitVec 6} {partner : BitVec 16} {r : Nat} (htraining : (s.port p).training = true)
    (hrate : bestRate trains (min (rateCap (fieldOf (regGet (portCtlKey p) s) 29 27)) (rateCap ((partner.toNat >>> 10) % 8))) = some r) :
    exec (.linkTrainingDone p trains partner 0 0) s = .next (s.modPort p fun q => { q with
      training := false, capWait := true, rate := BitVec.ofNat 3 r, x32 := false, repTx := 0, repRx := 0 }) := by
  change execLinkTrainingDone p trains partner 0 0 s = _
  simp [execLinkTrainingDone, htraining, hrate]

/-- A partner with `FLIT256`, `PTAG` and `FLUSH` brings a port up that was down (R127). -/
theorem exec_e9CapRsp_capable {cap : BitVec 16} (hwait : (s.port p).capWait = true) (hdown : (s.port p).up = false)
    (hflit : cap.getLsbD 15 = true) (hptag : cap.getLsbD 14 = true) (hflush : cap.getLsbD 13 = true) :
    exec (.e9CapRsp p cap) s = .next (surveyUcie p true (portUp p (s.modPort p fun q => { q with cap := cap }))) := by
  change execE9CapRsp p cap s = _
  simp [execE9CapRsp, hwait, hdown, hflit, hptag, hflush]

theorem exec_e9CapTimeout_waiting (hwait : (s.port p).capWait = true) :
    exec (.e9CapTimeout p) s = .next (surveyUcie p false (portDown p s)) :=
  congrArg Host.Outcome.next (if_neg (by simp [hwait]))

theorem exec_trainingRequest_down (hon : s.dev.mainOn = true) (hdown : (s.port p).up = false) (htraining : (s.port p).training = false) :
    exec (.trainingRequest p) s = .next (startTrain p s) :=
  congrArg Host.Outcome.next (if_neg (by simp [hon, hdown, htraining]))

theorem exec_replayTimeout_waiting (hup : (s.port p).up = true) (htraining : (s.port p).training = false)
    (hreplay : (s.port p).replay ≠ []) : exec (.replayTimeout p) s = .next (startTrain p s) := by
  change execReplayTimeout p s = _
  simp [execReplayTimeout, hup, htraining, hreplay]

theorem exec_replayTimeout_training (hup : (s.port p).up = true) (htraining : (s.port p).training = true) :
    exec (.replayTimeout p) s = .next (trainFail p s) := by
  change execReplayTimeout p s = _
  simp [execReplayTimeout, hup, htraining]

theorem exec_flushTimeout_waiting (hup : (s.port p).up = true) (hunflushed : (s.port p).unflushed ≠ []) :
    exec (.flushTimeout p) s = .next (startTrain p (portErr 0 s)) :=
  congrArg Host.Outcome.next (if_neg (by simp [hup, hunflushed]))

end

section
variable {p : Port} {flit : List Byte} {s : State} (hup : (s.port p).up = true) (htraining : (s.port p).training = false)
include hup htraining

theorem exec_flitReceive_damaged (hcrc : flitCrcOk flit = false) :
    exec (.flitReceive p flit) s = .next (sendNak p (bump (portDiag p) 1 s)) := by
  change execFlitReceive p flit s = _
  simp [execFlitReceive, hup, htraining, hcrc]

theorem exec_flitReceive_outOfTurn (hcrc : flitCrcOk flit = true) (htype : (flitHdr flit).ftype = 1)
    (hseq : (flitHdr flit).seq ≠ (s.port p).rxSeq + 1) : exec (.flitReceive p flit) s = .next (sendNak p s) := by
  change execFlitReceive p flit s = _
  rw [execFlitReceive, if_neg (by simp [hup, htraining]), if_neg (by simp [hcrc]), if_neg (by simp [htype]), if_pos htype, if_pos hseq]

theorem exec_flitReceive_data (hcrc : flitCrcOk flit = true) (htype : (flitHdr flit).ftype = 1)
    (hseq : (flitHdr flit).seq = (s.port p).rxSeq + 1) :
    exec (.flitReceive p flit) s = .next (flitServe p (flitTake p (flitHdr flit) (flitPayload flit) s)) := by
  change execFlitReceive p flit s = _
  simp [execFlitReceive, hup, htraining, hcrc, htype, hseq]

theorem exec_flitReceive_null (hcrc : flitCrcOk flit = true) (htype : (flitHdr flit).ftype = 0)
    (hseq : (flitHdr flit).seq = (s.port p).rxSeq) :
    exec (.flitReceive p flit) s = .next (flitTake p (flitHdr flit) (flitPayload flit) s) := by
  change execFlitReceive p flit s = _
  simp [execFlitReceive, hup, htraining, hcrc, htype, hseq]

end

/-- Settles O23: each clause's conditions make its row due; `startTrain_free`, `trainFail_last` and `flitTake_of_not_nak` then say what
the row does. -/
theorem portEventsComplete : Obligations.PortEventsComplete := by
  unfold Obligations.PortEventsComplete
  intro p s q
  refine ⟨?trained, ?capable, ?capTimeout, ?trainingRequest, ?down, ?replayTimeout, ?lastAttempt, ?flushTimeout, ?flit, ?flushAck⟩
  case trained => exact fun _ _ _ => exec_linkTrainingDone_trained
  case capable => exact fun _ => exec_e9CapRsp_capable
  case capTimeout => exact exec_e9CapTimeout_waiting
  case trainingRequest =>
    intro hon hdown htraining hfree
    rw [exec_trainingRequest_down hon hdown htraining, startTrain_free hfree]
  case down => exact fun hup => congrArg Host.Outcome.next (if_pos hup)
  case replayTimeout =>
    intro hup htraining hreplay hfree
    rw [exec_replayTimeout_waiting hup htraining hreplay, startTrain_free hfree]
  case lastAttempt =>
    intro hup htraining hattempts
    rw [exec_replayTimeout_training hup htraining, trainFail_last hup hattempts]
  case flushTimeout => exact exec_flushTimeout_waiting
  case flit =>
    intro flit hup htraining h taken
    refine ⟨?damaged, ?outOfTurn, ?data, ?null⟩
    case damaged => exact exec_flitReceive_damaged hup htraining
    case outOfTurn => exact exec_flitReceive_outOfTurn hup htraining
    case data =>
      intro hcrc htype hseq hnak
      rw [exec_flitReceive_data hup htraining hcrc htype hseq, flitTake_of_not_nak hnak, if_pos htype, if_pos htype]
    case null =>
      intro hcrc htype hseq hnak
      have hnull : ¬ (flitHdr flit).ftype = 1 := fun hdata => absurd (hdata.symm.trans htype) (by decide)
      have hdiag : portDiag p + 8 = if p = .a then 0x1108 else 0x1128 := by cases p <;> rfl
      rw [exec_flitReceive_null hup htraining hcrc htype hseq, flitTake_of_not_nak hnak, if_neg hnull, if_neg hnull, hdiag]
  case flushAck => exact fun _ hup => congrArg Host.Outcome.next (if_pos hup)

end Sys2Proof.Machine
end

section
/-! PROOFS. Family 05_command_interface: `NOP` (O25), the queue events (O24), the furrow commands (O26), the queue commands (O27), the
reset state (O57). -/
namespace Sys2Proof.Machine
open Sys2Proof.Stated

/-! ### Queues and commands found after an update of the queues -/

@[simp] theorem modSq_dev (f n : Nat) (g : Sq → Sq) (s : State) : (modSq f n g s).dev = s.dev := rfl
@[simp] theorem modSq_port (f n : Nat) (g : Sq → Sq) (s : State) (p : Port) : (modSq f n g s).port p = s.port p := by cases p <;> rfl
@[simp] theorem modCq_dev (f n : Nat) (g : Cq → Cq) (s : State) : (modCq f n g s).dev = s.dev := rfl
@[simp] theorem modCq_port (f n : Nat) (g : Cq → Cq) (s : State) (p : Port) : (modCq f n g s).port p = s.port p := by cases p <;> rfl
@[simp] theorem cmdGet_modSq (id f n : Nat) (g : Sq → Sq) (s : State) : cmdGet id (modSq f n g s) = cmdGet id s := rfl
@[simp] theorem cmdGet_modCq (id f n : Nat) (g : Cq → Cq) (s : State) : cmdGet id (modCq f n g s) = cmdGet id s := rfl
@[simp] theorem cqGet_modSq (f' n' f n : Nat) (g : Sq → Sq) (s : State) : cqGet f' n' (modSq f n g s) = cqGet f' n' s := rfl
@[simp] theorem sqGet_modCq (f' n' f n : Nat) (g : Cq → Cq) (s : State) : sqGet f' n' (modCq f n g s) = sqGet f' n' s := rfl

/-- An update that leaves an SQ its number is found at that number. -/
theorem sqGet_modSq_same {f n : Nat} (g : Sq → Sq) (hg : ∀ q, (g q).furrow = q.furrow ∧ (g q).n = q.n) (s : State) :
    sqGet f n (modSq f n g s) = (sqGet f n s).map g :=
  find_updFirst _ g (fun q hq => by simpa [hg] using hq) _

/-- An update that leaves a CQ its number is found at that number. -/
theorem cqGet_modCq_same {f n : Nat} (g : Cq → Cq) (hg : ∀ q, (g q).furrow = q.furrow ∧ (g q).n = q.n) (s : State) :
    cqGet f n (modCq f n g s) = (cqGet f n s).map g :=
  find_updFirst _ g (fun q hq => by simpa [hg] using hq) _

/-- A state with the same command interface has the same queues and commands. -/
theorem sqGet_congr {s t : State} (h : t.cmdif = s.cmdif) (f n : Nat) : sqGet f n t = sqGet f n s := by simp [sqGet, h]
theorem cqGet_congr {s t : State} (h : t.cmdif = s.cmdif) (f n : Nat) : cqGet f n t = cqGet f n s := by simp [cqGet, h]
theorem cmdGet_congr {s t : State} (h : t.cmdif = s.cmdif) (id : Nat) : cmdGet id t = cmdGet id s := by simp [cmdGet, h]

/-! ### A write of a furrow without a log -/

@[simp] theorem pushMwr_dev (p : Port) (w : Mwr) (s : State) : (pushMwr p w s).dev = s.dev := by simp [pushMwr]
@[simp] theorem pushMwr_cmdif (p : Port) (w : Mwr) (s : State) : (pushMwr p w s).cmdif = s.cmdif := by simp [pushMwr]

@[simp] theorem sendFuel_unflushed (k : Nat) (q : PortSt) : (sendFuel k q).unflushed = q.unflushed := by
  induction k generalizing q with
  | zero => rfl
  | succ k ih =>
    unfold sendFuel
    split
    · rfl
    · exact ih _

/-- A write awaits its `FLUSH_ACK` behind the port's earlier ones, with the port's next `FLUSH` tag (R145). -/
theorem write_unflushed (w : Mwr) (q : PortSt) : (q.write w).unflushed = q.unflushed ++ [{ w with flush := q.flushTag }] := by
  unfold PortSt.write
  dsimp only
  split
  · exact sendFuel_unflushed _ _
  · rfl

/-- A write homed on a port that is up leaves through it (R150). -/
theorem pushMwr_port_up {p : Port} {s : State} (hup : (s.port p).up = true) (w : Mwr) : (pushMwr p w s).port p = (s.port p).write w := by
  simp [pushMwr, wayOut, hup]

/-- A furrow marks no pages: its log is off, and none is kept (R215). -/
def Unlogged (f : Nat) (s : State) : Prop := ∀ x, furrowGet f s = some x → x.logOn = false ∧ x.log = none

theorem markPages_unlogged {f : Nat} {s : State} (h : Unlogged f s) (port : Port) (addr len : Nat) :
    markPages port f addr len s = s := by
  unfold markPages
  split
  · rfl
  next x hx => simp [(h x hx).1]

theorem furrowPush_unlogged {f : Nat} {s : State} (h : Unlogged f s) (port : Port) (w : Mwr) :
    furrowPush f port w s = pushMwr port w s := by
  unfold furrowPush
  split
  · rfl
  next x hx => simp [(h x hx).2]

theorem serveWrite_unlogged {f : Nat} {s : State} (h : Unlogged f s) (k : WKind) (ptag : BitVec 20) (cq addr : Nat) (data : List Byte)
    (tally : Nat) : serveWrite k f ptag cq addr data tally s =
      pushMwr (homeOf f cq s) ⟨k, addr, data, some ptag, tally, some f, 0⟩ s := by
  simp [serveWrite, markPages_unlogged h, furrowPush_unlogged h]

/-! ### One completion entry (R170 to R174) -/

/-- The next tally is issued. -/
def tallyIssued (s : State) : State := s.modDev fun d => { d with tally := s.dev.nextTally, nextTally := s.dev.nextTally + 1 }

@[simp] theorem tallyIssued_port (s : State) (p : Port) : (tallyIssued s).port p = s.port p := by cases p <;> rfl
@[simp] theorem cmdDrop_port (id : Nat) (s : State) (p : Port) : (cmdDrop id s).port p = s.port p := by cases p <;> rfl

/-- Below the mark a tally is issued at once (R40). -/
theorem issueTally_below {s : State} (h : s.dev.nextTally < s.dev.tallyMark) : issueTally s = (s.dev.nextTally, tallyIssued s) := by
  simp [issueTally, h, tallyIssued]

/-- A CQ after one entry: the tail moves on, the phase turns where the ring wraps, a reserved slot holds an unread entry (R171, R172). -/
def entryWritten (tail : Nat) (q : Cq) : Cq :=
  { q with
    tail := tail, phase := if tail = 0 then !q.phase else q.phase
    unread := q.unread + 1, reserved := q.reserved - 1, unsignalled := q.unsignalled + 1 }

/-- Without the `IRQ` flag, a CQ whose interrupts are off writes none (R174). -/
theorem irqAfter_off {f n : Nat} {q : Cq} {s : State} (hcq : cqGet f n s = some q) (hirq : q.irqEn = false) : irqAfter f n false s = s := by
  simp [irqAfter, hcq, hirq]

@[simp] theorem bump64_dev (k n : Nat) (s : State) : (bump64 k n s).dev = s.dev := rfl
@[simp] theorem bump64_cmdif (k n : Nat) (s : State) : (bump64 k n s).cmdif = s.cmdif := rfl
@[simp] theorem bump64_port (k n : Nat) (s : State) (p : Port) : (bump64 k n s).port p = s.port p := by cases p <;> rfl

/-- The entry of a furrow without a log, on a CQ whose interrupts are off: one write to host memory, and the CQ's slot. -/
theorem writeCpl_quiet {f cq : Nat} {q : Cq} {s : State} (hcq : cqGet f cq s = some q) (hirq : q.irqEn = false)
    (htally : s.dev.nextTally < s.dev.tallyMark) (hlog : Unlogged f s) (sq : Nat) (ptag : BitVec 20) (tag : Word) (st : Status) (len : Nat)
    (res : List Byte) :
    writeCpl f sq cq ptag tag st len res false s =
      bump64 0x2108 1 (modCq f cq (entryWritten ((q.tail + 1) % 2 ^ q.sizeLog2)) (pushMwr q.home
        ⟨.completion, q.base + 32 * q.tail, cplBytes tag st q.phase sq s.dev.nextTally len res, some ptag, s.dev.nextTally, some f, 0⟩
        (tallyIssued s))) := by
  have hlog' : Unlogged f (tallyIssued s) := hlog
  have hhome : homeOf f cq (tallyIssued s) = q.home := by
    simp only [homeOf, cqGet_congr (s := s) (t := tallyIssued s) rfl, hcq]
  simp only [writeCpl, hcq, issueTally_below htally, serveWrite_unlogged hlog', hhome]
  refine irqAfter_off (q := entryWritten ((q.tail + 1) % 2 ^ q.sizeLog2) q) ?_ hirq
  refine (cqGet_congr (bump64_cmdif _ _ _) _ _).trans ((cqGet_modCq_same (entryWritten _) (fun _ => ⟨rfl, rfl⟩) _).trans ?_)
  rw [cqGet_congr (pushMwr_cmdif _ _ _), cqGet_congr (s := s) (t := tallyIssued s) rfl, hcq, Option.map_some]

/-! ### The end of a command -/

/-- An SQ whose command has ended without a seal: the credit is back, the end is noted for the batch's seal (R176, R181). -/
def commandEnded (c : Cmd) (st : Status) (q : Sq) : Sq :=
  { q with avail := q.avail + 1, done := q.done ++ [(c.idx, c.batch, st.severity)] }

/-- A command of the host that seals no batch ends: what precedes the entry, the command dropped, the entry, the credit. -/
theorem finish_unsealed {c : Cmd} (hsvc : c.svc = none) (hseals : c.seals = false) (e : Ending) (s : State) :
    finish c e s = pruneSeals c.furrow c.sq c.batch (modSq c.furrow c.sq (commandEnded c e.status)
      (writeCpl c.furrow c.sq c.cq c.ptag c.tag e.status e.len e.res c.irq (cmdDrop c.id (beforeCpl c e s)))) := by
  unfold finish
  rw [hsvc]
  simp only [hseals, Bool.false_and, Bool.false_eq_true, if_false]
  rfl

/-- The records of batch `b`'s seals dropped from an SQ. -/
def batchPruned (b : Nat) (q : Sq) : Sq :=
  { q with done := q.done.filter fun d => d.2.1 != b, seals := q.seals.filter fun d => d.batch != b }

theorem ite_cases {p : Prop} [Decidable p] (s t : State) : (if p then s else t) = s ∨ (if p then s else t) = t := by
  split
  · exact .inl rfl
  · exact .inr rfl

/-- What `pruneSeals` can do: nothing, or drop the records of the batch. -/
theorem pruneSeals_cases (f n b : Nat) (s : State) : pruneSeals f n b s = s ∨ pruneSeals f n b s = modSq f n (batchPruned b) s := by
  unfold pruneSeals
  split
  · exact .inl rfl
  · exact ite_cases _ _

@[simp] theorem pruneSeals_dev (f n b : Nat) (s : State) : (pruneSeals f n b s).dev = s.dev := by
  obtain h | h := pruneSeals_cases f n b s <;> simp [h]

@[simp] theorem pruneSeals_port (f n b : Nat) (s : State) (p : Port) : (pruneSeals f n b s).port p = s.port p := by
  obtain h | h := pruneSeals_cases f n b s <;> simp [h]

@[simp] theorem cmdGet_pruneSeals (id f n b : Nat) (s : State) : cmdGet id (pruneSeals f n b s) = cmdGet id s := by
  obtain h | h := pruneSeals_cases f n b s <;> simp [h]

@[simp] theorem cqGet_pruneSeals (f' n' f n b : Nat) (s : State) : cqGet f' n' (pruneSeals f n b s) = cqGet f' n' s := by
  obtain h | h := pruneSeals_cases f n b s <;> simp [h]

theorem avail_pruneSeals (f n b : Nat) (s : State) : (sqGet f n (pruneSeals f n b s)).map (·.avail) = (sqGet f n s).map (·.avail) := by
  obtain h | h := pruneSeals_cases f n b s
  · rw [h]
  · rw [h, sqGet_modSq_same (batchPruned b) (fun _ => ⟨rfl, rfl⟩), Option.map_map]
    rfl

/-! ### NOP -/

/-- `NOP` moves no data, has no shares, no audit record and no allocations to give back: nothing precedes its entry. -/
theorem beforeCpl_nop {c : Cmd} (hcode : c.opcode.toNat = 0) (hresv : c.resv = []) (halloc : c.alloc = []) (haudit : c.auditResv = false)
    (hfull : c.auditFull = false) (htry : c.tryPool = 0) (s : State) : beforeCpl c (Ending.st .ok) s = s := by
  have hop : c.opcode = 0 := BitVec.eq_of_toNat_eq hcode
  have hinfo : opInfo 0 = some ⟨0x0000, .none, false, false, false, false, false, .basic⟩ := rfl
  have hrow : auditsIndividually c = false := by
    simp [auditsIndividually, hcode, hinfo, hfull, Cmd.auditedAlso]
  have hidentity : noteIdentity c (Ending.st .ok) s = s := by simp [noteIdentity, hop]
  have hsettle : settle c .ok s = s := by simp [settle, debitAll, hresv, htry]
  have hrollup : rollup c .ok s = s := by simp [rollup, hcode, hinfo]
  have hstatus : (Ending.st .ok).status = .ok := rfl
  have hdst : (Ending.st .ok).dst = [] := rfl
  simp [beforeCpl, hstatus, hdst, hidentity, hsettle, hrollup, haudit, hrow, halloc]

/-- Settles O25: nothing precedes `NOP`'s entry (`beforeCpl_nop`), the entry is one write and its slot (`writeCpl_quiet`), and the
records of a seal that are dropped behind it are no part of what the statement names (`pruneSeals_cases`). -/
theorem nopCompletes : Obligations.NopCompletes := by
  unfold Obligations.NopCompletes
  intro id c sq cq s hruns hsq hcq hsvc hresv halloc haudit hfull htry hirq hseals hcqIrq htally hlog hup
  have ⟨hget, hcode, _⟩ := hruns
  have hid : c.id = id := cmdGet_id hget
  have hends : exec (.nop id) s = .next (pruneSeals c.furrow c.sq c.batch (modSq c.furrow c.sq (commandEnded c .ok)
      (bump64 0x2108 1 (modCq c.furrow c.cq (entryWritten ((cq.tail + 1) % 2 ^ cq.sizeLog2)) (pushMwr cq.home
        ⟨.completion, cq.base + 32 * cq.tail, cplBytes c.tag .ok cq.phase c.sq s.dev.nextTally 0 [], some c.ptag, s.dev.nextTally,
          some c.furrow, 0⟩
        (tallyIssued (cmdDrop id s))))))) := by
    have hcq' : cqGet c.furrow c.cq (cmdDrop id s) = some cq := hcq
    have hlog' : Unlogged c.furrow (cmdDrop id s) := hlog
    change execNop id s = _
    rw [execNop, next_runOp_of_runs hruns, finishSt, finish_unsealed hsvc hseals,
      beforeCpl_nop hcode hresv halloc haudit hfull htry, hirq, hid, writeCpl_quiet hcq' hcqIrq htally hlog']
    rfl
  have hup' : ((tallyIssued (cmdDrop id s)).port cq.home).up = true := by simpa using hup
  refine ⟨_, hends, ?gone, ?tally, ?credit, ?slot, ?entry⟩
  case gone =>
    rw [cmdGet_pruneSeals, cmdGet_modSq, cmdGet_congr (bump64_cmdif _ _ _), cmdGet_modCq, cmdGet_congr (pushMwr_cmdif _ _ _)]
    exact cmdGet_cmdDrop id s
  case tally => simp [tallyIssued]
  case credit =>
    rw [avail_pruneSeals, sqGet_modSq_same (commandEnded _ _) (fun _ => ⟨rfl, rfl⟩), sqGet_congr (bump64_cmdif _ _ _), sqGet_modCq,
      sqGet_congr (pushMwr_cmdif _ _ _)]
    exact congrArg (fun q => (q.map (commandEnded c .ok)).map (·.avail)) hsq
  case slot =>
    rw [cqGet_pruneSeals, cqGet_modSq, cqGet_congr (bump64_cmdif _ _ _), cqGet_modCq_same (entryWritten _) (fun _ => ⟨rfl, rfl⟩),
      cqGet_congr (pushMwr_cmdif _ _ _)]
    have hcq' : cqGet c.furrow c.cq (tallyIssued (cmdDrop id s)) = some cq := hcq
    simp [hcq', entryWritten]
  case entry =>
    rw [pruneSeals_port, modSq_port, bump64_port, modCq_port, pushMwr_port_up hup', write_unflushed]
    cases cq.home <;> rfl

/-! ### Doorbells (R159 to R161) -/

section
variable {p : Port} {q : BitVec 15} {s : State} (hreaches : Reaches (.host p) s) (hsurvey : s.dev.mode ≠ .survey)
  (hretired : s.dev.mode ≠ .retired) (hopen : dbOpen (q.toNat / 8) s = true)
include hsurvey hretired hopen

/-- A host's 32-bit write of a doorbell slot, with the furrow's own process tag, is served outside SURVEY and RETIRED while the furrow takes
doorbells (R87, R161, R164). -/
theorem csrWrite_doorbell {off : Nat} (hoff : off < 32) (halign : off % 4 = 0) (v : Word) :
    csrWrite (.host p) (some (furrowPtag (q.toNat / 8) s)) (0x100000 + 32 * q.toNat + off) .b32 (v.setWidth 64) s =
      if off = 0 then tailWrite (q.toNat / 8) (q.toNat % 8) (v.toNat % 2 ^ 16) s
      else if off = 4 then headWrite (q.toNat / 8) (q.toNat % 8) (v.toNat % 2 ^ 16) s
      else dbReject 3 q.toNat s := by
  have hq : q.toNat < 0x8000 := q.isLt
  have hslot : (0x100000 + 32 * q.toNat + off) % 0x100000 / 32 = q.toNat := by omega
  have hoffset : (0x100000 + 32 * q.toNat + off) % 32 = off := by omega
  have haligned : (0x100000 + 32 * q.toNat + off) % 4 = 0 := by omega
  have habove : 0x100000 ≤ 0x100000 + 32 * q.toNat + off := by omega
  have hword : (v.setWidth 64).setWidth 32 = v := by simp
  simp [csrWrite, spaceWrite32, dbWrite, haligned, habove, hsurvey, hretired, hword, dbServe, hslot, hoffset, hopen, fieldOf]

include hreaches

theorem exec_sqTail_open (v : Word) : exec (.sqTail p (some (furrowPtag (q.toNat / 8) s)) q v) s =
    .next (tailWrite (q.toNat / 8) (q.toNat % 8) (v.toNat % 2 ^ 16) s) := by
  have hwrite := csrWrite_doorbell (p := p) hsurvey hretired hopen (off := 0) (by decide) (by decide) v
  change execSqTail p _ q v s = _
  simpa [execSqTail, submit, access, hreaches.1, hreaches.2] using hwrite

theorem exec_cqHead_open (v : Word) : exec (.cqHead p (some (furrowPtag (q.toNat / 8) s)) q v) s =
    .next (headWrite (q.toNat / 8) (q.toNat % 8) (v.toNat % 2 ^ 16) s) := by
  have hwrite := csrWrite_doorbell (p := p) hsurvey hretired hopen (off := 4) (by decide) (by decide) v
  change execCqHead p _ q v s = _
  simpa [execCqHead, submit, access, hreaches.1, hreaches.2] using hwrite

end

/-- Two different places on a ring are some entries apart. -/
theorem ringDistance_ne_zero {x y size : Nat} (hx : x < size) (hy : y < size) (hne : x ≠ y) : (x + size - y) % size ≠ 0 := by
  obtain hlt | hlt := Nat.lt_or_gt_of_ne hne
  · rw [Nat.mod_eq_of_lt (by omega)]
    omega
  · rw [show x + size - y = x - y + size by omega, Nat.add_mod_right, Nat.mod_eq_of_lt (by omega)]
    omega

theorem tailWrite_moved {f n x : Nat} {sq : Sq} {s : State} (hsq : sqGet f n s = some sq) (hx : x < 2 ^ sq.sizeLog2) (hne : x ≠ sq.tail)
    (htail : sq.tail < 2 ^ sq.sizeLog2) :
    tailWrite f n x s = modSq f n (fun q => { q with
      tail := x, published := q.published + (x + 2 ^ sq.sizeLog2 - sq.tail) % 2 ^ sq.sizeLog2
      batches := q.batches ++ [q.published] }) s := by
  simp only [tailWrite, hsq]
  rw [if_neg (Nat.not_le.mpr hx), if_neg (ringDistance_ne_zero hx htail hne)]

theorem headWrite_read {f n x : Nat} {cq : Cq} {s : State} (hcq : cqGet f n s = some cq) (hx : x < 2 ^ cq.sizeLog2)
    (hunread : (x + 2 ^ cq.sizeLog2 - cq.head) % 2 ^ cq.sizeLog2 ≤ cq.unread) :
    headWrite f n x s = giveSealSlots f n (modCq f n (fun q => { q with
      head := x, unread := q.unread - (x + 2 ^ cq.sizeLog2 - cq.head) % 2 ^ cq.sizeLog2 }) s) := by
  simp only [headWrite, hcq]
  rw [if_neg (Nat.not_le.mpr hx), if_neg (Nat.not_lt.mpr hunread)]

/-! ### Fetch, arrival, dispatch -/

theorem exec_entryFetch_due {f n k : Nat} {sq : Sq} {cq : Cq} {s : State} (hsq : sqGet f n s = some sq) (hcq : cqGet f sq.cq s = some cq)
    (hfetching : fetching s = true) (henabled : sq.enabled = true) (hopen : dbOpen f s = true) (hk1 : 1 ≤ k) (hk4 : k ≤ 4)
    (hpublished : sq.fetched + k ≤ sq.published) (hring : sq.head + k ≤ 2 ^ sq.sizeLog2) (hcredits : creditsHold sq s = true)
    (havail : k ≤ sq.avail) (hfree : k + sealWaiters f sq.cq s ≤ cq.free) (hturn : fetchTurn s = some (f * 8 + n)) :
    exec (.entryFetch f n k) s =
      .next (pushMrd cq.home (.entries ((List.range k).map fun i => s.cmdif.nextId + i)) (sq.base + 64 * sq.head) (64 * k)
        (some (furrowPtag f s)) (bump64 0x2100 k (fetchK f n k (tookTurn (f * 8 + n) sq.weight s)))) := by
  have hnumber : fetchTurn s = some (queueNum f n) := hturn
  change execEntryFetch f n k s = _
  simp only [execEntryFetch, hsq, hcq]
  rw [if_neg (by simp [hfetching, henabled, hopen, hring, hk4, hpublished, Nat.one_le_iff_ne_zero.mp hk1]),
    if_neg (by simp [hcredits]), if_neg (Nat.not_lt.mpr havail), if_neg (Nat.not_lt.mpr hfree), if_neg (not_not_intro hnumber)]
  rfl

@[simp] theorem issueReads_cmdif (p : Port) (s : State) : (issueReads p s).cmdif = s.cmdif :=
  (issueReads_keeps (Sub.refl _) (Keeps.refl _ s)).parts .cmdif rfl

@[simp] theorem entryOver_cmdif (id : Nat) (s : State) : (entryOver id s).cmdif = s.cmdif := by simp [entryOver]
@[simp] theorem readOver_cmdif (r : ReadOf) (s : State) : (readOver r s).cmdif = s.cmdif := by simp [readOver]

theorem exec_entryArrive_passes {id : Nat} {c : Cmd} {e : List Byte} {s : State} (hget : cmdGet id s = some c) (hphase : c.phase = .fetched)
    (hscratch : c.scratch = []) (hdue : entryDue id s = true) :
    let d := { decodeEntry c e with phase := .arrived }
    let t := giveSealSlots c.furrow c.cq (cmdPut d (entryOver id s))
    cmdGet id t = some d → sqAborts d t = false → furrowAborts d.furrow t = false → d.seals = false → entryCheck d t = none →
    exec (.entryArrive id .ok e) s = .next t := by
  intro d t hgot hsq hfurrow hseals hcheck
  have hstill : cmdGet id (entryOver id s) = some c := (cmdGet_congr (entryOver_cmdif id s) id).trans hget
  have hempty : d.scratch.isEmpty = true := by simp [d, decodeEntry, hscratch]
  refine congrArg Host.Outcome.next ((if_pos hdue).trans ?_)
  simp only [entryArrive, hstill]
  rw [if_neg (not_not_intro hphase), if_neg (not_not_intro rfl)]
  split
  next hnone => exact absurd (hnone.symm.trans hgot) (by simp)
  next x hx =>
    obtain rfl : d = x := Option.some.inj (hgot.symm.trans hx)
    refine (if_neg (by simp [hempty])).trans ((if_neg ?_).trans ((if_neg (by simp [hseals])).trans ?_))
    · exact Bool.eq_false_iff.mp (Bool.or_eq_false_iff.mpr ⟨hsq, hfurrow⟩)
    · split
      next st hst => exact absurd (hcheck.symm.trans hst) (by simp)
      next => rfl

/-- A command dispatched under mode `d.mode`: it keeps the furrow's permissions and the time, and waits for the reads of
step 6 (R168, R200). -/
def dispatchedCmd (d : Cmd) (s : State) : Cmd :=
  let x := (furrowGet d.furrow s).getD resetFurrow0
  let blk := ((opSpec d.opcode.toNat).block d).isSome
  let src := d.srcLen != 0
  { d with
    colours := x.colourSet, keyQuota := x.keyQuota, dispTally := s.dev.nextTally, dispRtc := s.backup.rtcSec
    needBlock := blk, needSrc := src, phase := if blk || src then .reading else .ready }

theorem exec_dispatch_passes {id : Nat} {c : Cmd} {s : State} (hget : cmdGet id s = some c) (hphase : c.phase = .arrived)
    (hdispatching : dispatching s = true) (hturn : inTurn c s = true) (hseals : c.seals = false) (hsq : sqAborts c s = false)
    (hfurrow : furrowAborts c.furrow s = false) (hrestore : restoreWait c s = false) (hrollup : rollupWait c s = false) :
    let d := { c with mode := rulesMode s, route := routeOf c s }
    dispatchStatus d d.mode s = none →
    let home := homeOf c.furrow c.cq s
    let t := cmdPut (dispatchedCmd d s) s
    let u := if ((opSpec c.opcode.toNat).block d).isSome then pushMrd home (.block id) c.blockAddr c.blockLen (some c.ptag) t else t
    exec (.dispatch id) s =
      .next (if c.srcLen != 0 then pushMrd home (.src id) c.src.toNat c.srcLen (some c.ptag) u else u) := by
  intro d hstatus
  change execDispatch id s = _
  simp only [execDispatch, hget]
  rw [if_neg (by simp [hphase, hdispatching, hturn, hseals]), if_neg (by simp [hsq, hfurrow]), if_neg (by simp [hrestore, hrollup])]
  split
  next e he => exact absurd (hstatus.symm.trans he) (by simp)
  next => rfl

/-- The source data that a command still waited for has arrived: with no block outstanding the command is ready. -/
theorem exec_cplReceive_src {id : Nat} {c : Cmd} {s : State} (hget : cmdGet id s = some c) (hphase : c.phase = .reading)
    (hsrc : c.needSrc = true) (hblock : c.needBlock = false) (hdue : readDue (.src id) s = true) (bytes : List Byte) :
    exec (.cplReceive (.src id) .ok bytes) s =
      .next (cmdPut { c with needSrc := false, data := bytesAt bytes 0 c.srcLen, phase := .ready } (readOver (.src id) s)) := by
  have hstill : cmdGet id (readOver (.src id) s) = some c := (cmdGet_congr (readOver_cmdif _ s) id).trans hget
  change execCplReceive (.src id) .ok bytes s = _
  simp [execCplReceive, hdue, readArrive, hstill, hphase, hsrc, readDone, hblock]

theorem exec_shareRecheck_waiting {id : Nat} {c : Cmd} {s : State} (hget : cmdGet id s = some c) (hphase : c.phase = .waitShares) :
    exec (.shareRecheck id) s = .next (cmdPut { c with phase := .ready } s) := by
  change execShareRecheck id s = _
  simp [execShareRecheck, hget, hphase]

/-! ### Seals, interrupts, drains, links -/

theorem exec_sealCompletion_due {f n : Nat} {sq : Sq} {d : SealDue} {w e num : Nat} {s : State} (hsq : sqGet f n s = some sq)
    (hfirst : sq.seals.find? (fun d => !d.written && (sealReady sq (sqCmds f n s) d).isSome) = some d)
    (hready : sealReady sq (sqCmds f n s) d = some (num, w, e))
    (hslot : d.slot = true ∨ ∃ cq, cqGet f sq.cq s = some cq ∧ 0 < cq.free) :
    let u := if d.slot then s else modCq f sq.cq (fun c => { c with reserved := c.reserved + 1 }) s
    exec (.sealCompletion f n) s = .next (pruneSeals f n d.batch
      (writeCpl f n sq.cq (furrowPtag f s) d.tag .batchSealed 0 (le 2 num ++ le 2 w ++ le 2 e ++ [0, 0]) d.irq
        (modSq f n (fun q => { q with
          seals := updFirst (fun x => x.idx == d.idx) (fun x => { x with written := true }) q.seals }) u))) := by
  change execSealCompletion f n s = _
  simp only [execSealCompletion, hsq, hfirst, hready]
  cases hhas : d.slot with
  | true => rfl
  | false =>
    obtain ⟨cq, hcq, hfree⟩ := hslot.resolve_left (by simp [hhas])
    simp only [hcq, hfree]
    rfl

theorem exec_coalesceTimeout_due {f n : Nat} {cq : Cq} {s : State} (hcq : cqGet f n s = some cq) (hirq : cq.irqEn = true)
    (htime : cq.coalUs ≠ 0) (hcount : cq.unsignalled ≠ 0) (hadmin : f ≠ 0 ∨ n ≠ 0) :
    exec (.coalesceTimeout f n) s = .next (cqIrq f n s) := by
  change execCoalesceTimeout f n s = _
  simp only [execCoalesceTimeout, hcq]
  rw [if_pos (by simpa [hirq, htime, hcount] using hadmin)]

/-- Two updates that agree on the element found are one. -/
theorem updFirst_congr {α : Type} {p : α → Bool} {g h : α → α} {x : α} (hx : g x = h x) :
    ∀ {xs : List α}, xs.find? p = some x → updFirst p g xs = updFirst p h xs
  | [], _ => rfl
  | y :: ys, hfind => by
    by_cases hy : p y = true
    · obtain rfl : y = x := by simpa [hy] using hfind
      simp [updFirst, hy, hx]
    · have hrest : ys.find? p = some x := by simpa [hy] using hfind
      simp [updFirst, hy, updFirst_congr hx hrest]

theorem modSq_congr {f n : Nat} {q : Sq} {g h : Sq → Sq} {s : State} (hsq : sqGet f n s = some q) (hq : g q = h q) :
    modSq f n g s = modSq f n h s :=
  congrArg (fun l => s.modCmdif fun c => { c with sqs := l }) (updFirst_congr hq hsq)

/-- A disabled SQ without a fault that has drained is reported; its credits stay (R45, R178). -/
theorem exec_queueDrained_drained {f n : Nat} {sq : Sq} {s : State} (hsq : sqGet f n s = some sq) (henabled : sq.enabled = false)
    (hdisabling : sq.disabling = true) (hfaulted : sq.faulted = false) (hdrained : sqDrained sq s = true) (hadmin : f ≠ 0 ∨ n ≠ 0) :
    exec (.queueDrained f n) s = .next (postEvt .both 0x2001 (wfield (f * 8 + n) 0) 0
      (modSq f n (fun q => { q with disabling := false, faulted := false })
        (regSet 0x2058 (wbit true 31 ||| wfield (f * 8 + n) 0) s))) := by
  have hsame := modSq_congr (s := regSet 0x2058 (wbit true 31 ||| wfield (f * 8 + n) 0) s)
    (g := fun q => { q with disabling := false, faulted := false, avail := if q.faulted then q.credits else q.avail })
    (h := fun q => { q with disabling := false, faulted := false }) hsq (by simp [hfaulted])
  change execQueueDrained f n s = _
  simp only [execQueueDrained, hsq]
  rw [if_neg (by simp [henabled, hdisabling, hdrained]), if_neg (by omega)]
  exact congrArg (fun t => Host.Outcome.next (postEvt .both 0x2001 (wfield (f * 8 + n) 0) 0 t)) hsame

theorem exec_cqHomeReturn_quiet {f n : Nat} {cq : Cq} {s : State} (hcq : cqGet f n s = some cq) (hmoved : cq.home ≠ cq.confHome)
    (hup : (s.port cq.confHome).up = true) (hflushed : cqFlushed cq s = true)
    (hidle : (s.cmdif.cmds.any fun c => c.furrow == f && c.cq == n) = false) :
    exec (.cqHomeReturn f n) s = .next (modCq f n (fun q => { q with home := q.confHome }) s) := by
  change execCqHomeReturn f n s = _
  simp only [execCqHomeReturn, hcq]
  rw [if_pos ⟨hmoved, hup, by simp [hidle], hflushed⟩]

theorem exec_linkDown_stalled {id : Nat} {c : Cmd} {s : State} (hget : cmdGet id s = some c)
    (hphase : c.phase = .fetched ∨ c.phase = .reading) (hstalled : readStalled id s = true) :
    exec (.linkDown id) s = .next (finishSt c .linkDown (readOver (.block id) (readOver (.src id) (entryOver id s)))) := by
  change execLinkDown id s = _
  simp only [execLinkDown, hget]
  rw [if_pos ⟨hphase, hstalled⟩]

/-- Settles O24: each clause's conditions pass its row's tests; what a row reads again after its own reads are over is still found
(`entryOver_cmdif`, `readOver_cmdif`). -/
theorem queueEventsComplete : Obligations.QueueEventsComplete := by
  unfold Obligations.QueueEventsComplete
  intro p q v f n k id s fq nq x
  refine ⟨?sqTail, ?cqHead, ?entryFetch, ?entryArrive, ?dispatch, ?shareRecheck, ?cplReceive, ?sealCompletion, ?coalesce, ?drained,
    ?homeReturn, ?linkDown⟩
  case sqTail =>
    intro sq hreaches hsurvey hretired hopen hsq hx hne htail
    rw [exec_sqTail_open hreaches hsurvey hretired hopen, tailWrite_moved hsq hx hne htail]
  case cqHead =>
    intro cq hreaches hsurvey hretired hopen hcq hx hunread
    rw [exec_cqHead_open hreaches hsurvey hretired hopen, headWrite_read hcq hx hunread]
  case entryFetch => exact fun _ _ => exec_entryFetch_due
  case entryArrive => exact fun _ _ => exec_entryArrive_passes
  case dispatch => exact fun _ => exec_dispatch_passes
  case shareRecheck => exact fun _ => exec_shareRecheck_waiting
  case cplReceive => exact fun _ bytes hget hphase hsrc hblock hdue => exec_cplReceive_src hget hphase hsrc hblock hdue bytes
  case sealCompletion => exact fun _ _ _ _ _ => exec_sealCompletion_due
  case coalesce => exact fun _ => exec_coalesceTimeout_due
  case drained => exact fun _ => exec_queueDrained_drained
  case homeReturn => exact fun _ => exec_cqHomeReturn_quiet
  case linkDown => exact fun _ => exec_linkDown_stalled

/-! ### Furrow commands -/

/-- A furrow that drains no longer, or is not drained yet, has nothing to report. -/
theorem drainReport_settled {n : Nat} {x : Furrow} {s : State} (hx : furrowGet n s = some x)
    (hsettled : (x.draining && furrowDrained n s) = false) : drainReport n s = s := by
  simp [drainReport, hx, hsettled]

/-- A command on a furrow other than 0 that has no drain to report acts as its opcode says of that furrow. -/
theorem furrowCmd_acts {c : Cmd} {n : Nat} {x : Furrow} {g : Furrow → Option (State → State)} {act : State → State} {s : State}
    (hx : furrowGet n s = some x) (hsettled : (x.draining && furrowDrained n s) = false) (hlow : 1 ≤ n) (hhigh : n ≤ 4095)
    (hact : g x = some act) : furrowCmd c n g s = act s := by
  have hnumber : ¬ ((n = 0 ∧ c.opcode ≠ 0x9007) ∨ 4095 < n) := by omega
  simp only [furrowCmd, drainReport_settled hx hsettled, if_neg hnumber, hx, hact]

theorem furrowCreateBasic_free {c : Cmd} {n : Nat} {s : State} (hn : natAt c.block 0 2 = n) (hlow : 1 ≤ n) (hhigh : n ≤ 4095)
    (hpolicy : policyOk c.block = true) (hflags : natAt c.block 2 2 = 0) (hrest : natAt c.block 24 8 = 0) (hfree : furrowState n s = .free)
    (htag : tagHeld (policyFurrow c.block .active).ptag n s = false) :
    furrowCreateBasic c s = finish c (Ending.inline (le 2 n)) (furrowSet n (some (policyFurrow c.block .active)) s) := by
  have hnamed : n ≠ 0xFFFF := by omega
  simp [furrowCreateBasic, hn, hnamed, hlow, hhigh, hpolicy, hflags, hrest, hfree, htag]

theorem furrowCreateExpert_free {c : Cmd} {n : Nat} {s : State} (hn : natAt c.block 0 2 = n) (hlow : 1 ≤ n) (hhigh : n ≤ 4095)
    (hpolicy : policyOk c.block = true) (hvalid : bitAt c.block 3 1 = true) (hfree : furrowState n s = .free)
    (htag : tagHeld (policyFurrow c.block .quiesced).ptag n s = false)
    (hsqs : ∀ i ∈ present (byteAt c.block 24), sqRecordOk c.block (320 + 32 * i) (byteAt c.block 25) = true)
    (hcqs : ∀ i ∈ present (byteAt c.block 25), cqRecordOk c.block (64 + 32 * i) = true) :
    let sqs := (present (byteAt c.block 24)).map fun i => sqOfRecord c.block (320 + 32 * i) n i
    let cqs := (present (byteAt c.block 25)).map fun i => cqOfRecord c.block (64 + 32 * i) n i
    let granted := (sqs.map (·.credits)).sum
    granted ≤ s.cmdif.pool → granted ≤ natAt c.block 16 4 →
    furrowCreateExpert c s = finish c (Ending.inline (le 2 n))
      ((furrowSet n (some (policyFurrow c.block .quiesced)) s).modCmdif fun i => { i with
        pool := i.pool - granted
        sqs := sqs.foldl (fun l q => insertSq q l) i.sqs
        cqs := cqs.foldl (fun l q => insertCq q l) i.cqs }) := by
  intro sqs cqs granted hpool hquota
  subst hn
  have hsqsAll : (present (byteAt c.block 24)).all (fun i => sqRecordOk c.block (320 + 32 * i) (byteAt c.block 25)) = true :=
    List.all_eq_true.mpr hsqs
  have hcqsAll : (present (byteAt c.block 25)).all (fun i => cqRecordOk c.block (64 + 32 * i)) = true := List.all_eq_true.mpr hcqs
  unfold furrowCreateExpert
  refine (if_neg ?_).trans ((if_neg ?_).trans rfl)
  · simp only [hpolicy, hlow, hhigh, hvalid, hfree, htag, hsqsAll, hcqsAll]
    decide
  · exact not_or.mpr ⟨Nat.not_lt.mpr hpool, Nat.not_lt.mpr hquota⟩

theorem exec_furrowSetPolicy_allowed {id n : Nat} {c : Cmd} {x : Furrow} {s : State} (h : Runs id 0x9002 c s)
    (hn : natAt c.block 0 2 = n) (hlow : 1 ≤ n) (hhigh : n ≤ 4095) (hx : furrowGet n s = some x) (hpolicy : policyOk c.block = true)
    (hflags : natAt c.block 2 2 = 0) (hrest : natAt c.block 24 8 = 0) (htag : tagHeld (policyFurrow c.block .active).ptag n s = false)
    (hcredits : furrowCredits n s ≤ natAt c.block 16 4)
    (hptag : (policyFurrow c.block .active).ptag = furrowPtag n s ∨ x.state = .quiesced) :
    exec (.furrowSetPolicy id) s = .next (finishSt c .ok (furrowSet n (some { policyFurrow c.block .active with
      state := x.state, logOn := x.logOn, log := x.log, draining := x.draining
      olds := (cplTally c (Ending.st .ok) s, x.colourSet, x.keyQuota) :: livePolicies x.olds s }) s)) := by
  subst hn
  have hrange : ¬ (4095 < natAt c.block 0 2 ∨ (!policyOk c.block) = true ∨ natAt c.block 2 2 ≠ 0 ∨ natAt c.block 24 8 ≠ 0) := by
    simp [hpolicy, hflags, hrest, hhigh]
  have hzero : ¬ (natAt c.block 0 2 = 0 ∧ bytesAt c.block 4 16 ≠ (policyBytes 0 x s).take 16) := by omega
  have hheld : ¬ (tagHeld (policyFurrow c.block .active).ptag (natAt c.block 0 2) s = true ∨
      (policyFurrow c.block .active).creditQuota < furrowCredits (natAt c.block 0 2) s) :=
    not_or.mpr ⟨Bool.eq_false_iff.mp htag, Nat.not_lt.mpr hcredits⟩
  have hquiet : ¬ ((policyFurrow c.block .active).ptag ≠ furrowPtag (natAt c.block 0 2) s ∧ x.state ≠ .quiesced) :=
    fun hne => hptag.elim hne.1 hne.2
  change execFurrowSetPolicy id s = _
  rw [execFurrowSetPolicy, next_runOp_of_runs h]
  simp only [hx]
  rw [if_neg hrange, if_neg hzero, if_neg hheld, if_neg hquiet]

/-- A furrow whose drain is over is reported: QUIESCED, or DISABLED still (R206). -/
theorem drainReport_quiescing {n : Nat} {x : Furrow} {s : State} (hx : furrowGet n s = some x) (hdraining : x.draining = true)
    (hdrained : furrowDrained n s = true) (hstate : x.state = .quiescing) :
    drainReport n s = furrowDone n 31 0x3001 (modFurrow n (fun x => { x with state := .quiesced }) s) := by
  simp [drainReport, hx, hdraining, hdrained, hstate]

theorem drainReport_disabled {n : Nat} {x : Furrow} {s : State} (hx : furrowGet n s = some x) (hdraining : x.draining = true)
    (hdrained : furrowDrained n s = true) (hstate : x.state = .disabled) : drainReport n s = furrowDone n 30 0x3002 s := by
  simp [drainReport, hx, hdraining, hdrained, hstate]

/-- Settles O26: each command is `runOp`'s body (`next_runOp_of_runs`); on a furrow with no drain to report that body is the act its state
allows (`furrowCmd_acts`). -/
theorem furrowCommandsComplete : Obligations.FurrowCommandsComplete := by
  unfold Obligations.FurrowCommandsComplete
  intro id n c x s
  dsimp only
  refine ⟨?createBasic, ?createExpert, ?setPolicy, ?quiesce, ?reset, ?remove, ?disable, ?enable, ?logStart, ?logStop, ?query, ?quiesced,
    ?disabled⟩
  case createBasic =>
    intro h hform hn hlow hhigh hpolicy hflags hrest hfree htag
    change execFurrowCreate id s = _
    rw [execFurrowCreate, next_runOp_of_runs h, if_pos hform, furrowCreateBasic_free hn hlow hhigh hpolicy hflags hrest hfree htag]
  case createExpert =>
    intro h hform hn hlow hhigh hpolicy hvalid hfree htag hsqs hcqs hpool hquota
    change execFurrowCreate id s = _
    rw [execFurrowCreate, next_runOp_of_runs h, if_neg hform,
      furrowCreateExpert_free hn hlow hhigh hpolicy hvalid hfree htag hsqs hcqs hpool hquota]
  case setPolicy => exact exec_furrowSetPolicy_allowed
  case quiesce =>
    rintro h hsettled rfl hlow hhigh hx hstate
    change execFurrowQuiesce id s = _
    rw [execFurrowQuiesce, next_runOp_of_runs h, furrowCmd_acts hx hsettled hlow hhigh (if_pos hstate)]
  case reset =>
    rintro h hsettled rfl hlow hhigh hx hstate
    change execFurrowReset id s = _
    rw [execFurrowReset, next_runOp_of_runs h, furrowCmd_acts hx hsettled hlow hhigh (if_pos hstate)]
  case remove =>
    rintro h hsettled rfl hlow hhigh hx hstate howned
    change execFurrowRemove id s = _
    rw [execFurrowRemove, next_runOp_of_runs h, furrowCmd_acts hx hsettled hlow hhigh (if_pos (by simp [hstate, howned]))]
  case disable =>
    rintro h hsettled rfl hlow hhigh hx hdisabled hfree
    change execFurrowDisable id s = _
    rw [execFurrowDisable, next_runOp_of_runs h, furrowCmd_acts hx hsettled hlow hhigh (if_neg (not_or.mpr ⟨hdisabled, hfree⟩))]
  case enable =>
    rintro h hsettled rfl hlow hhigh hx hstate
    change execFurrowEnable id s = _
    rw [execFurrowEnable, next_runOp_of_runs h, furrowCmd_acts hx hsettled hlow hhigh (if_pos (by simp [hstate]))]
  case logStart =>
    rintro h hsettled ⟨hscratch, hbusy⟩ rfl hlow hhigh hx hbitmap hbase hpages hleast hmost hrest hfree
    have hrange : ¬ (natAt c.block 0 8 % 64 ≠ 0 ∨ natAt c.block 8 8 % 4096 ≠ 0 ∨ natAt c.block 16 8 % 64 ≠ 0 ∨
        natAt c.block 16 8 < 64 ∨ 2 ^ 36 < natAt c.block 16 8 ∨ natAt c.block 26 6 ≠ 0) := by omega
    change execDirtyLogStart id s = _
    rw [execDirtyLogStart, next_runOp_of_runs h, if_neg (not_not_intro hscratch)]
    dsimp only
    rw [if_neg hrange, if_neg (Bool.eq_false_iff.mp hbusy), furrowCmd_acts hx hsettled hlow hhigh rfl]
  case logStop =>
    rintro h hsettled ⟨hscratch, hbusy⟩ rfl hlow hhigh hx hactive hfree
    change execDirtyLogStop id s = _
    rw [execDirtyLogStop, next_runOp_of_runs h, if_neg (not_not_intro hscratch)]
    dsimp only
    rw [if_neg (Bool.eq_false_iff.mp hbusy), furrowCmd_acts hx hsettled hlow hhigh (if_neg hactive)]
  case query =>
    rintro h rfl hx
    change execFurrowQuery id s = _
    rw [execFurrowQuery, next_runOp_of_runs h]
    simp only [hx]
  case quiesced =>
    intro hx hdraining hdrained hstate
    have hquiescing : ¬ furrowState n s = .disabled := by simp [furrowState, hx, hstate]
    rw [← drainReport_quiescing hx hdraining hdrained hstate]
    exact congrArg Host.Outcome.next (if_neg hquiescing)
  case disabled =>
    intro hx hdraining hdrained hstate
    have hdisabled : furrowState n s = .disabled := by simp [furrowState, hx, hstate]
    rw [← drainReport_disabled hx hdraining hdrained hstate]
    exact congrArg Host.Outcome.next (if_pos hdisabled)

/-! ### Queue commands -/

/-- A queue that is not the admin queue. -/
theorem not_admin {f n : Nat} (h : f ≠ 0 ∨ n ≠ 0) : (f == 0 && n == 0) = false := by
  obtain hf | hn := h
  · simp [hf]
  · simp [hn]

/-- An ACTIVE furrow is not FREE: it has a policy. -/
theorem furrowGet_of_active {f : Nat} {s : State} (h : furrowState f s = .active) : ∃ x, furrowGet f s = some x := by
  cases hx : furrowGet f s with
  | none => simp [furrowState, hx] at h
  | some x => exact ⟨x, rfl⟩

/-- Settles O27: each command is `runOp`'s body, whose range tests the clause's conditions pass; an ACTIVE furrow is one that
has a quota. -/
theorem queueCommandsComplete : Obligations.QueueCommandsComplete := by
  unfold Obligations.QueueCommandsComplete
  intro id c q s
  dsimp only
  refine ⟨?cqCreate, ?sqCreate, ?cqDelete, ?sqDelete, ?sqDisable, ?sqEnable, ?query⟩
  case cqCreate =>
    intro h hbase hleast hmost hhome hf hn hirq hrest hadmin hnew hactive
    change execCqCreate id s = _
    rw [execCqCreate, next_runOp_of_runs h]
    refine congrArg Host.Outcome.next (if_neg ?_)
    simp [hbase, hleast, hmost, hhome, hf, hn, hirq, hrest, not_admin hadmin, hnew, hactive]
  case sqCreate =>
    intro h hbase hleast hmost hf hn hcq hweight hweight16 hcredits hcredits4096 hrest hadmin hnew hcqOld hactive hpool hquota
    obtain ⟨x, hx⟩ := furrowGet_of_active hactive
    change execSqCreate id s = _
    rw [execSqCreate, next_runOp_of_runs h]
    refine congrArg Host.Outcome.next ((if_neg ?_).trans (if_neg ?_))
    · simp [hbase, hleast, hmost, hf, hn, hcq, hweight, hweight16, hcredits, hcredits4096, hrest, not_admin hadmin, hnew, hcqOld, hactive]
    · simp only [hx]
      exact not_or.mpr ⟨Nat.not_lt.mpr hpool, Nat.not_lt.mpr (hquota x hx)⟩
  case cqDelete =>
    intro h hadmin hold hunused
    change execCqDelete id s = _
    rw [execCqDelete, next_runOp_of_runs h]
    refine congrArg Host.Outcome.next (if_neg ?_)
    rintro (⟨hf, hn⟩ | hnone | hused)
    · exact hadmin.elim (· hf) (· hn)
    · simp [Option.isNone_iff_eq_none.mp hnone] at hold
    · simp [hunused] at hused
  case sqDelete =>
    intro h hq hdisabled hdrained
    change execSqDelete id s = _
    rw [execSqDelete, next_runOp_of_runs h]
    simp only [hq]
    rw [if_neg (by simp [hdisabled, hdrained])]
  case sqDisable =>
    intro h hq henabled
    change execSqDisable id s = _
    rw [execSqDisable, next_runOp_of_runs h]
    simp only [hq]
    rw [if_pos henabled]
  case sqEnable =>
    intro h hq hdisabled hdrained
    change execSqEnable id s = _
    rw [execSqEnable, next_runOp_of_runs h]
    simp only [hq]
    rw [if_neg (by simp [hdisabled]), if_neg (by simp [hdrained])]
  case query =>
    intro h hq
    change execQueueQuery id s = _
    rw [execQueueQuery, next_runOp_of_runs h]
    simp only [hq]

/-! ### The reset state -/

theorem coreGet_reset (n : Fin 4) : coreGet n.val State.reset = resetCore (decide (n ≠ 0)) := by
  match n with
  | 0 | 1 | 2 | 3 => rfl

theorem resetCore_level (held : Bool) : (resetCore held).level = 3 := by cases held <;> decide
theorem resetCore_masked (held : Bool) : (resetCore held).masked = true := by cases held <;> decide

theorem resetCore_reg (held : Bool) (r : BitVec 4) : (resetCore held).reg r = 0 := by
  have hzero : (List.replicate 16 (0 : Word)).getD r.toNat 0 = 0 := by
    rw [List.getD_eq_getElem?_getD, List.getElem?_replicate]
    split <;> rfl
  exact (congrArg (fun w => if r = 0 then 0 else w) hzero).trans (ite_self _)

/-- Settles O57: each core is `resetCore`, furrow 0 is the only one listed, and the other fields are those that the reset state
writes out. -/
theorem resetIsAsStated : Obligations.ResetIsAsStated := by
  unfold Obligations.ResetIsAsStated
  intro s
  have hfree : ∀ f, f ≠ 0 → furrowState f s = .free := by
    intro f hf
    have hnone : furrowGet f s = none := if_neg hf
    simp [furrowState, hnone]
  have hcore : ∀ n : Fin 4, let k := coreGet n.val s
      k.level = 3 ∧ k.masked = true ∧ k.pceil = 3 ∧ k.mpuctl.getLsbD 0 = false ∧ k.lc = 0 ∧ (∀ r, k.reg r = 0) ∧
        k.held = decide (n ≠ 0) := by
    intro n
    rw [coreGet_reset]
    exact ⟨resetCore_level _, resetCore_masked _, rfl, BitVec.getLsbD_zero, rfl, resetCore_reg _, rfl⟩
  have hpins : ∀ p ∈ s.backup.pins, p.mode = 0 := fun p hp => by rw [List.eq_of_mem_replicate hp]
  exact ⟨rfl, rfl, rfl, rfl, rfl, rfl, hfree, rfl, rfl, rfl, rfl, hcore, rfl, rfl, rfl, rfl, rfl, hpins, rfl, rfl,
    ⟨rfl, rfl, rfl, rfl⟩, rfl⟩

end Sys2Proof.Machine
end

section
/-! PROOFS. Family 07_key_table: the key commands (O33), the key store's events (O34), the custodian commands (O47). -/
namespace Sys2Proof.Machine
open Sys2Proof.Stated

/-! ### What a started command has: its slots, its random bytes, room in the vault -/

/-- A command that holds every slot it asks for goes on at once (R243). -/
theorem withSlots_held {n : Nat} {c : Cmd} {rs : List SlotReq} {s : State} {k : Cmd → State → State} (h : Holds n c)
    (hrs : rs.length = n) : withSlots c rs s k = k c s := by
  obtain ⟨hwait, halloc⟩ := h
  have hnone : rs.drop c.alloc.length = [] := List.drop_of_length_le (Nat.le_of_eq (hrs.trans halloc.symm))
  simp only [withSlots, hwait, hnone, allocMore]

theorem withKey_drawn {c : Cmd} {n : Nat} {bytes : List Byte} {s u : State} {k : List Byte → State → State}
    (h : drawKey n [] s = .ok bytes u) : withKey c n s k = k bytes u := by simp only [withKey, h]

theorem withNewKey_found {c : Cmd} {alg : Nat} {rnd m : List Byte} {s : State} {k : List Byte → State → State}
    (h : genMaterial alg rnd = some m) : withNewKey c alg rnd s k = k m s := by simp only [withNewKey, h]

/-- A record that may be stored passes the vault's test (R4, Table 3-2). -/
theorem vaultTest_storable {r : KeyRec} {s : State} (h : Storable r s) : (r.persist && !vaultWritable s) = false := by
  obtain hsession | hwritable := h
  · simp only [hsession, Bool.false_and]
  · simp only [hwritable, Bool.not_true, Bool.and_false]

/-! ### Key commands -/

/-- Colours that `KEY_B` may wrap and the submitter may give pass the tests of an import: the record's colour, and that of a "9E" block, if
any (R264, R612). -/
theorem importColours_pass {c : Cmd} {r p : KeyRec} {e9 : Option Nat} {s : State} (hwraps : p.wrapColours.getLsbD r.colour = true)
    (he9 : (e9.all fun x => p.wrapColours.getLsbD x && c.colours.getLsbD x) = true)
    (hgiven : (c.form = 0 ∧ e9 = none) ∨ colourGiven c r.colour r.owner s = true) :
    ¬ (!(p.wrapColours.getLsbD r.colour && e9.all fun x => p.wrapColours.getLsbD x) ||
        !((c.form == 0 && e9.isNone) || colourGiven c r.colour r.owner s) || !e9.all fun x => c.colours.getLsbD x) = true := by
  cases e9 with
  | none =>
    have hmay : ((c.form == 0) || colourGiven c r.colour r.owner s) = true := by
      obtain ⟨hform, -⟩ | hcolour := hgiven
      · simp only [hform, beq_self_eq_true, Bool.true_or]
      · simp only [hcolour, Bool.or_true]
    simp only [hwraps, hmay, Option.all_none, Option.isNone_none, Bool.and_true, Bool.not_true, Bool.or_false, Bool.false_eq_true,
      not_false_eq_true]
  | some x =>
    have hcolour : colourGiven c r.colour r.owner s = true := hgiven.resolve_left fun h => nomatch h.2
    obtain ⟨hwrapped, hown⟩ := Bool.and_eq_true_iff.mp he9
    simp only [Option.all_some, hwraps, hwrapped, hown, hcolour, Bool.and_true, Bool.or_true, Bool.not_true, Bool.or_false,
      Bool.false_eq_true, not_false_eq_true]

/-- Settles O33: each command is `runOp`'s body; the slots are held (`withSlots_held`), the bytes drawn (`withKey_drawn`), the vault takes
the change (`vaultTest_storable`), and the clause's other conditions pass the body's tests one by one. -/
theorem keyCommandsComplete : Obligations.KeyCommandsComplete := by
  unfold Obligations.KeyCommandsComplete
  intro id c s
  dsimp only
  refine ⟨?generate, ?imports, ?exportBlock, ?exportPublic, ?derive, ?delete, ?query, ?setPolicy⟩
  case generate =>
    intro rnd u m h hslots hdraw hmaterial _
    change execKeyGenerate id s = _
    rw [execKeyGenerate, next_runOp_of_runs h, keyGenBody, withSlots_held hslots rfl, withKey_drawn hdraw, withNewKey_found hmaterial]
  case imports =>
    intro k d alg m r p h hslots hread hversion hopens hdata hrec hparent hwraps _ he9 hgiven
    change execKeyImport id s = _
    rw [execKeyImport, next_runOp_of_runs h]
    delta keyImportBody
    simp only [hread, hopens, hdata, hrec, hparent]
    rw [if_neg (not_not_intro hversion), if_neg (importColours_pass hwraps he9 hgiven), withSlots_held hslots rfl]
  case exportBlock =>
    intro h hkey
    change execKeyExport id s = _
    rw [execKeyExport, next_runOp_of_runs h]
    simp only [exportOut, if_neg hkey]
  case exportPublic =>
    intro h hkey
    change execKeyExport id s = _
    rw [execKeyExport, next_runOp_of_runs h]
    simp only [exportOut, if_pos hkey]
  case derive =>
    intro h hslots _
    change execKeyDerive id s = _
    rw [execKeyDerive, next_runOp_of_runs h, withSlots_held hslots rfl]
  case delete =>
    intro r h hrec hpins hstores
    change execKeyDelete id s = _
    rw [execKeyDelete, next_runOp_of_runs h]
    simp only [hrec, hpins, vaultTest_storable hstores, Bool.false_eq_true, if_false]
  case query =>
    intro r h hrec
    change execKeyQuery id s = _
    rw [execKeyQuery, next_runOp_of_runs h]
    simp only [hrec]
  case setPolicy =>
    intro r h hrec halg hcolour hpersist hdomain hmay hquota hstores
    change execKeySetPolicy id s = _
    rw [execKeySetPolicy, next_runOp_of_runs h, keySetPolicyBody]
    simp only [hrec]
    refine congrArg Host.Outcome.next
      ((if_neg ?fixed).trans ((if_neg ?narrowed).trans ((if_neg ?room).trans (if_neg (Bool.eq_false_iff.mp (vaultTest_storable hstores))))))
    case fixed => simp only [halg, hcolour, hpersist, hdomain, ne_eq, not_true_eq_false, or_self, not_false_eq_true]
    case narrowed =>
      intro ⟨hmode, hwidens⟩
      rw [hmay.resolve_left hmode] at hwidens
      exact absurd hwidens (by decide)
    case room =>
      intro ⟨howner, hfull⟩
      exact absurd (hquota.resolve_left howner) (Nat.not_lt.mpr hfull)

/-! ### The key store's own events -/

@[simp] theorem isDomainIdx_slotSet (i j : Nat) (k : KeySlot) (s : State) : isDomainIdx i (slotSet j k s) = isDomainIdx i s := rfl
@[simp] theorem isDomainIdx_bump (i k n : Nat) (s : State) : isDomainIdx i (bump k n s) = isDomainIdx i s := rfl

/-- A cullet slot of the local range without a record goes FREE to the end of its free list (R242, R252). -/
theorem exec_scrub_local {i : Nat} {s : State} (hcullet : (slotGet i s).state = .cullet) (hpins : pinCount i s = 0)
    (hentry : (slotGet i s).entry = none) (hgen : (slotGet i s).gen ≤ 0x1FFFFFF) (hlocal : isDomainIdx i s = false) :
    let u := slotSet i { slotGet i s with state := .free, cached := false, reloading := false } (bump 0x4114 1 s)
    exec (.scrub i) s = .next (setFreeList false (freeList false u ++ [(i, 1)]) u) := by
  have hdue : ¬ ((slotGet i s).state ≠ .cullet ∨ pinCount i s ≠ 0) := by
    simp only [hcullet, hpins, ne_eq, not_true_eq_false, or_self, not_false_eq_true]
  have hunspent : decide (0x1FFFFFF < (slotGet i s).gen) = false := decide_eq_false (Nat.not_lt.mpr hgen)
  change execScrub i s = _
  simp only [execScrub, if_neg hdue, hentry, hunspent, isDomainIdx_slotSet, isDomainIdx_bump, hlocal, Bool.false_eq_true, if_false,
    Bool.not_false, Bool.true_or, Bool.not_true, Bool.false_or]

/-- Settles O34: each clause's conditions select one branch of its row; a slot's scrub leaves the ranges of R237 as they are
(`exec_scrub_local`). -/
theorem keyStoreEventsComplete : Obligations.KeyStoreEventsComplete := by
  unfold Obligations.KeyStoreEventsComplete
  intro i s
  refine ⟨?fill, ?corrupt, ?reload, ?scrub, ?restore, ?restoreDone⟩
  case fill =>
    intro r reads others u hfill hlive hverifies hroom
    change execCacheFill i none reads others s = _
    simp only [execCacheFill, hfill, hlive, hverifies, hroom, Bool.not_true, Bool.false_eq_true, if_false, Option.isNone_some]
  case corrupt =>
    intro reads others hfill hfails
    change execCacheFill i none reads others s = _
    simp only [execCacheFill, hfill, hfails, Bool.not_true, Bool.false_eq_true, if_false, if_true]
  case reload =>
    intro g r hreloading hstored
    change execRecordReload i true s = _
    simp only [execRecordReload, hreloading, hstored, Bool.not_true, Bool.false_eq_true, if_false]
  case scrub =>
    intro hcullet hpins hentry hgen hlocal
    exact ⟨_, exec_scrub_local hcullet hpins hentry hgen hlocal, rfl⟩
  case restore =>
    intro hrestoring hfloors hfirst
    have hlisted : s.keytab.toRestore.contains i = true := List.contains_iff_mem.mpr (List.mem_of_head? hfirst)
    change execRecordRestore i s = _
    simp only [execRecordRestore, hrestoring, hfloors, hlisted, hfirst, BEq.rfl, Bool.true_or, Bool.and_self, if_true]
  case restoreDone =>
    intro hrestoring hfloors hrestored
    change execKeytabRestoreDone s = _
    simp only [execKeytabRestoreDone, hrestoring, hfloors, hrestored, List.isEmpty_nil, Bool.and_self, if_true]

/-! ### Custodian commands -/

/-- A started `CUSTODIAN_ENROL` of a row's function, whose change of the table the vault takes, does what that row says (R550). -/
theorem next_enrolOp_of_runs {fn id : Nat} {body : Cmd → State → State} {c : Cmd} {s : State} (h : Runs id 0x8001 c s)
    (hfn : c.inlNat 48 1 = fn) (hstores : fn ≠ 4 → s.vault.ident.isSome = true → vaultWritable s = true) :
    (.next (enrolOp fn id body s) : Out) = .next (body c s) := by
  have ⟨hget, _⟩ := h
  have hpasses : ¬ (fn != 4 && s.vault.ident.isSome && !vaultWritable s) = true := by
    by_cases hfour : fn = 4
    · simp only [hfour, bne_self_eq_false, Bool.false_and, Bool.false_eq_true, not_false_eq_true]
    · intro hrefused
      obtain ⟨⟨-, hvault⟩, hfull⟩ := Bool.and_eq_true_iff.mp hrefused |>.imp_left Bool.and_eq_true_iff.mp
      rw [hstores hfour hvault] at hfull
      exact absurd hfull (by decide)
  simp only [enrolOp, hget, hfn, beq_self_eq_true, Bool.true_or, if_true]
  rw [next_runOp_of_runs h, if_neg hpasses]

/-- `ENROL` reaches its credential: a badge is the only one of its number and takes the write, a card stands in the slot (R556, R562,
R566). -/
theorem enrol_reaches {c : Cmd} {vr : Option (BitVec 8)} {s : State}
    (h : if c.inlNat 50 1 = 2 then s.cust.dups.contains (c.inlNat 56 8) = false ∧ weakField vr s = false else slotBar s = none) :
    (if c.inlNat 50 1 == 2 then (if s.cust.dups.contains (c.inlNat 56 8) then some 7 else none) else slotBar s) = none ∧
      (c.inlNat 50 1 == 2 && weakField vr s) = false := by
  split at h
  next hbadge =>
    obtain ⟨hsingle, hfield⟩ := h
    simp only [hbadge, hsingle, hfield, beq_self_eq_true, Bool.false_eq_true, if_true, if_false, Bool.and_false, and_self]
  next hcard =>
    have hkind : (c.inlNat 50 1 == 2) = false := beq_eq_false_iff_ne.mpr hcard
    simp only [hkind, h, Bool.false_eq_true, if_false, Bool.false_and, and_self]

/-- An exchange with an enrolled credential opens its session under the key of the handshake (R551, R552). -/
theorem openFor_enrolled {c : Cmd} {kind m : Nat} {enrolled : Nat → Bool} {qc nc bytes : List Byte} {s u : State}
    (henrolled : enrolled m = true) (hdraw : drawKey 72 [] s = .ok bytes u) :
    let r := openCustSession m kind (handshakeKey (ecScalar p256 (bytes.take 40)) (bytes.drop 40) qc nc) u
    openFor c kind enrolled (.ok m qc nc) s = finish c (Ending.inline (le 8 r.1)) r.2 := by
  simp only [openFor, henrolled, Bool.not_true, Bool.false_eq_true, if_false, withKey_drawn hdraw]

/-- A write to a whole seal, an issued one where rows are written, is sent and answered with the seal's new write count (R565 to R567). -/
theorem sealWrite_whole {issued : Bool} {c : Cmd} {vr : Option (BitVec 8)} {serial st k : Nat} {mem : List Byte} {s : State}
    (hfield : weakField vr s = false) (hwhole : st % 4 < 2) (hissued : issued = true → st % 2 = 1) :
    sealWrite issued c ⟨vr, .ok serial st k mem⟩ s = finish c (Ending.inline (le 4 k))
      (sendTag (if issued then c.data else (sealKeys c serial s).1 ++ (sealKeys c serial s).2) s) := by
  have hkeyed : ¬ (issued = true ∧ st % 2 = 0) := fun ⟨h, heven⟩ =>
    absurd ((hissued h).symm.trans heven) (by decide)
  simp only [sealWrite, hfield, Bool.false_eq_true, if_false]
  rw [if_neg (Nat.not_le.mpr hwhole), if_neg hkeyed]

theorem needDst_fits {n : Nat} {c : Cmd} (h : n ≤ c.dstLen) : needDst n c = none := if_neg (Nat.not_lt.mpr h)

theorem namesFn_of_runs {id code : Nat} {c : Cmd} {s : State} (h : Runs id code c s) (fn : Nat) :
    namesFn id fn s = (c.inlNat 48 1 == fn) := by
  have ⟨hget, _⟩ := h
  simp only [namesFn, hget]

/-- Settles O47: each command is `runOp`'s body, for `CUSTODIAN_ENROL` behind the test of its function (`next_enrolOp_of_runs`); the
clause's conditions pass the body's tests, and a first enrolment draws the domain custodian key (log 92). -/
theorem custodianCommandsComplete : Obligations.CustodianCommandsComplete := by
  unfold Obligations.CustodianCommandsComplete
  intro id c s
  dsimp only
  refine ⟨?enrol, ?revoke, ?setDefine, ?setHold, ?quorumStatus, ?cardSession, ?badgeAuthenticate, ?inventory, ?sealRead, ?sealIssue,
    ?sealWrite, ⟨?formKey, ?gather⟩, ?exportComponent⟩
  case enrol =>
    intro vr pub key u h hfn _ hstores hreached hkey hset
    obtain ⟨hbar, hfield⟩ := enrol_reaches hreached
    change execEnrol id ⟨vr, .ok pub⟩ s = _
    rw [execEnrol, next_enrolOp_of_runs h hfn fun _ => hstores]
    simp only [hbar, hfield, Bool.false_eq_true, if_false]
    obtain ⟨hfounded, rfl, rfl⟩ | ⟨hunfounded, bytes, hdraw, rfl⟩ := hkey
    · simp only [List.isEmpty_iff, hfounded, hset, Bool.false_eq_true, if_false]
    · simp only [hunfounded, List.isEmpty_nil, withKey_drawn hdraw, hset, Bool.false_eq_true, if_true, if_false]
  case revoke =>
    intro h hfn _ hstores hknown hset
    change execRevoke id s = _
    rw [execRevoke, next_enrolOp_of_runs h hfn fun _ => hstores]
    refine congrArg Host.Outcome.next (if_neg ?_)
    simp only [hset, Option.isNone_iff_eq_none, Option.isSome_iff_ne_none.mp hknown, Bool.or_false, not_false_eq_true]
  case setDefine =>
    intro h hfn _ hstores hset
    change execSetDefine id s = _
    rw [execSetDefine, next_enrolOp_of_runs h hfn fun _ => hstores]
    exact congrArg Host.Outcome.next (if_neg (Bool.eq_false_iff.mp hset))
  case setHold =>
    intro h hfn _
    change execSetHold id s = _
    rw [execSetHold, next_enrolOp_of_runs h hfn fun hfour => absurd rfl hfour]
  case quorumStatus => exact next_runOp_of_runs
  case cardSession =>
    intro m x qc nc bytes u h hslot hcust hcard hdraw
    change execCardSession id (.ok m qc nc) s = _
    rw [execCardSession, next_runOp_of_runs h]
    simp only [hslot]
    rw [openFor_enrolled (by simp only [hcust, hcard, Bool.not_false]) hdraw]
  case badgeAuthenticate =>
    intro m x qc nc bytes u h hsingle hcust hbadge hident hdraw
    change execBadgeAuthenticate id (.ok m qc nc) s = _
    rw [execBadgeAuthenticate, next_runOp_of_runs h]
    simp only [hsingle, Bool.false_eq_true, if_false]
    rw [openFor_enrolled (by simp only [hcust, hbadge, hident, BEq.rfl, Bool.and_self]) hdraw]
  case inventory =>
    intro frames cardsA cardsB h hform hfits
    change execTagInventory id frames cardsA cardsB s = _
    rw [execTagInventory, next_runOp_of_runs h]
    simp only [hform, beq_self_eq_true, Bool.true_or, if_true, needDst_fits hfits]
  case sealRead =>
    intro serial st k mem h hissued
    change execSealRead id (.ok serial st k mem) s = _
    rw [execSealRead, next_runOp_of_runs h]
    exact congrArg Host.Outcome.next (if_neg (by omega))
  case sealIssue =>
    intro vr serial st k mem h hfn hfield hblank
    have hissue : namesFn id 2 s = false := by rw [namesFn_of_runs h, hfn]; decide
    change execSealIssue id ⟨vr, .ok serial st k mem⟩ s = _
    rw [execSealIssue, if_neg (Bool.eq_false_iff.mp hissue), next_runOp_of_runs h, sealWrite_whole (issued := false) hfield hblank nofun]
    rfl
  case sealWrite =>
    intro vr serial st k mem h hfn hfield hissued
    have hwrite : namesFn id 2 s = true := by rw [namesFn_of_runs h, hfn]; decide
    change execSealWrite id ⟨vr, .ok serial st k mem⟩ s = _
    rw [execSealWrite, if_pos hwrite, next_runOp_of_runs h, sealWrite_whole hfield (by omega) fun _ => by omega]
    rfl
  case formKey =>
    intro a h hslots hgathered hkcv
    change execKeyImportComponents id a s = _
    rw [execKeyImportComponents, next_runOp_of_runs h]
    exact congrArg Host.Outcome.next ((if_pos hgathered).trans ((if_neg (not_not_intro hkcv)).trans (withSlots_held hslots rfl)))
  case gather =>
    intro b h hbefore hafter
    change execKeyImportComponents id (.ok b) s = _
    rw [execKeyImportComponents, next_runOp_of_runs h]
    exact congrArg Host.Outcome.next ((if_neg hbefore).trans (if_neg hafter))
  case exportComponent =>
    intro vr b h hscratch hfield
    have hdrawn : c.scratch.isEmpty = false := List.isEmpty_eq_false_iff.mpr hscratch
    have hstrong : (decide ((compSessions c).getD (c.scratch.getD 0 0) 0 / 256 % 256 = 2) && weakField vr s) = false := by
      simpa only [Bool.and_eq_false_imp, decide_eq_true_eq] using hfield
    change execKeyExportComponents id ⟨vr, .ok b⟩ s = _
    rw [execKeyExportComponents, next_runOp_of_runs h]
    simp only [hdrawn, hstrong, Bool.false_eq_true, if_false]

end Sys2Proof.Machine
end

section
/-! PROOFS. Family 08_payment_transforms: the payment commands (O36), the events of the units (O38). -/
namespace Sys2Proof.Machine
open Sys2Proof.Stated

/-! ### PIN blocks decoded and encoded again -/

/-- A format 0 block takes no random fill (R288). -/
theorem withFill_fixed (c : Cmd) (s : State) (k : List Byte → State → State) : withFill c 0 s k = k [] s := if_pos rfl

theorem withFill_drawn {c : Cmd} {fmt : Nat} {fill : List Byte} {s u : State} {k : List Byte → State → State} (hfmt : fmt ≠ 0)
    (hdraw : drawKey 16 [] s = .ok fill u) : withFill c fmt s k = k fill u := by simp only [withFill, if_neg hfmt, hdraw]

/-- A PIN block that decodes is encoded again, with fill where its new format takes fill (R285, R288). -/
theorem translate_decoded {c : Cmd} {fi fo algI algO : Nat} {keyI keyO : List Byte} {pi po pin : List Nat} {s : State}
    (hpin : pinDecipher fi algI keyI pi c.data = some pin) : translate c fi fo algI algO keyI keyO pi po s =
      withFill c fo s fun fill s => flumeEnd c (Ending.out (pinEncipher fo algO keyO po pin fill)) s := by
  simp only [translate, hpin]

/-! ### EMV cryptograms -/

theorem emvBody_verifies {c : Cmd} {x : Emv} {s : State} (hx : emvOf false c = some x) : emvBody false c s =
    flumeVerify c (decide (emvMac (c.keyAlg c.keyA s) (emvKey x.method (c.keyAlg c.keyA s) (c.keyMat c.keyA s) x.atc x.pan x.psn)
      (c.data.drop 32) x.pad = bytesAt c.data 0 8)) s := by
  simp only [emvBody, hx, Bool.false_eq_true, if_false]
  split
  next hmac => rw [decide_eq_true hmac]
  next hmac => rw [decide_eq_false hmac]

/-- A cryptogram that verifies is answered with its ARPC, another one with the verdict alone (R300). -/
theorem emvBody_answers {c : Cmd} {x : Emv} {s : State} (hx : emvOf true c = some x) :
    let a := c.keyAlg c.keyA s
    let k := emvKey x.method a (c.keyMat c.keyA s) x.atc x.pan x.psn
    let arqc := bytesAt c.data 0 8
    emvBody true c s = flumeEnd c (if emvMac a k (c.data.drop 32) x.pad = arqc then
      Ending.inline (emvArpc x.arpc a k arqc (bytesAt c.data 8 4) (bytesAt c.data 16 (natAt c.data 12 1)))
      else Ending.st .verifyFailed) s := by
  simp only [emvBody, hx, if_true]
  split
  next => rfl
  next => rfl

/-! ### Payment commands -/

/-- Settles O36: each command is `runOp`'s body, on the parameters that the clause takes from the command; a translation decodes
(`translate_decoded`) and then draws fill only for a format other than 0, and the other bodies compute or compare at once. -/
theorem paymentCommandsComplete : Obligations.PaymentCommandsComplete := by
  unfold Obligations.PaymentCommandsComplete
  intro id c s
  dsimp only
  refine ⟨?translateFixed, ?translateFilled, ?verifyPin, ?offset, ?pvv, ?arqc, ?arpc, next_runOp_of_runs, next_runOp_of_runs,
    ?dukptFixed, ?dukptFilled, next_runOp_of_runs, next_runOp_of_runs, next_runOp_of_runs, next_runOp_of_runs, next_runOp_of_runs⟩
  case translateFixed =>
    intro x pin h hx hpin hfo
    change execPinTranslate id s = _
    rw [execPinTranslate, next_runOp_of_runs h]
    simp only [hx, translate_decoded hpin, hfo, withFill_fixed]
  case translateFilled =>
    intro x pin fill u h hx hpin hfo hdraw
    change execPinTranslate id s = _
    rw [execPinTranslate, next_runOp_of_runs h]
    simp only [hx, translate_decoded hpin, withFill_drawn hfo hdraw]
  case verifyPin =>
    intro x pin h hx hpin
    change execPinVerify id s = _
    rw [execPinVerify, next_runOp_of_runs h]
    simp only [hx, hpin]
  case offset =>
    intro x pin h hx hpin hlen
    change execPinOffsetGenerate id s = _
    rw [execPinOffsetGenerate, next_runOp_of_runs h]
    simp only [hx, hpin, if_neg (Nat.not_lt.mpr hlen)]
  case pvv =>
    intro x pin h hx hpin
    change execPvvGenerate id s = _
    rw [execPvvGenerate, next_runOp_of_runs h]
    simp only [hx, hpin]
  case arqc => exact fun x hx h => (next_runOp_of_runs h).trans (congrArg Host.Outcome.next (emvBody_verifies hx))
  case arpc => exact fun x hx h => (next_runOp_of_runs h).trans (congrArg Host.Outcome.next (emvBody_answers hx))
  case dukptFixed =>
    intro ksn fi p pin h hparams hpin
    change execDukptPinTranslate id s = _
    rw [execDukptPinTranslate, next_runOp_of_runs h]
    simp only [hparams, translate_decoded hpin, withFill_fixed]
  case dukptFilled =>
    intro ksn fi fo p pin fill u h hparams hfo hpin hdraw
    change execDukptPinTranslate id s = _
    rw [execDukptPinTranslate, next_runOp_of_runs h]
    simp only [hparams, translate_decoded hpin, withFill_drawn hfo hdraw]

/-! ### The units' own events -/

/-- Settles O38: with main power on each event acts (`onMain_on`); a fault is its retirement, and a drained disable passes the row's three
tests: disabled, not yet reported, nothing covered in flight. -/
theorem unitEventsComplete : Obligations.UnitEventsComplete := by
  unfold Obligations.UnitEventsComplete
  intro s hmain
  dsimp only
  refine ⟨fun n => congrArg Host.Outcome.next (onMain_on hmain), fun u => congrArg Host.Outcome.next (onMain_on hmain), ?cipher, ?flume,
    ?publicKey⟩
  case cipher =>
    intro hdisabled hunreported hidle
    change execCipherDrained s = _
    simp only [execCipherDrained, onMain_on hmain, hdisabled, hunreported, hidle, Bool.not_false, Bool.and_self, if_true]
  case flume =>
    intro hdisabled hunreported hidle
    change execFlumeDrained s = _
    simp only [execFlumeDrained, onMain_on hmain, flumeDrain, hdisabled, hunreported, hidle, Bool.not_false, Bool.and_self, if_true]
  case publicKey =>
    intro hdisabled hunreported hidle
    change execPkeDrained s = _
    simp only [execPkeDrained, onMain_on hmain, hdisabled, hunreported, hidle, Bool.not_false, Bool.and_self, if_true]

end Sys2Proof.Machine
end

section
/-! PROOFS. Family 09_cipher_engine: the cipher commands (O37). -/
namespace Sys2Proof.Machine
open Sys2Proof.Stated

/-! ### Drawn IVs and nonce values -/

/-- A CBC encryption whose IV the KEY class gives goes on with it (R333). -/
theorem withIv_drawn {c : Cmd} {n : Nat} {iv : List Byte} {s u : State} {k : List Byte → State → State}
    (hdraw : drawKey n [] s = .ok iv u) : withIv c n s k = k iv u := by simp only [withIv, hdraw]

/-- The nonce counter is no part of the command interface. -/
theorem drawNonce_cmdif {n : Nat} {s u : State} (hdraw : drawNonce s = .ok n u) : u.cmdif = s.cmdif := by
  simp only [drawNonce] at hdraw
  split at hdraw
  · cases hdraw
  · split at hdraw
    · cases hdraw
      rfl
    · cases hdraw

/-- A sealing command without an IV that has drawn nothing draws now, and keeps the value (R332). -/
theorem nonceDraw_seals {c : Cmd} {n : Nat} {s u : State} (hiv : c.ivIn = false) (hfresh : c.scratch = [])
    (hdraw : drawNonce s = .ok n u) : nonceDraw 3 c s = .ok { c with scratch := [2, n] } u := by
  have hdue : ¬ (!drawsNonce 3 c || c.scratch.headD 0 = 2) = true := by simp [drawsNonce, hiv, hfresh]
  simp only [nonceDraw, if_neg hdue, hdraw]

/-- `AEAD_SEAL` without an IV, admitted: it is handed to a lane with the nonce value it draws (R332). -/
theorem begin_seals {c : Cmd} {id n : Nat} {body : Cmd → State → State} {s u : State} (hget : cmdGet id s = some c)
    (hcode : c.opcode.toNat = 0x2003) (hfresh : c.scratch = []) (hiv : c.ivIn = false) (hunits : unitList c s ≠ [])
    (hdraw : drawNonce s = .ok n u) : begin (cipherSpec 3) c body s = startCmd { c with scratch := [2, n] } u := by
  have hstands : cmdGet c.id u = some c := by rw [cmdGet_congr (drawNonce_cmdif hdraw), cmdGet_id hget, hget]
  have hneeds : c.needsUnit = true := by simp [Cmd.needsUnit, Cmd.cls, hcode]
  exact begin_starts (fun _ => hunits) (nonceDraw_seals hiv hfresh hdraw) hstands (.inl hneeds)

/-! ### Unwrapping -/

/-- Wrapped bytes that open to a plaintext that fits `DST` are answered with it (R329, R169). -/
theorem unwrapBody_opens {c : Cmd} {pt : List Byte} {s : State} (hopens : (if c.cMode = 0x30 then
      kwUnwrap (laneAlg c s) (laneKey c s) c.data else kwpUnwrap (laneAlg c s) (laneKey c s) c.data) = some pt)
    (hfits : pt.length ≤ c.dstLen) : unwrapBody c s = cipherEnd 8 c (Ending.out pt) s := by
  simp only [unwrapBody, hopens, needDst_fits hfits, Option.getD_none]

/-! ### Cipher commands -/

/-- Settles O37: each command is `runOp`'s body (`next_runOp_of_runs`), whose branch its mode and prefix select; an admitted `AEAD_SEAL`
draws its nonce value as it is handed to a lane (`begin_seals`). -/
theorem cipherCommandsComplete : Obligations.CipherCommandsComplete := by
  unfold Obligations.CipherCommandsComplete
  intro id c s
  dsimp only
  refine ⟨fun h => ?encrypt, fun h => ?decrypt, ⟨?sealGiven, ?sealDrawn⟩, ?sealDraws, next_runOp_of_runs, next_runOp_of_runs,
    next_runOp_of_runs, next_runOp_of_runs, ?unwrap⟩
  case encrypt =>
    have hbody : exec (.symEncrypt id) s = .next (encryptBody c s) := next_runOp_of_runs h
    refine ⟨?ecb, ?cbc, ?ctr, ?cbcDrawn, ?ctrDrawn, ?xts⟩
    case ecb =>
      intro hmode
      simp only [hbody, encryptBody, hmode, if_true]
    case cbc =>
      intro hmode hiv
      simp only [hbody, encryptBody, hmode, hiv, Nat.reduceEqDiff, if_true, if_false]
    case ctr =>
      intro hmode hiv hfits
      simp only [hbody, encryptBody, hmode, hiv, hfits, Bool.false_eq_true, Nat.reduceEqDiff, if_true, if_false]
    case cbcDrawn =>
      intro iv u hmode hiv hdraw
      simp only [hbody, encryptBody, hmode, hiv, withIv_drawn hdraw, Bool.false_eq_true, Nat.reduceEqDiff, if_true, if_false]
    case ctrDrawn =>
      intro hmode hiv
      simp only [hbody, encryptBody, hmode, hiv, Bool.false_eq_true, Nat.reduceEqDiff, if_true, if_false]
    case xts =>
      intro hmode
      simp only [hbody, encryptBody, hmode, Nat.reduceEqDiff, if_false]
  case decrypt =>
    have hbody : exec (.symDecrypt id) s = .next (decryptBody c s) := next_runOp_of_runs h
    refine ⟨?ecb, ?cbc, ?ctr, ?xts⟩
    case ecb =>
      intro hmode
      simp only [hbody, decryptBody, hmode, if_true]
    case cbc =>
      intro hmode
      simp only [hbody, decryptBody, hmode, Nat.reduceEqDiff, if_true, if_false]
    case ctr =>
      intro hmode hfits
      simp only [hbody, decryptBody, hmode, hfits, Bool.false_eq_true, Nat.reduceEqDiff, if_true, if_false]
    case xts =>
      intro hmode
      simp only [hbody, decryptBody, hmode, Nat.reduceEqDiff, if_false]
  case sealGiven => exact fun h hiv => (next_runOp_of_runs h).trans (congrArg Host.Outcome.next (if_pos hiv))
  case sealDrawn =>
    exact fun h hiv => (next_runOp_of_runs h).trans (congrArg Host.Outcome.next (if_neg (Bool.eq_false_iff.mp hiv)))
  case sealDraws =>
    intro n u hget hcode hphase hfresh hiv hkeys hunits hdraw
    change execAeadSeal id s = _
    rw [execAeadSeal, runOp_admitted hget hcode hphase hkeys, begin_seals hget hcode hfresh hiv hunits hdraw]
  case unwrap =>
    intro pt h hopens hfits
    exact (next_runOp_of_runs h).trans (congrArg Host.Outcome.next (unwrapBody_opens hopens hfits))

end Sys2Proof.Machine
end

section
/-! PROOFS. Family 10_public_key: the public-key commands (O39). -/
namespace Sys2Proof.Machine
open Sys2Proof.Stated

/-! ### What an operation takes: its random bytes and its core -/

/-- KEY-class output that is there at once is what the operation uses (R361). -/
theorem pkeDraw_drawn {c : Cmd} {n : Nat} {bytes : List Byte} {s u : State} {k : List Byte → State → State}
    (hdraw : drawKey n [] s = .ok bytes u) : pkeDraw c n s k = k bytes u := by simp only [pkeDraw, hdraw]

/-- A core that passes its check releases the result (R363). -/
@[simp] theorem onCore_ok (c : Cmd) (s : State) (k : State → State) : onCore c .ok s k = k s := rfl

@[simp] theorem runOf_false : runOf false = .ok := rfl

/-! ### Signatures and key pairs -/

/-- A signature whose scheme takes no random bytes is made at once. -/
theorem signBody_undrawn {c : Cmd} {s : State} (hrnd : signRnd c (schemeOf c s) s = 0) :
    signBody .ok c s = pkeEnd c (Ending.out (signature c (schemeOf c s) [] s)) s := if_pos hrnd

theorem signBody_drawn {c : Cmd} {rnd : List Byte} {s u : State} (hrnd : signRnd c (schemeOf c s) s ≠ 0)
    (hdraw : drawKey (signRnd c (schemeOf c s) s) [] s = .ok rnd u) :
    signBody .ok c s = pkeEnd c (Ending.out (signature c (schemeOf c s) rnd u)) u := (if_neg hrnd).trans (pkeDraw_drawn hdraw)

/-- A key pair asks for one slot, and for a second one where its public record is kept too. -/
theorem keypairSlots_length (c : Cmd) (x y : SlotReq) :
    ([x] ++ (if pubRecord c then [y] else [])).length = if pubRecord c then 2 else 1 := by
  cases pubRecord c <;> rfl

/-! ### Public-key commands -/

/-- Settles O39: each command is `runOp`'s body; its slots are held (`withSlots_held`), its random bytes drawn (`pkeDraw_drawn`), and a core
that passes its check releases what the body computes. -/
theorem publicKeyCommandsComplete : Obligations.PublicKeyCommandsComplete := by
  unfold Obligations.PublicKeyCommandsComplete
  intro id c s
  dsimp only
  refine ⟨?sign, ?signDrawn, next_runOp_of_runs, ?keypair, ?ecdh, ?encapsulate, ?decapsulate, ?encrypt, ?decrypt⟩
  case sign => exact fun h hrnd => (next_runOp_of_runs h).trans (congrArg Host.Outcome.next (signBody_undrawn hrnd))
  case signDrawn =>
    exact fun rnd u h hrnd hdraw => (next_runOp_of_runs h).trans (congrArg Host.Outcome.next (signBody_drawn hrnd hdraw))
  case keypair =>
    intro rnd u m h hslots hdraw hmaterial
    change execPkKeypairGenerate id .ok s = _
    rw [execPkKeypairGenerate, next_runOp_of_runs h, keypairBody, withSlots_held hslots (keypairSlots_length c _ _), pkeDraw_drawn hdraw,
      onCore_ok, withNewKey_found hmaterial]
  case ecdh =>
    intro z h hslots hsecret
    change execEcdhDerive id .ok s = _
    rw [execEcdhDerive, next_runOp_of_runs h, withSlots_held hslots rfl]
    simp only [hsecret, onCore_ok]
  case encapsulate =>
    intro m u h hslots hdraw
    change execKemEncapsulate id false s = _
    rw [execKemEncapsulate, next_runOp_of_runs h, withSlots_held hslots rfl, pkeDraw_drawn hdraw, runOf_false, onCore_ok]
  case decapsulate =>
    intro h hslots
    change execKemDecapsulate id false s = _
    rw [execKemDecapsulate, next_runOp_of_runs h, withSlots_held hslots rfl, runOf_false, onCore_ok]
  case encrypt =>
    intro seed u h hdraw
    change execRsaEncrypt id false s = _
    rw [execRsaEncrypt, next_runOp_of_runs h, pkeDraw_drawn hdraw, runOf_false, onCore_ok]
  case decrypt =>
    intro m h hrange hopens hfits
    change execRsaDecrypt id .ok s = _
    rw [execRsaDecrypt, next_runOp_of_runs h]
    simp only [onCore_ok, if_neg (Nat.not_le.mpr hrange), hopens, needDst_fits hfits, Option.getD_none]

end Sys2Proof.Machine
end

section
/-! PROOFS. Family 11_entropy: reads of the noise block (O18), its commands and events (O40). -/
namespace Sys2Proof.Machine
open Sys2Proof.Stated

/-! ### Reads of the noise block -/

theorem submit_reaches {r : Requester} {s : State} (h : Reaches r s) (a : CsrAccess) : submit r a s = access r s a :=
  if_neg (Bool.eq_false_iff.mp h.2)

/-- Above the port block R87 bars either all reads of a requester or none. -/
theorem readBarred_high {r : Requester} {a b : Nat} {s : State} (ha : 0x20000 ≤ a) (hb : 0x20000 ≤ b) :
    readBarred r a s = readBarred r b s := by
  simp only [readBarred, ha, hb]

/-- A read of `RNG_x_EST0` latches the four other estimate words (R373). -/
theorem csrRead_estimates {r : Requester} {key : Nat} {s : State} (hkey : key = 0x8044 ∨ key = 0x8064)
    (hbarred : readBarred r (keyAddr key) s = false) (hunlatched : latched r key s = none) :
    csrRead r none (keyAddr key) .b32 0 s =
      answer r key 4 0 ((csrNow r key s).setWidth 64) (latch r [key + 4, key + 8, key + 12, key + 16] s) := by
  obtain ⟨halign, hbelow, hdecodes, hdata⟩ :
      keyAddr key % 4 = 0 ∧ keyAddr key < 0x100000 ∧ csrKey (keyAddr key) = key ∧ key ≠ 0x8020 := by
    obtain rfl | rfl := hkey <;> decide
  obtain ⟨hseen, hrawA, hrawB, hhighs, htop⟩ : key ∉ unseenCounters ∧ key ≠ 0x8180 ∧ key ≠ 0x8184 ∧
      wideHighs key = [key + 4, key + 8, key + 12, key + 16] ∧ wideTop key = [] := by
    obtain rfl | rfl := hkey <;> decide
  rw [csrRead_word hbarred halign hbelow (by rwa [hdecodes]), hdecodes, csrRead32_register hseen hrawA hrawB]
  simp only [hunlatched, hhighs, htop, Option.getD_none, List.isEmpty_nil, List.isEmpty_cons, Bool.false_eq_true, if_true, if_false]

theorem exec_rngData_reaches {r : Requester} {s : State} (h : Reaches r s) (hbarred : readBarred r 0x80020 s = false) (wide : Bool) :
    exec (.rngData r wide) s = .next (rngDataRead r 0 (if wide then 8 else 4) 0 s) := by
  change execRngData r wide s = _
  rw [execRngData, if_pos h.1, submit_reaches h]
  cases wide <;> simp [access, csrRead, widthBytes, csrKey, hbarred]

/-- A word of the requester's buffer, while the KEY class delivers (R388). -/
theorem rngWord_buffered {r : Requester} {w : Word} {ws : List Word} {s : State} (hrunning : s.rng.stopped = false)
    (hmode : (isHost r && class5Forbidden s.dev.mode) = false) (hready : keyReady s = true)
    (hbuf : assocGet (reqCode r) s.rng.bufs = some (w :: ws)) :
    rngWord r s = .ok w (s.modRng fun g => { g with bufs := assocSet (reqCode r) (some ws) g.bufs }) := by
  simp only [rngWord, hrunning, hmode, hbuf, hready, Option.getD_some, Bool.or_self, Bool.false_eq_true, if_true, if_false]

/-- An empty buffer is filled by one request of 256 bits, whose first word is answered (R388). -/
theorem rngWord_refilled {r : Requester} {bytes : List Byte} {s u : State} (hrunning : s.rng.stopped = false)
    (hmode : (isHost r && class5Forbidden s.dev.mode) = false) (hbuf : (assocGet (reqCode r) s.rng.bufs).getD [] = [])
    (hdraw : drawKey 32 [] s = .ok bytes u) :
    let ws := (chunks 4 bytes).map fun b => BitVec.ofNat 32 (leNat b)
    rngWord r s = .ok (ws.headD 0) (u.modRng fun g => { g with bufs := assocSet (reqCode r) (some (ws.drop 1)) g.bufs }) := by
  simp only [rngWord, hrunning, hmode, hbuf, hdraw, Bool.or_self, Bool.false_eq_true, if_false]

theorem rngDataRead_word {r : Requester} {w : Word} {s u : State} (h : rngWord r s = .ok w u) :
    rngDataRead r 0 4 0 s = answer r 0x8020 4 0 (w.setWidth 64) u := by
  simp only [rngDataRead, h, Nat.le_refl, if_true, Nat.add_zero, wordBytes_word]

/-- A 64-bit read takes two consecutive words, the first in the low half (R389). -/
theorem rngDataRead_pair {r : Requester} {w h : Word} {s u t : State} (hlow : rngWord r s = .ok w u) (hhigh : rngWord r u = .ok h t) :
    rngDataRead r 0 8 0 s = answer r 0x8020 8 0 (h ++ w) t := by
  simp only [rngDataRead, hlow, hhigh, Nat.reduceLeDiff, if_false]

/-- Settles O18: each read reaches the CSR space with no read of its requester waiting (`submit_reaches`); an estimate word is one
register with its latch (`csrRead_estimates`), `RNG_DATA` gives what `rngWord` gives. -/
theorem noiseReadsComplete : Obligations.NoiseReadsComplete := by
  unfold Obligations.NoiseReadsComplete
  intro r x raw s hreaches hbarred
  dsimp only
  refine ⟨?estimates, ?buffered, ?refilled, ?pair, ?raw⟩
  case estimates =>
    intro hunlatched
    have hopen {a : Nat} (ha : 0x20000 ≤ a) : readBarred r a s = false := (readBarred_high ha (by decide)).trans hbarred
    change execEstLatch r x s = _
    unfold execEstLatch
    rw [if_pos hreaches.1, submit_reaches hreaches]
    cases x with
    | a => exact congrArg Host.Outcome.next (csrRead_estimates (.inl rfl) (hopen (by decide)) hunlatched)
    | b => exact congrArg Host.Outcome.next (csrRead_estimates (.inr rfl) (hopen (by decide)) hunlatched)
  case buffered =>
    rintro w ws ⟨hrunning, hmode, hready⟩ hbuf
    exact (exec_rngData_reaches hreaches hbarred false).trans
      (congrArg Host.Outcome.next (rngDataRead_word (rngWord_buffered hrunning hmode hready hbuf)))
  case refilled =>
    rintro bytes u ⟨hrunning, hmode, -⟩ hbuf hdraw
    have hempty : (assocGet (reqCode r) s.rng.bufs).getD [] = [] := by rw [hbuf, Option.getD_none]
    exact (exec_rngData_reaches hreaches hbarred false).trans
      (congrArg Host.Outcome.next (rngDataRead_word (rngWord_refilled hrunning hmode hempty hdraw)))
  case pair =>
    intro w u h t hlow hhigh
    exact (exec_rngData_reaches hreaches hbarred true).trans (congrArg Host.Outcome.next (rngDataRead_pair hlow hhigh))
  case raw =>
    change execRngRawRead r x raw s = _
    cases x <;> simp [execRngRawRead, hreaches.1, hreaches.2]

/-! ### What leaves the noise sources as they are -/

theorem src_of_sources {s t : State} (ha : t.rng.a = s.rng.a) (hb : t.rng.b = s.rng.b) (y : Side) : t.src y = s.src y := by
  cases y with
  | a => exact ha
  | b => exact hb

theorem src_of_rng {s t : State} (h : t.rng = s.rng) (y : Side) : t.src y = s.src y :=
  src_of_sources (congrArg Rng.a h) (congrArg Rng.b h) y

theorem modSrc_src_other (x : Side) (f : NoiseSrc → NoiseSrc) (s : State) :
    (s.modSrc x f).src (otherSide x) = s.src (otherSide x) := by
  cases x <;> rfl

@[simp] theorem windowFail_src_other (x : Side) (s : State) : (windowFail x s).src (otherSide x) = s.src (otherSide x) :=
  modSrc_src_other x _ s

@[simp] theorem postEvt_src (r : Rings) (code : Nat) (d0 : Word) (d1 : BitVec 128) (s : State) (y : Side) :
    (postEvt r code d0 d1 s).src y = s.src y :=
  src_of_rng ((postEvt_keeps (Sub.refl _) (Keeps.refl _ s)).parts .rng rfl) y

@[simp] theorem healthEvt_src (x : Side) (test : Nat) (s : State) (y : Side) : (healthEvt x test s).src y = s.src y :=
  postEvt_src _ _ _ _ s y

@[simp] theorem rngErr_src (n : Nat) (s : State) (y : Side) : (rngErr n s).src y = s.src y :=
  src_of_rng ((rngErr_keeps (Sub.refl _) (Keeps.refl _ s)).parts .rng rfl) y

@[simp] theorem bumpField_src (k lo top : Nat) (s : State) (y : Side) : (bumpField k lo top s).src y = s.src y :=
  src_of_rng ((bumpField_keeps (Sub.refl _) (Keeps.refl _ s)).parts .rng rfl) y

@[simp] theorem maskFail_src (test : Nat) (s : State) (y : Side) : (maskFail test s).src y = s.src y := bumpField_src _ _ _ s y

@[simp] theorem answer_src (r : Requester) (addr n tag : Nat) (v : BitVec 64) (s : State) (y : Side) :
    (answer r addr n tag v s).src y = s.src y :=
  src_of_rng ((answer_keeps (Sub.refl _) (Keeps.refl _ s)).parts .rng rfl) y

@[simp] theorem finishAll_src (p : Cmd → Bool) (st : Status) (s : State) (y : Side) : (finishAll p st s).src y = s.src y :=
  src_of_rng ((finishAll_keeps (Sub.refl _) (Keeps.refl _ s)).parts .rng rfl) y

/-- A request of the KEY class is the DRBG's work: no block leaves a source (R384). -/
theorem drawKey_src (n : Nat) (add : List Byte) (s : State) (y : Side) : Draw.All (fun u => u.src y = s.src y) (drawKey n add s) := by
  unfold drawKey
  split
  next => exact rfl
  next =>
    split
    next => exact rfl
    next =>
      split
      next => exact src_of_sources rfl rfl y
      next => exact src_of_sources rfl rfl y

theorem rngWord_src (r : Requester) (s : State) (y : Side) : WordAns.All (fun u => u.src y = s.src y) (rngWord r s) := by
  have hdrawn := drawKey_src 32 [] s y
  unfold rngWord
  split
  next => exact rngErr_src 5 s y
  next =>
    dsimp only
    split
    next =>
      split
      next => exact src_of_sources rfl rfl y
      next => exact rfl
    next =>
      split
      next hok => exact (src_of_sources rfl rfl y).trans (Draw.out_ok hok hdrawn)
      next hwait => exact Draw.out_wait hwait hdrawn
      next hstopped => exact (rngErr_src 5 _ y).trans (Draw.out_stopped hstopped hdrawn)

@[simp] theorem rngDataRead_src (r : Requester) (off n tag : Nat) (s : State) (y : Side) : (rngDataRead r off n tag s).src y = s.src y := by
  have hfirst := rngWord_src r s y
  unfold rngDataRead
  dsimp only
  split
  next hzero => exact (answer_src ..).trans (WordAns.out_zero hzero hfirst)
  next hwait => exact (src_of_sources rfl rfl y).trans (WordAns.out_wait hwait hfirst)
  next u hok =>
    have hsecond := rngWord_src r u y
    have hkept := WordAns.out_ok hok hfirst
    split
    next => exact (answer_src ..).trans hkept
    next =>
      split
      next hok' => exact (answer_src ..).trans ((WordAns.out_ok hok' hsecond).trans hkept)
      next => exact src_of_sources rfl rfl y

@[simp] theorem e7Serve_src (consumer : Nat) (s : State) (y : Side) : (e7Serve consumer s).src y = s.src y := by
  have hdrawn := drawKey_src 16 [] s y
  unfold e7Serve
  split
  next hok => exact (src_of_sources rfl rfl y).trans (Draw.out_ok hok hdrawn)
  next hwait => exact (src_of_sources rfl rfl y).trans (Draw.out_wait hwait hdrawn)
  next hstopped => exact (src_of_sources rfl rfl y).trans (Draw.out_stopped hstopped hdrawn)

@[simp] theorem serveOne_src (s : State) (n : Nat) (y : Side) : (serveOne s n).src y = s.src y := by
  have hturn : (s.modRng fun g => { g with turn := n }).src y = s.src y := src_of_sources rfl rfl y
  unfold serveOne
  dsimp only
  split
  next => exact (rngDataRead_src ..).trans ((src_of_sources rfl rfl y).trans hturn)
  next =>
    split
    next => exact (e7Serve_src ..).trans hturn
    next => exact hturn

@[simp] theorem serveWaiters_src (s : State) (y : Side) : (serveWaiters s).src y = s.src y := by
  unfold serveWaiters
  refine List.foldlRecOn (motive := fun u : State => u.src y = s.src y) _ _ rfl fun u hu n _ => ?_
  split
  next => exact (serveOne_src u n y).trans hu
  next => exact hu

@[simp] theorem moveKey_src (x : Side) (s : State) (y : Side) : (moveKey x s).src y = s.src y :=
  calc (moveKey x s).src y
    _ = _ := postEvt_src _ _ _ _ _ y
    _ = _ := rngErr_src 2 _ y
    _ = s.src y := src_of_sources rfl rfl y

@[simp] theorem stopKey_src (s : State) (y : Side) : (stopKey s).src y = s.src y :=
  calc (stopKey s).src y
    _ = _ := serveWaiters_src _ y
    _ = _ := finishAll_src _ _ _ y
    _ = _ := postEvt_src _ _ _ _ _ y
    _ = _ := rngErr_src 3 _ y
    _ = s.src y := src_of_sources rfl rfl y

/-- A failure of one source leaves the other as it is: the KEY class moves or stops, but takes no block (R378, R381). -/
theorem healthFail_src_other (x : Side) (test : Nat) (s : State) : (healthFail x test s).src (otherSide x) = s.src (otherSide x) := by
  simp only [healthFail, apply_ite (fun t : State => t.src (otherSide x)), modSrc_src_other, bumpField_src, windowFail_src_other,
    maskFail_src, healthEvt_src, rngErr_src, moveKey_src, stopKey_src, ite_self]

/-! ### The events of the sources -/

/-- Under main power an event of the generator acts, and what waited behind a returned read goes on (R389). -/
theorem rngRow_on {f : State → State} {s t : State} (h : s.dev.mainOn = true) (hf : f s = t) : rngRow f s = .next (drainBehind t) :=
  congrArg Host.Outcome.next ((onMain_on h).trans (congrArg drainBehind hf))

/-- The failures of a source's last bit are taken up. -/
def clearFailed (x : Side) (s : State) : State := s.modSrc x fun q => q.modHealth fun h => { h with failed := [] }

theorem actFails_none {x : Side} {s : State} (h : (s.src x).health.failed = []) : actFails x s = clearFailed x s := by
  rw [actFails, h]
  rfl

theorem actFails_one {x : Side} {n : Nat} {s : State} (h : (s.src x).health.failed = [n]) :
    actFails x s = healthFail x n (clearFailed x s) := by
  rw [actFails, h]
  rfl

/-- A failure of source A alone: its handling leaves source B with none (R382). -/
theorem healthRow_failureA {n : Nat} {s : State} (ha : (s.src .a).health.failed = [n]) (hb : (s.src .b).health.failed = []) :
    healthRow s = resumeBits .b (resumeBits .a (clearFailed .b (healthFail .a n (clearFailed .a s)))) := by
  have hstill : (healthFail .a n (clearFailed .a s)).src .b = s.src .b :=
    (healthFail_src_other .a n _).trans (modSrc_src_other .a _ s)
  rw [healthRow, actFails_one ha, actFails_none (by rwa [hstill])]

theorem healthRow_failureB {n : Nat} {s : State} (ha : (s.src .a).health.failed = []) (hb : (s.src .b).health.failed = [n]) :
    healthRow s = resumeBits .b (resumeBits .a (healthFail .b n (clearFailed .b (clearFailed .a s)))) := by
  have hstill : (clearFailed .a s).src .b = s.src .b := modSrc_src_other .a _ s
  rw [healthRow, actFails_none ha, actFails_one (by rwa [hstill])]

@[simp] theorem regMask_rng (k : Nat) (m v : Word) (s : State) : (regMask k m v s).rng = s.rng := rfl

@[simp] theorem regGet_modSrc (k : Nat) (x : Side) (f : NoiseSrc → NoiseSrc) (s : State) : regGet k (s.modSrc x f) = regGet k s := rfl

@[simp] theorem modSrc_stopped (x : Side) (f : NoiseSrc → NoiseSrc) (s : State) : (s.modSrc x f).rng.stopped = s.rng.stopped := by
  cases x <;> rfl

theorem inTest_inService {q : NoiseSrc} (h : q.st = .inService) : q.inTest = false := by
  simp only [NoiseSrc.inTest, h]
  decide

theorem inTest_testing {q : NoiseSrc} (h : q.st = .starting ∨ q.st = .retesting) : q.inTest = true := by
  obtain h | h := h <;> simp only [NoiseSrc.inTest, h] <;> decide

/-- `RANDOM_BYTES` in form 0 is one request of the KEY class (R393). -/
theorem randomBody_drawn {c : Cmd} {bytes : List Byte} {s u : State} (hform : c.form = 0) (hdraw : drawKey c.dstLen [] s = .ok bytes u) :
    randomBody c s = finish c (Ending.out bytes) u := by
  have hplain : c.form ≠ 1 := by rw [hform]; decide
  simp only [randomBody, hplain, hdraw, false_and, if_false]

/-- Settles O40: with main power on each row acts (`rngRow_on`, `onMain_on`), and the clause's conditions select its branch; a failure of
source A leaves source B's failures as they are (`healthRow_failureA`). -/
theorem noiseEventsComplete : Obligations.NoiseEventsComplete := by
  unfold Obligations.NoiseEventsComplete
  intro id c x s hmain
  dsimp only
  refine ⟨?randomBytes, next_runOp_of_runs, ?gather, fun hst hpos => ?window, ⟨?failsA, ?failsB⟩, fun hst hwindows => ?startup,
    ?starts, ?resumes, ?reseeds, ?fallback, ?rekey, ?wires⟩
  case randomBytes =>
    intro bytes u h hform hdraw
    change execRandomBytes id s = _
    rw [execRandomBytes, next_runOp_of_runs h, randomBody_drawn hform hdraw]
  case gather =>
    intro raw hst
    change execGatherBlock x raw s = _
    rw [execGatherBlock, onMain_on hmain, if_neg hst]
  case window =>
    have hserves := inTest_inService hst
    have hexec : exec (.estimateWindowEnd x) s = .next (drainBehind (windowRow x s)) := rngRow_on hmain rfl
    simp only [hexec, windowRow, hst, hpos, hserves, reduceCtorEq, ne_eq, not_true_eq_false, or_self, Bool.false_eq_true, if_false]
    refine ⟨?credited, ?bad, ?failing⟩
    case credited =>
      intro hgood hbad
      simp only [hgood, hbad, Bool.false_eq_true, if_false]
    case bad =>
      intro hgood hbad
      simp only [hgood, hbad, if_true]
    case failing =>
      intro n hfails
      simp only [hfails]
  case failsA => exact fun n ha hb => rngRow_on hmain (healthRow_failureA ha hb)
  case failsB => exact fun n ha hb => rngRow_on hmain (healthRow_failureB ha hb)
  case startup =>
    have hexec : exec (.startupTestDone x) s = .next (drainBehind (startupRow x s)) := rngRow_on hmain rfl
    simp only [hexec, startupRow, inTest_testing hst, hwindows, decide_true, Bool.and_self, if_true]
    refine ⟨?passes, ?retests, ?retires⟩
    case passes =>
      intro htest hrunning
      simp only [htest, hrunning, regMask_rng, modSrc_stopped, Bool.not_false, Bool.false_eq_true, if_true, if_false]
    case retests =>
      intro htest hfirst
      simp only [htest, regGet_modSrc, hfirst, Bool.not_true, Bool.false_eq_true, Nat.reduceAdd, Nat.reduceLeDiff,
        Nat.min_eq_left (Nat.le_succ 1), BitVec.ofNat_eq_ofNat, if_false]
    case retires =>
      intro htest hsecond
      simp only [htest, regGet_modSrc, hsecond, Bool.not_true, Bool.false_eq_true, Nat.reduceAdd, Nat.le_refl, Nat.min_self,
        BitVec.ofNat_eq_ofNat, if_true, if_false]
  case starts =>
    intro hinst hrunning hstarted hready
    refine rngRow_on hmain ?_
    simp only [instantiateRow, hinst, hrunning, hstarted, hready, Bool.false_eq_true, if_true, if_false]
  case resumes =>
    intro y hinst hrunning hstarted hsrc hblocks
    refine rngRow_on hmain ?_
    simp only [instantiateRow, hinst, hrunning, hstarted, hsrc, hblocks, Bool.false_eq_true, if_true, if_false]
  case reseeds => exact fun hwanted => rngRow_on hmain (if_pos hwanted)
  case fallback =>
    intro y hsrc hother hunset hroom
    change execMaskFallback s = _
    simp only [execMaskFallback, onMain_on hmain, hsrc, hunset, hother, hroom, Bool.false_eq_true, or_self, if_true, if_false]
  case rekey =>
    intro core short hstarted hasks hblock
    have hturn : (s.rng.asks.isEmpty || s.rng.asks.head? == some core.val) = true := by
      simpa only [Bool.or_eq_true, List.isEmpty_iff, beq_iff_eq] using hasks
    change execExpanderRekey core short s = _
    simp only [execExpanderRekey, onMain_on hmain, hstarted, hturn, Bool.not_true, Bool.or_self, Bool.false_eq_true, if_false,
      if_pos hblock]
  case wires =>
    intro n bytes u hdraw
    change execE7Req n s = _
    simp only [execE7Req, onMain_on hmain, e7Serve, hdraw]

end Sys2Proof.Machine
end

section
/-! PROOFS. Family 12_cistern_ledger: the Cistern's commands (O41), the ledger's messages and times (O42), the mesh ports' events (O43). -/
namespace Sys2Proof.Machine
open Sys2Proof.Stated

/-! ### The mesh ports -/

/-- An update of a mesh port is what it makes of the port that is there. -/
theorem meshMod_congr {n : Nat} {f g : MeshPort → MeshPort} {p : MeshPort} {s : State} (hp : meshGet n s = some p) (h : f p = g p) :
    meshMod n f s = meshMod n g s := by
  have hports : (s.cistern.ports.mapIdx fun i q => if i = n then f q else q) =
      s.cistern.ports.mapIdx fun i q => if i = n then g q else q := by
    refine List.ext_getElem (by simp only [List.length_mapIdx]) fun i _ _ => ?_
    simp only [List.getElem_mapIdx]
    split
    next hi =>
      obtain ⟨_, hq⟩ := List.getElem?_eq_some_iff.mp (hi ▸ hp : s.cistern.ports[i]? = some p)
      rw [hq, h]
    next => rfl
  simp only [meshMod, State.modCistern, hports]

/-- An attempt before the third in succession is only counted (R397). -/
theorem meshTrainFail_counted {n : Nat} {p : MeshPort} {s : State} (hp : meshGet n s = some p) (htraining : p.training = true)
    (hfails : p.fails < 2) : meshTrainFail n s = meshMod n (fun q => { q with fails := p.fails + 1 }) s := by
  have hagain : p.fails + 1 < 3 := by omega
  simp only [meshTrainFail, hp, htraining, hagain, Bool.not_true, Bool.false_eq_true, if_false, if_true]
  exact meshMod_congr hp rfl

/-- A frame unacknowledged for less than eight resends is sent again with all that are (R400). -/
theorem resendFrames_again {n : Nat} {p : MeshPort} {u : Nat × Frame} {s : State} (hp : meshGet n s = some p)
    (holdest : p.unacked.getLast? = some u) (hresends : p.resends < 8) :
    resendFrames n s = bump 0x9110 p.unacked.length (meshMod n (fun p => { putWire u.1 u.2 p with resends := p.resends + 1 }) s) := by
  simp only [resendFrames, hp, holdest, if_neg (Nat.not_le.mpr hresends)]

/-- A frame of an open session that is in order and for this device or its neighbour is counted, acknowledges, and is delivered (R399 to
R401, R408). -/
theorem exec_weperFrameReceive_inOrder {n : Fin 4} {p : MeshPort} {b : List Byte} {m : Msg} {s : State} (hp : meshGet n.val s = some p)
    (hsession : p.session = true) (htraining : p.training = false) (htag : tagVerifies p.rxKey b = true)
    (hlow : 2 ≤ (frameHdr b).ftype) (hhigh : (frameHdr b).ftype ≤ 4) (hepoch : (frameHdr b).epoch = p.epoch)
    (hseq : (frameHdr b).fseq = p.rxSeq) :
    let h := frameHdr b
    let t := frameAcks n.val h (meshMod n.val (fun p => { p with
      rxSeq := p.rxSeq + 1, crdOut := (p.crdOut + 1) % 65536, nakDue := false }) (bump64 0x9108 1 s))
    (0x8000 ≤ h.dst ∨ h.dst % 2 ^ 14 = ownDdn t) →
      exec (.weperFrameReceive n b m) s = .next (deliver n.val (h.src % 2 ^ 14) m t) := by
  intro h t hmine
  have hsealed : ¬ (!p.session || p.training || h.ftype == 1) = true := by
    have hkind : (h.ftype == 1) = false := beq_eq_false_iff_ne.mpr (Nat.ne_of_gt hlow)
    simp only [hsession, htraining, hkind, Bool.not_true, Bool.or_self, Bool.false_eq_true, not_false_eq_true]
  have horder : ¬ (h.epoch ≠ p.epoch ∨ h.fseq ≠ p.rxSeq) := not_or.mpr ⟨not_not_intro hepoch, not_not_intro hseq⟩
  have hcarries : ¬ (h.ftype = 0 ∨ 4 < h.ftype) := not_or.mpr ⟨Nat.ne_of_gt (Nat.lt_of_succ_lt hlow), Nat.not_lt.mpr hhigh⟩
  change execWeperFrameReceive n b m s = _
  simp only [execWeperFrameReceive, hp]
  refine congrArg Host.Outcome.next
    ((if_neg hsealed).trans ((if_neg ?verified).trans ((if_neg horder).trans ((if_neg hcarries).trans (if_pos hmine)))))
  case verified => simp only [htag, Bool.not_true, Bool.false_eq_true, not_false_eq_true]

/-- Settles O43: each clause's conditions select one branch of its event's row; a frame in order passes the row's tests one by one
(`exec_weperFrameReceive_inOrder`). -/
theorem meshEventsComplete : Obligations.MeshEventsComplete := by
  unfold Obligations.MeshEventsComplete
  intro n p s hp
  dsimp only
  refine ⟨?trained, ?timeout, ?init, ?response, ?confirm, ?replace, ?frame, ?badTag, ?resend⟩
  case trained =>
    intro first htraining
    change execMeshTrainingDone n true first s = _
    simp only [execMeshTrainingDone, hp, htraining, Bool.not_true, Bool.false_eq_true, if_false]
    cases p.session with
    | true => simp only [Bool.not_true, Bool.and_false, Bool.false_eq_true, if_false, if_true]
    | false => simp only [Bool.not_false, Bool.and_true, Bool.false_eq_true, if_false]
  case timeout => exact fun htraining hfails => congrArg Host.Outcome.next (meshTrainFail_counted hp htraining hfails)
  case init =>
    intro cap cert htrained
    change execSessionInit n cap cert s = _
    simp only [execSessionInit, hp, htrained, Bool.not_true, Bool.false_eq_true, if_false]
  case response =>
    intro cap cert c report hsent hpasses
    change execSessionResponse n cap cert report s = _
    simp only [execSessionResponse, hp, hpasses]
    rw [if_neg (not_not_intro hsent)]
  case confirm =>
    intro c report hsent hcert
    change execSessionConfirm n true report s = _
    simp only [execSessionConfirm, hp, hcert, if_true]
    rw [if_neg (not_not_intro hsent)]
  case replace =>
    intro hsession hdue
    change execSessionReplace n true s = _
    simp only [execSessionReplace, hp, hsession, hdue, Bool.and_self, if_true]
  case frame => exact fun b m => exec_weperFrameReceive_inOrder hp
  case badTag =>
    intro b m hsession htraining hkind htag
    change execWeperFrameReceive n b m s = _
    simp only [execWeperFrameReceive, hp, hsession, htraining, beq_eq_false_iff_ne.mpr hkind, htag, Bool.not_true, Bool.not_false,
      Bool.or_self, Bool.false_eq_true, if_false, if_true]
  case resend =>
    intro u holdest htraining hresends
    change execFrameResendTimeout n s = _
    simp only [execFrameResendTimeout, hp, htraining, Bool.false_eq_true, if_false, resendFrames_again hp holdest hresends]

/-! ### The ledger's messages and times -/

/-- A statement that the keeper has room for, and that is new and not void, is kept and waits for its segment (R415). -/
theorem keepStmt_accepted {st : Stmt} {k : Kept} {s : State}
    (hkept : keptGet st.ddn s = some k ∨ (keptGet st.ddn s = none ∧ keptCount s < 8 ∧ k = ⟨st.ddn, 0, [], [], [], [], [], []⟩))
    (hnew : (keptGet st.ddn s).isSome → k.lsq < st.lsq) (hverdict : assocGet st.lsq k.verdicts = none) (hvoids : k.voidsStmt st = false) :
    let r := archiveSync .statement (.kept (k.after st)) (keptSet (k.after st) s)
    keepStmt st s = r.2.modCistern fun c => { c with keptWait := c.keptWait ++ [(st.ddn, st.lsq, r.1)] } := by
  obtain hkept | ⟨hnone, hroom, rfl⟩ := hkept
  · have hlater : ¬ st.lsq ≤ k.lsq := Nat.not_le.mpr (hnew (by simp only [hkept, Option.isSome_some]))
    simp only [keepStmt, hkept, hverdict, hvoids, hlater, Bool.false_eq_true, if_false]
  · simp only [keepStmt, hnone, if_neg (Nat.not_le.mpr hroom)]

/-- A transfer not known yet, at or above its source's floor, into a pool that is not settled, gets its record and its statement (R417). -/
theorem transferIn_new {src pool tally amount : Nat} {p : Pool} {s : State} (hring : s.cistern.ring.find? (isIn src tally) = none)
    (hfloor : floorOf src s ≤ tally) (hpool : poolGet pool s = some p) (hsettled : p.settled = false) (hroom : ringFull s = false) :
    let t := ringAdd ⟨.inbound, pool, src, tally, amount, false⟩ (issueTally (ringReclaim s)).2
    transferIn src pool tally amount s = stepStmt ⟨pool, 4, projHeld pool t + amount, amount, tally⟩ none t := by
  simp only [transferIn, hring, if_neg (Nat.not_lt.mpr hfloor), hpool, hsettled, hroom, Bool.false_eq_true, if_false]

/-- A pool whose `WORKING` is below half its `DRAW` draws when a step can be made (R411). -/
theorem exec_draw_low {pool : Nat} {p : Pool} {s : State} (hpool : poolGet pool s = some p) (hidle : p.drawing = none)
    (hdraws : drawsPossible p s = true) (hlow : 2 * p.working < p.draw) (hheld : 0 < projHeld pool s) (hdraw : 0 < p.draw)
    (hbar : stepBar s = none) :
    let n := min (projHeld pool s) p.draw
    exec (.draw pool) s =
      .next (stepStmt ⟨pool, 2, projHeld pool s - n, n, 0⟩ none (poolSet pool { p with drawing := some n } s)) := by
  have hsome : min (projHeld pool s) p.draw ≠ 0 := Nat.ne_of_gt (Nat.lt_min.mpr ⟨hheld, hdraw⟩)
  change execDraw pool s = _
  simp only [execDraw, hpool, hsome, hidle, hdraws, hlow, hbar, Option.isSome_none, decide_true, Bool.true_or, Bool.not_true,
    Bool.false_eq_true, or_self, if_false]

/-- Settles O42: each message or time is one operation of the ledger, whose tests the clause's conditions pass (`keepStmt_accepted`,
`transferIn_new`, `exec_draw_low`); the resend and the floor have no test. -/
theorem ledgerEventsComplete : Obligations.LedgerEventsComplete := by
  unfold Obligations.LedgerEventsComplete
  intro s
  dsimp only
  refine ⟨?adj, ?broadcast, ?statement, ?ack, ?transfer, ?answer, rfl, fun _ _ => rfl, ?draw, ?settle, ?join⟩
  case adj =>
    intro n a m hm hlater
    have hnew : ¬ (a.seq ≤ m.adjSeq ∧ m.adjSeq ≠ 0) := by omega
    change execAdj n a s = _
    simp only [execAdj, adjIn, hm]
    rw [if_neg hnew]
  case broadcast =>
    intro n origin b m hm
    change execBroadcast n origin (m.bcast + 1) b s = _
    cases b <;> simp only [execBroadcast, bcastIn, hm, if_neg (Nat.not_succ_le_self m.bcast), if_true]
  case statement =>
    exact fun st k hkept hnew hverdict hvoids => congrArg Host.Outcome.next (keepStmt_accepted hkept hnew hverdict hvoids)
  case ack =>
    intro src l v hkeeper
    change execStatementAck src (.ack l v) s = _
    simp only [execStatementAck, deliver, hkeeper, ne_eq, not_true_eq_false, if_false]
  case transfer =>
    exact fun src pool tally amount p hring hfloor hpool hsettled hroom =>
      congrArg Host.Outcome.next (transferIn_new hring hfloor hpool hsettled hroom)
  case answer =>
    intro dst pool tally r hring
    have hexec : ∀ a, exec (.transferAck dst pool tally a) s = .next (transferAnswer dst pool tally a s) := fun _ => rfl
    simp only [hexec, transferAnswer, hring, and_self]
  case draw => exact fun pool p hpool hidle hdraws hlow hheld hdraw hbar => exec_draw_low hpool hidle hdraws hlow hheld hdraw hbar
  case settle =>
    intro d pool acked k hkept hsettles
    change execSettleRequest d pool acked s = _
    simp only [execSettleRequest, settleKept, hkept, hsettles, Bool.false_eq_true, if_false]
  case join =>
    intro key hmode hsynced
    change execJoinSyncComplete key s = _
    simp only [execJoinSyncComplete, hmode, hsynced, decide_true, Bool.and_self, if_true]

/-! ### The Cistern's commands -/

theorem routeFn_of_runs {id code : Nat} {c : Cmd} {s : State} (h : Runs id code c s) (fn : Nat) :
    routeFn id fn s = (c.inlNat 48 1 == fn) := by
  have ⟨hget, _⟩ := h
  simp only [routeFn, hget]

/-- A pool of this device that no declaration has settled, its mints within 2^62 shares, takes a mint's statement (R429). -/
theorem exec_sharesMint_pool {id pool kind amount draw low : Nat} {p : Pool} {c : Cmd} {s : State} (h : Runs id 0x6001 c s)
    (hfresh : c.scratch = []) (hfields : mintFields c = (pool, kind, amount, draw, low)) (hnumber : pool ≠ 0)
    (hpool : poolGet pool s = some p) (hown : pool / 2 ^ 18 = ownDdn s) (hsettled : poolSettled pool p s = false)
    (hroom : p.minted + mintWaits pool s + amount ≤ 2 ^ 62) (hbar : stepBar s = none) :
    exec (.sharesMint id) s = .next (stepStmt ⟨pool, 1, projHeld pool s + amount, amount, 0⟩ (some c.id)
      (cmdPut { c with scratch := [1] } s)) := by
  have hmints : ¬ (pool / 2 ^ 18 ≠ ownDdn s ∨ poolSettled pool p s = true ∨ 2 ^ 62 < p.minted + mintWaits pool s + amount) :=
    not_or.mpr ⟨not_not_intro hown, not_or.mpr ⟨Bool.eq_false_iff.mp hsettled, Nat.not_lt.mpr hroom⟩⟩
  change execSharesMint id s = _
  rw [execSharesMint, next_runOp_of_runs h]
  simp only [hfresh, hfields, hnumber, hpool, hbar, List.isEmpty_nil, Bool.not_true, Bool.false_eq_true, if_false]
  exact congrArg Host.Outcome.next (if_neg hmints)

/-- A new pool takes the next number, is stored empty, and its mint's statement is formed (R429). -/
theorem exec_sharesMint_new {id kind amount draw low : Nat} {c : Cmd} {s : State} (h : Runs id 0x6001 c s) (hfresh : c.scratch = [])
    (hfields : mintFields c = (0, kind, amount, draw, low)) (hkind : kind = 1 ∨ kind = 2) (hamount : amount ≤ 2 ^ 62)
    (hlast : s.cistern.lastPool < 262143) (hcount : s.cistern.pools.length < 1048576) (hbar : stepBar s = none) :
    let n := ownDdn s * 2 ^ 18 + s.cistern.lastPool + 1
    let t := poolSet n ⟨kind, 0, 0, 0, draw, low, 0, 0, false, true, false, none⟩
      (s.modCistern fun x => { x with lastPool := x.lastPool + 1 })
    stepBar t = none →
      exec (.sharesMint id) s = .next (stepStmt ⟨n, 1, projHeld n t + amount, amount, 0⟩ (some c.id)
        (cmdPut { c with scratch := [1] } t)) := by
  intro n t hbarNew
  have hrange : ¬ ((!(kind == 1 || kind == 2)) || decide (2 ^ 62 < amount)) = true := by
    have hnamed : (kind == 1 || kind == 2) = true := by simpa using hkind
    simp only [hnamed, decide_eq_false (Nat.not_lt.mpr hamount), Bool.not_true, Bool.or_self, Bool.false_eq_true, not_false_eq_true]
  have hfree : ¬ (262143 ≤ s.cistern.lastPool ∨ 1048576 ≤ s.cistern.pools.length) :=
    not_or.mpr ⟨Nat.not_le.mpr hlast, Nat.not_le.mpr hcount⟩
  change execSharesMint id s = _
  rw [execSharesMint, next_runOp_of_runs h]
  simp only [hfresh, hfields, hbar, List.isEmpty_nil, Bool.not_true, Bool.false_eq_true, if_false, if_true]
  refine congrArg Host.Outcome.next ((if_neg hrange).trans ((if_neg hfree).trans ?_))
  rw [hbarNew]

/-- A transfer that the pool covers, to another reachable member, with room in the ring, gets its record and its statement (R417). -/
theorem exec_sharesTransfer_covered {id : Nat} {p : Pool} {c : Cmd} {s : State} :
    let pool := c.inlNat 48 4
    let dst := c.inlNat 52 2
    let n := c.inlNat 56 8
    Runs id 0x6002 c s → c.scratch = [] → poolGet pool s = some p → n ≠ 0 → dst ≠ ownDdn s → (memberGet dst s).isSome →
    p.settled = false → stepBar s = none → reaches dst s = true → n ≤ projHeld pool s → ringFull s = false →
    let r := issueTally (ringReclaim s)
    let t := ringAdd ⟨.prepared, pool, dst, r.1, n, false⟩ (cmdPut { c with scratch := [1] } r.2)
    exec (.sharesTransfer id) s = .next (stepStmtAt r.1 ⟨pool, 3, projHeld pool t - n, n, r.1⟩ (some c.id) t) := by
  dsimp only
  intro h hfresh hpool hsome hother hmember hsettled hbar hreaches hcovered hroom
  have hnamed : ¬ (c.inlNat 56 8 = 0 ∨ c.inlNat 52 2 = ownDdn s ∨
      (memberGet (c.inlNat 52 2) s).isNone = true ∨ p.settled = true) := by
    simp only [hsome, hother, hsettled, Option.isNone_eq_false_iff.mpr hmember, Bool.false_eq_true, or_self, not_false_eq_true]
  change execSharesTransfer id s = _
  rw [execSharesTransfer, next_runOp_of_runs h]
  simp only [hfresh, hpool, hbar, hreaches, hroom, hnamed, Nat.not_lt.mpr hcovered, List.isEmpty_nil, Bool.not_true, Bool.false_eq_true,
    if_false]

/-- `ROUTE_UPDATE` issues a certificate for a new member, or for a settled member's next incarnation (R406). -/
theorem exec_routeUpdateAdmit_issues {id : Nat} {c : Cmd} {s : State} :
    let d := c.inlNat 52 2
    let inc := c.inlNat 54 1
    Runs id 0x6005 c s → c.inlNat 48 1 = 1 → c.mode = .ceremony → s.dev.quorum = true → s.cistern.cert.isSome → d ≠ ownDdn s →
    d < 2 ^ fieldOf (regGet 0x9008 s) 3 0 → (∀ m, memberGet d s = some m → m.incarnation < inc ∧ allSettled d s = true) →
    let sig := drawBytes 4627 s
    let dig := bytesAt c.data 0 32
    let t := bcastTakes (ownDdn sig.2) (.member d inc dig) sig.2
    exec (.routeUpdateAdmit id) s =
      .next (finish c (Ending.out (certBytes d inc dig t ++ sig.1)) (broadcast (.member d inc dig) t)) := by
  dsimp only
  intro h hfn hmode hquorum hcert hother hlimit hnew
  have hheld : ¬ (!(c.mode == .ceremony && s.dev.quorum)) = true := by
    simp only [hmode, hquorum, beq_self_eq_true, Bool.and_self, Bool.not_true, Bool.false_eq_true, not_false_eq_true]
  have hcertified : s.cistern.cert.isNone = false := Option.isNone_eq_false_iff.mpr hcert
  have hnumber : decide (c.inlNat 52 2 = ownDdn s ∨ 2 ^ fieldOf (regGet 0x9008 s) 3 0 ≤ c.inlNat 52 2) = false :=
    decide_eq_false (not_or.mpr ⟨hother, Nat.not_le.mpr hlimit⟩)
  change execRouteUpdateAdmit id s = _
  simp only [execRouteUpdateAdmit, routeFn_of_runs h, hfn, Nat.reduceBEq, Bool.or_self, Bool.false_eq_true, if_false]
  rw [next_runOp_of_runs h]
  refine congrArg Host.Outcome.next ((if_neg hheld).trans (if_neg ?_))
  cases hmember : memberGet (c.inlNat 52 2) s with
  | none => simp only [hcertified, hnumber, Bool.or_self, Bool.false_eq_true, not_false_eq_true]
  | some m =>
    obtain ⟨hlater, hsettled⟩ := hnew m hmember
    simp only [hcertified, hnumber, decide_eq_false (Nat.not_le.mpr hlater), hsettled, Bool.not_true, Bool.or_self, Bool.false_eq_true,
      not_false_eq_true]

/-- Settles O41: each command is `runOp`'s body (`next_runOp_of_runs`), for `ROUTE_UPDATE` behind the test of its function
(`routeFn_of_runs`), and the clause's conditions pass the body's tests. -/
theorem ledgerCommandsComplete : Obligations.LedgerCommandsComplete := by
  unfold Obligations.LedgerCommandsComplete
  intro id keeper c s
  dsimp only
  refine ⟨?mintPool, ?mintNew, fun _ => exec_sharesTransfer_covered, ?balance, ?burn, exec_routeUpdateAdmit_issues, ?install, ?portCost,
    ?setKeeper, ?peer, ?peerExpert⟩
  case mintPool => exact fun pool kind amount draw low p => exec_sharesMint_pool
  case mintNew => exact fun kind amount draw low => exec_sharesMint_new
  case balance =>
    intro p h hpool
    change execSharesBalance id s = _
    rw [execSharesBalance, next_runOp_of_runs h]
    simp only [hpool]
  case burn =>
    intro m h hfresh hmember hstranded hpool haccepts
    have hnamed : ¬ ((!stranded m s) = true ∨ (c.inlNat 52 4 ≠ 0 ∧ (poolGet (c.inlNat 52 4) s).isNone = true)) := by
      rintro (hthere | ⟨hone, hnone⟩)
      · simp [hstranded] at hthere
      · simp [Option.isNone_iff_eq_none.mp hnone, hone] at hpool
    have hexec : exec (.sharesBurnStranded id keeper) s = execSharesBurnStranded id keeper s := rfl
    rw [hexec, execSharesBurnStranded, next_runOp_of_runs h]
    simp only [hfresh, hmember, hnamed, haccepts, List.isEmpty_nil, Bool.not_true, Bool.false_eq_true, if_false]
    refine ⟨?remote, ?kept, ?settled⟩
    case remote =>
      intro hkept hreaches
      simp only [hkept, hreaches, Option.isSome_none, Bool.not_true, Bool.false_eq_true, if_false]
    case kept =>
      intro k hkept hsettles
      simp only [hkept, hsettles, Option.isSome_some, Option.any_some, Bool.false_eq_true, if_false, if_true]
    case settled =>
      intro k hkept hsettles
      simp only [hkept, hsettles, Option.isSome_some, Option.any_some, if_true]
  case install =>
    intro h hfn hmode hddn hshape
    change execRouteUpdateInstall id true s = _
    simp only [execRouteUpdateInstall, routeFn_of_runs h, hfn, beq_self_eq_true, if_true]
    rw [next_runOp_of_runs h]
    simp only [hmode, hddn, hshape, ne_eq, not_true_eq_false, Bool.not_true, Bool.false_eq_true, or_self, if_false]
  case portCost =>
    intro h hfn hport hcost
    have hnamed : ¬ ((meshGet (c.inlNat 49 1) s).isNone = true ∨ c.inlNat 50 1 = 0) :=
      not_or.mpr ⟨Bool.eq_false_iff.mp (Option.isNone_eq_false_iff.mpr hport), hcost⟩
    change execRouteUpdatePortCost id s = _
    simp only [execRouteUpdatePortCost, routeFn_of_runs h, hfn, beq_self_eq_true, if_true]
    rw [next_runOp_of_runs h, if_neg hnamed]
  case setKeeper =>
    intro h hfn hfresh hidle hkeeper hlatest
    have hknown : ¬ (c.inlNat 52 2 ≠ ownDdn s ∧ (memberGet (c.inlNat 52 2) s).isNone = true) := fun ⟨hother, hnone⟩ => by
      simp [Option.isNone_iff_eq_none.mp hnone, hother] at hkeeper
    have hreached : ¬ (c.inlNat 52 2 ≠ ownDdn s ∧ (!reaches (c.inlNat 52 2) s) = true) := fun ⟨hother, hlost⟩ => by
      obtain ⟨hown, -⟩ | ⟨-, -, hreaches⟩ := hkeeper
      · exact hother hown
      · simp [hreaches] at hlost
    have haccepted : ¬ (c.inlNat 52 2 = ownDdn s ∧ (!vaultAccepts s) = true) := fun ⟨hown, hfull⟩ => by
      obtain ⟨-, haccepts⟩ | ⟨hother, -⟩ := hkeeper
      · simp [haccepts] at hfull
      · exact hother hown
    have hsome : s.cistern.ownLatest.isEmpty = false := List.isEmpty_eq_false_iff.mpr hlatest
    change execRouteUpdateSetKeeper id s = _
    simp only [execRouteUpdateSetKeeper, routeFn_of_runs h, hfn, beq_self_eq_true, if_true]
    rw [next_runOp_of_runs h]
    simp only [hfresh, hidle, hknown, hreached, haccepted, cmdPut_cistern, hsome, List.isEmpty_nil, Option.isSome_none, Bool.not_true,
      Bool.false_eq_true, or_self, if_false]
  case peer =>
    intro b h hform hrow
    change execPeerStatus id s = _
    rw [execPeerStatus, next_runOp_of_runs h]
    simp only [hform, hrow, if_true]
  case peerExpert =>
    intro k st h hform hkept hstmt hfits
    change execPeerStatus id s = _
    rw [execPeerStatus, next_runOp_of_runs h]
    simp only [hform, hkept, hstmt, Option.bind_some, needDst_fits hfits, if_false]

end Sys2Proof.Machine
end

section
/-! PROOFS. What every command and every step keeps: the form of the machine (O58), the parts a command may write (O60), the front of the
queue (O1). -/
namespace Sys2Proof.Machine
open Sys2Proof.Stated

/-- Every step keeps both memories canonical and every core's 16 registers: by `exec_keeps_mayWrite` for the command at the front of the
queue, by `tick_keeps` for the clock edge on an empty one. -/
theorem step_keepsForm (s : State) :
    OutAll (fun t => (Memory.wf s = true → Memory.wf t = true) ∧ (s.coresWf → t.coresWf)) (step s) := by
  unfold step
  split
  · have hkeeps := tick_keeps (Sub.refl _) (Keeps.refl _ s)
    exact OutAll.next ⟨hkeeps.mem, hkeeps.cores⟩
  next c rest _ =>
    obtain ⟨t, ht, hkeeps⟩ := exec_keeps_mayWrite c { s with pending := rest }
    exact ⟨t, ht, hkeeps.mem, hkeeps.cores⟩

/-- Settles O58: a step is one command with the rest of the queue, or one clock edge, and `step_keepsForm` covers both. -/
theorem stepsKeepTheMachineForm : Obligations.StepsKeepTheMachineForm := by
  unfold Obligations.StepsKeepTheMachineForm
  intro s t hstep hmem hcores
  obtain ⟨u, hu, hmemKept, hcoresKept⟩ := step_keepsForm s
  obtain rfl : u = t := by simpa [hu] using hstep
  exact ⟨hmemKept hmem, hcoresKept hcores⟩

/-- Settles O60: `exec_keeps_mayWrite` gives the next state and its frame over the set of the parts of the command's row, and a part that
is not in the list of the row is not in that set. -/
theorem commandsWriteOnlyTheirParts : Obligations.CommandsWriteOnlyTheirParts := by
  unfold Obligations.CommandsWriteOnlyTheirParts
  intro i s
  obtain ⟨t, ht, hkeeps⟩ := exec_keeps_mayWrite i s
  refine ⟨t, ht, hkeeps.queue, fun p hp => hkeeps.parts p ?_⟩
  rw [testBit_partSet, decide_eq_false hp]

/-- Settles O1: the queue that `step` looks at is the one given, so its front is the command given. -/
theorem stepRunsTheFrontCommand : Obligations.StepRunsTheFrontCommand := by
  unfold Obligations.StepRunsTheFrontCommand
  intro c rest s
  rfl

end Sys2Proof.Machine
end

section
/-! PROOFS. Families 13_warden_core and 14_privilege_and_protection: arithmetic (O3, O4, O53), what a register result leaves unchanged
(O54), loads and stores (O5, O6), atomics (O7), branches and the hardware loop (O8, O9), system instructions (O11), exceptions (O56),
the boundaries of a core (O12). -/
namespace Sys2Proof.Machine
open Sys2Proof.Stated

/-! ### A fetched instruction -/

/-- A fetched instruction that is well placed and legal comes to what its body says of the core before it. -/
theorem runInstr_fetched {n : Fin 4} {w : Word} {ban : Bool} {illegal : Core → Bool} {body : Core → State → Eff} {s s' : State}
    (hfetch : Fetches n s s') (hplace : placeIllegal ban (before n s) = false) (hlegal : illegal (before n s) = false) :
    runInstr n w ban illegal body s = .next (applyEff n.val (before n s) s (body (before n s) s')) := by
  obtain ⟨hruns, u, hcheck, rfl⟩ := hfetch
  exact runInstr_body hruns hcheck hplace hlegal

section
variable {n : Fin 4} {w : Word} {ban : Bool} {illegal : Core → Bool} {body : Core → State → Eff} {s s' t : State}

theorem runInstr_completes (hfetch : Fetches n s s') (hplace : placeIllegal ban (before n s) = false)
    (hlegal : illegal (before n s) = false) (hbody : body (before n s) s' = .done t false) :
    runInstr n w ban illegal body s = .next (completed n (before n s) t) := by
  rw [runInstr_fetched hfetch hplace hlegal, hbody]
  rfl

theorem runInstr_moves (hfetch : Fetches n s s') (hplace : placeIllegal ban (before n s) = false)
    (hlegal : illegal (before n s) = false) (hbody : body (before n s) s' = .moved t) : runInstr n w ban illegal body s = .next t := by
  rw [runInstr_fetched hfetch hplace hlegal, hbody, applyEff]

end

/-! ### Arithmetic -/

theorem runR_completes {n : Fin 4} {funct : Nat} {rd rs1 rs2 : BitVec 4} {f : Word → Word → Word} {s s' : State}
    (hfetch : Fetches n s s') (hplace : Placed n s) : runR n funct rd rs1 rs2 0 f s =
      .next (completed n (before n s) (putReg n.val rd (f ((before n s).reg rs1) ((before n s).reg rs2)) s')) :=
  runInstr_fetched hfetch hplace rfl

theorem runI_completes {n : Fin 4} {op : Nat} {rd rs1 : BitVec 4} {imm : BitVec 18} {bad : Bool} {f : Word → Word} {s s' : State}
    (hfetch : Fetches n s s') (hplace : Placed n s) (hgood : bad = false) : runI n op rd rs1 imm bad f s =
      .next (completed n (before n s) (putReg n.val rd (f ((before n s).reg rs1)) s')) :=
  runInstr_fetched hfetch hplace hgood

/-- Settles O3: each is `runR` with the operation of its row (`runR_completes`). -/
theorem registerArithmeticCompletes : Obligations.RegisterArithmeticCompletes := by
  unfold Obligations.RegisterArithmeticCompletes
  intro n rd rs1 rs2 s s' hfetch hplace k a b gives
  exact ⟨(runR_completes hfetch hplace : execAdd n rd rs1 rs2 0 s = _), (runR_completes hfetch hplace : execSub n rd rs1 rs2 0 s = _),
    (runR_completes hfetch hplace : execAnd n rd rs1 rs2 0 s = _), (runR_completes hfetch hplace : execOr n rd rs1 rs2 0 s = _),
    (runR_completes hfetch hplace : execXor n rd rs1 rs2 0 s = _), (runR_completes hfetch hplace : execShl n rd rs1 rs2 0 s = _),
    (runR_completes hfetch hplace : execShr n rd rs1 rs2 0 s = _), (runR_completes hfetch hplace : execSar n rd rs1 rs2 0 s = _),
    (runR_completes hfetch hplace : execRotr n rd rs1 rs2 0 s = _), (runR_completes hfetch hplace : execCmplt n rd rs1 rs2 0 s = _),
    (runR_completes hfetch hplace : execCmpltu n rd rs1 rs2 0 s = _), (runR_completes hfetch hplace : execMul n rd rs1 rs2 0 s = _),
    (runR_completes hfetch hplace : execMulhi n rd rs1 rs2 0 s = _), (runR_completes hfetch hplace : execMulhiu n rd rs1 rs2 0 s = _),
    (runR_completes hfetch hplace : execDiv n rd rs1 rs2 0 s = _), (runR_completes hfetch hplace : execDivu n rd rs1 rs2 0 s = _),
    (runR_completes hfetch hplace : execMod n rd rs1 rs2 0 s = _), (runR_completes hfetch hplace : execModu n rd rs1 rs2 0 s = _)⟩

/-- Settles O4: each is `runI` with the operation of its row (`runI_completes`); a shift count below 32 is its own remainder. -/
theorem immediateArithmeticCompletes : Obligations.ImmediateArithmeticCompletes := by
  unfold Obligations.ImmediateArithmeticCompletes
  intro n rd rs1 imm s s' hfetch hplace k a gives
  refine ⟨(runI_completes hfetch hplace rfl : execAddk n rd rs1 imm s = _),
    (runI_completes hfetch hplace rfl : execAndk n rd rs1 imm s = _),
    (runI_completes hfetch hplace rfl : execOrk n rd rs1 imm s = _), (runI_completes hfetch hplace rfl : execXork n rd rs1 imm s = _),
    (runI_completes hfetch hplace rfl : execCmpltk n rd rs1 imm s = _), (runI_completes hfetch hplace rfl : execCmpltuk n rd rs1 imm s = _),
    fun hcount => ?shifts, fun hrs1 himm => ?upk⟩
  case shifts =>
    have hgood : decide (32 ≤ imm.toNat) = false := decide_eq_false (Nat.not_le.mpr hcount)
    rw [← Nat.mod_eq_of_lt hcount]
    exact ⟨(runI_completes hfetch hplace hgood : execShlk n rd rs1 imm s = _),
      (runI_completes hfetch hplace hgood : execShrk n rd rs1 imm s = _),
      (runI_completes hfetch hplace hgood : execSark n rd rs1 imm s = _)⟩
  case upk =>
    subst hrs1
    exact (runI_completes hfetch hplace (decide_eq_false (Nat.not_le.mpr himm)) : execUpk n rd 0 imm s = _)

/-! ### Division (R445) -/

/-- Outside the two boundary rows the signed quotient is truncated toward zero. -/
theorem toInt_divS {a b : Word} (hb : b ≠ 0) (hfits : ¬(a = 0x80000000 ∧ b = 0xFFFFFFFF)) :
    (divS a b).toInt = a.toInt.tdiv b.toInt := by
  rw [divS, if_neg hb, if_neg hfits]
  exact BitVec.toInt_sdiv_of_ne_or_ne a b (not_and_or.mp hfits)

/-- There the remainder takes the sign of the dividend. -/
theorem toInt_modS {a b : Word} (hb : b ≠ 0) (hfits : ¬(a = 0x80000000 ∧ b = 0xFFFFFFFF)) :
    (modS a b).toInt = a.toInt.tmod b.toInt := by
  have hrem : modS a b = a.srem b :=
    calc modS a b = BitVec.ofInt 32 a.toInt - BitVec.ofInt 32 (divS a b).toInt * BitVec.ofInt 32 b.toInt := by
          simp only [modS, BitVec.ofInt_toInt]
      _ = BitVec.ofInt 32 (a.toInt - a.toInt.tdiv b.toInt * b.toInt) := by
          rw [toInt_divS hb hfits, ← BitVec.ofInt_mul, sub_eq_add_neg, ← BitVec.ofInt_neg, ← BitVec.ofInt_add, ← sub_eq_add_neg]
      _ = BitVec.ofInt 32 (a.srem b).toInt := by
          rw [BitVec.toInt_srem, Int.tmod_def, Int.mul_comm]
      _ = a.srem b := BitVec.ofInt_toInt
  rw [hrem, BitVec.toInt_srem]

theorem divS_mul_add_modS (a b : Word) : divS a b * b + modS a b = a := by
  rw [modS, add_sub_cancel]

theorem divU_mul_add_modU (a b : Word) : divU a b * b + modU a b = a := by
  by_cases hb : b = 0
  · simp [divU, modU, hb]
  · simp only [divU, modU, if_neg hb]
    refine BitVec.eq_of_toNat_eq ?_
    rw [BitVec.toNat_add, BitVec.toNat_mul, BitVec.toNat_udiv, BitVec.toNat_umod, Nat.mod_add_mod, Nat.div_add_mod',
      Nat.mod_eq_of_lt a.isLt]

/-- Settles O53: the results are those of `divS`, `modS`, `divU` and `modU`, completed by `runR_completes`; the two boundary rows are the
two tests of `divS`, and elsewhere it is the library's signed division. -/
theorem divisionNeverRaises : Obligations.DivisionNeverRaises := by
  unfold Obligations.DivisionNeverRaises
  intro n rd rs1 rs2 s s' hfetch hplace
  dsimp only
  refine ⟨_, _, _, _, (runR_completes hfetch hplace : execDiv n rd rs1 rs2 0 s = _),
    (runR_completes hfetch hplace : execMod n rd rs1 rs2 0 s = _), (runR_completes hfetch hplace : execDivu n rd rs1 rs2 0 s = _),
    (runR_completes hfetch hplace : execModu n rd rs1 rs2 0 s = _), (divS_mul_add_modS _ _).symm, (divU_mul_add_modU _ _).symm,
    ?byZero, ?least,
    fun hb hfits => ⟨toInt_divS hb hfits, toInt_modS hb hfits⟩, ?unsigned⟩
  case byZero =>
    intro hb
    simp [hb, divS, modS, divU, modU]
  case least =>
    intro ha hb
    rw [ha, hb]
    decide
  case unsigned =>
    intro hb
    simp only [divU, modU, if_neg hb]
    exact ⟨BitVec.toNat_udiv, BitVec.toNat_umod⟩

/-! ### What a register result leaves unchanged -/

theorem assocGet_assocSet_other {α : Type} {j k : Nat} (hne : j ≠ k) (v : Option α) (l : List (Nat × α)) :
    assocGet j (assocSet k v l) = assocGet j l := by
  induction l with
  | nil => cases v <;> simp [assocSet, assocGet, hne]
  | cons x rest ih =>
    obtain ⟨i, w⟩ := x
    simp only [assocSet]
    split
    · cases v <;> simp [assocGet, hne]
    · split
      next heq =>
        subst heq
        cases v <;> simp [assocGet, hne]
      next => simp only [assocGet, ih]

theorem regGet_regSet_other {j k : Nat} (hne : j ≠ k) (v : Word) (s : State) : regGet j (regSet k v s) = regGet j s := by
  simp only [regGet, regSet_regs, assocGet_assocSet_other hne]

theorem regGet_bump64_other {j k : Nat} (hlow : j ≠ k) (hhigh : j ≠ k + 4) (n : Nat) (s : State) :
    regGet j (bump64 k n s) = regGet j s := by
  simp only [bump64, regGet_regSet_other hlow, regGet_regSet_other hhigh]

/-- A register written reads as written; one of the 16 is there. -/
theorem Core.reg_setReg_same {k : Core} {i : BitVec 4} (hregs : k.regs.length = 16) (v : Word) :
    (k.setReg i v).reg i = if i = 0 then 0 else v := by
  have hlt : i.toNat < k.regs.length := by rw [hregs]; exact i.isLt
  by_cases hi : i = 0
  · rw [if_pos hi, hi, Core.setReg_zero, Core.reg_zero]
  · rw [if_neg hi, Core.reg, if_neg hi, Core.setReg, if_neg hi, List.getD_eq_getElem?_getD, List.getElem?_set_self hlt, Option.getD_some]

/-- A write of a general register changes nothing else of the core. -/
theorem Core.setReg_eq (k : Core) (i : BitVec 4) (v : Word) : k.setReg i v = { k with regs := (k.setReg i v).regs } := by
  simp only [Core.setReg]; split <;> rfl

@[simp] theorem coreGet_bump64 (m k c : Nat) (s : State) : coreGet m (bump64 k c s) = coreGet m s := rfl

@[simp] theorem coreMod_tags (n : Nat) (f : Core → Core) (s : State) : (coreMod n f s).warden.tags = s.warden.tags := by
  simp only [coreMod, State.modWarden]; (repeat' split) <;> rfl

/-- The core after a completed instruction: its place, its loop count, and the budget of its invocation. -/
theorem coreGet_completed (n : Fin 4) (k : Core) (s : State) : ∃ i, coreGet n.val (completed n k s) =
    { coreGet n.val s with pc := (nextPc k).1, slot := none, lc := (nextPc k).2, inv := i } := by
  simp only [completed, charge]
  split <;> simp only [coreGet_coreMod_self, coreGet_bump64]
  · exact ⟨_, rfl⟩
  · exact ⟨_, rfl⟩

theorem coreGet_completed_other {n m : Fin 4} (hne : m ≠ n) (k : Core) (s : State) :
    coreGet m.val (completed n k s) = coreGet m.val s := by
  simp only [completed, charge]
  split <;> simp only [coreGet_coreMod_other hne, coreGet_bump64]

/-- Completing an instruction writes the cores and the counter of instructions. -/
theorem completed_eq (n : Fin 4) (k : Core) (s : State) :
    completed n k s = { s with warden := (completed n k s).warden, regs := (completed n k s).regs } := by
  simp only [completed, charge]; split <;> rfl

theorem completed_sram (n : Fin 4) (k : Core) (s : State) : (completed n k s).warden.sram = s.warden.sram := by
  simp only [completed, charge]
  split <;> simp [bump64]

theorem completed_tags (n : Fin 4) (k : Core) (s : State) : (completed n k s).warden.tags = s.warden.tags := by
  simp only [completed, charge]
  split <;> simp [bump64]

theorem regGet_completed {n : Fin 4} {k : Core} {key : Nat} (hlow : key ≠ 0xA100) (hhigh : key ≠ 0xA104) (s : State) :
    regGet key (completed n k s) = regGet key s := by
  have hregs : (completed n k s).regs = (bump64 0xA100 1 s).regs := by
    simp only [completed, charge]; split <;> rfl
  exact (congrArg (fun l => (assocGet key l).getD (csrReset key)) hregs).trans (regGet_bump64_other hlow hhigh 1 s)

/-- Settles O54: the core is the one before with the register written (`Core.setReg_eq`) and completed (`coreGet_completed`); of the rest,
completing writes the counter of instructions alone (`completed_eq`, `regGet_completed`). -/
theorem registerResultsChangeNothingElse : Obligations.RegisterResultsChangeNothingElse := by
  unfold Obligations.RegisterResultsChangeNothingElse
  intro n rd v s
  obtain ⟨i, hcore⟩ := coreGet_completed n (coreGet n.val s) (putReg n.val rd v s)
  rw [putReg, coreGet_coreMod_self, Core.setReg_eq] at hcore
  have hreg : ∀ r,
      (coreGet n.val (completed n (coreGet n.val s) (putReg n.val rd v s))).reg r = ((coreGet n.val s).setReg rd v).reg r := by
    intro r
    rw [putReg, hcore]
    rfl
  have hrest := completed_eq n (coreGet n.val s) (putReg n.val rd v s)
  dsimp only
  refine ⟨?_, ?_, ?csrs, ?moreCsrs, ?others, ?sram, ?tags, ?regs, ?parts, ?moreParts⟩
  · exact fun hregs => (hreg rd).trans (Core.reg_setReg_same hregs v)
  · exact fun r hne => (hreg r).trans (Core.reg_setReg_other hne)
  case csrs => rw [putReg, hcore]
  case moreCsrs => rw [putReg, hcore]
  case others =>
    intro m hne
    rw [coreGet_completed_other hne, putReg, coreGet_coreMod_other hne]
  case sram =>
    intro a
    rw [completed_sram, putReg, coreMod_sram]
  case tags => rw [completed_tags, putReg, coreMod_tags]
  case regs =>
    intro key hlow hhigh
    exact regGet_completed hlow hhigh _
  case parts => rw [hrest]; rfl
  case moreParts => rw [hrest]; rfl

/-! ### Loads, stores, atomics -/

theorem inWindow_of_inSram {a : Nat} (h : inSram a = true) : inWindow a = false := by
  simp only [inSram, inWindow, decide_eq_true_eq, decide_eq_false_iff_not] at h ⊢
  omega

/-- A load that its checks admit gives the widened bytes of SRAM. -/
theorem runLoad_sram {n : Fin 4} {op size : Nat} {ext : Nat → Word} {rd rs1 : BitVec 4} {imm : BitVec 18} {s s' : State}
    (hfetch : Fetches n s s') (hplace : Placed n s) :
    let k := before n s
    let a := (k.reg rs1 + imm.signExtend 32).toNat
    dataCheck k .load a size s' = (none, none) ∧ inSram a = true →
      runLoad n op size ext rd rs1 imm s =
        .next (completed n k (putReg n.val rd (ext (leNat (sramRead a size s'))) s')) := by
  dsimp only
  rintro ⟨hcheck, hsram⟩
  exact runInstr_completes hfetch hplace rfl
    (by simp only [sx, hcheck, inWindow_of_inSram hsram, loadMem, hsram, if_true, Bool.false_eq_true, if_false])

/-- Settles O5: each is `runLoad` of its size with its widening (`runLoad_sram`). -/
theorem loadsFromSramComplete : Obligations.LoadsFromSramComplete := by
  unfold Obligations.LoadsFromSramComplete
  intro n rd rs1 imm s s' hfetch hplace
  dsimp only
  exact ⟨fun h => (runLoad_sram hfetch hplace h : execLdw n rd rs1 imm s = _),
    fun h => ⟨(runLoad_sram hfetch hplace h : execLdh n rd rs1 imm s = _),
      (runLoad_sram hfetch hplace h : execLdhu n rd rs1 imm s = _)⟩,
    fun h => ⟨(runLoad_sram hfetch hplace h : execLdb n rd rs1 imm s = _),
      (runLoad_sram hfetch hplace h : execLdbu n rd rs1 imm s = _)⟩⟩

section
variable {n : Fin 4} {op size : Nat} {rs2 rs1 : BitVec 4} {imm : BitVec 18} {bus : Bool} {s s' : State}

/-- A store that its checks admit and the SRAM does not refuse writes its bytes. -/
theorem runStore_sram (hfetch : Fetches n s s') (hplace : Placed n s) :
    let k := before n s
    let a := (k.reg rs1 + imm.signExtend 32).toNat
    dataCheck k .store a size s' = (none, none) ∧ inSram a = true →
      runStore n op size rs2 rs1 imm false s = .next (completed n k (sramWrite a (le size (k.reg rs2).toNat) s')) := by
  dsimp only
  rintro ⟨hcheck, hsram⟩
  exact runInstr_completes hfetch hplace rfl
    (by simp only [sx, hcheck, inWindow_of_inSram hsram, Bool.false_eq_true, if_false])

/-- A store that a granule's colour refuses is noted, and completes (R491). -/
theorem runStore_coloured (hfetch : Fetches n s s') (hplace : Placed n s) {region : Nat} :
    let k := before n s
    let a := (k.reg rs1 + imm.signExtend 32).toNat
    dataCheck k .store a size s' = (none, some region) →
      runStore n op size rs2 rs1 imm bus s = .next (completed n k (addLate n.val (lateTval a false false region) s')) := by
  dsimp only
  intro hcheck
  exact runInstr_completes hfetch hplace rfl (by simp only [sx, hcheck])

/-- A store that the SRAM refuses with a bus fault is noted, and completes (R496). -/
theorem runStore_busFault (hfetch : Fetches n s s') (hplace : Placed n s) :
    let k := before n s
    let a := (k.reg rs1 + imm.signExtend 32).toNat
    dataCheck k .store a size s' = (none, none) ∧ inSram a = true →
      runStore n op size rs2 rs1 imm true s = .next (completed n k (addLate n.val (lateTval a false false 15) s')) := by
  dsimp only
  rintro ⟨hcheck, hsram⟩
  exact runInstr_completes hfetch hplace rfl
    (by simp only [sx, hcheck, inWindow_of_inSram hsram, Bool.false_eq_true, if_false, if_true])

/-- A word store to the CSR window writes there (R49). -/
theorem runStore_window (hfetch : Fetches n s s') (hplace : Placed n s) :
    let k := before n s
    let a := (k.reg rs1 + imm.signExtend 32).toNat
    dataCheck k .store a size s' = (none, none) → inWindow a = true →
      runStore n op size rs2 rs1 imm bus s = .next (completed n k (spaceWrite32 (.core n) none (a % 0x20000000) (k.reg rs2) s')) := by
  dsimp only
  intro hcheck hwindow
  exact runInstr_completes hfetch hplace rfl (by simp only [sx, hcheck, hwindow, if_true])

end

/-- Settles O6: each is `runStore` of its size, on the branch that its checks select; completing leaves the SRAM as the store has left
it. -/
theorem storesToSramComplete : Obligations.StoresToSramComplete := by
  unfold Obligations.StoresToSramComplete
  intro n rs2 rs1 imm s s' hfetch hplace
  dsimp only
  refine ⟨runStore_sram hfetch hplace, runStore_sram hfetch hplace, runStore_sram hfetch hplace,
    ⟨fun region bus => ⟨runStore_coloured hfetch hplace, runStore_coloured hfetch hplace, runStore_coloured hfetch hplace⟩,
      runStore_busFault hfetch hplace, runStore_busFault hfetch hplace, runStore_busFault hfetch hplace⟩,
    fun bus => runStore_window hfetch hplace, ?outside⟩
  intro size x hwf hx
  rw [completed_sram]
  exact cellGet_cellsWrite_other hwf (by rwa [le_length])

/-- An atomic that its checks admit gives the old word and stores the new one. -/
theorem runAtomic_admitted {n : Fin 4} {funct : Nat} {f : Word → Word → Word} {rd rs1 rs2 : BitVec 4} {s s' : State}
    (hfetch : Fetches n s s') (hplace : Placed n s) :
    let k := before n s
    let a := (k.reg rs1).toNat
    let old := BitVec.ofNat 32 (leNat (sramRead a 4 s'))
    dataCheck k .atomic a 4 s' = (none, none) → runAtomic n funct f rd rs1 rs2 0 s =
      .next (completed n k (putReg n.val rd old (sramWrite a (le 4 (f old (k.reg rs2)).toNat) s'))) := by
  dsimp only
  intro hcheck
  exact runInstr_completes hfetch hplace rfl (by simp only [hcheck])

/-- Settles O7: both are `runAtomic` with what they store (`runAtomic_admitted`). -/
theorem atomicsComplete : Obligations.AtomicsComplete := by
  unfold Obligations.AtomicsComplete
  intro n rd rs1 rs2 s s' hfetch hplace
  dsimp only
  exact fun hcheck => ⟨(runAtomic_admitted hfetch hplace hcheck : execAtswap n rd rs1 rs2 0 s = _),
    (runAtomic_admitted hfetch hplace hcheck : execAtadd n rd rs1 rs2 0 s = _)⟩

/-! ### Branches and the hardware loop -/

theorem runB_branches {n : Fin 4} {op : Nat} {cond : Word → Word → Bool} {rs1 rs2 : BitVec 4} {off : BitVec 18} {s s' : State}
    (hfetch : Fetches n s s') (hplace : PlacedBranch n s) :
    let k := before n s
    runB n op cond rs1 rs2 off s =
      .next (branched n k (if cond (k.reg rs1) (k.reg rs2) then k.pc + 4 * off.signExtend 32 else k.pc + 8) s') :=
  runInstr_fetched hfetch hplace rfl

/-- Settles O8: the conditional branches are `runB` with their conditions (`runB_branches`); the others are their one body, in which
`callr` is legal unless it would overwrite its own target register. -/
theorem branchesComplete : Obligations.BranchesComplete := by
  unfold Obligations.BranchesComplete
  intro n rs1 rs2 rd off far s s' hfetch hplace
  dsimp only
  refine ⟨(runB_branches hfetch hplace : execBreq n rs1 rs2 off s = _), (runB_branches hfetch hplace : execBrne n rs1 rs2 off s = _),
    (runB_branches hfetch hplace : execBrlt n rs1 rs2 off s = _), (runB_branches hfetch hplace : execBrge n rs1 rs2 off s = _),
    (runB_branches hfetch hplace : execBrltu n rs1 rs2 off s = _), (runB_branches hfetch hplace : execBrgeu n rs1 rs2 off s = _),
    (runInstr_fetched hfetch hplace rfl : execJmp n far s = _), (runInstr_fetched hfetch hplace rfl : execCall n far s = _), ?callr⟩
  intro hrd
  have hlegal : (rd == rs1 && rd != 0) = false := by
    obtain hne | rfl := hrd
    · simp [hne]
    · simp
  exact (runInstr_fetched hfetch hplace hlegal : execCallr n rd rs1 off s = _)

/-- What a loop instruction comes to: a loop of 0 passes skips its body at once. -/
theorem applyEff_loopStart (n : Fin 4) (off : BitVec 14) (count : Core → Word) (k : Core) (s s' : State) :
    let e := k.pc + 4 * off.signExtend 32
    let t := coreMod n.val (fun x => { x with ls := k.pc + 4, le := e, lc := count k }) s'
    applyEff n.val k s (loopStart n.val off count k s') =
      if count k = 0 then charge n.val k (coreMod n.val (fun x => { x with pc := e + 4, slot := none }) t) else completedLc n k t := by
  dsimp only
  simp only [loopStart]
  split <;> rfl

theorem loopIllegal_fresh {off : BitVec 14} {k : Core} (hlc : k.lc = 0) (hoff : off ≠ 0) (hpos : off.msb = false) :
    loopIllegal off k = false := by
  simpa [loopIllegal, hlc, hpos] using hoff

/-- Settles O9: outside a loop and with a positive offset both are legal (`loopIllegal_fresh`) and come to `applyEff_loopStart`. -/
theorem hardwareLoopsStart : Obligations.HardwareLoopsStart := by
  unfold Obligations.HardwareLoopsStart
  intro n rs1 count off s s' hfetch hplace hlc hoff hpos
  dsimp only
  have hlegal := loopIllegal_fresh hlc hoff hpos
  constructor
  · change execLoop n 0 rs1 0 off s = _
    exact (runInstr_fetched hfetch hplace (by simpa using hlegal)).trans
      (congrArg Host.Outcome.next (applyEff_loopStart n off (fun k => k.reg rs1) _ s s'))
  · change execLoopi n count off s = _
    exact (runInstr_fetched hfetch hplace hlegal).trans
      (congrArg Host.Outcome.next (applyEff_loopStart n off (fun _ => ux count) _ s s'))

/-! ### System instructions -/

/-- Settles O11: each passes its place and its level (`runInstr_fetched`), and with no refused store to report its body is the effect
that the clause writes out. -/
theorem systemInstructionsComplete : Obligations.SystemInstructionsComplete := by
  unfold Obligations.SystemInstructionsComplete
  intro n rd rs1 rs2 imm s s' hfetch
  dsimp only
  intro hlate hlate'
  refine ⟨?xret, ?trap, ?wait, ?sync, fun hplace hlevel hsram => ⟨?tagw, ?tagr⟩⟩
  case xret =>
    intro hplace hlevel hprev hceil
    have hreturns : ¬ ((before n s).level < (before n s).prevLevel ∨ (before n s).pceil.toNat < (before n s).prevLevel) :=
      not_or.mpr ⟨Nat.not_lt.mpr hprev, Nat.not_lt.mpr hceil⟩
    change execXret n 0 s = _
    exact runInstr_moves hfetch hplace (by simp [hlevel]) (by simp only [hlate, if_neg hreturns])
  case trap =>
    intro hplace
    change execTrap n 0 imm s = _
    exact runInstr_moves hfetch hplace rfl (by simp only [trapOrLate, hlate', ux])
  case wait =>
    intro hplace hlevel
    change execWait n 0 s = _
    exact runInstr_completes hfetch hplace (by simp [hlevel]) rfl
  case sync =>
    intro hplace
    change execSync n 0 s = _
    exact runInstr_completes hfetch hplace rfl (by simp only [hlate])
  case tagw =>
    change execTagw n 0 rs1 rs2 0 s = _
    exact runInstr_completes hfetch hplace (by simp [hlevel])
      (by simp only [hsram, hlate, Bool.not_true, Bool.false_eq_true, if_false])
  case tagr =>
    change execTagr n rd rs1 0 s = _
    exact runInstr_completes hfetch hplace (by simp [hlevel])
      (by simp only [hsram, wfield, BitVec.shiftLeft_zero, Bool.not_true, Bool.false_eq_true, if_false])

/-! ### Exceptions -/

theorem coreMod_coreMod (n : Fin 4) (f g : Core → Core) (s : State) :
    coreMod n.val f (coreMod n.val g s) = coreMod n.val (fun x => f (g x)) s := by
  match n with
  | 0 | 1 | 2 | 3 => rfl

theorem coreMod_fixed {n : Fin 4} {f : Core → Core} {s : State} (h : f (coreGet n.val s) = coreGet n.val s) : coreMod n.val f s = s := by
  match n with
  | 0 => exact congrArg (fun k => { s with warden := { s.warden with c0 := k } }) h
  | 1 => exact congrArg (fun k => { s with warden := { s.warden with c1 := k } }) h
  | 2 => exact congrArg (fun k => { s with warden := { s.warden with c2 := k } }) h
  | 3 => exact congrArg (fun k => { s with warden := { s.warden with c3 := k } }) h

/-- A read of the flash array touches no core. -/
theorem coreGet_flashSense (m a : Nat) (s : State) : coreGet m (flashSense a s).2 = coreGet m s := by
  have hwarden : (flashSense a s).2.warden = s.warden := (flashSense_keeps (Sub.refl _) (Keeps.refl _ s)).snd.parts .warden rfl
  simp only [coreGet, hwarden]

/-- A core as a fetch may leave it: but for its distance from the flash banks and its `wait`, as before. -/
def FetchedAs (k x : Core) : Prop := ∃ a b w, x = { k with since0 := a, since1 := b, waiting := w }

/-- An admitted fetch notes the bank it comes from. -/
theorem fetchCheck_core {n : Fin 4} {s u : State} (h : fetchCheck n.val s = .ok () u) :
    ∃ a b, coreGet n.val u = { coreGet n.val s with since0 := a, since1 := b } := by
  simp only [fetchCheck] at h
  split at h
  · cases h
  split at h
  · cases h
  split at h
  · cases h
  split at h
  · split at h
    · cases h
    split at h
    next => cases h
    next v hsense =>
      obtain rfl := (MemAns.ok.inj h).2
      have hcore := congrArg (fun x => coreGet n.val x.2) hsense
      simp only [coreGet_flashSense, coreGet_coreMod_self] at hcore
      exact ⟨_, _, hcore.symm⟩
  · obtain rfl := (MemAns.ok.inj h).2
    exact ⟨_, _, coreGet_coreMod_self ..⟩

theorem fetches_core {n : Fin 4} {s s' : State} (h : Fetches n s s') : FetchedAs (before n s) (coreGet n.val s') := by
  obtain ⟨-, u, hcheck, rfl⟩ := h
  obtain ⟨a, b, hcore⟩ := fetchCheck_core hcheck
  exact ⟨a, b, false, by rw [coreGet_coreMod_self, hcore, before]⟩

/-- The state that the fetch leaves is the one before the instruction but for a `wait` that is over. -/
theorem fetches_unwaited {n : Fin 4} {s s' : State} (h : Fetches n s s') :
    fetchCheck n.val s = .ok () (coreMod n.val (fun x => { x with waiting := (before n s).waiting }) s') := by
  obtain ⟨-, u, hcheck, rfl⟩ := h
  obtain ⟨a, b, hcore⟩ := fetchCheck_core hcheck
  rw [coreMod_coreMod, coreMod_fixed (by rw [hcore, before]), hcheck]

/-- With no refused store to report, an exception is taken as the trap that it is, at the core as it was fetched for. -/
theorem raiseExc_unlate {n : Fin 4} {k : Core} {u : State} (hcore : FetchedAs k (coreGet n.val u)) (hlate : storeLate k = none)
    (code : Nat) (tval : Word) : raiseExc n.val code tval u = takeTrap n.val code tval k.slot.isSome k.here u := by
  obtain ⟨a, b, w, hcore⟩ := hcore
  have hnone : storeLate (coreGet n.val u) = none := by rw [hcore]; exact hlate
  have hslot : (coreGet n.val u).slot = k.slot := by rw [hcore]
  have hhere : (coreGet n.val u).here = k.here := by rw [hcore]; rfl
  simp only [raiseExc, trapOrLate, hnone, hslot, hhere]

section
variable {n : Fin 4} {s s' : State}

/-- A misplaced or illegal instruction raises `ILLEGAL` with its word. -/
theorem runInstr_raisesIllegal {w : Word} {ban : Bool} {illegal : Core → Bool} {body : Core → State → Eff} (hfetch : Fetches n s s')
    (hlate : storeLate (before n s) = none) (hbad : placeIllegal ban (before n s) = true ∨ illegal (before n s) = true) :
    runInstr n w ban illegal body s = .next (takeTrap n.val 1 w (before n s).slot.isSome (before n s).here
      (coreMod n.val (fun x => { x with waiting := (before n s).waiting }) s')) := by
  obtain ⟨a, b, v, hcore⟩ := fetches_core hfetch
  have hbefore : FetchedAs (before n s) (coreGet n.val (coreMod n.val (fun x => { x with waiting := (before n s).waiting }) s')) :=
    ⟨a, b, (before n s).waiting, by rw [coreGet_coreMod_self, hcore]⟩
  rw [runInstr_illegal hfetch.1 (fetches_unwaited hfetch) hbad, raiseExc_unlate hbefore hlate]

/-- A body that ends in an exception raises it. -/
theorem runInstr_raises {w : Word} {ban : Bool} {illegal : Core → Bool} {body : Core → State → Eff} {code : Nat} {tval : Word}
    (hfetch : Fetches n s s') (hlate : storeLate (before n s) = none) (hplace : placeIllegal ban (before n s) = false)
    (hlegal : illegal (before n s) = false) (hbody : body (before n s) s' = .exc code tval s') :
    runInstr n w ban illegal body s = .next (takeTrap n.val code tval (before n s).slot.isSome (before n s).here s') := by
  rw [runInstr_fetched hfetch hplace hlegal, hbody, applyEff, raiseExc_unlate (fetches_core hfetch) hlate]

variable {op funct size code : Nat} {rd rs1 rs2 : BitVec 4} {imm : BitVec 18}

theorem runR_reserved {z : BitVec 8} {f : Word → Word → Word} (hfetch : Fetches n s s') (hlate : storeLate (before n s) = none)
    (hz : z ≠ 0) : runR n funct rd rs1 rs2 z f s = .next (takeTrap n.val 1 (wordR funct rd rs1 rs2 z) (before n s).slot.isSome
      (before n s).here (coreMod n.val (fun x => { x with waiting := (before n s).waiting }) s')) :=
  runInstr_raisesIllegal hfetch hlate (.inr (by simpa using hz))

theorem runI_reserved {bad : Bool} {f : Word → Word} (hfetch : Fetches n s s') (hlate : storeLate (before n s) = none)
    (hbad : bad = true) : runI n op rd rs1 imm bad f s = .next (takeTrap n.val 1 (wordI op rd rs1 imm) (before n s).slot.isSome
      (before n s).here (coreMod n.val (fun x => { x with waiting := (before n s).waiting }) s')) :=
  runInstr_raisesIllegal hfetch hlate (.inr (by simpa using hbad))

theorem runB_misplaced {cond : Word → Word → Bool} (hfetch : Fetches n s s') (hlate : storeLate (before n s) = none)
    (hplace : placeIllegal true (before n s) = true) : runB n op cond rs1 rs2 imm s =
      .next (takeTrap n.val 1 (wordI op rs1 rs2 imm) (before n s).slot.isSome (before n s).here
        (coreMod n.val (fun x => { x with waiting := (before n s).waiting }) s')) :=
  runInstr_raisesIllegal hfetch hlate (.inl hplace)

theorem runLoad_refused {ext : Nat → Word} (hfetch : Fetches n s s') (hlate : storeLate (before n s) = none) (hplace : Placed n s)
    (hcheck : dataCheck (before n s) .load ((before n s).reg rs1 + imm.signExtend 32).toNat size s' = (some code, none)) :
    runLoad n op size ext rd rs1 imm s = .next (takeTrap n.val code ((before n s).reg rs1 + imm.signExtend 32)
      (before n s).slot.isSome (before n s).here s') :=
  runInstr_raises hfetch hlate hplace rfl (by simp only [sx, hcheck])

theorem runStore_refused {bus : Bool} (hfetch : Fetches n s s') (hlate : storeLate (before n s) = none) (hplace : Placed n s)
    (hcheck : dataCheck (before n s) .store ((before n s).reg rs1 + imm.signExtend 32).toNat size s' = (some code, none)) :
    runStore n op size rs2 rs1 imm bus s = .next (takeTrap n.val code ((before n s).reg rs1 + imm.signExtend 32)
      (before n s).slot.isSome (before n s).here s') :=
  runInstr_raises hfetch hlate hplace rfl (by simp only [sx, hcheck])

theorem runAtomic_refused {f : Word → Word → Word} (hfetch : Fetches n s s') (hlate : storeLate (before n s) = none)
    (hplace : Placed n s) (hcheck : dataCheck (before n s) .atomic ((before n s).reg rs1).toNat 4 s' = (some code, none)) :
    runAtomic n funct f rd rs1 rs2 0 s =
      .next (takeTrap n.val code ((before n s).reg rs1) (before n s).slot.isSome (before n s).here s') :=
  runInstr_raises hfetch hlate hplace rfl (by simp only [hcheck])

end

theorem dataCheck_misaligned {k : Core} {x : Access} {a size : Nat} {s : State} (h : a % size ≠ 0) :
    dataCheck k x a size s = (some 6, none) := if_pos h

theorem dataCheck_unmapped {k : Core} {x : Access} {a size : Nat} {s : State} (haligned : a % size = 0)
    (hmap : mapAdmits x k.level a size = false) : dataCheck k x a size s = (some 0xA, none) := by
  simp only [dataCheck, haligned, hmap, ne_eq, not_true_eq_false, Bool.not_false, if_false, if_true]

/-- Settles O56: a word that is illegal, misplaced or above its level raises `ILLEGAL` before its body (`runInstr_raisesIllegal`); a data
address that fails its checks raises the exception that `dataCheck` gives (`runInstr_raises`); a forged return traps from the body. -/
theorem exceptionsAreRaised : Obligations.ExceptionsAreRaised := by
  unfold Obligations.ExceptionsAreRaised
  intro n rd rs1 rs2 imm far s s' hfetch hlate hlate'
  dsimp only
  refine ⟨?reserved, ?shift, ?place, ?level, ?misaligned, ?unmapped, ?atomic, ?forged⟩
  case reserved =>
    exact fun z hz => ⟨(runR_reserved hfetch hlate hz : execAdd n rd rs1 rs2 z s = _),
      (runR_reserved hfetch hlate hz : execMul n rd rs1 rs2 z s = _)⟩
  case shift => exact fun hcount => (runI_reserved hfetch hlate (decide_eq_true hcount) : execShlk n rd rs1 imm s = _)
  case place =>
    exact fun hplace => ⟨(runB_misplaced hfetch hlate hplace : execBreq n rs1 rs2 imm s = _),
      (runInstr_raisesIllegal hfetch hlate (.inl hplace) : execJmp n far s = _)⟩
  case level =>
    intro hlevel
    exact ⟨(runInstr_raisesIllegal hfetch hlate (.inr (by simp [hlevel])) : execWait n 0 s = _),
      (runInstr_raisesIllegal hfetch hlate (.inr (by simp [hlevel])) : execXret n 0 s = _)⟩
  case misaligned =>
    exact fun hplace haddr => ⟨(runLoad_refused hfetch hlate hplace (dataCheck_misaligned haddr) : execLdw n rd rs1 imm s = _),
      (runStore_refused hfetch hlate hplace (dataCheck_misaligned haddr) : execStw n rs2 rs1 imm false s = _)⟩
  case unmapped =>
    exact fun hplace haddr hmap =>
      (runLoad_refused hfetch hlate hplace (dataCheck_unmapped haddr hmap) : execLdw n rd rs1 imm s = _)
  case atomic =>
    exact fun hplace haddr => (runAtomic_refused hfetch hlate hplace (dataCheck_misaligned haddr) : execAtswap n rd rs1 rs2 0 s = _)
  case forged =>
    intro hplace hlevel hforged
    change execXret n 0 s = _
    exact runInstr_moves hfetch hplace (by simp [hlevel]) (by simp only [hlate, if_pos hforged])

/-! ### Boundaries -/

/-- A DMA access to SRAM with the regions off is admitted (R493). -/
theorem dmaCheck_sram {k : Core} {a : Nat} {s : State} (hoff : k.mpuctl.getLsbD 1 = false) (hsram : inSram a = true) :
    dmaCheck k true a s = .ok s := by
  simp only [dmaCheck, hsram, hoff, Bool.true_or, Bool.not_true, Bool.and_false, Bool.not_false, Bool.false_eq_true, if_false, if_true]

/-- A transfer into SRAM that lies in one line is one access. -/
theorem dmaRun_line {n : Fin 4} {fuel a : Nat} {bytes : List Byte} {s : State} (hbytes : bytes ≠ [])
    (hline : a % 64 + bytes.length ≤ 64) (hoff : (coreGet n.val s).mpuctl.getLsbD 1 = false) (hsram : inSram a = true) :
    dmaRun n.val true (fuel + 2) a bytes bytes.length s = sramWrite a bytes s := by
  have hlen : bytes.length ≠ 0 := by simpa using hbytes
  have hwhole : min bytes.length (64 - a % 64) = bytes.length := by omega
  simp only [dmaRun, if_neg hlen, hwhole, dmaCheck_sram hoff hsram, List.take_length, Nat.sub_self, if_true]

/-- Settles O12: each row is due under the clause's conditions; no store waits on a core without refused accesses, and a transfer within
one line is one write (`dmaRun_line`). -/
theorem coreBoundariesComplete : Obligations.CoreBoundariesComplete := by
  unfold Obligations.CoreBoundariesComplete
  intro n s
  dsimp only
  refine ⟨?late, ?interrupt, ?dma⟩
  case late =>
    intro t rest hboundary hlate
    change execLateWrite n s = _
    simp only [execLateWrite, hboundary, hlate, if_true, takeLate]
  case interrupt =>
    intro i hon hboundary hmasked hlate hirq
    have hnone : storeLate (coreGet n.val
        (coreMod n.val (fun x => { x with ipend := x.ipend &&& ~~~((1 : BitVec 16) <<< i) }) s)) = none := by
      rw [coreGet_coreMod_self, storeLate, hlate]
      rfl
    change execInterrupt n none s = _
    simp only [execInterrupt, hon, hboundary, hmasked, hlate, hirq, trapOrLate, hnone, Bool.not_true, Bool.not_false, Bool.false_eq_true,
      List.isEmpty_nil, Bool.and_self, if_false, if_true]
  case dma =>
    intro a bytes hon hserves hoff hline hbytes hsram _
    change execDmaDone n a (some bytes) 0 s = _
    simp only [execDmaDone, hon, hserves, Bool.not_true, Bool.or_self, Bool.false_eq_true, if_false, Option.getD_some, Option.isSome_some,
      if_true, dmaRun_line hbytes hline hoff hsram]

end Sys2Proof.Machine
end

section
/-! PROOFS. Family 13_warden_core: the applet services (O13, O14) and the applet commands (O35). -/
namespace Sys2Proof.Machine
open Sys2Proof.Stated

/-! ### The applet services -/

/-- A service that is due is run for its invocation, and counted unless it comes back to a segment it waits for. -/
theorem service_due {core n : Nat} {i : Invocation} {s : State} (f : Invocation → State → State) (h : svcDue core n s = some i) :
    service core n f s = .next (f i (if i.seg.isNone then bump 0xA114 1 s else s)) := by
  simp only [service, h]

theorem service_new {core n : Nat} {i : Invocation} {s : State} (f : Invocation → State → State) (h : svcDue core n s = some i)
    (hseg : i.seg = none) : service core n f s = .next (f i (bump 0xA114 1 s)) := by
  rw [service_due f h, hseg]; rfl

theorem service_resumed {core n seg : Nat} {i : Invocation} {s : State} (f : Invocation → State → State) (h : svcDue core n s = some i)
    (hseg : i.seg = some seg) : service core n f s = .next (f i s) := by
  rw [service_due f h, hseg]; rfl

/-- Settles O13: each row is `service`'s body behind the tests of its arguments, which the clause's hypotheses pass. -/
theorem appletServicesComplete : Obligations.AppletServicesComplete := by
  unfold Obligations.AppletServicesComplete
  intro n i s hseg
  refine ⟨?exit, ?time, ?pstoreRead, ?log, ?random, ?budget⟩
  case exit =>
    intro h
    change execExit n s = _
    rw [execExit, service_new _ h hseg]
  case time =>
    intro h
    change execTime n s = _
    rw [execTime, service_new _ h hseg]
    rfl
  case pstoreRead =>
    intro h hbusy hrange hframe
    have hfits : ¬ 4096 < arg n.val 2 (bump 0xA114 1 s) + arg n.val 3 (bump 0xA114 1 s) := Nat.not_lt.mpr hrange
    have hinside : inFrame i (arg n.val 1 (bump 0xA114 1 s)) (arg n.val 3 (bump 0xA114 1 s)) = true := hframe
    change execPstoreRead n s = _
    rw [execPstoreRead, service_new _ h hseg]
    simp only [hbusy, hfits, hinside, Bool.not_true, Bool.false_eq_true, if_false]
    rfl
  case log =>
    intro h hlow hhigh hframe hspace
    have hlen : ¬ (arg n.val 2 (bump 0xA114 1 s) < 1 ∨ 64 < arg n.val 2 (bump 0xA114 1 s)) :=
      not_or.mpr ⟨Nat.not_lt.mpr hlow, Nat.not_lt.mpr hhigh⟩
    have hinside : inFrame i (arg n.val 1 (bump 0xA114 1 s)) (arg n.val 2 (bump 0xA114 1 s)) = true := hframe
    change execLog n s = _
    rw [execLog, service_new _ h hseg]
    simp only [hlen, hinside, hspace, Bool.not_true, Bool.false_eq_true, if_false]
    rfl
  case random =>
    intro bytes u h hafter hlow hhigh hframe hdrawn
    have hlen : ¬ (arg n.val 2 s < 1 ∨ 4096 < arg n.val 2 s ∨ (!inFrame i (arg n.val 1 s) (arg n.val 2 s)) = true) :=
      not_or.mpr ⟨Nat.not_lt.mpr hlow, not_or.mpr ⟨Nat.not_lt.mpr hhigh, by rw [hframe]; decide⟩⟩
    change execRandom n s = _
    simp only [execRandom, h, hlen, hdrawn, if_false]
    exact service_new _ hafter hseg
  case budget =>
    intro hinv hmain hserves hbudget hlevel
    change execAppletBudget n s = _
    simp only [execAppletBudget, hinv, hmain, hserves, hbudget, hlevel, beq_self_eq_true, Bool.and_self, if_true]

/-- Settles O14: `CALL` passes every test that would return a status, and step 5's verdict on the called command is none; `PSTORE_WRITE`
without a segment writes one, and with a durable one returns. -/
theorem waitingServicesComplete : Obligations.WaitingServicesComplete := by
  unfold Obligations.WaitingServicesComplete
  intro n i s
  refine ⟨?call, ?write, ?durable⟩
  case call =>
    intro p h hseg hget hhook hentry harea c hclass hflags hverdict hparts
    have hallowed : (!(decide (2 ≤ c.cls) && decide (c.cls ≤ 5)) && c.opcode != 0x1006) = false := by
      obtain ⟨hlow, hhigh⟩ | hop := hclass
      · rw [decide_eq_true hlow, decide_eq_true hhigh]; rfl
      · rw [hop, bne_self_eq_false, Bool.and_false]
    have hcalled : calledCmd n.val i p (sramRead (arg n.val 1 (bump 0xA114 1 s)) 64 (bump 0xA114 1 s)) (bump 0xA114 1 s) = c := rfl
    clear_value c
    change execServiceCall n s = _
    rw [execServiceCall, service_new _ h hseg]
    simp only [hget, hhook, hentry, harea, hcalled, hallowed, hflags, hverdict, hparts, Option.isNone_none, ne_eq, not_true_eq_false,
      Bool.not_true, Bool.and_false, Bool.or_self, Bool.false_eq_true, if_false, if_true]
  case write =>
    intro h hseg hhook hbusy hrange hframe hgen haccepts
    change execPstoreWrite n s = _
    rw [execPstoreWrite, service_new _ h hseg]
    simp only [hseg, hhook, hbusy, Nat.not_lt.mpr hrange, hframe, hgen, haccepts, ne_eq, not_true_eq_false, Bool.not_true,
      Bool.false_eq_true, if_false]
  case durable =>
    intro seg h hseg hknown hdurable
    change execPstoreWrite n s = _
    rw [execPstoreWrite, service_resumed _ h hseg]
    simp only [hseg, hknown, hdurable, Bool.false_eq_true, if_false, if_true]

/-! ### The applet commands -/

/-- Settles O35: each command is `runOp` with the body of its row; the tests in front of the archive's write, of the entry and of the
list are the clause's hypotheses. -/
theorem appletCommandsComplete : Obligations.AppletCommandsComplete := by
  unfold Obligations.AppletCommandsComplete
  intro id c s num rm
  refine ⟨?install, ?installed, ?remove, ?removed, ?invoke, ?list⟩
  case install =>
    intro h hnone hidle hnewer hroom hplace haccepts
    have hquota : ((!appletInstalled num s && decide (64 ≤ (appletsNow s).length))
        || (placeFor (Applet.size ⟨num, c.data, 0, 0, none⟩) s).isNone) = false := by
      rw [Option.isNone_eq_false_iff.mpr hplace, Bool.or_false, Bool.and_eq_false_iff]
      obtain hthere | hfew := hroom
      · exact .inl (by rw [hthere, Bool.not_true])
      · exact .inr (decide_eq_false (Nat.not_le.mpr hfew))
    have hnum : natAt c.data 6 2 = num := rfl
    clear_value num
    change execAppletInstall id s = _
    rw [execAppletInstall, next_runOp_of_runs h]
    simp only [hnone, hnum, hidle, hquota, Nat.not_le.mpr hnewer, haccepts, Bool.not_true, Bool.false_eq_true, if_false]
    cases pkgVerifies c s <;> rfl
  case installed =>
    intro seg b h hseg hdurable hplace
    change execAppletInstall id s = _
    rw [execAppletInstall, next_runOp_of_runs h]
    simp only [hseg, hdurable, if_true, installCommit,
      show placeFor (Applet.size ⟨natAt c.data 6 2, c.data, 0, 0, none⟩) s = some b from hplace]
    rfl
  case remove =>
    intro h hnone hidle hthere hkeys haccepts
    change execAppletRemove id s = _
    rw [execAppletRemove, next_runOp_of_runs h]
    simp only [hnone, hidle, hthere, hkeys, haccepts, rm, ne_eq, not_true_eq_false, Bool.not_true, Bool.false_eq_true, if_false]
  case removed =>
    intro seg h hseg hdurable
    change execAppletRemove id s = _
    rw [execAppletRemove, next_runOp_of_runs h]
    simp only [hseg, hdurable, if_true]
    rfl
  case invoke =>
    intro a e n h hidle happlet hlen hentry hfree
    change execAppletInvoke id s = _
    rw [execAppletInvoke, next_runOp_of_runs h]
    simp only [hidle, show appletAt (c.inlNat 48 2) c.dispTally s = some a from happlet, Nat.not_lt.mpr hlen, hentry, hfree,
      Bool.false_eq_true, if_false]
  case list =>
    intro b h hfits
    change execAppletList id s = _
    rw [execAppletList, next_runOp_of_runs h]
    simp only [show needDst ((appletsNow s).map (appletEntry s)).flatten.length c = none from needDst_fits hfits]
    rfl

end Sys2Proof.Machine
end

section
/-! PROOFS. Family 15_embedded_flash: the flash engine's rows and the image commands (O44). -/
namespace Sys2Proof.Machine
open Sys2Proof.Stated

/-- A `FLASH_CMD` of core `n` passes its checks: the core may write it, its partition and cells are free, its operands agree with
Table 15-6. -/
def FlashAdmits (n : Fin 4) (op len : Nat) (s : State) : Prop :=
  let a := (coreGet n.val s).flashAddr.toNat
  let src := (coreGet n.val s).flashSrc.toNat
  s.dev.mainOn = true ∧ coreServes n.val s = true ∧ (coreGet n.val s).level ≠ 0 ∧ partBusy (opPart op a) s = false ∧
  opOk op a len src s = true ∧ (opPart op a = 2 ∨ (fetchedLately (opPart op a) s = false ∧ inRunning a s = false)) ∧
  cellsAllow op a (sramRead src (opLenBytes op len) s) s = true

/-- An admitted command starts its operation; an erase first takes an erase-in-progress flag. -/
theorem flashOpRow_admitted {n : Fin 4} {op len : Nat} {s : State} (hop : ¬ (op = 0 ∨ 5 < op)) (h : FlashAdmits n op len s) :
    let a := (coreGet n.val s).flashAddr.toNat
    let data := sramRead (coreGet n.val s).flashSrc.toNat (opLenBytes op len) s
    let flag := if op = 3 ∨ op = 4 then openFlag (sectorNum a) s else (0, s)
    flashOpRow n op len s = setBusy (opPart op a) (some ⟨op, n.val, a, data, flag.1⟩) flag.2 := by
  obtain ⟨hmain, hserves, hlevel, hfree, hok, hbank, hcells⟩ := h
  have hreads : ¬ (opPart op (coreGet n.val s).flashAddr.toNat ≠ 2 ∧
      (fetchedLately (opPart op (coreGet n.val s).flashAddr.toNat) s = true ∨ inRunning (coreGet n.val s).flashAddr.toNat s = true)) := by
    rintro ⟨hnot, hthere⟩
    obtain hparam | ⟨hunfetched, hstill⟩ := hbank
    · exact hnot hparam
    · simp [hunfetched, hstill] at hthere
  simp only [flashOpRow, hmain, hserves, decide_eq_true hlevel, Bool.and_self, if_true]
  simp only [flashCmd, hop, hfree, hok, hreads, hcells, Bool.not_true, Bool.false_eq_true, if_false]

theorem flashOpRow_programs {n : Fin 4} {op len : Nat} {s : State} (hop : ¬ (op = 0 ∨ 5 < op)) (herase : ¬ (op = 3 ∨ op = 4))
    (h : FlashAdmits n op len s) :
    flashOpRow n op len s = setBusy (opPart op (coreGet n.val s).flashAddr.toNat) (some ⟨op, n.val, (coreGet n.val s).flashAddr.toNat,
      sramRead (coreGet n.val s).flashSrc.toNat (opLenBytes op len) s, 0⟩) s := by
  rw [flashOpRow_admitted hop h, if_neg herase]

theorem flashOpRow_erases {n : Fin 4} {op len : Nat} {s : State} (hop : ¬ (op = 0 ∨ 5 < op)) (herase : op = 3 ∨ op = 4)
    (h : FlashAdmits n op len s) :
    let a := (coreGet n.val s).flashAddr.toNat
    flashOpRow n op len s = setBusy (opPart op a) (some ⟨op, n.val, a,
      sramRead (coreGet n.val s).flashSrc.toNat (opLenBytes op len) s, (openFlag (sectorNum a) s).1⟩) (openFlag (sectorNum a) s).2 := by
  rw [flashOpRow_admitted hop h, if_pos herase]

/-- Settles O44: the engine's rows by `flashOpRow_admitted`; the end of an operation that verifies, and the image commands, by the tests
in front of them. -/
theorem flashRowsComplete : Obligations.FlashRowsComplete := by
  unfold Obligations.FlashRowsComplete
  intro n len id c s k a src admits starts erases
  have admitted : ∀ {op : Nat}, admits op → FlashAdmits n op len.toNat s := fun h => h
  refine ⟨?progRows, ?progWords, ?eraseMain, ?eraseParam, ?record, ?done, ?imageErase, ?imageWrite, ?status⟩
  case progRows => exact fun h => congrArg Host.Outcome.next (flashOpRow_programs (by decide) (by decide) (admitted h))
  case progWords => exact fun h => congrArg Host.Outcome.next (flashOpRow_programs (by decide) (by decide) (admitted h))
  case eraseMain => exact fun h => congrArg Host.Outcome.next (flashOpRow_erases (by decide) (by decide) (admitted h))
  case eraseParam => exact fun h => congrArg Host.Outcome.next (flashOpRow_erases (by decide) (by decide) (admitted h))
  case record => exact fun h => congrArg Host.Outcome.next (flashOpRow_programs (by decide) (by decide) (admitted h))
  case done =>
    intro p o weak hbusy
    change execFlashOpDone p true weak s = _
    simp only [execFlashOpDone, flashEnd, hbusy, Bool.not_true, Bool.false_and, Bool.false_eq_true, if_false, if_true]
  case imageErase =>
    intro h hfn hfree hunfetched hrunning
    change execImageLoadErase id true s = _
    rw [execImageLoadErase, namesFn_of_runs h, hfn, if_neg (by decide), next_runOp_of_runs h]
    simp only [imageLoad, hfree, hunfetched, hfn, beq_eq_false_iff_ne.mpr hrunning, Bool.or_self, Bool.false_eq_true, if_false, if_true]
  case imageWrite =>
    intro b h hfn hfree hunfetched hrunning hcells
    have hallow : cellsAllow 1 (imageBase (loadSlot c s) + c.inlNat 52 4) c.data s = true := hcells
    change execImageLoadWrite id true s = _
    rw [execImageLoadWrite, namesFn_of_runs h, hfn, if_pos (by decide), next_runOp_of_runs h]
    simp only [imageLoad, hfree, hunfetched, hfn, hallow, programmed, beq_eq_false_iff_ne.mpr hrunning, Bool.or_self, Bool.not_true,
      Bool.false_eq_true, if_false, if_true]
    rfl
  case status =>
    intro sig0 sig1 h
    exact next_runOp_of_runs h

end Sys2Proof.Machine
end

section
/-! PROOFS. Family 16_vault_cartridge: the vault's commands (O45) and the journal's and the cartridges' events (O46). -/
namespace Sys2Proof.Machine
open Sys2Proof.Stated

/-! ### The vault's commands -/

/-- Settles O45: each command is `runOp` with its row's body; what stands in front of the effect are the current cartridge, the record
that fits and the place in the journal, which the hypotheses give. -/
theorem vaultCommandsComplete : Obligations.VaultCommandsComplete := by
  unfold Obligations.VaultCommandsComplete
  intro id c s gives
  refine ⟨?format, ?status, ?read, ?exporting, ?exported, ?rebuild, ?layout⟩
  case format =>
    intro bytes u h hdrawn
    change execVaultFormat id s = _
    rw [execVaultFormat, next_runOp_of_runs h, withKey_drawn hdrawn]
  case status =>
    exact fun h => next_runOp_of_runs h
  case read =>
    intro h hcurrent hfits
    change execJournalRead id s = _
    rw [execJournalRead, next_runOp_of_runs h]
    simp only [List.isEmpty_eq_false_iff.mpr hcurrent, hfits, Bool.false_eq_true, if_false]
    rfl
  case exporting =>
    intro x sig out h hnone hcurrent hfits
    refine ⟨fun hstay => ?stays, fun hadvance haccepts hkey => ?advances⟩
    all_goals
      change execJournalExport id s = _
      rw [execJournalExport, next_runOp_of_runs h]
    case stays =>
      simp only [hnone, List.isEmpty_eq_false_iff.mpr hcurrent, hfits, hstay, Bool.false_eq_true, if_false]
      rfl
    case advances =>
      have hwrites : (!vaultAccepts (drawBytes 4627 s).2 || !(drawBytes 4627 s).2.vault.vaultKey) = false := by
        rw [show vaultAccepts (drawBytes 4627 s).2 = true from haccepts, show (drawBytes 4627 s).2.vault.vaultKey = true from hkey]; rfl
      simp only [hnone, List.isEmpty_eq_false_iff.mpr hcurrent, hfits, hadvance, hwrites, Bool.false_eq_true, if_false, if_true]
      rfl
  case exported =>
    intro seg h hseg hdurable
    change execJournalExport id s = _
    rw [execJournalExport, next_runOp_of_runs h]
    simp only [hseg, hdurable, if_true]
    rfl
  case rebuild =>
    intro n h hform hslot hmirrored hblank hother hidle
    have hforce : (c.form == 1 && (c.inlByte 49).getLsbD 0) = false := by rw [hform]; rfl
    have hplace : ¬ (2 ≤ n ∨ vaultLayout s ≠ .mirrored) := not_or.mpr ⟨Nat.not_le.mpr hslot, not_not.mpr hmirrored⟩
    have hnum : c.inlNat 48 1 = n := rfl
    clear_value n
    change execVaultRebuild id s = _
    rw [execVaultRebuild, next_runOp_of_runs h]
    simp only [hforce, hnum, hplace, hblank, hother, hidle]
    rfl
  case layout =>
    exact fun h => next_runOp_of_runs h

/-! ### The journal's and the cartridges' events -/

theorem frameWhole_of_token {f : BitVec 64} (h : frameToken f = true) : frameWhole f = true := (Bool.and_eq_true_iff.mp h).1

theorem none_beq_isNone (x : Option Nat) : (none == x) = x.isNone := by cases x <;> rfl

/-- Settles O46: each event is its row's body behind the test that says when it is due. A cartridge with no label opens the vault when the
device has none either. -/
theorem vaultEventsComplete : Obligations.VaultEventsComplete := by
  unfold Obligations.VaultEventsComplete
  intro n s gives cart
  refine ⟨?segment, ?rollup, ?presence, ?timeout, ?poll, ?broken, ?token, ?insert, ?bringUp, ?replay, ?catchUp, ?rebuilt, ?floors⟩
  case segment =>
    intro k hkey
    change execSegmentSeal k s = _
    simp only [execSegmentSeal, hkey, if_true]
    rfl
  case rollup =>
    intro hmain hsecond hfits
    change execRollupClose s = _
    simp only [execRollupClose, hmain, bne_iff_ne.mpr hsecond, hfits, Bool.and_self, if_true]
    rfl
  case presence =>
    intro hidle
    change execPresenceCheck n false s = _
    simp only [execPresenceCheck, hidle, Bool.or_self, Bool.false_eq_true, if_false]
    rfl
  case timeout =>
    intro hwaits
    have hdue : (slotBusy n.val s || (s.cart n).state == .bringup || s.vault.copying.isSome) = true := by
      obtain hbusy | hbringup := hwaits
      · rw [hbusy, Bool.true_or, Bool.true_or]
      · rw [beq_iff_eq.mpr hbringup, Bool.or_true, Bool.true_or]
    change execTokenTimeout n s = _
    simp only [execTokenTimeout, hdue, if_true]
    rfl
  case poll =>
    intro left st hcurrent
    change execCartStatusPoll n left st s = _
    rw [execCartStatusPoll, if_pos hcurrent]
  case broken =>
    intro f left cst hbroken
    change execCompletionToken n f left cst s = _
    simp only [execCompletionToken, hbroken, Bool.not_false, if_true]
    rfl
  case token =>
    intro f left cst g htoken htag status t
    have hstatus : f.toNat / 2 ^ 48 % 256 = status := rfl
    clear_value status
    refine ⟨fun hdone => ?done, fun hreadOnly => ?readOnly, fun herror hmany => ?error⟩
    all_goals
      change execCompletionToken n f left cst s = _
      simp only [execCompletionToken, frameWhole_of_token htoken, htoken, htag, hstatus, Bool.not_true, Bool.false_eq_true, if_false]
    case done => rw [if_pos hdone]
    case readOnly => rw [hreadOnly]; rfl
    case error => rw [herror, if_neg (by decide), if_pos rfl, if_pos (Nat.succ_le_succ hmany)]
  case insert =>
    intro hfitted hempty hmain
    change execCartridgeInsert n s = _
    simp only [execCartridgeInsert, hfitted, show (s.cart n).state = .empty from hempty, hmain, beq_self_eq_true, Bool.and_self, if_true]
    rfl
  case bringUp =>
    intro v12 page hbringup hunmeasured st t
    have hdue : ¬ ((s.cart n).state ≠ .bringup ∨ (s.cart n).measured = true) :=
      not_or.mpr ⟨not_not.mpr hbringup, Bool.eq_false_iff.mp hunmeasured⟩
    refine ⟨fun hpage => ?proved, ?unproved⟩
    case proved =>
      change execSlotBringUp n true true v12 page s = _
      simp only [execSlotBringUp, hdue, hpage, Bool.not_true, Bool.or_self, Bool.false_eq_true, if_false]
      rfl
    case unproved =>
      change execSlotBringUp n true false v12 page s = _
      simp only [execSlotBringUp, hdue, Bool.not_true, Bool.not_false, Bool.true_or, Bool.false_eq_true, if_false, if_true]
      rfl
  case replay =>
    intro segs hbringup hid kept discarded first t u
    have hdue : ¬ ((s.cart n).state ≠ .bringup ∨ (!cartIdOk n s) = true) := by
      rw [hid]; exact not_or.mpr ⟨not_not.mpr hbringup, Bool.false_ne_true⟩
    change execVaultReplay n none segs s = _
    simp only [execVaultReplay, hdue, Option.map_none, none_beq_isNone, if_false]
    rfl
  case catchUp =>
    intro hcopying
    change execCatchUpDone n s = _
    rw [execCatchUpDone, if_pos hcopying]
  case rebuilt =>
    intro hcopying
    change execVaultRebuildDone n s = _
    rw [execVaultRebuildDone, if_pos hcopying]
  case floors =>
    intro hbegun hshape t
    change execFloorsLoaded s = _
    simp only [execFloorsLoaded, hbegun, hshape, Bool.not_true, Bool.false_eq_true, if_false]
    rfl

end Sys2Proof.Machine
end

section
/-! PROOFS. Family 17_custodian_interfaces: the custodian unit's events (O48). -/
namespace Sys2Proof.Machine
open Sys2Proof.Stated

/-- Settles O48: each event is its row's body behind the test that says when it is due. -/
theorem custodianEventsComplete : Obligations.CustodianEventsComplete := by
  unfold Obligations.CustodianEventsComplete
  intro s gives q
  refine ⟨?same, ?changed, ?disagrees, ?expiry, ?probe, ?insert, ?atr, ?silent, ?removed, ?overcurrent, ?wake⟩
  case same =>
    intro hdue hsame
    change execVerdictEvaluation true s = _
    simp only [execVerdictEvaluation, hdue, Bool.not_true, Bool.false_eq_true, if_false]
    exact congrArg Host.Outcome.next (if_pos hsame)
  case changed =>
    intro hdue hchanged r t
    change execVerdictEvaluation true s = _
    simp only [execVerdictEvaluation, hdue, Bool.not_true, Bool.false_eq_true, if_false]
    exact congrArg Host.Outcome.next (if_neg hchanged)
  case disagrees =>
    intro hdue
    change execVerdictEvaluation false s = _
    simp only [execVerdictEvaluation, hdue, Bool.not_true, Bool.not_false, Bool.false_eq_true, if_false, if_true]
    rfl
  case expiry =>
    intro n x hsession hout hpast
    change execSessionExpiry n s = _
    simp only [execSessionExpiry, hsession, hout, decide_eq_false (Nat.not_lt.mpr hpast), Bool.or_self, Bool.false_eq_true, if_false]
    rfl
  case probe =>
    intro n hmain hawake hbadge
    change execProbe n true s = _
    simp only [execProbe, hmain, hawake, hbadge, Bool.not_false, Bool.and_self, if_true]
    rfl
  case insert =>
    intro hmain hnone
    change execCardInsert s = _
    simp only [execCardInsert, hmain, hnone, Bool.not_true, Bool.or_self, Bool.false_eq_true, if_false]
    rfl
  case atr =>
    intro hactive hnone
    change execAtr none s = _
    simp only [execAtr, beq_eq_false_iff_ne.mpr hactive, hnone, Bool.or_self, Bool.false_eq_true, if_false]
    rfl
  case silent =>
    intro hclass hnone
    change execCardSilent s = _
    simp only [execCardSilent, hclass, hnone, beq_self_eq_true, Bool.not_false, Bool.and_self, if_true]
    rfl
  case removed =>
    intro hmain hcard
    change execCardRemoved s = _
    simp only [execCardRemoved, hmain, hcard, Bool.not_true, Bool.or_self, Bool.false_eq_true, if_false]
    rfl
  case overcurrent =>
    intro hactive
    change execCardOvercurrent s = _
    simp only [execCardOvercurrent, beq_eq_false_iff_ne.mpr hactive, Bool.false_eq_true, if_false]
    rfl
  case wake =>
    intro hasleep henabled
    change execCapacitiveWake s = _
    simp only [execCapacitiveWake, hasleep, henabled, Bool.and_self, if_true]
    rfl

end Sys2Proof.Machine
end

section
/-! PROOFS. Family 18_tamper_and_backup_domain: the idle edge (O2), alarms and the backup domain (O49), the tamper commands (O50), the
Punty (O51). -/
namespace Sys2Proof.Machine
open Sys2Proof.Stated

/-! ### The slow clock's edge -/

theorem tallyRecords_none {s : State} (h : untallied s = []) : tallyRecords s = s := by rw [tallyRecords, h]; rfl

theorem recordAlarms_quiet {s : State} (hraised : s.tamper.raised = []) (htallied : untallied s = []) : recordAlarms s = s := by
  simp only [recordAlarms, tallyRecords_none htallied, ite_self, hraised, List.isEmpty_nil, if_true]

theorem slowEdge_backup {s : State} (h : s.dev.posted = []) : (slowEdge s).backup = s.backup := by
  simp [slowEdge, h]

/-- Settles O2: on an edge with nothing to record and nothing to land only `rtcTick` writes the backup domain. -/
theorem idleStepTicksTheRtc : Obligations.IdleStepTicksTheRtc := by
  unfold Obligations.IdleStepTicksTheRtc
  refine ⟨fun s hidle => by rw [step, hidle], fun s hpower hposted hraised htallied => ?_⟩
  have hpowered : backupPowered s = true := by simpa [backupPowered] using hpower
  have hclock : (tick s).backup = rtcTick s.backup := by
    simp only [tick, recordAlarms_quiet hraised htallied, ite_self, hpowered, if_true]
    split
    · rw [refreshSlow, State.modDev_backup]
      exact slowEdge_backup hposted
    · rfl
  exact hclock

/-! ### Alarms, decisions, the battery -/

/-- Settles O49: each event is its row's body behind the test that says when it is due. -/
theorem tamperEventsComplete : Obligations.TamperEventsComplete := by
  unfold Obligations.TamperEventsComplete
  intro s gives
  refine ⟨?raised, ?monitor, ?absent, ?edge, ?records, ?scrub, ?reform, ?decision, ?hold, ?copy, ?battery⟩
  case raised =>
    intro n a b hmain hraisable
    change execAlarmRaised n a b s = _
    simp only [execAlarmRaised, hmain, hraisable, Bool.and_self, if_true]
    rfl
  case monitor =>
    intro p a b hmain
    change execMonitorFault p a b s = _
    rw [execMonitorFault, if_pos hmain]
  case absent => exact fun n => rfl
  case edge =>
    intro hmain
    change execAlarmRecord s = _
    rw [execAlarmRecord, if_pos hmain]
  case records =>
    intro r hawake hboot hraised t
    have hready : (s.dev.asleep || s.dev.boot == .good) = false := by rw [hawake, beq_eq_false_iff_ne.mpr hboot]; rfl
    simp only [recordAlarms, hready, hraised, List.isEmpty_cons, Bool.false_eq_true, if_false]
    rfl
  case scrub =>
    intro hscrubbing
    change execScrubComplete s = _
    rw [execScrubComplete, if_pos hscrubbing]
  case reform =>
    intro hreform hdone
    change execWorkingKeysReformed s = _
    simp only [execWorkingKeysReformed, hreform, hdone, Bool.not_false, Bool.and_self, if_true]
    rfl
  case decision =>
    intro hdeciding hmain t
    have hrow : ∀ agree, exec (.zeroizeDecision agree) s = execZeroizeDecision agree s := fun _ => rfl
    simp only [hrow, execZeroizeDecision, hdeciding, hmain, Bool.not_true, Bool.not_false, Bool.false_eq_true, if_false, if_true]
    exact ⟨rfl, fun hretiring => congrArg Host.Outcome.next (if_pos hretiring), fun hkept hzero =>
      congrArg Host.Outcome.next ((if_neg (Bool.eq_false_iff.mp hkept)).trans (if_pos hzero))⟩
  case hold =>
    intro n a b agree hdark hcell hwatched hraisable hlow t
    have hdue : ¬ (s.dev.mainOn = true ∨ (!s.backup.vbat) = true ∨ (!watchedInHold n) = true ∨
        (10 ≤ n.val ∧ n.val < 18 ∧ (!raisable n s) = true)) := by
      simp [hdark, hcell, hwatched, hraisable]
    change execHoldAlarm n a b agree s = _
    simp only [execHoldAlarm, hdue, hlow, if_false, if_true]
    rfl
  case copy =>
    intro r hrecord hmain hfree hinside
    have hready : (!s.dev.mainOn || s.flash.busy0.isSome) = false := by rw [hmain, hfree]; rfl
    change execTamperLogCopy true s = _
    simp only [execTamperLogCopy, hrecord, hready, hinside, false_and, Bool.false_eq_true, if_false, if_true]
    rfl
  case battery =>
    intro mv hmain
    change execVbatMeasure mv s = _
    simp only [execVbatMeasure, hmain, Bool.not_true, Bool.false_eq_true, if_false]
    rfl

/-! ### The tamper commands -/

/-- Settles O50: each command is `runOp` with its row's body; a started row of the Punty or of a pin's register is not yet under way. -/
theorem tamperCommandsComplete : Obligations.TamperCommandsComplete := by
  unfold Obligations.TamperCommandsComplete
  intro id c s gives w
  refine ⟨?status, ?log, ?evidence, ?punty, ?pin⟩
  case status => exact fun h => next_runOp_of_runs h
  case log =>
    intro t rs n next h hroom
    have hfits : ¬ ((!rs.isEmpty) = true ∧ c.dstLen < 64) := by
      rintro ⟨hsome, hshort⟩
      obtain hnone | hwide := hroom
      · simp [hnone] at hsome
      · exact Nat.not_lt.mpr hwide hshort
    have hrecords : (logRecords s).filter (fun b => decide (c.inlNat 48 8 ≤ natAt b 8 8)) = rs := rfl
    clear_value rs
    change execTamperLogRead id s = _
    rw [execTamperLogRead, next_runOp_of_runs h]
    simp only [hrecords, hfits, if_false]
    rfl
  case evidence => exact fun h => next_runOp_of_runs h
  case punty =>
    intro f n t h hfresh
    change execPuntyWrite id s = _
    rw [execPuntyWrite, next_runOp_of_runs h]
    simp only [hfresh, List.isEmpty_nil, Bool.not_true, Bool.false_eq_true, if_false]
    rfl
  case pin =>
    intro key h hfresh hfree
    have hready : (!c.scratch.isEmpty || pend (0xE010 + 4 * c.inlNat 48 1) s) = false := by
      rw [hfresh, show pend (0xE010 + 4 * c.inlNat 48 1) s = false from hfree]; rfl
    change execTamperPinConfig id s = _
    rw [execTamperPinConfig, next_runOp_of_runs h]
    simp only [hready, Bool.false_eq_true, if_false]
    rfl

/-! ### The Punty -/

/-- A selected, live tag answers a read of rows in range with the rows and their CRC. -/
theorem puntyRead_inRange {row n : Nat} {s : State} (hlive : s.punty.field = true ∧ s.punty.selected = true ∧ s.punty.halted = false)
    (hrange : row + n ≤ 128) :
    let b := ((List.range n).map fun i => puntySeen (row + i) s).flatten
    puntyRead row n s = bump 0xF100 1 (s.modPunty fun p => { p with answer := b ++ crcA b }) := by
  obtain ⟨hfield, hselected, hawake⟩ := hlive
  simp only [puntyRead, hfield, hselected, hawake, Nat.not_lt.mpr hrange, Bool.not_true, Bool.or_self, Bool.false_eq_true, if_false]

/-- A swap that verifies programs the slot that is not the newest and turns its version bit, which makes it the newest. -/
theorem PuntyRow.swap_verified (bytes : List Byte) (crc : BitVec 16) (r : PuntyRow) :
    let fresh : PuntySlot := ⟨bytes, crc, if r.first then !r.slot1.ver else !r.slot0.ver⟩
    r.swap bytes crc true = if r.first then { r with slot1 := fresh } else { r with slot0 := fresh } := by
  cases hfirst : r.first <;> simp [PuntyRow.swap, hfirst]

/-- Settles O51: a verified swap turns the older slot's version bit; a read gathers its rows by `puntyRead_inRange`. -/
theorem puntyEventsComplete : Obligations.PuntyEventsComplete := by
  unfold Obligations.PuntyEventsComplete
  intro row s gives answers live seen
  refine ⟨?swap, ?select, ?read, ?read4, ?halt⟩
  case swap =>
    intro n bytes rest hshadow hpower slots fresh
    have hpowered : (!s.dev.mainOn && !s.backup.vbat) = false := by
      obtain hmain | hcell := hpower
      · rw [hmain]; rfl
      · rw [hcell, Bool.not_true, Bool.and_false]
    change execPuntySwap true s = _
    simp only [execPuntySwap, hshadow, hpowered, PuntyRow.swap_verified, Bool.not_true, Bool.false_eq_true, if_false]
    rfl
  case select =>
    intro hfield
    change execPuntyAnticollision s = _
    simp only [execPuntyAnticollision, hfield, Bool.not_true, Bool.false_eq_true, if_false]
    rfl
  case read =>
    intro hlive hrow
    have hrows : ((List.range 1).map fun i => puntySeen (row.toNat + i) s).flatten = seen 0 := List.append_nil _
    change execPtRead row s = _
    rw [execPtRead, puntyRead_inRange hlive hrow, hrows]
  case read4 =>
    intro hlive hrow
    have hrows : ((List.range 4).map fun i => puntySeen (row.toNat + i) s).flatten = seen 0 ++ seen 1 ++ seen 2 ++ seen 3 := by
      simp [List.range_succ, seen]
    change execPtRead4 row s = _
    rw [execPtRead4, puntyRead_inRange hlive (Nat.add_le_add_right hrow 4), hrows]
  case halt =>
    intro hfield hselected
    change execHlta s = _
    simp only [execHlta, hfield, hselected, Bool.and_self, if_true]
    rfl

end Sys2Proof.Machine
end
